-- ==== Sys2Proof/Word.lean ====
section
/-! DEFINITION. The word types of the device: bytes, 32-bit and 64-bit words, the bit patterns of the four
floating-point formats (R36), and the identifier widths that the spec gives (R33, R73, R424). -/

namespace Sys2Proof

/-- A byte of 8 bits (R9). -/
abbrev Byte := BitVec 8
/-- A 32-bit register or descriptor word (R12). -/
abbrev W32 := BitVec 32
/-- A 64-bit scalar register of a thread (R64) or an 8 B memory word. -/
abbrev W64 := BitVec 64
/-- A 48-bit local address (R33, R205). -/
abbrev Addr := BitVec 48
/-- The bits of an FP32 value (R36). -/
abbrev F32 := BitVec 32
/-- The bits of a BF16 value (R36). -/
abbrev B16 := BitVec 16
/-- A logical tile number, row × 64 + col (R21, R73). -/
abbrev TileNo := BitVec 11
/-- A thread number within a tile (R60). -/
abbrev ThreadNo := BitVec 10
/-- A polder number, 0–15 (R315). -/
abbrev PolderNo := BitVec 4
/-- A levee port number, 0–15 (R230). -/
abbrev PortNo := BitVec 4
/-- A mailbox number: 0–63, or 64 for the privileged mailbox (R413, R423). -/
abbrev MboxNo := Fin 65
/-- A device identifier (R33). -/
abbrev DevId := BitVec 20

end Sys2Proof
end

