-- ==== Sys2Proof/Syntax.lean ====
section
/-! DEFINITION. The commands of the device: one constructor of `Instr` for each row of spec/opcode_table.json, with the
operands that come from outside the block (a tile, a mailbox, a packet, a frame, the outcome of a physical test). What a
row takes from the device's own state (the fields of an instruction word in the program store, a descriptor in an engine
queue, the argument words of a mailbox) is no operand. -/

namespace Sys2Proof

/-- A fabric packet: its 32 B header as R253 lays it out, its payload, and the indices of payload words that arrived
poisoned (R260). -/
structure Packet where
  hdr : BitVec 256
  payload : List Byte
  poison : List Nat
  deriving DecidableEq, Repr

/-- A transport frame of a tidal port (R368): the addresses and ports its datagram was sent between, whether its UDP
checksum is right, the 64 B transport header (R369), the payload as it stands on the wire, and the GCM tag; and of the layers
below, which only a frame that this device sends sets by rule (R362, R363), the MAC addresses, the tag's priority and VLAN id, the
IPv6 traffic class, the hop limit and the flow label. -/
structure Frame where
  port : BitVec 1
  src : BitVec 128
  dst : BitVec 128
  sport : BitVec 16
  dport : BitVec 16
  sumOk : Bool
  hdr : BitVec 512
  body : List Byte
  tag : BitVec 128
  dmac : BitVec 48 := 0
  smac : BitVec 48 := 0
  vlan : Option (BitVec 3 × BitVec 12) := none
  tclass : BitVec 8 := 0
  hops : BitVec 8 := 0
  flow : BitVec 20 := 0
  deriving DecidableEq, Repr

/-- A message of the transport: its 32 B message header (R370) and its bytes. -/
structure Message where
  hdr : BitVec 256
  body : List Byte
  deriving DecidableEq, Repr

/-- What a device reports of an anchor (R344): the device, the outer step, and a digest for each shard id. -/
structure DigestReport where
  dev : DevId
  ostep : W32
  digs : List (W32 × BitVec 128)
  deriving DecidableEq, Repr

/-- The six engines that an operation descriptor can name (R72). -/
inductive EngineId where
  | fuller | steamer | napper | carder | blocker | router
  deriving DecidableEq, Repr

/-- A block that meters traffic in tides (R468). A tile router output is a plane and one of its four mesh directions or
its tile port; a cipher direction is a tidal port and transmit or receive. -/
inductive MeterId where
  | tileRouter (tile : TileNo) (plane : BitVec 1) (out : Fin 5)
  | levee (port : PortNo)
  | hbm (stack : BitVec 4)
  | ddr (channel : BitVec 3)
  | cipher (port : BitVec 1) (rx : Bool)
  deriving DecidableEq, Repr

/-- A unit in which a unit fault can be detected (R475, kinds of R423). -/
inductive UnitId where
  | tile (t : TileNo)
  | clock (cluster : BitVec 5)
  | tileRouter (t : TileNo)
  | leveeRouter
  | hbm (stack : BitVec 4)
  | ddr (channel : BitVec 3)
  deriving DecidableEq, Repr

/-- A block that BLOCK_CTL names (R466). -/
inductive BlockId where
  | leveePort (n : PortNo)
  | tidalPort (n : BitVec 1)
  | ddrGroup (n : BitVec 1)
  | hbmStack (n : BitVec 4)
  | cluster (n : BitVec 5)
  deriving DecidableEq, Repr

/-- What training found on one levee port (R238, R239, R242): the lanes that train, the neighbour's identifier and port
number where one answered, the lseq that the neighbour expects, and its cumulative counts of flits freed, by channel. -/
structure PortTrain where
  lanes : BitVec 9
  nbr : Option (DevId × PortNo)
  ack : BitVec 12 := 0
  cred : List (BitVec 16) := []
  deriving DecidableEq, Repr

/-- A DDR5 module as its socket finds it (R220): RDIMM (3DS included), MRDIMM or another type, its size in GiB and its rated
speed in MT/s. -/
structure Dimm where
  kind : Fin 3
  gib : BitVec 10
  speed : BitVec 16
  deriving DecidableEq, Repr

/-- A 64-bit word that scrubbing reads (R216, R219): at a local address, or in a tile's program store or codebook store. -/
inductive ScrubWord where
  | mem (a : Addr)
  | prog (t : TileNo) (i : BitVec 14)
  | codebook (t : TileNo) (i : BitVec 13)
  deriving DecidableEq, Repr

/-- The physical outcome of a bring-up stage (R435 to R441), which comes from outside the model: what each self-test,
memory test and training found. A stage reads only the fields that concern it. -/
structure StageOutcome where
  /-- Stage 1: the ROM's CRC is good. Stage 2: the fuses read. Stage 5: every clock and regulator locked. -/
  good : Bool
  /-- Stage 1: reeve cores that pass. -/
  cores : BitVec 5
  /-- Stage 2: the corrected PUF response; none when the helper data cannot correct it. -/
  puf : Option (BitVec 256)
  /-- Stages 6 and 7: physical tiles that fail, as cluster × 68 + column × 17 + physical row. -/
  badTiles : List Nat
  /-- Stage 7: failing words found. Stage 8: lanes substituted. -/
  found : BitVec 32
  /-- Stages 8 and 9: stacks that fail. -/
  badStacks : BitVec 16
  /-- Stage 9: each HBM row that fails, by its stack and an offset in the stack. -/
  rows : List (BitVec 4 × BitVec 36)
  /-- Stage 10: channels that fail training or test. -/
  badChannels : BitVec 8
  /-- Stage 10: the modules of each channel. -/
  modules : List (List Dimm)
  /-- Stage 11: what each cabled port found. -/
  ports : List (PortNo × PortTrain)
  /-- Stage 12: tidal ports with link, and cipher pipelines that fail their vectors. -/
  tidal : BitVec 2
  badPipes : List Nat
  /-- Always-on K-clk count at the stage's end. -/
  kend : BitVec 64
  deriving DecidableEq, Repr

/-- The commands, in the order of the table. An operand written with a default stands last; the default is a shorthand for
writing the command without it, and each meaning takes every value of it. -/
inductive Instr where
  -- crown instructions (file 03): the crown of the tile issues its next thread's instruction
  | add (t : TileNo) | sub (t : TileNo) | mul (t : TileNo) | andOp (t : TileNo) | orOp (t : TileNo)
  | xorOp (t : TileNo) | shl (t : TileNo) | shr (t : TileNo) | sar (t : TileNo) | addi (t : TileNo)
  | shli (t : TileNo) | slt (t : TileNo) | seq (t : TileNo) | flt (t : TileNo) | ld (t : TileNo)
  | ldDataReturn (t : TileNo) (th : ThreadNo)
  | st (t : TileNo) | bnz (t : TileNo) | bz (t : TileNo) | jmp (t : TileNo) | sumrd (t : TileNo)
  | waits (t : TileNo) | issue (t : TileNo) | issueSlotGrant (t : TileNo) | wait (t : TileNo)
  | spawn (t : TileNo) | exit (t : TileNo) | cyc (t : TileNo)
  -- engine operations (files 04 to 08, 12): the engine of the tile runs the operation it has started
  | matmul (t : TileNo) | bwdData (t : TileNo) | bwdWeight (t : TileNo) | adapterDown (t : TileNo)
  | fullerPassEnd (t : TileNo) | handoffBankDrain (t : TileNo) | handoffStallLimit (t : TileNo)
  | map (t : TileNo) | reduceSum (t : TileNo) | reduceMax (t : TileNo) | reduceMin (t : TileNo)
  | reduceArgmax (t : TileNo) | softmax (t : TileNo) | rmsnorm (t : TileNo) | layernorm (t : TileNo)
  | rmsnormBwd (t : TileNo) | layernormBwd (t : TileNo)
  | handoffEntryTake (t : TileNo) | handoffWaitLimit (t : TileNo)
  | encode (t : TileNo) | decode (t : TileNo) | roll (t : TileNo) | sload (t : TileNo) | sstore (t : TileNo)
  | expand (t : TileNo) | compress (t : TileNo) | verify (t : TileNo) | cbload (t : TileNo) | cbstore (t : TileNo)
  | update (t : TileNo) | gnorm (t : TileNo) | delta (t : TileNo) | outer (t : TileNo) | replace (t : TileNo)
  | recover (t : TileNo)
  | txnPreimageWritten (t : TileNo) | txnBlockStateAccepted (t : TileNo) | txnWorkingCopyAccepted (t : TileNo)
  | txnRollback (t : TileNo)
  | stateFetchReturn (t : TileNo) | chunkUpdateStart (t : TileNo) | waitSlotFree (t : TileNo)
  -- router operations (file 11)
  | allreduce (t : TileNo) | reduceScatter (t : TileNo) | allgather (t : TileNo) | alltoall (t : TileNo)
  | permute (t : TileNo) | permuteHoldCopyEnd (t : TileNo) | orFlag (t : TileNo) | transfer (t : TileNo)
  | pushCreditGrant (t : TileNo)
  | engineOpStart (t : TileNo) (e : EngineId) | engineOpEnd (t : TileNo) (e : EngineId)
  -- memory (file 09)
  | scrubRead (w : ScrubWord) | softRepairCopyEnd (stack : BitVec 4)
  -- fabric arrivals (files 10, 11)
  | writeRx (p : Packet) | readRx (p : Packet) | readDataRx (p : Packet) | writeAckRx (p : Packet)
  | redDataRx (p : Packet) | redOpenRx (p : Packet) | streamRoomGrant | failMarkRx (p : Packet)
  | redAckRx (p : Packet) | absorbedRx (p : Packet) | undeliveredRx (p : Packet)
  | chunkComplete (job coll : BitVec 16) (phase : Fin 6) (chunk : BitVec 24)
  | slowMemberNotice (job coll : BitVec 16) (phase : Fin 6)
  | tideBoundary (b : MeterId)
  | countLineWrite (p : PolderNo) (qid : BitVec 3) (count : W32)
  -- the levee link (file 10)
  | packetTransit (port : PortNo) (vc : BitVec 3) (lseq : BitVec 12) (slot : BitVec 6) (short : Bool) (p : Packet)
      (lost : Option Bool)
  | linkControlWordRx (port : PortNo) (w : W64)
  | linkControlTimer (port : PortNo) (vc : BitVec 3)
  | linkCodewordUncorrectable (port : PortNo)
  | handoverLeadRx (port : PortNo) (lead : W64) (p : Packet)
  | leveeRetrainStart (port : PortNo)
  | leveeRetrainEnd (port : PortNo) (found : PortTrain)
  -- management packets (file 17)
  | breakRx (p : Packet) | ping (p : Packet) | status (p : Packet) | mgmtAnswerRx (p : Packet)
  -- mailboxes and the front window (file 17)
  | mbxCmdWrite (m : MboxNo) (word : Fin 48) (v : W32)
  | mbxSeqWrite (m : MboxNo) (v : W32)
  | mbxGo (m : MboxNo) (rest : BitVec 30 := 0) | mbxCancel (m : MboxNo) (rest : BitVec 30 := 0) | mbxTakeUp (m : MboxNo) | mailboxStep (m : MboxNo)
  | registerWrite (a : Addr) (v : W32)
  | frontWindowIgnoredAccess (offset : BitVec 16) (write : Bool)
  | bulkApertureAccess (a : Addr) (write : Option (List Byte)) (n : Nat)
  -- mailbox commands: the work of the command's mailbox step (files 10, 13, 14 to 20)
  | devInfo (m : MboxNo) | noticeRing (m : MboxNo) | clusterClock (m : MboxNo) | levConfig (m : MboxNo)
  | levConfigShares (m : MboxNo) | polderCreate (m : MboxNo) | polderDestroy (m : MboxNo) | polderShares (m : MboxNo)
  | stageQueue (m : MboxNo) | mbxAssign (m : MboxNo) | faultRead (m : MboxNo) | stripeMode (m : MboxNo)
  | scrubPeriod (m : MboxNo) | elogRead (m : MboxNo) | progLoad (m : MboxNo) | threadStart (m : MboxNo)
  | threadPark (m : MboxNo) | threadResume (m : MboxNo) | threadFree (m : MboxNo) | descIssue (m : MboxNo)
  | collAbort (m : MboxNo) | openShards (m : MboxNo)
  | sluiceConfig (m : MboxNo) | sluiceShard (m : MboxNo) | sluiceMember (m : MboxNo) | sluiceReplay (m : MboxNo)
  | sluicePath (m : MboxNo) | sluiceShardmap (m : MboxNo)
  | cipherKex (m : MboxNo) | cipherKek (m : MboxNo) | keyLoad (m : MboxNo) | keyRetire (m : MboxNo)
  | keyActivate (m : MboxNo) | keyStatus (m : MboxNo) | legacyKey (m : MboxNo) | ciphLkgoWrite (v : W32)
  | ctrSnapshot (m : MboxNo) | ctrSelect (m : MboxNo)
  | bootImage (m : MboxNo) | licence (m : MboxNo) | attest (m : MboxNo)
  | resClaim (m : MboxNo) | resRelease (m : MboxNo) | stageRead (m : MboxNo)
  | resetTile (m : MboxNo) | resetCluster (m : MboxNo) | resetPolder (m : MboxNo) | resetDevice (m : MboxNo)
  -- resets and blocks (file 19)
  | nodeBreakAnswered | resetDrainEnd (id : Nat) | drainLimitExpiry (id : Nat) | resetRelease (id : Nat)
  | blockEnable (m : MboxNo) | blockDisable (m : MboxNo)
  | blockStartEnd (b : BlockId) (ok : Bool) (found : PortTrain) | blockStopEnd (b : BlockId)
  | spareStatus (m : MboxNo)
  | unitFault (u : UnitId) | mcRetrainEnd (u : UnitId) | reeveHeartbeatMiss (core : Fin 5)
  -- always-on domain, power, lands (files 16, 18, 21)
  | sensorAlarm (sensor : Fin 5)
  | almCauseWrite (v : W32)
  | pwrCapWrite (v : W32)
  | gpCtlWrite (board : Bool) (p : PolderNo) (v : W32)
  | throttleWindow (watts : BitVec 13) (vin : BitVec 11) (temps : List (BitVec 8)) (iodTemp : BitVec 8)
  | rstNAssert (ns : Nat) | rstNRelease (maddr : BitVec 2) (clockOk : Bool) | vinLoss
  | bringupStageEnd (o : StageOutcome)
  | dbgOpen
  | mgmtBusAddressAssign (a : BitVec 7)
  -- Sluice (file 14)
  | readyWordWrite (shard : W32) (v : W64) | stepWordWrite (v : W64) (a : Addr := 0)
  | holdingReportRx (dev : DevId) (site : Byte) (ostep : W32) (bad : Bool := false)
  | mergeFormed (shard : W32) | mergeWordRelease (shard : W32)
  | anchorDigestReport (rx : Option DigestReport := none)
  | holdEnd
  | contributionRx (m : Message) | ledgerNoticeRx (m : Message) | reconcileProposalRx (m : Message)
  | joinerFetchRequestRx (m : Message) | joinerStateRx (m : Message)
  -- tidal transport (file 15)
  | tidalMessageHandoff (site : Byte) (m : Message) (path : Option (BitVec 3) := none)
  | frameSend (path : Fin 512) | dataRx (f : Frame) | ackRx (f : Frame) | probeRx (f : Frame) | probeEchoRx (f : Frame)
  | ackTimer (path : Fin 512) | rtoExpiry (path : Fin 512) | holdoffExpiry (path : Fin 512)
  | pathProbeTimer (path : Fin 512) | pathDownTimeout (path : Fin 512) | rateIncrease (path : Fin 512)
  | refusedRequeue (path : Fin 512)
  | packetTooBigRx (path : Fin 512) (mtu : W32)
  | neighbourSolicitationRx (port : BitVec 1) (target : BitVec 128)
  | echoRequestRx (port : BitVec 1) (target : BitVec 128)
  | tidalPacketDiscard (port : BitVec 1)
  | tidalLinkLoss (port : BitVec 1) | tidalRetrainTimeout (port : BitVec 1)
  | shadowRotation (mismatch : Option (Fin 18)) | periodicKnownAnswerTest (failed : List (Fin 18))
  | powerOn | alarmConditionEnd (sensor : Fin 5) | tidalLinkRestored (port : BitVec 1)
  | leveeNeighbourTraining (port : PortNo) (found : PortTrain)
  | unknownOpCode (t : TileNo) | fetchOutsideRegion (t : TileNo)
  deriving DecidableEq, Repr

end Sys2Proof
end

