-- ==== Sys2Proof/Decode.lean ====
section
/-! DEFINITION. The decoder over the rows of the table that give bits: there are none, since the commands reach the block
as events, packets, frames and register writes and not as words. -/

namespace Sys2Proof

/-- The command that a word of nbits bits spells by the table's bits. No row of spec/opcode_table.json gives bits. -/
def decodeTableWord (_nbits _w : Nat) : Option Instr := none

end Sys2Proof
end

