-- ==== Sys2Proof/Machine/Bits.lean ====
section
/-! DEFINITION. Bit fields, byte order, sign extension and CRC-32C: the helpers through which every structure of the
spec is read and written (R12, R187). -/

namespace Sys2Proof.Machine

/-- Field [hi:lo] of a number (R12). -/
def bits (x hi lo : Nat) : Nat := (x >>> lo) % 2 ^ (hi + 1 - lo)

/-- Bit i of a number. -/
def bitAt (x i : Nat) : Bool := (x >>> i) % 2 = 1

/-- The number with field [hi:lo] replaced by v. -/
def setBits (x hi lo v : Nat) : Nat :=
  x - (bits x hi lo) <<< lo + (v % 2 ^ (hi + 1 - lo)) <<< lo

/-- The number 0 or 1 that stands for a truth value. -/
def b2n (b : Bool) : Nat := if b then 1 else 0

/-- The quotient rounded up. -/
def ceilDiv (a b : Nat) : Nat := (a + b - 1) / b

/-- A w-bit two's-complement field as an integer. -/
def sext (w x : Nat) : Int := if x % 2 ^ w < 2 ^ (w - 1) then (x % 2 ^ w : Nat) else (x % 2 ^ w : Nat) - (2 ^ w : Nat)

/-- The low n bytes of a number, least significant first (R12). -/
def toBytes : Nat → Nat → List Byte
  | 0, _ => []
  | n + 1, x => BitVec.ofNat 8 (x % 256) :: toBytes n (x / 256)

/-- The number that a little-endian byte sequence holds (R12). -/
def ofBytes : List Byte → Nat
  | [] => 0
  | b :: bs => b.toNat + 256 * ofBytes bs

/-- The n bytes at an offset of a byte sequence. -/
def sliceB (l : List Byte) (ofs n : Nat) : List Byte := (l.drop ofs).take n

/-- The little-endian number in n bytes at an offset. -/
def leAt (l : List Byte) (ofs n : Nat) : Nat := ofBytes (sliceB l ofs n)

/-- A byte sequence with n zero bytes. -/
def zeros (n : Nat) : List Byte := List.replicate n 0

/-- A byte sequence padded with zeros to a multiple of k bytes. -/
def padTo (k : Nat) (l : List Byte) : List Byte := l ++ zeros (ceilDiv l.length k * k - l.length)

/-- The bytes of a packet or transport word given most significant byte first (the Ethernet, IPv6 and UDP order of R12). -/
def toBytesBE (n x : Nat) : List Byte := (toBytes n x).reverse

/-- The number that a big-endian byte sequence holds. -/
def ofBytesBE (l : List Byte) : Nat := ofBytes l.reverse

/-- Eight steps of the reflected Castagnoli division (polynomial 0x1EDC6F41, R187). -/
def crcStep : Nat → Nat → Nat
  | 0, c => c
  | n + 1, c => crcStep n (if c % 2 = 1 then (c / 2) ^^^ 0x82F63B78 else c / 2)

/-- CRC-32C of a byte sequence (R187): initial value and final exclusive-or 0xFFFF_FFFF. -/
def crc32c (l : List Byte) : Nat :=
  (l.foldl (fun c b => crcStep 8 (c ^^^ b.toNat)) 0xFFFFFFFF) ^^^ 0xFFFFFFFF

/-- Serial comparison modulo 2^w: a lies behind b by 1 to 2^(w-1) - 1. -/
def behind (w a b : Nat) : Bool :=
  let d := (b + 2 ^ w - a % 2 ^ w) % 2 ^ w
  0 < d && d < 2 ^ (w - 1)

/-- Indices at which a list of truth values is true. -/
def trueIdx (l : List Bool) : List Nat := (List.range l.length).filter (fun i => l.getD i false)

/-- The positions of the bits set in the low n bits of a number. -/
def setPositions (n x : Nat) : List Nat := (List.range n).filter (bitAt x)

/-- A count held at its largest value (R56, R218, R416). -/
def satAdd (max a b : Nat) : Nat := min max (a + b)

end Sys2Proof.Machine
end

