-- ==== Sys2Proof/Machine/Float.lean ====
section
/-! DEFINITION. Number formats, exact values, roundings, conversions and code formats (file 02: R34 to R59). A value is
held exactly, as a signed integer times a power of two, and every rounding goes through one function. -/

namespace Sys2Proof.Machine

/-- An exact value: NaN (its sign and payload are discarded, R37), an infinity, or (−1)^neg · m · 2^e. -/
inductive FVal where
  | nan
  | inf (neg : Bool)
  | fin (neg : Bool) (m : Nat) (e : Int)
  deriving DecidableEq, Repr

/-- A floating-point format (R36): exponent bits, fraction bits, bias, largest finite encoding, infinity and NaN
encodings; E4M3 has no infinity and takes its NaN there. -/
structure FFmt where
  ebits : Nat
  fbits : Nat
  bias : Nat
  maxFin : Nat
  infBits : Nat
  nanBits : Nat
  hasInf : Bool
  deriving DecidableEq, Repr

def fp32 : FFmt := ⟨8, 23, 127, 0x7F7FFFFF, 0x7F800000, 0x7FC00000, true⟩
def bf16 : FFmt := ⟨8, 7, 127, 0x7F7F, 0x7F80, 0x7FC0, true⟩
def e4m3 : FFmt := ⟨4, 3, 7, 0x7E, 0x7F, 0x7F, false⟩
def e5m2 : FFmt := ⟨5, 2, 15, 0x7B, 0x7C, 0x7E, true⟩

/-- 2^k for an integer k applied to a natural number, with the remainder lost; used only where k ≥ 0. -/
def shl2 (m : Nat) (k : Int) : Nat := m <<< k.toNat

/-- The value that an encoding holds (R36). -/
def FFmt.decode (F : FFmt) (x : Nat) : FVal :=
  let neg := bitAt x (F.ebits + F.fbits)
  let e := bits x (F.ebits + F.fbits - 1) F.fbits
  let f := bits x (F.fbits - 1) 0
  let mag := x % 2 ^ (F.ebits + F.fbits)
  if F.hasInf ∧ e = 2 ^ F.ebits - 1 then (if f = 0 then .inf neg else .nan)
  else if ¬F.hasInf ∧ mag = F.nanBits then .nan
  else if e = 0 then .fin neg f (1 - F.bias - F.fbits)
  else .fin neg (2 ^ F.fbits + f) (e - F.bias - F.fbits)

def FVal.zero : FVal := .fin false 0 0
def FVal.one : FVal := .fin false 1 0

def FVal.isNan : FVal → Bool | .nan => true | _ => false
def FVal.isInf : FVal → Bool | .inf _ => true | _ => false
def FVal.isZero : FVal → Bool | .fin _ m _ => m == 0 | _ => false
def FVal.finite : FVal → Bool | .fin .. => true | _ => false
def FVal.isNeg : FVal → Bool | .fin n _ _ => n | .inf n => n | .nan => false

def FVal.neg : FVal → FVal
  | .nan => .nan
  | .inf n => .inf !n
  | .fin n m e => .fin (!n) m e

def FVal.abs : FVal → FVal
  | .nan => .nan
  | .inf _ => .inf false
  | .fin _ m e => .fin false m e

/-- The exact product; NaN for an infinity times a zero. -/
def FVal.mul : FVal → FVal → FVal
  | .nan, _ => .nan
  | _, .nan => .nan
  | .inf a, .inf b => .inf (a != b)
  | .inf a, .fin b m _ => if m = 0 then .nan else .inf (a != b)
  | .fin a m _, .inf b => if m = 0 then .nan else .inf (a != b)
  | .fin a m e, .fin b n f => .fin (a != b) (m * n) (e + f)

/-- A signed significand as an integer. -/
def signed (neg : Bool) (m : Nat) : Int := if neg then -(m : Int) else m

/-- The exact sum, with the sign of zero that IEEE 754 gives under round to nearest. -/
def FVal.add : FVal → FVal → FVal
  | .nan, _ => .nan
  | _, .nan => .nan
  | .inf a, .inf b => if a = b then .inf a else .nan
  | .inf a, _ => .inf a
  | _, .inf b => .inf b
  | .fin a m e, .fin b n f =>
    if m = 0 ∧ n = 0 then .fin (a && b) 0 0
    else
      let lo := min e f
      let s := signed a (shl2 m (e - lo)) + signed b (shl2 n (f - lo))
      if s = 0 then .fin false 0 0 else .fin (decide (s < 0)) s.natAbs lo

def FVal.sub (x y : FVal) : FVal := x.add y.neg

/-- The comparison of two values that are not NaN, as an ordering of exact numbers; −0 equals +0. -/
def FVal.lt : FVal → FVal → Bool
  | .nan, _ => false
  | _, .nan => false
  | .inf a, .inf b => a && !b
  | .inf a, _ => a
  | _, .inf b => !b
  | .fin a m e, .fin b n f =>
    let lo := min e f
    decide (signed a (shl2 m (e - lo)) < signed b (shl2 n (f - lo)))

def FVal.eqv (x y : FVal) : Bool := !x.isNan && !y.isNan && !x.lt y && !y.lt x
def FVal.le (x y : FVal) : Bool := x.lt y || x.eqv y

/-- floor(log2(num / den)) for positive num and den. -/
def floorLog2Q (num den : Nat) : Int :=
  let l : Int := (num.log2 : Int) - den.log2
  let ok := if 0 ≤ l then shl2 den l ≤ num else den ≤ shl2 num (-l)
  if ok then l else l - 1

/-- The positive number num / den · 2^e rounded to the grid of a format without an upper limit: a significand, the
exponent of its unit, and whether anything was lost (R48, R50). -/
def FFmt.roundMag (F : FFmt) (rtz : Bool) (num den : Nat) (e : Int) : Nat × Int × Bool :=
  let u := max (floorLog2Q num den + e - F.fbits) (1 - F.bias - F.fbits)
  let k := e - u
  let n := if 0 ≤ k then shl2 num k else num
  let d := if 0 ≤ k then den else shl2 den (-k)
  let q := n / d
  let r := n % d
  let up := !rtz && (decide (d < 2 * r) || (decide (2 * r = d) && q % 2 = 1))
  (q + b2n up, u, decide (r ≠ 0))

/-- The encoding of a rounded significand, without its sign; one at or past 2^(fbits + 1) moves to the next exponent. -/
def FFmt.pack (F : FFmt) (q : Nat) (u : Int) : Nat :=
  let q' := if 2 ^ (F.fbits + 1) ≤ q then q / 2 else q
  let u' := if 2 ^ (F.fbits + 1) ≤ q then u + 1 else u
  if q' < 2 ^ F.fbits then q'
  else ((u' + F.fbits + F.bias).toNat <<< F.fbits) + (q' - 2 ^ F.fbits)

/-- The sign bit of a format's encoding. -/
def FFmt.sign (F : FFmt) (neg : Bool) : Nat := if neg then 2 ^ (F.ebits + F.fbits) else 0

/-- A positive rational num / den · 2^e with a sign, rounded to nearest even and overflowing to infinity (R48). -/
def FFmt.rneQ (F : FFmt) (neg : Bool) (num den : Nat) (e : Int) : Nat :=
  if num = 0 then F.sign neg
  else
    let (q, u, _) := F.roundMag false num den e
    let b := F.pack q u
    F.sign neg + (if F.maxFin < b then F.infBits else b)

/-- rne of R48 and R59 into any format, without saturation or flush. -/
def FFmt.rne (F : FFmt) : FVal → Nat
  | .nan => F.nanBits
  | .inf n => if F.hasInf then F.sign n + F.infBits else F.nanBits
  | .fin n m e => F.rneQ n m 1 e

/-- The value of FP32 bits. -/
def val32 (x : F32) : FVal := fp32.decode x.toNat
/-- The value of BF16 bits. -/
def val16 (x : B16) : FVal := bf16.decode x.toNat
/-- rne_fp32 (R48, R59). -/
def rne32 (v : FVal) : F32 := BitVec.ofNat 32 (fp32.rne v)

def nan32 : F32 := 0x7FC00000
def inf32 : F32 := 0x7F800000
def ninf32 : F32 := 0xFF800000
def one32 : F32 := 0x3F800000

def fadd (x y : F32) : F32 := rne32 ((val32 x).add (val32 y))
def fsub (x y : F32) : F32 := rne32 ((val32 x).sub (val32 y))
def fmul (x y : F32) : F32 := rne32 ((val32 x).mul (val32 y))
/-- A fused multiply–add: one rounding (R59). -/
def ffma (x y z : F32) : F32 := rne32 (((val32 x).mul (val32 y)).add (val32 z))
def fneg (x : F32) : F32 := rne32 (val32 x).neg
def fabs (x : F32) : F32 := rne32 (val32 x).abs
/-- A value with its NaN made canonical (R37). -/
def fcanon (x : F32) : F32 := rne32 (val32 x)
def fnan? (x : F32) : Bool := (val32 x).isNan
def ffinite (x : F32) : Bool := (val32 x).finite
def fzero? (x : F32) : Bool := (val32 x).isZero

/-- The correctly rounded quotient (R133). -/
def fdiv (x y : F32) : F32 :=
  match val32 x, val32 y with
  | .nan, _ => nan32
  | _, .nan => nan32
  | .inf _, .inf _ => nan32
  | .inf a, .fin b _ _ => rne32 (.inf (a != b))
  | .fin a _ _, .inf b => rne32 (.fin (a != b) 0 0)
  | .fin a m e, .fin b n f =>
    if n = 0 then (if m = 0 then nan32 else rne32 (.inf (a != b)))
    else BitVec.ofNat 32 (fp32.rneQ (a != b) m n (e - f))

/-- The integer square root, by bits from position k down. -/
def isqrtGo (n : Nat) : Nat → Nat → Nat
  | 0, r => r
  | k + 1, r => isqrtGo n k (if (r + 2 ^ k) * (r + 2 ^ k) ≤ n then r + 2 ^ k else r)

/-- ⌊√n⌋. -/
def isqrt (n : Nat) : Nat := isqrtGo n (n.log2 / 2 + 1) 0

/-- The correctly rounded square root of an exact non-negative rational m / d · 2^e: the root is taken to 64 bits beyond
the significand, with the lost part marked in a bit below it. -/
def sqrtQ (m d : Nat) (e : Int) : F32 :=
  if m = 0 then 0
  else
    let k : Int := 128 + (if (e - 128) % 2 = 0 then 0 else 1)
    let n := (shl2 m k <<< (2 * d.log2)) / d
    let r := isqrt n
    let lost := r * r ≠ n ∨ (shl2 m k <<< (2 * d.log2)) % d ≠ 0
    BitVec.ofNat 32 (fp32.rneQ false (2 * r + b2n (decide lost)) 1 ((e - k) / 2 - d.log2 - 1))

/-- The correctly rounded square root (R133); −0 gives −0 and a negative number NaN, as IEEE 754 has it. -/
def fsqrt (x : F32) : F32 :=
  match val32 x with
  | .nan => nan32
  | .inf n => if n then nan32 else inf32
  | .fin n m e => if m = 0 then x else if n then nan32 else sqrtQ m 1 e

/-- The correctly rounded reciprocal square root (R133): the root of the exact reciprocal. -/
def frsqrt (x : F32) : F32 :=
  match val32 x with
  | .nan => nan32
  | .inf n => if n then nan32 else 0
  | .fin n m e => if m = 0 then rne32 (.inf n) else if n then nan32 else sqrtQ 1 m (-e)

/-- FP32 less-than: a NaN operand gives false and −0 equals +0 (R70). -/
def flt (x y : F32) : Bool := (val32 x).lt (val32 y)
def fle (x y : F32) : Bool := (val32 x).le (val32 y)

/-- The order of R145 on FP32 values that are not NaN, with −0 < +0. -/
def ford (x y : F32) : Bool := flt x y || ((val32 x).eqv (val32 y) && (val32 x).isNeg && !(val32 y).isNeg)

/-- max under R145. -/
def fmax (x y : F32) : F32 := if fnan? x || fnan? y then nan32 else if ford x y then y else x
/-- min under R145. -/
def fmin (x y : F32) : F32 := if fnan? x || fnan? y then nan32 else if ford y x then y else x

/-- An exact count as FP32. -/
def fofNat (n : Nat) : F32 := rne32 (.fin false n 0)

/-- A positive, normal, finite FP32 value (R44). -/
def scaleOk (x : F32) : Bool := 0x00800000 ≤ x.toNat && x.toNat ≤ 0x7F7FFFFF
/-- A positive normal power of two (R125). -/
def pow2Ok (x : F32) : Bool := scaleOk x && x.toNat % 2 ^ 23 = 0

/-! ### Conversion under conv (R50 to R54), with the counter it adds to (R56). -/

/-- The counter of R56 that a written element adds to; at most one (R57). -/
inductive Cls where
  | none | sat | flush | nonfin
  deriving DecidableEq, Repr

/-- Conversion of a value to a floating-point format under a conv field (R50): the encoding and the counter. FP32 takes an
FP32 value exactly, so conv.ftz has no part in it (R52). -/
def FFmt.conv (F : FFmt) (conv : Nat) (v : FVal) : Nat × Cls :=
  match v with
  | .nan => (F.nanBits, .nonfin)
  | .inf n => (if F.hasInf then F.sign n + F.infBits else F.nanBits, .nonfin)
  | .fin n m e =>
    if m = 0 then (F.sign n, .none)
    else
      let rtz := bitAt conv 0
      let (q, u, lost) := F.roundMag rtz m 1 e
      let b := F.pack q u
      if F.maxFin < b then
        if rtz || !bitAt conv 1 then (F.sign n + F.maxFin, .sat)
        else (if F.hasInf then F.sign n + F.infBits else F.nanBits, .nonfin)
      else if b = 0 then (F.sign n, .flush)
      else if bitAt conv 2 && F.fbits < 23 && b < 2 ^ F.fbits then (F.sign n, .flush)
      else
        -- a source beyond the largest finite value that rounds onto it is counted as saturated (R53)
        let past := b = F.maxFin && lost &&
          (FVal.fin false q u).lt (.fin false m e)
        (F.sign n + b, if past then .sat else .none)

/-- Round to BF16 by RNE, saturating (R168). -/
def bf16RneSat (v : FVal) : B16 := BitVec.ofNat 16 (bf16.conv 0 v).1

/-! ### Format codes (R34). -/

inductive Fmt where
  | fp32 | bf16 | e4m3 | e5m2 | n4 | n8 | u8l
  deriving DecidableEq, Repr

def Fmt.ofCode : Nat → Option Fmt
  | 0 => some .fp32 | 1 => some .bf16 | 2 => some .e4m3 | 3 => some .e5m2
  | 4 => some .n4 | 5 => some .n8 | 6 => some .u8l | _ => none

/-- Bits per element. -/
def Fmt.width : Fmt → Nat
  | .fp32 => 32 | .bf16 => 16 | .n4 => 4 | _ => 8

/-- The floating-point format, where the format is one. -/
def Fmt.float? : Fmt → Option FFmt
  | .fp32 => some Machine.fp32 | .bf16 => some Machine.bf16 | .e4m3 => some Machine.e4m3 | .e5m2 => some Machine.e5m2
  | _ => none

def Fmt.isFp8 : Fmt → Bool | .e4m3 | .e5m2 => true | _ => false
def Fmt.isCode : Fmt → Bool | .n4 | .n8 | .u8l => true | _ => false

/-! ### Code formats (R40 to R43, R52, R55). -/

/-- The N4 level of an index, in 256ths (R40). -/
def n4Level : Nat → Nat
  | 1 => 24 | 2 => 48 | 3 => 74 | 4 => 103 | 5 => 136 | 6 => 176 | 7 => 256 | _ => 0

/-- T[j] = rne_fp32(2^(−j/16)), the constants of R43. -/
def u8lTable : Nat → F32
  | 0 => 0x3F800000 | 1 => 0x3F75257D | 2 => 0x3F6AC0C7 | 3 => 0x3F60CCDF
  | 4 => 0x3F5744FD | 5 => 0x3F4E248C | 6 => 0x3F45672A | 7 => 0x3F3D08A4
  | 8 => 0x3F3504F3 | 9 => 0x3F2D583F | 10 => 0x3F25FED7 | 11 => 0x3F1EF532
  | 12 => 0x3F1837F0 | 13 => 0x3F11C3D3 | 14 => 0x3F0B95C2 | _ => 0x3F05AAC3

/-- u8l_decode (R43); code 0xFF is zero. -/
def u8lDecode (c : Nat) (scale : F32) : F32 :=
  if c = 0xFF then 0
  else rne32 ((val32 (fmul scale (u8lTable (c % 16)))).mul (.fin false 1 (-(c / 16 : Nat))))

/-- The exact value of an N4 or N8 code under a scale, or none for the escape code (R40, R42). -/
def codeVal (f : Fmt) (c : Nat) (scale : F32) : Option FVal :=
  match f with
  | .n4 =>
    if c = 8 then none
    else if c % 8 = 0 then some .zero
    else some ((FVal.fin (bitAt c 3) (n4Level (c % 8)) (-8)).mul (val32 scale))
  | .n8 =>
    if c = 0x80 then none
    else if c = 0 then some .zero
    else some ((FVal.fin (bitAt c 7) (16 + c % 16) ((bits c 6 4 : Nat) - 7 - 4)).mul (val32 scale))
  | _ => some (val32 (u8lDecode c scale))

/-- The largest c below n (counting down) at which a test holds, 0 when none does. -/
def largest (n : Nat) (p : Nat → Bool) : Nat :=
  match n with
  | 0 => 0
  | k + 1 => if p k then k else largest k p

/-- The smallest c below n at which a test holds, n when none does. -/
def smallest (n : Nat) (p : Nat → Bool) : Nat := ((List.range n).find? p).getD n

/-- The code of a finite value under a scale by rounding toward zero (R55), with the counter of R56. -/
def codeEncode (f : Fmt) (x : FVal) (scale : F32) : Nat × Cls :=
  let mag := x.abs
  let le (c : Nat) : Bool := ((codeVal f c scale).getD .nan).le mag
  match f with
  | .n4 =>
    let i := if x.isZero then 0 else largest 8 (fun i => 0 < i && le i)
    if i = 0 then (0, if x.isZero then .none else .flush)
    else (i + (if x.isNeg then 8 else 0),
      if i = 7 && ((codeVal .n4 7 scale).getD .nan).lt mag then .sat else .none)
  | .n8 =>
    let i := if x.isZero then 0 else largest 128 (fun i => 0 < i && le i)
    if i = 0 then (0, if x.isZero then .none else .flush)
    else (i + (if x.isNeg then 128 else 0),
      if i = 0x7F && ((codeVal .n8 0x7F scale).getD .nan).lt mag then .sat else .none)
  | _ =>
    if x.isZero then (0xFF, .none)
    else if x.isNeg then (0xFF, .flush)
    else if (val32 scale).lt x then (0, .sat)
    else
      let c := smallest 255 (fun c => (val32 (u8lDecode c scale)).le x)
      if c = 255 then (0xFF, .flush) else (c, .none)

/-- The top of a format: the largest decoded magnitude at scale 1 (R163). -/
def topOf : Fmt → F32
  | .n8 => 0x3FF80000 | .e4m3 => 0x43E00000 | .e5m2 => 0x47600000 | _ => one32

/-! ### Sums (R46, R47, R126). -/

/-- A level of the tree of R126: neighbours added pairwise, a last one without a partner passed on. -/
def pairUp : List F32 → List F32
  | a :: b :: t => fadd a b :: pairUp t
  | l => l

/-- tree of R126 over at most 64 leaves. -/
def tree64 (l : List F32) : F32 :=
  (pairUp (pairUp (pairUp (pairUp (pairUp (pairUp l)))))).headD 0

/-- rowsum's loop over blocks of 64, with the running sum. -/
def rowsumGo : Nat → Option F32 → List F32 → F32
  | 0, s, _ => s.getD 0
  | n + 1, s, l =>
    if l = [] then s.getD 0
    else
      let t := tree64 (l.take 64)
      rowsumGo n (some (match s with | none => t | some s => fadd s t)) (l.drop 64)

/-- rowsum of R126. -/
def rowsum (l : List F32) : F32 := rowsumGo (l.length / 64 + 1) none l

/-- floor(log2) of a nonzero finite value. -/
def FVal.ilog2 : FVal → Int
  | .fin _ m e => m.log2 + e
  | _ => 0

/-- A product truncated toward zero at weight 2^lo, as an integer multiple of 2^lo, and whether a nonzero bit was cut. -/
def truncAt (lo : Int) : FVal → Int × Bool
  | .fin n m e =>
    if lo ≤ e then (signed n (shl2 m (e - lo)), false)
    else
      let d := 2 ^ (lo - e).toNat
      (signed n (m / d), decide (m % d ≠ 0))
  | _ => (0, false)

/-- add_group of R47: the FP32 accumulator after one group of at most 32 products, and whether the window cut a bit. -/
def addGroup (acc : F32) (ps : List (FVal × FVal)) : F32 × Bool :=
  let prods := ps.map (fun p => p.1.mul p.2)
  if fnan? acc then (nan32, false)
  else if prods.any FVal.isNan then (nan32, false)
  else
    let pos := prods.any (fun p => p.isInf && !p.isNeg)
    let neg := prods.any (fun p => p.isInf && p.isNeg)
    if pos && neg then (nan32, false)
    else if pos then (fadd acc inf32, false)
    else if neg then (fadd acc ninf32, false)
    else if (val32 acc).isInf then (acc, false)
    else
      let nz := prods.filter (fun p => !p.isZero)
      match nz with
      | [] => (acc, false)
      | p :: rest =>
        let lo := rest.foldl (fun l q => max l q.ilog2) p.ilog2 - 47
        let ts := nz.map (truncAt lo)
        let s : Int := ts.foldl (fun a t => a + t.1) 0
        let cut := ts.any Prod.snd
        if s = 0 then (acc, cut)
        else (rne32 ((val32 acc).add (.fin (decide (s < 0)) s.natAbs lo)), cut)

/-- A list cut into pieces of k, at most n of them. -/
def chunksOf {α : Type} (k : Nat) : Nat → List α → List (List α)
  | 0, _ => []
  | n + 1, l => if l.isEmpty then [] else l.take k :: chunksOf k n (l.drop k)

/-- The groups of 32 of a sequence of products, added in ascending order (R46), with the count of truncated groups. -/
def addGroups (acc : F32) (ps : List (FVal × FVal)) : F32 × Nat :=
  (chunksOf 32 (ps.length / 32 + 1) ps).foldl
    (fun a g => let r := addGroup a.1 g; (r.1, a.2 + b2n r.2)) (acc, 0)

end Sys2Proof.Machine
end

