-- ==== Sys2Proof/Config.lean ====
section
/-! DEFINITION. What one device fixes and the spec does not: the free values. Each is a constant without a body, so no
proof can rest on a value of it; the assumption log names the rule that leaves each open. -/

namespace Sys2Proof

/-- A value the spec leaves open, fresh at each use: the state's counter is its argument. -/
opaque Config.freeValue : Nat → BitVec 64

/-- Cycles of a clock that passed since the counter was last seen (R482): the model has no clock edges. -/
opaque Config.elapsed : Nat → Nat

/-- The value taken for a transcendental function where the interval evaluation does not settle the rounding at its
last precision (R133); no such argument is known. -/
opaque Config.unsettled : Nat → BitVec 32 → BitVec 32

/-- The outcome that a pattern of 4 or more bits in error gives at a word (R216). -/
opaque Config.eccOutcome : Nat → Nat → Nat

/-- The syndrome that the decoder reports (R216, R218): the check matrix is not published. -/
opaque Config.syndrome : Nat → BitVec 16

/-- A fresh X25519 private value of the key exchange (R390). -/
opaque Config.exchangeSecret : Nat → BitVec 256

/-- The fused 64-bit serial number (R450). -/
opaque Config.serial : BitVec 64

/-- Creune's firmware and licence verification keys, which the boot ROM holds (R444, R445). -/
opaque Config.firmwareKey : BitVec 256
opaque Config.licenceKey : BitVec 256

/-- The DRAM row and the bank in which a place of an HBM stack lies (R213, R215): the base die's geometry is not given. -/
opaque Config.rowOf : Nat → Nat
opaque Config.bankOf : Nat → Nat

/-- The address of the consumer's fill line, by the producer's stage-queue record (R323, R324): no field of that record
holds it. -/
opaque Config.fillLine : BitVec 256 → BitVec 48

/-- The local address of the first word of a DRAM row (R218). -/
opaque Config.rowFirst : Nat → Nat

end Sys2Proof
end

