-- ==== Sys2Proof/Machine/Store.lean ====
section
/-! DEFINITION. Sparse tables as plain data: a list of (key, value) pairs with strictly rising keys. A table with a
default drops an entry equal to the default, so that equal contents are equal lists. Memory is such a table of bytes
(Host.Cell) whose unlisted addresses read as zero. -/

namespace Sys2Proof.Machine

/-- A sparse table keyed by numbers. -/
abbrev NMap (α : Type) := List (Nat × α)

namespace NMap
variable {α : Type}

/-- The entry at a key. -/
def find? : NMap α → Nat → Option α
  | [], _ => none
  | (k, v) :: t, a => if a = k then some v else find? t a

/-- The table with an entry put at a key. -/
def insert : NMap α → Nat → α → NMap α
  | [], a, x => [(a, x)]
  | (k, v) :: t, a, x =>
    if a < k then (a, x) :: (k, v) :: t
    else if a = k then (k, x) :: t
    else (k, v) :: insert t a x

/-- The table without the entry at a key. -/
def erase (m : NMap α) (a : Nat) : NMap α := m.filter (fun p => p.1 ≠ a)

/-- The value at a key, the default where none is listed. -/
def get (m : NMap α) (d : α) (a : Nat) : α := (find? m a).getD d

/-- The table with a value written; a value equal to the default is not listed. -/
def set [DecidableEq α] (m : NMap α) (d : α) (a : Nat) (x : α) : NMap α :=
  if x = d then erase m a else insert m a x

/-- The table with the value at a key changed by a function. -/
def upd [DecidableEq α] (m : NMap α) (d : α) (a : Nat) (f : α → α) : NMap α := set m d a (f (get m d a))

/-- The keys listed. -/
def keys (m : NMap α) : List Nat := m.map Prod.fst

/-- The table without the entries whose keys lie in lo to hi - 1. -/
def clear (m : NMap α) (lo hi : Nat) : NMap α := m.filter (fun p => p.1 < lo || hi ≤ p.1)

/-- The table without the entries whose keys the test picks out. -/
def dropKeys (m : NMap α) (p : Nat → Bool) : NMap α := m.filter (fun e => !p e.1)

/-- The table with every listed value changed by a function. -/
def mapVals {β : Type} (m : NMap α) (f : Nat → α → β) : NMap β := List.map (fun p => (p.1, f p.1 p.2)) m

/-- The canonical form with respect to a default: keys strictly rising and no entry equal to the default. -/
def wf [DecidableEq α] (m : NMap α) (d : α) : Bool :=
  decide ((keys m).Pairwise (· < ·)) && m.all (fun p => decide (p.2 ≠ d))

end NMap

/-- Memory: bytes by key, zero where nothing is listed. -/
abbrev Mem := NMap Byte

namespace Mem

/-- The byte at a key. -/
def read (m : Mem) (a : Nat) : Byte := NMap.get m 0 a

/-- The memory with one byte written. -/
def write (m : Mem) (a : Nat) (b : Byte) : Mem := NMap.set m 0 a b

/-- n bytes from a key on. -/
def readN (m : Mem) (a : Nat) : Nat → List Byte
  | 0 => []
  | n + 1 => read m a :: readN m (a + 1) n

/-- The memory with bytes written from a key on. -/
def writeN (m : Mem) (a : Nat) : List Byte → Mem
  | [] => m
  | b :: bs => writeN (write m a b) (a + 1) bs

/-- The canonical form of memory. -/
def wf (m : Mem) : Bool := NMap.wf m 0

end Mem

end Sys2Proof.Machine
end

