-- ==== Sys2Proof/Machine/State.lean ====
section
/-! DEFINITION. The state of the device as plain data: tiles, memories, polders, mailboxes, fabric, collectives, the
tidal ports, the cipher, Sluice, bring-up, resets, counters and the always-on domain, with the queue of waiting commands;
and its value at reset. -/

namespace Sys2Proof.Machine

/-- A status code (the status tables of every chapter). -/
abbrev Code := BitVec 16

/-- Why the machine stops. Every error that the spec names is a status, a notice or a state that the device reports while
it goes on, so no command raises one of these. -/
inductive Fault where
  /-- Raised by nothing: the type is not empty, so that a claim about faults can be written. Safe. -/
  | stopped
  deriving DecidableEq, Repr

/-- Why a command has no meaning. -/
inductive Refusal where
  /-- A command of the table whose meaning is not written. Raised by an arm of exec only. Safe. -/
  | notModelled (mnemonic : String)
  deriving DecidableEq, Repr

/-- The state of a tally (R425). -/
inductive TState where
  | notStarted | inPart | done | committed | rolledBack | absorbed
  deriving DecidableEq, Repr

def TState.code : TState → Nat
  | .notStarted => 0 | .inPart => 1 | .done => 2 | .committed => 3 | .rolledBack => 4 | .absorbed => 5

/-! ### The tile (files 03 to 08, 12) -/

/-- Thread states (R64). -/
inductive ThreadSt where
  | free | ready | waiting | parked
  deriving DecidableEq, Repr

/-- What a waiting thread waits for (R64). -/
inductive WaitOn where
  | nothing
  /-- a load: the destination register and the tile-local offset -/
  | load (rd : BitVec 4) (ofs : Nat)
  /-- WAIT: destination, slot and generation -/
  | op (rd : BitVec 4) (slot : Nat) (gen : BitVec 16)
  /-- WAITS: destination, summary register and the post count it must differ from -/
  | post (rd : BitVec 4) (reg : Nat) (posts : BitVec 16)
  /-- ISSUE without a free slot or queue entry: destination -/
  | slot (rd : BitVec 4)
  deriving DecidableEq, Repr

/-- A thread context: program counter, s1–s15 (s0 has no storage, R64), state and condition. -/
structure Thread where
  st : ThreadSt := .free
  pc : W64 := 0
  regs : NMap W64 := []
  wait : WaitOn := .nothing
  /-- the state a parked thread left -/
  was : ThreadSt := .free
  /-- parked by a fault (R66) -/
  byFault : Bool := false
  deriving DecidableEq, Repr

/-- One entry of a slot's record of its last 16 operations (R73). -/
structure OpRec where
  gen : BitVec 16
  polder : PolderNo
  cword : BitVec 32
  deriving DecidableEq, Repr

/-- What holds an op-tag slot. -/
inductive SlotUse where
  | free | held (polder : PolderNo) | quarantined
  deriving DecidableEq, Repr

/-- An op-tag slot (R73); recs holds the newest operation first. -/
structure Slot where
  gen : BitVec 16 := 0
  use : SlotUse := .free
  recs : List OpRec := []
  deriving DecidableEq, Repr

/-- What a queued operation's start waits for (R76), as resolved at ISSUE. -/
inductive Dep where
  | met | failed | on (slot : Nat) (gen : BitVec 16)
  deriving DecidableEq, Repr

/-- A queued operation: its descriptor, its slot and generation, and its prerequisite. -/
structure QOp where
  desc : BitVec 1024
  slot : Nat
  gen : BitVec 16
  dep : Dep
  deriving DecidableEq, Repr

/-- An ISSUE that waits for a slot or a queue entry (R73): the thread, or the mailbox of a DESC_ISSUE. -/
structure IssueWait where
  thread : Option Nat
  mbox : Nat := 0
  desc : BitVec 1024
  dep : Dep
  deriving DecidableEq, Repr

/-- A tensor descriptor as the engine has read it: its 512 bits (R81). -/
abbrev TDesc := BitVec 512

/-- An outer-product output tile in a bank or the hand-off queue (R104): the consumer's tag and generation, the
coordinates, the size, whether it is the last, and its elements in row order. -/
structure OutTile where
  cons : BitVec 16
  gen : BitVec 16
  batch : Nat
  mt : Nat
  nt : Nat
  rows : Nat
  cols : Nat
  last : Bool
  data : List F32
  deriving DecidableEq, Repr

/-- Counts an operation reports in its tally (R56, R425). -/
structure Counts where
  sat : Nat := 0
  ftz : Nat := 0
  nf : Nat := 0
  tg : Nat := 0
  deriving DecidableEq, Repr

/-- How an operation ends. -/
structure OpEnd where
  st : TState
  status : Code
  deriving DecidableEq, Repr

/-- A Blocker transaction (R303 to R308): 0 none, 1 OPEN, 2 COMMITTED; its record slot, id and epoch; journal blocks whose
pre-images are written and where the next go; the chunks as (reduction chunk number, end element), once known; chunks started
and applied, and elements applied; whether a started chunk's new state is still to be written. -/
structure Txn where
  phase : Nat := 0
  slot : Nat := 0
  txid : Nat := 0
  epoch : Nat := 0
  pre : Nat := 0
  pos : Nat := 0
  cuts : Option (List (Nat × Nat)) := none
  started : Nat := 0
  applied : Nat := 0
  front : Nat := 0
  hand : Bool := false
  /-- what the transaction cannot complete for -/
  fail : Option Code := none
  /-- chunks of the streamed reduction that were complete at its end -/
  gdone : Option (List Nat) := none
  clip : F32 := 0x3F800000
  lr : F32 := 0
  n : Nat := 0
  cstep : Nat := 0
  g2 : List F32 := []
  w2 : List F32 := []
  u2 : List F32 := []
  nonfin : Bool := false
  deriving DecidableEq, Repr

/-- Progress of a router operation (file 11). Where a key joins a phase and a chunk or an element, it is
phase × 2^40 + the chunk or the element. -/
structure RouterSt where
  /-- sums held at this member after a reduce phase, by phase and element -/
  res : NMap F32 := []
  /-- codes of finished elements as they travel, by element -/
  fin : NMap Nat := []
  /-- codes that a phase and chunk sends, once it is worked out -/
  out : NMap (List Nat) := []
  /-- devices to which a phase and chunk, or its fail mark, has been sent -/
  sent : NMap (List Nat) := []
  /-- phases and chunks that have completed here (R275) -/
  done : List Nat := []
  /-- failed chunks: code of R285 and status -/
  failed : NMap (Nat × Code) := []
  /-- what an all-to-all has received: counts by source rank, offsets by destination rank -/
  counts : NMap Nat := []
  offs : NMap Nat := []
  /-- elements received in place, by source rank of an all-to-all or chunk of a permutation -/
  got : NMap Nat := []
  /-- segments of an all-to-all refused for lack of room (R277): here by source rank, and elsewhere by destination rank -/
  refIn : List Nat := []
  refOut : List Nat := []
  /-- the copy to the hold tensor has ended (R279) -/
  holdDone : Bool := true
  deriving DecidableEq, Repr

/-- What an encode has gathered (R168 to R171): counters, side-list entries (row, dimension-0 index, value), escapes refused
for lack of room, and observed maxima by scale index. -/
structure EncAcc where
  counts : Counts := {}
  entries : List (Nat × Nat × B16) := []
  overflow : Nat := 0
  obs : NMap F32 := []
  deriving DecidableEq, Repr

/-- Progress of a Steamer operation: its stage values by linear index (R146), rows by whether they had an unmasked element
and those empty under R148, elements of Z done, the hand-off band in hand with its next nt and its values, the band just
completed with its last nt (R152), and the first result computed from an escape without an entry (R174). -/
structure SteamSt where
  stage : List (Nat × F32) := []
  rows : NMap Bool := []
  emptyRow : Bool := false
  done : List Nat := []
  band : Option (Nat × Nat × Nat) := none
  past : Option (Nat × Nat × Nat) := none
  buf : NMap F32 := []
  part : NMap F32 := []
  miss : Option Nat := none
  bufUsed : Bool := false
  deriving DecidableEq, Repr

/-- What an engine keeps of the operation it runs beyond the descriptor. -/
structure Work where
  /-- the unit reached: pass, band, block, register or record, as the engine counts -/
  step : Nat := 0
  /-- down passes of the m-tile that the Fuller has run (R103) -/
  down : Nat := 0
  /-- a Fuller pass has finished while a bank waits for the hand-off queue (R106) -/
  stall : Bool := false
  /-- values carried between units -/
  vals : List F32 := []
  vals2 : List F32 := []
  bytes : List Byte := []
  txn : Txn := {}
  router : RouterSt := {}
  enc : EncAcc := {}
  steam : SteamSt := {}
  deriving DecidableEq, Repr

/-- A running operation: its queue entry, the tensor descriptors it has read, its progress and, once it is over, its end. -/
structure RunOp where
  q : QOp
  tds : List TDesc := []
  /-- the row command has begun it -/
  begun : Bool := false
  ended : Option OpEnd := none
  /-- false when the tally address was refused (R77) -/
  tallyOk : Bool := true
  marker : Nat := 0
  counts : Counts := {}
  work : Work := {}
  /-- bytes fetched from other devices, by device × 2^48 + address; and the first bad status an answer gave -/
  fetched : NMap Byte := []
  bad : Option Code := none
  /-- writes on other devices that were answered badly: device, address, bytes -/
  lostWrites : List (Nat × Nat × Nat) := []
  /-- reads of a router operation on other devices that were answered badly, which fail the chunks that need them (R286):
  device, address, bytes, status -/
  lostReads : List (Nat × Nat × Nat × Code) := []
  /-- next request number (chunk × 256 + pidx of its packets) -/
  nreq : Nat := 0
  /-- lists and scales read at the start (R93, R159) -/
  lists : List (List Nat) := []
  snaps : List (List F32) := []
  /-- the first status that lets the operation run on to its end and then ends it PARTIAL, with its marker (R174, R194) -/
  note : Option (Code × Nat) := none
  /-- the consumer ended early: the first output tile it did not take (R107) -/
  gone : Option Nat := none
  deriving DecidableEq, Repr

/-- An engine: its queue of at most 8, and the operation it runs. -/
structure Engine where
  queue : List QOp := []
  run : Option RunOp := none
  deriving DecidableEq, Repr

/-- A wait-basin slot (R226). -/
structure BasinSlot where
  shard : Nat
  chunk : Nat
  grad : Bool
  state : Bool
  deriving DecidableEq, Repr

/-- A tile. -/
structure Tile where
  threads : NMap Thread := []
  /-- the thread that issued last (R65) -/
  lastIssue : Nat := 1023
  issueQ : List IssueWait := []
  slots : NMap Slot := []
  freeSlots : List Nat := List.range 32
  engines : NMap Engine := []
  /-- the hand-off queue of at most 16 entries (R104) -/
  handoff : List OutTile := []
  /-- Fuller banks whose drain waits for a hand-off entry (R106), at most two -/
  banks : List OutTile := []
  /-- tags and generations of Steamer operations whose producer ended without its last entry (R153) -/
  orphans : List (BitVec 16 × BitVec 16) := []
  summ : NMap W64 := []
  /-- scale registers as their 64 B records of R156 -/
  scale : NMap (BitVec 512) := []
  basin : List BasinSlot := []
  cyc : W64 := 0
  deriving DecidableEq, Repr

/-! ### Memory (file 09) -/

/-- An error state of one 64-bit word: the bits in error of its 80-bit code word, or the poison pattern (R216, R217). -/
inductive EccWord where
  | bad (pattern : BitVec 80)
  | poison
  deriving DecidableEq, Repr

/-- An error ring: MC_ELOG, newest first, and MC_EHEAD (R218). -/
structure ELog where
  recs : List (BitVec 128) := []
  newest : BitVec 4 := 0
  lost : BitVec 16 := 0
  deriving DecidableEq, Repr

/-- A repair in progress or done (R215). -/
structure Repair where
  stack : Nat
  row : Nat
  bank : Nat
  /-- the row copy runs -/
  copying : Bool
  /-- made hard: it outlasts the loss of power -/
  hard : Bool := false
  deriving DecidableEq, Repr

/-- The memories and their controllers. Keys are physical places (Ops.lean `place`): a key stays with its byte when a
stripe changes mode. Program stores and codebook stores have key ranges of their own. -/
structure MemSys where
  bytes : Mem := []
  ecc : NMap EccWord := []
  /-- host memory as the device reads and writes it over the Ixrad link, and the ranges the IHA answers with an error -/
  host : Mem := []
  hostErr : List (Nat × Nat) := []
  elog : NMap ELog := []
  /-- corrected words per row in this scrub period -/
  rowHits : NMap Nat := []
  repairs : List Repair := []
  /-- spare rows used per bank -/
  rowsUsed : NMap Nat := []
  /-- scrub periods: hours for HBM and DDR5, minutes for the SRAMs -/
  scrub : List Nat := [24, 24, 60]
  /-- words a scrub has read and not yet written back stay correct by R219, so no state is held for them -/
  scrubPos : NMap Nat := []
  /-- controllers that retrain after a unit fault (stack, or 16 + channel), and the K-clk count of their last fault -/
  retrain : List Nat := []
  lastFault : NMap Nat := []
  /-- the controllers' mirror of HBM_IMAP (R208) -/
  imap : W64 := 0
  /-- DDR5 GiB per channel, as stage 10 found, and the capacity in GiB that it published (R206, R222) -/
  gibPerCh : Nat := 0
  ddrGib : Nat := 0
  deriving DecidableEq, Repr

/-! ### Polders and stage queues (file 13) -/

/-- One end of a stage queue (R323, R324). -/
structure StageQ where
  qrec : BitVec 256
  p : W32 := 0
  c : W32 := 0
  f : W32 := 0
  /-- pushes started and not yet counted in C: their op tags and generations in order, and whether each is complete -/
  flying : List (Nat × BitVec 16 × Bool) := []
  hist : List W32 := List.replicate 16 0
  hsnap : List W32 := List.replicate 16 0
  deriving DecidableEq, Repr

/-- A polder: its record (R315), its shares, which each block takes up at its next tide boundary (R318), its fault log. -/
structure Polder where
  desc : BitVec 1024
  shares : List Nat
  faults : List (BitVec 256) := []
  overwritten : W32 := 0
  queues : NMap StageQ := []
  deriving DecidableEq, Repr

/-! ### The front window and mailboxes (file 17) -/

/-- Mailbox states (R416). -/
inductive MbxSt where
  | empty | held | queued | stepping | done | failed | deferred
  deriving DecidableEq, Repr

def MbxSt.code : MbxSt → Nat
  | .empty => 0 | .held => 1 | .queued => 2 | .stepping => 3 | .done => 4 | .failed => 5 | .deferred => 6

/-- A notice ring (R422). -/
structure Ring where
  base : Nat
  k : Nat
  vector : BitVec 16
  nseq : W32
  deriving DecidableEq, Repr

/-- What the step of a command has worked out. -/
inductive StepEnd where
  /-- more mailbox steps follow -/
  | more
  /-- the command ends with a status and result words 2, 3, … -/
  | over (status : Code) (res : List W32)
  /-- refused before it starts, with a status and result words 2, 3, … -/
  | refused (status : Code) (res : List W32)
  | defer
  deriving DecidableEq, Repr

/-- The reeve's copy of a command taken up (R419), with its progress. -/
structure Cmd where
  words : NMap W32
  seq : W32
  cmd : Nat
  /-- the polder it acts for; none for the device -/
  polder : Option PolderNo
  /-- the polder that word 43 names does not exist -/
  noPolder : Bool := false
  /-- a core runs a step of it -/
  running : Bool := true
  /-- steps done of the command's work, and data it carries between steps -/
  step : Nat := 0
  carry : List Byte := []
  nums : List Nat := []
  work : Option StepEnd := none
  /-- units done, in all, and the tally's marker at the end -/
  done : Nat := 0
  total : Nat := 1
  /-- a tally write that the IHA refused -/
  lostTally : Bool := false
  /-- a reset ends it after its current step (R461, R463) -/
  cut : Bool := false
  deriving DecidableEq, Repr

/-- A mailbox (R416). -/
structure Mbox where
  words : NMap W32 := []
  seq : W32 := 0
  st : MbxSt := .empty
  ign : BitVec 16 := 0
  progress : BitVec 16 := 0
  total : BitVec 16 := 0
  status : Code := 0
  tstate : BitVec 8 := 0
  fin : Bool := false
  rseq : W32 := 0
  res : List W32 := []
  owner : Option (PolderNo × BitVec 16) := none
  en : BitVec 8 := 0
  ring : Option Ring := none
  cmd : Option Cmd := none
  deriving DecidableEq, Repr

/-- The reeve (R409 to R422). -/
structure Reeve where
  boxes : NMap Mbox := []
  /-- QUEUED and STEPPING commands in the order of R420 -/
  ready : List Nat := []
  /-- cores in service, and those retired or found bad -/
  coresIn : List Nat := []
  coresBad : List Nat := []
  fwrun : Bool := false
  /-- memory ranges still being cleared by POLDER_DESTROY (R320) -/
  clearing : List (Nat × Nat) := []
  /-- interrupt messages sent over the Ixrad link, oldest first -/
  irqs : List (BitVec 16) := []
  /-- number of the next management request, and those without an answer: number, device, purpose -/
  mgmtNo : BitVec 48 := 0
  mgmtOut : List (BitVec 48 × DevId) := []
  /-- answers received: number, mtype, status and payload -/
  mgmtIn : List (BitVec 48 × BitVec 8 × Code × List Byte) := []
  /-- how the last access through the bulk aperture completed: status and data read -/
  aperture : Option (Code × List Byte) := none
  deriving DecidableEq, Repr

/-! ### Grid, blocks and resets (files 01, 19) -/

/-- Block states (R466). -/
inductive BlkSt where
  | off | starting | on | stopping
  deriving DecidableEq, Repr

def BlkSt.code : BlkSt → Nat
  | .off => 0 | .starting => 1 | .on => 2 | .stopping => 3

/-- A reset in progress (R458). -/
inductive RPhase where
  | drain | breaks | reset
  deriving DecidableEq, Repr

structure ResetJob where
  id : Nat
  level : Nat
  target : Nat
  limit : Nat
  phase : RPhase
  /-- the mailbox of the RESET or POLDER_DESTROY command; none for the device's own -/
  mbox : Option Nat
  drained : Nat := 0
  abandoned : Nat := 0
  ended : Nat := 0
  /-- hold the tile OFF afterwards (R475) -/
  hold : Bool := false
  deriving DecidableEq, Repr

/-- A cluster (R22). -/
structure Cluster where
  mhz : Nat := 2500
  deriving DecidableEq, Repr

/-- The grid of tiles and its repair (R23, R441, R442). -/
structure Grid where
  /-- logical coordinates absent -/
  absent : List Nat := []
  clusters : NMap Cluster := []
  /-- routers whose fault holds every polder (R475) -/
  routerFault : Bool := false
  deriving DecidableEq, Repr

/-- Blocks that BLOCK_CTL names, by kind × 256 + index; unlisted is OFF. Mailboxes that wait for a start or hold a
deferred enable, each with its block's key; blocks held OFF for good. -/
structure Blocks where
  st : NMap BlkSt := []
  waitStart : List (Nat × Nat) := []
  deferred : List (Nat × Nat) := []
  deriving DecidableEq, Repr

/-! ### Budgets and counters (files 19, 20) -/

/-- A meter's budgets by owner × 8 + class (owner 0–15 a polder, 16 transit or C0), with the free pool (R468). -/
structure Meter where
  budget : NMap Int := []
  pool : Nat := 0
  last : Nat := 0
  deriving DecidableEq, Repr

/-- A counter (R483). -/
structure Counter where
  event : BitVec 12 := 0
  polder : PolderNo := 0
  filt : Bool := false
  held : Bool := false
  val : W64 := 0
  snap : W64 := 0
  deriving DecidableEq, Repr

/-- A counter block (R482). -/
structure CtrBlock where
  ctr : NMap Counter := []
  snapno : W32 := 0
  snapCyc : W64 := 0
  hist : NMap W32 := []
  hsnap : NMap W32 := []
  deriving DecidableEq, Repr

structure Counters where
  blocks : NMap CtrBlock := []
  snapNo : W32 := 0
  /-- the K-clk count at the first capture (R492) -/
  snapK : W64 := 0
  /-- the snapshot window of R492: RS words by offset / 8 -/
  window : NMap W64 := []
  /-- chunk-time histograms of the 64 contexts and their copies -/
  ctxHist : NMap W32 := []
  ctxSnap : NMap W32 := []
  /-- the holding copy of R15: upper words latched by the read of a low word -/
  latch : NMap W32 := []
  deriving DecidableEq, Repr

/-! ### The levee fabric and the collectives (files 10, 11) -/

/-- One direction of a header cache (R233), by vc × 64 + slot. -/
abbrev HdrCache := NMap (BitVec 256)

/-- A packet in a replay buffer: lseq, virtual channel, slot and packet; and how it came to this router: the dimension in
which it arrived, and whether past the dateline (R250). -/
structure Replay where
  lseq : BitVec 12
  vc : BitVec 3
  slot : BitVec 6
  pkt : Packet
  way : Option Nat × Bool := (none, false)
  deriving DecidableEq, Repr

/-- A packet that waits for a link: its virtual channel, for a transit packet the ingress port and channel whose buffer
holds it (R251, R252), and how it came to this router: the dimension in which it arrived, and whether past the dateline. -/
structure QPkt where
  vc : BitVec 3
  pkt : Packet
  src : Option (Nat × Nat) := none
  way : Option Nat × Bool := (none, false)
  deriving DecidableEq, Repr

/-- A levee port (R230 to R244). -/
structure Port where
  width : BitVec 2 := 0
  dir : BitVec 4 := 0xF
  sublane : BitVec 4 := 0xF
  nbr : DevId := 0
  nbrPort : PortNo := 0
  cabled : Bool := false
  failed : Bool := false
  /-- lanes that trained -/
  lanes : BitVec 9 := 0
  /-- packets waiting for the link, oldest first -/
  queue : List QPkt := []
  replay : List Replay := []
  /-- packets of a failed port still to be resent here behind handover leads, ahead of new traffic: the failed port, and the
  packet as its replay buffer held it (R244) -/
  hand : List (Nat × Replay) := []
  /-- times at which the replay buffer or the packet count was full (R235) -/
  waits : Nat := 0
  txSeq : BitVec 12 := 0
  rxSeq : BitVec 12 := 0
  /-- an uncorrectable codeword was seen and the expected lseq has not arrived -/
  resync : Bool := false
  uncorr : Nat := 0
  txCache : HdrCache := []
  rxCache : HdrCache := []
  /-- flits taken of the neighbour's buffer by vc, and freed there as it last told, both cumulative -/
  taken : NMap Nat := []
  told : NMap Nat := []
  /-- flits freed here by vc, and as last reported -/
  freed : NMap Nat := []
  reported : NMap Nat := []
  /-- accepted packets not yet acknowledged -/
  ackDue : Bool := false
  /-- link words sent, oldest first -/
  sent : List W64 := []
  /-- the failed port this one took over -/
  took : Option PortNo := none
  takenOver : Bool := false
  /-- the neighbour has taken this port over: its handover leads have begun (R233, R244) -/
  peerOver : Bool := false
  deriving DecidableEq, Repr

/-- A break table entry (R249, R433). -/
structure BreakEnt where
  node : Bool
  deva : DevId
  devb : DevId
  deriving DecidableEq, Repr

/-- An ordered flow held by a table change (R249), by its flow number (Fabric.lean), and its new packets. -/
structure HeldFlow where
  flow : Nat
  pkts : List Packet
  deriving DecidableEq, Repr

/-- A request of this device that has no answer yet: op tag, request number, destination, kind, and for a READ where its
data goes. -/
structure Req where
  tag : BitVec 16
  no : Nat
  dev : DevId
  kind : Nat
  addr : Nat
  len : Nat
  /-- the flow of an ordered request -/
  flow : Option Nat := none
  abandoned : Bool := false
  deriving DecidableEq, Repr

/-- The levee router and its ports: LEV_DIMS, LEV_SELF and the transit shares (R241, R259), break tables by dimension
(R249), requests without an answer, and the router's error ring. -/
structure Fabric where
  dims : W32 := 0
  self : W32 := 0
  tshare : List Nat := [0, 0, 0, 0, 0, 0, 0]
  ports : NMap Port := []
  breaks : NMap (List BreakEnt) := []
  severed : List Nat := []
  heldFlows : List HeldFlow := []
  reqs : List Req := []
  elog : ELog := {}
  stopped : Bool := false
  deriving DecidableEq, Repr

/-- A packet in staging (R273): its sender, chunk, first element, index and payload; bad when a payload word was poisoned. -/
structure Staged where
  dev : Nat
  chunk : Nat
  elem : Nat
  pidx : Nat
  data : List Byte
  bad : Bool
  deriving DecidableEq, Repr

/-- A reduction stream on this device: job, coll and phase (R271), its context or the tile it spills to (neither while it
has no room), its staging units or bytes of a basin, the chunks of one sender that it may hold (R275), packets placed, fail
marks received, the slow-member limit, and tides without progress (R283). -/
structure Stream where
  job : BitVec 16
  coll : BitVec 16
  phase : Nat
  polder : PolderNo
  ctx : Option Nat := none
  spill : Option Nat := none
  units : Nat := 0
  deep : Nat := 4
  slow : Nat := 0
  staged : List Staged := []
  fails : List Nat := []
  quiet : Nat := 0
  /-- the tides at the last slow-member notice -/
  noted : Nat := 0
  deriving DecidableEq, Repr

structure Coll where
  streams : List Stream := []
  /-- opens that wait for room (R272) -/
  opens : List Packet := []
  /-- opens answered: job, coll, phase and downstream device -/
  openOk : List (BitVec 16 × BitVec 16 × Nat × Nat) := []
  /-- all-to-all counts whose answers wait for lower ranks (R277) -/
  asks : List Packet := []
  /-- collectives aborted (R284) -/
  aborted : List (BitVec 16 × BitVec 16) := []
  deriving DecidableEq, Repr

/-- The cipher's pipelines (R385 to R387): the pipeline at each of the 16 places in service (four for each port direction), the
spares not in use, those retired, and the place that spare A repeats. -/
structure Cipher where
  serv : List (Option Nat) := (List.range 16).map some
  spares : List Nat := [16, 17]
  retired : List Nat := []
  turn : Nat := 0
  deriving DecidableEq, Repr

/-! ### Bring-up, claims (file 18) -/

/-- DEV_STATE.state (R414). -/
inductive DevSt where
  | reset | boot | bringup | ready | failed | held
  deriving DecidableEq, Repr

def DevSt.code : DevSt → Nat
  | .reset => 0 | .boot => 1 | .bringup => 2 | .ready => 3 | .failed => 4 | .held => 5

/-- Bring-up (R414, R415, R435 to R450): the state and stage, the records of the stages that have ended and the spare
records, the identity and licence block, the digest and length of the image, and what the licence grants. -/
structure Boot where
  st : DevSt := .reset
  stage : Nat := 0
  fail : Bool := false
  status : Code := 0
  /-- K-clk count at the start of the stage -/
  kstart : W64 := 0
  level : Nat := 0
  preserving : Bool := false
  recs : NMap (BitVec 512) := []
  spares : List W64 := []
  release : W32 := 0
  lgen : Nat := 0
  grants : W64 := 0
  tiles : Nat := 0
  ddr : Nat := 0
  hbm : BitVec 16 := 0
  idkey : BitVec 256 := 0
  fsite : Nat := 0
  digest : BitVec 512 := 0
  length : W32 := 0
  /-- fuses blown at stage 4 -/
  blown : Nat := 0
  /-- a licence is accepted -/
  licensed : Bool := false
  /-- a legacy key has been loaded -/
  legacy : Bool := false
  /-- a node break of this device awaits its clearing (R463) -/
  nodeBreak : Bool := false
  deriving DecidableEq, Repr

/-- A claim: resource kind and index, claimant kind and polder (R452). -/
structure Claim where
  kind : Nat
  idx : Nat
  by_ : Nat
  polder : PolderNo
  deriving DecidableEq, Repr

/-! ### Sluice (file 14) and the tidal transport (file 15) -/

/-- A message that is being placed or is held (R338, R370): the site, epoch and outer step that name it, its length in 16 B
units once known, its fragments by offset, and whether it is malformed. -/
structure Held where
  site : Nat
  epoch : Nat
  ostep : Nat
  mlen : Nat
  parts : NMap (List Byte) := []
  bad : Bool := false
  deriving DecidableEq, Repr

/-- A shard as SLUICE_SHARD declares it (R337), in its 22 words; the boundary its ready word must name next; the pending
store; the next outer step to merge; what the merge slot holds (outer step, act) and whether its word is released; the newest
anchor in the history ring; and by anchor the copies of the contributions that formed it (R345). -/
structure Shard where
  words : NMap W32
  next : Nat := 1
  pend : List Held := []
  toMerge : Nat := 0
  merge : Option (Nat × Bool) := none
  out : Bool := false
  newest : Nat := 0
  copies : NMap (List Held) := []
  /-- elements that merges of this shard took as +0 because they were NaN or infinity (R341) -/
  nonfin : Nat := 0
  deriving DecidableEq, Repr

/-- A ledger record (R343): header and entries. -/
structure LRec where
  hdr : BitVec 512
  ents : List W64
  deriving DecidableEq, Repr

/-- A membership epoch (R354): number, first outer step, members, source sites of joiners, and the digest of its words; and
whether it has taken effect, with its ledger record. -/
structure Epoch where
  no : Nat
  k0 : Nat
  members : BitVec 256
  sources : NMap Nat
  mdig : BitVec 64
  taken : Bool := false
  deriving DecidableEq, Repr

/-- What Sluice sends to another device of its site over the levee fabric: a record of the keeper (R340); a report that it holds
a contribution of (site, outer step), and whether it is malformed (R339, R340); the shard digests of an anchor (R344); the
release of a boundary (R339); and a message for a path of the gateway there (R365). -/
inductive SiteMsg where
  | record (m : Message)
  | report (site step : Nat) (bad : Bool)
  | digests (step : Nat) (l : List (Nat × BitVec 128))
  | release (step : Nat)
  | content (site path : Nat) (m : Message)
  deriving DecidableEq, Repr

/-- Sluice on one device. Outer steps count on through a wrap (R356): wraps holds, newest first, the count at which the
numbering last began anew. epochs holds the newest declaration first. reports are (device, site, outer step) at the keeper;
bnd is the last boundary reached and rel the last released; wpos the place of the next record in the ring, and backlog the
records that wait for room; notices the records of partners; digs shard digests by (anchor, shard); adopting the proposal
adopted and its boundary; diverged the anchor at which a replay differs; joining the states that a joiner has in part, by
shard; out the messages that wait for a path, by partner. -/
structure Sluice where
  on : Bool := false
  polder : PolderNo := 0
  cfg : BitVec 512 := 0
  shards : NMap Shard := []
  epochs : List Epoch := []
  wraps : List Nat := [0]
  reports : List (Nat × Nat × Nat) := []
  istep : Option Nat := none
  bnd : Option Nat := none
  rel : Option Nat := none
  ledger : List LRec := []
  wpos : Nat := 64
  backlog : List LRec := []
  hold : Option (Code × Nat) := none
  digs : List (Nat × Nat × BitVec 128) := []
  notices : List (Nat × LRec) := []
  proposal : Option LRec := none
  adopting : Option (LRec × Nat) := none
  /-- the adoption boundaries whose digests the leader has found to differ -/
  warned : List Nat := []
  differs : Bool := false
  replay : List LRec := []
  diverged : Option Nat := none
  fetches : List (Nat × Message) := []
  joining : NMap Held := []
  mdigs : NMap (BitVec 64) := []
  out : List (Nat × Message) := []
  /-- deadlines that passed without the own contribution (R339) -/
  ownWaits : Nat := 0
  /-- contributions (site, outer step) that another device reports as malformed (R340) -/
  badIn : List (Nat × Nat) := []
  /-- the drained count at which a COMMIT record did not fit (R342) -/
  full : Option Nat := none
  /-- shard digests reported, by anchor and device (R344) -/
  digDevs : List (Nat × Nat) := []
  /-- the last boundary at which a device other than the keeper counted a merge that was not ready (R341) -/
  waited : Nat := 0
  /-- sent to other devices of the site, by device -/
  fab : List (Nat × SiteMsg) := []
  deriving DecidableEq, Repr

/-- Path states (R383). -/
inductive PathSt where
  | down | up | holdoff | undeclared
  deriving DecidableEq, Repr

def PathSt.code : PathSt → Nat
  | .down => 0 | .up => 1 | .holdoff => 2 | .undeclared => 3

/-- A DATA frame without an answer: its pseq, its tsval, its content, and the answered frames above it (R379). -/
structure Flight where
  pseq : W32
  tsval : W32
  msg : Message
  above : Nat := 0
  deriving DecidableEq, Repr

/-- The replay window of a path under one kep (R373): the highest pcount accepted and those seen below it. -/
structure Window where
  high : Nat
  seen : List Nat
  deriving DecidableEq, Repr

/-- A path on this gateway (R363, R374 to R382): its record and state; content to send, in flight, declared lost and not
answered since, and refused; the place of the next write in the transmit store; the next pseq, the key epoch in use and one
that KEY_ACTIVATE names; the round-trip estimate in ticks; the rate in kb/s with the tick of its last fall; and the receiver's
cack, pseqs received above it and refused, DATA frames unreported, the newest frame to echo with its arrival, and windows. -/
structure TPath where
  desc : BitVec 512
  st : PathSt := .down
  tooBig : Bool := false
  queue : List Message := []
  flight : List Flight := []
  lost : List Flight := []
  refusedQ : List Message := []
  wpos : Nat := 0
  pseq : W32 := 0
  kep : Option W32 := none
  wanted : Option W32 := none
  srtt : Nat := 0
  rttvar : Nat := 0
  sampled : Bool := false
  rto : Nat := 3052
  rate : Nat := 0
  fell : Option Nat := none
  cack : W32 := 0xFFFFFFFF
  got : List Nat := []
  refused : List Nat := []
  due : Nat := 0
  echo : Option (W32 × Nat) := none
  wins : NMap Window := []
  /-- the newest transmit epoch of the partner that was loaded when the path was declared (R364) -/
  declKep : Nat := 0
  /-- the status of the last frame refused: 0x0703 where a partner's federation digest differed (R336) -/
  status : Code := 0
  deriving DecidableEq, Repr

/-- The tidal ports and transport: paths by TID_PSTAT register, records of paths on other gateways with the epoch at their
declaration, the shard map, messages of kinds 2 to 4 that are here in part (by header without the offset), the tick count, frames sent, and answers of R362 (true an echo reply) with the echo requests of the current second. -/
structure Tidal where
  polder : PolderNo := 0
  paths : NMap TPath := []
  others : List (BitVec 512 × Nat) := []
  inbox : List (BitVec 256 × Held) := []
  shardMap : NMap (DevId × Nat) := []
  tick : Nat := 0
  sent : List Frame := []
  replies : List (Bool × BitVec 1 × BitVec 128) := []
  echoes : NMap (Nat × Nat) := []
  /-- fragments handed on to owners on other devices -/
  handed : List (DevId × Message) := []
  deriving DecidableEq, Repr

/-- The device without its key store and its always-on domain. -/
structure Dev where
  /-- free values taken so far -/
  free : Nat := 0
  /-- the always-on K-clk count as last seen (R482) -/
  kclk : W64 := 0
  tiles : NMap Tile := []
  mem : MemSys := {}
  polders : NMap Polder := []
  reeve : Reeve := {}
  grid : Grid := {}
  blocks : Blocks := {}
  resets : List ResetJob := []
  meters : List (MeterId × Meter) := []
  counters : Counters := {}
  fabric : Fabric := {}
  coll : Coll := {}
  cipher : Cipher := {}
  boot : Boot := {}
  claims : List Claim := []
  sluice : Sluice := {}
  tidal : Tidal := {}
  deriving DecidableEq, Repr

/-- A traffic key (R388, R392): its slot, key, partner, direction (transmit or receive), epoch, llog, whether it came from
a legacy register, for a transmit key the next pcount of each path, and tag failures. -/
structure TKey where
  slot : Nat
  key : BitVec 256
  site : Nat
  tx : Bool
  kep : W32
  llog : Nat
  legacy : Bool
  sent : NMap Nat := []
  fails : W32 := 0
  deriving DecidableEq, Repr

/-- The key store of the cipher engine (R388 to R393, R401, R450): no read path leads out of it. The exchange value with its
record, the highest epoch loaded by 2 × site + direction, the identity's seed in the signing unit, and the legacy registers. -/
structure KeyStore where
  kek : Option (BitVec 256) := none
  exch : Option (BitVec 256) := none
  exchRec : List Byte := []
  keys : List TKey := []
  topKep : NMap Nat := []
  seed : Option (BitVec 256) := none
  lkey : NMap W32 := []
  lksel : W32 := 0
  lkep : W32 := 0
  deriving DecidableEq, Repr

/-- The fuses (R440, R441, R447): the bad-unit map, which the device never writes, and the blown fuses of the licence row. -/
structure Fuses where
  badTiles : List Nat := []
  badPipes : List Nat := []
  badCores : List Nat := []
  lgen : Nat := 0
  deriving DecidableEq, Repr

/-- The always-on domain and the fuses: what a whole-device reset leaves (R208, R405, R437, R455, R501). Bad tiles are
numbered cluster × 68 + column × 17 + physical row. -/
structure AlwaysOn where
  powered : Bool := true
  /-- RST_N is low -/
  rstLow : Bool := true
  /-- REFCLK_SYS ran and VIN was good when RST_N rose -/
  clockOk : Bool := false
  imap : W64 := 0
  fuses : Fuses := {}
  /-- bring-ups since power-on -/
  boots : W32 := 0
  /-- units found bad by tests, and in service, since power-on -/
  badTiles : List Nat := []
  badService : List Nat := []
  badPipes : List Nat := []
  badCores : List Nat := []
  badStacks : List Nat := []
  badChans : List Nat := []
  /-- DBG_OPEN has been used -/
  dbg : Bool := false
  /-- ALM_CAUSE, and the sensors whose condition persists -/
  cause : BitVec 5 := 0
  alarms : BitVec 16 := 0
  cond : BitVec 5 := 0
  cap : Nat := 4400
  stat : W32 := 0
  vin : BitVec 11 := 0
  tmax : W32 := 0
  /-- GP_CTL: oe, out and in -/
  gpOe : BitVec 4 := 0
  gpOut : BitVec 4 := 0
  gpIn : BitVec 4 := 0
  /-- lim of each cluster, and its quiet windows in a row, held at 10 (R500) -/
  lims : NMap Nat := []
  quiet : NMap Nat := []
  maddr : BitVec 2 := 0
  dynAddr : Option (BitVec 7) := none
  /-- DDR_RSTn_N of each channel is high (R505) -/
  ddrRst : BitVec 8 := 0
  deriving DecidableEq, Repr

/-- The state: the device, its key store, its always-on domain, and the commands that wait, first in, first out. -/
structure State where
  dev : Dev := {}
  keys : KeyStore := {}
  aon : AlwaysOn := {}
  pending : List Instr := []
  deriving DecidableEq, Repr

/-- The device right after reset: every register at its Reset value (R16), nothing listed in memory, no command waiting. -/
def State.reset : State := {}

/-- The outcome type of a meaning. -/
abbrev Out := Host.Outcome State Fault Refusal

/-- A command whose effect lies in the device alone. -/
def onDev (s : State) (f : Dev → Dev) : Out := .next { s with dev := f s.dev }

/-- A command whose effect lies in the device alone and that reads the always-on domain. -/
def onDevA (s : State) (f : AlwaysOn → Dev → Dev) : Out := .next { s with dev := f s.aon s.dev }

/-- A command whose effect lies in the device and its always-on domain. -/
def onAon (s : State) (f : AlwaysOn → Dev → AlwaysOn × Dev) : Out :=
  let r := f s.aon s.dev
  .next { s with aon := r.1, dev := r.2 }

/-- A command whose effect lies in the device and its key store. -/
def onKeys (s : State) (f : AlwaysOn → KeyStore → Dev → KeyStore × Dev) : Out :=
  let r := f s.aon s.keys s.dev
  .next { s with keys := r.1, dev := r.2 }

/-- A command that reaches the key store and the always-on domain as well. -/
def onAll (s : State) (f : AlwaysOn → KeyStore → Dev → AlwaysOn × KeyStore × Dev) : Out :=
  let r := f s.aon s.keys s.dev
  .next { s with aon := r.1, keys := r.2.1, dev := r.2.2 }

end Sys2Proof.Machine
end

