-- ==== Sys2Proof/Machine/Operands.lean ====
section
/-! DEFINITION. Operand forms: the fields of the polder record (R315), the operation descriptor's header (R72), the tensor
descriptor (R81), the packet header (R253), the stage-queue record (R323) and the crown's instruction word (R69). -/

namespace Sys2Proof.Machine

/-- Field [hi:lo] of a word. -/
def fld {w : Nat} (x : BitVec w) (hi lo : Nat) : Nat := bits x.toNat hi lo
/-- One bit of a word. -/
def flag {w : Nat} (x : BitVec w) (i : Nat) : Bool := bitAt x.toNat i

/-- A word with field [hi:lo] replaced. -/
def putFld {w : Nat} (x : BitVec w) (hi lo v : Nat) : BitVec w := BitVec.ofNat w (setBits x.toNat hi lo v)

/-! ### The polder record (R315) -/

def PR (p : Polder) (hi lo : Nat) : Nat := fld p.desc hi lo

def Polder.job (p : Polder) : BitVec 16 := BitVec.ofNat 16 (PR p 15 0)
def Polder.filler (p : Polder) : Bool := flag p.desc 20
def Polder.cgrant (p : Polder) : Bool := flag p.desc 21
/-- Tier of state i: 0 working copies, 1 masters, 2 moments, 3 outer momentum and residuals. -/
def Polder.place (p : Polder) (i : Nat) : Nat := PR p (23 + 2 * i) (22 + 2 * i)
def Polder.col0 (p : Polder) : Nat := PR p 37 32
def Polder.row0 (p : Polder) : Nat := PR p 42 38
def Polder.ncols (p : Polder) : Nat := PR p 49 43
def Polder.nrows (p : Polder) : Nat := PR p 55 50
/-- First thread number and count (R67). -/
def Polder.tbase (p : Polder) : Nat := 32 * PR p 68 64
def Polder.tcount (p : Polder) : Nat := 32 * PR p 74 69
/-- Program region, in instructions (R68). -/
def Polder.pbase (p : Polder) : Nat := 1024 * PR p 79 75
def Polder.plen (p : Polder) : Nat := 1024 * PR p 85 80
/-- Scratchpad share, in bytes: 0 units with filler = 1 mean 64 units. -/
def Polder.sbase (p : Polder) : Nat := 4096 * PR p 93 86
def Polder.slen (p : Polder) : Nat :=
  4096 * (if PR p 102 94 = 0 ∧ p.filler then 64 else PR p 102 94)
def Polder.ybase (p : Polder) : Nat := PR p 108 103
def Polder.ycount (p : Polder) : Nat := PR p 115 109
/-- First scale register and count: runs of 64. -/
def Polder.kbase (p : Polder) : Nat := 64 * PR p 121 116
def Polder.kcount (p : Polder) : Nat := 64 * PR p 128 122
def Polder.cbbase (p : Polder) : Nat := PR p 133 129
def Polder.cbcount (p : Polder) : Nat := PR p 139 134

/-- Where HBM and DDR5 begin, and where their ranges end (R205). -/
def hbmBase : Nat := 0x010000000000
def ddrBase : Nat := 0x020000000000
def ddrEnd : Nat := 0x060000000000
def gib : Nat := 2 ^ 30

def Polder.hlo (p : Polder) : Nat := hbmBase + gib * PR p 153 144
def Polder.hhi (p : Polder) : Nat := p.hlo + gib * PR p 164 154
def Polder.dlo (p : Polder) : Nat := ddrBase + gib * PR p 176 165
def Polder.dhi (p : Polder) : Nat := p.dlo + gib * PR p 189 177
def Polder.jbase (p : Polder) : Nat := 4096 * PR p 227 192
def Polder.jsize (p : Polder) : Nat := 4096 * PR p 239 228
/-- Some state lies in the DDR5 tier. -/
def Polder.anyDdr (p : Polder) : Bool := (List.range 4).any (fun i => p.place i = 2)
/-- Some state lies in HBM. -/
def Polder.anyHbm (p : Polder) : Bool := (List.range 4).any (fun i => p.place i = 1)
/-- Wait-basin slots and slot size after the selections for 0 (R315). -/
def Polder.wslots (p : Polder) : Nat :=
  if PR p 244 240 = 0 then (if p.anyDdr then 2 else 0) else PR p 244 240
def Polder.wsize (p : Polder) : Nat := 4096 * (if PR p 252 245 = 0 then 16 else PR p 252 245)
def Polder.buddyEn (p : Polder) : Bool := flag p.desc 276
def Polder.bofs (p : Polder) : Nat := 2 ^ 20 * PR p 319 288
def Polder.blen (p : Polder) : Nat := 2 ^ 20 * PR p 351 320
def Polder.nspill (p : Polder) : Nat := PR p 412 408
/-- Spill region per listed tile, in bytes. -/
def Polder.spsize (p : Polder) : Nat := 65536 * PR p 423 416
def Polder.spillTiles (p : Polder) : List Nat := (List.range p.nspill).map (fun i => PR p (16 * i + 442) (16 * i + 432))
/-- The shares that the record asks for, classes 1 to 7. -/
def recShares (desc : BitVec 1024) : List Nat := (List.range 7).map (fun k => fld desc (8 * k + 359) (8 * k + 352))
/-- The share of a class; none in C0. -/
def Polder.share (p : Polder) (k : Nat) : Nat := if k = 0 then 0 else p.shares.getD (k - 1) 0

/-- The tile number of (col, row) and back (R21, R73). -/
def tileAt (col row : Nat) : Nat := row * 64 + col
def colOf (t : Nat) : Nat := t % 64
def rowOf (t : Nat) : Nat := t / 64 % 32
/-- The cluster of a tile (R21). -/
def clusterOf (t : Nat) : Nat := rowOf t / 16 * 16 + colOf t / 4
/-- The tile's coordinates lie in the polder's rectangle. -/
def Polder.inRect (p : Polder) (t : Nat) : Bool :=
  p.col0 ≤ colOf t && colOf t < p.col0 + p.ncols && p.row0 ≤ rowOf t && rowOf t < p.row0 + p.nrows
/-- The tiles of the rectangle that lie in the grid, by number. -/
def Polder.rect (p : Polder) : List Nat :=
  (List.range p.nrows).flatMap fun r => (List.range p.ncols).filterMap fun c =>
    if p.row0 + r < 32 ∧ p.col0 + c < 64 then some (tileAt (p.col0 + c) (p.row0 + r)) else none

/-- The tile offset at which the wait basin begins (R316). -/
def Polder.basinOfs (p : Polder) (t : Nat) : Nat :=
  p.sbase + p.slen - (if p.spillTiles.contains t then p.spsize else 0) - p.wslots * p.wsize

/-- The tile offset at which the spill region of a listed tile begins (R316). -/
def Polder.spillOfs (p : Polder) : Nat := p.sbase + p.slen - p.spsize

/-! ### The stage-queue record (R323) -/

def StageQ.role (q : StageQ) : Bool := flag q.qrec 3
def StageQ.nslot (q : StageQ) : Nat := fld q.qrec 13 8
def StageQ.ssize (q : StageQ) : Nat := 4096 * fld q.qrec 31 16
def StageQ.peer (q : StageQ) : DevId := BitVec.ofNat 20 (fld q.qrec 51 32)
def StageQ.ring (q : StageQ) : Nat := fld q.qrec 111 64
def StageQ.line (q : StageQ) : Nat := fld q.qrec 159 112
def StageQ.tile (q : StageQ) : Nat := fld q.qrec 170 160
def StageQ.sreg (q : StageQ) : Nat := fld q.qrec 176 171

/-! ### The operation descriptor's header (R72) -/

def QOp.fld (q : QOp) (hi lo : Nat) : Nat := Machine.fld q.desc hi lo
def dEngine (x : BitVec 1024) : Nat := fld x 3 0
def dOpcode (x : BitVec 1024) : Nat := fld x 15 8
def dPolder (x : BitVec 1024) : PolderNo := BitVec.ofNat 4 (fld x 19 16)
def dClass (x : BitVec 1024) : Nat := fld x 22 20
def dDepEn (x : BitVec 1024) : Bool := flag x 24
def dNotify (x : BitVec 1024) : Bool := flag x 25
def dSeq (x : BitVec 1024) : W32 := BitVec.ofNat 32 (fld x 63 32)
def dTally (x : BitVec 1024) : Nat := fld x 111 64
def dDepTag (x : BitVec 1024) : Nat := fld x 127 112
/-- The header's reserved bits are zero. -/
def dHdrOk (x : BitVec 1024) : Bool := fld x 7 4 = 0 && !flag x 23 && fld x 31 26 = 0

def engCode : EngineId → Nat
  | .fuller => 0 | .steamer => 1 | .napper => 2 | .carder => 3 | .blocker => 4 | .router => 5

/-- A 16-bit op tag (R73). -/
def opTag (tile slot : Nat) : BitVec 16 := BitVec.ofNat 16 (tile * 32 + slot)

/-! ### The tensor descriptor (R81) -/

def tBase (t : TDesc) : Nat := fld t 47 0
def tDev (t : TDesc) : DevId := BitVec.ofNat 20 (fld t 67 48)
def tFmt (t : TDesc) : Nat := fld t 71 68
def tNdims (t : TDesc) : Nat := fld t 74 72
def tColMajor (t : TDesc) : Bool := flag t 75
def tFrozen (t : TDesc) : Bool := flag t 76
def tShardDim (t : TDesc) : Nat := fld t 79 77
def tPolder (t : TDesc) : PolderNo := BitVec.ofNat 4 (fld t 83 80)
def tSrefKind (t : TDesc) : Nat := fld t 85 84
def tCmp (t : TDesc) : Bool := flag t 86
def tSide (t : TDesc) : Bool := flag t 87
def tCbset (t : TDesc) : Nat := fld t 92 88
def tValid (t : TDesc) : Nat := fld t 119 96
def tExtentF (t : TDesc) (i : Nat) : Nat := fld t (24 * i + 151) (24 * i + 128)
def tStrideF (t : TDesc) (i : Nat) : Nat := fld t (32 * i + 271) (32 * i + 240)
def tAux (t : TDesc) : Nat := 256 * fld t 471 432
def tSrefReg (t : TDesc) : Nat := fld t 483 472
def tSrefAddr (t : TDesc) : Nat := 256 * fld t 511 472

/-- The effective extent of a dimension (R84); 1 at and beyond ndims. -/
def tExt (t : TDesc) (i : Nat) : Nat :=
  if tNdims t ≤ i then 1
  else if tValid t ≠ 0 ∧ tShardDim t = i then tValid t
  else tExtentF t i

/-- The extent field, 1 at and beyond ndims. -/
def tFull (t : TDesc) (i : Nat) : Nat := if tNdims t ≤ i then 1 else tExtentF t i

/-- The step of a dimension in elements (R82). -/
def tStep (t : TDesc) (i : Nat) : Nat :=
  if tNdims t ≤ 1 then (if i = 0 then 1 else 0)
  else
    match i with
    | 0 => if tColMajor t then tStrideF t 1 else 1
    | 1 => if tColMajor t then 1 else tStrideF t 1
    | _ => tStrideF t i

/-- The number of effective elements. -/
def tCount (t : TDesc) : Nat := (List.range 6).foldl (fun n i => n * tExt t i) 1

/-- The index vector of the n-th effective element, dimension 0 varying fastest (R139). -/
def tIndexGo (t : TDesc) : List Nat → Nat → List Nat
  | [], _ => []
  | i :: is, n => n % tExt t i :: tIndexGo t is (n / tExt t i)

def tIndex (t : TDesc) (n : Nat) : List Nat := tIndexGo t [0, 1, 2, 3, 4, 5] n

/-- The element offset of an index vector, in elements from base. -/
def tOffset (t : TDesc) (ix : List Nat) : Nat :=
  (List.range 6).foldl (fun a i => a + ix.getD i 0 * tStep t i) 0

/-- The place of an element's first bit, in bits from address 0. -/
def tBitAddr (t : TDesc) (w : Nat) (ix : List Nat) : Nat := 8 * tBase t + w * tOffset t ix

/-! ### The packet header (R253) -/

def hDstDev (h : BitVec 256) : DevId := BitVec.ofNat 20 (fld h 19 0)
def hDstTile (h : BitVec 256) : Nat := fld h 30 20
def hClass (h : BitVec 256) : Nat := fld h 34 32
def hOrd (h : BitVec 256) : Bool := flag h 35
def hKind (h : BitVec 256) : Nat := fld h 39 36
def hTgt (h : BitVec 256) : Nat := fld h 42 40
def hTag (h : BitVec 256) : BitVec 16 := BitVec.ofNat 16 (fld h 63 48)
def hJob (h : BitVec 256) : BitVec 16 := BitVec.ofNat 16 (fld h 79 64)
def hSrcDev (h : BitVec 256) : DevId := BitVec.ofNat 20 (fld h 99 80)
def hSrcTile (h : BitVec 256) : Nat := fld h 110 100
def hLen (h : BitVec 256) : Nat := fld h 117 112
def hAddr (h : BitVec 256) : Nat := fld h 175 128
def hStream (h : BitVec 256) : BitVec 16 := BitVec.ofNat 16 (fld h 191 176)
def hChunk (h : BitVec 256) : Nat := fld h 215 192
def hPidx (h : BitVec 256) : Nat := fld h 223 216
def hPcrc (h : BitVec 256) : Nat := fld h 255 224
/-- Reserved fields are zero, and kind and tgt are not reserved. -/
def hOk (h : BitVec 256) : Bool :=
  !flag h 31 && fld h 47 43 = 0 && !flag h 111 && fld h 127 118 = 0 && hKind h ≤ 8 && hTgt h ≤ 4 && hLen h ≤ 32

/-- The fields from which a header is written. -/
structure HdrF where
  dstDev : Nat
  dstTile : Nat
  cls : Nat
  ord : Bool
  kind : Nat
  tgt : Nat
  tag : Nat
  job : Nat
  srcDev : Nat
  srcTile : Nat
  addr : Nat
  stream : Nat := 0
  chunk : Nat := 0
  pidx : Nat := 0
  /-- a READ carries no payload, and its len gives the 8 B units it asks for -/
  ask : Nat := 0
  deriving DecidableEq, Repr

/-- The header of those fields for a payload, with its pcrc (R253). -/
def mkHdr (f : HdrF) (payload : List Byte) : BitVec 256 :=
  let x :=
    f.dstDev % 2 ^ 20 + (f.dstTile % 2 ^ 11) <<< 20 + (f.cls % 8) <<< 32 + (b2n f.ord) <<< 35 + (f.kind % 16) <<< 36
    + (f.tgt % 8) <<< 40 + (f.tag % 2 ^ 16) <<< 48 + (f.job % 2 ^ 16) <<< 64 + (f.srcDev % 2 ^ 20) <<< 80
    + (f.srcTile % 2 ^ 11) <<< 100 + ((payload.length / 8 + f.ask) % 64) <<< 112 + (f.addr % 2 ^ 48) <<< 128
    + (f.stream % 2 ^ 16) <<< 176 + (f.chunk % 2 ^ 24) <<< 192 + (f.pidx % 2 ^ 8) <<< 216
  BitVec.ofNat 256 (x + (crc32c (toBytes 28 x ++ payload)) <<< 224)

/-- The pcrc matches (R253). -/
def pcrcOk (p : Packet) : Bool := hPcrc p.hdr = crc32c (toBytes 28 p.hdr.toNat ++ p.payload)

/-- Flits of a packet (R251). -/
def flits (p : Packet) : Nat := ceilDiv (32 + p.payload.length) 64

/-! ### The instruction word (R69) -/

def iOp (w : W32) : Nat := fld w 31 24
def iD (w : W32) : BitVec 4 := BitVec.ofNat 4 (fld w 23 20)
def iA (w : W32) : BitVec 4 := BitVec.ofNat 4 (fld w 19 16)
def iB (w : W32) : BitVec 4 := BitVec.ofNat 4 (fld w 15 12)
def iImm (w : W32) : Nat := fld w 11 0
/-- The sign-extended immediate. -/
def iSimm (w : W32) : W64 := BitVec.signExtend 64 (BitVec.ofNat 12 (iImm w))

/-- The fields an operation uses, d, a, b and imm in turn; none for an op code that is not in R70's table. -/
def iUses : Nat → Option (Bool × Bool × Bool × Bool)
  | 0x01 | 0x02 | 0x03 | 0x04 | 0x05 | 0x06 | 0x07 | 0x08 | 0x09 => some (true, true, true, false)
  | 0x0A | 0x0B => some (true, true, false, true)
  | 0x0C | 0x0D | 0x0E => some (true, true, true, false)
  | 0x10 => some (true, true, false, true)
  | 0x11 => some (false, true, true, true)
  | 0x18 | 0x19 | 0x1A => some (false, true, false, true)
  | 0x20 => some (true, false, false, true)
  | 0x21 => some (true, true, false, true)
  | 0x28 => some (true, true, true, false)
  | 0x29 => some (true, true, false, false)
  | 0x2B => some (true, true, true, false)
  | 0x2C => some (false, false, false, false)
  | 0x2D => some (true, false, false, false)
  | _ => none

/-- The word's op code is in the table and no field that it does not use is nonzero (R69). SUMRD and WAITS use the field
imm, of which they take bits [5:0]. -/
def iOk (w : W32) : Bool :=
  match iUses (iOp w) with
  | none => false
  | some (d, a, b, i) =>
    (d || iD w = 0) && (a || iA w = 0) && (b || iB w = 0) && (i || iImm w = 0)

end Sys2Proof.Machine
end

