-- ==== Sys2Proof/Machine/Ops.lean ====
section
/-! DEFINITION. The named operations over the device: tiles, polders and blocks; where an address lies (R205 to R207,
R222); windows (R86); reads and writes of memory under the error code (R216 to R218); counters (R484, R487); free values. -/

namespace Sys2Proof.Machine

/-! ### Free values and parts of the device -/

/-- A free value of 64 bits. -/
def fresh (d : Dev) : Dev × W64 := ({ d with free := d.free + 1 }, Config.freeValue d.free)

/-- A tile with a part changed by a function. -/
def onTile (d : Dev) (t : Nat) (f : Tile → Tile) : Dev := { d with tiles := NMap.upd d.tiles {} t f }
def tileOf (d : Dev) (t : Nat) : Tile := NMap.get d.tiles {} t

def onMem (d : Dev) (f : MemSys → MemSys) : Dev := { d with mem := f d.mem }
def onReeve (d : Dev) (f : Reeve → Reeve) : Dev := { d with reeve := f d.reeve }
def onFabric (d : Dev) (f : Fabric → Fabric) : Dev := { d with fabric := f d.fabric }
def onColl (d : Dev) (f : Coll → Coll) : Dev := { d with coll := f d.coll }

def polderOf (d : Dev) (p : PolderNo) : Option Polder := NMap.find? d.polders p.toNat
def onPolder (d : Dev) (p : PolderNo) (f : Polder → Polder) : Dev :=
  match NMap.find? d.polders p.toNat with
  | none => d
  | some x => { d with polders := NMap.insert d.polders p.toNat (f x) }

def portOf (d : Dev) (n : Nat) : Port := NMap.get d.fabric.ports {} n
def onPort (d : Dev) (n : Nat) (f : Port → Port) : Dev :=
  onFabric d fun b => { b with ports := NMap.upd b.ports {} n f }

def engineOf (d : Dev) (t : Nat) (e : EngineId) : Engine := NMap.get (tileOf d t).engines {} (engCode e)
def onEngine (d : Dev) (t : Nat) (e : EngineId) (f : Engine → Engine) : Dev :=
  onTile d t fun x => { x with engines := NMap.upd x.engines {} (engCode e) f }

/-- The polder of a job on this device (R256). -/
def polderOfJob (d : Dev) (job : BitVec 16) : Option (PolderNo × Polder) :=
  (List.find? (fun (e : Nat × Polder) => e.2.job = job) d.polders).map (fun e => (BitVec.ofNat 4 e.1, e.2))

/-! ### Blocks -/

/-- The state of a block by kind and index (R466). -/
def blkSt (d : Dev) (kind idx : Nat) : BlkSt := NMap.get d.blocks.st .off (kind * 256 + idx)
def setBlk (d : Dev) (kind idx : Nat) (s : BlkSt) : Dev :=
  { d with blocks := { d.blocks with st := NMap.set d.blocks.st .off (kind * 256 + idx) s } }
/-- A block that serves accesses: ON, or STOPPING with its work in flight (R467). -/
def blkUp (d : Dev) (kind idx : Nat) : Bool := blkSt d kind idx = .on || blkSt d kind idx = .stopping

def stackUp (d : Dev) (s : Nat) : Bool := blkUp d 4 s
def clusterUp (d : Dev) (c : Nat) : Bool := blkUp d 5 c
/-- A tile is present: its coordinate is not absent and its cluster is on (R23, R31). -/
def tileUp (d : Dev) (t : Nat) : Bool := t < 2048 && !d.grid.absent.contains t && clusterUp d (clusterOf t)
/-- The tiles a polder holds (R317). -/
def tilesHeld (d : Dev) (p : Polder) : List Nat := p.rect.filter (tileUp d)
/-- DDR5 channels in service (R221, R222). -/
def ddrChans (d : Dev) : List Nat :=
  (if blkUp d 3 0 then [0, 1, 2, 3] else []) ++ (if blkUp d 3 1 then [4, 5, 6, 7] else [])
/-- Installed DDR5 capacity in bytes: the figure published at stage 10, and no more than the channels in service hold (R206,
R222). -/
def ddrCap (d : Dev) : Nat := min d.mem.ddrGib ((ddrChans d).length * d.mem.gibPerCh) * gib

/-! ### Where an address lies -/

/-- Key ranges of the program stores and codebook stores, which no local address reaches. -/
def progBase : Nat := 2 ^ 50
def cbBase : Nat := 2 ^ 51
/-- The key of an instruction word of a tile's program store. -/
def progKey (t i : Nat) : Nat := progBase + t * 2 ^ 17 + 4 * i
/-- The key of an entry of a codebook set: 8 B, four BF16 values (R180). -/
def cbKey (t set entry : Nat) : Nat := cbBase + t * 2 ^ 16 + set * 2048 + entry * 8

/-- The place of an HBM address under the interleave of its stripe (R207): stack and offset. -/
def hbmPlace (imap : W64) (x : Nat) : Nat × Nat :=
  if bitAt imap.toNat (bits x 35 30) then
    (bits x 11 8, (bits x 35 12) <<< 12 + (bits x 39 36) <<< 8 + bits x 7 0)
  else (bits x 39 36, bits x 35 0)

/-- The key of an HBM place. -/
def hbmKey (stack off : Nat) : Nat := hbmBase + stack * 2 ^ 36 + off
/-- The local address whose place an HBM key is: R207 read backwards. -/
def hbmAddr (imap : W64) (key : Nat) : Nat :=
  let stack := (key - hbmBase) / 2 ^ 36
  let off := (key - hbmBase) % 2 ^ 36
  hbmBase + (if bitAt imap.toNat (bits off 35 30) then
    (bits off 11 8) <<< 36 + (bits off 35 12) <<< 12 + stack <<< 8 + bits off 7 0 else stack <<< 36 + off)
/-- The key of a DDR5 place. -/
def ddrKey (ch off : Nat) : Nat := ddrBase + ch * 2 ^ 40 + off

/-- The memory key of a local address, or the status of an access to an address that is not present (R205, R206, R23). -/
def place (d : Dev) (a : Nat) : Except Code Nat :=
  if a < 0x80000000 then (if tileUp d (a / 2 ^ 20) then .ok a else .error 0x0403)
  else if a < 0xC0000000 then .error 0x0409
  else if a < hbmBase then .error 0x0301
  else if a < ddrBase then
    let x := a - hbmBase
    let glob := bitAt d.mem.imap.toNat (bits x 35 30)
    let (s, off) := hbmPlace d.mem.imap x
    if glob then (if (List.range 16).all (stackUp d) then .ok (hbmKey s off) else .error 0x0305)
    else if stackUp d s then .ok (hbmKey s off) else .error 0x0305
  else if a < ddrEnd then
    let y := a - ddrBase
    if y < ddrCap d then
      let ch := ddrChans d
      .ok (ddrKey (ch.getD (y / 4096 % ch.length) 0) (y / 4096 / ch.length * 4096 + y % 4096))
    else .error 0x0302
  else .error 0x0301

/-- The first status that a range of n bytes meets, by 64-bit words. -/
def placeErrGo (d : Dev) : Nat → Nat → Option Code
  | 0, _ => none
  | k + 1, w => match place d (8 * w) with | .error c => some c | .ok _ => placeErrGo d k (w + 1)

/-- The first status that a range meets: by units of 256 B, which no boundary of R205 to R207 cuts. -/
def rangeErrGo (d : Dev) : Nat → Nat → Option Code
  | 0, _ => none
  | k + 1, u => match place d (256 * u) with | .error c => some c | .ok _ => rangeErrGo d k (u + 1)

def rangeErr (d : Dev) (a n : Nat) : Option Code :=
  if n = 0 then none else rangeErrGo d ((a + n - 1) / 256 + 1 - a / 256) (a / 256)

/-! ### Windows (R86) -/

/-- Every byte of lo to hi - 1, within one tile's window of the map, lies in the polder's share on that tile. -/
def inShare (d : Dev) (p : Polder) (t lo hi : Nat) : Bool :=
  p.inRect t && tileUp d t && t * 2 ^ 20 + p.sbase ≤ lo && hi ≤ t * 2 ^ 20 + p.sbase + p.slen

/-- Every byte of a scratchpad range lies in the polder's shares, tile by tile. -/
def inShares (d : Dev) (p : Polder) (a n : Nat) : Bool :=
  (List.range ((a + n - 1) / 2 ^ 20 + 1 - a / 2 ^ 20)).all fun i =>
    let t := a / 2 ^ 20 + i
    inShare d p t (max a (t * 2 ^ 20)) (min (a + n) ((t + 1) * 2 ^ 20))

/-- Every byte of a range lies in the polder's windows. -/
def inWindows (d : Dev) (p : Polder) (a n : Nat) : Bool :=
  if n = 0 then true
  else if a + n ≤ 0x80000000 then inShares d p a n
  else if hbmBase ≤ a ∧ a + n ≤ ddrBase then p.hlo ≤ a && a + n ≤ p.hhi
  else if ddrBase ≤ a then p.dlo ≤ a && a + n ≤ p.dhi
  else if hbmBase ≤ a then p.hlo ≤ a && ddrBase ≤ p.hhi && p.dlo ≤ ddrBase && a + n ≤ p.dhi
  else false

/-- The check of an address that a descriptor names: windows before R205 and R206 (R86). -/
def addrErr (d : Dev) (p : Polder) (a n : Nat) : Option Code :=
  if !inWindows d p a n then some 0x0409 else rangeErr d a n

/-! ### Counters (R484, R487) -/

/-- The key of a counter block. -/
def ctrKey (kind idx : Nat) : Nat := kind * 4096 + idx

/-- A block's counters with n events of a number counted, caused by a polder or by none. -/
def countIn (b : CtrBlock) (ev n : Nat) (pol : Option PolderNo) : CtrBlock :=
  { b with ctr := NMap.mapVals b.ctr fun _ c =>
      if c.event.toNat = ev ∧ ev ≠ 0 ∧ (!c.filt ∨ pol = some c.polder) then { c with val := c.val + BitVec.ofNat 64 n } else c }

/-- n events counted at a block. -/
def count (d : Dev) (kind idx ev n : Nat) (pol : Option PolderNo) : Dev :=
  match NMap.find? d.counters.blocks (ctrKey kind idx) with
  | none => d
  | some b =>
    { d with counters := { d.counters with
        blocks := NMap.insert d.counters.blocks (ctrKey kind idx) (countIn b ev n pol) } }

/-- The tile's cycle counter advanced by the cycles that have passed (R482). -/
def tickTile (d : Dev) (t : Nat) : Dev :=
  let n := Config.elapsed d.free
  let d := { d with free := d.free + 1 }
  let d := onTile d t fun x => { x with cyc := x.cyc + BitVec.ofNat 64 n }
  count d 0 t 0x001 n none

/-- Events that count time or traffic: how many occur is a matter of clocks and of how accesses are cut, which the spec leaves
open. A tile's own cycles are counted with its cycle counter. -/
def openEvent (kind ev : Nat) : Bool :=
  match kind with
  | 0 => (0x011 ≤ ev && ev ≤ 0x013) || (0x101 ≤ ev && ev ≤ 0x103) || ev = 0x201 || ev = 0x221 || ev = 0x301 || ev = 0x302
  | 1 => ev = 0x001 || (0x400 ≤ ev && ev ≤ 0x417)
  | 2 => ev = 0x001 || (0x500 ≤ ev && ev ≤ 0x517) || ev = 0x51C
  | 3 => ev = 0x001 || (0x600 ≤ ev && ev ≤ 0x617)
  | 4 => ev = 0x001 || (0x710 ≤ ev && ev ≤ 0x717) || ev = 0x71D || ev = 0x71E
  | _ => ev = 0x001

/-- A block's counters of such events, and its latency histogram (R490), advanced by free amounts from a place of the free values on. -/
def drift (f kind : Nat) (b : CtrBlock) : CtrBlock :=
  { b with
    ctr := NMap.mapVals b.ctr fun i c =>
      if openEvent kind c.event.toNat then { c with val := c.val + BitVec.ofNat 64 (Config.elapsed (f + i)) } else c
    hist :=
      if kind = 2 ∨ kind = 3 then
        (List.range 16).foldl (fun (h : NMap W32) i =>
          NMap.set h 0 i (BitVec.ofNat 32 (min 0xFFFFFFFF ((NMap.get h 0 i).toNat + Config.elapsed (f + 8 + i))))) b.hist
      else b.hist }

/-- A block before its counters are read. -/
def driftBlock (d : Dev) (kind idx : Nat) : Dev :=
  let b := drift d.free kind (NMap.get d.counters.blocks {} (ctrKey kind idx))
  { d with
    free := d.free + 24
    counters := { d.counters with
      blocks := if b = {} then d.counters.blocks else NMap.insert d.counters.blocks (ctrKey kind idx) b } }

/-- The counter block that an address of the block-register window lies in: kind, index and offset (R482, R483). -/
def ctrBlockAt (a : Nat) : Option (Nat × Nat × Nat) :=
  let tile := a - 0x80000000
  let o := a % 4096
  if a < 0x80000000 then none
  else if a < 0x80800000 then
    (if o < 0x100 then some (0, tile / 4096, o) else if o < 0x200 then some (1, tile / 4096, o - 0x100) else none)
  else if 0x280 ≤ o then none
  else if a < 0x80810000 then some (2, (a - 0x80800000) / 4096, o)
  else if a < 0x80818000 then some (3, (a - 0x80810000) / 4096, o)
  else if a < 0x80820280 ∧ 0x80820000 ≤ a then some (4, 0, o)
  else if a < 0x80830280 ∧ 0x80830000 ≤ a then some (5, 0, o)
  else if a < 0x80840280 ∧ 0x80840000 ≤ a then some (6, 0, o)
  else none

/-- A polder with cgrant may read a byte of the block-register window (R493). -/
def ctrReadable (d : Dev) (x : Polder) (a : Nat) : Bool :=
  match ctrBlockAt a with
  | none => false
  | some (k, i, _) => x.cgrant && (2 ≤ k || (x.inRect i && tileUp d i))

def ctrsOk (d : Dev) (x : Polder) (a n : Nat) : Bool := 0 < n && (List.range n).all fun i => ctrReadable d x (a + i)

/-- The 64-bit register of a counter block that an offset lies in: the cycle counter, a counter, its RS copy, or the RS copy
of the cycle counter. -/
def ctrWide (d : Dev) (kind idx o : Nat) : Option W64 :=
  let b : CtrBlock := NMap.get d.counters.blocks {} (ctrKey kind idx)
  if o < 8 then some (if kind = 0 then (tileOf d idx).cyc else 0)
  else if 0x40 ≤ o ∧ o < 0x80 then some (NMap.get b.ctr {} ((o - 0x40) / 8)).val
  else if 0x80 ≤ o ∧ o < 0xC0 then some (NMap.get b.ctr {} ((o - 0x80) / 8)).snap
  else if 0xC0 ≤ o ∧ o < 0xC8 then some b.snapCyc
  else none

/-- The holding copy's key of an upper word. -/
def latchKey (kind idx o : Nat) : Nat := ctrKey kind idx * 4096 + o

/-- The read of a low word latches the upper word into the holding copy (R15). -/
def latchUpper (d : Dev) (kind idx o : Nat) : Dev :=
  match ctrWide d kind idx o with
  | some v =>
    if o % 8 = 0 then
      { d with counters := { d.counters with
          latch := NMap.insert d.counters.latch (latchKey kind idx (o + 4)) (BitVec.ofNat 32 (fld v 63 32)) } }
    else d
  | none => d

/-- A 32-bit register of a counter block as a polder reads it: a counter selected for another polder, or unfiltered, reads
zero, and so does its RS copy. An upper word reads its holding copy where there is one (R15). -/
def ctrReg (d : Dev) (p : Option PolderNo) (kind idx o : Nat) : Nat :=
  let b : CtrBlock := NMap.get d.counters.blocks {} (ctrKey kind idx)
  let c (n : Nat) : Counter := NMap.get b.ctr {} n
  let mine (n : Nat) : Bool := (c n).filt && p = some (c n).polder
  let half (v : W64) : Nat :=
    if o % 8 = 4 then ((NMap.find? d.counters.latch (latchKey kind idx o)).elim (fld v 63 32) BitVec.toNat) else fld v 31 0
  if o < 8 then half (if kind = 0 then (tileOf d idx).cyc else 0)
  else if o = 8 then b.snapno.toNat
  else if 0x10 ≤ o ∧ o < 0x30 then
    let x := c ((o - 0x10) / 4)
    x.event.toNat + x.polder.toNat <<< 16 + (b2n x.filt) <<< 20 + (b2n x.held) <<< 21
  else if 0x40 ≤ o ∧ o < 0x80 then (if mine ((o - 0x40) / 8) then half (c ((o - 0x40) / 8)).val else 0)
  else if 0x80 ≤ o ∧ o < 0xC0 then (if mine ((o - 0x80) / 8) then half (c ((o - 0x80) / 8)).snap else 0)
  else if 0xC0 ≤ o ∧ o < 0xC8 then half b.snapCyc
  else if 0x200 ≤ o ∧ o < 0x240 then (NMap.get b.hist 0 ((o - 0x200) / 4)).toNat
  else if 0x240 ≤ o ∧ o < 0x280 then (NMap.get b.hsnap 0 ((o - 0x240) / 4)).toNat
  else 0

/-- The counter block of an address, its cycle counter and its counts of time moved on. -/
def touchBlock (d : Dev) (a : Nat) : Dev :=
  match ctrBlockAt a with
  | some (k, i, _) => driftBlock (if k = 0 then tickTile d i else d) k i
  | none => d

/-- Registers read in turn, each by its word number: the read of a low word latches its upper word. -/
def ctrWords (d : Dev) (p : Option PolderNo) (w : Nat) : Nat → Dev × List Byte
  | 0 => (d, [])
  | n + 1 =>
    match ctrBlockAt (4 * w) with
    | some (k, j, o) =>
      let v := ctrReg d p k j o
      let (d, bs) := ctrWords (latchUpper d k j o) p (w + 1) n
      (d, toBytes 4 v ++ bs)
    | none =>
      let (d, bs) := ctrWords d p (w + 1) n
      (d, zeros 4 ++ bs)

/-- Bytes of counter blocks read for a polder; what counts time moves on first. -/
def ctrRead (d : Dev) (p : Option PolderNo) (a n : Nat) : Dev × List Byte :=
  let d := (List.range ((a + n - 1) / 256 + 1 - a / 256)).foldl (fun d i => touchBlock d (256 * (a / 256 + i))) d
  let (d, bs) := ctrWords d p (a / 4) ((a + n - 1) / 4 + 1 - a / 4)
  (d, (bs.drop (a % 4)).take n)

/-- An address of the block-register window. -/
def inBlockRegs (a : Nat) : Bool := 0x80000000 ≤ a && a < 0xC0000000

/-- A bin of a histogram with a value entered (R489). -/
def histBin (l : Nat) : Nat := if l < 2 then 0 else min 15 l.log2
def histAdd (h : NMap W32) (key : Nat) : NMap W32 :=
  NMap.upd h 0 key fun x => if x = 0xFFFFFFFF then x else x + 1

/-! ### The error code (R216 to R218) -/

/-- On whose behalf an access is made: its class and polder, and whether it is a scrub. -/
structure Acc where
  cls : Nat := 0
  polder : Option PolderNo := none
  scrub : Bool := false
  deriving DecidableEq, Repr

/-- What the decoder reports of a word. -/
inductive EccOut where
  | clean | single | double | uncorr | poison | miss1 | miss2 | unseen
  deriving DecidableEq, Repr

/-- Bits set in a number's low n bits. -/
def popcount (n x : Nat) : Nat := (setPositions n x).length

/-- R216's table. Which outcome a pattern of 4 or more bits gives is open: a constant of Config picks one of the row's. -/
def eccOut (key : Nat) : Option EccWord → EccOut
  | none => .clean
  | some .poison => .poison
  | some (.bad pat) =>
    match popcount 80 pat.toNat with
    | 0 => .clean
    | 1 => .single
    | 2 => .double
    | 3 => .uncorr
    | n =>
      let k := Config.eccOutcome key pat.toNat % (if n = 4 then 3 else if n = 5 then 4 else 5)
      match k with
      | 0 => .uncorr | 1 => .poison | 2 => .miss2 | 3 => .miss1 | _ => .unseen

/-- Which controller or scratchpad block holds a key, as ELOG_READ numbers them (R431). -/
def elogSource (key : Nat) : Nat :=
  if key < 0x80000000 then 0x20 + clusterOf (key / 2 ^ 20)
  else if key < ddrBase then (key - hbmBase) / 2 ^ 36
  else if key < progBase then 0x10 + (key - ddrBase) / 2 ^ 40
  else if key < cbBase then 0x20 + clusterOf ((key - progBase) / 2 ^ 17)
  else 0x20 + clusterOf ((key - cbBase) / 2 ^ 16)

/-- A ring with a record added, newest first; the 17th is lost and counted (R218). -/
def elogAdd (l : ELog) (r : BitVec 128) : ELog :=
  { recs := (r :: l.recs).take 16
    newest := if l.recs = [] then l.newest else l.newest + 1
    lost := if l.recs.length < 16 then l.lost else if l.lost = 0xFFFF then l.lost else l.lost + 1 }

/-- An error record (R218). -/
def elogRec (d : Dev) (acc : Acc) (a kind : Nat) (syn : BitVec 16) : BitVec 128 :=
  BitVec.ofNat 128 (a % 2 ^ 48 + kind <<< 48 + (b2n acc.scrub) <<< 51 + (acc.cls % 8) <<< 52
    + (match acc.polder with | some p => if acc.scrub then 0 else p.toNat | none => 0) <<< 55
    + (d.kclk.toNat % 2 ^ 32) <<< 64 + syn.toNat <<< 96)

def elogPut (d : Dev) (src : Nat) (r : BitVec 128) : Dev :=
  onMem d fun m => { m with elog := NMap.upd m.elog {} src (elogAdd · r) }

/-- The error event of a kind counted at the word's controller (R488): 0 single, 1 double, 2 uncorrectable, 3 poisoned. -/
def eccCount (d : Dev) (acc : Acc) (key i : Nat) : Dev :=
  let src := elogSource key
  let pol := if acc.scrub then none else acc.polder
  if src < 0x10 then count d 2 src (0x518 + i) 1 pol
  else if src < 0x18 then count d 3 (src - 0x10) (0x618 + i) 1 pol
  else d

/-- A correction or a bad word recorded and counted. -/
def eccNote (d : Dev) (acc : Acc) (key a kind : Nat) : Dev :=
  eccCount (elogPut d (elogSource key) (elogRec d acc a kind (Config.syndrome key))) acc key (kind - 1)

def setEcc (d : Dev) (key : Nat) (e : Option EccWord) : Dev :=
  onMem d fun m => { m with ecc := match e with | none => NMap.erase m.ecc (key / 8) | some x => NMap.insert m.ecc (key / 8) x }

/-- Whether a key lies in HBM. -/
def isHbm (key : Nat) : Bool := hbmBase ≤ key && key < ddrBase
def isDdr (key : Nat) : Bool := ddrBase ≤ key && key < progBase

end Sys2Proof.Machine
end

