-- ==== Sys2Proof/Machine/Flags.lean ====
section
/-! DEFINITION. Flags and records by which the device reports: completion words (R74), tallies (R425), notices (R422,
R423), fault records (R424); and the reads and writes of memory, whose errors raise them (R215 to R217). -/

namespace Sys2Proof.Machine

/-! ### Host memory (R409, R410) -/

/-- The IHA answers an access to these bytes of host memory with data. -/
def hostOk (d : Dev) (a n : Nat) : Bool := d.mem.hostErr.all fun r => a + n ≤ r.1 || r.2 ≤ a

/-- A device write to host memory; none when the IHA refuses it. -/
def hostWrite (d : Dev) (a : Nat) (bs : List Byte) : Option Dev :=
  if hostOk d a bs.length then some (onMem d fun m => { m with host := Mem.writeN m.host a bs }) else none

/-- A device read of host memory. -/
def hostRead (d : Dev) (a n : Nat) : Option (List Byte) :=
  if hostOk d a n then some (Mem.readN d.mem.host a n) else none

/-! ### Completion words and tallies (R74, R425) -/

def cword (e : OpEnd) : BitVec 32 := BitVec.ofNat 32 (e.status.toNat + e.st.code <<< 16)

/-- The 32 B of a tally (R425). -/
def tallyBytes (seq : W32) (e : OpEnd) (fin : Bool) (marker : Nat) (c : Counts) : List Byte :=
  toBytes 32 (seq.toNat + e.st.code <<< 32 + (b2n fin) <<< 40 + e.status.toNat <<< 48 + (marker % 2 ^ 64) <<< 64
    + (c.sat % 2 ^ 32) <<< 128 + (c.ftz % 2 ^ 32) <<< 160 + (c.nf % 2 ^ 32) <<< 192 + (c.tg % 2 ^ 32) <<< 224)

/-- One more element counted, each counter stopping at 0xFFFF_FFFF (R56). -/
def Counts.add (c : Counts) (k : Cls) : Counts :=
  match k with
  | .none => c
  | .sat => { c with sat := satAdd 0xFFFFFFFF c.sat 1 }
  | .flush => { c with ftz := satAdd 0xFFFFFFFF c.ftz 1 }
  | .nonfin => { c with nf := satAdd 0xFFFFFFFF c.nf 1 }

def Counts.addTg (c : Counts) (n : Nat) : Counts := { c with tg := satAdd 0xFFFFFFFF c.tg n }

/-! ### Notices (R422, R423) -/

def mboxOf (d : Dev) (m : Nat) : Mbox := NMap.get d.reeve.boxes {} m
def onMbox (d : Dev) (m : Nat) (f : Mbox → Mbox) : Dev :=
  onReeve d fun r => { r with boxes := NMap.upd r.boxes {} m f }

/-- The next notice number: from 0xFFFF_FFFF to 1. -/
def nextSeq (n : W32) : W32 := if n = 0xFFFFFFFF then 1 else n + 1

/-- The 32 B of a notice entry (R422); info holds bits [255:96] in place. -/
def noticeBytes (nseq : W32) (kind : Nat) (pol : Option PolderNo) (job : BitVec 16) (status : Code) (info : Nat) : List Byte :=
  toBytes 32 (nseq.toNat + kind <<< 32 + (match pol with | some p => p.toNat | none => 0) <<< 40
    + job.toNat <<< 48 + status.toNat <<< 64 + info)

/-- A notice entry into one mailbox's ring, with its interrupt message; counted as lost where there is no ring. -/
def noticeTo (d : Dev) (m kind : Nat) (pol : Option PolderNo) (job : BitVec 16) (status : Code) (info : Nat) : Dev :=
  match (mboxOf d m).ring with
  | none => count d 6 0 0xA01 1 pol
  | some r =>
    let n := nextSeq r.nseq
    let d := onMbox d m fun b => { b with ring := some { r with nseq := n } }
    let d := (hostWrite d (r.base + 32 * (n.toNat % 2 ^ r.k)) (noticeBytes n kind pol job status info)).getD d
    onReeve d fun x => { x with irqs := x.irqs ++ [r.vector] }

/-- The mailboxes that a notice reaches: those of the polder that enable its kind, or the privileged one (R423). -/
def noticeBoxes (d : Dev) (kind : Nat) (pol : Option PolderNo) : List Nat :=
  match pol with
  | none => if bitAt (mboxOf d 64).en.toNat kind then [64] else []
  | some p => (List.range 64).filter fun m =>
      (mboxOf d m).owner.any (fun o => o.1 = p) && bitAt (mboxOf d m).en.toNat kind

/-- A notice of a kind, for a polder or for the device. One that reaches no mailbox reaches no ring (R423). -/
def notice (d : Dev) (kind : Nat) (pol : Option PolderNo) (status : Code) (info : Nat) : Dev :=
  let job : BitVec 16 := match pol with | none => 0 | some p => ((polderOf d p).map Polder.job).getD 0
  match noticeBoxes d kind pol with
  | [] => count d 6 0 0xA01 1 pol
  | ms => ms.foldl (fun d m => noticeTo d m kind pol job status info) d

/-! ### Rows to repair (R215, R223) -/

/-- The 4 KiB page of an address, its kind and its source, as a kind 5 notice holds them. -/
def memInfo (a ekind src : Nat) : Nat := (a / 4096 * 4096) <<< 96 + ekind <<< 144 + src <<< 160

/-- The polder whose windows hold an address. -/
def ownerOfAddr (d : Dev) (a : Nat) : Option PolderNo :=
  (List.find? (fun (e : Nat × Polder) => inWindows d e.2 a 1) d.polders).map fun e => BitVec.ofNat 4 e.1

/-- A row of a controller: its source (R431) above bit 40. -/
def rowKey (key : Nat) : Nat := elogSource key * 2 ^ 40 + Config.rowOf key % 2 ^ 40

/-- No spare row is left, or a DDR5 row meets the conditions: a record of kind 6 with the row's first word, and a notice that
names the page (R215, R218, R223). -/
def exhausted (d : Dev) (acc : Acc) (key a : Nat) : Dev :=
  let d := elogPut d (elogSource key) (elogRec d acc (Config.rowFirst (rowKey key)) 6 0)
  notice d 5 (ownerOfAddr d a) 0 (memInfo a 6 (elogSource key))

/-- The row of a word is marked for repair: soft repair starts with a spare row of the bank. -/
def markRow (d : Dev) (acc : Acc) (key a : Nat) : Dev :=
  if isDdr key then exhausted d acc key a
  else if isHbm key then
    let row := rowKey key
    if d.mem.repairs.any (fun r => r.row = row && r.copying) then d
    else if NMap.get d.mem.rowsUsed 0 (Config.bankOf key) < 4 then
      onMem d fun m => { m with
        rowsUsed := NMap.upd m.rowsUsed 0 (Config.bankOf key) (· + 1)
        repairs := ⟨elogSource key, row, Config.bankOf key, true, false⟩ :: m.repairs
        rowHits := NMap.erase m.rowHits row }
    else exhausted d acc key a
  else d

/-- A corrected word counted against its row: the fourth within a scrub period marks it. -/
def rowHit (d : Dev) (acc : Acc) (key a : Nat) : Dev :=
  if isHbm key || isDdr key then
    let row := rowKey key
    let n := NMap.get d.mem.rowHits 0 row + 1
    let d := onMem d fun m => { m with rowHits := NMap.set m.rowHits 0 row n }
    if n = 4 then markRow d acc key a else d
  else d

/-! ### Reading and writing memory (R216, R217) -/

/-- The status of a word read: good, newly uncorrectable, or already poisoned. -/
inductive WSt where
  | good | bad | poisoned
  deriving DecidableEq, Repr

/-- The n stored bytes from a key on. -/
def rawRead (d : Dev) (key n : Nat) : List Byte := Mem.readN d.mem.bytes key n
def rawWrite (d : Dev) (key : Nat) (bs : List Byte) : Dev := onMem d fun m => { m with bytes := Mem.writeN m.bytes key bs }

/-- One aligned 64-bit word read through the decoder: a corrected word is written back corrected, an uncorrectable one
becomes poisoned. key and a are multiples of 8. -/
def wordRead (d : Dev) (acc : Acc) (key a : Nat) : Dev × WSt × List Byte :=
  match eccOut key (NMap.find? d.mem.ecc (key / 8)) with
  | .clean => (d, .good, rawRead d key 8)
  | .single => (rowHit (eccNote (setEcc d key none) acc key a 1) acc key a, .good, rawRead d key 8)
  | .double => (rowHit (eccNote (setEcc d key none) acc key a 2) acc key a, .good, rawRead d key 8)
  | .uncorr => (markRow (eccNote (setEcc d key (some .poison)) acc key a 3) acc key a, .bad, rawRead d key 8)
  | .poison => (markRow (eccNote (setEcc d key (some .poison)) acc key a 4) acc key a, .poisoned, rawRead d key 8)
  | .miss1 =>
    let (d, v) := fresh d
    let d := rawWrite (setEcc d key none) key (toBytes 8 v.toNat)
    (rowHit (eccNote d acc key a 1) acc key a, .good, rawRead d key 8)
  | .miss2 =>
    let (d, v) := fresh d
    let d := rawWrite (setEcc d key none) key (toBytes 8 v.toNat)
    (rowHit (eccNote d acc key a 2) acc key a, .good, rawRead d key 8)
  | .unseen => let (d, v) := fresh d; (d, .good, toBytes 8 v.toNat)

/-- Words read in turn: n words from the local address a on (a multiple of 8), with the worst status first (R217). The
words are known to be present. -/
def wordsRead (d : Dev) (acc : Acc) (a : Nat) : Nat → Dev × Option Code × List Byte
  | 0 => (d, none, [])
  | n + 1 =>
    match place d a with
    | .error c => (d, some c, [])
    | .ok key =>
      let (d, w, bs) := wordRead d acc key a
      let (d, st, rest) := wordsRead d acc (a + 8) n
      let st' := match w, st with
        | .good, st => st
        | .bad, _ => some 0x0310
        | .poisoned, some 0x0310 => some 0x0310
        | .poisoned, _ => some 0x0311
      (d, st', bs ++ rest)

/-- n bytes of local memory read; a status of R205 comes before any word is read, one of R217 with the bytes lost. -/
def memRead (d : Dev) (acc : Acc) (a n : Nat) : Dev × Except Code (List Byte) :=
  if n = 0 then (d, .ok [])
  else
    match rangeErr d a n with
    | some c => (d, .error c)
    | none =>
      let lo := a / 8 * 8
      let (d, st, bs) := wordsRead d acc lo ((a + n - lo + 7) / 8)
      match st with
      | some c => (d, .error c)
      | none => (d, .ok ((bs.drop (a - lo)).take n))

/-- One word written in part or whole: bytes from offset o of the aligned word at key. A whole write clears the poison; a
narrower one merges, keeps the poison, and poisons a word it finds uncorrectable (R217). -/
def wordWrite (d : Dev) (acc : Acc) (key a o : Nat) (bs : List Byte) : Dev :=
  if bs.length = 8 then rawWrite (setEcc d key none) key bs
  else
    match eccOut key (NMap.find? d.mem.ecc (key / 8)) with
    | .uncorr => markRow (eccNote (setEcc (rawWrite d (key + o) bs) key (some .poison)) acc key a 3) acc key a
    | .poison => rawWrite d (key + o) bs
    -- errors that the merging read does not see are stored with good check bits
    | .unseen => let (d, v) := fresh d; rawWrite (rawWrite (setEcc d key none) key (toBytes 8 v.toNat)) (key + o) bs
    | _ =>
      let (d, _, _) := wordRead d acc key a
      rawWrite d (key + o) bs

/-- Bytes written from a on, word by word; every word is known to be present. -/
def wordsWrite (d : Dev) (acc : Acc) : Nat → Nat → List Byte → Dev
  | 0, _, _ => d
  | n + 1, a, bs =>
    if bs = [] then d
    else
      let o := a % 8
      match place d (a - o) with
      | .error _ => d
      | .ok key => wordsWrite (wordWrite d acc key (a - o) o (bs.take (8 - o))) acc n (a + (8 - o)) (bs.drop (8 - o))

/-- Local memory written; a status of R205 leaves it unchanged. -/
def memWrite (d : Dev) (acc : Acc) (a : Nat) (bs : List Byte) : Dev × Option Code :=
  if bs = [] then (d, none)
  else
    match rangeErr d a bs.length with
    | some c => (d, some c)
    | none => (wordsWrite d acc (bs.length / 8 + 2) a bs, none)

/-- Free bytes, as many as asked. -/
def freeBytes (d : Dev) (n : Nat) : Dev × List Byte :=
  ({ d with free := d.free + n }, (List.range n).map fun i => (Config.freeValue (d.free + i)).setWidth 8)

/-- Memory that the device uses for contents whose layout the spec does not give: its bytes are free values (R316). -/
def churn (d : Dev) (acc : Acc) (a n : Nat) : Dev := let (d, bs) := freeBytes d n; (memWrite d acc a bs).1

/-- A word of memory marked poisoned as it is written (R260). -/
def poisonWord (d : Dev) (a : Nat) : Dev :=
  match place d (a / 8 * 8) with | .error _ => d | .ok key => setEcc d key (some .poison)

/-- Zero written over the bytes of a range of local addresses, and its errors cleared (R320, R508). -/
def zeroKeys (m : MemSys) (inRange : Nat → Bool) : MemSys :=
  { m with bytes := NMap.dropKeys m.bytes inRange, ecc := NMap.dropKeys m.ecc fun k => inRange (8 * k) }

/-- Words of the stores that no local address reaches (program and codebook stores), read through the decoder; keys rise
by 8. -/
def keyWords (d : Dev) (acc : Acc) (key : Nat) : Nat → Dev × Option Code × List Byte
  | 0 => (d, none, [])
  | n + 1 =>
    let (d, w, bs) := wordRead d acc key 0
    let (d, st, rest) := keyWords d acc (key + 8) n
    (d, (match w, st with
      | .good, st => st | .bad, _ => some 0x0310
      | .poisoned, some 0x0310 => some 0x0310 | .poisoned, _ => some 0x0311), bs ++ rest)

/-- Words of those stores written whole, or half by half for an instruction. -/
def keyWrite (d : Dev) (acc : Acc) (key : Nat) (bs : List Byte) : Dev :=
  let o := key % 8
  wordWrite d acc (key - o) 0 o bs

/-! ### Thread faults (R66, R424) -/

/-- A fault record into a polder's log of 64, and its notice of kind 2. -/
def faultRecord (d : Dev) (p : PolderNo) (tile th : Nat) (pc : Nat) (code : Code) : Dev :=
  match polderOf d p with
  | none => d
  | some x =>
    let info := tile <<< 96 + th <<< 112 + (pc % 2 ^ 16) <<< 128 + code.toNat <<< 144
    let r : BitVec 256 := BitVec.ofNat 256 (2 <<< 32 + p.toNat <<< 40 + x.job.toNat <<< 48 + code.toNat <<< 64 + info)
    let d := onPolder d p fun x => { x with
      faults := (r :: x.faults).take 64
      overwritten := if x.faults.length < 64 then x.overwritten else x.overwritten + 1 }
    notice d 2 (some p) code info

end Sys2Proof.Machine
end

