-- ==== Sys2Proof/Machine/Slots.lean ====
section
/-! DEFINITION. Op-tag slots and engine queues (R73 to R77), summary posts (R78, R79), and what wakes a waiting thread
(R64): the operations the crown, the mailboxes and the engines share. -/

namespace Sys2Proof.Machine

/-! ### Threads -/

def threadOf (d : Dev) (t th : Nat) : Thread := NMap.get (tileOf d t).threads {} th
def onThread (d : Dev) (t th : Nat) (f : Thread → Thread) : Dev :=
  onTile d t fun x => { x with threads := NMap.upd x.threads {} th f }

/-- A scalar register: s0 reads zero (R64). -/
def regRead (x : Thread) (r : BitVec 4) : W64 := if r = 0 then 0 else NMap.get x.regs 0 r.toNat
/-- A scalar register written: writes to s0 are discarded. -/
def regWrite (x : Thread) (r : BitVec 4) (v : W64) : Thread :=
  if r = 0 then x else { x with regs := NMap.set x.regs 0 r.toNat v }

/-- An instruction completes: the destination is written and the program counter moves on. A thread parked in its wait
keeps PARKED and will return to READY. -/
def threadDone (x : Thread) (rd : BitVec 4) (v : W64) : Thread :=
  let x := regWrite x rd v
  if x.st = .parked then { x with pc := x.pc + 1, wait := .nothing, was := .ready }
  else { x with pc := x.pc + 1, wait := .nothing, st := .ready }

/-- The polder that a thread number of a tile belongs to (R67). -/
def polderOfThread (d : Dev) (t th : Nat) : Option (PolderNo × Polder) :=
  (List.find? (fun (e : Nat × Polder) => e.2.inRect t && e.2.tbase ≤ th && th < e.2.tbase + e.2.tcount) d.polders).map
    fun e => (BitVec.ofNat 4 e.1, e.2)

/-- A thread that faults becomes PARKED, with its record and notice (R66). -/
def threadFault (d : Dev) (t th : Nat) (p : PolderNo) (code : Code) : Dev :=
  let x := threadOf d t th
  let d := onThread d t th fun x => { x with st := .parked, was := x.st, wait := .nothing, byFault := true }
  faultRecord d p t th x.pc.toNat code

/-! ### Slots -/

def slotOf (d : Dev) (t slot : Nat) : Slot := NMap.get (tileOf d t).slots {} slot
def onSlot (d : Dev) (t slot : Nat) (f : Slot → Slot) : Dev :=
  onTile d t fun x => { x with slots := NMap.upd x.slots {} slot f }

/-- How far a generation lies behind a slot's current one, modulo 2^16. -/
def genBehind (s : Slot) (gen : BitVec 16) : Nat := (s.gen - gen).toNat

/-- The record of a slot for a generation at most 15 behind the current one (R73, R74). -/
def recOf (s : Slot) (gen : BitVec 16) : Option OpRec :=
  if genBehind s gen < 16 then s.recs.find? (fun r => r.gen = gen) else none

/-- The operation that holds the slot now, when the generation is the current one. -/
def heldBy (s : Slot) (gen : BitVec 16) : Option PolderNo :=
  match s.use with
  | .held p => if s.gen = gen ∧ recOf s gen = none then some p else none
  | _ => none

/-- Whether a completion word's state is DONE or COMMITTED. -/
def cwordOk (w : BitVec 32) : Bool := fld w 23 16 = 2 || fld w 23 16 = 3

/-- A prerequisite resolved at ISSUE (R76): tag and generation as register b holds them. -/
def resolveDep (d : Dev) (t : Nat) (p : PolderNo) (desc : BitVec 1024) (b : W64) : Dep :=
  if !dDepEn desc then .met
  else
    let tag := fld b 15 0
    let gen : BitVec 16 := BitVec.ofNat 16 (fld b 31 16)
    if dDepTag desc ≠ tag ∨ tag / 32 ≠ t then .failed
    else
      let s := slotOf d t (tag % 32)
      match heldBy s gen with
      | some q => if q = p then .on (tag % 32) gen else .failed
      | none =>
        match recOf s gen with
        | some r => if r.polder = p ∧ cwordOk r.cword then .met else .failed
        | none => .failed

/-- What WAIT answers at once, or none when the operation is still queued or running (R74). -/
def waitWord (d : Dev) (t : Nat) (p : PolderNo) (a : W64) : Option W64 :=
  let tag := fld a 15 0
  let gen : BitVec 16 := BitVec.ofNat 16 (fld a 31 16)
  if tag / 32 ≠ t then some 0x0408
  else
    let s := slotOf d t (tag % 32)
    match heldBy s gen with
    | some q => if q = p then none else some 0x0408
    | none =>
      match recOf s gen with
      | some r => if r.polder = p then some (r.cword.zeroExtend 64) else some 0x0408
      | none =>
        match s.use with
        | .held q => if q = p then some 0x040C else some 0x0408
        | _ => some 0x040C

/-- The threads of a tile that wait on an operation resume with its completion word (R74). -/
def wakeOp (d : Dev) (t slot : Nat) (gen : BitVec 16) (w : BitVec 32) : Dev :=
  onTile d t fun x => { x with threads := NMap.mapVals x.threads fun _ th =>
    match th.wait with
    | .op rd s g => if s = slot ∧ g = gen ∧ th.st = .waiting then threadDone th rd (w.zeroExtend 64) else th
    | _ => th }

/-- Dependents of an operation learn how it ended (R76). -/
def settleDep (slot : Nat) (gen : BitVec 16) (ok : Bool) (x : Dep) : Dep :=
  match x with
  | .on s g => if s = slot ∧ g = gen then (if ok then .met else .failed) else x
  | _ => x

def settleDeps (d : Dev) (t slot : Nat) (gen : BitVec 16) (ok : Bool) : Dev :=
  onTile d t fun x => { x with
    engines := NMap.mapVals x.engines fun _ e => { e with queue := e.queue.map fun q => { q with dep := settleDep slot gen ok q.dep } }
    issueQ := x.issueQ.map fun w => { w with dep := settleDep slot gen ok w.dep } }

/-- An operation's end enters its slot's record (R73). -/
def recordEnd (d : Dev) (t slot : Nat) (gen : BitVec 16) (p : PolderNo) (w : BitVec 32) : Dev :=
  onSlot d t slot fun s => { s with recs := (⟨gen, p, w⟩ :: s.recs).take 16 }

/-- A slot is freed to the tail of the free list; one with abandoned requests stays quarantined (R459). -/
def freeSlot (d : Dev) (t slot : Nat) : Dev :=
  if d.fabric.reqs.any (fun r => r.abandoned && r.tag = opTag t slot) then
    onSlot d t slot fun s => { s with use := .quarantined }
  else
    onTile (onSlot d t slot fun s => { s with use := .free }) t fun x => { x with freeSlots := x.freeSlots ++ [slot] }

/-- Notice of kind 1 (R423). -/
def opNotice (d : Dev) (t slot : Nat) (gen : BitVec 16) (p : PolderNo) (w : BitVec 32) : Dev :=
  notice d 1 (some p) (BitVec.ofNat 16 (fld w 15 0))
    (t <<< 96 + (opTag t slot).toNat <<< 112 + gen.toNat <<< 128 + w.toNat <<< 144)

/-- The end of an operation apart from its tally: record, waiting threads, dependents, notice; and its slot where it is
freed now. -/
def finishOp (d : Dev) (t : Nat) (q : QOp) (e : OpEnd) (freeNow : Bool) : Dev :=
  let p := dPolder q.desc
  let w := cword e
  let owner := match (slotOf d t q.slot).use with | .held x => x | _ => p
  let d := recordEnd d t q.slot q.gen owner w
  let d := wakeOp d t q.slot q.gen w
  let d := settleDeps d t q.slot q.gen (cwordOk w)
  let d := if dNotify q.desc then opNotice d t q.slot q.gen owner w else d
  if freeNow then freeSlot d t q.slot else d

/-- The status with which a tally address is refused, if it is (R77). -/
def tallyErr (d : Dev) (p : PolderNo) (a : Nat) : Option Code :=
  if a % 32 ≠ 0 then some 0x0406
  else
    match polderOf d p with
    | none => some 0x0409
    | some x => addrErr d x a 32

/-- The polder of an operation: the one that holds its slot. -/
def opPolder (d : Dev) (t : Nat) (q : QOp) : PolderNo :=
  match (slotOf d t q.slot).use with | .held p => p | _ => dPolder q.desc

/-- The access an operation makes. -/
def opAcc (q : QOp) (p : PolderNo) : Acc := { cls := dClass q.desc, polder := some p }

/-- A slot given to a descriptor (R73): the head of the free list, its generation raised. Returns the value of d. -/
def takeSlot (d : Dev) (t : Nat) (p : PolderNo) : Dev × Nat × BitVec 16 :=
  match (tileOf d t).freeSlots with
  | [] => (d, 0, 0)
  | s :: rest =>
    let g := (slotOf d t s).gen + 1
    (onTile d t fun x => { x with
        freeSlots := rest
        slots := NMap.upd x.slots {} s fun y => { gen := g, use := .held p, recs := y.recs.filter fun r => (g - r.gen).toNat < 16 } },
      s, g)

/-- The value ISSUE returns (R73). -/
def issueVal (t slot : Nat) (gen : BitVec 16) : W64 := BitVec.ofNat 64 ((opTag t slot).toNat + gen.toNat <<< 16)

/-- The engine that a code names. -/
def engOfCode : Nat → Option EngineId
  | 0 => some .fuller | 1 => some .steamer | 2 => some .napper | 3 => some .carder | 4 => some .blocker | 5 => some .router
  | _ => none

/-- A tile's engines and crown act for a polder in no reset domain (R458). -/
def fenced (d : Dev) (t : Nat) (p : PolderNo) : Bool :=
  d.resets.any fun j =>
    if j.level = 0 then j.target = t else if j.level = 1 then j.target = clusterOf t else if j.level = 2 then j.target = p.toNat else true

/-- A slot and a queue entry are free for a descriptor; a reserved engine code has no queue. Engines of a reset domain
accept none. -/
def canGrant (d : Dev) (t : Nat) (desc : BitVec 1024) : Bool :=
  !fenced d t (dPolder desc) && (tileOf d t).freeSlots ≠ [] &&
    (match engOfCode (dEngine desc) with
      | none => true
      | some e => (engineOf d t e).queue.length < 8)

/-- A descriptor takes its slot and enters its engine's queue. One with a reserved engine code ends NOT_STARTED with
status 0x0402, or with the status of its tally address (R17, R72, R77). -/
def enqueue (d : Dev) (t : Nat) (p : PolderNo) (desc : BitVec 1024) (dep : Dep) : Dev × Nat × BitVec 16 :=
  let (d, s, g) := takeSlot d t p
  let q : QOp := ⟨desc, s, g, dep⟩
  match engOfCode (dEngine desc) with
  | some e => (onEngine d t e fun x => { x with queue := x.queue ++ [q] }, s, g)
  | none =>
    match tallyErr d p (dTally desc) with
    | some c => (finishOp d t q ⟨.notStarted, c⟩ true, s, g)
    | none =>
      let e : OpEnd := ⟨.notStarted, 0x0402⟩
      let d := (memWrite d (opAcc q p) (dTally desc) (tallyBytes (dSeq desc) e true 0 {})).1
      (finishOp d t q e true, s, g)

/-- The descriptor at a tile-local offset, checked for place and read under the error code (R73). -/
def readDesc (d : Dev) (t : Nat) (p : PolderNo) (x : Polder) (ofs : Nat) : Dev × Except Code (BitVec 1024) :=
  let a := t * 2 ^ 20 + ofs
  if ofs % 64 ≠ 0 ∨ 2 ^ 20 < ofs + 128 ∨ !inShare d x t a (a + 128) then (d, .error 0x0413)
  else
    match memRead d { polder := some p } a 128 with
    | (d, .error c) => (d, .error c)
    | (d, .ok bs) => (d, .ok (BitVec.ofNat 1024 (ofBytes bs)))

/-- The waiting ISSUE next in order: the first whose thread is not parked, if it can be granted (R73). -/
def nextGrant (d : Dev) (t : Nat) : Option IssueWait :=
  match (tileOf d t).issueQ.find? (fun w => match w.thread with | none => true | some th => (threadOf d t th).st ≠ .parked) with
  | none => none
  | some w => if canGrant d t w.desc then some w else none

/-! ### Summary registers (R78, R79) -/

def summOf (d : Dev) (t r : Nat) : W64 := NMap.get (tileOf d t).summ 0 r

/-- The register after a post (R78): all 64 bits at once, with the count raised by one. -/
def postVal (old : W64) (kind value : Nat) (empty nonfinite : Bool) : W64 :=
  BitVec.ofNat 64 (value % 2 ^ 32 + (kind % 16) <<< 32 + (b2n empty) <<< 36 + (b2n nonfinite) <<< 37
    + ((fld old 63 48 + 1) % 2 ^ 16) <<< 48)

/-- A post, which wakes the threads that wait on the register (R79). -/
def postSumm (d : Dev) (t r kind value : Nat) (empty nonfinite : Bool) : Dev :=
  let v := postVal (summOf d t r) kind value empty nonfinite
  onTile d t fun x => { x with
    summ := NMap.set x.summ 0 r v
    threads := NMap.mapVals x.threads fun _ th =>
      match th.wait with
      | .post rd s c => if s = r ∧ th.st = .waiting ∧ fld v 63 48 ≠ c.toNat then threadDone th rd v else th
      | _ => th }

/-- The register lies in the polder's range (R80). -/
def summOk (x : Polder) (r : Nat) : Bool := x.ybase ≤ r && r < x.ybase + x.ycount

/-- A thread returns to WAITING and sees its condition as it now stands (R431). -/
def recheck (d : Dev) (t th : Nat) : Dev :=
  let x := threadOf d t th
  match x.wait with
  | .op rd slot gen =>
    match polderOfThread d t th with
    | none => d
    | some (p, _) =>
      match waitWord d t p (BitVec.ofNat 64 ((opTag t slot).toNat + gen.toNat <<< 16)) with
      | none => d
      | some w => onThread d t th fun x => threadDone x rd w
  | .post rd r c => if fld (summOf d t r) 63 48 ≠ c.toNat then onThread d t th fun x => threadDone x rd (summOf d t r) else d
  | _ => d

end Sys2Proof.Machine
end

