-- ==== Sys2Proof/Machine/Fabric.lean ====
section
/-! DEFINITION. The levee fabric (file 10): routing and break tables, virtual channels and credits, the link layer with
its header caches, replay and control words, training and takeover, and the budgets of a levee egress (file 19). -/

namespace Sys2Proof.Machine

/-! ### The torus (R33, R241, R246) -/

def devX (i : Nat) : Nat := bits i 6 0
def devY (i : Nat) : Nat := bits i 13 7
def devZ (i : Nat) : Nat := bits i 19 14
def devAt (x y z : Nat) : Nat := x + y * 128 + z * 16384
/-- A coordinate of a device identifier by dimension: 0 x, 1 y, 2 z. -/
def coord (k i : Nat) : Nat := if k = 0 then devX i else if k = 1 then devY i else devZ i
def setCoord (k i v : Nat) : Nat :=
  if k = 0 then devAt v (devY i) (devZ i) else if k = 1 then devAt (devX i) v (devZ i) else devAt (devX i) (devY i) v

def selfId (d : Dev) : Nat := fld d.fabric.self 19 0
/-- The extent of a dimension. -/
def extent (d : Dev) (k : Nat) : Nat :=
  1 + (if k = 0 then fld d.fabric.dims 6 0 else if k = 1 then fld d.fabric.dims 13 7 else fld d.fabric.dims 19 14)
/-- A device lies in the torus (R257). -/
def inTorus (d : Dev) (i : Nat) : Bool := devX i < extent d 0 && devY i < extent d 1 && devZ i < extent d 2

/-- The neighbour in direction dir: 0 x+, 1 x−, 2 y+, 3 y−, 4 z+, 5 z− (R230). -/
def neighbour (d : Dev) (i dir : Nat) : Nat :=
  let k := dir / 2
  let n := extent d k
  setCoord k i ((coord k i + (if dir % 2 = 0 then 1 else n - 1)) % n)

/-- Hops around a ring in a direction. -/
def ringHops (n a b : Nat) (minus : Bool) : Nat := if minus then (a + n - b) % n else (b + n - a) % n

/-- The devices on the way from one coordinate of a ring to another, the first left out. -/
def ringPath (d : Dev) (i dir hops : Nat) : List Nat :=
  (List.range hops).map fun j =>
    let k := dir / 2
    let n := extent d k
    setCoord k i ((coord k i + (if dir % 2 = 0 then j + 1 else n * (hops + 1) - (j + 1))) % n)

/-- The way meets a recorded break: a broken link between neighbours on it, or a device of a node break. -/
def blocked (es : List BreakEnt) (start : Nat) (path : List Nat) : Bool :=
  let steps := List.zip (start :: path) path
  es.any fun e =>
    if e.node then path.contains e.deva.toNat
    else steps.any fun s => (s.1 = e.deva.toNat && s.2 = e.devb.toNat) || (s.1 = e.devb.toNat && s.2 = e.deva.toNat)

def breaksOf (d : Dev) (k : Nat) : List BreakEnt := NMap.get d.fabric.breaks [] k

/-- A number for the flow of an ordered packet (R247): src_dev, src_tile, dst_dev, dst_tile and job, in that order from
bit 0 on. -/
def flowNo (h : BitVec 256) : Nat :=
  (hSrcDev h).toNat + hSrcTile h <<< 20 + (hDstDev h).toNat <<< 31 + hDstTile h <<< 51 + (hJob h).toNat <<< 62

/-- The flow hash of R247. -/
def flowHash (h : BitVec 256) : Nat := crc32c (toBytes 10 (flowNo h))

/-! ### Ports -/

def portSt (d : Dev) (n : Nat) : BlkSt := blkSt d 1 n
/-- LEVP_STATn as the reeve reads it (R240); a port that is OFF has no width. -/
def levpStat (d : Dev) (n : Nat) : W32 :=
  let p := portOf d n
  BitVec.ofNat 32 ((portSt d n).code + (if portSt d n = .off then 0 else p.width.toNat) <<< 2 + p.dir.toNat <<< 4 + p.sublane.toNat <<< 8 + p.nbr.toNat <<< 12)
/-- A port carries traffic or holds it while it retrains. -/
def portUp (d : Dev) (n : Nat) : Bool :=
  !(portOf d n).failed && (portSt d n = .on || portSt d n = .starting || portSt d n = .stopping)

/-- The port that serves the place of a standard port: itself, the one that took it over, or its pair's survivor (R244, R247). -/
def servePort (d : Dev) (n : Nat) : Option Nat :=
  match (List.range 16).find? (fun m => portUp d m && (portOf d m).took = some (BitVec.ofNat 4 n)) with
  | some m => some m
  | none =>
    if portUp d n && (portOf d n).dir.toNat < 6 then some n
    else
      let o := if n % 2 = 0 then n + 1 else n - 1
      if portUp d o && (portOf d o).dir.toNat < 6 then some o
      else (List.range 16).find? (fun m => portUp d m && (portOf d m).took = some (BitVec.ofNat 4 o))

/-- The ports that serve a direction. -/
def dirPorts (d : Dev) (dir : Nat) : List Nat := ([2 * dir, 2 * dir + 1].filterMap (servePort d)).dedup

/-- Ingress flits of a virtual channel (R250). -/
def vcSize (vc : Nat) : Nat := if vc < 4 then 448 else if vc < 6 then 128 else 0

/-- Credits held for a virtual channel of a port (R251). -/
def credits (p : Port) (vc : Nat) : Nat := vcSize vc - (NMap.get p.taken 0 vc - NMap.get p.told 0 vc)

/-- The lower virtual channel of a packet kind (R250). -/
def vcBase (kind : Nat) : Nat := if kind = 0x8 then 4 else if kind = 0x0 ∨ kind = 0x1 ∨ kind = 0x4 then 0 else 2

/-- Where a packet goes next: delivered here, by a port on a virtual channel, or nowhere (R246 to R250). -/
inductive Hop where
  | here | via (port vc : Nat) | nowhere
  deriving DecidableEq, Repr

/-- The first dimension in which two devices differ. -/
def firstDim (a b : Nat) : Option Nat := [0, 1, 2].find? fun k => coord k a ≠ coord k b

/-- The direction taken in a dimension, or none when every way crosses a recorded break. A line phase names the direction that
its packets take at a tie (R267). -/
def chooseDir (d : Dev) (h : BitVec 256) (k vc : Nat) (line : Option Nat := none) : Option Nat :=
  let me := selfId d
  let dst := setCoord k me (coord k (hDstDev h).toNat)
  let n := extent d k
  let np := ringHops n (coord k me) (coord k dst) false
  let nm := ringHops n (coord k me) (coord k dst) true
  let es := breaksOf d k
  let sev := d.fabric.severed.contains k
  let okp := (!sev || np = 1) && !blocked es me (ringPath d me (2 * k) np) && dirPorts d (2 * k) ≠ []
  let okm := (!sev || nm = 1) && !blocked es me (ringPath d me (2 * k + 1) nm) && dirPorts d (2 * k + 1) ≠ []
  if okp && okm then
    if np < nm then some (2 * k) else if nm < np then some (2 * k + 1)
    else if hOrd h then (if bitAt (flowHash h) 1 then some (2 * k + 1) else some (2 * k))
    else if line.map (· / 2) = some k then line
    else
      let room (dir : Nat) : Nat := ((dirPorts d dir).map fun m => credits (portOf d m) vc).foldl (· + ·) 0
      if room (2 * k) < room (2 * k + 1) then some (2 * k + 1) else some (2 * k)
  else if okp then some (2 * k) else if okm then some (2 * k + 1) else none

/-- The port of the pair (R247). -/
def choosePort (d : Dev) (h : BitVec 256) (dir vc : Nat) : Option Nat :=
  match servePort d (2 * dir), servePort d (2 * dir + 1) with
  | none, x => x
  | x, none => x
  | some a, some b =>
    if hOrd h then (if bitAt (flowHash h) 0 then some b else some a)
    else if credits (portOf d a) vc < credits (portOf d b) vc then some b else some a

/-- The next hop of a packet; inDim and upper say in which dimension it arrived and whether past the dateline. -/
def nextHop (d : Dev) (h : BitVec 256) (inDim : Option Nat) (upper : Bool) (line : Option Nat := none) : Hop :=
  let me := selfId d
  let dst := (hDstDev h).toNat
  if dst = me then .here
  else if !inTorus d dst then .nowhere
  else
    match firstDim me dst with
    | none => .here
    | some k =>
      let base := vcBase (hKind h)
      match chooseDir d h k base line with
      | none => .nowhere
      | some dir =>
        let wrap := if dir % 2 = 0 then coord k me + 1 = extent d k else coord k me = 0
        let vc := base + b2n (decide wrap || (upper && inDim = some k))
        match choosePort d h dir vc with
        | none => .nowhere
        | some n => .via n vc

/-! ### Budgets of a levee egress (R258, R259, R468, R469) -/

/-- The owner of traffic at a meter: a polder, or 16 for transit. -/
def ownerOf (d : Dev) (h : BitVec 256) : Nat :=
  if (hSrcDev h).toNat ≠ selfId d then 16
  else match polderOfJob d (hJob h) with | some (p, _) => p.toNat | none => 16

/-- Units that a block moves in one tide (R468). -/
def tideUnits (d : Dev) : MeterId → Nat
  | .tileRouter _ _ _ => 16384
  | .levee n => 14685 * (match (portOf d n.toNat).width.toNat with | 3 => 8 | 2 => 4 | 1 => 2 | _ => 0) / 8
  | .hbm _ => 262144
  | .ddr _ => 2048
  | .cipher _ _ => 32768

/-- An owner's and class's share at a block, in 256ths of U and a divisor: at a levee egress the polders' shares are scaled
to the part that the transit shares leave (R259). -/
def shareAt (d : Dev) (id : MeterId) (owner k : Nat) : Nat × Nat :=
  let sumT := d.fabric.tshare.foldl (· + ·) 0
  match id with
  | .levee _ =>
    if owner = 16 then (if k = 0 then 6 else d.fabric.tshare.getD (k - 1) 0, 256)
    else (((NMap.find? d.polders owner).map fun p => p.share k * (250 - sumT) / 250).getD 0, 256)
  | _ =>
    if owner = 16 then (if k = 0 then 6 else 0, 256)
    else (((NMap.find? d.polders owner).map fun p => p.share k).getD 0, 256)

/-- Owners and classes in the order of R469: ascending polder, then transit, then ascending class. -/
def ownersClasses : List Nat := (List.range 17).flatMap fun o => (List.range 8).map fun k => o * 8 + k

/-- A meter at a tide boundary: every budget set to its share less the deficit carried (R468). C0 carries none. -/
def newTide (d : Dev) (id : MeterId) (m : Meter) : Meter :=
  let u := tideUnits d id
  let b (q : Nat) : Int :=
    let s := shareAt d id (q / 8) (q % 8)
    (u * s.1 / s.2 : Nat) + (if q = 128 then 0 else min 0 (NMap.get m.budget 0 q))
  let used := ownersClasses.foldl (fun n q => n + (shareAt d id (q / 8) (q % 8)).1) 0
  { m with
    budget := ownersClasses.foldl (fun t q => if b q = 0 then t else NMap.insert t q (b q)) []
    pool := u * (256 - used) / 256 }

def meterOf (d : Dev) (id : MeterId) : Meter :=
  match d.meters.find? (fun e => e.1 = id) with | some e => e.2 | none => newTide d id {}
def putMeter (d : Dev) (id : MeterId) (m : Meter) : Dev :=
  { d with meters := (id, m) :: d.meters.filter (fun e => e.1 ≠ id) }

/-- Units taken from idle owners in ascending order (R469). -/
def takeIdle (budget : NMap Int) : List Nat → Nat → NMap Int
  | [], _ => budget
  | q :: qs, n =>
    let b := NMap.get budget 0 q
    if n = 0 then budget
    else if b ≤ 0 then takeIdle budget qs n
    else
      let t := min b.toNat n
      takeIdle (NMap.set budget 0 q (b - t)) qs (n - t)

/-- The choice of R469 among the owners and classes that are ready: the one that sends, and the meter charged for its
units; the units of a request depend on which sends. lent says whether it was sent on lent share. -/
def chooseSend (m : Meter) (filler : Nat → Bool) (ready : List Nat) (units : Nat → Nat) : Option (Nat × Meter × Bool) :=
  let bud (q : Nat) : Int := NMap.get m.budget 0 q
  let charge (q : Nat) : Meter := { m with budget := NMap.set m.budget 0 q (bud q - units q), last := q }
  if ready.contains 128 && decide (0 < bud 128) then some (128, charge 128, false)
  else
    let inOrder := (ownersClasses.filter (fun q => m.last < q) ++ ownersClasses.filter (fun q => q ≤ m.last)).filter
      (fun q => q % 8 ≠ 0 && ready.contains q)
    match inOrder.find? (fun q => decide (0 < bud q)) with
    | some q => some (q, charge q, false)
    | none =>
      let idle := ownersClasses.filter fun q => q % 8 ≠ 0 && !ready.contains q
      let lendable := m.pool + idle.foldl (fun n q => n + (bud q).toNat) 0
      let h := match inOrder.find? (fun q => !filler q) with | some q => some q | none => inOrder.head?
      match h with
      | none => none
      | some q =>
        if units q ≤ lendable then
          let fromPool := min m.pool (units q)
          some (q, { m with pool := m.pool - fromPool, budget := takeIdle m.budget idle (units q - fromPool), last := q }, true)
        else none

/-! ### The link layer (R232 to R235) -/

/-- A slot's header as a short lead reconstructs it, apart from len and pcrc (R233). -/
def shortHdr (h : BitVec 256) (len pcrc : Nat) : BitVec 256 :=
  let h1 := putFld h 223 216 ((hPidx h + 1) % 256)
  let h2 := putFld h1 175 128 ((hAddr h + 8 * hLen h) % 2 ^ 48)
  putFld (putFld h2 117 112 len) 255 224 pcrc

/-- The slot that a packet travels in and whether a short lead stands for its header: one that reconstructs it, else the
slot numbered by its op tag. -/
def pickSlot (p : Port) (vc : Nat) (h : BitVec 256) : Nat × Bool :=
  match (List.range 64).find? (fun s =>
      match NMap.find? p.txCache (vc * 64 + s) with
      | some x => shortHdr x (hLen h) (hPcrc h) = h
      | none => false) with
  | some s => (s, true)
  | none => ((hTag h).toNat % 64, false)

/-- Lead words (R232). -/
def leadWord (full : Bool) (vc slot len lseq pcrc : Nat) : W64 :=
  BitVec.ofNat 64 ((if full then 1 else 2) + vc <<< 4 + slot <<< 8 + (if full then 0 else len) <<< 14
    + (lseq % 4096) <<< 20 + (if full then 0 else pcrc) <<< 32)
def handoverWord (vc slot lseq olseq oport : Nat) : W64 :=
  BitVec.ofNat 64 (4 + vc <<< 4 + slot <<< 8 + (lseq % 4096) <<< 20 + (olseq % 4096) <<< 32 + oport <<< 44)
def controlWord (vc ack : Nat) (nak : Bool) (cred : Nat) : W64 :=
  BitVec.ofNat 64 (3 + vc <<< 4 + (ack % 4096) <<< 8 + (b2n nak) <<< 20 + (cred % 65536) <<< 32)

/-- Words of 8 B of a byte sequence. -/
def words8 : Nat → List Byte → List W64
  | 0, _ => []
  | n + 1, l => BitVec.ofNat 64 (ofBytes (l.take 8)) :: words8 n (l.drop 8)

/-- The link words of a packet: lead, header when the lead is full, payload. -/
def packetWords (lead : W64) (full : Bool) (p : Packet) : List W64 :=
  lead :: ((if full then words8 4 (toBytes 32 p.hdr.toNat) else []) ++ words8 (p.payload.length / 8) p.payload)

/-- Bytes that the replay buffer holds. -/
def replayBytes (p : Port) : Nat := p.replay.foldl (fun n r => n + 32 + r.pkt.payload.length) 0

/-- The replay buffer and the packet count have room for a packet (R235). -/
def replayRoom (p : Port) (k : Packet) : Bool := p.replay.length < 512 && replayBytes p + 32 + k.payload.length ≤ 131072

/-- The port may start a packet (R235, R251). -/
def canSend (p : Port) (vc : Nat) (k : Packet) : Bool := flits k ≤ credits p vc && replayRoom p k

/-- A packet put on the link for the first time. -/
def linkSend (p : Port) (vc : Nat) (k : Packet) (way : Option Nat × Bool := (none, false)) : Port :=
  let (slot, short) := pickSlot p vc k.hdr
  let lead := leadWord (!short) vc slot (hLen k.hdr) p.txSeq.toNat (hPcrc k.hdr)
  { p with
    txSeq := p.txSeq + 1
    replay := p.replay ++ [⟨p.txSeq, BitVec.ofNat 3 vc, BitVec.ofNat 6 slot, k, way⟩]
    txCache := NMap.insert p.txCache (vc * 64 + slot) k.hdr
    taken := NMap.set p.taken 0 vc (NMap.get p.taken 0 vc + flits k)
    sent := p.sent ++ packetWords lead (!short) k }

/-- A packet resent: its old lseq, a full or short lead by the cache as it stands, no new credits (R235). -/
def linkResend (p : Port) (r : Replay) : Port :=
  let (slot, short) := pickSlot p r.vc.toNat r.pkt.hdr
  let lead := leadWord (!short) r.vc.toNat slot (hLen r.pkt.hdr) r.lseq.toNat (hPcrc r.pkt.hdr)
  { p with
    txCache := NMap.insert p.txCache (r.vc.toNat * 64 + slot) r.pkt.hdr
    sent := p.sent ++ packetWords lead (!short) r.pkt }

/-- Everything not acknowledged sent again, in lseq order. -/
def linkReplay (p : Port) : Port := p.replay.foldl linkResend p

/-- Expected lseq, credits freed and the control word that reports them; a nak asks for a resend (R234, R235). -/
def sendControl (p : Port) (vc : Nat) (nak : Bool) : Port :=
  let f := NMap.get p.freed 0 vc
  { p with
    reported := NMap.set p.reported 0 vc f
    ackDue := false
    sent := p.sent ++ [controlWord vc p.rxSeq.toNat nak f] }

/-- Flits freed at an ingress; 32 unreported ones send a control word (R234). -/
def freeFlits (p : Port) (vc n : Nat) : Port :=
  let p := { p with freed := NMap.set p.freed 0 vc (NMap.get p.freed 0 vc + n) }
  if 32 ≤ NMap.get p.freed 0 vc - NMap.get p.reported 0 vc then sendControl p vc false else p

/-- Flits freed at a port's ingress; a router that has stopped grants no credits (R463). -/
def freeFlitsAt (d : Dev) (n vc k : Nat) : Dev := if d.fabric.stopped then d else onPort d n fun p => freeFlits p vc k

/-- The first packet of each owner and class on each virtual channel, in queue order: a packet waits behind an earlier one
of its class on its channel (R258). -/
def headsAt (d : Dev) (p : Port) : List (Nat × QPkt) :=
  p.queue.foldl (fun l e =>
    let q := (if hClass e.pkt.hdr = 0 then 16 else ownerOf d e.pkt.hdr) * 8 + hClass e.pkt.hdr
    if l.any (fun x => x.1 = q && x.2.vc = e.vc) then l else l ++ [(q, e)]) []

/-- Of each owner and class, the first of those that the port may start. -/
def readyAt (d : Dev) (p : Port) : List (Nat × QPkt) :=
  ((headsAt d p).filter fun e => canSend p e.2.vc.toNat e.2.pkt).foldl
    (fun l e => if l.any (fun x => x.1 = e.1) then l else l ++ [e]) []

/-- A packet resent over another port behind a handover lead, with a new lseq there (R244). -/
def handover (old : Nat) (q : Port) (r : Replay) : Port :=
  let slot := (hTag r.pkt.hdr).toNat % 64
  { q with
    txSeq := q.txSeq + 1
    replay := q.replay ++ [⟨q.txSeq, r.vc, BitVec.ofNat 6 slot, r.pkt, r.way⟩]
    txCache := NMap.insert q.txCache (r.vc.toNat * 64 + slot) r.pkt.hdr
    taken := NMap.set q.taken 0 r.vc.toNat (NMap.get q.taken 0 r.vc.toNat + flits r.pkt)
    sent := q.sent ++ packetWords (handoverWord r.vc.toNat slot q.txSeq.toNat r.lseq.toNat old) true r.pkt }

/-- The packets of a failed port that this one may resend, in order, within its credits and its replay buffer; the budgets
have been charged for them already. -/
def handGo : Nat → Port → Port
  | 0, p => p
  | f + 1, p =>
    match p.hand with
    | [] => p
    | (old, r) :: rest => if canSend p r.vc.toNat r.pkt then handGo f (handover old { p with hand := rest } r) else p

/-- A packet that waits here for room in the replay buffer or in the packet count (R235). -/
def replayFull (d : Dev) (p : Port) : Bool :=
  p.hand.any (fun e => !replayRoom p e.2.pkt) || (headsAt d p).any fun e => !replayRoom p e.2.pkt

def fillerOwner (d : Dev) (q : Nat) : Bool := ((NMap.find? d.polders (q / 8)).map Polder.filler).getD false

/-- The port sends packets while its credits, replay buffer and budgets allow; n bounds the number. -/
def pumpGo (d : Dev) (n : Nat) : Nat → Dev
  | 0 => d
  | f + 1 =>
    let p := portOf d n
    if portSt d n ≠ .on ∨ p.hand ≠ [] then d
    else
      let ready := readyAt d p
      let units (q : Nat) : Nat := match ready.find? (fun e => e.1 = q) with | some e => flits e.2.pkt | none => 0
      match chooseSend (meterOf d (.levee (BitVec.ofNat 4 n))) (fillerOwner d) (ready.map Prod.fst) units with
      | none => d
      | some (q, m, lent) =>
        match ready.find? (fun e => e.1 = q) with
        | none => d
        | some (_, w) =>
          let k := w.pkt
          let d := putMeter d (.levee (BitVec.ofNat 4 n)) m
          let d := onPort d n fun p => linkSend { p with queue := p.queue.erase w } w.vc.toNat k w.way
          let d := match w.src with
            | some (i, v) => freeFlitsAt d i v (flits k)
            | none => d
          let pol := if q / 8 < 16 then some (BitVec.ofNat 4 (q / 8)) else none
          let d := count d 4 0 (0x700 + q % 8) (flits k) pol
          let d := if lent then count d 4 0 (0x708 + q % 8) (flits k) pol else d
          pumpGo d n f

/-- The port sends what it may: packets of a failed port first (R244), then its queue; a full replay buffer is counted. -/
def pump (d : Dev) (n : Nat) : Dev :=
  let d := if portSt d n = .on ∧ (portOf d n).hand ≠ [] then onPort d n fun p => handGo p.hand.length p else d
  let d := pumpGo d n ((portOf d n).queue.length)
  if portSt d n = .on ∧ replayFull d (portOf d n) then onPort d n fun p => { p with waits := p.waits + 1 } else d

/-- A packet joins a port's queue, which sends what it may; a transit packet names the buffer that holds it. -/
def toPort (d : Dev) (n vc : Nat) (k : Packet) (src : Option (Nat × Nat) := none) (way : Option Nat × Bool := (none, false)) : Dev :=
  pump (onPort d n fun p => { p with queue := p.queue ++ [⟨BitVec.ofNat 3 vc, k, src, way⟩] }) n

/-! ### Answers (R254, R255) -/

/-- The answer to a request: back to its source, ord 0, with the status in addr[15:0], the request's tag, stream, chunk
and packet index, and for RED_DATA its phase in addr[47:40]. -/
def answerTo (d : Dev) (h : BitVec 256) (kind : Nat) (status : Code) (payload : List Byte) : Packet :=
  ⟨mkHdr { dstDev := (hSrcDev h).toNat, dstTile := hSrcTile h, cls := hClass h, ord := false, kind := kind, tgt := 0,
            tag := (hTag h).toNat, job := (hJob h).toNat, srcDev := selfId d, srcTile := hDstTile h,
            addr := status.toNat + (if hKind h = 4 then hAddr h / 2 ^ 40 * 2 ^ 40 else 0), stream := (hStream h).toNat, chunk := hChunk h, pidx := hPidx h } payload, payload, []⟩

/-- The kind that answers a request kind. -/
def answerKind (kind : Nat) : Nat := if kind = 0 then 3 else if kind = 1 then 2 else if kind = 4 then 5 else 8

/-- Whether a kind is a request, which receives an answer. -/
def isRequest (kind : Nat) : Bool := kind = 0 || kind = 1 || kind = 4

/-- A packet sent on by a router of this device: nowhere to go loses an answer and turns a request of another device into
UNDELIVERED; n bounds that one turn. The third result is the status that a request of this device meets at once. -/
def routeGo (d : Dev) (k : Packet) (inDim : Option Nat) (upper : Bool) (src : Option (Nat × Nat)) (line : Option Nat := none) :
    Nat → Dev × Option Code
  | 0 => (d, none)
  | f + 1 =>
    let leave (d : Dev) : Dev := match src with
      | some (i, v) => freeFlitsAt d i v (flits k)
      | none => d
    match nextHop d k.hdr inDim upper line with
    | .via n vc => (toPort d n vc k src (inDim, upper), none)
    | .here => (leave d, none)
    | .nowhere =>
      let d := leave d
      if !isRequest (hKind k.hdr) then (d, none)
      else if (hSrcDev k.hdr).toNat = selfId d then (d, some 0x0126)
      else
        let d := count d 4 0 0x720 1 none
        ((routeGo d (answerTo d k.hdr 7 0x0126 []) none false none none f).1, none)

def route (d : Dev) (k : Packet) (inDim : Option Nat) (upper : Bool) (line : Option Nat := none) : Dev × Option Code :=
  routeGo d k inDim upper none line 2

/-- An answer sent. -/
def sendAnswer (d : Dev) (h : BitVec 256) (kind : Nat) (status : Code) (payload : List Byte) : Dev :=
  let d := if kind = 7 then count d 4 0 0x720 1 none else if kind = 6 then count d 4 0 0x721 1 none else d
  (route d (answerTo d h kind status payload) none false).1

/-- A packet joins its held flow. -/
def holdPacket (k : Packet) (f : HeldFlow) : HeldFlow :=
  if f.flow = flowNo k.hdr then { f with pkts := f.pkts ++ [k] } else f

/-- A packet of this device sent: an ordered one of a flow that a table change holds waits (R249). -/
def sendPacket (d : Dev) (k : Packet) (line : Option Nat := none) : Dev × Option Code :=
  if hOrd k.hdr && d.fabric.heldFlows.any (fun f => f.flow = flowNo k.hdr) then
    (onFabric d fun b => { b with heldFlows := b.heldFlows.map (holdPacket k) }, none)
  else route d k none false line

/-- A request whose packet is that one. -/
def isReqOf (h : BitVec 256) (r : Req) : Bool := r.tag = hTag h && r.kind = hKind h && r.no = hChunk h * 256 + hPidx h

/-- Every packet of a held flow that left before the table change is answered: the requests of the flow that have no answer
are its held packets' own. -/
def flowFree (d : Dev) (f : HeldFlow) : Bool :=
  d.fabric.reqs.all fun r => r.flow ≠ some f.flow || f.pkts.any fun k => isReqOf k.hdr r

/-- A change of a break table holds the ordered flows that have packets without an answer. -/
def holdFlows (d : Dev) : Dev :=
  let fs := (d.fabric.reqs.filterMap Req.flow).dedup
  onFabric d fun b => { b with
    heldFlows := b.heldFlows ++ (fs.filter fun f => !b.heldFlows.any fun h => h.flow = f).map fun f => ⟨f, []⟩ }

/-! ### Receiving on a link -/

/-- The packet of a lead, its header rebuilt from the cache when the lead is short (R233). -/
def linkHeader (p : Port) (vc slot : Nat) (short : Bool) (k : Packet) : BitVec 256 :=
  if short then shortHdr (NMap.get p.rxCache 0 (vc * 64 + slot)) (hLen k.hdr) (hPcrc k.hdr) else k.hdr

/-- A packet accepted from a link, or none when its lseq is not the one expected. -/
def linkAccept (p : Port) (vc slot lseq : Nat) (short : Bool) (k : Packet) : Port × Option Packet :=
  if lseq ≠ p.rxSeq.toNat then (p, none)
  else
    let h := linkHeader p vc slot short k
    ({ p with rxSeq := p.rxSeq + 1, resync := false, ackDue := true, rxCache := NMap.insert p.rxCache (vc * 64 + slot) h },
      some { k with hdr := h })

/-- The neighbour's cumulative count of flits freed on a channel gives credits back. -/
def creditsBack (p : Port) (vc cred : Nat) : Port :=
  let told := NMap.get p.told 0 vc
  let new := told + (cred + 65536 - told % 65536) % 65536
  { p with told := NMap.set p.told 0 vc (min new (NMap.get p.taken 0 vc)) }

/-- The packets before an lseq are acknowledged. -/
def ackedTo (p : Port) (ack : Nat) : Port := { p with replay := p.replay.filter fun r => !behind 12 r.lseq.toNat ack }

/-- A control word (R234, R235): acknowledged packets leave the replay buffer, credits come back, nak resends. -/
def linkControl (p : Port) (w : W64) : Port :=
  let p := creditsBack (ackedTo p (fld w 19 8)) (fld w 6 4) (fld w 47 32)
  if flag w 20 then linkReplay p else p

/-- A control word whose type or reserved bits are wrong is treated as an uncorrectable codeword (R232). -/
def controlOk (w : W64) : Bool := fld w 3 0 = 3 && !flag w 7 && fld w 31 21 = 0 && fld w 63 48 = 0 && fld w 6 4 < 6

/-- An uncorrectable codeword (R235): discard to the next trusted lead and send nak. -/
def linkBad (p : Port) : Port := { sendControl p 0 true with resync := true, uncorr := p.uncorr + 1 }

/-! ### Training (R238, R242) -/

/-- Lane i trains, lane 8 standing in for the one lane it replaces. -/
def lanesWith (lanes : BitVec 9) (sub : Option Nat) (i : Nat) : Bool :=
  flag lanes i || (sub = some i && flag lanes 8)

/-- The width code and the replaced lane that a set of trained lanes gives: 8, 4 or 2 lanes, or none (R238). -/
def trainWidth (lanes : BitVec 9) : Option (Nat × Nat) :=
  let bad := (List.range 8).filter fun i => !flag lanes i
  let sub : Option Nat := bad.head?
  let all (l : List Nat) (s : Option Nat) : Bool := l.all (lanesWith lanes s)
  let try_ (l : List Nat) : Option Nat :=
    if all l none then some 15
    else (l.find? (fun i => all l (some i))).map id
  if all (List.range 8) none then some (3, 15)
  else if all (List.range 8) sub then some (3, sub.getD 15)
  else
    match try_ [0, 1, 2, 3], try_ [4, 5, 6, 7] with
    | some s, _ => some (2, s)
    | none, some s => some (2, s)
    | none, none =>
      match [[0, 1], [2, 3], [4, 5], [6, 7]].findSome? try_ with
      | some s => some (1, s)
      | none => none

/-- The direction of a port in the standard wiring: the one R230 gives, or of a spare port the direction of the neighbour
it finds; none when it is miswired or its dimension is absent (R242, R243). -/
def portDir (d : Dev) (n : Nat) (nbr : Nat) : Option Nat :=
  let me := selfId d
  let ok (dir : Nat) : Bool := 1 < extent d (dir / 2) && neighbour d me dir = nbr
  if n < 12 then (if ok (n / 2) then some (n / 2) else none)
  else (List.range 6).find? ok

/-- A port whose neighbour is not the one its place calls for, which R242 has reported; the ports of a removed dimension are
none (R243). -/
def miswired (d : Dev) (n : Nat) (f : PortTrain) : Bool :=
  (trainWidth f.lanes).isSome && f.nbr.any fun g => (portDir d n g.1.toNat).isNone && (12 ≤ n || 1 < extent d (n / 4))

/-- The notice of a port: port, width and neighbour (R423, kind 6). -/
def portNotice (d : Dev) (n : Nat) (status : Code) : Dev :=
  let p := portOf d n
  notice d 6 none status (n <<< 96 + p.width.toNat <<< 101 + p.nbr.toNat <<< 128)

/-- Both caches cleared, and what this end expects and has freed told to the other in training (R233, R239). -/
def toldLink (p : Port) : Port :=
  { p with txCache := [], rxCache := [], resync := false, uncorr := 0, ackDue := false, reported := p.freed }

/-- A retrained link goes on: the neighbour's expected lseq and cumulative credit counts are taken in, and what it has not
accepted is sent again (R239). -/
def resumeLink (p : Port) (f : PortTrain) : Port :=
  linkReplay ((List.range 6).foldl (fun p vc => creditsBack p vc ((f.cred.getD vc 0).toNat)) (ackedTo (toldLink p) f.ack.toNat))

/-- A link that has been down begins anew: nothing of it is on its way, so that its lseq and its credit counts begin where
the neighbour stands. -/
def newLink (p : Port) (f : PortTrain) : Port :=
  let counts := (List.range 6).foldl (fun m vc => NMap.set m 0 vc (f.cred.getD vc 0).toNat) []
  { toldLink p with txSeq := f.ack, taken := counts, told := counts, peerOver := false, takenOver := false }

/-- The standby spare of a neighbour (R244, R245). -/
def standbyFor (d : Dev) (nbr : DevId) : Option Nat :=
  [12, 13, 14, 15].find? fun m => portSt d m = .on && (portOf d m).dir = 6 && (portOf d m).nbr = nbr

/-- The other ends of this device's three rings, itself left out. -/
def ringMembers (d : Dev) (k : Nat) : List Nat :=
  (List.range (extent d k)).map (setCoord k (selfId d) ·) |>.filter (· ≠ selfId d)

/-- The body of a BREAK (R433). -/
def breakBody (dim : Nat) (clear node : Bool) (a b : Nat) : List Byte :=
  toBytes 16 (dim + (b2n clear) <<< 6 + (b2n node) <<< 7 + a <<< 32 + b <<< 64)

/-- A management request sent in class C0 (R432), numbered so that its answer is known. -/
def sendMgmt (d : Dev) (dev mtype : Nat) (body : List Byte) : Dev :=
  let no := d.reeve.mgmtNo + 1
  let pl := toBytes 8 (mtype + no.toNat <<< 16) ++ body
  let k : Packet := ⟨mkHdr { dstDev := dev, dstTile := 0, cls := 0, ord := true, kind := 8, tgt := 4, tag := 0, job := 0,
                             srcDev := selfId d, srcTile := 0, addr := 0 } pl, pl, []⟩
  let d := onReeve d fun r => { r with mgmtNo := no, mgmtOut := r.mgmtOut ++ [(no, BitVec.ofNat 20 dev)] }
  (route d k none false).1

/-- A break entry recorded, or the ring severed when its table is full (R249). -/
def addBreak (d : Dev) (k : Nat) (e : BreakEnt) : Dev :=
  let es := breaksOf d k
  let d := onFabric d fun b =>
    if es.length < 4 then { b with breaks := NMap.insert b.breaks k (es ++ [e]) }
    else { b with severed := if b.severed.contains k then b.severed else b.severed ++ [k] }
  holdFlows d

def sameBreak (a b : BreakEnt) : Bool :=
  a.node = b.node && ((a.deva = b.deva && a.devb = b.devb) || (a.deva = b.devb && a.devb = b.deva))

def clearBreak (d : Dev) (k : Nat) (e : BreakEnt) : Dev :=
  let es := breaksOf d k
  if es.any (sameBreak e) then
    holdFlows (onFabric d fun b => { b with breaks := NMap.set b.breaks [] k (es.eraseP (sameBreak e)) })
  else d

/-- Training ends on the lanes and neighbour found (R238, R242): the port comes ON at its width, is held OFF when it is
miswired or its dimension is absent, or fails. A port that retrains goes on where it stood. -/
def portTrained (d : Dev) (n : Nat) (f : PortTrain) (again : Bool := false) : Dev × Bool :=
  match trainWidth f.lanes, f.nbr with
  | some (w, sub), some (dev, m) =>
    match portDir d n dev.toNat with
    | none =>
      (setBlk (onPort d n fun p => { p with width := 0, dir := 15, nbr := dev, nbrPort := m, cabled := true }) 1 n .off, false)
    | some dir =>
      let spare := decide (12 ≤ n) && (portOf d n).took = none
      let d := onPort d n fun p => { (if again then resumeLink p f else newLink p f) with
          width := BitVec.ofNat 2 w, sublane := BitVec.ofNat 4 sub, lanes := f.lanes, nbr := dev, nbrPort := m, cabled := true
          failed := false, dir := BitVec.ofNat 4 (if spare then 6 else dir) }
      (setBlk d 1 n .on, true)
  | _, _ => (d, false)

/-- A link that is back is cleared from the tables of its ring (R249). -/
def linkBack (d : Dev) (n : Nat) : Dev :=
  let p := portOf d n
  if 6 ≤ p.dir.toNat then d
  else
    let k := p.dir.toNat / 2
    let e : BreakEnt := ⟨false, BitVec.ofNat 20 (selfId d), p.nbr⟩
    if (breaksOf d k).any (sameBreak e) then
      let d := clearBreak d k e
      (ringMembers d k).foldl (fun d m => sendMgmt d m 1 (breakBody k true false (selfId d) p.nbr.toNat)) d
    else d

end Sys2Proof.Machine
end

