-- ==== Sys2Proof/Machine/Engine.lean ====
section
/-! DEFINITION. What every engine shares: the start and end of an operation (R74 to R77), the check of tensor descriptors
(R81 to R86), and the reads and writes of operands here and on other devices. -/

namespace Sys2Proof.Machine

/-! ### The running operation -/

def runOf (d : Dev) (t : Nat) (e : EngineId) : Option RunOp := (engineOf d t e).run
def onRun (d : Dev) (t : Nat) (e : EngineId) (f : RunOp → RunOp) : Dev :=
  onEngine d t e fun x => { x with run := x.run.map f }

/-- The polder that holds the operation's slot. -/
def runPolder (d : Dev) (t : Nat) (r : RunOp) : PolderNo :=
  opPolder d t r.q

def runAcc (d : Dev) (t : Nat) (r : RunOp) : Acc := opAcc r.q (runPolder d t r)

/-- The operation ends as given; ENGINE_OP_END writes its tally. -/
def endRun (d : Dev) (t : Nat) (e : EngineId) (st : TState) (status : Code) (marker : Nat) : Dev :=
  onRun d t e fun r => if r.ended = none then { r with ended := some ⟨st, status⟩, marker := marker } else r

/-- A refusal before any access (R77). -/
def refuse (d : Dev) (t : Nat) (e : EngineId) (c : Code) : Dev := endRun d t e .notStarted c 0
/-- A fault after the start: PARTIAL, with the first unit not done (R77). -/
def partRun (d : Dev) (t : Nat) (e : EngineId) (c : Code) (marker : Nat) : Dev := endRun d t e .inPart c marker
def doneRun (d : Dev) (t : Nat) (e : EngineId) (marker : Nat) : Dev := endRun d t e .done 0 marker

/-- The running operation of an engine when its opcode is the row's and it has not ended. -/
def running (d : Dev) (t : Nat) (e : EngineId) (op : Nat) : Option RunOp :=
  match runOf d t e with
  | some r => if dOpcode r.q.desc = op ∧ r.ended = none then some r else none
  | none => none

/-! ### Requests to other devices (R86, R254, R255) -/

/-- The target and tile of a remote address: its scratchpad window, or a memory controller. -/
def remoteTgt (a : Nat) : Nat × Nat := if a < 0x80000000 then (0, a / 2 ^ 20) else (1, 0)

/-- A bad status that a request of an operation meets: it ends the operation PARTIAL (R255). A read of a router operation
fails only the chunks that need its bytes (R286). -/
def RunOp.noteBad (r : RunOp) (e : EngineId) (kind dev a n : Nat) (c : Code) : RunOp :=
  if kind = 1 ∧ e = .router then { r with lostReads := r.lostReads ++ [(dev, a, n, c)] }
  else { r with bad := r.bad.or (some c), lostWrites := if kind = 0 then r.lostWrites ++ [(dev, a, n)] else r.lostWrites }

/-- A request of an operation sent: its number goes into chunk and pidx, which its answer returns. -/
def sendReq (d : Dev) (t : Nat) (e : EngineId) (r : RunOp) (kind : Nat) (dev : Nat) (a n : Nat) (payload : List Byte) (ord : Bool) : Dev :=
  let pn := runPolder d t r
  let job := ((polderOf d pn).map Polder.job).getD 0
  let tag := opTag t r.q.slot
  let no := ((runOf d t e).map RunOp.nreq).getD 0
  let (tgt, dt) := remoteTgt a
  let h := mkHdr { dstDev := dev, dstTile := dt, cls := dClass r.q.desc, ord := ord, kind := kind, tgt := tgt, tag := tag.toNat,
                   job := job.toNat, srcDev := selfId d, srcTile := t, addr := a, chunk := no / 256, pidx := no % 256,
                   ask := if kind = 1 then n / 8 else 0 } payload
  let d := onRun d t e fun r => { r with nreq := r.nreq + 1 }
  let d := onFabric d fun b => { b with reqs := b.reqs ++
    [{ tag := tag, no := no, dev := BitVec.ofNat 20 dev, kind := kind, addr := a, len := n,
       flow := if ord then some (flowNo h) else none }] }
  match sendPacket d ⟨h, payload, []⟩ with
  | (d, none) => d
  | (d, some c) =>
    let d := onFabric d fun b => { b with reqs := b.reqs.filter fun q => !(q.tag = tag && q.no = no) }
    onRun d t e fun r => r.noteBad e kind dev a n c

/-- A byte range of an operand. -/
structure Rng where
  dev : Nat
  addr : Nat
  len : Nat
  deriving DecidableEq, Repr

/-- A byte fetched from another device. -/
def fkey (dev a : Nat) : Nat := dev * 2 ^ 48 + a

/-- The status of a lost read that a byte belongs to. -/
def lostByte (r : RunOp) (dev a : Nat) : Option Code :=
  (r.lostReads.find? fun g => g.1 = dev && g.2.1 ≤ a && a < g.2.1 + g.2.2.1).map fun g => g.2.2.2

/-- Every byte of a range has been fetched, or its read is lost. -/
def fetchedAll (r : RunOp) (g : Rng) : Bool :=
  (List.range g.len).all fun i => (NMap.find? r.fetched (fkey g.dev (g.addr + i))).isSome || (lostByte r g.dev (g.addr + i)).isSome

/-- A range cut at 256 B boundaries and widened to whole 8 B units. -/
def cut256 : Nat → Nat → Nat → List (Nat × Nat)
  | 0, _, _ => []
  | f + 1, a, hi =>
    if hi ≤ a then []
    else
      let e := min hi ((a / 256 + 1) * 256)
      (a / 8 * 8, ceilDiv e 8 * 8 - a / 8 * 8) :: cut256 f e hi

/-- READ requests for what has not been fetched and is not already asked for. -/
def askReads (d : Dev) (t : Nat) (e : EngineId) (r : RunOp) (g : Rng) : Dev :=
  if fetchedAll r g then d
  else (cut256 (g.len / 256 + 2) g.addr (g.addr + g.len)).foldl (fun d p =>
    if d.fabric.reqs.any (fun q => q.tag = opTag t r.q.slot && q.dev.toNat = g.dev && q.kind = 1 && q.addr = p.1) ||
       fetchedAll r ⟨g.dev, p.1, p.2⟩ then d
    else sendReq d t e r 1 g.dev p.1 p.2 [] true) d

/-- Whether every remote range is here; otherwise READs go out for those that are not. -/
def needs (d : Dev) (t : Nat) (e : EngineId) (r : RunOp) (gs : List Rng) : Dev × Bool :=
  let far := gs.filter fun g => g.dev ≠ selfId d && !fetchedAll r g
  if far = [] then (d, true) else (far.foldl (fun d g => askReads d t e r g) d, false)

/-- The remote ranges among those that an operation is about to read or write are here, and no answer was bad: then the
operation goes on; a bad answer ends it PARTIAL (R86, R255). -/
def withRanges (d : Dev) (t : Nat) (e : EngineId) (r : RunOp) (gs : List Rng) (marker : Nat) (go : Dev → Dev) : Dev :=
  match r.bad with
  | some c => partRun d t e c marker
  | none =>
    match needs d t e r gs with
    | (d, true) => go d
    | (d, false) => d

/-- A range read: here under the error code, or from what was fetched. -/
def readRng (d : Dev) (acc : Acc) (r : RunOp) (g : Rng) : Dev × Except Code (List Byte) :=
  if g.dev = selfId d then
    if inBlockRegs g.addr then (let r := ctrRead d acc.polder g.addr g.len; (r.1, .ok r.2))
    else memRead d acc g.addr g.len
  else
    match (List.range g.len).findSome? fun i => lostByte r g.dev (g.addr + i) with
    | some c => (d, .error c)
    | none => (d, .ok ((List.range g.len).map fun i => NMap.get r.fetched 0 (fkey g.dev (g.addr + i))))

/-- The words at the ends of a remote write that it covers in part: they are fetched and merged. -/
def edgeRngs (d : Dev) (g : Rng) : List Rng :=
  if g.dev = selfId d ∨ g.len = 0 then []
  else
    (if g.addr % 8 = 0 then [] else [⟨g.dev, g.addr / 8 * 8, 8⟩])
      ++ (if (g.addr + g.len) % 8 = 0 then [] else [⟨g.dev, (g.addr + g.len) / 8 * 8, 8⟩])

/-- WRITE packets of at most 256 B. -/
def sendWrites (t : Nat) (e : EngineId) (r : RunOp) (dev : Nat) (ord : Bool) : Nat → Dev → Nat → List Byte → Dev
  | 0, d, _, _ => d
  | f + 1, d, a, bs =>
    if bs = [] then d
    else
      let n := (a / 256 + 1) * 256 - a
      sendWrites t e r dev ord f (sendReq d t e r 0 dev a (min n bs.length) (bs.take n) ord) (a + n) (bs.drop n)

/-- A range written: here at once, or by WRITE packets whose answers the operation's end awaits. What is written is kept
with what was fetched, so that a later partial word merges with it. -/
def writeRng (d : Dev) (t : Nat) (e : EngineId) (r : RunOp) (dev a : Nat) (bs : List Byte) (ord : Bool := true) : Dev × Option Code :=
  if dev = selfId d then memWrite d (runAcc d t r) a bs
  else
    let r := (runOf d t e).getD r
    let lo := a / 8 * 8
    let hi := ceilDiv (a + bs.length) 8 * 8
    let old (i : Nat) : Byte := NMap.get r.fetched 0 (fkey dev i)
    let all := (List.range (a - lo)).map (fun i => old (lo + i)) ++ bs
      ++ (List.range (hi - (a + bs.length))).map (fun i => old (a + bs.length + i))
    let d := onRun d t e fun r => { r with fetched :=
      (List.zip (List.range all.length) all).foldl (fun m p => NMap.insert m (fkey dev (lo + p.1)) p.2) r.fetched }
    (sendWrites t e r dev ord (all.length / 256 + 2) d lo all, none)

/-! ### Tensor descriptors (R81 to R86) -/

/-- The contiguous dimension (R82). -/
def tContig (t : TDesc) : Nat := if tNdims t ≤ 1 then 0 else if tColMajor t then 1 else 0

/-- The runs of bytes that the effective elements of a tensor occupy, w bits each. -/
def tRuns (t : TDesc) (w : Nat) : List (Nat × Nat) :=
  let c := tContig t
  let n := tExt t c
  (List.range (tCount t / n)).map fun i =>
    let others := [0, 1, 2, 3, 4, 5].filter (· ≠ c)
    let ix := (others.foldl (fun (s : Nat × Nat) k => (s.1 + (s.2 % tExt t k) * tStep t k, s.2 / tExt t k)) (0, i)).1
    let lo := 8 * tBase t + w * ix
    (lo / 8, ceilDiv (lo + w * n) 8 - lo / 8)

/-- Reserved fields of a tensor descriptor are zero, and its format and dimensions are no reserved encoding (R17, R81,
R82). -/
def tReservedOk (t : TDesc) : Bool :=
  fld t 95 93 = 0 && fld t 127 120 = 0 && (Fmt.ofCode (tFmt t)).isSome && 1 ≤ tNdims t && tNdims t ≤ 6
    && (List.range 6).all (fun i => i < tNdims t || tExtentF t i = 0)
    && [1, 2, 3, 4, 5].all (fun i => i < tNdims t || tStrideF t i = 0)
    && (tSrefKind t ≠ 1 || fld t 511 484 = 0)

def fmtOf (t : TDesc) : Fmt := (Fmt.ofCode (tFmt t)).getD .fp32

/-- R83's geometry. -/
def tGeomOk (t : TDesc) : Bool :=
  (List.range 6).all (fun i => tNdims t ≤ i || tExtentF t i ≠ 0)
    && tBase t % max 1 ((fmtOf t).width / 8) = 0
    && (fmtOf t ≠ .n4 || [1, 2, 3, 4, 5].all (fun i => tStrideF t i % 2 = 0))
    && (tValid t = 0 || (tShardDim t < tNdims t && tValid t ≤ tExtentF t (tShardDim t)))

/-- No stride of a written tensor is smaller than the span of the dimensions inside it (R83). -/
def tNoOverlap (t : TDesc) : Bool :=
  let c := tContig t
  let order := c :: ([0, 1, 2, 3, 4, 5].filter fun i => i ≠ c && i < tNdims t)
  (order.foldl (fun (s : Nat × Bool) i => (s.1 + (tFull t i - 1) * tStep t i, s.2 && s.1 ≤ tStep t i)) (1, true)).2

/-- Some byte of a range lies in the scratchpad window of an absent tile (R23). -/
def absentIn (d : Dev) (a n : Nat) : Bool :=
  n ≠ 0 && a < 0x80000000 &&
    (List.range ((min (a + n) 0x80000000 - 1) / 2 ^ 20 + 1 - a / 2 ^ 20)).any fun i => !tileUp d (a / 2 ^ 20 + i)

/-- The status of an address range that an operation names on this device: absent tile, window, presence (R23, R86). -/
def rngErr (d : Dev) (x : Polder) (a n : Nat) : Option Code :=
  if absentIn d a n then some 0x0403 else addrErr d x a n

/-- The first status of a list of checks. -/
def firstErr (l : List (Option Code)) : Option Code := l.foldl (fun a b => a.or b) none

/-- A check that gives a status when it fails. -/
def req (ok : Bool) (c : Code) : Option Code := if ok then none else some c

/-- The status with which a device named by a descriptor is refused (R257). -/
def devErr (d : Dev) (dev : Nat) : Option Code :=
  if dev = selfId d then none
  else if !inTorus d dev ∨ extent d 0 * extent d 1 * extent d 2 = 1 then some 0x0128 else none

/-- The check of a tensor descriptor that an operation reads or writes (R81 to R86, R257). -/
def tdForm (d : Dev) (pn : PolderNo) (t : TDesc) (written : Bool) : Option Code :=
  if !tReservedOk t then some 0x0402
  else if tPolder t ≠ pn then some 0x0408
  else if !tGeomOk t then some 0x0406
  else if written ∧ !tNoOverlap t then some 0x0407
  else if tSrefKind t = 3 ∨ (tCmp t ∧ (tSide t ∨ fmtOf t ≠ .bf16)) then some 0x040A
  else devErr d (tDev t).toNat

/-- The window checks of a descriptor's tensor on this device (R86). -/
def tdPlace (d : Dev) (x : Polder) (t : TDesc) : Option Code :=
  if (tDev t).toNat ≠ selfId d ∨ tCmp t then none
  else
    let rs := tRuns t (fmtOf t).width
    if rs.any (fun r => absentIn d r.1 r.2) then some 0x0403
    else if rs.any (fun r => !inWindows d x r.1 r.2) then some 0x0409
    else rs.findSome? fun r => rangeErr d r.1 r.2

/-- Both kinds of checks. -/
def tdErr (d : Dev) (pn : PolderNo) (x : Polder) (t : TDesc) (written : Bool) : Option Code :=
  (tdForm d pn t written).or (tdPlace d x t)

/-- The source of a TRANSFER, which under cgrant may be counter blocks of this device (R493). -/
def tdSource (d : Dev) (pn : PolderNo) (x : Polder) (t : TDesc) : Option Code :=
  if (tDev t).toNat = selfId d ∧ !tCmp t ∧ (tRuns t (fmtOf t).width).all (fun r => ctrsOk d x r.1 r.2) then tdForm d pn t false
  else tdErr d pn x t false

/-- A 64 B descriptor at a tile-local offset, or a list of n bytes there: aligned to 64 B and inside the share (R93). -/
def readLocal (d : Dev) (t : Nat) (x : Polder) (acc : Acc) (ofs n : Nat) : Dev × Except Code (List Byte) :=
  if ofs % 64 ≠ 0 then (d, .error 0x0406)
  else if 2 ^ 20 < ofs + n ∨ !inShare d x t (t * 2 ^ 20 + ofs) (t * 2 ^ 20 + ofs + n) then (d, .error 0x0409)
  else memRead d acc (t * 2 ^ 20 + ofs) n

/-- Several tensor descriptors read; an offset of none stands for an absent tensor and gives a zero descriptor. -/
def readTds (d : Dev) (t : Nat) (x : Polder) (acc : Acc) : List (Option Nat) → Dev × Except Code (List TDesc)
  | [] => (d, .ok [])
  | o :: os =>
    match o with
    | none =>
      match readTds d t x acc os with
      | (d, .ok l) => (d, .ok (0 :: l))
      | r => r
    | some ofs =>
      match readLocal d t x acc ofs 64 with
      | (d, .error c) => (d, .error c)
      | (d, .ok bs) =>
        match readTds d t x acc os with
        | (d, .ok l) => (d, .ok (BitVec.ofNat 512 (ofBytes bs) :: l))
        | r => r

/-- A field "_td" of a descriptor: 0xFFFF_FFFF means absent (R166). -/
def tdField (x : BitVec 1024) (hi lo : Nat) : Option Nat := if fld x hi lo = 0xFFFFFFFF then none else some (fld x hi lo)

/-- A tensor's ranges as an operation reads or writes them. -/
def tRngs (t : TDesc) (w : Nat) : List Rng := (tRuns t w).map fun r => ⟨(tDev t).toNat, r.1, r.2⟩

/-- The effective elements' codes in the order of R139, w bits each, from the bytes of the runs read in turn. -/
def readCodesGo (d : Dev) (acc : Acc) (r : RunOp) (td : TDesc) (w : Nat) : Nat → Nat → Dev × Option Code × List Nat
  | 0, _ => (d, none, [])
  | k + 1, n =>
    let bit := tBitAddr td w (tIndex td n)
    match readRng d acc r ⟨(tDev td).toNat, bit / 8, max 1 (w / 8)⟩ with
    | (d, .error c) => (d, some c, [])
    | (d, .ok bs) =>
      let (d, st, l) := readCodesGo d acc r td w k (n + 1)
      (d, st, (ofBytes bs >>> (bit % 8)) % 2 ^ w :: l)

/-- k effective elements from the n-th on, as codes; a bad word gives its status and the elements before it. -/
def readCodes (d : Dev) (acc : Acc) (r : RunOp) (td : TDesc) (n k : Nat) : Dev × Option Code × List Nat :=
  readCodesGo d acc r td (fmtOf td).width k n

/-- The element ends an odd row of N4, by the extent field of the contiguous dimension: its byte's high nibble is padding
(R41). -/
def n4Pads (td : TDesc) (ix : List Nat) : Bool :=
  let n := tFull td (tContig td)
  n % 2 = 1 && ix.getD (tContig td) 0 = n - 1

/-- One element's code written: whole bytes, or one nibble of a byte for N4, with the padding nibble as 0 (R40, R41). -/
def writeAt (d : Dev) (t : Nat) (e : EngineId) (r : RunOp) (td : TDesc) (ix : List Nat) (code : Nat) : Dev × Option Code :=
  let w := (fmtOf td).width
  let bit := tBitAddr td w ix
  let dev := (tDev td).toNat
  if w < 8 then
    if n4Pads td ix then writeRng d t e r dev (bit / 8) (toBytes 1 code)
    else
      match readRng d (runAcc d t r) ((runOf d t e).getD r) ⟨dev, bit / 8, 1⟩ with
      | (d, .error _) => writeRng d t e r dev (bit / 8) (toBytes 1 (code <<< (bit % 8)))
      | (d, .ok bs) => writeRng d t e r dev (bit / 8) (toBytes 1 (setBits (ofBytes bs) (bit % 8 + 3) (bit % 8) code))
  else writeRng d t e r dev (bit / 8) (toBytes (w / 8) code)

/-- Codes written at index vectors in turn; the first that a memory refuses stops, with its place in the list. -/
def writeList (t : Nat) (e : EngineId) (r : RunOp) (td : TDesc) : Dev → Nat → List (List Nat × Nat) → Dev × Option (Code × Nat)
  | d, _, [] => (d, none)
  | d, n, (ix, c) :: cs =>
    match writeAt d t e r td ix c with
    | (d, some x) => (d, some (x, n))
    | (d, none) => writeList t e r td d (n + 1) cs

/-- Consecutive codes of a run packed into bytes, w bits each. -/
def packCodes (w : Nat) (cs : List Nat) : List Byte :=
  if w < 8 then (chunksOf 2 (cs.length + 1) cs).map fun p => BitVec.ofNat 8 (p.getD 0 0 + 16 * p.getD 1 0)
  else cs.flatMap (toBytes (w / 8))

/-- Codes at bit addresses, w bits each, gathered into runs of consecutive ones: first bit, codes, and the place of the last. -/
def gatherRuns (w : Nat) : List (Nat × List Nat × Nat) → List (Nat × List (List Nat × Nat))
  | [] => []
  | (b, ix, c) :: rest =>
    match gatherRuns w rest with
    | (b', cs) :: more => if b' = b + w then (b, (ix, c) :: cs) :: more else (b, [(ix, c)]) :: (b', cs) :: more
    | [] => [(b, [(ix, c)])]

/-- The bytes of a run on another device: what the run does not cover of its first and last byte stays, and a padding nibble
is 0 (R41). -/
def runBytes (old : Nat → Byte) (td : TDesc) (w : Nat) (run : Nat × List (List Nat × Nat)) : Nat × List Byte :=
  let (b, cs) := run
  let last := b + w * cs.length
  let head := if b % 8 = 0 then [] else [(old (b / 8)).toNat % 16]
  let tail := if last % 8 = 0 then [] else [if (cs.getLast?.any fun c => n4Pads td c.1) then 0 else (old (last / 8)).toNat / 16]
  (b / 8, packCodes w (head ++ cs.map Prod.snd ++ tail))

/-- Byte runs that meet in a word of 8 B are joined, so that the word is written once. -/
def joinRuns (old : Nat → Byte) : List (Nat × List Byte) → List (Nat × List Byte)
  | [] => []
  | (a, bs) :: rest =>
    match joinRuns old rest with
    | (a', bs') :: more =>
      let e := a + bs.length
      if e ≤ a' ∧ a' < ceilDiv e 8 * 8 then (a, bs ++ (List.range (a' - e)).map (fun i => old (e + i)) ++ bs') :: more
      else (a, bs) :: (a', bs') :: more
    | [] => [(a, bs)]

/-- Elements' codes written at index vectors on another device, in whole runs. -/
def writeFar (d : Dev) (t : Nat) (e : EngineId) (r : RunOp) (td : TDesc) (cs : List (List Nat × Nat)) (ord : Bool) : Dev × Option Code :=
  let w := (fmtOf td).width
  let dev := (tDev td).toNat
  let old (a : Nat) : Byte := NMap.get ((runOf d t e).getD r).fetched 0 (fkey dev a)
  (joinRuns old ((gatherRuns w (cs.map fun c => (tBitAddr td w c.1, c.1, c.2))).map (runBytes old td w))).foldl
    (fun s g => match writeRng s.1 t e r dev g.1 g.2 ord with | (d, x) => (d, s.2.or x)) (d, none)

/-- The words of a written remote tensor that it covers in part: the edges of every run, and where valid ends a row of N4 in
a low nibble, the word of that byte, whose high nibble stays (R41). -/
def tEdges (d : Dev) (td : TDesc) (w : Nat) : List Rng :=
  (tRngs td w).flatMap fun g => edgeRngs d g ++
    (if w < 8 ∧ tExt td (tContig td) % 2 = 1 ∧ tExt td (tContig td) ≠ tFull td (tContig td) ∧ g.dev ≠ selfId d ∧ g.len ≠ 0 then
      [⟨g.dev, (g.addr + g.len - 1) / 8 * 8, 8⟩] else [])

/-! ### Start and end (R74, R75, R77) -/

/-- The opcodes of an engine (R92, R114, R135, R262, R288 and the tables of files 07 and 08). -/
def opcodeOk (e : EngineId) (op : Nat) : Bool :=
  match e with
  | .fuller => 1 ≤ op && op ≤ 4
  | .steamer => 1 ≤ op && op ≤ 0xA
  | .napper => 1 ≤ op && op ≤ 5
  | .carder => 1 ≤ op && op ≤ 5
  | .blocker => 1 ≤ op && op ≤ 6
  | .router => 1 ≤ op && op ≤ 7

/-- The descriptor that starts next at a boundary: a filler's only when no other polder's waits (R75). -/
def nextDesc (d : Dev) (t : Nat) (e : EngineId) : Option QOp :=
  let q := (engineOf d t e).queue
  let filler (o : QOp) : Bool := ((polderOf d (opPolder d t o)).map Polder.filler).getD false
  match q.find? (fun o => !filler o) with
  | some o => some o
  | none => q.head?

/-- The checks that come before an engine's own: tally address, prerequisite, header, polder and class (R72, R76, R77, R86).
Returns whether a tally may be written, and the status. -/
def startErr (d : Dev) (t : Nat) (e : EngineId) (q : QOp) : Bool × Option Code :=
  let pn := opPolder d t q
  match tallyErr d pn (dTally q.desc) with
  | some c => (false, some c)
  | none =>
    (true,
      if q.dep = .failed then some 0x040C
      else if !dHdrOk q.desc ∨ !opcodeOk e (dOpcode q.desc) then some 0x0402
      else if dPolder q.desc ≠ pn then some 0x0408
      else if dClass q.desc = 0 ∨ ((polderOf d pn).map fun x => x.share (dClass q.desc)).getD 0 = 0 then some 0x0408
      else none)

/-- The engine takes its next descriptor when it runs none and the descriptor's prerequisite has ended. -/
def opStart (d : Dev) (t : Nat) (e : EngineId) : Dev :=
  match runOf d t e, nextDesc d t e with
  | none, some q =>
    if d.grid.routerFault then d
    else
      match q.dep with
      | .on _ _ => d
      | _ =>
        let (tallyOk, st) := startErr d t e q
        onEngine d t e fun x => { queue := x.queue.erase q
                                  run := some { q := q, tallyOk := tallyOk, ended := st.map fun c => ⟨.notStarted, c⟩ } }
  | _, _ => d

/-- Requests of a slot's operation that have no answer. -/
def openReqs (d : Dev) (t slot : Nat) : List Req := d.fabric.reqs.filter fun r => r.tag = opTag t slot && !r.abandoned

/-- The end of an operation as an answer's bad status leaves it (R255). -/
def endOf (r : RunOp) (e : OpEnd) : OpEnd :=
  match r.bad with
  | some c => if e.st = .done then ⟨.inPart, c⟩ else e
  | none => e

/-- The Steamer operation of a tag and generation ends: the entries for it leave the hand-off queue and the banks, and a
Fuller operation that still feeds it learns the first output tile that was not taken (R107). -/
def consumerEnded (d : Dev) (t : Nat) (tag gen : BitVec 16) : Dev :=
  let mine (o : OutTile) : Bool := o.cons = tag && o.gen = gen
  let left := ((tileOf d t).handoff.filter mine).length + ((tileOf d t).banks.filter mine).length
  let d := match runOf d t .fuller with
    | some r =>
      if fld r.q.desc 425 424 = 1 ∧ fld r.q.desc 463 448 = tag.toNat ∧ fld r.q.desc 479 464 = gen.toNat ∧ dOpcode r.q.desc ≤ 2
          ∧ r.begun ∧ r.gone = none then
        onRun d t .fuller fun r => { r with gone := some (r.work.step - left) }
      else d
    | none => d
  onTile d t fun x => { x with
    handoff := x.handoff.filter fun o => !mine o
    banks := x.banks.filter fun o => !mine o
    orphans := x.orphans.filter fun o => !(o.1 = tag && o.2 = gen) }

/-- An operation ends once every request it sent is answered: tally, slot, waiting threads, dependents, notice (R74). -/
def opEnd (d : Dev) (t : Nat) (e : EngineId) : Dev :=
  match runOf d t e with
  | none => d
  | some r =>
    match r.ended with
    | none => d
    | some x =>
      if openReqs d t r.q.slot ≠ [] then d
      else
        let x := endOf r x
        let d := if r.tallyOk then
            (memWrite d (runAcc d t r) (dTally r.q.desc) (tallyBytes (dSeq r.q.desc) x true r.marker r.counts)).1
          else d
        let d := finishOp d t r.q x true
        let d := if e = .steamer then consumerEnded d t (opTag t r.q.slot) r.q.gen else d
        onEngine d t e fun y => { y with run := none }

def execEngineOpStart (t : TileNo) (e : EngineId) (s : State) : Out := onDev s fun d => opStart d t.toNat e

end Sys2Proof.Machine
end

