-- ==== Sys2Proof/Machine/Tensor.lean ====
section
/-! DEFINITION. Element values of tensors as engines read them: scale indices and scale references (R161, R162), the decode
of code formats with the side list (R52, R170, R174), and the expansion of compressed blocks (R183 to R193). -/

namespace Sys2Proof.Machine

/-! ### Indices -/

/-- Rows of a tensor over the extent fields: one per index of every dimension but 0 (R161). -/
def tRows (td : TDesc) : Nat := [1, 2, 3, 4, 5].foldl (fun n i => n * tFull td i) 1

/-- The row number of an index vector, over the extent fields. -/
def tRow (td : TDesc) (ix : List Nat) : Nat :=
  ([1, 2, 3, 4, 5].foldl (fun (s : Nat × Nat) i => (s.1 + ix.getD i 0 * s.2, s.2 * tFull td i)) (0, 1)).1

/-- The linear index of an index vector over the effective extents (R139). -/
def tLinear (td : TDesc) (ix : List Nat) : Nat :=
  ([0, 1, 2, 3, 4, 5].foldl (fun (s : Nat × Nat) i => (s.1 + ix.getD i 0 * s.2, s.2 * tExt td i)) (0, 1)).1

/-- The scale index of an element (R161). -/
def scaleIdx (td : TDesc) (ix : List Nat) : Nat :=
  if fmtOf td = .n8 then tRow td ix * ceilDiv (tFull td 0) 32 + ix.getD 0 0 / 32 else ix.getD 0 0

/-- The number of scale indices of a tensor. -/
def scaleCount (td : TDesc) : Nat :=
  if fmtOf td = .n8 then tRows td * ceilDiv (tFull td 0) 32 else tFull td 0

/-! ### Scales (R156, R158, R162) -/

def scaleReg (d : Dev) (t n : Nat) : BitVec 512 := NMap.get (tileOf d t).scale 0 n
def srScale (x : BitVec 512) : F32 := BitVec.ofNat 32 (fld x 31 0)
def srPend (x : BitVec 512) : B16 := BitVec.ofNat 16 (fld x 47 32)
def srFill (x : BitVec 512) : Nat := fld x 52 48
def srHist (x : BitVec 512) (i : Nat) : B16 := BitVec.ofNat 16 (fld x (16 * i + 79) (16 * i + 64))
def onScale (d : Dev) (t n : Nat) (f : BitVec 512 → BitVec 512) : Dev :=
  onTile d t fun x => { x with scale := NMap.upd x.scale 0 n f }

/-- A scale reference by registers lies in the polder's run (R158). -/
def scaleRegsOk (x : Polder) (td : TDesc) : Bool :=
  tSrefKind td ≠ 1 || (x.kbase ≤ tSrefReg td && tSrefReg td + scaleCount td ≤ x.kbase + x.kcount)

/-- The scales of a register reference as they stand at an operation's start (R159); nothing for other references. DESIGN
CHOICE (log entry 64): one for every index of the extent field, and R125's check holds each of them, channels at or beyond valid
too, since R125 does not exempt them. -/
def snapScales (d : Dev) (t : Nat) (td : TDesc) : List F32 :=
  if tSrefKind td = 1 then (List.range (scaleCount td)).map fun i => srScale (scaleReg d t (tSrefReg td + i)) else []

/-- The scale of an index: from the snapshot, or read from the scale tensor. -/
def scaleAt (d : Dev) (acc : Acc) (r : RunOp) (td : TDesc) (snap : List F32) (i : Nat) : Dev × Except Code F32 :=
  if tSrefKind td = 1 then (d, .ok (snap.getD i 0))
  else
    match readRng d acc r ⟨(tDev td).toNat, tSrefAddr td + 4 * i, 4⟩ with
    | (d, .ok bs) => (d, .ok (BitVec.ofNat 32 (ofBytes bs)))
    | (d, .error c) => (d, .error c)

/-- The ranges of a scale tensor and of a side list's header and directory. -/
def scaleRngs (td : TDesc) : List Rng :=
  if tSrefKind td = 2 then [⟨(tDev td).toNat, tSrefAddr td, 4 * scaleCount td⟩] else []

/-! ### The side list (R170, R174) -/

/-- Where the entries of a side list begin, from its address. -/
def sideEntries (td : TDesc) : Nat := 64 + 64 * ceilDiv ((tRows td + 1) * 4) 64

/-- The bytes of the side list through n entries. -/
def sideLen (td : TDesc) (n : Nat) : Nat := sideEntries td + 8 * n

/-- The directory's words of a row: the first entry of the row and the one behind its last; 0x0444 where they do not ascend or
name an entry beyond count or capacity (R174). -/
def sideRow (d : Dev) (acc : Acc) (r : RunOp) (td : TDesc) (row : Nat) : Dev × Except Code (Nat × Nat) :=
  let dev := (tDev td).toNat
  match readRng d acc r ⟨dev, tAux td, 16⟩ with
  | (d, .error s) => (d, .error s)
  | (d, .ok h) =>
    match readRng d acc r ⟨dev, tAux td + 64 + 4 * row, 8⟩ with
    | (d, .error s) => (d, .error s)
    | (d, .ok dir) =>
      let lo := leAt dir 0 4
      let hi := leAt dir 4 4
      if hi < lo ∨ leAt h 4 4 < hi ∨ leAt h 0 4 < hi then (d, .error 0x0444) else (d, .ok (lo, hi))

/-- An escape's value among its row's entries: none when the row has no entry for it. -/
def sideLookup (d : Dev) (acc : Acc) (r : RunOp) (td : TDesc) (lo hi c : Nat) : Dev × Except Code (Option B16) :=
  match readRng d acc r ⟨(tDev td).toNat, tAux td + sideEntries td + 8 * lo, 8 * (hi - lo)⟩ with
  | (d, .error s) => (d, .error s)
  | (d, .ok es) =>
    (d, .ok (((List.range (hi - lo)).find? (fun i => leAt es (8 * i) 3 = c)).map
      fun i => BitVec.ofNat 16 (leAt es (8 * i + 4) 2)))

/-! ### One element (R36, R52) -/

/-- Whether a code is the escape code of its format. -/
def isEscape (f : Fmt) (c : Nat) : Bool := (f = .n4 && c = 8) || (f = .n8 && c = 0x80)

/-- The element at an index vector as its exact value, with its code; the flag marks an escape with no entry, whose value is
NaN. A decode that meets a malformed directory stops at its row, whether or not the element is an escape (R174). -/
def elemRaw (d : Dev) (acc : Acc) (r : RunOp) (td : TDesc) (snap : List F32) (ix : List Nat) :
    Dev × Except Code (FVal × Bool × Nat) :=
  let f := fmtOf td
  let w := f.width
  let bit := tBitAddr td w ix
  match readRng d acc r ⟨(tDev td).toNat, bit / 8, max 1 (w / 8)⟩ with
  | (d, .error c) => (d, .error c)
  | (d, .ok bs) =>
    let code := (ofBytes bs >>> (bit % 8)) % 2 ^ w
    match f.float? with
    | some F =>
      if f.isFp8 ∧ tSrefKind td ≠ 0 then
        match scaleAt d acc r td snap (scaleIdx td ix) with
        | (d, .error c) => (d, .error c)
        | (d, .ok s) => if scaleOk s then (d, .ok ((F.decode code).mul (val32 s), false, code)) else (d, .error 0x0405)
      else (d, .ok (F.decode code, false, code))
    | none =>
      match (if tSide td && f ≠ .u8l then sideRow d acc r td (tRow td ix) else (d, .ok (0, 0))) with
      | (d, .error c) => (d, .error c)
      | (d, .ok (lo, hi)) =>
        match scaleAt d acc r td snap (scaleIdx td ix) with
        | (d, .error c) => (d, .error c)
        | (d, .ok s) =>
          if !scaleOk s then (d, .error 0x0405)
          else if isEscape f code then
            if tSide td then
              match sideLookup d acc r td lo hi (ix.getD 0 0) with
              | (d, .error c) => (d, .error c)
              | (d, .ok (some v)) => (d, .ok (val16 v, false, code))
              | (d, .ok none) => (d, .ok (.nan, true, code))
            else (d, .ok (.nan, true, code))
          else (d, .ok ((codeVal f code s).getD .nan, false, code))

/-- The element's value, rounded once to a destination (FP32 or BF16) where its format is a code format (R52, R173). -/
def elemAt (d : Dev) (acc : Acc) (r : RunOp) (td : TDesc) (snap : List F32) (dst : FFmt) (ix : List Nat) :
    Dev × Except Code (FVal × Bool) :=
  match elemRaw d acc r td snap ix with
  | (d, .error c) => (d, .error c)
  | (d, .ok (v, lost, _)) => (d, .ok (if (fmtOf td).isCode then dst.decode (dst.rne v) else v, lost))

/-! ### Compressed blocks (R183 to R193) -/

/-- Rows and columns of the stored matrix: the non-contiguous and the contiguous dimension. -/
def cmpR (td : TDesc) : Nat := tExt td (1 - tContig td)
def cmpC (td : TDesc) : Nat := tExt td (tContig td)
def cmpTR (td : TDesc) : Nat := ceilDiv (cmpR td) 32
def cmpTC (td : TDesc) : Nat := ceilDiv (cmpC td) 64
/-- Batch dimensions that count in the block number: those whose stride is nonzero. -/
def cmpBatch (td : TDesc) : List Nat := [2, 3, 4, 5].filter fun i => i < tNdims td && tStep td i ≠ 0
def cmpBlocks (td : TDesc) : Nat := (cmpBatch td).foldl (fun n i => n * tExt td i) 1 * cmpTR td * cmpTC td

/-- The block of an element and its place in the block's order. -/
def blockOf (td : TDesc) (ix : List Nat) : Nat × Nat :=
  let c := ix.getD (tContig td) 0
  let rr := ix.getD (1 - tContig td) 0
  let bi := ((cmpBatch td).foldl (fun (s : Nat × Nat) i => (s.1 + ix.getD i 0 * s.2, s.2 * tExt td i)) (0, 1)).1
  let tr := rr / 32
  let tc := c / 64
  let cols := min 64 (cmpC td - 64 * tc)
  ((bi * cmpTR td + tr) * cmpTC td + tc, (rr % 32) * cols + c % 64)

/-- Rows and columns of a block. -/
def blockSize (td : TDesc) (b : Nat) : Nat × Nat :=
  (min 32 (cmpR td - 32 * (b / cmpTC td % cmpTR td)), min 64 (cmpC td - 64 * (b % cmpTC td)))

/-- The index vector of a block's element (dimensions with stride 0 at index 0). -/
def blockIx (td : TDesc) (b e : Nat) : List Nat :=
  let cols := (blockSize td b).2
  let rr := 32 * (b / cmpTC td % cmpTR td) + e / cols
  let c := 64 * (b % cmpTC td) + e % cols
  let bi := b / cmpTC td / cmpTR td
  let bx := ((cmpBatch td).foldl (fun (s : List (Nat × Nat) × Nat) i => (s.1 ++ [(i, s.2 % tExt td i)], s.2 / tExt td i)) ([], bi)).1
  (List.range 6).map fun i =>
    if i = tContig td then c else if i = 1 - tContig td then rr
    else ((bx.find? fun p => p.1 = i).map Prod.snd).getD 0

/-- The ranges of the index table's header and of the entry pair of a block. -/
def tableHdr (td : TDesc) : Rng := ⟨(tDev td).toNat, tAux td, 32⟩
def tablePair (td : TDesc) (b : Nat) : Rng := ⟨(tDev td).toNat, tAux td + 32 + 4 * b, 8⟩

/-- Bytes of this device as they stand, without a read's effects. -/
def peekHere (d : Dev) (a n : Nat) : List Byte :=
  (List.range n).map fun i => match place d (a + i) with | .ok k => Mem.read d.mem.bytes k | .error _ => 0

/-- The bytes of a range as they stand, without a read's effects. -/
def peekRng (d : Dev) (r : RunOp) (g : Rng) : List Byte :=
  if g.dev = selfId d then peekHere d g.addr g.len
  else (List.range g.len).map fun i => NMap.get r.fetched 0 (fkey g.dev (g.addr + i))

/-- The ranges that the expansion of some blocks reads: table header and pairs, and once these are here, the blocks. -/
def blockRngs (d : Dev) (r : RunOp) (td : TDesc) (bs : List Nat) : List Rng :=
  let tab := tableHdr td :: bs.map (tablePair td)
  if tab.all (fun g => g.dev = selfId d || fetchedAll r g) then
    tab ++ bs.filterMap fun b =>
      let p := peekRng d r (tablePair td b)
      let n := leAt p 4 4 - leAt p 0 4
      if 2 ≤ n ∧ n ≤ 129 then some ⟨(tDev td).toNat, tBase td + 32 * leAt p 0 4, 32 * n⟩ else none
  else tab

/-- The check of an index table's header (R186). -/
def tableErr (td : TDesc) (h : List Byte) : Option Code :=
  let nblk := leAt h 0 4
  if leAt h 4 1 ≠ 1 ∨ leAt h 28 4 ≠ crc32c (h.take 28) ∨ nblk ≠ cmpBlocks td ∨ 33294320 < nblk then some 0x0450
  else if sliceB h 5 23 ≠ zeros 23 then some 0x0402
  else none

/-- A codebook entry: four BF16 values (R180). -/
def cbEntry (d : Dev) (acc : Acc) (t set i : Nat) : Dev × Except Code (List B16) :=
  match keyWords d acc (cbKey t set i) 1 with
  | (d, some c, _) => (d, .error c)
  | (d, none, bs) => (d, .ok ((List.range 4).map fun k => BitVec.ofNat 16 (leAt bs (2 * k) 2)))

/-- The patch records of a block (R190), from offset p. -/
structure Patch where
  v : Nat
  mask : Nat
  vals : List B16
  deriving DecidableEq, Repr

def patchAt (bs : List Byte) (p : Nat) : Patch :=
  let w := leAt bs p 4
  ⟨bits w 8 0, bits w 15 12, (List.range 4).map fun k => BitVec.ofNat 16 (leAt bs (p + 4 + 2 * k) 2)⟩

/-- Step 3 of R192, on the block's bytes. -/
def blockHdrOk (x : Polder) (td : TDesc) (b : Nat) (bs : List Byte) : Bool :=
  let h := leAt bs 0 32
  let kind := bits h 1 0
  let np := bits h 6 2
  let cnt := bits h 43 32
  let vq := kind = 1 || kind = 2
  let p := if kind = 1 then 32 + 4 * ceilDiv cnt 4 else 32 + 4 * ceilDiv (2 * cnt) 4
  let len := if kind = 3 then 32 * ceilDiv (32 + 2 * cnt) 32 else 32 * ceilDiv (p + 12 * np) 32
  let ps := (List.range np).map fun i => patchAt bs (p + 12 * i)
  kind ≠ 0 && !bitAt h 7 && bits h 15 13 = 0 && bits h 31 29 = 0 && bits h 63 44 = 0 && bits h 223 96 = 0
    && bits h 95 64 = b % 2 ^ 32 && bits h 21 16 = (blockSize td b).1 && bits h 28 22 = (blockSize td b).2
    && 1 ≤ cnt && cnt ≤ (if vq then 512 else 2048) && np ≤ (if kind = 3 then 0 else 16)
    && (kind ≠ 2 || (x.cbbase ≤ bits h 12 8 && bits h 12 8 < x.cbbase + x.cbcount))
    && len = bs.length
    && (!vq || ((List.range np).all fun i =>
        let q := ps.getD i ⟨0, 0, []⟩
        q.v < cnt && q.mask ≠ 0 && (i = 0 || (ps.getD (i - 1) ⟨0, 0, []⟩).v < q.v)
          && bits (leAt bs (p + 12 * i) 4) 11 9 = 0 && bits (leAt bs (p + 12 * i) 4) 31 16 = 0))

/-- One vector's four values before patches (R191), and how many were held at ±0x7F7F. -/
def vecSum (e1 : List B16) (e2 : Option (List B16)) : List B16 × List Bool :=
  match e2 with
  | none => (e1.map fun v => BitVec.ofNat 16 (bf16.rne (val16 v)), e1.map fun _ => false)
  | some e2 =>
    let ss := List.zipWith (fun a b => (val16 a).add (val16 b)) e1 e2
    (ss.map fun v => BitVec.ofNat 16 (bf16.conv 0 v).1, ss.map fun v => (bf16.conv 0 v).2 = .sat)

/-- The vectors of a block expanded in turn, n of them from the v-th on. -/
def vecsGo (d : Dev) (acc : Acc) (t set : Nat) (rset : Option Nat) (bs : List Byte) (cnt : Nat) :
    Nat → Nat → Dev × Except Code (List B16 × List Bool)
  | 0, _ => (d, .ok ([], []))
  | n + 1, v =>
    match cbEntry d acc t set (leAt bs (32 + v) 1) with
    | (d, .error c) => (d, .error c)
    | (d, .ok e1) =>
      let second : Dev × Except Code (Option (List B16)) :=
        match rset with
        | none => (d, .ok none)
        | some q =>
          match cbEntry d acc t q (leAt bs (32 + cnt + v) 1) with
          | (d, .error c) => (d, .error c)
          | (d, .ok e2) => (d, .ok (some e2))
      match second with
      | (d, .error c) => (d, .error c)
      | (d, .ok e2) =>
        match vecsGo d acc t set rset bs cnt n (v + 1) with
        | (d, .error c) => (d, .error c)
        | (d, .ok (l, s)) =>
          let (a, b) := vecSum e1 e2
          (d, .ok (a ++ l, b ++ s))

/-- The patches applied to the expansion. -/
def patchList (l : List B16) (p : Patch) : List B16 :=
  (List.range 4).foldl (fun l k => if bitAt p.mask k && 4 * p.v + k < l.length then l.set (4 * p.v + k) (p.vals.getD k 0) else l) l

/-- What the expansion of a block gives: its D elements, the status of a failed block with the first element of its
poisoned region, elements held at ±0x7F7F, and elements written as NaN for poison. -/
structure BlockOut where
  vals : List B16
  fail : Option (Code × Nat) := none
  nsat : Nat := 0
  npois : Nat := 0
  deriving DecidableEq, Repr

/-- A block read, checked and expanded (R191 to R193). A memory error gives its status (R195). -/
def expandBlock (d : Dev) (acc : Acc) (r : RunOp) (t : Nat) (x : Polder) (td : TDesc) (b : Nat) : Dev × Except Code BlockOut :=
  let (rows, cols) := blockSize td b
  let dd := rows * cols
  let poison (c : Code) : BlockOut := ⟨List.replicate dd 0x7FC0, some (c, 0), 0, dd⟩
  match readRng d acc r (tablePair td b) with
  | (d, .error c) => (d, .error c)
  | (d, .ok pr) =>
    let n := leAt pr 4 4 - leAt pr 0 4
    if leAt pr 4 4 < leAt pr 0 4 + 2 ∨ 129 < n then (d, .ok (poison 0x0455))
    else if (tDev td).toNat = selfId d ∧ !inWindows d x (tBase td + 32 * leAt pr 0 4) (32 * n) then (d, .error 0x0409)
    else
      match readRng d acc r ⟨(tDev td).toNat, tBase td + 32 * leAt pr 0 4, 32 * n⟩ with
      | (d, .error c) => (d, .error c)
      | (d, .ok bs) =>
        if leAt bs 28 4 ≠ crc32c (bs.take 28 ++ bs.drop 32) then (d, .ok (poison 0x0454))
        else if !blockHdrOk x td b bs then (d, .ok (poison 0x0453))
        else
          let h := leAt bs 0 32
          let kind := bits h 1 0
          let cnt := bits h 43 32
          if kind = 3 then
            let l := (List.range (min cnt dd)).map fun i => (BitVec.ofNat 16 (leAt bs (32 + 2 * i) 2) : B16)
            if dd < cnt then (d, .ok ⟨l, some (0x0451, 0), 0, 0⟩)
            else if cnt < dd then (d, .ok ⟨l ++ List.replicate (dd - cnt) 0x7FC0, some (0x0452, cnt), 0, dd - cnt⟩)
            else (d, .ok ⟨l, none, 0, 0⟩)
          else
            let rset := if kind = 2 then some (bits h 12 8) else none
            let p := if kind = 1 then 32 + 4 * ceilDiv cnt 4 else 32 + 4 * ceilDiv (2 * cnt) 4
            match vecsGo d acc t (tCbset td) rset bs cnt (min cnt (ceilDiv dd 4)) 0 with
            | (d, .error c) => (d, .error c)
            | (d, .ok (l, s)) =>
              let l := (l.take dd)
              let nsat := ((s.take dd).filter id).length
              let ps := (List.range (bits h 6 2)).map fun i => patchAt bs (p + 12 * i)
              let l := ps.foldl patchList l
              if ceilDiv dd 4 < cnt then (d, .ok ⟨l, some (0x0451, 0), nsat, 0⟩)
              else if cnt < ceilDiv dd 4 then
                (d, .ok ⟨l ++ List.replicate (dd - l.length) 0x7FC0, some (0x0452, l.length), nsat, dd - l.length⟩)
              else (d, .ok ⟨l, none, nsat, 0⟩)

/-! ### Many elements -/

/-- Values fetched in turn; a status that stops the fetch; the first element (by linear index) with no side-list entry;
the first failed block with its first poisoned element. -/
structure Got where
  vals : List FVal := []
  stop : Option Code := none
  lost : Option Nat := none
  failed : Option (Code × Nat) := none
  deriving DecidableEq, Repr

def fetchGo (acc : Acc) (r : RunOp) (td : TDesc) (snap : List F32) (dst : FFmt) : Dev → Got → List (List Nat) → Dev × Got
  | d, g, [] => (d, g)
  | d, g, ix :: rest =>
    match elemAt d acc r td snap dst ix with
    | (d, .error c) => (d, { g with stop := some c })
    | (d, .ok (v, lost)) =>
      fetchGo acc r td snap dst d { g with vals := v :: g.vals, lost := if lost then g.lost.or (some (tLinear td ix)) else g.lost } rest

/-- A block expanded, and a failed one, as events (R488). -/
def blockEvents (d : Dev) (acc : Acc) (t : Nat) (o : BlockOut) : Dev :=
  let d := count d 0 t 0x220 1 acc.polder
  if o.fail.isSome then count d 0 t 0x222 1 acc.polder else d

def expandGo (acc : Acc) (r : RunOp) (t : Nat) (x : Polder) (td : TDesc) : Dev → NMap (List B16) → Option (Code × Nat) → List Nat →
    Dev × NMap (List B16) × Option (Code × Nat) × Option Code
  | d, m, f, [] => (d, m, f, none)
  | d, m, f, b :: bs =>
    match expandBlock d acc r t x td b with
    | (d, .error c) => (d, m, f, some c)
    | (d, .ok o) =>
      let d := blockEvents d acc t o
      expandGo acc r t x td d (NMap.insert m b o.vals)
        (f.or (o.fail.map fun p => (p.1, tLinear td (blockIx td b p.2)))) bs

/-- The values of the elements at some index vectors, in order (decoded to dst where they are codes). Blocks of a compressed
tensor are expanded in the order in which the elements first need them. -/
def fetchVals (d : Dev) (acc : Acc) (r : RunOp) (t : Nat) (x : Polder) (td : TDesc) (snap : List F32) (dst : FFmt) (ixs : List (List Nat)) :
    Dev × Got :=
  if tCmp td then
    let blocks := (ixs.map fun ix => (blockOf td ix).1).foldl (fun l b => if l.contains b then l else b :: l) []
    let (d, m, f, st) := expandGo acc r t x td d [] none blocks.reverse
    match st with
    | some c => (d, { stop := some c, failed := f })
    | none =>
      (d, { vals := ixs.map fun ix =>
              let (b, e) := blockOf td ix
              val16 ((NMap.get m [] b).getD e 0)
            failed := f })
  else
    let (d, g) := fetchGo acc r td snap dst d {} ixs
    (d, { g with vals := g.vals.reverse })

/-- The remote ranges that a fetch of some elements reads. -/
def fetchRngs (d : Dev) (r : RunOp) (td : TDesc) (ixs : List (List Nat)) : List Rng :=
  if (tDev td).toNat = selfId d then []
  else if tCmp td then blockRngs d r td ((ixs.map fun ix => (blockOf td ix).1).dedup)
  else
    let w := (fmtOf td).width
    let hdr : Rng := ⟨(tDev td).toNat, tAux td, sideLen td 0⟩
    let side := if tSide td ∧ (fmtOf td = .n4 ∨ fmtOf td = .n8) then
        hdr :: (if fetchedAll r hdr then [⟨(tDev td).toNat, tAux td, sideLen td (leAt (peekRng d r hdr) 4 4)⟩] else [])
      else []
    (ixs.map fun ix => let b := tBitAddr td w ix; (⟨(tDev td).toNat, b / 8, max 1 (w / 8)⟩ : Rng))
      ++ scaleRngs td ++ side

/-- Every index vector of a tensor in the order of R139. -/
def allIxs (td : TDesc) : List (List Nat) := (List.range (tCount td)).map (tIndex td)

/-- Checks of a code or scaled tensor's references at start: registers in the run, the scale tensor and side list inside the
windows, a scale for every code format (R85, R86, R158, R162). -/
def refsErr (d : Dev) (x : Polder) (td : TDesc) : Option Code :=
  let near := (tDev td).toNat = selfId d
  if (fmtOf td).isCode ∧ tSrefKind td = 0 then some 0x0440
  else if !scaleRegsOk x td then some 0x0409
  else if near ∧ tSrefKind td = 2 then rngErr d x (tSrefAddr td) (4 * scaleCount td)
  else none

/-- The side list of a tensor that an operation reads lies in the windows, through the entries in use (R86). -/
def sideErr (d : Dev) (x : Polder) (td : TDesc) : Option Code :=
  if tSide td ∧ (fmtOf td = .n4 ∨ fmtOf td = .n8) ∧ (tDev td).toNat = selfId d then
    let h := peekHere d (tAux td) 8
    (rngErr d x (tAux td) (sideLen td 0)).or (rngErr d x (tAux td) (sideLen td (min (leAt h 0 4) (leAt h 4 4))))
  else none

/-- A codebook set lies in the polder's run (R181). -/
def setIn (px : Polder) (n : Nat) : Bool := px.cbbase ≤ n && n < px.cbbase + px.cbcount

/-- The compressed tensor's checks before its index table is read: base, codebook set, and the table inside the windows
(R86, R181, R184). -/
def cmpForm (d : Dev) (x : Polder) (td : TDesc) : Option Code :=
  if tBase td % 32 ≠ 0 then some 0x0406
  else if !setIn x (tCbset td) then some 0x0409
  else if (tDev td).toNat = selfId d then rngErr d x (tAux td) (32 + 4 * (cmpBlocks td + 1))
  else none

end Sys2Proof.Machine
end

