-- ==== Sys2Proof/Machine/Fuller.lean ====
section
/-! DEFINITION. The Fuller (files 04 and 05): MATMUL, BWD_DATA, BWD_WEIGHT and ADAPTER_DOWN with outlier channels, fused
adapters, the gradient epilogues, and the hand-off queue. The row of an opcode reads and checks the descriptors and starts
the operation; each FULLER_PASS_END carries one output tile through its k-steps and drains it. -/

namespace Sys2Proof.Machine

/-! ### Descriptor fields (R92, R115) -/

def fAlpha (x : BitVec 1024) : F32 := BitVec.ofNat 32 (fld x 415 384)
def fConv (x : BitVec 1024) : Nat := fld x 419 416
def fTransA (x : BitVec 1024) : Bool := flag x 420
def fTransB (x : BitVec 1024) : Bool := flag x 421
def fInit (x : BitVec 1024) : Bool := flag x 422
def fOrder (x : BitVec 1024) : Bool := flag x 423
def fOutMode (x : BitVec 1024) : Nat := fld x 425 424
def fOsel (x : BitVec 1024) : Bool := flag x 426
def fNOut (x : BitVec 1024) : Nat := fld x 433 427
def fRank (x : BitVec 1024) : Nat := fld x 442 434
def fHsLimit (x : BitVec 1024) : Nat := fld x 487 480
def fEpi (x : BitVec 1024) : Nat := if dOpcode x = 2 then fld x 650 648 else 0
def fPstore (x : BitVec 1024) : Bool := dOpcode x = 2 && flag x 651

/-- Fields that an opcode does not use are zero, reserved encodings are not used (R17, R92, R115, R116). DESIGN CHOICE (log
entries 23 and 64): n_out above 64 and a rank of 257 to 511, for which the spec names no status, are refused here with 0x0402;
pstore with rank 0 is a field that its opcode does not use, while e_td, e2_td, e3_td and p_td of a BWD_DATA whose epi or pstore
does not call for them are not read and may hold anything. -/
def fReservedOk (x : BitVec 1024) : Bool :=
  let op := dOpcode x
  fld x 447 443 = 0 && !flag x 419 && fOutMode x ≤ 1 && fNOut x ≤ 64 && fRank x ≤ 256
    && (op ≠ 1 || fld x 1023 488 = 0)
    && (op = 1 || fld x 1023 652 = 0)
    && (op ≠ 2 || (fld x 551 520 = 0 && fld x 650 648 ≤ 3 && (fRank x ≠ 0 || !flag x 651)))
    && (op ≠ 3 || (fld x 519 488 = 0 && fld x 651 552 = 0))
    && (op ≠ 4 || (fld x 651 488 = 0 && fld x 191 160 = 0 && fld x 383 352 = 0 && fld x 419 416 = 0 && !fTransB x))

/-- What R116 forbids an opcode, told from the fields alone and so before any tensor is read. -/
def fRoleErr (x : BitVec 1024) : Option Code :=
  let op := dOpcode x
  if op = 3 ∧ !(fRank x = 0 && fOutMode x = 0) then some 0x0421
  else if op = 4 ∧ !(fRank x ≠ 0 && !fInit x && fOutMode x = 0) then some 0x0421
  else if fNOut x = 0 then none
  else if (op = 2 ∧ fOsel x) ∨ (op = 3 ∧ !fOsel x) ∨ op = 4 then some 0x0422
  else none

/-! ### The tensors of an operation: A, B, C, initial values, outliers, La, Lb, dP, W, e, r, γ -/

def fTd (r : RunOp) (i : Nat) : TDesc := r.tds.getD i 0

/-- Which descriptors the opcode reads, in that order. -/
def fTdOfs (x : BitVec 1024) : List (Option Nat) :=
  let op := dOpcode x
  let use (c : Bool) (hi lo : Nat) : Option Nat := if c then some (fld x hi lo) else none
  let epi2 := fEpi x = 2 || fEpi x = 3
  [use true 159 128, use (op ≠ 4) 191 160, use true 223 192, use (fInit x) 255 224, use (fNOut x ≠ 0) 287 256,
   use (fRank x ≠ 0) 351 320, use (fRank x ≠ 0 && op ≠ 4) 383 352, use (fPstore x) 519 488, use (op = 3) 551 520,
   use (fEpi x ≠ 0) 583 552, use epi2 615 584, use epi2 647 616]

/-- A row or column of a stored matrix: dimension 0 and dimension 1 exchanged under transposition. -/
def mExt (td : TDesc) (tr : Bool) : Nat × Nat := if tr then (tExt td 1, tExt td 0) else (tExt td 0, tExt td 1)

/-- The product's shape: output rows, output columns, contraction; and the tensor whose dimensions beyond 1 are the batch. -/
structure FShape where
  m : Nat
  n : Nat
  k : Nat
  deriving DecidableEq, Repr

/-- The shape that A, B and C give an opcode. -/
def fShape (x : BitVec 1024) (r : RunOp) : FShape :=
  let a := mExt (fTd r 0) (fTransA x)
  match dOpcode x with
  | 2 => ⟨a.2, tExt (fTd r 2) 0, a.1⟩
  | 3 => ⟨a.1, tExt (fTd r 2) 0, a.2⟩
  | 4 => ⟨a.2, fRank x, a.1⟩
  | _ => ⟨a.2, tExt (fTd r 2) 0, a.1⟩

/-- The tensor that fixes the batch indices: C, and dY for a weight gradient. -/
def fBatchTd (x : BitVec 1024) (r : RunOp) : TDesc := if dOpcode x = 3 then fTd r 1 else fTd r 2

/-- Batch indices, and the index vector of one over dimensions 2 to 5 (R91). -/
def fBatches (x : BitVec 1024) (r : RunOp) : Nat := [2, 3, 4, 5].foldl (fun n i => n * tExt (fBatchTd x r) i) 1
def fBatchIx (td : TDesc) (b : Nat) : List Nat :=
  ([2, 3, 4, 5].foldl (fun (s : List Nat × Nat) i => (s.1 ++ [s.2 % tExt td i], s.2 / tExt td i)) ([], b)).1

/-- The batch part of a read tensor's index: a dimension of stride 0 repeats (R95). -/
def fBx (td : TDesc) (bx : List Nat) : List Nat :=
  [2, 3, 4, 5].map fun i => if tStep td i = 0 then 0 else bx.getD (i - 2) 0

/-- The index vector of a matrix element: columns along dimension 0, rows along dimension 1, exchanged under tr. -/
def mIx (td : TDesc) (tr : Bool) (row col : Nat) (bx : List Nat) : List Nat :=
  (if tr then [row, col] else [col, row]) ++ fBx td bx

/-- Output tiles along m and n, and all of them; a weight gradient has no batch of its own. -/
def fMt (x : BitVec 1024) (r : RunOp) : Nat := ceilDiv (fShape x r).m 32
def fNt (x : BitVec 1024) (r : RunOp) : Nat := ceilDiv (fShape x r).n 64
def fOutBatches (x : BitVec 1024) (r : RunOp) : Nat := if dOpcode x = 3 then 1 else fBatches x r
def fPasses (x : BitVec 1024) (r : RunOp) : Nat := fOutBatches x r * fMt x r * fNt x r

/-- Batch index, m-tile and n-tile of a pass (R91). -/
def fPassAt (x : BitVec 1024) (r : RunOp) (p : Nat) : Nat × Nat × Nat :=
  let mt := fMt x r
  let nt := fNt x r
  let q := p % (mt * nt)
  if fOrder x then (p / (mt * nt), q / nt, q % nt) else (p / (mt * nt), q % mt, q / mt)

/-! ### Checks (R93 to R96, R100, R102, R105, R116 to R127) -/

/-- Effective dimensions for R95: a tensor of one dimension counts as having two. -/
def dims2 (td : TDesc) : Nat := max 2 (tNdims td)

/-- The batch dimensions of a read tensor agree with C's (R95). -/
def batchOk (c td : TDesc) : Bool :=
  dims2 td = dims2 c && [2, 3, 4, 5].all fun i => tExt td i = tExt c i || (i < tNdims td && tStep td i = 0)

/-- A format for A or B of the product (R96). DESIGN CHOICE (log entry 64): dY too may be N4, N8 or compressed, since R124
gives gradients the formats of R96 in every role, although its list for dY names FP32, BF16, E4M3 and E5M2 only. -/
def operandFmt (td : TDesc) : Bool := fmtOf td ≠ .u8l
/-- A format for C and the initial values. -/
def plainFmt (td : TDesc) : Bool := (fmtOf td).float?.isSome

/-- Scale references of a tensor that the Fuller reads (R125, R162). -/
def operandRefErr (d : Dev) (t : Nat) (x : Polder) (td : TDesc) : Option Code :=
  match fmtOf td with
  | .fp32 | .bf16 => req (tSrefKind td = 0) 0x0426
  | .e4m3 | .e5m2 =>
    if tSrefKind td = 2 then some 0x0426
    else if !scaleRegsOk x td then some 0x0409
    else req ((snapScales d t td).all pow2Ok) 0x0426
  | _ => (refsErr d x td).or (sideErr d x td)

/-- The outlier channel list: strictly ascending, below a bound (R100, R169). -/
def listOk (bound : Nat) : List Nat → Bool
  | [] => true
  | [a] => a < bound
  | a :: b :: l => a < b && listOk bound (b :: l)

/-- A list of n 32-bit words from bytes. -/
def words32 : Nat → List Byte → List Nat
  | 0, _ => []
  | n + 1, l => leAt l 0 4 :: words32 n (l.drop 4)

/-- The consumer of hand-off output: queued or running on this tile's Steamer, of the same polder, with src = 1 (R105). -/
def consumerOk (d : Dev) (t : Nat) (pn : PolderNo) (tag gen : Nat) : Bool :=
  let good (q : QOp) : Bool :=
    tag = (opTag t q.slot).toNat && q.gen.toNat = gen && flag q.desc 432
      && (match (slotOf d t q.slot).use with | .held p => p = pn | _ => false)
  (engineOf d t .steamer).queue.any good
    || (match runOf d t .steamer with | some r => r.ended = none && good r.q | none => false)

/-- Shapes and formats of an operation whose descriptors have been read. DESIGN CHOICE (log entry 64): where several checks
fail, the first of this list gives the status, since R111 gives no order; and the forward weight of a BWD_WEIGHT has N along
extent[0] and K along extent[1], as R94's B with trans_b = 0, since no field says how it is stored. -/
def fullerErr (d : Dev) (t : Nat) (pn : PolderNo) (px : Polder) (r : RunOp) : Option Code :=
  let x := r.q.desc
  let op := dOpcode x
  let a := fTd r 0; let b := fTd r 1; let c := fTd r 2; let ini := fTd r 3
  let o := fTd r 4; let la := fTd r 5; let lb := fTd r 6; let dp := fTd r 7; let w := fTd r 8
  let e := fTd r 9; let e2 := fTd r 10; let e3 := fTd r 11
  let s := fShape x r
  let bm := mExt b (fTransB x)
  let rank := fRank x
  let td (used : Bool) (y : TDesc) (wr : Bool) : Option Code := if used then tdErr d pn px y wr else none
  let noCmp (used : Bool) (y : TDesc) : Option Code := if used then req (!tCmp y) 0x0456 else none
  let refs (used : Bool) (y : TDesc) : Option Code := if used then operandRefErr d t px y else none
  let cNeeded := fOutMode x = 0
  firstErr [
    td true a false, td (op ≠ 4) b false, td (fInit x) ini false, td (fNOut x ≠ 0) o false, td (rank ≠ 0) la false,
    td (rank ≠ 0 && op ≠ 4) lb false, td (fPstore x) dp true, td (fEpi x ≠ 0) e false, td (fEpi x ≥ 2) e2 false,
    td (fEpi x ≥ 2) e3 false, td (op = 3) w false,
    -- C is written where out_mode = 0; otherwise it gives the shape only
    if cNeeded then tdErr d pn px c true
    else tdForm d pn c false,
    if tCmp a then cmpForm d px a else none, if op ≠ 4 ∧ tCmp b then cmpForm d px b else none,
    noCmp true c, noCmp (op = 3) w, noCmp (fInit x) ini, noCmp (fNOut x ≠ 0) o, noCmp (rank ≠ 0) la, noCmp (rank ≠ 0 && op ≠ 4) lb,
    noCmp (fPstore x) dp, noCmp (fEpi x ≠ 0) e, noCmp (fEpi x ≥ 2) e2, noCmp (fEpi x ≥ 2) e3,
    -- formats
    req (operandFmt a) 0x0404, if op ≠ 4 then req (operandFmt b) 0x0404 else none,
    if fInit x then req (plainFmt ini) 0x0404 else none,
    if cNeeded ∧ op ≠ 4 then req (plainFmt c) 0x0404 else none,
    if op = 4 then req (fmtOf c = .bf16) 0x0404 else none,
    if fNOut x ≠ 0 then req (fmtOf o = .bf16) 0x0404 else none,
    if rank ≠ 0 then req (fmtOf la = .bf16) 0x0404 else none,
    if rank ≠ 0 ∧ op ≠ 4 then req (fmtOf lb = .bf16) 0x0404 else none,
    if fPstore x then req (fmtOf dp = .bf16) 0x0404 else none,
    operandRefErr d t px a, refs (op ≠ 4) b, refs (fInit x) ini, refs (fNOut x ≠ 0) o, refs (rank ≠ 0) la,
    refs (rank ≠ 0 && op ≠ 4) lb, refs (fEpi x ≠ 0) e, refs (fEpi x ≥ 2) e2, refs (fEpi x ≥ 2) e3,
    -- shapes (R94, R95, R116 to R118)
    if op = 1 then req (s.k = bm.2 && s.n = bm.1 && s.m = tExt c 1) 0x0420 else none,
    if op = 2 then req (s.k = bm.1 && s.n = bm.2 && s.m = tExt c 1) 0x0420 else none,
    if op = 3 then req (s.k = bm.2 && s.n = bm.1 && s.m = tExt c 1 && tNdims c = 2) 0x0420 else none,
    if op = 4 then req (tExt c 0 = rank && tExt c 1 = s.m) 0x0420 else none,
    if op ≠ 3 then req (batchOk c a) 0x0420 else req (batchOk b a) 0x0420,
    if op = 1 ∨ op = 2 then req (batchOk c b) 0x0420 else none,
    if fInit x then
      req (batchOk c ini && (tExt ini 0 = tExt c 0 || tStep ini 0 = 0) && (tExt ini 1 = tExt c 1 || tStep ini 1 = 0)) 0x0420
    else none,
    -- outlier channels (R100, R117, R118)
    if fNOut x ≠ 0 then
      let bound := if op = 2 then s.n else if op = 3 then s.m else s.k
      firstErr [req (listOk bound (r.lists.getD 0 [])) 0x0422,
        req (if op = 3 then tExt o 0 = fNOut x && tExt o 1 = s.k
             else if op = 2 then tExt o 0 = s.k && tExt o 1 = fNOut x
             else if fOsel x then tExt o 0 = fNOut x && tExt o 1 = s.m
             else tExt o 0 = s.n && tExt o 1 = fNOut x) 0x0420,
        req (batchOk (if op = 3 then b else c) o) 0x0420]
    else none,
    -- adapters (R102, R122, R123)
    if rank ≠ 0 then
      let kf := if op = 2 then s.n else s.k
      let nf := if op = 2 then s.k else s.n
      firstErr [req (fNOut x = 0 || !fOsel x) 0x0422,
        req (tExt la 0 = rank && tExt la 1 = kf && (op = 4 || (tExt lb 0 = nf && tExt lb 1 = rank))) 0x0421,
        req (fOrder x && ffinite (fAlpha x)) 0x0421,
        req (batchOk c la && (op = 4 || batchOk c lb)) 0x0420,
        if fPstore x then req (tExt dp 0 = rank && tExt dp 1 = s.m && batchOk c dp) 0x0420 else none]
    else none,
    if op = 3 then req (tExt w 0 = s.n && tExt w 1 = s.m) 0x0420 else none,
    -- the epilogue (R127)
    if fEpi x ≠ 0 then
      firstErr [req (tNdims c = 2 && s.n ≤ 64 && fOutMode x = 0 && rank = 0 && fNOut x = 0 && !fInit x) 0x0427,
        req (tNdims e = 2 && tExt e 0 = tExt c 0 && tExt e 1 = tExt c 1 && (fmtOf e = .fp32 || fmtOf e = .bf16)) 0x0427,
        if fEpi x ≥ 2 then
          req (fmtOf e2 = .fp32 && tNdims e2 = 1 && tExt e2 0 = s.m && tNdims e3 = 1 && tExt e3 0 = s.n
            && (fmtOf e3 = .fp32 || fmtOf e3 = .bf16)) 0x0427
        else none]
    else none,
    -- the consumer (R105)
    if fOutMode x = 1 ∧ op ≤ 2 then req (consumerOk d t pn (fld x 463 448) (fld x 479 464)) 0x0423 else none]

/-- Index-table headers of compressed operands, read and checked at start (R186): a bad header gives false and its status, a
bad word of memory true and the memory's status (R195). -/
def tablesErr (d : Dev) (acc : Acc) (r : RunOp) : List TDesc → Dev × Option (Bool × Code)
  | [] => (d, none)
  | td :: l =>
    match readRng d acc r (tableHdr td) with
    | (d, .error c) => (d, some (true, c))
    | (d, .ok h) =>
      match tableErr td h with
      | some c => (d, some (false, c))
      | none => tablesErr d acc r l

/-- The descriptors and the outlier list read, and everything checked that needs no other memory (R93, R116). What is read is
kept, so that no later change has an effect while the table header of another device is awaited. -/
def fullerRead (d : Dev) (t : Nat) (r : RunOp) : Dev :=
  let x := r.q.desc
  let pn := runPolder d t r
  match polderOf d pn with
  | none => d
  | some px =>
    if !fReservedOk x then refuse d t .fuller 0x0402
    else
      match fRoleErr x with
      | some c => refuse d t .fuller c
      | none =>
        match readTds d t px (runAcc d t r) (fTdOfs x) with
        | (d, .error c) => refuse d t .fuller c
        | (d, .ok tds) =>
          let lst : Dev × Except Code (List Byte) :=
            if fNOut x = 0 then (d, .ok []) else readLocal d t px (runAcc d t r) (fld x 319 288) (4 * fNOut x)
          match lst with
          | (d, .error c) => refuse d t .fuller c
          | (d, .ok lb) =>
            let r1 := { r with tds := tds, lists := [words32 (fNOut x) lb] }
            match fullerErr d t pn px r1 with
            | some c => refuse d t .fuller c
            | none => onRun d t .fuller fun r => { r with
                tds := tds, lists := r1.lists
                snaps := [snapScales d t (fTd r1 0), snapScales d t (fTd r1 1), snapScales d t (fTd r1 3)] }

/-- The index tables of compressed operands checked, and the operation begun; with a frozen weight no operand is read and the
operation ends at once (R119). -/
def fullerBegin (d : Dev) (t op : Nat) (r : RunOp) : Dev :=
  let frozen : Bool := op = 3 && tFrozen (fTd r 8)
  let cm := if frozen then [] else [fTd r 0, fTd r 1].filter tCmp
  withRanges d t .fuller r (cm.map tableHdr) 0 fun d =>
    match tablesErr d (runAcc d t r) r cm with
    | (d, some (true, c)) => partRun d t .fuller c 0
    | (d, some (false, c)) => refuse d t .fuller c
    | (d, none) =>
      let d := onRun d t .fuller fun r => { r with begun := true, fetched := [] }
      if frozen then doneRun (count d 0 t 0x104 1 (some (runPolder d t r))) t .fuller 0 else d

/-- The operation starts (R93). -/
def fullerStart (d : Dev) (t op : Nat) : Dev :=
  match running d t .fuller op with
  | none => d
  | some r =>
    if r.begun then d
    else
      let d := if r.tds = [] then fullerRead d t r else d
      match running d t .fuller op with
      | none => d
      | some r => if r.tds = [] then d else fullerBegin d t op r

/-! ### One pass -/

/-- The index vectors of A's row for an output row, along the contraction; none where the product enters as +0. DESIGN CHOICE
(log entry 64): the +0 that R101 puts at a listed channel of the masked operand meets an infinity or a NaN of the other operand
as any +0 does, so the sum is NaN under R47. -/
def aLine (x : BitVec 1024) (r : RunOp) (bx : List Nat) (row : Nat) : List (Option (TDesc × List Nat)) :=
  let s := fShape x r
  let a := fTd r 0
  let l := r.lists.getD 0 []
  match dOpcode x with
  | 3 =>
    -- column `row` of A over l = b × M + m, an outlier column substituted (R118)
    (List.range (fBatches x r)).flatMap fun b =>
      let bb := fBatchIx (fTd r 1) b
      (List.range s.k).map fun m =>
        match if fNOut x = 0 then none else l.findIdx? (· = row) with
        | some j => some (fTd r 4, mIx (fTd r 4) false m j bb)
        | none => some (a, mIx a (fTransA x) m row bb)
  | _ =>
    (List.range s.k).map fun k =>
      if dOpcode x = 1 ∧ fNOut x ≠ 0 ∧ fOsel x ∧ l.contains k then none else some (a, mIx a (fTransA x) row k bx)

/-- The index vectors of B for an output column. -/
def bLine (x : BitVec 1024) (r : RunOp) (bx : List Nat) (col : Nat) : List (Option (TDesc × List Nat)) :=
  let s := fShape x r
  let b := fTd r 1
  let l := r.lists.getD 0 []
  match dOpcode x with
  | 2 =>
    -- row `col` of B over n, an outlier row substituted (R117)
    (List.range s.k).map fun n =>
      match if fNOut x = 0 then none else l.findIdx? (· = col) with
      | some j => some (fTd r 4, mIx (fTd r 4) false j n bx)
      | none => some (b, mIx b (fTransB x) col n bx)
  | 3 =>
    (List.range (fBatches x r)).flatMap fun bi =>
      let bb := fBatchIx b bi
      (List.range s.k).map fun m => some (b, mIx b (fTransB x) m col bb)
  | 4 => (List.range s.k).map fun k => some (fTd r 5, mIx (fTd r 5) false k col bx)
  | _ =>
    (List.range s.k).map fun k =>
      if fNOut x ≠ 0 ∧ !fOsel x ∧ l.contains k then none else some (b, mIx b (fTransB x) k col bx)

/-- A down pass's operand lines: dY or A for a row, Lb or La for a rank index (R103, R122). -/
def downLine (x : BitVec 1024) (r : RunOp) (bx : List Nat) (j : Nat) : List (Option (TDesc × List Nat)) :=
  let s := fShape x r
  (List.range s.k).map fun k =>
    if dOpcode x = 2 then some (fTd r 6, mIx (fTd r 6) false j k bx) else some (fTd r 5, mIx (fTd r 5) false k j bx)

/-- The second operand of the adapter k-steps for an output column: Lb, or La under BWD_DATA. -/
def upLine (x : BitVec 1024) (r : RunOp) (bx : List Nat) (col : Nat) : List (Option (TDesc × List Nat)) :=
  (List.range (fRank x)).map fun j =>
    if dOpcode x = 2 then some (fTd r 5, mIx (fTd r 5) false col j bx) else some (fTd r 6, mIx (fTd r 6) false j col bx)

/-- Outlier k-steps of a forward product: the gathered operand and the outlier tensor (R101). -/
def outA (x : BitVec 1024) (r : RunOp) (bx : List Nat) (row : Nat) : List (Option (TDesc × List Nat)) :=
  (List.range (fNOut x)).map fun j =>
    if fOsel x then some (fTd r 4, mIx (fTd r 4) false row j bx)
    else some (fTd r 0, mIx (fTd r 0) (fTransA x) row ((r.lists.getD 0 []).getD j 0) bx)
def outB (x : BitVec 1024) (r : RunOp) (bx : List Nat) (col : Nat) : List (Option (TDesc × List Nat)) :=
  (List.range (fNOut x)).map fun j =>
    if fOsel x then some (fTd r 1, mIx (fTd r 1) (fTransB x) ((r.lists.getD 0 []).getD j 0) col bx)
    else some (fTd r 4, mIx (fTd r 4) false j col bx)

/-- The scale snapshot of A, of B or of the initial values (R125). -/
def fSnap (r : RunOp) (td : TDesc) : List F32 :=
  if td = fTd r 0 then r.snaps.getD 0 [] else if td = fTd r 1 then r.snaps.getD 1 []
  else if td = fTd r 3 then r.snaps.getD 2 [] else []

/-- What the fetches of a pass carry along. -/
structure FCtx where
  d : Dev
  stop : Option Code := none
  note : Option (Code × Nat) := none

/-- The values of some operand lines, one tensor at a time in line order: masked places are +0. side is set for port B. -/
def fetchLine (acc : Acc) (r : RunOp) (t : Nat) (px : Polder) (side : Bool) (c : FCtx) (ls : List (Option (TDesc × List Nat))) :
    FCtx × List FVal :=
  let tds := (ls.filterMap fun e => e.map Prod.fst).dedup
  let (c, tab) := tds.foldl (fun (s : FCtx × List (TDesc × List (List Nat × FVal))) td =>
    match s.1.stop with
    | some _ => s
    | none =>
      let ixs := ls.filterMap fun e => match e with | some p => if p.1 = td then some p.2 else none | none => none
      let (d, g) := fetchVals s.1.d acc r t px td (fSnap r td) bf16 ixs
      let mark (n : Nat) : Nat := n + (if side then 2 ^ 63 else 0)
      let nt := (g.failed.map fun f => (f.1, mark f.2)).or (g.lost.map fun n => ((0x0445 : Code), mark n))
      ({ d := d, stop := g.stop, note := s.1.note.or nt }, (td, List.zip ixs g.vals) :: s.2)) (c, [])
  (c, ls.map fun e =>
    match e with
    | none => FVal.zero
    | some (td, ix) =>
      match tab.find? (fun p => p.1 = td) with
      | some (_, vs) => ((vs.find? fun v => v.1 = ix).map Prod.snd).getD .nan
      | none => .nan)

/-- The contraction runs along the contiguous dimension of a line's tensor. -/
def alongK : List (Option (TDesc × List Nat)) → Bool
  | some (td, ix) :: some (td', jx) :: l =>
    if td = td' then ix.getD (tContig td) 0 ≠ jx.getD (tContig td) 0 else alongK (some (td', jx) :: l)
  | _ :: l => alongK l
  | [] => true

/-- One block that a port fetches: some lines over at most 64 steps of the contraction, along the stored tensor's contiguous
dimension (R112). -/
def fetchBlock (acc : Acc) (r : RunOp) (t : Nat) (px : Polder) (side : Bool) (c : FCtx) (blk : List (List (Option (TDesc × List Nat)))) :
    FCtx × List (List FVal) :=
  let w := (blk.headD []).length
  let n := blk.length
  if blk.all alongK then
    let (c, v) := fetchLine acc r t px side c blk.flatten
    (c, (List.range n).map fun i => (v.drop (i * w)).take w)
  else
    let (c, v) := fetchLine acc r t px side c ((List.range w).flatMap fun k => blk.map fun l => l.getD k none)
    (c, (List.range n).map fun i => (List.range w).map fun k => v.getD (k * n + i) .nan)

/-- The lines of both ports, 64 steps of the contraction at a time: port A's block, then port B's (R112, R194). DEDUCED (log
entry 64): of the two blocks for the same 64 steps A's counts as fetched first. -/
def fetchPair (acc : Acc) (r : RunOp) (t : Nat) (px : Polder) :
    Nat → FCtx → List (List (Option (TDesc × List Nat))) → List (List (Option (TDesc × List Nat))) →
      FCtx × List (List FVal) × List (List FVal)
  | 0, c, a, b => (c, a.map fun _ => [], b.map fun _ => [])
  | n + 1, c, a, b =>
    let (c, va) := fetchBlock acc r t px false c (a.map (·.take 64))
    let (c, vb) := fetchBlock acc r t px true c (b.map (·.take 64))
    let (c, ra, rb) := fetchPair acc r t px n c (a.map (·.drop 64)) (b.map (·.drop 64))
    (c, List.zipWith (· ++ ·) va ra, List.zipWith (· ++ ·) vb rb)

/-- Blocks of 64 steps that some lines take. -/
def stepBlocks (a b : List (List (Option (TDesc × List Nat)))) : Nat := ceilDiv (max (a.headD []).length (b.headD []).length) 64

/-- The remote ranges of operand lines. -/
def lineRngs (d : Dev) (r : RunOp) (ls : List (List (Option (TDesc × List Nat)))) : List Rng :=
  let all := ls.flatten.filterMap id
  ((all.map Prod.fst).dedup).flatMap fun td =>
    fetchRngs d r td (all.filterMap fun p => if p.1 = td then some p.2 else none)

/-- Sums of products of rows and columns in groups of 32, from given accumulators: one list per row. -/
def mulRows (init : List (List F32)) (as bs : List (List FVal)) : List (List (F32 × Nat)) :=
  List.zipWith (fun (i : List F32) (a : List FVal) =>
    List.zipWith (fun (z : F32) (b : List FVal) => addGroups z (List.zip a b)) i bs) init as

def addTgs (l : List (List (F32 × Nat))) : Nat := (l.flatten.map Prod.snd).foldl (· + ·) 0

/-- alpha × a sum, rounded once to BF16 by RNE without saturation (R103). -/
def downElem (alpha sum : F32) : Nat × Cls := bf16.conv 2 ((val32 alpha).mul (val32 sum))

/-- What the adapter buffer counts: overflow to an infinity, and rounding to zero of a nonzero value (R103, R57). -/
def downCls (sum : F32) (c : Cls) : Cls :=
  match c with
  | .nonfin => if ffinite sum then .nonfin else .none
  | .flush => .flush
  | _ => .none

/-- The rows of a down pass, with the classes it counts. -/
def downRow (alpha : F32) (l : List (F32 × Nat)) : List (B16 × Cls) :=
  l.map fun p =>
    let q := downElem alpha p.1
    (BitVec.ofNat 16 q.1, downCls p.1 q.2)

def countAll (c : Counts) (l : List Cls) : Counts := l.foldl Counts.add c

/-- The epilogue of one row (R128): g its accumulators. -/
def epiRow (epi : Nat) (g e gamma : List F32) (rs : F32) : List F32 :=
  let n := g.length
  if epi = 1 then
    let dd := rowsum (List.zipWith fmul e g)
    List.zipWith (fun p q => fmul p (fsub q dd)) e g
  else
    let h := List.zipWith fmul g gamma
    let inv := rne32 (FVal.fin false 1 0) |> fun one => fdiv one (fofNat n)
    let m2 := fmul (rowsum (List.zipWith fmul h e)) inv
    if epi = 2 then List.zipWith (fun a b => fmul rs (fsub a (fmul b m2))) h e
    else
      let m1 := fmul (rowsum h) inv
      List.zipWith (fun a b => fmul rs (fsub (fsub a m1) (fmul b m2))) h e

/-- The values of some elements widened exactly to FP32. -/
def fetch32 (acc : Acc) (r : RunOp) (t : Nat) (px : Polder) (c : FCtx) (td : TDesc) (ixs : List (List Nat)) : FCtx × List F32 :=
  match c.stop with
  | some _ => (c, [])
  | none =>
    let (d, g) := fetchVals c.d acc r t px td (fSnap r td) fp32 ixs
    ({ c with d := d, stop := g.stop }, g.vals.map rne32)

/-- One element of C formed under conv, with its class. -/
def outCode (td : TDesc) (conv : Nat) (v : F32) : Nat × Cls :=
  match (fmtOf td).float? with
  | some F => F.conv conv (val32 v)
  | none => (0, .none)

/-- A part of a remote word that a written element covers. -/
def elemEdges (d : Dev) (td : TDesc) (ix : List Nat) : List Rng :=
  edgeRngs d ⟨(tDev td).toNat, tBitAddr td (fmtOf td).width ix / 8, max 1 ((fmtOf td).width / 8)⟩

/-- An operand error ends the operation; the tiles held in banks are not placed, and the marker names the first of them
(R110). -/
def fullerFail (d : Dev) (t : Nat) (c : Code) (p : Nat) : Dev :=
  partRun (onTile d t fun y => { y with banks := [] }) t .fuller c (p - (tileOf d t).banks.length)

/-- The remote ranges of a pass are here; a bad answer is an operand error. -/
def passRanges (d : Dev) (t : Nat) (r : RunOp) (gs : List Rng) (go : Dev → Dev) : Dev :=
  match r.bad with
  | some c => fullerFail d t c r.work.step
  | none => withRanges d t .fuller r gs r.work.step go

/-- The rows and columns of the output tile of a pass. -/
def passRows (x : BitVec 1024) (r : RunOp) (mt : Nat) : List Nat :=
  (List.range (min 32 ((fShape x r).m - 32 * mt))).map (32 * mt + ·)
def passCols (x : BitVec 1024) (r : RunOp) (nt : Nat) : List Nat :=
  (List.range (min 64 ((fShape x r).n - 64 * nt))).map (64 * nt + ·)

/-- Batch indices of a pass. -/
def passBx (x : BitVec 1024) (r : RunOp) (p : Nat) : List Nat := fBatchIx (fTd r 2) (fPassAt x r p).1

/-- The adapter columns of a down pass. -/
def downCols (x : BitVec 1024) (r : RunOp) : List Nat :=
  (List.range (min 64 (fRank x - 64 * r.work.down))).map (64 * r.work.down + ·)

/-- The index vectors of an element of the initial values, of e, and of what the epilogue reads beside e (R95, R127). -/
def initIx (r : RunOp) (bx : List Nat) (m n : Nat) : List Nat :=
  let td := fTd r 3
  [if tStep td 0 = 0 then 0 else n, if tStep td 1 = 0 then 0 else m] ++ fBx td bx
def epiIx (m n : Nat) : List Nat := [n, m, 0, 0, 0, 0]
def epiVec (i : Nat) : List Nat := [i, 0, 0, 0, 0, 0]

/-- A down pass comes next: the m-tile's adapter buffer is not full (R103, R122). -/
def downDue (x : BitVec 1024) (r : RunOp) : Bool :=
  fRank x ≠ 0 && dOpcode x ≠ 4 && (fPassAt x r r.work.step).2.2 = 0 && r.work.down < ceilDiv (fRank x) 64

/-- A down pass: up to 64 columns of the adapter buffer of an m-tile (R103, R122), stored to dP as well under pstore. -/
def fullerDown (d : Dev) (t : Nat) (r : RunOp) (px : Polder) : Dev :=
  let x := r.q.desc
  let acc := runAcc d t r
  let bx := passBx x r r.work.step
  let rows := passRows x r (fPassAt x r r.work.step).2.1
  let at_ := 64 * r.work.down
  let js := downCols x r
  let aLs := rows.map (aLine x r bx)
  let dLs := js.map (downLine x r bx)
  let dIx (m j : Nat) : List Nat := mIx (fTd r 7) false m j bx
  let edges := if fPstore x then rows.flatMap fun m => js.flatMap fun j => elemEdges d (fTd r 7) (dIx m j) else []
  passRanges d t r (lineRngs d r (aLs ++ dLs) ++ edges) fun d =>
    let (ctx, av, dv) := fetchPair acc r t px (stepBlocks aLs dLs) { d := d, note := r.note } aLs dLs
    match ctx.stop with
    | some code => fullerFail ctx.d t code r.work.step
    | none =>
      let sums := mulRows (rows.map fun _ => List.replicate js.length 0) av dv
      let new := sums.map (downRow (fAlpha x))
      let old := if at_ = 0 then rows.map fun _ => [] else chunksOf at_ (rows.length + 1) r.work.vals
      let buf := (List.zipWith (fun (o : List F32) n => o ++ n.map fun q => rne32 (val16 q.1)) old new).flatten
      let tg := addTgs sums
      let d := count ctx.d 0 t 0x100 (fShape x r).k (some (runPolder d t r))
      let d := if tg = 0 then d else count d 0 t 0x105 tg (some (runPolder d t r))
      let (d, st) := if fPstore x then
          writeList t .fuller r (fTd r 7) d 0 ((List.zip rows new).flatMap fun q =>
            (List.zip js q.2).map fun e => (dIx q.1 e.1, e.2.1.toNat))
        else (d, none)
      match st with
      | some (code, _) => fullerFail d t code r.work.step
      | none => onRun d t .fuller fun r => { r with
          counts := (countAll r.counts (new.flatten.map Prod.snd)).addTg tg, note := ctx.note, fetched := []
          work := { r.work with vals := buf, down := r.work.down + 1, stall := decide ((tileOf d t).banks ≠ []) } }

/-- The next output tile of the operation: its k-steps, and its drain to memory or to a bank. DESIGN CHOICE (log entry 64): a
tile is written to memory whole before the next pass reads, although R90 lets the drain overlap that pass. -/
def fullerPass (d : Dev) (t : Nat) (r : RunOp) (px : Polder) : Dev :=
  let x := r.q.desc
  let acc := runAcc d t r
  let s := fShape x r
  let p := r.work.step
  let (b, mt, nt) := fPassAt x r p
  let bx := passBx x r p
  let rows := passRows x r mt
  let cols := passCols x r nt
  let rank := fRank x
  let fwd := dOpcode x = 1
  let aLs := rows.map (aLine x r bx)
  let bLs := cols.map (bLine x r bx)
  let oaLs := if fwd && fNOut x ≠ 0 then rows.map (outA x r bx) else []
  let obLs := if fwd && fNOut x ≠ 0 then cols.map (outB x r bx) else []
  let uLs := if rank ≠ 0 && dOpcode x ≠ 4 then cols.map (upLine x r bx) else []
  let cIx (m n : Nat) : List Nat := [n, m] ++ bx
  let iIxs := if fInit x then rows.flatMap fun m => cols.map fun n => initIx r bx m n else []
  let eIxs := if fEpi x ≠ 0 then rows.flatMap fun m => cols.map fun n => epiIx m n else []
  let c := fTd r 2
  let rIxs := if 2 ≤ fEpi x then rows.map epiVec else []
  let gIxs := if 2 ≤ fEpi x then cols.map epiVec else []
  let edges := if fOutMode x = 0 then rows.flatMap fun m => cols.flatMap fun n => elemEdges d c (cIx m n) else []
  let rngs := lineRngs d r (aLs ++ bLs ++ oaLs ++ obLs ++ uLs) ++ (if fInit x then fetchRngs d r (fTd r 3) iIxs else [])
    ++ (if fEpi x ≠ 0 then fetchRngs d r (fTd r 9) eIxs else [])
    ++ (if 2 ≤ fEpi x then fetchRngs d r (fTd r 10) rIxs ++ fetchRngs d r (fTd r 11) gIxs else []) ++ edges
  passRanges d t r rngs fun d =>
    let ctx : FCtx := { d := d, note := r.note }
    let (ctx, iv) := if fInit x then fetch32 acc r t px ctx (fTd r 3) iIxs else (ctx, List.replicate (rows.length * cols.length) 0)
    let init := chunksOf cols.length (rows.length + 1) iv
    let (ctx, av, bv) := fetchPair acc r t px (stepBlocks aLs bLs) ctx aLs bLs
    let (ctx, oav, obv) := fetchPair acc r t px (stepBlocks oaLs obLs) ctx oaLs obLs
    let (ctx, _, uv) := fetchPair acc r t px (stepBlocks [] uLs) ctx [] uLs
    let (ctx, ev) := if fEpi x ≠ 0 then fetch32 acc r t px ctx (fTd r 9) eIxs else (ctx, [])
    let (ctx, rv) := if fEpi x ≥ 2 then fetch32 acc r t px ctx (fTd r 10) rIxs else (ctx, [])
    let (ctx, gv) := if fEpi x ≥ 2 then fetch32 acc r t px ctx (fTd r 11) gIxs else (ctx, [])
    match ctx.stop with
    | some code => fullerFail ctx.d t code p
    | none =>
      let main := mulRows init av bv
      let sums (l : List (List (F32 × Nat))) : List (List F32) := l.map fun q => q.map Prod.fst
      let outl := if oaLs = [] then main else mulRows (sums main) oav obv
      let bufRows := (chunksOf rank (rows.length + 1) r.work.vals).map fun l => l.map val32
      let adap := if uLs = [] then outl else mulRows (sums outl) bufRows uv
      let tg := addTgs main + (if oaLs = [] then 0 else addTgs outl) + (if uLs = [] then 0 else addTgs adap)
      let cn := r.counts.addTg tg
      let g := sums adap
      let g := if fEpi x = 0 then g
        else List.zipWith (fun (row : List F32) (q : List F32 × F32) => epiRow (fEpi x) row q.1 gv q.2) g
          (List.zip (chunksOf cols.length (rows.length + 1) ev) (if fEpi x ≥ 2 then rv else rows.map fun _ => 0))
      let d := ctx.d
      let upd (d : Dev) (cn : Counts) : Dev := onRun d t .fuller fun r => { r with
        counts := cn, note := ctx.note, fetched := [], work := { r.work with step := p + 1, down := 0, stall := false } }
      let ksteps := (if dOpcode x = 3 then fBatches x r * s.k else s.k) + (if fwd then fNOut x else 0)
        + (if dOpcode x = 4 then 0 else rank)
      let d := count d 0 t 0x100 ksteps (some (runPolder d t r))
      let d := if tg = 0 then d else count d 0 t 0x105 tg (some (runPolder d t r))
      if fOutMode x = 0 then
        let cells := (List.zip rows g).flatMap fun q => (List.zip cols q.2).map fun e => (cIx q.1 e.1, e.2)
        let formed := cells.map fun e =>
          (e.1, if dOpcode x = 4 then downElem (fAlpha x) e.2 else outCode c (fConv x) e.2)
        match writeList t .fuller r c d 0 (formed.map fun e => (e.1, e.2.1)) with
        | (d, some (code, _)) => partRun d t .fuller code p
        | (d, none) => upd d (countAll cn (formed.map fun e => e.2.2))
      else
        let pad (l : List F32) : List F32 := l ++ List.replicate (64 - l.length) 0
        let data := (g.map pad).flatten ++ List.replicate (64 * (32 - rows.length)) 0
        let o : OutTile := ⟨BitVec.ofNat 16 (fld x 463 448), BitVec.ofNat 16 (fld x 479 464), b, mt, nt, rows.length, cols.length,
          decide (p + 1 = fPasses x r), data⟩
        let d := upd d cn
        if r.gone.isSome then d
        else if (tileOf d t).banks = [] ∧ (tileOf d t).handoff.length < 16 then
          onTile d t fun y => { y with handoff := y.handoff ++ [o] }
        else onTile d t fun y => { y with banks := y.banks ++ [o] }

/-- The end of an operation whose last tile is drained (R107, R174, R194). -/
def fullerDone (d : Dev) (t : Nat) : Dev :=
  match runOf d t .fuller with
  | none => d
  | some r =>
    if r.begun ∧ r.ended = none ∧ r.work.step = fPasses r.q.desc r ∧ (tileOf d t).banks = [] then
      match r.gone, r.note with
      | some m, _ => partRun d t .fuller 0x0424 m
      | none, some (c, m) => partRun d t .fuller c m
      | none, none => doneRun d t .fuller (fPasses r.q.desc r)
    else d

/-- No k-step is issued: both banks wait, or a down pass finished while one does (R106). -/
def banksHeld (d : Dev) (t : Nat) (r : RunOp) : Bool :=
  2 ≤ (tileOf d t).banks.length || (r.work.stall && (tileOf d t).banks ≠ [])

/-- A pass finishes its k-steps: a down pass fills the adapter buffer (R103), and the bank of an output tile drains (R90). -/
def fullerPassEnd (d : Dev) (t : Nat) : Dev :=
  match runOf d t .fuller with
  | none => d
  | some r =>
    if !r.begun ∨ r.ended ≠ none ∨ fPasses r.q.desc r ≤ r.work.step ∨ banksHeld d t r then d
    else
      match polderOf d (runPolder d t r) with
      | none => d
      | some px => if downDue r.q.desc r then fullerDown d t r px else fullerDone (fullerPass d t r px) t

/-- A held bank drains into an entry that has freed (R106). -/
def bankDrain (d : Dev) (t : Nat) : Dev :=
  match (tileOf d t).banks with
  | [] => d
  | o :: rest =>
    if (tileOf d t).handoff.length < 16 then
      let d := onRun d t .fuller fun r => { r with work := { r.work with stall := false } }
      fullerDone (onTile d t fun y => { y with banks := rest, handoff := y.handoff ++ [o] }) t
    else d

/-- The Fuller stalls at the hand-off queue: no k-step is issued, or a bank is held after the last pass (R106). -/
def handoffStalled (d : Dev) (t : Nat) (r : RunOp) : Bool :=
  banksHeld d t r || ((tileOf d t).banks ≠ [] && r.work.step = fPasses r.q.desc r)

/-- A continuous hand-off stall reaches hs_limit (R106). -/
def stallLimit (d : Dev) (t : Nat) : Dev :=
  match runOf d t .fuller with
  | none => d
  | some r =>
    if r.begun ∧ r.ended = none ∧ fHsLimit r.q.desc ≠ 0 ∧ handoffStalled d t r then
      let n := r.work.step - (tileOf d t).banks.length
      partRun (onTile d t fun y => { y with banks := [] }) t .fuller 0x0425 n
    else d

def execMatmul (t : TileNo) (s : State) : Out := onDev s fun d => fullerStart d t.toNat 1
def execBwdData (t : TileNo) (s : State) : Out := onDev s fun d => fullerStart d t.toNat 2
def execBwdWeight (t : TileNo) (s : State) : Out := onDev s fun d => fullerStart d t.toNat 3
def execAdapterDown (t : TileNo) (s : State) : Out := onDev s fun d => fullerStart d t.toNat 4
def execFullerPassEnd (t : TileNo) (s : State) : Out := onDev s fun d => fullerPassEnd d t.toNat
def execHandoffBankDrain (t : TileNo) (s : State) : Out := onDev s fun d => bankDrain d t.toNat
def execHandoffStallLimit (t : TileNo) (s : State) : Out := onDev s fun d => stallLimit d t.toNat

end Sys2Proof.Machine
end

