-- ==== Sys2Proof/Machine/Quant.lean ====
section
/-! DEFINITION. What the Napper does for itself and for the Steamer and the Blocker: forming scales (R157, R163), encoding
elements (R168, R172) and writing side lists (R170, R171). -/

namespace Sys2Proof.Machine

/-! ### Maxima and scales -/

/-- A magnitude rounded toward +∞ to BF16, a finite one held at 0x7F7F (R157). -/
def magUp (x : F32) : Nat :=
  let m := x.toNat % 2 ^ 31
  min 0x7F7F (m / 2 ^ 16 + b2n (decide (m % 2 ^ 16 ≠ 0)))

/-- An observed maximum merged into a register's pending maximum (R159). -/
def mergePend (d : Dev) (t n : Nat) (x : F32) : Dev :=
  onScale d t n fun y => putFld y 47 32 (max (srPend y).toNat (magUp x))

/-- The scale that a maximum and a margin code give a format, when it is a positive normal finite value (R163). -/
def formScale (f : Fmt) (a : F32) (mg : Nat) : Option F32 :=
  let t := rne32 ((val32 a).mul (.fin false (64 + mg) (-6)))
  let s : F32 :=
    if f.isFp8 then
      match val32 t, val32 (topOf f) with
      | .fin false m e, .fin _ n g =>
        if m = 0 then 0
        else
          let l := floorLog2Q m n
          let exact := if 0 ≤ l then shl2 n l = m else n = shl2 m (-l)
          rne32 (.fin false 1 (l + (if exact then 0 else 1) + e - g))
      | _, _ => 0
    else fdiv t (topOf f)
  if scaleOk s then some s else none

/-- FP8 scales that are read and not formed (R125, R167). -/
def fp8ScaleErr (d : Dev) (t : Nat) (z : TDesc) : Option Code :=
  if tSrefKind z = 0 then none
  else if tSrefKind z ≠ 1 then some 0x0426
  else req ((snapScales d t z).all pow2Ok) 0x0426

/-! ### One element (R168) -/

/-- The zero code of a format. -/
def zeroCode (f : Fmt) : Nat := if f = .u8l then 0xFF else 0

/-- The escape code of N4 and N8. -/
def escCode (f : Fmt) : Nat := if f = .n4 then 8 else 0x80

/-- A value divided by a power-of-two scale, exactly. -/
def divPow2 (v : FVal) (s : F32) : FVal :=
  match v with
  | .fin n m e => .fin n m (e - (val32 s).ilog2)
  | v => v

/-- decode_fp32: a code's value under a scale, rounded once to FP32 (R52, R168). -/
def decode32 (f : Fmt) (scaled : Bool) (s : F32) (code : Nat) : F32 :=
  match f.float? with
  | some F => rne32 (if scaled then (F.decode code).mul (val32 s) else F.decode code)
  | none => rne32 ((codeVal f code s).getD .nan)

/-- What the encode of an element gives. -/
structure EncOut where
  code : Nat
  cls : Cls
  /-- the new residual -/
  enew : F32
  /-- the entry for the side list -/
  side : Option B16 := none
  /-- an escape that found the list full -/
  full : Bool := false
  /-- the value for the outlier tensor -/
  out : Option B16 := none
  deriving DecidableEq, Repr

/-- The element is beyond the escape threshold k × top × s. -/
def pastTop (f : Fmt) (esc : Nat) (s xp : F32) : Bool :=
  esc ≠ 0 && (((val32 (topOf f)).mul (val32 s)).mul (.fin false (2 ^ (esc - 1)) 0)).lt (val32 xp).abs

/-- The encode of xp (R168). -/
def encElem (f : Fmt) (scaled : Bool) (s : F32) (conv esc : Nat) (room listed : Bool) (xp : F32) : EncOut :=
  if !ffinite xp then
    ⟨zeroCode f, .nonfin, 0, none, false, if listed then some (BitVec.ofNat 16 (bf16.rne (val32 xp))) else none⟩
  else if listed then
    let ov := bf16RneSat (val32 xp)
    ⟨zeroCode f, if (val32 xp).isZero then .none else .flush, rne32 ((val32 xp).sub (val16 ov)), none, false, some ov⟩
  else if pastTop f esc s xp && room then
    let ev := bf16RneSat (val32 xp)
    ⟨escCode f, .none, rne32 ((val32 xp).sub (val16 ev)), some ev, false, none⟩
  else
    let p : Nat × Cls :=
      match f.float? with
      | some F => F.conv conv (if scaled then divPow2 (val32 xp) s else val32 xp)
      | none => codeEncode f (val32 xp) s
    ⟨p.1, p.2, fsub xp (decode32 f scaled s p.1), none, pastTop f esc s xp, none⟩

/-! ### A tensor being encoded -/

/-- The settings of an encode. -/
structure EncSet where
  td : TDesc
  snap : List F32
  esc : Nat
  conv : Nat
  cap : Nat
  amx : Bool
  deriving DecidableEq, Repr

/-- The encode rewrites the tensor's side list: one in a format with escapes that names a list (R85, R171, R172). -/
def EncSet.sided (z : EncSet) : Bool := tSide z.td && (fmtOf z.td = .n4 || fmtOf z.td = .n8)

/-- An observed magnitude entered. -/
def EncAcc.see (a : EncAcc) (i : Nat) (x : F32) : EncAcc :=
  { a with obs := NMap.upd a.obs 0 i fun o => if flt o (fabs x) then fabs x else o }

/-- An element's outcome entered: its class, its escape, its overflow (R171, R178). -/
def EncAcc.put (a : EncAcc) (row c : Nat) (o : EncOut) : EncAcc :=
  let a := { a with counts := (a.counts.add o.cls).addTg (b2n o.side.isSome) }
  let a := if o.full then { a with overflow := a.overflow + 1 } else a
  match o.side with
  | some v => { a with entries := (row, c, v) :: a.entries }
  | none => a

/-- The scale of an element of the destination, none where the tensor is unscaled FP8. -/
def encScale (d : Dev) (acc : Acc) (r : RunOp) (e : EncSet) (ix : List Nat) : Dev × Except Code (Option F32) :=
  if tSrefKind e.td = 0 then (d, .ok none)
  else
    match scaleAt d acc r e.td e.snap (scaleIdx e.td ix) with
    | (d, .ok s) => if scaleOk s then (d, .ok (some s)) else (d, .error 0x0405)
    | (d, .error c) => (d, .error c)

/-- One element encoded and written at its place: the new residual and outlier value come back. -/
def encWrite (d : Dev) (t : Nat) (e : EngineId) (r : RunOp) (z : EncSet) (a : EncAcc) (listed : Bool) (ix : List Nat) (xp : F32) :
    Dev × EncAcc × Except Code EncOut :=
  match encScale d (runAcc d t r) r z ix with
  | (d, .error c) => (d, a, .error c)
  | (d, .ok s) =>
    let o := encElem (fmtOf z.td) s.isSome (s.getD one32) z.conv z.esc (decide (a.entries.length < z.cap)) listed xp
    match writeAt d t e r z.td ix o.code with
    | (d, some c) => (d, a, .error c)
    | (d, none) =>
      let a := a.put (tRow z.td ix) (ix.getD 0 0) o
      let a := if ffinite xp && !listed then a.see (scaleIdx z.td ix) xp else a
      (d, a, .ok o)

/-- The order of side-list entries: by row, then by index. -/
def entryLe (a b : Nat × Nat × B16) : Bool := a.1 < b.1 || (a.1 = b.1 && a.2.1 ≤ b.2.1)

def entryInsert (x : Nat × Nat × B16) : List (Nat × Nat × B16) → List (Nat × Nat × B16)
  | [] => [x]
  | y :: l => if entryLe x y then x :: y :: l else y :: entryInsert x l

def entrySort : List (Nat × Nat × B16) → List (Nat × Nat × B16)
  | [] => []
  | x :: l => entryInsert x (entrySort l)

/-- The whole side list rewritten: header, directory, entries (R170, R171). -/
def writeSide (d : Dev) (t : Nat) (e : EngineId) (r : RunOp) (z : EncSet) (a : EncAcc) : Dev × Option Code :=
  let td := z.td
  let rows := tRows td
  let l := entrySort a.entries
  let dev := (tDev td).toNat
  let hdr := toBytes 4 z.cap ++ toBytes 4 l.length ++ toBytes 4 rows ++ toBytes 4 (min 0xFFFFFFFF a.overflow) ++ zeros 48
  let dir := (List.range (rows + 1)).flatMap fun i => toBytes 4 (l.filter fun x => x.1 < i).length
  let ent := l.flatMap fun x => toBytes 4 (x.2.1 % 2 ^ 24) ++ toBytes 4 x.2.2.toNat
  match writeRng d t e r dev (tAux td) hdr with
  | (d, some c) => (d, some c)
  | (d, none) =>
    match writeRng d t e r dev (tAux td + 64) dir with
    | (d, some c) => (d, some c)
    | (d, none) => if ent = [] then (d, none) else writeRng d t e r dev (tAux td + sideEntries td) ent

/-- An encode closes: its side list written where it has one, its maxima merged, its escapes counted as an event. -/
def encClose (d : Dev) (t : Nat) (e : EngineId) (r : RunOp) (z : EncSet) (a : EncAcc) : Dev × Option Code :=
  let (d, st) := if z.sided then writeSide d t e r z a else (d, none)
  let d := if z.amx then a.obs.foldl (fun d p => mergePend d t (tSrefReg z.td + p.1) p.2) d else d
  (if a.entries = [] then d else count d 0 t 0x210 a.entries.length (some (runPolder d t r)), st)

/-- The capacity in a side list's header, as it stands in memory or was fetched (R170). -/
def sideCap (d : Dev) (r : RunOp) (td : TDesc) : Nat := leAt (peekRng d r ⟨(tDev td).toNat, tAux td, 4⟩) 0 4

/-- The ranges an encode needs from another device: partial words, scales, the side list's header and partial directory
word. -/
def encRngs (d : Dev) (z : EncSet) : List Rng :=
  let td := z.td
  let dev := (tDev td).toNat
  tEdges d td (fmtOf td).width ++ (if dev = selfId d then [] else scaleRngs td)
    ++ (if !z.sided ∨ dev = selfId d then []
        else ⟨dev, tAux td, 8⟩ :: edgeRngs d ⟨dev, tAux td + 64, 4 * (tRows td + 1)⟩)

/-- The status of the side list that an encode rewrites: its region through capacity lies in the windows (R171). -/
def encSideErr (d : Dev) (x : Polder) (r : RunOp) (td : TDesc) : Option Code :=
  if (tDev td).toNat = selfId d then
    (rngErr d x (tAux td) 64).or (rngErr d x (tAux td) (sideLen td (sideCap d r td)))
  else none

/-- The settings of an encode fed by the Steamer or by the Blocker (R172). -/
def autoEnc (d : Dev) (t : Nat) (r : RunOp) (td : TDesc) : EncSet :=
  { td := td, snap := snapScales d t td
    esc := if (fmtOf td = .n4 ∨ fmtOf td = .n8) ∧ tSide td then 1 else 0
    conv := 0, cap := sideCap d r td, amx := tSrefKind td = 1 }

end Sys2Proof.Machine
end

