-- ==== Sys2Proof/Machine/Transc.lean ====
section
/-! DEFINITION. The transcendental functions of R133, R295 and R296, correctly rounded: each is enclosed between two
fixed-point bounds whose precision doubles until both bounds round to the same FP32 value. Arguments whose result is
exact are taken apart first, so that the enclosure always separates. -/

namespace Sys2Proof.Machine

/-- An enclosure: bounds in units of 2^−p for a precision p that the functions carry. -/
abbrev Iv := Int × Int

/-- Floor and ceiling of x / 2^k. -/
def fl (x : Int) (k : Nat) : Int := x >>> k
def cl (x : Int) (k : Nat) : Int := -((-x) >>> k)

def Iv.add (a b : Iv) : Iv := (a.1 + b.1, a.2 + b.2)
def Iv.neg (a : Iv) : Iv := (-a.2, -a.1)
def Iv.sub (a b : Iv) : Iv := a.add b.neg

/-- The product of two enclosures. -/
def Iv.mul (p : Nat) (a b : Iv) : Iv :=
  let x := a.1 * b.1; let y := a.1 * b.2; let z := a.2 * b.1; let w := a.2 * b.2
  (fl (min (min x y) (min z w)) p, cl (max (max x y) (max z w)) p)

/-- An enclosure divided by a positive number. -/
def Iv.divN (a : Iv) (n : Nat) : Iv := (a.1 / n, -((-a.2) / n))

/-- An enclosure times a number. -/
def Iv.smul (a : Iv) (n : Int) : Iv := if 0 ≤ n then (a.1 * n, a.2 * n) else (a.2 * n, a.1 * n)

/-- The quotient of a non-negative enclosure by a positive one. -/
def Iv.div (p : Nat) (a b : Iv) : Iv := ((a.1 * 2 ^ p) / b.2, -((-(a.2 * 2 ^ p)) / b.1))

/-- The enclosure of num / den (den positive). -/
def Iv.ofQ (p : Nat) (num : Int) (den : Nat) : Iv := ((num * 2 ^ p) / den, -((-(num * 2 ^ p)) / den))

/-- The enclosure of m · 2^e. -/
def Iv.ofDy (p : Nat) (m : Int) (e : Int) : Iv :=
  let k := e + p
  if 0 ≤ k then (m * 2 ^ k.toNat, m * 2 ^ k.toNat) else (fl m (-k).toNat, cl m (-k).toNat)

/-- Σ z^(2k+1) / (2k+1), alternating when alt; n bounds the number of terms, and the remainder is covered by the last
term's width. -/
def oddSeries (p : Nat) (alt : Bool) (z2 : Iv) : Nat → Nat → Iv → Iv → Iv
  | 0, _, t, s => s.add (-(max t.1.natAbs t.2.natAbs + 2 : Nat), (max t.1.natAbs t.2.natAbs + 2 : Nat))
  | n + 1, k, t, s =>
    if t.1.natAbs ≤ 1 ∧ t.2.natAbs ≤ 1 then s.add (-4, 4)
    else
      let d := t.divN (2 * k + 1)
      oddSeries p alt z2 n (k + 1) (t.mul p z2) (if alt && k % 2 = 1 then s.sub d else s.add d)

/-- atanh of a small enclosure. -/
def atanhIv (p : Nat) (z : Iv) : Iv := oddSeries p false (z.mul p z) p 0 z (0, 0)

/-- ln 2 = 2 atanh(1/3). -/
def ln2Iv (p : Nat) : Iv := (atanhIv p (Iv.ofQ p 1 3)).smul 2

/-- π by Machin's formula. -/
def piIv (p : Nat) : Iv :=
  let at_ (n : Nat) : Iv := let z := Iv.ofQ p 1 n; oddSeries p true (z.mul p z) p 0 z (0, 0)
  ((at_ 5).smul 16).sub ((at_ 239).smul 4)

/-- Σ r^n / n! from the n-th term t on, for r in [0, 1). -/
def expSeries (p : Nat) (r : Iv) : Nat → Nat → Iv → Iv → Iv
  | 0, _, t, s => s.add (0, 2 * t.2 + 4)
  | f + 1, n, t, s =>
    if t.2 ≤ 1 then s.add (0, 4)
    else expSeries p r f (n + 1) ((t.mul p r).divN n) (s.add t)

/-- e^a as an enclosure and a power of two. -/
def expIv (p : Nat) (a : Iv) : Iv × Int :=
  let l := ln2Iv p
  let k := a.1 / l.2
  let r := a.sub (l.smul k)
  let r : Iv := (max r.1 0, max r.2 0)
  (expSeries p r (p + 64) 1 (2 ^ p, 2 ^ p) (0, 0), k)

/-- ln of the positive number m · 2^e. -/
def lnIv (p : Nat) (m : Nat) (e : Int) : Iv :=
  let k : Int := m.log2
  -- m / 2^k lies in [1, 2); above 3/2 it is halved, so that no cancellation occurs near 1
  let up := 3 * 2 ^ m.log2 < 2 * m
  let d : Nat := if up then 2 ^ (m.log2 + 1) else 2 ^ m.log2
  let k' : Int := if up then k + 1 else k
  let z := Iv.ofQ p ((m : Int) - (d : Int)) (m + d)
  ((atanhIv p z).smul 2).add ((ln2Iv p).smul (k' + e))

/-- The FP32 value that both ends of a non-negative enclosure times 2^e round to. -/
def settle (neg : Bool) (a : Iv) (e : Int) : Option F32 :=
  if a.1 < 0 then none
  else
    let x := fp32.rneQ neg a.1.toNat 1 e
    if x = fp32.rneQ neg a.2.toNat 1 e then some (BitVec.ofNat 32 x) else none

/-- The first precision at which the enclosure settles. -/
def ziv (fn : Nat) (x : F32) (f : Nat → Option F32) : F32 :=
  match f 192, f 384, f 768, f 1536 with
  | some r, _, _, _ => r
  | none, some r, _, _ => r
  | none, none, some r, _ => r
  | none, none, none, some r => r
  | none, none, none, none => Config.unsettled fn x

/-- A finite value as an enclosure. -/
def FVal.iv (p : Nat) : FVal → Iv
  | .fin n m e => Iv.ofDy p (signed n m) e
  | _ => (0, 0)

/-- The value is beyond a magnitude bound. -/
def FVal.beyond (x : FVal) (n : Nat) : Bool := (FVal.fin false n 0).lt x.abs

/-- e^x (R141 EXP). -/
def fexp (x : F32) : F32 :=
  match val32 x with
  | .nan => nan32
  | .inf n => if n then 0 else inf32
  | v => if v.isZero then one32
    else if v.beyond 200 then (if v.isNeg then 0 else inf32)
    else ziv 1 x (fun p => let (a, k) := expIv p (v.iv p); settle false a (k - p))

/-- 2^x (R141 EXP2). -/
def fexp2 (x : F32) : F32 :=
  match val32 x with
  | .nan => nan32
  | .inf n => if n then 0 else inf32
  | v => if v.isZero then one32
    else if v.beyond 300 then (if v.isNeg then 0 else inf32)
    else
      match v with
      | .fin n m e =>
        let s := signed n m
        let k := if 0 ≤ e then s * 2 ^ e.toNat else fl s (-e).toNat
        let whole := 0 ≤ e ∨ s % (2 ^ (-e).toNat) = 0
        if whole then rne32 (.fin false 1 k)
        else ziv 2 x (fun p =>
          let fr := Iv.sub (Iv.ofDy p s e) (k * 2 ^ p, k * 2 ^ p)
          let (a, j) := expIv p (fr.mul p (ln2Iv p)); settle false a (k + j - p))
      | _ => nan32

/-- ln x (R141 LOG). -/
def flog (x : F32) : F32 :=
  match val32 x with
  | .nan => nan32
  | .inf n => if n then nan32 else inf32
  | .fin n m e =>
    if m = 0 then ninf32
    else if n then nan32
    else if x = one32 then 0
    else ziv 3 x (fun p =>
      let a := lnIv p m e
      if 0 ≤ a.1 then settle false a (-p) else if a.2 ≤ 0 then settle true a.neg (-p) else none)

/-- tanh x (R141 TANH). -/
def ftanh (x : F32) : F32 :=
  match val32 x with
  | .nan => nan32
  | .inf n => if n then fneg one32 else one32
  | v =>
    if v.abs.lt (.fin false 1 (-12)) then fcanon x
    else if v.beyond 20 then (if v.isNeg then fneg one32 else one32)
    else ziv 4 x (fun p =>
      let (a, k) := expIv p ((v.abs.iv p).smul 2)
      let ee : Iv := (a.1 * 2 ^ k.toNat, a.2 * 2 ^ k.toNat)
      let one : Iv := (2 ^ p, 2 ^ p)
      settle v.isNeg ((ee.sub one).div p (ee.add one)) (-p))

/-- 1 / (1 + e^−x) (R141 SIGMOID). -/
def fsigmoid (x : F32) : F32 :=
  match val32 x with
  | .nan => nan32
  | .inf n => if n then 0 else one32
  | v =>
    if v.isZero then 0x3F000000
    else if v.beyond 120 then (if v.isNeg then 0 else one32)
    else ziv 5 x (fun p =>
      -- with E = e^−|x|: 1 / (1 + E) above zero, E / (1 + E) below
      let (a, k) := expIv p (v.abs.iv p).neg
      let ee : Iv := (fl a.1 (-k).toNat, cl a.2 (-k).toNat)
      let one : Iv := (2 ^ p, 2 ^ p)
      if v.isNeg then settle false (a.div p (ee.add one)) (k - p)
      else settle false (one.div p (ee.add one)) (-p))

/-- e^(−x²/2) / √(2π) as an enclosure and a power of two. -/
def phiIv (p : Nat) (v : FVal) : Iv × Int :=
  let x := v.iv p
  let (a, k) := expIv p ((x.mul p x).divN 2).neg
  let t := (piIv p).smul 2
  let root : Iv := (isqrt (t.1.toNat * 2 ^ p), isqrt (t.2.toNat * 2 ^ p) + 1)
  (a.div p root, k)

/-- The density φ of the normal distribution (R133). -/
def fphi (x : F32) : F32 :=
  match val32 x with
  | .nan => nan32
  | .inf _ => 0
  | v => if v.beyond 20 then 0
    else ziv 6 x (fun p => let (a, k) := phiIv p v; settle false a (k - p))

/-- Σ x^(2n+1) / (1·3·…·(2n+1)), whose terms rise before they fall. -/
def cdfSeries (p : Nat) (x2 : Iv) : Nat → Nat → Iv → Iv → Iv
  | 0, _, t, s => s.add (0, 2 * t.2 + 4)
  | f + 1, n, t, s =>
    if t.2 ≤ 1 then s.add (0, 8)
    else cdfSeries p x2 f (n + 1) ((t.mul p x2).divN (2 * n + 3)) (s.add t)

/-- The distribution function Φ of the normal distribution (R133). -/
def fcdf (x : F32) : F32 :=
  match val32 x with
  | .nan => nan32
  | .inf n => if n then 0 else one32
  | v =>
    if v.isZero then 0x3F000000
    else if v.beyond 15 then (if v.isNeg then 0 else one32)
    else ziv 7 x (fun p =>
      let p' := p + 256
      let y := v.abs.iv p'
      let (a, k) := phiIv p' v
      let d : Iv := (fl a.1 (-k).toNat, cl a.2 (-k).toNat)
      let s := d.mul p' (cdfSeries p' (y.mul p' y) (4 * p') 0 y (0, 0))
      let half : Iv := (2 ^ (p' - 1), 2 ^ (p' - 1))
      settle false (if v.isNeg then half.sub s else half.add s) (-p'))

/-- cos as an alternating series in x². -/
def cosSeries (p : Nat) (x2 : Iv) : Nat → Nat → Iv → Iv → Iv
  | 0, _, t, s => s.add (-(t.2.natAbs + 2 : Nat), (t.2.natAbs + 2 : Nat))
  | f + 1, n, t, s =>
    if t.2 ≤ 1 then s.add (-4, 4)
    else cosSeries p x2 f (n + 1) ((t.mul p x2).divN ((2 * n + 1) * (2 * n + 2))) (if n % 2 = 0 then s.add t else s.sub t)

/-- cos(π·u/T) for 0 ≤ u < T, correctly rounded on the exact argument (R295). -/
def fcosPi (u T : Nat) : F32 :=
  if u = 0 then one32
  else if 2 * u = T then 0
  else if 3 * u = T then 0x3F000000
  else if 3 * u = 2 * T then 0xBF000000
  else ziv 8 (BitVec.ofNat 32 u) (fun p =>
    let x := ((piIv p).smul u).divN T
    let c := cosSeries p (x.mul p x) p 0 (2 ^ p, 2 ^ p) (0, 0)
    if 0 ≤ c.1 then settle false c (-p) else if c.2 ≤ 0 then settle true c.neg (-p) else none)

/-- b^n for 0 ≤ b ≤ 1 and a natural exponent, correctly rounded (R295, R296). -/
def fpowN (b : F32) (n : Nat) : F32 :=
  match val32 b with
  | .fin _ m e =>
    if n = 0 then one32
    else if m = 0 then 0
    else
      let tz := largest 24 (fun i => m % 2 ^ i = 0)
      let m' := m / 2 ^ tz
      let e' := e + tz
      if m' = 1 then rne32 (.fin false 1 (e' * n))
      else if n ≤ 128 then rne32 (.fin false (m' ^ n) (e' * n))
      else ziv 9 b (fun p =>
        let a := (lnIv (p + 64) m' e').smul n
        if a.2 < -(200 * 2 ^ (p + 64)) then some 0
        else let (x, k) := expIv (p + 64) a; settle false x (k - (p + 64 : Nat)))
  | _ => nan32

end Sys2Proof.Machine
end

