-- ==== Sys2Proof/Machine/Steamer.lean ====
section
/-! DEFINITION. The Steamer (file 06): element functions, reductions and row operations from memory or from the hand-off
queue, with masks, summaries and the band order; and the end of an engine's operation, which tells a Steamer operation that
its producer is gone. -/

namespace Sys2Proof.Machine

/-! ### Descriptor fields (R136) -/

def sImm (x : BitVec 1024) : Nat := fld x 415 384
def sConv (x : BitVec 1024) : Nat := fld x 419 416
def sFunc (x : BitVec 1024) : Nat := fld x 427 420
def sRdim (x : BitVec 1024) : Nat := fld x 430 428
def sImmBf (x : BitVec 1024) : Bool := flag x 431
def sSrc (x : BitVec 1024) : Bool := flag x 432
def sRowb (x : BitVec 1024) (k : Nat) : Bool := flag x (433 + k)
def sMask (x : BitVec 1024) : Nat := fld x 437 436
def sPost (x : BitVec 1024) : Bool := flag x 438
def sSreg (x : BitVec 1024) : Nat := fld x 444 439
def sSkind (x : BitVec 1024) : Nat := fld x 448 445
def sMoff (x : BitVec 1024) : Int := sext 24 (fld x 472 449)
def sHwLimit (x : BitVec 1024) : Nat := fld x 480 473

/-- i0 and i1 (R143). -/
def sI0 (x : BitVec 1024) : F32 := if sImmBf x then rne32 (val16 (BitVec.ofNat 16 (sImm x))) else BitVec.ofNat 32 (sImm x)
def sI1 (x : BitVec 1024) : F32 := rne32 (val16 (BitVec.ofNat 16 (sImm x / 2 ^ 16)))

/-- MAP and the reductions, the reductions, and the row operations (R135). -/
def sMapRed (x : BitVec 1024) : Bool := dOpcode x ≤ 5
def sRed (x : BitVec 1024) : Bool := 2 ≤ dOpcode x && dOpcode x ≤ 5
def sRowOp (x : BitVec 1024) : Bool := 6 ≤ dOpcode x

/-! ### Functions (R141) -/

/-- Whether a function uses y and w. -/
def fnUses : Nat → Bool × Bool
  | 0x01 | 0x02 | 0x03 | 0x04 | 0x06 | 0x09 | 0x0A | 0x11 | 0x13 | 0x1E => (true, false)
  | 0x05 | 0x10 | 0x12 => (true, true)
  | _ => (false, false)

/-- Whether a function is marked T. -/
def fnT (c : Nat) : Bool := c = 0x04 || (0x14 ≤ c && c ≤ 0x1E)

/-- GELU, SILU and DGELU with their limits at the infinities (R133). -/
def gelu (x : F32) : F32 :=
  match val32 x with
  | .inf n => if n then 0x80000000 else inf32
  | _ => fmul x (fcdf x)

def silu (x : F32) : F32 :=
  match val32 x with
  | .inf n => if n then 0x80000000 else inf32
  | _ => fmul x (fsigmoid x)

def dgelu (x y : F32) : F32 :=
  match val32 x with
  | .inf n => fmul y (if n then 0x80000000 else one32)
  | _ => fmul y (ffma x (fphi x) (fcdf x))

/-- An element function on widened values (R141 to R143). -/
def stFunc (code : Nat) (x y w i0 i1 : F32) : F32 :=
  match code with
  | 0x00 => fcanon x
  | 0x01 => fadd x y
  | 0x02 => fsub x y
  | 0x03 => fmul x y
  | 0x04 => fdiv x y
  | 0x05 => ffma x y w
  | 0x06 => ffma i0 x y
  | 0x07 => fmul i0 x
  | 0x08 => fadd x i0
  | 0x09 => fmax x y
  | 0x0A => fmin x y
  | 0x0B => fmin (fmax x i0) i1
  | 0x0C => fabs x
  | 0x0D => fneg x
  | 0x0E => fmul x x
  | 0x0F => if fnan? x then nan32 else if flt 0 x then x else 0
  | 0x10 => if !fzero? w then fcanon x else fcanon y
  | 0x11 => if flt y x then one32 else 0
  | 0x12 => fmul y (fsub x w)
  | 0x13 => if flt 0 x then fcanon y else 0
  | 0x14 => fsqrt x
  | 0x15 => frsqrt x
  | 0x16 => fdiv one32 x
  | 0x17 => fexp x
  | 0x18 => fexp2 x
  | 0x19 => flog x
  | 0x1A => ftanh x
  | 0x1B => fsigmoid x
  | 0x1C => gelu x
  | 0x1D => silu x
  | _ => dgelu x y

/-! ### Reductions (R144, R145) -/

/-- The lowest index that holds the maximum, or the lowest that holds a NaN. -/
def argmaxGo : Nat × F32 → List (Nat × F32) → Nat × F32
  | b, [] => b
  | b, p :: l => argmaxGo (if !fnan? b.2 && (fnan? p.2 || ford b.2 p.2) then p else b) l

def argmax : List (Nat × F32) → Option Nat
  | [] => none
  | p :: l => some (argmaxGo p l).1

/-- A reduction of a sequence whose masked places are none. -/
def stReduce (op : Nat) (l : List (Option F32)) : F32 :=
  let live := l.filterMap id
  match op with
  | 2 => rowsum (l.map fun v => v.getD 0)
  | 3 => match live with | [] => ninf32 | a :: t => t.foldl fmax (fcanon a)
  | 4 => match live with | [] => inf32 | a :: t => t.foldl fmin (fcanon a)
  | _ =>
    match argmax ((List.zip (List.range l.length) l).filterMap fun p => p.2.map fun v => (p.1, v)) with
    | some i => fofNat i
    | none => fneg one32

/-! ### Row operations (R148 to R150) -/

/-- A row of SOFTMAX from its pre-scaled values, masked places none; whether the row is empty. -/
def softRow (xs : List (Option F32)) : List F32 × Bool :=
  let u := xs.filterMap id
  if u.all (fun v => v = ninf32) then (xs.map fun _ => 0, true)
  else if u.any fnan? then (xs.map fun _ => nan32, false)
  else
    let m := match u with | [] => ninf32 | a :: t => t.foldl fmax a
    if m = inf32 then
      let k := (u.filter fun v => v = inf32).length
      (xs.map fun v => if v = some inf32 then fdiv one32 (fofNat k) else 0, false)
    else
      let e := xs.map fun v => match v with | some v => fexp (fsub v m) | none => 0
      let r := fdiv one32 (rowsum e)
      (e.map fun v => fmul v r, false)

/-- d, and r, of a normalised row (R149). -/
def normRow (ln : Bool) (eps : F32) (xs : List F32) : List F32 × F32 :=
  let inv := fdiv one32 (fofNat xs.length)
  let d := if ln then (let mu := fmul (rowsum xs) inv; xs.map fun x => fsub x mu) else xs
  let v := fmul (rowsum (d.map fun x => fmul x x)) inv
  (d, frsqrt (fadd v eps))

/-! ### Shapes (R138) -/

/-- Tensors by place: X, Y, W, mask, Z, s, h. -/
def sTd (r : RunOp) (k : Nat) : TDesc := r.tds.getD k 0

def tShape (td : TDesc) : List Nat := (List.range (tNdims td)).map (tExt td)

/-- Whether a tensor is part of the operation. -/
def sHas (x : BitVec 1024) (k : Nat) : Bool :=
  let op := dOpcode x
  let on (hi lo : Nat) : Bool := (tdField x hi lo).isSome
  match k with
  | 0 => on 159 128
  | 1 => if sMapRed x then (fnUses (sFunc x)).1 else op ≠ 6
  | 2 => if sMapRed x then (fnUses (sFunc x)).2 else 8 ≤ op
  | 3 => sMask x = 2
  | 4 => if sMapRed x then on 255 224 else true
  | 5 => if op = 7 ∨ op = 8 then on 287 256 else 9 ≤ op
  | _ => (op = 7 || op = 8) && on 319 288

/-- The descriptor offsets in that order; none where the tensor has no part. -/
def sTdOfs (x : BitVec 1024) : List (Option Nat) :=
  let f (k hi lo : Nat) : Option Nat := if sHas x k then tdField x hi lo else none
  [f 0 159 128, f 1 191 160, f 2 223 192, f 3 351 320, f 4 255 224, f 5 287 256, f 6 319 288]

/-- A needed tensor is absent (R137). -/
def sAbsent (x : BitVec 1024) : Bool :=
  let gone (k hi lo : Nat) : Bool := sHas x k && (tdField x hi lo).isNone
  (tdField x 159 128).isNone || gone 1 191 160 || gone 2 223 192 || gone 3 351 320 || gone 4 255 224 || gone 5 287 256
    || (sMapRed x && !sHas x 4 && !sPost x)

/-- The operation's shape, and the shape of Z (R138). -/
def sShape (x : BitVec 1024) (r : RunOp) : List Nat :=
  if sHas x 4 then
    (if sRed x then (tShape (sTd r 4)).set (sRdim x) (tExt (sTd r 0) (sRdim x)) else tShape (sTd r 4))
  else tShape (sTd r 0)

def sOut (x : BitVec 1024) (r : RunOp) : List Nat := if sRed x then (sShape x r).set (sRdim x) 1 else sShape x r

/-- A tensor agrees with a shape: equal extents, or stride 0 where they differ. DESIGN CHOICE (log entry 64): a tensor that
rowb marks may repeat by stride 0 as well, which R138 neither allows nor refuses. -/
def agrees (td : TDesc) (sh : List Nat) : Bool :=
  tNdims td = sh.length && (List.range sh.length).all fun i => tExt td i = sh.getD i 1 || tStep td i = 0

/-- The shape that an input is held against: that of the rows for a row vector or a row statistic. -/
def sAgainst (x : BitVec 1024) (k : Nat) (sh : List Nat) : List Nat :=
  if k ≤ 2 && sRowb x k then sh.drop 1
  else if k = 5 then (if sh.length ≤ 1 then [1] else sh.drop 1)
  else sh

/-- Linear index in a shape, dimension 0 fastest, and the index vector of one. -/
def linOf (sh ix : List Nat) : Nat := ((List.zip sh ix).foldr (fun p a => p.2 + p.1 * a) 0)
def ixOf : List Nat → Nat → List Nat
  | [], _ => []
  | n :: sh, i => i % n :: ixOf sh (i / n)
def volume (sh : List Nat) : Nat := sh.foldl (· * ·) 1

/-! ### Checks -/

/-- Reserved encodings (R17, R50, R136, R141, R146). DESIGN CHOICE (log entry 64): R138 names no status for rdim 6 and 7;
they are refused as reserved, with 0x0402, and an rdim that the shape does not reach with 0x0430 (sErr). -/
def sReservedOk (x : BitVec 1024) : Bool :=
  fld x 1023 481 = 0 && !flag x 419 && sMask x ≠ 3 && (!sMapRed x || sFunc x ≤ 0x1E)
    && (!sRed x || sRdim x ≤ 5) && (!sPost x || (1 ≤ sSkind x && sSkind x ≤ 7))

/-- Checks of the tensors and immediates (R134 to R143, R149 to R152). DESIGN CHOICE (log entry 64): an rdim at or beyond the
shape's dimensions has 0x0430, which R138 does not name. DEDUCED (log entry 25): the scales of a Z in E4M3 or E5M2 follow
R125, as the Napper, which forms it, holds them under R167. -/
def sErr (d : Dev) (t : Nat) (pn : PolderNo) (px : Polder) (r : RunOp) : Option Code :=
  let x := r.q.desc
  let op := dOpcode x
  let ks := [0, 1, 2, 3, 4, 5, 6].filter (sHas x)
  let written (k : Nat) : Bool := k = 4 || k = 6 || (k = 5 && op ≤ 8)
  let one (k : Nat) : Option Code :=
    let td := sTd r k
    -- under src = 1 X gives the shape only (R136): it lies nowhere
    if k = 0 ∧ sSrc x then tdForm d pn td false else tdErr d pn px td (written k)
  let fmtErr (k : Nat) : Option Code :=
    let f := fmtOf (sTd r k)
    if tCmp (sTd r k) then some 0x0456
    else
      match k with
      | 3 => req f.float?.isSome 0x0404
      | 5 | 6 => req (f = .fp32) 0x0404
      | _ => none
  let sh := sShape x r
  firstErr (
    ks.map one ++ ks.map fmtErr
    ++ ks.map (fun k => if k = 0 ∧ sSrc x then none else refsErr d px (sTd r k))
    ++ [if sSrc x then
          req ((op = 1 || sRowOp x || ((op = 2 || op = 3 || op = 4) && sRdim x = 0)) && fmtOf (sTd r 0) = .fp32 && !sRowb x 0) 0x0431
        else none,
        if (!sHas x 4 ∨ sRed x) ∧ sRowb x 0 then some 0x0430 else none,
        if sRed x then
          req (sRdim x < sh.length && tNdims (sTd r 0) = sh.length && (!sHas x 4 || tExt (sTd r 4) (sRdim x) = 1)) 0x0430
        else none]
    ++ (ks.filter (· ≠ 4)).map (fun k =>
        if k = 6 then req (tShape (sTd r 6) = sh) 0x0430 else req (agrees (sTd r k) (sAgainst x k sh)) 0x0430)
    ++ [if 7 ≤ op ∧ sMask x ≠ 0 then some 0x0435 else none,
        if sMapRed x ∧ sFunc x = 0x0B then
          (req (sImmBf x) 0x0435).or (req (fle (sI0 x) (sI1 x)) 0x0436)
        else none,
        if op = 7 ∨ op = 8 then req (scaleOk (sI0 x)) 0x0436 else none,
        if sPost x then req (summOk px (sSreg x)) 0x0409 else none,
        if sHas x 4 ∧ (fmtOf (sTd r 4)).isFp8 then fp8ScaleErr d t (sTd r 4) else none]
    ++ (ks.filter (fun k => k ≤ 2 && !(k = 0 && sSrc x))).map (fun k => sideErr d px (sTd r k))
    ++ [if sHas x 4 ∧ (autoEnc d t r (sTd r 4)).sided then encSideErr d px r (sTd r 4) else none])

/-- The band buffer is needed, and where it lies (R152). -/
def sBandUsed (x : BitVec 1024) (sh : List Nat) : Bool := sSrc x && sRowOp x && 64 < sh.headD 1

def bandErr (d : Dev) (t : Nat) (px : Polder) (x : BitVec 1024) (sh : List Nat) : Option Code :=
  if sBandUsed x sh then
    let ofs := fld x 383 352
    let n := 8192 * ceilDiv (sh.headD 1) 64
    if ofs % 64 ≠ 0 then some 0x0406
    else if 2 ^ 20 < ofs + n ∨ !inShare d px t (t * 2 ^ 20 + ofs) (t * 2 ^ 20 + ofs + n) then some 0x0409
    else none
  else none

/-- The operation starts: fields, descriptors and checks (R93, R137). -/
def steamBegin (d : Dev) (t : Nat) (r : RunOp) : Dev :=
  let x := r.q.desc
  let pn := runPolder d t r
  match polderOf d pn with
  | none => d
  | some px =>
    if !sReservedOk x then refuse d t .steamer 0x0402
    else if sAbsent x then refuse d t .steamer 0x0435
    else
      match readTds d t px (runAcc d t r) (sTdOfs x) with
      | (d, .error c) => refuse d t .steamer c
      | (d, .ok tds) =>
        let r1 := { r with tds := tds }
        match (sErr d t pn px r1).or (bandErr d t px x (sShape x r1)) with
        | some c => refuse d t .steamer c
        | none =>
          onRun d t .steamer fun r => { r with
            tds := tds, begun := true, snaps := tds.map (snapScales d t) }

/-! ### Elements -/

/-- A Steamer operation as it runs: the device, a stop with the marker a scale error names, whether an escape without an
entry was met since last cleared, the encode and the progress. -/
structure SCtx where
  d : Dev
  stop : Option (Code × Option Nat) := none
  lost : Bool := false
  enc : EncAcc := {}
  st : SteamSt := {}

/-- What the elements are worked out from. -/
structure SEnv where
  t : Nat
  r : RunOp
  px : Polder
  acc : Acc
  sh : List Nat
  out : List Nat
  z : EncSet

def sEnv (d : Dev) (t : Nat) (r : RunOp) (px : Polder) : SEnv :=
  let x := r.q.desc
  let zt := sTd r 4
  { t := t, r := r, px := px, acc := runAcc d t r, sh := sShape x r, out := sOut x r
    z := { autoEnc d t r zt with snap := r.snaps.getD 4 [], conv := sConv x } }

/-- Z passes through the Napper: a code format, or E4M3 and E5M2 under a scale (R124, R134, R172). -/
def sCoded (td : TDesc) : Bool := (fmtOf td).isCode || ((fmtOf td).isFp8 && tSrefKind td ≠ 0)

/-- The index vector of an input's element at an index of the shape: row vectors and row statistics drop dimension 0, and a
dimension that repeats stays at 0 (R138). -/
def sIx (x : BitVec 1024) (r : RunOp) (sh : List Nat) (k : Nat) (ix : List Nat) : List Nat :=
  let ag := sAgainst x k sh
  let ix := if (k ≤ 2 && sRowb x k) || k = 5 then ix.drop 1 else ix
  (List.range 6).map fun i => if tExt (sTd r k) i = ag.getD i 1 then ix.getD i 0 else 0

/-- The element of a tensor at an index of the shape, widened to FP32 (R52, R138). -/
def sGet (e : SEnv) (c : SCtx) (k : Nat) (ix : List Nat) : SCtx × F32 :=
  match c.stop with
  | some _ => (c, nan32)
  | none =>
    let td := sTd e.r k
    let ix := sIx e.r.q.desc e.r e.sh k ix
    match elemAt c.d e.acc e.r td (e.r.snaps.getD k []) fp32 ix with
    | (d, .ok (v, lost)) => ({ c with d := d, lost := c.lost || lost }, rne32 v)
    | (d, .error s) =>
      ({ c with d := d, stop := some (s, if s = 0x0405 then some (scaleIdx td ix) else none) }, nan32)

/-- Several elements in turn. -/
def sGets (e : SEnv) (k : Nat) : SCtx → List (List Nat) → SCtx × List F32
  | c, [] => (c, [])
  | c, ix :: l =>
    let (c, v) := sGet e c k ix
    let (c, vs) := sGets e k c l
    (c, v :: vs)

/-- Whether an element is masked (R140). -/
def sMasked (e : SEnv) (c : SCtx) (ix : List Nat) : SCtx × Bool :=
  match sMask e.r.q.desc with
  | 1 => (c, decide ((ix.getD 1 0 : Int) + sMoff e.r.q.desc < (ix.getD 0 0 : Nat)))
  | 2 => let (c, v) := sGet e c 3 ix; (c, fzero? v)
  | _ => (c, false)

/-- A tensor element written as FP32 or under conv; the class when it counts. -/
def sPut (e : SEnv) (c : SCtx) (k : Nat) (ix : List Nat) (v : F32) : SCtx :=
  match c.stop with
  | some _ => c
  | none =>
    let td := sTd e.r k
    match writeAt c.d e.t .steamer e.r td ix v.toNat with
    | (d, some s) => { c with d := d, stop := some (s, none) }
    | (d, none) => { c with d := d }

/-- An element of Z formed and written, and counted as done (R133, R134, R162, R172). -/
def sOutZ (e : SEnv) (c : SCtx) (ix : List Nat) (v : F32) : SCtx :=
  match c.stop with
  | some _ => c
  | none =>
    let td := sTd e.r 4
    let n := linOf e.out ix
    let fin (c : SCtx) : SCtx :=
      { c with st := { c.st with done := n :: c.st.done
                                 miss := if c.lost then some (match c.st.miss with | some m => min m n | none => n) else c.st.miss } }
    if !sHas e.r.q.desc 4 then { c with st := { c.st with done := n :: c.st.done } }
    else
      if !sCoded td then
        let (code, k) := (((fmtOf td).float?).getD fp32).conv (sConv e.r.q.desc) (val32 v)
        match writeAt c.d e.t .steamer e.r td ix code with
        | (d, some s) => { c with d := d, stop := some (s, none) }
        | (d, none) => fin { c with d := d, enc := { c.enc with counts := c.enc.counts.add k } }
      else
        match encWrite c.d e.t .steamer e.r e.z c.enc false ix v with
        | (d, a, .ok _) => fin { c with d := d, enc := a }
        | (d, a, .error s) =>
          { c with d := d, enc := a, stop := some (s, if s = 0x0405 then some (scaleIdx td ix) else none) }

/-- A stage value entered (R146). -/
def sStage (e : SEnv) (c : SCtx) (ix : List Nat) (v : F32) : SCtx :=
  match c.stop with
  | some _ => c
  | none =>
    let n := linOf e.sh ix
    let miss := if c.lost && !sHas e.r.q.desc 4 then some (match c.st.miss with | some m => min m n | none => n) else c.st.miss
    { c with st := { c.st with stage := (n, v) :: c.st.stage, miss := miss } }

/-- A row seen, with whether it has an unmasked element here. -/
def sRow (e : SEnv) (c : SCtx) (ix : List Nat) (had : Bool) : SCtx :=
  let k := linOf (e.sh.drop 1) (ix.drop 1)
  { c with st := { c.st with rows := NMap.insert c.st.rows k (had || (NMap.find? c.st.rows k).getD false) } }

/-- The function result at an element, with X given or read (R141). -/
def sApply (e : SEnv) (c : SCtx) (ix : List Nat) (xv : Option F32) : SCtx × F32 :=
  let x := e.r.q.desc
  let (c, xv) := match xv with | some v => (c, v) | none => sGet e c 0 ix
  let (c, yv) := if sHas x 1 then sGet e c 1 ix else (c, 0)
  let (c, wv) := if sHas x 2 then sGet e c 2 ix else (c, 0)
  (c, stFunc (sFunc x) xv yv wv (sI0 x) (sI1 x))

/-- MAP at some elements in turn, X read or given with each (R139, R140). -/
def sMapGo (e : SEnv) : SCtx → List (List Nat × Option F32) → SCtx
  | c, [] => c
  | c, (ix, xv) :: l =>
    match c.stop with
    | some _ => c
    | none =>
      let (c, m) := sMasked e c ix
      let c := sRow e c ix (!m && c.stop.isNone)
      let c :=
        if c.stop.isSome then c
        else if m then { c with st := { c.st with done := linOf e.out ix :: c.st.done } }
        else
          let (c, v) := sApply e { c with lost := false } ix xv
          sOutZ e (sStage e c ix v) ix v
      sMapGo e c l

/-- The values gathered for an element of Z under a reduction, none at masked places. -/
def sSeq (sh : List Nat) (st : SteamSt) (rd : Nat) (oix : List Nat) : List (Option F32) :=
  (List.range (sh.getD rd 1)).map fun i => NMap.find? st.buf (linOf sh (oix.set rd i))

/-- A reduction at some elements in turn: an element of Z is formed when the last index of rdim is reached (R144, R145). -/
def sRedGo (e : SEnv) : SCtx → List (List Nat × Option F32) → SCtx
  | c, [] => c
  | c, (ix, xv) :: l =>
    match c.stop with
    | some _ => c
    | none =>
      let rd := sRdim e.r.q.desc
      let n := linOf e.sh ix
      let (c, m) := sMasked e c ix
      let c := sRow e c ix (!m && c.stop.isNone)
      let o := linOf e.out (ix.set rd 0)
      let c :=
        if c.stop.isSome ∨ m then c
        else
          let (c, v) := sApply e { c with lost := false } ix xv
          let c := sStage e c ix v
          -- an escape without an entry marks the element of Z that it enters (R174)
          let miss := if c.lost ∧ sHas e.r.q.desc 4 then some (match c.st.miss with | some q => min q o | none => o) else c.st.miss
          if c.stop.isSome then c else { c with lost := false, st := { c.st with buf := NMap.insert c.st.buf n v, miss := miss } }
      let c :=
        if c.stop.isNone ∧ ix.getD rd 0 + 1 = e.sh.getD rd 1 then
          let oix := ix.set rd 0
          let seq := sSeq e.sh c.st rd oix
          let c := sOutZ e { c with lost := false } oix (stReduce (dOpcode e.r.q.desc) seq)
          { c with st := { c.st with buf := c.st.buf.filter fun p => !((ixOf e.sh p.1).set rd 0 == oix) } }
        else c
      sRedGo e c l

def sPuts (e : SEnv) (k : Nat) : SCtx → List (List Nat × F32) → SCtx
  | c, [] => c
  | c, (ix, v) :: l => sPuts e k (sPut e c k ix v) l

def sOuts (e : SEnv) : SCtx → List (List Nat × F32 × Bool) → SCtx
  | c, [] => c
  | c, (ix, v, lost) :: l => sOuts e (sOutZ e { c with lost := lost } ix v) l

/-- The masks of a row. -/
def sMasks (e : SEnv) : SCtx → List (List Nat) → SCtx × List Bool
  | c, [] => (c, [])
  | c, ix :: l =>
    let (c, m) := sMasked e c ix
    let (c, ms) := sMasks e c l
    (c, m :: ms)

/-- X at the unmasked places of a row. -/
def sXs (e : SEnv) (xv : List Nat → Option F32) : SCtx → List (List Nat × Bool) → SCtx × List (Option F32)
  | c, [] => (c, [])
  | c, (ix, m) :: l =>
    let (c, v) := if m then (c, none) else
      match xv ix with
      | some v => (c, some v)
      | none => let (c, v) := sGet e c 0 ix; (c, some v)
    let (c, vs) := sXs e xv c l
    (c, v :: vs)

/-- γ or β of a row with the marks of escapes without an entry. -/
def sCol (e : SEnv) (k : Nat) : SCtx → List (List Nat) → SCtx × List (F32 × Bool)
  | c, [] => (c, [])
  | c, ix :: l =>
    let (c, v) := sGet e { c with lost := false } k ix
    let lost := c.lost
    let (c, vs) := sCol e k c l
    (c, (v, lost) :: vs)

/-- One row of a row operation; a row whose inputs meet an error is not written. -/
def sRowGo (e : SEnv) (c : SCtx) (ridx : List Nat) (xv : List Nat → Option F32) : SCtx :=
  let x := e.r.q.desc
  let op := dOpcode x
  let n := e.sh.headD 1
  let ixs := (List.range n).map fun j => j :: ridx
  let (c, ms) := sMasks e c ixs
  let (c, xs) := sXs e xv { c with lost := false } (List.zip ixs ms)
  let xlost := c.lost
  let stageAll (c : SCtx) (vs : List (Option F32)) : SCtx :=
    (List.zip ixs vs).foldl (fun c p => match p.2 with | some v => sStage e c p.1 v | none => c) c
  if c.stop.isSome then c
  else if op = 6 then
    let ps := xs.map fun v => v.map fun v => fmul (sI0 x) v
    let (o, empty) := softRow ps
    let c := sRow e c (0 :: ridx) (ps.any Option.isSome)
    let c := { c with st := { c.st with emptyRow := c.st.emptyRow || empty } }
    sOuts e (stageAll c ps) (List.zip ixs (o.map fun v => (v, xlost)))
  else
    let xf := xs.map fun v => v.getD 0
    let c0 := sRow e c (0 :: ridx) true
    if op ≤ 8 then
      let bad := xf.any fun v => !ffinite v
      let (dd, rr) := normRow (op = 8) (sI0 x) xf
      let rr := if bad then nan32 else rr
      let xh := if bad then xf.map fun _ => nan32 else dd.map fun v => fmul v rr
      let (c, g) := if bad then (c0, xf.map fun _ => (one32, false)) else sCol e 1 { c0 with lost := false } ixs
      let (c, b) := if bad ∨ op = 7 then (c, xf.map fun _ => ((0 : F32), false)) else sCol e 2 c ixs
      if c.stop.isSome then c
      else
        let o := List.zipWith (fun (h : F32) (p : (F32 × Bool) × (F32 × Bool)) =>
          (if bad then nan32 else if op = 8 then ffma h p.1.1 p.2.1 else fmul h p.1.1, xlost || p.1.2 || p.2.2)) xh (List.zip g b)
        let c := sOuts e (stageAll { c with lost := xlost } xs) (List.zip ixs o)
        let c := if sHas x 6 then sPuts e 6 c (List.zip ixs xh) else c
        if sHas x 5 then sPut e c 5 ridx rr else c
    else
      let (c, xh) := sCol e 1 { c0 with lost := false } ixs
      let (c, g) := sCol e 2 c ixs
      let (c, rr) := sGet e c 5 (0 :: ridx)
      if c.stop.isSome then c
      else
        let lost := xlost || xh.any Prod.snd || g.any Prod.snd
        let o := epiRow (if op = 9 then 2 else 3) xf (xh.map Prod.fst) (g.map Prod.fst) rr
        sOuts e (stageAll { c with lost := xlost } xs) (List.zip ixs (o.map fun v => (v, lost)))

def sRowsGo (e : SEnv) (xv : List Nat → Option F32) : SCtx → List (List Nat) → SCtx
  | c, [] => c
  | c, rx :: l => match c.stop with | some _ => c | none => sRowsGo e xv (sRowGo e c rx xv) l

/-! ### The summary (R146, R147) -/

/-- Value, empty and nonfinite of a summary from the stage values and the rows. -/
def summaryOf (op kind : Nat) (sh : List Nat) (st : SteamSt) : Nat × Bool × Bool :=
  let tab : NMap F32 := st.stage.foldl (fun m p => NMap.insert m p.1 p.2) []
  let vals := tab.map Prod.snd
  let nonf := (vals.filter fun v => !ffinite v).length
  let emptyRows := (st.rows.filter fun p => !p.2).length
  let n := sh.headD 1
  let v :=
    match kind with
    | 1 => (vals.foldl fmax ninf32).toNat
    | 2 => (vals.foldl fmin inf32).toNat
    | 3 =>
      let keys := (tab.map fun p => p.1 / n).dedup
      let sums := keys.map fun k => rowsum ((List.range n).map fun j => NMap.get tab 0 (k * n + j))
      (match sums with | [] => (0 : F32) | a :: l => l.foldl fadd a).toNat
    | 4 => nonf
    | 5 => (argmax tab).getD 0xFFFFFFFF
    | 6 => emptyRows
    | _ => vals.length
  (min v 0xFFFFFFFF, vals = [] || (6 ≤ op && (st.emptyRow || decide (emptyRows > 0))), decide (nonf > 0))

/-! ### The end of an operation -/

/-- The mask leaves an element of Z out of a MAP or SOFTMAX: it counts as done (R140). A mask tensor on another device counts
as far as it has been fetched. -/
def sLeftOut (e : SEnv) (d : Dev) (n : Nat) : Bool :=
  let ix := ixOf e.out n
  (dOpcode e.r.q.desc = 1 || dOpcode e.r.q.desc = 6)
    && (sMask e.r.q.desc ≠ 2 || ((tDev (sTd e.r 3)).toNat = selfId d || (fetchRngs d e.r (sTd e.r 3) (allIxs (sTd e.r 3))).all (fetchedAll e.r)))
    && (sMasked e { d := d } ix).2

/-- The first element of Z that is not done and that the operation would have written (R140, R153). -/
def sMarker (e : SEnv) (d : Dev) (st : SteamSt) : Nat :=
  (((List.range (volume e.out)).find? fun n => !st.done.contains n && !sLeftOut e d n)).getD (volume e.out)

/-- Unspecified contents of the band buffer once the operation is over (R152). -/
def bandLeft (d : Dev) (e : SEnv) (st : SteamSt) : Dev :=
  if st.bufUsed then churn d e.acc (e.t * 2 ^ 20 + fld e.r.q.desc 383 352) (8192 * ceilDiv (e.sh.headD 1) 64) else d

/-- The summary of an operation that has started, posted once its last write is complete (R147). -/
def steamPost (d : Dev) (t : Nat) : Dev :=
  match runOf d t .steamer with
  | none => d
  | some r =>
    let x := r.q.desc
    if r.begun ∧ r.ended.isSome ∧ sPost x then
      let (v, emp, nf) := summaryOf (dOpcode x) (sSkind x) (sShape x r) r.work.steam
      postSumm d t (sSreg x) (sSkind x) v emp nf
    else d

/-- The operation ends with a status and marker: side list and maxima, counts (R159, R171); ENGINE_OP_END posts the summary of
the values that stand here. -/
def steamClose (c : SCtx) (e : SEnv) (st : TState) (status : Code) (marker : Nat) : Dev :=
  let d := if sHas e.r.q.desc 4 ∧ sCoded (sTd e.r 4) then (encClose c.d e.t .steamer e.r e.z c.enc).1 else c.d
  let d := bandLeft d e c.st
  let d := onRun d e.t .steamer fun r => { r with counts := c.enc.counts, work := { r.work with enc := c.enc, steam := c.st } }
  endRun d e.t .steamer st status marker

/-- The operation after a piece of work: stopped, complete, or to go on. -/
def steamSettle (c : SCtx) (e : SEnv) (last : Bool) : Dev :=
  match c.stop with
  | some (s, m) => steamClose c e .inPart s (m.getD (sMarker e c.d c.st))
  | none =>
    if last then
      match c.st.miss with
      | some m => steamClose c e .inPart 0x0445 m
      | none => steamClose c e .done 0 (volume e.out)
    else
      onRun c.d e.t .steamer fun r => { r with work := { r.work with enc := c.enc, steam := c.st } }

/-- The remote ranges an operation reads or merges with. -/
def steamRngs (d : Dev) (r : RunOp) (z : EncSet) : List Rng :=
  let x := r.q.desc
  let ins := [0, 1, 2, 3, 5].filter fun k => sHas x k && !(k = 0 && sSrc x) && !(k = 5 && dOpcode x ≤ 8)
  let outs := [5, 6].filter fun k => sHas x k && !(k = 5 && 9 ≤ dOpcode x)
  (ins.flatMap fun k => fetchRngs d r (sTd r k) (allIxs (sTd r k)))
    ++ (outs.flatMap fun k => tEdges d (sTd r k) 32)
    ++ (if sHas x 4 then encRngs d z else [])

/-- Lane groups of a pass count, as events (R132, R154). -/
def laneGroups (x : BitVec 1024) (r : RunOp) (rows n : Nat) : Nat :=
  let ks := [0, 1, 2, 3, 4, 5, 6].filter (sHas x)
  let b := sMapRed x && !fnT (sFunc x) && ks.all fun k => fmtOf (sTd r k) = .bf16
  let passes := match dOpcode x with | 6 | 8 => 3 | 7 | 9 | 10 => 2 | _ => 1
  passes * rows * ceilDiv n (if b then 128 else 64)

/-- The whole operation from memory (R139). -/
def steamRun (d : Dev) (t : Nat) (r : RunOp) (px : Polder) : Dev :=
  let e := sEnv d t r px
  let x := r.q.desc
  withRanges d t .steamer r (steamRngs d r e.z) (sMarker e d r.work.steam) fun d =>
    let c : SCtx := { d := d }
    let all := (List.range (volume e.sh)).map fun n => (ixOf e.sh n, (none : Option F32))
    let c :=
      if dOpcode x = 1 then sMapGo e c all
      else if sRed x then sRedGo e c all
      else sRowsGo e (fun _ => none) c ((List.range (volume (e.sh.drop 1))).map (ixOf (e.sh.drop 1)))
    let n := laneGroups x r (volume (e.sh.drop 1)) (e.sh.headD 1)
    let c := { c with d := count c.d 0 t 0x200 n (some (runPolder d t r)) }
    steamSettle c e true

/-! ### The hand-off source (R151 to R153) -/

/-- The batch index vector over dimensions 2 and up; none when it lies outside the shape. -/
def batchIn (sh : List Nat) (b : Nat) : Option (List Nat) :=
  if b < volume (sh.drop 2) then some (ixOf (sh.drop 2) b) else none

/-- The row index vector of a row of an entry, inside the shape. -/
def entryRow (sh : List Nat) (b row : Nat) : Option (List Nat) :=
  match batchIn sh b with
  | none => none
  | some bx =>
    if sh.length ≤ 1 then (if row = 0 then some [] else none)
    else if row < sh.getD 1 1 then some (row :: bx) else none

/-- The positions of an entry inside the shape, with their values. -/
def entryCells (sh : List Nat) (o : OutTile) : List (List Nat × Option F32) :=
  (List.range o.rows).flatMap fun i =>
    match entryRow sh o.batch (32 * o.mt + i) with
    | none => []
    | some rx => (List.range o.cols).filterMap fun j =>
        if 64 * o.nt + j < sh.headD 1 then some ((64 * o.nt + j) :: rx, some (o.data.getD (64 * i + j) 0)) else none

/-- The stage values of an entry written to the band buffer. -/
def bandWrite (e : SEnv) (c : SCtx) (o : OutTile) : SCtx :=
  if sBandUsed e.r.q.desc e.sh then
    let base := e.t * 2 ^ 20 + fld e.r.q.desc 383 352 + 8192 * o.nt
    let pre (v : F32) : F32 := if dOpcode e.r.q.desc = 6 then fmul (sI0 e.r.q.desc) v else v
    (entryCells e.sh o).foldl (fun c p =>
      match c.stop with
      | some _ => c
      | none =>
        let i := (p.1.getD 1 0) - 32 * o.mt
        let j := p.1.headD 0 - 64 * o.nt
        match memWrite c.d e.acc (base + 256 * i + 4 * j) (toBytes 4 (pre (p.2.getD 0)).toNat) with
        | (d, some s) => { c with d := d, stop := some (s, none) }
        | (d, none) => { c with d := d, st := { c.st with bufUsed := true } }) c
  else c

/-- The rows of a band inside the shape. -/
def bandRows (sh : List Nat) (o : OutTile) : List (List Nat) := (List.range 32).filterMap fun i => entryRow sh o.batch (32 * o.mt + i)

/-- The arrival of an entry under a row operation or a reduction: the band order, and the rows once the band is complete. -/
def bandArrive (e : SEnv) (c : SCtx) (o : OutTile) : SCtx :=
  let op := dOpcode e.r.q.desc
  let ntl := ceilDiv (e.sh.headD 1) 64
  let bad (c : SCtx) : SCtx := { c with stop := some (0x0432, none) }
  let fitsPast := c.st.band = none && c.st.past = some (o.batch, o.mt, o.nt)
  if fitsPast then { c with st := { c.st with past := some (o.batch, o.mt, o.nt + 1) } }
  else if (match c.st.band with | none => decide (o.nt ≠ 0) | some (b, m, n) => !(b = o.batch && m = o.mt && n = o.nt)) then bad c
  else
    let c := { c with st := { c.st with band := some (o.batch, o.mt, o.nt + 1) } }
    let cells := entryCells e.sh o
    let c := if sRed e.r.q.desc then c else bandWrite e c o
    let c := { c with st := { c.st with part := cells.foldl (fun m p => NMap.insert m (linOf e.sh p.1) (p.2.getD 0)) c.st.part } }
    if c.stop.isSome ∨ o.nt + 1 ≠ ntl then c
    else
      let rows := bandRows e.sh o
      let full := rows.all fun rx => (List.range (e.sh.headD 1)).all fun j => (NMap.find? c.st.part (linOf e.sh (j :: rx))).isSome
      if !full then c
      else
        let xv (ix : List Nat) : Option F32 := NMap.find? c.st.part (linOf e.sh ix)
        let c :=
          if op ≤ 5 then
            sRedGo e c (rows.flatMap fun rx => (List.range (e.sh.headD 1)).map fun j => (j :: rx, xv (j :: rx)))
          else sRowsGo e xv c rows
        { c with st := { c.st with band := none, past := some (o.batch, o.mt, ntl), part := [] } }

/-- The head of the hand-off queue, when it names a running operation. -/
def headFor (d : Dev) (t : Nat) (r : RunOp) : Option OutTile :=
  match (tileOf d t).handoff with
  | [] => none
  | o :: _ => if o.cons = opTag t r.q.slot ∧ o.gen = r.q.gen then some o else none

/-- The producer of a running operation is gone and its entries are all taken: the operation ends (R153). -/
def orphanCheck (d : Dev) (t : Nat) : Dev :=
  match runOf d t .steamer with
  | none => d
  | some r =>
    if r.begun ∧ r.ended = none ∧ sSrc r.q.desc ∧ (tileOf d t).orphans.contains (opTag t r.q.slot, r.q.gen)
        ∧ !((tileOf d t).handoff.any fun o => o.cons = opTag t r.q.slot && o.gen = r.q.gen) then
      match polderOf d (runPolder d t r) with
      | none => d
      | some px =>
        let e := sEnv d t r px
        steamClose { d := d, enc := r.work.enc, st := r.work.steam } e .inPart 0x0433 (sMarker e d r.work.steam)
    else d

/-- An entry is taken from the head of the queue and its arrival pass runs (R151, R152). -/
def entryTake (d : Dev) (t : Nat) : Dev :=
  match runOf d t .steamer with
  | none => d
  | some r =>
    if !r.begun ∨ r.ended ≠ none ∨ !sSrc r.q.desc then d
    else
      match headFor d t r, polderOf d (runPolder d t r) with
      | some o, some px =>
        let e := sEnv d t r px
        withRanges d t .steamer r (steamRngs d r e.z) (sMarker e d r.work.steam) fun d =>
          let d := onTile d t fun y => { y with handoff := y.handoff.tail }
          let c : SCtx := { d := d, enc := r.work.enc, st := r.work.steam }
          let cells := entryCells e.sh o
          -- only rows with a position inside the shape count (R151)
          let live := if 64 * o.nt < e.sh.headD 1 ∧ o.cols ≠ 0 then ((List.range o.rows).filter fun i => (entryRow e.sh o.batch (32 * o.mt + i)).isSome).length else 0
          let d := count d 0 t 0x200 (laneGroups r.q.desc r live 1) (some (runPolder d t r))
          let c := { c with d := d }
          let c := if dOpcode r.q.desc = 1 then sMapGo e c cells else bandArrive e c o
          let c := if c.stop = none ∧ o.last ∧ c.st.band ≠ none then { c with stop := some (0x0432, none) } else c
          orphanCheck (steamSettle c e o.last) t
      | _, _ => d

/-- A continuous wait for an entry reaches hw_limit (R153). -/
def waitLimit (d : Dev) (t : Nat) : Dev :=
  match runOf d t .steamer with
  | none => d
  | some r =>
    if r.begun ∧ r.ended = none ∧ sSrc r.q.desc ∧ sHwLimit r.q.desc ≠ 0 ∧ headFor d t r = none then
      match polderOf d (runPolder d t r) with
      | none => d
      | some px =>
        let e := sEnv d t r px
        steamClose { d := d, enc := r.work.enc, st := r.work.steam } e .inPart 0x0434 (sMarker e d r.work.steam)
    else d

/-- A row of the Steamer: the start, and from memory the whole operation. -/
def steamer (d : Dev) (t op : Nat) : Dev :=
  match running d t .steamer op with
  | none => d
  | some r =>
    let d := if r.begun then d else steamBegin d t r
    match running d t .steamer op with
    | none => d
    | some r =>
      match polderOf d (runPolder d t r) with
      | none => d
      | some px => if !r.begun then d else if sSrc r.q.desc then orphanCheck d t else steamRun d t r px

/-- A Fuller operation that feeds the hand-off queue ends, in whatever state, without its last entry placed: its consumer
learns it (R153). -/
def producerEnds (d : Dev) (t : Nat) : Dev :=
  match runOf d t .fuller with
  | none => d
  | some r =>
    let x := r.q.desc
    let placed := r.begun && r.work.step = fPasses x r && (tileOf d t).banks = [] && (r.ended.map OpEnd.status) ≠ some 0x0425
    let tag := BitVec.ofNat 16 (fld x 463 448)
    let gen := BitVec.ofNat 16 (fld x 479 464)
    if r.ended.isSome ∧ 1 ≤ dOpcode x ∧ dOpcode x ≤ 2 ∧ fOutMode x = 1 ∧ !placed ∧ r.gone = none then
      onTile d t fun y => { y with orphans := (tag, gen) :: y.orphans }
    else d

/-- An operation whose requests are answered ends on an engine: a Fuller's end is told to the consumer of its output tiles, and
a Steamer posts its summary first (R147). -/
def engineOpEnd (d : Dev) (t : Nat) (e : EngineId) : Dev :=
  match e with
  | .steamer => opEnd (steamPost d t) t .steamer
  | .fuller =>
    let d1 := opEnd (producerEnds d t) t .fuller
    if (runOf d1 t .fuller).isSome then d else orphanCheck d1 t
  | e => opEnd d t e

def execMap (t : TileNo) (s : State) : Out := onDev s fun d => steamer d t.toNat 1
def execReduceSum (t : TileNo) (s : State) : Out := onDev s fun d => steamer d t.toNat 2
def execReduceMax (t : TileNo) (s : State) : Out := onDev s fun d => steamer d t.toNat 3
def execReduceMin (t : TileNo) (s : State) : Out := onDev s fun d => steamer d t.toNat 4
def execReduceArgmax (t : TileNo) (s : State) : Out := onDev s fun d => steamer d t.toNat 5
def execSoftmax (t : TileNo) (s : State) : Out := onDev s fun d => steamer d t.toNat 6
def execRmsnorm (t : TileNo) (s : State) : Out := onDev s fun d => steamer d t.toNat 7
def execLayernorm (t : TileNo) (s : State) : Out := onDev s fun d => steamer d t.toNat 8
def execRmsnormBwd (t : TileNo) (s : State) : Out := onDev s fun d => steamer d t.toNat 9
def execLayernormBwd (t : TileNo) (s : State) : Out := onDev s fun d => steamer d t.toNat 10
def execHandoffEntryTake (t : TileNo) (s : State) : Out := onDev s fun d => entryTake d t.toNat
def execHandoffWaitLimit (t : TileNo) (s : State) : Out := onDev s fun d => waitLimit d t.toNat

end Sys2Proof.Machine
end

