-- ==== Sys2Proof/Machine/Napper.lean ====
section
/-! DEFINITION. The Napper's own operations (file 07): ENCODE with escapes, outlier channels and error feedback, DECODE,
ROLL, SLOAD and SSTORE. Each row starts and runs the operation. -/

namespace Sys2Proof.Machine

/-! ### Descriptor fields (R166) -/

def nRec (x : BitVec 1024) : Nat := fld x 335 288
def nRbase (x : BitVec 1024) : Nat := fld x 347 336
def nRcount (x : BitVec 1024) : Nat := fld x 360 348
def nHlen (x : BitVec 1024) : Nat := fld x 365 361
def nMg (x : BitVec 1024) : Nat := fld x 373 366
def nTfmt (x : BitVec 1024) : Nat := fld x 377 374
def nConv (x : BitVec 1024) : Nat := fld x 381 378
def nEsc (x : BitVec 1024) : Nat := fld x 383 382
def nEf (x : BitVec 1024) : Bool := flag x 384
def nSmode (x : BitVec 1024) : Bool := flag x 385
def nOdim (x : BitVec 1024) : Nat := fld x 386 386
def nNOut (x : BitVec 1024) : Nat := fld x 393 387
def nAmx (x : BitVec 1024) : Bool := flag x 394

/-- Fields that the opcode does not use are zero; no reserved encoding (R17, R50, R166). -/
def nReservedOk (x : BitVec 1024) : Bool :=
  fld x 1023 395 = 0 &&
  (match dOpcode x with
    | 1 => fld x 365 288 = 0 && nTfmt x = 0 && !flag x 381 && nNOut x ≤ 64
    | 2 => fld x 394 192 = 0
    | 3 => fld x 335 128 = 0 && fld x 394 378 = 0
    | _ => fld x 287 128 = 0 && fld x 394 361 = 0)

/-- Effective extents of all six dimensions. -/
def tExts (td : TDesc) : List Nat := (List.range 6).map (tExt td)

/-- A register range inside the polder's run (R158). -/
def regsIn (px : Polder) (lo n : Nat) : Bool := px.kbase ≤ lo && lo + n ≤ px.kbase + px.kcount

/-! ### ENCODE (R164, R167 to R171) -/

/-- X, Z, E and O of an ENCODE. -/
def nTdOfs (x : BitVec 1024) : List (Option Nat) :=
  [some (fld x 159 128), some (fld x 191 160), if nEf x ∧ dOpcode x = 1 then some (fld x 223 192) else none,
   if nNOut x ≠ 0 ∧ dOpcode x = 1 then some (fld x 255 224) else none]

/-- The settings of an ENCODE with the scales it uses. -/
def encodeSet (d : Dev) (r : RunOp) (snap : List F32) : EncSet :=
  let tz := r.tds.getD 1 0
  { td := tz, snap := snap, esc := nEsc r.q.desc, conv := nConv r.q.desc, cap := sideCap d r tz
    amx := nAmx r.q.desc && tSrefKind tz = 1 }

def encodeErr (d : Dev) (t : Nat) (pn : PolderNo) (px : Polder) (r : RunOp) : Option Code :=
  let x := r.q.desc
  let tx := r.tds.getD 0 0; let tz := r.tds.getD 1 0; let te := r.tds.getD 2 0; let tOut := r.tds.getD 3 0
  let zf := fmtOf tz
  let xf := fmtOf tx
  let out := nNOut x ≠ 0
  firstErr [
    tdErr d pn px tx false, tdErr d pn px tz true, if nEf x then tdErr d pn px te true else none,
    if out then tdErr d pn px tOut true else none,
    req (!tCmp tx && !tCmp tz && !(nEf x && tCmp te) && !(out && tCmp tOut)) 0x0456,
    req ((zf.isCode || zf.isFp8) && (xf = .fp32 || xf = .bf16 || (zf.isFp8 && xf.isFp8))) 0x0440,
    if nEf x then req (fmtOf te = .fp32 || fmtOf te = .bf16) 0x0440 else none,
    req (tExts tx = tExts tz && (!nEf x || tExts te = tExts tx)) 0x0440,
    req (nEsc x = 0 || zf = .n4 || zf = .n8) 0x0440,
    req (nOdim x < tNdims tz) 0x0440,
    req (!nSmode x || tSrefKind tz ≠ 0) 0x0440,
    refsErr d px tx, refsErr d px tz,
    if zf.isFp8 ∧ !nSmode x then fp8ScaleErr d t tz else none,
    req (nEsc x = 0 || tSide tz) 0x0441,
    if (encodeSet d r []).sided then encSideErr d px r tz else none,
    if out then
      firstErr [req (listOk (tExt tx (nOdim x)) (r.lists.getD 0 [])) 0x0422, req (fmtOf tOut = .bf16) 0x0404,
        req (tExts tOut = (tExts tx).set (nOdim x) (nNOut x)) 0x0440]
    else none]

/-- A stop at an element: the status and the marker that a scale error names. -/
def nStop (c : Code) (td : TDesc) (ix : List Nat) (k : Nat) : Code × Nat := (c, if c = 0x0405 then scaleIdx td ix else k)

/-- xp of an element (R168). -/
def encXp (d : Dev) (acc : Acc) (r : RunOp) (ix : List Nat) (k : Nat) : Dev × Except (Code × Nat) F32 :=
  let tx := r.tds.getD 0 0
  match elemAt d acc r tx (r.snaps.getD 0 []) fp32 ix with
  | (d, .error c) => (d, .error (nStop c tx ix k))
  | (d, .ok (v, _)) =>
    if !nEf r.q.desc then (d, .ok (rne32 v))
    else
      match elemAt d acc r (r.tds.getD 2 0) [] fp32 ix with
      | (d, .error c) => (d, .error (c, k))
      | (d, .ok (ev, _)) => (d, .ok (fadd (rne32 v) (rne32 ev)))

/-- The place of an element's channel in the outlier list. -/
def encListed (r : RunOp) (ix : List Nat) : Option Nat :=
  if nNOut r.q.desc = 0 then none else (r.lists.getD 0 []).findIdx? (· = ix.getD (nOdim r.q.desc) 0)

/-- The first pass of current scaling: the maxima (R164). -/
def maxPass (acc : Acc) (r : RunOp) : Dev → NMap F32 → Nat → List (List Nat) → Dev × Except (Code × Nat) (NMap F32)
  | d, m, _, [] => (d, .ok m)
  | d, m, k, ix :: l =>
    match encXp d acc r ix 0 with
    | (d, .error e) => (d, .error e)
    | (d, .ok xp) =>
      let m := if ffinite xp ∧ (encListed r ix).isNone then
          NMap.upd m 0 (scaleIdx (r.tds.getD 1 0) ix) fun o => if flt o (fabs xp) then fabs xp else o
        else m
      maxPass acc r d m (k + 1) l

/-- The scales of current scaling, with the number held. -/
def currentScales (r : RunOp) (m : NMap F32) : List F32 × Nat :=
  let tz := r.tds.getD 1 0
  let l := (List.range (scaleCount tz)).map fun i => formScale (fmtOf tz) (NMap.get m 0 i) (nMg r.q.desc)
  (l.map fun s => s.getD one32, (l.filter Option.isNone).length)

/-- The scales written to registers or to the scale tensor. -/
def putScales (t : Nat) (r : RunOp) : Dev → Nat → List F32 → Dev × Option Code
  | d, _, [] => (d, none)
  | d, i, s :: l =>
    let tz := r.tds.getD 1 0
    if tSrefKind tz = 1 then putScales t r (onScale d t (tSrefReg tz + i) fun y => putFld y 31 0 s.toNat) (i + 1) l
    else
      match writeRng d t .napper r (tDev tz).toNat (tSrefAddr tz + 4 * i) (toBytes 4 s.toNat) with
      | (d, some c) => (d, some c)
      | (d, none) => putScales t r d (i + 1) l

/-- The elements of an ENCODE in turn (R168). -/
def encodeGo (t : Nat) (z : EncSet) (r : RunOp) : Dev → EncAcc → Nat → List (List Nat) → Dev × EncAcc × Option (Code × Nat)
  | d, a, _, [] => (d, a, none)
  | d, a, k, ix :: l =>
    match encXp d (runAcc d t r) r ix k with
    | (d, .error e) => (d, a, some e)
    | (d, .ok xp) =>
      let j := encListed r ix
      match encWrite d t .napper r z a j.isSome ix xp with
      | (d, a, .error c) => (d, a, some (nStop c z.td ix k))
      | (d, a, .ok o) =>
        let (d, s1) := match j, o.out with
          | some j, some v => writeAt d t .napper r (r.tds.getD 3 0) (ix.set (nOdim r.q.desc) j) v.toNat
          | _, _ => (d, none)
        let te := r.tds.getD 2 0
        let (d, s2) :=
          if nEf r.q.desc then
            let code := if fmtOf te = .bf16 then (bf16.conv z.conv (val32 o.enew)).1 else o.enew.toNat
            writeAt d t .napper r te ix code
          else (d, none)
        match s1.or s2 with
        | some c => (d, a, some (c, k))
        | none => encodeGo t z r d a (k + 1) l

def encodeRun (d : Dev) (t : Nat) (r : RunOp) : Dev :=
  let x := r.q.desc
  let tx := r.tds.getD 0 0; let tz := r.tds.getD 1 0; let te := r.tds.getD 2 0; let tOut := r.tds.getD 3 0
  let ixs := allIxs tx
  let edges (td : TDesc) : List Rng := tEdges d td (fmtOf td).width
  let rngs := fetchRngs d r tx ixs ++ encRngs d (encodeSet d r []) ++ (if nEf x then fetchRngs d r te ixs ++ edges te else [])
    ++ (if nNOut x ≠ 0 then edges tOut else [])
  withRanges d t .napper r rngs 0 fun d =>
    let first : Dev × List F32 × Nat × Option (Code × Nat) :=
      if nSmode x then
        match maxPass (runAcc d t r) r d [] 0 ixs with
        | (d, .error e) => (d, [], 0, some e)
        | (d, .ok m) =>
          let (ss, held) := currentScales r m
          let (d, st) := putScales t r d 0 ss
          (d, ss, held, st.map fun c => (c, 0))
      else (d, r.snaps.getD 1 [], 0, none)
    let (d, ss, held, st) := first
    let r := (runOf d t .napper).getD r
    let z := encodeSet d r (if tSrefKind tz = 1 then ss else [])
    let a0 : EncAcc := { counts := { sat := held } }
    match st with
    | some (c, k) => partRun (onRun d t .napper fun r => { r with counts := a0.counts }) t .napper c k
    | none =>
      let (d, a, e) := encodeGo t z r d a0 0 ixs
      let (d, s) := encClose d t .napper r z a
      let d := onRun d t .napper fun r => { r with counts := a.counts }
      match e, s with
      | some (c, k), _ => partRun d t .napper c k
      | none, some c => partRun d t .napper c ixs.length
      | none, none => doneRun d t .napper ixs.length

/-! ### DECODE (R173, R174) -/

def decodeErr (d : Dev) (pn : PolderNo) (px : Polder) (r : RunOp) : Option Code :=
  let tx := r.tds.getD 0 0; let tz := r.tds.getD 1 0
  let xf := fmtOf tx
  firstErr [tdErr d pn px tx false, tdErr d pn px tz true, req (!tCmp tx && !tCmp tz) 0x0456,
    req ((xf.isCode || (xf.isFp8 && tSrefKind tx ≠ 0)) && (fmtOf tz = .fp32 || fmtOf tz = .bf16)) 0x0440,
    req (tExts tx = tExts tz) 0x0440, refsErr d px tx, sideErr d px tx]

/-- A source code is zero in value. -/
def srcZero (f : Fmt) (c : Nat) : Bool :=
  match f with
  | .n4 => c = 0
  | .n8 => c = 0
  | .u8l => c = 0xFF
  | f => ((f.float?).map fun F => (F.decode c).isZero).getD false

/-- A decoded value's encoding in the destination, with the counter it adds to (R52, R53, R56). DESIGN CHOICE (log entry
64): the product of a scaled E4M3 or E5M2 element and its scale is rounded as the code formats are, by RNE and never
saturating, since DECODE carries no conv field and R52 speaks of N4, N8 and U8L alone. -/
def decodeCode (f : Fmt) (F : FFmt) (code : Nat) (v : FVal) : Nat × Cls :=
  let x := F.rne v
  let y := F.decode x
  (x, if !y.finite then .nonfin
      else if y.isZero ∧ !srcZero f code ∧ !isEscape f code then .flush
      else if (F.decode F.maxFin).lt v.abs then .sat else .none)

def decodeGo (t : Nat) (r : RunOp) (F : FFmt) :
    Dev → Counts → Option Nat → Nat → List (List Nat) → Dev × Counts × Option Nat × Option (Code × Nat)
  | d, cn, lost, _, [] => (d, cn, lost, none)
  | d, cn, lost, k, ix :: l =>
    let tx := r.tds.getD 0 0
    match elemRaw d (runAcc d t r) r tx (r.snaps.getD 0 []) ix with
    | (d, .error c) => (d, cn, lost, some (nStop c tx ix k))
    | (d, .ok (v, miss, code)) =>
      let (y, cls) := decodeCode (fmtOf tx) F code v
      match writeAt d t .napper r (r.tds.getD 1 0) ix y with
      | (d, some c) => (d, cn, lost, some (c, k))
      | (d, none) => decodeGo t r F d (cn.add cls) (if miss then lost.or (some k) else lost) (k + 1) l

def decodeRun (d : Dev) (t : Nat) (r : RunOp) : Dev :=
  let tx := r.tds.getD 0 0; let tz := r.tds.getD 1 0
  let ixs := allIxs tx
  withRanges d t .napper r (fetchRngs d r tx ixs ++ tEdges d tz (fmtOf tz).width) 0 fun d =>
    let (d, cn, lost, e) := decodeGo t r (((fmtOf tz).float?).getD fp32) d {} none 0 ixs
    let d := onRun d t .napper fun r => { r with counts := cn }
    match e, lost with
    | some (c, k), _ => partRun d t .napper c k
    | none, some k => partRun d t .napper 0x0445 k
    | none, none => doneRun d t .napper ixs.length

/-! ### Registers (R163, R176) -/

/-- One register's ROLL; whether it is held. -/
def rollReg (x : BitVec 1024) (y : BitVec 512) : BitVec 512 × Bool :=
  let f := (Fmt.ofCode (nTfmt x)).getD .fp32
  let hist := srPend y :: (List.range 15).map (srHist y)
  let fill := min (srFill y + 1) 16
  let w := if nHlen x = 0 then 4 else nHlen x
  let used := (hist.take (min w fill)).map fun v => rne32 (val16 v)
  let a := match used with | [] => (0 : F32) | b :: l => l.foldl fmax b
  let y := (List.zip (List.range 16) hist).foldl (fun y p => putFld y (16 * p.1 + 79) (16 * p.1 + 64) p.2.toNat) y
  let y := putFld (putFld y 47 32 0) 52 48 fill
  match formScale f a (nMg x) with
  | some s => (putFld y 31 0 s.toNat, false)
  | none => (if scaleOk (srScale y) then y else putFld y 31 0 one32.toNat, true)

def rollGo (t : Nat) (x : BitVec 1024) : Nat → Nat → Dev → Nat → Dev × Nat
  | 0, _, d, held => (d, held)
  | k + 1, n, d, held =>
    let (y, h) := rollReg x (scaleReg d t n)
    rollGo t x k (n + 1) (onScale d t n fun _ => y) (held + b2n h)

/-- Record reserved fields and fill (R176). -/
def recordOk (y : BitVec 512) : Bool := srFill y ≤ 16 && fld y 63 53 = 0 && fld y 511 320 = 0

def sloadGo (t : Nat) (r : RunOp) : Nat → Nat → Dev → Dev × Option (Code × Nat)
  | 0, _, d => (d, none)
  | k + 1, i, d =>
    let n := nRbase r.q.desc + i
    match memRead d (runAcc d t r) (nRec r.q.desc + 64 * i) 64 with
    | (d, .error c) => (d, some (c, n))
    | (d, .ok bs) =>
      let y : BitVec 512 := BitVec.ofNat 512 (ofBytes bs)
      if recordOk y then sloadGo t r k (i + 1) (onScale d t n fun _ => y) else (d, some (0x0446, n))

def sstoreGo (t : Nat) (r : RunOp) : Nat → Nat → Dev → Dev × Option (Code × Nat)
  | 0, _, d => (d, none)
  | k + 1, i, d =>
    let n := nRbase r.q.desc + i
    match memWrite d (runAcc d t r) (nRec r.q.desc + 64 * i) (toBytes 64 (scaleReg d t n).toNat) with
    | (d, some c) => (d, some (c, n))
    | (d, none) => sstoreGo t r k (i + 1) d

def regErr (d : Dev) (px : Polder) (x : BitVec 1024) : Option Code :=
  firstErr [
    req (nRcount x ≠ 0 && nRbase x + nRcount x ≤ 4096) 0x0442,
    if dOpcode x = 3 then req (nHlen x ≤ 16 && 2 ≤ nTfmt x && nTfmt x ≤ 6) 0x0442 else none,
    req (regsIn px (nRbase x) (nRcount x)) 0x0409,
    if dOpcode x = 3 then none else req (nRec x % 64 = 0) 0x0406,
    if dOpcode x = 3 then none else rngErr d px (nRec x) (64 * nRcount x)]

/-! ### The rows -/

/-- Start: fields, descriptors, lists, scales (R159, R167). -/
def napperBegin (d : Dev) (t : Nat) (r : RunOp) : Dev :=
  let x := r.q.desc
  let pn := runPolder d t r
  match polderOf d pn with
  | none => d
  | some px =>
    if !nReservedOk x then refuse d t .napper 0x0402
    else if 3 ≤ dOpcode x then
      match regErr d px x with
      | some c => refuse d t .napper c
      | none => onRun d t .napper fun r => { r with begun := true }
    else
      match readTds d t px (runAcc d t r) (nTdOfs x) with
      | (d, .error c) => refuse d t .napper c
      | (d, .ok tds) =>
        let lst : Dev × Except Code (List Byte) :=
          if dOpcode x = 1 ∧ nNOut x ≠ 0 then readLocal d t px (runAcc d t r) (fld x 287 256) (4 * nNOut x) else (d, .ok [])
        match lst with
        | (d, .error c) => refuse d t .napper c
        | (d, .ok lb) =>
          let r1 := { r with tds := tds, lists := [words32 (lb.length / 4) lb] }
          match (if dOpcode x = 1 then encodeErr d t pn px r1 else decodeErr d pn px r1) with
          | some c => refuse d t .napper c
          | none => onRun d t .napper fun r => { r with
              tds := tds, lists := r1.lists, begun := true, snaps := tds.map (snapScales d t) }

/-- A row of the Napper: the start and the whole operation. -/
def napper (d : Dev) (t op : Nat) : Dev :=
  match running d t .napper op with
  | none => d
  | some r =>
    let d := if r.begun then d else napperBegin d t r
    match running d t .napper op with
    | none => d
    | some r =>
      if !r.begun then d
      else
        let x := r.q.desc
        let fin (p : Dev × Option (Code × Nat)) : Dev :=
          match p with
          | (d, some (c, n)) => partRun d t .napper c n
          | (d, none) => doneRun d t .napper (nRcount x)
        match op with
        | 1 => encodeRun d t r
        | 2 => decodeRun d t r
        | 3 =>
          let (d, held) := rollGo t x (nRcount x) (nRbase x) d 0
          doneRun (onRun d t .napper fun r => { r with counts := { sat := held } }) t .napper (nRcount x)
        | 4 => fin (sloadGo t r (nRcount x) 0 d)
        | _ => fin (sstoreGo t r (nRcount x) 0 d)

def execEncode (t : TileNo) (s : State) : Out := onDev s fun d => napper d t.toNat 1
def execDecode (t : TileNo) (s : State) : Out := onDev s fun d => napper d t.toNat 2
def execRoll (t : TileNo) (s : State) : Out := onDev s fun d => napper d t.toNat 3
def execSload (t : TileNo) (s : State) : Out := onDev s fun d => napper d t.toNat 4
def execSstore (t : TileNo) (s : State) : Out := onDev s fun d => napper d t.toNat 5

end Sys2Proof.Machine
end

