-- ==== Sys2Proof/Machine/Carder.lean ====
section
/-! DEFINITION. The Carder's own operations (file 08): EXPAND, COMPRESS, VERIFY, CBLOAD and CBSTORE. Each row starts and
runs the operation. -/

namespace Sys2Proof.Machine

/-! ### Descriptor fields (R199) -/

def kRec (x : BitVec 1024) : Nat := fld x 239 192
def kCbase (x : BitVec 1024) : Nat := fld x 244 240
def kCcount (x : BitVec 1024) : Nat := fld x 250 245
def kKind (x : BitVec 1024) : Nat := fld x 252 251
def kRset (x : BitVec 1024) : Nat := fld x 260 256
def kThr (x : BitVec 1024) : F32 := BitVec.ofNat 32 (fld x 295 264)
def kZcap (x : BitVec 1024) : Nat := fld x 327 296

/-- Reserved fields and fields that the opcode does not use are zero (R17, R199). -/
def kReservedOk (x : BitVec 1024) : Bool :=
  fld x 1023 328 = 0 && fld x 255 253 = 0 && fld x 263 261 = 0 &&
  (match dOpcode x with
    | 1 => fld x 327 192 = 0
    | 2 => fld x 250 192 = 0
    | 3 => fld x 191 160 = 0 && fld x 327 240 = 0
    | _ => fld x 191 128 = 0 && fld x 327 251 = 0)

def kTdOfs (x : BitVec 1024) : List (Option Nat) :=
  match dOpcode x with
  | 1 | 2 => [some (fld x 159 128), some (fld x 191 160)]
  | 3 => [some (fld x 159 128), none]
  | _ => []

def carderErr (d : Dev) (pn : PolderNo) (px : Polder) (r : RunOp) : Option Code :=
  let x := r.q.desc
  let tx := r.tds.getD 0 0; let tz := r.tds.getD 1 0
  match dOpcode x with
  | 1 => firstErr [tdErr d pn px tx false, tdErr d pn px tz true, req (tCmp tx && !tCmp tz) 0x0456, cmpForm d px tx,
      req (fmtOf tz = .fp32 || fmtOf tz = .bf16) 0x0404, req (tExts tx = tExts tz) 0x0456]
  | 2 => firstErr [tdErr d pn px tx false, tdErr d pn px tz false, req (!tCmp tx) 0x0456,
      req (fmtOf tx = .bf16) 0x0456, req (tCmp tz) 0x0456, req (tExts tx = tExts tz) 0x0456,
      req (kKind x = 1 || kKind x = 2) 0x0456, req (fle 0 (kThr x)) 0x0456,
      if kKind x = 2 then req (setIn px (kRset x)) 0x0456 else none,
      req (tBase tz % 32 = 0) 0x0406, req (setIn px (tCbset tz)) 0x0409, req (cmpBlocks tz ≤ 33294320) 0x0450,
      req ([2, 3, 4, 5].all fun i => tExt tz i = 1 || tStep tz i ≠ 0) 0x0407,
      if (tDev tz).toNat = selfId d then
        (rngErr d px (tAux tz) (32 + 4 * (cmpBlocks tz + 1))).or
          (if kZcap x = 0 then none else rngErr d px (tBase tz) (32 * kZcap x))
      else none]
  | 3 => firstErr [tdErr d pn px tx false, req (tCmp tx) 0x0456, cmpForm d px tx, req (kRec x % 64 = 0) 0x0406,
      rngErr d px (kRec x) (cmpBlocks tx)]
  | _ => firstErr [
      req (1 ≤ kCcount x && kCbase x + kCcount x ≤ 32 && px.cbbase ≤ kCbase x && kCbase x + kCcount x ≤ px.cbbase + px.cbcount) 0x0456,
      req (kRec x % 64 = 0) 0x0406, rngErr d px (kRec x) (2048 * kCcount x)]

/-- Index vectors of a block element over the batch dimensions that repeat it (R183). -/
def repeats (td : TDesc) (ix : List Nat) : List (List Nat) :=
  ([2, 3, 4, 5].filter fun i => i < tNdims td && tStep td i = 0 && 1 < tExt td i).foldl
    (fun l i => l.flatMap fun ix => (List.range (tExt td i)).map fun j => ix.set i j) [ix]

/-- The first element, in the order of R139, of the blocks from b on. -/
def firstOf (td : TDesc) (b n : Nat) : Nat :=
  ((List.range (n - b)).map fun i => tLinear td (blockIx td (b + i) 0)).foldl min (tCount td)

/-! ### EXPAND and VERIFY (R191 to R194, R201) -/

/-- A block's elements written to Z. -/
def blockWrite (t : Nat) (r : RunOp) (F : FFmt) (b : Nat) : Dev → Nat → List B16 → Dev × Option Code
  | d, _, [] => (d, none)
  | d, k, v :: l =>
    match writeList t .carder r (r.tds.getD 1 0) d 0 ((repeats (r.tds.getD 0 0) (blockIx (r.tds.getD 0 0) b k)).map fun ix => (ix, F.rne (val16 v))) with
    | (d, some (c, _)) => (d, some c)
    | (d, none) => blockWrite t r F b d (k + 1) l

structure ExpSt where
  counts : Counts := {}
  note : Option (Code × Nat) := none

def expandRunGo (t : Nat) (r : RunOp) (px : Polder) (F : FFmt) : Dev → ExpSt → List Nat → Dev × ExpSt × Option (Code × Nat)
  | d, s, [] => (d, s, none)
  | d, s, b :: bs =>
    let tx := r.tds.getD 0 0
    match expandBlock d (runAcc d t r) r t px tx b with
    | (d, .error c) => (d, s, some (c, firstOf tx b (cmpBlocks tx)))
    | (d, .ok o) =>
      let d := blockEvents d (runAcc d t r) t o
      let k := (repeats tx (blockIx tx b 0)).length
      match blockWrite t r F b d 0 o.vals with
      | (d, some c) => (d, s, some (c, firstOf tx b (cmpBlocks tx)))
      | (d, none) =>
        let cn := s.counts
        let cn := { cn with sat := satAdd 0xFFFFFFFF cn.sat (k * o.nsat), nf := satAdd 0xFFFFFFFF cn.nf (k * o.npois) }.addTg (b2n o.fail.isSome)
        expandRunGo t r px F d ⟨cn, s.note.or (o.fail.map fun p => (p.1, tLinear tx (blockIx tx b p.2)))⟩ bs

def verifyGo (t : Nat) (r : RunOp) (px : Polder) : Dev → Counts → List Nat → Dev × Counts × Option (Code × Nat)
  | d, cn, [] => (d, cn, none)
  | d, cn, b :: bs =>
    let tx := r.tds.getD 0 0
    match expandBlock d (runAcc d t r) r t px tx b with
    | (d, .error c) => (d, cn, some (c, b))
    | (d, .ok o) =>
      let d := if o.fail.isSome then count d 0 t 0x222 1 (some (runPolder d t r)) else d
      let s : Byte := match o.fail with | some (c, _) => c.setWidth 8 | none => 0
      match memWrite d (runAcc d t r) (kRec r.q.desc + b) [s] with
      | (d, some c) => (d, cn, some (c, b))
      | (d, none) =>
        let k := (repeats tx (blockIx tx b 0)).length
        verifyGo t r px d ({ cn with nf := satAdd 0xFFFFFFFF cn.nf (k * o.npois) }.addTg (b2n o.fail.isSome)) bs

/-! ### COMPRESS (R200) -/

/-- One vector's distance to four values: lanes beyond the vector's length are left out; NaN counts as +∞. -/
def vdist (x : List F32) (e : List F32) : F32 :=
  let sq := List.zipWith (fun a b => let q := fsub a b; fmul q q) x e
  match sq with
  | [] => 0
  | a :: l => let s := l.foldl fadd a; if fnan? s then inf32 else s

/-- The entry with the least distance, the lowest index among equals. -/
def nearest (x : List F32) : Nat → Nat → F32 → List (List F32) → Nat
  | _, best, _, [] => best
  | i, best, bd, e :: l => if flt (vdist x e) bd then nearest x (i + 1) i (vdist x e) l else nearest x (i + 1) best bd l

def nearestOf (x : List F32) (es : List (List F32)) : Nat :=
  match es with
  | [] => 0
  | e :: l => nearest x 1 0 (vdist x e) l

def b32 (v : B16) : F32 := rne32 (val16 v)

/-- A vector of COMPRESS: its codes, its expansion and its error. -/
structure VecC where
  x : List B16
  c1 : Nat
  c2 : Nat
  y : List B16
  err : F32
  deriving DecidableEq, Repr

def compressVec (e1 : List (List B16)) (e2 : Option (List (List B16))) (x : List B16) : VecC :=
  let xf := x.map b32
  let c1 := nearestOf xf (e1.map fun e => e.map b32)
  let a := e1.getD c1 []
  match e2 with
  | none => let y := (vecSum a none).1; ⟨x, c1, 0, y, vdist xf (y.map b32)⟩
  | some e2 =>
    let res := List.zipWith (fun p q => fsub p (b32 q)) xf a
    let c2 := nearestOf res (e2.map fun e => e.map b32)
    let y := (vecSum a (some (e2.getD c2 []))).1
    ⟨x, c1, c2, y, vdist xf (y.map b32)⟩

/-- A patch record (R190): a value that its mask does not name is free. -/
def patchRec (d : Dev) (v : Nat) (w : VecC) : Dev × List Byte :=
  let mask := (List.range w.x.length).foldl (fun m k => if w.x.getD k 0 ≠ w.y.getD k 0 then m + 2 ^ k else m) 0
  let (d, vals) := (List.range 4).foldl (fun (s : Dev × List Byte) k =>
    if bitAt mask k then (s.1, s.2 ++ toBytes 2 (w.x.getD k 0).toNat)
    else let (d, v) := fresh s.1; (d, s.2 ++ [v.setWidth 8, (v >>> 8).setWidth 8])) (d, [])
  (d, toBytes 4 (v + mask <<< 12) ++ vals)

def patchRecs : Dev → List (Nat × VecC) → Dev × List Byte
  | d, [] => (d, [])
  | d, (v, w) :: l =>
    let (d, a) := patchRec d v w
    let (d, b) := patchRecs d l
    (d, a ++ b)

/-- A block with its header and check bits (R188, R189). -/
def blockBytes (kind npatch rset rows cols cnt b : Nat) (body : List Byte) : List Byte :=
  let w0 := kind + npatch <<< 2 + rset <<< 8 + rows <<< 16 + cols <<< 22
  let h := toBytes 4 w0 ++ toBytes 4 cnt ++ toBytes 4 (b % 2 ^ 32) ++ zeros 16
  let body := body ++ zeros (32 * ceilDiv (32 + body.length) 32 - 32 - body.length)
  h ++ toBytes 4 (crc32c (h ++ body)) ++ body

/-- The body bytes padded to whole words before the patch records. -/
def codeBytes (l : List Byte) : List Byte := l ++ zeros (4 * ceilDiv l.length 4 - l.length)

/-- A BF16 code as the device writes it: every NaN canonical (R37). -/
def canon16 (v : B16) : B16 := if (val16 v).isNan then 0x7FC0 else v

/-- A block formed from its elements; whether it is raw. -/
def compressBlock (d : Dev) (x : BitVec 1024) (sz : Nat × Nat) (b : Nat) (es : List B16) (e1 : List (List B16)) (e2 : Option (List (List B16))) :
    Dev × List Byte × Bool :=
  let raw : List Byte := blockBytes 3 0 0 sz.1 sz.2 es.length b (es.flatMap fun v => toBytes 2 (canon16 v).toNat)
  if es.any fun v => !(val16 v).finite then (d, raw, true)
  else
    let vs := (chunksOf 4 (es.length / 4 + 1) es).map (compressVec e1 e2)
    let bad := (List.zip (List.range vs.length) vs).filter fun p => flt (kThr x) p.2.err
    if 16 < bad.length then (d, raw, true)
    else
      let codes := codeBytes (vs.map (fun v => BitVec.ofNat 8 v.c1) ++ (if e2.isSome then vs.map (fun v => BitVec.ofNat 8 v.c2) else []))
      let (d, ps) := patchRecs d bad
      (d, blockBytes (kKind x) bad.length (if e2.isSome then kRset x else 0) sz.1 sz.2 vs.length b (codes ++ ps), false)

/-- The entries of a codebook set. -/
def setEntries (bs : List Byte) : List (List B16) :=
  (List.range 256).map fun i => (List.range 4).map fun k => BitVec.ofNat 16 (leAt bs (8 * i + 2 * k) 2)

def readSet (d : Dev) (acc : Acc) (t set : Nat) : Dev × Except Code (List (List B16)) :=
  match keyWords d acc (cbKey t set 0) 256 with
  | (d, some c, _) => (d, .error c)
  | (d, none, bs) => (d, .ok (setEntries bs))

/-- The elements of a block of X, as codes. -/
def blockElems (t : Nat) (r : RunOp) (b : Nat) : Dev → List Nat → Dev × Except Code (List B16)
  | d, [] => (d, .ok [])
  | d, k :: l =>
    match elemRaw d (runAcc d t r) r (r.tds.getD 0 0) [] (blockIx (r.tds.getD 1 0) b k) with
    | (d, .error c) => (d, .error c)
    | (d, .ok (_, _, code)) =>
      match blockElems t r b d l with
      | (d, .ok vs) => (d, .ok (BitVec.ofNat 16 code :: vs))
      | e => e

structure CmpSt where
  off : Nat := 0
  raws : Nat := 0

/-- The blocks of a COMPRESS in turn. -/
def compressGo (t : Nat) (r : RunOp) (e1 : List (List B16)) (e2 : Option (List (List B16))) :
    Dev → CmpSt → List Nat → Dev × CmpSt × Option (Code × Nat)
  | d, s, [] => (d, s, none)
  | d, s, b :: bs =>
    let x := r.q.desc
    let tz := r.tds.getD 1 0
    let sz := blockSize tz b
    match blockElems t r b d (List.range (sz.1 * sz.2)) with
    | (d, .error c) => (d, s, some (c, b))
    | (d, .ok es) =>
      let (d, blk, raw) := compressBlock d x sz b es e1 e2
      let u := blk.length / 32
      if kZcap x < s.off + u then (d, s, some (0x0457, b))
      else
        match writeRng d t .carder r (tDev tz).toNat (tBase tz + 32 * s.off) blk with
        | (d, some c) => (d, s, some (c, b))
        | (d, none) =>
          match writeRng d t .carder r (tDev tz).toNat (tAux tz + 32 + 4 * b) (toBytes 4 s.off) with
          | (d, some c) => (d, s, some (c, b))
          | (d, none) => compressGo t r e1 e2 d ⟨s.off + u, s.raws + b2n raw⟩ bs

/-- An index-table header (R185). -/
def tableBytes (nblk : Nat) : List Byte :=
  let h := toBytes 4 nblk ++ [1] ++ zeros 23
  h ++ toBytes 4 (crc32c h)

def compressRun (d : Dev) (t : Nat) (r : RunOp) : Dev :=
  let x := r.q.desc
  let tx := r.tds.getD 0 0; let tz := r.tds.getD 1 0
  let n := cmpBlocks tz
  let dev := (tDev tz).toNat
  withRanges d t .carder r (fetchRngs d r tx (allIxs tx) ++ edgeRngs d ⟨dev, tAux tz + 32, 4 * (n + 1)⟩) 0 fun d =>
    let acc := runAcc d t r
    match readSet d acc t (tCbset tz) with
    | (d, .error c) => partRun d t .carder c 0
    | (d, .ok e1) =>
      let two : Dev × Except Code (Option (List (List B16))) :=
        if kKind x = 2 then
          match readSet d acc t (kRset x) with
          | (d, .ok e) => (d, .ok (some e))
          | (d, .error c) => (d, .error c)
        else (d, .ok none)
      match two with
      | (d, .error c) => partRun d t .carder c 0
      | (d, .ok e2) =>
        let (d, s, e) := compressGo t r e1 e2 d {} (List.range n)
        let d := onRun d t .carder fun r => { r with counts := { tg := min 0xFFFFFFFF s.raws } }
        match e with
        | some (c, b) => partRun d t .carder c b
        | none =>
          match writeRng d t .carder r dev (tAux tz + 32 + 4 * n) (toBytes 4 s.off) with
          | (d, some c) => partRun d t .carder c n
          | (d, none) =>
            match writeRng d t .carder r dev (tAux tz) (tableBytes n) with
            | (d, some c) => partRun d t .carder c n
            | (d, none) => doneRun d t .carder n

/-! ### Codebook sets (R182, R198) -/

def cbloadGo (t : Nat) (r : RunOp) : Nat → Nat → Dev → Dev × Option (Code × Nat)
  | 0, _, d => (d, none)
  | k + 1, i, d =>
    match memRead d (runAcc d t r) (kRec r.q.desc + 2048 * i) 2048 with
    | (d, .error c) => (d, some (c, i))
    | (d, .ok bs) =>
      let d := (List.range 256).foldl (fun d j => keyWrite d (runAcc d t r) (cbKey t (kCbase r.q.desc + i) j) (sliceB bs (8 * j) 8)) d
      cbloadGo t r k (i + 1) d

def cbstoreGo (t : Nat) (r : RunOp) : Nat → Nat → Dev → Dev × Option (Code × Nat)
  | 0, _, d => (d, none)
  | k + 1, i, d =>
    match keyWords d (runAcc d t r) (cbKey t (kCbase r.q.desc + i) 0) 256 with
    | (d, some c, _) => (d, some (c, i))
    | (d, none, bs) =>
      match memWrite d (runAcc d t r) (kRec r.q.desc + 2048 * i) bs with
      | (d, some c) => (d, some (c, i))
      | (d, none) => cbstoreGo t r k (i + 1) d

/-- An operation of a polder that expands compressed data runs on the tile's Fuller (R182). -/
def expanding (d : Dev) (t : Nat) (pn : PolderNo) : Bool :=
  match runOf d t .fuller with
  | some r => r.begun && r.ended = none && runPolder d t r = pn && (tCmp (fTd r 0) || tCmp (fTd r 1))
  | none => false

/-! ### The rows -/

/-- The descriptors read and everything checked that needs no other memory; what is read is kept (R93, R199). -/
def carderRead (d : Dev) (t : Nat) (r : RunOp) : Dev :=
  let x := r.q.desc
  let pn := runPolder d t r
  match polderOf d pn with
  | none => d
  | some px =>
    if !kReservedOk x then refuse d t .carder 0x0402
    else
      match readTds d t px (runAcc d t r) (kTdOfs x) with
      | (d, .error c) => refuse d t .carder c
      | (d, .ok tds) =>
        match carderErr d pn px { r with tds := tds } with
        | some c => refuse d t .carder c
        | none => onRun d t .carder fun r => { r with tds := tds, begun := decide (dOpcode x ≠ 1 ∧ dOpcode x ≠ 3) }

/-- The index table of a compressed source is read and checked at start (R186, R195). -/
def carderTable (d : Dev) (t : Nat) (r : RunOp) : Dev :=
  let tx := r.tds.getD 0 0
  withRanges d t .carder r [tableHdr tx] 0 fun d =>
    match tablesErr d (runAcc d t r) r [tx] with
    | (d, some (true, c)) => partRun d t .carder c 0
    | (d, some (false, c)) => refuse d t .carder c
    | (d, none) => onRun d t .carder fun r => { r with begun := true }

/-- The start of an operation. -/
def carderBegin (d : Dev) (t op : Nat) (r : RunOp) : Dev :=
  let d := if r.tds = [] then carderRead d t r else d
  match running d t .carder op with
  | none => d
  | some r => if r.begun ∨ r.tds = [] then d else carderTable d t r

/-- A row of the Carder: the start and the whole operation. -/
def carder (d : Dev) (t op : Nat) : Dev :=
  match running d t .carder op with
  | none => d
  | some r =>
    if op = 4 ∧ expanding d t (runPolder d t r) then d
    else
      let d := if r.begun then d else carderBegin d t op r
      match running d t .carder op with
      | none => d
      | some r =>
        match polderOf d (runPolder d t r) with
        | none => d
        | some px =>
          if !r.begun then d
          else
            let x := r.q.desc
            let tx := r.tds.getD 0 0; let tz := r.tds.getD 1 0
            let blocks := List.range (cmpBlocks tx)
            let fin (n : Nat) (p : Dev × Option (Code × Nat)) : Dev :=
              match p with
              | (d, some (c, k)) => partRun d t .carder c k
              | (d, none) => doneRun d t .carder n
            match op with
            | 1 =>
              withRanges d t .carder r (blockRngs d r tx (if (tDev tx).toNat = selfId d then [] else blocks) ++ tEdges d tz (fmtOf tz).width) 0 fun d =>
                let (d, s, e) := expandRunGo t r px (((fmtOf tz).float?).getD bf16) d {} blocks
                let d := onRun d t .carder fun r => { r with counts := s.counts }
                match e, s.note with
                | some (c, k), _ => partRun d t .carder c k
                | none, some (c, k) => partRun d t .carder c k
                | none, none => doneRun d t .carder (tCount tx)
            | 2 => compressRun d t r
            | 3 =>
              withRanges d t .carder r (blockRngs d r tx (if (tDev tx).toNat = selfId d then [] else blocks)) 0 fun d =>
                let (d, cn, e) := verifyGo t r px d {} blocks
                fin (cmpBlocks tx) (onRun d t .carder (fun r => { r with counts := cn }), e)
            | 4 => fin (kCcount x) (cbloadGo t r (kCcount x) 0 d)
            | _ => fin (kCcount x) (cbstoreGo t r (kCcount x) 0 d)

def execExpand (t : TileNo) (s : State) : Out := onDev s fun d => carder d t.toNat 1
def execCompress (t : TileNo) (s : State) : Out := onDev s fun d => carder d t.toNat 2
def execVerify (t : TileNo) (s : State) : Out := onDev s fun d => carder d t.toNat 3
def execCbload (t : TileNo) (s : State) : Out := onDev s fun d => carder d t.toNat 4
def execCbstore (t : TileNo) (s : State) : Out := onDev s fun d => carder d t.toNat 5

end Sys2Proof.Machine
end

