-- ==== Sys2Proof/Machine/Router.lean ====
section
/-! DEFINITION. The router engine's descriptors (file 11): fields (R263), box and ranks (R265), shards and chunks (R266),
phases and lines (R267, R269), the tables of ALLTOALL and PERMUTE (R277 to R279), and every check at the start. -/

namespace Sys2Proof.Machine

/-! ### Fields (R263) -/

def rAux (x : BitVec 1024) : Nat := fld x 271 224
def rCtally (x : BitVec 1024) : Nat := fld x 319 272
def rOrg (x : BitVec 1024) : Nat := fld x 339 320
def rColl (x : BitVec 1024) : BitVec 16 := BitVec.ofNat 16 (fld x 384 369)
def rWfmt (x : BitVec 1024) : Nat := fld x 388 385
def rConv (x : BitVec 1024) : Nat := fld x 392 389
def rMode (x : BitVec 1024) : Nat := fld x 394 393
def rChunk (x : BitVec 1024) : Nat := fld x 397 395
def rDepth (x : BitVec 1024) : Nat := fld x 400 398
def rUnord (x : BitVec 1024) : Bool := flag x 401
def rAuxEn (x : BitVec 1024) : Bool := flag x 402
def rCtEn (x : BitVec 1024) : Bool := flag x 403
def rFsrc (x : BitVec 1024) : Nat := fld x 409 404
def rSreg (x : BitVec 1024) : Nat := fld x 415 410
def rSlow (x : BitVec 1024) : Nat := fld x 431 416
def rBcount (x : BitVec 1024) : Nat := fld x 440 432
def rBnd (x : BitVec 1024) : Nat := fld x 479 448

/-- Fields that the opcode does not use are zero, and reserved bits too (R263); the wire format is no reserved code (R17,
R34). -/
def rFieldsOk (x : BitVec 1024) : Bool :=
  let op := dOpcode x
  let no (used : Bool) (v : Nat) : Bool := used || v = 0
  let red := op = 1 || op = 2
  let box := op ≠ 7
  let aux := op ≤ 5
  fld x 447 441 = 0 && fld x 1023 480 = 0 && !flag x 392
    && no (op ≠ 6) (fld x 159 128) && no (op ≠ 6) (fld x 191 160) && no (red || op = 5) (fld x 223 192)
    && (!red || (Fmt.ofCode (rWfmt x)).isSome)
    && no aux (rAux x) && no aux (b2n (rAuxEn x)) && no box (fld x 368 320) && no box (rColl x).toNat && no box (rSlow x)
    && no red (rWfmt x) && no red (rConv x) && no (op ≤ 3) (rMode x) && no (op = 7) (b2n (rUnord x))
    && no (op = 6) (rFsrc x) && no (op = 6) (rSreg x) && no (op ≤ 3 || rBcount x ≠ 0) (rBnd x)

/-! ### The box (R265) -/

def rExt (x : BitVec 1024) (k : Nat) : Nat :=
  1 + (if k = 0 then fld x 346 340 else if k = 1 then fld x 353 347 else fld x 359 354)
def rStr (x : BitVec 1024) (k : Nat) : Nat := 1 + fld x (362 + 3 * k) (360 + 3 * k)
def rN (x : BitVec 1024) : Nat := rExt x 0 * rExt x 1 * rExt x 2

/-- The index of a rank in a dimension, and the rank with that index replaced. -/
def rankIx (x : BitVec 1024) (k r : Nat) : Nat :=
  if k = 0 then r % rExt x 0 else if k = 1 then r / rExt x 0 % rExt x 1 else r / (rExt x 0 * rExt x 1)
def rankSet (x : BitVec 1024) (k r v : Nat) : Nat :=
  let w := if k = 0 then 1 else if k = 1 then rExt x 0 else rExt x 0 * rExt x 1
  r - rankIx x k r * w + v * w

/-- The device of a rank. -/
def rMember (d : Dev) (x : BitVec 1024) (r : Nat) : Nat :=
  let at_ (k : Nat) : Nat := (coord k (rOrg x) + rStr x k * rankIx x k r) % extent d k
  devAt (at_ 0) (at_ 1) (at_ 2)

/-- The rank of a device. -/
def rRank (d : Dev) (x : BitVec 1024) (dev : Nat) : Option Nat := (List.range (rN x)).find? fun r => rMember d x r = dev

def boxErr (d : Dev) (x : BitVec 1024) : Option Code :=
  if !inTorus d (rOrg x) then some 0x0128
  else if [0, 1, 2].any (fun k => extent d k < rExt x k * rStr x k) then some 0x0501
  else if rRank d x (selfId d) = none then some 0x0501
  else if dOpcode x = 4 ∧ 4096 < rN x then some 0x0501
  else none

/-- The box allows direct exchange (R269). -/
def directOk (x : BitVec 1024) : Bool := rN x ≤ 64 && [0, 1, 2].all fun k => (rExt x k - 1) * rStr x k + 1 ≤ 4
def rDirect (x : BitVec 1024) : Bool := dOpcode x ≤ 3 && (rMode x = 2 || (rMode x = 0 && directOk x))

/-! ### The context of a running collective -/

/-- What a collective's steps read: descriptor, opcode, own rank, whether direct exchange runs, shard lengths, elements of a
chunk, and the source and destination tensors in sequence order. -/
structure RCx where
  x : BitVec 1024
  op : Nat
  me : Nat
  job : BitVec 16
  direct : Bool
  lens : List Nat
  ce : Nat
  pairs : List (TDesc × TDesc)
  tabs : List (List Nat)
  snaps : List (List F32)
  deriving DecidableEq, Repr

/-- Consecutive pairs. -/
def pairsOf : List TDesc → List (TDesc × TDesc)
  | a :: b :: l => (a, b) :: pairsOf l
  | _ => []

/-- Bits of an element as chunks count them (R264). -/
def rWidth (x : BitVec 1024) (pairs : List (TDesc × TDesc)) : Nat :=
  if dOpcode x ≤ 2 then ((Fmt.ofCode (rWfmt x)).getD .fp32).width
  else if dOpcode x = 6 then 64
  else match pairs with | p :: _ => (fmtOf p.1).width | [] => 8

def rCx (d : Dev) (t : Nat) (r : RunOp) : RCx :=
  let x := r.q.desc
  let ps := pairsOf (r.tds.drop 1)
  { x := x, op := dOpcode x, me := (rRank d x (selfId d)).getD 0
    job := ((polderOf d (runPolder d t r)).map Polder.job).getD 0
    direct := rDirect x, lens := r.lists.headD [], ce := 4096 * 2 ^ rChunk x * 8 / rWidth x ps, pairs := ps
    tabs := r.lists.drop 1, snaps := r.snaps }

def total (l : List Nat) : Nat := l.foldl (· + ·) 0

/-- A chunk: its number, first element, elements and shard (R266). -/
structure Chunk where
  no : Nat
  start : Nat
  len : Nat
  owner : Nat
  deriving DecidableEq, Repr

/-- The pieces of one shard. -/
def cutShard (ce : Nat) (start len owner : Nat) : List (Nat × Nat × Nat) :=
  (List.range (ceilDiv len ce)).map fun i => (start + i * ce, min ce (len - i * ce), owner)

def cutShards (ce : Nat) : Nat → Nat → List Nat → List (Nat × Nat × Nat)
  | _, _, [] => []
  | o, start, l :: ls => cutShard ce start l o ++ cutShards ce (o + 1) (start + l) ls

/-- The chunks in order of their numbers. An all-to-all has one per peer rank. -/
def RCx.chunks (c : RCx) : List Chunk :=
  if c.op = 4 then (List.range (rN c.x)).map fun r => ⟨r, total (c.lens.take r), c.lens.getD r 0, r⟩
  else
    let l := cutShards c.ce 0 0 c.lens
    (List.zip (List.range l.length) l).map fun p => ⟨p.1, p.2.1, p.2.2.1, p.2.2.2⟩

/-- The first element of the own shard. -/
def RCx.base (c : RCx) : Nat := total (c.lens.take c.me)

/-- The tensor of a sequence and the place in it of an element. -/
def seqFind : List Nat → Nat → Nat → Option (Nat × Nat)
  | [], _, _ => none
  | n :: ns, i, e => if e < n then some (i, e) else seqFind ns (i + 1) (e - n)

/-! ### Phases and lines (R267, R269) -/

/-- A phase: its number, its dimension (3: all members, under direct exchange), and whether it reduces. -/
structure Phase where
  no : Nat
  dim : Nat
  red : Bool
  deriving DecidableEq, Repr

def RCx.phases (c : RCx) : List Phase :=
  if c.op = 4 ∨ c.op = 5 ∨ c.op = 7 then []
  else if c.direct then
    match c.op with
    | 1 => [⟨0, 3, true⟩, ⟨3, 3, false⟩]
    | 2 => [⟨0, 3, true⟩]
    | _ => [⟨0, 3, false⟩]
  else
    match c.op with
    | 2 => [⟨0, 0, true⟩, ⟨1, 1, true⟩, ⟨2, 2, true⟩]
    | 3 => [⟨0, 0, false⟩, ⟨1, 1, false⟩, ⟨2, 2, false⟩]
    | _ => [⟨0, 0, true⟩, ⟨1, 1, true⟩, ⟨2, 2, true⟩, ⟨3, 2, false⟩, ⟨4, 1, false⟩, ⟨5, 0, false⟩]

/-- Members of a line of the phase. -/
def RCx.lineLen (c : RCx) (p : Phase) : Nat := if p.dim = 3 then rN c.x else rExt c.x p.dim

/-- The ranks whose data this member needs for a chunk in a phase, and those to which it sends; none where it takes no part. -/
def RCx.line (c : RCx) (p : Phase) (owner : Nat) : Option (List Nat × List Nat) :=
  if p.dim = 3 then
    let others := (List.range (rN c.x)).filter (· ≠ c.me)
    if p.red then (if c.me = owner then some (others, []) else some ([], [owner]))
    else (if c.me = owner then some ([], others) else some ([owner], []))
  else
    let k := p.dim
    let rest := if c.op = 3 then [0, 1, 2].filter (k < ·) else [0, 1, 2].filter (· < k)
    if rest.any (fun j => rankIx c.x j c.me ≠ rankIx c.x j owner) then none
    else
      let m := rankIx c.x k c.me
      let o := rankIx c.x k owner
      let left := if m = 0 then [] else [rankSet c.x k c.me (m - 1)]
      let right := if m + 1 < rExt c.x k then [rankSet c.x k c.me (m + 1)] else []
      if p.red then
        if m < o then some (left, right) else if o < m then some (right, left) else some (left ++ right, [])
      else if m < o then some (right, left) else if o < m then some (left, right) else some ([], left ++ right)

/-! ### Elements on the wire -/

/-- The wire format of partial sums. -/
def RCx.wire (c : RCx) : FFmt := (((Fmt.ofCode (rWfmt c.x)).getD .fp32).float?).getD fp32

/-- The tensor in whose format an element travels where it is not the wire format: source or destination. -/
def RCx.tdOf (c : RCx) (dst : Bool) (e : Nat) : TDesc :=
  let tds := c.pairs.map fun p => if dst then p.2 else p.1
  match seqFind (tds.map tCount) 0 e with
  | some (i, _) => tds.getD i 0
  | none => tds.headD 0

/-- The source tensor of an element of a gather's sequence: each member's shard holds the entries of its bundle in turn, of
which every member has the same (R276). -/
def RCx.gathered (c : RCx) (e : Nat) : TDesc :=
  let tds := c.pairs.map Prod.fst
  match seqFind c.lens 0 e with
  | some (_, j) =>
    (match seqFind (tds.map tCount) 0 j with
      | some (i, _) => tds.getD i 0
      | none => tds.getLast?.getD 0)
  | none => tds.headD 0

/-- Bits of an element in a phase: wfmt on lines; under direct exchange contributions in src's format and results in dst's;
otherwise its source's format. A scaled FP8 contribution travels as the FP32 it widens to. -/
def RCx.bitsOf (c : RCx) (p : Phase) (e : Nat) : Nat :=
  if c.op = 6 then 64
  else if c.op ≤ 2 then
    if !c.direct then rWidth c.x c.pairs
    else
      let td := c.tdOf (!p.red) e
      if p.red && tSrefKind td ≠ 0 then 32 else (fmtOf td).width
  else (fmtOf (c.gathered e)).width

/-- Codes of given widths laid one after another, least significant bit first. -/
def packBits : List (Nat × Nat) → Nat
  | [] => 0
  | (w, c) :: l => c % 2 ^ w + packBits l * 2 ^ w

def unpackBits : List Nat → Nat → List Nat
  | [], _ => []
  | w :: ws, n => n % 2 ^ w :: unpackBits ws (n / 2 ^ w)

/-- The payload of some codes in whole 8 B units, zeros beyond the last element. -/
def payloadOf (l : List (Nat × Nat)) : List Byte :=
  toBytes (8 * ceilDiv (total (l.map Prod.fst)) 64) (packBits l)

/-- Elements per packet of 256 B, for elements of given widths in turn. -/
def cutGo : Nat → Nat → List Nat → List Nat
  | n, _, [] => if n = 0 then [] else [n]
  | n, used, w :: ws => if used + w ≤ 2048 then cutGo (n + 1) (used + w) ws else n :: cutGo 1 w ws

/-- The packets of a run of elements from e on: first element and widths of each. -/
def splitGo : Nat → List Nat → List Nat → List (Nat × List Nat)
  | _, _, [] => []
  | e, ws, n :: ns => (e, ws.take n) :: splitGo (e + n) (ws.drop n) ns

def RCx.packets (c : RCx) (p : Phase) (k : Chunk) : List (Nat × List Nat) :=
  let ws := (List.range k.len).map fun i => c.bitsOf p (k.start + i)
  splitGo k.start ws (cutGo 0 0 ws)

/-! ### The checks at the start -/

def words32At (l : List Byte) : List Nat := (List.range (l.length / 4)).map fun i => leAt l (4 * i) 4

/-- The bundle list's offsets, source and destination of each entry in turn. -/
def rTdOfs (x : BitVec 1024) (bnd : List Nat) : List (Option Nat) :=
  let op := dOpcode x
  (if op = 1 ∨ op = 2 ∨ op = 5 then tdField x 223 192 else none) ::
    (if rBcount x ≠ 0 then bnd.map some
     else if op = 6 then []
     else if op = 5 then [tdField x 159 128, none]
     else [tdField x 159 128, tdField x 191 160])

/-- A tensor that the opcode needs is absent, or PERMUTE's dst_td is present. -/
def rAbsent (x : BitVec 1024) : Bool :=
  let op := dOpcode x
  if op = 6 ∨ (op ≤ 3 ∧ rBcount x ≠ 0) then false
  else if op = 5 then tdField x 159 128 = none || tdField x 191 160 ≠ none
  else tdField x 159 128 = none || tdField x 191 160 = none

/-- Formats and roles (R184, R264). -/
def rFmtErr (x : BitVec 1024) (ps : List (TDesc × TDesc)) : Option Code :=
  let op := dOpcode x
  let float (td : TDesc) : Bool := (fmtOf td).float?.isSome
  firstErr (ps.map fun p =>
    if tCmp p.1 ∨ (op ≠ 5 ∧ tCmp p.2) then some 0x0456
    else if op ≤ 2 then req (float p.1 && float p.2) 0x0404
    else if op = 5 then none
    else req (tFmt p.1 = tFmt p.2) 0x0404)

/-- The shard lengths (R266). -/
def rLens (x : BitVec 1024) (ps : List (TDesc × TDesc)) (aux : List Nat) : List Nat :=
  let n := rN x
  let src := total (ps.map fun p => tCount p.1)
  match dOpcode x with
  | 6 => 1 :: List.replicate (n - 1) 0
  | 7 => [src]
  | 4 => aux.take n
  | op =>
    if rAuxEn x then aux.take n
    else
      let e := if op = 3 then n * src else src
      let q := ceilDiv e n
      (List.range n).map fun r => min q (e - r * q)

/-- The checks of R266 and R277. -/
def rLensErr (x : BitVec 1024) (me : Nat) (ps : List (TDesc × TDesc)) (lens : List Nat) : Option Code :=
  let src := total (ps.map fun p => tCount p.1)
  let dst := total (ps.map fun p => tCount p.2)
  match dOpcode x with
  | 1 =>
    if total lens ≠ src then some 0x0503
    else firstErr (ps.map fun p => req (tCount p.1 = tCount p.2) 0x0430)
  | 2 => req (total lens = src && lens.getD me 0 = dst && (rAuxEn x || src = rN x * dst)) 0x0503
  | 3 => req (lens.getD me 0 = src && total lens = dst) 0x0503
  | 4 => req (rAuxEn x && total lens = src) 0x0503
  | 7 => firstErr (ps.map fun p => req (tShape p.1 = tShape p.2) 0x0430)
  | _ => none

/-- A record of a permutation table (R278). -/
structure PRec where
  srank : Nat
  drank : Nat
  soff : Nat
  doff : Nat
  len : Nat
  ok : Bool
  deriving DecidableEq, Repr

def pRec (bs : List Byte) (i : Nat) : PRec :=
  let v := leAt bs (64 + 32 * i) 32
  { srank := bits v 19 0, drank := bits v 51 32, soff := bits v 95 64, doff := bits v 127 96, len := bits v 159 128
    ok := bits v 31 20 = 0 && bits v 63 52 = 0 && bits v 255 160 = 0 && bits v 159 128 ≠ 0 }

def overlap (a n b m : Nat) : Bool := a < b + m && b < a + n

/-- The outgoing ranges of a member whose source overlaps an incoming range: those it copies to the hold tensor (R279). -/
def pHeld (me : Nat) (rs : List PRec) : List PRec :=
  rs.filter fun r => r.srank = me && rs.any fun q => q.drank = me && overlap r.soff r.len q.doff q.len

/-- Some pair of ranges overlaps. -/
def anyOverlap : List PRec → Bool
  | [] => false
  | r :: rs => rs.any (fun q => overlap r.doff r.len q.doff q.len) || anyOverlap rs

/-- R279's checks of the records that name this member. -/
def permErr (x : BitVec 1024) (me : Nat) (src hold : TDesc) (rs : List PRec) : Option Code :=
  let mine := rs.filter fun r => r.srank = me || r.drank = me
  let n := tCount src
  -- a record's source range lies in its sender's tensor, its destination range in its receiver's
  req (mine.all (fun r => r.ok && r.srank < rN x && r.drank < rN x && (r.srank ≠ me || r.soff + r.len ≤ n)
      && (r.drank ≠ me || r.doff + r.len ≤ n))
    && !anyOverlap (mine.filter fun r => r.drank = me)
    && total ((pHeld me rs).map PRec.len) ≤ (if tdField x 223 192 = none then 0 else tCount hold)) 0x0506

/-- The aux table's bytes: n words for lengths and counts, header and records for a permutation. -/
def auxLen (d : Dev) (acc : Acc) (x : BitVec 1024) : Nat :=
  if dOpcode x = 5 then
    match (memRead d acc (rAux x) 64).2 with
    | .ok h => 64 + 32 * leAt h 0 4
    | .error _ => 64
  else 4 * rN x

/-- A router operation of this job and coll runs already (R287); TRANSFER is none. -/
def collRuns (d : Dev) (t : Nat) (job coll : BitVec 16) : Bool :=
  (List.range 2048).any fun u => u ≠ t &&
    match runOf d u .router with
    | some r => r.begun && r.ended = none && dOpcode r.q.desc ≤ 6 && rColl r.q.desc = coll
        && ((polderOf d (runPolder d u r)).map Polder.job) = some job
    | none => false

/-- A stage-queue ring that a transfer's destination touches (R324): polder's queue by qid. -/
def ringOf (px : Polder) (dst : TDesc) : Option (Nat × StageQ) :=
  let rs := tRuns dst (fmtOf dst).width
  List.find? (fun (e : Nat × StageQ) => !e.2.role && (tDev dst).toNat = e.2.peer.toNat &&
    rs.any fun r => overlap r.1 r.2 e.2.ring (e.2.nslot * e.2.ssize)) px.queues

/-- The placement of a push (R324): from the queue's tile, within slot P mod nslot, starting at its base. -/
def pushOk (t : Nat) (q : StageQ) (dst : TDesc) : Bool :=
  let base := q.ring + q.p.toNat % q.nslot * q.ssize
  q.tile = t && tBase dst = base
    && (tRuns dst (fmtOf dst).width).all fun r => base ≤ r.1 && r.1 + r.2 ≤ base + q.ssize

/-- Checks that need no tensor. -/
def rDescErr (d : Dev) (t : Nat) (px : Polder) (x : BitVec 1024) : Option Code :=
  let op := dOpcode x
  if !rFieldsOk x then some 0x0402
  else if rBcount x ≠ 0 ∧ (3 < op ∨ 256 < rBcount x) then some 0x0505
  else if rAbsent x then some 0x0402
  else
    firstErr [
      if op = 7 then none else boxErr d x,
      req (rChunk x ≤ 4 && rMode x ≠ 3 && !(rMode x = 2 && op ≤ 3 && !directOk x)) 0x0504,
      if op ≤ 2 then req (rWfmt x ≤ 3) 0x0404 else none,
      if rBcount x ≠ 0 then
        (if rBnd x % 64 ≠ 0 then some 0x0406
         else req (inShare d px t (t * 2 ^ 20 + rBnd x) (t * 2 ^ 20 + rBnd x + 8 * rBcount x)) 0x0505) else none,
      if op = 6 then req (summOk px (rFsrc x) && summOk px (rSreg x)) 0x0409 else none,
      if (op = 4 ∨ op = 5) ∧ !rAuxEn x then some (if op = 4 then 0x0503 else 0x0506) else none,
      if rAuxEn x then
        (if rAux x % 64 ≠ 0 then some 0x0406 else rngErr d px (rAux x) (auxLen d {} x + (if op = 4 then 4 * rN x else 0)))
      else none,
      if op ≠ 7 ∧ collRuns d t px.job (rColl x) then some 0x0502 else none]

/-- Checks of the tensors, lengths and chunks, once they are read; the lists that the operation keeps. -/
def rTensErr (d : Dev) (t : Nat) (pn : PolderNo) (px : Polder) (x : BitVec 1024) (tds : List TDesc) (aux : List Byte) :
    Option Code × List (List Nat) :=
  let op := dOpcode x
  let ps := pairsOf (tds.drop 1)
  let me := (rRank d x (selfId d)).getD 0
  let hold := tds.headD 0
  let hasX := (op = 1 ∨ op = 2 ∨ op = 5) ∧ tdField x 223 192 ≠ none
  let rs := (List.range (if op = 5 then leAt aux 0 4 else 0)).map (pRec aux)
  let lens := if op = 5 then rs.map PRec.len else rLens x ps (words32At aux)
  let w := rWidth x ps
  let nchunks := if op = 4 then rN x else (lens.map fun l => ceilDiv l (4096 * 2 ^ rChunk x * 8 / w)).foldl (· + ·) 0
  (firstErr (
      (ps.flatMap fun p => [if op = 7 then tdSource d pn px p.1 else tdErr d pn px p.1 (op = 5), if op = 5 then none else tdErr d pn px p.2 true])
      ++ [if hasX then
            (if tCmp hold then (tdForm d pn hold (op = 5)).or (some 0x0456) else tdErr d pn px hold (op = 5))
          else none,
          rFmtErr x ps,
          if op = 5 ∧ hasX ∧ tFmt hold ≠ tFmt (ps.headD (0, 0)).1 then some 0x0404 else none]
      ++ (if op ≤ 2 then ps.map (fun p => refsErr d px p.1) else [])
      ++ [rLensErr x me ps lens,
          if op = 5 then permErr x me (ps.headD (0, 0)).1 hold rs else none,
          req (nchunks ≤ 16777216) 0x0504,
          if rCtEn x then rngErr d px (rCtally x) nchunks else none,
          if op = 7 then
            match ringOf px (ps.headD (0, 0)).2 with
            | some (_, q) => req (pushOk t q (ps.headD (0, 0)).2) 0x0508
            | none => none
          else none]),
    lens :: (if op = 5 then [rs.map PRec.srank, rs.map PRec.drank, rs.map PRec.soff, rs.map PRec.doff] else []))

/-- The records that the operation's lists hold. -/
def RCx.recs (c : RCx) : List PRec :=
  (List.range c.lens.length).map fun i =>
    ⟨(c.tabs.getD 0 []).getD i 0, (c.tabs.getD 1 []).getD i 0, (c.tabs.getD 2 []).getD i 0, (c.tabs.getD 3 []).getD i 0,
      c.lens.getD i 0, true⟩

/-- The frozen weight of an ALLREDUCE or REDUCE_SCATTER (R282). -/
def rFrozen (x : BitVec 1024) (tds : List TDesc) : Bool :=
  dOpcode x ≤ 2 && tdField x 223 192 ≠ none && tFrozen (tds.headD 0)

/-- The start: fields, lists, descriptors, checks. -/
def routerBegin (d : Dev) (t : Nat) (r : RunOp) : Dev :=
  let x := r.q.desc
  let pn := runPolder d t r
  let acc := runAcc d t r
  match polderOf d pn with
  | none => d
  | some px =>
    match rDescErr d t px x with
    | some c => refuse d t .router c
    | none =>
      let lst : Dev × Except Code (List Byte) :=
        if rBcount x ≠ 0 then readLocal d t px acc (rBnd x) (8 * rBcount x) else (d, .ok [])
      match lst with
      | (d, .error c) => refuse d t .router c
      | (d, .ok bnd) =>
        match readTds d t px acc (rTdOfs x (words32At bnd)) with
        | (d, .error c) => refuse d t .router c
        | (d, .ok tds) =>
          let tab : Dev × Except Code (List Byte) :=
            if rAuxEn x then memRead d acc (rAux x) (auxLen d acc x) else (d, .ok [])
          match tab with
          | (d, .error c) => refuse d t .router c
          | (d, .ok aux) =>
            match rTensErr d t pn px x tds aux with
            | (some c, _) => refuse d t .router c
            | (none, lists) =>
              -- a frozen weight: DONE with every chunk counted (R282, R425)
              if rFrozen x tds then
                doneRun d t .router (rCx d t { r with tds := tds, lists := lists }).chunks.length
              else onRun d t .router fun r => { r with
                tds := tds, lists := lists, begun := true
                snaps := (pairsOf (tds.drop 1)).map fun p => snapScales d t p.1
                -- OR_FLAG reads its register once, at start (R280)
                work := { r.work with vals := [BitVec.ofNat 32 (b2n (flag (summOf d t (rFsrc x)) 37))] } }

end Sys2Proof.Machine
end

