-- ==== Sys2Proof/Machine/Arrive.lean ====
section
/-! DEFINITION. Packets that arrive for this device (files 10, 19): the checks of R253 to R257, absorption (R460), WRITE and
READ at their destination, the answers at their requester, and the count lines of stage queues (R325). -/

namespace Sys2Proof.Machine

/-! ### The destination's checks -/

/-- A reset domain absorbs the request (R460). -/
def absorbs (d : Dev) (h : BitVec 256) : Bool :=
  d.resets.any fun j =>
    match j.level with
    | 0 => hTgt h = 0 && hDstTile h = j.target
    | 1 => hTgt h = 0 && clusterOf (hDstTile h) = j.target
    | 2 => ((NMap.find? d.polders j.target).map Polder.job) = some (hJob h)
    | _ => (polderOfJob d (hJob h)).isSome

/-- The polder a request acts in, or the kind and status that answer it without action. -/
def arrive (d : Dev) (p : Packet) : Except (Nat × Code) (PolderNo × Polder) :=
  let h := p.hdr
  if !hOk h then .error (7, 0x0124)
  else if !pcrcOk p then .error (answerKind (hKind h), 0x0127)
  else if absorbs d h then .error (6, 0x0B01)
  else if hTgt h = 0 ∧ hAddr h / 2 ^ 20 ≠ hDstTile h then .error (7, 0x0124)
  else
    match polderOfJob d (hJob h) with
    | none => .error (7, 0x0125)
    | some x => .ok x

/-- The kind and status that answer a request of n bytes without action: those of `arrive`, or UNDELIVERED with 0x0403 for
an absent tile's window (R23). -/
def arriveAt (d : Dev) (p : Packet) (n : Nat) : Except (Nat × Code) (PolderNo × Polder) :=
  match arrive d p with
  | .error e => .error e
  | .ok x => if absentIn d (hAddr p.hdr) n then .error (7, 0x0403) else .ok x

/-- The packet is of a kind and for this device. -/
def forMe (d : Dev) (p : Packet) (kind : Nat) : Bool := hKind p.hdr = kind && (hDstDev p.hdr).toNat = selfId d

/-- The access that an arriving request makes. -/
def pktAcc (h : BitVec 256) (pn : PolderNo) : Acc := { cls := hClass h, polder := some pn }

/-! ### Count lines (R325) -/

/-- A count arrives at one end of a queue: kept unless it lies behind the one held or runs past what is possible. -/
def countKept (q : StageQ) (n : W32) : StageQ × Bool :=
  if q.role then
    if behind 32 n.toNat q.c.toNat then (q, false)
    else if q.nslot < (n - q.c).toNat then (q, true)
    else ({ q with c := n }, false)
  else if behind 32 n.toNat q.f.toNat then (q, false)
  else if behind 32 q.c.toNat n.toNat then (q, true)
  else ({ q with f := n }, false)

/-- A write to a queue's count line: the count, the event of one ignored, and the post of the count held. -/
def countLine (d : Dev) (pn : PolderNo) (qid : Nat) (n : W32) : Dev :=
  match (polderOf d pn).bind fun x => NMap.find? x.queues qid with
  | none => d
  | some q =>
    let (q, ignored) := countKept q n
    let d := onPolder d pn fun x => { x with queues := NMap.insert x.queues qid q }
    let d := if ignored then count d 4 0 0x71F 1 (some pn) else d
    postSumm d q.tile q.sreg 7 (if q.role then q.c else q.f).toNat false false

/-- Every count line that the bytes of an arriving write cover. -/
def watchLines (d : Dev) (pn : PolderNo) (a : Nat) (bs : List Byte) : Dev :=
  match polderOf d pn with
  | none => d
  | some x => (x.queues : List (Nat × StageQ)).foldl (fun d e =>
      if a ≤ e.2.line ∧ e.2.line + 4 ≤ a + bs.length then countLine d pn e.1 (BitVec.ofNat 32 (leAt bs (e.2.line - a) 4)) else d) d

/-! ### WRITE and READ at their destination (R254, R256, R260) -/

/-- The words of a payload that arrived poisoned are written poisoned (R260). -/
def poisonWords (d : Dev) (a : Nat) (l : List Nat) : Dev := l.foldl (fun d i => poisonWord d (a + 8 * i)) d

def writeRx (d : Dev) (p : Packet) : Dev :=
  if !forMe d p 0 then d
  else
    let h := p.hdr
    match arriveAt d p p.payload.length with
    | .error e => sendAnswer d h e.1 e.2 []
    | .ok (pn, x) =>
      match addrErr d x (hAddr h) p.payload.length with
      | some c => sendAnswer d h 3 c []
      | none =>
        match memWrite d (pktAcc h pn) (hAddr h) p.payload with
        | (d, some c) => sendAnswer d h 3 c []
        | (d, none) =>
          let d := watchLines d pn (hAddr h) p.payload
          if p.poison = [] then sendAnswer d h 3 0 []
          else sendAnswer (poisonWords d (hAddr h) p.poison) h 3 0x0310 []

def readRx (d : Dev) (p : Packet) : Dev :=
  if !forMe d p 1 then d
  else
    let h := p.hdr
    match arriveAt d p (8 * hLen h) with
    | .error e => sendAnswer d h e.1 e.2 []
    | .ok (pn, x) =>
      if ctrsOk d x (hAddr h) (8 * hLen h) then
        let (d, bs) := ctrRead d (some pn) (hAddr h) (8 * hLen h)
        sendAnswer d h 2 0 bs
      else
      match addrErr d x (hAddr h) (8 * hLen h) with
      | some c => sendAnswer d h 2 c []
      | none =>
        match memRead d (pktAcc h pn) (hAddr h) (8 * hLen h) with
        | (d, .error c) => sendAnswer d h 2 c []
        | (d, .ok bs) => sendAnswer d h 2 0 bs

/-! ### Answers at their requester (R255, R459) -/

def aStatus (h : BitVec 256) : Code := BitVec.ofNat 16 (hAddr h % 65536)

/-- The request that an answer answers: same tag, number, phase where it is RED_DATA, and device; but a router on the way
may send UNDELIVERED (R249). -/
def answers (h : BitVec 256) (kinds : List Nat) (q : Req) : Bool :=
  q.tag = hTag h && (q.dev = hSrcDev h || hKind h = 7) && kinds.contains q.kind && q.no = hChunk h * 256 + hPidx h
    && (q.kind ≠ 4 || q.addr = hAddr h / 2 ^ 40)

/-- UNDELIVERED from a return word, which holds no number (R260): it answers an open request of its op tag. -/
def answersLost (h : BitVec 256) (kinds : List Nat) (q : Req) : Bool :=
  hKind h = 7 && hStream h = 0 && hChunk h = 0 && hPidx h = 0 && hDstTile h = (hTag h).toNat / 32 && q.tag = hTag h && kinds.contains q.kind

/-- A quarantined slot whose last abandoned request is answered is freed (R459). -/
def unquarantine (d : Dev) (tag : BitVec 16) : Dev :=
  let t := tag.toNat / 32
  let slot := tag.toNat % 32
  let d := count d 1 t 0x418 1 none
  if (slotOf d t slot).use = .quarantined then freeSlot d t slot else d

/-- The engine of a tile that runs the operation of a slot. -/
def engineOfSlot (d : Dev) (t slot : Nat) : Option EngineId :=
  [EngineId.fuller, .steamer, .napper, .carder, .blocker, .router].find? fun e =>
    match runOf d t e with | some r => r.q.slot = slot | none => false

/-- The running operation of a tag changed. -/
def onTagged (d : Dev) (tag : BitVec 16) (f : RunOp → RunOp) : Dev :=
  match engineOfSlot d (tag.toNat / 32) (tag.toNat % 32) with
  | some e => onRun d (tag.toNat / 32) e f
  | none => d

/-- A bad status in an answer ends the operation PARTIAL with it (R255). -/
def badAnswer (d : Dev) (q : Req) (c : Code) : Dev :=
  match engineOfSlot d (q.tag.toNat / 32) (q.tag.toNat % 32) with
  | some e => onRun d (q.tag.toNat / 32) e fun r => r.noteBad e q.kind q.dev.toNat q.addr q.len c
  | none => d

/-- A request taken off the list: one that was abandoned only frees its slot. -/
def dropReq (d : Dev) (q : Req) : Dev × Option Req :=
  let d := onFabric d fun b => { b with reqs := b.reqs.erase q }
  if q.abandoned then (unquarantine d q.tag, none) else (d, some q)

/-- A held packet goes out by the new tables; its request is answered here when no way leads to its device (R249, R255). -/
def sendHeld (d : Dev) (k : Packet) : Dev :=
  match route d k none false with
  | (d, none) => d
  | (d, some c) =>
    match d.fabric.reqs.find? (isReqOf k.hdr) with
    | none => d
    | some q =>
      match dropReq d q with
      | (d, some q) => badAnswer d q c
      | (d, none) => d

/-- Held flows of which every earlier packet is answered go on (R249). -/
def releaseFlows (d : Dev) : Dev :=
  let (free, held) := d.fabric.heldFlows.partition (flowFree d)
  let d := onFabric d fun b => { b with heldFlows := held }
  free.foldl (fun d f => f.pkts.foldl sendHeld d) d

/-- The request of an answer taken off the list; ordered flows that waited for it go on. An answer to an abandoned request
is discarded. -/
def takeReq (d : Dev) (h : BitVec 256) (kinds : List Nat) : Dev × Option Req :=
  match (d.fabric.reqs.find? (answers h kinds)).or (d.fabric.reqs.find? (answersLost h kinds)) with
  | none => (d, none)
  | some q =>
    let (d, q) := dropReq d q
    (releaseFlows d, q)

/-- An answer of a kind for this device: the request that it answers, and its status. A malformed one is returned (R253);
of one whose pcrc does not match nothing is used, and its request ends badly with 0x0127 (R256). -/
def answerAt (d : Dev) (p : Packet) (kind : Nat) (kinds : List Nat) : Dev × Option (Req × Code) :=
  if !forMe d p kind then (d, none)
  else if !hOk p.hdr then (sendAnswer d p.hdr 7 0x0124 [], none)
  else
    match takeReq d p.hdr kinds with
    | (d, none) => (d, none)
    | (d, some q) => (d, some (q, if pcrcOk p then aStatus p.hdr else 0x0127))

/-- The bytes of an answer kept with what the operation fetched. -/
def keepBytes (m : NMap Byte) (dev a : Nat) (bs : List Byte) : NMap Byte :=
  (List.zip (List.range bs.length) bs).foldl (fun m p => NMap.insert m (fkey dev (a + p.1)) p.2) m

def readDataRx (d : Dev) (p : Packet) : Dev :=
  match answerAt d p 2 [1] with
  | (d, none) => d
  | (d, some (q, c)) =>
    if c ≠ 0 then badAnswer d q c
    else if p.poison ≠ [] then badAnswer d q 0x0310
    else onTagged d q.tag fun r => { r with fetched := keepBytes r.fetched q.dev.toNat q.addr p.payload }

def writeAckRx (d : Dev) (p : Packet) : Dev :=
  match answerAt d p 3 [0] with
  | (d, none) => d
  | (d, some (q, c)) => if c ≠ 0 then badAnswer d q c else d

def execWriteRx (p : Packet) (s : State) : Out := onDev s fun d => writeRx d p
def execReadRx (p : Packet) (s : State) : Out := onDev s fun d => readRx d p
def execReadDataRx (p : Packet) (s : State) : Out := onDev s fun d => readDataRx d p
def execWriteAckRx (p : Packet) (s : State) : Out := onDev s fun d => writeAckRx d p

/-- The write to a count line lands in scratchpad, and the router takes the count (R325). -/
def execCountLineWrite (p : PolderNo) (qid : BitVec 3) (n : W32) (s : State) : Out := onDev s fun d =>
  match (polderOf d p).bind fun x => NMap.find? x.queues qid.toNat with
  | none => d
  | some q => countLine (memWrite d { polder := some p } q.line (toBytes 4 n.toNat)).1 p qid.toNat n

end Sys2Proof.Machine
end

