-- ==== Sys2Proof/Machine/Collect.lean ====
section
/-! DEFINITION. Collectives in passing (file 11): streams with their contexts, staging and spill basins (R271 to R275), the
sums of line phases and direct exchange (R267 to R270), all-to-all, permutation, flag and transfer (R277 to R281), failed
and aborted chunks (R283 to R286), and what packets of these do on arrival. -/

namespace Sys2Proof.Machine

/-! ### The running collective -/

def rst (d : Dev) (t : Nat) : RouterSt := ((runOf d t .router).map fun r => r.work.router).getD {}
def onRst (d : Dev) (t : Nat) (f : RouterSt → RouterSt) : Dev :=
  onRun d t .router fun r => { r with work := { r.work with router := f r.work.router } }

def ckey (phase n : Nat) : Nat := phase * 2 ^ 40 + n

/-- A router operation that has begun and not ended. -/
def liveRun (d : Dev) (t : Nat) : Option RunOp :=
  match runOf d t .router with
  | some r => if r.begun ∧ r.ended = none then some r else none
  | none => none

/-- The tile on which the local operation of a collective runs. -/
def collTile (d : Dev) (job coll : BitVec 16) : Option Nat :=
  (List.range 2048).find? fun t =>
    match liveRun d t with
    | some r => dOpcode r.q.desc ≤ 6 && rColl r.q.desc = coll && ((polderOf d (runPolder d t r)).map Polder.job) = some job
    | none => false

def isStream (job coll : BitVec 16) (phase : Nat) (s : Stream) : Bool := s.job = job && s.coll = coll && s.phase = phase
def streamOf (d : Dev) (job coll : BitVec 16) (phase : Nat) : Option Stream := d.coll.streams.find? (isStream job coll phase)
def onStream (d : Dev) (job coll : BitVec 16) (phase : Nat) (f : Stream → Stream) : Dev :=
  onColl d fun c => { c with streams := c.streams.map fun s => if isStream job coll phase s then f s else s }

/-- A stream holds a context or basin room. -/
def Stream.ready (s : Stream) : Bool := s.ctx ≠ none || s.spill ≠ none

/-- Room that a stream needs for chunks of a size code, a number of them in flight: twice those (R271). -/
def roomFor (chunk deep : Nat) : Nat := 2 * (4096 * 2 ^ chunk) * deep
def roomOf (x : BitVec 1024) : Nat := roomFor (rChunk x) (rDepth x + 1)

/-- A stream given a context and staging, else room in the lowest-numbered basin tile that has it (R271, R274); unchanged
where there is neither. A stream that takes a context clears its chunk-time histogram (R490). -/
def placeStream (d : Dev) (s : Stream) : Dev × Stream :=
  let free := (List.range 64).find? fun i => d.coll.streams.all fun q => q.ctx ≠ some i
  let staged := total (d.coll.streams.map fun q => if q.ctx ≠ none then q.units else 0)
  match free with
  | some i =>
    if staged + ceilDiv s.units 65536 * 65536 ≤ 512 * 65536 then
      ({ d with counters := { d.counters with ctxHist := NMap.clear d.counters.ctxHist (16 * i) (16 * i + 16) } },
        { s with ctx := some i, units := ceilDiv s.units 65536 * 65536 })
    else spillIn d s
  | none => spillIn d s
where
  /-- Room in a basin. -/
  spillIn (d : Dev) (s : Stream) : Dev × Stream :=
    match polderOf d s.polder with
    | none => (d, s)
    | some x =>
      let used (t : Nat) : Nat := total (d.coll.streams.map fun q => if q.polder = s.polder ∧ q.spill = some t then q.units else 0)
      match (List.range 2048).find? fun t => x.spillTiles.contains t && used t + s.units ≤ x.spsize with
      | some t =>
        -- what is staged lies in the tile's spill region, in no stated layout (R316)
        (churn (count d 4 0 0x71C 1 (some s.polder)) { polder := some s.polder } (t * 2 ^ 20 + x.spillOfs) x.spsize, { s with spill := some t })
      | none => (d, s)

/-- A stream joins the device's streams, with room where there is some. -/
def addStream (d : Dev) (s : Stream) : Dev :=
  let (d, s) := placeStream d s
  onColl d fun c => { c with streams := c.streams ++ [s] }

/-- The stream of a phase, opened by its local operation: one that was opened from upstream takes the descriptor's chunk,
depth and slow-member limit now. -/
def openStream (d : Dev) (pn : PolderNo) (job coll : BitVec 16) (phase : Nat) (x : BitVec 1024) : Dev :=
  match streamOf d job coll phase with
  | some _ => onStream d job coll phase fun s => { s with
      deep := rDepth x + 1, slow := rSlow x
      units := if s.ctx ≠ none then ceilDiv (roomOf x) 65536 * 65536 else roomOf x }
  | none => addStream d { job := job, coll := coll, phase := phase, polder := pn, units := roomOf x, deep := rDepth x + 1, slow := rSlow x }

/-- The stream of a phase, opened from upstream before its local operation starts (R271). Chunk, depth and slow-member limit
are those of a descriptor that this device has not seen: the spec gives no default, so that they are free until then. -/
def openEarly (d : Dev) (pn : PolderNo) (job coll : BitVec 16) (phase : Nat) : Dev :=
  match streamOf d job coll phase with
  | some _ => d
  | none =>
    let (d, v) := fresh d
    let deep := fld v 5 3 + 1
    addStream d { job := job, coll := coll, phase := phase, polder := pn, units := roomFor (fld v 2 0 % 5) deep, deep := deep, slow := fld v 21 6 }

def dropStream (d : Dev) (job coll : BitVec 16) (phase : Nat) : Dev :=
  onColl d fun c => { c with streams := c.streams.filter fun s => !isStream job coll phase s }

/-- Progress of a stream (R283). -/
def progress (s : Stream) : Stream := { s with quiet := 0, noted := 0 }

/-! ### Sending (R271, R272) -/

/-- The direction in which a line phase's packet leaves, toward the next higher or lower index: never by the wrap link of a
line that spans its ring (R267). -/
def lineDir (d : Dev) (c : RCx) (phase dev : Nat) : Option Nat :=
  match c.phases.find? (fun p => p.no = phase), rRank d c.x dev with
  | some p, some r => if p.dim = 3 then none else some (2 * p.dim + b2n (decide (rankIx c.x p.dim r < rankIx c.x p.dim c.me)))
  | _, _ => none

/-- RED_DATA of an operation: an open, a fail mark or data. A packet that has nowhere to go is answered at once with the
status returned. -/
def sendRed (d : Dev) (t : Nat) (r : RunOp) (c : RCx) (dev phase elem chunk pidx : Nat) (pl : List Byte) : Dev × Option Code :=
  let tag := opTag t r.q.slot
  let h := mkHdr { dstDev := dev, dstTile := 0, cls := dClass c.x, ord := false, kind := 4, tgt := 2, tag := tag.toNat,
                   job := c.job.toNat, srcDev := selfId d, srcTile := t, addr := ckey phase elem, stream := (rColl c.x).toNat,
                   chunk := chunk, pidx := pidx } pl
  let q : Req := { tag := tag, no := chunk * 256 + pidx % 256, dev := BitVec.ofNat 20 dev, kind := 4, addr := phase, len := pl.length }
  let d := onFabric d fun b => { b with reqs := b.reqs ++ [q] }
  match sendPacket d ⟨h, pl, []⟩ (lineDir d c phase dev) with
  | (d, none) => (d, none)
  | (d, some s) => (onFabric d fun b => { b with reqs := b.reqs.erase q }, some s)

/-! An all-to-all's counts and data and a permutation's ranges pass through no in-passing unit; their packets carry the numbers
6, 7 and 8 where those of streams carry a phase (assumption log). -/

/-- The entry of the chunk tally that a phase, chunk number and device concern: of an all-to-all, the device's rank. -/
def entryOf (d : Dev) (c : RCx) (dev chunk : Nat) : Nat := if c.op = 4 then (rRank d c.x dev).getD 0 else chunk

/-- The ranks to which this member sends a chunk, by phase. -/
def targets (c : RCx) (k : Chunk) : List (Nat × Nat) :=
  if c.op = 5 then
    match c.recs[k.owner]? with
    | some p => if p.srank = c.me ∧ p.drank ≠ c.me then [(8, p.drank)] else []
    | none => []
  else if c.op = 4 then (if k.no = c.me then [] else [(7, k.no)])
  else c.phases.flatMap fun p => match c.line p k.owner with | some (_, dn) => dn.map fun r => (p.no, r) | none => []

/-- A chunk fails here (R284): nothing more of it is written, its staging is freed, and fail marks go, in place of data, to
the members that await it. -/
def failChunk (d : Dev) (t n code : Nat) (status : Code) : Dev :=
  match liveRun d t with
  | none => d
  | some r =>
    let c := rCx d t r
    if (NMap.find? (rst d t).failed n).isSome then d
    else
      let d := onRst d t fun q => { q with failed := NMap.insert q.failed n (code, status) }
      let d := onColl d fun b => { b with streams := b.streams.map fun s =>
        if (s.job = c.job && s.coll = rColl c.x && c.op ≠ 4) = true then { s with staged := s.staged.filter fun g => g.chunk ≠ n } else s }
      match c.chunks[n]? with
      | none => d
      | some k => (targets c k).foldl (fun d g =>
          let dev := rMember d c.x g.2
          let key := ckey g.1 n
          if (NMap.get (rst d t).sent [] key).contains dev then d
          else
            let d := (sendRed d t r c dev g.1 0 (if c.op = 4 then c.me else n) 0xFF []).1
            onRst d t fun q => { q with sent := NMap.insert q.sent key (dev :: NMap.get q.sent [] key) }) d

/-- The code of R285 and the operation's status that a bad answer gives a chunk. -/
def codeOf (s : Code) : Nat × Code :=
  if s = 0x0310 then (4, 0x0310) else if s = 0x0511 then (3, 0x0511) else if s = 0x0512 then (5, 0x0512)
  else (2, 0x0510)

/-- An open of a stream toward a device: sent once, and again never. True when it has been answered. -/
def openTo (d : Dev) (t : Nat) (r : RunOp) (c : RCx) (phase dev : Nat) : Dev × Bool × Option Code :=
  if d.coll.openOk.contains (c.job, rColl c.x, phase, dev) then (d, true, none)
  else if d.fabric.reqs.any (fun q => q.tag = opTag t r.q.slot && q.kind = 4 && q.addr = phase && q.dev.toNat = dev && q.no = 0xFE && q.len = 0) then
    (d, false, none)
  else
    let (d, s) := sendRed d t r c dev phase 0 0 0xFE []
    (d, false, s)

/-- The chunks that this member sends to a device in a phase all fail: it refused or never got the open. -/
def openFailed (d : Dev) (t : Nat) (c : RCx) (phase dev : Nat) (s : Code) : Dev :=
  (c.chunks.filter fun k => (targets c k).any fun g => g.1 = phase && rMember d c.x g.2 = dev).foldl
    (fun d k => failChunk d t k.no (codeOf s).1 (codeOf s).2) d

/-- Codes sent to a device as the chunk's packets. -/
def sendCodes (d : Dev) (t : Nat) (r : RunOp) (c : RCx) (dev phase chunk : Nat) (pks : List (Nat × List Nat)) (codes : List Nat) :
    Dev × Option Code :=
  (pks.foldl (fun (s : (Dev × Option Code) × List Nat × Nat) p =>
    let n := p.2.length
    let (d, e) := sendRed s.1.1 t r c dev phase p.1 chunk (s.2.2 % 256) (payloadOf (List.zip p.2 s.2.1))
    ((d, s.1.2.or e), s.2.1.drop n, s.2.2 + 1)) ((d, none), codes, 0)).1

/-! ### Values -/

/-- The member's own contribution to elements from e on, in FP32 (R268). -/
def contrib (acc : Acc) (r : RunOp) (c : RCx) : Dev → Nat → Nat → Dev × Except Code (List F32)
  | d, 0, _ => (d, .ok [])
  | d, n + 1, e =>
    if c.op = 6 then (d, .ok [r.work.vals.headD 0])
    else
      match seqFind (c.pairs.map fun p => tCount p.1) 0 e with
      | none => (d, .ok [])
      | some (i, j) =>
        let td := (c.pairs.getD i (0, 0)).1
        match elemAt d acc r td (c.snaps.getD i []) fp32 (tIndex td j) with
        | (d, .error s) => (d, .error s)
        | (d, .ok (v, _)) =>
          match contrib acc r c d n (e + 1) with
          | (d, .ok l) => (d, .ok (rne32 v :: l))
          | x => x

/-- The own shard's codes of a gather from its n-th element on: the sources of its bundle in turn (R276). -/
def shardCodes (acc : Acc) (r : RunOp) (c : RCx) : Dev → Nat → Nat → Dev × Except Code (List Nat)
  | d, 0, _ => (d, .ok [])
  | d, n + 1, j =>
    match seqFind (c.pairs.map fun p => tCount p.1) 0 j with
    | none => (d, .ok [])
    | some (i, e) =>
      match readCodes d acc r (c.pairs.getD i (0, 0)).1 e 1 with
      | (d, some s, _) => (d, .error s)
      | (d, none, l) =>
        match shardCodes acc r c d n (j + 1) with
        | (d, .ok m) => (d, .ok (l ++ m))
        | x => x

/-- Codes of the source from element e of a tensor on. -/
def srcCodes (d : Dev) (acc : Acc) (r : RunOp) (td : TDesc) (e n : Nat) : Dev × Except Code (List Nat) :=
  match readCodes d acc r td e n with
  | (d, some s, _) => (d, .error s)
  | (d, none, l) => (d, .ok l)

/-- A value to its wire code, and back. -/
def RCx.enc (c : RCx) (v : F32) : Nat × Cls := if c.op = 6 then (v.toNat, .none) else c.wire.conv (rConv c.x) (val32 v)
def RCx.dec (c : RCx) (n : Nat) : F32 := if c.op = 6 then BitVec.ofNat 32 n else rne32 (c.wire.decode n)
def RCx.add (c : RCx) (a b : F32) : F32 := if c.op = 6 then a ||| b else fadd a b

/-- Conversions counted (R56, R270). -/
def countCls (d : Dev) (t : Nat) (l : List Cls) : Dev :=
  onRun d t .router fun r => { r with counts := l.foldl Counts.add r.counts }

/-- A direct contribution as it travels: the source's own code, or FP32 where a scale belongs to it. -/
def RCx.rawCode (c : RCx) (e : Nat) (v : F32) : Nat :=
  let td := c.tdOf false e
  if tSrefKind td ≠ 0 then v.toNat
  else match (fmtOf td).float? with | some F => F.rne (val32 v) | none => 0
def RCx.rawVal (c : RCx) (e n : Nat) : F32 :=
  let td := c.tdOf false e
  if tSrefKind td ≠ 0 then BitVec.ofNat 32 n
  else match (fmtOf td).float? with | some F => rne32 (F.decode n) | none => 0

/-- The chunk's codes as a device sent them: none while a packet is missing; some none when one was poisoned. -/
def stagedCodes (s : Stream) (c : RCx) (p : Phase) (k : Chunk) (dev : Nat) : Option (Option (List Nat)) :=
  (c.packets p k).foldr (fun pk acc =>
    match acc, s.staged.find? (fun g => g.dev = dev && g.chunk = k.no && g.elem = pk.1) with
    | some a, some g =>
      some (match a with
        | some l => if g.bad then none else some (unpackBits pk.2 (ofBytes g.data) ++ l)
        | none => none)
    | _, _ => none) (some (some []))

/-- The chunk's codes from several devices in turn. -/
def stagedAll (s : Stream) (c : RCx) (p : Phase) (k : Chunk) : List Nat → Option (Option (List (List Nat)))
  | [] => some (some [])
  | dev :: ds =>
    match stagedCodes s c p k dev, stagedAll s c p k ds with
    | some a, some b => some (match a, b with | some x, some l => some (x :: l) | _, _ => none)
    | _, _ => none

/-! ### Writing results -/

/-- The destination of a sequence element: its tensor and index; none where this member writes none. -/
def RCx.dest (c : RCx) (e : Nat) : Option (TDesc × List Nat) :=
  let i := if c.op = 2 then e - c.base else e
  (seqFind (c.pairs.map fun p => tCount p.2) 0 i).map fun q =>
    let td := (c.pairs.getD q.1 (0, 0)).2
    (td, tIndex td q.2)

/-- A finished code of a sequence element converted to the destination's format: wire codes under conv, others as they are;
what a gather brings from an entry of another format is converted (R276). -/
def RCx.toDst (c : RCx) (td : TDesc) (e code : Nat) : Nat × Cls :=
  if c.op ≤ 2 ∧ !c.direct then
    match (fmtOf td).float? with
    | some F => F.conv (rConv c.x) (val32 (c.dec code))
    | none => (code, .none)
  else if c.op = 3 ∧ fmtOf td ≠ fmtOf (c.gathered e) then
    match (fmtOf (c.gathered e)).float?, (fmtOf td).float? with
    | some G, some F => F.conv 0 (G.decode code)
    | _, _ => (code, .none)
  else (code, .none)

/-- Finished elements written in turn. -/
def writeFin (t : Nat) (r : RunOp) (c : RCx) : Dev → Nat → List Nat → Dev × Option Code
  | d, _, [] => (d, none)
  | d, e, n :: ns =>
    match c.dest e with
    | none => writeFin t r c d (e + 1) ns
    | some (td, ix) =>
      let (code, cls) := c.toDst td e n
      match writeAt d t .router r td ix code with
      | (d, some s) => (d, some s)
      | (d, none) => writeFin t r c (countCls d t [cls]) (e + 1) ns

/-- Values kept under keys from one on. -/
def keepAt {α : Type} (m : NMap α) : Nat → List α → NMap α
  | _, [] => m
  | k, v :: vs => keepAt (NMap.insert m k v) (k + 1) vs

/-- A chunk's finished codes arrive at this member: kept, and written to the destination. -/
def finishChunk (d : Dev) (t : Nat) (r : RunOp) (c : RCx) (k : Chunk) (codes : List Nat) : Dev × Option Code :=
  let d := onRst d t fun q => { q with fin := keepAt q.fin k.start codes }
  if c.op = 6 then (d, none) else writeFin t r c d k.start codes

/-! ### One chunk of a phase (R267 to R269) -/

/-- The chunk's last reduce phase is over: the result's codes, counted (R268, R269). -/
def resultCodes (d : Dev) (t : Nat) (c : RCx) (k : Chunk) (s : List F32) : Dev × List Nat :=
  let l := (List.zip (List.range s.length) s).map fun p =>
    if c.direct then
      match c.dest (k.start + p.1) with
      | some (td, _) => (match (fmtOf td).float? with | some F => F.conv (rConv c.x) (val32 p.2) | none => (0, .none))
      | none => (match (fmtOf (c.tdOf true (k.start + p.1))).float? with
          | some F => F.conv (rConv c.x) (val32 p.2) | none => (0, .none))
    else c.enc p.2
  (countCls d t (l.map Prod.snd), l.map Prod.fst)

/-- The values this member brings into a reduce phase: its contribution, or its result of the phase before. -/
def ownValues (d : Dev) (t : Nat) (r : RunOp) (c : RCx) (p : Phase) (k : Chunk) : Dev × Option (Except Code (List F32)) :=
  if p.no = 0 then
    match contrib (runAcc d t r) r c d k.len k.start with
    | (d, x) => (d, some x)
  else
    let q := rst d t
    let l := (List.range k.len).map fun i => NMap.find? q.res (ckey (p.no - 1) (k.start + i))
    if l.all Option.isSome then (d, some (.ok (l.map fun o => o.getD 0))) else (d, none)

/-- What the chunk's step gives: nothing yet, a failure with its code, or the codes to send on. -/
inductive Step1 where
  | wait | fail (code : Nat) (status : Code) | go (codes : List Nat)
  deriving DecidableEq, Repr

/-- The sum at this member (R268): on a line the passing partials in order, left first; under direct exchange every
contribution in ascending rank. -/
def sumHere (c : RCx) (p : Phase) (k : Chunk) (up : List Nat) (v : List F32) (ins : List (List Nat)) : List F32 :=
  let addL (a b : List F32) : List F32 := List.zipWith c.add a b
  if p.dim = 3 then
    let vals (l : List Nat) : List F32 := (List.zip (List.range l.length) l).map fun q => c.rawVal (k.start + q.1) q.2
    let parts := ((List.zip up (ins.map vals)).filter fun q => q.1 < c.me).map Prod.snd ++ [v]
      ++ ((List.zip up (ins.map vals)).filter fun q => c.me < q.1).map Prod.snd
    match parts with
    | [] => v
    | a :: l => l.foldl addL a
  else
    -- the left partial, or at a member before the owner the passing one, comes first
    (List.zip up ins).foldl (fun s q =>
      let w := q.2.map c.dec
      if q.1 < c.me then addL w s else addL s w) v

/-- The work of a chunk in a phase once what it needs is here. -/
def chunkWork (d : Dev) (t : Nat) (r : RunOp) (c : RCx) (p : Phase) (k : Chunk) (up : List Nat) : Dev × Step1 :=
  let devs := up.map (rMember d c.x)
  let s := (streamOf d c.job (rColl c.x) p.no).getD { job := c.job, coll := rColl c.x, phase := p.no, polder := 0 }
  if devs ≠ [] ∧ s.fails.contains k.no then (d, .fail 2 0x0510)
  else
    match stagedAll s c p k devs with
    | none => (d, .wait)
    | some none => (d, .fail 4 0x0310)
    | some (some ins) =>
      if p.red then
        match ownValues d t r c p k with
        | (d, none) => (d, .wait)
        | (d, some (.error e)) => (d, if e = 0x0310 ∨ e = 0x0311 then .fail 4 0x0310 else .fail 2 e)
        | (d, some (.ok v)) =>
          let sum := sumHere c p k up v ins
          let owner := if p.dim = 3 then k.owner = c.me else rankIx c.x p.dim c.me = rankIx c.x p.dim k.owner
          if owner then
            let d := onRst d t fun q => { q with res := keepAt q.res (ckey p.no k.start) sum }
            if p.dim = 2 ∨ p.dim = 3 then
              let (d, codes) := resultCodes d t c k sum
              match finishChunk d t r c k codes with
              | (d, some e) => (d, .fail 2 e)
              | (d, none) => (d, .go [])
            else (d, .go [])
          else if p.dim = 3 then (d, .go ((List.zip (List.range v.length) v).map fun q => c.rawCode (k.start + q.1) q.2))
          else
            let l := sum.map c.enc
            (countCls d t (l.map Prod.snd), .go (l.map Prod.fst))
      else
        match ins with
        | codes :: _ =>
          match finishChunk d t r c k codes with
          | (d, some e) => (d, .fail 2 e)
          | (d, none) => (d, .go codes)
        | [] =>
          let q := rst d t
          let l := (List.range k.len).map fun i => NMap.find? q.fin (k.start + i)
          if l.all Option.isSome then (d, .go (l.map fun o => o.getD 0))
          else if c.op = 3 ∧ k.owner = c.me ∧ p.no = 0 then
            match shardCodes (runAcc d t r) r c d k.len (k.start - c.base) with
            | (d, .error e) => (d, if e = 0x0310 ∨ e = 0x0311 then .fail 4 0x0310 else .fail 2 e)
            | (d, .ok codes) =>
              match finishChunk d t r c k codes with
              | (d, some e) => (d, .fail 2 e)
              | (d, none) => (d, .go codes)
          else (d, .wait)

/-- The chunk's codes go to each target whose open is answered. -/
def chunkSend (d : Dev) (t : Nat) (r : RunOp) (c : RCx) (p : Phase) (k : Chunk) (codes : List Nat) (dn : List Nat) : Dev :=
  dn.foldl (fun d rk =>
    let dev := rMember d c.x rk
    let key := ckey p.no k.no
    if (NMap.get (rst d t).sent [] key).contains dev ∨ (NMap.find? (rst d t).failed k.no).isSome then d
    else
      match openTo d t r c p.no dev with
      | (d, _, some s) => openFailed d t c p.no dev s
      | (d, false, none) => d
      | (d, true, none) =>
        let d := onRst d t fun q => { q with sent := NMap.insert q.sent key (dev :: NMap.get q.sent [] key) }
        match sendCodes d t r c dev p.no k.no (c.packets p k) codes with
        | (d, none) => d
        | (d, some s) => failChunk d t k.no (codeOf s).1 (codeOf s).2) d

/-- The phase and chunk has ended here: complete, or failed. -/
def chunkOver (q : RouterSt) (phase n : Nat) : Bool := q.done.contains (ckey phase n) || (NMap.find? q.failed n).isSome

/-- The chunk's work and sending; one that exchanges no packet is complete at once. -/
def chunkPump (d : Dev) (t : Nat) (c : RCx) (p : Phase) (k : Chunk) : Dev :=
  match liveRun d t, c.line p k.owner with
  | some r, some (up, dn) =>
    let key := ckey p.no k.no
    if chunkOver (rst d t) p.no k.no then d
    else
      match NMap.find? (rst d t).out key with
      | some codes => chunkSend d t r c p k codes dn
      | none =>
        match chunkWork d t r c p k up with
        | (d, .wait) => d
        | (d, .fail code s) => failChunk d t k.no code s
        | (d, .go codes) =>
          let d := onRst d t fun q => { q with
            out := NMap.insert q.out key codes
            done := if c.lineLen p = 1 then key :: q.done else q.done }
          let d := onStream d c.job (rColl c.x) p.no fun s => { s with staged := s.staged.filter fun g => g.chunk ≠ k.no }
          chunkSend d t r c p k codes dn
  | _, _ => d

/-- The chunks in which this member takes part in a phase, in order, and those that may be in hand (R275). -/
def phaseChunks (c : RCx) (p : Phase) : List Chunk := c.chunks.filter fun k => (c.line p k.owner).isSome
def windowOf (c : RCx) (p : Phase) (q : RouterSt) : List Chunk :=
  let l := phaseChunks c p
  if c.lineLen p = 1 then l
  else
    ((List.zip (List.range l.length) l).filter fun e =>
      e.1 ≤ rDepth c.x || (match l[e.1 - (rDepth c.x + 1)]? with | some b => chunkOver q p.no b.no | none => true)).map Prod.snd

/-- A phase on this member is over. -/
def phaseOver (c : RCx) (p : Phase) (q : RouterSt) : Bool := (phaseChunks c p).all fun k => chunkOver q p.no k.no

def phasePump (d : Dev) (t : Nat) (c : RCx) (p : Phase) : Dev :=
  let ready := c.lineLen p = 1 || ((streamOf d c.job (rColl c.x) p.no).map Stream.ready).getD false
  let d := if ready then (windowOf c p (rst d t)).foldl (fun d k => chunkPump d t c p k) d else d
  if phaseOver c p (rst d t) then dropStream d c.job (rColl c.x) p.no else d

/-! ### All-to-all (R277) -/

/-- The offsets that the counts known so far give, in ascending source rank: for each the rank, and its offset or none when
it is refused. A segment that would pass the destination's end is refused with every later one. -/
def placeCounts (room : Nat) (counts : NMap Nat) : Nat → Nat → Nat → List (Nat × Option Nat)
  | 0, _, _ => []
  | f + 1, rk, pos =>
    match NMap.find? counts rk with
    | none => []
    | some n =>
      if room < pos + n then (rk, none) :: placeCounts room counts f (rk + 1) (room + 1)
      else (rk, some pos) :: placeCounts room counts f (rk + 1) (pos + n)

def a2aPlaces (c : RCx) (q : RouterSt) : List (Nat × Option Nat) :=
  placeCounts (tCount (c.pairs.headD (0, 0)).2) q.counts (rN c.x) 0 0

/-- Counts that may be answered now are answered with the segment's offset, or refused. -/
def a2aAnswer (d : Dev) (t : Nat) (c : RCx) : Dev :=
  (a2aPlaces c (rst d t)).foldl (fun d e =>
    let dev := rMember d c.x e.1
    match d.coll.asks.find? (fun p => hJob p.hdr = c.job && hStream p.hdr = rColl c.x && (hSrcDev p.hdr).toNat = dev) with
    | none => d
    | some p =>
      let d := onColl d fun b => { b with asks := b.asks.erase p }
      match e.2 with
      | some o => sendAnswer d p.hdr 5 0 (toBytes 8 o)
      | none => onRst (sendAnswer d p.hdr 5 0x0507 []) t fun q => { q with refIn := e.1 :: q.refIn }) d

/-- The element writes of a segment in the own destination. -/
def writeCodes (d : Dev) (t : Nat) (r : RunOp) (td : TDesc) (e : Nat) (codes : List Nat) : Dev × Option Code :=
  match writeList t .router r td d 0 ((List.zip (List.range codes.length) codes).map fun p => (tIndex td (e + p.1), p.2)) with
  | (d, some (s, _)) => (d, some s)
  | (d, none) => (d, none)

/-- The counts go out; the own count is known at once. -/
def a2aCounts (d : Dev) (t : Nat) (r : RunOp) (c : RCx) : Dev :=
  (List.range (rN c.x)).foldl (fun d rk =>
    let dev := rMember d c.x rk
    if rk = c.me then onRst d t fun q => { q with counts := NMap.insert q.counts rk (c.lens.getD rk 0) }
    else if (NMap.get (rst d t).sent [] (ckey 6 rk)).contains dev ∨ (NMap.find? (rst d t).failed rk).isSome then d
    else
      let d := onRst d t fun q => { q with sent := NMap.insert q.sent (ckey 6 rk) [dev] }
      match sendRed d t r c dev 6 0 c.me 0 (toBytes 8 (c.lens.getD rk 0)) with
      | (d, none) => d
      | (d, some s) => failChunk d t rk (codeOf s).1 (codeOf s).2) d

/-- The packets of a run of elements of one width, as they leave from a place. -/
def evenPackets (w start n : Nat) : List (Nat × List Nat) :=
  let ws := List.replicate n w
  splitGo start ws (cutGo 0 0 ws)

/-- A segment whose offset is known goes out; the own one is copied here. -/
def a2aData (d : Dev) (t : Nat) (r : RunOp) (c : RCx) : Dev :=
  let src := (c.pairs.headD (0, 0)).1
  let q := rst d t
  let own := ((a2aPlaces c q).find? fun e => e.1 = c.me).map Prod.snd
  let d := match own with
    | some none => onRst d t fun q => { q with refIn := c.me :: q.refIn, refOut := c.me :: q.refOut }
    | _ => d
  c.chunks.foldl (fun d k =>
    let dev := rMember d c.x k.no
    let ofs : Option Nat := if k.no = c.me then own.bind id else NMap.find? (rst d t).offs k.no
    match ofs with
    | none => d
    | some o =>
      if (NMap.get (rst d t).sent [] (ckey 7 k.no)).contains dev ∨ (NMap.find? (rst d t).failed k.no).isSome then d
      else
        match srcCodes d (runAcc d t r) r src k.start k.len with
        | (d, .error e) => failChunk d t k.no (if e = 0x0310 ∨ e = 0x0311 then 4 else 2) e
        | (d, .ok codes) =>
          let d := onRst d t fun q => { q with sent := NMap.insert q.sent (ckey 7 k.no) [dev] }
          if k.no = c.me then
            match writeCodes d t r (c.pairs.headD (0, 0)).2 o codes with
            | (d, some e) => failChunk d t k.no 2 e
            | (d, none) => onRst d t fun q => { q with got := NMap.insert q.got k.no k.len }
          else
            match sendCodes d t r c dev 7 c.me (evenPackets (fmtOf src).width o k.len) codes with
            | (d, none) => d
            | (d, some s) => failChunk d t k.no (codeOf s).1 (codeOf s).2) d

/-- The entry of a peer is over: its segment has come whole or was refused, and the one for it has been sent and answered or
was refused; each way goes on without the other (R277). -/
def a2aOver (d : Dev) (t : Nat) (r : RunOp) (c : RCx) (k : Chunk) : Bool :=
  let q := rst d t
  let dev := rMember d c.x k.no
  (NMap.find? q.failed k.no).isSome ||
    ((q.refIn.contains k.no || (NMap.find? q.counts k.no).any (fun n => NMap.get q.got 0 k.no = n))
      && (q.refOut.contains k.no || ((NMap.get q.sent [] (ckey 7 k.no)).contains dev
        && !(openReqs d t r.q.slot).any fun g => g.dev.toNat = dev && g.kind = 4)))

/-- The received counts, 0 for a refused segment, written at aux + 4n once all are known. -/
def a2aTable (d : Dev) (t : Nat) (r : RunOp) (c : RCx) : Dev :=
  let q := rst d t
  let l := a2aPlaces c q
  if l.length < rN c.x ∨ q.done.contains (ckey 2 0) then d
  else
    let bs := l.flatMap fun e => toBytes 4 (if e.2 = none then 0 else NMap.get q.counts 0 e.1)
    let d := onRst d t fun q => { q with done := ckey 2 0 :: q.done }
    (memWrite d (runAcc d t r) (rAux c.x + 4 * rN c.x) bs).1

def a2aPump (d : Dev) (t : Nat) (r : RunOp) (c : RCx) : Dev :=
  let d := a2aCounts d t r c
  let d := a2aAnswer d t c
  let d := a2aTable d t r c
  let d := a2aData d t r c
  let q := rst d t
  let ended := c.chunks.filter fun k => a2aOver d t r c k && !q.done.contains (ckey 0 k.no)
  let (bad, good) := ended.partition fun k => q.refIn.contains k.no || q.refOut.contains k.no
  onRst d t fun s => { s with
    done := good.map (fun k => ckey 0 k.no) ++ s.done
    failed := bad.foldl (fun m k => if (NMap.find? m k.no).isSome then m else NMap.insert m k.no (0, 0x0507)) s.failed }

/-! ### Permutation (R278, R279) -/

/-- Where in the hold tensor each held record begins, by record number. -/
def heldAt (me : Nat) (rs : List PRec) : List (Nat × Nat) :=
  let held := pHeld me rs
  ((List.zip (List.range rs.length) rs).filter fun p => held.contains p.2).foldl
    (fun (s : List (Nat × Nat) × Nat) p => (s.1 ++ [(p.1, s.2)], s.2 + p.2.len)) ([], 0) |>.1

/-- The chunk's place within its record's range. -/
def pOfs (c : RCx) (k : Chunk) : Nat := k.start - total (c.lens.take k.owner)

/-- A chunk that this member sends: read from the hold tensor or in place, then written here or sent on. -/
def permChunk (d : Dev) (t : Nat) (r : RunOp) (c : RCx) (k : Chunk) : Dev :=
  let rs := c.recs
  match rs[k.owner]? with
  | none => d
  | some p =>
    let src := (c.pairs.headD (0, 0)).1
    let dev := rMember d c.x p.drank
    if p.srank ≠ c.me ∨ (NMap.get (rst d t).sent [] (ckey 8 k.no)).contains dev ∨ (NMap.find? (rst d t).failed k.no).isSome then d
    else
      let held := (heldAt c.me rs).find? fun e => e.1 = k.owner
      let from_ := match held with | some e => (r.tds.headD 0, e.2 + pOfs c k) | none => (src, p.soff + pOfs c k)
      match srcCodes d (runAcc d t r) r from_.1 from_.2 k.len with
      | (d, .error e) => failChunk d t k.no (if e = 0x0310 ∨ e = 0x0311 then 4 else 2) e
      | (d, .ok codes) =>
        let d := onRst d t fun q => { q with sent := NMap.insert q.sent (ckey 8 k.no) [dev] }
        if p.drank = c.me then
          match writeCodes d t r src (p.doff + pOfs c k) codes with
          | (d, some e) => failChunk d t k.no 2 e
          | (d, none) => onRst d t fun q => { q with got := NMap.insert q.got k.no k.len }
        else
          match sendCodes d t r c dev 8 k.no (evenPackets (fmtOf src).width (p.doff + pOfs c k) k.len) codes with
          | (d, none) => d
          | (d, some s) => failChunk d t k.no (codeOf s).1 (codeOf s).2

/-- A chunk of a permutation is over at this member. -/
def permOver (d : Dev) (t : Nat) (r : RunOp) (c : RCx) (k : Chunk) : Bool :=
  let q := rst d t
  match c.recs[k.owner]? with
  | none => true
  | some p =>
    (NMap.find? q.failed k.no).isSome ||
      ((p.srank ≠ c.me || ((NMap.get q.sent [] (ckey 8 k.no)).contains (rMember d c.x p.drank)
          && !(openReqs d t r.q.slot).any fun g => g.kind = 4 && g.no / 256 = k.no))
        && (p.drank ≠ c.me || NMap.get q.got 0 k.no = k.len))

def permPump (d : Dev) (t : Nat) (r : RunOp) (c : RCx) : Dev :=
  if !(rst d t).holdDone then d
  else
    let d := c.chunks.foldl (fun d k => permChunk d t r c k) d
    let q := rst d t
    onRst d t fun s => { s with done :=
      ((c.chunks.filter fun k => permOver d t r c k && !q.done.contains (ckey 0 k.no)).map fun k => ckey 0 k.no) ++ s.done }

/-! ### The end of a collective (R280, R284, R285) -/

/-- Every chunk has ended in every phase in which this member takes part. -/
def collOver (c : RCx) (q : RouterSt) : Bool :=
  if c.op = 4 ∨ c.op = 5 ∨ c.op = 7 then c.chunks.all fun k => chunkOver q 0 k.no
  else c.phases.all fun p => phaseOver c p q

/-- The chunk tally's byte (R285). -/
def chunkCode (c : RCx) (q : RouterSt) (n : Nat) : Nat :=
  match NMap.find? q.failed n with
  | some f => f.1
  | none =>
    let reached := if c.op = 4 ∨ c.op = 5 ∨ c.op = 7 then q.done.contains (ckey 0 n)
      else c.phases.all fun p => match c.chunks[n]? with
        | some k => c.line p k.owner = none || q.done.contains (ckey p.no n)
        | none => true
    if reached then 1 else 0

/-- The chunk tallies and the operation's end: PARTIAL at the lowest chunk that did not complete. -/
def collEnd (d : Dev) (t : Nat) : Dev :=
  match liveRun d t with
  | none => d
  | some r =>
    let c := rCx d t r
    let q := rst d t
    let codes := (List.range c.chunks.length).map (chunkCode c q)
    let d := if rCtEn c.x then (memWrite d (runAcc d t r) (rCtally c.x) (codes.map (BitVec.ofNat 8 ·))).1 else d
    let d := if c.op = 7 then d else
      onColl d fun b => { b with
        streams := b.streams.filter fun s => !(s.job = c.job && s.coll = rColl c.x)
        openOk := b.openOk.filter fun e => !(e.1 = c.job && e.2.1 = rColl c.x) }
    match (List.range codes.length).find? (fun n => codes.getD n 1 ≠ 1) with
    | none =>
      let d := if c.op = 6 then
          let v := NMap.get q.fin 0 0
          postSumm d t (rSreg c.x) 4 v false (decide (v ≠ 0))
        else d
      doneRun d t .router codes.length
    | some n => partRun d t .router ((NMap.find? q.failed n).map Prod.snd |>.getD 0x0510) n

/-- Every phase of the collective goes as far as what is here allows. -/
def collStep (d : Dev) (t : Nat) : Dev :=
  match liveRun d t with
  | none => d
  | some r =>
    let c := rCx d t r
    if c.op = 7 then d
    else if c.op = 4 then a2aPump d t r c else if c.op = 5 then permPump d t r c
    else c.phases.foldl (fun d p => phasePump d t c p) d

/-- Which form a RED_DATA has (R272): 0 data, 1 open, 2 fail mark. -/
def redForm (h : BitVec 256) : Nat := if hLen h ≠ 0 then 0 else if hPidx h = 0xFE then 1 else if hPidx h = 0xFF then 2 else 0

/-- The chunk and the place that a packet claims fit the member's sequence (R276). -/
def redFits (c : RCx) (phase chunk elem bytes : Nat) : Bool :=
  match c.phases.find? (fun p => p.no = phase), c.chunks[chunk]? with
  | some p, some k => (c.packets p k).any fun g => g.1 = elem && 8 * ceilDiv (total g.2) 64 = bytes
  | _, _ => false

/-- Data of a line phase or of direct exchange placed in staging (R273). -/
def placeRed (d : Dev) (g : Staged) (job coll : BitVec 16) (phase : Nat) : Dev :=
  onStream d job coll phase fun s => progress { s with staged := s.staged ++ [g] }

/-- A stream takes a packet of a sender's chunk: it holds at most depth + 1 chunks of each (R273, R275). -/
def stageRoom (s : Stream) (dev chunk : Nat) : Bool :=
  let held := ((s.staged.filter fun g => g.dev = dev).map Staged.chunk).dedup
  held.contains chunk || held.length < s.deep

/-- A data packet at its stream: placed in staging and answered, left waiting without an answer while the stream holds its
number of chunks, or the end of its chunk. -/
def redPlace (d : Dev) (t : Nat) (c : RCx) (p : Packet) : Dev :=
  let h := p.hdr
  let phase := hAddr h / 2 ^ 40
  let n := hChunk h
  if !redFits c phase n (hAddr h % 2 ^ 40) p.payload.length then failChunk (sendAnswer d h 5 0x0512 []) t n 5 0x0512
  else if (NMap.find? (rst d t).failed n).isSome then sendAnswer d h 5 0 []
  else if p.poison ≠ [] then failChunk (sendAnswer d h 5 0x0310 []) t n 4 0x0310
  else if ((streamOf d c.job (rColl c.x) phase).map fun s => stageRoom s (hSrcDev h).toNat n).getD true then
    sendAnswer (placeRed d ⟨(hSrcDev h).toNat, n, hAddr h % 2 ^ 40, hPidx h, p.payload, false⟩ c.job (rColl c.x) phase) h 5 0 []
  else onColl d fun b => { b with asks := b.asks ++ [p] }

/-- Data packets that wait for staging. -/
def waitingRed (d : Dev) (job coll : BitVec 16) : List Packet :=
  d.coll.asks.filter fun p => hJob p.hdr = job && hStream p.hdr = coll && redForm p.hdr = 0

/-- The collective goes as far as what is here allows, and so do packets that wait for staging; ENGINE_OP_END ends it. -/
def collTurns (t : Nat) : Nat → Dev → Dev
  | 0, d => collStep d t
  | f + 1, d =>
    let d := collStep d t
    match liveRun d t with
    | none => d
    | some r =>
      let c := rCx d t r
      let ps := waitingRed d c.job (rColl c.x)
      if ps = [] ∨ c.op = 4 ∨ c.op = 5 ∨ c.op = 7 then d
      else
        let d := onColl d fun b => { b with asks := b.asks.filter fun p => !ps.contains p }
        let d := ps.foldl (fun d p => redPlace d t c p) d
        if (waitingRed d c.job (rColl c.x)).length = ps.length then d else collTurns t f d

def collPump (d : Dev) (t : Nat) : Dev := collTurns t (d.coll.asks.length + 1) d

/-! ### Packets of a collective on arrival -/

/-- Elements written straight to a place of a tensor: an all-to-all's data, a permutation's range. -/
def directWrite (d : Dev) (t : Nat) (r : RunOp) (td : TDesc) (p : Packet) (n : Nat) (room : Nat) : Dev :=
  let h := p.hdr
  let w := (fmtOf td).width
  let e := hAddr h % 2 ^ 40
  let k := min (8 * p.payload.length / w) room
  if (NMap.find? (rst d t).failed n).isSome then sendAnswer d h 5 0 []
  else if (rst d t).refIn.contains n then sendAnswer d h 5 0x0507 []
  else if p.poison ≠ [] then failChunk (sendAnswer d h 5 0x0310 []) t n 4 0x0310
  else if tCount td < e + k ∨ k = 0 then failChunk (sendAnswer d h 5 0x0512 []) t n 5 0x0512
  else
    match writeCodes d t r td e (unpackBits (List.replicate k w) (ofBytes p.payload)) with
    | (d, some s) => failChunk (sendAnswer d h 5 s []) t n 2 s
    | (d, none) =>
      let d := onRst d t fun q => { q with got := NMap.upd q.got 0 n (· + k) }
      sendAnswer d h 5 0 []

/-- A data packet at its local operation. -/
def redAt (d : Dev) (t : Nat) (r : RunOp) (p : Packet) : Dev :=
  let h := p.hdr
  let c := rCx d t r
  let phase := hAddr h / 2 ^ 40
  let n := entryOf d c (hSrcDev h).toNat (hChunk h)
  let src := (c.pairs.headD (0, 0)).1
  if c.op = 4 then
    if phase = 6 then
      if (NMap.find? (rst d t).failed n).isSome then sendAnswer d h 5 0x0510 []
      else
        let d := onRst d t fun q => { q with counts := NMap.insert q.counts n (leAt p.payload 0 8) }
        collPump (onColl d fun b => { b with asks := b.asks ++ [p] }) t
    else
      let want := NMap.get (rst d t).counts 0 n
      collPump (directWrite d t r (c.pairs.headD (0, 0)).2 p n (want - NMap.get (rst d t).got 0 n)) t
  else if c.op = 5 then
    if !(rst d t).holdDone then onColl d fun b => { b with asks := b.asks ++ [p] }
    else
      match c.chunks[n]? with
      | none => sendAnswer d h 5 0x0512 []
      | some k =>
        match c.recs[k.owner]? with
        | none => sendAnswer d h 5 0x0512 []
        | some q =>
          if q.drank ≠ c.me then sendAnswer d h 5 0x0512 []
          else collPump (directWrite d t r src p n (k.len - NMap.get (rst d t).got 0 n)) t
  else collPump (redPlace d t c p) t

/-- The checks that every RED_DATA meets (R256, R284). -/
def redArrive (d : Dev) (p : Packet) : Except (Nat × Code) (PolderNo × Polder) :=
  match arrive d p with
  | .error e => .error e
  | .ok x => if d.coll.aborted.contains (hJob p.hdr, hStream p.hdr) then .error (5, 0x0511) else .ok x

/-- Data: to the local operation, or into staging until it starts. A packet that finds no stream concerns a chunk that has
failed here. -/
def redDataRx (d : Dev) (p : Packet) : Dev :=
  let h := p.hdr
  if !forMe d p 4 || redForm h ≠ 0 then d
  else
    match redArrive d p with
    | .error e => sendAnswer d h e.1 e.2 []
    | .ok _ =>
      let phase := hAddr h / 2 ^ 40
      match collTile d (hJob h) (hStream h) with
      | some t => match liveRun d t with | some r => redAt d t r p | none => d
      | none =>
        if phase = 6 ∨ phase = 8 then onColl d fun b => { b with asks := b.asks ++ [p] }
        else
        match streamOf d (hJob h) (hStream h) phase with
        | none => sendAnswer d h 5 0 []
        | some s =>
          if !stageRoom s (hSrcDev h).toNat (hChunk h) then onColl d fun b => { b with asks := b.asks ++ [p] }
          else
          let d := placeRed d ⟨(hSrcDev h).toNat, hChunk h, hAddr h % 2 ^ 40, hPidx h, p.payload, decide (p.poison ≠ [])⟩
            (hJob h) (hStream h) phase
          sendAnswer d h 5 (if p.poison = [] then 0 else 0x0310) []

/-- An open: answered once the stream holds a context or basin room (R272). -/
def redOpenRx (d : Dev) (p : Packet) : Dev :=
  let h := p.hdr
  if !forMe d p 4 || redForm h ≠ 1 then d
  else
    match redArrive d p with
    | .error e => sendAnswer d h e.1 e.2 []
    | .ok (pn, _) =>
      let phase := hAddr h / 2 ^ 40
      let d := match (collTile d (hJob h) (hStream h)).bind (liveRun d) with
        | some r => if (streamOf d (hJob h) (hStream h) phase).isSome then d else openStream d pn (hJob h) (hStream h) phase r.q.desc
        | none => openEarly d pn (hJob h) (hStream h) phase
      if ((streamOf d (hJob h) (hStream h) phase).map Stream.ready).getD false then sendAnswer d h 5 0 []
      else onColl d fun b => { b with opens := b.opens ++ [p] }

/-- The oldest stream without room for which enough has become free gets it, and its waiting opens their answers. -/
def roomGrant (d : Dev) : Dev :=
  match d.coll.streams.find? (fun s => !s.ready && (placeStream d s).2.ready) with
  | none => d
  | some s =>
    let (d, s') := placeStream d s
    if !s'.ready then d
    else
      let mine (p : Packet) : Bool := hJob p.hdr = s.job && hStream p.hdr = s.coll && hAddr p.hdr / 2 ^ 40 = s.phase
      let ps := d.coll.opens.filter mine
      let d := onStream d s.job s.coll s.phase fun _ => s'
      let d := onColl d fun b => { b with opens := b.opens.filter fun p => !mine p }
      let d := ps.foldl (fun d p => sendAnswer d p.hdr 5 0 []) d
      match collTile d s.job s.coll with
      | some t => collPump d t
      | none => d

/-- A fail mark (R284). -/
def failMarkRx (d : Dev) (p : Packet) : Dev :=
  let h := p.hdr
  if !forMe d p 4 || redForm h ≠ 2 then d
  else
    match redArrive d p with
    | .error e => sendAnswer d h e.1 e.2 []
    | .ok (pn, _) =>
      match collTile d (hJob h) (hStream h) with
      | some t =>
        let d := sendAnswer d h 5 0 []
        match liveRun d t with
        | some r => collPump (failChunk d t (entryOf d (rCx d t r) (hSrcDev h).toNat (hChunk h)) 2 0x0510) t
        | none => d
      | none =>
        -- the mark waits for the local operation: with its stream, or without an answer where there is no stream
        if 6 ≤ hAddr h / 2 ^ 40 then onColl d fun b => { b with asks := b.asks ++ [p] }
        else
          let d := sendAnswer (openEarly d pn (hJob h) (hStream h) (hAddr h / 2 ^ 40)) h 5 0 []
          onStream d (hJob h) (hStream h) (hAddr h / 2 ^ 40) fun s => { s with fails := s.fails ++ [hChunk h] }

/-- A RED_DATA of this device is answered, well or badly. -/
def redAnswered (d : Dev) (q : Req) (h : BitVec 256) (status : Code) (pl : List Byte) : Dev :=
  let t := q.tag.toNat / 32
  match liveRun d t with
  | none => d
  | some r =>
    if opTag t r.q.slot ≠ q.tag then d
    else
      let c := rCx d t r
      let dev := q.dev.toNat
      let n := entryOf d c dev (hChunk h)
      if q.no = 0xFE ∧ q.len = 0 then
        if status = 0 then
          collPump (onColl d fun b => { b with openOk := b.openOk ++ [(c.job, rColl c.x, q.addr, dev)] }) t
        else collPump (openFailed d t c q.addr dev status) t
      else if c.op = 4 ∧ q.addr = 6 ∧ status = 0x0507 then
        collPump (onRst d t fun s => { s with refOut := n :: s.refOut }) t
      else if status ≠ 0 then collPump (failChunk d t n (codeOf status).1 (codeOf status).2) t
      else if c.op = 4 ∧ q.addr = 6 then
        collPump (onRst d t fun s => { s with offs := NMap.insert s.offs n (leAt pl 0 8) }) t
      else collPump d t

def redAckRx (d : Dev) (p : Packet) : Dev :=
  match answerAt d p 5 [4] with
  | (d, none) => d
  | (d, some (q, c)) => redAnswered d q p.hdr c p.payload

/-- ABSORBED and UNDELIVERED answer any request: the operation ends PARTIAL with the status, or its chunk fails. -/
def lostRx (d : Dev) (p : Packet) (kind : Nat) : Dev :=
  match answerAt d p kind [0, 1, 4] with
  | (d, none) => d
  | (d, some (q, c)) => if q.kind = 4 then redAnswered d q p.hdr c [] else badAnswer d q c

/-- A chunk-time sample of a context (R490): its length in cycles is open. -/
def chunkTime (d : Dev) (s : Stream) : Dev :=
  match s.ctx with
  | none => d
  | some i =>
    let n := Config.elapsed d.free
    let bin := if n < 2 then 0 else min 15 n.log2
    { d with free := d.free + 1, counters := { d.counters with
        ctxHist := NMap.upd d.counters.ctxHist 0 (16 * i + bin) fun v => if v = 0xFFFFFFFF then v else v + 1 } }

/-- The tile, stream key and context of a chunk that may complete: its packets are all answered and its elements written
(R275). -/
def completable (d : Dev) (job coll : BitVec 16) (phase chunk : Nat) : Option (Nat × RunOp × RCx) :=
  match collTile d job coll with
  | none => none
  | some t =>
    match liveRun d t with
    | none => none
    | some r =>
      let c := rCx d t r
      match c.phases.find? (fun p => p.no = phase), c.chunks[chunk]? with
      | some p, some k =>
        match c.line p k.owner with
        | none => none
        | some (_, dn) =>
          let q := rst d t
          let key := ckey phase chunk
          let sent := NMap.get q.sent [] key
          let waits := (openReqs d t r.q.slot).any fun g =>
            (g.kind = 4 && g.addr = phase && g.no / 256 = chunk && (g.no % 256 ≠ 0xFE || g.len ≠ 0)) || g.kind = 0
          if chunkOver q phase chunk || (NMap.find? q.out key).isNone || dn.any (fun rk => !sent.contains (rMember d c.x rk)) || waits then none
          else some (t, r, c)
      | _, _ => none

/-- The chunk completes, and the stream goes on. -/
def chunkComplete (d : Dev) (job coll : BitVec 16) (phase chunk t : Nat) : Dev :=
  let d := match streamOf d job coll phase with | some s => chunkTime d s | none => d
  let d := onStream (onRst d t fun q => { q with done := ckey phase chunk :: q.done }) job coll phase progress
  collPump d t

/-! ### Slow members and aborts (R283, R284) -/

/-- The device that a chunk awaits in a phase: the upstream member whose data is not all here, else one downstream of it. -/
def awaitsIn (d : Dev) (t : Nat) (c : RCx) (p : Phase) (n : Nat) : Option Nat :=
  match c.chunks[n]? with
  | none => none
  | some k =>
    let (up, dn) := (c.line p k.owner).getD ([], [])
    let here := (NMap.find? (rst d t).out (ckey p.no n)).isSome
    let s := (streamOf d c.job (rColl c.x) p.no).getD { job := c.job, coll := rColl c.x, phase := p.no, polder := 0 }
    match up.find? fun rk => !here && (stagedCodes s c p k (rMember d c.x rk)).isNone with
    | some rk => some (rMember d c.x rk)
    | none => (dn.map (rMember d c.x)).find? fun dev => !here || (openReqs d t ((runOf d t .router).map (fun r => r.q.slot) |>.getD 0)).any fun g => g.kind = 4 && g.addr = p.no && g.dev.toNat = dev

/-- What a stream awaits: its oldest incomplete chunk, and the device, none while the local operation has not started. A
phase that awaits this member's own earlier phase awaits what that one awaits. -/
def awaits (d : Dev) (s : Stream) : Nat × Option Nat :=
  match (collTile d s.job s.coll).bind fun t => (liveRun d t).map fun r => (t, rCx d t r) with
  | none => (((s.staged.map Staged.chunk).min?).getD 0, none)
  | some (t, c) =>
    match c.phases.find? (fun p => p.no = s.phase) with
    | none => (0, some (selfId d))
    | some p =>
      let n := (((phaseChunks c p).find? fun k => !chunkOver (rst d t) p.no k.no).map Chunk.no).getD 0
      let before := (c.phases.filter fun q => q.no ≤ s.phase && !chunkOver (rst d t) q.no n).map fun q => awaitsIn d t c q n
      (n, some ((before.findSome? id).getD (selfId d)))

/-- The slow-member notice (kind 3): after slow tides without progress, and again after each further slow tides. -/
def slowNotice (d : Dev) (job coll : BitVec 16) (phase : Nat) : Dev :=
  match streamOf d job coll phase with
  | none => d
  | some s =>
    let (chunk, dev) := awaits d s
    if s.slow = 0 ∨ s.quiet < s.noted + s.slow then d
    else
      let d := onStream d job coll phase fun s => { s with noted := s.noted + s.slow }
      notice d 3 (some s.polder) 0
        (coll.toNat <<< 96 + (b2n (dev = none)) <<< 112 + (dev.getD 0) <<< 128 + (chunk % 2 ^ 24) <<< 160)

/-- A collective is aborted on this device (R284): incomplete chunks end aborted, everything held is returned, waiting opens
and counts are answered. -/
def collAbort (d : Dev) (job coll : BitVec 16) : Dev :=
  let mine (p : Packet) : Bool := hJob p.hdr = job && hStream p.hdr = coll
  let waiting := (d.coll.opens ++ d.coll.asks).filter mine
  let d := match collTile d job coll with
    | none => d
    | some t =>
      match liveRun d t with
      | none => d
      | some r =>
        let c := rCx d t r
        let q := rst d t
        let open_ := (List.range c.chunks.length).filter fun n => chunkCode c q n = 0 && (NMap.find? q.failed n).isNone
        collEnd (onRst d t fun q => { q with failed := open_.foldl (fun m n => NMap.insert m n (3, 0x0511)) q.failed }) t
  let d := onColl d fun b => { b with
    streams := b.streams.filter fun s => !(s.job = job && s.coll = coll)
    opens := b.opens.filter fun p => !mine p
    asks := b.asks.filter fun p => !mine p
    openOk := b.openOk.filter fun e => !(e.1 = job && e.2.1 = coll)
    aborted := if b.aborted.contains (job, coll) then b.aborted else b.aborted ++ [(job, coll)] }
  waiting.foldl (fun d p => sendAnswer d p.hdr 5 0x0511 []) d

/-! ### The rows -/

/-- The streams that the local operation takes at its start, and the checks of what came early (R273, R276). -/
def collStart (d : Dev) (t : Nat) : Dev :=
  match liveRun d t with
  | none => d
  | some r =>
    let c := rCx d t r
    let coll := rColl c.x
    let pn := runPolder d t r
    let d := onColl d fun b => { b with aborted := b.aborted.filter (· ≠ (c.job, coll)) }
    let ps := (c.phases.filter fun p => 1 < c.lineLen p && phaseChunks c p ≠ []).map Phase.no
    let d := ps.foldl (fun d p => openStream d pn c.job coll p c.x) d
    let early := (d.coll.streams.filter fun s => s.job = c.job && s.coll = coll).flatMap fun s => s.staged.map fun g => (s.phase, g)
    early.foldl (fun d g =>
      if redFits c g.1 g.2.chunk g.2.elem g.2.data.length then d else failChunk d t g.2.chunk 5 0x0512) d

/-- Packets that waited for the local operation or its hold copy are taken up (R277, R279). -/
def takeWaiting (d : Dev) (job coll : BitVec 16) : Dev :=
  let mine (p : Packet) : Bool := hJob p.hdr = job && hStream p.hdr = coll
  let waiting := d.coll.asks.filter mine
  let d := onColl d fun b => { b with asks := b.asks.filter fun p => !mine p }
  waiting.foldl (fun d p => if redForm p.hdr = 2 then failMarkRx d p else redDataRx d p) d

/-- Ranges on other devices that a collective reads or writes in part. -/
def collRngs (d : Dev) (r : RunOp) : List Rng :=
  (pairsOf (r.tds.drop 1)).flatMap fun p =>
    tRngs p.1 (fmtOf p.1).width ++ scaleRngs p.1 ++ (if dOpcode r.q.desc = 5 then tEdges d p.1 (fmtOf p.1).width else tEdges d p.2 (fmtOf p.2).width)

/-- What a router operation reads elsewhere is here, or its reads are lost: then it goes on, and a lost read fails the chunks
that need it (R284, R286). -/
def routerRanges (d : Dev) (t : Nat) (r : RunOp) (gs : List Rng) (go : Dev → Dev) : Dev :=
  match needs d t .router r gs with
  | (d, true) => go d
  | (d, false) =>
    let r := (runOf d t .router).getD r
    if (gs.filter fun g => g.dev ≠ selfId d && !fetchedAll r g) = [] then go d else d

/-- A collective's row: the checks, then, once what lies elsewhere is here, the start. -/
def collRow (d : Dev) (t op : Nat) : Dev :=
  match running d t .router op with
  | none => d
  | some r =>
    let d := if r.begun then d else routerBegin d t r
    match running d t .router op with
    | none => d
    | some r =>
      if !r.begun ∨ r.work.step ≠ 0 then d
      else
        routerRanges d t r (collRngs d r) fun d =>
          let d := onRun d t .router fun r => { r with work := { r.work with step := 1 } }
          let c := rCx d t r
          let early := if c.op = 5 ∧ pHeld c.me c.recs ≠ [] then onRst d t fun q => { q with holdDone := false } else d
          takeWaiting (collPump (collStart early t) t) c.job (rColl c.x)

/-- The copy to the hold tensor (R279), in record order; then what waits in staging is written. -/
def holdCopyEnd (d : Dev) (t : Nat) : Dev :=
  match running d t .router 5 with
  | none => d
  | some r =>
    if r.work.step = 0 ∨ (rst d t).holdDone then d
    else
      let c := rCx d t r
      let src := (c.pairs.headD (0, 0)).1
      let hold := r.tds.headD 0
      let rs := c.recs
      let d := (heldAt c.me rs).foldl (fun d e =>
        match rs[e.1]? with
        | none => d
        | some p =>
          let bad (d : Dev) (code : Nat) (s : Code) : Dev :=
            (c.chunks.filter fun k => k.owner = e.1).foldl (fun d k => failChunk d t k.no code s) d
          match srcCodes d (runAcc d t r) r src p.soff p.len with
          | (d, .error s) => bad d (if s = 0x0310 ∨ s = 0x0311 then 4 else 2) s
          | (d, .ok codes) =>
            match writeCodes d t r hold e.2 codes with
            | (d, some s) => bad d 2 s
            | (d, none) => d) d
      let d := onRst d t fun q => { q with holdDone := true }
      takeWaiting (collPump d t) c.job (rColl c.x)

/-! ### Transfers (R281, R324) -/

/-- One chunk copied: read whole, then written; an unreadable one fails with code 4 and the others go on (R286). -/
def transferChunk (d : Dev) (t : Nat) (r : RunOp) (c : RCx) (k : Chunk) : Dev :=
  let (src, dst) := c.pairs.headD (0, 0)
  match srcCodes d (runAcc d t r) r src k.start k.len with
  | (d, .error e) =>
    onRst d t fun q => { q with failed := NMap.insert q.failed k.no (if e = 0x0310 ∨ e = 0x0311 then 4 else 2, e) }
  | (d, .ok codes) =>
    match (if (tDev dst).toNat = selfId d then writeCodes d t r dst k.start codes
      else writeFar d t .router r dst ((List.zip (List.range codes.length) codes).map fun p => (tIndex dst (k.start + p.1), p.2)) (!rUnord c.x)) with
    | (d, some e) => onRst d t fun q => { q with failed := NMap.insert q.failed k.no (2, e) }
    | (d, none) => onRst d t fun q => { q with done := ckey 0 k.no :: q.done }

/-- The transfer's copy, once what it reads elsewhere is here. -/
def transferRun (d : Dev) (t : Nat) (r : RunOp) : Dev :=
  if collOver (rCx d t r) (rst d t) then d
  else routerRanges d t r (collRngs d r) fun d =>
    let r := (runOf d t .router).getD r
    let c := rCx d t r
    c.chunks.foldl (fun d k => transferChunk d t r c k) d

/-- A push starts (R324): P rises, and the push is followed to its completion. -/
def pushStart (d : Dev) (t : Nat) (r : RunOp) (px : Polder) (qid : Nat) (q : StageQ) : Dev :=
  if q.nslot ≤ (q.p - q.f).toNat then d
  else
    let d := onPolder d (runPolder d t r) fun x => { x with
      queues := NMap.insert px.queues qid { q with p := q.p + 1, flying := q.flying ++ [((opTag t r.q.slot).toNat, r.q.gen, false)] } }
    let d := onRun d t .router fun r => { r with work := { r.work with step := 1 } }
    match runOf d t .router with
    | some r => transferRun d t r
    | none => d

/-- The queue into which a running transfer pushes. -/
def pushQueue (d : Dev) (t : Nat) (r : RunOp) : Option (Polder × Nat × StageQ) :=
  match polderOf d (runPolder d t r) with
  | none => none
  | some px => (ringOf px ((pairsOf (r.tds.drop 1)).headD (0, 0)).2).map fun e => (px, e.1, e.2)

/-- TRANSFER: a push starts when it has credit, any other transfer at once; repeated, it goes on once remote bytes are here. -/
def transferRow (d : Dev) (t : Nat) : Dev :=
  match running d t .router 7 with
  | none => d
  | some r =>
    let d := if r.begun then d else routerBegin d t r
    match running d t .router 7 with
    | none => d
    | some r =>
      if !r.begun then d
      else if r.work.step = 1 then transferRun d t r
      else
        match pushQueue d t r with
        | some (px, qid, q) => pushStart d t r px qid q
        | none =>
          let d := onRun d t .router fun r => { r with work := { r.work with step := 1 } }
          transferRun d t r

/-- A push that waited starts once P − F < nslot. -/
def pushGrant (d : Dev) (t : Nat) : Dev :=
  match running d t .router 7 with
  | some r =>
    if r.begun ∧ r.work.step = 0 then
      match pushQueue d t r with
      | some (px, qid, q) => pushStart d t r px qid q
      | none => d
    else d
  | none => d

/-- Pushes at the head of the list that are complete. -/
def doneHead : List (Nat × BitVec 16 × Bool) → Nat × List (Nat × BitVec 16 × Bool)
  | (_, _, true) :: l => let (n, m) := doneHead l; (n + 1, m)
  | l => (0, l)

/-- The fill line written with C (R324). Its address at the consumer is in no record of the producer: a free value of the
queue, 64 B aligned in the scratchpad window (R323). -/
def fillWrite (d : Dev) (px : Polder) (q : StageQ) (cls : Nat) : Dev :=
  let pl := toBytes 8 q.c.toNat
  let a := (Config.fillLine q.qrec).toNat % 2 ^ 31 / 64 * 64
  let h := mkHdr { dstDev := q.peer.toNat, dstTile := a / 2 ^ 20 % 2048, cls := cls, ord := true, kind := 0, tgt := 0, tag := 0,
                   job := px.job.toNat, srcDev := selfId d, srcTile := q.tile, addr := a } pl
  (sendPacket d ⟨h, pl, []⟩).1

/-- A push has completed: C rises past every push before which nothing is open. -/
def pushDone (d : Dev) (pn : PolderNo) (tag gen : BitVec 16) (cls : Nat) : Dev :=
  match polderOf d pn with
  | none => d
  | some px =>
    match List.find? (fun (e : Nat × StageQ) => e.2.flying.contains (tag.toNat, gen, false)) px.queues with
    | none => d
    | some (qid, q) =>
      let l := q.flying.map fun f => if f = (tag.toNat, gen, false) then (tag.toNat, gen, true) else f
      let (n, rest) := doneHead l
      let q := { q with flying := rest, c := q.c + BitVec.ofNat 32 n }
      let d := onPolder d pn fun x => { x with queues := NMap.insert x.queues qid q }
      if n = 0 then d else fillWrite d px q cls

def execAllreduce (t : TileNo) (s : State) : Out := onDev s fun d => collRow d t.toNat 1
def execReduceScatter (t : TileNo) (s : State) : Out := onDev s fun d => collRow d t.toNat 2
def execAllgather (t : TileNo) (s : State) : Out := onDev s fun d => collRow d t.toNat 3
def execAlltoall (t : TileNo) (s : State) : Out := onDev s fun d => collRow d t.toNat 4
def execPermute (t : TileNo) (s : State) : Out := onDev s fun d => collRow d t.toNat 5
def execPermuteHoldCopyEnd (t : TileNo) (s : State) : Out := onDev s fun d => holdCopyEnd d t.toNat
def execOrFlag (t : TileNo) (s : State) : Out := onDev s fun d => collRow d t.toNat 6
def execTransfer (t : TileNo) (s : State) : Out := onDev s fun d => transferRow d t.toNat
def execPushCreditGrant (t : TileNo) (s : State) : Out := onDev s fun d => pushGrant d t.toNat
def execRedDataRx (p : Packet) (s : State) : Out := onDev s fun d => redDataRx d p
def execRedOpenRx (p : Packet) (s : State) : Out := onDev s fun d => redOpenRx d p
def execStreamRoomGrant (s : State) : Out := onDev s roomGrant
def execFailMarkRx (p : Packet) (s : State) : Out := onDev s fun d => failMarkRx d p
def execRedAckRx (p : Packet) (s : State) : Out := onDev s fun d => redAckRx d p
def execAbsorbedRx (p : Packet) (s : State) : Out := onDev s fun d => lostRx d p 6
def execUndeliveredRx (p : Packet) (s : State) : Out := onDev s fun d => lostRx d p 7
def execSlowMemberNotice (job coll : BitVec 16) (phase : Fin 6) (s : State) : Out :=
  onDev s fun d => slowNotice d job coll phase.val

end Sys2Proof.Machine
end

