-- ==== Sys2Proof/Machine/Blocker.lean ====
section
/-! DEFINITION. The Blocker (file 12): its descriptor and checks (R288 to R294), the arithmetic of UPDATE and OUTER (R295 to
R302, R310), the commit journal (R303 to R309), and its operations as the rows of the table step them. -/

namespace Sys2Proof.Machine

/-! ### Fields (R290) -/

def bF (x : BitVec 1024) (hi lo : Nat) : F32 := BitVec.ofNat 32 (fld x hi lo)
def bSrec (x : BitVec 1024) : Nat := fld x 335 288
def bNvec (x : BitVec 1024) : Nat := fld x 383 336
def bNmat (x : BitVec 1024) : Nat := fld x 431 384
def bVaddr (x : BitVec 1024) : Nat := fld x 479 432
def bLr0 (x : BitVec 1024) : F32 := bF x 511 480
def bBeta1 (x : BitVec 1024) : F32 := bF x 543 512
def bBeta2 (x : BitVec 1024) : F32 := bF x 575 544
def bEps (x : BitVec 1024) : F32 := bF x 607 576
def bWd (x : BitVec 1024) : F32 := bF x 639 608
def bClipc (x : BitVec 1024) : F32 := bF x 671 640
def bGmax (x : BitVec 1024) : F32 := bF x 703 672
def bWmax (x : BitVec 1024) : F32 := bF x 735 704
def bLrf (x : BitVec 1024) : F32 := bF x 767 736
def bTw (x : BitVec 1024) : Nat := fld x 799 768
def bTdec (x : BitVec 1024) : Nat := fld x 831 800
def bStep (x : BitVec 1024) : Nat := fld x 879 832
def bLayer (x : BitVec 1024) : Nat := fld x 895 880
def bOpt (x : BitVec 1024) : Nat := fld x 963 960
def bSched (x : BitVec 1024) : Nat := fld x 965 964
def bClipm (x : BitVec 1024) : Nat := fld x 967 966
def bGsrc (x : BitVec 1024) : Bool := flag x 968
def bSkip (x : BitVec 1024) : Bool := flag x 969
def bWdm (x : BitVec 1024) : Bool := flag x 970
def bConv (x : BitVec 1024) : Nat := fld x 974 971
def bRtag (x : BitVec 1024) : Nat := fld x 990 975
def bRgen (x : BitVec 1024) : BitVec 16 := BitVec.ofNat 16 (fld x 1006 991)
def bNl (x : BitVec 1024) : Nat := fld x 1023 1007

/-- The tensor fields in the order of R305: w, m, v, c, g, em, ev. -/
def bTdAt : Nat → Nat × Nat
  | 0 => (159, 128) | 1 => (191, 160) | 2 => (223, 192) | 3 => (255, 224) | 4 => (287, 256) | 5 => (927, 896) | _ => (959, 928)

/-- The tensors that an opcode uses (R291). -/
def bUses (x : BitVec 1024) (k : Nat) : Bool :=
  match dOpcode x with
  | 1 => (k ≠ 2 && k ≠ 6) || bOpt x = 1
  | 2 => k = 4
  | 3 => k = 0 || k = 2 || k = 4
  | 4 => k ≤ 4
  | 5 => true
  | _ => false

def bHas (x : BitVec 1024) (k : Nat) : Bool := bUses x k && fld x (bTdAt k).1 (bTdAt k).2 ≠ 0xFFFFFFFF

/-- Fields that the opcode does not use, or that UPDATE's optimiser and schedule do not require, are zero, tensors absent; no
reserved encoding (R17, R50, R291). -/
def bFieldsOk (x : BitVec 1024) : Bool :=
  let op := dOpcode x
  let z (ops : List Nat) (hi lo : Nat) : Bool := ops.contains op || fld x hi lo = 0
  ([0, 1, 2, 3, 4, 5, 6].all fun k => bUses x k || fld x (bTdAt k).1 (bTdAt k).2 = 0xFFFFFFFF)
    && (op ≠ 1 || ((bOpt x ≠ 3 || fld x 575 544 = 0) && (bOpt x = 1 || fld x 607 576 = 0)
      && (bSched x ≠ 0 || (fld x 767 736 = 0 && fld x 831 800 = 0))))
    && z [1, 4, 5] 335 288 && z [1, 5] 383 336 && z [1, 2] 431 384 && z [1] 479 432 && z [1, 4] 511 480 && z [1, 4] 543 512
    && z [1] 831 544 && z [1, 2, 4, 5] 879 832 && z [1, 2, 4, 5] 895 880 && z [1] 967 960 && z [1, 2] 968 968
    && z [1] 1006 969 && z [1, 2] 1023 1007 && !flag x 974
    && (op ≠ 1 || ([1, 2, 3].contains (bOpt x) && bSched x ≠ 3 && bClipm x ≠ 3))

/-! ### Element sequences -/

def bTd (tds : List TDesc) (k : Nat) : TDesc := tds.getD k 0

/-- The shard's element count: of the first tensor that is present. -/
def bCount (x : BitVec 1024) (tds : List TDesc) : Nat :=
  match [0, 1, 2, 3, 4, 5, 6].find? (bHas x) with | some k => tCount (bTd tds k) | none => 0

def jBlk : Nat := 4096
def nBlocks (e : Nat) : Nat := ceilDiv e jBlk

/-- A moment tensor in a code format has a scale for each 32 elements of its sequence (R298). -/
def scaleRng (td : TDesc) (lo hi : Nat) : Rng := ⟨(tDev td).toNat, tSrefAddr td + 4 * (lo / 32), 4 * (ceilDiv hi 32 - lo / 32)⟩
def isMoment (td : TDesc) : Bool := (fmtOf td).isCode

/-- The operation as it reads and writes a state tensor: in class C3 where that lies in the DDR5 tier (R226). -/
def stateRun (r : RunOp) (td : TDesc) : RunOp :=
  if ddrBase ≤ tBase td then { r with q := { r.q with desc := putFld r.q.desc 22 20 3 } } else r
def stateAcc (acc : Acc) (td : TDesc) : Acc := if ddrBase ≤ tBase td then { acc with cls := 3 } else acc

/-- Elements of a state tensor widened to FP32 (R296, R298): a code under its block's scale, an escape as NaN. -/
def bVals (acc : Acc) (r : RunOp) (td : TDesc) : Dev → Nat → Nat → Dev × Except Code (List F32)
  | d, 0, _ => (d, .ok [])
  | d, n + 1, e =>
    let one : Dev × Except Code F32 :=
      match readCodes d acc r td e 1 with
      | (d, some c, _) => (d, .error c)
      | (d, none, l) =>
        let code := l.headD 0
        match (fmtOf td).float? with
        | some F => (d, .ok (rne32 (F.decode code)))
        | none =>
          match readRng d acc r (scaleRng td e (e + 1)) with
          | (d, .error c) => (d, .error c)
          | (d, .ok bs) =>
            let s : F32 := BitVec.ofNat 32 (ofBytes bs)
            if scaleOk s then (d, .ok (if isEscape (fmtOf td) code then nan32 else decode32 (fmtOf td) true s code))
            else (d, .error 0x0405)
    match one with
    | (d, .error c) => (d, .error c)
    | (d, .ok v) =>
      match bVals acc r td d n (e + 1) with
      | (d, .ok l) => (d, .ok (v :: l))
      | y => y

/-- Codes written to consecutive elements from e on. -/
def bPut (d : Dev) (t : Nat) (r : RunOp) (td : TDesc) (e : Nat) (codes : List Nat) : Dev × Option Code :=
  match writeList t .blocker (stateRun r td) td d 0 ((List.zip (List.range codes.length) codes).map fun p => (tIndex td (e + p.1), p.2)) with
  | (d, some (c, _)) => (d, some c)
  | (d, none) => (d, none)

def countBlk (d : Dev) (t : Nat) (l : List Cls) : Dev :=
  onRun d t .blocker fun r => { r with counts := l.foldl Counts.add r.counts }

/-- Conversions of moments counted: saturated codes and flushes; R313 has no count for a moment written as infinity. -/
def countMoments (d : Dev) (t : Nat) (l : List Cls) : Dev := countBlk d t (l.filter (· ≠ .nonfin))

/-- Two steps in turn, the second only when the first meets no bad status. -/
def andThen (p : Dev × Option Code) (f : Dev → Dev × Option Code) : Dev × Option Code :=
  match p with | (d, some c) => (d, some c) | (d, none) => f d

/-! ### Writing moments (R298) and the working copy (R299) -/

/-- One block of at most 32 new values under current scaling, with its residuals where there are any. -/
def momentBlock (d : Dev) (t : Nat) (r : RunOp) (td : TDesc) (res : Option (TDesc × List F32)) (conv e : Nat) (vals : List F32) :
    Dev × Option Code :=
  let f := fmtOf td
  let xp := match res with | some p => List.zipWith fadd vals p.2 | none => vals
  let a := (xp.filter ffinite).foldl (fun m v => if flt m (fabs v) then fabs v else m) 0
  let s := (formScale f a 0).getD one32
  let outs := xp.map (encElem f true s 0 0 false false)
  let d := countMoments d t (outs.map EncOut.cls)
  andThen (bPut d t r td e (outs.map EncOut.code)) fun d =>
  andThen (writeRng d t .blocker (stateRun r td) (tDev td).toNat (scaleRng td e (e + 1)).addr (toBytes 4 s.toNat)) fun d =>
  match res with
  | none => (d, none)
  | some p =>
    let F := ((fmtOf p.1).float?).getD fp32
    bPut d t r p.1 e (outs.map fun o => if fmtOf p.1 = .fp32 then o.enew.toNat else (F.conv conv (val32 o.enew)).1)

def momentBlocks (t : Nat) (r : RunOp) (td : TDesc) (res : Option (TDesc × List F32)) (conv : Nat) :
    Nat → Dev → Nat → List F32 → Dev × Option Code
  | 0, d, _, _ => (d, none)
  | f + 1, d, e, vals =>
    if vals = [] then (d, none)
    else
      andThen (momentBlock d t r td (res.map fun p => (p.1, p.2.take 32)) conv e (vals.take 32)) fun d =>
        momentBlocks t r td (res.map fun p => (p.1, p.2.drop 32)) conv f d (e + 32) (vals.drop 32)

/-- New moments from element e on, a multiple of 32. -/
def putMoments (d : Dev) (t : Nat) (r : RunOp) (td : TDesc) (res : Option (TDesc × List F32)) (conv e : Nat) (vals : List F32) :
    Dev × Option Code :=
  match (fmtOf td).float? with
  | some F =>
    let l := vals.map fun v => if fmtOf td = .fp32 then (v.toNat, .none) else F.conv conv (val32 v)
    bPut (countMoments d t (l.map Prod.snd)) t r td e (l.map Prod.fst)
  | none => momentBlocks t r td res conv (vals.length / 32 + 1) d e vals

/-- The settings under which the working copy is encoded. -/
def cEnc (d : Dev) (t : Nat) (r : RunOp) (x : BitVec 1024) (td : TDesc) (snap : List F32) : EncSet :=
  { autoEnc d t r td with snap := snap, conv := if (fmtOf td).isCode then 0 else bConv x }

/-- Working-copy elements from e on made from the new master; the codes go out where the test allows. -/
def cPut (t : Nat) (r : RunOp) (z : EncSet) (put : Nat → Bool) : Dev → EncAcc → Nat → List F32 → Dev × EncAcc × Option Code
  | d, a, _, [] => (d, a, none)
  | d, a, e, v :: vs =>
    let ix := tIndex z.td e
    match encScale d (runAcc d t r) r z ix with
    | (d, .error c) =>
      -- a scale that R44 rejects stops the operation at its channel
      (if c = 0x0405 then partRun d t .blocker c (scaleIdx z.td ix) else d, a, some c)
    | (d, .ok s) =>
      let o := encElem (fmtOf z.td) s.isSome (s.getD one32) z.conv z.esc (decide (a.entries.length < z.cap)) false v
      match (if put e then writeAt d t .blocker r z.td ix o.code else (d, none)) with
      | (d, some c) => (d, a, some c)
      | (d, none) =>
        let a := (a.put (tRow z.td ix) (ix.getD 0 0) o)
        cPut t r z put d (if ffinite v then a.see (scaleIdx z.td ix) v else a) (e + 1) vs

/-- A scale of the working copy that breaks R125, or a reference that R299 refuses. -/
def cScaleErr (td : TDesc) (snap : List F32) : Option Code :=
  let f := fmtOf td
  if (f = .bf16 ∧ tSrefKind td ≠ 0) ∨ (f = .e4m3 ∧ tSrefKind td = 2) then some 0x0426
  else if f = .e4m3 ∧ tSrefKind td = 1 ∧ snap.any (fun s => !pow2Ok s) then some 0x0426
  else none

/-! ### The arithmetic (R295, R296, R301, R310) -/

def one : F32 := one32

/-- The learning rate of step t (R295). -/
def learnRate (x : BitVec 1024) : F32 :=
  let t := bStep x
  let tw := bTw x
  if 0 < tw ∧ t < tw then fmul (bLr0 x) (BitVec.ofNat 32 (fp32.rneQ false (t + 1) tw 0))
  else
    let u := t - tw
    match bSched x with
    | 1 =>
      if bTdec x ≤ u then fmul (bLr0 x) (bLrf x)
      else
        let h := fmul 0x3F000000 (fadd one (fcosPi u (bTdec x)))
        fmul (bLr0 x) (ffma (fsub one (bLrf x)) h (bLrf x))
    | 2 => fmul (bLr0 x) (fpowN (bLrf x) (u / bTdec x))
    | _ => bLr0 x

/-- The clip factor of a norm vector (R301), and whether the sum is non-finite. -/
def clipFactor (x : BitVec 1024) (es : List F32) : F32 × Bool :=
  let g := es.foldl fadd 0
  if !ffinite g then (0, true)
  else
    let r := fsqrt g
    (if fle r (bClipc x) then one else fdiv (bClipc x) r, false)

/-- What an operation computes once (R296). -/
structure UpdK where
  c1 : F32
  c2 : F32
  a : F32
  bc2 : F32
  wdl : F32
  lr : F32
  f : F32
  deriving DecidableEq, Repr

def updK (x : BitVec 1024) (tx : Txn) : UpdK :=
  { c1 := fsub one (bBeta1 x), c2 := fsub one (bBeta2 x)
    a := fdiv tx.lr (fsub one (fpowN (bBeta1 x) tx.n)), bc2 := fsub one (fpowN (bBeta2 x) tx.n)
    wdl := if bWdm x then 0 else fmul tx.lr (bWd x), lr := tx.lr, f := tx.clip }

/-- One element's new state: m', v', w', upd, g², and the counts. -/
structure Upd where
  m : F32
  v : F32
  w : F32
  upd : F32
  gsq : F32
  badG : Bool
  nf : Nat
  sat : Nat
  tg : Nat
  deriving DecidableEq, Repr

def zeroBad (x : F32) : F32 := if ffinite x then x else 0

/-- A value with the magnitude of a bound and the sign of a value. -/
def withSign (x bound : F32) : F32 := if (val32 x).isNeg then fneg bound else bound

/-- R296 for one element. -/
def updElem (x : BitVec 1024) (k : UpdK) (g0 w m v : F32) : Upd :=
  let badG := !ffinite g0
  let g1 := if badG then 0 else g0
  let gsq := fmul g1 g1
  let guard := flt (bGmax x) (fabs g1)
  let g2 := if guard then withSign g1 (bGmax x) else g1
  let g3 := if k.f ≠ one then fmul g2 k.f else g2
  let g := if bWdm x then ffma (bWd x) w g3 else g3
  let vNew := ffma (bBeta2 x) v (fmul k.c2 (fmul g g))
  let mNew :=
    match bOpt x with
    | 1 => ffma (bBeta1 x) m (fmul k.c1 g)
    | 2 => ffma (bBeta2 x) m (fmul k.c2 g)
    | _ => ffma (bBeta1 x) m g
  let upd :=
    match bOpt x with
    | 1 => ffma k.wdl w (fmul k.a (fdiv mNew (fadd (fsqrt (fdiv vNew k.bc2)) (bEps x))))
    | 2 =>
      let s := ffma (bBeta1 x) m (fmul k.c1 g)
      ffma k.wdl w (if fnan? s then nan32 else if fzero? s then 0 else if (val32 s).isNeg then fneg k.lr else k.lr)
    | _ => ffma k.wdl w (fmul k.lr mNew)
  let wNew := fsub w upd
  let bad := (if bOpt x = 1 then [mNew, vNew, upd, wNew] else [mNew, upd, wNew]).filter fun y => !ffinite y
  let w1 := zeroBad wNew
  let past := flt (bWmax x) (fabs w1)
  { m := zeroBad mNew, v := zeroBad vNew, w := if past then withSign w1 (bWmax x) else w1, upd := zeroBad upd, gsq := gsq
    badG := badG, nf := bad.length + b2n badG, sat := b2n past, tg := b2n guard }

/-- R310 for one element: u', a', and values replaced. -/
def outerElem (eta mu u a dl : F32) : F32 × F32 × Nat :=
  let u1 := ffma mu u dl
  let a1 := fsub a (fmul eta (ffma mu u1 dl))
  (zeroBad u1, zeroBad a1, b2n (!ffinite u1) + b2n (!ffinite a1))

/-! ### The journal (R303 to R305) -/

def srecWord (n layer cstep txid epoch : Nat) (open_ : Bool) : Nat :=
  n + layer <<< 32 + cstep <<< 48 + txid <<< 96 + epoch <<< 112 + (b2n open_) <<< 128

/-- A journal header's fields are as R303 has them. -/
def jhdrOk (px : Polder) (h : Nat) : Bool :=
  bits h 95 64 = px.jsize / 4096 && bits h 37 32 ≤ 62 && bits h 63 38 = 0 && bits h 511 96 = 0

def jhdrBytes (px : Polder) (epoch ntx head : Nat) : List Byte :=
  toBytes 64 (epoch % 65536 + (ntx % 65536) <<< 16 + head <<< 32 + (px.jsize / 4096) <<< 64)

def recAddr (px : Polder) (slot : Nat) : Nat := px.jbase + 64 * (slot + 1)

/-- A transaction record with its CRC (R304). -/
def recBytes (txid epoch state op step layer srec tally nblk : Nat) : List Byte :=
  let l := toBytes 60 (txid + epoch <<< 16 + state <<< 32 + op <<< 35 + step <<< 40 + layer <<< 88 + srec <<< 128
    + tally <<< 176 + nblk <<< 224)
  l ++ toBytes 4 (crc32c l)

/-- The record of the running operation in a state. -/
def txnRec (x : BitVec 1024) (tx : Txn) (state nblk : Nat) : List Byte :=
  recBytes tx.txid tx.epoch state (dOpcode x) (bStep x) (bLayer x) (bSrec x) (dTally x) nblk

/-- The element's bytes in a tensor. -/
def elemBytes (td : TDesc) (e : Nat) : Nat × Nat :=
  let w := (fmtOf td).width
  (tBitAddr td w (tIndex td e) / 8, max 1 (w / 8))

def runInsert (x : Nat × Nat) : List (Nat × Nat) → List (Nat × Nat)
  | [] => [x]
  | y :: l => if x.1 ≤ y.1 then x :: y :: l else y :: runInsert x l

/-- Runs in ascending address, those that touch made one. -/
def runJoin : List (Nat × Nat) → List (Nat × Nat)
  | [] => []
  | [x] => [x]
  | x :: y :: l =>
    match runJoin (y :: l) with
    | z :: m => if z.1 ≤ x.1 + x.2 then (x.1, max (x.1 + x.2) (z.1 + z.2) - x.1) :: m else x :: z :: m
    | [] => [x]

/-- The ranges of a tensor that elements lo to hi - 1 occupy. -/
def tensorRuns (td : TDesc) (lo hi : Nat) : List (Nat × Nat) :=
  runJoin (((List.range (hi - lo)).map fun i => elemBytes td (lo + i)).foldr runInsert [])

/-- The state tensors that the operation writes, with whether each has a scale tensor, in the order of R305. -/
def bWritten (x : BitVec 1024) (tds : List TDesc) : List (Nat × Bool) :=
  let has (k : Nat) : Bool := bHas x k
  let code (k : Nat) : Bool := isMoment (bTd tds k)
  (if has 0 then [(0, false)] else []) ++ (if has 1 then [(1, code 1)] else []) ++ (if has 2 then [(2, code 2)] else [])
    ++ (if dOpcode x = 1 ∧ has 5 ∧ code 1 then [(5, false)] else [])
    ++ (if dOpcode x = 1 ∧ has 6 ∧ has 2 ∧ code 2 then [(6, false)] else [])

/-- The runs of a journal block (R305). -/
def blockRuns (x : BitVec 1024) (tds : List TDesc) (j : Nat) : List (Nat × Nat) :=
  let e := bCount x tds
  let lo := j * jBlk
  let hi := min e (lo + jBlk)
  (bWritten x tds).flatMap fun p =>
    let td := bTd tds p.1
    let g := scaleRng td lo hi
    tensorRuns td lo hi ++ (if p.2 then [(g.addr, g.len)] else [])

/-- Bytes from a block's first run word to the end of its padding. -/
def blockLen (x : BitVec 1024) (tds : List TDesc) (j : Nat) : Nat :=
  ceilDiv (total ((blockRuns x tds j).map fun r => 16 + ceilDiv r.2 16 * 16)) 64 * 64

/-- Where a block's pre-images begin. -/
def blockPos (px : Polder) (x : BitVec 1024) (tds : List TDesc) (j : Nat) : Nat :=
  px.jbase + 5120 + total ((List.range j).map fun i => blockLen x tds i + 64)

/-- The context block and every pre-image fit the area (R305). -/
def journalFits (px : Polder) (x : BitVec 1024) (tds : List TDesc) : Bool :=
  blockPos px x tds (nBlocks (bCount x tds)) ≤ px.jbase + px.jsize

/-- The context block: descriptor, seven tensor descriptors, 0xFF for an absent one, zeros. -/
def contextBytes (x : BitVec 1024) (tds : List TDesc) : List Byte :=
  let one (k : Nat) : List Byte := if bHas x k then toBytes 64 (bTd tds k).toNat else List.replicate 64 0xFF
  toBytes 128 x.toNat ++ [0, 1, 2, 3, 4, 5, 6].flatMap one ++ zeros 448

/-- The old values of some runs, each behind its run word and padded to 16 B. -/
def readRuns (acc : Acc) : Dev → List (Nat × Nat) → Dev × Except Code (List Byte)
  | d, [] => (d, .ok [])
  | d, (a, n) :: l =>
    match memRead d acc a n with
    | (d, .error c) => (d, .error (if ddrBase ≤ a ∧ a < ddrEnd then 0x0312 else c))
    | (d, .ok bs) =>
      match readRuns acc d l with
      | (d, .ok rest) => (d, .ok (toBytes 16 (a + n <<< 64) ++ padTo 16 bs ++ rest))
      | y => y

/-- A block's pre-images and header written. -/
def preimage (d : Dev) (acc : Acc) (px : Polder) (x : BitVec 1024) (tds : List TDesc) (tx : Txn) (j : Nat) : Dev × Option Code :=
  match readRuns acc d (blockRuns x tds j) with
  | (d, .error c) => (d, some c)
  | (d, .ok bs) =>
    let data := padTo 64 bs
    let pos := blockPos px x tds j
    andThen (memWrite d acc pos data) fun d =>
      memWrite d acc (pos + data.length)
        (toBytes 64 (tx.txid + tx.epoch <<< 16 + j <<< 32 + data.length <<< 64 + (crc32c data) <<< 96))

/-! ### The checks at the start -/

def bAt (d : Dev) (px : Polder) (a n align : Nat) : Option Code :=
  if a % align ≠ 0 then some 0x0406 else rngErr d px a n

/-- R292's formats. -/
def bFmtOk (x : BitVec 1024) (k : Nat) (f : Fmt) : Bool :=
  let op := dOpcode x
  match k with
  | 0 => f = .fp32
  | 1 => if op = 4 then f = .fp32 else f = .fp32 || f = .bf16 || f = .n8
  | 2 => if op = 3 ∨ op = 4 then f = .fp32 else f = .fp32 || f = .bf16 || f = .u8l
  | 3 => f = .bf16 || f = .e4m3 || f = .n4 || f = .n8
  | 4 => if op = 3 ∨ op = 4 then f = .fp32 else if op = 5 then true else f = .fp32 || f = .bf16 || f = .e5m2
  | 5 => op = 5 || f = .fp32 || f = .bf16
  | _ => op = 5 || f = .fp32 || f = .bf16

/-- The tensors that an opcode needs are present (R291, R311). -/
def bPresent (x : BitVec 1024) : Bool :=
  match dOpcode x with
  | 1 => bHas x 0 && bHas x 1 && bHas x 4 && (bOpt x ≠ 1 || bHas x 2)
  | 2 => bHas x 4
  | 3 => bHas x 0 && bHas x 2 && bHas x 4
  | 4 => bHas x 0 && bHas x 1 && bHas x 2 && bHas x 4
  | 5 => (bHas x 0 = bHas x 4) && (bHas x 1 = bHas x 5) && (bHas x 2 = bHas x 6) && (bHas x 0 || bHas x 1 || bHas x 2)
      && (!bHas x 3 || bHas x 0)
  | _ => true

/-- Hyperparameters in their ranges (R291). -/
def hyperOk (x : BitVec 1024) : Bool :=
  let nonneg (v : F32) : Bool := ffinite v && !flt v 0
  let beta (v : F32) : Bool := nonneg v && flt v one
  let limit (v : F32) : Bool := flt 0 v
  match dOpcode x with
  | 1 =>
    nonneg (bLr0 x) && nonneg (bWd x) && beta (bBeta1 x) && limit (bGmax x) && limit (bWmax x)
      && (bOpt x = 3 || beta (bBeta2 x)) && (bOpt x ≠ 1 || scaleOk (bEps x)) && (bClipm x = 0 || limit (bClipc x))
      && (bSched x = 0 || (nonneg (bLrf x) && fle (bLrf x) one && 1 ≤ bTdec x)) && 1 ≤ bNl x && bNl x ≤ 65536
  | 2 => 1 ≤ bNl x && bNl x ≤ 65536
  | 4 => nonneg (bLr0 x) && beta (bBeta1 x)
  | _ => true

/-- The reduction that streams into an UPDATE: queued or running on this tile's router, of the same polder, its destination of
the gradient's format and count (R294). -/
def streamSource (d : Dev) (t : Nat) (x : BitVec 1024) (pn : PolderNo) : Option QOp :=
  if bRtag x / 32 ≠ t then none
  else
    let e := engineOf d t .router
    ((e.run.map fun r => r.q).toList ++ e.queue).find? fun q =>
      q.slot = bRtag x % 32 && q.gen = bRgen x && (dOpcode q.desc = 1 || dOpcode q.desc = 2) && rBcount q.desc = 0
        && (slotOf d t q.slot).use = .held pn
        && ((runOf d t .router).map fun r => !(r.q.slot = q.slot && r.ended.isSome)).getD true

def streamErr (d : Dev) (t : Nat) (px : Polder) (x : BitVec 1024) (pn : PolderNo) (g : TDesc) : Option Code :=
  if !bGsrc x then none
  else if bClipm x = 2 ∨ bSkip x then some 0x0605
  else
    match streamSource d t x pn with
    | none => some 0x0605
    | some q =>
      match (readTds d t px { polder := some pn } [tdField q.desc 191 160]).2 with
      | .error _ => some 0x0605
      | .ok tds => req (tFmt (tds.headD 0) = tFmt g && tCount (tds.headD 0) = tCount g) 0x0605

/-- Checks of the tensors: R81 to R86 for each, R292, R298, R299, R291. -/
def bTensErr (d : Dev) (t : Nat) (pn : PolderNo) (px : Polder) (x : BitVec 1024) (tds : List TDesc) (snap : List F32) : Option Code :=
  let op := dOpcode x
  let ks := [0, 1, 2, 3, 4, 5, 6].filter (bHas x)
  let written (k : Nat) : Bool :=
    match op with
    | 1 => k ≠ 4 | 2 => false | 3 => k = 4 | 4 => k ≠ 4 | _ => k ≤ 3
  let one (k : Nat) : Option Code :=
    let td := bTd tds k
    -- a streamed gradient's tensor gives format and shape only (R290): it has no place to check
    if k = 4 ∧ op = 1 ∧ bGsrc x then tdForm d pn td false else tdErr d pn px td (written k)
  let e := bCount x tds
  let moment (k : Nat) : Option Code :=
    let td := bTd tds k
    if !bHas x k ∨ !isMoment td ∨ k = 3 then none
    else if tSrefKind td ≠ 2 then some 0x0440
    else if (tDev td).toNat = selfId d then rngErr d px (tSrefAddr td) (4 * ceilDiv e 32) else none
  let c := bTd tds 3
  firstErr (ks.map one ++ ks.map (fun k => if tCmp (bTd tds k) then some 0x0456 else req (bFmtOk x k (fmtOf (bTd tds k))) 0x0404)
    ++ [req (bPresent x) 0x0601, req (ks.all fun k => tCount (bTd tds k) = e) 0x0601,
        if op = 5 then req ([(0, 4), (1, 5), (2, 6)].all fun p => !bHas x p.1 || tFmt (bTd tds p.1) = tFmt (bTd tds p.2)) 0x0601 else none]
    ++ [1, 2, 5, 6].map moment
    ++ (if bHas x 3 then
          [refsErr d px c, if (autoEnc d t { q := ⟨x, 0, 0, .met⟩ } c).sided then encSideErr d px { q := ⟨x, 0, 0, .met⟩ } c else none,
           cScaleErr c snap]
        else []))

/-- The shard record, the journal's header and the record at its head (R291, R303). -/
def shardErr (px : Polder) (x : BitVec 1024) (srec jhdr head : Nat) : Option Code :=
  if bits srec 47 32 ≠ bLayer x ∨ bitAt srec 128 then some 0x0602
  else if !jhdrOk px jhdr then some 0x0606
  else if bits head 34 32 = 1 ∨ bits head 34 32 = 2 then some 0x0602
  else none

/-- A read at the start: its bytes as a number. -/
def startRead (d : Dev) (acc : Acc) (a n : Nat) : Dev × Except Code Nat :=
  match memRead d acc a n with
  | (d, .error c) => (d, .error c)
  | (d, .ok bs) => (d, .ok (ofBytes bs))

/-- What the checks of an UPDATE's norm vector and verdict give: the clip factor, a non-finite sum, and the skip. -/
structure UpdIn where
  clip : F32 := one32
  badSum : Bool := false
  skip : Bool := false
  deriving DecidableEq, Repr

/-- The norm vector (R301). -/
def readClip (d : Dev) (acc : Acc) (px : Polder) (x : BitVec 1024) : Dev × Except Code UpdIn :=
  if bClipm x = 0 then (d, .ok {})
  else
    match bAt d px (bNvec x) (64 + 4 * bNl x) 64 with
    | some c => (d, .error c)
    | none =>
      match memRead d acc (bNvec x) (64 + 4 * bNl x) with
      | (d, .error c) => (d, .error c)
      | (d, .ok bs) =>
        let step := bits (leAt bs 0 8) 47 0
        let lag := bClipm x = 1 && step = 0xFFFFFFFFFFFF
        let want := if bClipm x = 1 then (bStep x + 2 ^ 48 - 1) % 2 ^ 48 else bStep x
        if bits (leAt bs 8 8) 16 0 ≠ bNl x ∨ !(lag || step = want) then (d, .error 0x0603)
        else if lag then (d, .ok {})
        else
          let (f, bad) := clipFactor x ((List.range (bNl x)).map fun l => BitVec.ofNat 32 (leAt bs (64 + 4 * l) 4))
          (d, .ok { clip := f, badSum := bad })

/-- The verdict word (R302). -/
def readVerdict (d : Dev) (acc : Acc) (px : Polder) (x : BitVec 1024) (u : UpdIn) : Dev × Except Code UpdIn :=
  if !bSkip x then (d, .ok u)
  else
    match bAt d px (bVaddr x) 8 8 with
    | some c => (d, .error c)
    | none =>
      match startRead d acc (bVaddr x) 8 with
      | (d, .error c) => (d, .error c)
      | (d, .ok v) =>
        if bits v 47 0 ≠ bStep x ∨ bits v 62 48 ≠ 0 then (d, .error 0x0603) else (d, .ok { u with skip := bitAt v 63 })

def normAddr (t : Nat) (x : BitVec 1024) : Nat := bNmat x + 16 * (t * bNl x + bLayer x)

/-- Checks of the norm matrix (R300). -/
def normErr (d : Dev) (t : Nat) (px : Polder) (x : BitVec 1024) : Option Code :=
  if bNl x ≤ bLayer x then some 0x0601
  else if bNmat x % 16 ≠ 0 then some 0x0406
  else firstErr [if inWindows d px (bNmat x) 1 then none else some 0x0409, rngErr d px (normAddr t x) 16]

/-- Chunks of 4,096 elements by their end elements. -/
def evenCuts (e : Nat) : List (Nat × Nat) := (List.range (nBlocks e)).map fun j => (j, min e ((j + 1) * jBlk))

def onTxn (d : Dev) (t : Nat) (f : Txn → Txn) : Dev :=
  onRun d t .blocker fun r => { r with work := { r.work with txn := f r.work.txn } }

/-- Step 1 of R306: record OPEN, header, the shard record's open, and the context block. -/
def txnOpen (d : Dev) (t : Nat) (acc : Acc) (px : Polder) (x : BitVec 1024) (tds : List TDesc) (srec jhdr : Nat) (u : UpdIn)
    (n cstep : Nat) : Dev :=
  let epoch := bits jhdr 15 0
  let txid := bits jhdr 31 16
  let slot := (bits jhdr 37 32 + 1) % 63
  let ntx := (txid + 1) % 65536
  let e := bCount x tds
  let tx : Txn := { phase := 1, slot := slot, txid := txid, epoch := epoch, clip := u.clip, lr := learnRate x, n := n, cstep := cstep
                    cuts := if dOpcode x = 1 ∧ bGsrc x then none else some (evenCuts e)
                    fail := if u.skip then some 0x0607 else none }
  let d := (memWrite d acc (recAddr px slot) (txnRec x tx 1 (nBlocks e))).1
  let d := (memWrite d acc px.jbase (jhdrBytes px (if ntx = 0 then epoch + 1 else epoch) ntx slot)).1
  let d := (memWrite d acc (bSrec x) (toBytes 64 (setBits srec 128 128 1))).1
  let d := (memWrite d acc (px.jbase + 4096) (contextBytes x tds)).1
  let d := countBlk d t (if u.badSum then [.nonfin] else [])
  onRun d t .blocker fun r => { r with tds := tds, begun := true, work := { r.work with txn := tx } }

/-- The counts that step 5 of R306 writes: n + 1 and t; for REPLACE those of the source record or the old ones, for OUTER the
old n. -/
def srecCounts (x : BitVec 1024) (srec src : Nat) : Nat × Nat :=
  match dOpcode x with
  | 1 => (min 0xFFFFFFFF (bits srec 31 0 + 1), bStep x)
  | 4 => (bits srec 31 0, bStep x)
  | _ => if bNvec x = 0 then (bits srec 31 0, bits srec 95 48) else (bits src 31 0, bits src 95 48)

/-- A source shard record that REPLACE names is of the layer and not open (R311). -/
def srcRecOk (x : BitVec 1024) (src : Nat) : Bool := bits src 47 32 = bLayer x && !bitAt src 128

/-- The reads at the start of an UPDATE, OUTER or REPLACE, in turn: shard record, journal header, head record, the source
record of a REPLACE. -/
def startReads (d : Dev) (acc : Acc) (px : Polder) (x : BitVec 1024) : Dev × Except Code (Nat × Nat × Nat × Nat) :=
  match startRead d acc (bSrec x) 64 with
  | (d, .error c) => (d, .error c)
  | (d, .ok srec) =>
    match startRead d acc px.jbase 64 with
    | (d, .error c) => (d, .error c)
    | (d, .ok jh) =>
      match startRead d acc (recAddr px (min 62 (bits jh 37 32))) 64 with
      | (d, .error c) => (d, .error c)
      | (d, .ok head) =>
        if dOpcode x = 5 ∧ bNvec x ≠ 0 then
          match startRead d acc (bNvec x) 64 with
          | (d, .error c) => (d, .error c)
          | (d, .ok src) => (d, .ok (srec, jh, head, src))
        else (d, .ok (srec, jh, head, 0))

/-- The start of an UPDATE, OUTER or REPLACE once its tensors are checked: frozen weights, records, fields, then step 1. -/
def txnBegin (d : Dev) (t : Nat) (acc : Acc) (pn : PolderNo) (px : Polder) (x : BitVec 1024) (tds : List TDesc) : Dev :=
  let op := dOpcode x
  if (op = 1 ∨ op = 5) ∧ bHas x 0 ∧ tFrozen (bTd tds 0) then doneRun d t .blocker (bCount x tds)
  else
    match firstErr [bAt d px (bSrec x) 64 64, if op = 5 ∧ bNvec x ≠ 0 then bAt d px (bNvec x) 64 64 else none] with
    | some c => refuse d t .blocker c
    | none =>
      match startReads d acc px x with
      | (d, .error c) => refuse d t .blocker c
      | (d, .ok (srec, jh, head, src)) =>
        match firstErr [shardErr px x srec jh head, req (hyperOk x) 0x0604,
            if op = 1 then streamErr d t px x pn (bTd tds 4) else none,
            if op = 1 then normErr d t px x else none,
            if op = 5 ∧ bNvec x ≠ 0 then req (srcRecOk x src) 0x0601 else none,
            req (journalFits px x tds) 0x0606] with
        | some c => refuse d t .blocker c
        | none =>
          let (n, cstep) := srecCounts x srec src
          if op = 1 then
            match readClip d acc px x with
            | (d, .error c) => refuse d t .blocker c
            | (d, .ok u) =>
              match readVerdict d acc px x u with
              | (d, .error c) => refuse d t .blocker c
              | (d, .ok u) => txnOpen d t acc px x tds srec jh u n cstep
          else txnOpen d t acc px x tds srec jh {} n cstep

/-- Ranges on other devices that the operation reads or writes in part; with a frozen weight none (R293). -/
def bRngs (d : Dev) (x : BitVec 1024) (tds : List TDesc) : List Rng :=
  let e := bCount x tds
  let frozen := (dOpcode x = 1 || dOpcode x = 5) && bHas x 0 && tFrozen (bTd tds 0)
  if frozen then [] else ([0, 1, 2, 3, 4, 5, 6].filter (bHas x)).flatMap fun k =>
    let td := bTd tds k
    tRngs td (fmtOf td).width ++ (if isMoment td && k ≠ 3 then [scaleRng td 0 e] else scaleRngs td)
      ++ tEdges d td (fmtOf td).width

/-! ### Chunks (R226, R306) -/

/-- A Blocker transaction in its phase that has met no failure. -/
def liveTxn (d : Dev) (t phase : Nat) : Option RunOp :=
  match runOf d t .blocker with
  | some r => if r.begun ∧ r.ended = none ∧ r.work.txn.phase = phase ∧ r.work.txn.fail = none then some r else none
  | none => none

/-- The context of the streamed reduction while it runs. -/
def streamRun (d : Dev) (t : Nat) (x : BitVec 1024) : Option (RunOp × RCx) :=
  match liveRun d t with
  | some r => if r.q.slot = bRtag x % 32 ∧ r.q.gen = bRgen x ∧ bRtag x / 32 = t then some (r, rCx d t r) else none
  | none => none

/-- The reduction's chunks that hold this member's shard, by number and end element. -/
def streamCuts (c : RCx) : List (Nat × Nat) :=
  (c.chunks.filter fun k => c.op = 1 || k.owner = c.me).map fun k => (k.no, k.start + k.len - (if c.op = 2 then c.base else 0))

/-- The chunks of the operation, once they are known. -/
def cutsOf (d : Dev) (t : Nat) (r : RunOp) : Option (List (Nat × Nat)) :=
  match r.work.txn.cuts with
  | some l => some l
  | none => (streamRun d t r.q.desc).map fun s => streamCuts s.2

/-- A chunk's gradient is here: from memory always, streamed once the reduction has completed the chunk. -/
def gradReady (d : Dev) (t : Nat) (r : RunOp) (no : Nat) : Bool :=
  if !(dOpcode r.q.desc = 1 && bGsrc r.q.desc) then true
  else
    match r.work.txn.gdone with
    | some l => l.contains no
    | none =>
      match streamRun d t r.q.desc with
      | some (_, c) => chunkCode c (rst d t) no = 1
      | none => false

/-- Some state tensor lies in the DDR5 tier. -/
def stateInDdr (x : BitVec 1024) (tds : List TDesc) : Bool :=
  (bWritten x tds).any fun p => ddrBase ≤ tBase (bTd tds p.1)

/-- Wait-basin slots that serve the operation: none where no state lies in DDR5 and nothing is streamed (R226, R294). -/
def basinSlots (px : Polder) (r : RunOp) : Nat :=
  if stateInDdr r.q.desc r.tds ∨ (dOpcode r.q.desc = 1 ∧ bGsrc r.q.desc) then px.wslots else 0

def basinOf (d : Dev) (t : Nat) : List BasinSlot := (tileOf d t).basin
def onBasin (d : Dev) (t : Nat) (f : List BasinSlot → List BasinSlot) : Dev := onTile d t fun x => { x with basin := f x.basin }

/-- A chunk gets a slot of the polder's basin: the one it holds, or a free one. The basin's bytes in the share hold what the
slots take up, in no stated layout (R226, R316). -/
def takeBasin (d : Dev) (t : Nat) (px : Polder) (srec chunk : Nat) (f : BasinSlot → BasinSlot) : Option Dev :=
  let mine (s : BasinSlot) : Bool := s.shard = srec && s.chunk = chunk
  let fill (d : Dev) : Dev := churn d { cls := 3 } (t * 2 ^ 20 + px.basinOfs t) (px.wslots * px.wsize)
  if (basinOf d t).any mine then some (fill (onBasin d t fun l => l.map fun s => if mine s then f s else s))
  else if (basinOf d t).length < px.wslots then some (fill (onBasin d t fun l => l ++ [f ⟨srec, chunk, false, false⟩]))
  else none

/-- The first element not yet applied and the end of what the next chunk lets be applied: whole blocks of 32, or the shard's
end. -/
def chunkEnd (e hi : Nat) : Nat := if hi = e then e else hi / 32 * 32

/-- The transaction cannot complete: TXN_ROLLBACK follows. -/
def txnFail (d : Dev) (t : Nat) (c : Code) : Dev := onTxn d t fun tx => { tx with fail := tx.fail.or (some c) }

/-- Codes of a working copy counted as R313 has it, and the maxima that its encode observed merged (R159). -/
def copyCounts (d : Dev) (t : Nat) (td : TDesc) (a : EncAcc) : Dev :=
  let d := onRun d t .blocker fun r => { r with counts := { r.counts with
    sat := satAdd 0xFFFFFFFF r.counts.sat a.counts.sat, ftz := satAdd 0xFFFFFFFF r.counts.ftz a.counts.ftz } }
  if tSrefKind td = 1 then a.obs.foldl (fun d p => mergePend d t (tSrefReg td + p.1) p.2) d else d

/-- What the working copy's encode gathered enters the tally and the registers at the operation's end. -/
def mergeCopy (d : Dev) (t : Nat) (r : RunOp) : Dev :=
  let a := r.work.enc
  if !bHas r.q.desc 3 then d
  else
    let d := copyCounts d t (bTd r.tds 3) a
    if a.entries = [] then d else count d 0 t 0x210 a.entries.length (some (runPolder d t r))

/-- What a bad status leaves: the operation ended at a scale that R44 rejects, or the rollback of its transaction. -/
def stopped (d : Dev) (t : Nat) (c : Code) : Dev :=
  match runOf d t .blocker with
  | some r => if r.ended.isSome then mergeCopy d t r else txnFail d t c
  | none => d

/-- The ranges of the state tensors that a chunk fetches. -/
def chunkRuns (x : BitVec 1024) (tds : List TDesc) (cuts : List (Nat × Nat)) (i : Nat) : List (Nat × Nat) :=
  let lo := if i = 0 then 0 else chunkEnd (bCount x tds) (cuts.getD (i - 1) (0, 0)).2
  let hi := chunkEnd (bCount x tds) (cuts.getD i (0, 0)).2
  (bWritten x tds).flatMap fun p =>
    let g := scaleRng (bTd tds p.1) lo hi
    tensorRuns (bTd tds p.1) lo hi ++ (if p.2 ∧ lo < hi then [(g.addr, g.len)] else [])

/-- Fetched state arrives in a slot (R226, R228): of the next chunk in order, at most s chunks ahead of the oldest not applied. -/
def stateFetch (d : Dev) (t : Nat) : Dev :=
  match liveTxn d t 1 with
  | none => d
  | some r =>
    let x := r.q.desc
    let tx := r.work.txn
    match polderOf d (runPolder d t r), cutsOf d t r with
    | some px, some cuts =>
      let have_ (i : Nat) : Bool := (basinOf d t).any fun s => s.shard = bSrec x && s.chunk = i && s.state
      match (List.range cuts.length).find? (fun i => tx.started ≤ i && !have_ i) with
      | none => d
      | some i =>
        if !stateInDdr x r.tds ∨ tx.applied + px.wslots ≤ i then d
        else
          match takeBasin d t px (bSrec x) i (fun s => { s with state := true }) with
          | none => d
          | some d' =>
            match readRuns { runAcc d t r with cls := 3 } d' (chunkRuns x r.tds cuts i) with
            | (d, .error _) => onBasin (txnFail d t 0x0312) t fun l => l.filter fun s => s.shard ≠ bSrec x
            | (d, .ok _) => d
    | _, _ => d

/-- Pre-images of the journal blocks from j on up to k - 1. -/
def preimages (acc : Acc) (px : Polder) (r : RunOp) : Nat → Dev → Nat → Dev × Option Code
  | 0, d, _ => (d, none)
  | f + 1, d, j => andThen (preimage d acc px r.q.desc r.tds r.work.txn j) fun d => preimages acc px r f d (j + 1)

/-- A chunk's update starts: gradient and state present, every earlier chunk applied (R226); the pre-images of the journal
blocks it first touches are written (step 2 of R306). -/
def chunkUpdate (d : Dev) (t : Nat) : Dev :=
  match liveTxn d t 1 with
  | none => d
  | some r =>
    let x := r.q.desc
    let tx := r.work.txn
    match polderOf d (runPolder d t r), cutsOf d t r with
    | some px, some cuts =>
      match cuts[tx.started]? with
      | none => d
      | some (no, hi) =>
        let slots := basinSlots px r
        let stateOk := !stateInDdr x r.tds || px.wslots = 0 ||
          (basinOf d t).any fun s => s.shard = bSrec x && s.chunk = tx.started && s.state
        if tx.hand ∨ !gradReady d t r no ∨ !stateOk then d
        else
          match (if slots = 0 then some d else takeBasin d t px (bSrec x) tx.started fun s => { s with grad := true }) with
          | none => d
          | some d =>
            let e := chunkEnd (bCount x r.tds) hi
            let upto := if e ≤ tx.front then tx.pre else ceilDiv e jBlk
            match preimages (runAcc d t r) px r (upto - tx.pre) d tx.pre with
            | (d, some c) => txnFail d t c
            | (d, none) => onTxn d t fun y => { y with
                cuts := some cuts, pre := max tx.pre upto, started := tx.started + 1, hand := true }
    | _, _ => d

/-- The tensor that holds the gradient: g, or the streamed reduction's destination, kept as an eighth. -/
def gradTd (x : BitVec 1024) (tds : List TDesc) : TDesc := if dOpcode x = 1 ∧ bGsrc x then bTd tds 7 else bTd tds 4

/-! ### The new state of a chunk (step 3 of R306) -/

/-- The values of several tensors over elements lo to lo + n - 1; a tensor of none gives zeros. -/
def bValsAll (acc : Acc) (r : RunOp) (lo n : Nat) : Dev → List (Option TDesc) → Dev × Except Code (List (List F32))
  | d, [] => (d, .ok [])
  | d, o :: os =>
    let got : Dev × Except Code (List F32) :=
      match o with | none => (d, .ok (List.replicate n 0)) | some td => bVals (stateAcc acc td) r td d n lo
    match got with
    | (d, .error c) => (d, .error c)
    | (d, .ok l) =>
      match bValsAll acc r lo n d os with
      | (d, .ok ls) => (d, .ok (l :: ls))
      | y => y

/-- The working copy of elements lo on written from w', and after the shard's last element its side list (R299). -/
def putCopy (d : Dev) (t : Nat) (r : RunOp) (lo : Nat) (ws : List F32) : Dev × Option Code :=
  let x := r.q.desc
  if !bHas x 3 then (d, none)
  else
    let td := bTd r.tds 3
    let z := cEnc d t r x td (r.snaps.headD [])
    let a0 := ((runOf d t .blocker).map fun r => r.work.enc).getD {}
    let (d, a, st) := cPut t r z (fun _ => true) d a0 lo ws
    let d := onRun d t .blocker fun r => { r with work := { r.work with enc := a } }
    andThen (d, st) fun d =>
      if z.sided ∧ lo + ws.length = bCount x r.tds then writeSide d t .blocker r z a else (d, none)

/-- UPDATE's elements lo to lo + n - 1. -/
def applyUpdate (d : Dev) (t : Nat) (r : RunOp) (lo n : Nat) : Dev × Option Code :=
  let x := r.q.desc
  let acc := runAcc d t r
  let tx := r.work.txn
  let td (k : Nat) : TDesc := bTd r.tds k
  let opt (k : Nat) : Option TDesc := if bHas x k then some (td k) else none
  let res (k m : Nat) : Option TDesc := if bHas x k ∧ bHas x m ∧ isMoment (td m) then some (td k) else none
  match bValsAll acc r lo n d [some (gradTd x r.tds), some (td 0), some (td 1), opt 2, res 5 1, res 6 2] with
  | (d, .error c) => (d, some c)
  | (d, .ok ls) =>
    let at_ (i j : Nat) : F32 := (ls.getD i []).getD j 0
    let k := updK x tx
    let us := (List.range n).map fun j => updElem x k (at_ 0 j) (at_ 1 j) (at_ 2 j) (at_ 3 j)
    let sum (f : Upd → Nat) : Nat := total (us.map f)
    let d := onRun d t .blocker fun r => { r with counts := { r.counts with
      nf := satAdd 0xFFFFFFFF r.counts.nf (sum Upd.nf), sat := satAdd 0xFFFFFFFF r.counts.sat (sum Upd.sat)
      tg := satAdd 0xFFFFFFFF r.counts.tg (sum Upd.tg) } }
    let d := onTxn d t fun y => { y with
      g2 := y.g2 ++ us.map Upd.gsq, w2 := y.w2 ++ us.map (fun u => fmul u.w u.w), u2 := y.u2 ++ us.map (fun u => fmul u.upd u.upd)
      nonfin := y.nonfin || us.any Upd.badG }
    let pair (k i m : Nat) : Option (TDesc × List F32) := (res k m).map fun e => (e, ls.getD i [])
    andThen (putMoments d t r (td 1) (pair 5 4 1) (bConv x) lo (us.map Upd.m)) fun d =>
    andThen (if bHas x 2 then putMoments d t r (td 2) (pair 6 5 2) (bConv x) lo (us.map Upd.v) else (d, none)) fun d =>
    andThen (bPut d t r (td 0) lo (us.map fun u => u.w.toNat)) fun d =>
    putCopy d t r lo (us.map Upd.w)

/-- OUTER's elements: outer momentum, anchor, master, working copy (R310). -/
def applyOuter (d : Dev) (t : Nat) (r : RunOp) (lo n : Nat) : Dev × Option Code :=
  let x := r.q.desc
  let td (k : Nat) : TDesc := bTd r.tds k
  match bValsAll (runAcc d t r) r lo n d [some (td 1), some (td 2), some (td 4)] with
  | (d, .error c) => (d, some c)
  | (d, .ok ls) =>
    let at_ (i j : Nat) : F32 := (ls.getD i []).getD j 0
    let us := (List.range n).map fun j => outerElem (bLr0 x) (bBeta1 x) (at_ 0 j) (at_ 1 j) (at_ 2 j)
    let d := onRun d t .blocker fun r => { r with counts := { r.counts with
      nf := satAdd 0xFFFFFFFF r.counts.nf (total (us.map fun u => u.2.2)) } }
    andThen (bPut d t r (td 1) lo (us.map fun u => u.1.toNat)) fun d =>
    andThen (bPut d t r (td 2) lo (us.map fun u => u.2.1.toNat)) fun d =>
    andThen (bPut d t r (td 0) lo (us.map fun u => u.2.1.toNat)) fun d =>
    putCopy d t r lo (us.map fun u => u.2.1)

/-- A code as the device writes it: every NaN canonical (R37). -/
def canonCode (f : Fmt) (c : Nat) : Nat :=
  match f.float? with
  | some F => if (F.decode c).isNan then F.rne .nan else c
  | none => c

/-- A destination of REPLACE gets its source's codes and scale entries (R311). -/
def replaceOne (d : Dev) (t : Nat) (r : RunOp) (dst src : TDesc) (lo n : Nat) : Dev × Option Code :=
  let acc := runAcc d t r
  match readCodes d acc r src lo n with
  | (d, some c, _) => (d, some c)
  | (d, none, codes) =>
    andThen (bPut d t r dst lo (codes.map (canonCode (fmtOf dst)))) fun d =>
      if !isMoment dst then (d, none)
      else
        match readRng d acc r (scaleRng src lo (lo + n)) with
        | (d, .error c) => (d, some c)
        | (d, .ok bs) => writeRng d t .blocker (stateRun r dst) (tDev dst).toNat (scaleRng dst lo (lo + n)).addr bs

def applyReplace (d : Dev) (t : Nat) (r : RunOp) (lo n : Nat) : Dev × Option Code :=
  let x := r.q.desc
  let td (k : Nat) : TDesc := bTd r.tds k
  let st := [(1, 5), (2, 6), (0, 4)].foldl (fun s p =>
    andThen s fun d => if bHas x p.1 then replaceOne d t r (td p.1) (td p.2) lo n else (d, none)) (d, none)
  andThen st fun d =>
    if bHas x 3 then
      match bVals (runAcc d t r) r (td 0) d n lo with
      | (d, .error c) => (d, some c)
      | (d, .ok ws) => putCopy d t r lo ws
    else (d, none)

/-- The first block of 32 elements from lo to hi - 1 whose moment has a scale that R44 rejects. -/
def badMoment (acc : Acc) (r : RunOp) (tds : List TDesc) : Nat → Dev → Nat → Dev × Except Code (Option Nat)
  | 0, d, _ => (d, .ok none)
  | f + 1, d, b =>
    let one (s : Dev × Except Code Bool) (td : TDesc) : Dev × Except Code Bool :=
      match s with
      | (d, .ok false) =>
        (match readRng d (stateAcc acc td) r (scaleRng td (32 * b) (32 * b + 1)) with
          | (d, .error c) => (d, .error c)
          | (d, .ok bs) => (d, .ok (!scaleOk (BitVec.ofNat 32 (ofBytes bs)))))
      | s => s
    match tds.foldl one (d, .ok false) with
    | (d, .error c) => (d, .error c)
    | (d, .ok true) => (d, .ok (some b))
    | (d, .ok false) => badMoment acc r tds f d (b + 1)

/-- An UPDATE's moments in a code format. -/
def codeMoments (x : BitVec 1024) (tds : List TDesc) : List TDesc :=
  if dOpcode x = 1 then (([1, 2].filter (bHas x)).map (bTd tds)).filter isMoment else []

/-- n elements of the operation from lo on get their new state. -/
def applyElems (d : Dev) (t : Nat) (r : RunOp) (lo n : Nat) : Dev × Option Code :=
  if n = 0 then (d, none)
  else match dOpcode r.q.desc with
    | 1 => applyUpdate d t r lo n
    | 4 => applyOuter d t r lo n
    | _ => applyReplace d t r lo n

/-- The pre-images of the chunk in hand are accepted: its new state goes out. A scale that R44 rejects ends the operation
PARTIAL at its block or channel. -/
def chunkApply (d : Dev) (t : Nat) : Dev :=
  match liveTxn d t 1 with
  | none => d
  | some r =>
    let x := r.q.desc
    let tx := r.work.txn
    if !tx.hand then d
    else
      let hi := chunkEnd (bCount x r.tds) (((tx.cuts.getD []).getD (tx.started - 1) (0, 0)).2)
      let n := hi - tx.front
      match badMoment (runAcc d t r) r (codeMoments x r.tds) (if codeMoments x r.tds = [] then 0 else ceilDiv hi 32 - tx.front / 32) d
          (tx.front / 32) with
      | (d, .error c) => txnFail d t c
      | (d, .ok (some b)) =>
        (match applyElems d t r tx.front (32 * b - tx.front) with
          | (d, some c) => stopped d t c
          | (d, none) => stopped (partRun d t .blocker 0x0405 b) t 0x0405)
      | (d, .ok none) =>
      match applyElems d t r tx.front n with
      | (d, some c) => stopped d t c
      | (d, none) =>
        count (onTxn d t fun y => { y with hand := false, applied := y.applied + 1, front := max y.front hi }) 0 t 0x300 n
          (some (runPolder d t r))

/-- Step 4 of R306: every block's new state is accepted, and the record becomes COMMITTED. -/
def txnCommit (d : Dev) (t : Nat) : Dev :=
  match liveTxn d t 1 with
  | none => d
  | some r =>
    let tx := r.work.txn
    match tx.cuts, polderOf d (runPolder d t r) with
    | some cuts, some px =>
      if tx.started < cuts.length ∨ tx.hand ∨ openReqs d t r.q.slot ≠ [] then d
      else
        match memWrite d (runAcc d t r) (recAddr px tx.slot) (txnRec r.q.desc tx 2 (nBlocks (bCount r.q.desc r.tds))) with
        | (d, some c) => txnFail d t c
        | (d, none) => onTxn d t fun y => { y with phase := 2 }
    | _, _ => d

/-- The norm record (R300). -/
def putNorm (d : Dev) (t : Nat) (acc : Acc) (x : BitVec 1024) (g2 w2 u2 : F32) (bad : Bool) : Dev :=
  (memWrite d acc (normAddr t x) (toBytes 4 g2.toNat ++ toBytes 4 w2.toNat ++ toBytes 4 u2.toNat
    ++ toBytes 4 (if bad then inf32 else 0).toNat)).1

/-- Step 5 of R306: every working-copy write is accepted; shard record, CLOSED, COMMITTED. -/
def txnClose (d : Dev) (t : Nat) : Dev :=
  match liveTxn d t 2 with
  | none => d
  | some r =>
    let x := r.q.desc
    let tx := r.work.txn
    let acc := runAcc d t r
    match polderOf d (runPolder d t r) with
    | none => d
    | some px =>
      let e := bCount x r.tds
      let d := mergeCopy d t r
      let d := if dOpcode x = 1 then putNorm d t acc x (rowsum tx.g2) (rowsum tx.w2) (rowsum tx.u2) tx.nonfin else d
      let d := (memWrite d acc (bSrec x) (toBytes 64 (srecWord tx.n (bLayer x) tx.cstep tx.txid tx.epoch false))).1
      let d := (memWrite d acc (recAddr px tx.slot) (txnRec x tx 3 (nBlocks e))).1
      let d := onRun d t .blocker fun r => if dOpcode x = 5 then { r with counts := { r.counts with nf := 0, tg := 0 } } else r
      endRun d t .blocker .committed 0 e

/-! ### Rolling back (R308, R309) -/

/-- The runs of a pre-image restored: run word, old bytes, padding, in turn. -/
def restoreRuns (acc : Acc) : Nat → Dev → List Byte → Dev × Option Code
  | 0, d, _ => (d, none)
  | f + 1, d, bs =>
    let w := leAt bs 0 16
    let n := bits w 95 64
    if bs.length < 16 ∨ n = 0 then (d, none)
    else andThen (memWrite d acc (bits w 47 0) (sliceB bs 16 n)) fun d => restoreRuns acc f d (bs.drop (16 + ceilDiv n 16 * 16))

/-- One block: restored when its header is valid (R305). True when it was; none when it cannot be read. -/
def restoreBlock (d : Dev) (acc : Acc) (px : Polder) (x : BitVec 1024) (tds : List TDesc) (txid epoch j : Nat) : Dev × Option Bool :=
  let pos := blockPos px x tds j
  let n := blockLen x tds j
  match memRead d acc (pos + n) 64 with
  | (d, .error _) => (d, none)
  | (d, .ok hb) =>
    let h := ofBytes hb
    if bits h 15 0 ≠ txid ∨ bits h 31 16 ≠ epoch ∨ bits h 63 32 ≠ j ∨ bits h 95 64 ≠ n then (d, some false)
    else
      match memRead d acc pos n with
      | (d, .error _) => (d, none)
      | (d, .ok bs) =>
        if bits h 127 96 ≠ crc32c bs then (d, some false)
        else
          match restoreRuns acc (n / 16 + 1) d bs with
          | (d, none) => (d, some true)
          | (d, some _) => (d, none)

/-- Every block in descending order; the blocks restored, or none when one cannot be read. -/
def restoreAll (acc : Acc) (px : Polder) (x : BitVec 1024) (tds : List TDesc) (txid epoch : Nat) : Nat → Dev → Dev × Option (List Nat)
  | 0, d => (d, some [])
  | j + 1, d =>
    match restoreBlock d acc px x tds txid epoch j with
    | (d, none) => (d, none)
    | (d, some b) =>
      match restoreAll acc px x tds txid epoch j d with
      | (d, some l) => (d, some (if b then j :: l else l))
      | y => y

/-- The working copy of journal blocks from j on that are in a list, from the master as memory holds it. -/
def remakeGo (t : Nat) (r : RunOp) (z : EncSet) (master : TDesc) (e : Nat) (blocks : List Nat) :
    Nat → Dev → EncAcc → Nat → Dev × EncAcc × Option Code
  | 0, d, a, _ => (d, a, none)
  | f + 1, d, a, j =>
    if !blocks.contains j then remakeGo t r z master e blocks f d a (j + 1)
    else
      match bVals (stateAcc (runAcc d t r) master) r master d (min e ((j + 1) * jBlk) - j * jBlk) (j * jBlk) with
      | (d, .error c) => (d, a, some c)
      | (d, .ok ws) =>
        match cPut t r z (fun _ => true) d a (j * jBlk) ws with
        | (d, a, some c) => (d, a, some c)
        | (d, a, none) => remakeGo t r z master e blocks f d a (j + 1)

/-- The working copy of some journal blocks made again (R308, R309). The side list has changed only when every block has, and
then is written again too. The maxima observed are merged, and the codes counted, as an encode does (R159, R172). -/
def remakeCopy (d : Dev) (t : Nat) (r : RunOp) (x : BitVec 1024) (tds : List TDesc) (snap : List F32) (blocks : List Nat) : Dev × Option Code :=
  if !bHas x 3 ∨ blocks = [] then (d, none)
  else
    let td := bTd tds 3
    let z := cEnc d t r x td snap
    let e := bCount x tds
    let (d, a, st) := remakeGo t r z (bTd tds 0) e blocks (nBlocks e) d {} 0
    let d := copyCounts d t td a
    andThen (d, st) fun d =>
      if z.sided ∧ (List.range (nBlocks e)).all blocks.contains then writeSide d t .blocker r z a else (d, none)

/-- The Blocker's own rollback (R308). -/
def txnRollback (d : Dev) (t : Nat) : Dev :=
  match runOf d t .blocker with
  | none => d
  | some r =>
    let x := r.q.desc
    let tx := r.work.txn
    match tx.fail, polderOf d (runPolder d t r) with
    | some c, some px =>
      if !r.begun ∨ r.ended ≠ none ∨ openReqs d t r.q.slot ≠ [] then d
      else
        let acc := runAcc d t r
        let d := onBasin d t fun l => l.filter fun s => s.shard ≠ bSrec x
        let d := count d 0 t 0x303 1 (some (runPolder d t r))
        let stuck (d : Dev) : Dev := partRun d t .blocker 0x060A 0
        let d := mergeCopy d t r
        match restoreAll acc px x r.tds tx.txid tx.epoch tx.pre d with
        | (d, none) => stuck d
        | (d, some blocks) =>
          match remakeCopy d t r x r.tds (r.snaps.headD []) blocks with
          | (d, some _) => stuck d
          | (d, none) =>
            match startRead d acc (bSrec x) 64 with
            | (d, .error _) => stuck d
            | (d, .ok srec) =>
              let d := (memWrite d acc (bSrec x) (toBytes 64 (setBits srec 128 128 0))).1
              let d := (memWrite d acc (recAddr px tx.slot) (txnRec x tx 4 (nBlocks (bCount x r.tds)))).1
              endRun d t .blocker .rolledBack c 0
    | _, _ => d

/-- What RECOVER finds at the journal's head: nothing to do, the interrupted descriptor with its tensors and record, or a part
that cannot be read. -/
inductive Found where
  | nothing | unreadable | txn (slot rec srec : Nat) (x : BitVec 1024) (tds : List TDesc)
  deriving DecidableEq, Repr

def findTxn (d : Dev) (acc : Acc) (px : Polder) : Dev × Found :=
  match startRead d acc px.jbase 64 with
  | (d, .error _) => (d, .unreadable)
  | (d, .ok jh) =>
    let slot := min 62 (bits jh 37 32)
    match memRead d acc (recAddr px slot) 64 with
    | (d, .error _) => (d, .unreadable)
    | (d, .ok rb) =>
      let rec_ := ofBytes rb
      let st := bits rec_ 34 32
      if st ≠ 1 ∧ st ≠ 2 then (d, .nothing)
      else if leAt rb 60 4 ≠ crc32c (rb.take 60) then (d, .unreadable)
      else
        match memRead d acc (px.jbase + 4096) 1024, startRead d acc (bits rec_ 175 128) 64 with
        | (d, .ok cb), (_, .ok srec) =>
          (d, .txn slot rec_ srec (BitVec.ofNat 1024 (leAt cb 0 128))
            ([0, 1, 2, 3, 4, 5, 6].map fun i => BitVec.ofNat 512 (leAt cb (128 + 64 * i) 64)))
        | (d, _), _ => (d, .unreadable)

/-- The record found rewritten in another state. -/
def recRewrite (rec_ state : Nat) : List Byte :=
  let l := toBytes 60 (setBits rec_ 34 32 state)
  l ++ toBytes 4 (crc32c l)

/-- RECOVER's end of the transaction found: the record's state, the shard record, and the interrupted operation's tally, whose
marker is its count of elements once they are all done (R425). -/
def recoverEnd (d : Dev) (t : Nat) (acc : Acc) (px : Polder) (slot rec_ : Nat) (x : BitVec 1024) (srec state : Nat) (e : OpEnd) (marker : Nat) : Dev :=
  let d := (memWrite d acc (bits rec_ 175 128) (toBytes 64 srec)).1
  let d := (memWrite d acc (recAddr px slot) (recRewrite rec_ state)).1
  let d := (memWrite d acc (bits rec_ 223 176) (tallyBytes (dSeq x) e true marker {})).1
  doneRun d t .blocker 0

/-- RECOVER (R309). -/
def recoverRun (d : Dev) (t : Nat) (r : RunOp) (px : Polder) : Dev :=
  let acc := runAcc d t r
  let bad (d : Dev) (c : Code) : Dev := partRun d t .blocker c 0
  match findTxn d acc px with
  | (d, .nothing) => doneRun d t .blocker 0
  | (d, .unreadable) => bad d 0x060A
  | (d, .txn slot rec_ srec x tds) =>
    let snap := snapScales d t (bTd tds 3)
    match (if bHas x 3 then cScaleErr (bTd tds 3) snap else none) with
    | some c => bad d c
    | none =>
      let txid := bits rec_ 15 0
      let epoch := bits rec_ 31 16
      let n := bits rec_ 255 224
      if bits rec_ 34 32 = 1 then
        match restoreAll acc px x tds txid epoch n d with
        | (d, none) => bad d 0x060A
        | (d, some blocks) =>
          match remakeCopy d t r x tds snap blocks with
          | (d, some _) => bad d 0x060A
          | (d, none) => recoverEnd d t acc px slot rec_ x (setBits srec 128 128 0) 4 ⟨.rolledBack, 0x0608⟩ 0
      else
        match remakeCopy d t r x tds snap (List.range n) with
        | (d, some _) => bad d 0x060A
        | (d, none) =>
          let src : Dev × Except Code Nat :=
            if dOpcode x = 5 ∧ bNvec x ≠ 0 then startRead d acc (bNvec x) 64 else (d, .ok 0)
          match src with
          | (d, .error _) => bad d 0x060A
          | (d, .ok src) =>
            let (cnt, cstep) := srecCounts x srec src
            recoverEnd d t acc px slot rec_ x (srecWord cnt (bits srec 47 32) cstep txid epoch false) 3 ⟨.committed, 0x0609⟩ (bCount x tds)

/-! ### GNORM and DELTA -/

/-- The squares of gradient elements and whether one was non-finite; an unreadable element stops (R300). -/
def gnormRun (d : Dev) (t : Nat) (r : RunOp) : Dev :=
  let x := r.q.desc
  let acc := runAcc d t r
  let e := bCount x r.tds
  let (d, vs, st) := (List.range e).foldl (fun (s : Dev × List F32 × Option (Code × Nat)) i =>
    match s with
    | (d, vs, some c) => (d, vs, some c)
    | (d, vs, none) =>
      match bVals acc r (bTd r.tds 4) d 1 i with
      | (d, .error c) => (d, vs, some (c, i))
      | (d, .ok l) => (d, vs ++ l, none)) (d, [], none)
  let bad := vs.filter fun v => !ffinite v
  let d := onRun d t .blocker fun r => { r with counts := { nf := min 0xFFFFFFFF bad.length } }
  match st with
  | some (c, i) => partRun d t .blocker c i
  | none =>
    let d := putNorm d t acc x (rowsum (vs.map fun v => fmul (zeroBad v) (zeroBad v))) 0 0 (decide (bad ≠ []))
    doneRun d t .blocker e

/-- δ := anchor − w (R310). -/
def deltaRun (d : Dev) (t : Nat) (r : RunOp) : Dev :=
  let acc := runAcc d t r
  let e := bCount r.q.desc r.tds
  let (d, st) := (List.range e).foldl (fun (s : Dev × Option (Code × Nat)) i =>
    match s with
    | (d, some c) => (d, some c)
    | (d, none) =>
      match bValsAll acc r i 1 d [some (bTd r.tds 0), some (bTd r.tds 2)] with
      | (d, .error c) => (d, some (c, i))
      | (d, .ok ls) =>
        match bPut d t r (bTd r.tds 4) i [(fsub ((ls.getD 1 []).headD 0) ((ls.getD 0 []).headD 0)).toNat] with
        | (d, some c) => (d, some (c, i))
        | (d, none) => (d, none)) (d, none)
  match st with
  | some (c, i) => partRun d t .blocker c i
  | none => doneRun d t .blocker e

/-! ### The rows -/

/-- The tensor descriptors that the operation names, with the streamed reduction's destination as an eighth. -/
def bReadTds (d : Dev) (t : Nat) (px : Polder) (acc : Acc) (x : BitVec 1024) (pn : PolderNo) : Dev × Except Code (List TDesc) :=
  let ofs := [0, 1, 2, 3, 4, 5, 6].map fun k => if bHas x k then tdField x (bTdAt k).1 (bTdAt k).2 else none
  let last := if dOpcode x = 1 ∧ bGsrc x then
      match streamSource d t x pn with | some q => [tdField q.desc 191 160] | none => [none]
    else [none]
  readTds d t px acc (ofs ++ last)

/-- The start: fields, tensors, then the operation's own checks. -/
def blockerBegin (d : Dev) (t : Nat) (r : RunOp) : Dev :=
  let x := r.q.desc
  let pn := runPolder d t r
  let acc := runAcc d t r
  match polderOf d pn with
  | none => d
  | some px =>
    if !bFieldsOk x then refuse d t .blocker 0x0402
    else if dOpcode x = 6 then onRun d t .blocker fun r => { r with begun := true }
    else
      match bReadTds d t px acc x pn with
      | (d, .error c) => refuse d t .blocker c
      | (d, .ok tds) =>
        let snap := snapScales d t (bTd tds 3)
        match bTensErr d t pn px x tds snap with
        | some c => refuse d t .blocker c
        | none =>
          let d := onRun d t .blocker fun r => { r with tds := tds, snaps := [snap] }
          match dOpcode x with
          | 2 =>
            (match firstErr [if bGsrc x then some 0x0605 else none, req (hyperOk x) 0x0604, normErr d t px x] with
              | some c => refuse d t .blocker c
              | none => onRun d t .blocker fun r => { r with begun := true })
          | 3 => onRun d t .blocker fun r => { r with begun := true }
          | _ => onRun d t .blocker fun r => { r with begun := true, work := { r.work with step := 1 } }

/-- A Blocker row: the checks, and once what lies elsewhere is here, the work or a transaction's step 1. -/
def blocker (d : Dev) (t op : Nat) : Dev :=
  match running d t .blocker op with
  | none => d
  | some r =>
    let d := if r.begun then d else blockerBegin d t r
    match running d t .blocker op with
    | none => d
    | some r =>
      let pn := runPolder d t r
      match polderOf d pn with
      | none => d
      | some px =>
        if !r.begun then d
        else if op = 6 then recoverRun d t r px
        else
          withRanges d t .blocker r (bRngs d r.q.desc r.tds) 0 fun d =>
            match op with
            | 2 => gnormRun d t r
            | 3 => deltaRun d t r
            | _ =>
              if r.work.step = 1 then
                let d := onRun d t .blocker fun r => { r with work := { r.work with step := 2 } }
                txnBegin d t (runAcc d t r) pn px r.q.desc r.tds
              else d

/-- A slot is freed once the chunk's last write-back is accepted (R226). -/
def slotFree (d : Dev) (t : Nat) : Dev :=
  match runOf d t .blocker with
  | none => d
  | some r =>
    match (basinOf d t).find? (fun s => s.shard = bSrec r.q.desc && s.chunk < r.work.txn.applied) with
    | some s => onBasin d t fun l => l.erase s
    | none => d

/-- The streamed reduction ends (R294): the chunks that were complete are known to the UPDATE, which rolls back with the
reduction's status when one of its shard is missing. -/
def streamEnded (d : Dev) (t : Nat) (q : QOp) (done : List Nat) (cuts : Option (List (Nat × Nat))) (status : Code) : Dev :=
  match runOf d t .blocker with
  | none => d
  | some r =>
    let x := r.q.desc
    if !(dOpcode x = 1 && bGsrc x && bRtag x % 32 = q.slot && bRtag x / 32 = t && bRgen x = q.gen) || !r.begun || r.ended ≠ none then d
    else
      let l := cuts.getD []
      let d := onTxn d t fun y => { y with gdone := some done, cuts := y.cuts.or (some l) }
      if cuts = none ∨ l.any (fun p => !done.contains p.1) then txnFail d t status else d

def execUpdate (t : TileNo) (s : State) : Out := onDev s fun d => blocker d t.toNat 1
def execGnorm (t : TileNo) (s : State) : Out := onDev s fun d => blocker d t.toNat 2
def execDelta (t : TileNo) (s : State) : Out := onDev s fun d => blocker d t.toNat 3
def execOuter (t : TileNo) (s : State) : Out := onDev s fun d => blocker d t.toNat 4
def execReplace (t : TileNo) (s : State) : Out := onDev s fun d => blocker d t.toNat 5
def execRecover (t : TileNo) (s : State) : Out := onDev s fun d => blocker d t.toNat 6
def execTxnPreimageWritten (t : TileNo) (s : State) : Out := onDev s fun d => chunkApply d t.toNat
def execTxnBlockStateAccepted (t : TileNo) (s : State) : Out := onDev s fun d => txnCommit d t.toNat
def execTxnWorkingCopyAccepted (t : TileNo) (s : State) : Out := onDev s fun d => txnClose d t.toNat
def execTxnRollback (t : TileNo) (s : State) : Out := onDev s fun d => txnRollback d t.toNat
def execStateFetchReturn (t : TileNo) (s : State) : Out := onDev s fun d => stateFetch d t.toNat
def execChunkUpdateStart (t : TileNo) (s : State) : Out := onDev s fun d => chunkUpdate d t.toNat
def execWaitSlotFree (t : TileNo) (s : State) : Out := onDev s fun d => slotFree d t.toNat

end Sys2Proof.Machine
end

