-- ==== Sys2Proof/Machine/Crown.lean ====
section
/-! DEFINITION. The crown and its threads (file 03): which thread issues, the fetch, every scalar operation of R70, and the
events that complete a load or a waiting ISSUE. A row of the crown acts when the instruction that the crown issues next on
the tile is that row's; otherwise nothing of the tile changes. -/

namespace Sys2Proof.Machine

/-- What the crown issues: the thread, its polder, and the fetched word or why there is none. -/
inductive Fetched where
  | word (w : W32) | outside | bad (c : Code)
  deriving DecidableEq, Repr

structure Issued where
  th : Nat
  pn : PolderNo
  pol : Polder
  word : Fetched
  deriving DecidableEq, Repr

/-- The first thread number that a test picks, in round-robin order after the one that issued last (R65). -/
def firstAfter (last : Nat) (cands : List Nat) : Option Nat :=
  match cands.find? (fun n => last < n) with
  | some n => some n
  | none => cands.head?

/-- READY threads of the tile outside reset domains, with whether their polder is a filler. -/
def readyThreads (d : Dev) (t : Nat) : List (Nat × Bool) :=
  (tileOf d t).threads.filterMap fun e =>
    if e.2.st = .ready then (polderOfThread d t e.1).bind fun p => if fenced d t p.1 then none else some (e.1, p.2.filler)
    else none

/-- The thread that issues next (R65): filler threads only when no other is READY. -/
def nextThread (d : Dev) (t : Nat) : Option Nat :=
  let r := readyThreads d t
  let busy := r.filter fun e => !e.2
  firstAfter (tileOf d t).lastIssue ((if busy = [] then r else busy).map Prod.fst)

/-- The fetch of a thread's instruction from its polder's region (R68), read under the error code. -/
def fetch (d : Dev) (t th : Nat) (pn : PolderNo) (p : Polder) : Dev × Fetched :=
  let pc := (threadOf d t th).pc.toNat
  if p.plen ≤ pc then (d, .outside)
  else
    let key := progKey t (p.pbase + pc)
    match keyWords d { polder := some pn } (key / 8 * 8) 1 with
    | (d, some c, _) => (d, .bad c)
    | (d, none, bs) => (d, .word (BitVec.ofNat 32 (leAt bs (key % 8) 4)))

/-- The issue of a cycle: none when no thread is READY. -/
def issueNext (d : Dev) (t : Nat) : Option (Dev × Issued) :=
  match nextThread d t with
  | none => none
  | some th =>
    match polderOfThread d t th with
    | none => none
    | some (pn, p) =>
      let (d', w) := fetch d t th pn p
      let d' := onTile d' t fun x => { x with lastIssue := th }
      some (count d' 0 t 0x010 1 (some pn), ⟨th, pn, p, w⟩)

/-- The crown issues an instruction that the test picks out; otherwise the row has no effect. -/
def crownIf (test : Fetched → Bool) (body : Dev → Issued → Dev) (d : Dev) (t : Nat) : Dev :=
  match issueNext d t with
  | none => d
  | some (d', i) => if test i.word then body d' i else d

/-- A word of one op code, well formed. -/
def isOp (op : Nat) : Fetched → Bool
  | .word w => iOp w = op && iOk w
  | _ => false

def wordOf : Fetched → W32
  | .word w => w
  | _ => 0

/-- The crown runs an operation on the issuing thread: the word, the thread and its sources a and b. -/
def crownOp (op : Nat) (body : Dev → Nat → Issued → W32 → W64 → W64 → Dev) (d : Dev) (t : Nat) : Dev :=
  crownIf (isOp op) (fun d i =>
    let w := wordOf i.word
    let x := threadOf d t i.th
    body d t i w (regRead x (iA w)) (regRead x (iB w))) d t

/-- An operation that writes d from a, b and the word, and moves on. -/
def crownAlu (op : Nat) (f : W32 → W64 → W64 → W64) (d : Dev) (t : Nat) : Dev :=
  crownOp op (fun d t i w a b => onThread d t i.th fun x => threadDone x (iD w) (f w a b)) d t

/-- An operation that sets the program counter alone. -/
def crownJump (op : Nat) (f : W32 → W64 → W64 → W64) (d : Dev) (t : Nat) : Dev :=
  crownOp op (fun d t i w a _ => onThread d t i.th fun x => { x with pc := f w a x.pc }) d t

/-- The low 6 bits of a shift count (R70). -/
def shiftBy (b : W64) : Nat := b.toNat % 64

/-- The tile-local offset of LD and ST, or none when it is misaligned or outside the share (R71). -/
def lsOfs (d : Dev) (t : Nat) (p : Polder) (w : W32) (a : W64) : Option Nat :=
  let o := (a + BitVec.ofNat 64 (8 * iImm w)).toNat
  if o % 8 = 0 ∧ o + 8 ≤ 2 ^ 20 ∧ inShare d p t (t * 2 ^ 20 + o) (t * 2 ^ 20 + o + 8) then some o else none

/-- The thread of an issue enters WAITING. -/
def threadWait (d : Dev) (t th : Nat) (w : WaitOn) : Dev := onThread d t th fun x => { x with st := .waiting, wait := w }

/-- LD (R70, R71): the thread waits for the data. -/
def crownLd (d : Dev) (t : Nat) (i : Issued) (w : W32) (a _b : W64) : Dev :=
  match lsOfs d t i.pol w a with
  | none => threadFault d t i.th i.pn 0x0412
  | some o => threadWait d t i.th (.load (iD w) o)

/-- ST (R70, R71). -/
def crownSt (d : Dev) (t : Nat) (i : Issued) (w : W32) (a b : W64) : Dev :=
  match lsOfs d t i.pol w a with
  | none => threadFault d t i.th i.pn 0x0412
  | some o =>
    let d := (memWrite d { polder := some i.pn } (t * 2 ^ 20 + o) (toBytes 8 b.toNat)).1
    onThread d t i.th fun x => { x with pc := x.pc + 1 }

/-- SUMRD (R79, R80). -/
def crownSumrd (d : Dev) (t : Nat) (i : Issued) (w : W32) (_a _b : W64) : Dev :=
  let r := iImm w % 64
  if summOk i.pol r then onThread d t i.th fun x => threadDone x (iD w) (summOf d t r)
  else threadFault d t i.th i.pn 0x0414

/-- WAITS (R79, R80). -/
def crownWaits (d : Dev) (t : Nat) (i : Issued) (w : W32) (a _b : W64) : Dev :=
  let r := iImm w % 64
  if !summOk i.pol r then threadFault d t i.th i.pn 0x0414
  else if fld (summOf d t r) 63 48 ≠ fld a 15 0 then onThread d t i.th fun x => threadDone x (iD w) (summOf d t r)
  else threadWait d t i.th (.post (iD w) r (BitVec.ofNat 16 (fld a 15 0)))

/-- ISSUE (R73, R76). -/
def crownIssue (d : Dev) (t : Nat) (i : Issued) (w : W32) (a b : W64) : Dev :=
  match readDesc d t i.pn i.pol a.toNat with
  | (d, .error c) => threadFault d t i.th i.pn c
  | (d, .ok desc) =>
    let dep := resolveDep d t i.pn desc b
    if (tileOf d t).issueQ = [] ∧ canGrant d t desc then
      let (d, s, g) := enqueue d t i.pn desc dep
      onThread d t i.th fun x => threadDone x (iD w) (issueVal t s g)
    else
      let d := onTile d t fun x => { x with issueQ := x.issueQ ++ [⟨some i.th, 0, desc, dep⟩] }
      threadWait d t i.th (.slot (iD w))

/-- WAIT (R74). -/
def crownWait (d : Dev) (t : Nat) (i : Issued) (w : W32) (a _b : W64) : Dev :=
  match waitWord d t i.pn a with
  | some v => onThread d t i.th fun x => threadDone x (iD w) v
  | none => threadWait d t i.th (.op (iD w) (fld a 4 0) (BitVec.ofNat 16 (fld a 31 16)))

/-- The lowest-numbered FREE thread of a polder's range (R67). -/
def freeThread (d : Dev) (t : Nat) (p : Polder) : Option Nat :=
  ((List.range p.tcount).map (p.tbase + ·)).find? fun n => (threadOf d t n).st = .free

/-- A thread as it starts: every register zero except s1, the argument, and s2, its number (R70). -/
def startThread (n : Nat) (pc arg : W64) : Thread :=
  { st := .ready, pc := pc, regs := NMap.set (NMap.set [] 0 1 arg) 0 2 (BitVec.ofNat 64 n) }

/-- SPAWN (R67, R70). -/
def crownSpawn (d : Dev) (t : Nat) (i : Issued) (w : W32) (a b : W64) : Dev :=
  match freeThread d t i.pol with
  | none => onThread d t i.th fun x => threadDone x (iD w) 0xFFFFFFFFFFFFFFFF
  | some n =>
    let d := onThread d t n fun _ => startThread n a b
    onThread d t i.th fun x => threadDone x (iD w) (BitVec.ofNat 64 n)

/-- EXIT (R70): FREE, with registers zero (R64). -/
def crownExit (d : Dev) (t : Nat) (i : Issued) (_w : W32) (_a _b : W64) : Dev := onThread d t i.th fun _ => {}

/-- CYC (R70, R493). -/
def crownCyc (d : Dev) (t : Nat) (i : Issued) (w : W32) (_a _b : W64) : Dev :=
  let d := tickTile d t
  onThread d t i.th fun x => threadDone x (iD w) (tileOf d t).cyc

/-- The data of an outstanding load returns (R70), or the word is bad and the thread faults (R73, R217). -/
def crownLoadReturn (d : Dev) (t th : Nat) : Dev :=
  let x := threadOf d t th
  match x.wait, polderOfThread d t th with
  | .load rd o, some (pn, _) =>
    if x.st = .waiting ∨ (x.st = .parked ∧ x.was = .waiting) then
      match memRead d { polder := some pn } (t * 2 ^ 20 + o) 8 with
      | (d, .ok bs) => onThread d t th fun x => threadDone x rd (BitVec.ofNat 64 (ofBytes bs))
      | (d, .error c) => threadFault d t th pn c
    else d
  | _, _ => d

/-- The waiting ISSUE next in order obtains a slot and a queue entry (R73); for a DESC_ISSUE the mailbox keeps the
result for its next mailbox step. -/
def crownGrant (d : Dev) (t : Nat) : Dev :=
  match nextGrant d t with
  | none => d
  | some w =>
    let d := onTile d t fun x => { x with issueQ := x.issueQ.erase w }
    match w.thread with
    | some th =>
      match polderOfThread d t th with
      | none => d
      | some (pn, _) =>
        let (d, s, g) := enqueue d t pn w.desc w.dep
        match (threadOf d t th).wait with
        | .slot rd => onThread d t th fun x => threadDone x rd (issueVal t s g)
        | _ => d
    | none =>
      match (mboxOf d w.mbox).cmd with
      | none => d
      | some c =>
        match c.polder with
        | none => d
        | some pn =>
          let (d, s, g) := enqueue d t pn w.desc w.dep
          onMbox d w.mbox fun b => { b with cmd := b.cmd.map fun c => { c with nums := [(issueVal t s g).toNat] } }

/-! ### The meanings -/

def execAdd (t : TileNo) (s : State) : Out := onDev s fun d => crownAlu 0x01 (fun _ a b => a + b) d t.toNat
def execSub (t : TileNo) (s : State) : Out := onDev s fun d => crownAlu 0x02 (fun _ a b => a - b) d t.toNat
def execMul (t : TileNo) (s : State) : Out := onDev s fun d => crownAlu 0x03 (fun _ a b => a * b) d t.toNat
def execAndOp (t : TileNo) (s : State) : Out := onDev s fun d => crownAlu 0x04 (fun _ a b => a &&& b) d t.toNat
def execOrOp (t : TileNo) (s : State) : Out := onDev s fun d => crownAlu 0x05 (fun _ a b => a ||| b) d t.toNat
def execXorOp (t : TileNo) (s : State) : Out := onDev s fun d => crownAlu 0x06 (fun _ a b => a ^^^ b) d t.toNat
def execShl (t : TileNo) (s : State) : Out := onDev s fun d => crownAlu 0x07 (fun _ a b => a <<< shiftBy b) d t.toNat
def execShr (t : TileNo) (s : State) : Out := onDev s fun d => crownAlu 0x08 (fun _ a b => a >>> shiftBy b) d t.toNat
def execSar (t : TileNo) (s : State) : Out := onDev s fun d => crownAlu 0x09 (fun _ a b => a.sshiftRight (shiftBy b)) d t.toNat
def execAddi (t : TileNo) (s : State) : Out := onDev s fun d => crownAlu 0x0A (fun w a _ => a + iSimm w) d t.toNat
def execShli (t : TileNo) (s : State) : Out :=
  onDev s fun d => crownAlu 0x0B (fun w a _ => (a <<< 12) ||| BitVec.ofNat 64 (iImm w)) d t.toNat
def execSlt (t : TileNo) (s : State) : Out :=
  onDev s fun d => crownAlu 0x0C (fun _ a b => if a.toInt < b.toInt then 1 else 0) d t.toNat
def execSeq (t : TileNo) (s : State) : Out :=
  onDev s fun d => crownAlu 0x0D (fun _ a b => if a = b then 1 else 0) d t.toNat
def execFlt (t : TileNo) (s : State) : Out :=
  onDev s fun d => crownAlu 0x0E (fun _ a b => if flt (a.truncate 32) (b.truncate 32) then 1 else 0) d t.toNat
def execLd (t : TileNo) (s : State) : Out := onDev s fun d => crownOp 0x10 crownLd d t.toNat
def execLdDataReturn (t : TileNo) (th : ThreadNo) (s : State) : Out := onDev s fun d => crownLoadReturn d t.toNat th.toNat
def execSt (t : TileNo) (s : State) : Out := onDev s fun d => crownOp 0x11 crownSt d t.toNat
def execBnz (t : TileNo) (s : State) : Out :=
  onDev s fun d => crownJump 0x18 (fun w a pc => if a ≠ 0 then pc + iSimm w else pc + 1) d t.toNat
def execBz (t : TileNo) (s : State) : Out :=
  onDev s fun d => crownJump 0x19 (fun w a pc => if a = 0 then pc + iSimm w else pc + 1) d t.toNat
def execJmp (t : TileNo) (s : State) : Out :=
  onDev s fun d => crownJump 0x1A (fun w a _ => a + BitVec.ofNat 64 (iImm w)) d t.toNat
def execSumrd (t : TileNo) (s : State) : Out := onDev s fun d => crownOp 0x20 crownSumrd d t.toNat
def execWaits (t : TileNo) (s : State) : Out := onDev s fun d => crownOp 0x21 crownWaits d t.toNat
def execIssue (t : TileNo) (s : State) : Out := onDev s fun d => crownOp 0x28 crownIssue d t.toNat
def execIssueSlotGrant (t : TileNo) (s : State) : Out := onDev s fun d => crownGrant d t.toNat
def execWait (t : TileNo) (s : State) : Out := onDev s fun d => crownOp 0x29 crownWait d t.toNat
def execSpawn (t : TileNo) (s : State) : Out := onDev s fun d => crownOp 0x2B crownSpawn d t.toNat
def execExit (t : TileNo) (s : State) : Out := onDev s fun d => crownOp 0x2C crownExit d t.toNat
def execCyc (t : TileNo) (s : State) : Out := onDev s fun d => crownOp 0x2D crownCyc d t.toNat

/-- The crown issues a word that is no operation of R70, or has a nonzero unused field: the thread faults (R69). -/
def execUnknownOpCode (t : TileNo) (s : State) : Out :=
  onDev s fun d => crownIf (fun f => match f with | .word w => !iOk w | _ => false)
    (fun d i => threadFault d t.toNat i.th i.pn 0x0410) d t.toNat

/-- A fetch beyond the region faults the thread (R68). DESIGN CHOICE (log entry 64): a fetch that meets an uncorrectable or a
poisoned word of the program store faults the thread as well, with 0x0310 or 0x0311, the codes that R73 and R217 give for what a
thread itself reads; the spec names no status for the fetch. -/
def execFetchOutsideRegion (t : TileNo) (s : State) : Out :=
  onDev s fun d => crownIf (fun f => match f with | .word _ => false | _ => true)
    (fun d i => threadFault d t.toNat i.th i.pn (match i.word with | .bad c => c | _ => 0x0411)) d t.toNat

end Sys2Proof.Machine
end

