-- ==== Sys2Proof/Machine/OpEnd.lean ====
section
/-! DEFINITION. The end of an operation on any engine (R74, R77, R255, R285): what its last answers leave, its chunk tallies,
pushes (R324) and streamed reductions (R294); and the completion of a chunk, which a wait basin may hold back (R227). -/

namespace Sys2Proof.Machine

/-! ### Chunks (R227, R275) -/

/-- A wait basin takes the chunk of a streamed UPDATE, or has no slot for it (R227); other chunks need none. -/
def basinAdmits (d : Dev) (t : Nat) (c : RCx) (r : RunOp) (phase chunk : Nat) : Option Dev :=
  let last := ((c.phases.filter fun p => match c.chunks[chunk]? with | some k => (c.line p k.owner).isSome | none => false).map Phase.no).getLast?
  match runOf d t .blocker with
  | none => some d
  | some b =>
    let x := b.q.desc
    if !(b.begun && b.ended = none && dOpcode x = 1 && bGsrc x && bRtag x = (opTag t r.q.slot).toNat && bRgen x = r.q.gen)
        || last ≠ some phase then some d
    else
      match polderOf d (runPolder d t b), (streamCuts c).findIdx? (fun e => e.1 = chunk) with
      | some px, some i => if px.wslots = 0 then some d else takeBasin d t px (bSrec x) i fun s => { s with grad := true }
      | _, _ => some d

def chunkCompletes (d : Dev) (job coll : BitVec 16) (phase chunk : Nat) : Dev :=
  match completable d job coll phase chunk with
  | none => d
  | some (t, r, c) =>
    match basinAdmits d t c r phase chunk with
    | none => d
    | some d => chunkComplete d job coll phase chunk t

/-! ### The end of an operation -/

/-- The first element of a tensor that a lost write covers in part (R255). -/
def lostElem (td : TDesc) (l : List (Nat × Nat × Nat)) : Option Nat :=
  (List.range (tCount td)).find? fun n =>
    let b := elemBytes td n
    l.any fun g => g.1 = (tDev td).toNat && overlap b.1 b.2 g.2.1 g.2.2

/-- The chunks of a router operation into which lost writes fell fail. -/
def lostChunks (d : Dev) (t : Nat) (r : RunOp) (c : RCx) : Dev :=
  if r.lostWrites = [] then d
  else
    let hit (k : Chunk) : Bool := (List.range k.len).any fun i =>
      match c.dest (k.start + i) with
      | some (td, ix) =>
        let w := (fmtOf td).width
        r.lostWrites.any fun g => g.1 = (tDev td).toNat && overlap (tBitAddr td w ix / 8) (max 1 (w / 8)) g.2.1 g.2.2
      | none => false
    (c.chunks.filter hit).foldl (fun d k => onRst d t fun q =>
      if (NMap.find? q.failed k.no).isSome then q
      else { q with failed := NMap.insert q.failed k.no (2, r.bad.getD 0x0510) }) d

/-- A router operation all of whose chunks are over and whose requests are answered ends. -/
def routerOver (d : Dev) (t : Nat) : Dev :=
  match liveRun d t with
  | none => d
  | some r =>
    let c := rCx d t r
    if r.work.step = 1 ∧ collOver c (rst d t) ∧ openReqs d t r.q.slot = [] then collEnd (lostChunks d t r c) t else d

/-- The progress marker of an operation that a lost write ends: its first unit that was not accepted. -/
def lostMarker (e : EngineId) (r : RunOp) : Nat :=
  let td := match e with
    | .fuller => fTd r 2
    | .steamer => sTd r 4
    | _ => r.tds.getD 1 0
  match lostElem td r.lostWrites with
  | none => 0
  | some n =>
    match e with
    | .fuller =>
      let ix := tIndex td n
      let b := [5, 4, 3, 2].foldl (fun a i => a * tExt td i + ix.getD i 0) 0
      ((List.range (fPasses r.q.desc r)).find? fun p =>
        fPassAt r.q.desc r p = (b, ix.getD 1 0 / 32, ix.getD 0 0 / 64)).getD 0
    | .carder => (blockOf td (tIndex td n)).1
    | _ => n

/-- What the end of a router operation sets off: a push's count, a streamed UPDATE's last chunks. -/
def routerAfter (d : Dev) (t : Nat) (r : RunOp) (x : OpEnd) : Dev :=
  let pn := runPolder d t r
  if dOpcode r.q.desc = 7 then
    (if x.st = .done then pushDone d pn (opTag t r.q.slot) r.q.gen (dClass r.q.desc) else d)
  else if dOpcode r.q.desc ≤ 2 then
    let c := rCx d t r
    let done := if r.begun then (List.range c.chunks.length).filter fun n => chunkCode c r.work.router n = 1 else []
    streamEnded d t r.q done (if r.begun then some (streamCuts c) else none) x.status
  else d

/-- ENGINE_OP_END: once every request is answered the operation ends (R74). -/
def operationEnd (d : Dev) (t : Nat) (e : EngineId) : Dev :=
  let d := if e = .router then routerOver d t else d
  match runOf d t e with
  | none => d
  | some r =>
    match r.ended with
    | none => d
    | some x =>
      if openReqs d t r.q.slot ≠ [] then d
      else
        let d := if e ≠ .router ∧ r.lostWrites ≠ [] ∧ x.st = .done then
            onRun d t e fun r => { r with marker := lostMarker e r } else d
        let d := match e with
          | .router => routerAfter d t r (endOf r x)
          | .blocker => onBasin d t fun l => l.filter fun s => s.shard ≠ bSrec r.q.desc
          | _ => d
        let d := engineOpEnd d t e
        -- a Fuller operation whose tiles the consumer leaves may be over (R107)
        if e = .steamer then fullerDone d t else d

def execChunkComplete (job coll : BitVec 16) (phase : Fin 6) (chunk : BitVec 24) (s : State) : Out :=
  onDev s fun d => chunkCompletes d job coll phase.val chunk.toNat
def execEngineOpEnd (t : TileNo) (e : EngineId) (s : State) : Out := onDev s fun d => operationEnd d t.toNat e

end Sys2Proof.Machine
end

