-- ==== Sys2Proof/Machine/Mailbox.lean ====
section
/-! DEFINITION. The front window (R411 to R415), the mailboxes and their commands' way from go to end (R416 to R421, R425,
R426, R429), and register writes (R13, R17). -/

namespace Sys2Proof.Machine

/-! ### The device status block (R414) -/

/-- Port 15 is in service as a second Ixrad link (R245). -/
def link2 (d : Dev) : Bool := (portOf d 15).dir = 7 && portSt d 15 = .on

def devState (d : Dev) : Nat :=
  d.boot.st.code + (b2n (link2 d)) <<< 3 + (b2n d.reeve.fwrun) <<< 4 + (min 4 d.reeve.coresIn.length) <<< 5
    + (b2n (d.reeve.coresIn.contains 4)) <<< 8
def devStage (d : Dev) : Nat := d.boot.stage + (b2n d.boot.fail) <<< 4 + d.boot.status.toNat <<< 16
def almCause (a : AlwaysOn) : Nat := a.cause.toNat + a.alarms.toNat <<< 16
/-- DEV_IDENT.variant. -/
def variant (grants : Nat) : Nat := if grants = 0 then 0 else if grants = 7 then 1 else if grants = 15 then 2 else 3
def devIdent (d : Dev) : Nat := 0xB0 + 0x2048 <<< 8 + (variant d.boot.grants.toNat) <<< 24
/-- The 16 B status block. -/
def statusBlock (a : AlwaysOn) (d : Dev) : List Byte :=
  toBytes 16 (devState d + devStage d <<< 32 + almCause a <<< 64 + devIdent d <<< 96)

/-- The grants in force (R30, R448): bits 0 to 5 are BASE, FULL_ARRAY, SECOND_TIER, WIDE, LEGACY_KEYS, DEBUG_UNLOCK. -/
def granted (d : Dev) (i : Nat) : Bool := flag d.boot.grants i

/-! ### The words of a command (R416) -/

def Cmd.word (c : Cmd) (i : Nat) : Nat := (NMap.get c.words 0 i).toNat
/-- 64 bits from word i on. -/
def Cmd.word2 (c : Cmd) (i : Nat) : Nat := c.word i + c.word (i + 1) <<< 32
/-- The n words from word i on as one number. -/
def Cmd.num (c : Cmd) (i n : Nat) : Nat := ofBytes ((List.range n).flatMap fun k => toBytes 4 (c.word (i + k)))
def Cmd.notify (c : Cmd) : Bool := bitAt (c.word 44) 17
def Cmd.tloc (c : Cmd) : Bool := bitAt (c.word 44) 16
def Cmd.tally (c : Cmd) : Nat := c.word2 45

/-! ### The command table (R429) -/

/-- Who may issue a command: the privileged mailbox; a mailbox of the polder acted on, or the privileged one for a named
polder; any; the privileged one, or the polder's for its own device (family 0x08). -/
inductive Perm where
  | priv | own | any | either
  deriving DecidableEq, Repr

def cmdPerm (c : Nat) : Option Perm :=
  if c = 0x0101 ∨ c = 0x0102 ∨ c = 0x0901 ∨ c = 0x0A05 ∨ c = 0x0B03 ∨ c = 0x0806 then some .any
  else if c = 0x0103 ∨ c = 0x0110 ∨ c = 0x0201 ∨ c = 0x0202 ∨ c = 0x0203 ∨ c = 0x0205 then some .priv
  else if c = 0x0301 ∨ c = 0x0302 ∨ c = 0x0303 ∨ c = 0x0801 ∨ c = 0x0802 ∨ c = 0x0807 then some .priv
  else if c = 0x0A01 ∨ c = 0x0A02 ∨ c = 0x0A03 ∨ c = 0x0A04 ∨ c = 0x0B02 then some .priv
  else if c = 0x0204 ∨ c = 0x0206 ∨ c = 0x0501 ∨ c = 0x0601 then some .own
  else if 0x0401 ≤ c ∧ c ≤ 0x0404 then some .own
  else if 0x0701 ≤ c ∧ c ≤ 0x0706 then some .own
  else if 0x0803 ≤ c ∧ c ≤ 0x0805 then some .either
  else if c = 0x0902 ∨ c = 0x0B01 then some .either
  else none

/-- The bits of an argument word that a command defines, by (word, mask); every other bit is reserved (R17, R431). -/
def argMasks (c : Nat) : List (Nat × Nat) :=
  let full (l : List Nat) : List (Nat × Nat) := l.map fun i => (i, 0xFFFFFFFF)
  if c = 0x0102 then full [0, 1] ++ [(2, 0xFFFF001F)]
  else if c = 0x0103 then full [0, 1]
  else if c = 0x0110 then full [0, 2] ++ [(1, 0x000FFFFF), (3, 0x00FFFFFF), (4, 1)]
  else if c = 0x0201 then
    [(0, 0x3FFFFFFF), (1, 0x00FFFFFF), (2, 0xFFFFFFFF), (3, 0xFFFFFFFF), (4, 0xFFFF0FFF), (5, 0x3FFFFFFF),
     (6, 0xFFFFFFFF), (7, 0x1FFFFFFF), (8, 0x001FFFFF), (9, 0xFFFFFFFF), (10, 0xFFFFFFFF), (11, 0xFFFFFFFF), (12, 0x1FFFFFFF),
     (13, 0x07FF00FF), (21, 0x000007FF)] ++ ((List.range 7).map fun i => (i + 14, 0x07FF07FF))
  else if c = 0x0202 then [(0, 0xF)]
  else if c = 0x0203 then [(0, 0xF), (1, 0xFFFFFFFF), (2, 0x00FFFFFF)]
  else if c = 0x0204 then
    [(0, 0xFFFF3F0F), (1, 0x000FFFFF), (2, 0xFFFFFFFF), (3, 0xFFFFFFFF), (4, 0xFFFFFFFF), (5, 0x0001FFFF)]
  else if c = 0x0205 then full [0, 1] ++ [(2, 0xF)]
  else if c = 0x0206 then full [0, 1]
  else if c = 0x0301 then full [0, 1] ++ [(2, 1)]
  else if c = 0x0302 then [(0, 3), (1, 0xFFFFFFFF)]
  else if c = 0x0303 then [(0, 0xFFFF), (1, 0xFFFFFFFF), (2, 0xFFFFFFFF)]
  else if c = 0x0401 then full [0, 1, 2, 4] ++ [(3, 0xFFF)]
  else if c = 0x0402 then [(0, 0x03FF07FF), (1, 0xFFFFFFFF), (2, 0xFFFFFFFF), (3, 0xFFFFFFFF)]
  else if c = 0x0403 then [(0, 0x03FF07FF), (1, 3)]
  else if c = 0x0404 then [(0, 0x7FF), (1, 0xFFFFFFFF), (2, 0xFFFFFFFF), (3, 0xFFFFFFFF)]
  else if c = 0x0501 then full [0]
  else if c = 0x0601 then full [0, 1, 2]
  else if c = 0x0701 then
    [(0, 0xFFFF00FF), (1, 0x3FFFFFFF), (2, 0xFFFFFFFF), (3, 0xFFFFFFFF), (4, 0xFFFFFFFF), (5, 0x000FFFFF), (6, 0xFFFFFFFF),
     (7, 0x0000FFFF), (8, 0xFFFFFFFF), (9, 0xFFFFFFFF), (10, 0xFFFFFFFF), (11, 0xFFFFFFFF), (12, 0xFFFFFFFF), (13, 0x0000FFFF),
     (14, 0xFFFFFFFF)]
  else if c = 0x0702 then full ((List.range 22).filter (· ≠ 3)) ++ [(3, 0x003F07FF)]
  else if c = 0x0703 then full ((List.range 42).map (· + 1)) ++ [(0, 0xFFFF)]
  else if c = 0x0704 then full [0, 1, 2, 4, 5, 6] ++ [(3, 1)]
  else if c = 0x0705 then full (List.range 16)
  else if c = 0x0706 then full [0, 1, 2]
  else if c = 0x0801 ∨ c = 0x0806 then full [0, 1]
  else if c = 0x0802 then full (List.range 8)
  else if c = 0x0803 then full (List.range 16)
  else if c = 0x0804 then [(0, 0x1FF), (1, 0xFFFFFFFF)]
  else if c = 0x0805 then [(0, 0xFF), (1, 0xFFFFFFFF)]
  else if c = 0x0807 then full (List.range 8) ++ [(8, 0x3FFF), (9, 0xFFFFFFFF)]
  else if c = 0x0902 then [(0, 0x0007FFFF), (1, 0x00010FFF)]
  else if c = 0x0A01 then full [0, 1, 2] ++ [(3, 3)]
  else if c = 0x0A02 ∨ c = 0x0A05 ∨ c = 0x0B03 then full [0, 1]
  else if c = 0x0A03 then full (List.range 10)
  else if c = 0x0A04 then [(0, 0xFFFF00FF), (1, 0xFF)]
  else if c = 0x0B01 then [(0, 0xFFFF0003), (1, 0x3FF)]
  else if c = 0x0B02 then [(0, 0xFFFF), (1, 1)]
  else []

/-- Reserved encodings of an argument field (R17, R315, R431, R436). -/
def argEncOk (c : Cmd) : Bool :=
  if c.cmd = 0x0201 then (List.range 4).all (fun i => bits (c.word 0) (23 + 2 * i) (22 + 2 * i) ≠ 3) && bits (c.word 7) 20 16 ≤ 16
  else if c.cmd = 0x0302 then c.word 0 ≠ 3
  else if c.cmd = 0x0403 then c.word 1 ≠ 3
  else if c.cmd = 0x0A01 then c.word 3 ≠ 3
  else if c.cmd = 0x0705 then bits (c.word 0) 31 28 = 0
  else true

/-- The reserved fields of the header words (R416): a command that holds one is refused like one with a reserved argument
bit (R17). -/
def hdrOk (c : Cmd) : Bool := bits (c.word 44) 31 18 = 0 && c.word 47 = 0

/-- Check 3 of R419: reserved fields are zero. Word 43 names a polder where a command of a polder comes from the privileged
mailbox. -/
def argsOk (m : Nat) (c : Cmd) : Bool :=
  (List.range 44).all (fun i =>
    let mask := if i = 43 ∧ m = 64 ∧ (cmdPerm c.cmd = some .own ∨ c.cmd = 0x0902) then 0xF
      else ((argMasks c.cmd).find? (fun e => e.1 = i)).elim 0 Prod.snd
    Nat.land (c.word i) mask = c.word i) && hdrOk c && argEncOk c

/-! ### Addresses of host or device memory (R431) -/

/-- An address that lies in the polder's windows is a device address; every other is a host address. -/
def isDevAddr (d : Dev) (p : Option PolderNo) (a n : Nat) : Bool :=
  match p.bind (polderOf d) with
  | none => false
  | some x => inWindows d x a n

/-- The access a command makes: class C0 (R409). -/
def cmdAcc (p : Option PolderNo) : Acc := { polder := p }

/-- Bytes written to the address that a command names; the status of a failure. -/
def cmdWrite (d : Dev) (p : Option PolderNo) (a : Nat) (bs : List Byte) : Dev × Option Code :=
  if isDevAddr d p a bs.length then memWrite d (cmdAcc p) a bs
  else match hostWrite d a bs with | some d => (d, none) | none => (d, some 0x010A)

def cmdRead (d : Dev) (p : Option PolderNo) (a n : Nat) : Dev × Except Code (List Byte) :=
  if isDevAddr d p a n then memRead d (cmdAcc p) a n
  else match hostRead d a n with | some bs => (d, .ok bs) | none => (d, .error 0x010A)

/-- An address is aligned and lies in host memory or in the polder's windows: 0x0106 otherwise. A range that lies in part
in the windows is neither. -/
def cmdAddrOk (d : Dev) (p : Option PolderNo) (a n align : Nat) : Bool :=
  a % align = 0 &&
    (isDevAddr d p a n ||
      match p.bind (polderOf d) with
      | none => true
      | some x => !inWindows d x a 1 && (n = 0 || !inWindows d x (a + n - 1) 1))

/-! ### Tallies and ends (R421, R425, R426) -/

/-- Check 4 of R419. -/
def tallyAddrOk (d : Dev) (c : Cmd) : Bool :=
  c.tally % 32 = 0 &&
    (!c.tloc || (c.tally < 2 ^ 48 &&
      match c.polder.bind (polderOf d) with | some x => (addrErr d x c.tally 32).isNone | none => false))

/-- A tally of a command written (R425): false when the IHA refuses it. -/
def cmdTally (d : Dev) (c : Cmd) (e : OpEnd) (fin : Bool) (marker : Nat) : Dev × Bool :=
  let bs := tallyBytes c.seq e fin marker {}
  if c.tloc then ((memWrite d (cmdAcc c.polder) c.tally bs).1, true)
  else match hostWrite d c.tally bs with | some d => (d, true) | none => (d, false)

/-- The owner that a mailbox's notices name. -/
def mboxPolder (d : Dev) (m : Nat) : Option PolderNo := (mboxOf d m).owner.map Prod.fst

/-- The command words as they stand when the mailbox is set to DONE or FAILED: those that carried a key are zeroed (R392,
R401). -/
def wipeWords (cmd : Nat) (ws : NMap W32) : NMap W32 :=
  if cmd = 0x0803 then NMap.clear ws 0 16 else if cmd = 0x0807 then NMap.clear ws 0 10 else ws

/-- A command's end: tally, result, state, notice, in that order (R421). -/
def endCmd (d : Dev) (m : Nat) (c : Cmd) (e : OpEnd) (res : List W32) (tally : Bool) : Dev :=
  let marker := if e.st = .notStarted then 0 else c.done
  let (d, ok) := if tally then cmdTally d c e true marker else (d, true)
  let status : Code := if ok && !c.lostTally then e.status else 0x010A
  let pol := mboxPolder d m
  let d := onMbox d m fun b => { b with
    status := status, tstate := BitVec.ofNat 8 e.st.code, fin := true, rseq := c.seq, res := res
    progress := BitVec.ofNat 16 c.done, total := BitVec.ofNat 16 c.total
    words := wipeWords c.cmd b.words
    st := if status = 0 then .done else .failed
    cmd := none }
  let d := onReeve d fun r => { r with ready := r.ready.filter (· ≠ m) }
  if c.notify then notice d 0 pol status (m <<< 96 + c.seq.toNat <<< 128) else d

/-! ### The host's side (R417, R418) -/

def MbxSt.open_ (s : MbxSt) : Bool := s = .empty || s = .held || s = .done || s = .failed

/-- A write that R417 ignores changes nothing but MBX_STATE.ign. -/
def mbxIgnore (b : Mbox) : Mbox := { b with ign := if b.ign = 0xFFFF then b.ign else b.ign + 1 }

/-- One ignored register write or reserved bit, counted at the reeve and front window. -/
def ignoredWrite (d : Dev) : Dev := count d 6 0 0x002 1 none

/-- The bits of a command word that are no reserved field of MBX_CMD itself (R416): word 44's [31:18] and word 47 are. -/
def cmdWordMask (word : Nat) : W32 := if word = 44 then 0x0003FFFF else if word = 47 then 0 else 0xFFFFFFFF

/-- A write of a command word. Reserved bits of MBX_CMD are ignored and counted (R17). -/
def mbxCmdWrite (d : Dev) (m word : Nat) (v : W32) : Dev :=
  if (mboxOf d m).st.open_ then
    let d := if v &&& cmdWordMask word = v then d else ignoredWrite d
    onMbox d m fun b => { b with words := NMap.set b.words 0 word (v &&& cmdWordMask word), st := .held }
  else onMbox d m mbxIgnore

def mbxSeqWrite (d : Dev) (m : Nat) (v : W32) : Dev :=
  onMbox d m fun b => if b.st.open_ then { b with seq := v, st := .held } else mbxIgnore b

/-- A go accepted clears the result, the progress and ign, and queues the command; a mailbox that nobody owns fails at
once (R416). rest is what the write holds in MBX_GO's reserved bits (R17). -/
def mbxGo (d : Dev) (m : Nat) (rest : BitVec 30) : Dev :=
  let b := mboxOf d m
  if b.st.open_ then
    let d := if rest = 0 then d else ignoredWrite d
    let clear (b : Mbox) : Mbox := { b with
      ign := 0, progress := 0, total := 0, status := 0, tstate := 0, fin := false, rseq := 0, res := [] }
    if b.owner = none ∧ m ≠ 64 then
      onMbox d m fun b => { clear b with st := .failed, status := 0x0104, fin := true, rseq := b.seq }
    else
      onReeve (onMbox d m fun b => { clear b with st := .queued }) fun r => { r with ready := r.ready ++ [m] }
  else onMbox d m mbxIgnore

/-- A pending enable is withdrawn (R417, R467). -/
def dropEnable (d : Dev) (m : Nat) : Dev :=
  { d with blocks := { d.blocks with
      deferred := d.blocks.deferred.filter (fun e => e.1 ≠ m), waitStart := d.blocks.waitStart.filter (fun e => e.1 ≠ m) } }

/-- Words of a mailbox as the reeve copies them. -/
def copyCmd (b : Mbox) : Cmd :=
  { words := b.words, seq := b.seq, cmd := (NMap.get b.words 0 44).toNat % 65536, polder := none }

/-- A QUEUED command is withdrawn before it is taken up and writes no tally; a DEFERRED one ends. -/
def mbxCancel (d : Dev) (m : Nat) (rest : BitVec 30) : Dev :=
  match (mboxOf d m).st with
  | .queued =>
    let d := if rest = 0 then d else ignoredWrite d
    onReeve (onMbox d m fun b => { b with
        st := .failed, status := 0x0105, fin := true, rseq := b.seq, words := wipeWords (copyCmd b).cmd b.words })
      fun r => { r with ready := r.ready.filter (· ≠ m) }
  | .deferred =>
    match (mboxOf d m).cmd with
    | some c => endCmd (dropEnable (if rest = 0 then d else ignoredWrite d) m) m c ⟨.notStarted, 0x0105⟩ [] true
    | none => d
  | _ => onMbox d m mbxIgnore

/-! ### The ready list (R420, R457) -/

/-- Families 0x02 and 0x03 run one at a time. -/
def oneAtATime (c : Nat) : Bool := c / 256 = 2 || c / 256 = 3

/-- Tiles of a reset domain: all of them for the device. -/
def jobTile (level target t : Nat) : Bool :=
  if level = 0 then t = target else if level = 1 then clusterOf t = target else level = 3

/-- Two reset domains meet (R455, R457): a polder meets a tile or cluster domain in which it holds a tile. -/
def domainsMeet (d : Dev) (l1 t1 l2 t2 : Nat) : Bool :=
  let holds (l t p : Nat) : Bool := match NMap.find? d.polders p with
    | some x => x.rect.any (jobTile l t)
    | none => false
  if l1 = 3 ∨ l2 = 3 then true
  else if l1 = 2 ∧ l2 = 2 then t1 = t2
  else if l1 = 2 then holds l2 t2 t1
  else if l2 = 2 then holds l1 t1 t2
  else if l1 = 0 then jobTile l2 t2 t1
  else if l2 = 0 then jobTile l1 t1 t2
  else t1 = t2

/-- A RESET waits, QUEUED, for a reset in progress whose domain meets its own; level 3 starts at once. -/
def resetWaits (d : Dev) (c : Cmd) : Bool :=
  let l := bits (c.word 0) 1 0
  l ≠ 3 && d.resets.any fun j => domainsMeet d l (bits (c.word 0) 31 16) j.level j.target

/-- A mailbox of the ready list whose turn may come: a STEPPING command, or a QUEUED one that nothing holds back. -/
def eligible (d : Dev) (m : Nat) : Bool :=
  let b := mboxOf d m
  if b.st = .stepping then true
  else
    let c := copyCmd b
    if oneAtATime c.cmd then
      (d.reeve.boxes : List (Nat × Mbox)).all fun e => match e.2.cmd with | some x => !oneAtATime x.cmd | none => true
    else if c.cmd = 0x0B01 then !resetWaits d c
    else true

/-- Cores that run no mailbox step. -/
def coreFree (d : Dev) : Bool :=
  ((d.reeve.boxes : List (Nat × Mbox)).filter fun e => match e.2.cmd with | some c => c.running | none => false).length
    < min 4 d.reeve.coresIn.length

/-- A core takes the mailbox: it is the first of the ready list whose turn may come (R420). -/
def itsTurn (d : Dev) (m : Nat) : Bool := coreFree d && d.reeve.ready.find? (eligible d) = some m

def leaveReady (d : Dev) (m : Nat) : Dev := onReeve d fun r => { r with ready := r.ready.filter (· ≠ m) }

/-! ### Taking up (R419) -/

/-- Check 2 of R419: the mailbox may issue the command. -/
def mayIssue (m : Nat) (c : Cmd) : Option Code :=
  let no : Code := if c.cmd / 256 = 8 then 0x0807 else 0x0103
  match cmdPerm c.cmd with
  | some .priv => if m = 64 then none else some no
  | some .either => if c.cmd = 0x0B01 ∧ m ≠ 64 ∧ bits (c.word 0) 1 0 ≠ 2 then some 0x0103 else none
  | _ => none

/-- The polder that a command acts for: the mailbox's owner, or from the privileged mailbox the one that word 43 names. -/
def actsFor (d : Dev) (m : Nat) (c : Cmd) : Option PolderNo × Bool :=
  if m ≠ 64 then ((mboxOf d m).owner.map Prod.fst, false)
  else if cmdPerm c.cmd = some .own then
    let p : PolderNo := BitVec.ofNat 4 (c.word 43)
    (if (polderOf d p).isSome then some p else none, (polderOf d p).isNone)
  else (none, false)

/-- The first failure of checks 1 to 3. -/
def takeErr (d : Dev) (m : Nat) (c : Cmd) : Option Code :=
  if !d.reeve.fwrun && !(m = 64 && (c.cmd = 0x0101 || c.cmd = 0x0A01 || c.cmd = 0x0A05)) then some 0x0108
  else if cmdPerm c.cmd = none then some 0x0101
  else
    match mayIssue m c with
    | some e => some e
    | none => if argsOk m c then none else some 0x0102

/-- A core takes a QUEUED command: the copy, the checks 1 to 4, and the first tally. -/
def takeUp (d : Dev) (m : Nat) : Dev :=
  let b := mboxOf d m
  if b.st ≠ .queued ∨ !itsTurn d m then d
  else
    let c := copyCmd b
    let (p, missing) := actsFor d m c
    let c := { c with polder := p, noPolder := missing }
    let d := onMbox (leaveReady d m) m fun b => { b with st := .stepping, cmd := some c }
    match takeErr d m c with
    | some e => endCmd d m { c with total := 0 } ⟨.notStarted, e⟩ [] (tallyAddrOk d c)
    | none =>
      if !tallyAddrOk d c then endCmd d m { c with total := 0 } ⟨.notStarted, 0x0106⟩ [] false
      else
        let (d, ok) := cmdTally d c ⟨.inPart, 0⟩ false 0
        onMbox d m fun b => { b with cmd := some { c with lostTally := !ok } }

/-! ### Mailbox steps (R420) -/

/-- The command of a STEPPING mailbox that a core runs, or now takes, and whose step has not been worked out. -/
def takeStep (d : Dev) (m : Nat) (ok : Cmd → Bool) : Option (Dev × Cmd) :=
  match (mboxOf d m).cmd with
  | none => none
  | some c =>
    if (mboxOf d m).st ≠ .stepping ∨ !ok c ∨ c.work ≠ none then none
    else if c.running then some (d, c)
    else if itsTurn d m then some (leaveReady d m, { c with running := true })
    else none

def putCmd (d : Dev) (m : Nat) (c : Cmd) : Dev := onMbox d m fun b => { b with cmd := some c }

/-- A command's step in the device alone: the work of one mailbox step. A command from the privileged mailbox that names a
polder which does not exist is refused (0x0207). -/
def cmdRow (d : Dev) (m : Nat) (ok : Cmd → Bool) (f : Dev → Cmd → Dev × Cmd) : Dev :=
  match takeStep d m ok with
  | none => d
  | some (d, c) =>
    if c.noPolder then putCmd d m { c with work := some (.refused 0x0207 []) }
    else
      let r := f d c
      putCmd r.1 m r.2

def isCmd (code : Nat) (c : Cmd) : Bool := c.cmd = code

/-- Ends of a step's work. -/
def Cmd.refuse (c : Cmd) (e : Code) (res : List W32 := []) : Cmd := { c with work := some (.refused e res) }
def Cmd.finish (c : Cmd) (res : List W32 := []) : Cmd := { c with work := some (.over 0 res), done := c.total }
def Cmd.fail (c : Cmd) (e : Code) (res : List W32 := []) : Cmd := { c with work := some (.over e res) }
def Cmd.more (c : Cmd) : Cmd := { c with work := some .more, step := c.step + 1 }

def w32 (n : Nat) : W32 := BitVec.ofNat 32 n

/-- The first failure of a list of checks. -/
def firstFail : List (Bool × Code) → Option Code
  | [] => none
  | (ok, e) :: l => if ok then firstFail l else some e

/-- A mailbox step ends: the progress and the tally; a command that goes on joins the tail of the ready list, and one that
is over ends (R420, R421). One that a reset cuts ends here (R461). -/
def mailboxStep (d : Dev) (m : Nat) : Dev :=
  match (mboxOf d m).cmd with
  | none => d
  | some c =>
    if (mboxOf d m).st ≠ .stepping then d
    else
      match c.work with
      | none => d
      | some w =>
        let d := count d 6 0 0xA00 1 c.polder
        match w with
        | .refused e res => endCmd d m { c with done := 0, total := 0 } ⟨.notStarted, e⟩ res true
        | .over e res => endCmd d m c ⟨if e = 0 then .done else .inPart, e⟩ res true
        | .more =>
          if c.cut then endCmd d m c ⟨.inPart, 0x0B01⟩ [] true else
          let (d, ok) := cmdTally d c ⟨.inPart, 0⟩ false c.done
          let d := onMbox d m fun b => { b with
            progress := BitVec.ofNat 16 c.done, total := BitVec.ofNat 16 c.total
            cmd := some { c with work := none, running := false, lostTally := c.lostTally || !ok } }
          onReeve d fun r => { r with ready := r.ready ++ [m] }
        | .defer =>
          if c.cut then endCmd d m c ⟨.inPart, 0x0B01⟩ [] true else
          let (d, ok) := cmdTally d c ⟨.inPart, 0⟩ false 0
          onMbox d m fun b => { b with
            st := .deferred, status := 0
            cmd := some { c with work := none, running := false, lostTally := c.lostTally || !ok } }

/-! ### Registers and windows (R13, R17, R412, R413) -/

/-- A reserved location of the front window. -/
def frontReserved (o : Nat) : Bool :=
  if o < 0x4100 then bits o 7 0 ≥ 0xF8
  else !((o < 0x4110) || (0x5000 ≤ o && o < 0x5700) || (0x6000 ≤ o && o < 0x6040))
    || (0x5004 ≤ o && o < 0x5008) || (0x5010 ≤ o && o < 0x5040) || (0x6018 ≤ o && o < 0x6020)

/-- The counter block that owns a place of the block-register window (R482). -/
def regBlock (a : Nat) : Option (Nat × Nat) :=
  if a < 0x80000000 then none
  else if a < 0x80800000 then some (if bits a 11 8 = 0 then 0 else 1, bits a 22 12)
  else if a < 0x80810000 then some (2, bits a 15 12)
  else if a < 0x80818000 then some (3, bits a 14 12)
  else if 0x80820000 ≤ a ∧ a < 0x80830000 then some (4, 0)
  else if 0x80830000 ≤ a ∧ a < 0x80840000 then some (5, 0)
  else if 0x80840000 ≤ a ∧ a < 0x80870000 then some (6, 0)
  else none

/-- A write to a register that has no command of its own. Below 64 KiB the address is an offset of the front window, where
MBX_NOTICE is the one writable register of that kind; the registers of the block-register window are read only. -/
def registerWrite (d : Dev) (a : Nat) (v : W32) : Dev :=
  if a < 0x10000 then
    if a < 0x4100 ∧ a % 256 = 0xF4 then
      let d := onMbox d (a / 256) fun b => { b with en := BitVec.ofNat 8 v.toNat }
      if v.toNat < 256 then d else ignoredWrite d
    else if a < 0x4100 ∧ a % 256 = 0xC4 then (if v.toNat % 4 = 0 ∧ v ≠ 0 then ignoredWrite d else d)
    else if a < 0x4100 ∧ a % 256 < 0xC8 then d
    else if frontReserved a then d
    else ignoredWrite d
  else match regBlock a with
    | some (k, i) => count d k i 0x002 1 none
    | none => d

/-- An access to a reserved location of the front window: a write is ignored and counted (R413). -/
def frontIgnored (d : Dev) (o : Nat) (write : Bool) : Dev :=
  if frontReserved o && write then count d 6 0 0xA02 1 none else d

/-- The polder whose scratchpad share, HBM window or DDR5 window holds a range. -/
def apertureOwner (d : Dev) (a n : Nat) : Option PolderNo :=
  (List.find? (fun (e : Nat × Polder) => inWindows d e.2 a n && (rangeErr d a n).isNone) d.polders).map fun e => BitVec.ofNat 4 e.1

/-- An access through the bulk aperture, in class C5 of the polder whose window it touches (R412). -/
def aperture (d : Dev) (a : Nat) (write : Option (List Byte)) (n : Nat) : Dev :=
  let len := match write with | some bs => bs.length | none => n
  let answer (d : Dev) (c : Code) (bs : List Byte) : Dev := onReeve d fun r => { r with aperture := some (c, bs) }
  match apertureOwner d a len with
  | none => answer (count d 6 0 0xA02 1 none) 0x0301 []
  | some p =>
    let acc : Acc := { cls := 5, polder := some p }
    match write with
    | some bs => answer (memWrite d acc a bs).1 0 []
    | none =>
      match memRead d acc a n with
      | (d, .ok bs) => answer d 0 bs
      | (d, .error c) => answer d c []

def execMbxCmdWrite (m : MboxNo) (word : Fin 48) (v : W32) (s : State) : Out := onDev s fun d => mbxCmdWrite d m.val word.val v
def execMbxSeqWrite (m : MboxNo) (v : W32) (s : State) : Out := onDev s fun d => mbxSeqWrite d m.val v
def execMbxGo (m : MboxNo) (s : State) (rest : BitVec 30 := 0) : Out := onDev s fun d => mbxGo d m.val rest
def execMbxCancel (m : MboxNo) (s : State) (rest : BitVec 30 := 0) : Out := onDev s fun d => mbxCancel d m.val rest
def execMbxTakeUp (m : MboxNo) (s : State) : Out := onDev s fun d => takeUp d m.val
def execMailboxStep (m : MboxNo) (s : State) : Out := onDev s fun d => mailboxStep d m.val
def execRegisterWrite (a : Addr) (v : W32) (s : State) : Out := onDev s fun d => registerWrite d a.toNat v
def execFrontWindowIgnoredAccess (o : BitVec 16) (write : Bool) (s : State) : Out := onDev s fun d => frontIgnored d o.toNat write
def execBulkApertureAccess (a : Addr) (write : Option (List Byte)) (n : Nat) (s : State) : Out :=
  onDev s fun d => aperture d a.toNat write n

end Sys2Proof.Machine
end

