-- ==== Sys2Proof/Machine/Links.lean ====
section
/-! DEFINITION. The levee links and their router at work (file 10): packets in transit, control words, errors, handover
leads, retraining; tide boundaries (R468); and the reeves' management packets (R432, R433). -/

namespace Sys2Proof.Machine

/-! ### Packets from a link (R235, R249 to R253, R260) -/

/-- A port whose link delivers words: one that is an Ixrad link is none of the fabric (R245). -/
def linkUp (d : Dev) (n : Nat) : Bool := (portSt d n = .on || portSt d n = .stopping) && (portOf d n).dir ≠ 7

/-! ### Failed ports (R239, R244, R249) -/

/-- A link to a neighbour is broken: the table entry, and a BREAK to every device of the ring (R249). -/
def breakLink (d : Dev) (dir : Nat) (nbr : DevId) : Dev :=
  let k := dir / 2
  let d := addBreak d k ⟨false, BitVec.ofNat 20 (selfId d), nbr⟩
  (ringMembers d k).foldl (fun d m => sendMgmt d m 1 (breakBody k false false (selfId d) nbr.toNat)) d

/-- A packet of a port that has no link is routed anew, from where it came to this router (R250); a request of this device
that no way leads on comes back to it UNDELIVERED (R255). -/
def reroute (d : Dev) (k : Packet) (way : Option Nat × Bool) (src : Option (Nat × Nat)) : Dev :=
  match routeGo d k way.1 way.2 src none 2 with
  | (d, none) => d
  | (d, some c) => lostRx d (answerTo d k.hdr 7 c []) 7

/-- The packets that a port held pass to another, which resends what was not acknowledged ahead of its own traffic; both of
its caches are cleared (R233, R244). -/
def takeOver (d : Dev) (n m : Nat) (p : Port) : Dev :=
  let d := onPort d m fun q => { q with
    txCache := [], rxCache := [], hand := q.hand ++ p.replay.map (fun r => (n, r)) ++ p.hand }
  let d := onPort d n fun p => { p with takenOver := true }
  let d := pump (portNotice (count d 4 0 0x71B 1 none) m 0) m
  p.queue.foldl (fun d w => reroute d w.pkt w.way w.src) d

/-- A port has failed (R239, R244): the port that the neighbour chose, a standby or the pair's survivor takes its packets
over, or the link is broken. A spare takes the place of the standard port that the failed one served. -/
def portFail (d : Dev) (n : Nat) (by_ : Option Nat := none) : Dev :=
  let p := portOf d n
  let d := setBlk (onPort d n fun p => { p with
    failed := true, width := 0, dir := 15, took := none, queue := [], replay := [], hand := [] }) 1 n .off
  if 6 ≤ p.dir.toNat then d
  else
    match by_.or (standbyFor d p.nbr) with
    | some m =>
      let d := if (portOf d m).dir = 6 then
          onPort d m fun q => { q with dir := p.dir, took := some (p.took.getD (BitVec.ofNat 4 n)) } else d
      takeOver d n m p
    | none =>
      match dirPorts d p.dir.toNat with
      | m :: _ => takeOver d n m p
      | [] =>
        let d := breakLink d p.dir.toNat p.nbr
        let d := (p.replay ++ p.hand.map Prod.snd).foldl (fun d r => reroute d r.pkt r.way none) d
        p.queue.foldl (fun d w => reroute d w.pkt w.way w.src) d

/-- An event in the router's error ring (R218, R260). -/
def routerRec (d : Dev) (h : BitVec 256) (kind : Nat) : Dev :=
  let pol := (polderOfJob d (hJob h)).map Prod.fst
  onFabric d fun b => { b with elog := elogAdd b.elog (elogRec d { cls := hClass h, polder := pol } (hAddr h) kind 0) }

/-- UNDELIVERED with 0x0310 to the address in a return word, which holds no more than source, op tag, job and kind (R260).
The class in which it travels is open: a free value. -/
def returnLost (d : Dev) (h : BitVec 256) : Dev :=
  let (d, v) := fresh (count d 4 0 0x720 1 none)
  (route d ⟨mkHdr { dstDev := (hSrcDev h).toNat, dstTile := hSrcTile h, cls := 1 + v.toNat % 7, ord := false, kind := 7, tgt := 0,
                    tag := (hTag h).toNat, job := (hJob h).toNat, srcDev := selfId d, srcTile := 0, addr := 0x0310 } [], [], []⟩
    none false).1

/-- A packet accepted at an ingress is routed on, delivered, or returned; its flits are freed when it leaves the buffer.
lost says that its stored header, and (true) its return word too, are uncorrectable (R260). -/
def takeOn (d : Dev) (n vc : Nat) (k : Packet) (lost : Option Bool) : Dev :=
  let free (d : Dev) : Dev := freeFlitsAt d n vc (flits k)
  match lost with
  | some both =>
    let d := free (routerRec d k.hdr 3)
    if both then d else returnLost d k.hdr
  | none =>
    let d := if k.poison = [] then d else routerRec d k.hdr 3
    if !hOk k.hdr then sendAnswer (free d) k.hdr 7 0x0124 []
    else
      let dir := (portOf d n).dir.toNat
      (routeGo d k (if dir < 6 then some (dir / 2) else none) (vc % 2 = 1) (some (n, vc)) none 2).1

/-- An uncorrectable codeword, or a word that R232 treats as one. -/
def codewordBad (d : Dev) (n : Nat) : Dev :=
  if !linkUp d n then d
  else count (count (onPort d n linkBad) 4 0 0x71A 1 none) 4 0 0x719 1 none

/-- A packet from a link. A lead on a reserved virtual channel is treated as an uncorrectable codeword (R232, R250). -/
def packetTransit (d : Dev) (n vc slot lseq : Nat) (short : Bool) (k : Packet) (lost : Option Bool) : Dev :=
  if !linkUp d n then d
  else if 6 ≤ vc then codewordBad d n
  else
    match linkAccept (portOf d n) vc slot lseq short k with
    | (p, none) => onPort d n fun _ => p
    | (p, some k) => takeOn (onPort d n fun _ => p) n vc k lost

def controlRx (d : Dev) (n : Nat) (w : W64) : Dev :=
  if !linkUp d n then d
  else if controlOk w then pump (onPort d n fun p => linkControl p w) n
  else codewordBad d n

/-- 128 F-clk cycles since something was first left unreported on a channel (R234). -/
def controlTimer (d : Dev) (n vc : Nat) : Dev :=
  let p := portOf d n
  if linkUp d n ∧ vc < 6 ∧ (p.ackDue ∨ NMap.get p.freed 0 vc ≠ NMap.get p.reported 0 vc) then
    onPort d n fun p => sendControl p vc false
  else d

/-- Fields of a handover lead (R232). -/
def handoverOk (w : W64) : Bool := fld w 3 0 = 4 && !flag w 7 && fld w 19 14 = 0 && fld w 63 48 = 0 && fld w 6 4 < 6

/-- The local port at the other end of the failed port that a handover lead names. -/
def farEnd (d : Dev) (n oport : Nat) : Option Nat :=
  (List.range 16).find? fun m => m ≠ n && (portOf d m).nbr = (portOf d n).nbr && (portOf d m).nbrPort.toNat = oport

/-- The first handover lead that names a failed port: the takeover is this end's too, by the port on which it arrives, and
both caches of that port are cleared (R233, R244). -/
def peerTakes (d : Dev) (n m : Nat) : Dev :=
  if (portOf d m).peerOver then d
  else
    let d := if portUp d m then portFail d m (some n) else onPort d n fun p => { p with txCache := [], rxCache := [] }
    onPort d m fun p => { p with peerOver := true }

/-- A resent packet behind a handover lead (R244): acknowledged under its new lseq, discarded when its old one had been
accepted. -/
def handoverRx (d : Dev) (n : Nat) (w : W64) (k : Packet) : Dev :=
  if !linkUp d n then d
  else if !handoverOk w then codewordBad d n
  else
    let vc := fld w 6 4
    let m := farEnd d n (fld w 47 44)
    let d := match m with | some m => peerTakes d n m | none => d
    match linkAccept (portOf d n) vc (fld w 13 8) (fld w 31 20) false k with
    | (p, none) => onPort d n fun _ => p
    | (p, some k) =>
      let d := onPort d n fun _ => p
      let old := fld w 43 32
      match m with
      | none => takeOn d n vc k none
      | some m =>
        if behind 12 old (portOf d m).rxSeq.toNat then freeFlitsAt d n vc (flits k)
        else takeOn (onPort d m fun p => { p with rxSeq := BitVec.ofNat 12 (old + 1) }) n vc k none

/-! ### Retraining (R238, R239, R244, R249) -/

/-- A lane loses lock, or 64 codewords are uncorrectable: the port retrains, its packets waiting. -/
def retrainStart (d : Dev) (n : Nat) : Dev :=
  if portSt d n = .on ∧ (portOf d n).dir ≠ 7 then count (setBlk d 1 n .starting) 4 0 0x718 1 none else d

/-- Broken links and node breaks of which this device is an end and that are not cleared are told to a device that trains
onto their ring (R249). -/
def tellBreaks (d : Dev) (n : Nat) : Dev :=
  let p := portOf d n
  if 6 ≤ p.dir.toNat then d
  else
    let k := p.dir.toNat / 2
    (breaksOf d k).foldl (fun d e =>
      if !e.node && (e.deva.toNat = selfId d || e.devb.toNat = selfId d) then
        sendMgmt d p.nbr.toNat 1 (breakBody k false false e.deva.toNat e.devb.toNat)
      else d) d

/-- A port that has trained carries traffic again: its link is back, and what waits is sent. -/
def portBack (d : Dev) (n : Nat) : Dev := pump (tellBreaks (linkBack d n) n) n

/-- A port is held OFF: a miswired one is reported with the identifier found (R242). -/
def portHeld (d : Dev) (n : Nat) (f : PortTrain) : Dev :=
  if miswired d n f then
    portNotice (onPort d n fun p => { p with
      failed := false, nbr := (f.nbr.map Prod.fst).getD p.nbr, nbrPort := (f.nbr.map Prod.snd).getD p.nbrPort }) n 0x0122
  else d

/-- Retraining ends: narrower ports raise a notice; a port below 2 lanes has failed, and one that is miswired is held OFF;
either's packets are taken over. -/
def retrainEnd (d : Dev) (n : Nat) (f : PortTrain) : Dev :=
  if portSt d n ≠ .starting ∨ (portOf d n).dir = 7 ∨ (d.blocks.waitStart.any fun e => e.2 = 256 + n) then d
  else
    let old := (portOf d n).width
    match portTrained d n f true with
    | (e, true) =>
      let e := if (portOf e n).width.toNat < old.toNat then portNotice e n 0 else e
      portBack e n
    | (_, false) =>
      let d := portFail d n
      if miswired d n f then portHeld d n f else portNotice d n 0

/-- A neighbour that has returned trains onto a failed or OFF port, which comes ON (R249). -/
def neighbourTraining (d : Dev) (n : Nat) (f : PortTrain) : Dev :=
  let p := portOf d n
  if portSt d n ≠ .off ∨ !p.cabled ∨ p.dir = 7 then d
  else
    match portTrained d n f with
    | (e, true) => portBack e n
    | (_, false) => portHeld d n f

/-! ### Tide boundaries (R326, R468, R490) -/

/-- The levee router's tide: occupancy of every producer queue is sampled, and streams count a tide without progress. -/
def routerTide (d : Dev) : Dev :=
  let sample (q : StageQ) : StageQ :=
    if q.role then q else { q with hist := q.hist.modify (min 15 ((q.p - q.f).toNat / 4)) fun x => if x = 0xFFFFFFFF then x else x + 1 }
  let d := { d with polders := NMap.mapVals d.polders fun _ x => { x with queues := NMap.mapVals x.queues fun _ q => sample q } }
  onColl d fun b => { b with streams := b.streams.map fun s => { s with quiet := s.quiet + 1 } }

def tideBoundary (d : Dev) (b : MeterId) : Dev :=
  let d := putMeter d b (newTide d b (meterOf d b))
  match b with
  | .levee n => pump (if n = 0 then routerTide d else d) n.toNat
  | _ => d

/-! ### Management packets (R432, R433) -/

def mType (p : Packet) : Nat := leAt p.payload 0 1
def mNo (p : Packet) : Nat := leAt p.payload 2 6

/-- The answer to a management request: its mtype plus 0x80, its number, a status, a payload. -/
def mgmtAnswer (d : Dev) (h : BitVec 256) (mtype no : Nat) (status : Code) (body : List Byte) : Dev :=
  let pl := toBytes 8 (mtype + no <<< 16) ++ body
  (route d ⟨mkHdr { dstDev := (hSrcDev h).toNat, dstTile := hSrcTile h, cls := 0, ord := false, kind := 8, tgt := 4,
                    tag := (hTag h).toNat, job := (hJob h).toNat, srcDev := selfId d, srcTile := hDstTile h,
                    addr := status.toNat } pl, pl, []⟩ none false).1

/-- A management packet for this reeve, well formed and whole. -/
def mgmtHere (d : Dev) (p : Packet) : Bool :=
  forMe d p 8 && hTgt p.hdr = 4 && hOk p.hdr && pcrcOk p && 8 ≤ p.payload.length

/-- A management packet of this reeve with a malformed header is returned (R253); a request whose pcrc does not match
performs nothing and is answered with 0x0127 (R256). -/
def mgmtBad (d : Dev) (p : Packet) : Dev :=
  if !forMe d p 8 then d
  else if !hOk p.hdr then sendAnswer d p.hdr 7 0x0124 []
  else if hTgt p.hdr = 4 ∧ !pcrcOk p ∧ 8 ≤ p.payload.length ∧ mType p < 0x80 then
    mgmtAnswer d p.hdr (mType p + 0x80) (mNo p) 0x0127 []
  else d

/-- A BREAK changes the table of its ring (R249), or with a malformed body nothing. -/
def breakRx (d : Dev) (p : Packet) : Dev :=
  if mType p ≠ 1 then d
  else if !mgmtHere d p then mgmtBad d p
  else
    let b := leAt p.payload 8 16
    let e : BreakEnt := ⟨bitAt b 7, BitVec.ofNat 20 (bits b 51 32), BitVec.ofNat 20 (bits b 83 64)⟩
    let dim := bits b 1 0
    if leAt p.payload 1 1 ≠ 0 ∨ p.payload.length ≠ 24 ∨ dim = 3 ∨ bits b 5 2 ≠ 0 ∨ bits b 31 8 ≠ 0 ∨ bits b 63 52 ≠ 0 ∨ bits b 127 84 ≠ 0 then
      mgmtAnswer d p.hdr 0x81 (mNo p) 0x0124 []
    else
      let d := if bitAt b 6 then clearBreak d dim e else addBreak d dim e
      mgmtAnswer (releaseFlows d) p.hdr 0x81 (mNo p) 0 []

/-- A PING is answered; so is a request whose mtype is unknown, with 0x80 and 0x0101. -/
def pingRx (d : Dev) (p : Packet) : Dev :=
  if mType p = 1 ∨ mType p = 3 ∨ 0x80 ≤ mType p then d
  else if !mgmtHere d p then mgmtBad d p
  else if mType p = 2 then mgmtAnswer d p.hdr 0x82 (mNo p) 0 []
  else mgmtAnswer d p.hdr 0x80 (mNo p) 0x0101 []

def statusRx (a : AlwaysOn) (d : Dev) (p : Packet) : Dev :=
  if mType p ≠ 3 then d
  else if !mgmtHere d p then mgmtBad d p
  else mgmtAnswer d p.hdr 0x83 (mNo p) 0 (statusBlock a d)

/-- An answer to a request of this reeve is taken in; another is dropped. -/
def mgmtAnswerRx (d : Dev) (p : Packet) : Dev :=
  if mType p < 0x80 then d
  else if !mgmtHere d p then mgmtBad d p
  else
    let e := (BitVec.ofNat 48 (mNo p), hSrcDev p.hdr)
    if !d.reeve.mgmtOut.contains e then d
    else onReeve d fun r => { r with
      mgmtOut := r.mgmtOut.erase e
      mgmtIn := r.mgmtIn ++ [(e.1, BitVec.ofNat 8 (mType p), aStatus p.hdr, p.payload.drop 8)] }

def execTideBoundary (b : MeterId) (s : State) : Out := onDev s fun d => tideBoundary d b
def execPacketTransit (port : PortNo) (vc : BitVec 3) (lseq : BitVec 12) (slot : BitVec 6) (short : Bool) (p : Packet)
    (lost : Option Bool) (s : State) : Out :=
  onDev s fun d => packetTransit d port.toNat vc.toNat slot.toNat lseq.toNat short p lost
def execLinkControlWordRx (port : PortNo) (w : W64) (s : State) : Out := onDev s fun d => controlRx d port.toNat w
def execLinkControlTimer (port : PortNo) (vc : BitVec 3) (s : State) : Out := onDev s fun d => controlTimer d port.toNat vc.toNat
def execLinkCodewordUncorrectable (port : PortNo) (s : State) : Out := onDev s fun d => codewordBad d port.toNat
def execHandoverLeadRx (port : PortNo) (lead : W64) (p : Packet) (s : State) : Out := onDev s fun d => handoverRx d port.toNat lead p
def execLeveeRetrainStart (port : PortNo) (s : State) : Out := onDev s fun d => retrainStart d port.toNat
def execLeveeRetrainEnd (port : PortNo) (found : PortTrain) (s : State) : Out := onDev s fun d => retrainEnd d port.toNat found
def execLeveeNeighbourTraining (port : PortNo) (found : PortTrain) (s : State) : Out :=
  onDev s fun d => neighbourTraining d port.toNat found
def execBreakRx (p : Packet) (s : State) : Out := onDev s fun d => breakRx d p
def execPing (p : Packet) (s : State) : Out := onDev s fun d => pingRx d p
def execStatus (p : Packet) (s : State) : Out := onDevA s fun a d => statusRx a d p
def execMgmtAnswerRx (p : Packet) (s : State) : Out := onDev s fun d => mgmtAnswerRx d p

end Sys2Proof.Machine
end

