-- ==== Sys2Proof/Machine/Memory.lean ====
section
/-! DEFINITION. Scrub reads and soft repair (R215, R219), and the memory commands of family 0x03 (R209, R431). -/

namespace Sys2Proof.Machine

/-! ### Scrub and repair -/

/-- The key and the recorded address of a word that scrubbing reads: the words of the stores that no local address reaches
have theirs by tile (R216, R219). -/
def scrubPlace (d : Dev) : ScrubWord → Option (Nat × Nat)
  | .mem a => match place d (a.toNat / 8 * 8) with | .ok key => some (key, a.toNat / 8 * 8) | .error _ => none
  | .prog t i => if tileUp d t.toNat then some (progKey t.toNat 0 + 8 * i.toNat, 0) else none
  | .codebook t i => if tileUp d t.toNat then some (cbKey t.toNat 0 0 + 8 * i.toNat, 0) else none

/-- A scrub read of a word, in class C7; the first one that does not rise begins a new period, in which rows count their
corrections anew (R215, R219). -/
def scrubRead (d : Dev) (w : ScrubWord) : Dev :=
  match scrubPlace d w with
  | none => d
  | some (key, a) =>
    let src := elogSource key
    let last := NMap.find? d.mem.scrubPos src
    let d := if last.any (fun l => key ≤ l) then
        onMem d fun m => { m with rowHits := NMap.clear m.rowHits (src * 2 ^ 40) ((src + 1) * 2 ^ 40) } else d
    let d := onMem d fun m => { m with scrubPos := NMap.insert m.scrubPos src key }
    let d := if src < 0x10 then count d 2 src 0x51D 1 none else if src < 0x18 then count d 3 (src - 0x10) 0x61D 1 none else d
    (wordRead d { cls := 7, scrub := true } key a).1

/-- A word as the row copy reads and writes it: corrected, or poisoned, and recorded and counted as any read's (R215 to
R218). -/
def copyWord (d : Dev) (w : Nat) : Dev :=
  let key := 8 * w
  let note (d : Dev) (kind : Nat) : Dev := eccNote d {} key (hbmAddr d.mem.imap key) kind
  let wrong (d : Dev) : Dev := let (d, v) := fresh d; rawWrite (setEcc d key none) key (toBytes 8 v.toNat)
  match eccOut key (NMap.find? d.mem.ecc w) with
  | .clean => setEcc d key none
  | .single => note (setEcc d key none) 1
  | .double => note (setEcc d key none) 2
  | .uncorr => note (setEcc d key (some .poison)) 3
  | .poison => note (setEcc d key (some .poison)) 4
  | .miss1 => note (wrong d) 1
  | .miss2 => note (wrong d) 2
  | .unseen => wrong d

/-- The oldest row copy of a stack ends: the row is redirected and the repair recorded as kind 5. -/
def repairCopyEnd (d : Dev) (stack : Nat) : Dev :=
  match (d.mem.repairs.filter fun r => r.stack = stack && r.copying).getLast? with
  | none => d
  | some r =>
    let d := ((NMap.keys d.mem.ecc).filter fun w => isHbm (8 * w) && rowKey (8 * w) = r.row).foldl copyWord d
    let d := onMem d fun m => { m with repairs := m.repairs.map fun x => if x = r then { x with copying := false } else x }
    elogPut d stack (elogRec d {} (Config.rowFirst r.row) 5 0)

/-! ### Commands -/

/-- Stripes that a polder's HBM window meets. -/
def windowStripes (x : Polder) : List Nat := (List.range (PR x 164 154)).map fun i => (PR x 153 144 + i) % 64

/-- STRIPE_MODE: every stripe of the mask changes, or none (R209). -/
def stripeMode (a : AlwaysOn) (d : Dev) (c : Cmd) : AlwaysOn × Dev × Cmd :=
  let js := setPositions 64 (c.word2 0)
  let glob := c.word 2 = 1
  if (d.polders : List (Nat × Polder)).any fun e => (windowStripes e.2).any fun j => js.contains j then (a, d, c.refuse 0x0303)
  else if glob && !(List.range 16).all (stackUp d) then (a, d, c.refuse 0x0304)
  else
    let imap : W64 := js.foldl (fun m j => putFld m j j (b2n glob)) a.imap
    ({ a with imap := imap }, onMem d fun m => { m with imap := imap }, c.finish)

def scrubPeriod (d : Dev) (c : Cmd) : Dev × Cmd :=
  let k := c.word 0
  let n := c.word 1
  if (k < 2 ∧ 1 ≤ n ∧ n ≤ 168) ∨ (k = 2 ∧ 10 ≤ n ∧ n ≤ 1440) then
    (onMem d fun m => { m with scrub := m.scrub.set k n }, c.finish)
  else (d, c.refuse 0x0307)

/-- The ring of a source, or none for another source or an absent block (R431). -/
def elogOf (d : Dev) (src : Nat) : Option ELog :=
  if src < 0x10 then (if stackUp d src then some (NMap.get d.mem.elog {} src) else none)
  else if src < 0x18 then (if (ddrChans d).contains (src - 0x10) then some (NMap.get d.mem.elog {} src) else none)
  else if 0x20 ≤ src ∧ src < 0x40 then (if clusterUp d (src - 0x20) then some (NMap.get d.mem.elog {} src) else none)
  else if src = 0x40 then some d.fabric.elog
  else if 0x800 ≤ src ∧ src < 0x1000 then some (NMap.get d.mem.elog {} src)
  else none

/-- MC_EHEAD padded to 16 B, then the 16 records, newest first. -/
def elogBytes (l : ELog) : List Byte :=
  toBytes 16 (l.newest.toNat + l.lost.toNat <<< 16)
    ++ (List.range 16).flatMap fun i => toBytes 16 (l.recs.getD i 0).toNat

def elogRead (d : Dev) (c : Cmd) : Dev × Cmd :=
  match elogOf d (c.word 0) with
  | none => (d, c.refuse 0x0308)
  | some l =>
    if !cmdAddrOk d c.polder (c.word2 1) 272 32 then (d, c.refuse 0x0106)
    else
      match cmdWrite d c.polder (c.word2 1) (elogBytes l) with
      | (d, some e) => (d, c.fail e)
      | (d, none) => (d, c.finish [w32 ((l.recs.filter fun r => fld r 50 48 ≠ 0).length)])

/-- A command's step in the device and its always-on domain. -/
def cmdRowA (a : AlwaysOn) (d : Dev) (m : Nat) (ok : Cmd → Bool) (f : AlwaysOn → Dev → Cmd → AlwaysOn × Dev × Cmd) : AlwaysOn × Dev :=
  match takeStep d m ok with
  | none => (a, d)
  | some (d, c) =>
    let r := f a d c
    (r.1, putCmd r.2.1 m r.2.2)

def execScrubRead (w : ScrubWord) (s : State) : Out := onDev s fun d => scrubRead d w
def execSoftRepairCopyEnd (stack : BitVec 4) (s : State) : Out := onDev s fun d => repairCopyEnd d stack.toNat
def execStripeMode (m : MboxNo) (s : State) : Out := onAon s fun a d => cmdRowA a d m.val (isCmd 0x0301) stripeMode
def execScrubPeriod (m : MboxNo) (s : State) : Out := onDev s fun d => cmdRow d m.val (isCmd 0x0302) scrubPeriod
def execElogRead (m : MboxNo) (s : State) : Out := onDev s fun d => cmdRow d m.val (isCmd 0x0303) elogRead

end Sys2Proof.Machine
end

