-- ==== Sys2Proof/Machine/Commands.lean ====
section
/-! DEFINITION. Mailbox commands of the families 0x01, 0x02 (but for POLDER_DESTROY), 0x04, 0x05, 0x06 and 0x09 (R315 to
R318, R323, R422, R424, R429 to R431, R485 to R492). -/

namespace Sys2Proof.Machine

/-! ### Family 0x01 -/

/-- Spares in service (R429, R451): tiles, levee ports, cipher pipelines, reeve core. -/
def spareTiles (d : Dev) : Nat := (d.boot.spares.filter fun r => fld r 4 0 ≠ 0x1F).length
def spareWord (d : Dev) : Nat :=
  spareTiles d % 256 + ([12, 13, 14, 15].filter fun n => (portOf d n).took ≠ none).length <<< 8
    + (d.cipher.serv.filter fun x => x.any (16 ≤ ·)).length <<< 12 + (b2n (d.reeve.coresIn.contains 4)) <<< 14

def devInfo (d : Dev) (c : Cmd) : Dev × Cmd :=
  (d, c.finish [w32 (devState d), w32 (devStage d), w32 d.boot.tiles, w32 d.boot.ddr, w32 d.boot.hbm.toNat, w32 (spareWord d)])

/-- NOTICE_RING (R422). -/
def noticeRing (m : Nat) (d : Dev) (c : Cmd) : Dev × Cmd :=
  let k := bits (c.word 2) 4 0
  if c.word2 0 % 4096 ≠ 0 then (d, c.refuse 0x0106)
  else if k < 6 ∨ 16 < k then (d, c.refuse 0x0102)
  else (onMbox d m fun b => { b with ring := some ⟨c.word2 0, k, BitVec.ofNat 16 (bits (c.word 2) 31 16), 0⟩ }, c.finish)

/-- CLUSTER_CLOCK: the setting of the clusters in the mask; each runs at most at its limit (R500). -/
def clusterClock (d : Dev) (c : Cmd) : Dev × Cmd :=
  let f := c.word 1
  if f < 1200 ∨ 2700 < f then (d, c.refuse 0x0102)
  else
    let cs : NMap Cluster := (setPositions 32 (c.word 0)).foldl
      (fun m i => NMap.upd m {} i fun x => { x with mhz := f }) d.grid.clusters
    ({ d with grid := { d.grid with clusters := cs } }, c.finish)

/-- The transit shares of words 2 and 3. -/
def levShares (c : Cmd) : List Nat := (List.range 7).map fun k => bits (c.word2 2) (8 * k + 7) (8 * k)

/-- LEV_CONFIG: the torus, the own identifier and the transit shares; a changed torus or identifier makes every levee port
retrain (R241, R259, R431). -/
def levConfig (d : Dev) (c : Cmd) : Dev × Cmd :=
  let dims : W32 := w32 (c.word 0)
  let self : W32 := w32 (c.word 1)
  let t := levShares c
  let there : Dev := onFabric d fun b => { b with dims := dims, self := self, tshare := t }
  let changed := d.fabric.dims ≠ dims ∨ d.fabric.self ≠ self
  match firstFail [(bits (c.word 0) 31 20 = 0, 0x0120), (inTorus there (selfId there), 0x0121),
      (total t ≤ 250, 0x0129), (d.polders = [] ∨ !changed, 0x0123)] with
  | some e => (d, c.refuse e)
  | none => (if changed then (List.range 16).foldl retrainStart there else there, c.finish)

def levConfigShares (d : Dev) (c : Cmd) : Dev × Cmd :=
  if total (levShares c) ≤ 250 then (onFabric d fun b => { b with tshare := levShares c }, c.finish) else (d, c.refuse 0x0129)

/-! ### Polders (R315 to R318) -/

/-- Ranges [a, a + m) and [b, b + n) have a unit in common. -/
def meets (a m b n : Nat) : Bool := 0 < m && 0 < n && a < b + n && b < a + m

/-- A coordinate that is not absent (R23, R31), whether its cluster is on or not. -/
def coordThere (d : Dev) (t : Nat) : Bool := !d.grid.absent.contains t && (granted d 1 || colOf t < 48)

/-- Two polders share a tile: coordinates absent are left out of both (R317). -/
def rectsMeet (d : Dev) (x y : Polder) : Bool := x.rect.any fun t => y.inRect t && coordThere d t

/-- Allotments within a tile's resources. -/
def allotOk (x : Polder) : Bool :=
  let units := PR x 102 94
  1 ≤ x.ncols && x.col0 + x.ncols ≤ 64 && 1 ≤ x.nrows && x.row0 + x.nrows ≤ 32
    && 1 ≤ PR x 74 69 && PR x 68 64 + PR x 74 69 ≤ 32
    && 1 ≤ PR x 85 80 && PR x 79 75 + PR x 85 80 ≤ 32
    && (1 ≤ units || x.filler) && x.sbase + x.slen ≤ 2 ^ 20
    && 1 ≤ x.ycount && x.ybase + x.ycount ≤ 64
    && x.kbase + x.kcount ≤ 4096 && x.cbbase + x.cbcount ≤ 32
    && PR x 153 144 + PR x 164 154 ≤ 1024 && PR x 176 165 + PR x 189 177 ≤ 4096

/-- Allotments of two polders that overlap: on a tile they share, or in their windows, or a spill adder that both claim. -/
def allotsMeet (d : Dev) (x y : Polder) : Bool :=
  (rectsMeet d x y &&
    (meets x.tbase x.tcount y.tbase y.tcount || meets x.pbase x.plen y.pbase y.plen || meets x.sbase x.slen y.sbase y.slen
      || meets x.ybase x.ycount y.ybase y.ycount || meets x.kbase x.kcount y.kbase y.kcount
      || meets x.cbbase x.cbcount y.cbbase y.cbcount))
    || meets x.hlo (x.hhi - x.hlo) y.hlo (y.hhi - y.hlo) || meets x.dlo (x.dhi - x.dlo) y.dlo (y.dhi - y.dlo)
    || x.spillTiles.any fun t => y.spillTiles.contains t

/-- The shares of every polder but one, with a list in its place, meet R318. -/
def sharesOk (d : Dev) (p : Nat) (filler : Bool) (shares : List Nat) : Bool :=
  let others := ((d.polders : List (Nat × Polder)).filter fun e => e.1 ≠ p).map fun e => total e.2.shares
  total others + total shares ≤ 250 &&
    (if filler then (shares.take 5).all (· = 0) else shares.getD 5 0 = 0)

/-- Placement and windows (R224): tiers allowed, present, and large enough. State in a tier without a window has none that is
large enough. -/
def placementOk (d : Dev) (x : Polder) : Bool :=
  x.place 0 ≠ 2 && (!x.anyHbm || x.hlo < x.hhi)
    && (List.range (PR x 164 154)).all (fun i => (place d (x.hlo + i * gib)).isOk)
    && (!x.anyDdr || x.dlo < x.dhi) && (!x.buddyEn || 0 < ddrCap d)
    && (x.dlo = x.dhi || x.dhi ≤ ddrBase + ddrCap d)

/-- Journal, spill region, wait basin and buddy region (R317). -/
def regionsOk (x : Polder) : Bool :=
  let basin := x.wslots * x.wsize
  x.hlo ≤ x.jbase && x.jbase + x.jsize ≤ x.hhi && 2 ≤ PR x 239 228
    && x.nspill ≤ 16 && x.spillTiles.all x.inRect
    && basin ≤ x.slen && (x.nspill = 0 || x.spsize + basin ≤ x.slen)
    && (!x.buddyEn || (0 < x.blen && x.bofs + x.blen ≤ x.dhi - x.dlo))

def polderCreate (d : Dev) (c : Cmd) : Dev × Cmd :=
  let desc : BitVec 1024 := BitVec.ofNat 1024 (c.num 0 32)
  let p := fld desc 19 16
  let x : Polder := { desc := desc, shares := recShares desc }
  let others : List (Nat × Polder) := d.polders
  match firstFail [
      ((NMap.find? d.polders p).isNone, 0x0201),
      (others.all (fun e => e.2.job ≠ x.job), 0x0202),
      (allotOk x && tilesHeld d x ≠ [] && others.all (fun e => !allotsMeet d x e.2), 0x0203),
      (sharesOk d p x.filler x.shares, 0x0204),
      (granted d 2 || !(x.dlo ≠ x.dhi || x.buddyEn || x.anyDdr), 0x020A),
      (placementOk d x, 0x0306),
      (regionsOk x, 0x0205),
      (d.reeve.clearing.all (fun r => !meets x.hlo (x.hhi - x.hlo) r.1 (r.2 - r.1) && !meets x.dlo (x.dhi - x.dlo) r.1 (r.2 - r.1)),
        0x0206)] with
  | some e => (d, c.refuse e)
  | none =>
    let claims := (x.spillTiles.map fun t => (⟨5, t, 3, BitVec.ofNat 4 p⟩ : Claim))
    ({ d with polders := NMap.insert d.polders p x, claims := d.claims ++ claims }, c.finish [w32 (tilesHeld d x).length])

/-- Operations of a polder that are queued or run on a tile, and those whose ISSUE waits. -/
def opsOn (d : Dev) (t : Nat) : List QOp :=
  ((tileOf d t).engines : List (Nat × Engine)).flatMap fun e => (e.2.run.map RunOp.q).toList ++ e.2.queue

/-- Those of a polder: the one that issued them and holds their slots, whatever their descriptors name. -/
def polderOps (d : Dev) (p : PolderNo) : List QOp :=
  (d.tiles : List (Nat × Tile)).flatMap fun e => (opsOn d e.1).filter fun q => opPolder d e.1 q = p

def polderShares (d : Dev) (c : Cmd) : Dev × Cmd :=
  let p : PolderNo := BitVec.ofNat 4 (c.word 0)
  let shares := (List.range 7).map fun k => bits (c.word2 1) (8 * k + 7) (8 * k)
  match polderOf d p with
  | none => (d, c.refuse 0x0207)
  | some x =>
    let zeroed := (polderOps d p).any fun q => 1 ≤ dClass q.desc && shares.getD (dClass q.desc - 1) 0 = 0 && x.share (dClass q.desc) ≠ 0
    if !sharesOk d p.toNat x.filler shares || zeroed then (d, c.refuse 0x0204)
    else (onPolder d p fun x => { x with shares := shares }, c.finish)

/-- STAGE_QUEUE (R323): the record's ranges and the polder's allotments. -/
def queueOk (d : Dev) (x : Polder) (q : StageQ) : Bool :=
  1 ≤ q.nslot && 4096 ≤ q.ssize && inTorus d q.peer.toNat && q.ring % 4096 = 0
    && (!q.role || (x.hlo ≤ q.ring && q.ring + q.nslot * q.ssize ≤ x.hhi))
    && q.line % 64 = 0 && q.line + 64 ≤ 0x80000000 && inWindows d x q.line 64
    && x.inRect q.tile && tileUp d q.tile && summOk x q.sreg

def stageQueue (d : Dev) (c : Cmd) : Dev × Cmd :=
  match c.polder with
  | none => (d, c.refuse 0x0207)
  | some p =>
    let q : StageQ := { qrec := BitVec.ofNat 256 (c.num 0 8) }
    let qid := fld q.qrec 2 0
    match polderOf d p with
    | none => (d, c.refuse 0x0207)
    | some x =>
      if queueOk d x q && (NMap.find? x.queues qid).isNone then
        (onPolder d p fun x => { x with queues := NMap.insert x.queues qid q }, c.finish)
      else (d, c.refuse 0x0208)

/-- MBX_ASSIGN (R430). -/
def mbxAssign (d : Dev) (c : Cmd) : Dev × Cmd :=
  let ms := setPositions 64 (c.word2 0)
  let p : PolderNo := BitVec.ofNat 4 (c.word 2)
  if ms.any fun m => (mboxOf d m).owner.any fun o => o.1 ≠ p then (d, c.refuse 0x0209)
  else
    match polderOf d p with
    | none => (d, c.refuse 0x0207)
    | some x => (ms.foldl (fun d m => onMbox d m fun b => { b with owner := some (p, x.job) }) d, c.finish)

/-- FAULT_READ (R424): the records, newest first. -/
def faultRead (d : Dev) (c : Cmd) : Dev × Cmd :=
  match c.polder.bind (polderOf d) with
  | none => (d, c.refuse 0x0207)
  | some x =>
    let bs := x.faults.flatMap fun r => toBytes 32 r.toNat
    if !cmdAddrOk d c.polder (c.word2 0) bs.length 64 then (d, c.refuse 0x0106)
    else
      match cmdWrite d c.polder (c.word2 0) bs with
      | (d, some e) => (d, c.fail e)
      | (d, none) => (d, c.finish [w32 x.faults.length, x.overwritten])

/-! ### Programs, threads and descriptors (R431) -/

/-- Words written into a polder's program region on a tile. -/
def loadWords (acc : Acc) (t : Nat) : Nat → Dev → Nat → List Byte → Dev
  | 0, d, _, _ => d
  | n + 1, d, i, bs => if bs = [] then d else loadWords acc t n (keyWrite d acc (progKey t i) (bs.take 4)) (i + 1) (bs.drop 4)

/-- The tiles that a PROG_LOAD names. -/
def loadTiles (d : Dev) (x : Polder) (w : Nat) : List Nat := if w = 0xFFF then tilesHeld d x else [w]

/-- PROG_LOAD: 64 KiB in each mailbox step. -/
def progLoad (d : Dev) (c : Cmd) : Dev × Cmd :=
  match c.polder.bind (polderOf d) with
  | none => (d, c.refuse 0x0207)
  | some x =>
    let src := c.word2 0
    let len := c.word 2
    let ofs := c.word 4
    let ts := loadTiles d x (c.word 3)
    let awake := (d.tiles : List (Nat × Tile)).any fun e => (e.2.threads : List (Nat × Thread)).any fun h =>
      (h.2.st = .ready || h.2.st = .waiting) && x.inRect e.1 && x.tbase ≤ h.1 && h.1 < x.tbase + x.tcount
    let c := { c with total := ceilDiv len 65536 }
    let err := if c.step ≠ 0 then none else firstFail [
      (len % 4 = 0 && ofs % 4 = 0, 0x0102), (cmdAddrOk d c.polder src len 64, 0x0106), (!awake, 0x040B),
      (ofs + len ≤ 4 * x.plen && ts.all (fun t => x.inRect t && tileUp d t), 0x0409)]
    match err with
    | some e => (d, c.refuse e)
    | none =>
      let at_ := 65536 * c.step
      let n := min 65536 (len - at_)
      match cmdRead d c.polder (src + at_) n with
      | (d, .error e) => (d, c.fail e)
      | (d, .ok bs) =>
        let d := ts.foldl (fun d t => loadWords (cmdAcc c.polder) t (n / 4) d (x.pbase + (ofs + at_) / 4) bs) d
        if len ≤ at_ + n then (d, c.finish) else (d, { c.more with done := c.step + 1 })

/-- The tile and thread of word 0, when the thread lies in the polder's range on one of its tiles. -/
def cmdThread (d : Dev) (c : Cmd) : Except Code (Nat × Nat) :=
  match c.polder.bind (polderOf d) with
  | none => .error 0x0207
  | some x =>
    let t := bits (c.word 0) 10 0
    let th := bits (c.word 0) 25 16
    if x.inRect t && tileUp d t && x.tbase ≤ th && th < x.tbase + x.tcount then .ok (t, th) else .error 0x0409

def threadStart (d : Dev) (c : Cmd) : Dev × Cmd :=
  match cmdThread d c with
  | .error e => (d, c.refuse e)
  | .ok (t, th) =>
    if (threadOf d t th).st ≠ .free then (d, c.refuse 0x040D)
    else (onThread d t th fun _ => startThread th (BitVec.ofNat 64 (c.word 1)) (BitVec.ofNat 64 (c.word2 2)), c.finish)

/-- Park: a WAITING thread keeps its condition. -/
def threadPark (d : Dev) (c : Cmd) : Dev × Cmd :=
  match cmdThread d c with
  | .error e => (d, c.refuse e)
  | .ok (t, th) =>
    match (threadOf d t th).st with
    | .free => (d, c.refuse 0x040D)
    | .parked => (d, c.finish)
    | st => (onThread d t th fun x => { x with st := .parked, was := st }, c.finish)

/-- Resume: back to the state it left; its condition may meanwhile hold. -/
def threadResume (d : Dev) (c : Cmd) : Dev × Cmd :=
  match cmdThread d c with
  | .error e => (d, c.refuse e)
  | .ok (t, th) =>
    let x := threadOf d t th
    if x.st ≠ .parked ∨ x.byFault then (d, c.refuse 0x040D)
    else
      let d := onThread d t th fun x => { x with st := x.was, was := .free }
      (if x.was = .waiting then recheck d t th else d, c.finish)

/-- Free: a PARKED thread becomes FREE; an ISSUE of its that waits is gone. -/
def threadFree (d : Dev) (c : Cmd) : Dev × Cmd :=
  match cmdThread d c with
  | .error e => (d, c.refuse e)
  | .ok (t, th) =>
    if (threadOf d t th).st ≠ .parked then (d, c.refuse 0x040D)
    else
      let d := onThread d t th fun _ => {}
      (onTile d t fun x => { x with issueQ := x.issueQ.filter fun w => w.thread ≠ some th }, c.finish)

/-- DESC_ISSUE: as ISSUE on the tile; it waits over mailbox steps for a slot or a queue entry. -/
def descIssue (m : Nat) (d : Dev) (c : Cmd) : Dev × Cmd :=
  if c.step ≠ 0 then (match c.nums with | v :: _ => (d, c.finish [w32 v]) | [] => (d, c.more))
  else
    match c.polder, c.polder.bind (polderOf d) with
    | some p, some x =>
      let t := c.word 0
      let a := c.word2 1
      if !(x.inRect t && tileUp d t) ∨ a / 2 ^ 20 ≠ t then (d, c.refuse 0x0409)
      else
        match readDesc d t p x (a % 2 ^ 20) with
        | (d, .error e) => (d, c.refuse (if e = 0x0413 then 0x0409 else e))
        | (d, .ok desc) =>
          let dep := resolveDep d t p desc (BitVec.ofNat 64 (c.word 3))
          if (tileOf d t).issueQ = [] ∧ canGrant d t desc then
            let r := enqueue d t p desc dep
            (r.1, c.finish [w32 (issueVal t r.2.1 r.2.2).toNat])
          else
            (onTile d t fun y => { y with issueQ := y.issueQ ++ [⟨none, m, desc, dep⟩] }, c.more)
    | _, _ => (d, c.refuse 0x0207)

/-! ### Collectives and open shards (R284, R431) -/

/-- Chunks of a collective that its abort ends on this device. -/
def openChunks (d : Dev) (job coll : BitVec 16) : Nat :=
  match (collTile d job coll).bind (fun t => (liveRun d t).map fun r => (t, r)) with
  | none => 0
  | some (t, r) =>
    let c := rCx d t r
    let q := rst d t
    ((List.range c.chunks.length).filter fun n => chunkCode c q n = 0 && (NMap.find? q.failed n).isNone).length

def collAbortCmd (d : Dev) (c : Cmd) : Dev × Cmd :=
  match c.polder.bind (polderOf d) with
  | none => (d, c.refuse 0x0207)
  | some x =>
    let job : BitVec 16 := BitVec.ofNat 16 (c.word 0)
    let coll : BitVec 16 := BitVec.ofNat 16 (c.word 0 / 65536)
    if job ≠ x.job then (d, c.refuse 0x0103)
    else (collAbort d job coll, c.finish [w32 (openChunks d job coll)])

/-- The 16 B entry of a journal's head record that is open, committed or unreadable. -/
def shardEntry (d : Dev) (p : PolderNo) (x : Polder) (t : Nat) : Dev × Option (List Byte) :=
  let bad (r : Nat) (st : Nat) : List Byte :=
    toBytes 16 (t + st <<< 12 + (bits r 175 128) <<< 16 + (bits r 15 0) <<< 64 + (bits r 31 16) <<< 80 + (bits r 38 35) <<< 96)
  match memRead d (cmdAcc (some p)) x.jbase 64 with
  | (d, .error _) => (d, some (bad 0 7))
  | (d, .ok h) =>
    let head := bits (ofBytes h) 37 32
    if 62 < head then (d, some (bad 0 7))
    else
      match memRead d (cmdAcc (some p)) (recAddr x head) 64 with
      | (d, .error _) => (d, some (bad 0 7))
      | (d, .ok bs) =>
        let r := ofBytes bs
        let st := bits r 34 32
        if bits r 511 480 ≠ crc32c (bs.take 60) ∧ bs.any (· ≠ 0) then (d, some (bad r 7))
        else (d, if st = 1 ∨ st = 2 then some (bad r st) else none)

/-- OPEN_SHARDS: a mailbox step for each tile; the polder's one journal is reported at its first tile. -/
def openShards (d : Dev) (c : Cmd) : Dev × Cmd :=
  match c.polder, c.polder.bind (polderOf d) with
  | some p, some x =>
    let ts := tilesHeld d x
    let c := { c with total := ts.length }
    if c.step = 0 then
      if !cmdAddrOk d c.polder (c.word2 0) (16 * c.word 2) 64 then (d, c.refuse 0x0106)
      else
        match shardEntry d p x (ts.headD 0) with
        | (d, none) => if ts.length ≤ 1 then (d, c.finish [0, 0]) else (d, { c.more with done := 1, nums := [0, 0] })
        | (d, some bs) =>
          let n := min 1 (c.word 2)
          match (if n = 0 then (d, none) else cmdWrite d c.polder (c.word2 0) bs) with
          | (d, some e) => (d, c.fail e)
          | (d, none) => if ts.length ≤ 1 then (d, c.finish [1, w32 n]) else (d, { c.more with done := 1, nums := [1, n] })
    else if ts.length ≤ c.step + 1 then (d, c.finish (c.nums.map w32))
    else (d, { c.more with done := c.step + 1 })
  | _, _ => (d, c.refuse 0x0207)

/-! ### Counters (R482 to R492) -/

/-- A block that is present (R486, R491). -/
def blockThere (d : Dev) (kind idx : Nat) : Bool :=
  match kind with
  | 0 => tileUp d idx
  | 1 => idx < 2048
  | 2 => idx < 16 && stackUp d idx
  | 3 => idx < 8 && (ddrChans d).contains idx
  | 4 | 5 | 6 => idx = 0
  | _ => false

/-- Events that the table lists for a kind of block (R482, R488). -/
def eventOk (kind ev : Nat) : Bool :=
  ev ≤ 2 ||
  match kind with
  | 0 => (0x010 ≤ ev && ev ≤ 0x013) || (0x100 ≤ ev && ev ≤ 0x105) || ev = 0x200 || ev = 0x201 || ev = 0x210
      || (0x220 ≤ ev && ev ≤ 0x222) || (0x300 ≤ ev && ev ≤ 0x303)
  | 1 => 0x400 ≤ ev && ev ≤ 0x418
  | 2 => 0x500 ≤ ev && ev ≤ 0x51D
  | 3 => 0x600 ≤ ev && ev ≤ 0x61D
  | 4 => 0x700 ≤ ev && ev ≤ 0x721
  | 5 => (0x800 ≤ ev && ev ≤ 0x809) || (0x900 ≤ ev && ev ≤ 0x902)
  | 6 => 0xA00 ≤ ev && ev ≤ 0xA02
  | _ => false

def counterOf (d : Dev) (kind idx n : Nat) : Counter :=
  NMap.get (NMap.get d.counters.blocks {} (ctrKey kind idx)).ctr {} n
def onBlock (d : Dev) (kind idx : Nat) (f : CtrBlock → CtrBlock) : Dev :=
  { d with counters := { d.counters with blocks := NMap.upd d.counters.blocks {} (ctrKey kind idx) f } }

/-- CTR_SELECT (R485, R486). -/
def ctrSelect (d : Dev) (c : Cmd) : Dev × Cmd :=
  let kind := bits (c.word 0) 3 0
  let idx := bits (c.word 0) 15 4
  let n := bits (c.word 0) 18 16
  let ev := bits (c.word 1) 11 0
  let unf := bitAt (c.word 1) 16
  let old := counterOf d kind idx n
  let put (x : Counter) : Dev := onBlock d kind idx fun b => { b with ctr := NMap.set b.ctr {} n x }
  let grant := match c.polder, c.polder.bind (polderOf d) with
    | some _, some x => x.cgrant && (kind ≥ 2 || (x.inRect idx && tileUp d idx)) && !unf
    | _, _ => true
  let free := !old.held || (match c.polder with | some p => old.polder = p | none => false)
  match firstFail [(blockThere d kind idx, 0x0904), (eventOk kind ev, 0x0901), (grant, 0x0903), (free, 0x0902)] with
  | some e => (d, c.refuse e)
  | none =>
    match c.polder with
    | some p =>
      (put (if ev = 0 then {} else { event := BitVec.ofNat 12 ev, polder := p, filt := true, held := true, snap := old.snap }), c.finish)
    | none =>
      (put { event := BitVec.ofNat 12 ev, polder := BitVec.ofNat 4 (c.word 43), filt := !unf, held := false, snap := old.snap }, c.finish)

/-- Present blocks, as (kind, index). -/
def presentBlocks (d : Dev) : List (Nat × Nat) :=
  ((List.range 2048).filter (tileUp d)).map (fun t => (0, t)) ++ (List.range 2048).map (fun t => (1, t))
    ++ ((List.range 16).filter (stackUp d)).map (fun i => (2, i)) ++ (ddrChans d).map (fun i => (3, i)) ++ [(4, 0), (5, 0), (6, 0)]

/-- One block captured. -/
def snapBlock (no : W32) (d : Dev) (b : Nat × Nat) : Dev :=
  let d := driftBlock (if b.1 = 0 then tickTile d b.2 else d) b.1 b.2
  let cyc := if b.1 = 0 then (tileOf d b.2).cyc else 0
  onBlock d b.1 b.2 fun x => { x with
    snapno := no
    snapCyc := cyc
    ctr := NMap.mapVals x.ctr fun _ c => { c with snap := c.val }
    hsnap := x.hist }

/-- The snapshot window (R492), as 64-bit entries by offset / 8. -/
def snapWindow (d : Dev) : NMap W64 :=
  let blk (kind idx base : Nat) : List (Nat × W64) :=
    (List.range 8).map fun i => (base / 8 + i, (counterOf d kind idx i).snap)
  ([(0, BitVec.ofNat 64 d.counters.snapNo.toNat), (1, d.counters.snapK)]
    ++ ((List.range 16).flatMap fun s => blk 2 s (0x40 + 0x40 * s))
    ++ ((List.range 8).flatMap fun s => blk 3 s (0x440 + 0x40 * s))
    ++ blk 4 0 0x640 ++ blk 5 0 0x680 ++ blk 6 0 0x6C0).foldl (fun (m : NMap W64) (e : Nat × W64) => NMap.set m 0 e.1 e.2) []

/-- CTR_SNAPSHOT (R491): the captures, the histograms of contexts and stage queues, and the window. -/
def ctrSnapshot (d : Dev) (c : Cmd) : Dev × Cmd :=
  let no := nextSeq d.counters.snapNo
  let dt := Config.elapsed d.free
  let d := { d with free := d.free + 1, kclk := d.kclk + BitVec.ofNat 64 dt }
  let d := (presentBlocks d).foldl (snapBlock no) d
  let d := { d with
    counters := { d.counters with snapNo := no, snapK := d.kclk, ctxSnap := d.counters.ctxHist }
    polders := NMap.mapVals d.polders fun _ x => { x with queues := NMap.mapVals x.queues fun _ q => { q with hsnap := q.hist } } }
  ({ d with counters := { d.counters with window := snapWindow d } }, c.finish [no])

/-! ### The rows -/

def execDevInfo (m : MboxNo) (s : State) : Out := onDev s fun d => cmdRow d m.val (isCmd 0x0101) devInfo
def execNoticeRing (m : MboxNo) (s : State) : Out := onDev s fun d => cmdRow d m.val (isCmd 0x0102) (noticeRing m.val)
def execClusterClock (m : MboxNo) (s : State) : Out := onDev s fun d => cmdRow d m.val (isCmd 0x0103) clusterClock
def execLevConfig (m : MboxNo) (s : State) : Out :=
  onDev s fun d => cmdRow d m.val (fun c => c.cmd = 0x0110 && c.word 4 = 0) levConfig
def execLevConfigShares (m : MboxNo) (s : State) : Out :=
  onDev s fun d => cmdRow d m.val (fun c => c.cmd = 0x0110 && c.word 4 = 1) levConfigShares
def execPolderCreate (m : MboxNo) (s : State) : Out := onDev s fun d => cmdRow d m.val (isCmd 0x0201) polderCreate
def execPolderShares (m : MboxNo) (s : State) : Out := onDev s fun d => cmdRow d m.val (isCmd 0x0203) polderShares
def execStageQueue (m : MboxNo) (s : State) : Out := onDev s fun d => cmdRow d m.val (isCmd 0x0204) stageQueue
def execMbxAssign (m : MboxNo) (s : State) : Out := onDev s fun d => cmdRow d m.val (isCmd 0x0205) mbxAssign
def execFaultRead (m : MboxNo) (s : State) : Out := onDev s fun d => cmdRow d m.val (isCmd 0x0206) faultRead
def execProgLoad (m : MboxNo) (s : State) : Out := onDev s fun d => cmdRow d m.val (isCmd 0x0401) progLoad
def execThreadStart (m : MboxNo) (s : State) : Out := onDev s fun d => cmdRow d m.val (isCmd 0x0402) threadStart
def execThreadPark (m : MboxNo) (s : State) : Out :=
  onDev s fun d => cmdRow d m.val (fun c => c.cmd = 0x0403 && c.word 1 = 0) threadPark
def execThreadResume (m : MboxNo) (s : State) : Out :=
  onDev s fun d => cmdRow d m.val (fun c => c.cmd = 0x0403 && c.word 1 = 1) threadResume
def execThreadFree (m : MboxNo) (s : State) : Out :=
  onDev s fun d => cmdRow d m.val (fun c => c.cmd = 0x0403 && c.word 1 = 2) threadFree
def execDescIssue (m : MboxNo) (s : State) : Out := onDev s fun d => cmdRow d m.val (isCmd 0x0404) (descIssue m.val)
def execCollAbort (m : MboxNo) (s : State) : Out := onDev s fun d => cmdRow d m.val (isCmd 0x0501) collAbortCmd
def execOpenShards (m : MboxNo) (s : State) : Out := onDev s fun d => cmdRow d m.val (isCmd 0x0601) openShards
def execCtrSnapshot (m : MboxNo) (s : State) : Out := onDev s fun d => cmdRow d m.val (isCmd 0x0901) ctrSnapshot
def execCtrSelect (m : MboxNo) (s : State) : Out := onDev s fun d => cmdRow d m.val (isCmd 0x0902) ctrSelect

end Sys2Proof.Machine
end

