-- ==== Sys2Proof/Machine/Reset.lean ====
section
/-! DEFINITION. Resets (R455 to R465): their commands, fence, drain, absorb, reset phase and release, and the reset of the
whole device; unit faults, controllers that retrain, and reeve cores that fail (R475, R477). -/

namespace Sys2Proof.Machine

/-! ### The whole device (R437, R463 to R465) -/

/-- A bring-up starts at stage 0 (R435, R439): counted since power-on; it is preserving unless it is the first. -/
def startBringup (a : AlwaysOn) (d : Dev) : AlwaysOn × Dev :=
  let b : Boot := { d.boot with st := .boot, stage := 0, preserving := decide (a.boots ≠ 0), kstart := d.kclk }
  ({ a with boots := if a.boots = 0xFFFFFFFF then a.boots else a.boots + 1 }, { d with boot := b })

/-- Everything takes its Reset value but the always-on domain, the fuses, ALM_CAUSE and the contents of memory (R428,
R455): the codebook sets read +0 (R180), host memory is the host's, rows that a base die redirected stay redirected (R215). -/
def resetDev (a : AlwaysOn) (d : Dev) : Dev :=
  let m := zeroKeys d.mem fun k => cbBase ≤ k
  { free := d.free, kclk := d.kclk
    mem := { bytes := m.bytes, ecc := m.ecc, host := m.host, hostErr := m.hostErr, imap := a.imap
             repairs := m.repairs.filter fun r => !r.copying, rowsUsed := m.rowsUsed } }

/-- Registers of the always-on domain whose Reset column gives a value (R501). -/
def resetAon (a : AlwaysOn) : AlwaysOn :=
  { a with stat := 0, vin := 0, tmax := 0, gpOe := 0, gpOut := 0 }

/-- A reset of the whole device. While RST_N is low nothing starts; otherwise bring-up follows at once. -/
def deviceReset (a : AlwaysOn) (d : Dev) : AlwaysOn × KeyStore × Dev :=
  let a := resetAon a
  let d := resetDev a d
  if a.rstLow || !a.powered then (a, {}, d)
  else let r := startBringup a d; (r.1, {}, r.2)

/-! ### Domains -/

/-- The tiles on which a domain has state. -/
def domainTiles (d : Dev) (level target : Nat) : List Nat :=
  let ts := NMap.keys d.tiles
  if level = 2 then (match NMap.find? d.polders target with | some x => ts.filter x.inRect | none => [])
  else ts.filter (jobTile level target)

/-- Blocks whose drain the reset awaits: its tiles (R458). -/
def domainSize (d : Dev) (level target : Nat) : Nat :=
  if level = 0 then 1 else if level = 1 then 64
  else if level = 2 then (match NMap.find? d.polders target with | some x => (tilesHeld d x).length | none => 0)
  else d.boot.tiles

/-- An operation on a tile of the domain belongs to it: of a polder domain, the polder's. -/
def domainOp (d : Dev) (level target t : Nat) (q : QOp) : Bool :=
  level ≠ 2 || (match (slotOf d t q.slot).use with | .held p => p.toNat = target | _ => (dPolder q.desc).toNat = target)

/-- A thread of a tile of the domain belongs to it. -/
def domainThread (d : Dev) (level target th : Nat) : Bool :=
  level ≠ 2 || (match NMap.find? d.polders target with
    | some x => x.tbase ≤ th && th < x.tbase + x.tcount
    | none => false)

/-- Requests of the domain without an answer. -/
def domainReqs (d : Dev) (j : ResetJob) : List Req :=
  d.fabric.reqs.filter fun r => !r.abandoned &&
    (let t := r.tag.toNat / 32
     if j.level = 2 then (match (slotOf d t (r.tag.toNat % 32)).use with | .held p => p.toNat = j.target | _ => false)
     else jobTile j.level j.target t)

/-- Mailboxes of a polder or device domain, but for the reset's own. -/
def domainBoxes (d : Dev) (j : ResetJob) : List Nat :=
  (NMap.keys d.reeve.boxes).filter fun m => some m ≠ j.mbox &&
    (j.level = 3 || (j.level = 2 && (mboxOf d m).owner.any fun o => o.1.toNat = j.target))

/-! ### Fence (R458, R461) -/

/-- A running operation stops at its next unit: PARTIAL with its marker there. A Blocker transaction that is open writes no
tally, and its shard stays open. -/
def stopRun (d : Dev) (t : Nat) (e : EngineId) : Dev :=
  match runOf d t e with
  | none => d
  | some r =>
    if r.ended ≠ none then d
    else if !r.begun then partRun d t e 0x0B01 0
    else
      match e with
      | .fuller =>
        let n := (tileOf d t).banks.length
        partRun (onTile d t fun x => { x with banks := [] }) t .fuller 0x0B01 (r.work.step - n)
      | .steamer =>
        match polderOf d (runPolder d t r) with
        | none => partRun d t .steamer 0x0B01 0
        | some px =>
          let s := sEnv d t r px
          steamClose { d := d, enc := r.work.enc, st := r.work.steam } s .inPart 0x0B01 (sMarker s d r.work.steam)
      | .router =>
        let c := rCx d t r
        let q := rst d t
        let left := (List.range c.chunks.length).filter fun n => chunkCode c q n = 0 && (NMap.find? q.failed n).isNone
        collEnd (onRst d t fun q => { q with failed := left.foldl (fun m n => NMap.insert m n (3, 0x0B01)) q.failed }) t
      | .blocker =>
        if r.work.txn.phase ≠ 0 then
          onRun d t .blocker fun r => { r with ended := some ⟨.inPart, 0x0B01⟩, tallyOk := false }
        else partRun d t .blocker 0x0B01 r.marker
      | _ => partRun d t e 0x0B01 r.marker

/-- A queued operation ends before it starts. -/
def endQueued (d : Dev) (t : Nat) (q : QOp) : Dev :=
  let p := match (slotOf d t q.slot).use with | .held p => p | _ => dPolder q.desc
  let e : OpEnd := ⟨.notStarted, 0x0B01⟩
  let d := match tallyErr d p (dTally q.desc) with
    | some _ => d
    | none => (memWrite d (opAcc q p) (dTally q.desc) (tallyBytes (dSeq q.desc) e true 0 {})).1
  finishOp d t q e true

/-- The engines of the domain on a tile: running operations stop, queued ones end. Returns how many the reset ended. -/
def fenceEngines (d : Dev) (level target t : Nat) : Dev × Nat :=
  ([EngineId.fuller, .steamer, .napper, .carder, .blocker, .router]).foldl (fun s e =>
    let d := s.1
    let q := (engineOf d t e).queue
    let mine := q.filter (domainOp d level target t)
    let runs := (runOf d t e).any fun r => r.ended = none && domainOp d level target t r.q
    let d := if runs then stopRun d t e else d
    let d := onEngine d t e fun x => { x with queue := q.filter fun o => !mine.contains o }
    (mine.foldl (fun d o => endQueued d t o) d, s.2 + mine.length + b2n runs)) (d, 0)

/-- The threads of the domain on a tile become PARKED. -/
def fenceThreads (d : Dev) (level target t : Nat) : Dev :=
  let park (n : Nat) (h : Thread) : Thread :=
    if domainThread d level target n && (h.st = .ready || h.st = .waiting) then { h with st := .parked, was := h.st } else h
  onTile d t fun x => { x with threads := NMap.mapVals x.threads park }

/-- A mailbox command of the domain: one not taken up, or DEFERRED, ends not started; one between steps ends now, and one
in a step after that step. -/
def fenceBox (d : Dev) (m : Nat) : Dev :=
  let b := mboxOf d m
  match b.st, b.cmd with
  | .queued, _ =>
    let c := copyCmd b
    let c := { c with polder := (actsFor d m c).1, total := 0 }
    endCmd d m c ⟨.notStarted, 0x0B01⟩ [] (tallyAddrOk d c)
  | .deferred, some c => endCmd (dropEnable d m) m { c with total := 0 } ⟨.notStarted, 0x0B01⟩ [] true
  | .stepping, some c =>
    if c.running then onMbox d m fun b => { b with cmd := some { c with cut := true } }
    else endCmd (dropEnable d m) m c ⟨.inPart, 0x0B01⟩ [] true
  | _, _ => d

/-- A command of the domain that is still in its step ends when the drain does. -/
def cutBox (d : Dev) (m : Nat) : Dev :=
  match (mboxOf d m).cmd with
  | some c => if c.cut then endCmd d m c ⟨.inPart, 0x0B01⟩ [] true else d
  | none => d

def newJobId (d : Dev) : Nat := d.resets.foldl (fun n j => max n j.id) 0 + 1

/-- A reset starts: the fence, and the operations that it ends counted. -/
def startReset (d : Dev) (level target limit : Nat) (mbox : Option Nat) (hold : Bool) : Dev :=
  let j : ResetJob := { id := newJobId d, level := level, target := target, limit := limit, phase := .drain, mbox := mbox, hold := hold }
  let d := { d with resets := d.resets ++ [j] }
  let ts := domainTiles d level target
  let d := ts.foldl (fun d t => fenceThreads d level target t) d
  let r := ts.foldl (fun (s : Dev × Nat) t => let r := fenceEngines s.1 level target t; (r.1, s.2 + r.2)) (d, 0)
  let d := (domainBoxes r.1 j).foldl fenceBox r.1
  { d with resets := d.resets.map fun x => if x.id = j.id then { x with ended := r.2 } else x }

def jobOf (d : Dev) (id : Nat) : Option ResetJob := d.resets.find? fun j => j.id = id
def onJob (d : Dev) (id : Nat) (f : ResetJob → ResetJob) : Dev :=
  { d with resets := d.resets.map fun j => if j.id = id then f j else j }

/-! ### The commands (R456, R457) -/

def resetLevel (c : Cmd) : Nat := bits (c.word 0) 1 0
def resetTarget (c : Cmd) : Nat := bits (c.word 0) 31 16
def resetLimit (c : Cmd) : Nat := bits (c.word 1) 9 0
/-- RESET of a level, or a row's own code where the level is not asked for. -/
def isReset (l : Nat) (c : Cmd) : Bool := c.cmd = 0x0B01 && resetLevel c = l

/-- The target exists (R456). -/
def targetOk (d : Dev) (level target : Nat) : Bool :=
  if level = 0 then tileUp d target
  else if level = 1 then target < 32 && clusterUp d target
  else if level = 2 then target < 16 && (NMap.find? d.polders target).isSome
  else target = 0

/-- Lower resets end inside a reset of the device: each mailbox ends FAILED with the blocks drained as its marker (R457). -/
def endLower (d : Dev) : Dev :=
  let d := d.resets.foldl (fun d j => match j.mbox.bind fun m => (mboxOf d m).cmd.map fun c => (m, c) with
    | some (m, c) => endCmd d m { c with done := j.drained } ⟨.inPart, 0x0B01⟩ [] true
    | none => d) d
  { d with resets := [] }

/-- The step of a RESET: the checks and the fence, then a look at whether the domain is released. -/
def resetStep (m : Nat) (d : Dev) (c : Cmd) : Dev × Cmd :=
  let l := resetLevel c
  let t := resetTarget c
  if c.step = 0 then
    let own := m = 64 || (mboxOf d m).owner.any fun o => o.1.toNat = t
    match firstFail [(own, 0x0103), (targetOk d l t && resetLimit c ≤ 1000, 0x0B02)] with
    | some e => (d, c.refuse e)
    | none =>
      let d := if l = 3 then endLower d else d
      let lim := if resetLimit c = 0 then 10 else resetLimit c
      (startReset d l t lim (some m) false, { c.more with total := domainSize d l t })
  else
    match c.nums with
    | [ab, en] => (d, c.finish [w32 ab, w32 en])
    | _ =>
      let j := d.resets.find? fun j => j.mbox = some m
      (d, { c.more with done := (j.map ResetJob.drained).getD 0 })

/-! ### Drain, reset phase, release -/

/-- Operations of the domain that have stopped end, their requests being answered or abandoned. -/
def endStopped (d : Dev) (j : ResetJob) : Dev :=
  (domainTiles d j.level j.target).foldl (fun d t =>
    ([EngineId.fuller, .steamer, .napper, .carder, .blocker, .router]).foldl (fun d e =>
      if (runOf d t e).any fun r => domainOp d j.level j.target t r.q then operationEnd d t e else d) d) d

/-- A tile at its Reset values: its slots keep generations and records, and a slot of an abandoned request stays quarantined
(R74, R459); slots that the reset frees join the tail of the free list (R73); a DESC_ISSUE that waits goes on waiting; the
cycle count runs on. -/
def tileReset (x : Tile) : Tile :=
  let slots : NMap Slot := NMap.mapVals x.slots fun _ s => { s with use := if s.use = .quarantined then .quarantined else .free }
  { slots := slots, cyc := x.cyc
    freeSlots := x.freeSlots ++ (List.range 32).filter fun i => (NMap.get slots {} i).use ≠ .quarantined && !x.freeSlots.contains i
    issueQ := x.issueQ.filter fun w => w.thread = none }

/-- The codebook sets of a tile read +0 (R180). -/
def zeroSets (d : Dev) (t lo n : Nat) : Dev := onMem d fun m => zeroKeys m fun k => cbKey t lo 0 ≤ k && k < cbKey t (lo + n) 0

/-- A polder's state on a tile at its Reset values. -/
def polderTileReset (d : Dev) (x : Polder) (t : Nat) : Dev :=
  let mine (n : Nat) : Bool := x.tbase ≤ n && n < x.tbase + x.tcount
  let d := onTile d t fun y => { y with
    threads := NMap.dropKeys y.threads mine
    issueQ := y.issueQ.filter fun w => !(w.thread.any mine)
    summ := NMap.clear y.summ x.ybase (x.ybase + x.ycount)
    scale := NMap.clear y.scale x.kbase (x.kbase + x.kcount) }
  zeroSets d t x.cbbase x.cbcount

/-- Streams of a polder, and what waits for them, are returned; opens and counts are answered without action (R460). -/
def polderStreams (d : Dev) (p : PolderNo) (job : BitVec 16) : Dev :=
  let waiting := (d.coll.opens ++ d.coll.asks).filter fun k => hJob k.hdr = job
  let d := onColl d fun b => { b with
    streams := b.streams.filter fun s => s.polder ≠ p
    opens := b.opens.filter fun k => hJob k.hdr ≠ job
    asks := b.asks.filter fun k => hJob k.hdr ≠ job
    openOk := b.openOk.filter fun e => e.1 ≠ job
    aborted := b.aborted.filter fun e => e.1 ≠ job }
  waiting.foldl (fun d k => sendAnswer d k.hdr 6 0x0B01 []) d

/-- A pending enable runs from OFF (R467): its command goes back to the ready list. -/
def runDeferred (d : Dev) (key : Nat) : Dev :=
  let ms := (d.blocks.deferred.filter fun e => e.2 = key).map Prod.fst
  let d := { d with blocks := { d.blocks with deferred := d.blocks.deferred.filter fun e => e.2 ≠ key } }
  ms.foldl (fun d m => onReeve (onMbox d m fun b => { b with
      st := .stepping, cmd := b.cmd.map fun c => { c with step := 0, nums := [], work := none, running := false } })
    fun r => { r with ready := r.ready ++ [m] }) d

/-- The reset phase of a tile, cluster or polder domain; a cluster in STOPPING completes its stop (R467). -/
def resetPhase (d : Dev) (j : ResetJob) : Dev :=
  let ts := domainTiles d j.level j.target
  let d :=
    if j.level = 2 then
      match NMap.find? d.polders j.target with
      | some x => polderStreams (ts.foldl (fun d t => polderTileReset d x t) d) (BitVec.ofNat 4 j.target) x.job
      | none => d
    else ts.foldl (fun d t => zeroSets (onTile d t tileReset) t 0 32) d
  let d := if j.level = 1 ∧ blkSt d 5 j.target = .stopping then setBlk d 5 j.target .off else d
  onJob d j.id fun j => { j with phase := .reset }

/-- A node break told to every device of the three rings, or its clearing (R463). -/
def tellNode (d : Dev) (clear : Bool) : Dev :=
  [0, 1, 2].foldl (fun d k => (ringMembers d k).foldl (fun d m => sendMgmt d m 1 (breakBody k clear true (selfId d) 0)) d) d

/-- The drain has ended: operations end, and the reset phase follows, or for the device the node breaks. -/
def drained (d : Dev) (j : ResetJob) : Dev :=
  let d := endStopped ((domainBoxes d j).foldl cutBox d) j
  let n := domainSize d j.level j.target
  let d := onJob d j.id fun j => { j with drained := n }
  if j.level = 3 then tellNode (onJob d j.id fun j => { j with phase := .breaks }) false
  else resetPhase d j

/-- RESET_DRAIN_END: every request of the domain is answered, and no command of it is in a step. -/
def drainEnd (d : Dev) (id : Nat) : Dev :=
  match jobOf d id with
  | none => d
  | some j =>
    if j.phase ≠ .drain ∨ domainReqs d j ≠ [] ∨ (domainBoxes d j).any (fun m => (mboxOf d m).cmd.any Cmd.cut) then d else drained d j

/-- DRAIN_LIMIT_EXPIRY: the requests left are abandoned (R459). -/
def drainLimit (d : Dev) (id : Nat) : Dev :=
  match jobOf d id with
  | none => d
  | some j =>
    if j.phase ≠ .drain then d
    else
      let left := domainReqs d j
      let d := onFabric d fun b => { b with reqs := b.reqs.map fun r => if left.contains r then { r with abandoned := true } else r }
      let d := onJob d id fun j => { j with abandoned := left.length }
      match jobOf d id with
      | some j => drained d j
      | none => d

/-- RESET_RELEASE: absorption ends; a tile that failed is held OFF (R475); the command learns the counts. -/
def release (d : Dev) (id : Nat) : Dev :=
  match jobOf d id with
  | none => d
  | some j =>
    if j.phase ≠ .reset then d
    else
      let d := { d with resets := d.resets.filter fun x => x.id ≠ id }
      let d := if j.hold ∧ j.level = 0 then { d with grid := { d.grid with absent := d.grid.absent ++ [j.target] } } else d
      let d := if j.level = 1 ∧ blkSt d 5 j.target = .off then runDeferred d (1280 + j.target) else d
      match j.mbox with
      | none => d
      | some m => onMbox d m fun b => { b with cmd := b.cmd.map fun c => { c with nums := [j.abandoned, j.ended] } }

/-- Transit packets that the router holds: they wait at a port, or are sent and not acknowledged. -/
def transitHeld (d : Dev) : Bool := (d.fabric.ports : List (Nat × Port)).any fun e =>
  e.2.queue.any (fun q => q.src.isSome) || e.2.hand ≠ [] || e.2.replay ≠ []

/-- NODE_BREAK_ANSWERED: every member has answered. The router stops granting credits, and once it has forwarded every transit
packet the ports go OFF, the RESET's tally is written and the device resets (R463). -/
def nodeBroken (a : AlwaysOn) (ks : KeyStore) (d : Dev) : AlwaysOn × KeyStore × Dev :=
  match d.resets.find? fun j => j.level = 3 && j.phase = .breaks with
  | none => (a, ks, d)
  | some j =>
    if d.reeve.mgmtOut ≠ [] then (a, ks, d)
    else if transitHeld d then (a, ks, onFabric d fun b => { b with stopped := true })
    else
      let d := match j.mbox.bind fun m => (mboxOf d m).cmd with
        | some c => (cmdTally d c ⟨.done, 0⟩ true j.drained).1
        | none => d
      let r := deviceReset a d
      (r.1, r.2.1, { r.2.2 with boot := { r.2.2.boot with nodeBreak := true } })

/-! ### Unit faults (R475) and reeve cores (R477) -/

/-- The physical tile of a logical one, as cluster × 68 + column × 17 + physical row (R442). -/
def physTile (d : Dev) (t : Nat) : Nat :=
  let c := clusterOf t
  let frow := fld (d.boot.spares.getD (c * 4 + colOf t % 4) 0x1F) 4 0
  let r := rowOf t % 16
  c * 68 + colOf t % 4 * 17 + (if r < frow then r else r + 1)

/-- A notice of kind 7. -/
def spareNotice (d : Dev) (ukind unit left : Nat) (spared : Bool) : Dev :=
  notice d 7 none 0 (ukind <<< 96 + unit <<< 112 + left <<< 128 + (b2n spared) <<< 136)

/-- A memory controller that faults retrains; a second fault within 60 s of K-clk holds its stack or group OFF. -/
def controllerFault (d : Dev) (key kind idx : Nat) : Dev :=
  let dt := Config.elapsed d.free
  let d := { d with free := d.free + 1, kclk := d.kclk + BitVec.ofNat 64 dt }
  let now := d.kclk.toNat
  let again := (NMap.find? d.mem.lastFault key).any fun k => now - k < 6000000000
  let d := onMem d fun m => { m with
    lastFault := NMap.insert m.lastFault key now
    retrain := if again then m.retrain.filter (· ≠ key) else key :: m.retrain.filter (· ≠ key) }
  if again then setBlk d kind idx .off else d

/-- A physical tile stays bad in service until the next whole-device reset marks it bad; a spare then takes its place (R475). -/
def failTile (a : AlwaysOn) (ph : Nat) : AlwaysOn :=
  { a with badService := if a.badService.contains ph then a.badService else a.badService ++ [ph] }

/-- A unit fault (R475). A router's fault holds every polder at its next descriptor boundary; stage 13 of the next bring-up then
takes a failed tile router's tile out of the mesh. -/
def unitFault (a : AlwaysOn) (d : Dev) (u : UnitId) : AlwaysOn × Dev :=
  match u with
  | .tile t =>
    let t := t.toNat
    if !tileUp d t then (a, d)
    else
      (failTile a (physTile d t), startReset (spareNotice d 1 t (128 - spareTiles d) false) 0 t 10 none true)
  | .clock c =>
    if !clusterUp d c.toNat then (a, d) else (a, startReset (spareNotice d 2 c.toNat 0 false) 1 c.toNat 10 none false)
  | .tileRouter t =>
    (failTile a (physTile d t.toNat), spareNotice { d with grid := { d.grid with routerFault := true } } 3 t.toNat 0 false)
  | .leveeRouter => (a, spareNotice { d with grid := { d.grid with routerFault := true } } 4 0 0 false)
  | .hbm s => if !stackUp d s.toNat then (a, d) else (a, controllerFault (spareNotice d 5 s.toNat 0 false) s.toNat 4 s.toNat)
  | .ddr c =>
    if !(ddrChans d).contains c.toNat then (a, d)
    else (a, controllerFault (spareNotice d 6 c.toNat 0 false) (16 + c.toNat) 3 (c.toNat / 4))

/-- MC_RETRAIN_END: the controller serves its accesses again. -/
def retrained (d : Dev) (u : UnitId) : Dev :=
  match u with
  | .hbm s => onMem d fun m => { m with retrain := m.retrain.filter (· ≠ s.toNat) }
  | .ddr c => onMem d fun m => { m with retrain := m.retrain.filter (· ≠ 16 + c.toNat) }
  | _ => d

/-- A core misses two heartbeats and is retired; the spare takes over when it is free; without any core the device resets,
and since its cores stay bad until power-on stage 1 then ends with 0x0A01 in its record (R435, R476). -/
def coreMiss (a : AlwaysOn) (ks : KeyStore) (d : Dev) (core : Nat) : AlwaysOn × KeyStore × Dev :=
  if !d.reeve.coresIn.contains core then (a, ks, d)
  else
    let rest := d.reeve.coresIn.filter (· ≠ core)
    let a := { a with badCores := if a.badCores.contains core then a.badCores else a.badCores ++ [core] }
    let d := onReeve d fun r => { r with coresIn := rest, coresBad := r.coresBad ++ [core] }
    if core ≠ 4 ∧ !rest.contains 4 ∧ !d.reeve.coresBad.contains 4 then
      (a, ks, spareNotice (onReeve d fun r => { r with coresIn := rest ++ [4] }) 8 core 0 true)
    else if rest = [] then deviceReset a d
    else (a, ks, spareNotice d 8 core 0 false)

def execResetTile (m : MboxNo) (s : State) : Out := onDev s fun d => cmdRow d m.val (isReset 0) (resetStep m.val)
def execResetCluster (m : MboxNo) (s : State) : Out := onDev s fun d => cmdRow d m.val (isReset 1) (resetStep m.val)
def execResetPolder (m : MboxNo) (s : State) : Out := onDev s fun d => cmdRow d m.val (isReset 2) (resetStep m.val)
def execResetDevice (m : MboxNo) (s : State) : Out := onDev s fun d => cmdRow d m.val (isReset 3) (resetStep m.val)
def execNodeBreakAnswered (s : State) : Out := onAll s nodeBroken
def execResetDrainEnd (id : Nat) (s : State) : Out := onDev s fun d => drainEnd d id
def execDrainLimitExpiry (id : Nat) (s : State) : Out := onDev s fun d => drainLimit d id
def execResetRelease (id : Nat) (s : State) : Out := onDev s fun d => release d id
def execUnitFault (u : UnitId) (s : State) : Out := onAon s fun a d => unitFault a d u
def execMcRetrainEnd (u : UnitId) (s : State) : Out := onDev s fun d => retrained d u
def execReeveHeartbeatMiss (core : Fin 5) (s : State) : Out := onAll s fun a ks d => coreMiss a ks d core.val

end Sys2Proof.Machine
end

