-- ==== Sys2Proof/Machine/Blocks.lean ====
section
/-! DEFINITION. Blocks that BLOCK_CTL starts and stops (R466, R467), the spare record (R478), and POLDER_DESTROY (R320). -/

namespace Sys2Proof.Machine

/-! ### BLOCK_CTL -/

def ctlKind (c : Cmd) : Nat := bits (c.word 0) 7 0
def ctlIdx (c : Cmd) : Nat := bits (c.word 0) 15 8
def blkKey (kind idx : Nat) : Nat := kind * 256 + idx
def isCtl (en : Nat) (c : Cmd) : Bool := c.cmd = 0x0B02 && bits (c.word 1) 0 0 = en

/-- The block exists (R466). -/
def ctlOk (kind idx : Nat) : Bool :=
  (kind = 1 && idx < 16) || (kind = 2 && idx < 2) || (kind = 3 && idx < 2) || (kind = 4 && idx < 16) || (kind = 5 && idx < 32)

/-- The grant that a block needs is held (R448). -/
def ctlGranted (d : Dev) (kind idx : Nat) : Bool :=
  if kind = 2 then granted d 3
  else if kind = 3 then granted d 2
  else if kind = 5 ∧ 12 ≤ idx % 16 then granted d 1
  else true

/-- The block is in use, so that its disable is refused (R466). A window that POLDER_DESTROY still clears counts as its
polder's: what is not cleared could be read later (R320). -/
def ctlBusy (d : Dev) (kind idx : Nat) : Bool :=
  let ps : List (Nat × Polder) := d.polders
  match kind with
  | 1 =>
    let dir := (portOf d idx).dir
    dir.toNat < 6 && portSt d idx = .on && (List.range 16).all fun n => n = idx || !((portOf d n).dir = dir && portSt d n = .on)
  | 3 => (ps.any fun e => e.2.dlo < e.2.dhi || e.2.buddyEn) || d.reeve.clearing.any fun r => ddrBase ≤ r.1
  | 4 =>
    let mine (a n : Nat) : Bool := meets a n (hbmBase + idx * 2 ^ 36) (2 ^ 36)
    decide (d.mem.imap ≠ 0) || (ps.any fun e => mine e.2.hlo (e.2.hhi - e.2.hlo)) || d.reeve.clearing.any fun r => mine r.1 (r.2 - r.1)
  | 5 => ps.any fun e => (tilesHeld d e.2).any fun t => clusterOf t = idx
  | _ => false

/-- Every path of a tidal port goes DOWN (R361, R466). -/
def pathsDown (d : Dev) (port : Nat) : Dev :=
  let down (p : TPath) : TPath := if fld p.desc 11 11 = port ∧ p.st ≠ .undeclared then { p with st := .down } else p
  { d with tidal := { d.tidal with paths := NMap.mapVals d.tidal.paths fun _ p => down p } }

/-- The commands that wait for a block's start learn how it ended: whether it is ON. -/
def tellWaiters (d : Dev) (key : Nat) (ok : Bool) : Dev :=
  let ms := (d.blocks.waitStart.filter fun e => e.2 = key).map Prod.fst
  let d := { d with blocks := { d.blocks with waitStart := d.blocks.waitStart.filter fun e => e.2 ≠ key } }
  ms.foldl (fun d m => onMbox d m fun b => { b with cmd := b.cmd.map fun c => { c with nums := [b2n ok] } }) d

def waitFor (d : Dev) (m key : Nat) : Dev := { d with blocks := { d.blocks with waitStart := d.blocks.waitStart ++ [(m, key)] } }

/-- BLOCK_CTL enable. -/
def blockEnable (m : Nat) (d : Dev) (c : Cmd) : Dev × Cmd :=
  let k := ctlKind c
  let i := ctlIdx c
  let key := blkKey k i
  if c.step ≠ 0 then
    (match c.nums with
      | [1] => (d, c.finish [2])
      | [_] => (d, c.fail 0x0B06 [w32 (blkSt d k i).code])
      | _ => (d, c.more))
  else
    match firstFail [(ctlOk k i, 0x0B03), (ctlGranted d k i, 0x0B07)] with
    | some e => (d, c.refuse e)
    | none =>
      match blkSt d k i with
      | .on => (d, c.finish [2])
      | .off => (waitFor (setBlk d k i .starting) m key, c.more)
      | .starting => (waitFor d m key, c.more)
      | .stopping =>
        if d.blocks.deferred.any fun e => e.2 = key then (d, c.refuse 0x0B05)
        else ({ d with blocks := { d.blocks with deferred := d.blocks.deferred ++ [(m, key)] } }, { c with work := some .defer })

/-- A pending enable is cancelled (R467). -/
def cancelDeferred (d : Dev) (key : Nat) : Dev :=
  let ms := (d.blocks.deferred.filter fun e => e.2 = key).map Prod.fst
  ms.foldl (fun d m => mbxCancel d m 0) d

/-- BLOCK_CTL disable. -/
def blockDisable (d : Dev) (c : Cmd) : Dev × Cmd :=
  let k := ctlKind c
  let i := ctlIdx c
  let key := blkKey k i
  if !ctlOk k i then (d, c.refuse 0x0B03)
  else
    match blkSt d k i with
    | .off => (d, c.finish [0])
    | .stopping => (cancelDeferred d key, c.finish [3])
    | st =>
      if ctlBusy d k i then (d, c.refuse 0x0B04)
      else
        let d := if st = .starting then tellWaiters d key false else d
        let d := if k = 2 then pathsDown d i else d
        (setBlk d k i .stopping, c.finish [3])

/-- Zero written to the scratchpads, codebook stores and program stores of a cluster's tiles, whose state begins at its
Reset values (R508). -/
def freshCluster (d : Dev) (i : Nat) : Dev :=
  let mine (k : Nat) : Bool :=
    (k < 0x80000000 && clusterOf (k / 2 ^ 20) = i) || (progBase ≤ k && k < cbBase && clusterOf ((k - progBase) / 2 ^ 17) = i)
      || (cbBase ≤ k && clusterOf ((k - cbBase) / 2 ^ 16) = i)
  let d := onMem d fun m => zeroKeys m mine
  { d with tiles := NMap.dropKeys d.tiles fun t => clusterOf t = i }

def blockOfId : BlockId → Nat × Nat
  | .leveePort n => (1, n.toNat)
  | .tidalPort n => (2, n.toNat)
  | .ddrGroup n => (3, n.toNat)
  | .hbmStack n => (4, n.toNat)
  | .cluster n => (5, n.toNat)

/-- A STARTING block reaches ON, or returns to OFF. -/
def blockStarted (d : Dev) (b : BlockId) (ok : Bool) (f : PortTrain) : Dev :=
  let (k, i) := blockOfId b
  if blkSt d k i ≠ .starting then d
  else
    let key := blkKey k i
    let fails := tellWaiters (setBlk d k i .off) key false
    if !ok then fails
    else if k = 1 ∧ (portOf d i).dir ≠ 7 then
      match portTrained d i f with
      | (e, true) => tellWaiters (portBack e i) key true
      | (e, false) => tellWaiters (portHeld (setBlk e k i .off) i f) key false
    else
      let d := if k = 5 then freshCluster d i else d
      tellWaiters (setBlk d k i .on) key true

/-- A STOPPING block reaches OFF; a levee port's packets go to the other port of its direction as in a takeover; a port that
becomes or ceases to be an Ixrad link starts again (R453); a pending enable then runs. -/
def blockStopped (d : Dev) (b : BlockId) : Dev :=
  let (k, i) := blockOfId b
  if blkSt d k i ≠ .stopping then d
  else
    let d :=
      if k = 1 ∧ (portOf d i).dir.toNat < 6 then onPort (portFail d i) i fun p => { p with failed := false }
      else
        let d := setBlk d k i .off
        if k = 1 ∧ (portOf d i).dir ≠ 7 then onPort d i fun p => { p with dir := 15 } else d
    let relink := k = 1 ∧ i = 15 ∧ (portOf d i).dir = 7
    if relink then setBlk d 1 15 .starting else runDeferred d (blkKey k i)

/-! ### SPARE_STATUS (R478) -/

/-- Coordinates absent: those of failed tiles, and the 512 of R31. -/
def absentCount (d : Dev) : Nat := d.grid.absent.length + (if granted d 1 || d.boot.tiles = 0 then 0 else 512)

def spareRecord (a : AlwaysOn) (d : Dev) : Nat :=
  let ports (f : Port → Bool) : Nat := (List.range 4).foldl (fun n i => n + (b2n (f (portOf d (12 + i)))) <<< i) 0
  let lane8 := (List.range 16).foldl (fun n i => n + (b2n (decide ((portOf d i).sublane ≠ 15 ∧ (portOf d i).width ≠ 0))) <<< i) 0
  let used := d.mem.rowsUsed.foldl (fun n (e : Nat × Nat) => n + e.2) 0
  let out := (d.mem.rowsUsed.filter fun (e : Nat × Nat) => 4 ≤ e.2).length
  spareTiles d % 256 + (min 255 a.badService.length) <<< 8 + (min 255 (absentCount d)) <<< 16 + lane8 <<< 32
    + (ports fun p => p.dir = 6) <<< 48 + (ports fun p => p.took ≠ none) <<< 52
    + (d.cipher.serv.filter fun x => x.any (16 ≤ ·)).length <<< 56 + (b2n (d.reeve.coresIn.contains 4)) <<< 58
    + (used % 2 ^ 32) <<< 64 + (out % 65536) <<< 96 + (absentCount d % 4096) <<< 112

def spareStatus (a : AlwaysOn) (d : Dev) (c : Cmd) : AlwaysOn × Dev × Cmd :=
  let r := spareRecord a d
  if !cmdAddrOk d (mboxPolderOf c) (c.word2 0) 32 1 then (a, d, c.refuse 0x0106)
  else
    match cmdWrite d (mboxPolderOf c) (c.word2 0) (toBytes 32 r) with
    | (d, some e) => (a, d, c.fail e)
    | (d, none) => (a, d, c.finish [w32 (r % 2 ^ 32)])
where
  /-- the polder whose windows an address may name -/
  mboxPolderOf (c : Cmd) : Option PolderNo := c.polder

/-! ### POLDER_DESTROY (R320) -/

/-- The scratchpad shares, registers and codebook sets of a polder read zero. -/
def clearShares (d : Dev) (x : Polder) : Dev :=
  let d := (domainTilesOf x d).foldl (fun d t => polderTileReset d x t) d
  onMem d fun m => zeroKeys m fun k => k < 0x80000000 && x.inRect (k / 2 ^ 20)
    && k / 2 ^ 20 * 2 ^ 20 + x.sbase ≤ k && k < k / 2 ^ 20 * 2 ^ 20 + x.sbase + x.slen
where
  domainTilesOf (x : Polder) (d : Dev) : List Nat := (NMap.keys d.tiles).filter x.inRect

/-- The polder's allotments are free: its record, its mailboxes, claims, counters and queues. -/
def freePolder (d : Dev) (p : Nat) (own : Nat) : Dev :=
  let mine (b : Mbox) : Bool := b.owner.any fun o => o.1.toNat = p
  let d := onReeve d fun r => { r with
    ready := r.ready.filter fun m => m = own || !mine (NMap.get r.boxes {} m)
    boxes := NMap.mapVals r.boxes fun m b => if m ≠ own && mine b then {} else b }
  { d with
    polders := NMap.erase d.polders p
    claims := d.claims.filter fun c => !(c.by_ = 3 && c.polder.toNat = p)
    meters := d.meters.map fun e => (e.1, { e.2 with budget := NMap.clear e.2.budget (p * 8) (p * 8 + 8) })
    counters := { d.counters with blocks := NMap.mapVals d.counters.blocks fun _ b => { b with
      ctr := NMap.mapVals b.ctr fun _ c => if c.held && c.polder.toNat = p then { snap := c.snap } else c } } }

/-- Keys of the GiB at a local address that are present. -/
def zeroGib (d : Dev) (a : Nat) : Dev :=
  let live := fun (d : Dev) (k : Nat) => (localOf d k).any fun x => a ≤ x && x < a + gib
  onMem d fun m => zeroKeys m (live d)
where
  /-- the local address of a memory key in HBM or DDR5 -/
  localOf (d : Dev) (k : Nat) : Option Nat :=
    if hbmBase ≤ k ∧ k < ddrBase then some (hbmAddr d.mem.imap k)
    else if ddrBase ≤ k ∧ k < progBase then
      let ch := (k - ddrBase) / 2 ^ 40
      let off := (k - ddrBase) % 2 ^ 40
      let cs := ddrChans d
      (cs.findIdx? (· = ch)).map fun i => ddrBase + (off / 4096 * cs.length + i) * 4096 + off % 4096
    else none

/-- The GiB of the two windows, in order: each with the range it clears. -/
def windowGib (x : Polder) : List Nat :=
  (List.range ((x.hhi - x.hlo) / gib)).map (fun i => x.hlo + i * gib) ++ (List.range ((x.dhi - x.dlo) / gib)).map fun i => x.dlo + i * gib

/-- POLDER_DESTROY: the polder reset, the allotments freed, and a GiB cleared in each mailbox step. The reset's end leaves two
numbers in nums; a longer list holds the GiB still to clear from its third place on. -/
def polderDestroy (m : Nat) (d : Dev) (c : Cmd) : Dev × Cmd :=
  let p := c.word 0
  if c.step = 0 then
    if (NMap.find? d.polders p).isNone then (d, c.refuse 0x0207)
    else if d.resets.any fun j => domainsMeet d 2 p j.level j.target then (d, { c with work := some .more })
    else (startReset d 2 p 10 (some m) false, c.more)
  else
    match c.nums, NMap.find? d.polders p with
    | [_, _], some x =>
      let gs := windowGib x
      let d := freePolder (clearShares d x) p m
      let d := onReeve d fun r => { r with clearing := (gs.map fun a => (a, a + gib)) ++ r.clearing }
      let c := { c with nums := 0 :: 0 :: gs, total := gs.length }
      if gs = [] then (d, c.finish) else (d, c.more)
    | [_, _], none => (d, c.more)
    | _ :: _ :: a :: gs, _ =>
      let d := zeroGib d a
      let d := onReeve d fun r => { r with clearing := r.clearing.erase (a, a + gib) }
      let c := { c with nums := 0 :: 0 :: gs, done := c.done + 1 }
      if gs = [] then (d, c.finish) else (d, c.more)
    | _, _ => (d, c.more)

def execBlockEnable (m : MboxNo) (s : State) : Out := onDev s fun d => cmdRow d m.val (isCtl 1) (blockEnable m.val)
def execBlockDisable (m : MboxNo) (s : State) : Out := onDev s fun d => cmdRow d m.val (isCtl 0) blockDisable
def execBlockStartEnd (b : BlockId) (ok : Bool) (found : PortTrain) (s : State) : Out := onDev s fun d => blockStarted d b ok found
def execBlockStopEnd (b : BlockId) (s : State) : Out := onDev s fun d => blockStopped d b
def execSpareStatus (m : MboxNo) (s : State) : Out := onAon s fun a d => cmdRowA a d m.val (isCmd 0x0B03) spareStatus
def execPolderDestroy (m : MboxNo) (s : State) : Out := onDev s fun d => cmdRow d m.val (isCmd 0x0202) (polderDestroy m.val)

end Sys2Proof.Machine
end

