-- ==== Sys2Proof/Machine/Crypto.lean ====
section
/-! DEFINITION. The cryptographic functions that the spec names by their standards: SHA-512 (FIPS 180-4), HMAC and HKDF
(RFC 2104, RFC 5869), AES-256 (FIPS 197), GCM (SP 800-38D), key wrap (RFC 3394, RFC 5649), X25519 (RFC 7748) and Ed25519
(RFC 8032). PRESUMED: the standards' own texts are outside the spec. -/

namespace Sys2Proof.Machine

/-! ### SHA-512 -/

def sha512K : List W64 :=
  [0x428A2F98D728AE22, 0x7137449123EF65CD, 0xB5C0FBCFEC4D3B2F, 0xE9B5DBA58189DBBC, 0x3956C25BF348B538, 0x59F111F1B605D019,
   0x923F82A4AF194F9B, 0xAB1C5ED5DA6D8118, 0xD807AA98A3030242, 0x12835B0145706FBE, 0x243185BE4EE4B28C, 0x550C7DC3D5FFB4E2,
   0x72BE5D74F27B896F, 0x80DEB1FE3B1696B1, 0x9BDC06A725C71235, 0xC19BF174CF692694] ++
  [0xE49B69C19EF14AD2, 0xEFBE4786384F25E3, 0x0FC19DC68B8CD5B5, 0x240CA1CC77AC9C65, 0x2DE92C6F592B0275, 0x4A7484AA6EA6E483,
   0x5CB0A9DCBD41FBD4, 0x76F988DA831153B5, 0x983E5152EE66DFAB, 0xA831C66D2DB43210, 0xB00327C898FB213F, 0xBF597FC7BEEF0EE4,
   0xC6E00BF33DA88FC2, 0xD5A79147930AA725, 0x06CA6351E003826F, 0x142929670A0E6E70] ++
  [0x27B70A8546D22FFC, 0x2E1B21385C26C926, 0x4D2C6DFC5AC42AED, 0x53380D139D95B3DF, 0x650A73548BAF63DE, 0x766A0ABB3C77B2A8,
   0x81C2C92E47EDAEE6, 0x92722C851482353B, 0xA2BFE8A14CF10364, 0xA81A664BBC423001, 0xC24B8B70D0F89791, 0xC76C51A30654BE30,
   0xD192E819D6EF5218, 0xD69906245565A910, 0xF40E35855771202A, 0x106AA07032BBD1B8] ++
  [0x19A4C116B8D2D0C8, 0x1E376C085141AB53, 0x2748774CDF8EEB99, 0x34B0BCB5E19B48A8, 0x391C0CB3C5C95A63, 0x4ED8AA4AE3418ACB,
   0x5B9CCA4F7763E373, 0x682E6FF3D6B2B8A3, 0x748F82EE5DEFB2FC, 0x78A5636F43172F60, 0x84C87814A1F0AB72, 0x8CC702081A6439EC,
   0x90BEFFFA23631E28, 0xA4506CEBDE82BDE9, 0xBEF9A3F7B2C67915, 0xC67178F2E372532B] ++
  [0xCA273ECEEA26619C, 0xD186B8C721C0C207, 0xEADA7DD6CDE0EB1E, 0xF57D4F7FEE6ED178, 0x06F067AA72176FBA, 0x0A637DC5A2C898A6,
   0x113F9804BEF90DAE, 0x1B710B35131C471B, 0x28DB77F523047D84, 0x32CAAB7B40C72493, 0x3C9EBE0A15C9BEBC, 0x431D67C49C100D4C,
   0x4CC5D4BECB3E42B6, 0x597F299CFC657E2A, 0x5FCB6FAB3AD6FAEC, 0x6C44198C4A475817]

def sha512H : List W64 :=
  [0x6A09E667F3BCC908, 0xBB67AE8584CAA73B, 0x3C6EF372FE94F82B, 0xA54FF53A5F1D36F1, 0x510E527FADE682D1, 0x9B05688C2B3E6C1F,
   0x1F83D9ABFB41BD6B, 0x5BE0CD19137E2179]

/-- Big-endian 64-bit words of a byte sequence. -/
def words64BE : Nat → List Byte → List W64
  | 0, _ => []
  | n + 1, l => BitVec.ofNat 64 (ofBytesBE (l.take 8)) :: words64BE n (l.drop 8)

/-- The message schedule, newest word first. -/
def shaSched : Nat → List W64 → List W64
  | 0, ws => ws
  | n + 1, ws =>
    let a := ws.getD 1 0
    let b := ws.getD 14 0
    let s1 := a.rotateRight 19 ^^^ a.rotateRight 61 ^^^ (a >>> 6)
    let s0 := b.rotateRight 1 ^^^ b.rotateRight 8 ^^^ (b >>> 7)
    shaSched n ((s1 + ws.getD 6 0 + s0 + ws.getD 15 0) :: ws)

/-- One round on the eight working words. -/
def shaRound (v : List W64) (kw : W64 × W64) : List W64 :=
  match v with
  | [a, b, c, d, e, f, g, h] =>
    let t1 := h + (e.rotateRight 14 ^^^ e.rotateRight 18 ^^^ e.rotateRight 41) + ((e &&& f) ^^^ (~~~e &&& g)) + kw.1 + kw.2
    let t2 := (a.rotateRight 28 ^^^ a.rotateRight 34 ^^^ a.rotateRight 39) + ((a &&& b) ^^^ (a &&& c) ^^^ (b &&& c))
    [t1 + t2, a, b, c, d + t1, e, f, g]
  | v => v

def shaBlock (h : List W64) (blk : List Byte) : List W64 :=
  let ws := (shaSched 64 (words64BE 16 blk).reverse).reverse
  List.zipWith (· + ·) h ((List.zip sha512K ws).foldl shaRound h)

def shaBlocks : Nat → List W64 → List Byte → List W64
  | 0, h, _ => h
  | n + 1, h, l => shaBlocks n (shaBlock h (l.take 128)) (l.drop 128)

/-- The 64 B digest. -/
def sha512 (m : List Byte) : List Byte :=
  let z := (239 - m.length % 128) % 128
  let p := m ++ [0x80] ++ zeros z ++ toBytesBE 16 (8 * m.length)
  (shaBlocks (p.length / 128) sha512H p).flatMap fun w => toBytesBE 8 w.toNat

/-- ASCII bytes. -/
def ascii (s : String) : List Byte := s.toList.map fun c => BitVec.ofNat 8 c.toNat

def hmac512 (key msg : List Byte) : List Byte :=
  let k := (if 128 < key.length then sha512 key else key)
  let k := k ++ zeros (128 - k.length)
  sha512 (k.map (· ^^^ 0x5C) ++ sha512 (k.map (· ^^^ 0x36) ++ msg))

/-- HKDF-SHA-512 for at most 64 B of output. -/
def hkdf512 (salt ikm info : List Byte) (n : Nat) : List Byte := (hmac512 (hmac512 salt ikm) (info ++ [1])).take n

/-! ### AES-256 -/

def aesSbox : List Byte :=
  [0x63, 0x7C, 0x77, 0x7B, 0xF2, 0x6B, 0x6F, 0xC5, 0x30, 0x01, 0x67, 0x2B, 0xFE, 0xD7, 0xAB, 0x76,
   0xCA, 0x82, 0xC9, 0x7D, 0xFA, 0x59, 0x47, 0xF0, 0xAD, 0xD4, 0xA2, 0xAF, 0x9C, 0xA4, 0x72, 0xC0,
   0xB7, 0xFD, 0x93, 0x26, 0x36, 0x3F, 0xF7, 0xCC, 0x34, 0xA5, 0xE5, 0xF1, 0x71, 0xD8, 0x31, 0x15,
   0x04, 0xC7, 0x23, 0xC3, 0x18, 0x96, 0x05, 0x9A, 0x07, 0x12, 0x80, 0xE2, 0xEB, 0x27, 0xB2, 0x75] ++
  [0x09, 0x83, 0x2C, 0x1A, 0x1B, 0x6E, 0x5A, 0xA0, 0x52, 0x3B, 0xD6, 0xB3, 0x29, 0xE3, 0x2F, 0x84,
   0x53, 0xD1, 0x00, 0xED, 0x20, 0xFC, 0xB1, 0x5B, 0x6A, 0xCB, 0xBE, 0x39, 0x4A, 0x4C, 0x58, 0xCF,
   0xD0, 0xEF, 0xAA, 0xFB, 0x43, 0x4D, 0x33, 0x85, 0x45, 0xF9, 0x02, 0x7F, 0x50, 0x3C, 0x9F, 0xA8,
   0x51, 0xA3, 0x40, 0x8F, 0x92, 0x9D, 0x38, 0xF5, 0xBC, 0xB6, 0xDA, 0x21, 0x10, 0xFF, 0xF3, 0xD2] ++
  [0xCD, 0x0C, 0x13, 0xEC, 0x5F, 0x97, 0x44, 0x17, 0xC4, 0xA7, 0x7E, 0x3D, 0x64, 0x5D, 0x19, 0x73,
   0x60, 0x81, 0x4F, 0xDC, 0x22, 0x2A, 0x90, 0x88, 0x46, 0xEE, 0xB8, 0x14, 0xDE, 0x5E, 0x0B, 0xDB,
   0xE0, 0x32, 0x3A, 0x0A, 0x49, 0x06, 0x24, 0x5C, 0xC2, 0xD3, 0xAC, 0x62, 0x91, 0x95, 0xE4, 0x79,
   0xE7, 0xC8, 0x37, 0x6D, 0x8D, 0xD5, 0x4E, 0xA9, 0x6C, 0x56, 0xF4, 0xEA, 0x65, 0x7A, 0xAE, 0x08] ++
  [0xBA, 0x78, 0x25, 0x2E, 0x1C, 0xA6, 0xB4, 0xC6, 0xE8, 0xDD, 0x74, 0x1F, 0x4B, 0xBD, 0x8B, 0x8A,
   0x70, 0x3E, 0xB5, 0x66, 0x48, 0x03, 0xF6, 0x0E, 0x61, 0x35, 0x57, 0xB9, 0x86, 0xC1, 0x1D, 0x9E,
   0xE1, 0xF8, 0x98, 0x11, 0x69, 0xD9, 0x8E, 0x94, 0x9B, 0x1E, 0x87, 0xE9, 0xCE, 0x55, 0x28, 0xDF,
   0x8C, 0xA1, 0x89, 0x0D, 0xBF, 0xE6, 0x42, 0x68, 0x41, 0x99, 0x2D, 0x0F, 0xB0, 0x54, 0xBB, 0x16]

def sub1 (b : Byte) : Byte := aesSbox.getD b.toNat 0
def invSub1 (b : Byte) : Byte := BitVec.ofNat 8 (aesSbox.findIdx (· = b))

/-- Multiplication by x in GF(2^8). -/
def xtime (b : Byte) : Byte := (b <<< 1) ^^^ (if b.toNat < 128 then 0 else 0x1B)
def gmul (n : Nat) (b : Byte) : Byte :=
  let b2 := xtime b
  let b4 := xtime b2
  let b8 := xtime b4
  (if bitAt n 0 then b else 0) ^^^ (if bitAt n 1 then b2 else 0) ^^^ (if bitAt n 2 then b4 else 0) ^^^ (if bitAt n 3 then b8 else 0)

def xorB (a b : List Byte) : List Byte := List.zipWith (· ^^^ ·) a b

/-- The key schedule, newest 4 B word first. -/
def aesExpand : Nat → Nat → List (List Byte) → List (List Byte)
  | 0, _, ws => ws
  | n + 1, i, ws =>
    let t := ws.headD []
    let t := if i % 8 = 0 then xorB ((t.drop 1 ++ t.take 1).map sub1) [BitVec.ofNat 8 (2 ^ (i / 8 - 1)), 0, 0, 0]
      else if i % 8 = 4 then t.map sub1 else t
    aesExpand n (i + 1) (xorB (ws.getD 7 []) t :: ws)

/-- The 15 round keys of 16 B. -/
def aesKeys (key : List Byte) : List (List Byte) :=
  let ws := (aesExpand 52 8 ((List.range 8).map fun i => sliceB key (4 * i) 4).reverse).reverse
  (List.range 15).map fun r => (ws.drop (4 * r)).take 4 |>.flatten

def shiftRows (s : List Byte) (by_ : Nat) : List Byte := (List.range 16).map fun i => s.getD ((i + by_ * (i % 4)) % 16) 0
def mixCols (s : List Byte) (c : List Nat) : List Byte :=
  (List.range 16).map fun i =>
    (List.range 4).foldl (fun (a : Byte) k => a ^^^ gmul (c.getD ((k + 4 - i % 4) % 4) 0) (s.getD (i / 4 * 4 + k) 0)) 0

/-- One block enciphered. -/
def aesEnc (ks : List (List Byte)) (blk : List Byte) : List Byte :=
  let s := xorB blk (ks.getD 0 [])
  let s := (List.range 13).foldl (fun s r => xorB (mixCols (shiftRows (s.map sub1) 4) [2, 3, 1, 1]) (ks.getD (r + 1) [])) s
  xorB (shiftRows (s.map sub1) 4) (ks.getD 14 [])

/-- One block deciphered. -/
def aesDec (ks : List (List Byte)) (blk : List Byte) : List Byte :=
  let s := (shiftRows (xorB blk (ks.getD 14 [])) 12).map invSub1
  let s := (List.range 13).foldl (fun s r =>
    (shiftRows (mixCols (xorB s (ks.getD (13 - r) [])) [14, 11, 13, 9]) 12).map invSub1) s
  xorB s (ks.getD 0 [])

/-! ### GCM -/

/-- Multiplication in GF(2^128), bit 0 being the most significant: the product of x and the remaining bits of y. -/
def gfGo : Nat → Nat → Nat → Nat → Nat
  | 0, _, _, z => z
  | n + 1, y, v, z =>
    let z := if bitAt y n then z ^^^ v else z
    let v := if v % 2 = 1 then (v / 2) ^^^ (0xE1 <<< 120) else v / 2
    gfGo n y v z

def gfMul (x y : Nat) : Nat := gfGo 128 y x 0

/-- 16 B blocks of a byte sequence, the last padded with zeros. -/
def blocks16 : Nat → List Byte → List (List Byte)
  | 0, _ => []
  | n + 1, l => if l = [] then [] else (l.take 16 ++ zeros (16 - l.length)) :: blocks16 n (l.drop 16)

def ghash (h : Nat) (aad ct : List Byte) : Nat :=
  let bs := blocks16 (aad.length / 16 + 1) aad ++ blocks16 (ct.length / 16 + 1) ct
    ++ [toBytesBE 8 (8 * aad.length) ++ toBytesBE 8 (8 * ct.length)]
  bs.foldl (fun y b => gfMul (y ^^^ ofBytesBE b) h) 0

/-- Counter mode from a counter value on. -/
def ctrGo (ks : List (List Byte)) (iv : List Byte) : Nat → Nat → List Byte → List Byte
  | 0, _, _ => []
  | n + 1, c, l =>
    if l = [] then [] else xorB (l.take 16) (aesEnc ks (iv ++ toBytesBE 4 c)) ++ ctrGo ks iv n (c + 1) (l.drop 16)

def gcmTag (ks : List (List Byte)) (iv aad ct : List Byte) : List Byte :=
  let h := ofBytesBE (aesEnc ks (zeros 16))
  xorB (toBytesBE 16 (ghash h aad ct)) (aesEnc ks (iv ++ [0, 0, 0, 1]))

/-- Ciphertext and tag. -/
def gcmSeal (key iv aad pt : List Byte) : List Byte × List Byte :=
  let ks := aesKeys key
  let ct := ctrGo ks iv (pt.length / 16 + 1) 2 pt
  (ct, gcmTag ks iv aad ct)

/-- The plaintext, or none when the tag does not verify. -/
def gcmOpen (key iv aad ct tag : List Byte) : Option (List Byte) :=
  let ks := aesKeys key
  if gcmTag ks iv aad ct = tag then some (ctrGo ks iv (ct.length / 16 + 1) 2 ct) else none

/-! ### Key wrap -/

/-- The steps of the unwrap from t down: the integrity register and the data words. -/
def unwrapGo (ks : List (List Byte)) (n : Nat) : Nat → List Byte × List (List Byte) → List Byte × List (List Byte)
  | 0, s => s
  | t + 1, (a, rs) =>
    let i := t % n
    let b := aesDec ks (xorB a (toBytesBE 8 (t + 1)) ++ rs.getD i [])
    unwrapGo ks n t (b.take 8, rs.set i (b.drop 8))

/-- The unwrapped 8 B register and the data of a wrapped form. -/
def unwrap (key w : List Byte) : List Byte × List Byte :=
  let n := w.length / 8 - 1
  let r := unwrapGo (aesKeys key) n (6 * n) (w.take 8, (List.range n).map fun i => sliceB w (8 * i + 8) 8)
  (r.1, r.2.flatten)

/-- RFC 3394 with the default initial value; none when the check fails. -/
def unwrap3394 (key w : List Byte) : Option (List Byte) :=
  let r := unwrap key w
  if r.1 = List.replicate 8 0xA6 then some r.2 else none

/-- RFC 5649 with a message length of 48. -/
def unwrap5649 (key w : List Byte) : Option (List Byte) :=
  let r := unwrap key w
  if r.1 = [0xA6, 0x59, 0x59, 0xA6, 0, 0, 0, 48] then some r.2 else none

/-! ### The field of Curve25519 -/

def p25519 : Nat := 2 ^ 255 - 19

/-- Powers modulo p, n bits of the exponent. -/
def powGo (b : Nat) : Nat → Nat → Nat
  | 0, _ => 1
  | n + 1, e =>
    let h := powGo b n (e / 2)
    let h2 := h * h % p25519
    if e % 2 = 1 then h2 * b % p25519 else h2

def fpow (b e : Nat) : Nat := powGo (b % p25519) 255 e
def finv (a : Nat) : Nat := fpow a (p25519 - 2)
def fsubP (a b : Nat) : Nat := (a + p25519 - b % p25519) % p25519

/-! ### X25519 -/

structure Ladder where
  x2 : Nat
  z2 : Nat
  x3 : Nat
  z3 : Nat

def ladderStep (x1 : Nat) (l : Ladder) : Ladder :=
  let a := (l.x2 + l.z2) % p25519
  let aa := a * a % p25519
  let b := fsubP l.x2 l.z2
  let bb := b * b % p25519
  let e := fsubP aa bb
  let c := (l.x3 + l.z3) % p25519
  let d := fsubP l.x3 l.z3
  let da := d * a % p25519
  let cb := c * b % p25519
  let s := (da + cb) % p25519
  let t := fsubP da cb
  { x3 := s * s % p25519, z3 := x1 * (t * t % p25519) % p25519, x2 := aa * bb % p25519
    z2 := e * ((aa + 121665 * e) % p25519) % p25519 }

def swapL (b : Bool) (l : Ladder) : Ladder := if b then ⟨l.x3, l.z3, l.x2, l.z2⟩ else l

def ladder (k x1 : Nat) : Nat → Ladder → Ladder
  | 0, l => l
  | t + 1, l => ladder k x1 t (swapL (bitAt k t) (ladderStep x1 (swapL (bitAt k t) l)))

/-- The shared value of a private scalar and a public value, 32 B each. -/
def x25519 (priv pub : List Byte) : List Byte :=
  let k := setBits (ofBytes priv) 2 0 0
  let k := setBits k 255 254 1
  let u := ofBytes pub % 2 ^ 255 % p25519
  let l := ladder k u 255 ⟨1, 0, u, 1⟩
  toBytes 32 (l.x2 * finv l.z2 % p25519)

def x25519Public (priv : List Byte) : List Byte := x25519 priv (toBytes 32 9)

/-! ### Ed25519 -/

/-- Extended coordinates X, Y, Z, T. -/
structure EdPt where
  x : Nat
  y : Nat
  z : Nat
  t : Nat

def edD : Nat := (p25519 - 121665) * finv 121666 % p25519
def edL : Nat := 2 ^ 252 + 27742317777372353535851937790883648493
def edZero : EdPt := ⟨0, 1, 1, 0⟩

def edAdd (p q : EdPt) : EdPt :=
  let a := fsubP p.y p.x * fsubP q.y q.x % p25519
  let b := (p.y + p.x) * (q.y + q.x) % p25519
  let c := 2 * p.t * q.t % p25519 * edD % p25519
  let d := 2 * p.z * q.z % p25519
  let e := fsubP b a
  let f := fsubP d c
  let g := (d + c) % p25519
  let h := (b + a) % p25519
  ⟨e * f % p25519, g * h % p25519, f * g % p25519, e * h % p25519⟩

def edMulGo (p : EdPt) (k : Nat) : Nat → EdPt → EdPt
  | 0, r => r
  | n + 1, r => let r2 := edAdd r r; edMulGo p k n (if bitAt k n then edAdd r2 p else r2)

def edMul (k : Nat) (p : EdPt) : EdPt := edMulGo p k 256 edZero

def edEq (p q : EdPt) : Bool := (p.x * q.z) % p25519 = (q.x * p.z) % p25519 && (p.y * q.z) % p25519 = (q.y * p.z) % p25519

/-- A point with a given y and sign of x, or none. -/
def edFromY (y sign : Nat) : Option EdPt :=
  if p25519 ≤ y then none
  else
    let y2 := y * y % p25519
    let u := fsubP y2 1
    let v := (edD * y2 + 1) % p25519
    let x2 := u * finv v % p25519
    let r := fpow x2 ((p25519 + 3) / 8)
    let r := if r * r % p25519 = x2 then r else r * fpow 2 ((p25519 - 1) / 4) % p25519
    if r * r % p25519 ≠ x2 then none
    else if r = 0 ∧ sign = 1 then none
    else
      let x := if r % 2 = sign then r else p25519 - r
      some ⟨x, y, 1, x * y % p25519⟩

def edDecode (l : List Byte) : Option EdPt := let n := ofBytes l; edFromY (n % 2 ^ 255) (n / 2 ^ 255 % 2)
def edEncode (p : EdPt) : List Byte :=
  let i := finv p.z
  let x := p.x * i % p25519
  toBytes 32 (p.y * i % p25519 + (x % 2) <<< 255)

def edBase : EdPt := (edFromY (4 * finv 5 % p25519) 0).getD edZero

/-- The secret scalar and the second half of the hash of a 32 B seed. -/
def edExpand (seed : List Byte) : Nat × List Byte :=
  let h := sha512 seed
  let a := setBits (ofBytes (h.take 32)) 2 0 0
  (setBits a 255 254 1, h.drop 32)

def edPublic (seed : List Byte) : List Byte := edEncode (edMul (edExpand seed).1 edBase)

def edSign (seed msg : List Byte) : List Byte :=
  let e := edExpand seed
  let pub := edEncode (edMul e.1 edBase)
  let r := ofBytes (sha512 (e.2 ++ msg)) % edL
  let rb := edEncode (edMul r edBase)
  let k := ofBytes (sha512 (rb ++ pub ++ msg)) % edL
  rb ++ toBytes 32 ((r + k * e.1) % edL)

def edVerify (pub msg sig : List Byte) : Bool :=
  let s := ofBytes (sig.drop 32)
  match edDecode pub, edDecode (sig.take 32) with
  | some a, some r =>
    let k := ofBytes (sha512 (sig.take 32 ++ pub ++ msg)) % edL
    sig.length = 64 && s < edL && edEq (edMul 8 (edMul s edBase)) (edMul 8 (edAdd r (edMul k a)))
  | _, _ => false

end Sys2Proof.Machine
end

