-- ==== Sys2Proof/Machine/Cipher.lean ====
section
/-! DEFINITION. The cipher engine (file 16): the key exchange and the key store (R388 to R398, R401), and the pipelines with
their spares (R386, R387). -/

namespace Sys2Proof.Machine

/-! ### Commands that reach the key store -/

/-- A command's step in the device, its key store and its always-on domain. -/
def cmdRowK (a : AlwaysOn) (ks : KeyStore) (d : Dev) (m : Nat) (ok : Cmd → Bool)
    (f : KeyStore → Dev → Cmd → KeyStore × Dev × Cmd) : AlwaysOn × KeyStore × Dev :=
  match takeStep d m ok with
  | none => (a, ks, d)
  | some (d, c) =>
    let r := f ks d c
    (a, r.1, putCmd r.2.1 m r.2.2)

/-- A command of family 0x08 under the WIDE grant (R30). -/
def wide (f : KeyStore → Dev → Cmd → KeyStore × Dev × Cmd) (ks : KeyStore) (d : Dev) (c : Cmd) : KeyStore × Dev × Cmd :=
  if granted d 3 then f ks d c else (ks, d, c.refuse 0x080A)

/-- The n bytes of the argument words from word i on. -/
def Cmd.bytes (c : Cmd) (i n : Nat) : List Byte := toBytes n (c.num i (ceilDiv n 4))

def idBytes (d : Dev) : List Byte := toBytes 32 d.boot.idkey.toNat
def seedBytes (ks : KeyStore) : List Byte := toBytes 32 (ks.seed.getD 0).toNat

/-- A fresh exchange pair and its signed record (R390). -/
def newExchange (ks : KeyStore) (d : Dev) : KeyStore × Dev :=
  let x := Config.exchangeSecret d.free
  let body := idBytes d ++ x25519Public (toBytes 32 x.toNat)
  ({ ks with exch := some x, exchRec := body ++ edSign (seedBytes ks) (ascii "GDF-KEX1" ++ body) }, { d with free := d.free + 1 })

def cipherKex (ks : KeyStore) (d : Dev) (c : Cmd) : KeyStore × Dev × Cmd :=
  if !cmdAddrOk d c.polder (c.word2 0) 128 64 then (ks, d, c.refuse 0x0106)
  else
    let (ks, d) := if ks.exch = none then newExchange ks d else (ks, d)
    match cmdWrite d c.polder (c.word2 0) ks.exchRec with
    | (d, some e) => (ks, d, c.fail e)
    | (d, none) => (ks, d, c.finish)

/-- CIPHER_KEK (R391). -/
def cipherKek (ks : KeyStore) (d : Dev) (c : Cmd) : KeyStore × Dev × Cmd :=
  match ks.exch with
  | none => (ks, d, c.refuse 0x0802)
  | some x =>
    let p := c.bytes 0 32
    let priv := toBytes 32 x.toNat
    let z := x25519 priv p
    if ofBytes z = 0 then (ks, d, c.refuse 0x0806)
    else
      let kek := hkdf512 (x25519Public priv ++ p) z (ascii "GDF-2048 KEK" ++ idBytes d) 32
      ({ ks with kek := some (BitVec.ofNat 256 (ofBytes kek)), exch := none, exchRec := [] }, d, c.finish)

/-! ### The store (R388, R389) -/

def ofPair (site : Nat) (tx : Bool) (k : TKey) : Bool := k.site = site && k.tx = tx

/-- The lowest free slot. -/
def freeSlotNo (ks : KeyStore) : Nat := ((List.range 1024).find? fun i => ks.keys.all fun k => k.slot ≠ i).getD 0

/-- The store without the lowest epoch of a pair that holds two keys. -/
def makeRoom (ks : KeyStore) (site : Nat) (tx : Bool) : KeyStore :=
  let mine := ks.keys.filter (ofPair site tx)
  if mine.length < 2 then ks
  else
    let low := mine.foldl (fun n k => min n k.kep.toNat) (2 ^ 32)
    { ks with keys := ks.keys.filter fun k => !(ofPair site tx k && k.kep.toNat = low) }

/-- The checks of R393 from the epoch on, and the key stored: its slot. -/
def storeKey (ks : KeyStore) (key : BitVec 256) (site : Nat) (tx : Bool) (kep : W32) (llog : Nat) (legacy : Bool) :
    Except Code (KeyStore × Nat) :=
  let pair := 2 * site + b2n (!tx)
  if (NMap.find? ks.topKep pair).any (fun k => kep.toNat ≤ k) then .error 0x0803
  else if ks.keys.any (fun k => k.key = key) then .error 0x0804
  else
    let ks := makeRoom ks site tx
    let n := freeSlotNo ks
    .ok ({ ks with
      keys := ks.keys ++ [{ slot := n, key := key, site := site, tx := tx, kep := kep, llog := llog, legacy := legacy }]
      topKep := NMap.insert ks.topKep pair kep.toNat }, n)

/-- The unwrapped record of a blob, or the status that refuses it (R392, R393). -/
def openBlob (ks : KeyStore) (blob : List Byte) : Except Code Nat :=
  match ks.kek with
  | none => .error 0x0802
  | some k =>
    let fmt := leAt blob 0 1
    if (fmt ≠ 1 ∧ fmt ≠ 2) ∨ sliceB blob 1 7 ≠ zeros 7 then .error 0x0801
    else
      let kb := toBytes 32 k.toNat
      match (if fmt = 1 then unwrap3394 kb (blob.drop 8) else unwrap5649 kb (blob.drop 8)) with
      | none => .error 0x0801
      | some r =>
        let n := ofBytes r
        let l := bits n 309 304
        if bits n 271 265 ≠ 0 ∨ bits n 383 310 ≠ 0 ∨ !(l = 0 || (20 ≤ l && l ≤ 36)) then .error 0x0801 else .ok n

def keyLoad (ks : KeyStore) (d : Dev) (c : Cmd) : KeyStore × Dev × Cmd :=
  match openBlob ks (c.bytes 0 64) with
  | .error e => (ks, d, c.refuse e)
  | .ok n =>
    let l := bits n 309 304
    match storeKey ks (BitVec.ofNat 256 (bits n 255 0)) (bits n 263 256) (!bitAt n 264) (BitVec.ofNat 32 (bits n 303 272))
        (if l = 0 then 32 else l) false with
    | .error e => (ks, d, c.refuse e)
    | .ok (ks, slot) => (ks, d, c.finish [w32 slot])

/-- KEY_RETIRE: site in word 0 [7:0], dir in [8], kep in word 1. -/
def keyRetire (ks : KeyStore) (d : Dev) (c : Cmd) : KeyStore × Dev × Cmd :=
  let gone (k : TKey) : Bool := ofPair (bits (c.word 0) 7 0) (!bitAt (c.word 0) 8) k && k.kep.toNat = c.word 1
  if ks.keys.any gone then ({ ks with keys := ks.keys.filter fun k => !gone k }, d, c.finish) else (ks, d, c.refuse 0x0809)

/-- KEY_ACTIVATE: the paths of a partner move to a loaded key at their next frame (R396). -/
def keyActivate (ks : KeyStore) (d : Dev) (c : Cmd) : KeyStore × Dev × Cmd :=
  let site := bits (c.word 0) 7 0
  let kep : W32 := w32 (c.word 1)
  if ks.keys.any fun k => ofPair site true k && k.kep = kep then
    let want (p : TPath) : TPath := if fld p.desc 7 0 = site then { p with wanted := some kep } else p
    (ks, { d with tidal := { d.tidal with paths := NMap.mapVals d.tidal.paths fun _ p => want p } }, c.finish)
  else (ks, d, c.refuse 0x0809)

/-- What KEY_STATUS tells of a key: 80 B, without a bit of the key. -/
def keyEntry (k : TKey) : List Byte :=
  toBytes 16 (k.site + (b2n (!k.tx)) <<< 8 + k.llog <<< 16 + (b2n k.legacy) <<< 24 + k.kep.toNat <<< 32 + k.fails.toNat <<< 64)
    ++ (List.range 8).flatMap fun i => toBytes 8 (NMap.get k.sent 0 i)

def keyStatus (ks : KeyStore) (d : Dev) (c : Cmd) : KeyStore × Dev × Cmd :=
  let bs := ks.keys.flatMap keyEntry
  if !cmdAddrOk d c.polder (c.word2 0) bs.length 64 then (ks, d, c.refuse 0x0106)
  else
    match cmdWrite d c.polder (c.word2 0) bs with
    | (d, some e) => (ks, d, c.fail e)
    | (d, none) => (ks, d, c.finish [w32 ks.keys.length])

/-! ### Legacy registers (R401) -/

/-- The registers checked and their key stored; CIPH_LKEY0–7 are zeroed either way. -/
def legacyGo (ks : KeyStore) (d : Dev) : KeyStore × Dev × Except Code Nat :=
  let key : BitVec 256 := BitVec.ofNat 256 (ofBytes ((List.range 8).flatMap fun i => toBytes 4 (NMap.get ks.lkey 0 i).toNat))
  let l := fld ks.lksel 13 9
  let r := storeKey ks key (fld ks.lksel 7 0) (!flag ks.lksel 8) ks.lkep (if l = 0x1F then 32 else 20 + l) true
  match r with
  | .ok (ks, n) => ({ ks with lkey := [] }, { d with boot := { d.boot with legacy := true } }, .ok n)
  | .error e => ({ ks with lkey := [] }, d, .error e)

def legacyKey (ks : KeyStore) (d : Dev) (c : Cmd) : KeyStore × Dev × Cmd :=
  if !granted d 4 then (ks, d, c.refuse 0x0805)
  else
    let ks := { ks with
      lkey := (List.range 8).foldl (fun (m : NMap W32) i => NMap.set m 0 i (w32 (c.word i))) [], lksel := w32 (c.word 8), lkep := w32 (c.word 9) }
    match legacyGo ks d with
    | (ks, d, .ok n) => (ks, d, c.finish [w32 n])
    | (ks, d, .error e) => (ks, d, c.refuse e)

/-- A write of CIPH_LKGO; without LEGACY_KEYS the register ignores it. -/
def lkgoWrite (ks : KeyStore) (d : Dev) (v : W32) : KeyStore × Dev :=
  if !granted d 4 then (ks, count d 5 0 0x002 1 none)
  else if flag v 0 then let r := legacyGo ks d; (r.1, r.2.1) else (ks, d)

/-! ### Pipelines (R386, R387) -/

/-- A pipeline is retired; a spare takes its place where there is one for it. -/
def retirePipe (a : AlwaysOn) (d : Dev) (p : Nat) (spare : Option Nat) : AlwaysOn × Dev :=
  let used := d.cipher.serv.contains (some p) && spare.isSome
  let x := d.cipher
  let d := { d with cipher := { x with
    serv := x.serv.map fun s => if s = some p then spare else s
    spares := x.spares.filter fun s => s ≠ p && !(used && some s = spare)
    retired := x.retired ++ [p] } }
  ({ a with badPipes := if a.badPipes.contains p then a.badPipes else a.badPipes ++ [p] },
    spareNotice d 7 p d.cipher.spares.length used)

/-- Spare A has repeated the blocks of one pipeline, or of a mismatch the pipeline named is the one that is wrong. -/
def shadowEnd (a : AlwaysOn) (d : Dev) (mismatch : Option Nat) : AlwaysOn × Dev :=
  let x := d.cipher
  match x.spares with
  | [] => (a, d)
  | s :: rest =>
    let here := (x.serv.getD x.turn none)
    let next := { d with cipher := { x with turn := (x.turn + 1) % 16 } }
    match mismatch with
    | none => (a, next)
    | some p =>
      let d := count next 5 0 0x902 1 none
      if here = some p then retirePipe a d p (some (rest.headD s)) else if p = s then retirePipe a d p none else (a, d)

/-- With both spares in use: pipelines that fail their vectors are retired with no replacement. -/
def katEnd (a : AlwaysOn) (d : Dev) (failed : List Nat) : AlwaysOn × Dev :=
  if d.cipher.spares ≠ [] then (a, d)
  else (failed.filter fun p => d.cipher.serv.contains (some p)).foldl (fun s p => retirePipe s.1 s.2 p none) (a, d)

def execCipherKex (m : MboxNo) (s : State) : Out := onAll s fun a ks d => cmdRowK a ks d m.val (isCmd 0x0801) (wide cipherKex)
def execCipherKek (m : MboxNo) (s : State) : Out := onAll s fun a ks d => cmdRowK a ks d m.val (isCmd 0x0802) (wide cipherKek)
def execKeyLoad (m : MboxNo) (s : State) : Out := onAll s fun a ks d => cmdRowK a ks d m.val (isCmd 0x0803) (wide keyLoad)
def execKeyRetire (m : MboxNo) (s : State) : Out := onAll s fun a ks d => cmdRowK a ks d m.val (isCmd 0x0804) (wide keyRetire)
def execKeyActivate (m : MboxNo) (s : State) : Out := onAll s fun a ks d => cmdRowK a ks d m.val (isCmd 0x0805) (wide keyActivate)
def execKeyStatus (m : MboxNo) (s : State) : Out := onAll s fun a ks d => cmdRowK a ks d m.val (isCmd 0x0806) (wide keyStatus)
def execLegacyKey (m : MboxNo) (s : State) : Out := onAll s fun a ks d => cmdRowK a ks d m.val (isCmd 0x0807) (wide legacyKey)
def execCiphLkgoWrite (v : W32) (s : State) : Out := onKeys s fun _ ks d => lkgoWrite ks d v
def execShadowRotation (mismatch : Option (Fin 18)) (s : State) : Out := onAon s fun a d => shadowEnd a d (mismatch.map Fin.val)
def execPeriodicKnownAnswerTest (failed : List (Fin 18)) (s : State) : Out := onAon s fun a d => katEnd a d (failed.map Fin.val)

end Sys2Proof.Machine
end

