-- ==== Sys2Proof/Machine/Sluice.lean ====
section
/-! DEFINITION. Sluice (file 14): the federation's parameters, shards, contributions and the merge (R330 to R341), the ledger
(R342 to R344), holds (R346 to R348), reconciliation (R349 to R353), membership (R354 to R356) and replay (R358). Outer steps
count on through a wrap; `wireStep` and `absStep` go between the count and the 32-bit number. -/

namespace Sys2Proof.Machine

def onSluice (d : Dev) (f : Sluice → Sluice) : Dev := { d with sluice := f d.sluice }

/-! ### Parameters (R335) -/

def scSite (x : Sluice) : Nat := fld x.cfg 7 0
def scH (x : Sluice) : Nat := fld x.cfg 31 16
def scDl (x : Sluice) : Nat := if fld x.cfg 47 32 = 0 then scH x / 2 else fld x.cfg 47 32
def scS (x : Sluice) : Nat := fld x.cfg 51 48
def scP (x : Sluice) : Nat := if fld x.cfg 55 52 = 0 then scS x else fld x.cfg 55 52
def scBeta (x : Sluice) : F32 := BitVec.ofNat 32 (fld x.cfg 95 64)
def scEta (x : Sluice) : F32 := BitVec.ofNat 32 (fld x.cfg 127 96)
def scMu (x : Sluice) : F32 := BitVec.ofNat 32 (fld x.cfg 159 128)
def scKeeper (x : Sluice) : Nat := fld x.cfg 179 160
def scB0 (x : Sluice) : Nat := fld x.cfg 239 192
def scFdig (x : Sluice) : Nat := fld x.cfg 383 256
def scLbase (x : Sluice) : Nat := fld x.cfg 431 384
def scLsize (x : Sluice) : Nat := 4096 * fld x.cfg 479 448

def isKeeper (d : Dev) : Bool := selfId d = scKeeper d.sluice

/-- The devices of the site: those of the torus (R33). -/
def siteDevs (d : Dev) : List Nat :=
  (List.range (extent d 2)).flatMap fun z => (List.range (extent d 1)).flatMap fun y =>
    (List.range (extent d 0)).map fun x => devAt x y z

/-- Sluice's traffic: class C4 of its polder (R341). -/
def slAcc (d : Dev) : Acc := { cls := 4, polder := some d.sluice.polder }

/-- The inner step at which boundary k lies (R330). -/
def boundaryAt (x : Sluice) (k : Nat) : Nat := scB0 x + k * scH x

/-! ### Outer steps, epochs, members (R330, R354, R356) -/

/-- The 32-bit number of an outer step. -/
def wireStep (x : Sluice) (a : Nat) : Nat := (a - (x.wraps.find? (· ≤ a)).getD 0) % 2 ^ 32

/-- The epoch in force at an outer step; none before the first. -/
def epochAt (x : Sluice) (k : Nat) : Option Epoch := x.epochs.find? fun e => e.k0 ≤ k
def epochNo (x : Sluice) (k : Nat) : Nat := ((epochAt x k).map Epoch.no).getD 0
/-- The current epoch: the newest that has taken effect. -/
def curEpoch (x : Sluice) : Option Epoch := x.epochs.find? Epoch.taken
def curEpochNo (x : Sluice) : Nat := ((curEpoch x).map Epoch.no).getD 0

/-- The members at an outer step; the own site alone before the first declaration. -/
def membersAt (x : Sluice) (k : Nat) : List Nat :=
  match epochAt x k with | none => [scSite x] | some e => setPositions 256 e.members.toNat

/-- The outer step that a number names in an epoch. -/
def absStep (x : Sluice) (epoch w : Nat) : Nat :=
  ((x.wraps.map (· + w)).find? fun a => epochNo x a = epoch).getD (x.wraps.headD 0 + w)

/-- The outer step that an entry of a record of step k names. -/
def entStep (x : Sluice) (k w : Nat) : Nat := ((x.wraps.map (· + w)).find? (· ≤ k)).getD w

/-! ### A shard's words (R337) -/

def Shard.w (s : Shard) (i : Nat) : Nat := (NMap.get s.words 0 i).toNat
def Shard.w2 (s : Shard) (i : Nat) : Nat := s.w i + s.w (i + 1) <<< 32
def Shard.n (s : Shard) : Nat := s.w 1
def Shard.ext0 (s : Shard) : Nat := s.w 2
def Shard.tile (s : Shard) : Nat := bits (s.w 3) 10 0
def Shard.sreg (s : Shard) : Nat := bits (s.w 3) 21 16
def Shard.residual (s : Shard) : Nat := s.w2 10
def Shard.slot (s : Shard) : Nat := s.w2 12
def Shard.readyWord (s : Shard) : Nat := s.w2 14
def Shard.mergeWord (s : Shard) : Nat := s.w2 16
def Shard.hist (s : Shard) : Nat := s.w2 18
/-- Bytes that an FP32 tensor and a contribution image take in a history entry. -/
def Shard.a4 (s : Shard) : Nat := 64 * ceilDiv (4 * s.n) 64
def Shard.csz (s : Shard) : Nat := 64 * s.w 21
/-- The history entry for an anchor (R345): the anchor, the outer momentum, the own contribution. -/
def Shard.entry (s : Shard) (k : Nat) : Nat := s.hist + k % 8 * (2 * s.a4 + s.csz)

def onShard (d : Dev) (id : Nat) (f : Shard → Shard) : Dev :=
  match NMap.find? d.sluice.shards id with
  | none => d
  | some s => onSluice d fun x => { x with shards := NMap.insert x.shards id (f s) }

def shardsOf (d : Dev) : List (Nat × Shard) := d.sluice.shards

/-- The tier of an address: 0 scratchpad, 1 HBM, 2 DDR5. -/
def tierOf (a : Nat) : Nat := if a < hbmBase then 0 else if a < ddrBase then 1 else 2

/-- The members that a site sends contributions to and takes them from: those of the newest declaration but itself. -/
def partnersOf (x : Sluice) : Nat := (x.epochs.head?.map fun e => (setPositions 256 e.members.toNat).length - 1).getD 1

/-- The bytes of a history region: the ring of 8 entries and the pending store (R345), with room for S + P + 1 contributions of
each partner (R338). The spec does not lay the pending store out: log entry 64. -/
def histNeed (x : Sluice) (s : Shard) : Nat := 8 * (2 * s.a4 + s.csz) + (scS x + scP x + 1) * s.csz * max 1 (partnersOf x)

/-- A declaration keeps R87's allotments and R224's placements. -/
def shardOk (d : Dev) (x : Polder) (s : Shard) : Bool :=
  let word (a : Nat) : Bool := a % 8 = 0 && inShare d x s.tile a (a + 8)
  1 ≤ s.n && 1 ≤ s.ext0 && s.n % s.ext0 = 0 && x.inRect s.tile && tileUp d s.tile && summOk x s.sreg
    && word s.readyWord && word s.mergeWord
    && inWindows d x (s.w2 4) (4 * s.n) && inWindows d x (s.w2 6) 1 && tierOf (s.w2 6) ≠ 2
    && inWindows d x (s.w2 8) (4 * s.n) && inWindows d x s.residual (4 * s.n)
    && inWindows d x s.slot (8 * s.n) && tierOf s.slot = tierOf (s.w2 8)
    && s.hist % 64 = 0 && 2 ≤ s.w 21 && x.dlo ≤ s.hist && s.hist + 4096 * s.w 20 ≤ x.dhi
    && histNeed d.sluice s ≤ 4096 * s.w 20

/-! ### The contribution image (R371) -/

def pad64 (n : Nat) : Nat := 64 * ceilDiv n 64

/-- Where an image's parts begin, from its header: side list, codes or index table, segment, codebook set, and the end. -/
structure ImgAt where
  side : Nat
  codes : Nat
  seg : Nat
  cb : Nat
  fin : Nat

def imgForm (b : List Byte) : Nat := leAt b 0 1 % 16
def imgAt (b : List Byte) : ImgAt :=
  let side := 64 + pad64 (4 * leAt b 8 4)
  let codes := side + pad64 (leAt b 12 4)
  let seg := codes + pad64 (leAt b 20 4)
  let cb := seg + pad64 (leAt b 16 4)
  ⟨side, codes, seg, cb, if imgForm b = 1 then codes + leAt b 16 4 else cb + 2048⟩

def imgScale (b : List Byte) (i : Nat) : F32 := BitVec.ofNat 32 (leAt b (64 + 4 * i) 4)

/-- Where the entries of a side list of so many rows begin (R170). -/
def sideOfs (rows : Nat) : Nat := 64 + pad64 (4 * (rows + 1))

/-- A side list is well-formed (R174). -/
def sideOk (l : List Byte) (rows : Nat) : Bool :=
  let dir (i : Nat) : Nat := leAt l (64 + 4 * i) 4
  (List.range rows).all (fun i => dir i ≤ dir (i + 1)) && dir rows ≤ leAt l 4 4 && dir rows ≤ leAt l 0 4
    && sideOfs rows + 8 * dir rows ≤ l.length

/-- The descriptor of a shard's BF16 matrix as COMPRESS sees it (R332). -/
def imgTd (s : Shard) : TDesc :=
  BitVec.ofNat 512 (2 <<< 72 + 1 <<< 86 + (s.ext0 % 2 ^ 24) <<< 128 + (s.n / s.ext0 % 2 ^ 24) <<< 152 + s.ext0 <<< 272)

/-- A polder without codebook sets: a block of an image names only the image's own set. -/
def noSets : Polder := { desc := 0, shares := [] }

/-- A block of an image's segment; none where its pair of entries is not well-formed (R186). -/
def imgBlock (b : List Byte) (i : Nat) : Option (List Byte) :=
  let a := imgAt b
  let lo := leAt b (a.codes + 32 + 4 * i) 4
  let n := leAt b (a.codes + 36 + 4 * i) 4 - lo
  if 2 ≤ n ∧ n ≤ 129 ∧ 32 * (lo + n) ≤ leAt b 16 4 then some (sliceB b (a.seg + 32 * lo) (32 * n)) else none

/-- Every check of R186 and R192 passes. -/
def segOk (s : Shard) (b : List Byte) : Bool :=
  let td := imgTd s
  (tableErr td (sliceB b (imgAt b).codes 32)).isNone && 32 + 4 * (cmpBlocks td + 1) ≤ leAt b 20 4
    && (List.range (cmpBlocks td)).all fun i =>
      match imgBlock b i with
      | none => false
      | some bs => leAt bs 28 4 = crc32c (bs.take 28 ++ bs.drop 32) && blockHdrOk noSets td i bs

/-- The bytes of a row of N4 codes (R41). -/
def n4Row (s : Shard) : Nat := ceilDiv s.ext0 2

/-- A whole contribution is well-formed (R338). -/
def imageOk (s : Shard) (b : List Byte) : Bool :=
  let a := imgAt b
  let rows := s.n / s.ext0
  let sl := sliceB b a.side (leAt b 12 4)
  (imgForm b = 1 || imgForm b = 2) && leAt b 0 1 < 16 && sliceB b 24 40 = zeros 40
    && leAt b 1 3 = s.ext0 && leAt b 4 4 = s.n && leAt b 8 4 = s.ext0 && a.fin ≤ b.length
    && (List.range s.ext0).all (fun i => scaleOk (imgScale b i))
    && (sideOk sl rows || (imgForm b = 2 && sl = []))
    && (if imgForm b = 1 then leAt b 16 4 = rows * n4Row s && leAt b 20 4 = 0 else segOk s b)

/-- A block expanded (R191, R193), with the set that the image carries. -/
def imgExpand (s : Shard) (b : List Byte) (i : Nat) : List B16 :=
  let td := imgTd s
  let sz := blockSize td i
  let dd := sz.1 * sz.2
  match imgBlock b i with
  | none => List.replicate dd 0x7FC0
  | some bs =>
    let h := leAt bs 0 32
    let cnt := bits h 43 32
    let l : List B16 :=
      if bits h 1 0 = 3 then (List.range (min cnt dd)).map fun j => BitVec.ofNat 16 (leAt bs (32 + 2 * j) 2)
      else
        let one (v : Nat) : List B16 := (vecSum ((List.range 4).map fun j =>
          BitVec.ofNat 16 (leAt b ((imgAt b).cb + 8 * leAt bs (32 + v) 1 + 2 * j) 2)) none).1
        let l := ((List.range (min cnt (ceilDiv dd 4))).flatMap one).take dd
        ((List.range (bits h 6 2)).map fun j => patchAt bs (32 + 4 * ceilDiv cnt 4 + 12 * j)).foldl patchList l
    l ++ List.replicate (dd - l.length) 0x7FC0

/-- An N4 element with its side list (R40, R52). -/
def imgElem (s : Shard) (b : List Byte) (i : Nat) : F32 :=
  let a := imgAt b
  let col := i % s.ext0
  let c := leAt b (a.codes + i / s.ext0 * n4Row s + col / 2) 1 / (if col % 2 = 0 then 1 else 16) % 16
  if c = 8 then
    let l := sliceB b a.side (leAt b 12 4)
    let row := i / s.ext0
    let lo := leAt l (64 + 4 * row) 4
    let ofs := sideOfs (s.n / s.ext0)
    match (List.range (leAt l (68 + 4 * row) 4 - lo)).find? fun j => leAt l (ofs + 8 * (lo + j)) 3 = col with
    | some j => rne32 (val16 (BitVec.ofNat 16 (leAt l (ofs + 8 * (lo + j) + 4) 2)))
    | none => nan32
  else rne32 ((codeVal .n4 c (imgScale b col)).getD .nan)

/-- The elements of a contribution (R341). -/
def imgVals (s : Shard) (b : List Byte) : List F32 :=
  if imgForm b = 1 then (List.range s.n).map (imgElem s b)
  else
    let td := imgTd s
    let bl := (List.range (cmpBlocks td)).map (imgExpand s b)
    (List.range s.n).map fun i =>
      let p := blockOf td [i % s.ext0, i / s.ext0]
      rne32 (val16 ((bl.getD p.1 []).getD p.2 0x7FC0))

/-! ### The pending store (R338, R370) -/

def mgKind (m : Message) : Nat := fld m.hdr 3 0
def mgOrig (m : Message) : Nat := fld m.hdr 15 8
def mgEpoch (m : Message) : Nat := fld m.hdr 31 16
def mgStep (m : Message) : Nat := fld m.hdr 63 32
def mgShard (m : Message) : Nat := fld m.hdr 95 64
def mgLen (m : Message) : Nat := fld m.hdr 127 96
def mgOfs (m : Message) : Nat := fld m.hdr 159 128
/-- The message header is well-formed. -/
def mgOk (m : Message) : Bool := 1 ≤ mgKind m && mgKind m ≤ 5 && fld m.hdr 7 4 = 0 && fld m.hdr 255 160 = 0

/-- A message with its header (R370). -/
def mkMsg (kind orig epoch ostep shard : Nat) (body : List Byte) : Message :=
  { hdr := BitVec.ofNat 256 (kind + (orig % 256) <<< 8 + (epoch % 65536) <<< 16 + (ostep % 2 ^ 32) <<< 32
      + (shard % 2 ^ 32) <<< 64 + (ceilDiv body.length 16) <<< 96)
    body := padTo 16 body }

/-- Units of 16 B placed from an offset on; what is placed already stays. -/
def placeUnits : Nat → Nat → List Byte → NMap (List Byte) → NMap (List Byte)
  | 0, _, _, m => m
  | f + 1, u, bs, m =>
    if bs = [] then m
    else placeUnits f (u + 1) (bs.drop 16) (if (NMap.find? m u).isSome then m else NMap.insert m u (bs.take 16))

def heldDone (h : Held) : Bool := h.bad || h.parts.length = h.mlen
def heldBytes (h : Held) : List Byte := (h.parts.map Prod.snd).flatten

/-- A fragment placed (R370). -/
def heldPut (h : Held) (m : Message) : Held :=
  if mgLen m ≠ h.mlen ∨ h.mlen < mgOfs m + ceilDiv m.body.length 16 then { h with bad := true }
  else { h with parts := placeUnits (ceilDiv m.body.length 16) (mgOfs m) m.body h.parts }

/-- A whole message is checked. -/
def heldCheck (s : Shard) (h : Held) : Held := if heldDone h && !imageOk s (heldBytes h) then { h with bad := true } else h

/-- The part of a history region that holds the pending store and the copies of R345 changes: how they lie in it the spec does
not say, so its bytes become free values (log entry 64). -/
def pendChurn (d : Dev) (s : Shard) : Dev :=
  let ring := 8 * (2 * s.a4 + s.csz)
  churn d (slAcc d) (s.hist + ring) (4096 * s.w 20 - ring)

def isHeld (j k : Nat) (h : Held) : Bool := h.site = j && h.ostep = k

/-- A contribution in the pending store or among the copies of R345. -/
def findHeld (s : Shard) (j k : Nat) : Option Held :=
  (s.pend.find? (isHeld j k)).or (((s.copies : List (Nat × List Held)).flatMap Prod.snd).find? (isHeld j k))

/-! ### The ledger (R342, R343) -/

def rcStep (r : LRec) : Nat := fld r.hdr 31 0
def rcEpoch (r : LRec) : Nat := fld r.hdr 47 32
def rcSite (r : LRec) : Nat := fld r.hdr 55 48
def rcKind (r : LRec) : Nat := fld r.hdr 59 56
def rcIstep (r : LRec) : Nat := fld r.hdr 111 64
def rcDig (r : LRec) : Nat := fld r.hdr 255 128
def rcLo (r : LRec) : Nat := fld r.hdr 287 256
def rcAbs (x : Sluice) (r : LRec) : Nat := absStep x (rcEpoch r) (rcStep r)
def enSite (e : W64) : Nat := fld e 7 0
def enDisp (e : W64) : Nat := fld e 9 8
def enStep (e : W64) : Nat := fld e 63 32

/-- A record's bytes, padded to a multiple of 64. -/
def rcBytes (r : LRec) : List Byte := toBytes 64 r.hdr.toNat ++ padTo 64 (r.ents.flatMap fun e => toBytes 8 e.toNat)
def rcOk (r : LRec) : Bool := fld r.hdr 511 480 = crc32c ((toBytes 64 r.hdr.toNat).take 60) && fld r.hdr 127 112 = r.ents.length

/-- A header with its CRC-32C over bytes 0 to 59. -/
def rcSeal (n : Nat) : BitVec 512 :=
  BitVec.ofNat 512 (n % 2 ^ 480 + (crc32c (toBytes 60 n)) <<< 480)

/-- The record that bytes hold, with its length; none where they are too few. -/
def rcParse (bs : List Byte) : Option (LRec × Nat) :=
  let n := leAt bs 14 2
  let len := 64 + pad64 (8 * n)
  if bs.length < 64 ∨ bs.length < 64 + 8 * n then none
  else some (⟨BitVec.ofNat 512 (leAt bs 0 64), (List.range n).map fun i => BitVec.ofNat 64 (leAt bs (64 + 8 * i) 8)⟩, len)

/-- A record of this site at an outer step: kind, step, inner step, lo, digest, entries. -/
def mkRec (x : Sluice) (kind k istep lo dig : Nat) (ents : List W64) : LRec :=
  ⟨rcSeal (wireStep x k + (epochNo x k % 65536) <<< 32 + scSite x <<< 48 + kind <<< 56 + (istep % 2 ^ 48) <<< 64
      + (ents.length % 65536) <<< 112 + dig <<< 128 + (lo % 2 ^ 32) <<< 256 + (((membersAt x k).length - 1) % 256) <<< 288
      + ((x.ledger.length + x.backlog.length) % 2 ^ 32) <<< 448), ents⟩

/-- The place in the ring where a record of so many bytes goes from a place. -/
def ringAt (size p len : Nat) : Nat := if size < p + len then 64 else p

/-- The places of the records written so far. -/
def ringPlaces (size : Nat) : Nat → List LRec → List (Nat × Nat)
  | _, [] => []
  | p, r :: rs =>
    let n := (rcBytes r).length
    let q := ringAt size p n
    (q, n) :: ringPlaces size (q + n) rs

/-- The keeper's control line: the records that software has drained. -/
def ringDrained (d : Dev) : Dev × Nat :=
  match memRead d (slAcc d) (scLbase d.sluice + 8) 8 with
  | (d, .ok bs) => (d, ofBytes bs)
  | (d, .error _) => (d, 0)

/-- A record fits without overwriting one that is not drained. -/
def ringFits (x : Sluice) (dseq : Nat) (r : LRec) : Bool :=
  let n := (rcBytes r).length
  let q := ringAt (scLsize x) x.wpos n
  q + n ≤ scLsize x && ((ringPlaces (scLsize x) 64 x.ledger).drop dseq).all fun p => q + n ≤ p.1 || p.1 + p.2 ≤ q

/-- A record written into the ring, with the control line's wseq. -/
def ringWrite (d : Dev) (r : LRec) : Dev :=
  let x := d.sluice
  let bs := rcBytes r
  let q := ringAt (scLsize x) x.wpos bs.length
  let d := (memWrite d (slAcc d) (scLbase x + q) bs).1
  let d := (memWrite d (slAcc d) (scLbase x) (toBytes 8 (x.ledger.length + 1))).1
  onSluice d fun x => { x with ledger := x.ledger ++ [r], wpos := q + bs.length }

/-- The records that wait for room, written as far as they fit. -/
def flushGo : Nat → Dev → Dev
  | 0, d => d
  | n + 1, d =>
    match d.sluice.backlog with
    | [] => d
    | r :: rs =>
      let (d, dseq) := ringDrained d
      if ringFits d.sluice dseq r then flushGo n (ringWrite (onSluice d fun x => { x with backlog := rs }) r) else d

/-- What waits for room in the ring is tried anew: a COMMIT record that did not fit may go on once software has moved dseq
(R342). -/
def flushLedger (d : Dev) : Dev :=
  let d := match d.sluice.full with
    | none => d
    | some q => let (d, dseq) := ringDrained d; if dseq = q then d else onSluice d fun x => { x with full := none }
  flushGo d.sluice.backlog.length d

/-- A record of the site: into the ring at the keeper, behind those that wait for room. -/
def putRec (d : Dev) (r : LRec) : Dev := flushLedger (onSluice d fun x => { x with backlog := x.backlog ++ [r] })

/-- A message for a partner waits for a path (R365). -/
def sendOut (d : Dev) (m : Message) (sites : List Nat) : Dev := onSluice d fun x => { x with out := x.out ++ sites.map fun j => (j, m) }
def partners (x : Sluice) (k : Nat) : List Nat := (membersAt x k).filter (· ≠ scSite x)
/-- What Sluice sends to the other devices of its site, in class C4 over the levee fabric. -/
def sendSite (d : Dev) (m : SiteMsg) : Dev :=
  onSluice d fun x => { x with fab := x.fab ++ ((siteDevs d).filter (· ≠ selfId d)).map fun v => (v, m) }
def recMsg (r : LRec) : Message := mkMsg 2 (rcSite r) (rcEpoch r) (rcStep r) 0 (rcBytes r)
/-- A record as a ledger notice to every other member. -/
def sendRec (d : Dev) (r : LRec) (k : Nat) : Dev := sendOut d (recMsg r) (partners d.sluice k)
/-- A record to every device of the site (R340). -/
def siteRec (d : Dev) (r : LRec) : Dev := sendSite d (.record (recMsg r))
/-- A record at its place in this site's ledger (R343). -/
def reseat (x : Sluice) (r : LRec) : LRec := ⟨rcSeal (setBits r.hdr.toNat 479 448 (x.ledger.length + x.backlog.length)), r.ents⟩

/-- A federation notice (R423, kind 4). -/
def fedNotice (d : Dev) (status : Code) (info : Nat) : Dev := notice d 4 (some d.sluice.polder) status info

/-- Own COMMIT records and what they list. -/
def commits (x : Sluice) : List LRec := x.ledger.filter fun r => rcKind r = 1
def committed (x : Sluice) : Nat := (commits x).foldl (fun n r => max n (rcAbs x r)) 0
def commitAt (x : Sluice) (k : Nat) : Option LRec := (commits x).find? fun r => rcAbs x r = k
/-- The contributions that a record names, with their dispositions. -/
def entsOf (x : Sluice) (r : LRec) : List (Nat × Nat × Nat) :=
  r.ents.map fun e => (enSite e, entStep x (rcAbs x r) (enStep e), enDisp e)
/-- A COMMIT record of the site or a RECONCILE record that it adopted lists the contribution. -/
def listed (x : Sluice) (j k : Nat) : Bool :=
  (x.ledger ++ x.backlog).any fun r => (rcKind r = 1 || rcKind r = 3) && (entsOf x r).any fun e => e.1 = j && e.2.1 = k

/-! ### Reports (R339) -/

/-- Every device of the site reports that it holds the contribution. A keeper that owns no shard lacks nothing. -/
def siteHolds (d : Dev) (j k : Nat) : Bool :=
  (siteDevs d).all fun v => d.sluice.reports.contains (v, j, k) || (v = selfId d && shardsOf d = [])

/-- This device holds the contribution for every shard it owns: its own report, which goes to the keeper with whether one of
its shards holds it as malformed. -/
def reportOwn (d : Dev) (j k : Nat) : Dev :=
  if (shardsOf d).all (fun e => (findHeld e.2 j k).any heldDone) ∧ !d.sluice.reports.contains (selfId d, j, k) then
    let d := onSluice d fun x => { x with reports := x.reports ++ [(selfId d, j, k)] }
    if isKeeper d then d
    else
      let bad := (shardsOf d).any fun e => (findHeld e.2 j k).any Held.bad
      onSluice d fun x => { x with fab := x.fab ++ [(scKeeper x, .report j k bad)] }
  else d

/-- The newest step n_j of a member (R346); a joiner begins at the step before its first. -/
def newestOf (d : Dev) (j : Nat) : Nat :=
  let x := d.sluice
  let seen := ((x.reports.filter fun r => r.2.1 = j && siteHolds d j r.2.2).map fun r => r.2.2)
    ++ (x.ledger.flatMap fun r => if rcKind r = 1 ∨ rcKind r = 3 then
        ((entsOf x r).filter fun e => e.1 = j).map fun e => e.2.1 else [])
    ++ (x.epochs.filter fun e => e.taken && (NMap.find? e.sources j).isSome).map fun e => e.k0 - 1
  seen.foldl max 0

/-- A fragment of a contribution placed by its owner: false when the pending store is full (R338). One that a record lists is left
out, but not what a joiner fetches with the record that lists it (R355). -/
def placeMessage (d : Dev) (m : Message) (fetched : Bool) : Dev × Bool :=
  let x := d.sluice
  let j := mgOrig m
  let k := absStep x (mgEpoch m) (mgStep m)
  match NMap.find? x.shards (mgShard m) with
  | none => (d, true)
  | some s =>
    if !fetched && listed x j k then (d, true)
    else
      let old := findHeld s j k
      if old.any heldDone then (d, true)
      else if old = none ∧ scS x + scP x + 1 ≤ (s.pend.filter fun h => h.site = j).length then (d, false)
      else
        let h := heldCheck s (heldPut (old.getD { site := j, epoch := mgEpoch m, ostep := k, mlen := mgLen m }) m)
        let d := onShard (pendChurn d s) (mgShard m) fun s => { s with pend := (s.pend.filter fun y => !isHeld j k y) ++ [h] }
        (if heldDone h then reportOwn d j k else d, true)

def placeContribution (d : Dev) (m : Message) : Dev × Bool := placeMessage d m false

/-! ### The merge (R341) -/

/-- wt[s]: the weight of a contribution s outer steps late. -/
def weight (beta : F32) : Nat → F32
  | 0 => one32
  | s + 1 => fmul (weight beta s) beta

/-- FP32 values of little-endian bytes, and back. -/
def f32s (n : Nat) (bs : List Byte) : List F32 := (List.range n).map fun i => BitVec.ofNat 32 (leAt bs (4 * i) 4)
def f32Bytes (l : List F32) : List Byte := l.flatMap fun v => toBytes 4 v.toNat

/-- One contribution folded into the sums. -/
def foldIn (wt : F32) (acc vals : List F32) : List F32 :=
  List.zipWith (fun a v => ffma wt (if ffinite v then v else 0) a) acc vals

/-- m of step k: the members that its record counts, else those of the epoch in force. -/
def stepMembers (x : Sluice) (k : Nat) : Nat :=
  match commitAt x k with
  | some r => fld r.hdr 295 288 + 1
  | none => (membersAt x k).length

/-- Contributions that are all here and whole. -/
def allHeld (s : Shard) (ents : List (Nat × Nat)) : Bool := ents.all fun e => (findHeld s e.1 e.2).any heldDone

/-- The merged update of step k over the contributions (site, step) applied, in order. -/
def mergeD (x : Sluice) (s : Shard) (k : Nat) (ents : List (Nat × Nat)) : List F32 :=
  let acc := ents.foldl (fun acc e =>
    match findHeld s e.1 e.2 with
    | some h => foldIn (weight (scBeta x) (k - e.2)) acc (imgVals s (heldBytes h))
    | none => acc) (List.replicate s.n (0 : F32))
  let inv := fdiv one32 (rne32 (.fin false (stepMembers x k) 0))
  acc.map fun a => fmul a inv

/-- How many elements of the contributions applied are NaN or infinite (R341). -/
def mergeNonfin (s : Shard) (ents : List (Nat × Nat)) : Nat :=
  ents.foldl (fun n e => n + ((findHeld s e.1 e.2).elim 0 fun h => ((imgVals s (heldBytes h)).filter fun v => !ffinite v).length)) 0

/-- Contributions that the site's own record of step k applies. -/
def applied (x : Sluice) (k : Nat) : List (Nat × Nat) :=
  match commitAt x k with
  | none => []
  | some r => ((entsOf x r).filter fun e => e.2.2 = 0).map fun e => (e.1, e.2.1)

/-- A COMMIT record up to step k or a RECONCILE record that the site adopted lists the contribution. -/
def spent (x : Sluice) (k : Nat) (h : Held) : Bool :=
  (x.ledger ++ x.backlog).any fun r => ((rcKind r = 1 && rcAbs x r ≤ k) || rcKind r = 3) &&
    (entsOf x r).any fun e => e.1 = h.site && e.2.1 = h.ostep

/-- Contributions that leave the pending store with record k: those applied become copies of the next anchor (R345). -/
def takeListed (x : Sluice) (s : Shard) (k : Nat) (ents : List (Nat × Nat)) : Shard :=
  { s with
    copies := NMap.insert s.copies (k + 1) (ents.filterMap fun e => findHeld s e.1 e.2)
    pend := s.pend.filter fun h => !spent x k h }

/-- The entries that a rebuild applies at step i (R351): the proposal's group, or the own record without what it lists. -/
def rebuildEnts (x : Sluice) (p : LRec) (i : Nat) : List (Nat × Nat) :=
  let all := (entsOf x p).map fun e => (e.1, e.2.1)
  if i ≤ rcAbs x p then all.filter fun e => e.2 = i else (applied x i).filter fun e => !all.contains e

/-- R310's arithmetic over a shard. -/
def outerAll (x : Sluice) (u a dl : List F32) : List F32 × List F32 :=
  let r := List.zipWith (fun (p : F32 × F32) dv => outerElem (scEta x) (scMu x) p.1 p.2 dv) (List.zip u a) dl
  (r.map fun y => y.1, r.map fun y => y.2.1)

/-- The anchors and momenta from step i on, n of them, each written to its history entry. -/
def rebuildGo (x : Sluice) (p : LRec) (acc : Acc) (s : Shard) : Nat → Nat → List F32 → List F32 → Dev → Shard → Dev × Shard × List F32 × List F32
  | 0, _, u, a, d, s' => (d, s', u, a)
  | n + 1, i, u, a, d, s' =>
    let es := rebuildEnts x p i
    let (u, a) := outerAll x u a (mergeD x s i es)
    let d := (memWrite d acc (s.entry (i + 1)) (f32Bytes a)).1
    let d := (memWrite d acc (s.entry (i + 1) + s.a4) (f32Bytes u)).1
    rebuildGo x p acc s n (i + 1) u a d { s' with
      copies := NMap.insert s'.copies (i + 1) (es.filterMap fun e => findHeld s e.1 e.2), nonfin := s'.nonfin + mergeNonfin s es }

/-- The merged update of a shard formed and written to its merge slot (R334, R341, R351). -/
def mergeFormed (d : Dev) (id : Nat) : Dev :=
  let x := d.sluice
  match NMap.find? x.shards id with
  | none => d
  | some s =>
    let k := s.toMerge
    let rebuilt : Option LRec := match x.adopting with | some (p, b) => if b = k + 1 then some p else none | none => none
    if s.merge.isSome then d
    else
      match rebuilt with
      | some p =>
        let c := absStep x (rcEpoch p) (rcLo p)
        if !(List.range (k + 1 - c)).all fun i => allHeld s (rebuildEnts x p (c + i)) then d
        else
        match memRead d (slAcc d) (s.entry c) (s.a4 + 4 * s.n) with
        | (d, .error _) => d
        | (d, .ok bs) =>
          let (d, s', u, a) := rebuildGo x p (slAcc d) s (k + 1 - c) c (f32s s.n (bs.drop s.a4)) (f32s s.n bs) d s
          let d := (memWrite d (slAcc d) s.slot (f32Bytes a ++ f32Bytes u)).1
          onShard (pendChurn d s) id fun s => { s with
            copies := s'.copies, nonfin := s'.nonfin, pend := s.pend.filter (fun h => !spent x k h), merge := some (k, true) }
      | none =>
        let es := applied x k
        if (k = 0 ∨ (commitAt x k).isSome) ∧ allHeld s es then
          let d := (memWrite d (slAcc d) s.slot (f32Bytes (mergeD x s k es))).1
          onShard (pendChurn d s) id fun s => { takeListed x s k es with
            merge := some (k, false), nonfin := s.nonfin + mergeNonfin s es }
        else d

/-! ### Holds, adoptions and the release of a boundary (R339, R346 to R351) -/

/-- A member other than the own site is silent beyond the pause bound. -/
def silent (d : Dev) (k : Nat) : Bool := (partners d.sluice k).any fun j => newestOf d j + scP d.sluice < k

/-- Members whose declaration of an epoch differs, as far as their frames have told. -/
def disagree (x : Sluice) (k : Nat) : Bool :=
  x.epochs.any fun e => !e.taken && e.k0 ≤ k &&
    ((setPositions 256 e.members.toNat).filter (· ≠ scSite x)).any fun j => (NMap.find? x.mdigs j).any fun m => m ≠ e.mdig

/-- The anchor from which a proposal rebuilds is in every shard's history. -/
def anchorKept (d : Dev) (p : LRec) : Bool :=
  let c := absStep d.sluice (rcEpoch p) (rcLo p)
  (shardsOf d).all fun e => c ≤ e.2.newest && e.2.newest < c + 8

/-- Why the keeper holds at boundary k; the first in the order of R348's table. -/
def holdCause (d : Dev) (k : Nat) : Option Code :=
  let x := d.sluice
  if silent d k then some 0x0704
  else if wireStep x k = 0xFFFFFFFF then some 0x0705
  else if x.backlog ≠ [] ∨ x.full.isSome then some 0x0706
  else if x.proposal.any (fun p => !anchorKept d p) then some 0x0707
  else if x.differs then some 0x0708
  else if disagree x k then some 0x0709
  else if x.diverged.isSome then some 0x070A
  else none

/-- A proposal may be adopted at boundary k (R351). -/
def adoptable (d : Dev) (k : Nat) (p : LRec) : Bool :=
  let es := entsOf d.sluice p
  anchorKept d p && rcAbs d.sluice p < k && es.all (fun e => siteHolds d e.1 e.2.1)
    && (shardsOf d).all fun s => allHeld s.2 (es.map fun e => (e.1, e.2.1))

/-- The proposal that boundary k adopts: in replay the recorded one whose istep names the boundary. -/
def adoptionAt (d : Dev) (k : Nat) : Option LRec :=
  let x := d.sluice
  match x.replay.find? fun r => rcKind r = 3 && rcIstep r = boundaryAt x k with
  | some r => some r
  | none => x.proposal.filter (adoptable d k)

/-- The proposal adopted: every shard forms its merge anew, and the record is written with the boundary. -/
def adopt (d : Dev) (k : Nat) : Dev :=
  match adoptionAt d k with
  | none => d
  | some p =>
    let x := d.sluice
    let r := reseat x ⟨BitVec.ofNat 512 (setBits p.hdr.toNat 111 64 (boundaryAt x k)), p.ents⟩
    siteRec (putRec (onSluice d fun x => { x with
      adopting := some (r, k), proposal := none
      replay := x.replay.filter fun y => !(rcKind y = 3 && rcIstep y = boundaryAt x k)
      shards := NMap.mapVals x.shards fun _ s => { s with merge := none } }) r) r

/-- The entries of a MEMBERSHIP record. -/
def memberEnts (e : Epoch) : List W64 :=
  (setPositions 256 e.members.toNat).map fun j =>
    match NMap.find? e.sources j with
    | some src => BitVec.ofNat 64 (j + 1 <<< 8 + src <<< 32)
    | none => BitVec.ofNat 64 j

/-- In replay a recorded MEMBERSHIP takes the place of a declaration. -/
def replayEpoch (d : Dev) (k : Nat) : Dev :=
  match d.sluice.replay.find? fun r => rcKind r = 4 && x0 r ≤ k with
  | none => d
  | some r =>
    let mem := r.ents.foldl (fun (m : BitVec 256) e => m ||| BitVec.ofNat 256 (2 ^ enSite e)) 0
    let src : NMap Nat := r.ents.foldl (fun m e => if enDisp e = 1 then NMap.insert m (enSite e) (enStep e % 256) else m) []
    onSluice d fun x => { x with
      epochs := ⟨rcEpoch r, x.wraps.headD 0 + rcStep r, mem, src, 0, false⟩ :: x.epochs.filter (·.taken)
      replay := x.replay.filter (· ≠ r) }
where x0 (r : LRec) : Nat := d.sluice.wraps.headD 0 + rcStep r

/-- Epochs that take effect by boundary k, with their records. -/
def takeEpochs (d : Dev) (k : Nat) : Dev :=
  let d := replayEpoch d k
  match d.sluice.epochs with
  | [] => d
  | e :: es =>
    if e.taken ∨ k < e.k0 ∨ disagree d.sluice k then d
    else
      let d := onSluice d fun x => { x with epochs := { e with taken := true } :: es }
      putRec d (mkRec d.sluice 4 e.k0 (d.sluice.istep.getD 0) 0 0 (memberEnts e))

/-- A hold begins (R346). -/
def startHold (d : Dev) (st : Code) (k : Nat) : Dev :=
  let d := putRec d (mkRec d.sluice 5 k (d.sluice.istep.getD 0) st.toNat 0 [])
  let d := onSluice d fun x => { x with hold := some (st, k) }
  let step := if st = 0x070A then d.sluice.diverged.getD k else k
  fedNotice d st (wireStep d.sluice step <<< 96)

/-- The boundary released: an adoption is decided first, and a merge that is not ready is counted (R341). -/
def releaseBoundary (d : Dev) (k : Nat) : Dev :=
  let d := adopt d k
  let d := if (shardsOf d).any fun e => e.2.merge.isNone then count d 5 0 0x808 1 (some d.sluice.polder) else d
  sendSite (onSluice d fun x => { x with rel := some k, hold := none }) (.release k)

/-- What the keeper does at boundary k before any commit (R339). -/
def boundary (d : Dev) (k : Nat) : Dev :=
  let d := takeEpochs (flushLedger (onSluice d fun x => { x with bnd := some k })) k
  match holdCause d k with
  | some st => startHold d st k
  | none => releaseBoundary d k

/-! ### The commit (R339, R340, R358) -/

def pairLe (a b : Nat × Nat) : Bool := a.1 < b.1 || (a.1 = b.1 && a.2 ≤ b.2)
def pairInsert (p : Nat × Nat) : List (Nat × Nat) → List (Nat × Nat)
  | [] => [p]
  | q :: l => if p = q then q :: l else if pairLe p q then p :: q :: l else q :: pairInsert p l
/-- Pairs in ascending order, each once. -/
def pairSort (l : List (Nat × Nat)) : List (Nat × Nat) := l.foldr pairInsert []

/-- How a record of step k lists a contribution (R340, R355). -/
def disposition (d : Dev) (k : Nat) (e : Nat × Nat) : Nat :=
  let x := d.sluice
  if !(membersAt x e.2).contains e.1 then 3
  else if x.badIn.contains e || (shardsOf d).any fun s => (findHeld s.2 e.1 e.2).any Held.bad then 2
  else if scS x < k - e.2 then 1
  else 0

/-- The entries of COMMIT record k. -/
def commitEnts (d : Dev) (k : Nat) : List W64 :=
  let x := d.sluice
  ((pairSort ((x.reports.map fun r => r.2).filter fun e => e.2 ≤ k && siteHolds d e.1 e.2 && !listed x e.1 e.2))).map fun e =>
    BitVec.ofNat 64 (e.1 + (disposition d k e) <<< 8 + (wireStep x e.2) <<< 32)

/-- The outer deadline of step k has passed. -/
def pastDeadline (x : Sluice) (k : Nat) : Bool := x.istep.any fun v => boundaryAt x k + scDl x ≤ v + 1

/-- The record that commits step k now; none where it has to wait. -/
def commitNow (d : Dev) (k : Nat) : Option LRec :=
  let x := d.sluice
  match x.replay.find? fun r => rcKind r = 1 && rcAbs x r = k with
  | some r => if (entsOf x r).all fun e => e.2.2 ≠ 0 || siteHolds d e.1 e.2.1 then some r else none
  | none =>
    if x.replay.any fun r => rcKind r = 1 then none
    else if siteHolds d (scSite x) k && ((membersAt x k).all (fun j => siteHolds d j k) || pastDeadline x k) then
      some (mkRec x 1 k (x.istep.getD 0) 0 0 (commitEnts d k))
    else none

/-- The answer of a source to a joiner's fetch (R355): the anchor, momentum and record, then each contribution that the record
applies; a fetch that comes too late ends with status 0x0709. -/
def joinerAnswer (d : Dev) (j : Nat) (m : Message) : Dev :=
  let x := d.sluice
  let k := absStep x (mgEpoch m) (mgStep m)
  let st (body : List Byte) : Message := mkMsg 5 j (mgEpoch m) (mgStep m) (mgShard m) body
  match NMap.find? x.shards (mgShard m) with
  | none => d
  | some s =>
    if k + 8 ≤ s.newest then sendOut d (st []) [j]
    else
      match memRead d (slAcc d) (s.entry k) (2 * s.a4) with
      | (d, .error _) => sendOut d (st []) [j]
      | (d, .ok bs) =>
        let r := (commitAt x k).elim [] rcBytes
        let d := sendOut d (st (bs ++ r)) [j]
        (applied x k).foldl (fun d e =>
          match findHeld s e.1 e.2 with
          | some h => sendOut d (mkMsg 5 e.1 h.epoch (wireStep x e.2) (mgShard m) (heldBytes h)) [j]
          | none => d) d

/-- A shard can answer a fetch of anchor k: it has formed it and holds the record of that step, or it comes too late. Step 0 of
a new federation has no record. -/
def fetchReady (x : Sluice) (s : Shard) (k : Nat) : Bool :=
  k + 8 ≤ s.newest || (k ≤ s.newest && (k = 0 || (commitAt x k).isSome))

/-- Fetches that waited for an anchor that is now formed, or for its record. -/
def answerFetches (d : Dev) : Dev :=
  let x := d.sluice
  let ready (e : Nat × Message) : Bool :=
    match NMap.find? x.shards (mgShard e.2) with | some s => fetchReady x s (absStep x (mgEpoch e.2) (mgStep e.2)) | none => true
  let d' := onSluice d fun x => { x with fetches := x.fetches.filter fun e => !ready e }
  (x.fetches.filter ready).foldl (fun d e => joinerAnswer d e.1 e.2) d'

/-- Commits from the first open step on, while one is ready and the ring has room: a record that does not fit is not committed
before software moves dseq (R342). -/
def commitGo : Nat → Dev → Dev
  | 0, d => d
  | n + 1, d =>
    let k := committed d.sluice + 1
    if d.sluice.backlog ≠ [] ∨ d.sluice.full.isSome ∨ d.sluice.bnd.getD 0 < k then d
    else
      match commitNow d k with
      | none => d
      | some r =>
        let (d, dseq) := ringDrained d
        if !ringFits d.sluice dseq r then onSluice d fun x => { x with full := some dseq }
        else
          let d := onSluice d fun x => { x with replay := x.replay.filter (· ≠ r) }
          commitGo n (siteRec (sendRec (putRec d r) r k) r)

/-- The commits that are ready, and the fetches that waited for their records. -/
def evalCommits (d : Dev) : Dev := answerFetches (commitGo (d.sluice.bnd.getD 0) (flushLedger d))

/-- While the site is held, records commit when they are complete (R347). -/
def heldCommits (d : Dev) : Dev := if isKeeper d && d.sluice.hold.isSome then evalCommits d else d

/-- The inner step v ends at the deadline of a step whose own contribution is missing: the wait is counted (R339). -/
def ownWait (d : Dev) (v : Nat) : Bool :=
  let x := d.sluice
  let k := (v + 1 - scDl x - scB0 x) / scH x
  1 ≤ k && k ≤ x.bnd.getD 0 && boundaryAt x k + scDl x = v + 1 && committed x < k && !siteHolds d (scSite x) k

/-! ### Divergence (R349 to R352) -/

/-- The records of a member that this site holds. -/
def recsOf (x : Sluice) (j : Nat) : List LRec :=
  if j = scSite x then x.ledger else (x.notices.filter fun e => e.1 = j).map Prod.snd
def anchorDig (x : Sluice) (j k : Nat) : Option Nat :=
  ((recsOf x j).find? fun r => rcKind r = 2 && rcAbs x r = k).map rcDig
def commitOf (x : Sluice) (j k : Nat) : Option LRec := (recsOf x j).find? fun r => rcKind r = 1 && rcAbs x r = k
def latestOf (x : Sluice) (j : Nat) : Nat :=
  ((recsOf x j).filter fun r => rcKind r = 1).foldl (fun n r => max n (rcAbs x r)) 0

/-- The members now, and the leader: the one with the lowest id. -/
def membersNow (x : Sluice) : List Nat := membersAt x (x.bnd.getD 0)
def isLeader (x : Sluice) : Bool := (membersNow x).head? = some (scSite x)

/-- Digests of a step that are known differ, and digests of every member are known and agree; A_0 is common. -/
def digsDiffer (x : Sluice) (k : Nat) : Bool :=
  let l := (membersNow x).filterMap fun j => anchorDig x j k
  l.any fun a => l.any fun b => a ≠ b
def digsAgree (x : Sluice) (k : Nat) : Bool :=
  k = 0 || (!digsDiffer x k && (membersNow x).all fun j => (anchorDig x j k).isSome)

/-- The last proposal sent has been adopted by every member, or a hold of 0x0707 or 0x0708 has begun. -/
def proposalOver (x : Sluice) : Bool :=
  let last := x.proposal.or ((x.ledger ++ x.backlog).reverse.find? fun r => rcKind r = 3)
  match last with
  | none => true
  | some p =>
    x.hold.any (fun h => h.1 = 0x0707 || h.1 = 0x0708)
      || ((List.range (x.bnd.getD 0 + 1)).any fun a => rcAbs x p + 1 < a && digsAgree x a)

/-- The proposal that the leader forms (R349). -/
def proposalOf (x : Sluice) : Option LRec :=
  let ms := membersNow x
  let kk := ms.foldl (fun n j => min n (latestOf x j)) (committed x)
  match (List.range (kk + 2)).find? (digsDiffer x) with
  | none => none
  | some first =>
    let c := ((List.range first).filter (digsAgree x)).foldl max 0
    let steps := (List.range (kk + 1 - c)).map (· + c)
    let full := steps.all fun k => k = 0 || ms.all fun j => (commitOf x j k).isSome
    let seen (j k : Nat) : Bool := ms.any fun i => (recsOf x i).any fun r =>
      rcKind r = 1 && (entsOf x r).any fun e => e.1 = j && e.2.1 = k
    let ents := steps.flatMap fun k => ((membersAt x k).filter fun j => seen j k).map fun j =>
      (BitVec.ofNat 64 (j + (wireStep x k) <<< 32) : W64)
    if full then some (mkRec x 3 kk 0 (wireStep x c) 0 ents) else none

/-- The leader sends a proposal where it may. -/
def tryPropose (d : Dev) : Dev :=
  let x := d.sluice
  if isKeeper d && isLeader x && x.replay = [] && proposalOver x then
    match proposalOf x with
    | none => d
    | some p => sendRec (onSluice d fun x => { x with proposal := some p }) p (x.bnd.getD 0)
  else d

/-- What a member's own records after K list, without what the proposal lists. -/
def tailOf (x : Sluice) (p : LRec) (k j : Nat) : List (List (Nat × Nat)) :=
  let all := (entsOf x p).map fun e => (e.1, e.2.1)
  ((List.range k).filter (rcAbs x p < ·)).map fun i =>
    match commitOf x j i with
    | none => []
    | some r => ((entsOf x r).filter fun e => e.2.2 = 0 && !all.contains (e.1, e.2.1)).map fun e => (e.1, e.2.1)

/-- The leader compares the digests of its adoption step (R352). -/
def compareAdoption (d : Dev) : Dev :=
  let x := d.sluice
  match x.adopting with
  | none => d
  | some (p, k) =>
    let ms := membersNow x
    let me := scSite x
    if isKeeper d && isLeader x && !x.warned.contains k && ms.all (fun j => (anchorDig x j k).isSome) &&
        ms.any (fun j => tailOf x p k j = tailOf x p k me && anchorDig x j k ≠ anchorDig x me k) then
      let d := onSluice d fun x => { x with warned := k :: x.warned }
      let body := toBytes 16 0x0708 ++ toBytes 16 ((anchorDig x me k).getD 0)
      fedNotice (sendOut d (mkMsg 3 me (epochNo x k) (wireStep x k) 0 body) (partners x k)) 0x0708 (wireStep x k <<< 96)
    else d

/-! ### Events (R333, R334, R339, R344, R347) -/

/-- The header of the own image (R371), from what the boundary program left in the own-contribution area (R332): the program
writes the image's parts at their places, and Sluice the header in front of them. The side list counts with its capacity, so
that the places do not depend on the values. -/
def ownHeader (x : Sluice) (s : Shard) (b : List Byte) : List Byte :=
  let rows := s.n / s.ext0
  let side := 64 + pad64 (4 * s.ext0)
  let sbytes := sideOfs rows + 8 * leAt b side 4
  let vq := flag x.cfg 56
  let blocks := cmpBlocks (imgTd s)
  let table := side + pad64 sbytes
  let cbytes := if vq then 32 * leAt b (table + 32 + 4 * blocks) 4 else rows * n4Row s
  let ibytes := if vq then 32 + 4 * (blocks + 1) else 0
  toBytes 64 ((if vq then 2 else 1) + s.ext0 % 2 ^ 24 * 2 ^ 8 + s.n % 2 ^ 32 * 2 ^ 32 + s.ext0 % 2 ^ 32 * 2 ^ 64
    + sbytes % 2 ^ 32 * 2 ^ 96 + cbytes % 2 ^ 32 * 2 ^ 128 + ibytes % 2 ^ 32 * 2 ^ 160)

/-- The own contribution to step k as the history entry holds it, with its header written there; empty where it cannot be read. -/
def ownImage (d : Dev) (s : Shard) (k : Nat) : Dev × List Byte :=
  let a := s.entry k + 2 * s.a4
  match memRead d (slAcc d) a s.csz with
  | (d, .error _) => (d, [])
  | (d, .ok bs) =>
    let h := ownHeader d.sluice s bs
    let bs := h ++ bs.drop 64
    ((memWrite d (slAcc d) a h).1, bs.take (16 * ceilDiv (imgAt bs).fin 16))

/-- A write of the ready word (R333). -/
def readyWrite (d : Dev) (id : Nat) (v : W64) : Dev :=
  match NMap.find? d.sluice.shards id with
  | none => d
  | some s =>
    let d := (memWrite d { polder := some d.sluice.polder } s.readyWord (toBytes 8 v.toNat)).1
    let x := d.sluice
    let k := s.next
    if fld v 31 0 ≠ wireStep x k then count d 5 0 0x807 1 (some x.polder)
    else
      let (d, bs) := ownImage d s k
      let e := epochNo x k
      let msg := mkMsg 1 (scSite x) e (wireStep x k) id bs
      let h0 : Held := { site := scSite x, epoch := e, ostep := k, mlen := mgLen msg }
      let d := onShard d id fun s => { s with next := k + 1, pend := s.pend ++ [heldCheck s (heldPut h0 msg)] }
      heldCommits (sendOut (reportOwn d (scSite x) k) msg (partners x k))

/-- The step word may lie at an address: 8 B in the polder's scratchpad shares on the keeper. SLUICE_CONFIG names no address, so
the command does (log entry 64). -/
def stepWordAt (d : Dev) (a : Nat) : Bool :=
  isKeeper d && a % 8 = 0 && (polderOf d d.sluice.polder).any fun x => x.inRect (a / 2 ^ 20) && inShares d x a 8

/-- A write of the step word, which lands as usual: the end of an inner step (R339). -/
def stepWrite (d : Dev) (a : Addr) (v : W64) : Dev :=
  if !stepWordAt d a.toNat then d
  else
  let d := (memWrite d { polder := some d.sluice.polder } a.toNat (toBytes 8 v.toNat)).1
  let x := d.sluice
  if x.istep.any (fun i => v.toNat ≠ i + 1) then count d 5 0 0x807 1 (some x.polder)
  else
    let d := onSluice d fun x => { x with istep := some v.toNat, ownWaits := x.ownWaits + b2n (ownWait d v.toNat) }
    let n := v.toNat + 1 - scB0 x
    let d := if scB0 x + scH x ≤ v.toNat + 1 ∧ n % scH x = 0 ∧ x.on then boundary d (n / scH x) else d
    evalCommits d

/-- A device's report (R339) with whether the contribution is malformed there (R340); while the site is held, records commit
when they are complete (R347). -/
def holdingReport (d : Dev) (dev : Nat) (j w : Nat) (bad : Bool) : Dev :=
  if !isKeeper d then d
  else
    let r := (dev, j, absStep d.sluice (curEpochNo d.sluice) w)
    let d := if d.sluice.reports.contains r then d else onSluice d fun x => { x with
      reports := x.reports ++ [r], badIn := if bad then x.badIn ++ [r.2] else x.badIn }
    heldCommits d

/-- An own contribution of a shard whose history entry the entry of anchor k + 1 overwrites: it is no longer kept (R337). -/
def overwritten (x : Sluice) (id k : Nat) (m : Message) : Bool :=
  mgKind m = 1 && mgShard m = id && absStep x (mgEpoch m) (mgStep m) + 8 ≤ k + 1

/-- The history entry of the new anchor is copied from the one before it, and the merge word is written and posted (R334,
R345). A device other than the keeper learns by the release that an epoch has taken effect, and counts here that a merge is not ready (R341); the keeper does at the release. -/
def mergeRelease (d : Dev) (id : Nat) : Dev :=
  let x := d.sluice
  match NMap.find? x.shards id with
  | none => d
  | some s =>
    match s.merge with
    | none =>
      if isKeeper d ∨ s.toMerge + 1 ≤ x.waited then d
      else count (onSluice d fun x => { x with waited := s.toMerge + 1 }) 5 0 0x808 1 (some x.polder)
    | some (k, act) =>
      if s.out ∨ (isKeeper d ∧ x.rel.getD 0 < k + 1) then d
      else
        let d :=
          if act then d
          else
            match memRead d (slAcc d) (s.entry k) (2 * s.a4) with
            | (d, .ok bs) => (memWrite d (slAcc d) (s.entry (k + 1)) bs).1
            | (d, .error _) => d
        let d := (memWrite d (slAcc d) s.mergeWord (toBytes 8 (wireStep x k + (b2n act) <<< 32))).1
        let d := onShard d id fun s => { s with out := true, copies := NMap.dropKeys s.copies fun a => a + 7 < k + 1 }
        let d := onSluice d fun x => { x with
          out := x.out.filter fun e => !overwritten x id k e.2
          epochs := if isKeeper d then x.epochs else x.epochs.map fun e => if e.k0 ≤ k + 1 then { e with taken := true } else e }
        postSumm d s.tile s.sreg 7 (wireStep x k) false false

/-- A shard digest: the first 16 bytes of SHA-512 over the anchor (R344). -/
def dig16 (bs : List Byte) : BitVec 128 := BitVec.ofNat 128 (ofBytes ((sha512 bs).take 16))

/-- The digests of the anchors of boundary k, shard by shard. -/
def digestGo (k : Nat) : List (Nat × Shard) → Dev → Dev × List (Nat × BitVec 128)
  | [], d => (d, [])
  | (id, s) :: l, d =>
    match memRead d (slAcc d) (s.entry k) (4 * s.n) with
    | (d, .error _) => let (d, r) := digestGo k l d; (d, (id, 0) :: r)
    | (d, .ok bs) => let (d, r) := digestGo k l d; (d, (id, dig16 bs) :: r)

/-- The digests reported of anchor k, in ascending shard id, as one (R344). -/
def siteDigest (x : Sluice) (k : Nat) : Nat :=
  let l := (x.digs.filter fun e => e.1 = k).foldl (fun (m : NMap (BitVec 128)) e => NMap.insert m e.2.1 e.2.2) []
  (dig16 ((l : List (Nat × BitVec 128)).flatMap fun e => toBytes 16 e.2.toNat)).toNat

/-- Every device of the site has reported its digests of anchor k. A keeper that owns no shard has none to report. -/
def digsWhole (d : Dev) (k : Nat) : Bool :=
  (siteDevs d).all fun v => d.sluice.digDevs.contains (k, v) || (v = selfId d && shardsOf d = [])

/-- A device's digests of anchor k at the keeper, which keeps those of the last 8 anchors (R344). -/
def digsTake (d : Dev) (v k : Nat) (l : List (Nat × BitVec 128)) : Dev :=
  onSluice d fun x => { x with
    digs := (x.digs.filter fun e => k < e.1 + 8) ++ l.map fun e => (k, e.1, e.2)
    digDevs := (x.digDevs.filter fun e => k < e.1 + 8) ++ [(k, v)] }

/-- The ANCHOR record of boundary k, once every device has reported (R344); in replay the recorded digest is compared (R358). -/
def anchorRecord (d : Dev) (k : Nat) : Dev :=
  if !digsWhole d k ∨ (d.sluice.ledger ++ d.sluice.backlog).any fun r => rcKind r = 2 && rcAbs d.sluice r = k then d
  else
    let g := siteDigest d.sluice k
    let r := mkRec d.sluice 2 k (d.sluice.istep.getD 0) 0 g []
    let old := d.sluice.replay.find? fun y => rcKind y = 2 && rcAbs d.sluice y = k
    let d := sendRec (putRec d r) r k
    let d := match old with
      | none => d
      | some y =>
        let d := onSluice d fun x => { x with replay := x.replay.filter (· ≠ y) }
        if rcDig y = g then d
        else fedNotice (onSluice d fun x => { x with diverged := x.diverged.or (some k) }) 0x070A (wireStep d.sluice k <<< 96)
    compareAdoption (tryPropose d)

/-- Order 6 has ended on every shard here: the digests of the new anchors go to the keeper (R344). -/
def anchorReport (d : Dev) : Dev :=
  match shardsOf d with
  | [] => d
  | (id0, s0) :: rest =>
    if ((id0, s0) :: rest).any fun e => !e.2.out then d
    else
      let k := s0.toMerge + 1
      let (d, ds) := digestGo k ((id0, s0) :: rest) d
      let d := onSluice d fun x => { x with
        shards := NMap.mapVals x.shards fun _ s => { s with out := false, merge := none, toMerge := s.toMerge + 1, newest := s.toMerge + 1 } }
      let d := answerFetches d
      if isKeeper d then anchorRecord (digsTake d (selfId d) k ds) k
      else onSluice d fun x => { x with fab := x.fab ++ [(scKeeper x, .digests k ds)] }

/-- The keeper takes in another device's digests of an anchor (R344). -/
def digestsRx (d : Dev) (v w : Nat) (l : List (W32 × BitVec 128)) : Dev :=
  let k := absStep d.sluice (curEpochNo d.sluice) w
  if !isKeeper d ∨ d.sluice.digDevs.contains (k, v) then d
  else anchorRecord (digsTake d v k (l.map fun e => (e.1.toNat, e.2))) k

/-- A hold whose cause has ended: RESUME, an adoption, the release (R347). -/
def holdEnd (d : Dev) : Dev :=
  match d.sluice.hold with
  | none => d
  | some (st, k) =>
    let d := takeEpochs (flushLedger d) k
    match holdCause d k with
    | some c => if c = st then d else startHold d c k
    | none => evalCommits (releaseBoundary (putRec d (mkRec d.sluice 6 k (d.sluice.istep.getD 0) 0 0 [])) k)

/-- A record that the own site's keeper sends to the site's devices: its COMMIT records, and a proposal once it adopts it, which
a boundary of its own then names (R351). -/
def fromKeeper (x : Sluice) (r : LRec) : Bool := if rcKind r = 3 then rcIstep r ≠ 0 else rcSite r = scSite x

/-- Such a record at a device other than the keeper. -/
def siteRecord (d : Dev) (r : LRec) : Dev :=
  let d := onSluice d fun x => { x with ledger := x.ledger ++ [r] }
  answerFetches (if rcKind r ≠ 3 then d
    else onSluice d fun x => { x with
      adopting := some (r, (rcIstep r - scB0 x) / scH x), proposal := none
      shards := NMap.mapVals x.shards fun _ s => { s with merge := none } })

/-- A ledger notice, or a record from the own site's keeper (R340, R349), or a notice of the leader (R352). -/
def ledgerNotice (d : Dev) (m : Message) : Dev :=
  let x := d.sluice
  if mgKind m = 2 then
    match rcParse m.body with
    | none => d
    | some (r, _) =>
      if !rcOk r then d
      else if fromKeeper x r then (if isKeeper d then d else siteRecord d r)
      else
        let d := if x.notices.contains (mgOrig m, r) then d else onSluice d fun x => { x with notices := x.notices ++ [(mgOrig m, r)] }
        compareAdoption (tryPropose d)
  else if mgKind m = 3 ∧ leAt m.body 0 2 = 0x0708 then
    let k := absStep x (mgEpoch m) (mgStep m)
    match anchorDig x (scSite x) k with
    | some g => if g = leAt m.body 16 16 then d else onSluice d fun x => { x with differs := true }
    | none => d
  else d

/-- A proposal of the leader (R349, R351): the newest is kept. -/
def proposalRx (d : Dev) (m : Message) : Dev :=
  match rcParse m.body with
  | some (r, _) =>
    if mgKind m = 2 ∧ rcOk r ∧ rcKind r = 3 ∧ (membersNow d.sluice).head? = some (rcSite r) ∧ rcSite r = mgOrig m then
      onSluice d fun x => { x with proposal := some r }
    else d
  | none => d

/-- A joiner's fetch request at its source (R355). -/
def fetchRx (d : Dev) (m : Message) : Dev :=
  let x := d.sluice
  match NMap.find? x.shards (mgShard m) with
  | none => d
  | some s =>
    if mgKind m ≠ 4 then d
    else if !fetchReady x s (absStep x (mgEpoch m) (mgStep m)) then onSluice d fun x => { x with fetches := x.fetches ++ [(mgOrig m, m)] }
    else joinerAnswer d (mgOrig m) m

/-- The joiner installs the anchor by REPLACE: merge slot, merge word with act = 1, history entry, residuals +0, and the
fetched record in its ledger (R355). A hold ends with a RESUME record, since the site rejoins (R348). -/
def install (d : Dev) (id : Nat) (s : Shard) (k : Nat) (bs : List Byte) : Dev :=
  let x := d.sluice
  let a := bs.take (4 * s.n)
  let u := sliceB bs s.a4 (4 * s.n)
  let acc := slAcc d
  let d := (memWrite d acc (s.entry k) (bs.take (2 * s.a4))).1
  let d := (memWrite d acc s.slot (a ++ u)).1
  let d := (memWrite d acc s.residual (zeros (4 * s.n))).1
  let d := (memWrite d acc s.mergeWord (toBytes 8 (wireStep x (k - 1) + 1 <<< 32))).1
  let d := onShard d id fun s => { s with next := k + 1, toMerge := k, newest := k, merge := none, out := false }
  let d := postSumm d s.tile s.sreg 7 (wireStep x (k - 1)) false false
  let d := if d.sluice.hold.isSome ∧ isKeeper d then putRec d (mkRec d.sluice 6 k (d.sluice.istep.getD 0) 0 0 []) else d
  let d := onSluice d fun x => { x with
    bnd := some k, rel := some k, differs := false, proposal := none, hold := none
    istep := if boundaryAt x k = 0 then none else some (boundaryAt x k - 1) }
  match rcParse (bs.drop (2 * s.a4)) with
  | some (r, _) =>
    let same (y : LRec) : Bool := fld y.hdr 63 0 = fld r.hdr 63 0
    if !rcOk r ∨ (d.sluice.ledger ++ d.sluice.backlog).any same then d
    else
      let r := reseat d.sluice r
      if isKeeper d then putRec d r else onSluice d fun x => { x with ledger := x.ledger ++ [r] }
  | none => d

/-- Joiner state (R355): the contributions that the record applies go to the pending store; the state of a shard is
assembled and installed; an empty one ends the fetch with status 0x0709. -/
def joinerRx (d : Dev) (m : Message) : Dev :=
  let x := d.sluice
  let id := mgShard m
  match NMap.find? x.shards id with
  | none => d
  | some s =>
    if mgKind m ≠ 5 then d
    else if mgOrig m ≠ scSite x then (placeMessage d m true).1
    else if mgLen m = 0 then fedNotice d 0x0709 (mgStep m <<< 96 + scSite x <<< 128 + id <<< 176)
    else
      let k := absStep x (mgEpoch m) (mgStep m)
      let h := heldPut (NMap.get x.joining { site := scSite x, epoch := mgEpoch m, ostep := k, mlen := mgLen m } id) m
      if heldDone h ∧ !h.bad ∧ 2 * s.a4 ≤ (heldBytes h).length then
        install (onSluice d fun x => { x with joining := NMap.erase x.joining id }) id s k (heldBytes h)
      else onSluice d fun x => { x with joining := NMap.insert x.joining id h }

/-! ### Commands (R335, R337, R354, R358) -/

/-- A command of family 0x07 under the WIDE grant. -/
def sluiceCmd (f : Dev → Cmd → Dev × Cmd) (d : Dev) (c : Cmd) : Dev × Cmd := if granted d 3 then f d c else (d, c.refuse 0x070B)

/-- The fields of R335 in their ranges. -/
def configOk (d : Dev) (x : Polder) (y : Sluice) : Bool :=
  let dl := fld y.cfg 47 32
  16 ≤ scH y && dl ≤ scH y - 1 && 1 ≤ scS y && scS y ≤ 8 && fld y.cfg 55 52 ≤ scS y
    && flt 0 (scBeta y) && fle (scBeta y) one32 && fle 0 (scEta y) && ffinite (scEta y) && fle 0 (scMu y) && flt (scMu y) one32
    && inTorus d (scKeeper y)
    && (selfId d ≠ scKeeper y || (scLbase y % 4096 = 0 && 16 * 4096 ≤ scLsize y && x.dlo ≤ scLbase y && scLbase y + scLsize y ≤ x.dhi))

def sluiceConfig (d : Dev) (c : Cmd) : Dev × Cmd :=
  let cfg : BitVec 512 := BitVec.ofNat 512 (c.num 0 16)
  match c.polder with
  | none => (d, c.refuse 0x0207)
  | some p =>
    match polderOf d p with
    | none => (d, c.refuse 0x0207)
    | some x =>
      if configOk d x { d.sluice with cfg := cfg } then
        (onSluice d fun y => { y with cfg := cfg, on := true, polder := p }, c.finish)
      else (d, c.refuse 0x0701)

def sluiceShard (d : Dev) (c : Cmd) : Dev × Cmd :=
  match c.polder.bind (polderOf d) with
  | none => (d, c.refuse 0x0207)
  | some x =>
    let s : Shard := { words := NMap.clear c.words 22 64 }
    if shardOk d x s then (onSluice d fun y => { y with shards := NMap.insert y.shards (s.w 0) s }, c.finish)
    else (d, c.refuse 0x070C)

/-- Joiners with their sources: the halves of words 10 to 42 that name two sites. -/
def joinerPairs (c : Cmd) : List (Nat × Nat) :=
  ((List.range 66).map fun i => let h := bits (c.word (10 + i / 2)) (16 * (i % 2) + 15) (16 * (i % 2)); (h % 256, h / 256)).filter
    fun p => p.1 ≠ p.2

/-- The first 8 B of the digest of the declaration's words (R369). -/
def memberDig (c : Cmd) : BitVec 64 := BitVec.ofNat 64 (ofBytes ((sha512 (c.bytes 0 172)).take 8))

/-- The epoch that tells a joining site who the members are: one that removes it counts from its declaration on, since the site
runs no step up to it (R353, R355). -/
def joinBase (x : Sluice) : Option Epoch :=
  match x.epochs with
  | e :: _ => if flag e.members (scSite x) then curEpoch x else some e
  | [] => none

/-- A declaration (R354). A site that it names as a joiner knows no more than its own last epoch, and takes any later number. -/
def sluiceMember (d : Dev) (c : Cmd) : Dev × Cmd :=
  let x := d.sluice
  let no := c.word 0
  let k0 := x.wraps.headD 0 + c.word 1
  let mem : BitVec 256 := BitVec.ofNat 256 (c.num 2 8)
  let pairs := joinerPairs c
  let me := scSite x
  let joins : Bool := pairs.any fun p => p.1 = me
  let cur := if joins then joinBase x else curEpoch x
  let old (j : Nat) : Bool := cur.any fun e => flag e.members j
  let fresh := if cur.isNone then [] else (setPositions 256 mem.toNat).filter fun j => !old j
  let wrap : Bool := x.hold.any fun h => h.1 = 0x0705
  let k0 := if wrap then x.hold.elim 0 Prod.snd + c.word 1 else k0
  match firstFail [
      (pairs.all fun p => !old p.1 || (joins && p.1 ≠ me), 0x0702),
      ((no = curEpochNo x + 1 || (joins && curEpochNo x < no)) && committed x < k0 && (!wrap || c.word 1 = 1), 0x0709),
      ((setPositions 256 mem.toNat).length ≤ (if d.boot.fsite = 0 then 256 else d.boot.fsite), 0x0709),
      ((joins || fresh.all fun j => pairs.any fun p => p.1 = j && old p.2) && pairs.all (fun p => flag mem p.1), 0x0709)] with
  | some e => (d, c.refuse e)
  | none =>
    let js := if joins then pairs.map Prod.fst else fresh
    let src : NMap Nat := js.foldl (fun m j => NMap.insert m j ((pairs.find? fun p => p.1 = j).elim 0 Prod.snd)) []
    let e : Epoch := ⟨no, k0, mem, src, memberDig c, false⟩
    let d := onSluice d fun x => { x with
      epochs := e :: x.epochs.filter (·.taken)
      wraps := if wrap then x.hold.elim 0 Prod.snd :: x.wraps else x.wraps }
    let d := match NMap.find? src me with
      | none => d
      | some j => (shardsOf d).foldl (fun d s => sendOut d (mkMsg 4 me no (wireStep x (k0 - 1)) s.1 []) [j]) d
    (d, c.finish)

/-- The records of a copied ledger, n of them. -/
def ledgerParse : Nat → List Byte → Option (List LRec)
  | 0, _ => some []
  | n + 1, bs =>
    match rcParse bs with
    | none => none
    | some (r, len) => if rcOk r then (ledgerParse n (bs.drop len)).map (r :: ·) else none

/-- The messages of an archive; none where a header is malformed or the archive runs past its length. -/
def archiveParse : Nat → List Byte → Option (List Message)
  | 0, _ => some []
  | f + 1, bs =>
    if bs = [] then some []
    else
      let m : Message := ⟨BitVec.ofNat 256 (leAt bs 0 32), sliceB bs 32 (16 * leAt bs 12 4)⟩
      if bs.length < 32 + 16 * mgLen m ∨ !mgOk m ∨ mgOfs m ≠ 0 ∨ !(mgKind m = 1 || mgKind m = 2 || mgKind m = 5) then none
      else (archiveParse f (bs.drop (pad64 (32 + 16 * mgLen m)))).map (m :: ·)

/-- A message as if it had arrived. -/
def deliver (d : Dev) (m : Message) : Dev :=
  match mgKind m with
  | 1 => (placeContribution d m).1
  | 2 => proposalRx (ledgerNotice d m) m
  | 3 => ledgerNotice d m
  | 4 => fetchRx d m
  | _ => joinerRx d m

def sluiceReplay (d : Dev) (c : Cmd) : Dev × Cmd :=
  match c.polder.bind (polderOf d) with
  | none => (d, c.refuse 0x0207)
  | some x =>
    let a := c.word2 0
    let arch := bitAt (c.word 3) 0
    let alen := 64 * c.word 6
    if d.sluice.bnd.isSome then (d, c.refuse 0x0701)
    else if a % 64 ≠ 0 ∨ a < x.dlo ∨ x.dhi ≤ a ∨
        (arch ∧ (c.word2 4 % 64 ≠ 0 ∨ c.word2 4 < x.dlo ∨ x.dhi < c.word2 4 + alen)) then (d, c.refuse 0x0106)
    else
      match memRead d (cmdAcc c.polder) a (min (x.dhi - a) (c.word 2 * (64 + 8 * 4096))) with
      | (d, .error e) => (d, c.refuse e)
      | (d, .ok bs) =>
        match memRead d (cmdAcc c.polder) (c.word2 4) (if arch then alen else 0) with
        | (d, .error e) => (d, c.refuse e)
        | (d, .ok ar) =>
          match ledgerParse (c.word 2) bs, archiveParse (alen + 1) ar with
          | some rs, some ms =>
            let d := onSluice d fun x => { x with replay := rs.filter (fun r => rcKind r ≠ 5 && rcKind r ≠ 6), differs := false }
            (ms.foldl deliver d, c.finish)
          | _, _ => (d, c.refuse 0x070D)

def execSluiceConfig (m : MboxNo) (s : State) : Out := onDev s fun d => cmdRow d m.val (isCmd 0x0701) (sluiceCmd sluiceConfig)
def execSluiceShard (m : MboxNo) (s : State) : Out := onDev s fun d => cmdRow d m.val (isCmd 0x0702) (sluiceCmd sluiceShard)
def execSluiceMember (m : MboxNo) (s : State) : Out := onDev s fun d => cmdRow d m.val (isCmd 0x0703) (sluiceCmd sluiceMember)
def execSluiceReplay (m : MboxNo) (s : State) : Out := onDev s fun d => cmdRow d m.val (isCmd 0x0704) (sluiceCmd sluiceReplay)
def execReadyWordWrite (shard : W32) (v : W64) (s : State) : Out := onDev s fun d => readyWrite d shard.toNat v
def execStepWordWrite (v : W64) (s : State) (a : Addr := 0) : Out := onDev s fun d => stepWrite d a v
def execHoldingReportRx (dev : DevId) (site : Byte) (ostep : W32) (s : State) (bad : Bool := false) : Out :=
  onDev s fun d => holdingReport d dev.toNat site.toNat ostep.toNat bad
def execMergeFormed (shard : W32) (s : State) : Out := onDev s fun d => mergeFormed d shard.toNat
def execMergeWordRelease (shard : W32) (s : State) : Out := onDev s fun d => mergeRelease d shard.toNat
def execAnchorDigestReport (s : State) (rx : Option DigestReport := none) : Out :=
  onDev s fun d => match rx with | none => anchorReport d | some r => digestsRx d r.dev.toNat r.ostep.toNat r.digs
def execHoldEnd (s : State) : Out := onDev s holdEnd
def execContributionRx (m : Message) (s : State) : Out := onDev s fun d => if mgKind m = 1 then heldCommits (placeContribution d m).1 else d
def execLedgerNoticeRx (m : Message) (s : State) : Out := onDev s fun d => ledgerNotice d m
def execReconcileProposalRx (m : Message) (s : State) : Out := onDev s fun d => proposalRx d m
def execJoinerFetchRequestRx (m : Message) (s : State) : Out := onDev s fun d => fetchRx d m
def execJoinerStateRx (m : Message) (s : State) : Out := onDev s fun d => heldCommits (joinerRx d m)

end Sys2Proof.Machine
end

