-- ==== Sys2Proof/Machine/Tidal.lean ====
section
/-! DEFINITION. The tidal ports and transport (file 15): ports and their plain traffic (R361, R362), paths (R363 to R367), frames
(R368 to R373), acknowledgements (R374, R375), round-trip time and hold-off (R376 to R379), loss, pacing and liveness (R380 to
R382). The rows that a timer raises take the path; the time between events is a free value. -/

namespace Sys2Proof.Machine

/-! ### Path records (R363) -/

def pPartner (r : BitVec 512) : Nat := fld r 7 0
def pId (r : BitVec 512) : Nat := fld r 10 8
def pPort (r : BitVec 512) : Nat := fld r 11 11
def pLmac (r : BitVec 512) : Nat := fld r 127 80
def pLaddr (r : BitVec 512) : BitVec 128 := BitVec.ofNat 128 (fld r 255 128)
def pRaddr (r : BitVec 512) : BitVec 128 := BitVec.ofNat 128 (fld r 383 256)
def pSport (r : BitVec 512) : BitVec 16 := BitVec.ofNat 16 (fld r 399 384)
def pDport (r : BitVec 512) : BitVec 16 := if fld r 415 400 = 0 then 47822 else BitVec.ofNat 16 (fld r 415 400)
def pGw (r : BitVec 512) : Nat := fld r 435 416
/-- Transmit store in bytes, and where it begins. -/
def pTssize (r : BitVec 512) : Nat := 2 ^ 20 * fld r 447 436
def pTsaddr (r : BitVec 512) : Nat := fld r 511 464
/-- The rate ceiling in kb/s. -/
def pNhmac (r : BitVec 512) : BitVec 48 := BitVec.ofNat 48 (fld r 79 32)
/-- The 802.1Q tag of a path's frames: priority and VLAN id. -/
def pVlan (r : BitVec 512) : Option (BitVec 3 × BitVec 12) :=
  if flag r 12 then some (BitVec.ofNat 3 (fld r 15 13), BitVec.ofNat 12 (fld r 27 16)) else none
/-- The IPv6 traffic class of a path's packets: dscp in bits [7:2]. -/
def pTclass (r : BitVec 512) : BitVec 8 := BitVec.ofNat 8 (4 * fld r 463 458)
/-- A path's flow label (R362): of the addresses and ports as they stand on the wire, where ports have their high byte first. -/
def pFlow (r : BitVec 512) : BitVec 20 :=
  let port (p : BitVec 16) : List Byte := (toBytes 2 p.toNat).reverse
  let c := crc32c (toBytes 16 (pLaddr r).toNat ++ toBytes 16 (pRaddr r).toNat ++ port (pSport r) ++ port (pDport r)) % 2 ^ 20
  BitVec.ofNat 20 (if c = 0 then 1 else c)
def pMax (r : BitVec 512) : Nat := 1000000 * fld r 457 448

def onTidal (d : Dev) (f : Tidal → Tidal) : Dev := { d with tidal := f d.tidal }
def pathOf (d : Dev) (n : Nat) : Option TPath := (NMap.find? d.tidal.paths n).filter fun p => p.st ≠ .undeclared
def onPath (d : Dev) (n : Nat) (f : TPath → TPath) : Dev :=
  match NMap.find? d.tidal.paths n with
  | none => d
  | some p => onTidal d fun x => { x with paths := NMap.insert x.paths n (f p) }

def tportOn (d : Dev) (port : Nat) : Bool := blkSt d 2 port = .on
/-- An event of the Sluice and cipher block, counted for Sluice's polder (R488). -/
def slCount (d : Dev) (ev n : Nat) : Dev := count d 5 0 ev n (some d.sluice.polder)
def tDiscard (d : Dev) : Dev := slCount d 0x802 1

/-- The gateway's tick count now (R376). -/
def now (d : Dev) : Dev × Nat :=
  let t := d.tidal.tick + Config.elapsed d.free
  (onTidal { d with free := d.free + 1 } fun x => { x with tick := t }, t)

def tickMod (t : Nat) : Nat := t % 2 ^ 32

/-! ### Keys of a path (R395, R396) -/

def txKeys (ks : KeyStore) (site : Nat) : List TKey := ks.keys.filter (ofPair site true)
def allotment (k : TKey) : Nat := 2 ^ (k.llog - 3)
def lowest (l : List TKey) : Option TKey := l.foldl (fun o k => match o with
  | none => some k
  | some m => some (if k.kep.toNat < m.kep.toNat then k else m)) none

/-- The key of a path's next frame: the lowest epoch, from the one in use on, whose allotment is not spent; the next one where
7/8 is used or KEY_ACTIVATE names it. -/
def pathKey (ks : KeyStore) (p : TPath) : Option TKey :=
  let path := pId p.desc
  let floor := max ((p.kep.map (·.toNat)).getD 0) ((p.wanted.map (·.toNat)).getD 0)
  let usable := (txKeys ks (pPartner p.desc)).filter fun k => floor ≤ k.kep.toNat && NMap.get k.sent 0 path < allotment k
  match lowest usable with
  | none => none
  | some k =>
    if 7 * allotment k ≤ 8 * NMap.get k.sent 0 path then
      some ((lowest (usable.filter fun y => k.kep.toNat < y.kep.toNat)).getD k)
    else some k

/-! ### The frame (R368, R369, R372) -/

def fType (f : Frame) : Nat := fld f.hdr 7 4
def fSrc (f : Frame) : Nat := fld f.hdr 15 8
def fKep (f : Frame) : Nat := fld f.hdr 63 32
def fPcount (f : Frame) : Nat := fld f.hdr 124 64
def fPseq (f : Frame) : Nat := fld f.hdr 159 128
def fTsval (f : Frame) : Nat := fld f.hdr 191 160
def fHold (f : Frame) : Nat := fld f.hdr 207 192
def fTsecr (f : Frame) : Nat := fld f.hdr 255 224
def fMdig (f : Frame) : BitVec 64 := BitVec.ofNat 64 (fld f.hdr 447 384)

/-- The digest of the newest declaration that the site holds; zero before the first. -/
def ownMdig (x : Sluice) : Nat := (x.epochs.head?.map fun e => e.mdig.toNat).getD 0

def frameHdr (d : Dev) (p : TPath) (k : TKey) (type tsval hold plen tsecr : Nat) : BitVec 512 :=
  let x := d.sluice
  BitVec.ofNat 512 (1 + type <<< 4 + scSite x <<< 8 + pPartner p.desc <<< 16 + k.kep.toNat <<< 32
    + (NMap.get k.sent 0 (pId p.desc)) <<< 64 + (pId p.desc) <<< 125 + p.pseq.toNat <<< 128 + (tickMod tsval) <<< 160
    + (hold % 65536) <<< 192 + plen <<< 208 + (tsecr % 2 ^ 32) <<< 224 + scFdig x <<< 256 + ownMdig x <<< 384
    + (curEpochNo x % 65536) <<< 448)

/-- A frame of a path sent under the key in force; without a key it waits and is counted. True when it has left. -/
def sendFrame (ks : KeyStore) (d : Dev) (n type : Nat) (payload : List Byte) (hold tsecr : Nat) : KeyStore × Dev × Bool :=
  match pathOf d n with
  | none => (ks, d, false)
  | some p =>
    if !tportOn d (pPort p.desc) then (ks, d, false)
    else
      match pathKey ks p with
      | none => (ks, slCount d 0x806 1, false)
      | some k =>
        let h := frameHdr d p k type d.tidal.tick hold payload.length tsecr
        let hb := toBytes 64 h.toNat
        let (ct, tag) := gcmSeal (toBytes 32 k.key.toNat) (sliceB hb 4 12) hb payload
        let f : Frame := { port := BitVec.ofNat 1 (pPort p.desc), src := pLaddr p.desc, dst := pRaddr p.desc
                           sport := pSport p.desc, dport := pDport p.desc, sumOk := true, hdr := h, body := ct
                           tag := BitVec.ofNat 128 (ofBytes tag)
                           dmac := pNhmac p.desc, smac := BitVec.ofNat 48 (pLmac p.desc), vlan := pVlan p.desc
                           tclass := pTclass p.desc, hops := 64, flow := pFlow p.desc }
        let ks := { ks with keys := ks.keys.map fun y =>
          if y.slot = k.slot then { y with sent := NMap.upd y.sent 0 (pId p.desc) (· + 1) } else y }
        let d := onPath d n fun p => { p with pseq := p.pseq + 1, kep := some k.kep }
        let d := onTidal d fun x => { x with sent := x.sent ++ [f] }
        (ks, slCount (slCount d 0x800 1) 0x900 (ceilDiv payload.length 16), true)

def sendProbe (ks : KeyStore) (d : Dev) (n : Nat) : KeyStore × Dev :=
  let (ks, d, _) := sendFrame ks d n 3 (zeros 16) 0 0
  (ks, d)

/-! ### Acknowledgements (R371, R374, R375) -/

/-- How far a pseq lies above another, modulo 2^32. -/
def above (base p : Nat) : Nat := (p + 2 ^ 32 - base % 2 ^ 32) % 2 ^ 32

/-- Runs of consecutive numbers in an ascending list, first and last, highest run first. -/
def runs : List Nat → List (Nat × Nat) → List (Nat × Nat)
  | [], acc => acc
  | x :: xs, (a, b) :: acc => if x = b + 1 then runs xs ((a, x) :: acc) else runs xs ((x, x) :: (a, b) :: acc)
  | x :: xs, [] => runs xs [(x, x)]

def natInsert (x : Nat) : List Nat → List Nat
  | [] => [x]
  | y :: l => if x < y then x :: y :: l else if x = y then y :: l else y :: natInsert x l
def natSort (l : List Nat) : List Nat := l.foldr natInsert []

/-- Ranges of pseqs above a base, newest first. -/
def ranges (base : Nat) (l : List Nat) : List (Nat × Nat) :=
  (runs (natSort (l.map (above base))) []).map fun r => ((base + r.1) % 2 ^ 32, (base + r.2) % 2 ^ 32)

def rangeBytes (n : Nat) (l : List (Nat × Nat)) : List Byte :=
  let l := l.take n
  l.flatMap (fun r => toBytes 4 r.1 ++ toBytes 4 r.2) ++ zeros (8 * (n - l.length))

/-- The 176 B payload of an ACK. -/
def ackBytes (p : TPath) : List Byte :=
  let rs := ranges p.cack.toNat p.got
  let fs := ranges p.cack.toNat p.refused
  toBytes 4 p.cack.toNat ++ toBytes 1 (min 16 rs.length) ++ toBytes 1 (min 4 fs.length) ++ zeros 10 ++ rangeBytes 16 rs ++ rangeBytes 4 fs

/-- An ACK sent for what has arrived since the last. -/
def sendAck (ks : KeyStore) (d : Dev) (n : Nat) : KeyStore × Dev :=
  match pathOf d n with
  | none => (ks, d)
  | some p =>
    let (tsecr, hold) := match p.echo with
      | some (v, t) => (v.toNat, min 0xFFFE (d.tidal.tick - t))
      | none => (0, 0xFFFF)
    let (ks, d, ok) := sendFrame ks d n 2 (ackBytes p) hold tsecr
    (ks, if ok then onPath d n fun p => { p with due := 0, refused := [], echo := none } else d)

/-- cack moved over what has been received. -/
def cackGo : Nat → W32 → List Nat → W32 × List Nat
  | 0, c, l => (c, l)
  | f + 1, c, l => if l.contains (c + 1).toNat then cackGo f (c + 1) (l.filter (· ≠ (c + 1).toNat)) else (c, l)

/-- A pseq that has come before. -/
def gotBefore (p : TPath) (s : Nat) : Bool :=
  let a := above p.cack.toNat s
  a = 0 || 2 ^ 31 ≤ a || p.got.contains s

/-- A pseq received. -/
def markGot (p : TPath) (s : Nat) : TPath :=
  if gotBefore p s then p
  else
    let r := cackGo (p.got.length + 1) p.cack (p.got ++ [s])
    { p with cack := r.1, got := r.2 }

/-! ### Content to send, and content to send again (R365, R380) -/

/-- A message in fragments: every one but the last carries a multiple of 16 B. -/
def fragments : Nat → BitVec 256 → Nat → List Byte → List Message
  | 0, _, _, _ => []
  | f + 1, h, u, bs =>
    ⟨putFld h 159 128 u, bs.take 8832⟩ :: (if bs.length ≤ 8832 then [] else fragments f h (u + 552) (bs.drop 8832))

def fragBytes (m : Message) : List Byte := toBytes 32 m.hdr.toNat ++ m.body
def fragLen (m : Message) : Nat := 32 + m.body.length

/-- A path carries its partner's messages: UP, hold-off included (R378). -/
def pathUp (p : TPath) : Bool := p.st = .up || p.st = .holdoff

/-- Register numbers of a partner's paths here that are UP, in ascending path id (R365). -/
def upPaths (d : Dev) (site : Nat) : List Nat :=
  (List.range 8).filterMap fun i =>
    (List.find? (fun (e : Nat × TPath) => pathUp e.2 && pPartner e.2.desc = site && pId e.2.desc = i) d.tidal.paths).map Prod.fst

/-- The gateway elsewhere of a partner's path, from the path record (R363). -/
def pathGw (d : Dev) (site i : Nat) : Option Nat :=
  (d.tidal.others.find? fun e => pPartner e.1 = site && pId e.1 = i).map fun e => pGw e.1

/-- A partner's paths that are UP, of the path ids given: the path id, and the register of one here. How an owner learns the
state of a path of another gateway the spec does not say: a free value (log entry 64). -/
def upAll (d : Dev) (site : Nat) : List Nat → Dev × List (Nat × Option Nat)
  | [] => (d, [])
  | i :: is =>
    match List.find? (fun (e : Nat × TPath) => e.2.st ≠ .undeclared && pPartner e.2.desc = site && pId e.2.desc = i) d.tidal.paths with
    | some (n, p) => let (d, l) := upAll d site is; (d, if pathUp p then (i, some n) :: l else l)
    | none =>
      if (pathGw d site i).isNone then upAll d site is
      else
        let (d, v) := fresh d
        let (d, l) := upAll d site is
        (d, if v.toNat % 2 = 0 then (i, none) :: l else l)

/-- The path that a message takes (R365). -/
def choosePath (l : List (Nat × Option Nat)) (m : Message) : Option (Nat × Option Nat) :=
  if mgKind m = 1 then l[(mgShard m + mgStep m) % l.length]? else l.head?

/-- Bytes of a path's transmit store in use. -/
def storeUsed (p : TPath) : Nat :=
  (p.queue ++ p.refusedQ ++ (p.flight ++ p.lost).map Flight.msg).foldl (fun n m => n + fragLen m) 0

/-- Plaintext written into the transmit store, a ring. -/
def storeWrite (d : Dev) (n : Nat) (m : Message) : Dev :=
  match pathOf d n with
  | none => d
  | some p =>
    let bs := fragBytes m
    let w := if pTssize p.desc < p.wpos + bs.length then 0 else p.wpos
    let d := (memWrite d (slAcc d) (pTsaddr p.desc + w) bs).1
    onPath d n fun p => { p with queue := p.queue ++ [m], wpos := w + bs.length }

/-- A message in the transmit store of a path here: whether there was room for all of it. -/
def storeMessage (d : Dev) (n : Nat) (m : Message) : Dev × Bool :=
  let fs := fragments (m.body.length / 8832 + 1) m.hdr (mgOfs m) m.body
  match pathOf d n with
  | none => (d, false)
  | some p =>
    if pTssize p.desc < storeUsed p + fs.foldl (fun a m => a + fragLen m) 0 then (d, false)
    else (fs.foldl (fun d m => storeWrite d n m) d, true)

/-- A message of an owner here that waits: to the gateway of the path it takes, which may be this device; with no path UP, or
no room in its store, it goes on waiting (R365). -/
def handOut (d : Dev) (site : Nat) (m : Message) : Dev :=
  if !d.sluice.out.contains (site, m) then d
  else
    let gone (d : Dev) : Dev := onSluice d fun x => { x with out := x.out.erase (site, m) }
    let (d, l) := upAll d site (List.range 8)
    match choosePath l m with
    | none => d
    | some (_, some n) => match storeMessage d n m with | (d, true) => gone d | (d, false) => d
    | some (i, none) =>
      match pathGw d site i with
      | some g => onSluice (gone d) fun x => { x with fab := x.fab ++ [(g, .content site i m)] }
      | none => d

/-- A gateway takes a message for a partner: one that an owner on another device sends to a path of this gateway, or one of an
owner here (R365). -/
def handoff (d : Dev) (site : Nat) (path : Option Nat) (m : Message) : Dev :=
  match path with
  | none => handOut d site m
  | some i =>
    match List.find? (fun (e : Nat × TPath) => e.2.st ≠ .undeclared && pPartner e.2.desc = site && pId e.2.desc = i) d.tidal.paths with
    | some (n, _) => (storeMessage d n m).1
    | none => d

/-- Content requeued: on its own path when that is UP and not in hold-off, else on the partner's UP path with the lowest srtt. -/
def requeueOn (d : Dev) (n : Nat) : Nat :=
  match pathOf d n with
  | none => n
  | some p =>
    if p.st = .up then n
    else
      let l := (upPaths d (pPartner p.desc)).filterMap fun i => (pathOf d i).map fun q => (q.srtt, i)
      (l.foldl (fun (o : Option (Nat × Nat)) e => match o with
        | none => some e
        | some b => some (if e.1 < b.1 then e else b)) none).elim n Prod.snd

def requeue (d : Dev) (n : Nat) (ms : List Message) : Dev := onPath d (requeueOn d n) fun p => { p with queue := ms ++ p.queue }

/-- The rate falls to 0.75 of its value, at most once per srtt (R381). -/
def rateFall (t : Nat) (p : TPath) : TPath :=
  if p.fell.any fun f => t < f + p.srtt then p else { p with rate := max 1000000 (p.rate * 3 / 4), fell := some t }

/-- Frames declared lost (R378, R379). -/
def declareLost (d : Dev) (n : Nat) (fs : List Flight) : Dev :=
  if fs = [] then d
  else
    let t := d.tidal.tick
    let d := onPath d n fun p => rateFall t { p with
      flight := p.flight.filter (fun f => !fs.contains f), lost := p.lost ++ fs }
    requeue (slCount d 0x803 fs.length) n (fs.map Flight.msg)

/-- A requeued copy that is not yet sent is cancelled. -/
def cancelCopy (d : Dev) (site : Nat) (m : Message) : Dev :=
  onTidal d fun x => { x with paths := NMap.mapVals x.paths fun _ p => if pPartner p.desc = site then { p with queue := p.queue.erase m } else p }

/-! ### Round-trip time (R377) -/

def absDiff (a b : Nat) : Nat := max a b - min a b

/-- A sample taken into a path's estimate; whether it is a delay step. -/
def sample (p : TPath) (r : Nat) : TPath × Bool :=
  let fin (srtt var : Nat) : TPath := { p with srtt := srtt, rttvar := var, sampled := true, rto := max (srtt + max (4 * var) 64) 3052 }
  if !p.sampled then (fin r (r / 2), false)
  else if p.srtt + max (4 * p.rttvar) 1526 < r then (fin r (r / 2), true)
  else
    let var : Int := p.rttvar + Int.tdiv ((absDiff p.srtt r : Int) - p.rttvar) 4
    let srtt : Int := p.srtt + Int.tdiv ((r : Int) - p.srtt) 8
    (fin srtt.toNat var.toNat, false)

/-- The sample that an answer gives, when it gives one. -/
def takeSample (d : Dev) (n : Nat) (f : Frame) : Dev :=
  match pathOf d n with
  | none => d
  | some p =>
    if fHold f = 0xFFFF then d
    else
      let r := (d.tidal.tick + 2 ^ 33 - fTsecr f - fHold f) % 2 ^ 32
      let (q, step) := sample p r
      let d := onPath d n fun _ => q
      if step then slCount d 0x805 1 else d

/-! ### Receiving (R373) -/

/-- The path whose addresses and ports a datagram matches. -/
def matchPath (d : Dev) (f : Frame) : Option Nat :=
  (List.find? (fun (e : Nat × TPath) =>
    let r := e.2.desc
    e.2.st ≠ .undeclared && pPort r = f.port.toNat && pLaddr r = f.dst && pRaddr r = f.src && pSport r = f.dport && pDport r = f.sport)
    d.tidal.paths).map Prod.fst

/-- Step 1. -/
def frameOk (d : Dev) (f : Frame) : Bool :=
  fld f.hdr 3 0 = 1 && 1 ≤ fType f && fType f ≤ 4 && fld f.hdr 31 24 = 0 && fld f.hdr 511 464 = 0
    && fld f.hdr 223 208 = f.body.length && f.body.length ≤ 8872
    && (fType f = 2 || fType f = 4 || (fHold f = 0 && fTsecr f = 0))
    && fld f.hdr 23 16 = scSite d.sluice

/-- Step 3. -/
def windowOk (p : TPath) (kep c : Nat) : Bool :=
  match NMap.find? p.wins kep with
  | none => true
  | some w => w.high < c || (w.high - c ≤ 4096 && c ≠ w.high && !w.seen.contains c)

def windowPut (p : TPath) (kep c : Nat) : TPath :=
  let w : Window := match NMap.find? p.wins kep with
    | none => ⟨c, [c]⟩
    | some w => let h := max w.high c; ⟨h, (c :: w.seen).filter fun x => h ≤ x + 4096⟩
  { p with wins := NMap.insert p.wins kep w }

/-- A tag failure (R400). -/
def tagFail (ks : KeyStore) (d : Dev) (k : TKey) : KeyStore × Dev :=
  let n := satAdd 0xFFFFFFFF k.fails.toNat 1
  let ks := { ks with keys := ks.keys.map fun y => if y.slot = k.slot then { y with fails := BitVec.ofNat 32 n } else y }
  let d := slCount (tDiscard d) 0x901 1
  (ks, if n ≠ k.fails.toNat ∧ n % 65536 = 0 then fedNotice d 0 (k.site <<< 128 + k.kep.toNat <<< 144) else d)

/-- Steps 1 to 5: the path and the payload of a frame to act on. -/
def receive (ks : KeyStore) (d : Dev) (f : Frame) : KeyStore × Dev × Option (Nat × List Byte) :=
  match matchPath d f with
  | none => (ks, tDiscard d, none)
  | some n =>
    match pathOf d n with
    | none => (ks, d, none)
    | some p =>
      if !tportOn d f.port.toNat then (ks, d, none)
      else if !f.sumOk || !frameOk d f then (ks, tDiscard d, none)
      else
        match ks.keys.find? fun k => ofPair (fSrc f) false k && k.kep.toNat = fKep f with
        | none => (ks, tDiscard d, none)
        | some k =>
          if !windowOk p (fKep f) (fPcount f) then (ks, tDiscard d, none)
          else
            let hb := toBytes 64 f.hdr.toNat
            let d := slCount d 0x900 (ceilDiv f.body.length 16)
            match gcmOpen (toBytes 32 k.key.toNat) (sliceB hb 4 12) hb f.body (toBytes 16 f.tag.toNat) with
            | none => let (ks, d) := tagFail ks d k; (ks, d, none)
            | some pt =>
              let d := onPath d n fun p => windowPut p (fKep f) (fPcount f)
              if fld f.hdr 383 256 ≠ scFdig d.sluice then (ks, onPath (tDiscard d) n fun p => { p with status := 0x0703 }, none)
              else
                let d := slCount d 0x801 1
                let d := if fMdig f = 0 then d else onSluice d fun x => { x with mdigs := NMap.insert x.mdigs (fSrc f) (fMdig f) }
                (ks, d, some (n, pt))

/-! ### Acting on a frame -/

/-- A message of kinds 2 to 4 assembled (R370) and acted on once it is whole. -/
def assemble (d : Dev) (m : Message) : Dev :=
  let key := putFld m.hdr 159 128 0
  let h0 : Held := ((d.tidal.inbox.find? fun e => e.1 = key).map Prod.snd).getD
    { site := mgOrig m, epoch := mgEpoch m, ostep := mgStep m, mlen := mgLen m }
  let h := heldPut h0 m
  let rest := d.tidal.inbox.filter fun e => e.1 ≠ key
  if heldDone h then
    let d := onTidal d fun x => { x with inbox := rest }
    if h.bad then d else deliver d ⟨key, heldBytes h⟩
  else onTidal d fun x => { x with inbox := rest ++ [(key, h)] }

/-- A fragment handed to its owner: whether the owner accepts it. Of an owner on another device the answer is a free value. -/
def toOwner (d : Dev) (n : Nat) (m : Message) : Dev × Bool :=
  let k := mgKind m
  let owner : Option Nat :=
    if k = 2 ∨ k = 3 then some (scKeeper d.sluice) else (NMap.find? d.tidal.shardMap (mgShard m)).map fun e => e.1.toNat
  if !mgOk m then (d, true)
  else
    match owner with
    | none =>
      let path := pathOf d n
      (fedNotice (slCount d 0x809 1) 0x0713
        (mgStep m <<< 96 + mgOrig m <<< 128 + (path.elim 0 fun p => pId p.desc) <<< 136 + (path.elim 0 fun p => pPort p.desc) <<< 139
          + mgShard m <<< 176), true)
    | some o =>
      if o ≠ selfId d then
        let (d, v) := fresh d
        let ok := v.toNat % 2 = 0
        (if ok then onTidal d fun x => { x with handed := x.handed ++ [(BitVec.ofNat 20 o, m)] } else d, ok)
      else if k = 1 then placeContribution d m
      else if k = 5 then
        if mgOrig m = scSite d.sluice then (joinerRx d m, true) else placeMessage d m true
      else (assemble d m, true)

/-- The newest frame that the next ACK newly covers, with its arrival (R376). -/
def newestEcho (o : Option (W32 × Nat)) (v : W32) (t : Nat) : Option (W32 × Nat) :=
  match o with
  | some (w, u) => if above w.toNat v.toNat < 2 ^ 31 then some (v, t) else some (w, u)
  | none => some (v, t)

/-- A DATA frame (R374, R375). -/
def dataRx (ks : KeyStore) (d : Dev) (f : Frame) : KeyStore × Dev :=
  let (d, t) := now d
  if fType f ≠ 1 ∧ frameOk d f then (ks, d)
  else
    match receive ks d f with
    | (ks, d, none) => (ks, d)
    | (ks, d, some (n, pt)) =>
      let m : Message := ⟨BitVec.ofNat 256 (leAt pt 0 32), pt.drop 32⟩
      let (d, ok) := toOwner d n m
      let d := heldCommits d
      let d := onPath d n fun p =>
        let echo := if ok && !gotBefore p (fPseq f) then newestEcho p.echo (BitVec.ofNat 32 (fTsval f)) t else p.echo
        let p := if ok then markGot p (fPseq f) else { p with refused := p.refused ++ [fPseq f] }
        { p with due := p.due + 1, echo := echo }
      if (pathOf d n).any fun p => 2 ≤ p.due then sendAck ks d n else (ks, d)

/-- An ACK covers a pseq. -/
def ackCovers (a : List Byte) (s : Nat) : Bool :=
  let back (x y : Nat) : Bool := above x y < 2 ^ 31
  let inRange (o i : Nat) : Bool := back (leAt a (o + 8 * i) 4) s && back s (leAt a (o + 8 * i + 4) 4)
  back s (leAt a 0 4) || (List.range (leAt a 4 1)).any (inRange 16)

def ackRefuses (a : List Byte) (s : Nat) : Bool :=
  (List.range (leAt a 5 1)).any fun i => above (leAt a (144 + 8 * i) 4) s < 2 ^ 31 && above s (leAt a (148 + 8 * i) 4) < 2 ^ 31

/-- Hold-off ends with an answer. -/
def leaveHoldoff (p : TPath) : TPath := if p.st = .holdoff then { p with st := .up } else p

/-- What an ACK's payload does (R377 to R380). -/
def ackAct (d : Dev) (n : Nat) (a : List Byte) : Dev :=
  match pathOf d n with
  | none => d
  | some p =>
    let done := p.flight.filter fun f => ackCovers a f.pseq.toNat
    let late := p.lost.filter fun f => ackCovers a f.pseq.toNat
    let no := p.flight.filter fun f => !ackCovers a f.pseq.toNat && ackRefuses a f.pseq.toNat
    let left := (p.flight.filter fun f => !ackCovers a f.pseq.toNat && !ackRefuses a f.pseq.toNat).map fun f =>
      { f with above := f.above + (done.filter fun g => let k := above f.pseq.toNat g.pseq.toNat; 0 < k && k < 2 ^ 31).length }
    let d := onPath d n fun p => { p with
      flight := left, lost := p.lost.filter (fun f => !late.contains f), refusedQ := p.refusedQ ++ no.map Flight.msg }
    let d := late.foldl (fun d f => cancelCopy d (pPartner p.desc) f.msg) d
    declareLost d n (left.filter fun f => 3 ≤ f.above)

def ackRx (ks : KeyStore) (d : Dev) (f : Frame) : KeyStore × Dev :=
  let (d, _) := now d
  if fType f ≠ 2 ∧ frameOk d f then (ks, d)
  else
    match receive ks d f with
    | (ks, d, none) => (ks, d)
    | (ks, d, some (n, pt)) =>
      let d := takeSample (onPath d n fun p => markGot p (fPseq f)) n f
      let d := onPath d n leaveHoldoff
      (ks, if pt.length = 176 ∧ leAt pt 4 1 ≤ 16 ∧ leAt pt 5 1 ≤ 4 then ackAct d n pt else d)

def probeRx (ks : KeyStore) (d : Dev) (f : Frame) : KeyStore × Dev :=
  let (d, _) := now d
  if fType f ≠ 3 ∧ frameOk d f then (ks, d)
  else
    match receive ks d f with
    | (ks, d, none) => (ks, d)
    | (ks, d, some (n, pt)) =>
      let d := onPath d n fun p => markGot p (fPseq f)
      let (ks, d, _) := sendFrame ks d n 4 pt 0 (fTsval f)
      (ks, d)

/-- A path comes UP: its estimate restarts from the answer's sample, its rate at pmax / 8 (R381, R382). -/
def comeUp (p : TPath) : TPath :=
  if p.st = .down ∧ !p.tooBig then { p with st := .up, sampled := false, rate := max 1000000 (pMax p.desc / 8), fell := none } else p

def probeEchoRx (ks : KeyStore) (d : Dev) (f : Frame) : KeyStore × Dev :=
  let (d, _) := now d
  if fType f ≠ 4 ∧ frameOk d f then (ks, d)
  else
    match receive ks d f with
    | (ks, d, none) => (ks, d)
    | (ks, d, some (n, _)) =>
      let d := onPath d n fun p => comeUp (markGot p (fPseq f))
      (ks, onPath (takeSample d n f) n leaveHoldoff)

/-! ### Sending (R381) and timers (R374, R378, R380 to R382) -/

/-- The bytes that a path may have in flight: the smaller of 2 × rate × srtt and tssize. -/
def flightLimit (p : TPath) : Nat := min (p.rate * p.srtt * 16384 / 10 ^ 8) (pTssize p.desc)

def maySend (p : TPath) (m : Message) : Bool :=
  p.st = .up && (p.flight.length < 16 || p.flight.foldl (fun n f => n + fragLen f.msg) (fragLen m) ≤ flightLimit p)

def frameSend (ks : KeyStore) (d : Dev) (n : Nat) : KeyStore × Dev :=
  let (d, t) := now d
  match pathOf d n with
  | none => (ks, d)
  | some p =>
    match p.queue with
    | [] => (ks, d)
    | m :: rest =>
      if !maySend p m then (ks, d)
      else
        match sendFrame ks d n 1 (fragBytes m) 0 0 with
        | (ks, d, false) => (ks, d)
        | (ks, d, true) =>
          (ks, onPath d n fun q => { q with queue := rest, flight := q.flight ++ [⟨p.pseq, BitVec.ofNat 32 t, m, 0⟩] })

def ackTimer (ks : KeyStore) (d : Dev) (n : Nat) : KeyStore × Dev :=
  let (d, _) := now d
  if (pathOf d n).any fun p => 0 < p.due then sendAck ks d n else (ks, d)

def rtoExpiry (ks : KeyStore) (d : Dev) (n : Nat) : KeyStore × Dev :=
  let (d, _) := now d
  if (pathOf d n).any fun p => p.st = .up && p.flight ≠ [] then
    sendProbe ks (slCount (onPath d n fun p => { p with st := .holdoff }) 0x804 1) n
  else (ks, d)

def holdoffExpiry (d : Dev) (n : Nat) : Dev :=
  let (d, _) := now d
  match pathOf d n with
  | none => d
  | some p =>
    if p.st ≠ .holdoff then d
    else declareLost (onPath d n fun p => { p with st := .up, rto := min 3051757 (2 * p.rto) }) n p.flight

def probeTimer (ks : KeyStore) (d : Dev) (n : Nat) : KeyStore × Dev :=
  let (d, _) := now d
  sendProbe ks d n

def downTimeout (d : Dev) (n : Nat) : Dev :=
  let (d, _) := now d
  onPath d n fun p => if pathUp p then { p with st := .down } else p

def rateIncrease (d : Dev) (n : Nat) : Dev :=
  let (d, _) := now d
  onPath d n fun p => if p.st = .up then { p with rate := min (pMax p.desc) (p.rate + pMax p.desc / 32) } else p

def refusedRequeue (d : Dev) (n : Nat) : Dev :=
  let (d, _) := now d
  match pathOf d n with
  | none => d
  | some p => requeue (onPath d n fun p => { p with refusedQ := [] }) n p.refusedQ

/-! ### Ports (R361, R362, R367) -/

def packetTooBig (d : Dev) (n mtu : Nat) : Dev :=
  match pathOf d n with
  | none => d
  | some p =>
    if 9000 ≤ mtu then d
    else fedNotice (onPath d n fun p => { p with st := .down, tooBig := true }) 0x0711
      (pPartner p.desc <<< 128 + pId p.desc <<< 136 + pPort p.desc <<< 139)

/-- A path of the port names the address as its own. -/
def ownAddr (d : Dev) (port : Nat) (a : BitVec 128) : Bool :=
  (d.tidal.paths : List (Nat × TPath)).any fun e => e.2.st ≠ .undeclared && pPort e.2.desc = port && pLaddr e.2.desc = a

def solicitation (d : Dev) (port : BitVec 1) (a : BitVec 128) : Dev :=
  if !tportOn d port.toNat then d
  else if ownAddr d port.toNat a then onTidal d fun x => { x with replies := x.replies ++ [(false, port, a)] }
  else tDiscard d

/-- An Echo Request, answered at most 64 times in a second of the tick count. -/
def echoRequest (d : Dev) (port : BitVec 1) (a : BitVec 128) : Dev :=
  let (d, t) := now d
  let sec := t / 1525879
  let (s, n) := NMap.get d.tidal.echoes (0, 0) port.toNat
  let n := if s = sec then n else 0
  if !tportOn d port.toNat then d
  else if ownAddr d port.toNat a && n < 64 then
    onTidal d fun x => { x with replies := x.replies ++ [(true, port, a)], echoes := NMap.insert x.echoes port.toNat (sec, n + 1) }
  else tDiscard d

def packetDiscard (d : Dev) (port : Nat) : Dev := if tportOn d port then tDiscard d else d

def tLinkLoss (d : Dev) (port : Nat) : Dev := if tportOn d port then pathsDown (setBlk d 2 port .starting) port else d
def tRetrainTimeout (d : Dev) (port : Nat) : Dev :=
  if blkSt d 2 port = .starting then notice d 6 none 0 (port <<< 96 + 1 <<< 100) else d
def tLinkBack (d : Dev) (port : Nat) : Dev :=
  if blkSt d 2 port = .starting then tellWaiters (setBlk d 2 port .on) (blkKey 2 port) true else d

/-! ### Commands (R363 to R366) -/

/-- The newest transmit epoch of a partner that is or was loaded. -/
def newestKep (ks : KeyStore) (site : Nat) : Nat := NMap.get ks.topKep 0 (2 * site)

/-- The fields of a path record in their ranges (R363). -/
def pathFieldsOk (d : Dev) (x : Polder) (r : BitVec 512) : Bool :=
  let a := pTsaddr r
  let b := a + pTssize r
  (!flag r 12 || (1 ≤ fld r 27 16 && fld r 27 16 ≤ 4094)) && 16 ≤ fld r 447 436 && fld r 457 448 ≤ 800
    && inTorus d (pGw r) && a % 4096 = 0
    && (pGw r ≠ selfId d || (x.hlo ≤ a && b ≤ x.hhi) || (x.dlo ≤ a && b ≤ x.dhi))

/-- Records in force: register number, record and epoch of this gateway's, then those of other gateways. -/
def allRecords (d : Dev) : List (BitVec 512 × Nat) :=
  (((d.tidal.paths : List (Nat × TPath)).filter fun e => e.2.st ≠ .undeclared).map fun e => (e.2.desc, e.2.declKep)) ++ d.tidal.others

def samePath (r q : BitVec 512) : Bool := pPartner r = pPartner q && pId r = pId q

def pathErr (ks : KeyStore) (d : Dev) (x : Polder) (r : BitVec 512) : Option Code :=
  let rest := (allRecords d).filter fun e => !samePath r e.1
  let onPort := rest.filter fun e => pGw e.1 = pGw r && pPort e.1 = pPort r
  firstFail [
    (pathFieldsOk d x r, 0x0710),
    (onPort.all fun e => pLmac e.1 = pLmac r, 0x0710),
    ((allRecords d).all fun e => !samePath r e.1 || pGw e.1 = pGw r || e.2 < newestKep ks (pPartner r), 0x0710),
    (onPort.length < 256, 0x0714),
    (pGw r ≠ selfId d || blkSt d 2 (pPort r) ≠ .off, 0x0712)]

/-- The register of this gateway's path with a record's partner and path id. -/
def ownPath (d : Dev) (r : BitVec 512) : Option Nat :=
  (List.find? (fun (e : Nat × TPath) => e.2.st ≠ .undeclared && samePath r e.2.desc) d.tidal.paths).map Prod.fst

/-- The next register of a declaration: the lowest of a removed path, else the next (R383). -/
def freePath (d : Dev) : Nat :=
  ((List.find? (fun (e : Nat × TPath) => e.2.st = .undeclared) d.tidal.paths).map Prod.fst).getD d.tidal.paths.length

/-- A path removed: what its partner has not acknowledged waits again (R337), and goes to a path that is UP. -/
def removePath (d : Dev) (r : BitVec 512) : Dev :=
  let d := match ownPath d r with
    | some n =>
      let back := ((pathOf d n).map fun p => p.flight.map Flight.msg ++ p.refusedQ ++ p.queue).getD []
      onPath (onSluice d fun x => { x with out := x.out ++ back.map fun m => (pPartner r, m) }) n fun p => { desc := p.desc, st := .undeclared }
    | none => d
  onTidal d fun x => { x with others := x.others.filter fun e => !samePath r e.1 }

/-- A path declared on this gateway: frames of a replaced path that have no answer are requeued (R380), its counters stay. -/
def declarePath (ks : KeyStore) (d : Dev) (r : BitVec 512) : Dev :=
  let kep := newestKep ks (pPartner r)
  let rate := max 1000000 (pMax r / 8)
  match ownPath d r with
  | some n =>
    let back := ((pathOf d n).map fun p => p.flight.map Flight.msg ++ p.refusedQ).getD []
    requeue (onPath d n fun p => { p with
      desc := r, st := .down, tooBig := false, declKep := kep, rate := rate, flight := [], lost := [], refusedQ := [], wpos := 0 }) n back
  | none => onTidal d fun x => { x with
      paths := NMap.insert x.paths (freePath d) { desc := r, declKep := kep, rate := rate }
      others := x.others.filter fun e => !samePath r e.1 }

def sluicePath (ks : KeyStore) (d : Dev) (c : Cmd) : KeyStore × Dev × Cmd :=
  let r : BitVec 512 := BitVec.ofNat 512 (c.num 0 16)
  match c.polder.bind (polderOf d) with
  | none => (ks, d, c.refuse 0x0207)
  | some x =>
    if !granted d 3 then (ks, d, c.refuse 0x070B)
    else if fld r 457 448 = 0 then (ks, removePath d r, c.finish)
    else
      match pathErr ks d x r with
      | some e => (ks, d, c.refuse e)
      | none =>
        let d := onTidal d fun t => { t with polder := c.polder.getD 0 }
        if pGw r = selfId d then (ks, declarePath ks d r, c.finish)
        else (ks, onTidal (removePath d r) fun t => { t with others := t.others ++ [(r, newestKep ks (pPartner r))] }, c.finish)

/-- SLUICE_SHARDMAP: entries of 8 B with the shard id, the owner device and its tile (R366). -/
def sluiceShardmap (d : Dev) (c : Cmd) : Dev × Cmd :=
  match c.polder.bind (polderOf d) with
  | none => (d, c.refuse 0x0207)
  | some x =>
    let a := c.word2 0
    let n := c.word 2
    if a % 64 ≠ 0 ∨ a < x.dlo ∨ x.dhi < a + 8 * n then (d, c.refuse 0x0106)
    else
      match memRead d (cmdAcc c.polder) a (8 * n) with
      | (d, .error e) => (d, c.refuse e)
      | (d, .ok bs) =>
        let m : NMap (DevId × Nat) := (List.range n).foldl (fun m i =>
          let e := leAt bs (8 * i) 8
          NMap.insert m (bits e 31 0) (BitVec.ofNat 20 (bits e 51 32), bits e 62 52)) []
        (onTidal d fun t => { t with shardMap := m }, c.finish)

/-! ### TID_PSTATn (R383) -/

/-- The register as the reeve reads it: its reset value until a path takes it, and state 3 once the path is removed. -/
def tidPstat (d : Dev) (n : Nat) : Nat :=
  match NMap.find? d.tidal.paths n with
  | none => 0
  | some p =>
    if p.st = .undeclared then 3
    else p.st.code + pId p.desc <<< 2 + pPort p.desc <<< 5 + pPartner p.desc <<< 6 + (min 0x3FFFF (p.srtt / 64)) <<< 14

def execSluicePath (m : MboxNo) (s : State) : Out := onAll s fun a ks d => cmdRowK a ks d m.val (isCmd 0x0705) sluicePath
def execSluiceShardmap (m : MboxNo) (s : State) : Out := onDev s fun d => cmdRow d m.val (isCmd 0x0706) (sluiceCmd sluiceShardmap)
def execTidalMessageHandoff (site : Byte) (m : Message) (s : State) (path : Option (BitVec 3) := none) : Out :=
  onDev s fun d => handoff d site.toNat (path.map BitVec.toNat) m
def execFrameSend (path : Fin 512) (s : State) : Out := onKeys s fun _ ks d => frameSend ks d path.val
def execDataRx (f : Frame) (s : State) : Out := onKeys s fun _ ks d => dataRx ks d f
def execAckRx (f : Frame) (s : State) : Out := onKeys s fun _ ks d => ackRx ks d f
def execProbeRx (f : Frame) (s : State) : Out := onKeys s fun _ ks d => probeRx ks d f
def execProbeEchoRx (f : Frame) (s : State) : Out := onKeys s fun _ ks d => probeEchoRx ks d f
def execAckTimer (path : Fin 512) (s : State) : Out := onKeys s fun _ ks d => ackTimer ks d path.val
def execRtoExpiry (path : Fin 512) (s : State) : Out := onKeys s fun _ ks d => rtoExpiry ks d path.val
def execHoldoffExpiry (path : Fin 512) (s : State) : Out := onDev s fun d => holdoffExpiry d path.val
def execPathProbeTimer (path : Fin 512) (s : State) : Out := onKeys s fun _ ks d => probeTimer ks d path.val
def execPathDownTimeout (path : Fin 512) (s : State) : Out := onDev s fun d => downTimeout d path.val
def execRateIncrease (path : Fin 512) (s : State) : Out := onDev s fun d => rateIncrease d path.val
def execRefusedRequeue (path : Fin 512) (s : State) : Out := onDev s fun d => refusedRequeue d path.val
def execPacketTooBigRx (path : Fin 512) (mtu : W32) (s : State) : Out := onDev s fun d => packetTooBig d path.val mtu.toNat
def execNeighbourSolicitationRx (port : BitVec 1) (target : BitVec 128) (s : State) : Out := onDev s fun d => solicitation d port target
def execEchoRequestRx (port : BitVec 1) (target : BitVec 128) (s : State) : Out := onDev s fun d => echoRequest d port target
def execTidalPacketDiscard (port : BitVec 1) (s : State) : Out := onDev s fun d => packetDiscard d port.toNat
def execTidalLinkLoss (port : BitVec 1) (s : State) : Out := onDev s fun d => tLinkLoss d port.toNat
def execTidalRetrainTimeout (port : BitVec 1) (s : State) : Out := onDev s fun d => tRetrainTimeout d port.toNat
def execTidalLinkRestored (port : BitVec 1) (s : State) : Out := onDev s fun d => tLinkBack d port.toNat

end Sys2Proof.Machine
end

