-- ==== Sys2Proof/Machine/Bringup.lean ====
section
/-! DEFINITION. Bring-up (file 18): the stages and their records (R435 to R442), the firmware image and the licence (R443 to
R448), debug (R449), identity and attestation (R450, R451), and resource claims (R452, R453). -/

namespace Sys2Proof.Machine

def onBoot (d : Dev) (f : Boot → Boot) : Dev := { d with boot := f d.boot }

/-! ### Records (R439, R440) -/

/-- What a stage leaves in its record beside its number. -/
structure StageEnd where
  skip : Bool := false
  fatal : Option Code := none
  /-- a status that does not stop bring-up -/
  status : Code := 0
  disagree : Nat := 0
  detail : Nat := 0

/-- The level that a stage's record gives. -/
def levelCode (d : Dev) : Nat := if d.boot.preserving then 3 else d.boot.level % 4

/-- A stage's record. A refused image or licence leaves fail and its status until the next accepted command clears them. -/
def stageRecord (a : AlwaysOn) (d : Dev) (stage : Nat) (e : StageEnd) (kend : W64) : BitVec 512 :=
  BitVec.ofNat 512 (stage + (b2n e.fatal.isSome) <<< 4 + (b2n e.skip) <<< 5 + (levelCode d) <<< 6 + ((e.fatal.getD e.status).toNat) <<< 16
    + a.boots.toNat <<< 32 + d.boot.kstart.toNat <<< 64 + kend.toNat <<< 128 + (e.disagree % 2 ^ 32) <<< 192 + e.detail <<< 256)

/-- Units on which a map and a test's failures differ (R441). -/
def disagreement (fused failing : List Nat) : Nat :=
  (fused.filter fun u => !failing.contains u).length + (failing.dedup.filter fun u => !fused.contains u).length

/-- Units added to a list. -/
def addUnits (l new : List Nat) : List Nat := l ++ (new.dedup.filter fun u => !l.contains u)

/-- A number with the bits of a list set. -/
def bitSet (l : List Nat) : Nat := l.dedup.foldl (fun n i => n + 2 ^ i) 0

/-! ### The stages (R435) -/

/-- Stage 1: the ROM's check and the cores' tests; cores fused bad or retired are never used. -/
def stage1 (a : AlwaysOn) (d : Dev) (o : StageOutcome) : AlwaysOn × Dev × StageEnd :=
  let failing := (List.range 5).filter fun c => !flag o.cores c
  let bad := addUnits a.badCores failing
  let ok (c : Nat) : Bool := !bad.contains c && !a.fuses.badCores.contains c
  let main := (List.range 4).filter ok
  let cores := if main.length < 4 ∧ ok 4 then main ++ [4] else main
  let e : StageEnd := {
    fatal := if !o.good ∨ cores = [] then some 0x0A01 else none
    disagree := disagreement a.fuses.badCores failing
    detail := o.cores.toNat + (b2n (cores.contains 4)) <<< 5 }
  ({ a with badCores := bad }, onReeve d fun r => { r with coresIn := cores, coresBad := (List.range 5).filter fun c => !ok c }, e)

/-- The identity key's seed: the first 32 B of SHA-512 over the corrected response and the serial number (R450). -/
def identitySeed (puf : BitVec 256) : List Byte := (sha512 (toBytes 32 puf.toNat ++ toBytes 8 Config.serial.toNat)).take 32

/-- Stage 2: the fuses and the identity. -/
def stage2 (a : AlwaysOn) (ks : KeyStore) (d : Dev) (o : StageOutcome) : KeyStore × Dev × StageEnd :=
  let f := a.fuses
  let detail := f.badTiles.length + f.badPipes.length <<< 12 + f.badCores.length <<< 18 + f.lgen <<< 24
  if !o.good then (ks, d, { fatal := some 0x0A02 })
  else
    match o.puf with
    | none => (ks, d, { fatal := some 0x0A03 })
    | some r =>
      let seed := identitySeed r
      ({ ks with seed := some (BitVec.ofNat 256 (ofBytes seed)) },
        onBoot d fun b => { b with lgen := f.lgen, idkey := BitVec.ofNat 256 (ofBytes (edPublic seed)) }, { detail := detail })

/-- Stages 6 and 7: tiles that fail a test are marked bad. -/
def tileTest (a : AlwaysOn) (o : StageOutcome) (words : Nat) : AlwaysOn × StageEnd :=
  let new := o.badTiles.dedup.filter fun u => u < 2176 && !a.fuses.badTiles.contains u && !a.badTiles.contains u
  ({ a with badTiles := a.badTiles ++ new },
    { disagree := disagreement a.fuses.badTiles (o.badTiles.filter (· < 2176)), detail := new.length + words <<< 12 })

/-- Stacks that fail are held OFF. -/
def stacksOff (d : Dev) (bad : BitVec 16) : Dev :=
  (setPositions 16 bad.toNat).foldl (fun d s => setBlk d 4 s .off) d

def stacksOn (d : Dev) : List Nat := (List.range 16).filter (stackUp d)

/-- Stage 8: stacks train; those that fail, and those found bad since power-on, are held OFF; soft repairs of the others
become hard (R213 to R215, R437). -/
def stage8 (a : AlwaysOn) (d : Dev) (o : StageOutcome) : AlwaysOn × Dev × StageEnd :=
  let known := addUnits a.badStacks (setPositions 16 o.badStacks.toNat)
  let d := stacksOff ((List.range 16).foldl (fun d s => setBlk d 4 s .on) d) (BitVec.ofNat 16 (bitSet known))
  let d := onMem d fun m => { m with repairs := m.repairs.map fun r => if stackUp d r.stack && !r.copying then { r with hard := true } else r }
  ({ a with badStacks := known }, d, { detail := bitSet (stacksOn d) + (o.found.toNat % 65536) <<< 16 })

/-- A failing row takes a spare row of its bank, for good; whether there was one (R213). -/
def hardRepair (d : Dev) (stack off : Nat) : Dev × Bool :=
  let key := hbmKey stack off
  let bank := Config.bankOf key
  if NMap.get d.mem.rowsUsed 0 bank < 4 then
    (onMem d fun m => { m with rowsUsed := NMap.upd m.rowsUsed 0 bank (· + 1)
                               repairs := ⟨stack, rowKey key, bank, false, true⟩ :: m.repairs }, true)
  else (d, false)

/-- Stage 9: the rows that fail are repaired; a stack whose repair fails, or which fails otherwise, is held OFF (R214, R435). -/
def stage9 (a : AlwaysOn) (d : Dev) (o : StageOutcome) : AlwaysOn × Dev × StageEnd :=
  let pub (d : Dev) : Dev := onBoot d fun b => { b with hbm := BitVec.ofNat 16 (bitSet (stacksOn d)) }
  if d.boot.preserving then (a, pub d, { skip := true })
  else
    let rows := o.rows.filter fun g => stackUp d g.1.toNat
    let (d, lost, n) := rows.foldl (fun (s : Dev × List Nat × Nat) g =>
      match hardRepair s.1 g.1.toNat g.2.toNat with
      | (d, true) => (d, s.2.1, s.2.2 + 1)
      | (d, false) => (d, s.2.1 ++ [g.1.toNat], s.2.2)) (d, [], 0)
    let known := addUnits a.badStacks (setPositions 16 o.badStacks.toNat ++ lost)
    let d := pub (stacksOff d (BitVec.ofNat 16 (bitSet known)))
    ({ a with badStacks := known }, d, { detail := bitSet (stacksOn d) + (n % 2 ^ 32) <<< 16 })

/-- A channel's modules are of a type and size that the tier accepts, one or two alike (R220, R221). -/
def channelOk (l : List Dimm) : Bool :=
  (l.length = 1 || l.length = 2) && l.all fun m =>
    (m.kind = 0 || m.kind = 1) && (if m.kind = 0 then 16 else 32) ≤ m.gib.toNat && m.gib.toNat ≤ 256
      && (l.head?.any fun h => h.kind = m.kind && h.gib = m.gib)

/-- Two channels are filled alike: one type, one size, one count. -/
def channelsAlike (l m : List Dimm) : Bool := l.map (fun x => (x.kind, x.gib)) = m.map (fun x => (x.kind, x.gib))

/-- R220's speed limit of a configuration. -/
def speedLimit (l : List Dimm) : Nat :=
  match l with
  | [m] => if m.kind = 0 then 6400 else 8800
  | m :: _ => if m.kind = 0 then 5600 else 6400
  | [] => 0

/-- Stage 10: every populated channel is held against the lowest-numbered one; a group with a channel that differs, is
empty, is not accepted or fails is held OFF, and channels that failed since power-on stay so (R220, R221, R437). DEDUCED
(log entry 64): the slowest module is that of the channels in service, and the record's bits [7:0] hold one bit for each. -/
def stage10 (a : AlwaysOn) (d : Dev) (o : StageOutcome) : AlwaysOn × Dev × StageEnd :=
  if !granted d 2 then (a, d, { skip := true })
  else
    let chan (c : Nat) : List Dimm := o.modules.getD c []
    let ref := (((List.range 8).map chan).find? (· ≠ [])).getD []
    let known := addUnits a.badChans (setPositions 8 o.badChannels.toNat)
    let bad := (List.range 8).filter fun c => !channelOk (chan c) || !channelsAlike (chan c) ref || known.contains c
    let ok (g : Nat) : Bool := bad.all fun c => c / 4 ≠ g
    let d := [0, 1].foldl (fun d g => setBlk d 3 g (if ok g then .on else .off)) d
    let per := ref.foldl (fun n m => n + m.gib.toNat) 0
    let cap := (ddrChans d).length * per
    let rate := if ddrChans d = [] then 0 else
      (ddrChans d).foldl (fun n c => (chan c).foldl (fun n m => min n m.speed.toNat) n) (speedLimit ref)
    let d := onMem d fun m => { m with gibPerCh := per, ddrGib := cap }
    ({ a with badChans := known, ddrRst := 0xFF }, onBoot d fun b => { b with ddr := cap },
      { detail := bitSet (ddrChans d) + rate <<< 8 + (cap % 8192) <<< 24 + (bad.headD 0) <<< 37 + (b2n (bad ≠ [])) <<< 40 })

/-- The neighbours are told that the link in a direction is back: their tables may hold the break that this device's absence
made (R249). -/
def tellLink (d : Dev) (dir : Nat) : Dev :=
  let k := dir / 2
  (ringMembers d k).foldl (fun d m => sendMgmt d m 1 (breakBody k true false (selfId d) (neighbour d (selfId d) dir))) d

/-- What training found of a direction's link, once every port has trained (R249). -/
def linkFound (d : Dev) (dir : Nat) : Dev :=
  if extent d (dir / 2) = 1 then d
  else if dirPorts d dir = [] then breakLink d dir (BitVec.ofNat 20 (neighbour d (selfId d) dir))
  else tellLink d dir

/-- Stage 11: every cabled port trains (R238); a link with no port is broken, and breaks that a reset of the whole device
left are cleared (R249, R463). A miswired port is reported (R242). -/
def stage11 (d : Dev) (o : StageOutcome) : Dev × StageEnd :=
  let one (s : Dev × List Nat × List Nat) (p : PortNo × PortTrain) : Dev × List Nat × List Nat :=
    let n := p.1.toNat
    match portTrained s.1 n p.2 with
    | (d, true) => (portBack d n, s.2)
    | (d, false) =>
      let found := decide (p.2.nbr.isSome ∧ trainWidth p.2.lanes ≠ none)
      (portHeld (setBlk d 1 n .off) n p.2,
        if miswired d n p.2 then (s.2.1, s.2.2 ++ [n]) else if found then s.2 else (s.2.1 ++ [n], s.2.2))
  let (d, failed, wired) := o.ports.foldl one (d, [], [])
  let d := [0, 1, 2, 3, 4, 5].foldl linkFound d
  let d := if d.boot.nodeBreak then onBoot (tellNode d true) fun b => { b with nodeBreak := false } else d
  (d, { status := if wired = [] then 0 else 0x0122
        detail := (List.range 16).foldl (fun n i => n + (portOf d i).width.toNat <<< (2 * i)) 0
          + bitSet failed <<< 32 + bitSet wired <<< 48
          + bitSet ((List.range 16).filter fun i => (portOf d i).sublane ≠ 15 && (portOf d i).width ≠ 0) <<< 64 })

/-- Places in service filled from the good pipelines: each failing one by a spare (R386). -/
def fillPlaces (bad : List Nat) : List Nat → List Nat → List (Option Nat) × List Nat
  | [], spares => ([], spares)
  | p :: ps, spares =>
    if bad.contains p then
      (match spares with
        | [] => let r := fillPlaces bad ps []; (none :: r.1, r.2)
        | s :: rest => let r := fillPlaces bad ps rest; (some s :: r.1, r.2))
    else let r := fillPlaces bad ps spares; (some p :: r.1, r.2)

/-- Stage 12: the tidal ports and the cipher's known-answer tests. -/
def stage12 (a : AlwaysOn) (d : Dev) (o : StageOutcome) : AlwaysOn × Dev × StageEnd :=
  if !granted d 3 then (a, d, { skip := true })
  else
    let failing := o.badPipes.filter (· < 18)
    let known := addUnits a.badPipes failing
    let bad := addUnits a.fuses.badPipes known
    let (serv, spares) := fillPlaces bad (List.range 16) ([16, 17].filter fun s => !bad.contains s)
    let d := { d with cipher := { serv := serv, spares := spares, retired := bad.filter (· < 18), turn := 0 } }
    let d := [0, 1].foldl (fun d i => setBlk d 2 i (if flag o.tidal i then .on else .off)) d
    ({ a with badPipes := known }, d,
      { disagree := disagreement a.fuses.badPipes failing, detail := o.tidal.toNat + bitSet (serv.filterMap id) <<< 2 })

/-- The spare record of a column of a cluster and the logical rows absent there (R23, R442): its bad physical rows, lowest
first. -/
def columnRepair (bad : List Nat) : Nat × List Nat :=
  let rows := (List.range 16).filter bad.contains
  let spare := !bad.contains 16
  let frow := if spare then rows.headD 0x1F else 0x1F
  let rest := if spare then rows.drop 1 else rows
  let log (p : Nat) : Nat := if frow < p ∧ frow ≠ 0x1F then p - 1 else p
  (frow + (rest.headD 0x1F) <<< 5 + (match rest with | [] => 0x1F | p :: _ => log p) <<< 10, rest.map log)

/-- Stage 13: spares, the logical grid, and R31. -/
def stage13 (a : AlwaysOn) (d : Dev) : AlwaysOn × Dev × StageEnd :=
  let known := addUnits a.badTiles a.badService
  let bad := addUnits a.fuses.badTiles known
  let col (i : Nat) : Nat × List Nat := columnRepair ((bad.filter fun u => u / 17 = i).map (· % 17))
  let absent := (List.range 128).flatMap fun i => (col i).2.map fun r =>
    tileAt (4 * (i / 4 % 16) + i % 4) (16 * (i / 64) + r)
  let full := granted d 1
  let there := absent.filter fun t => full || colOf t < 48
  let gone := there.length + (if full then 0 else 512)
  let d := { d with grid := { d.grid with absent := absent } }
  let d := onBoot d fun b => { b with spares := (List.range 128).map fun i => BitVec.ofNat 64 (col i).1, tiles := 2048 - gone }
  let d := (List.range 32).foldl (fun d c => setBlk d 5 c (if full ∨ c % 16 < 12 then .on else .off)) d
  ({ a with badTiles := known, badService := [] }, d, { detail := (2048 - gone) + gone <<< 12 + (b2n (!full)) <<< 24 })

/-- The work of a stage. -/
def stageWork (a : AlwaysOn) (ks : KeyStore) (d : Dev) (o : StageOutcome) : AlwaysOn × KeyStore × Dev × StageEnd :=
  let dev (r : Dev × StageEnd) : AlwaysOn × KeyStore × Dev × StageEnd := (a, ks, r.1, r.2)
  match d.boot.stage with
  | 1 => let r := stage1 a d o; (r.1, ks, r.2.1, r.2.2)
  | 2 => (a, stage2 a ks d o)
  | 3 => dev (d, { detail := d.boot.length.toNat + d.boot.release.toNat <<< 32 + (d.boot.digest.toNat % 2 ^ 128) <<< 64 })
  | 4 => dev (d, { detail := d.boot.grants.toNat + d.boot.lgen <<< 64 + d.boot.blown <<< 72 })
  | 5 => dev (d, { fatal := if o.good && a.clockOk then none else some 0x0A0B })
  | 6 => let r := tileTest a o 0; (r.1, ks, d, r.2)
  | 7 => if d.boot.preserving then dev (d, { skip := true }) else let r := tileTest a o o.found.toNat; (r.1, ks, d, r.2)
  | 8 => let r := stage8 a d o; (r.1, ks, r.2.1, r.2.2)
  | 9 => let r := stage9 a d o; (r.1, ks, r.2.1, r.2.2)
  | 10 => let r := stage10 a d o; (r.1, ks, r.2.1, r.2.2)
  | 11 => dev (stage11 d o)
  | 12 => let r := stage12 a d o; (r.1, ks, r.2.1, r.2.2)
  | 13 => let r := stage13 a d; (r.1, ks, r.2.1, r.2.2)
  | _ => dev (d, {})

/-- A stage may end: bring-up runs; stage 1 is left only when no alarm condition persists; stages 3 and 4 only after an
accepted command. -/
def stageMayEnd (a : AlwaysOn) (d : Dev) : Bool :=
  a.powered && !a.rstLow && (d.boot.st = .boot || d.boot.st = .bringup) && d.boot.stage < 14
    && (d.boot.stage ≠ 1 || a.cond = 0) && (d.boot.stage ≠ 3 || d.reeve.fwrun) && (d.boot.stage ≠ 4 || d.boot.licensed)

/-- The state that DEV_STATE shows when a stage starts (R438). -/
def stageState (a : AlwaysOn) (stage : Nat) : DevSt :=
  if stage = 14 then .ready else if stage = 1 ∧ a.cond ≠ 0 then .held else if stage < 4 then .boot else .bringup

/-- A stage ends: its record is written, and the next starts; stage 14 has no work (R435). -/
def stageEnd (a : AlwaysOn) (ks : KeyStore) (d : Dev) (o : StageOutcome) : AlwaysOn × KeyStore × Dev :=
  if !stageMayEnd a d then (a, ks, d)
  else
    let n := d.boot.stage
    let (a, ks, d, e) := stageWork a ks d o
    let r := stageRecord a d n e o.kend
    let d := { d with kclk := o.kend }
    match e.fatal with
    | some c => (a, ks, onBoot d fun b => { b with recs := NMap.insert b.recs n r, st := .failed, fail := true, status := c })
    | none =>
      let d := onBoot d fun b => { b with recs := NMap.insert b.recs n r, stage := n + 1, st := stageState a (n + 1), kstart := o.kend
                                          fail := false, status := 0 }
      (a, ks, if n + 1 = 14 then onBoot d fun b => { b with recs := NMap.insert b.recs 14 (stageRecord a d 14 {} o.kend) } else d)

/-! ### The firmware image (R443, R444) -/

/-- The checks of R444 before the signature. -/
def imageHdrOk (bs : List Byte) (len : Nat) : Bool :=
  leAt bs 0 4 = 0x57464447 && leAt bs 4 1 = 1 && leAt bs 5 3 = 0 && leAt bs 12 4 % 64 = 0 && len = 128 + leAt bs 12 4
    && len ≤ 64 * 2 ^ 20 && sliceB bs 16 48 = zeros 48 && leAt bs 9 1 = 2

/-- A refused image or licence shows in DEV_STAGE (R438). -/
def stageRefused (d : Dev) (c : Cmd) (e : Code) : Dev × Cmd :=
  (onBoot d fun b => { b with fail := true, status := e }, c.refuse e)

/-- The image is whole: verified and started, or refused. -/
def imageCheck (d : Dev) (c : Cmd) (bs : List Byte) : Dev × Cmd :=
  let len := c.word 2
  let body := bs.take (len - 64)
  let dig := sha512 body
  if !imageHdrOk bs len then stageRefused d c 0x0A05
  else if !edVerify (toBytes 32 Config.firmwareKey.toNat) dig (bs.drop (len - 64)) then stageRefused d c 0x0A04
  else
    let d := onBoot d fun b => { b with
      fail := false, status := 0, release := BitVec.ofNat 32 (leAt bs 8 4), digest := BitVec.ofNat 512 (ofBytes dig)
      length := BitVec.ofNat 32 len, level := c.word 3 }
    (onReeve d fun r => { r with fwrun := true }, c.finish)

/-- BOOT_IMAGE: a MiB fetched in each step. -/
def bootImage (d : Dev) (c : Cmd) : Dev × Cmd :=
  let a := c.word2 0
  let len := c.word 2
  let n := ceilDiv len (2 ^ 20)
  if c.step = 0 ∧ (d.boot.st ≠ .boot ∨ d.boot.stage ≠ 3 ∨ d.reeve.fwrun) then (d, c.refuse 0x0A16)
  else if c.step = 0 ∧ a % 256 ≠ 0 then (d, c.refuse 0x0106)
  else if len < 128 ∨ 64 * 2 ^ 20 < len then stageRefused d c 0x0A05
  else
    match hostRead d (a + c.step * 2 ^ 20) (min (2 ^ 20) (len - c.step * 2 ^ 20)) with
    | none => (d, c.fail 0x010A)
    | some bs =>
      let c := { c with carry := c.carry ++ bs, done := c.step + 1, total := n }
      if c.step + 1 < n then (d, c.more) else imageCheck d { c with carry := [] } c.carry

/-! ### The licence (R445 to R447) -/

def licenceFormOk (bs : List Byte) : Bool :=
  leAt bs 0 4 = 0x4E45434C && leAt bs 4 1 = 1 && leAt bs 6 2 = 0 && leAt bs 40 8 < 64 && leAt bs 48 1 ≠ 1 && sliceB bs 49 15 = zeros 15

/-- What the row of fuses reads after a raise: the target, or less where a fuse does not blow. -/
def raiseFuses (d : Dev) (old new : Nat) : Dev × Nat :=
  if new ≤ old then (d, old) else let (d, v) := fresh d; (d, old + v.toNat % (new - old + 1))

def licence (a : AlwaysOn) (d : Dev) (c : Cmd) : AlwaysOn × Dev × Cmd :=
  if d.boot.stage ≠ 4 ∨ d.boot.st ≠ .bringup ∨ d.boot.licensed then (a, d, c.refuse 0x0A15)
  else
    match hostRead d (c.word2 0) 128 with
    | none => (a, d, c.fail 0x010A)
    | some bs =>
      let lgen := leAt bs 5 1
      match firstFail [
          (licenceFormOk bs, 0x0A09),
          (leAt bs 8 32 = d.boot.idkey.toNat, 0x0A07),
          (edVerify (toBytes 32 Config.licenceKey.toNat) (bs.take 64) (bs.drop 64), 0x0A06),
          (a.fuses.lgen ≤ lgen, 0x0A08),
          (leAt bs 40 1 % 2 = 1, 0x0A0A)] with
      | some e => (a, stageRefused d c e)
      | none =>
        let old := a.fuses.lgen
        let (d, now) := raiseFuses d old lgen
        let a := { a with fuses := { a.fuses with lgen := now } }
        let d := onBoot d fun b => { b with lgen := now }
        if now ≠ lgen then (a, stageRefused d c 0x0A0C)
        else
          (a, onBoot d fun b => { b with
              fail := false, status := 0, licensed := true, grants := BitVec.ofNat 64 (leAt bs 40 8), fsite := leAt bs 48 1
              blown := now - old }, c.finish)

/-! ### Attestation and the records (R439, R451) -/

/-- Bytes 0 to 191 of the report. -/
def attestBody (a : AlwaysOn) (d : Dev) (nonce : List Byte) : List Byte :=
  toBytes 4 0x54414447 ++ [1] ++ toBytes 1 (b2n d.boot.legacy + 2 * b2n a.dbg + 4 * b2n d.boot.preserving)
    ++ toBytes 2 (devStage d) ++ toBytes 4 (devIdent d) ++ toBytes 4 d.boot.release.toNat ++ toBytes 1 a.fuses.lgen
    ++ toBytes 1 d.boot.fsite ++ toBytes 2 d.boot.tiles ++ toBytes 8 d.boot.grants.toNat ++ toBytes 4 a.boots.toNat ++ nonce
    ++ toBytes 64 d.boot.digest.toNat ++ toBytes 4 (almCause a) ++ toBytes 4 (spareWord d) ++ zeros 8
    ++ toBytes 32 d.boot.idkey.toNat ++ zeros 16

def attest (a : AlwaysOn) (ks : KeyStore) (d : Dev) (c : Cmd) : KeyStore × Dev × Cmd :=
  let dst := c.word2 8
  if !cmdAddrOk d c.polder dst 256 32 then (ks, d, c.refuse 0x0A13)
  else
    let body := attestBody a d (c.bytes 0 32)
    match cmdWrite d c.polder dst (body ++ edSign (seedBytes ks) (ascii "GDF-ATT1" ++ body)) with
    | (d, some e) => (ks, d, c.fail e)
    | (d, none) => (ks, d, c.finish [256])

/-- STAGE_READ: the records, then the spare records at offset 1,024. -/
def stageRead (d : Dev) (c : Cmd) : Dev × Cmd :=
  if !cmdAddrOk d c.polder (c.word2 0) 2048 1 then (d, c.refuse 0x0106)
  else
    let recs := (List.range 15).flatMap fun i => toBytes 64 (NMap.get d.boot.recs 0 i).toNat
    let spares := (List.range 128).flatMap fun i => toBytes 8 (d.boot.spares.getD i 0).toNat
    match cmdWrite d c.polder (c.word2 0) (recs ++ zeros 64 ++ spares) with
    | (d, some e) => (d, c.fail e)
    | (d, none) => (d, c.finish [w32 d.boot.recs.length])

/-! ### Claims (R452, R453) -/

def clKind (c : Cmd) : Nat := bits (c.word 0) 7 0
def clIdx (c : Cmd) : Nat := bits (c.word 0) 31 16
def clBy (c : Cmd) : Nat := bits (c.word 1) 3 0
def clPolder (c : Cmd) : PolderNo := BitVec.ofNat 4 (bits (c.word 1) 7 4)

/-- The resource is one that RES_CLAIM may name. -/
def resourceOk (k i : Nat) : Bool := ((k = 1 || k = 2) && 12 ≤ i && i ≤ 15) || (k = 3 && i ≤ 15) || (k = 4 && i ≤ 3)

/-- The claimant may hold the resource. -/
def claimantOk (d : Dev) (k i by_ : Nat) (p : PolderNo) : Bool :=
  if k ≤ 2 then by_ = 1 || (by_ = 2 && i = 15) else (by_ = 3 && (polderOf d p).isSome) || by_ = 4

/-- Who holds a resource: claimant kind and polder; the lanes of spare ports that nobody claimed are the standby's. -/
def holderOf (d : Dev) (k i : Nat) : Option (Nat × PolderNo) :=
  match d.claims.find? fun x => x.kind = k && x.idx = i with
  | some x => some (x.by_, x.polder)
  | none => if k ≤ 2 then some (1, 0) else none

def holderWord (h : Nat × PolderNo) : W32 := w32 (h.1 + (if h.1 = 3 then h.2.toNat <<< 4 else 0))

/-- A claim for the second Ixrad link: both lane groups of port 15, which passes through STOPPING and STARTING. -/
def claimLink (d : Dev) (c : Cmd) : Dev × Cmd :=
  if (portOf d 15).took ≠ none then (d, c.refuse 0x0A11 [1])
  else
    let d := { d with claims := d.claims ++ [⟨1, 15, 2, 0⟩, ⟨2, 15, 2, 0⟩] }
    let d := onPort d 15 fun p => { p with dir := 7 }
    (setBlk d 1 15 (if portSt d 15 = .off then .starting else .stopping), c.finish)

def resClaim (d : Dev) (c : Cmd) : Dev × Cmd :=
  let k := clKind c
  let i := clIdx c
  let me : Nat × PolderNo := (clBy c, if clBy c = 3 then clPolder c else 0)
  if !resourceOk k i || !claimantOk d k i me.1 me.2 then (d, c.refuse 0x0A12)
  else if holderOf d k i = some me then (d, c.finish)
  else if me.1 = 2 then claimLink d c
  else
    match holderOf d k i with
    | some h => (d, c.refuse 0x0A11 [holderWord h])
    | none => ({ d with claims := d.claims ++ [⟨k, i, me.1, me.2⟩] }, c.finish)

/-- A release; releasing the link returns port 15 to standby, and it retrains. -/
def resRelease (d : Dev) (c : Cmd) : Dev × Cmd :=
  let k := clKind c
  let i := clIdx c
  if !resourceOk k i then (d, c.refuse 0x0A12)
  else if k ≤ 2 then
    if (holderOf d k i).any fun h => h.1 = 2 then
      let d := { d with claims := d.claims.filter fun x => !(x.kind ≤ 2 && x.idx = 15) }
      (setBlk (onPort d 15 fun p => { p with dir := 6 }) 1 15 .starting, c.finish)
    else (d, c.finish)
  else ({ d with claims := d.claims.filter fun x => !(x.kind = k && x.idx = i) }, c.finish)

/-! ### Erasure (R404, R449) -/

/-- Every key is erased; the epochs loaded since the last reset stay known. -/
def eraseKeys (ks : KeyStore) : KeyStore := { topKep := ks.topKep }

/-- A command of family 0x08 in progress ends FAILED with status 0x0808. -/
def endCipherCmds (d : Dev) : Dev :=
  ((List.range 65).filter fun m => (mboxOf d m).st = .stepping && (mboxOf d m).cmd.any fun c => c.cmd / 256 = 8).foldl (fun d m =>
    match (mboxOf d m).cmd with
    | some c => endCmd d m c ⟨.inPart, 0x0808⟩ [] true
    | none => d) d

/-- DBG_OPEN: BYPASS without the grant. The identity is derived again. -/
def dbgOpen (a : AlwaysOn) (ks : KeyStore) (d : Dev) : AlwaysOn × KeyStore × Dev :=
  if !granted d 5 then (a, ks, d) else ({ a with dbg := true }, { eraseKeys ks with seed := ks.seed }, endCipherCmds d)

def execBringupStageEnd (o : StageOutcome) (s : State) : Out := onAll s fun a ks d => stageEnd a ks d o
def execBootImage (m : MboxNo) (s : State) : Out := onDev s fun d => cmdRow d m.val (isCmd 0x0A01) bootImage
def execLicence (m : MboxNo) (s : State) : Out := onAon s fun a d => cmdRowA a d m.val (isCmd 0x0A02) licence
def execAttest (m : MboxNo) (s : State) : Out := onAll s fun a ks d => cmdRowK a ks d m.val (isCmd 0x0A03) (attest a)
def execResClaim (m : MboxNo) (s : State) : Out :=
  onDev s fun d => cmdRow d m.val (fun c => c.cmd = 0x0A04 && clBy c ≠ 0) resClaim
def execResRelease (m : MboxNo) (s : State) : Out :=
  onDev s fun d => cmdRow d m.val (fun c => c.cmd = 0x0A04 && clBy c = 0) resRelease
def execStageRead (m : MboxNo) (s : State) : Out := onDev s fun d => cmdRow d m.val (isCmd 0x0A05) stageRead
def execDbgOpen (s : State) : Out := onAll s dbgOpen

end Sys2Proof.Machine
end

