-- ==== Sys2Proof/Machine/Power.lean ====
section
/-! DEFINITION. Alarms (R403 to R405), the throttle and the power registers (R498 to R501), RST_N, power-on and the loss of
power (R499, R505 to R507), and the management bus. -/

namespace Sys2Proof.Machine

/-! ### Alarms -/

/-- A sensor trips: keys are erased, a cipher command in progress ends, and the device resets. -/
def sensorAlarm (n : Nat) (a : AlwaysOn) (ks : KeyStore) (d : Dev) : AlwaysOn × KeyStore × Dev :=
  if !a.powered then (a, ks, d)
  else
    let d := endCipherCmds d
    let bit : BitVec 5 := BitVec.ofNat 5 (2 ^ n)
    deviceReset { a with
      cause := a.cause ||| bit, cond := a.cond ||| bit
      alarms := if a.alarms = 0xFFFF then a.alarms else a.alarms + 1 } d

/-- A sensor's condition ends; without one left the device leaves its hold. -/
def alarmEnd (n : Nat) (a : AlwaysOn) (d : Dev) : AlwaysOn × Dev :=
  let c := a.cond &&& ~~~(BitVec.ofNat 5 (2 ^ n))
  ({ a with cond := c }, if c = 0 ∧ d.boot.st = .held then onBoot d fun b => { b with st := .boot } else d)

/-- A write of ALM_CAUSE over the management bus (R405): a cause bit whose condition persists, the reserved bits and the
read-only count each ignore what is written there and count it (R13, R17). -/
def almWrite (v : W32) (a : AlwaysOn) (d : Dev) : AlwaysOn × Dev :=
  let w : BitVec 5 := BitVec.ofNat 5 (fld v 4 0)
  ({ a with cause := a.cause &&& ~~~(w &&& ~~~a.cond) },
    let d := if w &&& a.cause &&& a.cond ≠ 0 then ignoredWrite d else d
    let d := if fld v 15 5 = 0 then d else ignoredWrite d
    if fld v 31 16 = 0 then d else ignoredWrite d)

/-! ### Power registers (R501) -/

def capWrite (v : W32) (a : AlwaysOn) (d : Dev) : AlwaysOn × Dev :=
  let cap := fld v 12 0
  let d := if fld v 31 13 = 0 then d else ignoredWrite d
  if 1500 ≤ cap ∧ cap ≤ 4400 then ({ a with cap := cap }, d) else (a, ignoredWrite d)

/-- The writer holds a land's claim. -/
def holdsLand (d : Dev) (board : Bool) (p : PolderNo) (i : Nat) : Bool :=
  (holderOf d 4 i).any fun h => if board then h.1 = 4 else h.1 = 3 && h.2 = p

/-- A write of GP_CTL: lands that the writer does not hold ignore it and count it, as do the reserved bits and the read-only
levels (R13, R17); a driven land senses its own level. -/
def gpWrite (board : Bool) (p : PolderNo) (v : W32) (a : AlwaysOn) (d : Dev) : AlwaysOn × Dev :=
  let mine := (List.range 4).filter (holdsLand d board p)
  let pick (old : BitVec 4) (lo : Nat) : BitVec 4 := mine.foldl (fun x i => putFld x i i (fld v (lo + i) (lo + i))) old
  let differs (i : Nat) : Bool := flag v i ≠ flag a.gpOe i || flag v (4 + i) ≠ flag a.gpOut i
  let lost := ((List.range 4).filter fun i => !mine.contains i && differs i).length
  let d := if lost = 0 then d else count d 6 0 0x002 lost none
  let d := if fld v 31 12 = 0 then d else ignoredWrite d
  let d := if fld v 11 8 = 0 then d else ignoredWrite d
  let oe := pick a.gpOe 0
  let out := pick a.gpOut 4
  ({ a with gpOe := oe, gpOut := out, gpIn := (a.gpIn &&& ~~~oe) ||| (out &&& oe) }, d)

/-! ### The throttle (R500) -/

def limOf (a : AlwaysOn) (c : Nat) : Nat := NMap.get a.lims 2700 c
/-- A cluster's setting (R429). -/
def setOf (d : Dev) (c : Nat) : Nat := (NMap.get d.grid.clusters {} c).mhz
/-- A cluster's A-clk in MHz. -/
def aclk (a : AlwaysOn) (d : Dev) (c : Nat) : Nat := min (setOf d c) (limOf a c)

/-- The hottest sensor: its temperature, cluster, and whether it lies on an I/O die. -/
def hottest (temps : List (BitVec 8)) (iod : BitVec 8) : Nat :=
  let m := temps.foldl (fun n t => max n t.toNat) 0
  if m < iod.toNat then iod.toNat + 1 <<< 13
  else m + ((List.range 32).find? fun c => (temps.getD c 0).toNat = m).getD 0 <<< 8

/-- One window: the limits move, then the registers show it. -/
def throttle (watts : Nat) (vin : Nat) (temps : List (BitVec 8)) (iod : BitVec 8) (a : AlwaysOn) (d : Dev) : AlwaysOn × Dev :=
  if !a.powered then (a, d)
  else
    let temp (c : Nat) : Nat := (temps.getD c 0).toNat
    let calm (c : Nat) : Bool := 100 * watts ≤ 95 * a.cap && 1100 ≤ vin && temp c ≤ 90
    let quiet : NMap Nat := (List.range 32).foldl (fun q c => NMap.upd q 0 c fun n => if calm c then min 10 (n + 1) else 0) a.quiet
    let down (c : Nat) : Bool := decide (a.cap < watts) || decide (vin < 1100) || decide (95 ≤ temp c)
    let new (c : Nat) : Nat :=
      if down c then max (min (limOf a c) (setOf d c) - 100) 1200
      else if NMap.get quiet 0 c = 10 then min (limOf a c + 100) 2700
      else limOf a c
    let floor := (List.range 32).all fun c => limOf a c = 1200
    let lims : NMap Nat := (List.range 32).foldl (fun l c => NMap.set l 2700 c (new c)) []
    let slow := (List.range 32).any fun c => new c < setOf d c
    let hot := (List.range 32).any fun c => 95 ≤ temp c
    let stat := watts + (b2n (slow && (a.cap < watts || flag a.stat 13))) <<< 13 + (b2n (slow && (hot || flag a.stat 14))) <<< 14
      + (b2n (decide (vin < 1100))) <<< 15 + (b2n (decide (1320 < vin))) <<< 16 + (b2n (decide (a.cap < watts) && floor)) <<< 17
    ({ a with lims := lims, quiet := quiet, stat := BitVec.ofNat 32 stat, vin := BitVec.ofNat 11 vin
              tmax := BitVec.ofNat 32 (hottest temps iod) }, d)

/-- ALERT_N is low (R505). -/
def alertLow (a : AlwaysOn) (d : Dev) : Bool :=
  flag a.stat 14 || flag a.stat 15 || flag a.stat 16 || flag a.stat 17 || d.boot.st = .failed || d.boot.st = .held

/-- PRSNT_N is low (R505): the device is powered and not held in reset. -/
def presentLow (a : AlwaysOn) : Bool := a.powered && !a.rstLow

/-! ### RST_N and power (R499, R506) -/

def rstAssert (ns : Nat) (a : AlwaysOn) (ks : KeyStore) (d : Dev) : AlwaysOn × KeyStore × Dev :=
  if ns < 1000 then (a, ks, d)
  else if !a.powered then ({ a with rstLow := true }, ks, d)
  else deviceReset { a with rstLow := true } d

/-- RST_N rises: MADDR is sampled, and bring-up starts where there is power. -/
def rstRelease (maddr : BitVec 2) (clockOk : Bool) (a : AlwaysOn) (d : Dev) : AlwaysOn × Dev :=
  if !a.rstLow then (a, d)
  else
    let a := { a with rstLow := false, maddr := maddr, clockOk := clockOk }
    if a.powered then startBringup a d else (a, d)

/-- What stays without power: the fuses, the land's level, the rows that a base die has repaired hard (R215) and the host's
memory. -/
def unpowered (a : AlwaysOn) (d : Dev) : AlwaysOn × KeyStore × Dev :=
  let kept := d.mem.repairs.filter Repair.hard
  ({ powered := false, rstLow := a.rstLow, fuses := a.fuses }, {},
    { free := d.free
      mem := { host := d.mem.host, hostErr := d.mem.hostErr, repairs := kept
               rowsUsed := kept.foldl (fun m r => NMap.upd m 0 r.bank (· + 1)) [] } })

def vinLoss (a : AlwaysOn) (ks : KeyStore) (d : Dev) : AlwaysOn × KeyStore × Dev :=
  if a.powered then unpowered a d else (a, ks, d)

/-- VIN rises: the always-on domain takes its power-on values; where RST_N is high already, stage 0 starts (R506). -/
def powerOn (a : AlwaysOn) (d : Dev) : AlwaysOn × Dev :=
  if a.powered then (a, d)
  else
    let a := { a with powered := true }
    if a.rstLow then (a, d) else startBringup a d

/-- The 7-bit static address on the management bus (R507). -/
def staticAddr (a : AlwaysOn) : Nat := 0x60 + a.maddr.toNat

def execSensorAlarm (n : Fin 5) (s : State) : Out := onAll s (sensorAlarm n.val)
def execAlarmConditionEnd (n : Fin 5) (s : State) : Out := onAon s (alarmEnd n.val)
def execAlmCauseWrite (v : W32) (s : State) : Out := onAon s (almWrite v)
def execPwrCapWrite (v : W32) (s : State) : Out := onAon s (capWrite v)
def execGpCtlWrite (board : Bool) (p : PolderNo) (v : W32) (s : State) : Out := onAon s (gpWrite board p v)
def execThrottleWindow (watts : BitVec 13) (vin : BitVec 11) (temps : List (BitVec 8)) (iod : BitVec 8) (s : State) : Out :=
  onAon s (throttle watts.toNat vin.toNat temps iod)
def execRstNAssert (ns : Nat) (s : State) : Out := onAll s (rstAssert ns)
def execRstNRelease (maddr : BitVec 2) (clockOk : Bool) (s : State) : Out := onAon s (rstRelease maddr clockOk)
def execVinLoss (s : State) : Out := onAll s vinLoss
def execPowerOn (s : State) : Out := onAon s powerOn
def execMgmtBusAddressAssign (addr : BitVec 7) (s : State) : Out :=
  onAon s fun a d => (if a.powered then { a with dynAddr := some addr } else a, d)

end Sys2Proof.Machine
end

