-- ==== Sys2Proof/Machine/Dispatch.lean ====
section
/-! DEFINITION. The effect of a command: one arm per constructor, in the order of the table. -/

namespace Sys2Proof.Machine

def exec (i : Instr) (s : State) : Host.Outcome State Fault Refusal :=
  match i with
  | .add t => Sys2Proof.Machine.execAdd t s
  | .sub t => Sys2Proof.Machine.execSub t s
  | .mul t => Sys2Proof.Machine.execMul t s
  | .andOp t => Sys2Proof.Machine.execAndOp t s
  | .orOp t => Sys2Proof.Machine.execOrOp t s
  | .xorOp t => Sys2Proof.Machine.execXorOp t s
  | .shl t => Sys2Proof.Machine.execShl t s
  | .shr t => Sys2Proof.Machine.execShr t s
  | .sar t => Sys2Proof.Machine.execSar t s
  | .addi t => Sys2Proof.Machine.execAddi t s
  | .shli t => Sys2Proof.Machine.execShli t s
  | .slt t => Sys2Proof.Machine.execSlt t s
  | .seq t => Sys2Proof.Machine.execSeq t s
  | .flt t => Sys2Proof.Machine.execFlt t s
  | .ld t => Sys2Proof.Machine.execLd t s
  | .ldDataReturn t th => Sys2Proof.Machine.execLdDataReturn t th s
  | .st t => Sys2Proof.Machine.execSt t s
  | .bnz t => Sys2Proof.Machine.execBnz t s
  | .bz t => Sys2Proof.Machine.execBz t s
  | .jmp t => Sys2Proof.Machine.execJmp t s
  | .sumrd t => Sys2Proof.Machine.execSumrd t s
  | .waits t => Sys2Proof.Machine.execWaits t s
  | .issue t => Sys2Proof.Machine.execIssue t s
  | .issueSlotGrant t => Sys2Proof.Machine.execIssueSlotGrant t s
  | .wait t => Sys2Proof.Machine.execWait t s
  | .spawn t => Sys2Proof.Machine.execSpawn t s
  | .exit t => Sys2Proof.Machine.execExit t s
  | .cyc t => Sys2Proof.Machine.execCyc t s
  | .matmul t => Sys2Proof.Machine.execMatmul t s
  | .bwdData t => Sys2Proof.Machine.execBwdData t s
  | .bwdWeight t => Sys2Proof.Machine.execBwdWeight t s
  | .adapterDown t => Sys2Proof.Machine.execAdapterDown t s
  | .fullerPassEnd t => Sys2Proof.Machine.execFullerPassEnd t s
  | .handoffBankDrain t => Sys2Proof.Machine.execHandoffBankDrain t s
  | .handoffStallLimit t => Sys2Proof.Machine.execHandoffStallLimit t s
  | .map t => Sys2Proof.Machine.execMap t s
  | .reduceSum t => Sys2Proof.Machine.execReduceSum t s
  | .reduceMax t => Sys2Proof.Machine.execReduceMax t s
  | .reduceMin t => Sys2Proof.Machine.execReduceMin t s
  | .reduceArgmax t => Sys2Proof.Machine.execReduceArgmax t s
  | .softmax t => Sys2Proof.Machine.execSoftmax t s
  | .rmsnorm t => Sys2Proof.Machine.execRmsnorm t s
  | .layernorm t => Sys2Proof.Machine.execLayernorm t s
  | .rmsnormBwd t => Sys2Proof.Machine.execRmsnormBwd t s
  | .layernormBwd t => Sys2Proof.Machine.execLayernormBwd t s
  | .handoffEntryTake t => Sys2Proof.Machine.execHandoffEntryTake t s
  | .handoffWaitLimit t => Sys2Proof.Machine.execHandoffWaitLimit t s
  | .encode t => Sys2Proof.Machine.execEncode t s
  | .decode t => Sys2Proof.Machine.execDecode t s
  | .roll t => Sys2Proof.Machine.execRoll t s
  | .sload t => Sys2Proof.Machine.execSload t s
  | .sstore t => Sys2Proof.Machine.execSstore t s
  | .expand t => Sys2Proof.Machine.execExpand t s
  | .compress t => Sys2Proof.Machine.execCompress t s
  | .verify t => Sys2Proof.Machine.execVerify t s
  | .cbload t => Sys2Proof.Machine.execCbload t s
  | .cbstore t => Sys2Proof.Machine.execCbstore t s
  | .update t => Sys2Proof.Machine.execUpdate t s
  | .gnorm t => Sys2Proof.Machine.execGnorm t s
  | .delta t => Sys2Proof.Machine.execDelta t s
  | .outer t => Sys2Proof.Machine.execOuter t s
  | .replace t => Sys2Proof.Machine.execReplace t s
  | .recover t => Sys2Proof.Machine.execRecover t s
  | .txnPreimageWritten t => Sys2Proof.Machine.execTxnPreimageWritten t s
  | .txnBlockStateAccepted t => Sys2Proof.Machine.execTxnBlockStateAccepted t s
  | .txnWorkingCopyAccepted t => Sys2Proof.Machine.execTxnWorkingCopyAccepted t s
  | .txnRollback t => Sys2Proof.Machine.execTxnRollback t s
  | .stateFetchReturn t => Sys2Proof.Machine.execStateFetchReturn t s
  | .chunkUpdateStart t => Sys2Proof.Machine.execChunkUpdateStart t s
  | .waitSlotFree t => Sys2Proof.Machine.execWaitSlotFree t s
  | .allreduce t => Sys2Proof.Machine.execAllreduce t s
  | .reduceScatter t => Sys2Proof.Machine.execReduceScatter t s
  | .allgather t => Sys2Proof.Machine.execAllgather t s
  | .alltoall t => Sys2Proof.Machine.execAlltoall t s
  | .permute t => Sys2Proof.Machine.execPermute t s
  | .permuteHoldCopyEnd t => Sys2Proof.Machine.execPermuteHoldCopyEnd t s
  | .orFlag t => Sys2Proof.Machine.execOrFlag t s
  | .transfer t => Sys2Proof.Machine.execTransfer t s
  | .pushCreditGrant t => Sys2Proof.Machine.execPushCreditGrant t s
  | .engineOpStart t e => Sys2Proof.Machine.execEngineOpStart t e s
  | .engineOpEnd t e => Sys2Proof.Machine.execEngineOpEnd t e s
  | .scrubRead w => Sys2Proof.Machine.execScrubRead w s
  | .softRepairCopyEnd stack => Sys2Proof.Machine.execSoftRepairCopyEnd stack s
  | .writeRx p => Sys2Proof.Machine.execWriteRx p s
  | .readRx p => Sys2Proof.Machine.execReadRx p s
  | .readDataRx p => Sys2Proof.Machine.execReadDataRx p s
  | .writeAckRx p => Sys2Proof.Machine.execWriteAckRx p s
  | .redDataRx p => Sys2Proof.Machine.execRedDataRx p s
  | .redOpenRx p => Sys2Proof.Machine.execRedOpenRx p s
  | .streamRoomGrant => Sys2Proof.Machine.execStreamRoomGrant s
  | .failMarkRx p => Sys2Proof.Machine.execFailMarkRx p s
  | .redAckRx p => Sys2Proof.Machine.execRedAckRx p s
  | .absorbedRx p => Sys2Proof.Machine.execAbsorbedRx p s
  | .undeliveredRx p => Sys2Proof.Machine.execUndeliveredRx p s
  | .chunkComplete job coll phase chunk => Sys2Proof.Machine.execChunkComplete job coll phase chunk s
  | .slowMemberNotice job coll phase => Sys2Proof.Machine.execSlowMemberNotice job coll phase s
  | .tideBoundary b => Sys2Proof.Machine.execTideBoundary b s
  | .countLineWrite p qid count => Sys2Proof.Machine.execCountLineWrite p qid count s
  | .packetTransit port vc lseq slot short p lost => Sys2Proof.Machine.execPacketTransit port vc lseq slot short p lost s
  | .linkControlWordRx port w => Sys2Proof.Machine.execLinkControlWordRx port w s
  | .linkControlTimer port vc => Sys2Proof.Machine.execLinkControlTimer port vc s
  | .linkCodewordUncorrectable port => Sys2Proof.Machine.execLinkCodewordUncorrectable port s
  | .handoverLeadRx port lead p => Sys2Proof.Machine.execHandoverLeadRx port lead p s
  | .leveeRetrainStart port => Sys2Proof.Machine.execLeveeRetrainStart port s
  | .leveeRetrainEnd port found => Sys2Proof.Machine.execLeveeRetrainEnd port found s
  | .breakRx p => Sys2Proof.Machine.execBreakRx p s
  | .ping p => Sys2Proof.Machine.execPing p s
  | .status p => Sys2Proof.Machine.execStatus p s
  | .mgmtAnswerRx p => Sys2Proof.Machine.execMgmtAnswerRx p s
  | .mbxCmdWrite m word v => Sys2Proof.Machine.execMbxCmdWrite m word v s
  | .mbxSeqWrite m v => Sys2Proof.Machine.execMbxSeqWrite m v s
  | .mbxGo m rest => Sys2Proof.Machine.execMbxGo m s rest
  | .mbxCancel m rest => Sys2Proof.Machine.execMbxCancel m s rest
  | .mbxTakeUp m => Sys2Proof.Machine.execMbxTakeUp m s
  | .mailboxStep m => Sys2Proof.Machine.execMailboxStep m s
  | .registerWrite a v => Sys2Proof.Machine.execRegisterWrite a v s
  | .frontWindowIgnoredAccess offset write => Sys2Proof.Machine.execFrontWindowIgnoredAccess offset write s
  | .bulkApertureAccess a write n => Sys2Proof.Machine.execBulkApertureAccess a write n s
  | .devInfo m => Sys2Proof.Machine.execDevInfo m s
  | .noticeRing m => Sys2Proof.Machine.execNoticeRing m s
  | .clusterClock m => Sys2Proof.Machine.execClusterClock m s
  | .levConfig m => Sys2Proof.Machine.execLevConfig m s
  | .levConfigShares m => Sys2Proof.Machine.execLevConfigShares m s
  | .polderCreate m => Sys2Proof.Machine.execPolderCreate m s
  | .polderDestroy m => Sys2Proof.Machine.execPolderDestroy m s
  | .polderShares m => Sys2Proof.Machine.execPolderShares m s
  | .stageQueue m => Sys2Proof.Machine.execStageQueue m s
  | .mbxAssign m => Sys2Proof.Machine.execMbxAssign m s
  | .faultRead m => Sys2Proof.Machine.execFaultRead m s
  | .stripeMode m => Sys2Proof.Machine.execStripeMode m s
  | .scrubPeriod m => Sys2Proof.Machine.execScrubPeriod m s
  | .elogRead m => Sys2Proof.Machine.execElogRead m s
  | .progLoad m => Sys2Proof.Machine.execProgLoad m s
  | .threadStart m => Sys2Proof.Machine.execThreadStart m s
  | .threadPark m => Sys2Proof.Machine.execThreadPark m s
  | .threadResume m => Sys2Proof.Machine.execThreadResume m s
  | .threadFree m => Sys2Proof.Machine.execThreadFree m s
  | .descIssue m => Sys2Proof.Machine.execDescIssue m s
  | .collAbort m => Sys2Proof.Machine.execCollAbort m s
  | .openShards m => Sys2Proof.Machine.execOpenShards m s
  | .sluiceConfig m => Sys2Proof.Machine.execSluiceConfig m s
  | .sluiceShard m => Sys2Proof.Machine.execSluiceShard m s
  | .sluiceMember m => Sys2Proof.Machine.execSluiceMember m s
  | .sluiceReplay m => Sys2Proof.Machine.execSluiceReplay m s
  | .sluicePath m => Sys2Proof.Machine.execSluicePath m s
  | .sluiceShardmap m => Sys2Proof.Machine.execSluiceShardmap m s
  | .cipherKex m => Sys2Proof.Machine.execCipherKex m s
  | .cipherKek m => Sys2Proof.Machine.execCipherKek m s
  | .keyLoad m => Sys2Proof.Machine.execKeyLoad m s
  | .keyRetire m => Sys2Proof.Machine.execKeyRetire m s
  | .keyActivate m => Sys2Proof.Machine.execKeyActivate m s
  | .keyStatus m => Sys2Proof.Machine.execKeyStatus m s
  | .legacyKey m => Sys2Proof.Machine.execLegacyKey m s
  | .ciphLkgoWrite v => Sys2Proof.Machine.execCiphLkgoWrite v s
  | .ctrSnapshot m => Sys2Proof.Machine.execCtrSnapshot m s
  | .ctrSelect m => Sys2Proof.Machine.execCtrSelect m s
  | .bootImage m => Sys2Proof.Machine.execBootImage m s
  | .licence m => Sys2Proof.Machine.execLicence m s
  | .attest m => Sys2Proof.Machine.execAttest m s
  | .resClaim m => Sys2Proof.Machine.execResClaim m s
  | .resRelease m => Sys2Proof.Machine.execResRelease m s
  | .stageRead m => Sys2Proof.Machine.execStageRead m s
  | .resetTile m => Sys2Proof.Machine.execResetTile m s
  | .resetCluster m => Sys2Proof.Machine.execResetCluster m s
  | .resetPolder m => Sys2Proof.Machine.execResetPolder m s
  | .resetDevice m => Sys2Proof.Machine.execResetDevice m s
  | .nodeBreakAnswered => Sys2Proof.Machine.execNodeBreakAnswered s
  | .resetDrainEnd id => Sys2Proof.Machine.execResetDrainEnd id s
  | .drainLimitExpiry id => Sys2Proof.Machine.execDrainLimitExpiry id s
  | .resetRelease id => Sys2Proof.Machine.execResetRelease id s
  | .blockEnable m => Sys2Proof.Machine.execBlockEnable m s
  | .blockDisable m => Sys2Proof.Machine.execBlockDisable m s
  | .blockStartEnd b ok found => Sys2Proof.Machine.execBlockStartEnd b ok found s
  | .blockStopEnd b => Sys2Proof.Machine.execBlockStopEnd b s
  | .spareStatus m => Sys2Proof.Machine.execSpareStatus m s
  | .unitFault u => Sys2Proof.Machine.execUnitFault u s
  | .mcRetrainEnd u => Sys2Proof.Machine.execMcRetrainEnd u s
  | .reeveHeartbeatMiss core => Sys2Proof.Machine.execReeveHeartbeatMiss core s
  | .sensorAlarm sensor => Sys2Proof.Machine.execSensorAlarm sensor s
  | .almCauseWrite v => Sys2Proof.Machine.execAlmCauseWrite v s
  | .pwrCapWrite v => Sys2Proof.Machine.execPwrCapWrite v s
  | .gpCtlWrite board p v => Sys2Proof.Machine.execGpCtlWrite board p v s
  | .throttleWindow watts vin temps iodTemp => Sys2Proof.Machine.execThrottleWindow watts vin temps iodTemp s
  | .rstNAssert ns => Sys2Proof.Machine.execRstNAssert ns s
  | .rstNRelease maddr clockOk => Sys2Proof.Machine.execRstNRelease maddr clockOk s
  | .vinLoss => Sys2Proof.Machine.execVinLoss s
  | .bringupStageEnd o => Sys2Proof.Machine.execBringupStageEnd o s
  | .dbgOpen => Sys2Proof.Machine.execDbgOpen s
  | .mgmtBusAddressAssign a => Sys2Proof.Machine.execMgmtBusAddressAssign a s
  | .readyWordWrite shard v => Sys2Proof.Machine.execReadyWordWrite shard v s
  | .stepWordWrite v a => Sys2Proof.Machine.execStepWordWrite v s a
  | .holdingReportRx dev site ostep bad => Sys2Proof.Machine.execHoldingReportRx dev site ostep s bad
  | .mergeFormed shard => Sys2Proof.Machine.execMergeFormed shard s
  | .mergeWordRelease shard => Sys2Proof.Machine.execMergeWordRelease shard s
  | .anchorDigestReport rx => Sys2Proof.Machine.execAnchorDigestReport s rx
  | .holdEnd => Sys2Proof.Machine.execHoldEnd s
  | .contributionRx m => Sys2Proof.Machine.execContributionRx m s
  | .ledgerNoticeRx m => Sys2Proof.Machine.execLedgerNoticeRx m s
  | .reconcileProposalRx m => Sys2Proof.Machine.execReconcileProposalRx m s
  | .joinerFetchRequestRx m => Sys2Proof.Machine.execJoinerFetchRequestRx m s
  | .joinerStateRx m => Sys2Proof.Machine.execJoinerStateRx m s
  | .tidalMessageHandoff site m path => Sys2Proof.Machine.execTidalMessageHandoff site m s path
  | .frameSend path => Sys2Proof.Machine.execFrameSend path s
  | .dataRx f => Sys2Proof.Machine.execDataRx f s
  | .ackRx f => Sys2Proof.Machine.execAckRx f s
  | .probeRx f => Sys2Proof.Machine.execProbeRx f s
  | .probeEchoRx f => Sys2Proof.Machine.execProbeEchoRx f s
  | .ackTimer path => Sys2Proof.Machine.execAckTimer path s
  | .rtoExpiry path => Sys2Proof.Machine.execRtoExpiry path s
  | .holdoffExpiry path => Sys2Proof.Machine.execHoldoffExpiry path s
  | .pathProbeTimer path => Sys2Proof.Machine.execPathProbeTimer path s
  | .pathDownTimeout path => Sys2Proof.Machine.execPathDownTimeout path s
  | .rateIncrease path => Sys2Proof.Machine.execRateIncrease path s
  | .refusedRequeue path => Sys2Proof.Machine.execRefusedRequeue path s
  | .packetTooBigRx path mtu => Sys2Proof.Machine.execPacketTooBigRx path mtu s
  | .neighbourSolicitationRx port target => Sys2Proof.Machine.execNeighbourSolicitationRx port target s
  | .echoRequestRx port target => Sys2Proof.Machine.execEchoRequestRx port target s
  | .tidalPacketDiscard port => Sys2Proof.Machine.execTidalPacketDiscard port s
  | .tidalLinkLoss port => Sys2Proof.Machine.execTidalLinkLoss port s
  | .tidalRetrainTimeout port => Sys2Proof.Machine.execTidalRetrainTimeout port s
  | .shadowRotation mismatch => Sys2Proof.Machine.execShadowRotation mismatch s
  | .periodicKnownAnswerTest failed => Sys2Proof.Machine.execPeriodicKnownAnswerTest failed s
  | .powerOn => Sys2Proof.Machine.execPowerOn s
  | .alarmConditionEnd sensor => Sys2Proof.Machine.execAlarmConditionEnd sensor s
  | .tidalLinkRestored port => Sys2Proof.Machine.execTidalLinkRestored port s
  | .leveeNeighbourTraining port found => Sys2Proof.Machine.execLeveeNeighbourTraining port found s
  | .unknownOpCode t => Sys2Proof.Machine.execUnknownOpCode t s
  | .fetchOutsideRegion t => Sys2Proof.Machine.execFetchOutsideRegion t s

end Sys2Proof.Machine
end

