-- ==== Sys2Proof/Safety.lean ====
section
/-! DEFINITION. The terms in which claims are stated: which parts of a device stay, and when a command has its effect. -/

namespace Sys2Proof.Machine

/-- A memory access touches the memories with their error records, the free values, the counters and, through a notice, the
reeve; every other part of the device stays. -/
def OnlyMem (d d' : Dev) : Prop :=
  d' = { d with free := d'.free, mem := d'.mem, counters := d'.counters, reeve := d'.reeve }

/-- The canonical form of the device's memory and of host memory as the device sees it: addresses strictly rising, and no
entry equal to the zero that an unlisted address reads as. -/
def MemSys.ok (m : MemSys) : Bool := m.bytes.wf && m.host.wf

/-- The byte at a local address, zero where nothing is present. -/
def byteAt (d : Dev) (a : Nat) : Byte :=
  match place d a with
  | .ok k => Mem.read d.mem.bytes k
  | .error _ => 0

/-- The n bytes at local addresses from a on. -/
def bytesAt (d : Dev) (a n : Nat) : List Byte := (List.range n).map fun i => byteAt d (a + i)

/-- The words that n bytes from a on lie in are in no error. -/
def Clean (d : Dev) (a n : Nat) : Prop := ∀ i, i < n → ∀ k, place d (a + i) = .ok k → NMap.find? d.mem.ecc (k / 8) = none

/-- The device with other bytes stored, and nothing else changed. -/
def withBytes (d : Dev) (m : Mem) : Dev := { d with mem := { d.mem with bytes := m } }

/-- The device differs in stored bytes alone, and of those in none but the n bytes at a, which are those of bs. -/
def Stored (d : Dev) (a : Nat) (bs : List Byte) (d' : Dev) : Prop :=
  (∃ m, d' = withBytes d m) ∧ (∀ i (h : i < bs.length), byteAt d' (a + i) = bs[i]) ∧
    (∀ b, b < a ∨ a + bs.length ≤ b → byteAt d' b = byteAt d b) ∧
    ∀ k, progBase ≤ k → Mem.read d'.mem.bytes k = Mem.read d.mem.bytes k

/-- Every step leads to a next state: nothing stops the device. -/
def Runs (s : State) : Prop := ∃ t, step s = .next t

/-- What holds of the always-on domain in every state: each cluster's limit lies in 1,200 to 2,700 MHz and its quiet windows at
10 or below (R500), the cap in 1,500 to 4,400 W (R501), no cause is clear while its sensor's condition persists (R405), and the
row of licence fuses reads 255 at most (R447). -/
structure AlwaysOn.Ok (a : AlwaysOn) : Prop where
  limit : ∀ c, 1200 ≤ limOf a c ∧ limOf a c ≤ 2700
  quiet : ∀ c, NMap.get a.quiet 0 c ≤ 10
  cap : 1500 ≤ a.cap ∧ a.cap ≤ 4400
  cause : a.cond &&& ~~~a.cause = 0
  fuses : a.fuses.lgen ≤ 255

/-! ### Parts that a command leaves -/

/-- The key store, the always-on domain and the queue stay. -/
def DevAlone (s s' : State) : Prop := s'.keys = s.keys ∧ s'.aon = s.aon ∧ s'.pending = s.pending

/-- Of the device, tiles and counters alone change. -/
def OnlyTiles (d d' : Dev) : Prop := d' = { d with tiles := d'.tiles, counters := d'.counters }

/-! ### The crown -/

/-- The crown of tile t issues next thread th, which belongs to polder pn with record p, and fetches the word w for it: the
thread is READY and next in the order of R65, its program counter lies in its region, and the program store holds w there,
without an error of memory (R65, R68). -/
structure Fetches (s : State) (t th : Nat) (pn : PolderNo) (p : Polder) (w : W32) : Prop where
  next : nextThread s.dev t = some th
  ready : (threadOf s.dev t th).st = .ready
  owner : polderOfThread s.dev t th = some (pn, p)
  inside : (threadOf s.dev t th).pc.toNat < p.plen
  clean : NMap.find? s.dev.mem.ecc (progKey t (p.pbase + (threadOf s.dev t th).pc.toNat) / 8) = none
  stored : BitVec.ofNat 32 (ofBytes (Mem.readN s.dev.mem.bytes (progKey t (p.pbase + (threadOf s.dev t th).pc.toNat)) 4)) = w

/-- The word that the crown fetches is well formed (R69). -/
structure Issues (s : State) (t th : Nat) (pn : PolderNo) (p : Polder) (w : W32) : Prop extends Fetches s t th pn p w where
  form : iOk w = true

/-- The value of a scalar register of a thread. -/
def sreg (s : State) (t th : Nat) (r : BitVec 4) : W64 := regRead (threadOf s.dev t th) r

/-- The registers with one of them written; s0 stays zero (R64). -/
def wrote (regs : BitVec 4 → W64) (rd : BitVec 4) (v : W64) (r : BitVec 4) : W64 := if r = rd ∧ r ≠ 0 then v else regs r

/-- Of all threads, thread th of tile t alone has changed: it is READY with the program counter and the registers given. The
rest of its tile stays, but for the thread that issued last; other tiles, keys and the always-on domain stay. -/
structure OneThread (s s' : State) (t th last : Nat) (pc : W64) (regs : BitVec 4 → W64) : Prop where
  alone : DevAlone s s'
  tiles : ∀ u, u ≠ t → tileOf s'.dev u = tileOf s.dev u
  tile : tileOf s'.dev t = { tileOf s.dev t with threads := (tileOf s'.dev t).threads, lastIssue := last }
  others : ∀ u, u ≠ th → threadOf s'.dev t u = threadOf s.dev t u
  ready : (threadOf s'.dev t th).st = .ready
  pc : (threadOf s'.dev t th).pc = pc
  regs : ∀ r, sreg s' t th r = regs r

/-- An outcome is a next state in which the issuing thread alone has changed; beside the tile's threads, counters may count. -/
def ThreadMoves (s : State) (t th : Nat) (pc : W64) (regs : BitVec 4 → W64) (out : Out) : Prop :=
  ∃ s', out = .next s' ∧ OnlyTiles s.dev s'.dev ∧ OneThread s s' t th th pc regs

/-- The same, for a thread that enters WAITING on a condition with its registers and program counter as they were. -/
def ThreadWaits (s : State) (t th : Nat) (c : WaitOn) (out : Out) : Prop :=
  ∃ s', out = .next s' ∧ DevAlone s s' ∧ OnlyTiles s.dev s'.dev ∧
    (∀ u, u ≠ t → tileOf s'.dev u = tileOf s.dev u) ∧
    tileOf s'.dev t = { tileOf s.dev t with threads := (tileOf s'.dev t).threads, lastIssue := th } ∧
    (∀ u, u ≠ th → threadOf s'.dev t u = threadOf s.dev t u) ∧
    threadOf s'.dev t th = { threadOf s.dev t th with st := .waiting, wait := c }

/-- An outcome is a next state in which a thread has faulted: it is PARKED for good, its polder's newest fault record names
tile, thread, program counter and code, and every other thread and tile, all memory of the device, keys and the always-on
domain stay. -/
def ThreadFaults (s : State) (t th : Nat) (pn : PolderNo) (code : Code) (out : Out) : Prop :=
  ∃ s', out = .next s' ∧ DevAlone s s' ∧ (∀ u, u ≠ t → tileOf s'.dev u = tileOf s.dev u) ∧
    tileOf s'.dev t = { tileOf s.dev t with threads := (tileOf s'.dev t).threads, lastIssue := th } ∧
    (∀ u, u ≠ th → threadOf s'.dev t u = threadOf s.dev t u) ∧
    threadOf s'.dev t th = { threadOf s.dev t th with st := .parked, was := (threadOf s.dev t th).st, wait := .nothing, byFault := true } ∧
    s'.dev.mem.bytes = s.dev.mem.bytes ∧ s'.dev.mem.ecc = s.dev.mem.ecc ∧
    ∃ x r rest, polderOf s'.dev pn = some x ∧ x.faults = r :: rest ∧ fld r 39 32 = 2 ∧ fld r 43 40 = pn.toNat ∧
      fld r 79 64 = code.toNat ∧ fld r 111 96 = t ∧ fld r 127 112 = th ∧ fld r 143 128 = (threadOf s.dev t th).pc.toNat % 2 ^ 16

/-! ### Engines -/

/-- What the work of an operation on engine e of tile t may touch: memory with its error records, counters, the reeve's
notices, free values, cycle counters, packets on their way to other devices; of its own tile, beside its own progress, the
scale and summary registers and the threads that wait on these. The rest of the device stays: other tiles, other engines,
its own queue; and it neither ends nor changes the operation. -/
structure OpFrame (t : Nat) (e : EngineId) (d d' : Dev) : Prop where
  dev : d' = { d with free := d'.free, mem := d'.mem, counters := d'.counters, reeve := d'.reeve, fabric := d'.fabric,
                      meters := d'.meters, tiles := d'.tiles }
  others : ∀ u, u ≠ t → tileOf d' u = { tileOf d u with cyc := (tileOf d' u).cyc }
  tile : tileOf d' t = { tileOf d t with
    engines := (tileOf d' t).engines, scale := (tileOf d' t).scale, threads := (tileOf d' t).threads,
    summ := (tileOf d' t).summ, cyc := (tileOf d' t).cyc }
  engines : ∀ f, f ≠ e → engineOf d' t f = engineOf d t f
  queue : (engineOf d' t e).queue = (engineOf d t e).queue
  run : ∀ r, runOf d t e = some r → ∃ r', runOf d' t e = some r' ∧ r'.q = r.q ∧ r'.tds = r.tds ∧ r'.begun = r.begun ∧
    r'.ended = r.ended ∧ r'.tallyOk = r.tallyOk

/-- An outcome is a next state in which an operation has ended as given, with its progress marker; the device is otherwise as
its work leaves it. -/
def OpEnds (s : State) (t : Nat) (e : EngineId) (st : TState) (status : Code) (marker : Nat) (out : Out) : Prop :=
  ∃ s' d r, out = .next s' ∧ DevAlone s s' ∧ OpFrame t e s.dev d ∧ runOf d t e = some r ∧ r.ended = none ∧
    s'.dev = onEngine d t e fun x => { x with run := some { r with ended := some ⟨st, status⟩, marker := marker } }

/-- An operation's checks have passed and it has begun, with the tensor descriptors read: memory was read, and its own run alone
has changed. -/
def Begun (t : Nat) (e : EngineId) (r : RunOp) (tds : List TDesc) (d d' : Dev) : Prop :=
  ∃ d0 r0, OpFrame t e d d0 ∧ (d' = onEngine d0 t e fun x => { x with run := some r0 }) ∧
    r0.q = r.q ∧ r0.tds = tds ∧ r0.begun = true ∧ r0.ended = none ∧ r0.tallyOk = r.tallyOk ∧ r0.bad = r.bad

/-- An outcome is a next state in which an operation that runs at device d has run to its end: DONE with its whole extent as the
marker, or PARTIAL at the first unit that it could not do. -/
def RunsOut (s : State) (d : Dev) (t : Nat) (e : EngineId) (full : Nat) (out : Out) : Prop :=
  OpEnds { s with dev := d } t e .done 0 full out ∨ ∃ c m, OpEnds { s with dev := d } t e .inPart c m out

/-- The tensors of an operation whose descriptors lie at the offsets given are all on this device. -/
def Local (d : Dev) (ofs : List (Option Nat)) (tds : List TDesc) : Prop :=
  ∀ i o, ofs[i]? = some (some o) → (tDev (tds.getD i 0)).toNat = selfId d

/-! ### Elements of tensors -/

/-- The first byte of an element of an uncompressed tensor, and how many bytes it lies in. -/
def elemAddr (td : TDesc) (ix : List Nat) : Nat := tBitAddr td (fmtOf td).width ix / 8
def elemLen (td : TDesc) : Nat := max 1 ((fmtOf td).width / 8)

/-- The code of an element as memory holds it. -/
def codeAt (d : Dev) (td : TDesc) (ix : List Nat) : Nat :=
  (ofBytes (bytesAt d (elemAddr td ix) (elemLen td)) >>> (tBitAddr td (fmtOf td).width ix % 8)) % 2 ^ (fmtOf td).width

/-- An element lies on this device, where memory is present. -/
structure Reach (d : Dev) (td : TDesc) (ix : List Nat) : Prop where
  here : (tDev td).toNat = selfId d
  bytes : rangeErr d (elemAddr td ix) (elemLen td) = none

/-- An element of an uncompressed tensor without a side list can be read and written: its format asks for no scale, or the scale
register that it names gave a positive normal finite one when the operation began (R159 to R162). -/
structure Plain (d : Dev) (td : TDesc) (snap : List F32) (ix : List Nat) : Prop extends Reach d td ix where
  whole : tCmp td = false
  bare : tSide td = false
  scale : ((fmtOf td).isCode = false ∧ tSrefKind td = 0) ∨ (tSrefKind td = 1 ∧ scaleOk (snap.getD (scaleIdx td ix) 0) = true)

/-- Such an element that memory holds no escape code for. -/
structure Input (d : Dev) (td : TDesc) (snap : List F32) (ix : List Nat) : Prop extends Plain d td snap ix where
  noEscape : isEscape (fmtOf td) (codeAt d td ix) = false

/-- The value of an element as an engine reads it, in FP32 or BF16 where it is a code. -/
def valAt (d : Dev) (acc : Acc) (r : RunOp) (td : TDesc) (snap : List F32) (dst : FFmt) (ix : List Nat) : FVal :=
  match (elemAt d acc r td snap dst ix).2 with
  | .ok p => p.1
  | .error _ => .nan

/-- The bytes of two elements do not meet. -/
def Apart (p q : TDesc × List Nat) : Prop :=
  elemAddr p.1 p.2 + elemLen p.1 ≤ elemAddr q.1 q.2 ∨ elemAddr q.1 q.2 + elemLen q.1 ≤ elemAddr p.1 p.2

/-- A byte belongs to none of some elements. -/
def Beside (l : List (TDesc × List Nat)) (a : Nat) : Prop := ∀ p ∈ l, a < elemAddr p.1 p.2 ∨ elemAddr p.1 p.2 + elemLen p.1 ≤ a

/-- A written element does not meet any other written one, nor any that is read. -/
def Spread (reads writes : List (TDesc × List Nat)) : Prop :=
  (∀ p ∈ writes, ∀ q ∈ writes, p ≠ q → Apart p q) ∧ ∀ p ∈ writes, ∀ q ∈ reads, Apart p q

/-- An outcome is a next state in which no byte outside some elements has changed. -/
def StoresOnly (s : State) (writes : List (TDesc × List Nat)) (out : Out) : Prop :=
  ∃ s', out = .next s' ∧ ∀ a, Beside writes a → byteAt s'.dev a = byteAt s.dev a

/-- The index vectors of a shape. -/
def shapeIxs (sh : List Nat) : List (List Nat) := (List.range (volume sh)).map (ixOf sh)

/-! ### A pass of the Fuller (R97 to R103, R117 to R128) -/

/-- The elements that a down pass reads, and those of dP that it stores under pstore. -/
def downReads (x : BitVec 1024) (r : RunOp) : List (TDesc × List Nat) :=
  let bx := passBx x r r.work.step
  (((passRows x r (fPassAt x r r.work.step).2.1).map (aLine x r bx) ++ (downCols x r).map (downLine x r bx)).flatten).filterMap id
def downWrites (x : BitVec 1024) (r : RunOp) : List (TDesc × List Nat) :=
  if fPstore x then (passRows x r (fPassAt x r r.work.step).2.1).flatMap fun m =>
    (downCols x r).map fun j => (fTd r 7, mIx (fTd r 7) false m j (passBx x r r.work.step)) else []

/-- The rows and columns of the pass that comes next. -/
def nowRows (x : BitVec 1024) (r : RunOp) : List Nat := passRows x r (fPassAt x r r.work.step).2.1
def nowCols (x : BitVec 1024) (r : RunOp) : List Nat := passCols x r (fPassAt x r r.work.step).2.2

/-- The elements that the pass of an output tile reads: the operands of the main, outlier and adapter k-steps, the initial
values, and what the epilogue takes; and the elements of C that it stores. -/
def tileReads (x : BitVec 1024) (r : RunOp) : List (TDesc × List Nat) :=
  let bx := passBx x r r.work.step
  let rows := nowRows x r
  let cols := nowCols x r
  let out := dOpcode x = 1 ∧ fNOut x ≠ 0
  (((rows.map (aLine x r bx) ++ cols.map (bLine x r bx) ++ (if out then rows.map (outA x r bx) ++ cols.map (outB x r bx) else [])
    ++ (if fRank x ≠ 0 ∧ dOpcode x ≠ 4 then cols.map (upLine x r bx) else [])).flatten).filterMap id)
    ++ (if fInit x then rows.flatMap fun m => cols.map fun n => (fTd r 3, initIx r bx m n) else [])
    ++ (if fEpi x ≠ 0 then rows.flatMap fun m => cols.map fun n => (fTd r 9, epiIx m n) else [])
    ++ if 2 ≤ fEpi x then rows.map (fun m => (fTd r 10, epiVec m)) ++ cols.map fun n => (fTd r 11, epiVec n) else []
def tileWrites (x : BitVec 1024) (r : RunOp) : List (TDesc × List Nat) :=
  if fOutMode x = 0 then (nowRows x r).flatMap fun m => (nowCols x r).map fun n => (fTd r 2, [n, m] ++ passBx x r r.work.step) else []

/-- The values of an operand line as the pass reads them; a masked place is +0 (R101). -/
def lineVals (d : Dev) (acc : Acc) (r : RunOp) (l : List (Option (TDesc × List Nat))) : List FVal :=
  l.map fun e => match e with | some p => valAt d acc r p.1 (fSnap r p.1) bf16 p.2 | none => FVal.zero

/-- The sum of an output element (R99, R101, R103): from +0 or the initial value through the main k-steps, then those of the
outlier channels and of the adapter, whose first operand is the row of the adapter buffer. -/
def tileSum (d : Dev) (acc : Acc) (r : RunOp) (i m n : Nat) : F32 :=
  let x := r.q.desc
  let bx := passBx x r r.work.step
  let on (z : F32) (a b : List FVal) : F32 := (addGroups z (List.zip a b)).1
  let z := if fInit x then rne32 (valAt d acc r (fTd r 3) (fSnap r (fTd r 3)) fp32 (initIx r bx m n)) else 0
  let z := on z (lineVals d acc r (aLine x r bx m)) (lineVals d acc r (bLine x r bx n))
  let z := if dOpcode x = 1 ∧ fNOut x ≠ 0 then on z (lineVals d acc r (outA x r bx m)) (lineVals d acc r (outB x r bx n)) else z
  if fRank x ≠ 0 ∧ dOpcode x ≠ 4 then
    on z (((r.work.vals.drop (i * fRank x)).take (fRank x)).map val32) (lineVals d acc r (upLine x r bx n))
  else z

/-! ### The Blocker's elements (R292 to R311) -/

/-- Elements lo to hi - 1 of a tensor in the order of R139. -/
def elems (td : TDesc) (lo hi : Nat) : List (TDesc × List Nat) := (List.range (hi - lo)).map fun j => (td, tIndex td (lo + j))

/-- A tensor of this device in a floating-point format, with memory present at those elements. -/
structure Floats (d : Dev) (td : TDesc) (lo hi : Nat) : Prop where
  float : ∃ F, (fmtOf td).float? = some F
  here : (tDev td).toNat = selfId d
  bytes : ∀ p ∈ elems td lo hi, Reach d p.1 p.2

/-- The value of element e of such a tensor. -/
def elemVal (d : Dev) (td : TDesc) (e : Nat) : F32 :=
  match (fmtOf td).float? with
  | some F => rne32 (F.decode (codeAt d td (tIndex td e)))
  | none => 0

/-- Element e of a tensor of whole bytes holds a code. -/
def Holds (d : Dev) (td : TDesc) (e code : Nat) : Prop :=
  bytesAt d (elemAddr td (tIndex td e)) (elemLen td) = toBytes ((fmtOf td).width / 8) code

/-- What a journal block holds for the old values that device d has in its runs (R305), padded to 64 B. -/
def oldValues (d : Dev) (runs : List (Nat × Nat)) : List Byte :=
  padTo 64 (runs.flatMap fun p => toBytes 16 (p.1 + p.2 <<< 64) ++ padTo 16 (bytesAt d p.1 p.2))

/-- A journal block's header over the data before it (R305). -/
def blockHdr (txid epoch j : Nat) (data : List Byte) : List Byte :=
  toBytes 64 (txid + epoch <<< 16 + j <<< 32 + data.length <<< 64 + (crc32c data) <<< 96)

/-! ### Mailboxes -/

/-- An outcome is a next state in which mailbox m holds b and the ready list is as given; other mailboxes and every other part
of device d stay. -/
def BoxBecomes (s : State) (d : Dev) (m : Nat) (b : Mbox) (ready : List Nat) (out : Out) : Prop :=
  ∃ s', out = .next s' ∧ DevAlone s s' ∧
    s'.dev = { d with reeve := { d.reeve with boxes := s'.dev.reeve.boxes, ready := ready } } ∧
    (∀ n, n ≠ m → mboxOf s'.dev n = mboxOf d n) ∧ mboxOf s'.dev m = b

/-- The device after a write that sets reserved bits: the ignored bits are counted (R17). -/
def counted (d : Dev) (bad : Prop) [Decidable bad] : Dev := if bad then ignoredWrite d else d

/-- Mailbox m runs a step of command c, whose work is not yet done, for no polder or for one that exists. -/
structure Serves (s : State) (m : Nat) (c : Cmd) : Prop where
  stepping : (mboxOf s.dev m).st = .stepping
  cmd : (mboxOf s.dev m).cmd = some c
  running : c.running = true
  fresh : c.work = none
  known : c.noPolder = false

/-- An outcome is a next state in which the step's work is done: the device is d, and the command's copy is c. -/
def StepGives (s : State) (m : Nat) (d : Dev) (c : Cmd) (out : Out) : Prop := out = .next { s with dev := putCmd d m c }

/-- The command is over with status 0 and these results; its work leaves the device d. -/
def Succeeds (s : State) (m : Nat) (c : Cmd) (d : Dev) (res : List W32) (out : Out) : Prop :=
  StepGives s m d { c with work := some (.over 0 res), done := c.total } out

/-- The command is refused with a status before it has any effect. -/
def Refused (s : State) (m : Nat) (c : Cmd) (e : Code) (out : Out) : Prop :=
  StepGives s m s.dev { c with work := some (.refused e []) } out

/-- The registers of a mailbox at the end of its command (R421): the result, the progress and the state, with the words that
carried a key zeroed. The ring's number is left to notices. -/
def boxEnded (b : Mbox) (c : Cmd) (st : TState) (status : Code) (res : List W32) : Mbox :=
  { b with status := status, tstate := BitVec.ofNat 8 st.code, fin := true, rseq := c.seq, res := res,
           progress := BitVec.ofNat 16 c.done, total := BitVec.ofNat 16 c.total, words := wipeWords c.cmd b.words,
           st := if status = 0 then .done else .failed, cmd := none, ring := none }

/-- A tally in host memory: the 32 bytes of R425, and no other byte of host memory changed. -/
def HostTally (d : Dev) (a : Nat) (seq : W32) (e : OpEnd) (fin : Bool) (marker : Nat) (d' : Dev) : Prop :=
  ∀ k, Mem.read d'.mem.host k = if a ≤ k ∧ k < a + 32 then (tallyBytes seq e fin marker {}).getD (k - a) 0 else Mem.read d.mem.host k

/-- A step's work is done in the device and the key store. -/
def KeyStepGives (s : State) (m : Nat) (ks : KeyStore) (d : Dev) (c : Cmd) (out : Out) : Prop :=
  out = .next { s with keys := ks, dev := putCmd d m c }

/-- A command that reaches the key store is over with status 0 and these results. -/
def KeySucceeds (s : State) (m : Nat) (c : Cmd) (ks : KeyStore) (d : Dev) (res : List W32) (out : Out) : Prop :=
  KeyStepGives s m ks d { c with work := some (.over 0 res), done := c.total } out

/-- A key has entered the store (R389, R393): it is there with nothing sent under it; of the pair's earlier keys the one with the
lowest epoch is gone when there were two; every other key and all else of the store stay. -/
structure KeyStored (ks : KeyStore) (key : BitVec 256) (site : Nat) (tx : Bool) (kep : W32) (llog : Nat) (legacy : Bool)
    (slot : Nat) (ks' : KeyStore) : Prop where
  there : { slot := slot, key := key, site := site, tx := tx, kep := kep, llog := llog, legacy := legacy, sent := [], fails := 0 } ∈ ks'.keys
  fresh : ∀ k ∈ ks'.keys, k.slot = slot → k.key = key
  kept : ∀ k ∈ ks.keys, k.site ≠ site ∨ k.tx ≠ tx → k ∈ ks'.keys
  old : ∀ k ∈ ks'.keys, k ∈ ks.keys ∨ k.key = key
  two : (ks'.keys.filter fun k => k.site = site && k.tx = tx).length ≤ (ks.keys.filter fun k => k.site = site && k.tx = tx).length + 1
  low : 2 ≤ (ks.keys.filter fun k => k.site = site && k.tx = tx).length → ∀ k ∈ ks.keys, k.site = site → k.tx = tx →
    (∀ l ∈ ks.keys, l.site = site → l.tx = tx → k.kep.toNat ≤ l.kep.toNat) → k.key ≠ key → k ∉ ks'.keys
  top : ks'.topKep = NMap.insert ks.topKep (2 * site + if tx then 0 else 1) kep.toNat
  rest : ks' = { ks with keys := ks'.keys, topKep := ks'.topKep, lkey := ks'.lkey, lksel := ks'.lksel, lkep := ks'.lkep }

/-! ### Frames of the transport -/

/-- A frame of path n, whose record and state are p, has left under key k (R369, R372): it opens under the key to the payload and
carries the path's next pcount and pseq, both of which then stand one higher. -/
structure FrameLeft (ks : KeyStore) (d : Dev) (n : Nat) (p : TPath) (k : TKey) (type : Nat) (payload : List Byte) (ks' : KeyStore)
    (d' : Dev) : Prop where
  frame : ∃ f, d'.tidal.sent = d.tidal.sent ++ [f] ∧ fType f = type ∧ fSrc f = scSite d.sluice ∧ fKep f = k.kep.toNat ∧
    fPcount f = NMap.get k.sent 0 (pId p.desc) ∧ fPseq f = p.pseq.toNat ∧
    gcmOpen (toBytes 32 k.key.toNat) (sliceB (toBytes 64 f.hdr.toNat) 4 12) (toBytes 64 f.hdr.toNat) f.body (toBytes 16 f.tag.toNat) = some payload
  counted : ks' = { ks with keys := ks.keys.map fun y =>
    if y.slot = k.slot then { y with sent := NMap.upd y.sent 0 (pId p.desc) (· + 1) } else y }
  path : ∃ q, NMap.find? d'.tidal.paths n = some q ∧ q.pseq = p.pseq + 1 ∧ q.kep = some k.kep
  others : ∀ i, i ≠ n → NMap.find? d'.tidal.paths i = NMap.find? d.tidal.paths i

/-- Path n can send: its port is ON, and k is the key its next frame takes (R395), with room in the fields of the header. -/
structure CanSend (ks : KeyStore) (d : Dev) (n : Nat) (p : TPath) (k : TKey) : Prop where
  path : pathOf d n = some p
  port : tportOn d (pPort p.desc) = true
  key : pathKey ks p = some k
  room : NMap.get k.sent 0 (pId p.desc) < 2 ^ 61

/-- A frame that passes steps 1 to 4 of R373 but for its tag: its path, the path's state and the key. -/
structure Arrives (ks : KeyStore) (d : Dev) (f : Frame) (n : Nat) (p : TPath) (k : TKey) : Prop where
  names : matchPath d f = some n
  path : pathOf d n = some p
  port : tportOn d f.port.toNat = true
  mine : pPort p.desc = f.port.toNat
  sum : f.sumOk = true
  form : frameOk d f = true
  key : (ks.keys.find? fun k => ofPair (fSrc f) false k && k.kep.toNat = fKep f) = some k
  window : windowOk p (fKep f) (fPcount f) = true

/-- What its key makes of a frame's payload. -/
def opened (f : Frame) (k : TKey) : Option (List Byte) :=
  gcmOpen (toBytes 32 k.key.toNat) (sliceB (toBytes 64 f.hdr.toNat) 4 12) (toBytes 64 f.hdr.toNat) f.body (toBytes 16 f.tag.toNat)

/-- A frame that passes every step of R373, with its payload. -/
structure Received (ks : KeyStore) (d : Dev) (f : Frame) (n : Nat) (p : TPath) (k : TKey) (pt : List Byte) : Prop
    extends Arrives ks d f n p k where
  opens : opened f k = some pt
  fdig : fld f.hdr 383 256 = scFdig d.sluice

end Sys2Proof.Machine
end

