-- ==== Sys2Proof/Certificates/Slice0/Obligations.lean ====
section
/-! DEFINITION. The statements for the provers: what the commands of each family do, what they leave alone, what every step
keeps, and the functions they compute. -/

open Sys2Proof Sys2Proof.Machine

/-! ### Steps and the always-on domain -/

/-- A step takes the command at the front of the queue and answers what the command does with the queue's rest; on an empty queue
the device idles (the model's choice, log entry 2). Every command answers a next state in every state, and leaves the commands
that wait: the model's form of a device that reports errors in tallies, records and notices and stops at none (R66, R77, R461; log
entry 1). -/
def Obligations.StepsRunCommands : Prop :=
  (
  (∀ (s : State) (c : Instr) (rest : List Instr), s.pending = c :: rest → step s = exec c { s with pending := rest }) ∧
  (∀ s : State, s.pending = [] → step s = .next s) ∧
  ∀ (s : State) (nbits w : Nat), s.withFetchWord nbits w = s) ∧
  (
  ∀ (c : Instr) (s : State), ∃ s', exec c s = .next s' ∧ s'.pending = s.pending)

/-- At reset they are in their ranges: limits 2,700 MHz (R500), cap 4,400 W (R501), no cause and no condition. -/
def Obligations.AlwaysOnAtReset : Prop :=
  State.reset.aon.Ok ∧ (∀ c, limOf State.reset.aon c = 2700) ∧ State.reset.aon.cap = 4400 ∧ State.reset.aon.cause = 0

/-- R405, R447, R500 and R501: every step keeps the limits of the clusters, their quiet windows, the power cap, the causes of
alarms that persist and the row of licence fuses in their ranges, from every state in which they are. -/
def Obligations.AlwaysOnKept : Prop :=
  ∀ s s' : State, step s = .next s' → s.aon.Ok → s'.aon.Ok

/-- R441 and R447: no step changes a fused map of bad units, and the fused licence generation can only rise; LICENCE alone raises
it, and only for a licence of a higher generation. -/
def Obligations.FusesOnlyRise : Prop :=
  ∀ s s' : State, step s = .next s' →
    s.aon.fuses.lgen ≤ s'.aon.fuses.lgen ∧ s'.aon.fuses = { s.aon.fuses with lgen := s'.aon.fuses.lgen } ∧
    (s.aon.fuses.lgen < s'.aon.fuses.lgen → ∃ m rest, s.pending = .licence m :: rest)

/-- R253: a packet's header gives back every field that it was written from, it is well formed where its kind, target and length
are, and its pcrc matches. -/
def Obligations.HeaderRoundTrip : Prop :=
  ∀ (f : HdrF) (payload : List Byte), f.dstDev < 2 ^ 20 → f.dstTile < 2 ^ 11 → f.cls < 8 → f.kind ≤ 8 → f.tgt ≤ 4 →
    f.tag < 2 ^ 16 → f.job < 2 ^ 16 → f.srcDev < 2 ^ 20 → f.srcTile < 2 ^ 11 → payload.length / 8 + f.ask ≤ 32 →
    f.addr < 2 ^ 48 → f.stream < 2 ^ 16 → f.chunk < 2 ^ 24 → f.pidx < 2 ^ 8 →
    let h := mkHdr f payload
    hDstDev h = BitVec.ofNat 20 f.dstDev ∧ hDstTile h = f.dstTile ∧ hClass h = f.cls ∧ hOrd h = f.ord ∧ hKind h = f.kind ∧
    hTgt h = f.tgt ∧ hTag h = BitVec.ofNat 16 f.tag ∧ hJob h = BitVec.ofNat 16 f.job ∧ hSrcDev h = BitVec.ofNat 20 f.srcDev ∧
    hSrcTile h = f.srcTile ∧ hLen h = payload.length / 8 + f.ask ∧ hAddr h = f.addr ∧ hStream h = BitVec.ofNat 16 f.stream ∧
    hChunk h = f.chunk ∧ hPidx h = f.pidx ∧ hOk h = true ∧ pcrcOk ⟨h, payload, []⟩ = true

/-- R372: what AES-256-GCM seals under a key opens under the same key, vector and header, and under no other tag. -/
def Obligations.SealOpens : Prop :=
  ∀ key iv aad pt : List Byte, key.length = 32 → iv.length = 12 →
    let c := gcmSeal key iv aad pt
    gcmOpen key iv aad c.1 c.2 = some pt ∧ c.1.length = pt.length ∧ c.2.length = 16 ∧
      ∀ tag, tag ≠ c.2 → gcmOpen key iv aad c.1 tag = none

/-! ### Numbers (file 02) -/

/-- R36, R50 and R51: every finite number of a floating-point format survives a conversion into its own format: its encoding comes
back, signed zeros and subnormals included, and no counter counts, whatever conv asks but conv.ftz. -/
def Obligations.NumbersRoundTrip : Prop :=
  ∀ (F : FFmt) (conv code : Nat), F ∈ [fp32, bf16, e4m3, e5m2] → code < 2 ^ (1 + F.ebits + F.fbits) →
    (F.decode code).finite = true → bitAt conv 2 = false → F.conv conv (F.decode code) = (code, .none)

/-- R54: under RTZ a finite source never becomes non-finite; beyond the largest finite value it is written as that value with the
source's sign, whatever conv.nsat holds, and is counted as saturated. -/
def Obligations.RoundTowardZero : Prop :=
  ∀ (F : FFmt) (conv : Nat) (neg : Bool) (m : Nat) (e : Int), F ∈ [fp32, bf16, e4m3, e5m2] → bitAt conv 0 = true →
    (F.decode (F.conv conv (.fin neg m e)).1).finite = true ∧
      ((F.decode F.maxFin).lt (.fin false m e) = true → F.conv conv (.fin neg m e) = (F.sign neg + F.maxFin, .sat))

/-- R55: the code of a finite value under a scale. N4 and N8 take the largest index whose value does not exceed the source's
magnitude, with its sign, and 0 below the smallest; U8L takes the smallest code that decodes to no more than the source, 0x00
above the scale, and 0xFF for a negative source or when no code qualifies. -/
def Obligations.CodeEncoding : Prop :=
  ∀ (x : FVal) (scale : F32), x.finite = true → scaleOk scale = true →
    let le (f : Fmt) (c : Nat) : Prop := ∃ v, codeVal f c scale = some v ∧ v.le x.abs = true
    let n4 := (codeEncode .n4 x scale).1
    let n8 := (codeEncode .n8 x scale).1
    let u8 := (codeEncode .u8l x scale).1
    (n4 < 16 ∧ n4 ≠ 8 ∧ (n4 ≠ 0 → le .n4 (n4 % 8) ∧ (bitAt n4 3 = x.isNeg)) ∧ (∀ j, n4 % 8 < j → j < 8 → ¬ le .n4 j) ∧
      (x.abs.lt ((FVal.fin false 24 (-8)).mul (val32 scale)) = true → n4 = 0)) ∧
    (n8 < 256 ∧ n8 ≠ 0x80 ∧ (n8 ≠ 0 → le .n8 (n8 % 128) ∧ (bitAt n8 7 = x.isNeg)) ∧ (∀ j, n8 % 128 < j → j < 128 → ¬ le .n8 j) ∧
      (x.abs.lt ((FVal.fin false 17 (-11)).mul (val32 scale)) = true → n8 = 0)) ∧
    (x.isZero = true → n4 = 0 ∧ n8 = 0 ∧ u8 = 0xFF) ∧ (x.isZero = false → x.isNeg = true → u8 = 0xFF) ∧
    (x.isNeg = false → (val32 scale).lt x = true → u8 = 0) ∧
    (x.isNeg = false → x.isZero = false → (val32 scale).lt x = false →
      u8 ≤ 0xFF ∧ (u8 ≠ 0xFF → (val32 (u8lDecode u8 scale)).le x = true) ∧ ∀ j, j < u8 → (val32 (u8lDecode j scale)).le x = false)

/-- R46, R47 and R49: the sum of a group of products does not depend on their order, and a sum whose first part is a multiple of
32 products long is the sum of the first part, continued from its FP32 result by the second: bits and truncated groups both. -/
def Obligations.GroupSums : Prop :=
  (∀ (acc : F32) (ps qs : List (FVal × FVal)), List.Perm ps qs → addGroup acc ps = addGroup acc qs) ∧
  (∀ (acc : F32) (ps qs : List (FVal × FVal)), ps.length % 32 = 0 →
    addGroups acc (ps ++ qs) = ((addGroups (addGroups acc ps).1 qs).1, (addGroups acc ps).2 + (addGroups (addGroups acc ps).1 qs).2))

/-- R145: MAX, MIN and the reductions order numbers with −0 below +0; any NaN among the compared values makes MAX, MIN, REDUCE_MAX
and REDUCE_MIN the canonical NaN; REDUCE_ARGMAX gives the lowest index that holds the maximum, or the lowest that holds a NaN.
With every element masked the sum is +0, the maximum −∞, the minimum +∞ and the index −1.0. Every index below 2^24 is exact. -/
def Obligations.ReductionOrder : Prop :=
  (ford 0x80000000 0 = true ∧ ford 0 0x80000000 = false) ∧
  (∀ x y : F32, (fnan? x = true ∨ fnan? y = true → fmax x y = nan32 ∧ fmin x y = nan32) ∧
    (fnan? x = false → fnan? y = false →
      (fmax x y = x ∨ fmax x y = y) ∧ ford (fmax x y) x = false ∧ ford (fmax x y) y = false ∧
      (fmin x y = x ∨ fmin x y = y) ∧ ford x (fmin x y) = false ∧ ford y (fmin x y) = false)) ∧
  (∀ l : List (Option F32), (∃ v, some v ∈ l) →
    ((∃ v, some v ∈ l ∧ fnan? v = true) → stReduce 3 l = nan32 ∧ stReduce 4 l = nan32) ∧
    ((∀ v, some v ∈ l → fnan? v = false) →
      (some (stReduce 3 l) ∈ l ∧ ∀ w, some w ∈ l → ford (stReduce 3 l) w = false) ∧
      (some (stReduce 4 l) ∈ l ∧ ∀ w, some w ∈ l → ford w (stReduce 4 l) = false)) ∧
    ∃ i v, l[i]? = some (some v) ∧ stReduce 5 l = fofNat i ∧
      (fnan? v = true → ∀ j w, j < i → l[j]? = some (some w) → fnan? w = false) ∧
      (fnan? v = false → ∀ j w, l[j]? = some (some w) → fnan? w = false ∧ ford v w = false ∧ (j < i → ford w v = true))) ∧
  (∀ n, stReduce 2 (List.replicate n none) = 0 ∧ stReduce 3 (List.replicate n none) = ninf32 ∧
    stReduce 4 (List.replicate n none) = inf32 ∧ stReduce 5 (List.replicate n none) = fneg one32) ∧
  ∀ i, i < 2 ^ 24 → (val32 (fofNat i)).eqv (.fin false i 0) = true

/-- R126, R144 and R148: a SOFTMAX row that is empty or −∞ throughout is zero, one with a NaN is NaN throughout, and one with +∞
shares 1 among the infinities; a sum by rowsum adds the tree of each block of 64 to the running sum, and masked elements as +0. -/
def Obligations.RowArithmetic : Prop :=
  (∀ xs : List (Option F32), (∀ v ∈ xs, v = none ∨ v = some ninf32) → softRow xs = (xs.map fun _ => 0, true)) ∧
  (∀ xs : List (Option F32), (∃ v, some v ∈ xs ∧ fnan? v = true) → softRow xs = (xs.map fun _ => nan32, false)) ∧
  (∀ xs : List (Option F32), (∀ v, some v ∈ xs → fnan? v = false) → some inf32 ∈ xs →
    softRow xs = (xs.map fun v => if v = some inf32 then fdiv one32 (fofNat (xs.count (some inf32))) else 0, false)) ∧
  (∀ a b : List F32, 0 < a.length → a.length % 64 = 0 → 0 < b.length → b.length ≤ 64 →
    rowsum (a ++ b) = fadd (rowsum a) (tree64 b)) ∧
  ∀ a b : List (Option F32), stReduce 2 (a ++ none :: b) = stReduce 2 (a ++ some 0 :: b)

/-! ### The crown (file 03) -/

/-- R70, arithmetic: the thread that the crown issues next runs the operation of its word on the sources that the word's fields a
and b name, d receives the result modulo 2^64 (s0 discards it), and the program counter moves on. Nothing else of the thread, the
tile, memory or the device changes, but counters. R70, comparisons: d receives 1 or 0 as the signed, equal or FP32 comparison of a
and b holds; an FP32 comparison with a NaN operand, or of −0 with +0, gives 0. The frame is that of the arithmetic operations.
R70, control: BNZ and BZ move the program counter by the signed immediate from the instruction when a is, or is not, other than
zero, and on to the next instruction otherwise; JMP sets it to a + imm. No register is written. -/
def Obligations.CrownOperations : Prop :=
  (
  ∀ (t : TileNo) (s : State) (th : Nat) (pn : PolderNo) (p : Polder) (w : W32), Issues s t.toNat th pn p w →
    let a := sreg s t.toNat th (w.extractLsb' 16 4)
    let b := sreg s t.toNat th (w.extractLsb' 12 4)
    let simm := (w.extractLsb' 0 12).signExtend 64
    let imm := (w.extractLsb' 0 12).zeroExtend 64
    let op := w.extractLsb' 24 8
    let gives (v : W64) : Out → Prop :=
      ThreadMoves s t.toNat th ((threadOf s.dev t.toNat th).pc + 1) (wrote (sreg s t.toNat th) (w.extractLsb' 20 4) v)
    (op = 0x01 → gives (a + b) (exec (.add t) s)) ∧
    (op = 0x02 → gives (a - b) (exec (.sub t) s)) ∧
    (op = 0x03 → gives (a * b) (exec (.mul t) s)) ∧
    (op = 0x04 → gives (a &&& b) (exec (.andOp t) s)) ∧
    (op = 0x05 → gives (a ||| b) (exec (.orOp t) s)) ∧
    (op = 0x06 → gives (a ^^^ b) (exec (.xorOp t) s)) ∧
    (op = 0x07 → gives (a <<< (b.toNat % 64)) (exec (.shl t) s)) ∧
    (op = 0x08 → gives (a >>> (b.toNat % 64)) (exec (.shr t) s)) ∧
    (op = 0x09 → gives (a.sshiftRight (b.toNat % 64)) (exec (.sar t) s)) ∧
    (op = 0x0A → gives (a + simm) (exec (.addi t) s)) ∧
    (op = 0x0B → gives ((a <<< 12) ||| imm) (exec (.shli t) s))) ∧
  (
  ∀ (t : TileNo) (s : State) (th : Nat) (pn : PolderNo) (p : Polder) (w : W32), Issues s t.toNat th pn p w →
    let a := sreg s t.toNat th (w.extractLsb' 16 4)
    let b := sreg s t.toNat th (w.extractLsb' 12 4)
    let op := w.extractLsb' 24 8
    let gives (v : W64) : Out → Prop :=
      ThreadMoves s t.toNat th ((threadOf s.dev t.toNat th).pc + 1) (wrote (sreg s t.toNat th) (w.extractLsb' 20 4) v)
    (op = 0x0C → gives (if a.toInt < b.toInt then 1 else 0) (exec (.slt t) s)) ∧
    (op = 0x0D → gives (if a = b then 1 else 0) (exec (.seq t) s)) ∧
    (op = 0x0E → gives (if flt (a.extractLsb' 0 32) (b.extractLsb' 0 32) then 1 else 0) (exec (.flt t) s)) ∧
    (∀ x y : F32, fnan? x ∨ fnan? y → flt x y = false) ∧ flt 0x80000000 0 = false ∧ flt 0 0x80000000 = false) ∧
  (
  ∀ (t : TileNo) (s : State) (th : Nat) (pn : PolderNo) (p : Polder) (w : W32), Issues s t.toNat th pn p w →
    let a := sreg s t.toNat th (w.extractLsb' 16 4)
    let pc := (threadOf s.dev t.toNat th).pc
    let simm := (w.extractLsb' 0 12).signExtend 64
    let op := w.extractLsb' 24 8
    let goes (v : W64) : Out → Prop := ThreadMoves s t.toNat th v (sreg s t.toNat th)
    (op = 0x18 → goes (if a ≠ 0 then pc + simm else pc + 1) (exec (.bnz t) s)) ∧
    (op = 0x19 → goes (if a = 0 then pc + simm else pc + 1) (exec (.bz t) s)) ∧
    (op = 0x1A → goes (a + (w.extractLsb' 0 12).zeroExtend 64) (exec (.jmp t) s)))

/-- R70 and R71: LD checks the tile-local offset a + 8 × imm against the polder's share and waits; when the data of an outstanding
load returns from memory in no error, d receives the 64-bit word at that offset and the thread goes on. A load leaves all memory.
R70 and R71: ST stores the 64-bit word b at the tile-local offset a + 8 × imm, eight bytes in little-endian order, whether or not
an error lay there, and goes on; every byte outside those eight and every other error state stays. R70, R79 and R80: SUMRD reads a
summary register of the polder's range whole. WAITS reads it when its post count differs from a[15:0], and waits for a post
otherwise. -/
def Obligations.CrownMemory : Prop :=
  (
  (∀ (t : TileNo) (s : State) (th : Nat) (pn : PolderNo) (p : Polder) (w : W32) (o : W64), Issues s t.toNat th pn p w →
    w.extractLsb' 24 8 = 0x10 → o = sreg s t.toNat th (w.extractLsb' 16 4) + 8 * (w.extractLsb' 0 12).zeroExtend 64 →
    o.toNat % 8 = 0 → o.toNat + 8 ≤ 2 ^ 20 →
    inShare s.dev p t.toNat (t.toNat * 2 ^ 20 + o.toNat) (t.toNat * 2 ^ 20 + o.toNat + 8) = true →
    ThreadWaits s t.toNat th (.load (w.extractLsb' 20 4) o.toNat) (exec (.ld t) s)) ∧
  (∀ (t : TileNo) (th : ThreadNo) (s : State) (pn : PolderNo) (p : Polder) (rd : BitVec 4) (o : Nat),
    (threadOf s.dev t.toNat th.toNat).st = .waiting → (threadOf s.dev t.toNat th.toNat).wait = .load rd o →
    polderOfThread s.dev t.toNat th.toNat = some (pn, p) → rangeErr s.dev (t.toNat * 2 ^ 20 + o) 8 = none →
    Clean s.dev (t.toNat * 2 ^ 20 + o) 8 →
    ∃ s', exec (.ldDataReturn t th) s = .next s' ∧ s'.dev = { s.dev with tiles := s'.dev.tiles } ∧
      OneThread s s' t.toNat th.toNat (tileOf s.dev t.toNat).lastIssue ((threadOf s.dev t.toNat th.toNat).pc + 1)
        (wrote (sreg s t.toNat th.toNat) rd (BitVec.ofNat 64 (ofBytes (bytesAt s.dev (t.toNat * 2 ^ 20 + o) 8)))))) ∧
  (
  ∀ (t : TileNo) (s : State) (th : Nat) (pn : PolderNo) (p : Polder) (w : W32) (o : W64), Issues s t.toNat th pn p w →
    w.extractLsb' 24 8 = 0x11 → o = sreg s t.toNat th (w.extractLsb' 16 4) + 8 * (w.extractLsb' 0 12).zeroExtend 64 →
    o.toNat % 8 = 0 → o.toNat + 8 ≤ 2 ^ 20 →
    inShare s.dev p t.toNat (t.toNat * 2 ^ 20 + o.toNat) (t.toNat * 2 ^ 20 + o.toNat + 8) = true →
    ∃ s', exec (.st t) s = .next s' ∧
      s'.dev = { s.dev with tiles := s'.dev.tiles, counters := s'.dev.counters,
                            mem := { s.dev.mem with bytes := s'.dev.mem.bytes, ecc := s'.dev.mem.ecc } } ∧
      OneThread s s' t.toNat th th ((threadOf s.dev t.toNat th).pc + 1) (sreg s t.toNat th) ∧
      bytesAt s'.dev (t.toNat * 2 ^ 20 + o.toNat) 8 = toBytes 8 (sreg s t.toNat th (w.extractLsb' 12 4)).toNat ∧
      (∀ a, a < t.toNat * 2 ^ 20 + o.toNat ∨ t.toNat * 2 ^ 20 + o.toNat + 8 ≤ a → byteAt s'.dev a = byteAt s.dev a) ∧
      (∀ k, progBase ≤ k → Mem.read s'.dev.mem.bytes k = Mem.read s.dev.mem.bytes k) ∧
      ∀ k, NMap.find? s'.dev.mem.ecc k =
        if k = (t.toNat * 2 ^ 20 + o.toNat) / 8 then none else NMap.find? s.dev.mem.ecc k) ∧
  (
  ∀ (t : TileNo) (s : State) (th : Nat) (pn : PolderNo) (p : Polder) (w : W32), Issues s t.toNat th pn p w →
    let r := (w.extractLsb' 0 6).toNat
    let v := summOf s.dev t.toNat r
    let rd := w.extractLsb' 20 4
    let a := sreg s t.toNat th (w.extractLsb' 16 4)
    p.ybase ≤ r → r < p.ybase + p.ycount →
    (w.extractLsb' 24 8 = 0x20 →
      ThreadMoves s t.toNat th ((threadOf s.dev t.toNat th).pc + 1) (wrote (sreg s t.toNat th) rd v) (exec (.sumrd t) s)) ∧
    (w.extractLsb' 24 8 = 0x21 → v.extractLsb' 48 16 ≠ a.extractLsb' 0 16 →
      ThreadMoves s t.toNat th ((threadOf s.dev t.toNat th).pc + 1) (wrote (sreg s t.toNat th) rd v) (exec (.waits t) s)) ∧
    (w.extractLsb' 24 8 = 0x21 → v.extractLsb' 48 16 = a.extractLsb' 0 16 →
      ThreadWaits s t.toNat th (.post rd r (a.extractLsb' 0 16)) (exec (.waits t) s)))

/-- R67, R70 and R64: SPAWN starts the lowest-numbered FREE thread of the polder's range at instruction a, with s1 = b, s2 its own
number and every other register zero, and d receives its number; with none FREE, d receives all ones. EXIT frees the thread, with
its registers zero. CYC reads the tile's cycle counter as it stands once the cycles since it was last seen are counted (a free
number of them: timing is not modelled). -/
def Obligations.CrownThreads : Prop :=
  ∀ (t : TileNo) (s : State) (th : Nat) (pn : PolderNo) (p : Polder) (w : W32), Issues s t.toNat th pn p w →
    let a := sreg s t.toNat th (w.extractLsb' 16 4)
    let b := sreg s t.toNat th (w.extractLsb' 12 4)
    let rd := w.extractLsb' 20 4
    let pc := (threadOf s.dev t.toNat th).pc
    (∀ n, w.extractLsb' 24 8 = 0x2B → p.tbase ≤ n → n < p.tbase + p.tcount → (threadOf s.dev t.toNat n).st = .free →
      (∀ m, p.tbase ≤ m → m < n → (threadOf s.dev t.toNat m).st ≠ .free) →
      ∃ s', exec (.spawn t) s = .next s' ∧ DevAlone s s' ∧
        OnlyTiles s.dev s'.dev ∧
        (∀ u, u ≠ t.toNat → tileOf s'.dev u = tileOf s.dev u) ∧
        tileOf s'.dev t.toNat = { tileOf s.dev t.toNat with threads := (tileOf s'.dev t.toNat).threads, lastIssue := th } ∧
        (∀ u, u ≠ th → u ≠ n → threadOf s'.dev t.toNat u = threadOf s.dev t.toNat u) ∧
        (threadOf s'.dev t.toNat n).st = .ready ∧ (threadOf s'.dev t.toNat n).pc = a ∧
        (∀ r, sreg s' t.toNat n r = if r = 1 then b else if r = 2 then BitVec.ofNat 64 n else 0) ∧
        (threadOf s'.dev t.toNat th).st = .ready ∧ (threadOf s'.dev t.toNat th).pc = pc + 1 ∧
        ∀ r, sreg s' t.toNat th r = wrote (sreg s t.toNat th) rd (BitVec.ofNat 64 n) r) ∧
    (w.extractLsb' 24 8 = 0x2B → (∀ m, p.tbase ≤ m → m < p.tbase + p.tcount → (threadOf s.dev t.toNat m).st ≠ .free) →
      ThreadMoves s t.toNat th (pc + 1) (wrote (sreg s t.toNat th) rd (BitVec.allOnes 64)) (exec (.spawn t) s)) ∧
    (w.extractLsb' 24 8 = 0x2C →
      ∃ s', exec (.exit t) s = .next s' ∧ DevAlone s s' ∧
        OnlyTiles s.dev s'.dev ∧
        (∀ u, u ≠ t.toNat → tileOf s'.dev u = tileOf s.dev u) ∧
        tileOf s'.dev t.toNat = { tileOf s.dev t.toNat with threads := (tileOf s'.dev t.toNat).threads, lastIssue := th } ∧
        (∀ u, u ≠ th → threadOf s'.dev t.toNat u = threadOf s.dev t.toNat u) ∧
        (threadOf s'.dev t.toNat th).st = .free ∧ ∀ r, sreg s' t.toNat th r = 0) ∧
    (w.extractLsb' 24 8 = 0x2D →
      ∃ s', exec (.cyc t) s = .next s' ∧ DevAlone s s' ∧
        s'.dev = { s.dev with free := s.dev.free + 1, tiles := s'.dev.tiles, counters := s'.dev.counters } ∧
        (∀ u, u ≠ t.toNat → tileOf s'.dev u = tileOf s.dev u) ∧
        (∀ u, u ≠ th → threadOf s'.dev t.toNat u = threadOf s.dev t.toNat u) ∧
        (tileOf s'.dev t.toNat).cyc = (tileOf s.dev t.toNat).cyc + BitVec.ofNat 64 (Config.elapsed s.dev.free) ∧
        (threadOf s'.dev t.toNat th).st = .ready ∧ (threadOf s'.dev t.toNat th).pc = pc + 1 ∧
        ∀ r, sreg s' t.toNat th r = wrote (sreg s t.toNat th) rd (tileOf s'.dev t.toNat).cyc r)

/-- R66, R68, R69 and R71: a word outside the table, or with a nonzero field that its operation does not use, faults the thread
with 0x0410; a fetch beyond the region faults it with 0x0411; a load or store that is misaligned or outside the share faults it
with 0x0412. The fault parks the thread and writes the record of R424. -/
def Obligations.CrownFaults : Prop :=
  (∀ (t : TileNo) (s : State) (th : Nat) (pn : PolderNo) (p : Polder) (w : W32), Fetches s t.toNat th pn p w → th < 1024 →
    polderOf s.dev pn = some p →
    (iOk w = false → ThreadFaults s t.toNat th pn 0x0410 (exec (.unknownOpCode t) s)) ∧
    (iOk w = true → ∀ o : W64, o = sreg s t.toNat th (w.extractLsb' 16 4) + 8 * (w.extractLsb' 0 12).zeroExtend 64 →
      (o.toNat % 8 ≠ 0 ∨ 2 ^ 20 < o.toNat + 8 ∨
        inShare s.dev p t.toNat (t.toNat * 2 ^ 20 + o.toNat) (t.toNat * 2 ^ 20 + o.toNat + 8) = false) →
      (w.extractLsb' 24 8 = 0x10 → ThreadFaults s t.toNat th pn 0x0412 (exec (.ld t) s)) ∧
      (w.extractLsb' 24 8 = 0x11 → ThreadFaults s t.toNat th pn 0x0412 (exec (.st t) s)))) ∧
  (∀ (t : TileNo) (s : State) (th : Nat) (pn : PolderNo) (p : Polder), nextThread s.dev t.toNat = some th → th < 1024 →
    polderOfThread s.dev t.toNat th = some (pn, p) → polderOf s.dev pn = some p →
    p.plen ≤ (threadOf s.dev t.toNat th).pc.toNat → ThreadFaults s t.toNat th pn 0x0411 (exec (.fetchOutsideRegion t) s)) ∧
  (∀ w : W32, (w.extractLsb' 24 8).toNat ∉ [0x01, 0x02, 0x03, 0x04, 0x05, 0x06, 0x07, 0x08, 0x09, 0x0A, 0x0B, 0x0C, 0x0D, 0x0E,
    0x10, 0x11, 0x18, 0x19, 0x1A, 0x20, 0x21, 0x28, 0x29, 0x2B, 0x2C, 0x2D] → iOk w = false) ∧
  (∀ w : W32, w.extractLsb' 24 8 = 0x01 → w.extractLsb' 0 12 ≠ 0 → iOk w = false) ∧
  (∀ w : W32, w.extractLsb' 24 8 = 0x2C → w.extractLsb' 0 24 ≠ 0 → iOk w = false)

/-- R70, R73 and R76: ISSUE of a descriptor without a prerequisite, with a slot free, space in its engine's queue and no ISSUE
waiting before it, takes the slot at the head of the free list, raises its generation, puts the descriptor at the end of the
queue, and gives d the op tag (tile × 32 + slot) and the generation. R70 and R74: WAIT answers at once with the completion word of
an operation of the own polder that the slot still records, and waits while the operation is queued or running. R73: when a slot
and a queue entry are free, the ISSUE that waits first obtains them, and its thread goes on with op tag and generation. -/
def Obligations.CrownIssueAndWait : Prop :=
  (
  ∀ (t : TileNo) (s : State) (th : Nat) (pn : PolderNo) (p : Polder) (w : W32) (e : EngineId) (sl : Nat) (rest : List Nat),
    Issues s t.toNat th pn p w → w.extractLsb' 24 8 = 0x28 →
    let A := t.toNat * 2 ^ 20 + (sreg s t.toNat th (w.extractLsb' 16 4)).toNat
    let desc : BitVec 1024 := BitVec.ofNat 1024 (ofBytes (bytesAt s.dev A 128))
    let gen := (slotOf s.dev t.toNat sl).gen + 1
    (sreg s t.toNat th (w.extractLsb' 16 4)).toNat % 64 = 0 → (sreg s t.toNat th (w.extractLsb' 16 4)).toNat + 128 ≤ 2 ^ 20 →
    inShare s.dev p t.toNat A (A + 128) = true → Clean s.dev A 128 →
    dDepEn desc = false → engOfCode (dEngine desc) = some e →
    (tileOf s.dev t.toNat).issueQ = [] → (tileOf s.dev t.toNat).freeSlots = sl :: rest → sl < 32 →
    (engineOf s.dev t.toNat e).queue.length < 8 → s.dev.resets = [] →
    ∃ s', exec (.issue t) s = .next s' ∧ DevAlone s s' ∧
      OnlyTiles s.dev s'.dev ∧
      (∀ u, u ≠ t.toNat → tileOf s'.dev u = tileOf s.dev u) ∧
      tileOf s'.dev t.toNat = { tileOf s.dev t.toNat with
        threads := (tileOf s'.dev t.toNat).threads, lastIssue := th, freeSlots := rest,
        slots := (tileOf s'.dev t.toNat).slots, engines := (tileOf s'.dev t.toNat).engines } ∧
      (∀ u, u ≠ th → threadOf s'.dev t.toNat u = threadOf s.dev t.toNat u) ∧
      (threadOf s'.dev t.toNat th).st = .ready ∧ (threadOf s'.dev t.toNat th).pc = (threadOf s.dev t.toNat th).pc + 1 ∧
      (∀ r, sreg s' t.toNat th r =
        wrote (sreg s t.toNat th) (w.extractLsb' 20 4) (BitVec.ofNat 64 (t.toNat * 32 + sl + gen.toNat * 2 ^ 16)) r) ∧
      (slotOf s'.dev t.toNat sl).gen = gen ∧ (slotOf s'.dev t.toNat sl).use = .held pn ∧
      (∀ k, k ≠ sl → slotOf s'.dev t.toNat k = slotOf s.dev t.toNat k) ∧
      (engineOf s'.dev t.toNat e).queue = (engineOf s.dev t.toNat e).queue ++ [⟨desc, sl, gen, .met⟩] ∧
      (engineOf s'.dev t.toNat e).run = (engineOf s.dev t.toNat e).run ∧
      ∀ f, f ≠ e → engineOf s'.dev t.toNat f = engineOf s.dev t.toNat f) ∧
  (
  ∀ (t : TileNo) (s : State) (th : Nat) (pn : PolderNo) (p : Polder) (w : W32), Issues s t.toNat th pn p w →
    w.extractLsb' 24 8 = 0x29 →
    let a := sreg s t.toNat th (w.extractLsb' 16 4)
    let sl := (a.extractLsb' 0 5).toNat
    let gen := a.extractLsb' 16 16
    (a.extractLsb' 0 16).toNat / 32 = t.toNat →
    (∀ r, recOf (slotOf s.dev t.toNat sl) gen = some r → r.polder = pn →
      ThreadMoves s t.toNat th ((threadOf s.dev t.toNat th).pc + 1)
        (wrote (sreg s t.toNat th) (w.extractLsb' 20 4) (r.cword.zeroExtend 64)) (exec (.wait t) s)) ∧
    ((slotOf s.dev t.toNat sl).use = .held pn → (slotOf s.dev t.toNat sl).gen = gen →
      recOf (slotOf s.dev t.toNat sl) gen = none →
      ThreadWaits s t.toNat th (.op (w.extractLsb' 20 4) sl gen) (exec (.wait t) s))) ∧
  (
  ∀ (t : TileNo) (s : State) (th : Nat) (pn : PolderNo) (p : Polder) (x : IssueWait) (q : List IssueWait) (rd : BitVec 4)
    (e : EngineId) (sl : Nat) (rest : List Nat),
    (tileOf s.dev t.toNat).issueQ = x :: q → x.thread = some th → (threadOf s.dev t.toNat th).st = .waiting →
    (threadOf s.dev t.toNat th).wait = .slot rd → polderOfThread s.dev t.toNat th = some (pn, p) →
    engOfCode (dEngine x.desc) = some e → (tileOf s.dev t.toNat).freeSlots = sl :: rest → sl < 32 →
    (engineOf s.dev t.toNat e).queue.length < 8 → s.dev.resets = [] →
    let gen := (slotOf s.dev t.toNat sl).gen + 1
    ∃ s', exec (.issueSlotGrant t) s = .next s' ∧ DevAlone s s' ∧ s'.dev = { s.dev with tiles := s'.dev.tiles } ∧
      (∀ u, u ≠ t.toNat → tileOf s'.dev u = tileOf s.dev u) ∧
      tileOf s'.dev t.toNat = { tileOf s.dev t.toNat with
        threads := (tileOf s'.dev t.toNat).threads, issueQ := q, freeSlots := rest,
        slots := (tileOf s'.dev t.toNat).slots, engines := (tileOf s'.dev t.toNat).engines } ∧
      (∀ u, u ≠ th → threadOf s'.dev t.toNat u = threadOf s.dev t.toNat u) ∧
      (threadOf s'.dev t.toNat th).st = .ready ∧ (threadOf s'.dev t.toNat th).pc = (threadOf s.dev t.toNat th).pc + 1 ∧
      (∀ r, sreg s' t.toNat th r =
        wrote (sreg s t.toNat th) rd (BitVec.ofNat 64 (t.toNat * 32 + sl + gen.toNat * 2 ^ 16)) r) ∧
      (slotOf s'.dev t.toNat sl).gen = gen ∧ (slotOf s'.dev t.toNat sl).use = .held pn ∧
      (∀ k, k ≠ sl → slotOf s'.dev t.toNat k = slotOf s.dev t.toNat k) ∧
      (engineOf s'.dev t.toNat e).queue = (engineOf s.dev t.toNat e).queue ++ [⟨x.desc, sl, gen, x.dep⟩] ∧
      (engineOf s'.dev t.toNat e).run = (engineOf s.dev t.toNat e).run ∧
      ∀ f, f ≠ e → engineOf s'.dev t.toNat f = engineOf s.dev t.toNat f)

/-! ### Engines (files 03 to 08 and 12) -/

/-- R72, R75, R76, R77 and R86: at a descriptor boundary an idle engine takes its next descriptor out of the queue. A tally
address that is refused gives its status and no tally; a failed prerequisite gives 0x040C, a header or opcode outside its encoding
0x0402, a foreign polder or a class without a share 0x0408; otherwise the operation runs. A descriptor whose prerequisite has not
ended keeps the engine idle, and a running operation keeps it busy. R74, R76 and R77: an operation that has ended, with every
request answered, writes its tally, enters its completion word in its slot's record, resumes the threads that wait on it with that
word, frees its slot to the tail of the free list and leaves its engine idle. With a request open nothing happens yet. -/
def Obligations.EngineBoundaries : Prop :=
  (
  ∀ (t : TileNo) (e : EngineId) (s : State),
    (∀ (q : QOp) (pn : PolderNo), runOf s.dev t.toNat e = none → nextDesc s.dev t.toNat e = some q →
      s.dev.grid.routerFault = false → (slotOf s.dev t.toNat q.slot).use = .held pn → (q.dep = .met ∨ q.dep = .failed) →
      ∃ s' r, exec (.engineOpStart t e) s = .next s' ∧ DevAlone s s' ∧
        (s'.dev = onEngine s.dev t.toNat e fun y => { queue := y.queue.erase q, run := some r }) ∧ r.q = q ∧ r.begun = false ∧
        (∀ c, tallyErr s.dev pn (dTally q.desc) = some c → r.tallyOk = false ∧ r.ended = some ⟨.notStarted, c⟩) ∧
        (tallyErr s.dev pn (dTally q.desc) = none → r.tallyOk = true ∧
          (q.dep = .failed → r.ended = some ⟨.notStarted, 0x040C⟩) ∧
          (q.dep = .met → (dHdrOk q.desc = false ∨ opcodeOk e (dOpcode q.desc) = false) → r.ended = some ⟨.notStarted, 0x0402⟩) ∧
          (q.dep = .met → dHdrOk q.desc = true → opcodeOk e (dOpcode q.desc) = true → ∀ p, polderOf s.dev pn = some p →
            ((dPolder q.desc ≠ pn ∨ dClass q.desc = 0 ∨ p.share (dClass q.desc) = 0) → r.ended = some ⟨.notStarted, 0x0408⟩) ∧
            (dPolder q.desc = pn → dClass q.desc ≠ 0 → p.share (dClass q.desc) ≠ 0 → r.ended = none)))) ∧
    (∀ q sl g, nextDesc s.dev t.toNat e = some q → q.dep = .on sl g → exec (.engineOpStart t e) s = .next s) ∧
    (∀ r, runOf s.dev t.toNat e = some r → exec (.engineOpStart t e) s = .next s) ∧
    (nextDesc s.dev t.toNat e = none → exec (.engineOpStart t e) s = .next s)) ∧
  (
  ∀ (t : TileNo) (e : EngineId) (s : State) (r : RunOp) (x : OpEnd) (pn : PolderNo),
    runOf s.dev t.toNat e = some r → r.ended = some x → (slotOf s.dev t.toNat r.q.slot).use = .held pn →
    (openReqs s.dev t.toNat r.q.slot ≠ [] → e ≠ .router → exec (.engineOpEnd t e) s = .next s) ∧
    (openReqs s.dev t.toNat r.q.slot = [] → r.lostWrites = [] → r.bad = none → r.tallyOk = true →
      rangeErr s.dev (dTally r.q.desc) 32 = none → dTally r.q.desc % 32 = 0 →
      (e = .fuller → fOutMode r.q.desc = 0 ∧ (tileOf s.dev t.toNat).orphans = []) → (e = .router → 3 ≤ dOpcode r.q.desc ∧ dOpcode r.q.desc ≤ 6) →
      s.dev.fabric.reqs.any (fun y => y.abandoned && y.tag = opTag t.toNat r.q.slot) = false →
      ∃ s', exec (.engineOpEnd t e) s = .next s' ∧ DevAlone s s' ∧ runOf s'.dev t.toNat e = none ∧
        bytesAt s'.dev (dTally r.q.desc) 32 = tallyBytes (dSeq r.q.desc) x true r.marker r.counts ∧
        (∀ a, a < dTally r.q.desc ∨ dTally r.q.desc + 32 ≤ a → byteAt s'.dev a = byteAt s.dev a) ∧
        (slotOf s'.dev t.toNat r.q.slot).use = .free ∧
        (slotOf s'.dev t.toNat r.q.slot).recs.head? = some ⟨r.q.gen, pn, cword x⟩ ∧
        (tileOf s'.dev t.toNat).freeSlots = (tileOf s.dev t.toNat).freeSlots ++ [r.q.slot] ∧
        (∀ th rd, NMap.find? (tileOf s.dev t.toNat).threads th = some (threadOf s.dev t.toNat th) →
          (threadOf s.dev t.toNat th).wait = .op rd r.q.slot r.q.gen → (threadOf s.dev t.toNat th).st = .waiting →
          (threadOf s'.dev t.toNat th).st = .ready ∧ (threadOf s'.dev t.toNat th).pc = (threadOf s.dev t.toNat th).pc + 1 ∧
          ∀ y, sreg s' t.toNat th y = wrote (sreg s t.toNat th) rd ((cword x).zeroExtend 64) y) ∧
        ∀ u, u ≠ t.toNat → tileOf s'.dev u = tileOf s.dev u))

/-- R77, R92 to R96, R100, R115 to R119, R186 and R195: the start of a MATMUL, BWD_DATA, BWD_WEIGHT or ADAPTER_DOWN. A reserved
encoding is refused with 0x0402, a field that R116 forbids with its status, a descriptor or channel list that cannot be read or a
check that fails with its status, before any other access; the index tables of compressed operands of this device are then read,
and a bad header refuses while a bad word of memory ends the operation PARTIAL. Otherwise the operation has begun with the tensors
read, and a BWD_WEIGHT of a frozen weight is DONE at once. Completion of MATMUL, BWD_DATA, BWD_WEIGHT and ADAPTER_DOWN is
concluded. -/
def Obligations.FullerStarts : Prop :=
  ∀ (t : TileNo) (s : State) (op : Nat) (i : Instr) (r : RunOp) (px : Polder),
    (op, i) ∈ [(1, Instr.matmul t), (2, .bwdData t), (3, .bwdWeight t), (4, .adapterDown t)] →
    running s.dev t.toNat .fuller op = some r → r.begun = false → r.bad = none → r.tds = [] →
    polderOf s.dev (runPolder s.dev t.toNat r) = some px →
    let x := r.q.desc
    let acc := runAcc s.dev t.toNat r
    let tds := readTds s.dev t.toNat px acc (fTdOfs x)
    let lst : Dev × Except Code (List Byte) :=
      if fNOut x = 0 then (tds.1, .ok []) else readLocal tds.1 t.toNat px acc (fld x 319 288) (4 * fNOut x)
    (fReservedOk x = false → OpEnds s t.toNat .fuller .notStarted 0x0402 0 (exec i s)) ∧
    (∀ c, fReservedOk x = true → fRoleErr x = some c → OpEnds s t.toNat .fuller .notStarted c 0 (exec i s)) ∧
    (fReservedOk x = true → fRoleErr x = none →
      (∀ c, tds.2 = .error c → OpEnds s t.toNat .fuller .notStarted c 0 (exec i s)) ∧
      (∀ l c, tds.2 = .ok l → lst.2 = .error c → OpEnds s t.toNat .fuller .notStarted c 0 (exec i s)) ∧
      ∀ l bs, tds.2 = .ok l → lst.2 = .ok bs →
        let r1 := { r with tds := l, lists := [words32 (fNOut x) bs] }
        let frozen := op = 3 ∧ tFrozen (l.getD 8 0) = true
        let cm := if frozen then [] else [l.getD 0 0, l.getD 1 0].filter tCmp
        let d2 := fullerRead s.dev t.toNat r
        let tb := tablesErr d2 acc r1 cm
        (∀ c, fullerErr lst.1 t.toNat (runPolder s.dev t.toNat r) px r1 = some c →
          OpEnds s t.toNat .fuller .notStarted c 0 (exec i s)) ∧
        (fullerErr lst.1 t.toNat (runPolder s.dev t.toNat r) px r1 = none → (∀ td ∈ cm, (tDev td).toNat = selfId s.dev) →
          (∀ c, tb.2 = some (false, c) → OpEnds { s with dev := d2 } t.toNat .fuller .notStarted c 0 (exec i s)) ∧
          (∀ c, tb.2 = some (true, c) → OpEnds { s with dev := d2 } t.toNat .fuller .inPart c 0 (exec i s)) ∧
          (tb.2 = none →
            ∃ s' r', exec i s = .next s' ∧ DevAlone s s' ∧ runOf s'.dev t.toNat .fuller = some r' ∧ r'.q = r.q ∧ r'.tds = l ∧
              r'.lists = r1.lists ∧ r'.begun = true ∧ r'.work = r.work ∧
              r'.ended = (if frozen then some ⟨.done, 0⟩ else none) ∧
              s'.dev.mem = tb.1.mem ∧ (∀ u, u ≠ t.toNat → tileOf s'.dev u = tileOf s.dev u) ∧
              ∀ f, f ≠ .fuller → engineOf s'.dev t.toNat f = engineOf s.dev t.toNat f)))

/-- R90, R91, R103 to R106, R110 and R122: at the end of a pass of an operation on tensors of this device either a down pass is
done and the adapter buffer of the m-tile has its next columns, or the next output tile is done. A tile that leaves through the
hand-off queue becomes its last entry, or is held in a bank when a bank is held already or the queue is full, with consumer, batch
and tile of the pass order; one that leaves to memory leaves queue and banks. After the last tile the operation is DONE with the
number of tiles as its marker; an operand that cannot be read or a store that is refused ends it PARTIAL. R97 to R103, R117, R118
and R122: completion of FULLER_PASS_END. With memory in no error, and every element that the pass reads and stores present,
uncompressed and with a good scale, a down pass enters alpha times its sums, rounded to BF16, into the adapter buffer, and to dP
under pstore; a pass of an output tile does not end the operation but with its last tile: without an epilogue each element of C
takes its sum under conv (under ADAPTER_DOWN, alpha times it in BF16), or goes into the tile that leaves through the hand-off
queue. No other byte of memory changes. -/
def Obligations.FullerPasses : Prop :=
  (
  ∀ (t : TileNo) (s : State) (r : RunOp) (px : Polder), runOf s.dev t.toNat .fuller = some r → r.begun = true → r.ended = none →
    r.bad = none → r.gone = none → fReservedOk r.q.desc = true → Local s.dev (fTdOfs r.q.desc) r.tds →
    polderOf s.dev (runPolder s.dev t.toNat r) = some px → r.work.step < fPasses r.q.desc r →
    banksHeld s.dev t.toNat r = false →
    ∃ s' r', exec (.fullerPassEnd t) s = .next s' ∧ DevAlone s s' ∧ runOf s'.dev t.toNat .fuller = some r' ∧ r'.q = r.q ∧
      r'.tds = r.tds ∧ (∀ f, f ≠ .fuller → engineOf s'.dev t.toNat f = engineOf s.dev t.toNat f) ∧
      (∀ u, u ≠ t.toNat → tileOf s'.dev u = { tileOf s.dev u with cyc := (tileOf s'.dev u).cyc }) ∧
      ((∃ c, r'.ended = some ⟨.inPart, c⟩) ∨
        (downDue r.q.desc r = true ∧ r'.work.step = r.work.step ∧ r'.work.down = r.work.down + 1 ∧ r'.ended = none ∧
          r'.work.stall = decide ((tileOf s.dev t.toNat).banks ≠ []) ∧
          (tileOf s'.dev t.toNat).banks = (tileOf s.dev t.toNat).banks ∧
          (tileOf s'.dev t.toNat).handoff = (tileOf s.dev t.toNat).handoff) ∨
        (downDue r.q.desc r = false ∧ r'.work.step = r.work.step + 1 ∧ r'.work.down = 0 ∧
          (r'.ended = none ∨ (r'.ended = some ⟨.done, 0⟩ ∧ r'.marker = fPasses r.q.desc r ∧ r'.work.step = fPasses r.q.desc r)) ∧
          (fOutMode r.q.desc = 0 → (tileOf s'.dev t.toNat).banks = (tileOf s.dev t.toNat).banks ∧
            (tileOf s'.dev t.toNat).handoff = (tileOf s.dev t.toNat).handoff) ∧
          (fOutMode r.q.desc = 1 → ∃ o : OutTile,
            o.cons.toNat = fld r.q.desc 463 448 ∧ o.gen.toNat = fld r.q.desc 479 464 ∧
            (o.batch, o.mt, o.nt) = fPassAt r.q.desc r r.work.step ∧ o.last = decide (r.work.step + 1 = fPasses r.q.desc r) ∧
            if (tileOf s.dev t.toNat).banks = [] ∧ (tileOf s.dev t.toNat).handoff.length < 16 then
              (tileOf s'.dev t.toNat).handoff = (tileOf s.dev t.toNat).handoff ++ [o] ∧ (tileOf s'.dev t.toNat).banks = []
            else (tileOf s'.dev t.toNat).banks = (tileOf s.dev t.toNat).banks ++ [o] ∧
              (tileOf s'.dev t.toNat).handoff = (tileOf s.dev t.toNat).handoff)))) ∧
  (
  ∀ (t : TileNo) (s : State) (r : RunOp) (px : Polder), runOf s.dev t.toNat .fuller = some r → r.begun = true → r.ended = none →
    r.bad = none → r.gone = none → r.note = none → polderOf s.dev (runPolder s.dev t.toNat r) = some px →
    r.work.step < fPasses r.q.desc r → banksHeld s.dev t.toNat r = false → s.dev.mem.ecc = [] →
    let x := r.q.desc
    let acc := runAcc s.dev t.toNat r
    let rows := nowRows x r
    let cols := nowCols x r
    let bx := passBx x r r.work.step
    let on (z : F32) (a b : List FVal) : F32 := (addGroups z (List.zip a b)).1
    (downDue x r = true → (∀ p ∈ downReads x r, Input s.dev p.1 (fSnap r p.1) p.2) → (∀ p ∈ downWrites x r, Reach s.dev p.1 p.2) →
      StoresOnly s (downWrites x r) (exec (.fullerPassEnd t) s) ∧
      ∃ s' r', exec (.fullerPassEnd t) s = .next s' ∧ runOf s'.dev t.toNat .fuller = some r' ∧ r'.ended = none ∧
        r'.work.step = r.work.step ∧ r'.work.down = r.work.down + 1 ∧
        (r.work.vals.length = rows.length * (64 * r.work.down) ∨ r.work.down = 0 →
          ∀ i m j k, rows[i]? = some m → (downCols x r)[j]? = some k →
            r'.work.vals[i * (64 * r.work.down + (downCols x r).length) + 64 * r.work.down + j]? =
              some (rne32 (val16 (BitVec.ofNat 16 (downElem (fAlpha x)
                (on 0 (lineVals s.dev acc r (aLine x r bx m)) (lineVals s.dev acc r (downLine x r bx k)))).1))))) ∧
    (downDue x r = false → (∀ p ∈ tileReads x r, Input s.dev p.1 (fSnap r p.1) p.2) → (∀ p ∈ tileWrites x r, Reach s.dev p.1 p.2) →
      StoresOnly s (tileWrites x r) (exec (.fullerPassEnd t) s) ∧
      ∃ s' r', exec (.fullerPassEnd t) s = .next s' ∧ runOf s'.dev t.toNat .fuller = some r' ∧
        r'.work.step = r.work.step + 1 ∧
        (r'.ended = if r'.work.step = fPasses x r ∧ (tileOf s'.dev t.toNat).banks = [] then some ⟨.done, 0⟩ else none) ∧
        (fEpi x = 0 → (fRank x = 0 ∨ dOpcode x = 4 ∨ r.work.vals.length = rows.length * fRank x) →
          (fOutMode x = 0 → (fmtOf (fTd r 2)).float?.isSome = true → Spread [] (tileWrites x r) →
            ∀ i m n, rows[i]? = some m → n ∈ cols →
              bytesAt s'.dev (elemAddr (fTd r 2) ([n, m] ++ bx)) (elemLen (fTd r 2)) = toBytes ((fmtOf (fTd r 2)).width / 8)
                (if dOpcode x = 4 then downElem (fAlpha x) (tileSum s.dev acc r i m n)
                 else outCode (fTd r 2) (fConv x) (tileSum s.dev acc r i m n)).1) ∧
          (fOutMode x ≠ 0 → ∃ o : OutTile, (o ∈ (tileOf s'.dev t.toNat).handoff ∨ o ∈ (tileOf s'.dev t.toNat).banks) ∧
            (o.batch, o.mt, o.nt) = fPassAt x r r.work.step ∧ o.rows = rows.length ∧ o.cols = cols.length ∧
            ∀ i m j n, rows[i]? = some m → cols[j]? = some n → o.data[64 * i + j]? = some (tileSum s.dev acc r i m n)))))

/-- R106, R151 and R153: the oldest bank drains into an entry that has freed; a stall that reaches hs_limit ends the Fuller's
operation PARTIAL with 0x0425 at the first tile not placed, which its banks lose; the Steamer takes the entry at the head, and
with the last one its operation ends; a wait that reaches hw_limit ends it PARTIAL with 0x0434 at the first element of Z that is
not done. Completion of HANDOFF_BANK_DRAIN, HANDOFF_STALL_LIMIT, HANDOFF_WAIT_LIMIT is concluded, and of HANDOFF_ENTRY_TAKE: a MAP
whose other tensors can be read and written goes on, and with the last entry is DONE. -/
def Obligations.HandoffQueue : Prop :=
  (∀ (t : TileNo) (s : State) (o : OutTile) (rest : List OutTile), (tileOf s.dev t.toNat).banks = o :: rest →
    (tileOf s.dev t.toNat).handoff.length < 16 →
    ∃ s', exec (.handoffBankDrain t) s = .next s' ∧ DevAlone s s' ∧ s'.dev = { s.dev with tiles := s'.dev.tiles } ∧
      (∀ u, u ≠ t.toNat → tileOf s'.dev u = tileOf s.dev u) ∧
      tileOf s'.dev t.toNat = { tileOf s.dev t.toNat with
        banks := rest, handoff := (tileOf s.dev t.toNat).handoff ++ [o], engines := (tileOf s'.dev t.toNat).engines } ∧
      (∀ f, f ≠ .fuller → engineOf s'.dev t.toNat f = engineOf s.dev t.toNat f) ∧
      ∀ r, runOf s.dev t.toNat .fuller = some r → r.begun = true → r.ended = none → r.gone = none → r.note = none →
        let r1 := { r with work := { r.work with stall := false } }
        runOf s'.dev t.toNat .fuller = some (if r.work.step = fPasses r.q.desc r ∧ rest = [] then
          { r1 with ended := some ⟨.done, 0⟩, marker := fPasses r.q.desc r } else r1)) ∧
  (∀ (t : TileNo) (s : State) (r : RunOp), runOf s.dev t.toNat .fuller = some r → r.begun = true → r.ended = none →
    fHsLimit r.q.desc ≠ 0 → handoffStalled s.dev t.toNat r = true →
    ∃ s', exec (.handoffStallLimit t) s = .next s' ∧ DevAlone s s' ∧ s'.dev = { s.dev with tiles := s'.dev.tiles } ∧
      (∀ u, u ≠ t.toNat → tileOf s'.dev u = tileOf s.dev u) ∧
      tileOf s'.dev t.toNat = { tileOf s.dev t.toNat with banks := [], engines := (tileOf s'.dev t.toNat).engines } ∧
      (∀ f, f ≠ .fuller → engineOf s'.dev t.toNat f = engineOf s.dev t.toNat f) ∧
      runOf s'.dev t.toNat .fuller = some { r with
        ended := some ⟨.inPart, 0x0425⟩, marker := r.work.step - (tileOf s.dev t.toNat).banks.length }) ∧
  (∀ (t : TileNo) (s : State) (r : RunOp) (px : Polder) (o : OutTile), runOf s.dev t.toNat .steamer = some r → r.begun = true →
    r.ended = none → r.bad = none → sSrc r.q.desc = true → polderOf s.dev (runPolder s.dev t.toNat r) = some px →
    headFor s.dev t.toNat r = some o →
    (∀ k, k < 7 → k ≠ 0 → sHas r.q.desc k = true → (tDev (sTd r k)).toNat = selfId s.dev) →
    ∃ s' r', exec (.handoffEntryTake t) s = .next s' ∧ DevAlone s s' ∧ runOf s'.dev t.toNat .steamer = some r' ∧ r'.q = r.q ∧
      (tileOf s'.dev t.toNat).handoff = (tileOf s.dev t.toNat).handoff.tail ∧
      (tileOf s'.dev t.toNat).banks = (tileOf s.dev t.toNat).banks ∧
      (∀ f, f ≠ .steamer → engineOf s'.dev t.toNat f = engineOf s.dev t.toNat f) ∧
      (o.last = true → ∃ x, r'.ended = some x ∧ (x = ⟨.done, 0⟩ ∨ x.st = .inPart)) ∧
      (o.last = false → r'.ended = none ∨ ∃ c, r'.ended = some ⟨.inPart, c⟩) ∧
      (dOpcode r.q.desc = 1 → s.dev.mem.ecc = [] → (tileOf s.dev t.toNat).orphans = [] →
        r.work.steam.band = none → r.work.steam.miss = none →
        (∀ p ∈ entryCells (sShape r.q.desc r) o,
          (∀ k ∈ [1, 2, 3], sHas r.q.desc k = true →
            Plain s.dev (sTd r k) (r.snaps.getD k []) (sIx r.q.desc r (sShape r.q.desc r) k p.1) ∧
              fmtOf (sTd r k) ≠ .n4 ∧ fmtOf (sTd r k) ≠ .n8) ∧
          (sHas r.q.desc 4 = true → Plain s.dev (sTd r 4) (r.snaps.getD 4 []) p.1)) →
        r'.ended = if o.last then some ⟨.done, 0⟩ else none)) ∧
  ∀ (t : TileNo) (s : State) (r : RunOp) (px : Polder), runOf s.dev t.toNat .steamer = some r → r.begun = true → r.ended = none →
    sSrc r.q.desc = true → sHwLimit r.q.desc ≠ 0 → headFor s.dev t.toNat r = none →
    polderOf s.dev (runPolder s.dev t.toNat r) = some px →
    OpEnds s t.toNat .steamer .inPart 0x0434 (sMarker (sEnv s.dev t.toNat r px) s.dev r.work.steam) (exec (.handoffWaitLimit t) s)

/-- R135 to R153: each Steamer operation. Its start refuses reserved encodings with 0x0402, an absent tensor with 0x0435, a
descriptor that cannot be read or a check that fails with its status; otherwise it begins. From memory it then runs through its
shape and ends DONE with the number of elements of Z, or PARTIAL at the first that it could not do; fed by the hand-off queue it
waits for entries. R134 to R150: completion of MAP, REDUCE_SUM, REDUCE_MAX, REDUCE_MIN, REDUCE_ARGMAX, SOFTMAX, RMSNORM,
LAYERNORM, RMSNORM_BWD and LAYERNORM_BWD. With memory in no error, and every element of the inputs and outputs over the
operation's shape present, uncompressed and with a good scale (no input in a format with escapes, and no output with a side list),
the operation is DONE with the number of elements of Z as its marker, and no byte outside Z, s and h changes. A MAP without a mask
writes each element of a Z in a floating-point format as its function of the inputs, under conv. -/
def Obligations.SteamerOperations : Prop :=
  (
  ∀ (t : TileNo) (s : State) (op : Nat) (i : Instr) (r : RunOp) (px : Polder),
    (op, i) ∈ [(1, Instr.map t), (2, .reduceSum t), (3, .reduceMax t), (4, .reduceMin t), (5, .reduceArgmax t), (6, .softmax t),
      (7, .rmsnorm t), (8, .layernorm t), (9, .rmsnormBwd t), (10, .layernormBwd t)] →
    running s.dev t.toNat .steamer op = some r → r.bad = none → polderOf s.dev (runPolder s.dev t.toNat r) = some px →
    let x := r.q.desc
    let tds := readTds s.dev t.toNat px (runAcc s.dev t.toNat r) (sTdOfs x)
    let err (l : List TDesc) := (sErr tds.1 t.toNat (runPolder s.dev t.toNat r) px { r with tds := l }).or
      (bandErr tds.1 t.toNat px x (sShape x { r with tds := l }))
    (r.begun = false → sReservedOk x = false → OpEnds s t.toNat .steamer .notStarted 0x0402 0 (exec i s)) ∧
    (r.begun = false → sReservedOk x = true → sAbsent x = true → OpEnds s t.toNat .steamer .notStarted 0x0435 0 (exec i s)) ∧
    (r.begun = false → sReservedOk x = true → sAbsent x = false →
      (∀ c, tds.2 = .error c → OpEnds s t.toNat .steamer .notStarted c 0 (exec i s)) ∧
      (∀ l c, tds.2 = .ok l → err l = some c → OpEnds s t.toNat .steamer .notStarted c 0 (exec i s)) ∧
      (∀ l, tds.2 = .ok l → err l = none → Begun t.toNat .steamer r l s.dev (steamBegin s.dev t.toNat r))) ∧
    ∀ r1, running (if r.begun then s.dev else steamBegin s.dev t.toNat r) t.toNat .steamer op = some r1 → r1.begun = true →
      r1.q = r.q → r1.bad = none →
      (sSrc x = true → (tileOf s.dev t.toNat).orphans = [] →
        exec i s = .next { s with dev := if r.begun then s.dev else steamBegin s.dev t.toNat r }) ∧
      (sSrc x = false → (∀ k, k < 7 → sHas x k = true → (tDev (sTd r1 k)).toNat = selfId s.dev) →
        RunsOut s (if r.begun then s.dev else steamBegin s.dev t.toNat r) t.toNat .steamer (volume (sOut x r1)) (exec i s))) ∧
  (
  ∀ (t : TileNo) (s : State) (op : Nat) (i : Instr) (r : RunOp) (px : Polder),
    (op, i) ∈ [(1, Instr.map t), (2, .reduceSum t), (3, .reduceMax t), (4, .reduceMin t), (5, .reduceArgmax t), (6, .softmax t),
      (7, .rmsnorm t), (8, .layernorm t), (9, .rmsnormBwd t), (10, .layernormBwd t)] →
    running s.dev t.toNat .steamer op = some r → r.begun = true → r.bad = none →
    polderOf s.dev (runPolder s.dev t.toNat r) = some px → s.dev.mem.ecc = [] →
    let x := r.q.desc
    let acc := runAcc s.dev t.toNat r
    let sh := sShape x r
    let used (k : Nat) : Prop := k = 0 ∨ (k ≤ 3 ∧ sHas x k = true) ∨ (k = 5 ∧ 9 ≤ op)
    let outs : List (TDesc × List Nat) := (if sHas x 4 then (shapeIxs (sOut x r)).map fun ix => (sTd r 4, ix) else [])
      ++ (if sHas x 5 ∧ op ≤ 8 then (shapeIxs (sh.drop 1)).map fun ix => (sTd r 5, ix) else [])
      ++ if sHas x 6 then (shapeIxs sh).map fun ix => (sTd r 6, ix) else []
    let read (k : Nat) (ix : List Nat) : F32 := rne32 (valAt s.dev acc r (sTd r k) (r.snaps.getD k []) fp32 (sIx x r sh k ix))
    sSrc x = false → sh ≠ [] → (∀ n ∈ sh, n ≠ 0) →
    (∀ k, used k → ∀ ix ∈ shapeIxs sh, Plain s.dev (sTd r k) (r.snaps.getD k []) (sIx x r sh k ix) ∧
      fmtOf (sTd r k) ≠ .n4 ∧ fmtOf (sTd r k) ≠ .n8) →
    (∀ p ∈ outs, Reach s.dev p.1 p.2) →
    (sHas x 4 = true → ∀ ix ∈ shapeIxs (sOut x r), Plain s.dev (sTd r 4) (r.snaps.getD 4 []) ix) →
    OpEnds s t.toNat .steamer .done 0 (volume (sOut x r)) (exec i s) ∧ StoresOnly s outs (exec i s) ∧
    (op = 1 → sMask x = 0 → sHas x 4 = true → ∀ F, (fmtOf (sTd r 4)).float? = some F → tSrefKind (sTd r 4) = 0 →
      Spread ([0, 1, 2].flatMap fun k => if k = 0 ∨ sHas x k = true then (shapeIxs sh).map fun ix => (sTd r k, sIx x r sh k ix) else [])
        ((shapeIxs sh).map fun ix => (sTd r 4, ix)) →
      ∃ s', exec i s = .next s' ∧ ∀ ix ∈ shapeIxs sh, bytesAt s'.dev (elemAddr (sTd r 4) ix) (elemLen (sTd r 4)) =
        toBytes ((fmtOf (sTd r 4)).width / 8) (F.conv (sConv x) (val32 (stFunc (sFunc x) (read 0 ix)
          (if sHas x 1 then read 1 ix else 0) (if sHas x 2 then read 2 ix else 0) (sI0 x) (sI1 x)))).1))

/-- R163 to R176: each Napper operation. ENCODE and DECODE begin once their checks pass and run out over X's elements, DONE or
PARTIAL. ROLL rolls each register of the run, SLOAD loads each from its 64 B record, SSTORE stores each, and each ends DONE with
the number of registers; a record with a reserved field or fill above 16 ends SLOAD PARTIAL with 0x0446 at its register. R162,
R164, R167 to R174: completion of ENCODE and DECODE. With memory in no error, and every element present, uncompressed, without a
side list and with a good scale (under current scaling: with registers for it), an ENCODE is DONE with the number of elements of X
as its marker, and no byte outside Z, E and the outlier tensor changes; without escapes, outliers and error feedback each element
of a Z of whole bytes takes its code. A DECODE whose X holds no escape code and does not meet Z is DONE likewise, and each element
of Z takes its value in FP32 or BF16. -/
def Obligations.NapperOperations : Prop :=
  (
  ∀ (t : TileNo) (s : State) (op : Nat) (i : Instr) (r r1 : RunOp),
    (op, i) ∈ [(1, Instr.encode t), (2, .decode t), (3, .roll t), (4, .sload t), (5, .sstore t)] →
    running s.dev t.toNat .napper op = some r →
    let d := if r.begun then s.dev else napperBegin s.dev t.toNat r
    let x := r.q.desc
    let A := nRec x
    let n := nRcount x
    let lo := nRbase x
    running d t.toNat .napper op = some r1 → r1.begun = true → r1.q = r.q → r1.bad = none → dOpcode x = op →
    (op ≤ 2 → (tDev (r1.tds.getD 0 0)).toNat = selfId d → (tDev (r1.tds.getD 1 0)).toNat = selfId d →
      (nEf x = true → (tDev (r1.tds.getD 2 0)).toNat = selfId d) → (nNOut x ≠ 0 → (tDev (r1.tds.getD 3 0)).toNat = selfId d) →
      RunsOut s d t.toNat .napper (tCount (r1.tds.getD 0 0)) (exec i s)) ∧
    (op = 3 → OpEnds { s with dev := d } t.toNat .napper .done 0 n (exec i s) ∧
      ∃ s', exec i s = .next s' ∧ s'.dev.mem = d.mem ∧ ∀ k, scaleReg s'.dev t.toNat k =
        if lo ≤ k ∧ k < lo + n then (rollReg x (scaleReg d t.toNat k)).1 else scaleReg d t.toNat k) ∧
    (op = 4 → rangeErr d A (64 * n) = none → Clean d A (64 * n) →
      let record (k : Nat) : BitVec 512 := BitVec.ofNat 512 (ofBytes (bytesAt d (A + 64 * k) 64))
      ((∀ k, k < n → recordOk (record k) = true) → OpEnds { s with dev := d } t.toNat .napper .done 0 n (exec i s) ∧
        ∃ s', exec i s = .next s' ∧ s'.dev.mem = d.mem ∧ ∀ k, scaleReg s'.dev t.toNat k =
          if lo ≤ k ∧ k < lo + n then record (k - lo) else scaleReg d t.toNat k) ∧
      ∀ k, k < n → recordOk (record k) = false → (∀ j, j < k → recordOk (record j) = true) →
        OpEnds { s with dev := d } t.toNat .napper .inPart 0x0446 (lo + k) (exec i s)) ∧
    (op = 5 → rangeErr d A (64 * n) = none → A % 64 = 0 → OpEnds { s with dev := d } t.toNat .napper .done 0 n (exec i s) ∧
      ∃ s', exec i s = .next s' ∧
        (∀ k, k < n → bytesAt s'.dev (A + 64 * k) 64 = toBytes 64 (scaleReg d t.toNat (lo + k)).toNat) ∧
        ∀ b, b < A ∨ A + 64 * n ≤ b → byteAt s'.dev b = byteAt d b)) ∧
  (
  ∀ (t : TileNo) (s : State) (r : RunOp), r.begun = true → r.bad = none → s.dev.mem.ecc = [] →
    let x := r.q.desc
    let acc := runAcc s.dev t.toNat r
    let tx := r.tds.getD 0 0
    let tz := r.tds.getD 1 0
    let te := r.tds.getD 2 0
    let tOut := r.tds.getD 3 0
    let outIx (ix : List Nat) (j : Nat) : TDesc × List Nat := (tOut, ix.set (nOdim x) j)
    let zs := (allIxs tx).map fun ix => (tz, ix)
    let outs := zs ++ (if nEf x then (allIxs tx).map fun ix => (te, ix) else [])
      ++ (allIxs tx).filterMap fun ix => (encListed r ix).map (outIx ix)
    (running s.dev t.toNat .napper 1 = some r →
      (∀ ix ∈ allIxs tx, Plain s.dev tx (r.snaps.getD 0 []) ix ∧ (nEf x = true → Plain s.dev te [] ix) ∧
        (∀ j, encListed r ix = some j → Reach s.dev (outIx ix j).1 (outIx ix j).2) ∧
        (if nSmode x then Reach s.dev tz ix ∧ tSrefKind tz = 1 ∧ scaleIdx tz ix < scaleCount tz
         else Plain s.dev tz (r.snaps.getD 1 []) ix)) →
      allIxs tx ≠ [] → tCmp tz = false → tSide tz = false → (nNOut x ≠ 0 → (tDev tOut).toNat = selfId s.dev) →
      OpEnds s t.toNat .napper .done 0 (tCount tx) (exec (.encode t) s) ∧ StoresOnly s outs (exec (.encode t) s) ∧
      (nSmode x = false → nEf x = false → nNOut x = 0 → nEsc x = 0 → 8 ≤ (fmtOf tz).width →
        Spread ((allIxs tx).map fun ix => (tx, ix)) zs →
        ∃ s', exec (.encode t) s = .next s' ∧ ∀ ix ∈ allIxs tx,
          bytesAt s'.dev (elemAddr tz ix) (elemLen tz) = toBytes ((fmtOf tz).width / 8)
            (encElem (fmtOf tz) (decide (tSrefKind tz ≠ 0)) (if tSrefKind tz = 0 then one32 else (r.snaps.getD 1 []).getD (scaleIdx tz ix) 0)
              (nConv x) 0 true false (rne32 (valAt s.dev acc r tx (r.snaps.getD 0 []) fp32 ix))).code)) ∧
    (running s.dev t.toNat .napper 2 = some r →
      (∀ ix ∈ allIxs tx, Input s.dev tx (r.snaps.getD 0 []) ix ∧ Reach s.dev tz ix) → allIxs tx ≠ [] →
      (∀ p ∈ zs, ∀ jx ∈ allIxs tx, Apart p (tx, jx)) →
      OpEnds s t.toNat .napper .done 0 (tCount tx) (exec (.decode t) s) ∧ StoresOnly s zs (exec (.decode t) s) ∧
      (Spread [] zs → ∀ F, (fmtOf tz).float? = some F →
        ∃ s', exec (.decode t) s = .next s' ∧ ∀ ix ∈ allIxs tx, ∀ v b c,
          (elemRaw s.dev acc r tx (r.snaps.getD 0 []) ix).2 = .ok (v, b, c) →
          bytesAt s'.dev (elemAddr tz ix) (elemLen tz) = toBytes ((fmtOf tz).width / 8) (decodeCode (fmtOf tx) F c v).1)))

/-- R163: ROLL shifts the history, takes pend in and clears it, raises fill up to 16, and forms the scale from the largest of the
last min(w, fill) entries; where that gives no positive normal finite scale the old one stays, or 1.0 where it is none. -/
def Obligations.ScaleRoll : Prop :=
  ∀ (x : BitVec 1024) (y : BitVec 512), nHlen x ≤ 16 →
    let z := (rollReg x y).1
    let w := if nHlen x = 0 then 4 else nHlen x
    let used := (List.range (min w (min (srFill y + 1) 16))).map fun i => rne32 (val16 (srHist z i))
    let a := match used with | [] => (0 : F32) | b :: l => l.foldl fmax b
    srHist z 0 = srPend y ∧ (∀ i, i < 15 → srHist z (i + 1) = srHist y i) ∧ srPend z = 0 ∧ srFill z = min (srFill y + 1) 16 ∧
    fld z 63 53 = fld y 63 53 ∧ fld z 511 320 = fld y 511 320 ∧
    match formScale ((Fmt.ofCode (nTfmt x)).getD .fp32) a (nMg x) with
    | some v => srScale z = v ∧ (rollReg x y).2 = false
    | none => srScale z = (if scaleOk (srScale y) then srScale y else one32) ∧ (rollReg x y).2 = true

/-- R182, R198 to R201: each Carder operation. EXPAND, COMPRESS and VERIFY on tensors of this device run out over the elements of
Z or the blocks, DONE or PARTIAL. CBLOAD fills codebook sets with the 2,048 bytes that memory holds for each, and CBSTORE stores
them; each ends DONE with the number of sets and leaves every other byte. R185, R186, R191 to R194, R200 and R201: completion of
EXPAND, COMPRESS and VERIFY on tensors of this device with memory in no error. An EXPAND whose blocks all expand without a fault,
into a Z that does not meet the table and the blocks, is DONE with the number of elements of X, each element of Z taking its
value, and changes no byte outside Z. A VERIFY whose status bytes do not meet them either is DONE with the number of blocks, each
block's byte taking the status of its expansion. A COMPRESS of a BF16 tensor with room for raw blocks is DONE with the number of
blocks and changes no byte outside Z and its table. -/
def Obligations.CarderOperations : Prop :=
  (
  ∀ (t : TileNo) (s : State) (op : Nat) (i : Instr) (r r1 : RunOp) (px : Polder),
    (op, i) ∈ [(1, Instr.expand t), (2, .compress t), (3, .verify t), (4, .cbload t), (5, .cbstore t)] →
    running s.dev t.toNat .carder op = some r → (op = 4 → expanding s.dev t.toNat (runPolder s.dev t.toNat r) = false) →
    let d := if r.begun then s.dev else carderBegin s.dev t.toNat op r
    let x := r.q.desc
    let A := kRec x
    let n := kCcount x
    running d t.toNat .carder op = some r1 → r1.begun = true → r1.q = r.q → r1.bad = none →
    polderOf d (runPolder d t.toNat r1) = some px →
    (op ≤ 3 → (tDev (r1.tds.getD 0 0)).toNat = selfId d → (op ≠ 3 → (tDev (r1.tds.getD 1 0)).toNat = selfId d) →
      RunsOut s d t.toNat .carder
        (if op = 1 then tCount (r1.tds.getD 0 0) else if op = 2 then cmpBlocks (r1.tds.getD 1 0) else cmpBlocks (r1.tds.getD 0 0))
        (exec i s)) ∧
    (op = 4 → rangeErr d A (2048 * n) = none → Clean d A (2048 * n) →
      OpEnds { s with dev := d } t.toNat .carder .done 0 n (exec i s) ∧
      ∃ s', exec i s = .next s' ∧ (∀ a, byteAt s'.dev a = byteAt d a) ∧
        ∀ k, k < n → Mem.readN s'.dev.mem.bytes (cbKey t.toNat (kCbase x + k) 0) 2048 = bytesAt d (A + 2048 * k) 2048) ∧
    (op = 5 → rangeErr d A (2048 * n) = none → A % 64 = 0 →
      (∀ k, k < 256 * n → NMap.find? d.mem.ecc (cbKey t.toNat (kCbase x) k / 8) = none) →
      OpEnds { s with dev := d } t.toNat .carder .done 0 n (exec i s) ∧
      ∃ s', exec i s = .next s' ∧ (∀ b, b < A ∨ A + 2048 * n ≤ b → byteAt s'.dev b = byteAt d b) ∧
        ∀ k, k < n → bytesAt s'.dev (A + 2048 * k) 2048 = Mem.readN d.mem.bytes (cbKey t.toNat (kCbase x + k) 0) 2048)) ∧
  (
  ∀ (t : TileNo) (s : State) (op : Nat) (r : RunOp) (px : Polder), running s.dev t.toNat .carder op = some r → r.begun = true →
    r.bad = none → polderOf s.dev (runPolder s.dev t.toNat r) = some px → s.dev.mem.ecc = [] →
    let x := r.q.desc
    let acc := runAcc s.dev t.toNat r
    let tx := r.tds.getD 0 0
    let tz := r.tds.getD 1 0
    let clear (a n : Nat) : Prop := (a + n ≤ tAux tx ∨ tAux tx + 36 + 4 * cmpBlocks tx ≤ a) ∧ ∀ b, b < cmpBlocks tx →
      let p := bytesAt s.dev (tAux tx + 32 + 4 * b) 8
      a + n ≤ tBase tx + 32 * leAt p 0 4 ∨ tBase tx + 32 * leAt p 4 4 ≤ a
    let expanded (b : Nat) : Except Code BlockOut := (expandBlock s.dev acc r t.toNat px tx b).2
    let places (b k : Nat) : List (List Nat) := repeats tx (blockIx tx b k)
    (op = 1 → (tDev tx).toNat = selfId s.dev → (tDev tz).toNat = selfId s.dev →
      ∀ out : Nat → List B16, (∀ b, b < cmpBlocks tx → ∃ n, expanded b = .ok ⟨out b, none, n, 0⟩) →
      (∀ b, b < cmpBlocks tx → ∀ k, k < (out b).length → ∀ ix ∈ places b k, Reach s.dev tz ix ∧ clear (elemAddr tz ix) (elemLen tz)) →
      let zs := (List.range (cmpBlocks tx)).flatMap fun b => (List.range (out b).length).flatMap fun k => (places b k).map fun ix => (tz, ix)
      OpEnds s t.toNat .carder .done 0 (tCount tx) (exec (.expand t) s) ∧ StoresOnly s zs (exec (.expand t) s) ∧
      ∀ F, (fmtOf tz).float? = some F → zs.Nodup → Spread [] zs → ∃ s', exec (.expand t) s = .next s' ∧
        ∀ b, b < cmpBlocks tx → ∀ k v, (out b)[k]? = some v → ∀ ix ∈ places b k,
          bytesAt s'.dev (elemAddr tz ix) (elemLen tz) = toBytes ((fmtOf tz).width / 8) (F.rne (val16 v))) ∧
    (op = 3 → (tDev tx).toNat = selfId s.dev → (∀ b, b < cmpBlocks tx → ∃ o, expanded b = .ok o) →
      rangeErr s.dev (kRec x) (cmpBlocks tx) = none → clear (kRec x) (cmpBlocks tx) →
      OpEnds s t.toNat .carder .done 0 (cmpBlocks tx) (exec (.verify t) s) ∧
      ∃ s', exec (.verify t) s = .next s' ∧
        (∀ b o, b < cmpBlocks tx → expanded b = .ok o →
          byteAt s'.dev (kRec x + b) = match o.fail with | some f => f.1.setWidth 8 | none => 0) ∧
        ∀ a, a < kRec x ∨ kRec x + cmpBlocks tx ≤ a → byteAt s'.dev a = byteAt s.dev a) ∧
    (op = 2 → (tDev tx).toNat = selfId s.dev → (tDev tz).toNat = selfId s.dev → fmtOf tx = .bf16 →
      (∀ b, b < cmpBlocks tz → ∀ k, k < (blockSize tz b).1 * (blockSize tz b).2 → Reach s.dev tx (blockIx tz b k)) →
      129 * cmpBlocks tz ≤ kZcap x → rangeErr s.dev (tBase tz) (32 * 129 * cmpBlocks tz) = none →
      rangeErr s.dev (tAux tz) (32 + 4 * (cmpBlocks tz + 1)) = none →
      OpEnds s t.toNat .carder .done 0 (cmpBlocks tz) (exec (.compress t) s) ∧
      ∃ s', exec (.compress t) s = .next s' ∧
        ∀ a, (a < tBase tz ∨ tBase tz + 32 * 129 * cmpBlocks tz ≤ a) →
          (a < tAux tz ∨ tAux tz + 32 + 4 * (cmpBlocks tz + 1) ≤ a) → byteAt s'.dev a = byteAt s.dev a))

/-- R289 to R311: the Blocker's operations on tensors of this device. GNORM and DELTA run out over the shard's elements. An UPDATE
or REPLACE of a frozen weight is DONE at once. An UPDATE without clipping, verdict or stream, an OUTER, or a REPLACE without a
source record, whose shard record and journal pass their checks, opens its transaction: the next record slot is OPEN with the next
transaction's number, the shard record's open bit is set, and the context block holds descriptor and tensors. RECOVER runs out,
and is DONE at once when the record at the journal's head is neither OPEN nor COMMITTED. R300, R310: completion of GNORM and
DELTA. With memory in no error and every element present, in a floating-point format, a GNORM is DONE with the shard's count and
writes the norm record of its tile and layer: the sum of the squares, non-finite elements as zero, then two zeros and an infinity
where there was one. A DELTA is DONE with the count, each element of g takes the anchor less the master, and no byte outside g
changes. -/
def Obligations.BlockerOperations : Prop :=
  (
  ∀ (t : TileNo) (s : State) (op : Nat) (i : Instr) (r r1 : RunOp) (px : Polder),
    (op, i) ∈ [(1, Instr.update t), (2, .gnorm t), (3, .delta t), (4, .outer t), (5, .replace t), (6, .recover t)] →
    running s.dev t.toNat .blocker op = some r →
    let d := if r.begun then s.dev else blockerBegin s.dev t.toNat r
    let x := r.q.desc
    running d t.toNat .blocker op = some r1 → r1.begun = true → r1.q = r.q → r1.bad = none →
    polderOf d (runPolder d t.toNat r1) = some px →
    (∀ k, k < 7 → bHas x k = true → (tDev (bTd r1.tds k)).toNat = selfId d) →
    let jh := ofBytes (bytesAt d px.jbase 64)
    let head := recAddr px (min 62 (bits jh 37 32))
    ((op = 2 ∨ op = 3) → RunsOut s d t.toNat .blocker (bCount x r1.tds) (exec i s)) ∧
    ((op = 1 ∨ op = 5) → r1.work.step = 1 → bHas x 0 = true → tFrozen (bTd r1.tds 0) = true →
      OpEnds { s with dev := d } t.toNat .blocker .done 0 (bCount x r1.tds) (exec i s)) ∧
    (op = 6 → RunsOut s d t.toNat .blocker 0 (exec i s)) ∧
    (op = 6 → rangeErr d px.jbase 64 = none → Clean d px.jbase 64 → rangeErr d head 64 = none → Clean d head 64 →
      bits (ofBytes (bytesAt d head 64)) 34 32 ≠ 1 → bits (ofBytes (bytesAt d head 64)) 34 32 ≠ 2 →
      OpEnds { s with dev := d } t.toNat .blocker .done 0 0 (exec i s)) ∧
    ((op = 4 ∨ (op = 5 ∧ bNvec x = 0) ∨ (op = 1 ∧ bGsrc x = false ∧ bClipm x = 0 ∧ bSkip x = false ∧ normErr d t.toNat px x = none)) →
      r1.work.step = 1 → (op = 1 ∨ op = 5 → bHas x 0 = false ∨ tFrozen (bTd r1.tds 0) = false) →
      bAt d px (bSrec x) 64 64 = none → rangeErr d (bSrec x) 64 = none → Clean d (bSrec x) 64 →
      rangeErr d px.jbase 5120 = none → px.jbase % 4096 = 0 → Clean d px.jbase 5120 →
      (bSrec x + 64 ≤ px.jbase ∨ px.jbase + 5120 ≤ bSrec x) → bSrec x % 64 = 0 →
      shardErr px x (ofBytes (bytesAt d (bSrec x) 64)) jh (ofBytes (bytesAt d head 64)) = none →
      hyperOk x = true → journalFits px x r1.tds = true →
      ∃ s' r', exec i s = .next s' ∧ DevAlone s s' ∧ runOf s'.dev t.toNat .blocker = some r' ∧ r'.q = r.q ∧ r'.ended = none ∧
        r'.work.txn.phase = 1 ∧ r'.work.txn.txid = bits jh 31 16 ∧ r'.work.txn.slot = (bits jh 37 32 + 1) % 63 ∧
        bytesAt s'.dev (recAddr px r'.work.txn.slot) 64 = txnRec x r'.work.txn 1 (nBlocks (bCount x r1.tds)) ∧
        bytesAt s'.dev (bSrec x) 64 = toBytes 64 (setBits (ofBytes (bytesAt d (bSrec x) 64)) 128 128 1) ∧
        bytesAt s'.dev (px.jbase + 4096) 1024 = contextBytes x r1.tds ∧
        ∀ a, (a < bSrec x ∨ bSrec x + 64 ≤ a) → (a < px.jbase ∨ px.jbase + 5120 ≤ a) → byteAt s'.dev a = byteAt d a)) ∧
  (
  ∀ (t : TileNo) (s : State) (r : RunOp) (px : Polder), r.begun = true → r.bad = none → s.dev.mem.ecc = [] →
    polderOf s.dev (runPolder s.dev t.toNat r) = some px →
    let x := r.q.desc
    let e := bCount x r.tds
    let td (k : Nat) : TDesc := bTd r.tds k
    (running s.dev t.toNat .blocker 2 = some r → Floats s.dev (td 4) 0 e →
      OpEnds s t.toNat .blocker .done 0 e (exec (.gnorm t) s) ∧
      (rangeErr s.dev (normAddr t.toNat x) 16 = none → ∃ s', exec (.gnorm t) s = .next s' ∧
        let vs := (List.range e).map (elemVal s.dev (td 4))
        bytesAt s'.dev (normAddr t.toNat x) 16 = toBytes 4 (rowsum (vs.map fun v => fmul (zeroBad v) (zeroBad v))).toNat
          ++ zeros 8 ++ toBytes 4 (if (vs.all ffinite) then (0 : F32) else inf32).toNat ∧
        ∀ a, a < normAddr t.toNat x ∨ normAddr t.toNat x + 16 ≤ a → byteAt s'.dev a = byteAt s.dev a)) ∧
    (running s.dev t.toNat .blocker 3 = some r → Floats s.dev (td 0) 0 e → Floats s.dev (td 2) 0 e → Floats s.dev (td 4) 0 e →
      OpEnds s t.toNat .blocker .done 0 e (exec (.delta t) s) ∧ StoresOnly s (elems (td 4) 0 e) (exec (.delta t) s) ∧
      (Spread (elems (td 0) 0 e ++ elems (td 2) 0 e) (elems (td 4) 0 e) → (elems (td 4) 0 e).Nodup →
        ∃ s', exec (.delta t) s = .next s' ∧
          ∀ k, k < e → Holds s'.dev (td 4) k (fsub (elemVal s.dev (td 2) k) (elemVal s.dev (td 0) k)).toNat)))

/-- R226, R306 and R308: a transaction's events. A chunk's start writes the pre-images of the blocks it first touches and takes
the chunk in hand; their acceptance applies the chunk; with every chunk applied and every write answered the record becomes
COMMITTED; with the working copy accepted too the shard record closes with its new counts, the record is CLOSED and the operation
ends COMMITTED; one that cannot complete rolls back. What a memory refuses on the way makes the transaction one that cannot
complete; a scale that R44 rejects ends the operation PARTIAL (log entry 64). R296, R298, R305, R306, R310 and R311: completion of
a chunk's start and of its new state. With memory in no error and present, a start writes for each journal block that the chunk
first touches the old values of its runs and their header, and takes the chunk in hand. With the tensors in floating-point formats
and present, the chunk in hand is applied: an UPDATE gives each element its new moments and master, an OUTER its outer momentum,
anchor and master, a REPLACE the code of its source, and no byte outside the tensors written changes. R226 and R228: the wait
basin. Fetched state of the next chunk in order takes the chunk's slot or a free one, within wslots chunks of the oldest that is
not applied; state that can be read arrives, and state that cannot be read makes the transaction one that rolls back with 0x0312.
A slot is freed once its chunk is applied. The basin's own bytes are free values (R316). -/
def Obligations.BlockerTransactions : Prop :=
  (
  ∀ (t : TileNo) (s : State) (r : RunOp) (px : Polder), runOf s.dev t.toNat .blocker = some r → r.begun = true → r.ended = none →
    polderOf s.dev (runPolder s.dev t.toNat r) = some px →
    let x := r.q.desc
    let tx := r.work.txn
    let keeps (s' : State) (r' : RunOp) : Prop := DevAlone s s' ∧ runOf s'.dev t.toNat .blocker = some r' ∧ r'.q = r.q ∧
      r'.tds = r.tds ∧ (∀ f, f ≠ .blocker → engineOf s'.dev t.toNat f = engineOf s.dev t.toNat f)
    (∀ cuts no hi, tx.phase = 1 → tx.fail = none → tx.hand = false → tx.cuts = some cuts → cuts[tx.started]? = some (no, hi) →
      gradReady s.dev t.toNat r no = true →
      (stateInDdr x r.tds = false ∨ px.wslots = 0 ∨ ∃ b ∈ basinOf s.dev t.toNat, b.shard = bSrec x ∧ b.chunk = tx.started ∧ b.state = true) →
      (basinSlots px r = 0 ∨ (∃ b ∈ basinOf s.dev t.toNat, b.shard = bSrec x ∧ b.chunk = tx.started) ∨
        (basinOf s.dev t.toNat).length < px.wslots) →
      ∃ s' r', exec (.chunkUpdateStart t) s = .next s' ∧ keeps s' r' ∧ r'.ended = none ∧
        ((∃ c, r'.work.txn.fail = some c) ∨
          (r'.work.txn.fail = none ∧ r'.work.txn.started = tx.started + 1 ∧ r'.work.txn.hand = true ∧ r'.work.txn.applied = tx.applied ∧
            r'.work.txn.pre = max tx.pre (if chunkEnd (bCount x r.tds) hi ≤ tx.front then tx.pre
              else ceilDiv (chunkEnd (bCount x r.tds) hi) jBlk)))) ∧
    (tx.phase = 1 → tx.fail = none → tx.hand = true →
      ∃ s' r', exec (.txnPreimageWritten t) s = .next s' ∧ keeps s' r' ∧
        ((∃ m, r'.ended = some ⟨.inPart, 0x0405⟩ ∧ r'.marker = m) ∨ (r'.ended = none ∧ ∃ c, r'.work.txn.fail = some c) ∨
          (r'.ended = none ∧ r'.work.txn.fail = none ∧ r'.work.txn.applied = tx.applied + 1 ∧ r'.work.txn.hand = false ∧
            r'.work.txn.started = tx.started ∧ tx.front ≤ r'.work.txn.front))) ∧
    (∀ cuts, tx.phase = 1 → tx.fail = none → tx.hand = false → tx.cuts = some cuts → cuts.length ≤ tx.started →
      openReqs s.dev t.toNat r.q.slot = [] → rangeErr s.dev (recAddr px tx.slot) 64 = none → recAddr px tx.slot % 64 = 0 →
      ∃ s' r', exec (.txnBlockStateAccepted t) s = .next s' ∧ keeps s' r' ∧ r'.ended = none ∧ r'.work.txn = { tx with phase := 2 } ∧
        bytesAt s'.dev (recAddr px tx.slot) 64 = txnRec x tx 2 (nBlocks (bCount x r.tds)) ∧
        ∀ a, a < recAddr px tx.slot ∨ recAddr px tx.slot + 64 ≤ a → byteAt s'.dev a = byteAt s.dev a) ∧
    (tx.phase = 2 → tx.fail = none →
      OpEnds s t.toNat .blocker .committed 0 (bCount x r.tds) (exec (.txnWorkingCopyAccepted t) s) ∧
      (rangeErr s.dev (recAddr px tx.slot) 64 = none → recAddr px tx.slot % 64 = 0 → rangeErr s.dev (bSrec x) 64 = none →
        bSrec x % 64 = 0 → (bSrec x + 64 ≤ recAddr px tx.slot ∨ recAddr px tx.slot + 64 ≤ bSrec x) →
        ∃ s', exec (.txnWorkingCopyAccepted t) s = .next s' ∧
          bytesAt s'.dev (recAddr px tx.slot) 64 = txnRec x tx 3 (nBlocks (bCount x r.tds)) ∧
          bytesAt s'.dev (bSrec x) 64 = toBytes 64 (srecWord tx.n (bLayer x) tx.cstep tx.txid tx.epoch false))) ∧
    (∀ c, tx.fail = some c → openReqs s.dev t.toNat r.q.slot = [] →
      let d := onBasin s.dev t.toNat fun l => l.filter fun b => b.shard ≠ bSrec x
      OpEnds { s with dev := d } t.toNat .blocker .rolledBack c 0 (exec (.txnRollback t) s) ∨
      OpEnds { s with dev := d } t.toNat .blocker .inPart 0x060A 0 (exec (.txnRollback t) s) ∨
      ∃ s' e, exec (.txnRollback t) s = .next s' ∧ (runOf s'.dev t.toNat .blocker).bind RunOp.ended = some e ∧ e.st = .inPart)) ∧
  (
  ∀ (t : TileNo) (s : State) (r : RunOp) (px : Polder), runOf s.dev t.toNat .blocker = some r → r.begun = true → r.ended = none →
    polderOf s.dev (runPolder s.dev t.toNat r) = some px → r.work.txn.phase = 1 → r.work.txn.fail = none → s.dev.mem.ecc = [] →
    let x := r.q.desc
    let tx := r.work.txn
    let td (k : Nat) : TDesc := bTd r.tds k
    let pos (j : Nat) : Nat := blockPos px x r.tds j
    (∀ cuts no hi, tx.hand = false → tx.cuts = some cuts → cuts[tx.started]? = some (no, hi) → gradReady s.dev t.toNat r no = true →
      (stateInDdr x r.tds = false ∨ px.wslots = 0) → basinSlots px r = 0 →
      let upto := if chunkEnd (bCount x r.tds) hi ≤ tx.front then tx.pre else ceilDiv (chunkEnd (bCount x r.tds) hi) jBlk
      (∀ j, tx.pre ≤ j → j < upto → rangeErr s.dev (pos j) (blockLen x r.tds j + 64) = none ∧
        ∀ p ∈ blockRuns x r.tds j, rangeErr s.dev p.1 p.2 = none ∧ (p.1 + p.2 ≤ pos tx.pre ∨ pos upto ≤ p.1)) →
      ∃ s' r', exec (.chunkUpdateStart t) s = .next s' ∧ runOf s'.dev t.toNat .blocker = some r' ∧ r'.ended = none ∧
        r'.work.txn = { tx with pre := max tx.pre upto, started := tx.started + 1, hand := true } ∧
        (∀ j, tx.pre ≤ j → j < upto →
          let data := oldValues s.dev (blockRuns x r.tds j)
          bytesAt s'.dev (pos j) (blockLen x r.tds j) = data ∧
          bytesAt s'.dev (pos j + blockLen x r.tds j) 64 = blockHdr tx.txid tx.epoch j data) ∧
        ∀ a, a < pos tx.pre ∨ pos (max tx.pre upto) ≤ a → byteAt s'.dev a = byteAt s.dev a) ∧
    (tx.hand = true → dOpcode x = 1 ∨ dOpcode x = 4 ∨ dOpcode x = 5 →
      let hi := chunkEnd (bCount x r.tds) (((tx.cuts.getD []).getD (tx.started - 1) (0, 0)).2)
      let lo := tx.front
      let reads : List TDesc :=
        if dOpcode x = 1 then [gradTd x r.tds, td 0, td 1] ++ (if bHas x 2 then [td 2] else [])
        else if dOpcode x = 4 then [td 1, td 2, td 4]
        else (if bHas x 1 then [td 5] else []) ++ (if bHas x 2 then [td 6] else []) ++ (if bHas x 0 then [td 4] else [])
      let writes : List TDesc :=
        if dOpcode x = 1 then [td 1] ++ (if bHas x 2 then [td 2] else []) ++ [td 0]
        else if dOpcode x = 4 then [td 1, td 2, td 0]
        else (if bHas x 1 then [td 1] else []) ++ (if bHas x 2 then [td 2] else []) ++ (if bHas x 0 then [td 0] else [])
      let cs := if bHas x 3 then elems (td 3) lo hi else []
      let ws := writes.flatMap fun y => elems y lo hi
      let rs := if dOpcode x = 5 then reads.flatMap fun y => elems y lo hi else []
      (∀ y ∈ reads ++ writes, Floats s.dev y lo hi) → (dOpcode x = 5 → bHas x 3 = true → Floats s.dev (td 0) lo hi) →
      (∀ p ∈ cs, Plain s.dev p.1 (r.snaps.headD []) p.2) →
      ∃ s' r', exec (.txnPreimageWritten t) s = .next s' ∧ runOf s'.dev t.toNat .blocker = some r' ∧ r'.ended = none ∧
        r'.work.txn.fail = none ∧ r'.work.txn.applied = tx.applied + 1 ∧ r'.work.txn.hand = false ∧ r'.work.txn.front = max lo hi ∧
        (∀ a, Beside (ws ++ cs) a → byteAt s'.dev a = byteAt s.dev a) ∧
        (Spread rs ws → ws.Nodup → (∀ p ∈ ws, ∀ q ∈ cs, Apart p q) → ∀ e, lo ≤ e → e < hi →
          let v (y : TDesc) : F32 := elemVal s.dev y e
          let moment (y : TDesc) (z : F32) : Nat :=
            if fmtOf y = .fp32 then z.toNat else match (fmtOf y).float? with | some F => (F.conv (bConv x) (val32 z)).1 | none => 0
          let u := updElem x (updK x tx) (v (gradTd x r.tds)) (v (td 0)) (v (td 1)) (if bHas x 2 then v (td 2) else 0)
          let o := outerElem (bLr0 x) (bBeta1 x) (v (td 1)) (v (td 2)) (v (td 4))
          (dOpcode x = 1 → Holds s'.dev (td 1) e (moment (td 1) u.m) ∧ Holds s'.dev (td 0) e u.w.toNat ∧
            (bHas x 2 = true → Holds s'.dev (td 2) e (moment (td 2) u.v))) ∧
          (dOpcode x = 4 → Holds s'.dev (td 1) e o.1.toNat ∧ Holds s'.dev (td 2) e o.2.1.toNat ∧ Holds s'.dev (td 0) e o.2.1.toNat) ∧
          (dOpcode x = 5 → ∀ p ∈ [(1, 5), (2, 6), (0, 4)], bHas x p.1 = true →
            Holds s'.dev (td p.1) e (canonCode (fmtOf (td p.1)) (codeAt s.dev (td p.2) (tIndex (td p.2) e))))))) ∧
  (
  ∀ (t : TileNo) (s : State) (r : RunOp) (px : Polder), runOf s.dev t.toNat .blocker = some r → r.begun = true → r.ended = none →
    polderOf s.dev (runPolder s.dev t.toNat r) = some px →
    let x := r.q.desc
    let tx := r.work.txn
    let holds (d : Dev) (k : Nat) : Prop := ∃ b ∈ basinOf d t.toNat, b.shard = bSrec x ∧ b.chunk = k ∧ b.state = true
    (∀ cuts k, tx.phase = 1 → tx.fail = none → tx.cuts = some cuts → stateInDdr x r.tds = true → tx.started ≤ k → k < cuts.length →
      (∀ j, tx.started ≤ j → j < k → holds s.dev j) → ¬ holds s.dev k → k < tx.applied + px.wslots →
      ((∃ b ∈ basinOf s.dev t.toNat, b.shard = bSrec x ∧ b.chunk = k) ∨ (basinOf s.dev t.toNat).length < px.wslots) →
      ∃ s' r', exec (.stateFetchReturn t) s = .next s' ∧ DevAlone s s' ∧ runOf s'.dev t.toNat .blocker = some r' ∧ r'.q = r.q ∧
        r'.ended = none ∧ (s.dev.mem.ecc = [] → ∀ a, a < t.toNat * 2 ^ 20 + px.basinOfs t.toNat ∨
          t.toNat * 2 ^ 20 + px.basinOfs t.toNat + px.wslots * px.wsize ≤ a → byteAt s'.dev a = byteAt s.dev a) ∧
        (s.dev.mem.ecc = [] → (∀ p ∈ chunkRuns x r.tds cuts k, rangeErr s.dev p.1 p.2 = none) → r'.work.txn = tx ∧ holds s'.dev k) ∧
        ((r'.work.txn = tx ∧ holds s'.dev k) ∨
          (r'.work.txn = { tx with fail := some 0x0312 } ∧ ∀ b ∈ basinOf s'.dev t.toNat, b.shard ≠ bSrec x))) ∧
    ((∃ b ∈ basinOf s.dev t.toNat, b.shard = bSrec x ∧ b.chunk < tx.applied) →
      ∃ b ∈ basinOf s.dev t.toNat, b.shard = bSrec x ∧ b.chunk < tx.applied ∧
        exec (.waitSlotFree t) s = .next { s with dev := onBasin s.dev t.toNat fun l => l.erase b }))

/-- R305 and R308: a rollback completes and restores. With memory in no error, the journal holding for each block written the old
values of its runs with their header, the runs and the records present and apart, and a working copy that can be made again from
the master, the operation ends ROLLED_BACK with its failure's status; every byte of the runs has its old value again, the shard
record's open bit is clear, the record is ROLLED_BACK, and every byte outside these and the working copy stays. -/
def Obligations.RollbackRestores : Prop :=
  ∀ (t : TileNo) (s : State) (r : RunOp) (px : Polder) (c : Code) (old : Dev), runOf s.dev t.toNat .blocker = some r →
    r.begun = true → r.ended = none → polderOf s.dev (runPolder s.dev t.toNat r) = some px → r.work.txn.fail = some c →
    openReqs s.dev t.toNat r.q.slot = [] → s.dev.mem.ecc = [] →
    let x := r.q.desc
    let tx := r.work.txn
    let e := bCount x r.tds
    let pos (j : Nat) : Nat := blockPos px x r.tds j
    let A := bSrec x
    let R := recAddr px tx.slot
    let cs := if bHas x 3 then elems (bTd r.tds 3) 0 e else []
    let clear (p : Nat × Nat) (a n : Nat) : Prop := p.1 + p.2 ≤ a ∨ a + n ≤ p.1
    let clearC (a n : Nat) : Prop := ∀ q ∈ cs, clear (elemAddr q.1 q.2, elemLen q.1) a n
    tx.txid < 2 ^ 16 → tx.epoch < 2 ^ 16 → tx.pre ≤ 2 ^ 32 →
    (∀ j, j < tx.pre → rangeErr s.dev (pos j) (blockLen x r.tds j + 64) = none ∧ blockLen x r.tds j < 2 ^ 32 ∧
      bytesAt s.dev (pos j) (blockLen x r.tds j) = oldValues old (blockRuns x r.tds j) ∧
      bytesAt s.dev (pos j + blockLen x r.tds j) 64 = blockHdr tx.txid tx.epoch j (oldValues old (blockRuns x r.tds j)) ∧
      ∀ p ∈ blockRuns x r.tds j, 0 < p.2 ∧ p.1 + p.2 ≤ 2 ^ 48 ∧ rangeErr s.dev p.1 p.2 = none ∧
        clear p (pos 0) (pos tx.pre - pos 0) ∧ clear p A 64 ∧ clear p R 64 ∧ clearC p.1 p.2) →
    (bHas x 3 = true → Floats s.dev (bTd r.tds 0) 0 e ∧ tSide (bTd r.tds 3) = false ∧ ∀ p ∈ cs, Plain s.dev p.1 (r.snaps.headD []) p.2) →
    rangeErr s.dev A 64 = none → rangeErr s.dev R 64 = none → clear (A, 64) R 64 → clearC A 64 → clearC R 64 →
    OpEnds { s with dev := onBasin s.dev t.toNat fun l => l.filter fun b => b.shard ≠ A } t.toNat .blocker .rolledBack c 0
      (exec (.txnRollback t) s) ∧
    ∃ s', exec (.txnRollback t) s = .next s' ∧
      (∀ j, j < tx.pre → ∀ p ∈ blockRuns x r.tds j, ∀ i, i < p.2 → byteAt s'.dev (p.1 + i) = byteAt old (p.1 + i)) ∧
      bytesAt s'.dev A 64 = toBytes 64 (setBits (ofBytes (bytesAt s.dev A 64)) 128 128 0) ∧
      bytesAt s'.dev R 64 = txnRec x tx 4 (nBlocks e) ∧
      ∀ a, Beside cs a → (a < A ∨ A + 64 ≤ a) → (a < R ∨ R + 64 ≤ a) →
        (∀ j, j < tx.pre → ∀ p ∈ blockRuns x r.tds j, a < p.1 ∨ p.1 + p.2 ≤ a) → byteAt s'.dev a = byteAt s.dev a

/-- R262 to R281 and R324: the tile router's operations on tensors of this device. A collective (ALLREDUCE, REDUCE_SCATTER,
ALLGATHER, ALLTOALL, PERMUTE, ORFLAG) that has begun is under way: while it has not ended, each phase in which this member
exchanges packets is over or has its stream, with the descriptor's depth and slow-member limit. The hold copy of a PERMUTE is
done. A TRANSFER copies or fails each of its chunks, and with memory in no error and every element present it copies all of them
and changes no byte outside its destination; one that pushes into a queue starts when fewer than nslot pushes are outstanding,
which raises P, and otherwise waits for the consumer. -/
def Obligations.RouterOperations : Prop :=
  ∀ (t : TileNo) (s : State),
    (∀ (op : Nat) (i : Instr) (r r1 : RunOp),
      (op, i) ∈ [(1, Instr.allreduce t), (2, .reduceScatter t), (3, .allgather t), (4, .alltoall t), (5, .permute t), (6, .orFlag t)] →
      running s.dev t.toNat .router op = some r →
      let d := if r.begun then s.dev else routerBegin s.dev t.toNat r
      running d t.toNat .router op = some r1 → r1.begun = true → r1.bad = none → r1.work.step = 0 →
      (∀ p ∈ pairsOf (r1.tds.drop 1), (tDev p.1).toNat = selfId d ∧ (tDev p.2).toNat = selfId d) →
      ∃ s' r', exec i s = .next s' ∧ DevAlone s s' ∧ runOf s'.dev t.toNat .router = some r' ∧ r'.q = r1.q ∧ r'.begun = true ∧
        r'.work.step = 1 ∧
        let c := rCx d t.toNat r1
        ((∀ p ∈ d.coll.asks, ¬ (hJob p.hdr = c.job ∧ hStream p.hdr = rColl c.x)) → r'.ended = none →
          ∀ p ∈ c.phases, 1 < c.lineLen p → phaseChunks c p ≠ [] → phaseOver c p r'.work.router = true ∨
            ∃ st, streamOf s'.dev c.job (rColl c.x) p.no = some st ∧ st.deep = rDepth c.x + 1 ∧ st.slow = rSlow c.x)) ∧
    (∀ (r : RunOp), running s.dev t.toNat .router 5 = some r → r.work.step ≠ 0 → r.work.router.holdDone = false →
      ∃ s' r', exec (.permuteHoldCopyEnd t) s = .next s' ∧ DevAlone s s' ∧ runOf s'.dev t.toNat .router = some r' ∧ r'.q = r.q ∧
        r'.work.router.holdDone = true) ∧
    (∀ (r r1 : RunOp), running s.dev t.toNat .router 7 = some r →
      let d := if r.begun then s.dev else routerBegin s.dev t.toNat r
      let pn := runPolder d t.toNat r1
      running d t.toNat .router 7 = some r1 → r1.begun = true → r1.bad = none → r1.work.step = 0 →
      (∀ p ∈ pairsOf (r1.tds.drop 1), (tDev p.1).toNat = selfId d ∧ (pushQueue d t.toNat r1 = none → (tDev p.2).toNat = selfId d)) →
      (pushQueue d t.toNat r1 = none →
        ∃ s' r', exec (.transfer t) s = .next s' ∧ DevAlone s s' ∧ runOf s'.dev t.toNat .router = some r' ∧ r'.q = r1.q ∧
          r'.work.step = 1 ∧ r'.ended = none ∧
          let c := rCx d t.toNat r1
          let src := (c.pairs.headD (0, 0)).1
          let dst := (c.pairs.headD (0, 0)).2
          let of (td : TDesc) : List (TDesc × List Nat) := c.chunks.flatMap fun k => elems td k.start (k.start + k.len)
          (∀ k ∈ c.chunks, ckey 0 k.no ∈ r'.work.router.done ∨ (NMap.find? r'.work.router.failed k.no).isSome = true) ∧
          (d.mem.ecc = [] → r1.work.router = {} → (∀ p ∈ of src ++ of dst, Reach d p.1 p.2) →
            (∀ k ∈ c.chunks, ckey 0 k.no ∈ r'.work.router.done) ∧ r'.work.router.failed = [] ∧
            (∀ a, Beside (of dst) a → byteAt s'.dev a = byteAt d a) ∧
            (8 ≤ (fmtOf dst).width → Spread (of src) (of dst) → (of dst).Nodup → ∀ k ∈ c.chunks, ∀ e, k.start ≤ e → e < k.start + k.len →
              Holds s'.dev dst e (codeAt d src (tIndex src e))))) ∧
      (∀ px qid q, pushQueue d t.toNat r1 = some (px, qid, q) → polderOf d pn = some px →
        ((q.p - q.f).toNat < q.nslot →
          ∃ s' p', exec (.transfer t) s = .next s' ∧ DevAlone s s' ∧ polderOf s'.dev pn = some p' ∧
            NMap.find? p'.queues qid = some { q with p := q.p + 1, flying := q.flying ++ [((opTag t.toNat r1.q.slot).toNat, r1.q.gen, false)] }) ∧
        (q.nslot ≤ (q.p - q.f).toNat → exec (.transfer t) s = .next { s with dev := d }) ∧
        (r.begun = true → exec (.pushCreditGrant t) s = exec (.transfer t) s)))

/-! ### Mailboxes and commands (file 17) -/

/-- R17, R417: a host write to MBX_CMD or MBX_SEQ takes effect in an EMPTY, HELD, DONE or FAILED mailbox and makes it HELD; go
queues such a mailbox at the end of the ready list with its result, progress and ign cleared, or fails at once with 0x0104 in one
that no polder owns (R416). In any other state a write or go changes nothing but ign, which stops at 0xFFFF. Reserved bits
written, of command words 44 and 47 and beside go, are ignored and counted (event 0x002). R417: cancel withdraws a QUEUED command,
which ends FAILED with 0x0105 and without a tally, and a DEFERRED one with its pending enable, which writes its tally (that this
tally says NOT_STARTED is the model's reading); in every other state cancel changes nothing but ign. Key words of a command that
carried a key are zeroed at its end (R392, R401). -/
def Obligations.MailboxWrites : Prop :=
  (
  ∀ (m : MboxNo) (s : State) (rest : BitVec 30),
    let b := mboxOf s.dev m.val
    let ready := s.dev.reeve.ready
    let mask (word : Fin 48) : W32 := if word = 44 then 0x0003FFFF else if word = 47 then 0 else 0xFFFFFFFF
    let ignored : Mbox := { b with ign := if b.ign = 0xFFFF then 0xFFFF else b.ign + 1 }
    let cleared : Mbox := { b with ign := 0, progress := 0, total := 0, status := 0, tstate := 0, fin := false, rseq := 0, res := [] }
    (b.st = .empty ∨ b.st = .held ∨ b.st = .done ∨ b.st = .failed →
      (∀ (word : Fin 48) (v : W32), ∃ ws, (∀ k, NMap.get ws 0 k = if k = word.val then v &&& mask word else NMap.get b.words 0 k) ∧
        BoxBecomes s (counted s.dev (v &&& mask word ≠ v)) m.val { b with words := ws, st := .held } ready (exec (.mbxCmdWrite m word v) s)) ∧
      (∀ v : W32, BoxBecomes s s.dev m.val { b with seq := v, st := .held } ready (exec (.mbxSeqWrite m v) s)) ∧
      (b.owner ≠ none ∨ m.val = 64 →
        BoxBecomes s (counted s.dev (rest ≠ 0)) m.val { cleared with st := .queued } (ready ++ [m.val]) (exec (.mbxGo m rest) s)) ∧
      (b.owner = none → m.val ≠ 64 →
        BoxBecomes s (counted s.dev (rest ≠ 0)) m.val { cleared with st := .failed, status := 0x0104, fin := true, rseq := b.seq } ready
          (exec (.mbxGo m rest) s))) ∧
    (b.st = .queued ∨ b.st = .stepping ∨ b.st = .deferred →
      (∀ (word : Fin 48) (v : W32), BoxBecomes s s.dev m.val ignored ready (exec (.mbxCmdWrite m word v) s)) ∧
      (∀ v : W32, BoxBecomes s s.dev m.val ignored ready (exec (.mbxSeqWrite m v) s)) ∧
      BoxBecomes s s.dev m.val ignored ready (exec (.mbxGo m rest) s))) ∧
  (
  ∀ (m : MboxNo) (s : State) (rest : BitVec 30),
    let b := mboxOf s.dev m.val
    let ready := s.dev.reeve.ready
    let code := (NMap.get b.words 0 44).toNat % 2 ^ 16
    (b.st = .queued → ∃ ws,
      (∀ k, NMap.get ws 0 k = if (code = 0x0803 ∧ k < 16) ∨ (code = 0x0807 ∧ k < 10) then 0 else NMap.get b.words 0 k) ∧
      BoxBecomes s (counted s.dev (rest ≠ 0)) m.val { b with st := .failed, status := 0x0105, fin := true, rseq := b.seq, words := ws }
        (ready.filter (· ≠ m.val)) (exec (.mbxCancel m rest) s)) ∧
    (∀ c : Cmd, b.st = .deferred → b.cmd = some c → ∃ s', exec (.mbxCancel m rest) s = .next s' ∧ DevAlone s s' ∧
      (hostOk s.dev c.tally 32 = true → c.lostTally = false →
        { mboxOf s'.dev m.val with ring := none } = boxEnded b c .notStarted 0x0105 []) ∧
      (∀ e ∈ s'.dev.blocks.deferred, e.1 ≠ m.val) ∧
      (∀ e, e.1 ≠ m.val → (e ∈ s'.dev.blocks.deferred ↔ e ∈ s.dev.blocks.deferred)) ∧
      s'.dev.blocks.st = s.dev.blocks.st ∧ s'.dev.tiles = s.dev.tiles ∧ s'.dev.polders = s.dev.polders) ∧
    (b.st ≠ .queued → b.st ≠ .deferred →
      BoxBecomes s s.dev m.val { b with ign := if b.ign = 0xFFFF then 0xFFFF else b.ign + 1 } ready (exec (.mbxCancel m rest) s)))

/-- R419 and R429: a core takes the mailbox whose turn it is, copies its words and makes it STEPPING. A command that is not known
ends 0x0101, one that the mailbox may not issue 0x0103 (0x0807 in family 0x08), one with a reserved bit set 0x0102, one with a bad
tally address 0x0106, in this order, and any but DEV_INFO, BOOT_IMAGE and STAGE_READ in the privileged mailbox 0x0108 before
firmware runs; each writes no result but its status. A command that passes starts with a tally in part. R420, R421 and R425: when
the work of a mailbox step is done, a command that is over writes its tally, final (DONE when its status is 0, PARTIAL otherwise;
NOT_STARTED with marker 0 when it was refused), then its result, and the mailbox becomes DONE when the status is 0 and FAILED
otherwise; a command that goes on rewrites its tally in part and takes the tail of the ready list; one that waits for a block
becomes DEFERRED with status 0. -/
def Obligations.MailboxSteps : Prop :=
  (
  ∀ (m : MboxNo) (s : State),
    let b := mboxOf s.dev m.val
    let c := copyCmd b
    let own := actsFor s.dev m.val c
    let c' : Cmd := { c with polder := own.1, noPolder := own.2 }
    let out := exec (.mbxTakeUp m) s
    let fails (e : Code) : Prop := ∃ s', out = .next s' ∧ DevAlone s s' ∧ OnlyMem s.dev s'.dev ∧
      s'.dev.reeve.ready = s.dev.reeve.ready.filter (· ≠ m.val) ∧
      { mboxOf s'.dev m.val with ring := none } = boxEnded b { c' with total := 0 } .notStarted e []
    b.st = .queued → itsTurn s.dev m.val = true →
    (tallyAddrOk s.dev c' = true → c'.tloc = true ∨ hostOk s.dev c'.tally 32 = true →
      (s.dev.reeve.fwrun = false → ¬(m.val = 64 ∧ (c.cmd = 0x0101 ∨ c.cmd = 0x0A01 ∨ c.cmd = 0x0A05)) → fails 0x0108) ∧
      (s.dev.reeve.fwrun = true →
        (cmdPerm c.cmd = none → fails 0x0101) ∧
        (cmdPerm c.cmd = some .priv → m.val ≠ 64 → c.cmd / 256 ≠ 8 → fails 0x0103) ∧
        (cmdPerm c.cmd = some .priv → m.val ≠ 64 → c.cmd / 256 = 8 → fails 0x0807) ∧
        (cmdPerm c.cmd ≠ none → mayIssue m.val c' = none → argsOk m.val c' = false → fails 0x0102) ∧
        (cmdPerm c.cmd ≠ none → mayIssue m.val c' = none → argsOk m.val c' = true →
          ∃ s', out = .next s' ∧ DevAlone s s' ∧ OnlyMem s.dev s'.dev ∧
            s'.dev.reeve.ready = s.dev.reeve.ready.filter (· ≠ m.val) ∧
            mboxOf s'.dev m.val = { b with st := .stepping, cmd := some c' } ∧
            (c'.tloc = false → HostTally s.dev c'.tally b.seq ⟨.inPart, 0⟩ false 0 s'.dev)))) ∧
    (tallyAddrOk s.dev c' = false → s.dev.reeve.fwrun = true → cmdPerm c.cmd ≠ none → mayIssue m.val c' = none →
      argsOk m.val c' = true → fails 0x0106)) ∧
  (
  ∀ (m : MboxNo) (s : State) (c : Cmd) (w : StepEnd),
    let b := mboxOf s.dev m.val
    let out := exec (.mailboxStep m) s
    b.st = .stepping → b.cmd = some c → c.work = some w → c.lostTally = false → c.cut = false →
    c.tloc = false → hostOk s.dev c.tally 32 = true →
    let ends (c : Cmd) (e : OpEnd) (res : List W32) : Prop := ∃ s', out = .next s' ∧ DevAlone s s' ∧ OnlyMem s.dev s'.dev ∧
      { mboxOf s'.dev m.val with ring := none } = boxEnded b c e.st e.status res ∧
      (c.notify = false → HostTally s.dev c.tally c.seq e true (if e.st = .notStarted then 0 else c.done) s'.dev ∧
        ∀ n, n ≠ m.val → mboxOf s'.dev n = mboxOf s.dev n) ∧
      s'.dev.reeve.ready = s.dev.reeve.ready.filter (· ≠ m.val)
    (∀ res, w = .over 0 res → ends c ⟨.done, 0⟩ res) ∧
    (∀ e res, w = .over e res → e ≠ 0 → ends c ⟨.inPart, e⟩ res) ∧
    (∀ e res, w = .refused e res → ends { c with done := 0, total := 0 } ⟨.notStarted, e⟩ res) ∧
    (w = .more → ∃ s', out = .next s' ∧ DevAlone s s' ∧ OnlyMem s.dev s'.dev ∧
      mboxOf s'.dev m.val = { b with progress := BitVec.ofNat 16 c.done, total := BitVec.ofNat 16 c.total,
                                     cmd := some { c with work := none, running := false } } ∧
      (∀ n, n ≠ m.val → mboxOf s'.dev n = mboxOf s.dev n) ∧
      HostTally s.dev c.tally c.seq ⟨.inPart, 0⟩ false c.done s'.dev ∧ s'.dev.reeve.ready = s.dev.reeve.ready ++ [m.val]) ∧
    (w = .defer → ∃ s', out = .next s' ∧ DevAlone s s' ∧ OnlyMem s.dev s'.dev ∧
      mboxOf s'.dev m.val = { b with st := .deferred, status := 0, cmd := some { c with work := none, running := false } } ∧
      (∀ n, n ≠ m.val → mboxOf s'.dev n = mboxOf s.dev n) ∧
      HostTally s.dev c.tally c.seq ⟨.inPart, 0⟩ false 0 s'.dev ∧ s'.dev.reeve.ready = s.dev.reeve.ready))

/-- R422, R429, R431, R241, R259: DEV_INFO returns device state, stage, tiles, memory and spares; NOTICE_RING gives the mailbox a
ring with its number at 0 (base 4 KiB aligned, else 0x0106; that a k outside 6 to 16 answers 0x0102 is the model's reading);
CLUSTER_CLOCK sets the clusters of its mask and no other; LEV_CONFIG checks torus (0x0120), identifier (0x0121), shares (0x0129)
and polders (0x0123) in this order, and a changed torus or identifier makes every levee port retrain; its second form sets the
transit shares alone. R209, R218 and R431: STRIPE_MODE sets the stripes of its mask to one interleave, all of them or none: 0x0303
when a polder's HBM window meets one, 0x0304 for global without all 16 stacks; no stored byte moves. SCRUB_PERIOD sets one period
within its range (0x0307 otherwise). ELOG_READ writes the source's register and its 16 records, newest first, and returns how many
are valid (0x0308 for a source that does not exist). -/
def Obligations.DeviceAndMemoryCommands : Prop :=
  (
  ∀ (m : MboxNo) (s : State) (c : Cmd), Serves s m.val c →
    (c.cmd = 0x0101 → Succeeds s m.val c s.dev
      [BitVec.ofNat 32 (devState s.dev), BitVec.ofNat 32 (devStage s.dev), BitVec.ofNat 32 s.dev.boot.tiles,
       BitVec.ofNat 32 s.dev.boot.ddr, BitVec.ofNat 32 s.dev.boot.hbm.toNat, BitVec.ofNat 32 (spareWord s.dev)] (exec (.devInfo m) s)) ∧
    (c.cmd = 0x0102 → ∀ base k : Nat, base = c.word 0 + 2 ^ 32 * c.word 1 → k = c.word 2 % 32 →
      (base % 4096 = 0 → 6 ≤ k → k ≤ 16 → Succeeds s m.val c
        (onMbox s.dev m.val fun b => { b with ring := some ⟨base, k, BitVec.ofNat 16 (c.word 2 / 2 ^ 16), 0⟩ }) [] (exec (.noticeRing m) s)) ∧
      (base % 4096 ≠ 0 → Refused s m.val c 0x0106 (exec (.noticeRing m) s)) ∧
      (base % 4096 = 0 → k < 6 ∨ 16 < k → Refused s m.val c 0x0102 (exec (.noticeRing m) s))) ∧
    (c.cmd = 0x0103 →
      (1200 ≤ c.word 1 → c.word 1 ≤ 2700 → ∃ cs : NMap Cluster,
        (∀ i, (NMap.get cs {} i).mhz = if i < 32 ∧ (c.word 0).testBit i then c.word 1 else (NMap.get s.dev.grid.clusters {} i).mhz) ∧
        Succeeds s m.val c { s.dev with grid := { s.dev.grid with clusters := cs } } [] (exec (.clusterClock m) s)) ∧
      (c.word 1 < 1200 ∨ 2700 < c.word 1 → Refused s m.val c 0x0102 (exec (.clusterClock m) s))) ∧
    (c.cmd = 0x0110 → c.word 4 = 0 →
      let there := onFabric s.dev fun b => { b with dims := BitVec.ofNat 32 (c.word 0), self := BitVec.ofNat 32 (c.word 1), tshare := levShares c }
      let same := s.dev.fabric.dims = BitVec.ofNat 32 (c.word 0) ∧ s.dev.fabric.self = BitVec.ofNat 32 (c.word 1)
      let shape := c.word 0 / 2 ^ 20 % 2 ^ 12 = 0
      let self := inTorus there (selfId there) = true
      let fits := total (levShares c) ≤ 250
      (¬ shape → Refused s m.val c 0x0120 (exec (.levConfig m) s)) ∧
      (shape → ¬ self → Refused s m.val c 0x0121 (exec (.levConfig m) s)) ∧
      (shape → self → ¬ fits → Refused s m.val c 0x0129 (exec (.levConfig m) s)) ∧
      (shape → self → fits → s.dev.polders ≠ [] → ¬ same → Refused s m.val c 0x0123 (exec (.levConfig m) s)) ∧
      (shape → self → fits → same → Succeeds s m.val c there [] (exec (.levConfig m) s)) ∧
      (shape → self → fits → s.dev.polders = [] → ¬ same →
        Succeeds s m.val c ((List.range 16).foldl retrainStart there) [] (exec (.levConfig m) s))) ∧
    (c.cmd = 0x0110 → c.word 4 = 1 →
      (total (levShares c) ≤ 250 → Succeeds s m.val c (onFabric s.dev fun b => { b with tshare := levShares c }) [] (exec (.levConfigShares m) s)) ∧
      (250 < total (levShares c) → Refused s m.val c 0x0129 (exec (.levConfigShares m) s)))) ∧
  (
  ∀ (m : MboxNo) (s : State) (c : Cmd), Serves s m.val c →
    (c.cmd = 0x0301 →
      let inMask (j : Nat) : Prop := j < 64 ∧ (c.word 0 + 2 ^ 32 * c.word 1).testBit j
      let used := ∃ e ∈ (s.dev.polders : List (Nat × Polder)), ∃ j ∈ windowStripes e.2, inMask j
      (used → Refused s m.val c 0x0303 (exec (.stripeMode m) s)) ∧
      (¬ used → c.word 2 = 1 → (∃ i, i < 16 ∧ stackUp s.dev i = false) → Refused s m.val c 0x0304 (exec (.stripeMode m) s)) ∧
      (¬ used → (c.word 2 = 1 → ∀ i, i < 16 → stackUp s.dev i = true) → ∃ map : W64,
        (∀ j, j < 64 → map.getLsbD j = if inMask j then decide (c.word 2 = 1) else s.aon.imap.getLsbD j) ∧
        exec (.stripeMode m) s = .next { s with
          aon := { s.aon with imap := map }
          dev := putCmd { s.dev with mem := { s.dev.mem with imap := map } } m.val { c with work := some (.over 0 []), done := c.total } })) ∧
    (c.cmd = 0x0302 →
      let ok := (c.word 0 < 2 ∧ 1 ≤ c.word 1 ∧ c.word 1 ≤ 168) ∨ (c.word 0 = 2 ∧ 10 ≤ c.word 1 ∧ c.word 1 ≤ 1440)
      (ok → Succeeds s m.val c (onMem s.dev fun x => { x with scrub := x.scrub.set (c.word 0) (c.word 1) }) [] (exec (.scrubPeriod m) s)) ∧
      (¬ ok → Refused s m.val c 0x0307 (exec (.scrubPeriod m) s))) ∧
    (c.cmd = 0x0303 →
      (elogOf s.dev (c.word 0) = none → Refused s m.val c 0x0308 (exec (.elogRead m) s)) ∧
      (∀ l a, elogOf s.dev (c.word 0) = some l → a = c.word 1 + 2 ^ 32 * c.word 2 → a % 32 = 0 → c.polder = none →
        hostOk s.dev a 272 = true →
        let ring : List Byte := toBytes 16 (l.newest.toNat + 2 ^ 16 * l.lost.toNat) ++
          (List.range 16).flatMap fun i => toBytes 16 (l.recs.getD i 0).toNat
        Succeeds s m.val c { s.dev with mem := { s.dev.mem with host := Mem.writeN s.dev.mem.host a ring } }
          [BitVec.ofNat 32 ((l.recs.filter fun r => r.extractLsb' 48 3 ≠ 0).length)] (exec (.elogRead m) s))))

/-- R315 to R318: POLDER_CREATE makes its checks in the order of R317 and, when all hold, enters the record as a polder with the
record's shares and returns the tiles it holds; POLDER_SHARES replaces the shares of a polder that exists (0x0207) when R318
allows it (0x0204); STAGE_QUEUE declares one end of a queue once (0x0208); MBX_ASSIGN gives mailboxes that no other polder owns
(0x0209). R431 and R67: THREAD_START starts a FREE thread of the polder's range on one of its tiles at an instruction, with s1 the
argument and s2 its own number; THREAD_CTL parks a READY or WAITING thread, which keeps its condition, returns a thread that the
reeve parked to READY or to its wait, and frees a PARKED one. 0x0409 names a thread that is not the polder's and 0x040D a thread
in another state. Nothing but the thread (and, of one freed, its waiting ISSUE) changes. -/
def Obligations.PolderAndThreadCommands : Prop :=
  (
  ∀ (m : MboxNo) (s : State) (c : Cmd), Serves s m.val c →
    (c.cmd = 0x0201 →
      let rec_ : BitVec 1024 := BitVec.ofNat 1024 (c.num 0 32)
      let p := (rec_.extractLsb' 16 4).toNat
      let x : Polder := { desc := rec_, shares := recShares rec_ }
      let out := exec (.polderCreate m) s
      let others : List (Nat × Polder) := s.dev.polders
      let c1 := NMap.find? s.dev.polders p = none
      let c2 := ∀ e ∈ others, e.2.job ≠ x.job
      let c3 := allotOk x = true ∧ tilesHeld s.dev x ≠ [] ∧ ∀ e ∈ others, allotsMeet s.dev x e.2 = false
      let c4 := sharesOk s.dev p x.filler x.shares = true
      let c5 := granted s.dev 2 = true ∨ (x.dlo = x.dhi ∧ x.buddyEn = false ∧ x.anyDdr = false)
      let c6 := placementOk s.dev x = true
      let c7 := regionsOk x = true
      let c8 := ∀ r ∈ s.dev.reeve.clearing,
        meets x.hlo (x.hhi - x.hlo) r.1 (r.2 - r.1) = false ∧ meets x.dlo (x.dhi - x.dlo) r.1 (r.2 - r.1) = false
      (¬ c1 → Refused s m.val c 0x0201 out) ∧
      (c1 → ¬ c2 → Refused s m.val c 0x0202 out) ∧
      (c1 → c2 → ¬ c3 → Refused s m.val c 0x0203 out) ∧
      (c1 → c2 → c3 → ¬ c4 → Refused s m.val c 0x0204 out) ∧
      (c1 → c2 → c3 → c4 → ¬ c5 → Refused s m.val c 0x020A out) ∧
      (c1 → c2 → c3 → c4 → c5 → ¬ c6 → Refused s m.val c 0x0306 out) ∧
      (c1 → c2 → c3 → c4 → c5 → c6 → ¬ c7 → Refused s m.val c 0x0205 out) ∧
      (c1 → c2 → c3 → c4 → c5 → c6 → c7 → ¬ c8 → Refused s m.val c 0x0206 out) ∧
      (c1 → c2 → c3 → c4 → c5 → c6 → c7 → c8 → Succeeds s m.val c
        { s.dev with polders := NMap.insert s.dev.polders p x,
                     claims := s.dev.claims ++ x.spillTiles.map fun t => ⟨5, t, 3, BitVec.ofNat 4 p⟩ }
        [BitVec.ofNat 32 (tilesHeld s.dev x).length] out)) ∧
    (c.cmd = 0x0203 →
      let p := c.word 0 % 16
      let shares := (List.range 7).map fun k => (c.word 1 + 2 ^ 32 * c.word 2) / 2 ^ (8 * k) % 256
      (NMap.find? s.dev.polders p = none → Refused s m.val c 0x0207 (exec (.polderShares m) s)) ∧
      (∀ x, NMap.find? s.dev.polders p = some x → (∀ q ∈ polderOps s.dev (BitVec.ofNat 4 p), 1 ≤ dClass q.desc →
          shares.getD (dClass q.desc - 1) 0 = 0 → x.share (dClass q.desc) = 0) →
        (sharesOk s.dev p x.filler shares = true → Succeeds s m.val c
          { s.dev with polders := NMap.insert s.dev.polders p { x with shares := shares } } [] (exec (.polderShares m) s)) ∧
        (sharesOk s.dev p x.filler shares = false → Refused s m.val c 0x0204 (exec (.polderShares m) s)))) ∧
    (c.cmd = 0x0204 → ∀ p x, c.polder = some p → polderOf s.dev p = some x →
      let q : StageQ := { qrec := BitVec.ofNat 256 (c.num 0 8) }
      let qid := c.word 0 % 8
      (queueOk s.dev x q = true → NMap.find? x.queues qid = none → Succeeds s m.val c
        (onPolder s.dev p fun x => { x with queues := NMap.insert x.queues qid q }) [] (exec (.stageQueue m) s)) ∧
      (queueOk s.dev x q = false ∨ NMap.find? x.queues qid ≠ none → Refused s m.val c 0x0208 (exec (.stageQueue m) s))) ∧
    (c.cmd = 0x0205 → ∀ x, NMap.find? s.dev.polders (c.word 2 % 16) = some x →
      let given (i : Nat) : Prop := i < 64 ∧ (c.word 0 + 2 ^ 32 * c.word 1).testBit i
      let p : PolderNo := BitVec.ofNat 4 (c.word 2)
      ((∃ i o, given i ∧ (mboxOf s.dev i).owner = some o ∧ o.1 ≠ p) → Refused s m.val c 0x0209 (exec (.mbxAssign m) s)) ∧
      ((∀ i o, given i → (mboxOf s.dev i).owner = some o → o.1 = p) → ∃ d, Succeeds s m.val c d [] (exec (.mbxAssign m) s) ∧
        d = { s.dev with reeve := { s.dev.reeve with boxes := d.reeve.boxes } } ∧
        (∀ i, given i → mboxOf d i = { mboxOf s.dev i with owner := some (p, x.job) }) ∧
        ∀ i, ¬ given i → mboxOf d i = mboxOf s.dev i))) ∧
  (
  ∀ (m : MboxNo) (s : State) (c : Cmd) (p : PolderNo) (x : Polder), Serves s m.val c → c.polder = some p → polderOf s.dev p = some x →
    let t := c.word 0 % 2 ^ 11
    let th := c.word 0 / 2 ^ 16 % 2 ^ 10
    let mine := x.inRect t = true ∧ tileUp s.dev t = true ∧ x.tbase ≤ th ∧ th < x.tbase + x.tcount
    let old := threadOf s.dev t th
    (¬ mine →
      (c.cmd = 0x0402 → Refused s m.val c 0x0409 (exec (.threadStart m) s)) ∧
      (c.cmd = 0x0403 → c.word 1 = 0 → Refused s m.val c 0x0409 (exec (.threadPark m) s)) ∧
      (c.cmd = 0x0403 → c.word 1 = 1 → Refused s m.val c 0x0409 (exec (.threadResume m) s)) ∧
      (c.cmd = 0x0403 → c.word 1 = 2 → Refused s m.val c 0x0409 (exec (.threadFree m) s))) ∧
    (mine →
      (c.cmd = 0x0402 →
        (old.st ≠ .free → Refused s m.val c 0x040D (exec (.threadStart m) s)) ∧
        (old.st = .free → ∃ h : Thread, h.st = .ready ∧ h.pc.toNat = c.word 1 ∧ (∀ r, regRead h r =
            if r = 1 then BitVec.ofNat 64 (c.word 2 + 2 ^ 32 * c.word 3) else if r = 2 then BitVec.ofNat 64 th else 0) ∧
          Succeeds s m.val c (onThread s.dev t th fun _ => h) [] (exec (.threadStart m) s))) ∧
      (c.cmd = 0x0403 → c.word 1 = 0 →
        (old.st = .free → Refused s m.val c 0x040D (exec (.threadPark m) s)) ∧
        (old.st = .parked → Succeeds s m.val c s.dev [] (exec (.threadPark m) s)) ∧
        (old.st = .ready ∨ old.st = .waiting → Succeeds s m.val c
          (onThread s.dev t th fun h => { h with st := .parked, was := old.st }) [] (exec (.threadPark m) s))) ∧
      (c.cmd = 0x0403 → c.word 1 = 1 →
        (old.st ≠ .parked ∨ old.byFault = true → Refused s m.val c 0x040D (exec (.threadResume m) s)) ∧
        (old.st = .parked → old.byFault = false → old.was ≠ .waiting → Succeeds s m.val c
          (onThread s.dev t th fun h => { h with st := old.was, was := .free }) [] (exec (.threadResume m) s)) ∧
        (∀ rd o, old.st = .parked → old.byFault = false → old.was = .waiting → old.wait = .load rd o → Succeeds s m.val c
          (onThread s.dev t th fun h => { h with st := .waiting, was := .free }) [] (exec (.threadResume m) s))) ∧
      (c.cmd = 0x0403 → c.word 1 = 2 →
        (old.st ≠ .parked → Refused s m.val c 0x040D (exec (.threadFree m) s)) ∧
        (old.st = .parked → Succeeds s m.val c
          (onTile (onThread s.dev t th fun _ => {}) t fun y => { y with issueQ := y.issueQ.filter fun w => w.thread ≠ some th })
          [] (exec (.threadFree m) s)))))

/-- R431 and R68: PROG_LOAD copies one 64 KiB piece of host memory into the polder's program region in each mailbox step, on each
tile it names: byte i of the image to byte i of the region from the offset on; it is refused while a thread of the polder is READY
or WAITING (0x040B) or where the words leave the region (0x0409). DESC_ISSUE enters a descriptor as ISSUE does and returns op tag
and generation. COLL_ABORT returns how many chunks its abort ends (that another job's collective answers 0x0103 is the model's
reading). R424 and R431: FAULT_READ writes the polder's fault records, newest first, and returns how many there are and how many
were overwritten. OPEN_SHARDS visits one tile of the polder in each mailbox step; the polder's one journal is reported at its
first tile (the model's reading): an entry where its head record is OPEN, COMMITTED or unreadable, none where it is CLOSED. R485,
R486 and R491: CTR_SELECT from the privileged mailbox gives a counter that no polder holds an event and zeroes it, after the
checks block (0x0904), event (0x0901), grant (0x0903) and holder (0x0902); a polder's own mailbox holds the counter for it, or
with event 0 lets it go; no other counter changes. CTR_SNAPSHOT copies every counter of every present block into its RS copy at
once, under one snapshot number, and the counters go on counting: the copy is the count at that moment, which for an event that
counts time or traffic is open (log entries 7 and 59) and for every other event is the count that was there. -/
def Obligations.ProgramAndRecordCommands : Prop :=
  (
  ∀ (m : MboxNo) (s : State) (c : Cmd) (p : PolderNo) (x : Polder), Serves s m.val c → c.polder = some p → polderOf s.dev p = some x →
    (c.cmd = 0x0401 →
      let src := c.word 0 + 2 ^ 32 * c.word 1
      let len := c.word 2
      let ofs := c.word 4
      let ts := if c.word 3 = 0xFFF then tilesHeld s.dev x else [c.word 3]
      let pos := 65536 * c.step
      let n := min 65536 (len - pos)
      let key (t i : Nat) : Nat := progKey t x.pbase + ofs + pos + i
      let awake := ∃ e ∈ (s.dev.tiles : List (Nat × Tile)), ∃ h ∈ (e.2.threads : List (Nat × Thread)),
        x.inRect e.1 = true ∧ x.tbase ≤ h.1 ∧ h.1 < x.tbase + x.tcount ∧ (h.2.st = .ready ∨ h.2.st = .waiting)
      let fits := ofs + len ≤ 4 * x.plen ∧ ∀ t ∈ ts, x.inRect t = true ∧ tileUp s.dev t = true
      len % 4 = 0 → ofs % 4 = 0 → cmdAddrOk s.dev (some p) src len 64 = true →
      (c.step = 0 → awake → Refused s m.val { c with total := ceilDiv len 65536 } 0x040B (exec (.progLoad m) s)) ∧
      (c.step = 0 → ¬ awake → ¬ fits → Refused s m.val { c with total := ceilDiv len 65536 } 0x0409 (exec (.progLoad m) s)) ∧
      ((c.step = 0 → ¬ awake) → fits → x.pbase + x.plen ≤ 32768 → (∀ t ∈ ts, t < 2048) → pos < len →
        isDevAddr s.dev (some p) (src + pos) n = false → hostOk s.dev (src + pos) n = true →
        (∀ t ∈ ts, ∀ i, i < n → NMap.find? s.dev.mem.ecc (key t i / 8) = none) → ∃ d c',
          StepGives s m.val d c' (exec (.progLoad m) s) ∧ (∃ b, d = withBytes s.dev b) ∧
          (∀ t ∈ ts, ∀ i, i < n → Mem.read d.mem.bytes (key t i) = Mem.read s.dev.mem.host (src + pos + i)) ∧
          (∀ k, (∀ t ∈ ts, ∀ i, i < n → k ≠ key t i) → Mem.read d.mem.bytes k = Mem.read s.dev.mem.bytes k) ∧
          c' = if len ≤ pos + n then { c with total := ceilDiv len 65536, work := some (.over 0 []), done := ceilDiv len 65536 }
               else { c with total := ceilDiv len 65536, work := some .more, step := c.step + 1, done := c.step + 1 })) ∧
    (c.cmd = 0x0404 → c.step = 0 → ∀ (e : EngineId) (sl : Nat) (rest : List Nat),
      let t := c.word 0
      let a := c.word 1 + 2 ^ 32 * c.word 2
      let desc : BitVec 1024 := BitVec.ofNat 1024 (ofBytes (bytesAt s.dev a 128))
      x.inRect t = true → tileUp s.dev t = true → t < 2048 → a / 2 ^ 20 = t → a % 64 = 0 → a % 2 ^ 20 + 128 ≤ 2 ^ 20 →
      inShare s.dev x t a (a + 128) = true → Clean s.dev a 128 → dDepEn desc = false → engOfCode (dEngine desc) = some e →
      (tileOf s.dev t).issueQ = [] → (tileOf s.dev t).freeSlots = sl :: rest → sl < 32 →
      (engineOf s.dev t e).queue.length < 8 → s.dev.resets = [] → ∃ d,
        let gen := (slotOf s.dev t sl).gen + 1
        Succeeds s m.val c d [BitVec.ofNat 32 (t * 32 + sl + gen.toNat * 2 ^ 16)] (exec (.descIssue m) s) ∧
        d = { s.dev with tiles := d.tiles } ∧ (∀ u, u ≠ t → tileOf d u = tileOf s.dev u) ∧
        tileOf d t = { tileOf s.dev t with
          freeSlots := rest, slots := (tileOf d t).slots, engines := (tileOf d t).engines } ∧
        (slotOf d t sl).gen = gen ∧ (slotOf d t sl).use = .held p ∧ (∀ k, k ≠ sl → slotOf d t k = slotOf s.dev t k) ∧
        (engineOf d t e).queue = (engineOf s.dev t e).queue ++ [⟨desc, sl, gen, .met⟩] ∧
        (engineOf d t e).run = (engineOf s.dev t e).run ∧ ∀ f, f ≠ e → engineOf d t f = engineOf s.dev t f) ∧
    (c.cmd = 0x0501 →
      let job : BitVec 16 := BitVec.ofNat 16 (c.word 0)
      let coll : BitVec 16 := BitVec.ofNat 16 (c.word 0 / 2 ^ 16)
      (job ≠ x.job → Refused s m.val c 0x0103 (exec (.collAbort m) s)) ∧
      (job = x.job → Succeeds s m.val c (collAbort s.dev job coll) [BitVec.ofNat 32 (openChunks s.dev job coll)] (exec (.collAbort m) s)))) ∧
  (
  ∀ (m : MboxNo) (s : State) (c : Cmd) (p : PolderNo) (x : Polder), Serves s m.val c → c.polder = some p → polderOf s.dev p = some x →
    let a := c.word 0 + 2 ^ 32 * c.word 1
    (c.cmd = 0x0206 →
      let bs := x.faults.flatMap fun r => toBytes 32 r.toNat
      (cmdAddrOk s.dev (some p) a bs.length 64 = false → Refused s m.val c 0x0106 (exec (.faultRead m) s)) ∧
      (cmdAddrOk s.dev (some p) a bs.length 64 = true → isDevAddr s.dev (some p) a bs.length = false → hostOk s.dev a bs.length = true →
        Succeeds s m.val c { s.dev with mem := { s.dev.mem with host := Mem.writeN s.dev.mem.host a bs } }
          [BitVec.ofNat 32 x.faults.length, x.overwritten] (exec (.faultRead m) s))) ∧
    (c.cmd = 0x0601 →
      let ts := tilesHeld s.dev x
      let c1 : Cmd := { c with total := ts.length }
      (c.step = 0 → 1 < ts.length → cmdAddrOk s.dev (some p) a (16 * c.word 2) 64 = true → ∀ d,
        (shardEntry s.dev p x (ts.headD 0) = (d, none) →
          StepGives s m.val d { c1 with work := some .more, step := 1, done := 1, nums := [0, 0] } (exec (.openShards m) s)) ∧
        (∀ bs, shardEntry s.dev p x (ts.headD 0) = (d, some bs) → 1 ≤ c.word 2 → isDevAddr d (some p) a bs.length = false →
          hostOk d a bs.length = true →
          StepGives s m.val { d with mem := { d.mem with host := Mem.writeN d.mem.host a bs } }
            { c1 with work := some .more, step := 1, done := 1, nums := [1, 1] } (exec (.openShards m) s))) ∧
      (c.step ≠ 0 → c.step + 1 < ts.length →
        StepGives s m.val s.dev { c1 with work := some .more, step := c.step + 1, done := c.step + 1 } (exec (.openShards m) s)) ∧
      (c.step ≠ 0 → ts.length ≤ c.step + 1 →
        Succeeds s m.val c1 s.dev (c.nums.map fun n => BitVec.ofNat 32 n) (exec (.openShards m) s)) ∧
      (c.step = 0 → ts.length ≤ 1 → cmdAddrOk s.dev (some p) a (16 * c.word 2) 64 = true → ∀ d,
        shardEntry s.dev p x (ts.headD 0) = (d, none) → Succeeds s m.val c1 d [0, 0] (exec (.openShards m) s)) ∧
      (∀ (t : Nat) (h bs : List Byte), memRead s.dev { polder := some p } x.jbase 64 = (s.dev, .ok h) → ofBytes h / 2 ^ 32 % 2 ^ 6 ≤ 62 →
        memRead s.dev { polder := some p } (recAddr x (ofBytes h / 2 ^ 32 % 2 ^ 6)) 64 = (s.dev, .ok bs) →
        ofBytes bs / 2 ^ 480 % 2 ^ 32 = crc32c (bs.take 60) →
        let r := ofBytes bs
        let st := r / 2 ^ 32 % 8
        shardEntry s.dev p x t = (s.dev, if st = 1 ∨ st = 2 then some (toBytes 16 (t + 2 ^ 12 * st + 2 ^ 16 * (r / 2 ^ 128 % 2 ^ 48) +
          2 ^ 64 * (r % 2 ^ 16) + 2 ^ 80 * (r / 2 ^ 16 % 2 ^ 16) + 2 ^ 96 * (r / 2 ^ 35 % 2 ^ 4))) else none)))) ∧
  (
  ∀ (m : MboxNo) (s : State) (c : Cmd), Serves s m.val c →
    (c.cmd = 0x0902 →
      let kind := c.word 0 % 16
      let idx := c.word 0 / 16 % 2 ^ 12
      let n := c.word 0 / 2 ^ 16 % 8
      let ev := c.word 1 % 2 ^ 12
      let unf := (c.word 1).testBit 16
      let old := counterOf s.dev kind idx n
      let out := exec (.ctrSelect m) s
      let there := blockThere s.dev kind idx = true
      let listed := eventOk kind ev = true
      let sets (x : Counter) : Prop := ∃ d, Succeeds s m.val c d [] out ∧
        d = { s.dev with counters := { s.dev.counters with blocks := d.counters.blocks } } ∧ counterOf d kind idx n = x ∧
        ∀ k i j, i < 2 ^ 12 → (k, i, j) ≠ (kind, idx, n) → counterOf d k i j = counterOf s.dev k i j
      (¬ there → Refused s m.val c 0x0904 out) ∧
      (there → ¬ listed → Refused s m.val c 0x0901 out) ∧
      (c.polder = none → there → listed → old.held = true → Refused s m.val c 0x0902 out) ∧
      (c.polder = none → there → listed → old.held = false →
        sets { event := BitVec.ofNat 12 ev, polder := BitVec.ofNat 4 (c.word 43), filt := !unf, held := false, val := 0, snap := old.snap }) ∧
      (∀ p x, c.polder = some p → polderOf s.dev p = some x → there → listed →
        let grant := x.cgrant = true ∧ (2 ≤ kind ∨ (x.inRect idx = true ∧ tileUp s.dev idx = true)) ∧ unf = false
        (¬ grant → Refused s m.val c 0x0903 out) ∧
        (grant → old.held = true → old.polder ≠ p → Refused s m.val c 0x0902 out) ∧
        (grant → old.held = false ∨ old.polder = p → ev ≠ 0 →
          sets { event := BitVec.ofNat 12 ev, polder := p, filt := true, held := true, val := 0, snap := old.snap }) ∧
        (grant → old.held = false ∨ old.polder = p → ev = 0 → sets {}))) ∧
    (c.cmd = 0x0901 →
      let no : W32 := if s.dev.counters.snapNo = 0xFFFFFFFF then 1 else s.dev.counters.snapNo + 1
      ∃ d, Succeeds s m.val c d [no] (exec (.ctrSnapshot m) s) ∧
        d.counters.snapNo = no ∧ d.counters.snapK = d.kclk ∧
        d.kclk = s.dev.kclk + BitVec.ofNat 64 (Config.elapsed s.dev.free) ∧
        (∀ kind idx n, idx < 2 ^ 12 → blockThere s.dev kind idx = true →
          let old := counterOf s.dev kind idx n
          let new := counterOf d kind idx n
          new = { old with val := new.val, snap := new.val } ∧
          (¬ (kind = 0 ∧ old.event = 1) → openEvent kind old.event.toNat = false → new.val = old.val)) ∧
        d.mem = s.dev.mem ∧ d.fabric = s.dev.fabric ∧ d.reeve = s.dev.reeve ∧ d.boot = s.dev.boot ∧
        ∀ t th, threadOf d t th = threadOf s.dev t th))

/-! ### Resets, faults and blocks (file 19) -/

/-- R455 to R458: RESET of each level is refused for a target that does not exist or a drain limit above 1,000 (0x0B02), and at
another level or for another polder from a polder's mailbox (0x0103); otherwise the fence starts: a job with its drain limit (10
ms for 0) stands in the drain phase and every thread of the domain is PARKED or FREE. Once the domain is released, the command
ends with the abandoned requests and the operations ended. R458, R459 and R475: a tile or cluster domain leaves its drain once
every request of it is answered (RESET_DRAIN_END, without which nothing changes) or once the drain limit passes, when the requests
still out are abandoned and counted; every tile of the domain is then at its Reset values, but for op-tag slots, whose generations
stay and whose quarantine lasts while every other is free and stands in the free list, and the cycle count. Release ends the job,
tells its mailbox the two counts, and holds a failed tile out of the grid. -/
def Obligations.ResetCommandsAndPhases : Prop :=
  (
  ∀ (m : MboxNo) (s : State) (c : Cmd), Serves s m.val c → c.cmd = 0x0B01 →
    let l := c.word 0 % 4
    let target := c.word 0 / 2 ^ 16
    let limit := c.word 1 % 2 ^ 10
    let own := m.val = 64 ∨ ∃ o, (mboxOf s.dev m.val).owner = some o ∧ o.1.toNat = target
    let exists_ :=
      (l = 0 → tileUp s.dev target = true) ∧ (l = 1 → target < 32 ∧ clusterUp s.dev target = true) ∧
      (l = 2 → target < 16 ∧ NMap.find? s.dev.polders target ≠ none) ∧ (l = 3 → target = 0)
    let row : Instr := if l = 0 then .resetTile m else if l = 1 then .resetCluster m else if l = 2 then .resetPolder m else .resetDevice m
    let inDomain (t th : Nat) : Prop :=
      (l = 0 ∧ t = target) ∨ (l = 1 ∧ clusterOf t = target) ∨ l = 3 ∨
      (l = 2 ∧ ∃ x, NMap.find? s.dev.polders target = some x ∧ x.inRect t = true ∧ x.tbase ≤ th ∧ th < x.tbase + x.tcount)
    (c.step = 0 → ¬ own → Refused s m.val c 0x0103 (exec row s)) ∧
    (c.step = 0 → own → ¬ (exists_ ∧ limit ≤ 1000) → Refused s m.val c 0x0B02 (exec row s)) ∧
    (c.step = 0 → own → exists_ → limit ≤ 1000 → (l = 3 → s.dev.resets = []) → ∃ d j,
      StepGives s m.val d { c with work := some .more, step := 1, total := domainSize s.dev l target } (exec row s) ∧
      d.resets = s.dev.resets ++ [j] ∧ j.phase = .drain ∧ j.level = l ∧ j.target = target ∧
      j.limit = (if limit = 0 then 10 else limit) ∧ j.mbox = some m.val ∧ j.drained = 0 ∧ j.abandoned = 0 ∧
      (∀ i ∈ s.dev.resets, i.id < j.id) ∧
      (∀ t th, inDomain t th → (threadOf d t th).st = .parked ∨ (threadOf d t th).st = .free) ∧
      d.boot = s.dev.boot ∧ d.blocks.st = s.dev.blocks.st) ∧
    (∀ ab en, c.step ≠ 0 → c.nums = [ab, en] → Succeeds s m.val c s.dev [BitVec.ofNat 32 ab, BitVec.ofNat 32 en] (exec row s)) ∧
    (c.step ≠ 0 → c.nums = [] → ∃ n, StepGives s m.val s.dev { c with work := some .more, step := c.step + 1, done := n } (exec row s))) ∧
  (
  ∀ (id : Nat) (s : State) (j : ResetJob), jobOf s.dev id = some j →
    let fresh (d : Dev) (t : Nat) : Prop :=
      ∃ x : Tile, tileOf d t = { slots := (tileOf d t).slots, freeSlots := (tileOf d t).freeSlots, cyc := (tileOf d t).cyc,
                                 issueQ := x.issueQ.filter fun w => w.thread = none } ∧
        (∀ k, (slotOf d t k).use = .free ∨ (slotOf d t k).use = .quarantined) ∧
        ∀ k, k < 32 → (slotOf d t k).use = .free → k ∈ (tileOf d t).freeSlots
    (j.phase = .drain → (domainReqs s.dev j ≠ [] ∨ (∃ b ∈ domainBoxes s.dev j, ∃ c, (mboxOf s.dev b).cmd = some c ∧ c.cut = true)) →
      exec (.resetDrainEnd id) s = .next s) ∧
    (j.phase = .drain → j.level < 2 → domainReqs s.dev j = [] →
      (∀ b ∈ domainBoxes s.dev j, ∀ c, (mboxOf s.dev b).cmd = some c → c.cut = false) →
      ∃ s', exec (.resetDrainEnd id) s = .next s' ∧ DevAlone s s' ∧
        (∀ i, jobOf s'.dev id = some i → i.phase = .reset ∧ i.drained = domainSize s.dev j.level j.target ∧ i.abandoned = j.abandoned) ∧
        ∀ t, (j.level = 0 ∧ t = j.target) ∨ (j.level = 1 ∧ clusterOf t = j.target) → fresh s'.dev t) ∧
    (j.phase = .drain → j.level < 2 → ∃ s', exec (.drainLimitExpiry id) s = .next s' ∧ DevAlone s s' ∧
        (∀ i, jobOf s'.dev id = some i → i.phase = .reset ∧ i.abandoned = (domainReqs s.dev j).length) ∧
        ∀ t, (j.level = 0 ∧ t = j.target) ∨ (j.level = 1 ∧ clusterOf t = j.target) → fresh s'.dev t) ∧
    (j.phase = .reset → j.level ≠ 1 → ∃ s', exec (.resetRelease id) s = .next s' ∧ DevAlone s s' ∧
      s'.dev = { s.dev with
        resets := s.dev.resets.filter fun i => i.id ≠ id
        grid := if j.hold = true ∧ j.level = 0 then { s.dev.grid with absent := s.dev.grid.absent ++ [j.target] } else s.dev.grid
        reeve := s'.dev.reeve } ∧
      (∀ m, j.mbox = some m → mboxOf s'.dev m =
        { mboxOf s.dev m with cmd := (mboxOf s.dev m).cmd.map fun c => { c with nums := [j.abandoned, j.ended] } }) ∧
      (∀ n, j.mbox ≠ some n → mboxOf s'.dev n = mboxOf s.dev n)))

/-- R455, R463, R389 and R464: once every ring member has answered the node breaks of a level 3 RESET, the router stops granting
credits while transit packets are held, and once it holds none the device resets: keys, mailboxes, claims, polders and tiles are
gone, ALM_CAUSE, the fuses, HBM_IMAP and the power cap stay, stored bytes of memory stay but for the codebook sets, and a
preserving bring-up starts at stage 0. R475 and R477: a tile that fails in service starts a reset of its own tile, after which it
is held; a cluster's clock fault starts the cluster's reset; a router fault is noted, a tile router's for the next bring-up too;
an HBM or DDR5 controller retrains at its first fault within 60 s and is held OFF at the second; the end of its retraining returns
it to service. A reeve core that misses two heartbeats is retired for good, and the spare takes over where it is free. -/
def Obligations.DeviceResetsAndFaults : Prop :=
  (
  ∀ (s : State) (j : ResetJob), s.dev.resets.find? (fun i => i.level = 3 && i.phase = .breaks) = some j → s.dev.reeve.mgmtOut = [] →
    (transitHeld s.dev = true → exec .nodeBreakAnswered s = .next { s with dev := onFabric s.dev fun b => { b with stopped := true } }) ∧
    (transitHeld s.dev = false → s.aon.rstLow = false → s.aon.powered = true → 0 < s.aon.boots.toNat →
    ∃ s', exec .nodeBreakAnswered s = .next s' ∧ s'.pending = s.pending ∧
      s'.keys = {} ∧ s'.dev.tiles = [] ∧ s'.dev.polders = [] ∧ s'.dev.reeve = {} ∧ s'.dev.claims = [] ∧ s'.dev.resets = [] ∧
      s'.dev.fabric = {} ∧ s'.dev.coll = {} ∧ s'.dev.sluice = {} ∧ s'.dev.tidal = {} ∧ s'.dev.counters = {} ∧ s'.dev.blocks = {} ∧
      s'.dev.boot.st = .boot ∧ s'.dev.boot.stage = 0 ∧ s'.dev.boot.preserving = true ∧ s'.dev.boot.nodeBreak = true ∧
      s'.dev.boot.licensed = false ∧
      s'.aon.cause = s.aon.cause ∧ s'.aon.alarms = s.aon.alarms ∧ s'.aon.fuses = s.aon.fuses ∧ s'.aon.imap = s.aon.imap ∧
      s'.aon.cap = s.aon.cap ∧ s'.aon.lims = s.aon.lims ∧ s'.dev.mem.imap = s.aon.imap ∧
      (∀ c, (j.mbox.bind fun m => (mboxOf s.dev m).cmd) = some c → c.tloc = false →
        ∀ k, k < cbBase → Mem.read s'.dev.mem.bytes k = Mem.read s.dev.mem.bytes k) ∧
      (∀ k, cbBase ≤ k → Mem.read s'.dev.mem.bytes k = 0) ∧
      ∀ c, (j.mbox.bind fun m => (mboxOf s.dev m).cmd) = some c → c.tloc = false → hostOk s.dev c.tally 32 = true →
        HostTally s.dev c.tally c.seq ⟨.done, 0⟩ true j.drained s'.dev)) ∧
  (
  ∀ s : State,
    (∀ t : TileNo, tileUp s.dev t.toNat = true → ∃ s' j, exec (.unitFault (.tile t)) s = .next s' ∧ s'.keys = s.keys ∧
      s'.dev.resets = s.dev.resets ++ [j] ∧ j.level = 0 ∧ j.target = t.toNat ∧ j.phase = .drain ∧ j.hold = true ∧ j.mbox = none ∧
      physTile s.dev t.toNat ∈ s'.aon.badService ∧ s'.aon.fuses = s.aon.fuses ∧
      ∀ th, (threadOf s'.dev t.toNat th).st = .parked ∨ (threadOf s'.dev t.toNat th).st = .free) ∧
    (∀ c : BitVec 5, clusterUp s.dev c.toNat = true → ∃ s' j, exec (.unitFault (.clock c)) s = .next s' ∧ s'.keys = s.keys ∧
      s'.aon = s.aon ∧ s'.dev.resets = s.dev.resets ++ [j] ∧ j.level = 1 ∧ j.target = c.toNat ∧ j.phase = .drain ∧ j.hold = false) ∧
    (∀ t : TileNo, ∃ s', exec (.unitFault (.tileRouter t)) s = .next s' ∧ s'.keys = s.keys ∧ s'.pending = s.pending ∧
      physTile s.dev t.toNat ∈ s'.aon.badService ∧ s'.aon.fuses = s.aon.fuses ∧ s'.dev.grid.routerFault = true ∧
      s'.dev.tiles = s.dev.tiles ∧ s'.dev.polders = s.dev.polders) ∧
    (∃ s', exec (.unitFault .leveeRouter) s = .next s' ∧ DevAlone s s' ∧ s'.dev.grid.routerFault = true ∧ s'.dev.tiles = s.dev.tiles) ∧
    (∀ h : BitVec 4, stackUp s.dev h.toNat = true → ∃ s', exec (.unitFault (.hbm h)) s = .next s' ∧ DevAlone s s' ∧
      let now := (s.dev.kclk + BitVec.ofNat 64 (Config.elapsed s.dev.free)).toNat
      let again := ∃ k, NMap.find? s.dev.mem.lastFault h.toNat = some k ∧ now - k < 6000000000
      NMap.find? s'.dev.mem.lastFault h.toNat = some now ∧ s'.dev.mem.bytes = s.dev.mem.bytes ∧
      (¬ again → h.toNat ∈ s'.dev.mem.retrain ∧ s'.dev.blocks = s.dev.blocks) ∧
      (again → h.toNat ∉ s'.dev.mem.retrain ∧ blkSt s'.dev 4 h.toNat = .off)) ∧
    (∀ h : BitVec 4, ∃ s', exec (.mcRetrainEnd (.hbm h)) s = .next s' ∧ DevAlone s s' ∧
      s'.dev = { s.dev with mem := { s.dev.mem with retrain := s.dev.mem.retrain.filter (· ≠ h.toNat) } }) ∧
    (∀ c : BitVec 3, ∃ s', exec (.mcRetrainEnd (.ddr c)) s = .next s' ∧ DevAlone s s' ∧
      s'.dev = { s.dev with mem := { s.dev.mem with retrain := s.dev.mem.retrain.filter (· ≠ 16 + c.toNat) } }) ∧
    (∀ core : Fin 5, core.val ∈ s.dev.reeve.coresIn →
      let rest := s.dev.reeve.coresIn.filter (· ≠ core.val)
      let out := exec (.reeveHeartbeatMiss core) s
      (core.val ≠ 4 → 4 ∉ rest → 4 ∉ s.dev.reeve.coresBad → ∃ s', out = .next s' ∧ s'.keys = s.keys ∧
        s'.dev.reeve.coresIn = rest ++ [4] ∧ s'.dev.reeve.coresBad = s.dev.reeve.coresBad ++ [core.val] ∧ core.val ∈ s'.aon.badCores) ∧
      (core.val = 4 ∨ 4 ∈ rest ∨ 4 ∈ s.dev.reeve.coresBad → rest ≠ [] → ∃ s', out = .next s' ∧ s'.keys = s.keys ∧
        s'.dev.reeve.coresIn = rest ∧ s'.dev.reeve.coresBad = s.dev.reeve.coresBad ++ [core.val] ∧ core.val ∈ s'.aon.badCores) ∧
      (core.val = 4 ∨ 4 ∈ s.dev.reeve.coresBad → rest = [] → ∃ s', out = .next s' ∧ s'.keys = {} ∧ s'.dev.polders = [] ∧
        s'.dev.tiles = [] ∧ core.val ∈ s'.aon.badCores)))

/-- R466 and R467: BLOCK_CTL enable starts an OFF block and waits, waits for a STARTING one, is DONE for one that is ON, and is
DEFERRED for one STOPPING (a second one refused with 0x0B05); disable stops an ON block that nothing uses (0x0B04), or a STARTING
one, and changes nothing of one that is OFF; an invalid block answers 0x0B03 and a missing grant 0x0B07. A command that waited
ends DONE with state 2, or with 0x0B06 when the start failed. R467: a STARTING block that is no levee port becomes ON, or returns
to OFF when its start fails, and the commands that wait for it learn which (a cluster begins with its tiles' stores zero and their
state at Reset values, R508); a STOPPING one becomes OFF, and a DEFERRED enable then takes the tail of the ready list. A block in
another state is not touched. -/
def Obligations.BlockEnableDisable : Prop :=
  (
  ∀ (m : MboxNo) (s : State) (c : Cmd), Serves s m.val c → c.cmd = 0x0B02 →
    let k := c.word 0 % 256
    let i := c.word 0 / 256 % 256
    let valid := (k = 1 ∧ i < 16) ∨ (k = 2 ∧ i < 2) ∨ (k = 3 ∧ i < 2) ∨ (k = 4 ∧ i < 16) ∨ (k = 5 ∧ i < 32)
    let st := blkSt s.dev k i
    let key := k * 256 + i
    let waits (d : Dev) : Dev := { d with blocks := { d.blocks with waitStart := d.blocks.waitStart ++ [(m.val, key)] } }
    let more : Cmd := { c with work := some .more, step := c.step + 1 }
    (c.word 1 % 2 = 1 →
      let out := exec (.blockEnable m) s
      (c.step = 0 → ¬ valid → Refused s m.val c 0x0B03 out) ∧
      (c.step = 0 → valid → ctlGranted s.dev k i = false → Refused s m.val c 0x0B07 out) ∧
      (c.step = 0 → valid → ctlGranted s.dev k i = true →
        (st = .on → Succeeds s m.val c s.dev [2] out) ∧
        (st = .off → StepGives s m.val (waits (setBlk s.dev k i .starting)) more out) ∧
        (st = .starting → StepGives s m.val (waits s.dev) more out) ∧
        (st = .stopping → (∃ e ∈ s.dev.blocks.deferred, e.2 = key) → Refused s m.val c 0x0B05 out) ∧
        (st = .stopping → (∀ e ∈ s.dev.blocks.deferred, e.2 ≠ key) → StepGives s m.val
          { s.dev with blocks := { s.dev.blocks with deferred := s.dev.blocks.deferred ++ [(m.val, key)] } }
          { c with work := some .defer } out)) ∧
      (c.step ≠ 0 → c.nums = [1] → Succeeds s m.val c s.dev [2] out) ∧
      (c.step ≠ 0 → c.nums = [0] → StepGives s m.val s.dev { c with work := some (.over 0x0B06 [BitVec.ofNat 32 st.code]) } out) ∧
      (c.step ≠ 0 → c.nums = [] → StepGives s m.val s.dev more out)) ∧
    (c.word 1 % 2 = 0 →
      let out := exec (.blockDisable m) s
      (¬ valid → Refused s m.val c 0x0B03 out) ∧
      (valid → st = .off → Succeeds s m.val c s.dev [0] out) ∧
      (valid → st = .on → ctlBusy s.dev k i = true → Refused s m.val c 0x0B04 out) ∧
      (valid → st = .on → ctlBusy s.dev k i = false → k ≠ 2 → Succeeds s m.val c (setBlk s.dev k i .stopping) [3] out) ∧
      (valid → st = .on → k = 2 → ∃ d, Succeeds s m.val c d [3] out ∧ blkSt d k i = .stopping ∧
        ∀ n p, NMap.find? s.dev.tidal.paths n = some p → p.st ≠ .undeclared → (p.desc.extractLsb' 11 1).toNat = i →
          NMap.find? d.tidal.paths n = some { p with st := .down }) ∧
      (valid → st = .starting → ctlBusy s.dev k i = false → k ≠ 2 → (∀ e ∈ s.dev.blocks.waitStart, e.2 ≠ key) →
        Succeeds s m.val c (setBlk s.dev k i .stopping) [3] out) ∧
      (valid → st = .stopping → (∀ e ∈ s.dev.blocks.deferred, e.2 ≠ key) → Succeeds s m.val c s.dev [3] out))) ∧
  (
  ∀ (b : BlockId) (ok : Bool) (f : PortTrain) (s : State),
    let k := (blockOfId b).1
    let i := (blockOfId b).2
    let key := k * 256 + i
    (blkSt s.dev k i ≠ .starting → exec (.blockStartEnd b ok f) s = .next s) ∧
    (blkSt s.dev k i ≠ .stopping → exec (.blockStopEnd b) s = .next s) ∧
    (blkSt s.dev k i = .starting → k ≠ 1 → ∃ s', exec (.blockStartEnd b ok f) s = .next s' ∧ DevAlone s s' ∧
      blkSt s'.dev k i = (if ok then .on else .off) ∧
      (∀ k' i', i < 256 → i' < 256 → (k', i') ≠ (k, i) → blkSt s'.dev k' i' = blkSt s.dev k' i') ∧
      (∀ e ∈ s'.dev.blocks.waitStart, e.2 ≠ key) ∧
      (∀ n c, (n, key) ∈ s.dev.blocks.waitStart → (mboxOf s.dev n).cmd = some c →
        mboxOf s'.dev n = { mboxOf s.dev n with cmd := some { c with nums := [if ok then 1 else 0] } }) ∧
      (∀ n, (n, key) ∉ s.dev.blocks.waitStart → mboxOf s'.dev n = mboxOf s.dev n) ∧
      (k ≠ 5 ∨ ok = false → s'.dev.mem = s.dev.mem ∧ s'.dev.tiles = s.dev.tiles) ∧
      (k = 5 → ok = true →
        (∀ t, clusterOf t = i → tileOf s'.dev t = {}) ∧ (∀ t, clusterOf t ≠ i → tileOf s'.dev t = tileOf s.dev t) ∧
        ∀ a, Mem.read s'.dev.mem.bytes a =
          if (a < 0x80000000 ∧ clusterOf (a / 2 ^ 20) = i) ∨ (progBase ≤ a ∧ a < cbBase ∧ clusterOf ((a - progBase) / 2 ^ 17) = i) ∨
             (cbBase ≤ a ∧ clusterOf ((a - cbBase) / 2 ^ 16) = i) then 0 else Mem.read s.dev.mem.bytes a)) ∧
    (blkSt s.dev k i = .stopping → k ≠ 1 → ∃ s', exec (.blockStopEnd b) s = .next s' ∧ DevAlone s s' ∧
      blkSt s'.dev k i = .off ∧ (∀ k' i', i < 256 → i' < 256 → (k', i') ≠ (k, i) → blkSt s'.dev k' i' = blkSt s.dev k' i') ∧
      (∀ e ∈ s'.dev.blocks.deferred, e.2 ≠ key) ∧ s'.dev.mem = s.dev.mem ∧ s'.dev.tiles = s.dev.tiles ∧
      (∀ n c, s.dev.blocks.deferred.filter (fun e => e.2 = key) = [(n, key)] → (mboxOf s.dev n).cmd = some c →
        mboxOf s'.dev n = { mboxOf s.dev n with
          st := .stepping, cmd := some { c with step := 0, nums := [], work := none, running := false } } ∧
        s'.dev.reeve.ready = s.dev.reeve.ready ++ [n]) ∧
      (s.dev.blocks.deferred.filter (fun e => e.2 = key) = [] → s'.dev.reeve = s.dev.reeve)))

/-! ### Keys and alarms (file 16) -/

/-- R30 and R448: without the WIDE grant every command of family 0x08 that reaches its own checks is refused with 0x080A. R390 and
R391: CIPHER_KEX writes the 128 B exchange record: identity key, public value of the exchange pair, and the signature over
"GDF-KEX1" and both; a pair is made only when none is held, and until it is consumed the same record is written again. CIPHER_KEK
forms z = x25519 of the pair's private value and the value P that it carries (0x0802 without a pair, 0x0806 for z = 0), takes as
KEK the first 32 B of HKDF-SHA-512 with salt public value ++ P and info "GDF-2048 KEK" ++ identity, and erases the pair; loaded
keys stay. -/
def Obligations.KeyExchange : Prop :=
  (
  ∀ (m : MboxNo) (s : State) (c : Cmd), Serves s m.val c → granted s.dev 3 = false →
    (c.cmd = 0x0801 → Refused s m.val c 0x080A (exec (.cipherKex m) s)) ∧
    (c.cmd = 0x0802 → Refused s m.val c 0x080A (exec (.cipherKek m) s)) ∧
    (c.cmd = 0x0803 → Refused s m.val c 0x080A (exec (.keyLoad m) s)) ∧
    (c.cmd = 0x0804 → Refused s m.val c 0x080A (exec (.keyRetire m) s)) ∧
    (c.cmd = 0x0805 → Refused s m.val c 0x080A (exec (.keyActivate m) s)) ∧
    (c.cmd = 0x0806 → Refused s m.val c 0x080A (exec (.keyStatus m) s)) ∧
    (c.cmd = 0x0807 → Refused s m.val c 0x080A (exec (.legacyKey m) s))) ∧
  (
  ∀ (m : MboxNo) (s : State) (c : Cmd), Serves s m.val c → granted s.dev 3 = true →
    let a := c.word 0 + 2 ^ 32 * c.word 1
    let idk := toBytes 32 s.dev.boot.idkey.toNat
    (c.cmd = 0x0801 → c.polder = none → a % 64 = 0 →
      (∀ x, s.keys.exch = some x → hostOk s.dev a s.keys.exchRec.length = true → KeySucceeds s m.val c s.keys
        { s.dev with mem := { s.dev.mem with host := Mem.writeN s.dev.mem.host a s.keys.exchRec } } [] (exec (.cipherKex m) s)) ∧
      (s.keys.exch = none → ∀ rec_,
        let x := Config.exchangeSecret s.dev.free
        let body := idk ++ x25519Public (toBytes 32 x.toNat)
        rec_ = body ++ edSign (toBytes 32 (s.keys.seed.getD 0).toNat) (ascii "GDF-KEX1" ++ body) → hostOk s.dev a rec_.length = true →
        KeySucceeds s m.val c { s.keys with exch := some x, exchRec := rec_ }
          { s.dev with free := s.dev.free + 1, mem := { s.dev.mem with host := Mem.writeN s.dev.mem.host a rec_ } }
          [] (exec (.cipherKex m) s))) ∧
    (c.cmd = 0x0802 →
      let p := toBytes 32 (c.num 0 8)
      (s.keys.exch = none → Refused s m.val c 0x0802 (exec (.cipherKek m) s)) ∧
      (∀ x, s.keys.exch = some x →
        let z := x25519 (toBytes 32 x.toNat) p
        (ofBytes z = 0 → Refused s m.val c 0x0806 (exec (.cipherKek m) s)) ∧
        (ofBytes z ≠ 0 → KeySucceeds s m.val c
          { s.keys with
            kek := some (BitVec.ofNat 256 (ofBytes (hkdf512 (x25519Public (toBytes 32 x.toNat) ++ p) z (ascii "GDF-2048 KEK" ++ idk) 32)))
            exch := none, exchRec := [] } s.dev [] (exec (.cipherKek m) s)))))

/-- R389, R392, R393 and R401: KEY_LOAD and the legacy registers store a key only when its epoch is above every epoch loaded for
its partner and direction since the last reset of the device (0x0803) and its bits differ from those of every key held (0x0804);
before that KEY_LOAD asks for a KEK (0x0802) and a blob of a known format whose integrity check passes and whose reserved fields
are zero (0x0801). A refusal stores nothing. LEGACY_KEY needs its grant (0x0805); CIPH_LKEY0–7 are zero after either way of a go,
and without the grant the registers ignore the write and count it. -/
def Obligations.KeyLoads : Prop :=
  ∀ s : State,
    let fresh (ks : KeyStore) (site : Nat) (tx : Bool) (kep : Nat) : Prop :=
      ∀ k, NMap.find? ks.topKep (2 * site + if tx then 0 else 1) = some k → k < kep
    (∀ (m : MboxNo) (c : Cmd), Serves s m.val c → granted s.dev 3 = true → c.cmd = 0x0803 →
      let blob := toBytes 64 (c.num 0 16)
      let out := exec (.keyLoad m) s
      let fmt := ofBytes (blob.take 1)
      let formOk := (fmt = 1 ∨ fmt = 2) ∧ ofBytes ((blob.drop 1).take 7) = 0
      (s.keys.kek = none → Refused s m.val c 0x0802 out) ∧
      (∀ k, s.keys.kek = some k →
        let opened := if fmt = 1 then unwrap3394 (toBytes 32 k.toNat) (blob.drop 8) else unwrap5649 (toBytes 32 k.toNat) (blob.drop 8)
        (¬ formOk → Refused s m.val c 0x0801 out) ∧
        (formOk → opened = none → Refused s m.val c 0x0801 out) ∧
        (∀ r, formOk → opened = some r →
          let n := ofBytes r
          let key : BitVec 256 := BitVec.ofNat 256 n
          let site := n / 2 ^ 256 % 2 ^ 8
          let tx := !n.testBit 264
          let kep := n / 2 ^ 272 % 2 ^ 32
          let l := n / 2 ^ 304 % 2 ^ 6
          let recOk := n / 2 ^ 265 % 2 ^ 7 = 0 ∧ n / 2 ^ 310 % 2 ^ 74 = 0 ∧ (l = 0 ∨ (20 ≤ l ∧ l ≤ 36))
          (¬ recOk → Refused s m.val c 0x0801 out) ∧
          (recOk → ¬ fresh s.keys site tx kep → Refused s m.val c 0x0803 out) ∧
          (recOk → fresh s.keys site tx kep → (∃ k ∈ s.keys.keys, k.key = key) → Refused s m.val c 0x0804 out) ∧
          (recOk → fresh s.keys site tx kep → (∀ k ∈ s.keys.keys, k.key ≠ key) → s.keys.keys.length < 1024 →
            (∀ k ∈ s.keys.keys, k.slot < 1024) → ∃ ks slot,
              KeyStored s.keys key site tx (BitVec.ofNat 32 kep) (if l = 0 then 32 else l) false slot ks ∧
              KeySucceeds s m.val c ks s.dev [BitVec.ofNat 32 slot] out)))) ∧
    (∀ (m : MboxNo) (c : Cmd), Serves s m.val c → granted s.dev 3 = true → c.cmd = 0x0807 →
      let key : BitVec 256 := BitVec.ofNat 256 (c.num 0 8)
      let site := c.word 8 % 2 ^ 8
      let tx := !(c.word 8).testBit 8
      let l := c.word 8 / 2 ^ 9 % 2 ^ 5
      let out := exec (.legacyKey m) s
      (granted s.dev 4 = false → Refused s m.val c 0x0805 out) ∧
      (granted s.dev 4 = true → fresh s.keys site tx (c.word 9) → (∀ k ∈ s.keys.keys, k.key ≠ key) → s.keys.keys.length < 1024 →
        (∀ k ∈ s.keys.keys, k.slot < 1024) → ∃ ks slot,
          KeyStored s.keys key site tx (BitVec.ofNat 32 (c.word 9)) (if l = 31 then 32 else 20 + l) true slot ks ∧ ks.lkey = [] ∧
          KeySucceeds s m.val c ks { s.dev with boot := { s.dev.boot with legacy := true } } [BitVec.ofNat 32 slot] out) ∧
      (granted s.dev 4 = true → ¬ fresh s.keys site tx (c.word 9) → ∃ ks, ks.keys = s.keys.keys ∧ ks.lkey = [] ∧
        KeyStepGives s m.val ks s.dev { c with work := some (.refused 0x0803 []) } out)) ∧
    (∀ v : W32,
      let key : BitVec 256 := BitVec.ofNat 256 (ofBytes ((List.range 8).flatMap fun i => toBytes 4 (NMap.get s.keys.lkey 0 i).toNat))
      let site := (s.keys.lksel.extractLsb' 0 8).toNat
      let tx := !s.keys.lksel.getLsbD 8
      let l := (s.keys.lksel.extractLsb' 9 5).toNat
      let out := exec (.ciphLkgoWrite v) s
      (granted s.dev 4 = false → ∃ s', out = .next s' ∧ s'.keys = s.keys ∧ s'.aon = s.aon ∧ s'.pending = s.pending ∧
        s'.dev = { s.dev with counters := s'.dev.counters }) ∧
      (granted s.dev 4 = true → v.getLsbD 0 = false → out = .next s) ∧
      (granted s.dev 4 = true → v.getLsbD 0 = true → fresh s.keys site tx s.keys.lkep.toNat → (∀ k ∈ s.keys.keys, k.key ≠ key) →
        s.keys.keys.length < 1024 → (∀ k ∈ s.keys.keys, k.slot < 1024) → ∃ ks slot,
          KeyStored s.keys key site tx s.keys.lkep (if l = 31 then 32 else 20 + l) true slot ks ∧ ks.lkey = [] ∧
          out = .next { s with keys := ks, dev := { s.dev with boot := { s.dev.boot with legacy := true } } }) ∧
      (granted s.dev 4 = true → v.getLsbD 0 = true → ¬ fresh s.keys site tx s.keys.lkep.toNat →
        out = .next { s with keys := { s.keys with lkey := [] } }))

/-- R396 and R398: KEY_RETIRE erases the key of a site, direction and epoch and no other (0x0809 when none is loaded);
KEY_ACTIVATE makes every path of the partner want the named transmit epoch from its next frame on; KEY_STATUS writes an entry of
80 B for each key (the entry's layout is the model's choice) and returns their number. R386 and R387: while a spare is unused the
shadowing moves on to the next place; the pipeline that a mismatch shows to be wrong is retired, and the other unused spare (or,
alone, the shadowing one) takes its place; with both spares in use, each pipeline in service that fails its vectors is retired
with none in its place, and nothing else changes. -/
def Obligations.KeysAndSpares : Prop :=
  (
  ∀ (m : MboxNo) (s : State) (c : Cmd), Serves s m.val c → granted s.dev 3 = true →
    let site := c.word 0 % 2 ^ 8
    (c.cmd = 0x0804 →
      let gone (k : TKey) : Prop := k.site = site ∧ k.tx = !(c.word 0).testBit 8 ∧ k.kep.toNat = c.word 1
      ((∀ k ∈ s.keys.keys, ¬ gone k) → Refused s m.val c 0x0809 (exec (.keyRetire m) s)) ∧
      ((∃ k ∈ s.keys.keys, gone k) → ∃ ks, KeySucceeds s m.val c ks s.dev [] (exec (.keyRetire m) s) ∧
        ks = { s.keys with keys := ks.keys } ∧ ∀ k, k ∈ ks.keys ↔ k ∈ s.keys.keys ∧ ¬ gone k)) ∧
    (c.cmd = 0x0805 →
      let loaded := ∃ k ∈ s.keys.keys, k.site = site ∧ k.tx = true ∧ k.kep.toNat = c.word 1
      (¬ loaded → Refused s m.val c 0x0809 (exec (.keyActivate m) s)) ∧
      (loaded → ∃ paths : NMap TPath, KeySucceeds s m.val c s.keys { s.dev with tidal := { s.dev.tidal with paths := paths } } []
          (exec (.keyActivate m) s) ∧
        ∀ n, NMap.find? paths n = (NMap.find? s.dev.tidal.paths n).map fun p =>
          if (p.desc.extractLsb' 0 8).toNat = site then { p with wanted := some (BitVec.ofNat 32 (c.word 1)) } else p)) ∧
    (c.cmd = 0x0806 → c.polder = none → (c.word 0 + 2 ^ 32 * c.word 1) % 64 = 0 →
      hostOk s.dev (c.word 0 + 2 ^ 32 * c.word 1) (80 * s.keys.keys.length) = true →
      let bytes := s.keys.keys.flatMap keyEntry
      KeySucceeds s m.val c s.keys
        { s.dev with mem := { s.dev.mem with host := Mem.writeN s.dev.mem.host (c.word 0 + 2 ^ 32 * c.word 1) bytes } }
        [BitVec.ofNat 32 s.keys.keys.length] (exec (.keyStatus m) s))) ∧
  (
  ∀ s : State,
    (∀ p rest, s.dev.cipher.spares = p :: rest →
      exec (.shadowRotation none) s = .next { s with dev := { s.dev with
        cipher := { s.dev.cipher with turn := (s.dev.cipher.turn + 1) % 16 } } }) ∧
    (∀ (p : Nat) (rest : List Nat) (w : Fin 18), s.dev.cipher.spares = p :: rest → s.dev.cipher.serv.getD s.dev.cipher.turn none = some w.val →
      let by_ := rest.headD p
      ∃ s', exec (.shadowRotation (some w)) s = .next s' ∧ s'.keys = s.keys ∧ s'.pending = s.pending ∧
        s'.dev.cipher.serv = s.dev.cipher.serv.map (fun x => if x = some w.val then some by_ else x) ∧
        s'.dev.cipher.retired = s.dev.cipher.retired ++ [w.val] ∧
        (∀ q ∈ s'.dev.cipher.spares, q ∈ s.dev.cipher.spares ∧ q ≠ w.val ∧ q ≠ by_) ∧
        w.val ∈ s'.aon.badPipes ∧ s'.aon = { s.aon with badPipes := s'.aon.badPipes } ∧ s'.dev.mem.bytes = s.dev.mem.bytes) ∧
    (∀ failed : List (Fin 18), s.dev.cipher.spares ≠ [] → exec (.periodicKnownAnswerTest failed) s = .next s) ∧
    (∀ failed : List (Fin 18), s.dev.cipher.spares = [] →
      ∃ s', exec (.periodicKnownAnswerTest failed) s = .next s' ∧ s'.keys = s.keys ∧
        s'.dev.cipher.serv = s.dev.cipher.serv.map (fun x => if ∃ w ∈ failed, x = some w.val then none else x) ∧
        s'.dev.cipher.spares = [] ∧
        ∀ w ∈ failed, some w.val ∈ s.dev.cipher.serv → w.val ∈ s'.dev.cipher.retired ∧ w.val ∈ s'.aon.badPipes))

/-- R403 to R405, R388, R389 and R464: an alarm sets its bit of ALM_CAUSE, counts, and resets the device: every key, the KEK, the
exchange value and the identity's private key are gone, with mailboxes, claims and polders; memory and the fuses stay. With the
condition persisting the device holds at stage 1; when the last condition ends it leaves its hold. R449: DBG_OPEN without
DEBUG_UNLOCK changes nothing; with it the traffic keys, the KEK and the exchange value are erased while the identity goes on, the
device neither resets nor sets a cause, and the debug flag is set until power-on. -/
def Obligations.AlarmsAndDebug : Prop :=
  (
  ∀ (n : Fin 5) (s : State),
    (s.aon.powered = true → ∃ s', exec (.sensorAlarm n) s = .next s' ∧ s'.pending = s.pending ∧
      s'.aon.cause = s.aon.cause ||| BitVec.ofNat 5 (2 ^ n.val) ∧ s'.aon.cond = s.aon.cond ||| BitVec.ofNat 5 (2 ^ n.val) ∧
      s'.aon.alarms = (if s.aon.alarms = 0xFFFF then 0xFFFF else s.aon.alarms + 1) ∧
      s'.aon.fuses = s.aon.fuses ∧ s'.aon.cap = s.aon.cap ∧ s'.aon.imap = s.aon.imap ∧
      s'.keys = {} ∧ s'.dev.polders = [] ∧ s'.dev.claims = [] ∧ s'.dev.tiles = [] ∧ s'.dev.reeve = {} ∧
      ((∀ m c, (mboxOf s.dev m).cmd = some c → c.tloc = false) →
        ∀ k, k < cbBase → Mem.read s'.dev.mem.bytes k = Mem.read s.dev.mem.bytes k)) ∧
    (s.aon.powered = false → exec (.sensorAlarm n) s = .next s) ∧
    (∃ s', exec (.alarmConditionEnd n) s = .next s' ∧ s'.keys = s.keys ∧
      s'.aon = { s.aon with cond := s.aon.cond &&& ~~~(BitVec.ofNat 5 (2 ^ n.val)) } ∧
      (s'.aon.cond = 0 → s.dev.boot.st = .held → s'.dev = { s.dev with boot := { s.dev.boot with st := .boot } }) ∧
      (s'.aon.cond ≠ 0 ∨ s.dev.boot.st ≠ .held → s'.dev = s.dev))) ∧
  (
  ∀ s : State,
    (granted s.dev 5 = false → exec .dbgOpen s = .next s) ∧
    (granted s.dev 5 = true → ∃ s', exec .dbgOpen s = .next s' ∧ s'.pending = s.pending ∧ s'.aon = { s.aon with dbg := true } ∧
      s'.keys = { topKep := s.keys.topKep, seed := s.keys.seed } ∧ OnlyMem s.dev s'.dev ∧
      ((∀ m, (mboxOf s.dev m).st = .stepping → ∀ c, (mboxOf s.dev m).cmd = some c → c.cmd / 256 ≠ 8) → s'.dev = s.dev)) ∧
    (∀ c, c ≠ Instr.vinLoss → s.aon.dbg = true → ∀ s', exec c s = .next s' → s'.aon.dbg = true))

/-! ### Bring-up and power (files 18 and 21) -/

/-- R435, R438 and R439: a stage ends only while bring-up runs with power and RST_N high, stage 1 only without an alarm condition,
stage 3 only after an accepted image and stage 4 only after an accepted licence; otherwise nothing happens. A stage that ends well
writes its record (number, no failure, bring-up count, K-clk counts at start and end) and the next one starts; the stages whose
failure is fatal leave the device FAILED with their status: 1 when the ROM check fails or no core passes (0x0A01), 2 when the
fuses do not read (0x0A02) or the identity cannot be corrected (0x0A03), 5 when a clock or regulator does not lock (0x0A0B). Stage
13 leads to READY. R214, R215, R437: stacks that stages 8 and 9 find bad stay OFF until power is lost, and stage 8 makes soft
repairs hard. R220, R221: stage 10 leaves a group of channels OFF when a channel of it fails, is not filled with modules of the
tier's sizes, or differs from the lowest-numbered channel that is filled. -/
def Obligations.BringupStages : Prop :=
  ∀ (s : State) (o : StageOutcome),
    let n := s.dev.boot.stage
    let out := exec (.bringupStageEnd o) s
    let runs := s.aon.powered = true ∧ s.aon.rstLow = false ∧ (s.dev.boot.st = .boot ∨ s.dev.boot.st = .bringup) ∧ n < 14 ∧
      (n = 1 → s.aon.cond = 0) ∧ (n = 3 → s.dev.reeve.fwrun = true) ∧ (n = 4 → s.dev.boot.licensed = true)
    let ok (c : Nat) : Prop := o.cores.getLsbD c = true ∧ c ∉ s.aon.badCores ∧ c ∉ s.aon.fuses.badCores
    let fatal (e : Code) : Prop :=
      (n = 1 ∧ (o.good = false ∨ ∀ c, c < 5 → ¬ ok c) ∧ e = 0x0A01) ∨ (n = 2 ∧ o.good = false ∧ e = 0x0A02) ∨
      (n = 2 ∧ o.good = true ∧ o.puf = none ∧ e = 0x0A03) ∨ (n = 5 ∧ (o.good = false ∨ s.aon.clockOk = false) ∧ e = 0x0A0B)
    (¬ runs → out = .next s) ∧
    (runs → ∀ e, fatal e → ∃ s', out = .next s' ∧ s'.pending = s.pending ∧ s'.dev.boot.st = .failed ∧ s'.dev.boot.fail = true ∧
      s'.dev.boot.status = e ∧ s'.dev.boot.stage = n) ∧
    (runs → (∀ e, ¬ fatal e) → ∃ s' r, out = .next s' ∧ s'.pending = s.pending ∧ s'.dev.boot.stage = n + 1 ∧ s'.dev.boot.fail = false ∧
      s'.dev.boot.status = 0 ∧ s'.dev.boot.kstart = o.kend ∧ s'.dev.kclk = o.kend ∧
      NMap.find? s'.dev.boot.recs n = some r ∧ (r.extractLsb' 0 4).toNat = n ∧ r.getLsbD 4 = false ∧
      (r.extractLsb' 16 16 = 0 ∨ (n = 11 ∧ r.extractLsb' 16 16 = 0x0122)) ∧
      r.extractLsb' 32 32 = s.aon.boots ∧ r.extractLsb' 64 64 = s.dev.boot.kstart ∧ r.extractLsb' 128 64 = o.kend ∧
      s'.dev.boot.st = (if n = 13 then .ready else if n = 0 ∧ s.aon.cond ≠ 0 then .held else if n < 3 then .boot else .bringup) ∧
      (n = 1 → s'.dev.reeve.coresIn = (List.range 4).filter (fun c => decide (ok c)) ++
        if ((List.range 4).filter (fun c => decide (ok c))).length < 4 ∧ ok 4 then [4] else []) ∧
      (n = 2 → ∀ v, o.puf = some v → s'.keys.seed = some (BitVec.ofNat 256 (ofBytes
          ((sha512 (toBytes 32 v.toNat ++ toBytes 8 Config.serial.toNat)).take 32))) ∧ s'.dev.boot.lgen = s.aon.fuses.lgen) ∧
      (n = 6 ∨ (n = 7 ∧ s.dev.boot.preserving = false) → ∀ u ∈ o.badTiles, u < 2176 → u ∈ s'.aon.badTiles ∨ u ∈ s.aon.fuses.badTiles) ∧
      (n = 8 → ∀ i, i < 16 → stackUp s'.dev i = !(o.badStacks.getLsbD i || decide (i ∈ s.aon.badStacks))) ∧
      (n = 8 → ∀ g ∈ s'.dev.mem.repairs, g.copying = false → stackUp s'.dev g.stack = true → g.hard = true) ∧
      (n = 8 ∨ (n = 9 ∧ s.dev.boot.preserving = false) → ∀ i, i < 16 → o.badStacks.getLsbD i = true → i ∈ s'.aon.badStacks) ∧
      (n = 9 → s.dev.boot.preserving = false → ∀ i ∈ s'.aon.badStacks, i < 16 → stackUp s'.dev i = false) ∧
      (n = 9 → s.dev.boot.preserving = true → s'.aon.badStacks = s.aon.badStacks ∧ s'.dev.mem = s.dev.mem) ∧
      (n = 10 → granted s.dev 2 = true →
        let chan (c : Nat) : List Dimm := o.modules.getD c []
        let ref := (((List.range 8).map chan).find? fun l => decide (l ≠ [])).getD []
        let fails (c : Nat) : Prop := o.badChannels.getLsbD c = true ∨ c ∈ s.aon.badChans ∨ channelOk (chan c) = false ∨
          (chan c).map (fun x => (x.kind, x.gib)) ≠ ref.map fun x => (x.kind, x.gib)
        let on := (List.range 2).filter fun g => decide (blkSt s'.dev 3 g = .on)
        (∀ g, g < 2 → blkSt s'.dev 3 g = .off ∨ blkSt s'.dev 3 g = .on) ∧
        (∀ g, g < 2 → (blkSt s'.dev 3 g = .off ↔ ∃ c, c < 8 ∧ c / 4 = g ∧ fails c)) ∧
        s'.dev.boot.ddr = 4 * on.length * (ref.map fun x => x.gib.toNat).sum ∧ s'.dev.mem.ddrGib = s'.dev.boot.ddr) ∧
      (n = 10 → granted s.dev 2 = false → s'.dev.blocks = s.dev.blocks) ∧
      (n = 12 → granted s.dev 3 = true → ∀ i, i < 2 → blkSt s'.dev 2 i = (if o.tidal.getLsbD i then .on else .off)) ∧
      (n = 13 → ∀ c, c < 32 → blkSt s'.dev 5 c = (if granted s.dev 1 = true ∨ c % 16 < 12 then .on else .off)))

/-- R23 and R442: the spare row of a column takes the place of its lowest failed row, unless it has failed itself; every other
failed row is absent, at the logical row that it holds once the rows above the replaced one have moved up; and the record says so.
-/
def Obligations.ColumnRepair : Prop :=
  ∀ bad : List Nat,
    let r := (columnRepair bad).1
    let absent := (columnRepair bad).2
    let frow := r % 32
    let rows := (List.range 16).filter (· ∈ bad)
    (16 ∈ bad → frow = 31 ∧ absent = rows) ∧
    (16 ∉ bad → rows = [] → frow = 31 ∧ absent = []) ∧
    (16 ∉ bad → ∀ p rest, rows = p :: rest → frow = p ∧ absent = rest.map (· - 1)) ∧
    (∀ l, l < 16 → l ∉ absent → (if frow = 31 ∨ l < frow then l else l + 1) ∉ bad) ∧
    (r / 32 % 32 = if 16 ∈ bad then rows.headD 31 else (rows.drop 1).headD 31) ∧
    (r / 1024 = absent.headD 31)

/-- R443, R444 and R438: BOOT_IMAGE outside stage 3 is refused with 0x0A16 and with a misaligned address with 0x0106. A MiB is
fetched in each mailbox step; the whole image is refused for its length and header (0x0A05) or its signature (0x0A04), which shows
in DEV_STAGE, and otherwise its SHA-512 digest is kept, its release noted and the firmware started. R438, R445 to R447: LICENCE
outside stage 4 is refused with 0x0A15; a licence is refused at the first check that fails: form (0x0A09), identity (0x0A07),
signature (0x0A06), generation (0x0A08), BASE (0x0A0A). An accepted one grants what it says. The fused generation is raised to the
licence's, or, where a fuse does not blow, to some value from the old one on, and the licence is then refused with 0x0A0C; nothing
lowers it. -/
def Obligations.ImageAndLicence : Prop :=
  (
  (∀ (m : MboxNo) (s : State) (c : Cmd), Serves s m.val c → c.cmd = 0x0A01 →
    let a := c.word 0 + 2 ^ 32 * c.word 1
    let len := c.word 2
    let out := exec (.bootImage m) s
    (c.step = 0 → s.dev.boot.st ≠ .boot ∨ s.dev.boot.stage ≠ 3 ∨ s.dev.reeve.fwrun = true → Refused s m.val c 0x0A16 out) ∧
    (c.step = 0 → s.dev.boot.st = .boot → s.dev.boot.stage = 3 → s.dev.reeve.fwrun = false → a % 256 ≠ 0 → Refused s m.val c 0x0106 out) ∧
    (s.dev.boot.st = .boot → s.dev.boot.stage = 3 → s.dev.reeve.fwrun = false → a % 256 = 0 → len < 128 ∨ 2 ^ 26 < len →
      StepGives s m.val { s.dev with boot := { s.dev.boot with fail := true, status := 0x0A05 } }
        { c with work := some (.refused 0x0A05 []) } out) ∧
    (s.dev.boot.st = .boot → s.dev.boot.stage = 3 → s.dev.reeve.fwrun = false → a % 256 = 0 → 128 ≤ len → len ≤ 2 ^ 26 →
      ∀ n piece, n = min (2 ^ 20) (len - c.step * 2 ^ 20) → piece = Mem.readN s.dev.mem.host (a + c.step * 2 ^ 20) n →
      hostOk s.dev (a + c.step * 2 ^ 20) n = true →
      (c.step + 1 < ceilDiv len (2 ^ 20) → StepGives s m.val s.dev
        { c with carry := c.carry ++ piece, done := c.step + 1, total := ceilDiv len (2 ^ 20), work := some .more, step := c.step + 1 } out) ∧
      (ceilDiv len (2 ^ 20) ≤ c.step + 1 → ∃ d c', StepGives s m.val d c' out ∧
        (d, c') = imageCheck s.dev { c with carry := [], done := c.step + 1, total := ceilDiv len (2 ^ 20) } (c.carry ++ piece)))) ∧
  (∀ (d : Dev) (c : Cmd) (bs : List Byte),
    let len := c.word 2
    let w (i n : Nat) : Nat := ofBytes ((bs.drop i).take n)
    let form := w 0 4 = 0x57464447 ∧ w 4 1 = 1 ∧ w 5 3 = 0 ∧ w 12 4 % 64 = 0 ∧ len = 128 + w 12 4 ∧ len ≤ 2 ^ 26 ∧
      (bs.drop 16).take 48 = List.replicate 48 0 ∧ w 9 1 = 2
    let dig := sha512 (bs.take (len - 64))
    let signed := edVerify (toBytes 32 Config.firmwareKey.toNat) dig (bs.drop (len - 64)) = true
    let fails (e : Code) := ({ d with boot := { d.boot with fail := true, status := e } }, { c with work := some (StepEnd.refused e []) })
    (¬ form → imageCheck d c bs = fails 0x0A05) ∧
    (form → ¬ signed → imageCheck d c bs = fails 0x0A04) ∧
    (form → signed → imageCheck d c bs = ({ d with
        boot := { d.boot with fail := false, status := 0, release := BitVec.ofNat 32 (w 8 4), digest := BitVec.ofNat 512 (ofBytes dig),
                              length := BitVec.ofNat 32 len, level := c.word 3 }
        reeve := { d.reeve with fwrun := true } }, { c with work := some (.over 0 []), done := c.total })))) ∧
  (
  ∀ (m : MboxNo) (s : State) (c : Cmd), Serves s m.val c → c.cmd = 0x0A02 →
    let a := c.word 0 + 2 ^ 32 * c.word 1
    let bs := Mem.readN s.dev.mem.host a 128
    let w (i n : Nat) : Nat := ofBytes ((bs.drop i).take n)
    let out := exec (.licence m) s
    let here := s.dev.boot.stage = 4 ∧ s.dev.boot.st = .bringup ∧ s.dev.boot.licensed = false
    let form := w 0 4 = 0x4E45434C ∧ w 4 1 = 1 ∧ w 6 2 = 0 ∧ w 40 8 < 64 ∧ w 48 1 ≠ 1 ∧ (bs.drop 49).take 15 = List.replicate 15 0
    let mine := w 8 32 = s.dev.boot.idkey.toNat
    let signed := edVerify (toBytes 32 Config.licenceKey.toNat) (bs.take 64) (bs.drop 64) = true
    let gen := w 5 1
    let fails (e : Code) : Prop :=
      StepGives s m.val { s.dev with boot := { s.dev.boot with fail := true, status := e } } { c with work := some (.refused e []) } out
    (¬ here → Refused s m.val c 0x0A15 out) ∧
    (here → hostOk s.dev a 128 = true →
      (¬ form → fails 0x0A09) ∧ (form → ¬ mine → fails 0x0A07) ∧ (form → mine → ¬ signed → fails 0x0A06) ∧
      (form → mine → signed → gen < s.aon.fuses.lgen → fails 0x0A08) ∧
      (form → mine → signed → s.aon.fuses.lgen ≤ gen → w 40 1 % 2 = 0 → fails 0x0A0A) ∧
      (form → mine → signed → s.aon.fuses.lgen ≤ gen → w 40 1 % 2 = 1 → ∃ s' g, out = .next s' ∧ s'.keys = s.keys ∧
        s.aon.fuses.lgen ≤ g ∧ g ≤ gen ∧ s'.aon = { s.aon with fuses := { s.aon.fuses with lgen := g } } ∧
        (s.aon.fuses.lgen = gen → g = gen) ∧
        (g = gen → s'.dev.boot = { s.dev.boot with
              lgen := gen, fail := false, status := 0, licensed := true, grants := BitVec.ofNat 64 (w 40 8),
              fsite := w 48 1, blown := gen - s.aon.fuses.lgen } ∧
          (mboxOf s'.dev m.val).cmd = some { c with work := some (.over 0 []), done := c.total }) ∧
        (g ≠ gen → s'.dev.boot = { s.dev.boot with lgen := g, fail := true, status := 0x0A0C } ∧
          (mboxOf s'.dev m.val).cmd = some { c with work := some (.refused 0x0A0C []) }))))

/-- R439, R451 and R478: STAGE_READ writes the stage records, zero for a stage that has not ended, and at offset 1,024 the spare
records, and returns how many records have been written; ATTEST writes the report body, which begins with its magic and holds the
nonce of words 0 to 7 at byte 32, with its signature over "GDF-ATT1" and the body (0x0A13 for a bad destination); SPARE_STATUS
writes the 32 B spare record. R452 and R453: RES_CLAIM gives a free resource to a claimant that may hold it, leaves one that it
holds already, and is refused with 0x0A12 for a resource or claimant outside the table and with 0x0A11 and the holder's code where
another holds it; the second Ixrad link takes both lane groups of port 15, which no takeover uses, in one step. A release frees a
timer or land. -/
def Obligations.RecordsAndResources : Prop :=
  (
  ∀ (m : MboxNo) (s : State) (c : Cmd), Serves s m.val c → c.polder = none →
    let a := c.word 0 + 2 ^ 32 * c.word 1
    let host (a : Nat) (bs : List Byte) : Dev := { s.dev with mem := { s.dev.mem with host := Mem.writeN s.dev.mem.host a bs } }
    (c.cmd = 0x0A05 → hostOk s.dev a 2048 = true →
      let recs := (List.range 15).flatMap fun i => toBytes 64 (NMap.get s.dev.boot.recs 0 i).toNat
      let spares := (List.range 128).flatMap fun i => toBytes 8 (s.dev.boot.spares.getD i 0).toNat
      Succeeds s m.val c (host a (recs ++ List.replicate 64 0 ++ spares)) [BitVec.ofNat 32 s.dev.boot.recs.length] (exec (.stageRead m) s)) ∧
    (c.cmd = 0x0A03 →
      let dst := c.word 8 + 2 ^ 32 * c.word 9
      let body := attestBody s.aon s.dev (toBytes 32 (c.num 0 8))
      (dst % 32 ≠ 0 → Refused s m.val c 0x0A13 (exec (.attest m) s)) ∧
      (dst % 32 = 0 → ∀ report, report = body ++ edSign (toBytes 32 (s.keys.seed.getD 0).toNat) (ascii "GDF-ATT1" ++ body) →
        hostOk s.dev dst report.length = true →
        KeySucceeds s m.val c s.keys (host dst report) [256] (exec (.attest m) s)) ∧
      ofBytes (body.take 4) = 0x54414447 ∧ (body.drop 32).take 32 = toBytes 32 (c.num 0 8) ∧ body.length = 192) ∧
    (c.cmd = 0x0B03 → hostOk s.dev a 32 = true →
      Succeeds s m.val c (host a (toBytes 32 (spareRecord s.aon s.dev))) [BitVec.ofNat 32 (spareRecord s.aon s.dev)] (exec (.spareStatus m) s))) ∧
  (
  ∀ (m : MboxNo) (s : State) (c : Cmd), Serves s m.val c → c.cmd = 0x0A04 →
    let k := c.word 0 % 2 ^ 8
    let i := c.word 0 / 2 ^ 16
    let who := c.word 1 % 2 ^ 4
    let p : PolderNo := if who = 3 then BitVec.ofNat 4 (c.word 1 / 2 ^ 4 % 2 ^ 4) else 0
    let listed := ((k = 1 ∨ k = 2) ∧ 12 ≤ i ∧ i ≤ 15) ∨ (k = 3 ∧ i ≤ 15) ∨ (k = 4 ∧ i ≤ 3)
    let may := if k ≤ 2 then who = 1 ∨ (who = 2 ∧ i = 15) else (who = 3 ∧ polderOf s.dev p ≠ none) ∨ who = 4
    let held := holderOf s.dev k i
    (who ≠ 0 →
      let out := exec (.resClaim m) s
      (¬ (listed ∧ may) → Refused s m.val c 0x0A12 out) ∧
      (listed → may → held = some (who, p) → Succeeds s m.val c s.dev [] out) ∧
      (listed → may → held = none → Succeeds s m.val c { s.dev with claims := s.dev.claims ++ [⟨k, i, who, p⟩] } [] out) ∧
      (listed → may → who ≠ 2 → ∀ h, held = some h → h ≠ (who, p) → StepGives s m.val s.dev
        { c with work := some (.refused 0x0A11 [BitVec.ofNat 32 (h.1 + if h.1 = 3 then 2 ^ 4 * h.2.toNat else 0)]) } out) ∧
      (listed → may → who = 2 → held ≠ some (2, 0) → (portOf s.dev 15).took ≠ none → StepGives s m.val s.dev
        { c with work := some (.refused 0x0A11 [1]) } out) ∧
      (listed → may → who = 2 → held ≠ some (2, 0) → (portOf s.dev 15).took = none → Succeeds s m.val c
        (setBlk (onPort { s.dev with claims := s.dev.claims ++ [⟨1, 15, 2, 0⟩, ⟨2, 15, 2, 0⟩] } 15 fun q => { q with dir := 7 }) 1 15
          (if portSt s.dev 15 = .off then .starting else .stopping)) [] out)) ∧
    (who = 0 →
      let out := exec (.resRelease m) s
      (¬ listed → Refused s m.val c 0x0A12 out) ∧
      (listed → 3 ≤ k → Succeeds s m.val c
        { s.dev with claims := s.dev.claims.filter fun x => !(x.kind = k && x.idx = i) } [] out) ∧
      (listed → k ≤ 2 → (∀ h, held = some h → h.1 ≠ 2) → Succeeds s m.val c s.dev [] out) ∧
      (listed → k ≤ 2 → ∀ h, held = some h → h.1 = 2 → Succeeds s m.val c
        (setBlk (onPort { s.dev with claims := s.dev.claims.filter fun x => !(x.kind ≤ 2 && x.idx = 15) } 15 fun q => { q with dir := 6 })
          1 15 .starting) [] out)))

/-- R405 and R501: a write of ALM_CAUSE clears the cause bits that it names and whose condition has ended, and no other bit; a
write of PWR_CAP takes effect when its cap lies in 1,500 to 4,400 and is ignored otherwise; in GP_CTL the holder of a land's claim
sets its drive and level, and the other lands keep theirs. Nothing else changes but the counts of ignored writes; R13 and R17: of
ALM_CAUSE a cause bit whose condition persists, the reserved bits and the read-only count each ignore and count what is written
there. R500 and R501: at the end of each window every cluster's limit falls by 100 MHz below the lower of limit and setting, to
1,200 at least, when the power exceeds the cap, VIN is below 11.00 V or the cluster is hot; it rises by 100 MHz, to 2,700 at most,
when the last ten windows were quiet; and otherwise it stays. PWR_STAT, PWR_VIN and PWR_TMAX show the window. -/
def Obligations.PowerManagement : Prop :=
  (
  ∀ (v : W32) (s : State),
    (∃ s', exec (.almCauseWrite v) s = .next s' ∧ s'.keys = s.keys ∧ s'.pending = s.pending ∧
      s'.dev = counted (counted (counted s.dev (v.extractLsb' 0 5 &&& s.aon.cause &&& s.aon.cond ≠ 0)) (fld v 15 5 ≠ 0)) (fld v 31 16 ≠ 0) ∧
      s'.aon = { s.aon with cause := s'.aon.cause } ∧
      ∀ i, i < 5 → s'.aon.cause.getLsbD i = (s.aon.cause.getLsbD i && !(v.getLsbD i && !s.aon.cond.getLsbD i))) ∧
    (∃ s', exec (.pwrCapWrite v) s = .next s' ∧ s'.keys = s.keys ∧ s'.pending = s.pending ∧
      s'.dev = { s.dev with counters := s'.dev.counters } ∧
      let cap := (v.extractLsb' 0 13).toNat
      s'.aon = { s.aon with cap := if 1500 ≤ cap ∧ cap ≤ 4400 then cap else s.aon.cap }) ∧
    (∀ (board : Bool) (p : PolderNo), ∃ s', exec (.gpCtlWrite board p v) s = .next s' ∧ s'.keys = s.keys ∧ s'.pending = s.pending ∧
      s'.dev = { s.dev with counters := s'.dev.counters } ∧
      s'.aon = { s.aon with gpOe := s'.aon.gpOe, gpOut := s'.aon.gpOut, gpIn := s'.aon.gpIn } ∧
      ∀ i, i < 4 →
        let mine := ∃ h, holderOf s.dev 4 i = some h ∧ if board then h.1 = 4 else h.1 = 3 ∧ h.2 = p
        (mine → s'.aon.gpOe.getLsbD i = v.getLsbD i ∧ s'.aon.gpOut.getLsbD i = v.getLsbD (4 + i)) ∧
        (¬ mine → s'.aon.gpOe.getLsbD i = s.aon.gpOe.getLsbD i ∧ s'.aon.gpOut.getLsbD i = s.aon.gpOut.getLsbD i))) ∧
  (
  ∀ (watts : BitVec 13) (vin : BitVec 11) (temps : List (BitVec 8)) (iod : BitVec 8) (s : State),
    s.aon.powered = true → temps.length = 32 →
    let lim (c : Nat) : Nat := NMap.get s.aon.lims 2700 c
    let set (c : Nat) : Nat := (NMap.get s.dev.grid.clusters {} c).mhz
    let temp (c : Nat) : Nat := (temps.getD c 0).toNat
    let hot (c : Nat) : Prop := 95 ≤ temp c
    let calm (c : Nat) : Prop := 100 * watts.toNat ≤ 95 * s.aon.cap ∧ 1100 ≤ vin.toNat ∧ temp c ≤ 90
    ∃ s', exec (.throttleWindow watts vin temps iod) s = .next s' ∧ s'.keys = s.keys ∧ s'.dev = s.dev ∧ s'.pending = s.pending ∧
      s'.aon = { s.aon with lims := s'.aon.lims, quiet := s'.aon.quiet, stat := s'.aon.stat, vin := vin, tmax := s'.aon.tmax } ∧
      (∀ c, c < 32 → NMap.get s'.aon.quiet 0 c = if calm c then min 10 (NMap.get s.aon.quiet 0 c + 1) else 0) ∧
      (∀ c, c < 32 → NMap.get s'.aon.lims 2700 c =
        if s.aon.cap < watts.toNat ∨ vin.toNat < 1100 ∨ hot c then max (min (lim c) (set c) - 100) 1200
        else if NMap.get s'.aon.quiet 0 c = 10 then min (lim c + 100) 2700
        else lim c) ∧
      s'.aon.stat.extractLsb' 0 13 = watts ∧ s'.aon.stat.getLsbD 15 = decide (vin.toNat < 1100) ∧
      s'.aon.stat.getLsbD 16 = decide (1320 < vin.toNat) ∧
      (s'.aon.stat.getLsbD 17 = true ↔ s.aon.cap < watts.toNat ∧ ∀ c, c < 32 → lim c = 1200) ∧
      (∀ c, c < 32 → temp c ≤ (s'.aon.tmax.extractLsb' 0 8).toNat) ∧ iod.toNat ≤ (s'.aon.tmax.extractLsb' 0 8).toNat)

/-- R499, R505 and R506: RST_N low for 1 µs resets the device, and for less is ignored; its rise samples MADDR and starts bring-up
at stage 0, counted, which preserves memory unless it is the first since power-on. The loss of VIN leaves of all state of the
device the fuses and, R215, the rows that a base die has repaired hard (memory then reads zero, a choice of the model); power-on
sets the cap to 4,400, HBM_IMAP and ALM_CAUSE to zero and restarts the boot count. The management bus takes a dynamic address when
one is assigned. -/
def Obligations.ResetLandAndPower : Prop :=
  ∀ s : State,
    (∀ ns, ns < 1000 → exec (.rstNAssert ns) s = .next s) ∧
    (∀ ns, 1000 ≤ ns → s.aon.powered = true → ∃ s', exec (.rstNAssert ns) s = .next s' ∧ s'.pending = s.pending ∧ s'.keys = {} ∧
      s'.aon = { s.aon with rstLow := true, stat := 0, vin := 0, tmax := 0, gpOe := 0, gpOut := 0 } ∧
      s'.dev.boot = {} ∧ s'.dev.polders = [] ∧ s'.dev.tiles = [] ∧ s'.dev.reeve = {} ∧ s'.dev.fabric = {} ∧ s'.dev.claims = [] ∧
      s'.dev.mem.host = s.dev.mem.host ∧ s'.dev.mem.imap = s.aon.imap ∧
      (∀ k, k < cbBase → Mem.read s'.dev.mem.bytes k = Mem.read s.dev.mem.bytes k) ∧
      ∀ k, cbBase ≤ k → Mem.read s'.dev.mem.bytes k = 0) ∧
    (∀ (a : BitVec 2) (ck : Bool), s.aon.rstLow = true → s.aon.powered = true → ∃ s', exec (.rstNRelease a ck) s = .next s' ∧
      s'.keys = s.keys ∧ s'.pending = s.pending ∧
      s'.aon = { s.aon with rstLow := false, maddr := a, clockOk := ck, boots := if s.aon.boots = 0xFFFFFFFF then s.aon.boots else s.aon.boots + 1 } ∧
      s'.dev = { s.dev with boot := { s.dev.boot with st := .boot, stage := 0, preserving := decide (s.aon.boots ≠ 0), kstart := s.dev.kclk } } ∧
      staticAddr s'.aon = 0x60 + a.toNat) ∧
    (∀ (a : BitVec 2) (ck : Bool), s.aon.rstLow = false → exec (.rstNRelease a ck) s = .next s) ∧
    (s.aon.powered = true → ∃ s', exec .vinLoss s = .next s' ∧ s'.pending = s.pending ∧ s'.keys = {} ∧
      s'.aon = { powered := false, rstLow := s.aon.rstLow, fuses := s.aon.fuses } ∧
      let hard := s.dev.mem.repairs.filter Repair.hard
      let mem : MemSys := { host := s.dev.mem.host, hostErr := s.dev.mem.hostErr, repairs := hard, rowsUsed := s'.dev.mem.rowsUsed }
      s'.dev = { free := s.dev.free, mem := mem } ∧
      ∀ b, NMap.get s'.dev.mem.rowsUsed 0 b = (s.dev.mem.repairs.filter fun r => r.hard && r.bank = b).length) ∧
    (s.aon = { powered := false, rstLow := true, fuses := s.aon.fuses } → ∃ s', exec .powerOn s = .next s' ∧ s'.dev = s.dev ∧
      s'.keys = s.keys ∧ s'.aon.powered = true ∧ s'.aon.cap = 4400 ∧ s'.aon.imap = 0 ∧ s'.aon.cause = 0 ∧ s'.aon.alarms = 0 ∧
      s'.aon.boots = 0 ∧ s'.aon.fuses = s.aon.fuses ∧ ∀ c, NMap.get s'.aon.lims 2700 c = 2700) ∧
    (s.aon.powered = false → s.aon.rstLow = false → ∃ s', exec .powerOn s = .next s' ∧ s'.keys = s.keys ∧ s'.dev.boot.st = .boot ∧
      s'.dev.boot.stage = 0 ∧ s'.dev.mem = s.dev.mem ∧
      s'.aon = { s.aon with powered := true, boots := if s.aon.boots = 0xFFFFFFFF then s.aon.boots else s.aon.boots + 1 }) ∧
    (s.aon.powered = true → exec .powerOn s = .next s) ∧
    (∀ a : BitVec 7, s.aon.powered = true → exec (.mgmtBusAddressAssign a) s = .next { s with aon := { s.aon with dynAddr := some a } })

/-! ### Sluice and Tidal (files 14 and 15) -/

/-- R335, R337, R354, R355, R358: without the WIDE grant each command of family 0x07 is refused with 0x070B. SLUICE_CONFIG takes
the block whole and turns Sluice on for the polder, 0x0701 for a field out of its range; SLUICE_SHARD enters the shard with its 22
words, 0x070C for a declaration that breaks the allotments; SLUICE_MEMBER answers 0x0702 for a joiner that is a member, 0x0709 for
a number that is not the next or a first step already committed, and else puts the declaration first, the older one that had not
taken effect gone; its joiners have sources, and a joiner fetches every shard it owns and takes any number above that of its last
epoch; SLUICE_REPLAY, refused with 0x0701 after the first boundary, holds the copied ledger without HOLD and RESUME and takes the
saved messages, and is refused with 0x070D for a record or message that is not valid. -/
def Obligations.SluiceCommands : Prop :=
  ∀ (m : MboxNo) (s : State) (c : Cmd) (p : PolderNo) (x : Polder), Serves s m.val c → c.polder = some p → polderOf s.dev p = some x →
    let y := s.dev.sluice
    let wide := granted s.dev 3 = true
    (¬ wide → (c.cmd = 0x0701 → Refused s m.val c 0x070B (exec (.sluiceConfig m) s)) ∧
      (c.cmd = 0x0702 → Refused s m.val c 0x070B (exec (.sluiceShard m) s)) ∧
      (c.cmd = 0x0703 → Refused s m.val c 0x070B (exec (.sluiceMember m) s)) ∧
      (c.cmd = 0x0704 → Refused s m.val c 0x070B (exec (.sluiceReplay m) s))) ∧
    (wide → c.cmd = 0x0701 →
      let cfg : BitVec 512 := BitVec.ofNat 512 (c.num 0 16)
      let f (hi lo : Nat) : Nat := fld cfg hi lo
      let v (hi lo : Nat) : F32 := BitVec.ofNat 32 (f hi lo)
      let ranges := 16 ≤ f 31 16 ∧ f 47 32 < f 31 16 ∧ 1 ≤ f 51 48 ∧ f 51 48 ≤ 8 ∧ f 55 52 ≤ f 51 48 ∧
        flt 0 (v 95 64) = true ∧ fle (v 95 64) 0x3F800000 = true ∧ fle 0 (v 127 96) = true ∧ ffinite (v 127 96) = true ∧
        fle 0 (v 159 128) = true ∧ flt (v 159 128) 0x3F800000 = true
      let ledger := 4096 ∣ f 431 384 ∧ 16 ≤ f 479 448 ∧ x.dlo ≤ f 431 384 ∧ f 431 384 + 4096 * f 479 448 ≤ x.dhi
      let ok := ranges ∧ inTorus s.dev (f 179 160) = true ∧ (selfId s.dev = f 179 160 → ledger)
      (ok → Succeeds s m.val c { s.dev with sluice := { y with cfg := cfg, on := true, polder := p } } [] (exec (.sluiceConfig m) s)) ∧
      (¬ ok → Refused s m.val c 0x0701 (exec (.sluiceConfig m) s))) ∧
    (wide → c.cmd = 0x0702 →
      let sh : Shard := { words := NMap.clear c.words 22 64 }
      (shardOk s.dev x sh = true →
        Succeeds s m.val c { s.dev with sluice := { y with shards := NMap.insert y.shards (c.word 0) sh } } [] (exec (.sluiceShard m) s)) ∧
      (shardOk s.dev x sh = false → Refused s m.val c 0x070C (exec (.sluiceShard m) s))) ∧
    (wide → c.cmd = 0x0703 →
      let member (j : Nat) : Prop := ∃ e, curEpoch y = some e ∧ e.members.getLsbD j = true
      let wrap := y.hold.any fun h => h.1 = 0x0705
      let base := if wrap then y.hold.elim 0 Prod.snd else y.wraps.headD 0
      let mem : BitVec 256 := BitVec.ofNat 256 (c.num 2 8)
      let few := s.dev.boot.fsite = 0 ∨ (setPositions 256 mem.toNat).length ≤ s.dev.boot.fsite
      let joins := ∃ q ∈ joinerPairs c, q.1 = scSite y
      let known (j : Nat) : Prop := ∃ e, joinBase y = some e ∧ e.members.getLsbD j = true
      let next (src : NMap Nat) (out : List (Nat × Message)) : Dev := { s.dev with sluice := { y with
        epochs := ⟨c.word 0, base + c.word 1, mem, src, memberDig c, false⟩ :: y.epochs.filter (·.taken)
        wraps := if wrap then y.hold.elim 0 Prod.snd :: y.wraps else y.wraps
        out := y.out ++ out } }
      (¬ joins → (∃ q ∈ joinerPairs c, member q.1) → Refused s m.val c 0x0702 (exec (.sluiceMember m) s)) ∧
      (¬ joins → (¬ ∃ q ∈ joinerPairs c, member q.1) → (c.word 0 ≠ curEpochNo y + 1 ∨ base + c.word 1 ≤ committed y) →
        Refused s m.val c 0x0709 (exec (.sluiceMember m) s)) ∧
      (¬ joins → (∀ q ∈ joinerPairs c, ¬ member q.1 ∧ member q.2 ∧ mem.getLsbD q.1 = true) →
        (∀ j, j < 256 → mem.getLsbD j = true → curEpoch y = none ∨ member j ∨ ∃ q ∈ joinerPairs c, q.1 = j) →
        c.word 0 = curEpochNo y + 1 → committed y < base + c.word 1 → (wrap = true → c.word 1 = 1) → few →
        ∃ src : NMap Nat,
          (∀ j a, NMap.find? src j = some a → ¬ member j ∧ mem.getLsbD j = true ∧ (j, a) ∈ joinerPairs c) ∧
          (∀ q ∈ joinerPairs c, (NMap.find? src q.1).isSome = true) ∧
          Succeeds s m.val c (next src []) [] (exec (.sluiceMember m) s)) ∧
      (joins → known (scSite y) → Refused s m.val c 0x0702 (exec (.sluiceMember m) s)) ∧
      (joins → ¬ known (scSite y) → (c.word 0 ≤ curEpochNo y ∨ base + c.word 1 ≤ committed y) →
        Refused s m.val c 0x0709 (exec (.sluiceMember m) s)) ∧
      (joins → ¬ known (scSite y) → (∀ q ∈ joinerPairs c, mem.getLsbD q.1 = true) →
        curEpochNo y < c.word 0 → committed y < base + c.word 1 → (wrap = true → c.word 1 = 1) → few →
        ∃ (src : NMap Nat) (a : Nat),
          (∀ j a, NMap.find? src j = some a → (j, a) ∈ joinerPairs c) ∧ (∀ q ∈ joinerPairs c, (NMap.find? src q.1).isSome = true) ∧
          NMap.find? src (scSite y) = some a ∧
          Succeeds s m.val c (next src ((y.shards : List (Nat × Shard)).map fun e =>
            (a, mkMsg 4 (scSite y) (c.word 0) (wireStep y (base + c.word 1 - 1)) e.1 []))) [] (exec (.sluiceMember m) s))) ∧
    (wide → c.cmd = 0x0704 →
      let a := c.word 0 + 2 ^ 32 * c.word 1
      let b := c.word 4 + 2 ^ 32 * c.word 5
      let arch := (c.word 3).testBit 0
      let n := if arch then 64 * c.word 6 else 0
      (y.bnd.isSome = true → Refused s m.val c 0x0701 (exec (.sluiceReplay m) s)) ∧
      (y.bnd = none → (a % 64 ≠ 0 ∨ a < x.dlo ∨ x.dhi ≤ a) → Refused s m.val c 0x0106 (exec (.sluiceReplay m) s)) ∧
      (y.bnd = none → a % 64 = 0 → x.dlo ≤ a → a < x.dhi → (arch = true → b % 64 = 0 ∧ x.dlo ≤ b ∧ b + n ≤ x.dhi) →
        ∀ d1 d2 bs ar, memRead s.dev (cmdAcc (some p)) a (min (x.dhi - a) (c.word 2 * (64 + 8 * 4096))) = (d1, .ok bs) →
        memRead d1 (cmdAcc (some p)) b n = (d2, .ok ar) →
        (∀ rs ms, ledgerParse (c.word 2) bs = some rs → archiveParse (64 * c.word 6 + 1) ar = some ms →
          let kept := rs.filter fun r => rcKind r ≠ 5 && rcKind r ≠ 6
          let d3 := { d2 with sluice := { d2.sluice with replay := kept, differs := false } }
          Succeeds s m.val c (ms.foldl deliver d3) [] (exec (.sluiceReplay m) s)) ∧
        (ledgerParse (c.word 2) bs = none ∨ archiveParse (64 * c.word 6 + 1) ar = none →
          ∃ d', exec (.sluiceReplay m) s = .next { s with dev := putCmd d' m.val { c with work := some (.refused 0x070D []) } })))

/-- R333, R338 and R339: a write of the ready word that is not the next boundary changes the word alone and counts the ready-error
event; the right one hands the contribution over: the image in the own-contribution area, with the header that Sluice composes in
front of what the boundary program left there (log entry 64), is the shard's own contribution in its pending store, the shard
expects the next boundary, and one message of kind 1 waits for each other member. A contribution's fragment is placed in the
pending store of its shard, except where the store has no room for a new one, a record lists it or it is here. A device that holds
a contribution for every shard it owns reports it once, to the keeper over the fabric, with whether it is malformed; the keeper
enters a device's report once, and while the site is held evaluates its commits. R339, R346 to R348: the end of an inner step at
the keeper, by a word written into the polder's scratchpad (log entry 64). A number that is not the next is written and counted;
the right one is kept, and at a boundary the epochs take effect, and the keeper either holds, for the first cause of R348's table,
with a HOLD record and without a release, or releases the boundary, which every device of the site learns. The end of an inner
step at which the deadline of a step passes without the own contribution is counted as a wait. A hold whose cause persists goes
on; one whose causes have all ended is over: a RESUME record is made and the boundary is released. The boundary numbers before and
after are those of the state. -/
def Obligations.SluiceHolding : Prop :=
  (
  (∀ (id : W32) (v : W64) (s : State) (sh : Shard), NMap.find? s.dev.sluice.shards id.toNat = some sh →
    let x := s.dev.sluice
    let k := sh.next
    let d1 := (memWrite s.dev { polder := some x.polder } sh.readyWord (toBytes 8 v.toNat)).1
    (v.toNat % 2 ^ 32 ≠ wireStep x k → exec (.readyWordWrite id v) s = .next { s with dev := count d1 5 0 0x807 1 (some x.polder) }) ∧
    (v.toNat % 2 ^ 32 = wireStep x k → ∀ d2 bs, memRead d1 (slAcc d1) (sh.entry k + 2 * sh.a4) sh.csz = (d2, .ok bs) →
      let hdr := ownHeader x sh bs
      let img := hdr ++ bs.drop 64
      let d3 := (memWrite d2 (slAcc d2) (sh.entry k + 2 * sh.a4) hdr).1
      let msg := mkMsg 1 (scSite x) (epochNo x k) (wireStep x k) id.toNat (img.take (16 * ceilDiv (imgAt img).fin 16))
      let own : Held := heldCheck sh (heldPut { site := scSite x, epoch := epochNo x k, ostep := k, mlen := mgLen msg } msg)
      let shs := NMap.insert x.shards id.toNat { sh with next := k + 1, pend := sh.pend ++ [own] }
      exec (.readyWordWrite id v) s = .next { s with
        dev := heldCommits (sendOut (reportOwn { d3 with sluice := { x with shards := shs } } (scSite x) k) msg (partners x k)) })) ∧
  (∀ (m : Message) (s : State), mgKind m ≠ 1 → exec (.contributionRx m) s = .next s) ∧
  (∀ (m : Message) (s : State) (sh : Shard), mgKind m = 1 → NMap.find? s.dev.sluice.shards (mgShard m) = some sh →
    let x := s.dev.sluice
    let j := mgOrig m
    let k := absStep x (mgEpoch m) (mgStep m)
    let here := findHeld sh j k
    let full := here = none ∧ scS x + scP x + 1 ≤ (sh.pend.filter fun h => h.site = j).length
    ((listed x j k = true ∨ here.any heldDone = true ∨ full) → exec (.contributionRx m) s = .next { s with dev := heldCommits s.dev }) ∧
    (listed x j k = false → here.any heldDone = false → ¬ full →
      let h := heldCheck sh (heldPut (here.getD { site := j, epoch := mgEpoch m, ostep := k, mlen := mgLen m }) m)
      let sh' := { sh with pend := (sh.pend.filter fun g => ¬ (g.site = j ∧ g.ostep = k)) ++ [h] }
      let d := { pendChurn s.dev sh with sluice := { x with shards := NMap.insert x.shards (mgShard m) sh' } }
      exec (.contributionRx m) s = .next { s with dev := heldCommits (if heldDone h then reportOwn d j k else d) })) ∧
  (∀ (d : Dev) (j k : Nat),
    let x := d.sluice
    let r := (selfId d, j, k)
    let all := ∀ e ∈ (x.shards : List (Nat × Shard)), ∃ h, findHeld e.2 j k = some h ∧ heldDone h = true
    ((¬ all ∨ r ∈ x.reports) → reportOwn d j k = d) ∧
    (all → r ∉ x.reports → isKeeper d = true → reportOwn d j k = { d with sluice := { x with reports := x.reports ++ [r] } }) ∧
    (all → r ∉ x.reports → isKeeper d = false → ∃ bad : Bool,
      (bad = true ↔ ∃ e ∈ (x.shards : List (Nat × Shard)), ∃ h, findHeld e.2 j k = some h ∧ h.bad = true) ∧
      reportOwn d j k = { d with sluice := { x with reports := x.reports ++ [r], fab := x.fab ++ [(scKeeper x, .report j k bad)] } })) ∧
  (∀ (dev : DevId) (site : Byte) (w : W32) (bad : Bool) (s : State),
    let x := s.dev.sluice
    let r := (dev.toNat, site.toNat, absStep x (curEpochNo x) w.toNat)
    let d := if r ∈ x.reports then s.dev else { s.dev with sluice := { x with
      reports := x.reports ++ [r], badIn := if bad then x.badIn ++ [r.2] else x.badIn } }
    (isKeeper s.dev = true → exec (.holdingReportRx dev site w bad) s = .next { s with dev := heldCommits d }) ∧
    (isKeeper s.dev = false → exec (.holdingReportRx dev site w bad) s = .next s)) ∧
  (∀ d : Dev, (isKeeper d = true ∧ d.sluice.hold.isSome = true → heldCommits d = evalCommits d) ∧
    (isKeeper d = false ∨ d.sluice.hold = none → heldCommits d = d))) ∧
  (
  (∀ (a : Addr) (v : W64) (s : State), stepWordAt s.dev a.toNat = false → exec (.stepWordWrite v a) s = .next s) ∧
  (∀ (a : Addr) (v : W64) (s : State), stepWordAt s.dev a.toNat = true →
    let x := s.dev.sluice
    let d0 := (memWrite s.dev { polder := some x.polder } a.toNat (toBytes 8 v.toNat)).1
    ((∃ i, x.istep = some i ∧ v.toNat ≠ i + 1) → exec (.stepWordWrite v a) s = .next { s with dev := count d0 5 0 0x807 1 (some x.polder) }) ∧
    ((∀ i, x.istep = some i → v.toNat = i + 1) →
      let d1 := { d0 with sluice := { x with istep := some v.toNat, ownWaits := x.ownWaits + b2n (ownWait d0 v.toNat) } }
      ((∀ k, 1 ≤ k → v.toNat + 1 ≠ scB0 x + k * scH x) → exec (.stepWordWrite v a) s = .next { s with dev := evalCommits d1 }) ∧
      (∀ k, 1 ≤ k → v.toNat + 1 = scB0 x + k * scH x → 0 < scH x → x.on = true →
        let d2 := takeEpochs (flushLedger { d1 with sluice := { d1.sluice with bnd := some k } }) k
        ∃ d', exec (.stepWordWrite v a) s = .next { s with dev := d' } ∧ d'.sluice.istep = some v.toNat ∧ d'.sluice.bnd = some k ∧
          (∀ st, holdCause d2 k = some st → d'.sluice.hold = some (st, k) ∧ d'.sluice.rel = x.rel) ∧
          (holdCause d2 k = none → d'.sluice.hold = none ∧ d'.sluice.rel = some k ∧
            ∀ w ∈ siteDevs s.dev, w ≠ selfId s.dev → (w, .release k) ∈ d'.sluice.fab)))) ∧
  (∀ (s : State) (st : Code) (k : Nat), s.dev.sluice.hold = some (st, k) →
    let d2 := takeEpochs (flushLedger s.dev) k
    (holdCause d2 k = some st → exec .holdEnd s = .next { s with dev := d2 }) ∧
    (∀ e, holdCause d2 k = some e → e ≠ st → ∃ d', exec .holdEnd s = .next { s with dev := d' } ∧
      d'.sluice.hold = some (e, k) ∧ d'.sluice.rel = s.dev.sluice.rel) ∧
    (holdCause d2 k = none → ∃ d' r, exec .holdEnd s = .next { s with dev := d' } ∧ d'.sluice.hold = none ∧ d'.sluice.rel = some k ∧
      r = mkRec d2.sluice 6 k (d2.sluice.istep.getD 0) 0 0 [] ∧ r ∈ d'.sluice.ledger ++ d'.sluice.backlog)) ∧
  (∀ (d : Dev) (v : Nat),
    let x := d.sluice
    0 < scH x → (ownWait d v = true ↔ ∃ k, 1 ≤ k ∧ k ≤ x.bnd.getD 0 ∧ v + 1 = scB0 x + k * scH x + scDl x ∧ committed x < k ∧
      siteHolds d (scSite x) k = false)) ∧
  (∀ (d : Dev) (k : Nat),
    let x := d.sluice
    (holdCause d k = some 0x0704 ↔ ∃ j ∈ membersAt x k, j ≠ scSite x ∧ newestOf d j + scP x < k) ∧
    (holdCause d k = none → wireStep x k ≠ 0xFFFFFFFF ∧ x.backlog = [] ∧ x.full = none ∧ x.differs = false ∧ x.diverged = none ∧
      disagree x k = false)))

/-- R340: the entries of the COMMIT record of step k are in ascending order of (site, outer step), each once; they are exactly the
contributions to steps up to k that every device of the site holds and that nothing lists yet; each is listed as applied when its
site is a member at its step, it is well formed and at most S steps late, and else as discarded for the reason of R340's table.
The numbers in the entries are 32-bit step numbers, so the statement takes steps within one numbering. R339: outside a replay a
step commits once the site holds its own contribution and those of all members or the deadline has passed, and not before. R342: a
step with which the ring has no room is not committed, and nothing commits before software has moved dseq. -/
def Obligations.CommitEntries : Prop :=
  (∀ (d : Dev) (k : Nat), d.sluice.wraps = [0] → k < 2 ^ 32 → (∀ r ∈ d.sluice.reports, r.2.1 < 256) →
    let x := d.sluice
    let ents := commitEnts d k
    (ents.map fun e => (enSite e, enStep e)).Pairwise (fun a b => a.1 < b.1 ∨ (a.1 = b.1 ∧ a.2 < b.2)) ∧
    (∀ j k', (∃ e ∈ ents, enSite e = j ∧ enStep e = k') ↔
      (k' ≤ k ∧ (∃ v, (v, j, k') ∈ x.reports) ∧ siteHolds d j k' = true ∧ listed x j k' = false)) ∧
    ∀ e ∈ ents,
      let member := enSite e ∈ membersAt x (enStep e)
      let bad := (enSite e, enStep e) ∈ x.badIn ∨ ∃ q ∈ (x.shards : List (Nat × Shard)), ∃ h, findHeld q.2 (enSite e) (enStep e) = some h ∧ h.bad = true
      (¬ member → enDisp e = 3) ∧ (member → bad → enDisp e = 2) ∧
      (member → ¬ bad → scS x < k - enStep e → enDisp e = 1) ∧ (member → ¬ bad → k - enStep e ≤ scS x → enDisp e = 0)) ∧
  (∀ (d : Dev) (k : Nat), d.sluice.replay = [] →
    let x := d.sluice
    let due := siteHolds d (scSite x) k = true ∧
      ((∀ j ∈ membersAt x k, siteHolds d j k = true) ∨ ∃ v, x.istep = some v ∧ scB0 x + k * scH x + scDl x ≤ v + 1)
    (due → commitNow d k = some (mkRec x 1 k (x.istep.getD 0) 0 0 (commitEnts d k))) ∧ (¬ due → commitNow d k = none)) ∧
  ∀ (d : Dev), d.sluice.backlog = [] → d.sluice.full = none →
    let x := d.sluice
    let k := committed x + 1
    ((x.bnd.getD 0 < k ∨ commitNow d k = none) → evalCommits d = answerFetches d) ∧
    (∀ (r : LRec) (d1 : Dev) (q : Nat), k ≤ x.bnd.getD 0 → commitNow d k = some r → ringDrained d = (d1, q) →
      ringFits d1.sluice q r = false → evalCommits d = answerFetches { d1 with sluice := { d1.sluice with full := some q } })

/-- R334, R341, R344, R345: with record k (or for step 0) a shard's Sluice writes the merged update to the merge slot: element by
element the sum of the contributions the record applies, each weighted with a power of beta by how late it is and non-finite
elements left out and counted, times the reciprocal of the member count; it waits until the contributions are here, and nothing is
written twice. The merge word is written once the keeper has released the boundary, with act for a rebuilt shard, kind 7 with the
step is posted, and own contributions whose history entry is overwritten are no longer kept; a device other than the keeper whose
merged update is not ready counts the wait once for the step. When every shard's merged update is out, every shard moves on to the
next step and the digests of the new anchors go to the keeper, which keeps those of every device and makes the ANCHOR record when
all have reported. How the pending store lies in the history region is not stated: its bytes are free values (log entry 64). R340,
R349, R352, R355: a partner's record is kept once among its notices and the site's own ledger stays; a device that is not the
keeper enters its own keeper's record, and a proposal that the keeper adopts makes it form its merges anew; a record with a wrong
check is ignored, and a leader's notice of 0x0708 marks a site whose digest differs. A proposal is kept when the leader wrote it.
A joiner's fetch waits until the anchor is formed and its record made; one that comes too late is answered with an empty state. A
joiner's state is assembled from its fragments, and whole it makes the shard stand at the fetched anchor; an empty one raises
0x0709. -/
def Obligations.SluiceMerges : Prop :=
  (
  (∀ (id : W32) (s : State) (sh : Shard), NMap.find? s.dev.sluice.shards id.toNat = some sh →
    let x := s.dev.sluice
    let k := sh.toMerge
    let es := applied x k
    (sh.merge.isSome = true → exec (.mergeFormed id) s = .next s) ∧
    let fixed := (∀ p b, x.adopting = some (p, b) → b ≠ k + 1)
    let here := (k = 0 ∨ (commitAt x k).isSome = true) ∧ ∀ e ∈ es, ∃ h, findHeld sh e.1 e.2 = some h ∧ heldDone h = true
    let members := match commitAt x k with | some r => fld r.hdr 295 288 + 1 | none => (membersAt x k).length
    (sh.merge = none → fixed → ¬ here → exec (.mergeFormed id) s = .next s) ∧
    (sh.merge = none → fixed → here →
      ∃ l : List F32, l.length = sh.n ∧
        (∀ i, i < sh.n → l.getD i 0 = fmul
          (es.foldl (fun acc e =>
            match findHeld sh e.1 e.2 with
            | some h =>
              let v := (imgVals sh (heldBytes h)).getD i 0
              ffma (weight (scBeta x) (k - e.2)) (if ffinite v then v else 0) acc
            | none => acc) 0)
          (fdiv one32 (rne32 (.fin false members 0)))) ∧
        let d1 := (memWrite s.dev (slAcc s.dev) sh.slot (f32Bytes l)).1
        let d2 := pendChurn d1 sh
        let sh' := { takeListed x sh k es with merge := some (k, false), nonfin := sh.nonfin + mergeNonfin sh es }
        exec (.mergeFormed id) s = .next { s with
          dev := { d2 with sluice := { x with shards := NMap.insert x.shards id.toNat sh' } } }) ∧
    (∀ p, sh.merge = none → x.adopting = some (p, k + 1) →
      let c := absStep x (rcEpoch p) (rcLo p)
      (∀ i, c ≤ i → i ≤ k → ∀ e ∈ rebuildEnts x p i, ∃ h, findHeld sh e.1 e.2 = some h ∧ heldDone h = true) →
      ∀ d1 bs, memRead s.dev (slAcc s.dev) (sh.entry c) (sh.a4 + 4 * sh.n) = (d1, .ok bs) →
      ∃ d' sh', exec (.mergeFormed id) s = .next { s with dev := d' } ∧ NMap.find? d'.sluice.shards id.toNat = some sh' ∧
        sh'.merge = some (k, true))) ∧
  (∀ (id : W32) (s : State) (sh : Shard), NMap.find? s.dev.sluice.shards id.toNat = some sh → sh.merge = none →
    let x := s.dev.sluice
    ((isKeeper s.dev = true ∨ sh.toMerge + 1 ≤ x.waited) → exec (.mergeWordRelease id) s = .next s) ∧
    (isKeeper s.dev = false → x.waited ≤ sh.toMerge → exec (.mergeWordRelease id) s = .next { s with
      dev := count { s.dev with sluice := { x with waited := sh.toMerge + 1 } } 5 0 0x808 1 (some x.polder) })) ∧
  (∀ (id : W32) (s : State) (sh : Shard) (k : Nat) (act : Bool), NMap.find? s.dev.sluice.shards id.toNat = some sh →
    sh.merge = some (k, act) →
    let x := s.dev.sluice
    let waits := isKeeper s.dev = true ∧ x.rel.getD 0 < k + 1
    ((sh.out = true ∨ waits) → exec (.mergeWordRelease id) s = .next s) ∧
    (sh.out = false → ¬ waits → ∀ d1 res, memRead s.dev (slAcc s.dev) (sh.entry k) (2 * sh.a4) = (d1, res) →
      let d2 := if act then s.dev else match res with | .ok bs => (memWrite d1 (slAcc d1) (sh.entry (k + 1)) bs).1 | .error _ => d1
      let d3 := (memWrite d2 (slAcc d2) sh.mergeWord (toBytes 8 (wireStep x k + if act then 2 ^ 32 else 0))).1
      let sh' := { sh with out := true, copies := NMap.dropKeys sh.copies fun a => a + 7 < k + 1 }
      let stale (g : Nat × Message) : Bool := mgKind g.2 = 1 && mgShard g.2 = id.toNat && absStep x (mgEpoch g.2) (mgStep g.2) + 8 ≤ k + 1
      let eps := if isKeeper s.dev then x.epochs else x.epochs.map fun e => if e.k0 ≤ k + 1 then { e with taken := true } else e
      let d4 := { d3 with sluice := { x with
        shards := NMap.insert x.shards id.toNat sh', out := x.out.filter fun g => !stale g, epochs := eps } }
      exec (.mergeWordRelease id) s = .next { s with dev := postSumm d4 sh.tile sh.sreg 7 (wireStep x k) false false })) ∧
  (∀ (s : State) (id0 : Nat) (sh0 : Shard) (rest : List (Nat × Shard)), (s.dev.sluice.shards : List (Nat × Shard)) = (id0, sh0) :: rest →
    let x := s.dev.sluice
    let k := sh0.toMerge + 1
    ((∃ e ∈ (id0, sh0) :: rest, e.2.out = false) → exec (.anchorDigestReport none) s = .next s) ∧
    ((∀ e ∈ (id0, sh0) :: rest, e.2.out = true) → ∃ d', exec (.anchorDigestReport none) s = .next { s with dev := d' } ∧
      (d'.sluice.shards : List (Nat × Shard)) = ((id0, sh0) :: rest).map (fun e =>
        (e.1, { e.2 with out := false, merge := none, toMerge := e.2.toMerge + 1, newest := e.2.toMerge + 1 })) ∧
      (isKeeper s.dev = true → (∀ d1 bs, memRead s.dev (slAcc s.dev) (sh0.entry k) (4 * sh0.n) = (d1, .ok bs) →
          (k, id0, dig16 bs) ∈ d'.sluice.digs) ∧
        ((∀ v ∈ siteDevs s.dev, v ≠ selfId s.dev → (k, v) ∈ x.digDevs) → ∃ r ∈ d'.sluice.ledger ++ d'.sluice.backlog,
          (rcKind r = 2 ∧ rcAbs x r = k) ∨ ∃ (y : Sluice) (g : Nat), r = mkRec y 2 k (y.istep.getD 0) 0 g [])) ∧
      (isKeeper s.dev = false → ∃ ds, (scKeeper x, .digests k ds) ∈ d'.sluice.fab ∧
        ∀ d1 bs, memRead s.dev (slAcc s.dev) (sh0.entry k) (4 * sh0.n) = (d1, .ok bs) → (id0, dig16 bs) ∈ ds))) ∧
  (∀ (r : DigestReport) (s : State),
    let x := s.dev.sluice
    let k := absStep x (curEpochNo x) r.ostep.toNat
    let news := isKeeper s.dev = true ∧ (k, r.dev.toNat) ∉ x.digDevs
    (¬ news → exec (.anchorDigestReport (some r)) s = .next s) ∧
    (news → ∃ d', exec (.anchorDigestReport (some r)) s = .next { s with dev := d' } ∧ (k, r.dev.toNat) ∈ d'.sluice.digDevs ∧
      ∀ e ∈ r.digs, (k, e.1.toNat, e.2) ∈ d'.sluice.digs))) ∧
  (
  (∀ (m : Message) (s : State) (r : LRec) (n : Nat), mgKind m = 2 → rcParse m.body = some (r, n) →
    let x := s.dev.sluice
    (rcOk r = false → exec (.ledgerNoticeRx m) s = .next s) ∧
    let own := if rcKind r = 3 then rcIstep r ≠ 0 else rcSite r = scSite x
    let kept := { s.dev with sluice := { x with ledger := x.ledger ++ [r] } }
    (rcOk r = true → own → isKeeper s.dev = true → exec (.ledgerNoticeRx m) s = .next s) ∧
    (rcOk r = true → own → isKeeper s.dev = false → rcKind r ≠ 3 → exec (.ledgerNoticeRx m) s = .next { s with dev := answerFetches kept }) ∧
    (rcOk r = true → own → isKeeper s.dev = false → rcKind r = 3 → exec (.ledgerNoticeRx m) s = .next { s with
      dev := answerFetches { kept with sluice := { kept.sluice with
        adopting := some (r, (rcIstep r - scB0 x) / scH x), proposal := none
        shards := NMap.mapVals x.shards fun _ h => { h with merge := none } } } }) ∧
    (∀ d : Dev, d.sluice.fetches = [] → answerFetches d = d) ∧
    (rcOk r = true → ¬ own → ∃ d', exec (.ledgerNoticeRx m) s = .next { s with dev := d' } ∧
      d'.sluice.notices = (if (mgOrig m, r) ∈ x.notices then x.notices else x.notices ++ [(mgOrig m, r)]) ∧
      d'.sluice.ledger = x.ledger ∧ d'.sluice.backlog = x.backlog ∧ d'.sluice.shards = x.shards ∧ d'.mem.bytes = s.dev.mem.bytes)) ∧
  (∀ (m : Message) (s : State) (g : Nat), mgKind m = 3 → leAt m.body 0 2 = 0x0708 →
    anchorDig s.dev.sluice (scSite s.dev.sluice) (absStep s.dev.sluice (mgEpoch m) (mgStep m)) = some g →
    exec (.ledgerNoticeRx m) s = .next { s with dev := { s.dev with sluice := { s.dev.sluice with
      differs := s.dev.sluice.differs || g != leAt m.body 16 16 } } }) ∧
  (∀ (m : Message) (s : State) (r : LRec) (n : Nat), rcParse m.body = some (r, n) →
    let x := s.dev.sluice
    let good := mgKind m = 2 ∧ rcOk r = true ∧ rcKind r = 3 ∧ (membersNow x).head? = some (rcSite r) ∧ rcSite r = mgOrig m
    (good → exec (.reconcileProposalRx m) s = .next { s with dev := { s.dev with sluice := { x with proposal := some r } } }) ∧
    (¬ good → exec (.reconcileProposalRx m) s = .next s)) ∧
  (∀ (m : Message) (s : State) (sh : Shard), mgKind m = 4 → NMap.find? s.dev.sluice.shards (mgShard m) = some sh →
    let x := s.dev.sluice
    let k := absStep x (mgEpoch m) (mgStep m)
    let state (bs : List Byte) := mkMsg 5 (mgOrig m) (mgEpoch m) (mgStep m) (mgShard m) bs
    let known := k = 0 ∨ (commitAt x k).isSome = true
    ((sh.newest < k ∨ (sh.newest < k + 8 ∧ ¬ known)) → exec (.joinerFetchRequestRx m) s = .next { s with
      dev := { s.dev with sluice := { x with fetches := x.fetches ++ [(mgOrig m, m)] } } }) ∧
    (k + 8 ≤ sh.newest → exec (.joinerFetchRequestRx m) s = .next { s with
      dev := { s.dev with sluice := { x with out := x.out ++ [(mgOrig m, state [])] } } }) ∧
    (k ≤ sh.newest → sh.newest < k + 8 → known → ∀ d1 bs, memRead s.dev (slAcc s.dev) (sh.entry k) (2 * sh.a4) = (d1, .ok bs) →
      ∃ more, exec (.joinerFetchRequestRx m) s = .next { s with dev := { d1 with sluice := { x with
        out := x.out ++ (mgOrig m, state (bs ++ (commitAt x k).elim [] rcBytes)) :: more } } } ∧
        ∀ g ∈ more, g.1 = mgOrig m ∧ mgKind g.2 = 5)) ∧
  (∀ (m : Message) (s : State) (sh : Shard), mgKind m = 5 → mgOrig m = scSite s.dev.sluice →
    NMap.find? s.dev.sluice.shards (mgShard m) = some sh →
    let x := s.dev.sluice
    let k := absStep x (mgEpoch m) (mgStep m)
    let h := heldPut (NMap.get x.joining { site := scSite x, epoch := mgEpoch m, ostep := k, mlen := mgLen m } (mgShard m)) m
    let whole := heldDone h = true ∧ h.bad = false ∧ 2 * sh.a4 ≤ (heldBytes h).length
    (mgLen m = 0 → exec (.joinerStateRx m) s = .next { s with
      dev := heldCommits (fedNotice s.dev 0x0709 (mgStep m <<< 96 + scSite x <<< 128 + mgShard m <<< 176)) }) ∧
    (mgLen m ≠ 0 → ¬ whole → exec (.joinerStateRx m) s = .next { s with
      dev := heldCommits { s.dev with sluice := { x with joining := NMap.insert x.joining (mgShard m) h } } }) ∧
    (mgLen m ≠ 0 → whole → ∃ d', exec (.joinerStateRx m) s = .next { s with dev := d' } ∧
      NMap.find? d'.sluice.shards (mgShard m) = some { sh with next := k + 1, toMerge := k, newest := k, merge := none, out := false } ∧
      d'.sluice.bnd = some k ∧ d'.sluice.rel = some k ∧ d'.sluice.hold = none ∧
      d'.sluice.istep = (if scB0 x + k * scH x = 0 then none else some (scB0 x + k * scH x - 1)))) ∧
  (∀ (m : Message) (s : State), mgKind m = 5 → mgOrig m ≠ scSite s.dev.sluice → (NMap.find? s.dev.sluice.shards (mgShard m)).isSome = true →
    exec (.joinerStateRx m) s = .next { s with dev := heldCommits (placeMessage s.dev m true).1 }))

/-- R369, R372, R374, R378, R381, R395: a path that may send sends the first message of its queue as a DATA frame, which is then
in flight; 64 ticks after a DATA frame it has not reported it sends an ACK of what it has received; its probe timer sends a PROBE;
and when its oldest frame has no answer within rto it enters hold-off with one PROBE and declares nothing lost. Each frame opens
under its key to its payload, with the path's next pcount and pseq. A path without a usable key sends nothing and counts the wait.
R378, R380 to R382: hold-off without an answer leaves the path UP with rto doubled, at most 2 s, and everything in flight lost and
queued again; a path that has accepted nothing for the limit goes DOWN; the rate rises by pmax / 32 up to pmax; refused content is
queued again on its own path when that is UP and not in hold-off, else on an UP path of the partner with the lowest srtt. A row
whose path is in another state changes no path. -/
def Obligations.TidalSending : Prop :=
  (
  ∀ (n : Fin 512) (s : State) (p : TPath) (k : TKey), CanSend s.keys s.dev n.val p k →
    (∀ m rest, p.queue = m :: rest → maySend p m = true → m.body.length ≤ 8840 → ∃ ks' d', exec (.frameSend n) s = .next { s with keys := ks', dev := d' } ∧
      FrameLeft s.keys s.dev n.val p k 1 (fragBytes m) ks' d' ∧
      NMap.find? d'.tidal.paths n.val = some { p with
        pseq := p.pseq + 1, kep := some k.kep, queue := rest, flight := p.flight ++ [⟨p.pseq, BitVec.ofNat 32 d'.tidal.tick, m, 0⟩] }) ∧
    (0 < p.due → ∃ ks' d', exec (.ackTimer n) s = .next { s with keys := ks', dev := d' } ∧
      FrameLeft s.keys s.dev n.val p k 2 (ackBytes p) ks' d' ∧
      NMap.find? d'.tidal.paths n.val = some { p with pseq := p.pseq + 1, kep := some k.kep, due := 0, refused := [], echo := none }) ∧
    (∃ ks' d', exec (.pathProbeTimer n) s = .next { s with keys := ks', dev := d' } ∧
      FrameLeft s.keys s.dev n.val p k 3 (List.replicate 16 0) ks' d' ∧
      NMap.find? d'.tidal.paths n.val = some { p with pseq := p.pseq + 1, kep := some k.kep }) ∧
    (p.st = .up → p.flight ≠ [] → ∃ ks' d', exec (.rtoExpiry n) s = .next { s with keys := ks', dev := d' } ∧
      FrameLeft s.keys s.dev n.val p k 3 (List.replicate 16 0) ks' d' ∧
      NMap.find? d'.tidal.paths n.val = some { p with pseq := p.pseq + 1, kep := some k.kep, st := .holdoff }) ∧
    ∀ ks0, pathKey ks0 p = none → ∀ m rest, p.queue = m :: rest → maySend p m = true →
      ∃ d', exec (.frameSend n) { s with keys := ks0 } = .next { s with keys := ks0, dev := d' } ∧ d'.tidal.paths = s.dev.tidal.paths ∧
        d'.tidal.sent = s.dev.tidal.sent) ∧
  (
  ∀ (n : Fin 512) (s : State) (p : TPath), pathOf s.dev n.val = some p →
    (p.st = .holdoff → ∃ d' q, exec (.holdoffExpiry n) s = .next { s with dev := d' } ∧ NMap.find? d'.tidal.paths n.val = some q ∧
      q = { p with st := .up, rto := min 3051757 (2 * p.rto), flight := [], lost := p.lost ++ p.flight,
                   queue := p.flight.map Flight.msg ++ p.queue, rate := q.rate, fell := q.fell } ∧
      (q.rate = p.rate ∨ q.rate = max 1000000 (p.rate * 3 / 4)) ∧
      (∀ i, i ≠ n.val → NMap.find? d'.tidal.paths i = NMap.find? s.dev.tidal.paths i)) ∧
    (p.st ≠ .holdoff → ∃ d', exec (.holdoffExpiry n) s = .next { s with dev := d' } ∧ d'.tidal.paths = s.dev.tidal.paths) ∧
    (p.st = .up ∨ p.st = .holdoff → ∃ d', exec (.pathDownTimeout n) s = .next { s with dev := d' } ∧
      NMap.find? d'.tidal.paths n.val = some { p with st := .down } ∧
      (∀ i, i ≠ n.val → NMap.find? d'.tidal.paths i = NMap.find? s.dev.tidal.paths i)) ∧
    (p.st = .up → ∃ d', exec (.rateIncrease n) s = .next { s with dev := d' } ∧
      NMap.find? d'.tidal.paths n.val = some { p with rate := min (pMax p.desc) (p.rate + pMax p.desc / 32) } ∧
      (∀ i, i ≠ n.val → NMap.find? d'.tidal.paths i = NMap.find? s.dev.tidal.paths i)) ∧
    (∃ d' o q,
      let i := requeueOn { s.dev with tidal := { s.dev.tidal with paths := NMap.insert s.dev.tidal.paths n.val { p with refusedQ := [] } } } n.val
      exec (.refusedRequeue n) s = .next { s with dev := d' } ∧ NMap.find? s.dev.tidal.paths i = some o ∧
      NMap.find? d'.tidal.paths i = some q ∧ q.queue = p.refusedQ ++ o.queue ∧
      ∃ r, NMap.find? d'.tidal.paths n.val = some r ∧ r.refusedQ = []) ∧
    (p.st = .up → requeueOn s.dev n.val = n.val) ∧
    (p.st ≠ .up → requeueOn s.dev n.val = n.val ∨
      (requeueOn s.dev n.val ∈ upPaths s.dev (pPartner p.desc) ∧ ∃ w, pathOf s.dev (requeueOn s.dev n.val) = some w ∧
        ∀ j ∈ upPaths s.dev (pPartner p.desc), ∀ v, pathOf s.dev j = some v → w.srtt ≤ v.srtt)))

/-- R373 to R380, R382, R400: a frame whose tag does not verify changes no path, no window and nothing of Sluice. A received
frame's count is then seen by its window. A DATA frame is received once the owner has accepted its fragment, and refused
otherwise: a contribution for a shard owned here when its pending store has no room; a fragment of a shard that the map does not
name counts as accepted. An ACK takes the frames it covers out of flight, ends hold-off and gives a sample of the round trip by
R377. A PROBE is answered with its own payload. A PROBE_ECHO brings a path that is DOWN up at pmax / 8 with a fresh estimate. -/
def Obligations.TidalArrivals : Prop :=
  ∀ (f : Frame) (s : State) (n : Nat) (p : TPath) (k : TKey),
    (Arrives s.keys s.dev f n p k → opened f k = none → ∀ i ∈ [Instr.dataRx f, .ackRx f, .probeRx f, .probeEchoRx f],
      ∃ ks' d', exec i s = .next { s with keys := ks', dev := d' } ∧ d'.tidal.paths = s.dev.tidal.paths ∧ d'.sluice = s.dev.sluice ∧
        d'.mem.bytes = s.dev.mem.bytes ∧ d'.tidal.sent = s.dev.tidal.sent ∧
        (∀ y ∈ ks'.keys, ∃ z ∈ s.keys.keys, y = { z with fails := y.fails })) ∧
    ∀ pt, Received s.keys s.dev f n p k pt →
      let m : Message := ⟨BitVec.ofNat 256 (leAt pt 0 32), pt.drop 32⟩
      let marked := markGot p (fPseq f)
      (fType f = 1 → ∃ ks' d' q ok, exec (.dataRx f) s = .next { s with keys := ks', dev := d' } ∧ NMap.find? d'.tidal.paths n = some q ∧
        windowOk q (fKep f) (fPcount f) = false ∧
        (ok = true → q.cack = marked.cack ∧ q.got = marked.got) ∧ (ok = false → q.cack = p.cack ∧ q.got = p.got) ∧
        (p.due = 0 → q.due = 1 ∧ q.refused = p.refused ++ (if ok then [] else [fPseq f])) ∧
        (mgOk m = true → mgKind m = 1 → NMap.find? s.dev.tidal.shardMap (mgShard m) = none → ok = true) ∧
        (∀ o t, mgOk m = true → mgKind m = 1 → NMap.find? s.dev.tidal.shardMap (mgShard m) = some (o, t) → o.toNat = selfId s.dev →
          ok = (placeContribution s.dev m).2)) ∧
      (fType f = 2 → pt.length = 176 → leAt pt 4 1 ≤ 16 → leAt pt 5 1 ≤ 4 →
        ∃ d' q, exec (.ackRx f) s = .next { s with dev := d' } ∧ NMap.find? d'.tidal.paths n = some q ∧
          windowOk q (fKep f) (fPcount f) = false ∧ q.st = (if p.st = .holdoff then .up else p.st) ∧
          (∀ g ∈ q.flight, ackCovers pt g.pseq.toNat = false ∧ ∃ h ∈ p.flight, h.pseq = g.pseq ∧ h.msg = g.msg) ∧
          (fHold f = 0xFFFF → q.srtt = p.srtt ∧ q.rttvar = p.rttvar) ∧
          (fHold f ≠ 0xFFFF →
            let r := (d'.tidal.tick + 2 ^ 33 - fTsecr f - fHold f) % 2 ^ 32
            (p.sampled = false ∨ p.srtt + max (4 * p.rttvar) 1526 < r → q.srtt = r ∧ q.rttvar = r / 2) ∧
            (p.sampled = true → r ≤ p.srtt + max (4 * p.rttvar) 1526 →
              (q.srtt : Int) = max 0 (p.srtt + ((r : Int) - p.srtt).tdiv 8)) ∧
            q.rto = max (q.srtt + max (4 * q.rttvar) 64) 3052)) ∧
      (fType f = 3 → ∀ k', pathKey s.keys p = some k' → NMap.get k'.sent 0 (pId p.desc) < 2 ^ 61 →
        ∃ ks' d', exec (.probeRx f) s = .next { s with keys := ks', dev := d' } ∧ FrameLeft s.keys s.dev n p k' 4 pt ks' d') ∧
      (fType f = 4 → p.st = .down → p.tooBig = false → fHold f ≠ 0xFFFF → ∃ d' q, exec (.probeEchoRx f) s = .next { s with dev := d' } ∧
        NMap.find? d'.tidal.paths n = some q ∧ q.st = .up ∧ q.rate = max 1000000 (pMax p.desc / 8) ∧
        q.srtt = (d'.tidal.tick + 2 ^ 33 - fTsecr f - fHold f) % 2 ^ 32 ∧ q.rttvar = q.srtt / 2)

/-- R337, R363 to R366: SLUICE_PATH with pmax = 0 removes the path (its register then stands for no path), and what its partner
has not acknowledged waits again; a record that breaks R364 is refused with the first status that applies; a good record for this
gateway is entered DOWN at pmax / 8 and at least 1 Gb/s, its counters kept and its unanswered frames queued again where it
replaces a path, and one for another gateway is kept. SLUICE_SHARDMAP takes the map from memory. A message that waits at its owner
takes a path only where one is UP: a contribution the path at (shard + step) mod the count of UP paths, any other message the
lowest; a path of another gateway is reached over the fabric (which of those is UP is a free value: log entry 64), and one of this
gateway takes it where its transmit store has room, as it takes what the owner on another device sends it; the message then waits
no longer at its owner. R361, R362, R367: a Packet Too Big below 9,000 B puts the path DOWN until it is declared again and raises
0x0711; a port that is ON answers a solicitation of an address that one of its paths has and discards and counts others; it
answers at most 64 Echo Requests in a second and counts the rest; other packets are counted. Losing link turns the port STARTING
and its paths DOWN; a port that is not back raises a notice of kind 6; back, it is ON. -/
def Obligations.TidalPaths : Prop :=
  (
  (∀ (m : MboxNo) (s : State) (c : Cmd) (p : PolderNo) (x : Polder), Serves s m.val c → c.polder = some p → polderOf s.dev p = some x →
    granted s.dev 3 = true →
    let r : BitVec 512 := BitVec.ofNat 512 (c.num 0 16)
    (c.cmd = 0x0705 →
      (fld r 457 448 = 0 → ∃ d', KeySucceeds s m.val c s.keys d' [] (exec (.sluicePath m) s) ∧
        (∀ n, ownPath s.dev r = some n → pathOf d' n = none) ∧
        (∀ n o, ownPath s.dev r = some n → pathOf s.dev n = some o → d'.sluice.out = s.dev.sluice.out ++
          (o.flight.map Flight.msg ++ o.refusedQ ++ o.queue).map fun m => (pPartner r, m)) ∧
        (∀ n, ownPath s.dev r ≠ some n → NMap.find? d'.tidal.paths n = NMap.find? s.dev.tidal.paths n)) ∧
      (fld r 457 448 ≠ 0 → ∀ e, pathErr s.keys s.dev x r = some e →
        KeyStepGives s m.val s.keys s.dev { c with work := some (.refused e []) } (exec (.sluicePath m) s)) ∧
      (fld r 457 448 ≠ 0 → pathErr s.keys s.dev x r = none → pGw r = selfId s.dev → ∃ d' n q,
        KeySucceeds s m.val c s.keys d' [] (exec (.sluicePath m) s) ∧ pathOf d' n = some q ∧ q.desc = r ∧ q.st = .down ∧
        q.rate = max 1000000 (1000000 * fld r 457 448 / 8) ∧ q.flight = [] ∧
        (ownPath s.dev r = none → ∀ i, i ≠ n → NMap.find? d'.tidal.paths i = NMap.find? s.dev.tidal.paths i) ∧
        (∀ i o, ownPath s.dev r = some i → pathOf s.dev i = some o → n = i ∧ q.pseq = o.pseq ∧ q.wins = o.wins ∧
          let new := { o with desc := r, st := .down, tooBig := false, declKep := newestKep s.keys (pPartner r), rate := q.rate,
                              flight := [], lost := [], refusedQ := [], wpos := 0 }
          let ps := NMap.insert s.dev.tidal.paths n new
          let j := requeueOn { s.dev with tidal := { s.dev.tidal with polder := p, paths := ps } } n
          ∃ y z, NMap.find? ps j = some y ∧ NMap.find? d'.tidal.paths j = some z ∧
            z = { y with queue := o.flight.map Flight.msg ++ o.refusedQ ++ y.queue } ∧
            (∀ k, k ≠ j → NMap.find? d'.tidal.paths k = NMap.find? ps k))) ∧
      (fld r 457 448 ≠ 0 → pathErr s.keys s.dev x r = none → pGw r ≠ selfId s.dev → ∃ d',
        KeySucceeds s m.val c s.keys d' [] (exec (.sluicePath m) s) ∧ (r, newestKep s.keys (pPartner r)) ∈ d'.tidal.others)) ∧
    (c.cmd = 0x0706 →
      let a := c.word 0 + 2 ^ 32 * c.word 1
      let good := a % 64 = 0 ∧ x.dlo ≤ a ∧ a + 8 * c.word 2 ≤ x.dhi
      (¬ good → Refused s m.val c 0x0106 (exec (.sluiceShardmap m) s)) ∧
      (good → ∀ d1 bs, memRead s.dev (cmdAcc (some p)) a (8 * c.word 2) = (d1, .ok bs) → ∃ sm : NMap (DevId × Nat),
        Succeeds s m.val c { d1 with tidal := { d1.tidal with shardMap := sm } } [] (exec (.sluiceShardmap m) s) ∧
        ∀ id, NMap.find? sm id = (((List.range (c.word 2)).reverse.find? fun i => leAt bs (8 * i) 4 = id).map fun i =>
          (BitVec.ofNat 20 (leAt bs (8 * i + 4) 4), leAt bs (8 * i) 8 / 2 ^ 52 % 2 ^ 11))))) ∧
  (∀ (site : Byte) (m : Message) (s : State),
    let out := s.dev.sluice.out
    let fs := fragments (m.body.length / 8832 + 1) m.hdr (mgOfs m) m.body
    let need (p : TPath) := storeUsed p + (fs.map fragLen).sum
    let stored (d d' : Dev) (n : Nat) (p : TPath) : Prop := ∃ q, NMap.find? d'.tidal.paths n = some q ∧ q.queue = p.queue ++ fs ∧
      q = { p with queue := q.queue, wpos := q.wpos } ∧ ∀ i, i ≠ n → NMap.find? d'.tidal.paths i = NMap.find? d.tidal.paths i
    (fs.map Message.body).flatten = m.body ∧
    ((site.toNat, m) ∉ out → exec (.tidalMessageHandoff site m) s = .next s) ∧
    ((site.toNat, m) ∈ out → ∀ d1 l, upAll s.dev site.toNat (List.range 8) = (d1, l) →
      let pick := if mgKind m = 1 then l[(mgShard m + mgStep m) % l.length]? else l.head?
      (pick = none → exec (.tidalMessageHandoff site m) s = .next { s with dev := d1 }) ∧
      (∀ i g, pick = some (i, none) → pathGw s.dev site.toNat i = some g → exec (.tidalMessageHandoff site m) s = .next { s with
        dev := { d1 with sluice := { s.dev.sluice with
          out := out.erase (site.toNat, m), fab := s.dev.sluice.fab ++ [(g, .content site.toNat i m)] } } }) ∧
      (∀ i n p, pick = some (i, some n) → pathOf s.dev n = some p →
        (pTssize p.desc < need p → exec (.tidalMessageHandoff site m) s = .next { s with dev := d1 }) ∧
        (need p ≤ pTssize p.desc → ∃ d', exec (.tidalMessageHandoff site m) s = .next { s with dev := d' } ∧
          stored s.dev d' n p ∧ d'.sluice.out = out.erase (site.toNat, m)))) ∧
    (∀ (i : BitVec 3),
      let own := List.find? (fun (e : Nat × TPath) => e.2.st ≠ .undeclared && pPartner e.2.desc = site.toNat && pId e.2.desc = i.toNat)
        s.dev.tidal.paths
      (own = none → exec (.tidalMessageHandoff site m (some i)) s = .next s) ∧
      ∀ e p, own = some e → pathOf s.dev e.1 = some p →
        (pTssize p.desc < need p → exec (.tidalMessageHandoff site m (some i)) s = .next s) ∧
        (need p ≤ pTssize p.desc → ∃ d', exec (.tidalMessageHandoff site m (some i)) s = .next { s with dev := d' } ∧
          stored s.dev d' e.1 p ∧ d'.sluice.out = out))) ∧
  (∀ (d : Dev) (site : Nat), (∀ i, i < 8 → pathGw d site i = none) →
    upAll d site (List.range 8) = (d, (List.range 8).filterMap fun i =>
      ((List.find? (fun (e : Nat × TPath) => e.2.st ≠ .undeclared && pPartner e.2.desc = site && pId e.2.desc = i) d.tidal.paths).filter
        fun e => e.2.st = .up || e.2.st = .holdoff).map fun e => (i, some e.1)))) ∧
  (
  (∀ (n : Fin 512) (mtu : W32) (s : State) (p : TPath), pathOf s.dev n.val = some p →
    (9000 ≤ mtu.toNat → exec (.packetTooBigRx n mtu) s = .next s) ∧
    (mtu.toNat < 9000 →
      let x := s.dev.tidal
      let d := { s.dev with tidal := { x with paths := NMap.insert x.paths n.val { p with st := .down, tooBig := true } } }
      let which := pPartner p.desc <<< 128 + pId p.desc <<< 136 + pPort p.desc <<< 139
      exec (.packetTooBigRx n mtu) s = .next { s with dev := fedNotice d 0x0711 which })) ∧
  (∀ (port : BitVec 1) (a : BitVec 128) (s : State),
    let on := blkSt s.dev 2 port.toNat = .on
    let own := ∃ e ∈ (s.dev.tidal.paths : List (Nat × TPath)), e.2.st ≠ .undeclared ∧ pPort e.2.desc = port.toNat ∧ pLaddr e.2.desc = a
    let counted (d : Dev) := count d 5 0 0x802 1 (some d.sluice.polder)
    let x := s.dev.tidal
    (¬ on → exec (.neighbourSolicitationRx port a) s = .next s ∧ exec (.tidalPacketDiscard port) s = .next s) ∧
    (on → own → exec (.neighbourSolicitationRx port a) s = .next { s with
      dev := { s.dev with tidal := { x with replies := x.replies ++ [(false, port, a)] } } }) ∧
    (on → ¬ own → exec (.neighbourSolicitationRx port a) s = .next { s with dev := counted s.dev }) ∧
    (on → exec (.tidalPacketDiscard port) s = .next { s with dev := counted s.dev }) ∧
    (on → ∃ d' n, exec (.echoRequestRx port a) s = .next { s with dev := d' } ∧ x.tick ≤ d'.tidal.tick ∧
      let sec := d'.tidal.tick / 1525879
      (n = if (NMap.get x.echoes (0, 0) port.toNat).1 = sec then (NMap.get x.echoes (0, 0) port.toNat).2 else 0) ∧
      (own ∧ n < 64 → d'.tidal.replies = x.replies ++ [(true, port, a)] ∧ NMap.find? d'.tidal.echoes port.toNat = some (sec, n + 1)) ∧
      (¬ (own ∧ n < 64) → d'.tidal.replies = x.replies ∧ d'.tidal.echoes = x.echoes)) ∧
    (on → ∃ d', exec (.tidalLinkLoss port) s = .next { s with dev := d' } ∧ blkSt d' 2 port.toNat = .starting ∧
      (∀ n p, pathOf d' n = some p → pPort p.desc = port.toNat → p.st = .down) ∧
      (∀ n p, pathOf s.dev n = some p → pPort p.desc ≠ port.toNat → pathOf d' n = some p) ∧
      d' = { s.dev with blocks := d'.blocks, tidal := { x with paths := d'.tidal.paths } }) ∧
    (blkSt s.dev 2 port.toNat = .starting →
      exec (.tidalRetrainTimeout port) s = .next { s with dev := notice s.dev 6 none 0 (port.toNat <<< 96 + 1 <<< 100) } ∧
      ∃ d', exec (.tidalLinkRestored port) s = .next { s with dev := d' } ∧ blkSt d' 2 port.toNat = .on ∧
        (∀ k i, k * 256 + i ≠ 2 * 256 + port.toNat → blkSt d' k i = blkSt s.dev k i) ∧
        d' = { s.dev with blocks := d'.blocks, reeve := { s.dev.reeve with boxes := d'.reeve.boxes } }) ∧
    (blkSt s.dev 2 port.toNat ≠ .starting → exec (.tidalRetrainTimeout port) s = .next s ∧ exec (.tidalLinkRestored port) s = .next s)))

/-! ### Fabric and links (files 10, 11 and 13) -/

/-- R23, R253 to R257, R260, R460, R493: a WRITE or READ for this device meets its checks in order: header fields (UNDELIVERED,
0x0124), the packet's CRC (0x0127 in its answer), a reset domain (ABSORBED, 0x0B01), the tile of a scratchpad address (0x0124),
the polder of its job (UNDELIVERED, 0x0125), the tile's presence (UNDELIVERED, 0x0403), windows and memory's presence (the status
in its answer). A WRITE that passes stores its payload, and nothing else where the words are in no error, moves the count lines it
covers, and is answered by WRITE_ACK, with 0x0310 when it carried poison; a READ is answered by READ_DATA with the bytes, or the
status of memory. R253, R255, R256, R272, R284, R286, R459: an answer with a malformed header is returned UNDELIVERED with 0x0124.
Any other takes the request it answers off the list, and held flows that waited for it go on; its status is 0x0127 when its CRC is
bad. Good data of a READ are kept with the operation; a bad status or poison (0x0310) is the operation's first bad answer, a
WRITE's bytes among its lost writes; a router operation keeps the lost read. A RED_ACK, ABSORBED or UNDELIVERED of a reduction
packet acts on its collective: a good answer of an open opens the stream to that device, a bad one fails the chunks sent there,
and a bad answer of data fails its chunk. An answer to an abandoned request, or to none, has no other effect. -/
def Obligations.FabricPackets : Prop :=
  (
  ∀ (p : Packet) (s : State),
    let d := s.dev
    let h := p.hdr
    let answered (kind : Nat) (c : Code) (bs : List Byte) (d' : Dev) (out : Out) : Prop := out = .next { s with dev := sendAnswer d' h kind c bs }
    (∀ i ak, (forMe d p 0 = true ∧ i = Instr.writeRx p ∧ ak = 3) ∨ (forMe d p 1 = true ∧ i = Instr.readRx p ∧ ak = 2) →
      let tileOk := hTgt h = 0 → hAddr h / 2 ^ 20 = hDstTile h
      (hOk h = false → answered 7 0x0124 [] d (exec i s)) ∧
      (hOk h = true → pcrcOk p = false → answered ak 0x0127 [] d (exec i s)) ∧
      (hOk h = true → pcrcOk p = true → absorbs d h = true → answered 6 0x0B01 [] d (exec i s)) ∧
      (hOk h = true → pcrcOk p = true → absorbs d h = false → ¬ tileOk → answered 7 0x0124 [] d (exec i s)) ∧
      (hOk h = true → pcrcOk p = true → absorbs d h = false → tileOk → polderOfJob d (hJob h) = none → answered 7 0x0125 [] d (exec i s)) ∧
      ∀ pn x, hOk h = true → pcrcOk p = true → absorbs d h = false → tileOk → polderOfJob d (hJob h) = some (pn, x) →
        (absentIn d (hAddr h) (if ak = 3 then p.payload.length else 8 * hLen h) = true → answered 7 0x0403 [] d (exec i s)) ∧
        (absentIn d (hAddr h) (if ak = 3 then p.payload.length else 8 * hLen h) = false →
        (∀ c, i = .writeRx p → addrErr d x (hAddr h) p.payload.length = some c → answered 3 c [] d (exec i s)) ∧
        (i = .writeRx p → addrErr d x (hAddr h) p.payload.length = none → ∃ d1,
          (Clean d (hAddr h) p.payload.length → Stored d (hAddr h) p.payload d1) ∧ OnlyMem d d1 ∧
          answered 3 (if p.poison = [] then 0 else 0x0310) []
            (p.poison.foldl (fun d w => poisonWord d (hAddr h + 8 * w)) (watchLines d1 pn (hAddr h) p.payload)) (exec i s)) ∧
        (∀ c, i = .readRx p → ctrsOk d x (hAddr h) (8 * hLen h) = false → addrErr d x (hAddr h) (8 * hLen h) = some c →
          answered 2 c [] d (exec i s)) ∧
        (i = .readRx p → ctrsOk d x (hAddr h) (8 * hLen h) = false → addrErr d x (hAddr h) (8 * hLen h) = none →
          (Clean d (hAddr h) (8 * hLen h) → answered 2 0 (bytesAt d (hAddr h) (8 * hLen h)) d (exec i s)) ∧
          ∃ d1 c bs, OnlyMem d d1 ∧ answered 2 c bs d1 (exec i s) ∧ c ∈ [(0 : Code), 0x0310, 0x0311]) ∧
        (i = .readRx p → ctrsOk d x (hAddr h) (8 * hLen h) = true →
          let r := ctrRead d (some pn) (hAddr h) (8 * hLen h)
          answered 2 0 r.2 r.1 (exec i s))))) ∧
  (
  ∀ (p : Packet) (s : State),
    let h := p.hdr
    let rows : List (Instr × Nat × List Nat) :=
      [(.readDataRx p, 2, [1]), (.writeAckRx p, 3, [0]), (.redAckRx p, 5, [4]), (.absorbedRx p, 6, [0, 1, 4]), (.undeliveredRx p, 7, [0, 1, 4])]
    ∀ r ∈ rows, forMe s.dev p r.2.1 = true →
      (hOk h = false → exec r.1 s = .next { s with dev := sendAnswer s.dev h 7 0x0124 [] }) ∧
      (hOk h = true →
      let asked := (s.dev.fabric.reqs.find? (answers h r.2.2)).or (s.dev.fabric.reqs.find? (answersLost h r.2.2))
      (asked = none → exec r.1 s = .next s) ∧
      ∀ q, asked = some q →
        let d0 : Dev := { s.dev with fabric := { s.dev.fabric with reqs := s.dev.fabric.reqs.erase q } }
        let d1 := releaseFlows d0
        let t := q.tag.toNat / 32
        let c : Code := if pcrcOk p = true then BitVec.ofNat 16 (hAddr h % 2 ^ 16) else 0x0127
        let bad (c : Code) : Dev :=
          match engineOfSlot d1 t (q.tag.toNat % 32) with
          | none => d1
          | some e => onRun d1 t e fun x =>
              if q.kind = 1 ∧ e = .router then { x with lostReads := x.lostReads ++ [(q.dev.toNat, q.addr, q.len, c)] }
              else { x with
                bad := x.bad.or (some c)
                lostWrites := if q.kind = 0 then x.lostWrites ++ [(q.dev.toNat, q.addr, q.len)] else x.lostWrites }
        (q.abandoned = true → exec r.1 s = .next { s with dev := releaseFlows (unquarantine d0 q.tag) }) ∧
        (q.abandoned = false → q.kind = 1 → r.2.1 = 2 →
          (c ≠ 0 → exec r.1 s = .next { s with dev := bad c }) ∧
          (c = 0 → p.poison ≠ [] → exec r.1 s = .next { s with dev := bad 0x0310 }) ∧
          (c = 0 → p.poison = [] → ∃ keep : NMap Byte → NMap Byte,
            exec r.1 s = .next { s with dev := onTagged d1 q.tag fun x => { x with fetched := keep x.fetched } } ∧
            ∀ m k, NMap.find? (keep m) k = if fkey q.dev.toNat q.addr ≤ k ∧ k < fkey q.dev.toNat q.addr + p.payload.length
              then p.payload[k - fkey q.dev.toNat q.addr]? else NMap.find? m k)) ∧
        (q.abandoned = false → q.kind = 0 → r.2.1 = 3 → exec r.1 s = .next { s with dev := if c = 0 then d1 else bad c }) ∧
        (q.abandoned = false → q.kind < 2 → r.2.1 = 6 ∨ r.2.1 = 7 → exec r.1 s = .next { s with dev := bad c }) ∧
        (q.abandoned = false → q.kind = 4 → 5 ≤ r.2.1 → ∀ x, liveRun d1 t = some x → opTag t x.q.slot = q.tag →
          let cx := rCx d1 t x
          let n := entryOf d1 cx q.dev.toNat (hChunk h)
          let opens := q.no = 0xFE ∧ q.len = 0
          let d2 := { d1 with coll := { d1.coll with openOk := d1.coll.openOk ++ [(cx.job, rColl cx.x, q.addr, q.dev.toNat)] } }
          (opens → c = 0 → exec r.1 s = .next { s with dev := collPump d2 t }) ∧
          (opens → c ≠ 0 → exec r.1 s = .next { s with dev := collPump (openFailed d1 t cx q.addr q.dev.toNat c) t }) ∧
          (¬ opens → cx.op = 4 → q.addr = 6 → c = 0x0507 →
            exec r.1 s = .next { s with dev := collPump (onRst d1 t fun y => { y with refOut := n :: y.refOut }) t }) ∧
          (¬ opens → c ≠ 0 → cx.op ≠ 4 ∨ q.addr ≠ 6 ∨ c ≠ 0x0507 →
            exec r.1 s = .next { s with dev := collPump (failChunk d1 t n (codeOf c).1 (codeOf c).2) t }) ∧
          (¬ opens → c = 0 → cx.op ≠ 4 ∨ q.addr ≠ 6 → exec r.1 s = .next { s with dev := collPump d1 t }))))

/-- R272 to R275, R283, R284: reduction packets. Each meets the checks of every request, and one of an aborted collective is
answered 0x0511. Before the local operation runs, data of a stream go into its staging, unless that holds its number of chunks,
and count as progress, a fail mark is kept, and each is answered; an open is answered once the stream holds a context or basin
room, and else waits (that a stream opened early has room for some descriptor's chunk and depth is the model's reading, log entry
64). When room frees, the oldest stream for which it is enough takes it and its opens are answered. A chunk whose packets are
answered completes. A stream without progress for the limit raises a notice of kind 3 and waits for as many tides again. R325,
R468, R469: at a tide boundary of a block every budget is the owner's and class's share of the block's units, less the deficit it
carried, which C0 alone does not carry; a levee egress then sends what its new budgets allow, and at the first port's boundary
every stream counts one tide without progress. A count line takes the count unless it lies behind the one held or runs past what
is possible, which is counted, and posts the count held. -/
def Obligations.StreamsAndTides : Prop :=
  (
  (∀ (p : Packet) (s : State), forMe s.dev p 4 = true →
    let d := s.dev
    let h := p.hdr
    let phase := hAddr h / 2 ^ 40
    let i := if hLen h = 0 ∧ hPidx h = 0xFE then Instr.redOpenRx p else if hLen h = 0 ∧ hPidx h = 0xFF then .failMarkRx p else .redDataRx p
    (∀ e, arrive d p = .error e → exec i s = .next { s with dev := sendAnswer d h e.1 e.2 [] }) ∧
    (∀ x, arrive d p = .ok x → (hJob h, hStream h) ∈ d.coll.aborted → exec i s = .next { s with dev := sendAnswer d h 5 0x0511 [] }) ∧
    (∀ x, arrive d p = .ok x → (hJob h, hStream h) ∉ d.coll.aborted → collTile d (hJob h) (hStream h) = none →
      (i = .redDataRx p → phase ≠ 6 → phase ≠ 8 → streamOf d (hJob h) (hStream h) phase = none →
        exec i s = .next { s with dev := sendAnswer d h 5 0 [] }) ∧
      (∀ w, i = .redDataRx p → phase ≠ 6 → phase ≠ 8 → streamOf d (hJob h) (hStream h) phase = some w →
        let g : Staged := ⟨(hSrcDev h).toNat, hChunk h, hAddr h % 2 ^ 40, hPidx h, p.payload, decide (p.poison ≠ [])⟩
        let d1 := onStream d (hJob h) (hStream h) phase fun y => { y with staged := y.staged ++ [g], quiet := 0, noted := 0 }
        (stageRoom w (hSrcDev h).toNat (hChunk h) = true →
          exec i s = .next { s with dev := sendAnswer d1 h 5 (if p.poison = [] then 0 else 0x0310) [] }) ∧
        (stageRoom w (hSrcDev h).toNat (hChunk h) = false → exec i s = .next { s with dev := { d with coll := { d.coll with asks := d.coll.asks ++ [p] } } })) ∧
      (i = .redDataRx p → phase = 6 ∨ phase = 8 → exec i s = .next { s with dev := { d with coll := { d.coll with asks := d.coll.asks ++ [p] } } }) ∧
      (i = .failMarkRx p → phase < 6 →
        let d1 := onStream (sendAnswer (openEarly d x.1 (hJob h) (hStream h) phase) h 5 0 []) (hJob h) (hStream h) phase fun y => { y with fails := y.fails ++ [hChunk h] }
        exec i s = .next { s with dev := d1 }) ∧
      (∀ w, i = .redOpenRx p → streamOf d (hJob h) (hStream h) phase = some w →
        (w.ctx ≠ none ∨ w.spill ≠ none → exec i s = .next { s with dev := sendAnswer d h 5 0 [] }) ∧
        (w.ctx = none → w.spill = none → exec i s = .next { s with dev := { d with coll := { d.coll with opens := d.coll.opens ++ [p] } } })) ∧
      (i = .redOpenRx p → streamOf d (hJob h) (hStream h) phase = none →
        ∃ k deep slow, k ≤ 4 ∧ 1 ≤ deep ∧ deep ≤ 8 ∧
        let w0 : Stream := { job := hJob h, coll := hStream h, phase := phase, polder := x.1, units := 2 * (4096 * 2 ^ k) * deep, deep := deep, slow := slow }
        let w := placeStream { d with free := d.free + 1 } w0
        let d1 := { w.1 with coll := { w.1.coll with streams := w.1.coll.streams ++ [w.2] } }
        (w.2.ready = true → exec i s = .next { s with dev := sendAnswer d1 h 5 0 [] }) ∧
        (w.2.ready = false → exec i s = .next { s with dev := { d1 with coll := { d1.coll with opens := d1.coll.opens ++ [p] } } })))) ∧
  (∀ (s : State),
    ((∀ w ∈ s.dev.coll.streams, w.ctx ≠ none ∨ w.spill ≠ none ∨ (placeStream s.dev w).2.ready = false) → exec .streamRoomGrant s = .next s) ∧
    (∀ w, (s.dev.coll.streams.find? fun w => w.ctx = none && w.spill = none && (placeStream s.dev w).2.ready) = some w → collTile s.dev w.job w.coll = none →
      ∃ d', exec .streamRoomGrant s = .next { s with dev := d' } ∧
        (∀ y, streamOf s.dev w.job w.coll w.phase = some y → streamOf d' w.job w.coll w.phase = some (placeStream s.dev w).2) ∧
        d'.coll.opens = s.dev.coll.opens.filter fun p => ¬ (hJob p.hdr = w.job ∧ hStream p.hdr = w.coll ∧ hAddr p.hdr / 2 ^ 40 = w.phase))) ∧
  (∀ (job coll : BitVec 16) (phase : Fin 6) (chunk : BitVec 24) (s : State),
    (completable s.dev job coll phase.val chunk.toNat = none → exec (.chunkComplete job coll phase chunk) s = .next s) ∧
    (∀ t r c, completable s.dev job coll phase.val chunk.toNat = some (t, r, c) →
      (runOf s.dev t .blocker = none → basinAdmits s.dev t c r phase.val chunk.toNat = some s.dev) ∧
      (basinAdmits s.dev t c r phase.val chunk.toNat = none → exec (.chunkComplete job coll phase chunk) s = .next s) ∧
      (∀ d0, basinAdmits s.dev t c r phase.val chunk.toNat = some d0 →
        ∃ d1, exec (.chunkComplete job coll phase chunk) s = .next { s with dev := collPump d1 t } ∧
          (rst d1 t).done = ckey phase.val chunk.toNat :: (rst s.dev t).done ∧
          (∀ w, streamOf s.dev job coll phase.val = some w → streamOf d1 job coll phase.val = some { w with quiet := 0, noted := 0 })))) ∧
  (∀ (job coll : BitVec 16) (phase : Fin 6) (s : State) (w : Stream), streamOf s.dev job coll phase.val = some w →
    let slow := w.slow
    (slow = 0 ∨ w.quiet < w.noted + slow → exec (.slowMemberNotice job coll phase) s = .next s) ∧
    (0 < slow → w.noted + slow ≤ w.quiet → ∃ d1 info, info / 2 ^ 96 % 2 ^ 16 = coll.toNat ∧
      exec (.slowMemberNotice job coll phase) s = .next { s with dev := notice d1 3 (some w.polder) 0 info } ∧
      d1 = onStream s.dev job coll phase.val fun y => { y with noted := y.noted + slow }))) ∧
  (
  (∀ (b : MeterId) (s : State) (o k : Nat), o < 17 → k < 8 →
    let m := newTide s.dev b (meterOf s.dev b)
    let old := NMap.get (meterOf s.dev b).budget 0 (o * 8 + k)
    let share := shareAt s.dev b o k
    NMap.get m.budget 0 (o * 8 + k) = (tideUnits s.dev b * share.1 / share.2 : Nat) + (if o = 16 ∧ k = 0 then 0 else min 0 old) ∧
    (∀ d1, d1 = { s.dev with meters := (b, m) :: s.dev.meters.filter fun e => e.1 ≠ b } →
      ((∀ n, b ≠ .levee n) → exec (.tideBoundary b) s = .next { s with dev := d1 }) ∧
      (∀ n, b = .levee n → n ≠ 0 → exec (.tideBoundary b) s = .next { s with dev := pump d1 n.toNat }) ∧
      (b = .levee 0 → exec (.tideBoundary b) s = .next { s with dev := pump (routerTide d1) 0 } ∧
        (routerTide d1).coll.streams = s.dev.coll.streams.map fun w => { w with quiet := w.quiet + 1 }))) ∧
  (∀ (pn : PolderNo) (qid : BitVec 3) (n : W32) (s : State) (x : Polder) (q : StageQ),
    polderOf s.dev pn = some x → NMap.find? x.queues qid.toNat = some q →
    let d1 := (memWrite s.dev { polder := some pn } q.line (toBytes 4 n.toNat)).1
    let put (d : Dev) (q' : StageQ) : Dev := { d with polders := NMap.insert d.polders pn.toNat { x with queues := NMap.insert x.queues qid.toNat q' } }
    let posted (d : Dev) (c : W32) : Dev := postSumm d q.tile q.sreg 7 c.toNat false false
    let row := exec (.countLineWrite pn qid n) s
    (q.role = true → behind 32 n.toNat q.c.toNat = true → row = .next { s with dev := posted (put d1 q) q.c }) ∧
    (q.role = true → behind 32 n.toNat q.c.toNat = false → (n - q.c).toNat ≤ q.nslot → row = .next { s with dev := posted (put d1 { q with c := n }) n }) ∧
    (q.role = true → behind 32 n.toNat q.c.toNat = false → q.nslot < (n - q.c).toNat →
      row = .next { s with dev := posted (count (put d1 q) 4 0 0x71F 1 (some pn)) q.c }) ∧
    (q.role = false → behind 32 n.toNat q.f.toNat = true → row = .next { s with dev := posted (put d1 q) q.f }) ∧
    (q.role = false → behind 32 n.toNat q.f.toNat = false → behind 32 q.c.toNat n.toNat = false →
      row = .next { s with dev := posted (put d1 { q with f := n }) n }) ∧
    (q.role = false → behind 32 n.toNat q.f.toNat = false → behind 32 q.c.toNat n.toNat = true →
      row = .next { s with dev := posted (count (put d1 q) 4 0 0x71F 1 (some pn)) q.f })))

/-- R232, R233, R235, R244, R246 to R253, R260, R463: on a port whose link delivers words, a lead on a reserved channel is an
uncorrectable codeword, and a packet whose lseq is not the one expected changes no port; the expected one advances the count, asks
for an acknowledgement and writes its header, rebuilt from the slot for a short lead, into the slot. Poison is noted in the
router's error ring. Addressed here it is delivered and its flits are freed; with bad fields it returns UNDELIVERED with 0x0124;
with no way on it is lost when it is an answer, and returns with 0x0126 otherwise; any other goes on by the routing of R246 to
R250. One whose stored header is lost is noted and returned with 0x0310 by its return word, in a class that is open (log entry
64), or dropped when that is lost too. Behind a handover lead a packet whose old number the failed port had accepted is discarded,
its flits freed. R232, R234, R235: a good control word takes the acknowledged packets out of the replay buffer, sets the credits
told on its channel, and with nak resends what is left, in order; then the port sends what it may. A word with a reserved type or
field is an uncorrectable codeword: the port discards to the next trusted lead and sends nak with the lseq it expects, and the
event is counted. The timer of a channel with something unreported sends a control word with the lseq expected and the flits
freed. -/
def Obligations.LinkPackets : Prop :=
  (
  (∀ (n : PortNo) (vc : BitVec 3) (lseq : BitVec 12) (slot : BitVec 6) (short : Bool) (k : Packet) (lost : Option Bool) (s : State),
    linkUp s.dev n.toNat = true →
    let p := portOf s.dev n.toNat
    let out := exec (.packetTransit n vc lseq slot short k lost) s
    (6 ≤ vc.toNat → out = exec (.linkCodewordUncorrectable n) s) ∧
    (vc.toNat < 6 → lseq ≠ p.rxSeq → ∃ d', out = .next { s with dev := d' } ∧ (∀ m, portOf d' m = portOf s.dev m) ∧
      d' = { s.dev with fabric := { s.dev.fabric with ports := d'.fabric.ports } }) ∧
    (vc.toNat < 6 → lseq = p.rxSeq →
      let old := NMap.get p.rxCache 0 (vc.toNat * 64 + slot.toNat)
      let h := if short then shortHdr old (hLen k.hdr) (hPcrc k.hdr) else k.hdr
      let q := { p with rxSeq := p.rxSeq + 1, resync := false, ackDue := true, rxCache := NMap.insert p.rxCache (vc.toNat * 64 + slot.toNat) h }
      let d1 := onPort s.dev n.toNat fun _ => q
      let noted (d : Dev) : Prop := ∃ r, fld r 50 48 = 3 ∧ d = { d1 with fabric := { d1.fabric with elog := elogAdd d1.fabric.elog r } }
      let free (d : Dev) : Dev := if d.fabric.stopped then d else onPort d n.toNat fun p => freeFlits p vc.toNat (flits k)
      let way : Option Nat × Bool := (if p.dir.toNat < 6 then some (p.dir.toNat / 2) else none, vc.toNat % 2 = 1)
      (lost = none → ∃ d2, (k.poison = [] → d2 = d1) ∧ (k.poison ≠ [] → noted d2) ∧
        (hOk h = false → out = .next { s with dev := sendAnswer (free d2) h 7 0x0124 [] }) ∧
        (hOk h = true → (hDstDev h).toNat = selfId s.dev → out = .next { s with dev := free d2 }) ∧
        (∀ m v, hOk h = true → nextHop d2 h way.1 way.2 = .via m v →
          out = .next { s with dev := toPort d2 m v { k with hdr := h } (some (n.toNat, vc.toNat)) way }) ∧
        (hOk h = true → nextHop d2 h way.1 way.2 = .nowhere →
          (isRequest (hKind h) = false ∨ (hSrcDev h).toNat = selfId s.dev → out = .next { s with dev := free d2 }) ∧
          (isRequest (hKind h) = true → (hSrcDev h).toNat ≠ selfId s.dev → out = .next { s with dev := sendAnswer (free d2) h 7 0x0126 [] }))) ∧
      (∀ b, lost = some b → ∃ d2, noted d2 ∧
        (b = true → out = .next { s with dev := free d2 }) ∧
        (b = false → ∃ c, 1 ≤ c ∧ c ≤ 7 ∧
          let d3 := count (free d2) 4 0 0x720 1 none
          let back := mkHdr { dstDev := (hSrcDev h).toNat, dstTile := hSrcTile h, cls := c, ord := false, kind := 7, tgt := 0,
                              tag := (hTag h).toNat, job := (hJob h).toNat, srcDev := selfId s.dev, srcTile := 0, addr := 0x0310 } []
          out = .next { s with dev := (route { d3 with free := d3.free + 1 } ⟨back, [], []⟩ none false).1 })))) ∧
  ∀ (n : PortNo) (w : W64) (k : Packet) (s : State), linkUp s.dev n.toNat = true →
    let out := exec (.handoverLeadRx n w k) s
    (handoverOk w = false → out = exec (.linkCodewordUncorrectable n) s) ∧
    ∀ m, handoverOk w = true → farEnd s.dev n.toNat (fld w 47 44) = some m →
      let d := peerTakes s.dev n.toNat m
      ((portOf s.dev m).peerOver = true → d = s.dev) ∧
      (fld w 31 20 = (portOf d n.toNat).rxSeq.toNat → ∃ q,
        let d1 := onPort d n.toNat fun _ => q
        q.rxSeq = (portOf d n.toNat).rxSeq + 1 ∧ q.ackDue = true ∧
        (behind 12 (fld w 43 32) (portOf d m).rxSeq.toNat = true →
          out = .next { s with dev := if d1.fabric.stopped then d1 else onPort d1 n.toNat fun p => freeFlits p (fld w 6 4) (flits k) }) ∧
        (behind 12 (fld w 43 32) (portOf d m).rxSeq.toNat = false → m ≠ n.toNat →
          let d2 := onPort d1 m fun p => { p with rxSeq := BitVec.ofNat 12 (fld w 43 32 + 1) }
          out = .next { s with dev := takeOn d2 n.toNat (fld w 6 4) k none }))) ∧
  (
  ∀ (n : PortNo) (s : State),
    let p := portOf s.dev n.toNat
    let bad (d : Dev) : Dev := count (count (onPort d n.toNat fun p => { p with
      reported := NMap.set p.reported 0 0 (NMap.get p.freed 0 0), ackDue := false, resync := true, uncorr := p.uncorr + 1
      sent := p.sent ++ [controlWord 0 p.rxSeq.toNat true (NMap.get p.freed 0 0)] }) 4 0 0x71A 1 none) 4 0 0x719 1 none
    (linkUp s.dev n.toNat = true → exec (.linkCodewordUncorrectable n) s = .next { s with dev := bad s.dev }) ∧
    (∀ w, linkUp s.dev n.toNat = true → controlOk w = false → exec (.linkControlWordRx n w) s = .next { s with dev := bad s.dev }) ∧
    (∀ w, linkUp s.dev n.toNat = true → controlOk w = true →
      let vc := fld w 6 4
      let told := NMap.get p.told 0 vc
      let q := { p with
        replay := p.replay.filter fun r => ! behind 12 r.lseq.toNat (fld w 19 8)
        told := NMap.set p.told 0 vc (min (told + (fld w 47 32 + 2 ^ 16 - told % 2 ^ 16) % 2 ^ 16) (NMap.get p.taken 0 vc)) }
      exec (.linkControlWordRx n w) s = .next { s with dev := pump (onPort s.dev n.toNat fun _ =>
        if w.getLsbD 20 then q.replay.foldl linkResend q else q) n.toNat }) ∧
    (∀ vc : BitVec 3,
      let due := linkUp s.dev n.toNat = true ∧ vc.toNat < 6 ∧ (p.ackDue = true ∨ NMap.get p.freed 0 vc.toNat ≠ NMap.get p.reported 0 vc.toNat)
      (due → exec (.linkControlTimer n vc) s = .next { s with dev := onPort s.dev n.toNat fun p => { p with
        reported := NMap.set p.reported 0 vc.toNat (NMap.get p.freed 0 vc.toNat), ackDue := false
        sent := p.sent ++ [controlWord vc.toNat p.rxSeq.toNat false (NMap.get p.freed 0 vc.toNat)] } }) ∧
      (¬ due → exec (.linkControlTimer n vc) s = .next s)))

/-- R238, R239, R242, R243, R245, R249: a port of the fabric that loses a lane goes from ON to STARTING and nothing else happens;
training that finds enough lanes and a neighbour in the standard wiring brings it ON at that width, facing it (a spare stands by);
on too few lanes a retraining port that held nothing is failed and OFF, and a miswired one is OFF with the neighbour it found. A
returned neighbour brings a cabled port that is OFF back in the same way, or leaves it OFF. An Ixrad link does not retrain here.
Eight good lanes give the full width with no lane replaced. -/
def Obligations.LinkTraining : Prop :=
  (∀ (n : PortNo) (s : State),
    (portSt s.dev n.toNat = .on → (portOf s.dev n.toNat).dir ≠ 7 → ∃ d', exec (.leveeRetrainStart n) s = .next { s with dev := d' } ∧ portSt d' n.toNat = .starting ∧
      d' = { s.dev with blocks := d'.blocks, counters := d'.counters }) ∧
    (portSt s.dev n.toNat ≠ .on ∨ (portOf s.dev n.toNat).dir = 7 → exec (.leveeRetrainStart n) s = .next s)) ∧
  (∀ (n : PortNo) (f : PortTrain) (s : State) (i : Instr),
    (i = .leveeRetrainEnd n f ∧ portSt s.dev n.toNat = .starting ∧ (portOf s.dev n.toNat).dir ≠ 7 ∧ (∀ e ∈ s.dev.blocks.waitStart, e.2 ≠ 256 + n.toNat)) ∨
      (i = .leveeNeighbourTraining n f ∧ portSt s.dev n.toNat = .off ∧ (portOf s.dev n.toNat).cabled = true ∧ (portOf s.dev n.toNat).dir ≠ 7) →
    (∀ w sub nbr m dir, trainWidth f.lanes = some (w, sub) → f.nbr = some (nbr, m) → portDir s.dev n.toNat nbr.toNat = some dir →
      ∃ d', exec i s = .next { s with dev := d' } ∧ portSt d' n.toNat = .on ∧
        let p := portOf d' n.toNat
        p.width = BitVec.ofNat 2 w ∧ p.sublane = BitVec.ofNat 4 sub ∧ p.lanes = f.lanes ∧ p.nbr = nbr ∧ p.nbrPort = m ∧ p.failed = false ∧
        p.dir = BitVec.ofNat 4 (if 12 ≤ n.toNat ∧ (portOf s.dev n.toNat).took = none then 6 else dir)) ∧
    (¬ (∃ w nbr m dir, trainWidth f.lanes = some w ∧ f.nbr = some (nbr, m) ∧ portDir s.dev n.toNat nbr.toNat = some dir) →
      (i = .leveeRetrainEnd n f → (portOf s.dev n.toNat).queue = [] ∧ (portOf s.dev n.toNat).replay = [] ∧ (portOf s.dev n.toNat).hand = []) →
      ∃ d', exec i s = .next { s with dev := d' } ∧ portSt d' n.toNat = .off ∧
        let p := portOf d' n.toNat
        (miswired s.dev n.toNat f = true → p.failed = false ∧ ∀ g, f.nbr = some g → p.nbr = g.1 ∧ p.nbrPort = g.2) ∧
        (i = .leveeRetrainEnd n f → miswired s.dev n.toNat f = false → p.failed = true))) ∧
  (∀ lanes : BitVec 9, (∀ k, k < 8 → lanes.getLsbD k = true) → trainWidth lanes = some (3, 15))

/-- R249, R253, R256, R432, R433: a management packet with a malformed header is returned UNDELIVERED with 0x0124; a request whose
CRC is bad is answered with 0x0127 and changes nothing. A whole management packet for this reeve is served. A BREAK with a body of
its form enters its break in the table of its ring, or marks the ring severed when four are there, and with the clear bit takes
the matching entry out; any other body is answered 0x0124 and changes no table. A PING is answered 0x82, a STATUS 0x83 with the
status block, an unknown request 0x80 with 0x0101. The answer to a request of this device is taken in, another dropped. R13, R17,
R412, R413, R422: a write to MBX_NOTICE sets the enables of its mailbox from its low byte; one to a read-only register of the
front window or of a block, and reserved bits of MBX_GO without go or cancel, are ignored and counted; a write to a reserved
location is counted and changes nothing, and a read of one changes nothing. The bulk aperture reads and writes where a window of a
polder lies, in its name; elsewhere the access is counted and answered with 0x0301. -/
def Obligations.ManagementAndWindows : Prop :=
  (
  ∀ (p : Packet) (s : State), forMe s.dev p 8 = true →
    let d := s.dev
    let row : Instr := if mType p = 1 then .breakRx p else if mType p = 3 then .status p else if mType p < 0x80 then .ping p else .mgmtAnswerRx p
    (hOk p.hdr = false → exec row s = .next { s with dev := sendAnswer d p.hdr 7 0x0124 [] }) ∧
    (hOk p.hdr = true → hTgt p.hdr = 4 → pcrcOk p = false → 8 ≤ p.payload.length → mType p < 0x80 →
      exec row s = .next { s with dev := mgmtAnswer d p.hdr (mType p + 0x80) (leAt p.payload 2 6) 0x0127 [] }) ∧
    (mgmtHere d p = true →
    let b := leAt p.payload 8 16
    let no := leAt p.payload 2 6
    let e : BreakEnt := ⟨b.testBit 7, BitVec.ofNat 20 (bits b 51 32), BitVec.ofNat 20 (bits b 83 64)⟩
    let form := leAt p.payload 1 1 = 0 ∧ p.payload.length = 24 ∧ bits b 1 0 < 3 ∧ bits b 5 2 = 0 ∧ bits b 31 8 = 0 ∧ bits b 63 52 = 0 ∧ bits b 127 84 = 0
    let k := bits b 1 0
    (mType p = 1 → form → b.testBit 6 = false → ∃ d', exec (.breakRx p) s = .next { s with dev := mgmtAnswer d' p.hdr 0x81 no 0 [] } ∧
      (∀ j, breaksOf d' j = if j = k ∧ (breaksOf d k).length < 4 then breaksOf d k ++ [e] else breaksOf d j) ∧
      (4 ≤ (breaksOf d k).length → k ∈ d'.fabric.severed)) ∧
    (mType p = 1 → form → b.testBit 6 = true → ∃ d', exec (.breakRx p) s = .next { s with dev := mgmtAnswer d' p.hdr 0x81 no 0 [] } ∧
      (∀ j, breaksOf d' j = if j = k then (breaksOf d k).eraseP (sameBreak e) else breaksOf d j)) ∧
    (mType p = 1 → ¬ form → exec (.breakRx p) s = .next { s with dev := mgmtAnswer d p.hdr 0x81 no 0x0124 [] }) ∧
    (mType p = 2 → exec (.ping p) s = .next { s with dev := mgmtAnswer d p.hdr 0x82 no 0 [] }) ∧
    (mType p ≠ 1 → mType p ≠ 2 → mType p ≠ 3 → mType p < 0x80 →
      exec (.ping p) s = .next { s with dev := mgmtAnswer d p.hdr 0x80 no 0x0101 [] }) ∧
    (mType p = 3 →
      let block := toBytes 16 (devState d + 2 ^ 32 * devStage d + 2 ^ 64 * almCause s.aon + 2 ^ 96 * devIdent d)
      exec (.status p) s = .next { s with dev := mgmtAnswer d p.hdr 0x83 no 0 block }) ∧
    (0x80 ≤ mType p →
      let g := (BitVec.ofNat 48 no, hSrcDev p.hdr)
      (g ∉ d.reeve.mgmtOut → exec (.mgmtAnswerRx p) s = .next s) ∧
      (g ∈ d.reeve.mgmtOut → exec (.mgmtAnswerRx p) s = .next { s with dev := { d with reeve := { d.reeve with
        mgmtOut := d.reeve.mgmtOut.erase g
        mgmtIn := d.reeve.mgmtIn ++ [(BitVec.ofNat 48 no, BitVec.ofNat 8 (mType p), BitVec.ofNat 16 (hAddr p.hdr), p.payload.drop 8)] } } })))) ∧
  (
  (∀ (a : Addr) (v : W32) (s : State),
    let o := a.toNat
    let en := onMbox s.dev (o / 256) fun b => { b with en := BitVec.ofNat 8 v.toNat }
    (o < 0x4100 → o % 256 = 0xF4 → exec (.registerWrite a v) s = .next { s with dev := if v.toNat < 256 then en else ignoredWrite en }) ∧
    (o < 0x4100 → o % 256 = 0xC4 → v.toNat % 4 = 0 → v ≠ 0 → exec (.registerWrite a v) s = .next { s with dev := ignoredWrite s.dev }) ∧
    (o < 0x10000 → (0x4100 ≤ o ∨ 0xC8 ≤ o % 256) → (0x4100 ≤ o ∨ o % 256 ≠ 0xF4) → frontReserved o = false →
      exec (.registerWrite a v) s = .next { s with dev := ignoredWrite s.dev }) ∧
    (0x10000 ≤ o → ∀ k i, regBlock o = some (k, i) → exec (.registerWrite a v) s = .next { s with dev := count s.dev k i 0x002 1 none })) ∧
  (∀ (o : BitVec 16) (s : State), frontReserved o.toNat = true →
    exec (.frontWindowIgnoredAccess o true) s = .next { s with dev := count s.dev 6 0 0xA02 1 none } ∧
    exec (.frontWindowIgnoredAccess o false) s = .next s) ∧
  (∀ (a : Addr) (s : State) (n : Nat) (bs : List Byte),
    let done (d : Dev) (c : Code) (l : List Byte) : Dev := { d with reeve := { d.reeve with aperture := some (c, l) } }
    (apertureOwner s.dev a.toNat n = none →
      exec (.bulkApertureAccess a none n) s = .next { s with dev := done (count s.dev 6 0 0xA02 1 none) 0x0301 [] }) ∧
    (apertureOwner s.dev a.toNat bs.length = none →
      exec (.bulkApertureAccess a (some bs) n) s = .next { s with dev := done (count s.dev 6 0 0xA02 1 none) 0x0301 [] }) ∧
    (∀ pn, apertureOwner s.dev a.toNat bs.length = some pn → ∃ d1, OnlyMem s.dev d1 ∧
      (Clean s.dev a.toNat bs.length → Stored s.dev a.toNat bs d1) ∧
      exec (.bulkApertureAccess a (some bs) n) s = .next { s with dev := done d1 0 [] }) ∧
    (∀ pn, apertureOwner s.dev a.toNat n = some pn → Clean s.dev a.toNat n →
      exec (.bulkApertureAccess a none n) s = .next { s with dev := done s.dev 0 (bytesAt s.dev a.toNat n) })))

/-- R215 to R219: a scrub read of a word that is present, in memory or in a tile's program or codebook store, goes through the
decoder: a good word stays; one or two bits in error are corrected and recorded as kind 1 or 2; three bits in error, or poison,
leave the word poisoned with its bytes as they were and are recorded as kind 3 or 4, each record marked as a scrub's. A row copy
that ends leaves its row, the oldest of the stack, repaired and records kind 5. R320 and R413: POLDER_DESTROY of a number that
does not exist is refused with 0x0207; of a polder that exists it starts a polder reset; once that has ended the polder and its
allotments are gone and each GiB of its windows is listed as being cleared, one of which each later step zeroes and takes off the
list; the command ends with the last. -/
def Obligations.MemoryAndDestroy : Prop :=
  (
  (∀ (x : ScrubWord) (s : State),
    (scrubPlace s.dev x = none → exec (.scrubRead x) s = .next s) ∧
    (∀ a : Addr, scrubPlace s.dev (.mem a) = match place s.dev (a.toNat / 8 * 8) with | .ok k => some (k, a.toNat / 8 * 8) | .error _ => none) ∧
    (∀ k w, scrubPlace s.dev x = some (k, w) →
      let was := NMap.find? s.dev.mem.ecc (k / 8)
      ∃ d', exec (.scrubRead x) s = .next { s with dev := d' } ∧ OnlyMem s.dev d' ∧
        (was = none → d'.mem.bytes = s.dev.mem.bytes ∧ d'.mem.ecc = s.dev.mem.ecc ∧ d'.mem.elog = s.dev.mem.elog) ∧
        (∀ kind, (∃ pat, was = some (.bad pat) ∧ 1 ≤ popcount 80 pat.toNat ∧ popcount 80 pat.toNat ≤ 3 ∧ kind = popcount 80 pat.toNat) ∨
            (was = some .poison ∧ kind = 4) →
          d'.mem.bytes = s.dev.mem.bytes ∧ NMap.find? d'.mem.ecc (k / 8) = (if kind ≤ 2 then none else some .poison) ∧
          (∀ j, j ≠ k / 8 → NMap.find? d'.mem.ecc j = NMap.find? s.dev.mem.ecc j) ∧
          ∃ r ∈ (NMap.get d'.mem.elog {} (elogSource k)).recs, fld r 50 48 = kind ∧ r.getLsbD 51 = true ∧ fld r 47 0 = w % 2 ^ 48))) ∧
  (∀ (stack : BitVec 4) (s : State),
    let open_ := s.dev.mem.repairs.filter fun r => r.stack = stack.toNat && r.copying
    (open_ = [] → exec (.softRepairCopyEnd stack) s = .next s) ∧
    (∀ r, open_.getLast? = some r → ∃ d', exec (.softRepairCopyEnd stack) s = .next { s with dev := d' } ∧
      d'.mem.repairs = (s.dev.mem.repairs.map fun x => if x = r then { x with copying := false } else x) ∧
      ∃ e rest, (NMap.get d'.mem.elog {} stack.toNat).recs = e :: rest ∧ fld e 50 48 = 5))) ∧
  (
  ∀ (m : MboxNo) (s : State) (c : Cmd), Serves s m.val c → c.cmd = 0x0202 →
    let p := c.word 0
    (c.step = 0 → NMap.find? s.dev.polders p = none → Refused s m.val c 0x0207 (exec (.polderDestroy m) s)) ∧
    (∀ x, c.step = 0 → NMap.find? s.dev.polders p = some x → (∀ j ∈ s.dev.resets, domainsMeet s.dev 2 p j.level j.target = false) →
      StepGives s m.val (startReset s.dev 2 p 10 (some m.val) false) { c with work := some .more, step := 1 } (exec (.polderDestroy m) s)) ∧
    (∀ x u v, 0 < c.step → c.nums = [u, v] → NMap.find? s.dev.polders p = some x → ∃ d1 c1,
      StepGives s m.val d1 c1 (exec (.polderDestroy m) s) ∧ d1.polders = NMap.erase s.dev.polders p ∧
      d1.reeve.clearing = (windowGib x).map (fun a => (a, a + gib)) ++ s.dev.reeve.clearing ∧
      (windowGib x ≠ [] → c1 = { c with nums := 0 :: 0 :: windowGib x, total := (windowGib x).length, work := some .more, step := c.step + 1 })) ∧
    (∀ u v a gs, 0 < c.step → c.nums = u :: v :: a :: gs → ∃ d1 c1, StepGives s m.val d1 c1 (exec (.polderDestroy m) s) ∧
      d1.reeve.clearing = s.dev.reeve.clearing.erase (a, a + gib) ∧
      (∀ b, a ≤ b → b < a + gib → hbmBase ≤ b → byteAt d1 b = 0) ∧
      (∀ b, b < a ∨ a + gib ≤ b → byteAt d1 b = byteAt s.dev b) ∧
      c1 = { c with
        nums := 0 :: 0 :: gs
        work := some (if gs = [] then .over 0 [] else .more)
        step := if gs = [] then c.step else c.step + 1
        done := if gs = [] then c.total else c.done + 1 }))
end

