-- ==== Sys2Proof/Laws/Store.lean ====
section
/-! SUPPORT. What the operations of a sparse table do: an entry written is the entry read, every other entry stays, and the
canonical form is kept. The read and write lemmas need no canonical form. -/

namespace Sys2Proof.Machine.NMap

variable {α : Type}

@[simp] theorem find_nil (a : Nat) : find? ([] : NMap α) a = none := rfl

theorem find_cons (k : Nat) (v : α) (t : NMap α) (a : Nat) :
    find? ((k, v) :: t) a = if a = k then some v else find? t a := rfl

@[simp] theorem find_insert_self (m : NMap α) (a : Nat) (x : α) : find? (insert m a x) a = some x := by
  induction m with
  | nil => simp [insert, find_cons]
  | cons e t ih =>
    obtain ⟨k, v⟩ := e
    by_cases h : a < k
    · simp [insert, h, find_cons]
    · by_cases h' : a = k
      · simp [insert, h', find_cons]
      · simp [insert, h, h', find_cons, ih]

@[simp] theorem find_insert_ne (m : NMap α) {a b : Nat} (x : α) (h : b ≠ a) : find? (insert m a x) b = find? m b := by
  induction m with
  | nil => simp [insert, find_cons, h]
  | cons e t ih =>
    obtain ⟨k, v⟩ := e
    by_cases h1 : a < k
    · simp [insert, h1, find_cons, h]
    · by_cases h2 : a = k
      · subst h2; simp [insert, find_cons, h]
      · simp [insert, h1, h2, find_cons, ih]

@[simp] theorem find_erase_self (m : NMap α) (a : Nat) : find? (erase m a) a = none := by
  induction m with
  | nil => rfl
  | cons e t ih =>
    obtain ⟨k, v⟩ := e
    by_cases h : k = a
    · subst h; simpa [erase] using ih
    · have h' : a ≠ k := fun e => h e.symm
      simp only [erase, ne_eq, h, not_false_eq_true, decide_true, List.filter_cons_of_pos, find_cons, h', if_false]
      simpa [erase] using ih

@[simp] theorem find_erase_ne (m : NMap α) {a b : Nat} (h : b ≠ a) : find? (erase m a) b = find? m b := by
  induction m with
  | nil => rfl
  | cons e t ih =>
    obtain ⟨k, v⟩ := e
    by_cases hk : k = a
    · subst hk; simpa [erase, find_cons, h] using ih
    · have : erase ((k, v) :: t) a = (k, v) :: erase t a := by simp [erase, hk]
      rw [this, find_cons, find_cons, ih]

@[simp] theorem get_nil (d : α) (a : Nat) : get ([] : NMap α) d a = d := rfl

@[simp] theorem get_set_self [DecidableEq α] (m : NMap α) (d : α) (a : Nat) (x : α) : get (set m d a x) d a = x := by
  unfold get set
  split <;> simp_all

@[simp] theorem get_set_ne [DecidableEq α] (m : NMap α) (d d' : α) {a b : Nat} (x : α) (h : b ≠ a) :
    get (set m d' a x) d b = get m d b := by
  unfold get set
  split <;> simp_all

@[simp] theorem get_upd_self [DecidableEq α] (m : NMap α) (d : α) (a : Nat) (f : α → α) : get (upd m d a f) d a = f (get m d a) := by
  simp [upd]

@[simp] theorem get_upd_ne [DecidableEq α] (m : NMap α) (d d' : α) {a b : Nat} (f : α → α) (h : b ≠ a) :
    get (upd m d' a f) d b = get m d b := by
  simp [upd, h]

@[simp] theorem get_insert_self (m : NMap α) (d : α) (a : Nat) (x : α) : get (insert m a x) d a = x := by simp [get]

@[simp] theorem get_insert_ne (m : NMap α) (d : α) {a b : Nat} (x : α) (h : b ≠ a) : get (insert m a x) d b = get m d b := by
  simp [get, h]

@[simp] theorem get_erase_self (m : NMap α) (d : α) (a : Nat) : get (erase m a) d a = d := by simp [get]

@[simp] theorem get_erase_ne (m : NMap α) (d : α) {a b : Nat} (h : b ≠ a) : get (erase m a) d b = get m d b := by simp [get, h]

/-! ### The canonical form -/

/-- Keys strictly rising, no entry equal to the default. -/
theorem wf_iff [DecidableEq α] (m : NMap α) (d : α) :
    wf m d = true ↔ (m.map Prod.fst).Pairwise (· < ·) ∧ ∀ p ∈ m, p.2 ≠ d := by
  simp only [wf, keys, Bool.and_eq_true, List.all_eq_true, decide_eq_true_eq]
  exact and_congr_left fun _ => ⟨of_decide_eq_true, decide_eq_true⟩

theorem wf_filter [DecidableEq α] {m : NMap α} {d : α} (p : Nat × α → Bool) (h : wf m d = true) : wf (m.filter p) d = true := by
  rw [wf_iff] at h ⊢
  refine ⟨h.1.sublist ?_, fun e he => h.2 e (List.mem_of_mem_filter he)⟩
  exact (List.filter_sublist).map Prod.fst

theorem wf_erase [DecidableEq α] {m : NMap α} {d : α} (a : Nat) (h : wf m d = true) : wf (erase m a) d = true := wf_filter _ h

theorem wf_clear [DecidableEq α] {m : NMap α} {d : α} (lo hi : Nat) (h : wf m d = true) : wf (clear m lo hi) d = true := wf_filter _ h

theorem wf_dropKeys [DecidableEq α] {m : NMap α} {d : α} (p : Nat → Bool) (h : wf m d = true) : wf (dropKeys m p) d = true :=
  wf_filter _ h

/-- An inserted key lies among the keys, and no other key is new. -/
theorem mem_insert {m : NMap α} {a : Nat} {x : α} {e : Nat × α} (h : e ∈ insert m a x) : e = (a, x) ∨ e ∈ m := by
  induction m with
  | nil => simpa [insert] using h
  | cons e' t ih =>
    obtain ⟨k, v⟩ := e'
    unfold insert at h
    split at h
    · simpa using h
    · split at h
      · rename_i h2
        rcases List.mem_cons.1 h with h | h
        · subst h2; exact .inl h
        · exact .inr (List.mem_cons_of_mem _ h)
      · rcases List.mem_cons.1 h with h | h
        · exact .inr (h ▸ List.mem_cons_self ..)
        · rcases ih h with h | h
          · exact .inl h
          · exact .inr (List.mem_cons_of_mem _ h)

theorem sorted_insert {m : NMap α} (a : Nat) (x : α) (h : (m.map Prod.fst).Pairwise (· < ·)) :
    ((insert m a x).map Prod.fst).Pairwise (· < ·) := by
  induction m with
  | nil => simp [insert]
  | cons e t ih =>
    obtain ⟨k, v⟩ := e
    simp only [List.map_cons, List.pairwise_cons] at h
    unfold insert
    split
    · rename_i h1
      simp only [List.map_cons, List.pairwise_cons, List.mem_cons, forall_eq_or_imp]
      exact ⟨⟨h1, fun b hb => Nat.lt_trans h1 (h.1 b hb)⟩, h.1, h.2⟩
    · split
      · simp only [List.map_cons, List.pairwise_cons]; exact h
      · rename_i h1 h2
        simp only [List.map_cons, List.pairwise_cons]
        refine ⟨fun b hb => ?_, ih h.2⟩
        obtain ⟨e, he, rfl⟩ := List.mem_map.1 hb
        rcases mem_insert he with rfl | he
        · show k < a; omega
        · exact h.1 _ (List.mem_map_of_mem he)

theorem wf_insert [DecidableEq α] {m : NMap α} {d : α} (a : Nat) {x : α} (hx : x ≠ d) (h : wf m d = true) :
    wf (insert m a x) d = true := by
  rw [wf_iff] at h ⊢
  refine ⟨sorted_insert a x h.1, fun e he => ?_⟩
  rcases mem_insert he with rfl | he
  · exact hx
  · exact h.2 e he

/-- Every write keeps the canonical form. -/
theorem wf_set [DecidableEq α] {m : NMap α} {d : α} (a : Nat) (x : α) (h : wf m d = true) : wf (set m d a x) d = true := by
  unfold set
  split
  · exact wf_erase a h
  · rename_i hx; exact wf_insert a hx h

theorem wf_upd [DecidableEq α] {m : NMap α} {d : α} (a : Nat) (f : α → α) (h : wf m d = true) : wf (upd m d a f) d = true :=
  wf_set a _ h

@[simp] theorem wf_nil [DecidableEq α] (d : α) : wf ([] : NMap α) d = true := rfl

end Sys2Proof.Machine.NMap

namespace Sys2Proof.Machine.Mem

@[simp] theorem read_write_self (m : Mem) (a : Nat) (b : Byte) : (m.write a b).read a = b := by simp [read, write]

@[simp] theorem read_write_ne (m : Mem) {a c : Nat} (b : Byte) (h : c ≠ a) : (m.write a b).read c = m.read c := by
  simp [read, write, h]

/-- Bytes outside those written stay. -/
theorem read_writeN_ne (m : Mem) (a : Nat) (bs : List Byte) (c : Nat) (h : c < a ∨ a + bs.length ≤ c) :
    (m.writeN a bs).read c = m.read c := by
  induction bs generalizing m a with
  | nil => rfl
  | cons b bs ih =>
    simp only [List.length_cons] at h
    unfold writeN
    rw [ih (m.write a b) (a + 1) (by omega), read_write_ne _ _ (by omega)]

/-- A byte written is the byte read. -/
theorem read_writeN (m : Mem) (a : Nat) (bs : List Byte) (i : Nat) (h : i < bs.length) :
    (m.writeN a bs).read (a + i) = bs[i] := by
  induction bs generalizing m a i with
  | nil => simp at h
  | cons b bs ih =>
    unfold writeN
    cases i with
    | zero => rw [read_writeN_ne _ _ _ _ (by omega)]; simp
    | succ i => rw [show a + (i + 1) = (a + 1) + i by omega, ih (m.write a b) (a + 1) i (by simpa using h)]; rfl

@[simp] theorem readN_length (m : Mem) (a n : Nat) : (m.readN a n).length = n := by
  induction n generalizing a with
  | zero => rfl
  | succ n ih => simp [readN, ih]

/-- What is written is what is read. -/
theorem readN_writeN (m : Mem) (a : Nat) (bs : List Byte) : (m.writeN a bs).readN a bs.length = bs := by
  induction bs generalizing m a with
  | nil => rfl
  | cons b bs ih =>
    simp only [writeN, List.length_cons, readN]
    rw [ih, read_writeN_ne _ _ _ _ (by omega), read_write_self]

/-- Every write of memory keeps its canonical form. -/
theorem wf_write {m : Mem} (a : Nat) (b : Byte) (h : m.wf = true) : (m.write a b).wf = true := NMap.wf_set a b h

theorem wf_writeN {m : Mem} (a : Nat) (bs : List Byte) (h : m.wf = true) : (m.writeN a bs).wf = true := by
  induction bs generalizing m a with
  | nil => exact h
  | cons b bs ih => exact ih (a + 1) (wf_write a b h)

end Sys2Proof.Machine.Mem
end

