-- ==== Sys2Proof/Laws/State.lean ====
section
/-! SUPPORT. One lemma per field per update of the device: what an update leaves alone, and what it makes of its own part. -/

namespace Sys2Proof.Machine

variable (d : Dev) (s : State)

/-! `onTile` -/
@[simp] theorem onTile_free (t : Nat) (f : Tile → Tile) : (onTile d t f).free = d.free := rfl
@[simp] theorem onTile_kclk (t : Nat) (f : Tile → Tile) : (onTile d t f).kclk = d.kclk := rfl
@[simp] theorem onTile_tiles (t : Nat) (f : Tile → Tile) : (onTile d t f).tiles = NMap.upd d.tiles {} t f := rfl
@[simp] theorem onTile_mem (t : Nat) (f : Tile → Tile) : (onTile d t f).mem = d.mem := rfl
@[simp] theorem onTile_polders (t : Nat) (f : Tile → Tile) : (onTile d t f).polders = d.polders := rfl
@[simp] theorem onTile_reeve (t : Nat) (f : Tile → Tile) : (onTile d t f).reeve = d.reeve := rfl
@[simp] theorem onTile_grid (t : Nat) (f : Tile → Tile) : (onTile d t f).grid = d.grid := rfl
@[simp] theorem onTile_blocks (t : Nat) (f : Tile → Tile) : (onTile d t f).blocks = d.blocks := rfl
@[simp] theorem onTile_resets (t : Nat) (f : Tile → Tile) : (onTile d t f).resets = d.resets := rfl
@[simp] theorem onTile_meters (t : Nat) (f : Tile → Tile) : (onTile d t f).meters = d.meters := rfl
@[simp] theorem onTile_counters (t : Nat) (f : Tile → Tile) : (onTile d t f).counters = d.counters := rfl
@[simp] theorem onTile_fabric (t : Nat) (f : Tile → Tile) : (onTile d t f).fabric = d.fabric := rfl
@[simp] theorem onTile_coll (t : Nat) (f : Tile → Tile) : (onTile d t f).coll = d.coll := rfl
@[simp] theorem onTile_cipher (t : Nat) (f : Tile → Tile) : (onTile d t f).cipher = d.cipher := rfl
@[simp] theorem onTile_boot (t : Nat) (f : Tile → Tile) : (onTile d t f).boot = d.boot := rfl
@[simp] theorem onTile_claims (t : Nat) (f : Tile → Tile) : (onTile d t f).claims = d.claims := rfl
@[simp] theorem onTile_sluice (t : Nat) (f : Tile → Tile) : (onTile d t f).sluice = d.sluice := rfl
@[simp] theorem onTile_tidal (t : Nat) (f : Tile → Tile) : (onTile d t f).tidal = d.tidal := rfl

/-! `onMem` -/
@[simp] theorem onMem_free (f : MemSys → MemSys) : (onMem d f).free = d.free := rfl
@[simp] theorem onMem_kclk (f : MemSys → MemSys) : (onMem d f).kclk = d.kclk := rfl
@[simp] theorem onMem_tiles (f : MemSys → MemSys) : (onMem d f).tiles = d.tiles := rfl
@[simp] theorem onMem_mem (f : MemSys → MemSys) : (onMem d f).mem = f d.mem := rfl
@[simp] theorem onMem_polders (f : MemSys → MemSys) : (onMem d f).polders = d.polders := rfl
@[simp] theorem onMem_reeve (f : MemSys → MemSys) : (onMem d f).reeve = d.reeve := rfl
@[simp] theorem onMem_grid (f : MemSys → MemSys) : (onMem d f).grid = d.grid := rfl
@[simp] theorem onMem_blocks (f : MemSys → MemSys) : (onMem d f).blocks = d.blocks := rfl
@[simp] theorem onMem_resets (f : MemSys → MemSys) : (onMem d f).resets = d.resets := rfl
@[simp] theorem onMem_meters (f : MemSys → MemSys) : (onMem d f).meters = d.meters := rfl
@[simp] theorem onMem_counters (f : MemSys → MemSys) : (onMem d f).counters = d.counters := rfl
@[simp] theorem onMem_fabric (f : MemSys → MemSys) : (onMem d f).fabric = d.fabric := rfl
@[simp] theorem onMem_coll (f : MemSys → MemSys) : (onMem d f).coll = d.coll := rfl
@[simp] theorem onMem_cipher (f : MemSys → MemSys) : (onMem d f).cipher = d.cipher := rfl
@[simp] theorem onMem_boot (f : MemSys → MemSys) : (onMem d f).boot = d.boot := rfl
@[simp] theorem onMem_claims (f : MemSys → MemSys) : (onMem d f).claims = d.claims := rfl
@[simp] theorem onMem_sluice (f : MemSys → MemSys) : (onMem d f).sluice = d.sluice := rfl
@[simp] theorem onMem_tidal (f : MemSys → MemSys) : (onMem d f).tidal = d.tidal := rfl

/-! `onReeve` -/
@[simp] theorem onReeve_free (f : Reeve → Reeve) : (onReeve d f).free = d.free := rfl
@[simp] theorem onReeve_kclk (f : Reeve → Reeve) : (onReeve d f).kclk = d.kclk := rfl
@[simp] theorem onReeve_tiles (f : Reeve → Reeve) : (onReeve d f).tiles = d.tiles := rfl
@[simp] theorem onReeve_mem (f : Reeve → Reeve) : (onReeve d f).mem = d.mem := rfl
@[simp] theorem onReeve_polders (f : Reeve → Reeve) : (onReeve d f).polders = d.polders := rfl
@[simp] theorem onReeve_reeve (f : Reeve → Reeve) : (onReeve d f).reeve = f d.reeve := rfl
@[simp] theorem onReeve_grid (f : Reeve → Reeve) : (onReeve d f).grid = d.grid := rfl
@[simp] theorem onReeve_blocks (f : Reeve → Reeve) : (onReeve d f).blocks = d.blocks := rfl
@[simp] theorem onReeve_resets (f : Reeve → Reeve) : (onReeve d f).resets = d.resets := rfl
@[simp] theorem onReeve_meters (f : Reeve → Reeve) : (onReeve d f).meters = d.meters := rfl
@[simp] theorem onReeve_counters (f : Reeve → Reeve) : (onReeve d f).counters = d.counters := rfl
@[simp] theorem onReeve_fabric (f : Reeve → Reeve) : (onReeve d f).fabric = d.fabric := rfl
@[simp] theorem onReeve_coll (f : Reeve → Reeve) : (onReeve d f).coll = d.coll := rfl
@[simp] theorem onReeve_cipher (f : Reeve → Reeve) : (onReeve d f).cipher = d.cipher := rfl
@[simp] theorem onReeve_boot (f : Reeve → Reeve) : (onReeve d f).boot = d.boot := rfl
@[simp] theorem onReeve_claims (f : Reeve → Reeve) : (onReeve d f).claims = d.claims := rfl
@[simp] theorem onReeve_sluice (f : Reeve → Reeve) : (onReeve d f).sluice = d.sluice := rfl
@[simp] theorem onReeve_tidal (f : Reeve → Reeve) : (onReeve d f).tidal = d.tidal := rfl

/-! `onFabric` -/
@[simp] theorem onFabric_free (f : Fabric → Fabric) : (onFabric d f).free = d.free := rfl
@[simp] theorem onFabric_kclk (f : Fabric → Fabric) : (onFabric d f).kclk = d.kclk := rfl
@[simp] theorem onFabric_tiles (f : Fabric → Fabric) : (onFabric d f).tiles = d.tiles := rfl
@[simp] theorem onFabric_mem (f : Fabric → Fabric) : (onFabric d f).mem = d.mem := rfl
@[simp] theorem onFabric_polders (f : Fabric → Fabric) : (onFabric d f).polders = d.polders := rfl
@[simp] theorem onFabric_reeve (f : Fabric → Fabric) : (onFabric d f).reeve = d.reeve := rfl
@[simp] theorem onFabric_grid (f : Fabric → Fabric) : (onFabric d f).grid = d.grid := rfl
@[simp] theorem onFabric_blocks (f : Fabric → Fabric) : (onFabric d f).blocks = d.blocks := rfl
@[simp] theorem onFabric_resets (f : Fabric → Fabric) : (onFabric d f).resets = d.resets := rfl
@[simp] theorem onFabric_meters (f : Fabric → Fabric) : (onFabric d f).meters = d.meters := rfl
@[simp] theorem onFabric_counters (f : Fabric → Fabric) : (onFabric d f).counters = d.counters := rfl
@[simp] theorem onFabric_fabric (f : Fabric → Fabric) : (onFabric d f).fabric = f d.fabric := rfl
@[simp] theorem onFabric_coll (f : Fabric → Fabric) : (onFabric d f).coll = d.coll := rfl
@[simp] theorem onFabric_cipher (f : Fabric → Fabric) : (onFabric d f).cipher = d.cipher := rfl
@[simp] theorem onFabric_boot (f : Fabric → Fabric) : (onFabric d f).boot = d.boot := rfl
@[simp] theorem onFabric_claims (f : Fabric → Fabric) : (onFabric d f).claims = d.claims := rfl
@[simp] theorem onFabric_sluice (f : Fabric → Fabric) : (onFabric d f).sluice = d.sluice := rfl
@[simp] theorem onFabric_tidal (f : Fabric → Fabric) : (onFabric d f).tidal = d.tidal := rfl

/-! `onColl` -/
@[simp] theorem onColl_free (f : Coll → Coll) : (onColl d f).free = d.free := rfl
@[simp] theorem onColl_kclk (f : Coll → Coll) : (onColl d f).kclk = d.kclk := rfl
@[simp] theorem onColl_tiles (f : Coll → Coll) : (onColl d f).tiles = d.tiles := rfl
@[simp] theorem onColl_mem (f : Coll → Coll) : (onColl d f).mem = d.mem := rfl
@[simp] theorem onColl_polders (f : Coll → Coll) : (onColl d f).polders = d.polders := rfl
@[simp] theorem onColl_reeve (f : Coll → Coll) : (onColl d f).reeve = d.reeve := rfl
@[simp] theorem onColl_grid (f : Coll → Coll) : (onColl d f).grid = d.grid := rfl
@[simp] theorem onColl_blocks (f : Coll → Coll) : (onColl d f).blocks = d.blocks := rfl
@[simp] theorem onColl_resets (f : Coll → Coll) : (onColl d f).resets = d.resets := rfl
@[simp] theorem onColl_meters (f : Coll → Coll) : (onColl d f).meters = d.meters := rfl
@[simp] theorem onColl_counters (f : Coll → Coll) : (onColl d f).counters = d.counters := rfl
@[simp] theorem onColl_fabric (f : Coll → Coll) : (onColl d f).fabric = d.fabric := rfl
@[simp] theorem onColl_coll (f : Coll → Coll) : (onColl d f).coll = f d.coll := rfl
@[simp] theorem onColl_cipher (f : Coll → Coll) : (onColl d f).cipher = d.cipher := rfl
@[simp] theorem onColl_boot (f : Coll → Coll) : (onColl d f).boot = d.boot := rfl
@[simp] theorem onColl_claims (f : Coll → Coll) : (onColl d f).claims = d.claims := rfl
@[simp] theorem onColl_sluice (f : Coll → Coll) : (onColl d f).sluice = d.sluice := rfl
@[simp] theorem onColl_tidal (f : Coll → Coll) : (onColl d f).tidal = d.tidal := rfl

/-! `onBoot` -/
@[simp] theorem onBoot_free (f : Boot → Boot) : (onBoot d f).free = d.free := rfl
@[simp] theorem onBoot_kclk (f : Boot → Boot) : (onBoot d f).kclk = d.kclk := rfl
@[simp] theorem onBoot_tiles (f : Boot → Boot) : (onBoot d f).tiles = d.tiles := rfl
@[simp] theorem onBoot_mem (f : Boot → Boot) : (onBoot d f).mem = d.mem := rfl
@[simp] theorem onBoot_polders (f : Boot → Boot) : (onBoot d f).polders = d.polders := rfl
@[simp] theorem onBoot_reeve (f : Boot → Boot) : (onBoot d f).reeve = d.reeve := rfl
@[simp] theorem onBoot_grid (f : Boot → Boot) : (onBoot d f).grid = d.grid := rfl
@[simp] theorem onBoot_blocks (f : Boot → Boot) : (onBoot d f).blocks = d.blocks := rfl
@[simp] theorem onBoot_resets (f : Boot → Boot) : (onBoot d f).resets = d.resets := rfl
@[simp] theorem onBoot_meters (f : Boot → Boot) : (onBoot d f).meters = d.meters := rfl
@[simp] theorem onBoot_counters (f : Boot → Boot) : (onBoot d f).counters = d.counters := rfl
@[simp] theorem onBoot_fabric (f : Boot → Boot) : (onBoot d f).fabric = d.fabric := rfl
@[simp] theorem onBoot_coll (f : Boot → Boot) : (onBoot d f).coll = d.coll := rfl
@[simp] theorem onBoot_cipher (f : Boot → Boot) : (onBoot d f).cipher = d.cipher := rfl
@[simp] theorem onBoot_boot (f : Boot → Boot) : (onBoot d f).boot = f d.boot := rfl
@[simp] theorem onBoot_claims (f : Boot → Boot) : (onBoot d f).claims = d.claims := rfl
@[simp] theorem onBoot_sluice (f : Boot → Boot) : (onBoot d f).sluice = d.sluice := rfl
@[simp] theorem onBoot_tidal (f : Boot → Boot) : (onBoot d f).tidal = d.tidal := rfl

/-! `onSluice` -/
@[simp] theorem onSluice_free (f : Sluice → Sluice) : (onSluice d f).free = d.free := rfl
@[simp] theorem onSluice_kclk (f : Sluice → Sluice) : (onSluice d f).kclk = d.kclk := rfl
@[simp] theorem onSluice_tiles (f : Sluice → Sluice) : (onSluice d f).tiles = d.tiles := rfl
@[simp] theorem onSluice_mem (f : Sluice → Sluice) : (onSluice d f).mem = d.mem := rfl
@[simp] theorem onSluice_polders (f : Sluice → Sluice) : (onSluice d f).polders = d.polders := rfl
@[simp] theorem onSluice_reeve (f : Sluice → Sluice) : (onSluice d f).reeve = d.reeve := rfl
@[simp] theorem onSluice_grid (f : Sluice → Sluice) : (onSluice d f).grid = d.grid := rfl
@[simp] theorem onSluice_blocks (f : Sluice → Sluice) : (onSluice d f).blocks = d.blocks := rfl
@[simp] theorem onSluice_resets (f : Sluice → Sluice) : (onSluice d f).resets = d.resets := rfl
@[simp] theorem onSluice_meters (f : Sluice → Sluice) : (onSluice d f).meters = d.meters := rfl
@[simp] theorem onSluice_counters (f : Sluice → Sluice) : (onSluice d f).counters = d.counters := rfl
@[simp] theorem onSluice_fabric (f : Sluice → Sluice) : (onSluice d f).fabric = d.fabric := rfl
@[simp] theorem onSluice_coll (f : Sluice → Sluice) : (onSluice d f).coll = d.coll := rfl
@[simp] theorem onSluice_cipher (f : Sluice → Sluice) : (onSluice d f).cipher = d.cipher := rfl
@[simp] theorem onSluice_boot (f : Sluice → Sluice) : (onSluice d f).boot = d.boot := rfl
@[simp] theorem onSluice_claims (f : Sluice → Sluice) : (onSluice d f).claims = d.claims := rfl
@[simp] theorem onSluice_sluice (f : Sluice → Sluice) : (onSluice d f).sluice = f d.sluice := rfl
@[simp] theorem onSluice_tidal (f : Sluice → Sluice) : (onSluice d f).tidal = d.tidal := rfl

/-! `onTidal` -/
@[simp] theorem onTidal_free (f : Tidal → Tidal) : (onTidal d f).free = d.free := rfl
@[simp] theorem onTidal_kclk (f : Tidal → Tidal) : (onTidal d f).kclk = d.kclk := rfl
@[simp] theorem onTidal_tiles (f : Tidal → Tidal) : (onTidal d f).tiles = d.tiles := rfl
@[simp] theorem onTidal_mem (f : Tidal → Tidal) : (onTidal d f).mem = d.mem := rfl
@[simp] theorem onTidal_polders (f : Tidal → Tidal) : (onTidal d f).polders = d.polders := rfl
@[simp] theorem onTidal_reeve (f : Tidal → Tidal) : (onTidal d f).reeve = d.reeve := rfl
@[simp] theorem onTidal_grid (f : Tidal → Tidal) : (onTidal d f).grid = d.grid := rfl
@[simp] theorem onTidal_blocks (f : Tidal → Tidal) : (onTidal d f).blocks = d.blocks := rfl
@[simp] theorem onTidal_resets (f : Tidal → Tidal) : (onTidal d f).resets = d.resets := rfl
@[simp] theorem onTidal_meters (f : Tidal → Tidal) : (onTidal d f).meters = d.meters := rfl
@[simp] theorem onTidal_counters (f : Tidal → Tidal) : (onTidal d f).counters = d.counters := rfl
@[simp] theorem onTidal_fabric (f : Tidal → Tidal) : (onTidal d f).fabric = d.fabric := rfl
@[simp] theorem onTidal_coll (f : Tidal → Tidal) : (onTidal d f).coll = d.coll := rfl
@[simp] theorem onTidal_cipher (f : Tidal → Tidal) : (onTidal d f).cipher = d.cipher := rfl
@[simp] theorem onTidal_boot (f : Tidal → Tidal) : (onTidal d f).boot = d.boot := rfl
@[simp] theorem onTidal_claims (f : Tidal → Tidal) : (onTidal d f).claims = d.claims := rfl
@[simp] theorem onTidal_sluice (f : Tidal → Tidal) : (onTidal d f).sluice = d.sluice := rfl
@[simp] theorem onTidal_tidal (f : Tidal → Tidal) : (onTidal d f).tidal = f d.tidal := rfl

/-! `setBlk` -/
@[simp] theorem setBlk_free (k i : Nat) (b : BlkSt) : (setBlk d k i b).free = d.free := rfl
@[simp] theorem setBlk_kclk (k i : Nat) (b : BlkSt) : (setBlk d k i b).kclk = d.kclk := rfl
@[simp] theorem setBlk_tiles (k i : Nat) (b : BlkSt) : (setBlk d k i b).tiles = d.tiles := rfl
@[simp] theorem setBlk_mem (k i : Nat) (b : BlkSt) : (setBlk d k i b).mem = d.mem := rfl
@[simp] theorem setBlk_polders (k i : Nat) (b : BlkSt) : (setBlk d k i b).polders = d.polders := rfl
@[simp] theorem setBlk_reeve (k i : Nat) (b : BlkSt) : (setBlk d k i b).reeve = d.reeve := rfl
@[simp] theorem setBlk_grid (k i : Nat) (b : BlkSt) : (setBlk d k i b).grid = d.grid := rfl
@[simp] theorem setBlk_blocks (k i : Nat) (b : BlkSt) : (setBlk d k i b).blocks = { d.blocks with st := NMap.set d.blocks.st .off (k * 256 + i) b } := rfl
@[simp] theorem setBlk_resets (k i : Nat) (b : BlkSt) : (setBlk d k i b).resets = d.resets := rfl
@[simp] theorem setBlk_meters (k i : Nat) (b : BlkSt) : (setBlk d k i b).meters = d.meters := rfl
@[simp] theorem setBlk_counters (k i : Nat) (b : BlkSt) : (setBlk d k i b).counters = d.counters := rfl
@[simp] theorem setBlk_fabric (k i : Nat) (b : BlkSt) : (setBlk d k i b).fabric = d.fabric := rfl
@[simp] theorem setBlk_coll (k i : Nat) (b : BlkSt) : (setBlk d k i b).coll = d.coll := rfl
@[simp] theorem setBlk_cipher (k i : Nat) (b : BlkSt) : (setBlk d k i b).cipher = d.cipher := rfl
@[simp] theorem setBlk_boot (k i : Nat) (b : BlkSt) : (setBlk d k i b).boot = d.boot := rfl
@[simp] theorem setBlk_claims (k i : Nat) (b : BlkSt) : (setBlk d k i b).claims = d.claims := rfl
@[simp] theorem setBlk_sluice (k i : Nat) (b : BlkSt) : (setBlk d k i b).sluice = d.sluice := rfl
@[simp] theorem setBlk_tidal (k i : Nat) (b : BlkSt) : (setBlk d k i b).tidal = d.tidal := rfl

/-! `onThread` -/
@[simp] theorem onThread_free (t th : Nat) (f : Thread → Thread) : (onThread d t th f).free = d.free := rfl
@[simp] theorem onThread_kclk (t th : Nat) (f : Thread → Thread) : (onThread d t th f).kclk = d.kclk := rfl
@[simp] theorem onThread_mem (t th : Nat) (f : Thread → Thread) : (onThread d t th f).mem = d.mem := rfl
@[simp] theorem onThread_polders (t th : Nat) (f : Thread → Thread) : (onThread d t th f).polders = d.polders := rfl
@[simp] theorem onThread_reeve (t th : Nat) (f : Thread → Thread) : (onThread d t th f).reeve = d.reeve := rfl
@[simp] theorem onThread_grid (t th : Nat) (f : Thread → Thread) : (onThread d t th f).grid = d.grid := rfl
@[simp] theorem onThread_blocks (t th : Nat) (f : Thread → Thread) : (onThread d t th f).blocks = d.blocks := rfl
@[simp] theorem onThread_resets (t th : Nat) (f : Thread → Thread) : (onThread d t th f).resets = d.resets := rfl
@[simp] theorem onThread_meters (t th : Nat) (f : Thread → Thread) : (onThread d t th f).meters = d.meters := rfl
@[simp] theorem onThread_counters (t th : Nat) (f : Thread → Thread) : (onThread d t th f).counters = d.counters := rfl
@[simp] theorem onThread_fabric (t th : Nat) (f : Thread → Thread) : (onThread d t th f).fabric = d.fabric := rfl
@[simp] theorem onThread_coll (t th : Nat) (f : Thread → Thread) : (onThread d t th f).coll = d.coll := rfl
@[simp] theorem onThread_cipher (t th : Nat) (f : Thread → Thread) : (onThread d t th f).cipher = d.cipher := rfl
@[simp] theorem onThread_boot (t th : Nat) (f : Thread → Thread) : (onThread d t th f).boot = d.boot := rfl
@[simp] theorem onThread_claims (t th : Nat) (f : Thread → Thread) : (onThread d t th f).claims = d.claims := rfl
@[simp] theorem onThread_sluice (t th : Nat) (f : Thread → Thread) : (onThread d t th f).sluice = d.sluice := rfl
@[simp] theorem onThread_tidal (t th : Nat) (f : Thread → Thread) : (onThread d t th f).tidal = d.tidal := rfl

/-! `onSlot` -/
@[simp] theorem onSlot_free (t n : Nat) (f : Slot → Slot) : (onSlot d t n f).free = d.free := rfl
@[simp] theorem onSlot_kclk (t n : Nat) (f : Slot → Slot) : (onSlot d t n f).kclk = d.kclk := rfl
@[simp] theorem onSlot_mem (t n : Nat) (f : Slot → Slot) : (onSlot d t n f).mem = d.mem := rfl
@[simp] theorem onSlot_polders (t n : Nat) (f : Slot → Slot) : (onSlot d t n f).polders = d.polders := rfl
@[simp] theorem onSlot_reeve (t n : Nat) (f : Slot → Slot) : (onSlot d t n f).reeve = d.reeve := rfl
@[simp] theorem onSlot_grid (t n : Nat) (f : Slot → Slot) : (onSlot d t n f).grid = d.grid := rfl
@[simp] theorem onSlot_blocks (t n : Nat) (f : Slot → Slot) : (onSlot d t n f).blocks = d.blocks := rfl
@[simp] theorem onSlot_resets (t n : Nat) (f : Slot → Slot) : (onSlot d t n f).resets = d.resets := rfl
@[simp] theorem onSlot_meters (t n : Nat) (f : Slot → Slot) : (onSlot d t n f).meters = d.meters := rfl
@[simp] theorem onSlot_counters (t n : Nat) (f : Slot → Slot) : (onSlot d t n f).counters = d.counters := rfl
@[simp] theorem onSlot_fabric (t n : Nat) (f : Slot → Slot) : (onSlot d t n f).fabric = d.fabric := rfl
@[simp] theorem onSlot_coll (t n : Nat) (f : Slot → Slot) : (onSlot d t n f).coll = d.coll := rfl
@[simp] theorem onSlot_cipher (t n : Nat) (f : Slot → Slot) : (onSlot d t n f).cipher = d.cipher := rfl
@[simp] theorem onSlot_boot (t n : Nat) (f : Slot → Slot) : (onSlot d t n f).boot = d.boot := rfl
@[simp] theorem onSlot_claims (t n : Nat) (f : Slot → Slot) : (onSlot d t n f).claims = d.claims := rfl
@[simp] theorem onSlot_sluice (t n : Nat) (f : Slot → Slot) : (onSlot d t n f).sluice = d.sluice := rfl
@[simp] theorem onSlot_tidal (t n : Nat) (f : Slot → Slot) : (onSlot d t n f).tidal = d.tidal := rfl

/-! `onEngine` -/
@[simp] theorem onEngine_free (t : Nat) (e : EngineId) (f : Engine → Engine) : (onEngine d t e f).free = d.free := rfl
@[simp] theorem onEngine_kclk (t : Nat) (e : EngineId) (f : Engine → Engine) : (onEngine d t e f).kclk = d.kclk := rfl
@[simp] theorem onEngine_mem (t : Nat) (e : EngineId) (f : Engine → Engine) : (onEngine d t e f).mem = d.mem := rfl
@[simp] theorem onEngine_polders (t : Nat) (e : EngineId) (f : Engine → Engine) : (onEngine d t e f).polders = d.polders := rfl
@[simp] theorem onEngine_reeve (t : Nat) (e : EngineId) (f : Engine → Engine) : (onEngine d t e f).reeve = d.reeve := rfl
@[simp] theorem onEngine_grid (t : Nat) (e : EngineId) (f : Engine → Engine) : (onEngine d t e f).grid = d.grid := rfl
@[simp] theorem onEngine_blocks (t : Nat) (e : EngineId) (f : Engine → Engine) : (onEngine d t e f).blocks = d.blocks := rfl
@[simp] theorem onEngine_resets (t : Nat) (e : EngineId) (f : Engine → Engine) : (onEngine d t e f).resets = d.resets := rfl
@[simp] theorem onEngine_meters (t : Nat) (e : EngineId) (f : Engine → Engine) : (onEngine d t e f).meters = d.meters := rfl
@[simp] theorem onEngine_counters (t : Nat) (e : EngineId) (f : Engine → Engine) : (onEngine d t e f).counters = d.counters := rfl
@[simp] theorem onEngine_fabric (t : Nat) (e : EngineId) (f : Engine → Engine) : (onEngine d t e f).fabric = d.fabric := rfl
@[simp] theorem onEngine_coll (t : Nat) (e : EngineId) (f : Engine → Engine) : (onEngine d t e f).coll = d.coll := rfl
@[simp] theorem onEngine_cipher (t : Nat) (e : EngineId) (f : Engine → Engine) : (onEngine d t e f).cipher = d.cipher := rfl
@[simp] theorem onEngine_boot (t : Nat) (e : EngineId) (f : Engine → Engine) : (onEngine d t e f).boot = d.boot := rfl
@[simp] theorem onEngine_claims (t : Nat) (e : EngineId) (f : Engine → Engine) : (onEngine d t e f).claims = d.claims := rfl
@[simp] theorem onEngine_sluice (t : Nat) (e : EngineId) (f : Engine → Engine) : (onEngine d t e f).sluice = d.sluice := rfl
@[simp] theorem onEngine_tidal (t : Nat) (e : EngineId) (f : Engine → Engine) : (onEngine d t e f).tidal = d.tidal := rfl

/-! `onRun` -/
@[simp] theorem onRun_free (t : Nat) (e : EngineId) (f : RunOp → RunOp) : (onRun d t e f).free = d.free := rfl
@[simp] theorem onRun_kclk (t : Nat) (e : EngineId) (f : RunOp → RunOp) : (onRun d t e f).kclk = d.kclk := rfl
@[simp] theorem onRun_mem (t : Nat) (e : EngineId) (f : RunOp → RunOp) : (onRun d t e f).mem = d.mem := rfl
@[simp] theorem onRun_polders (t : Nat) (e : EngineId) (f : RunOp → RunOp) : (onRun d t e f).polders = d.polders := rfl
@[simp] theorem onRun_reeve (t : Nat) (e : EngineId) (f : RunOp → RunOp) : (onRun d t e f).reeve = d.reeve := rfl
@[simp] theorem onRun_grid (t : Nat) (e : EngineId) (f : RunOp → RunOp) : (onRun d t e f).grid = d.grid := rfl
@[simp] theorem onRun_blocks (t : Nat) (e : EngineId) (f : RunOp → RunOp) : (onRun d t e f).blocks = d.blocks := rfl
@[simp] theorem onRun_resets (t : Nat) (e : EngineId) (f : RunOp → RunOp) : (onRun d t e f).resets = d.resets := rfl
@[simp] theorem onRun_meters (t : Nat) (e : EngineId) (f : RunOp → RunOp) : (onRun d t e f).meters = d.meters := rfl
@[simp] theorem onRun_counters (t : Nat) (e : EngineId) (f : RunOp → RunOp) : (onRun d t e f).counters = d.counters := rfl
@[simp] theorem onRun_fabric (t : Nat) (e : EngineId) (f : RunOp → RunOp) : (onRun d t e f).fabric = d.fabric := rfl
@[simp] theorem onRun_coll (t : Nat) (e : EngineId) (f : RunOp → RunOp) : (onRun d t e f).coll = d.coll := rfl
@[simp] theorem onRun_cipher (t : Nat) (e : EngineId) (f : RunOp → RunOp) : (onRun d t e f).cipher = d.cipher := rfl
@[simp] theorem onRun_boot (t : Nat) (e : EngineId) (f : RunOp → RunOp) : (onRun d t e f).boot = d.boot := rfl
@[simp] theorem onRun_claims (t : Nat) (e : EngineId) (f : RunOp → RunOp) : (onRun d t e f).claims = d.claims := rfl
@[simp] theorem onRun_sluice (t : Nat) (e : EngineId) (f : RunOp → RunOp) : (onRun d t e f).sluice = d.sluice := rfl
@[simp] theorem onRun_tidal (t : Nat) (e : EngineId) (f : RunOp → RunOp) : (onRun d t e f).tidal = d.tidal := rfl

/-! `onScale` -/
@[simp] theorem onScale_free (t n : Nat) (f : BitVec 512 → BitVec 512) : (onScale d t n f).free = d.free := rfl
@[simp] theorem onScale_kclk (t n : Nat) (f : BitVec 512 → BitVec 512) : (onScale d t n f).kclk = d.kclk := rfl
@[simp] theorem onScale_mem (t n : Nat) (f : BitVec 512 → BitVec 512) : (onScale d t n f).mem = d.mem := rfl
@[simp] theorem onScale_polders (t n : Nat) (f : BitVec 512 → BitVec 512) : (onScale d t n f).polders = d.polders := rfl
@[simp] theorem onScale_reeve (t n : Nat) (f : BitVec 512 → BitVec 512) : (onScale d t n f).reeve = d.reeve := rfl
@[simp] theorem onScale_grid (t n : Nat) (f : BitVec 512 → BitVec 512) : (onScale d t n f).grid = d.grid := rfl
@[simp] theorem onScale_blocks (t n : Nat) (f : BitVec 512 → BitVec 512) : (onScale d t n f).blocks = d.blocks := rfl
@[simp] theorem onScale_resets (t n : Nat) (f : BitVec 512 → BitVec 512) : (onScale d t n f).resets = d.resets := rfl
@[simp] theorem onScale_meters (t n : Nat) (f : BitVec 512 → BitVec 512) : (onScale d t n f).meters = d.meters := rfl
@[simp] theorem onScale_counters (t n : Nat) (f : BitVec 512 → BitVec 512) : (onScale d t n f).counters = d.counters := rfl
@[simp] theorem onScale_fabric (t n : Nat) (f : BitVec 512 → BitVec 512) : (onScale d t n f).fabric = d.fabric := rfl
@[simp] theorem onScale_coll (t n : Nat) (f : BitVec 512 → BitVec 512) : (onScale d t n f).coll = d.coll := rfl
@[simp] theorem onScale_cipher (t n : Nat) (f : BitVec 512 → BitVec 512) : (onScale d t n f).cipher = d.cipher := rfl
@[simp] theorem onScale_boot (t n : Nat) (f : BitVec 512 → BitVec 512) : (onScale d t n f).boot = d.boot := rfl
@[simp] theorem onScale_claims (t n : Nat) (f : BitVec 512 → BitVec 512) : (onScale d t n f).claims = d.claims := rfl
@[simp] theorem onScale_sluice (t n : Nat) (f : BitVec 512 → BitVec 512) : (onScale d t n f).sluice = d.sluice := rfl
@[simp] theorem onScale_tidal (t n : Nat) (f : BitVec 512 → BitVec 512) : (onScale d t n f).tidal = d.tidal := rfl

/-! `onPort` -/
@[simp] theorem onPort_free (n : Nat) (f : Port → Port) : (onPort d n f).free = d.free := rfl
@[simp] theorem onPort_kclk (n : Nat) (f : Port → Port) : (onPort d n f).kclk = d.kclk := rfl
@[simp] theorem onPort_tiles (n : Nat) (f : Port → Port) : (onPort d n f).tiles = d.tiles := rfl
@[simp] theorem onPort_mem (n : Nat) (f : Port → Port) : (onPort d n f).mem = d.mem := rfl
@[simp] theorem onPort_polders (n : Nat) (f : Port → Port) : (onPort d n f).polders = d.polders := rfl
@[simp] theorem onPort_reeve (n : Nat) (f : Port → Port) : (onPort d n f).reeve = d.reeve := rfl
@[simp] theorem onPort_grid (n : Nat) (f : Port → Port) : (onPort d n f).grid = d.grid := rfl
@[simp] theorem onPort_blocks (n : Nat) (f : Port → Port) : (onPort d n f).blocks = d.blocks := rfl
@[simp] theorem onPort_resets (n : Nat) (f : Port → Port) : (onPort d n f).resets = d.resets := rfl
@[simp] theorem onPort_meters (n : Nat) (f : Port → Port) : (onPort d n f).meters = d.meters := rfl
@[simp] theorem onPort_counters (n : Nat) (f : Port → Port) : (onPort d n f).counters = d.counters := rfl
@[simp] theorem onPort_coll (n : Nat) (f : Port → Port) : (onPort d n f).coll = d.coll := rfl
@[simp] theorem onPort_cipher (n : Nat) (f : Port → Port) : (onPort d n f).cipher = d.cipher := rfl
@[simp] theorem onPort_boot (n : Nat) (f : Port → Port) : (onPort d n f).boot = d.boot := rfl
@[simp] theorem onPort_claims (n : Nat) (f : Port → Port) : (onPort d n f).claims = d.claims := rfl
@[simp] theorem onPort_sluice (n : Nat) (f : Port → Port) : (onPort d n f).sluice = d.sluice := rfl
@[simp] theorem onPort_tidal (n : Nat) (f : Port → Port) : (onPort d n f).tidal = d.tidal := rfl

/-! `onMbox` -/
@[simp] theorem onMbox_free (m : Nat) (f : Mbox → Mbox) : (onMbox d m f).free = d.free := rfl
@[simp] theorem onMbox_kclk (m : Nat) (f : Mbox → Mbox) : (onMbox d m f).kclk = d.kclk := rfl
@[simp] theorem onMbox_tiles (m : Nat) (f : Mbox → Mbox) : (onMbox d m f).tiles = d.tiles := rfl
@[simp] theorem onMbox_mem (m : Nat) (f : Mbox → Mbox) : (onMbox d m f).mem = d.mem := rfl
@[simp] theorem onMbox_polders (m : Nat) (f : Mbox → Mbox) : (onMbox d m f).polders = d.polders := rfl
@[simp] theorem onMbox_grid (m : Nat) (f : Mbox → Mbox) : (onMbox d m f).grid = d.grid := rfl
@[simp] theorem onMbox_blocks (m : Nat) (f : Mbox → Mbox) : (onMbox d m f).blocks = d.blocks := rfl
@[simp] theorem onMbox_resets (m : Nat) (f : Mbox → Mbox) : (onMbox d m f).resets = d.resets := rfl
@[simp] theorem onMbox_meters (m : Nat) (f : Mbox → Mbox) : (onMbox d m f).meters = d.meters := rfl
@[simp] theorem onMbox_counters (m : Nat) (f : Mbox → Mbox) : (onMbox d m f).counters = d.counters := rfl
@[simp] theorem onMbox_fabric (m : Nat) (f : Mbox → Mbox) : (onMbox d m f).fabric = d.fabric := rfl
@[simp] theorem onMbox_coll (m : Nat) (f : Mbox → Mbox) : (onMbox d m f).coll = d.coll := rfl
@[simp] theorem onMbox_cipher (m : Nat) (f : Mbox → Mbox) : (onMbox d m f).cipher = d.cipher := rfl
@[simp] theorem onMbox_boot (m : Nat) (f : Mbox → Mbox) : (onMbox d m f).boot = d.boot := rfl
@[simp] theorem onMbox_claims (m : Nat) (f : Mbox → Mbox) : (onMbox d m f).claims = d.claims := rfl
@[simp] theorem onMbox_sluice (m : Nat) (f : Mbox → Mbox) : (onMbox d m f).sluice = d.sluice := rfl
@[simp] theorem onMbox_tidal (m : Nat) (f : Mbox → Mbox) : (onMbox d m f).tidal = d.tidal := rfl

/-! `putCmd` -/
@[simp] theorem putCmd_free (m : Nat) (c : Cmd) : (putCmd d m c).free = d.free := rfl
@[simp] theorem putCmd_kclk (m : Nat) (c : Cmd) : (putCmd d m c).kclk = d.kclk := rfl
@[simp] theorem putCmd_tiles (m : Nat) (c : Cmd) : (putCmd d m c).tiles = d.tiles := rfl
@[simp] theorem putCmd_mem (m : Nat) (c : Cmd) : (putCmd d m c).mem = d.mem := rfl
@[simp] theorem putCmd_polders (m : Nat) (c : Cmd) : (putCmd d m c).polders = d.polders := rfl
@[simp] theorem putCmd_grid (m : Nat) (c : Cmd) : (putCmd d m c).grid = d.grid := rfl
@[simp] theorem putCmd_blocks (m : Nat) (c : Cmd) : (putCmd d m c).blocks = d.blocks := rfl
@[simp] theorem putCmd_resets (m : Nat) (c : Cmd) : (putCmd d m c).resets = d.resets := rfl
@[simp] theorem putCmd_meters (m : Nat) (c : Cmd) : (putCmd d m c).meters = d.meters := rfl
@[simp] theorem putCmd_counters (m : Nat) (c : Cmd) : (putCmd d m c).counters = d.counters := rfl
@[simp] theorem putCmd_fabric (m : Nat) (c : Cmd) : (putCmd d m c).fabric = d.fabric := rfl
@[simp] theorem putCmd_coll (m : Nat) (c : Cmd) : (putCmd d m c).coll = d.coll := rfl
@[simp] theorem putCmd_cipher (m : Nat) (c : Cmd) : (putCmd d m c).cipher = d.cipher := rfl
@[simp] theorem putCmd_boot (m : Nat) (c : Cmd) : (putCmd d m c).boot = d.boot := rfl
@[simp] theorem putCmd_claims (m : Nat) (c : Cmd) : (putCmd d m c).claims = d.claims := rfl
@[simp] theorem putCmd_sluice (m : Nat) (c : Cmd) : (putCmd d m c).sluice = d.sluice := rfl
@[simp] theorem putCmd_tidal (m : Nat) (c : Cmd) : (putCmd d m c).tidal = d.tidal := rfl

/-! `onPath` -/
@[simp] theorem onPath_free (n : Nat) (f : TPath → TPath) : (onPath d n f).free = d.free := by unfold onPath; split <;> rfl
@[simp] theorem onPath_kclk (n : Nat) (f : TPath → TPath) : (onPath d n f).kclk = d.kclk := by unfold onPath; split <;> rfl
@[simp] theorem onPath_tiles (n : Nat) (f : TPath → TPath) : (onPath d n f).tiles = d.tiles := by unfold onPath; split <;> rfl
@[simp] theorem onPath_mem (n : Nat) (f : TPath → TPath) : (onPath d n f).mem = d.mem := by unfold onPath; split <;> rfl
@[simp] theorem onPath_polders (n : Nat) (f : TPath → TPath) : (onPath d n f).polders = d.polders := by unfold onPath; split <;> rfl
@[simp] theorem onPath_reeve (n : Nat) (f : TPath → TPath) : (onPath d n f).reeve = d.reeve := by unfold onPath; split <;> rfl
@[simp] theorem onPath_grid (n : Nat) (f : TPath → TPath) : (onPath d n f).grid = d.grid := by unfold onPath; split <;> rfl
@[simp] theorem onPath_blocks (n : Nat) (f : TPath → TPath) : (onPath d n f).blocks = d.blocks := by unfold onPath; split <;> rfl
@[simp] theorem onPath_resets (n : Nat) (f : TPath → TPath) : (onPath d n f).resets = d.resets := by unfold onPath; split <;> rfl
@[simp] theorem onPath_meters (n : Nat) (f : TPath → TPath) : (onPath d n f).meters = d.meters := by unfold onPath; split <;> rfl
@[simp] theorem onPath_counters (n : Nat) (f : TPath → TPath) : (onPath d n f).counters = d.counters := by unfold onPath; split <;> rfl
@[simp] theorem onPath_fabric (n : Nat) (f : TPath → TPath) : (onPath d n f).fabric = d.fabric := by unfold onPath; split <;> rfl
@[simp] theorem onPath_coll (n : Nat) (f : TPath → TPath) : (onPath d n f).coll = d.coll := by unfold onPath; split <;> rfl
@[simp] theorem onPath_cipher (n : Nat) (f : TPath → TPath) : (onPath d n f).cipher = d.cipher := by unfold onPath; split <;> rfl
@[simp] theorem onPath_boot (n : Nat) (f : TPath → TPath) : (onPath d n f).boot = d.boot := by unfold onPath; split <;> rfl
@[simp] theorem onPath_claims (n : Nat) (f : TPath → TPath) : (onPath d n f).claims = d.claims := by unfold onPath; split <;> rfl
@[simp] theorem onPath_sluice (n : Nat) (f : TPath → TPath) : (onPath d n f).sluice = d.sluice := by unfold onPath; split <;> rfl

/-! `onShard` -/
@[simp] theorem onShard_free (n : Nat) (f : Shard → Shard) : (onShard d n f).free = d.free := by unfold onShard; split <;> rfl
@[simp] theorem onShard_kclk (n : Nat) (f : Shard → Shard) : (onShard d n f).kclk = d.kclk := by unfold onShard; split <;> rfl
@[simp] theorem onShard_tiles (n : Nat) (f : Shard → Shard) : (onShard d n f).tiles = d.tiles := by unfold onShard; split <;> rfl
@[simp] theorem onShard_mem (n : Nat) (f : Shard → Shard) : (onShard d n f).mem = d.mem := by unfold onShard; split <;> rfl
@[simp] theorem onShard_polders (n : Nat) (f : Shard → Shard) : (onShard d n f).polders = d.polders := by unfold onShard; split <;> rfl
@[simp] theorem onShard_reeve (n : Nat) (f : Shard → Shard) : (onShard d n f).reeve = d.reeve := by unfold onShard; split <;> rfl
@[simp] theorem onShard_grid (n : Nat) (f : Shard → Shard) : (onShard d n f).grid = d.grid := by unfold onShard; split <;> rfl
@[simp] theorem onShard_blocks (n : Nat) (f : Shard → Shard) : (onShard d n f).blocks = d.blocks := by unfold onShard; split <;> rfl
@[simp] theorem onShard_resets (n : Nat) (f : Shard → Shard) : (onShard d n f).resets = d.resets := by unfold onShard; split <;> rfl
@[simp] theorem onShard_meters (n : Nat) (f : Shard → Shard) : (onShard d n f).meters = d.meters := by unfold onShard; split <;> rfl
@[simp] theorem onShard_counters (n : Nat) (f : Shard → Shard) : (onShard d n f).counters = d.counters := by unfold onShard; split <;> rfl
@[simp] theorem onShard_fabric (n : Nat) (f : Shard → Shard) : (onShard d n f).fabric = d.fabric := by unfold onShard; split <;> rfl
@[simp] theorem onShard_coll (n : Nat) (f : Shard → Shard) : (onShard d n f).coll = d.coll := by unfold onShard; split <;> rfl
@[simp] theorem onShard_cipher (n : Nat) (f : Shard → Shard) : (onShard d n f).cipher = d.cipher := by unfold onShard; split <;> rfl
@[simp] theorem onShard_boot (n : Nat) (f : Shard → Shard) : (onShard d n f).boot = d.boot := by unfold onShard; split <;> rfl
@[simp] theorem onShard_claims (n : Nat) (f : Shard → Shard) : (onShard d n f).claims = d.claims := by unfold onShard; split <;> rfl
@[simp] theorem onShard_tidal (n : Nat) (f : Shard → Shard) : (onShard d n f).tidal = d.tidal := by unfold onShard; split <;> rfl

/-! `onPolder` -/
@[simp] theorem onPolder_free (p : PolderNo) (f : Polder → Polder) : (onPolder d p f).free = d.free := by unfold onPolder; split <;> rfl
@[simp] theorem onPolder_kclk (p : PolderNo) (f : Polder → Polder) : (onPolder d p f).kclk = d.kclk := by unfold onPolder; split <;> rfl
@[simp] theorem onPolder_tiles (p : PolderNo) (f : Polder → Polder) : (onPolder d p f).tiles = d.tiles := by unfold onPolder; split <;> rfl
@[simp] theorem onPolder_mem (p : PolderNo) (f : Polder → Polder) : (onPolder d p f).mem = d.mem := by unfold onPolder; split <;> rfl
@[simp] theorem onPolder_reeve (p : PolderNo) (f : Polder → Polder) : (onPolder d p f).reeve = d.reeve := by unfold onPolder; split <;> rfl
@[simp] theorem onPolder_grid (p : PolderNo) (f : Polder → Polder) : (onPolder d p f).grid = d.grid := by unfold onPolder; split <;> rfl
@[simp] theorem onPolder_blocks (p : PolderNo) (f : Polder → Polder) : (onPolder d p f).blocks = d.blocks := by unfold onPolder; split <;> rfl
@[simp] theorem onPolder_resets (p : PolderNo) (f : Polder → Polder) : (onPolder d p f).resets = d.resets := by unfold onPolder; split <;> rfl
@[simp] theorem onPolder_meters (p : PolderNo) (f : Polder → Polder) : (onPolder d p f).meters = d.meters := by unfold onPolder; split <;> rfl
@[simp] theorem onPolder_counters (p : PolderNo) (f : Polder → Polder) : (onPolder d p f).counters = d.counters := by unfold onPolder; split <;> rfl
@[simp] theorem onPolder_fabric (p : PolderNo) (f : Polder → Polder) : (onPolder d p f).fabric = d.fabric := by unfold onPolder; split <;> rfl
@[simp] theorem onPolder_coll (p : PolderNo) (f : Polder → Polder) : (onPolder d p f).coll = d.coll := by unfold onPolder; split <;> rfl
@[simp] theorem onPolder_cipher (p : PolderNo) (f : Polder → Polder) : (onPolder d p f).cipher = d.cipher := by unfold onPolder; split <;> rfl
@[simp] theorem onPolder_boot (p : PolderNo) (f : Polder → Polder) : (onPolder d p f).boot = d.boot := by unfold onPolder; split <;> rfl
@[simp] theorem onPolder_claims (p : PolderNo) (f : Polder → Polder) : (onPolder d p f).claims = d.claims := by unfold onPolder; split <;> rfl
@[simp] theorem onPolder_sluice (p : PolderNo) (f : Polder → Polder) : (onPolder d p f).sluice = d.sluice := by unfold onPolder; split <;> rfl
@[simp] theorem onPolder_tidal (p : PolderNo) (f : Polder → Polder) : (onPolder d p f).tidal = d.tidal := by unfold onPolder; split <;> rfl

/-! `count` -/
@[simp] theorem count_free (k i ev n : Nat) (p : Option PolderNo) : (count d k i ev n p).free = d.free := by unfold count; split <;> rfl
@[simp] theorem count_kclk (k i ev n : Nat) (p : Option PolderNo) : (count d k i ev n p).kclk = d.kclk := by unfold count; split <;> rfl
@[simp] theorem count_tiles (k i ev n : Nat) (p : Option PolderNo) : (count d k i ev n p).tiles = d.tiles := by unfold count; split <;> rfl
@[simp] theorem count_mem (k i ev n : Nat) (p : Option PolderNo) : (count d k i ev n p).mem = d.mem := by unfold count; split <;> rfl
@[simp] theorem count_polders (k i ev n : Nat) (p : Option PolderNo) : (count d k i ev n p).polders = d.polders := by unfold count; split <;> rfl
@[simp] theorem count_reeve (k i ev n : Nat) (p : Option PolderNo) : (count d k i ev n p).reeve = d.reeve := by unfold count; split <;> rfl
@[simp] theorem count_grid (k i ev n : Nat) (p : Option PolderNo) : (count d k i ev n p).grid = d.grid := by unfold count; split <;> rfl
@[simp] theorem count_blocks (k i ev n : Nat) (p : Option PolderNo) : (count d k i ev n p).blocks = d.blocks := by unfold count; split <;> rfl
@[simp] theorem count_resets (k i ev n : Nat) (p : Option PolderNo) : (count d k i ev n p).resets = d.resets := by unfold count; split <;> rfl
@[simp] theorem count_meters (k i ev n : Nat) (p : Option PolderNo) : (count d k i ev n p).meters = d.meters := by unfold count; split <;> rfl
@[simp] theorem count_fabric (k i ev n : Nat) (p : Option PolderNo) : (count d k i ev n p).fabric = d.fabric := by unfold count; split <;> rfl
@[simp] theorem count_coll (k i ev n : Nat) (p : Option PolderNo) : (count d k i ev n p).coll = d.coll := by unfold count; split <;> rfl
@[simp] theorem count_cipher (k i ev n : Nat) (p : Option PolderNo) : (count d k i ev n p).cipher = d.cipher := by unfold count; split <;> rfl
@[simp] theorem count_boot (k i ev n : Nat) (p : Option PolderNo) : (count d k i ev n p).boot = d.boot := by unfold count; split <;> rfl
@[simp] theorem count_claims (k i ev n : Nat) (p : Option PolderNo) : (count d k i ev n p).claims = d.claims := by unfold count; split <;> rfl
@[simp] theorem count_sluice (k i ev n : Nat) (p : Option PolderNo) : (count d k i ev n p).sluice = d.sluice := by unfold count; split <;> rfl
@[simp] theorem count_tidal (k i ev n : Nat) (p : Option PolderNo) : (count d k i ev n p).tidal = d.tidal := by unfold count; split <;> rfl

/-! `setEcc` -/
@[simp] theorem setEcc_free (key : Nat) (e : Option EccWord) : (setEcc d key e).free = d.free := rfl
@[simp] theorem setEcc_kclk (key : Nat) (e : Option EccWord) : (setEcc d key e).kclk = d.kclk := rfl
@[simp] theorem setEcc_tiles (key : Nat) (e : Option EccWord) : (setEcc d key e).tiles = d.tiles := rfl
@[simp] theorem setEcc_polders (key : Nat) (e : Option EccWord) : (setEcc d key e).polders = d.polders := rfl
@[simp] theorem setEcc_reeve (key : Nat) (e : Option EccWord) : (setEcc d key e).reeve = d.reeve := rfl
@[simp] theorem setEcc_grid (key : Nat) (e : Option EccWord) : (setEcc d key e).grid = d.grid := rfl
@[simp] theorem setEcc_blocks (key : Nat) (e : Option EccWord) : (setEcc d key e).blocks = d.blocks := rfl
@[simp] theorem setEcc_resets (key : Nat) (e : Option EccWord) : (setEcc d key e).resets = d.resets := rfl
@[simp] theorem setEcc_meters (key : Nat) (e : Option EccWord) : (setEcc d key e).meters = d.meters := rfl
@[simp] theorem setEcc_counters (key : Nat) (e : Option EccWord) : (setEcc d key e).counters = d.counters := rfl
@[simp] theorem setEcc_fabric (key : Nat) (e : Option EccWord) : (setEcc d key e).fabric = d.fabric := rfl
@[simp] theorem setEcc_coll (key : Nat) (e : Option EccWord) : (setEcc d key e).coll = d.coll := rfl
@[simp] theorem setEcc_cipher (key : Nat) (e : Option EccWord) : (setEcc d key e).cipher = d.cipher := rfl
@[simp] theorem setEcc_boot (key : Nat) (e : Option EccWord) : (setEcc d key e).boot = d.boot := rfl
@[simp] theorem setEcc_claims (key : Nat) (e : Option EccWord) : (setEcc d key e).claims = d.claims := rfl
@[simp] theorem setEcc_sluice (key : Nat) (e : Option EccWord) : (setEcc d key e).sluice = d.sluice := rfl
@[simp] theorem setEcc_tidal (key : Nat) (e : Option EccWord) : (setEcc d key e).tidal = d.tidal := rfl

/-! `rawWrite` -/
@[simp] theorem rawWrite_free (key : Nat) (bs : List Byte) : (rawWrite d key bs).free = d.free := rfl
@[simp] theorem rawWrite_kclk (key : Nat) (bs : List Byte) : (rawWrite d key bs).kclk = d.kclk := rfl
@[simp] theorem rawWrite_tiles (key : Nat) (bs : List Byte) : (rawWrite d key bs).tiles = d.tiles := rfl
@[simp] theorem rawWrite_polders (key : Nat) (bs : List Byte) : (rawWrite d key bs).polders = d.polders := rfl
@[simp] theorem rawWrite_reeve (key : Nat) (bs : List Byte) : (rawWrite d key bs).reeve = d.reeve := rfl
@[simp] theorem rawWrite_grid (key : Nat) (bs : List Byte) : (rawWrite d key bs).grid = d.grid := rfl
@[simp] theorem rawWrite_blocks (key : Nat) (bs : List Byte) : (rawWrite d key bs).blocks = d.blocks := rfl
@[simp] theorem rawWrite_resets (key : Nat) (bs : List Byte) : (rawWrite d key bs).resets = d.resets := rfl
@[simp] theorem rawWrite_meters (key : Nat) (bs : List Byte) : (rawWrite d key bs).meters = d.meters := rfl
@[simp] theorem rawWrite_counters (key : Nat) (bs : List Byte) : (rawWrite d key bs).counters = d.counters := rfl
@[simp] theorem rawWrite_fabric (key : Nat) (bs : List Byte) : (rawWrite d key bs).fabric = d.fabric := rfl
@[simp] theorem rawWrite_coll (key : Nat) (bs : List Byte) : (rawWrite d key bs).coll = d.coll := rfl
@[simp] theorem rawWrite_cipher (key : Nat) (bs : List Byte) : (rawWrite d key bs).cipher = d.cipher := rfl
@[simp] theorem rawWrite_boot (key : Nat) (bs : List Byte) : (rawWrite d key bs).boot = d.boot := rfl
@[simp] theorem rawWrite_claims (key : Nat) (bs : List Byte) : (rawWrite d key bs).claims = d.claims := rfl
@[simp] theorem rawWrite_sluice (key : Nat) (bs : List Byte) : (rawWrite d key bs).sluice = d.sluice := rfl
@[simp] theorem rawWrite_tidal (key : Nat) (bs : List Byte) : (rawWrite d key bs).tidal = d.tidal := rfl

/-! `elogPut` -/
@[simp] theorem elogPut_free (n : Nat) (r : BitVec 128) : (elogPut d n r).free = d.free := rfl
@[simp] theorem elogPut_kclk (n : Nat) (r : BitVec 128) : (elogPut d n r).kclk = d.kclk := rfl
@[simp] theorem elogPut_tiles (n : Nat) (r : BitVec 128) : (elogPut d n r).tiles = d.tiles := rfl
@[simp] theorem elogPut_polders (n : Nat) (r : BitVec 128) : (elogPut d n r).polders = d.polders := rfl
@[simp] theorem elogPut_reeve (n : Nat) (r : BitVec 128) : (elogPut d n r).reeve = d.reeve := rfl
@[simp] theorem elogPut_grid (n : Nat) (r : BitVec 128) : (elogPut d n r).grid = d.grid := rfl
@[simp] theorem elogPut_blocks (n : Nat) (r : BitVec 128) : (elogPut d n r).blocks = d.blocks := rfl
@[simp] theorem elogPut_resets (n : Nat) (r : BitVec 128) : (elogPut d n r).resets = d.resets := rfl
@[simp] theorem elogPut_meters (n : Nat) (r : BitVec 128) : (elogPut d n r).meters = d.meters := rfl
@[simp] theorem elogPut_counters (n : Nat) (r : BitVec 128) : (elogPut d n r).counters = d.counters := rfl
@[simp] theorem elogPut_fabric (n : Nat) (r : BitVec 128) : (elogPut d n r).fabric = d.fabric := rfl
@[simp] theorem elogPut_coll (n : Nat) (r : BitVec 128) : (elogPut d n r).coll = d.coll := rfl
@[simp] theorem elogPut_cipher (n : Nat) (r : BitVec 128) : (elogPut d n r).cipher = d.cipher := rfl
@[simp] theorem elogPut_boot (n : Nat) (r : BitVec 128) : (elogPut d n r).boot = d.boot := rfl
@[simp] theorem elogPut_claims (n : Nat) (r : BitVec 128) : (elogPut d n r).claims = d.claims := rfl
@[simp] theorem elogPut_sluice (n : Nat) (r : BitVec 128) : (elogPut d n r).sluice = d.sluice := rfl
@[simp] theorem elogPut_tidal (n : Nat) (r : BitVec 128) : (elogPut d n r).tidal = d.tidal := rfl

/-! `onRst` -/
@[simp] theorem onRst_free (t : Nat) (f : RouterSt → RouterSt) : (onRst d t f).free = d.free := rfl
@[simp] theorem onRst_kclk (t : Nat) (f : RouterSt → RouterSt) : (onRst d t f).kclk = d.kclk := rfl
@[simp] theorem onRst_mem (t : Nat) (f : RouterSt → RouterSt) : (onRst d t f).mem = d.mem := rfl
@[simp] theorem onRst_polders (t : Nat) (f : RouterSt → RouterSt) : (onRst d t f).polders = d.polders := rfl
@[simp] theorem onRst_reeve (t : Nat) (f : RouterSt → RouterSt) : (onRst d t f).reeve = d.reeve := rfl
@[simp] theorem onRst_grid (t : Nat) (f : RouterSt → RouterSt) : (onRst d t f).grid = d.grid := rfl
@[simp] theorem onRst_blocks (t : Nat) (f : RouterSt → RouterSt) : (onRst d t f).blocks = d.blocks := rfl
@[simp] theorem onRst_resets (t : Nat) (f : RouterSt → RouterSt) : (onRst d t f).resets = d.resets := rfl
@[simp] theorem onRst_meters (t : Nat) (f : RouterSt → RouterSt) : (onRst d t f).meters = d.meters := rfl
@[simp] theorem onRst_counters (t : Nat) (f : RouterSt → RouterSt) : (onRst d t f).counters = d.counters := rfl
@[simp] theorem onRst_fabric (t : Nat) (f : RouterSt → RouterSt) : (onRst d t f).fabric = d.fabric := rfl
@[simp] theorem onRst_coll (t : Nat) (f : RouterSt → RouterSt) : (onRst d t f).coll = d.coll := rfl
@[simp] theorem onRst_cipher (t : Nat) (f : RouterSt → RouterSt) : (onRst d t f).cipher = d.cipher := rfl
@[simp] theorem onRst_boot (t : Nat) (f : RouterSt → RouterSt) : (onRst d t f).boot = d.boot := rfl
@[simp] theorem onRst_claims (t : Nat) (f : RouterSt → RouterSt) : (onRst d t f).claims = d.claims := rfl
@[simp] theorem onRst_sluice (t : Nat) (f : RouterSt → RouterSt) : (onRst d t f).sluice = d.sluice := rfl
@[simp] theorem onRst_tidal (t : Nat) (f : RouterSt → RouterSt) : (onRst d t f).tidal = d.tidal := rfl

/-! `onTxn` -/
@[simp] theorem onTxn_free (t : Nat) (f : Txn → Txn) : (onTxn d t f).free = d.free := rfl
@[simp] theorem onTxn_kclk (t : Nat) (f : Txn → Txn) : (onTxn d t f).kclk = d.kclk := rfl
@[simp] theorem onTxn_mem (t : Nat) (f : Txn → Txn) : (onTxn d t f).mem = d.mem := rfl
@[simp] theorem onTxn_polders (t : Nat) (f : Txn → Txn) : (onTxn d t f).polders = d.polders := rfl
@[simp] theorem onTxn_reeve (t : Nat) (f : Txn → Txn) : (onTxn d t f).reeve = d.reeve := rfl
@[simp] theorem onTxn_grid (t : Nat) (f : Txn → Txn) : (onTxn d t f).grid = d.grid := rfl
@[simp] theorem onTxn_blocks (t : Nat) (f : Txn → Txn) : (onTxn d t f).blocks = d.blocks := rfl
@[simp] theorem onTxn_resets (t : Nat) (f : Txn → Txn) : (onTxn d t f).resets = d.resets := rfl
@[simp] theorem onTxn_meters (t : Nat) (f : Txn → Txn) : (onTxn d t f).meters = d.meters := rfl
@[simp] theorem onTxn_counters (t : Nat) (f : Txn → Txn) : (onTxn d t f).counters = d.counters := rfl
@[simp] theorem onTxn_fabric (t : Nat) (f : Txn → Txn) : (onTxn d t f).fabric = d.fabric := rfl
@[simp] theorem onTxn_coll (t : Nat) (f : Txn → Txn) : (onTxn d t f).coll = d.coll := rfl
@[simp] theorem onTxn_cipher (t : Nat) (f : Txn → Txn) : (onTxn d t f).cipher = d.cipher := rfl
@[simp] theorem onTxn_boot (t : Nat) (f : Txn → Txn) : (onTxn d t f).boot = d.boot := rfl
@[simp] theorem onTxn_claims (t : Nat) (f : Txn → Txn) : (onTxn d t f).claims = d.claims := rfl
@[simp] theorem onTxn_sluice (t : Nat) (f : Txn → Txn) : (onTxn d t f).sluice = d.sluice := rfl
@[simp] theorem onTxn_tidal (t : Nat) (f : Txn → Txn) : (onTxn d t f).tidal = d.tidal := rfl

/-! `onBasin` -/
@[simp] theorem onBasin_free (t : Nat) (f : List BasinSlot → List BasinSlot) : (onBasin d t f).free = d.free := rfl
@[simp] theorem onBasin_kclk (t : Nat) (f : List BasinSlot → List BasinSlot) : (onBasin d t f).kclk = d.kclk := rfl
@[simp] theorem onBasin_mem (t : Nat) (f : List BasinSlot → List BasinSlot) : (onBasin d t f).mem = d.mem := rfl
@[simp] theorem onBasin_polders (t : Nat) (f : List BasinSlot → List BasinSlot) : (onBasin d t f).polders = d.polders := rfl
@[simp] theorem onBasin_reeve (t : Nat) (f : List BasinSlot → List BasinSlot) : (onBasin d t f).reeve = d.reeve := rfl
@[simp] theorem onBasin_grid (t : Nat) (f : List BasinSlot → List BasinSlot) : (onBasin d t f).grid = d.grid := rfl
@[simp] theorem onBasin_blocks (t : Nat) (f : List BasinSlot → List BasinSlot) : (onBasin d t f).blocks = d.blocks := rfl
@[simp] theorem onBasin_resets (t : Nat) (f : List BasinSlot → List BasinSlot) : (onBasin d t f).resets = d.resets := rfl
@[simp] theorem onBasin_meters (t : Nat) (f : List BasinSlot → List BasinSlot) : (onBasin d t f).meters = d.meters := rfl
@[simp] theorem onBasin_counters (t : Nat) (f : List BasinSlot → List BasinSlot) : (onBasin d t f).counters = d.counters := rfl
@[simp] theorem onBasin_fabric (t : Nat) (f : List BasinSlot → List BasinSlot) : (onBasin d t f).fabric = d.fabric := rfl
@[simp] theorem onBasin_coll (t : Nat) (f : List BasinSlot → List BasinSlot) : (onBasin d t f).coll = d.coll := rfl
@[simp] theorem onBasin_cipher (t : Nat) (f : List BasinSlot → List BasinSlot) : (onBasin d t f).cipher = d.cipher := rfl
@[simp] theorem onBasin_boot (t : Nat) (f : List BasinSlot → List BasinSlot) : (onBasin d t f).boot = d.boot := rfl
@[simp] theorem onBasin_claims (t : Nat) (f : List BasinSlot → List BasinSlot) : (onBasin d t f).claims = d.claims := rfl
@[simp] theorem onBasin_sluice (t : Nat) (f : List BasinSlot → List BasinSlot) : (onBasin d t f).sluice = d.sluice := rfl
@[simp] theorem onBasin_tidal (t : Nat) (f : List BasinSlot → List BasinSlot) : (onBasin d t f).tidal = d.tidal := rfl

/-! `onTagged` -/
@[simp] theorem onTagged_free (tag : BitVec 16) (f : RunOp → RunOp) : (onTagged d tag f).free = d.free := by unfold onTagged; split <;> rfl
@[simp] theorem onTagged_kclk (tag : BitVec 16) (f : RunOp → RunOp) : (onTagged d tag f).kclk = d.kclk := by unfold onTagged; split <;> rfl
@[simp] theorem onTagged_mem (tag : BitVec 16) (f : RunOp → RunOp) : (onTagged d tag f).mem = d.mem := by unfold onTagged; split <;> rfl
@[simp] theorem onTagged_polders (tag : BitVec 16) (f : RunOp → RunOp) : (onTagged d tag f).polders = d.polders := by unfold onTagged; split <;> rfl
@[simp] theorem onTagged_reeve (tag : BitVec 16) (f : RunOp → RunOp) : (onTagged d tag f).reeve = d.reeve := by unfold onTagged; split <;> rfl
@[simp] theorem onTagged_grid (tag : BitVec 16) (f : RunOp → RunOp) : (onTagged d tag f).grid = d.grid := by unfold onTagged; split <;> rfl
@[simp] theorem onTagged_blocks (tag : BitVec 16) (f : RunOp → RunOp) : (onTagged d tag f).blocks = d.blocks := by unfold onTagged; split <;> rfl
@[simp] theorem onTagged_resets (tag : BitVec 16) (f : RunOp → RunOp) : (onTagged d tag f).resets = d.resets := by unfold onTagged; split <;> rfl
@[simp] theorem onTagged_meters (tag : BitVec 16) (f : RunOp → RunOp) : (onTagged d tag f).meters = d.meters := by unfold onTagged; split <;> rfl
@[simp] theorem onTagged_counters (tag : BitVec 16) (f : RunOp → RunOp) : (onTagged d tag f).counters = d.counters := by unfold onTagged; split <;> rfl
@[simp] theorem onTagged_fabric (tag : BitVec 16) (f : RunOp → RunOp) : (onTagged d tag f).fabric = d.fabric := by unfold onTagged; split <;> rfl
@[simp] theorem onTagged_coll (tag : BitVec 16) (f : RunOp → RunOp) : (onTagged d tag f).coll = d.coll := by unfold onTagged; split <;> rfl
@[simp] theorem onTagged_cipher (tag : BitVec 16) (f : RunOp → RunOp) : (onTagged d tag f).cipher = d.cipher := by unfold onTagged; split <;> rfl
@[simp] theorem onTagged_boot (tag : BitVec 16) (f : RunOp → RunOp) : (onTagged d tag f).boot = d.boot := by unfold onTagged; split <;> rfl
@[simp] theorem onTagged_claims (tag : BitVec 16) (f : RunOp → RunOp) : (onTagged d tag f).claims = d.claims := by unfold onTagged; split <;> rfl
@[simp] theorem onTagged_sluice (tag : BitVec 16) (f : RunOp → RunOp) : (onTagged d tag f).sluice = d.sluice := by unfold onTagged; split <;> rfl
@[simp] theorem onTagged_tidal (tag : BitVec 16) (f : RunOp → RunOp) : (onTagged d tag f).tidal = d.tidal := by unfold onTagged; split <;> rfl

/-! `onStream` -/
@[simp] theorem onStream_free (job coll : BitVec 16) (ph : Nat) (f : Stream → Stream) : (onStream d job coll ph f).free = d.free := rfl
@[simp] theorem onStream_kclk (job coll : BitVec 16) (ph : Nat) (f : Stream → Stream) : (onStream d job coll ph f).kclk = d.kclk := rfl
@[simp] theorem onStream_tiles (job coll : BitVec 16) (ph : Nat) (f : Stream → Stream) : (onStream d job coll ph f).tiles = d.tiles := rfl
@[simp] theorem onStream_mem (job coll : BitVec 16) (ph : Nat) (f : Stream → Stream) : (onStream d job coll ph f).mem = d.mem := rfl
@[simp] theorem onStream_polders (job coll : BitVec 16) (ph : Nat) (f : Stream → Stream) : (onStream d job coll ph f).polders = d.polders := rfl
@[simp] theorem onStream_reeve (job coll : BitVec 16) (ph : Nat) (f : Stream → Stream) : (onStream d job coll ph f).reeve = d.reeve := rfl
@[simp] theorem onStream_grid (job coll : BitVec 16) (ph : Nat) (f : Stream → Stream) : (onStream d job coll ph f).grid = d.grid := rfl
@[simp] theorem onStream_blocks (job coll : BitVec 16) (ph : Nat) (f : Stream → Stream) : (onStream d job coll ph f).blocks = d.blocks := rfl
@[simp] theorem onStream_resets (job coll : BitVec 16) (ph : Nat) (f : Stream → Stream) : (onStream d job coll ph f).resets = d.resets := rfl
@[simp] theorem onStream_meters (job coll : BitVec 16) (ph : Nat) (f : Stream → Stream) : (onStream d job coll ph f).meters = d.meters := rfl
@[simp] theorem onStream_counters (job coll : BitVec 16) (ph : Nat) (f : Stream → Stream) : (onStream d job coll ph f).counters = d.counters := rfl
@[simp] theorem onStream_fabric (job coll : BitVec 16) (ph : Nat) (f : Stream → Stream) : (onStream d job coll ph f).fabric = d.fabric := rfl
@[simp] theorem onStream_cipher (job coll : BitVec 16) (ph : Nat) (f : Stream → Stream) : (onStream d job coll ph f).cipher = d.cipher := rfl
@[simp] theorem onStream_boot (job coll : BitVec 16) (ph : Nat) (f : Stream → Stream) : (onStream d job coll ph f).boot = d.boot := rfl
@[simp] theorem onStream_claims (job coll : BitVec 16) (ph : Nat) (f : Stream → Stream) : (onStream d job coll ph f).claims = d.claims := rfl
@[simp] theorem onStream_sluice (job coll : BitVec 16) (ph : Nat) (f : Stream → Stream) : (onStream d job coll ph f).sluice = d.sluice := rfl
@[simp] theorem onStream_tidal (job coll : BitVec 16) (ph : Nat) (f : Stream → Stream) : (onStream d job coll ph f).tidal = d.tidal := rfl

/-! `onJob` -/
@[simp] theorem onJob_free (id : Nat) (f : ResetJob → ResetJob) : (onJob d id f).free = d.free := rfl
@[simp] theorem onJob_kclk (id : Nat) (f : ResetJob → ResetJob) : (onJob d id f).kclk = d.kclk := rfl
@[simp] theorem onJob_tiles (id : Nat) (f : ResetJob → ResetJob) : (onJob d id f).tiles = d.tiles := rfl
@[simp] theorem onJob_mem (id : Nat) (f : ResetJob → ResetJob) : (onJob d id f).mem = d.mem := rfl
@[simp] theorem onJob_polders (id : Nat) (f : ResetJob → ResetJob) : (onJob d id f).polders = d.polders := rfl
@[simp] theorem onJob_reeve (id : Nat) (f : ResetJob → ResetJob) : (onJob d id f).reeve = d.reeve := rfl
@[simp] theorem onJob_grid (id : Nat) (f : ResetJob → ResetJob) : (onJob d id f).grid = d.grid := rfl
@[simp] theorem onJob_blocks (id : Nat) (f : ResetJob → ResetJob) : (onJob d id f).blocks = d.blocks := rfl
@[simp] theorem onJob_resets (id : Nat) (f : ResetJob → ResetJob) : (onJob d id f).resets = d.resets.map fun j => if j.id = id then f j else j := rfl
@[simp] theorem onJob_meters (id : Nat) (f : ResetJob → ResetJob) : (onJob d id f).meters = d.meters := rfl
@[simp] theorem onJob_counters (id : Nat) (f : ResetJob → ResetJob) : (onJob d id f).counters = d.counters := rfl
@[simp] theorem onJob_fabric (id : Nat) (f : ResetJob → ResetJob) : (onJob d id f).fabric = d.fabric := rfl
@[simp] theorem onJob_coll (id : Nat) (f : ResetJob → ResetJob) : (onJob d id f).coll = d.coll := rfl
@[simp] theorem onJob_cipher (id : Nat) (f : ResetJob → ResetJob) : (onJob d id f).cipher = d.cipher := rfl
@[simp] theorem onJob_boot (id : Nat) (f : ResetJob → ResetJob) : (onJob d id f).boot = d.boot := rfl
@[simp] theorem onJob_claims (id : Nat) (f : ResetJob → ResetJob) : (onJob d id f).claims = d.claims := rfl
@[simp] theorem onJob_sluice (id : Nat) (f : ResetJob → ResetJob) : (onJob d id f).sluice = d.sluice := rfl
@[simp] theorem onJob_tidal (id : Nat) (f : ResetJob → ResetJob) : (onJob d id f).tidal = d.tidal := rfl

/-! `onBlock` -/
@[simp] theorem onBlock_free (k i : Nat) (f : CtrBlock → CtrBlock) : (onBlock d k i f).free = d.free := rfl
@[simp] theorem onBlock_kclk (k i : Nat) (f : CtrBlock → CtrBlock) : (onBlock d k i f).kclk = d.kclk := rfl
@[simp] theorem onBlock_tiles (k i : Nat) (f : CtrBlock → CtrBlock) : (onBlock d k i f).tiles = d.tiles := rfl
@[simp] theorem onBlock_mem (k i : Nat) (f : CtrBlock → CtrBlock) : (onBlock d k i f).mem = d.mem := rfl
@[simp] theorem onBlock_polders (k i : Nat) (f : CtrBlock → CtrBlock) : (onBlock d k i f).polders = d.polders := rfl
@[simp] theorem onBlock_reeve (k i : Nat) (f : CtrBlock → CtrBlock) : (onBlock d k i f).reeve = d.reeve := rfl
@[simp] theorem onBlock_grid (k i : Nat) (f : CtrBlock → CtrBlock) : (onBlock d k i f).grid = d.grid := rfl
@[simp] theorem onBlock_blocks (k i : Nat) (f : CtrBlock → CtrBlock) : (onBlock d k i f).blocks = d.blocks := rfl
@[simp] theorem onBlock_resets (k i : Nat) (f : CtrBlock → CtrBlock) : (onBlock d k i f).resets = d.resets := rfl
@[simp] theorem onBlock_meters (k i : Nat) (f : CtrBlock → CtrBlock) : (onBlock d k i f).meters = d.meters := rfl
@[simp] theorem onBlock_fabric (k i : Nat) (f : CtrBlock → CtrBlock) : (onBlock d k i f).fabric = d.fabric := rfl
@[simp] theorem onBlock_coll (k i : Nat) (f : CtrBlock → CtrBlock) : (onBlock d k i f).coll = d.coll := rfl
@[simp] theorem onBlock_cipher (k i : Nat) (f : CtrBlock → CtrBlock) : (onBlock d k i f).cipher = d.cipher := rfl
@[simp] theorem onBlock_boot (k i : Nat) (f : CtrBlock → CtrBlock) : (onBlock d k i f).boot = d.boot := rfl
@[simp] theorem onBlock_claims (k i : Nat) (f : CtrBlock → CtrBlock) : (onBlock d k i f).claims = d.claims := rfl
@[simp] theorem onBlock_sluice (k i : Nat) (f : CtrBlock → CtrBlock) : (onBlock d k i f).sluice = d.sluice := rfl
@[simp] theorem onBlock_tidal (k i : Nat) (f : CtrBlock → CtrBlock) : (onBlock d k i f).tidal = d.tidal := rfl

/-! ### Parts read after they are written -/

@[simp] theorem tileOf_onTile (t : Nat) (f : Tile → Tile) : tileOf (onTile d t f) t = f (tileOf d t) := by simp [tileOf]
@[simp] theorem tileOf_onTile_ne {t u : Nat} (f : Tile → Tile) (h : u ≠ t) : tileOf (onTile d t f) u = tileOf d u := by
  simp [tileOf, h]
@[simp] theorem threadOf_onThread (t th : Nat) (f : Thread → Thread) : threadOf (onThread d t th f) t th = f (threadOf d t th) := by
  simp [threadOf, onThread]
@[simp] theorem threadOf_onThread_ne {t th u : Nat} (f : Thread → Thread) (h : u ≠ th) :
    threadOf (onThread d t th f) t u = threadOf d t u := by simp [threadOf, onThread, h]
theorem tileOf_onThread (t th : Nat) (f : Thread → Thread) :
    tileOf (onThread d t th f) t = { tileOf d t with threads := NMap.upd (tileOf d t).threads {} th f } := by simp [onThread]
@[simp] theorem tileOf_onThread_ne {t u : Nat} (th : Nat) (f : Thread → Thread) (h : u ≠ t) :
    tileOf (onThread d t th f) u = tileOf d u := by simp [onThread, h]
@[simp] theorem slotOf_onSlot (t n : Nat) (f : Slot → Slot) : slotOf (onSlot d t n f) t n = f (slotOf d t n) := by
  simp [slotOf, onSlot]
@[simp] theorem engineOf_onEngine (t : Nat) (e : EngineId) (f : Engine → Engine) :
    engineOf (onEngine d t e f) t e = f (engineOf d t e) := by simp [engineOf, onEngine]
@[simp] theorem mboxOf_onMbox (m : Nat) (f : Mbox → Mbox) : mboxOf (onMbox d m f) m = f (mboxOf d m) := by simp [mboxOf, onMbox]
@[simp] theorem mboxOf_onMbox_ne {m n : Nat} (f : Mbox → Mbox) (h : n ≠ m) : mboxOf (onMbox d m f) n = mboxOf d n := by
  simp [mboxOf, onMbox, h]
@[simp] theorem portOf_onPort (n : Nat) (f : Port → Port) : portOf (onPort d n f) n = f (portOf d n) := by simp [portOf, onPort]
@[simp] theorem portOf_onPort_ne {n k : Nat} (f : Port → Port) (h : k ≠ n) : portOf (onPort d n f) k = portOf d k := by
  simp [portOf, onPort, h]
@[simp] theorem blkSt_setBlk (k i : Nat) (b : BlkSt) : blkSt (setBlk d k i b) k i = b := by simp [blkSt]
@[simp] theorem basinOf_onBasin (t : Nat) (f : List BasinSlot → List BasinSlot) : basinOf (onBasin d t f) t = f (basinOf d t) := by
  simp [basinOf, onBasin]
theorem streamOf_onStream (job coll : BitVec 16) (ph : Nat) (f : Stream → Stream)
    (h : ∀ w, isStream job coll ph w = true → isStream job coll ph (f w) = true) :
    streamOf (onStream d job coll ph f) job coll ph = (streamOf d job coll ph).map f := by
  unfold streamOf onStream
  simp only [onColl_coll]
  induction d.coll.streams with
  | nil => rfl
  | cons w l ih =>
    by_cases hw : isStream job coll ph w = true
    · simp [hw, h w hw]
    · simp [hw, ih]

/-! ### The lenses -/

@[simp] theorem onDev_eq (f : Dev → Dev) : onDev s f = .next { s with dev := f s.dev } := rfl
@[simp] theorem onDevA_eq (f : AlwaysOn → Dev → Dev) : onDevA s f = .next { s with dev := f s.aon s.dev } := rfl
@[simp] theorem onAon_eq (f : AlwaysOn → Dev → AlwaysOn × Dev) :
    onAon s f = .next { s with aon := (f s.aon s.dev).1, dev := (f s.aon s.dev).2 } := rfl
@[simp] theorem onKeys_eq (f : AlwaysOn → KeyStore → Dev → KeyStore × Dev) :
    onKeys s f = .next { s with keys := (f s.aon s.keys s.dev).1, dev := (f s.aon s.keys s.dev).2 } := rfl
@[simp] theorem onAll_eq (f : AlwaysOn → KeyStore → Dev → AlwaysOn × KeyStore × Dev) :
    onAll s f = .next { s with aon := (f s.aon s.keys s.dev).1, keys := (f s.aon s.keys s.dev).2.1
                               dev := (f s.aon s.keys s.dev).2.2 } := rfl

end Sys2Proof.Machine
end

