-- ==== Sys2Proof/Laws/Memory.lean ====
section
/-! SUPPORT. What an access of memory can do to the device, said once for each operation; and what it does where no word is in
error. -/

namespace Sys2Proof.Machine

theorem OnlyMem.refl (d : Dev) : OnlyMem d d := rfl

theorem OnlyMem.trans {d e f : Dev} (h : OnlyMem d e) (h' : OnlyMem e f) : OnlyMem d f := by
  unfold OnlyMem at *
  rw [h'] ; rw [h]

theorem count_onlyMem (d : Dev) (k i ev n : Nat) (p : Option PolderNo) : OnlyMem d (count d k i ev n p) := by
  unfold count; split <;> rfl

theorem fresh_onlyMem (d : Dev) : OnlyMem d (fresh d).1 := rfl
theorem setEcc_onlyMem (d : Dev) (k : Nat) (e : Option EccWord) : OnlyMem d (setEcc d k e) := rfl
theorem rawWrite_onlyMem (d : Dev) (k : Nat) (bs : List Byte) : OnlyMem d (rawWrite d k bs) := rfl
theorem elogPut_onlyMem (d : Dev) (n : Nat) (r : BitVec 128) : OnlyMem d (elogPut d n r) := rfl
theorem onMem_onlyMem (d : Dev) (f : MemSys → MemSys) : OnlyMem d (onMem d f) := rfl
theorem onMbox_onlyMem (d : Dev) (m : Nat) (f : Mbox → Mbox) : OnlyMem d (onMbox d m f) := rfl
theorem onReeve_onlyMem (d : Dev) (f : Reeve → Reeve) : OnlyMem d (onReeve d f) := rfl

theorem eccCount_onlyMem (d : Dev) (acc : Acc) (k i : Nat) : OnlyMem d (eccCount d acc k i) := by
  unfold eccCount
  dsimp only
  split
  · exact count_onlyMem ..
  · split
    · exact count_onlyMem ..
    · exact .refl d

theorem eccNote_onlyMem (d : Dev) (acc : Acc) (k a kind : Nat) : OnlyMem d (eccNote d acc k a kind) :=
  (elogPut_onlyMem ..).trans (eccCount_onlyMem ..)

theorem hostWrite_onlyMem (d : Dev) (a : Nat) (bs : List Byte) : OnlyMem d ((hostWrite d a bs).getD d) := by
  unfold hostWrite; split
  · rfl
  · exact .refl d

theorem noticeTo_onlyMem (d : Dev) (m k : Nat) (p : Option PolderNo) (j : BitVec 16) (c : Code) (i : Nat) :
    OnlyMem d (noticeTo d m k p j c i) := by
  unfold noticeTo; split
  · exact count_onlyMem ..
  · exact ((onMbox_onlyMem ..).trans (hostWrite_onlyMem ..)).trans (onReeve_onlyMem ..)

theorem foldl_onlyMem {α : Type} (f : Dev → α → Dev) (h : ∀ d x, OnlyMem d (f d x)) (l : List α) (d : Dev) :
    OnlyMem d (l.foldl f d) := by
  induction l generalizing d with
  | nil => exact .refl d
  | cons x l ih => exact (h d x).trans (ih (f d x))

theorem notice_onlyMem (d : Dev) (k : Nat) (p : Option PolderNo) (c : Code) (i : Nat) : OnlyMem d (notice d k p c i) := by
  unfold notice
  dsimp only
  split
  · exact count_onlyMem ..
  · exact foldl_onlyMem _ (fun d m => noticeTo_onlyMem d m k p _ c i) _ d

theorem exhausted_onlyMem (d : Dev) (acc : Acc) (k a : Nat) : OnlyMem d (exhausted d acc k a) :=
  (elogPut_onlyMem ..).trans (notice_onlyMem ..)

theorem markRow_onlyMem (d : Dev) (acc : Acc) (k a : Nat) : OnlyMem d (markRow d acc k a) := by
  unfold markRow
  dsimp only
  repeat' split
  all_goals first | exact exhausted_onlyMem .. | exact onMem_onlyMem .. | exact .refl d

theorem rowHit_onlyMem (d : Dev) (acc : Acc) (k a : Nat) : OnlyMem d (rowHit d acc k a) := by
  unfold rowHit
  dsimp only
  split
  · split
    · exact (onMem_onlyMem ..).trans (markRow_onlyMem ..)
    · exact onMem_onlyMem ..
  · exact .refl d

/-- A word read corrects, poisons, records and counts; it changes nothing else. -/
theorem wordRead_onlyMem (d : Dev) (acc : Acc) (k a : Nat) : OnlyMem d (wordRead d acc k a).1 := by
  unfold wordRead
  split
  · exact .refl d
  · exact ((setEcc_onlyMem ..).trans (eccNote_onlyMem ..)).trans (rowHit_onlyMem ..)
  · exact ((setEcc_onlyMem ..).trans (eccNote_onlyMem ..)).trans (rowHit_onlyMem ..)
  · exact ((setEcc_onlyMem ..).trans (eccNote_onlyMem ..)).trans (markRow_onlyMem ..)
  · exact ((setEcc_onlyMem ..).trans (eccNote_onlyMem ..)).trans (markRow_onlyMem ..)
  · exact ((((fresh_onlyMem d).trans (setEcc_onlyMem ..)).trans (rawWrite_onlyMem ..)).trans (eccNote_onlyMem ..)).trans
      (rowHit_onlyMem ..)
  · exact ((((fresh_onlyMem d).trans (setEcc_onlyMem ..)).trans (rawWrite_onlyMem ..)).trans (eccNote_onlyMem ..)).trans
      (rowHit_onlyMem ..)
  · exact fresh_onlyMem d

theorem wordsRead_onlyMem (d : Dev) (acc : Acc) (a n : Nat) : OnlyMem d (wordsRead d acc a n).1 := by
  induction n generalizing d a with
  | zero => exact .refl d
  | succ n ih =>
    unfold wordsRead
    split
    · exact .refl d
    · exact (wordRead_onlyMem ..).trans (ih ..)

theorem memRead_onlyMem (d : Dev) (acc : Acc) (a n : Nat) : OnlyMem d (memRead d acc a n).1 := by
  unfold memRead
  split
  · exact .refl d
  · split
    · exact .refl d
    · dsimp only
      split <;> exact wordsRead_onlyMem ..

theorem keyWords_onlyMem (d : Dev) (acc : Acc) (k n : Nat) : OnlyMem d (keyWords d acc k n).1 := by
  induction n generalizing d k with
  | zero => exact .refl d
  | succ n ih => exact (wordRead_onlyMem ..).trans (ih ..)

theorem wordWrite_onlyMem (d : Dev) (acc : Acc) (k a o : Nat) (bs : List Byte) : OnlyMem d (wordWrite d acc k a o bs) := by
  unfold wordWrite
  split
  · exact (setEcc_onlyMem ..).trans (rawWrite_onlyMem ..)
  · split
    · exact (((rawWrite_onlyMem ..).trans (setEcc_onlyMem ..)).trans (eccNote_onlyMem ..)).trans (markRow_onlyMem ..)
    · exact rawWrite_onlyMem ..
    · exact (((fresh_onlyMem d).trans (setEcc_onlyMem ..)).trans (rawWrite_onlyMem ..)).trans (rawWrite_onlyMem ..)
    · exact (wordRead_onlyMem ..).trans (rawWrite_onlyMem ..)

theorem wordsWrite_onlyMem (d : Dev) (acc : Acc) (n a : Nat) (bs : List Byte) : OnlyMem d (wordsWrite d acc n a bs) := by
  induction n generalizing d a bs with
  | zero => exact .refl d
  | succ n ih =>
    unfold wordsWrite
    split
    · exact .refl d
    · dsimp only
      split
      · exact .refl d
      · exact (wordWrite_onlyMem ..).trans (ih ..)

/-- A write of local memory touches the memories, their records and counters alone. -/
theorem memWrite_onlyMem (d : Dev) (acc : Acc) (a : Nat) (bs : List Byte) : OnlyMem d (memWrite d acc a bs).1 := by
  unfold memWrite
  split
  · exact .refl d
  · split
    · exact .refl d
    · exact wordsWrite_onlyMem ..

/-! ### Words without an error -/

theorem wordRead_clean (d : Dev) (acc : Acc) (k a : Nat) (h : NMap.find? d.mem.ecc (k / 8) = none) :
    wordRead d acc k a = (d, .good, rawRead d k 8) := by
  unfold wordRead; rw [h]; rfl

theorem wordWrite_whole (d : Dev) (acc : Acc) (k a o : Nat) (bs : List Byte) (h : bs.length = 8) :
    wordWrite d acc k a o bs = rawWrite (setEcc d k none) k bs := by
  unfold wordWrite; simp [h]

/-! ### The canonical form -/

/-- Both memories stay in canonical form. -/
structure Keeps (d d' : Dev) : Prop where
  ok : d.mem.ok = true → d'.mem.ok = true

theorem Keeps.refl (d : Dev) : Keeps d d := ⟨id⟩
theorem Keeps.trans {d e f : Dev} (h : Keeps d e) (h' : Keeps e f) : Keeps d f := ⟨h'.ok ∘ h.ok⟩
theorem Keeps.of_mem {d d' : Dev} (h : d'.mem = d.mem) : Keeps d d' := ⟨by rw [h]; exact id⟩

theorem MemSys.ok_iff (m : MemSys) : m.ok = true ↔ m.bytes.wf = true ∧ m.host.wf = true := by simp [MemSys.ok]

theorem count_keeps (d : Dev) (k i ev n : Nat) (p : Option PolderNo) : Keeps d (count d k i ev n p) := .of_mem (by simp)
theorem fresh_keeps (d : Dev) : Keeps d (fresh d).1 := ⟨id⟩
theorem setEcc_keeps (d : Dev) (k : Nat) (e : Option EccWord) : Keeps d (setEcc d k e) := ⟨id⟩
theorem elogPut_keeps (d : Dev) (n : Nat) (r : BitVec 128) : Keeps d (elogPut d n r) := ⟨id⟩
theorem rawWrite_keeps (d : Dev) (k : Nat) (bs : List Byte) : Keeps d (rawWrite d k bs) := by
  constructor; rw [MemSys.ok_iff, MemSys.ok_iff]
  exact fun h => ⟨Mem.wf_writeN k bs h.1, h.2⟩

theorem hostWrite_keeps (d : Dev) (a : Nat) (bs : List Byte) : Keeps d ((hostWrite d a bs).getD d) := by
  unfold hostWrite; split
  · constructor; rw [MemSys.ok_iff, MemSys.ok_iff]
    exact fun h => ⟨h.1, Mem.wf_writeN a bs h.2⟩
  · exact .refl d

theorem eccCount_keeps (d : Dev) (acc : Acc) (k i : Nat) : Keeps d (eccCount d acc k i) := by
  unfold eccCount
  dsimp only
  repeat' split
  all_goals first | exact count_keeps .. | exact .refl d

theorem eccNote_keeps (d : Dev) (acc : Acc) (k a kind : Nat) : Keeps d (eccNote d acc k a kind) :=
  (elogPut_keeps ..).trans (eccCount_keeps ..)

theorem noticeTo_keeps (d : Dev) (m k : Nat) (p : Option PolderNo) (j : BitVec 16) (c : Code) (i : Nat) :
    Keeps d (noticeTo d m k p j c i) := by
  unfold noticeTo; split
  · exact count_keeps ..
  · rename_i r _
    exact ((Keeps.of_mem (d := d) (d' := onMbox d m _) rfl).trans (hostWrite_keeps ..)).trans (.of_mem rfl)

theorem foldl_keeps {α : Type} (f : Dev → α → Dev) (h : ∀ d x, Keeps d (f d x)) (l : List α) (d : Dev) : Keeps d (l.foldl f d) := by
  induction l generalizing d with
  | nil => exact .refl d
  | cons x l ih => exact (h d x).trans (ih (f d x))

theorem notice_keeps (d : Dev) (k : Nat) (p : Option PolderNo) (c : Code) (i : Nat) : Keeps d (notice d k p c i) := by
  unfold notice
  dsimp only
  split
  · exact count_keeps ..
  · exact foldl_keeps _ (fun d m => noticeTo_keeps d m k p _ c i) _ d

theorem exhausted_keeps (d : Dev) (acc : Acc) (k a : Nat) : Keeps d (exhausted d acc k a) :=
  (elogPut_keeps ..).trans (notice_keeps ..)

theorem markRow_keeps (d : Dev) (acc : Acc) (k a : Nat) : Keeps d (markRow d acc k a) := by
  unfold markRow
  dsimp only
  repeat' split
  all_goals first | exact exhausted_keeps .. | exact ⟨id⟩

theorem rowHit_keeps (d : Dev) (acc : Acc) (k a : Nat) : Keeps d (rowHit d acc k a) := by
  unfold rowHit
  dsimp only
  split
  · split
    · exact Keeps.trans (e := onMem d _) ⟨id⟩ (markRow_keeps ..)
    · exact ⟨id⟩
  · exact .refl d

theorem wordRead_keeps (d : Dev) (acc : Acc) (k a : Nat) : Keeps d (wordRead d acc k a).1 := by
  unfold wordRead
  split
  · exact .refl d
  · exact ((setEcc_keeps ..).trans (eccNote_keeps ..)).trans (rowHit_keeps ..)
  · exact ((setEcc_keeps ..).trans (eccNote_keeps ..)).trans (rowHit_keeps ..)
  · exact ((setEcc_keeps ..).trans (eccNote_keeps ..)).trans (markRow_keeps ..)
  · exact ((setEcc_keeps ..).trans (eccNote_keeps ..)).trans (markRow_keeps ..)
  · exact ((((fresh_keeps d).trans (setEcc_keeps ..)).trans (rawWrite_keeps ..)).trans (eccNote_keeps ..)).trans (rowHit_keeps ..)
  · exact ((((fresh_keeps d).trans (setEcc_keeps ..)).trans (rawWrite_keeps ..)).trans (eccNote_keeps ..)).trans (rowHit_keeps ..)
  · exact fresh_keeps d

theorem wordsRead_keeps (d : Dev) (acc : Acc) (a n : Nat) : Keeps d (wordsRead d acc a n).1 := by
  induction n generalizing d a with
  | zero => exact .refl d
  | succ n ih =>
    unfold wordsRead
    split
    · exact .refl d
    · exact (wordRead_keeps ..).trans (ih ..)

/-- A read of local memory keeps the canonical form. -/
theorem memRead_keeps (d : Dev) (acc : Acc) (a n : Nat) : Keeps d (memRead d acc a n).1 := by
  unfold memRead
  split
  · exact .refl d
  · split
    · exact .refl d
    · dsimp only
      split <;> exact wordsRead_keeps ..

theorem keyWords_keeps (d : Dev) (acc : Acc) (k n : Nat) : Keeps d (keyWords d acc k n).1 := by
  induction n generalizing d k with
  | zero => exact .refl d
  | succ n ih => exact (wordRead_keeps ..).trans (ih ..)

theorem wordWrite_keeps (d : Dev) (acc : Acc) (k a o : Nat) (bs : List Byte) : Keeps d (wordWrite d acc k a o bs) := by
  unfold wordWrite
  split
  · exact (setEcc_keeps ..).trans (rawWrite_keeps ..)
  · split
    · exact (((rawWrite_keeps ..).trans (setEcc_keeps ..)).trans (eccNote_keeps ..)).trans (markRow_keeps ..)
    · exact rawWrite_keeps ..
    · exact (((fresh_keeps d).trans (setEcc_keeps ..)).trans (rawWrite_keeps ..)).trans (rawWrite_keeps ..)
    · exact (wordRead_keeps ..).trans (rawWrite_keeps ..)

theorem wordsWrite_keeps (d : Dev) (acc : Acc) (n a : Nat) (bs : List Byte) : Keeps d (wordsWrite d acc n a bs) := by
  induction n generalizing d a bs with
  | zero => exact .refl d
  | succ n ih =>
    unfold wordsWrite
    split
    · exact .refl d
    · dsimp only
      split
      · exact .refl d
      · exact (wordWrite_keeps ..).trans (ih ..)

/-- A write of local memory keeps the canonical form. -/
theorem memWrite_keeps (d : Dev) (acc : Acc) (a : Nat) (bs : List Byte) : Keeps d (memWrite d acc a bs).1 := by
  unfold memWrite
  split
  · exact .refl d
  · split
    · exact .refl d
    · exact wordsWrite_keeps ..

theorem keyWrite_keeps (d : Dev) (acc : Acc) (k : Nat) (bs : List Byte) : Keeps d (keyWrite d acc k bs) := wordWrite_keeps ..

/-- Clearing a range keeps the canonical form. -/
theorem zeroKeys_ok (m : MemSys) (p : Nat → Bool) (h : m.ok = true) : (zeroKeys m p).ok = true := by
  rw [MemSys.ok_iff] at h ⊢
  exact ⟨NMap.wf_dropKeys p h.1, h.2⟩

end Sys2Proof.Machine
end

