-- ==== Sys2Proof/Laws/Access.lean ====
section
/-! SUPPORT. Where an address lies (R205 to R207): a unit of 256 B lies together, no two addresses share a byte, and what a
read returns and a write leaves when the words it meets are in no error. -/

namespace Sys2Proof.Machine

/-! ### The place of an address -/

theorem hbmPlace_eq (m : W64) (x : Nat) :
    hbmPlace m x = if bitAt m.toNat (x / 2 ^ 30 % 64) then
        (x / 2 ^ 8 % 16, x / 2 ^ 12 % 2 ^ 24 * 2 ^ 12 + x / 2 ^ 36 % 16 * 2 ^ 8 + x % 2 ^ 8)
      else (x / 2 ^ 36 % 16, x % 2 ^ 36) := by
  simp [hbmPlace, bits, Nat.shiftRight_eq_div_pow, Nat.shiftLeft_eq]

/-- Where an address lies, when it is present: a tile's scratchpad, an HBM stripe of either mode, or DDR5. -/
theorem place_cases {d : Dev} {a k : Nat} (h : place d a = .ok k) :
    (a < 0x80000000 ∧ tileUp d (a / 2 ^ 20) = true ∧ k = a) ∨
    (∃ x, a = hbmBase + x ∧ x < 2 ^ 40 ∧ bitAt d.mem.imap.toNat (x / 2 ^ 30 % 64) = true ∧ (List.range 16).all (stackUp d) = true ∧
      k = hbmBase + x / 2 ^ 8 % 16 * 2 ^ 36 + (x / 2 ^ 12 % 2 ^ 24 * 2 ^ 12 + x / 2 ^ 36 % 16 * 2 ^ 8 + x % 2 ^ 8)) ∨
    (∃ x, a = hbmBase + x ∧ x < 2 ^ 40 ∧ bitAt d.mem.imap.toNat (x / 2 ^ 30 % 64) = false ∧ stackUp d (x / 2 ^ 36 % 16) = true ∧
      k = hbmBase + x) ∨
    (∃ y, a = ddrBase + y ∧ y < 2 ^ 42 ∧ y < ddrCap d ∧
      k = ddrBase + (ddrChans d).getD (y / 4096 % (ddrChans d).length) 0 * 2 ^ 40 + (y / 4096 / (ddrChans d).length * 4096 + y % 4096)) := by
  have b1 : hbmBase = 1099511627776 := rfl
  have b2 : ddrBase = 2199023255552 := rfl
  have b3 : ddrEnd = 6597069766656 := rfl
  unfold place at h
  by_cases h1 : a < 0x80000000
  · rw [if_pos h1] at h
    split at h
    · exact .inl ⟨h1, by assumption, (Except.ok.inj h).symm⟩
    · cases h
  rw [if_neg h1] at h
  by_cases h2 : a < 0xC0000000
  · rw [if_pos h2] at h; cases h
  rw [if_neg h2] at h
  by_cases h3 : a < hbmBase
  · rw [if_pos h3] at h; cases h
  rw [if_neg h3] at h
  by_cases h4 : a < ddrBase
  · rw [if_pos h4] at h
    obtain ⟨x, rfl⟩ : ∃ x, a = hbmBase + x := ⟨a - hbmBase, by omega⟩
    have hx : x < 2 ^ 40 := by omega
    have e : bits x 35 30 = x / 2 ^ 30 % 64 := by simp [bits, Nat.shiftRight_eq_div_pow]
    rw [Nat.add_sub_cancel_left] at h
    simp only [hbmPlace_eq, e, hbmKey] at h
    by_cases hg : bitAt d.mem.imap.toNat (x / 2 ^ 30 % 64) = true
    · simp only [hg, if_true] at h
      split at h
      · exact .inr (.inl ⟨x, rfl, hx, hg, by assumption, (Except.ok.inj h).symm⟩)
      · cases h
    · simp only [hg, if_false, Bool.false_eq_true] at h
      split at h
      · refine .inr (.inr (.inl ⟨x, rfl, hx, by simpa using hg, by assumption, ?_⟩))
        rw [← Except.ok.inj h]
        omega
      · cases h
  rw [if_neg h4] at h
  split at h
  · rename_i h5
    obtain ⟨y, rfl⟩ : ∃ y, a = ddrBase + y := ⟨a - ddrBase, by omega⟩
    rw [Nat.add_sub_cancel_left] at h
    dsimp only [ddrKey] at h
    by_cases hc : y < ddrCap d
    · rw [if_pos hc] at h
      exact .inr (.inr (.inr ⟨y, rfl, by omega, hc, (Except.ok.inj h).symm⟩))
    · rw [if_neg hc] at h; cases h
  · cases h

theorem place_tile {d : Dev} {a : Nat} (h : a < 0x80000000) (hu : tileUp d (a / 2 ^ 20) = true) : place d a = .ok a := by
  unfold place; rw [if_pos h, if_pos hu]

theorem place_hbm_global {d : Dev} {x : Nat} (hx : x < 2 ^ 40) (hg : bitAt d.mem.imap.toNat (x / 2 ^ 30 % 64) = true)
    (hs : (List.range 16).all (stackUp d) = true) :
    place d (hbmBase + x) =
      .ok (hbmBase + x / 2 ^ 8 % 16 * 2 ^ 36 + (x / 2 ^ 12 % 2 ^ 24 * 2 ^ 12 + x / 2 ^ 36 % 16 * 2 ^ 8 + x % 2 ^ 8)) := by
  have e : bits x 35 30 = x / 2 ^ 30 % 64 := by simp [bits, Nat.shiftRight_eq_div_pow]
  have b1 : hbmBase = 1099511627776 := rfl
  have b2 : ddrBase = 2199023255552 := rfl
  have b3 : ddrEnd = 6597069766656 := rfl
  unfold place
  rw [if_neg (by omega), if_neg (by omega), if_neg (by omega),
    if_pos (by omega)]
  rw [Nat.add_sub_cancel_left]
  simp only [hbmPlace_eq, e, hg, if_true, hs, hbmKey]

theorem place_hbm_local {d : Dev} {x : Nat} (hx : x < 2 ^ 40) (hg : bitAt d.mem.imap.toNat (x / 2 ^ 30 % 64) = false)
    (hs : stackUp d (x / 2 ^ 36 % 16) = true) : place d (hbmBase + x) = .ok (hbmBase + x) := by
  have e : bits x 35 30 = x / 2 ^ 30 % 64 := by simp [bits, Nat.shiftRight_eq_div_pow]
  have b1 : hbmBase = 1099511627776 := rfl
  have b2 : ddrBase = 2199023255552 := rfl
  have b3 : ddrEnd = 6597069766656 := rfl
  unfold place
  rw [if_neg (by omega), if_neg (by omega), if_neg (by omega),
    if_pos (by omega)]
  rw [Nat.add_sub_cancel_left]
  simp only [hbmPlace_eq, e, hg, Bool.false_eq_true, if_false, hs, if_true, hbmKey]
  congr 1; omega

theorem place_ddr {d : Dev} {y : Nat} (hy : y < 2 ^ 42) (hc : y < ddrCap d) :
    place d (ddrBase + y) =
      .ok (ddrBase + (ddrChans d).getD (y / 4096 % (ddrChans d).length) 0 * 2 ^ 40 + (y / 4096 / (ddrChans d).length * 4096 + y % 4096)) := by
  have b1 : hbmBase = 1099511627776 := rfl
  have b2 : ddrBase = 2199023255552 := rfl
  have b3 : ddrEnd = 6597069766656 := rfl
  unfold place ddrKey
  rw [if_neg (by omega), if_neg (by omega), if_neg (by omega),
    if_neg (by omega), if_pos (by omega)]
  rw [Nat.add_sub_cancel_left]
  exact if_pos hc

theorem ddrCap_mod (d : Dev) : ddrCap d % 4096 = 0 := by unfold ddrCap gib; omega

/-- The bytes of an aligned unit of 256 B lie together. -/
theorem place_add {d : Dev} {a k i : Nat} (h : place d a = .ok k) (hi : a % 256 + i < 256) : place d (a + i) = .ok (k + i) := by
  have b1 : hbmBase = 1099511627776 := rfl
  have b2 : ddrBase = 2199023255552 := rfl
  rcases place_cases h with ⟨h1, hu, rfl⟩ | ⟨x, rfl, hx, hg, hs, rfl⟩ | ⟨x, rfl, hx, hg, hs, rfl⟩ | ⟨y, rfl, hy, hc, rfl⟩
  · exact place_tile (by omega) (by rwa [show (k + i) / 2 ^ 20 = k / 2 ^ 20 by omega])
  · have hm : x % 256 + i < 256 := by omega
    have e : (x + i) / 2 ^ 30 % 64 = x / 2 ^ 30 % 64 := by omega
    rw [show hbmBase + x + i = hbmBase + (x + i) by omega, place_hbm_global (by omega) (by rw [e]; exact hg) hs,
      show (x + i) / 2 ^ 8 = x / 2 ^ 8 by omega, show (x + i) / 2 ^ 12 = x / 2 ^ 12 by omega,
      show (x + i) / 2 ^ 36 = x / 2 ^ 36 by omega, show (x + i) % 2 ^ 8 = x % 2 ^ 8 + i by omega]
    congr 1; omega
  · have hm : x % 256 + i < 256 := by omega
    have e : (x + i) / 2 ^ 30 % 64 = x / 2 ^ 30 % 64 := by omega
    rw [show hbmBase + x + i = hbmBase + (x + i) by omega,
      place_hbm_local (by omega) (by rw [e]; exact hg) (by rwa [show (x + i) / 2 ^ 36 % 16 = x / 2 ^ 36 % 16 by omega])]
  · have hm : y % 256 + i < 256 := by omega
    have hq := ddrCap_mod d
    have e : (y + i) / 4096 = y / 4096 := by omega
    rw [show ddrBase + y + i = ddrBase + (y + i) by omega, place_ddr (by omega) (by omega), e,
      show (y + i) % 4096 = y % 4096 + i by omega]
    congr 1; omega

/-- The channel and the place in it of a DDR5 byte, from which its offset follows. -/
theorem ddr_key {d : Dev} {y : Nat} (hy : y < 2 ^ 42) (hc : y < ddrCap d) :
    ∃ n c o, (n = 4 ∨ n = 8) ∧ (ddrChans d).length = n ∧ (ddrChans d).getD (y / 4096 % (ddrChans d).length) 0 = c ∧ c < 8 ∧
      o = y / 4096 / n * 4096 + y % 4096 ∧ o < 2 ^ 40 ∧ y / 4096 % n = c % n := by
  have hn : ddrChans d ≠ [] := by
    intro e; unfold ddrCap at hc; rw [e] at hc; simp at hc
  have : ddrChans d = [0, 1, 2, 3] ∨ ddrChans d = [4, 5, 6, 7] ∨ ddrChans d = [0, 1, 2, 3, 4, 5, 6, 7] := by
    unfold ddrChans at hn ⊢
    split <;> split <;> simp_all
  rcases this with e | e | e <;> rw [e]
  · refine ⟨4, _, _, .inl rfl, rfl, rfl, ?_, rfl, by omega, ?_⟩ <;>
      (have hq : y / 4096 % 4 < 4 := by omega
       show _
       generalize y / 4096 % 4 = q at *
       match q, hq with | 0, _ => simp | 1, _ => simp | 2, _ => simp | 3, _ => simp)
  · refine ⟨4, _, _, .inl rfl, rfl, rfl, ?_, rfl, by omega, ?_⟩ <;>
      (have hq : y / 4096 % 4 < 4 := by omega
       show _
       generalize y / 4096 % 4 = q at *
       match q, hq with | 0, _ => simp | 1, _ => simp | 2, _ => simp | 3, _ => simp)
  · refine ⟨8, _, _, .inr rfl, rfl, rfl, ?_, rfl, by omega, ?_⟩ <;>
      (have hq : y / 4096 % 8 < 8 := by omega
       show _
       generalize y / 4096 % 8 = q at *
       match q, hq with | 0, _ => simp | 1, _ => simp | 2, _ => simp | 3, _ => simp | 4, _ => simp | 5, _ => simp | 6, _ => simp | 7, _ => simp)

theorem ddr_inj {n y y' o : Nat} (hn : n = 4 ∨ n = 8) (e : o = y / 4096 / n * 4096 + y % 4096)
    (e' : o = y' / 4096 / n * 4096 + y' % 4096) (h : y / 4096 % n = y' / 4096 % n) : y = y' := by
  rcases hn with rfl | rfl <;> omega

theorem pair_inj {B c o c' o' : Nat} (h : B + c * 2 ^ 40 + o = B + c' * 2 ^ 40 + o') (ho : o < 2 ^ 40) (ho' : o' < 2 ^ 40) :
    c = c' ∧ o = o' := by omega

theorem fields40 (a b c c' e : Nat) (ha : a < 256) (hb : b < 16) (hc : c < 2 ^ 18) (hc' : c' < 64) (he : e < 16) :
    (a + 256 * (b + 16 * (c + 2 ^ 18 * (c' + 64 * e)))) / 2 ^ 8 % 16 = b ∧
    (a + 256 * (b + 16 * (c + 2 ^ 18 * (c' + 64 * e)))) / 2 ^ 12 % 2 ^ 24 = c + 2 ^ 18 * c' ∧
    (a + 256 * (b + 16 * (c + 2 ^ 18 * (c' + 64 * e)))) / 2 ^ 36 % 16 = e ∧
    (a + 256 * (b + 16 * (c + 2 ^ 18 * (c' + 64 * e)))) / 2 ^ 30 % 64 = c' ∧
    (a + 256 * (b + 16 * (c + 2 ^ 18 * (c' + 64 * e)))) % 2 ^ 8 = a := by
  refine ⟨?_, ?_, ?_, ?_, by omega⟩
  · rw [show (a + 256 * (b + 16 * (c + 2 ^ 18 * (c' + 64 * e)))) / 2 ^ 8 = b + 16 * (c + 2 ^ 18 * (c' + 64 * e)) by omega]; omega
  · rw [show (a + 256 * (b + 16 * (c + 2 ^ 18 * (c' + 64 * e)))) / 2 ^ 12 = c + 2 ^ 18 * c' + 2 ^ 24 * e by omega]; omega
  · rw [show (a + 256 * (b + 16 * (c + 2 ^ 18 * (c' + 64 * e)))) / 2 ^ 36 = e by omega]; omega
  · rw [show (a + 256 * (b + 16 * (c + 2 ^ 18 * (c' + 64 * e)))) / 2 ^ 30 = c' + 64 * e by omega]; omega

/-- The HBM byte of an offset whose stripe is interleaved over the stacks. -/
theorem glob_key (x : Nat) (hx : x < 2 ^ 40) : ∃ y, y = x / 2 ^ 8 % 16 * 2 ^ 36 + (x / 2 ^ 12 % 2 ^ 24 * 2 ^ 12 + x / 2 ^ 36 % 16 * 2 ^ 8 + x % 2 ^ 8)
    ∧ y < 2 ^ 40 ∧ y / 2 ^ 30 % 64 = x / 2 ^ 30 % 64 ∧
    x = y / 2 ^ 8 % 16 * 2 ^ 36 + (y / 2 ^ 12 % 2 ^ 24 * 2 ^ 12 + y / 2 ^ 36 % 16 * 2 ^ 8 + y % 2 ^ 8) := by
  obtain ⟨a, b, c, c', e, rfl, ha, hb, hc, hc', he⟩ : ∃ a b c c' e, x = a + 256 * (b + 16 * (c + 2 ^ 18 * (c' + 64 * e))) ∧ a < 256 ∧
      b < 16 ∧ c < 2 ^ 18 ∧ c' < 64 ∧ e < 16 := by
    have h1 : x = x % 256 + 256 * (x / 256) := by omega
    have h2 : x / 256 = x / 256 % 16 + 16 * (x / 256 / 16) := by omega
    have h3 : x / 256 / 16 = x / 256 / 16 % 2 ^ 18 + 2 ^ 18 * (x / 256 / 16 / 2 ^ 18) := by omega
    have h4 : x / 256 / 16 / 2 ^ 18 = x / 256 / 16 / 2 ^ 18 % 64 + 64 * (x / 256 / 16 / 2 ^ 18 / 64) := by omega
    refine ⟨x % 256, x / 256 % 16, x / 256 / 16 % 2 ^ 18, x / 256 / 16 / 2 ^ 18 % 64, x / 256 / 16 / 2 ^ 18 / 64, ?_,
      by omega, by omega, by omega, by omega, by omega⟩
    rw [← h4, ← h3, ← h2, ← h1]
  obtain ⟨f1, f2, f3, f4, f5⟩ := fields40 a b c c' e ha hb hc hc' he
  obtain ⟨g1, g2, g3, g4, g5⟩ := fields40 a e c c' b ha he hc hc' hb
  refine ⟨a + 256 * (e + 16 * (c + 2 ^ 18 * (c' + 64 * b))), ?_, by omega, by rw [f4, g4], ?_⟩
  · rw [f1, f2, f3, f5]; omega
  · rw [g1, g2, g3, g5]; omega

/-- Two addresses that are present never share a byte. -/
theorem place_inj {d : Dev} {a b k : Nat} (h : place d a = .ok k) (h' : place d b = .ok k) : a = b := by
  have b1 : hbmBase = 1099511627776 := rfl
  have b2 : ddrBase = 2199023255552 := rfl
  have key : ∀ z z' : Nat, z < 2 ^ 40 → z' < 2 ^ 40 → hbmBase + z = hbmBase + z' → z = z' := by omega
  rcases place_cases h with ⟨h1, -, e⟩ | ⟨x, rfl, hx, hg, -, e⟩ | ⟨x, rfl, hx, hg, -, e⟩ | ⟨y, rfl, hy, hc, e⟩ <;>
    rcases place_cases h' with ⟨h2, -, e'⟩ | ⟨x', rfl, hx', hg', -, e'⟩ | ⟨x', rfl, hx', hg', -, e'⟩ | ⟨y', rfl, hy', hc', e'⟩
  · omega
  · omega
  · omega
  · omega
  · omega
  · obtain ⟨z, hz, -, -, i⟩ := glob_key x hx
    obtain ⟨z', hz', -, -, i'⟩ := glob_key x' hx'
    have : z = z' := by omega
    rw [i, i', this]
  · obtain ⟨z, hz, -, s, -⟩ := glob_key x hx
    have : z = x' := by omega
    rw [← this, s, hg] at hg'; cases hg'
  · obtain ⟨z, hz, hlt, -, -⟩ := glob_key x hx
    omega
  · omega
  · obtain ⟨z, hz, -, s, -⟩ := glob_key x' hx'
    have : z = x := by omega
    rw [← this, s, hg'] at hg; cases hg
  · omega
  · omega
  · omega
  · obtain ⟨z, hz, hlt, -, -⟩ := glob_key x' hx'
    omega
  · omega
  · obtain ⟨n, c, o, hn, hl, hq, -, ho, hlt, hm⟩ := ddr_key hy hc
    obtain ⟨n', c', o', hn', hl', hq', -, ho', hlt', hm'⟩ := ddr_key hy' hc'
    obtain rfl : n = n' := by rw [← hl, ← hl']
    rw [hq, hl, ← ho] at e
    rw [hq', hl', ← ho', e] at e'
    obtain ⟨rfl, rfl⟩ := pair_inj e' hlt hlt'
    rw [ddr_inj hn ho ho' (hm.trans hm'.symm)]

/-- An address that is present lies below the stores that no address reaches, at the same place of its 256 B unit. -/
theorem place_lt {d : Dev} {a k : Nat} (h : place d a = .ok k) : k < progBase ∧ k % 256 = a % 256 := by
  have b1 : hbmBase = 1099511627776 := rfl
  have b2 : ddrBase = 2199023255552 := rfl
  have b3 : progBase = 1125899906842624 := rfl
  rcases place_cases h with ⟨h1, -, e⟩ | ⟨x, rfl, hx, hg, -, e⟩ | ⟨x, rfl, hx, hg, -, e⟩ | ⟨y, rfl, hy, hc, e⟩
  · omega
  · obtain ⟨z, hz, hlt, -, -⟩ := glob_key x hx
    omega
  · omega
  · obtain ⟨n, c, o, hn, hl, hq, h8, ho, hlt, hm⟩ := ddr_key hy hc
    rw [hq, hl, ← ho] at e
    omega

/-! ### What is present -/

theorem rangeErrGo_none {d : Dev} {n u : Nat} (h : rangeErrGo d n u = none) (v : Nat) (h1 : u ≤ v) (h2 : v < u + n) :
    ∃ k, place d (256 * v) = .ok k := by
  induction n generalizing u with
  | zero => omega
  | succ n ih =>
    unfold rangeErrGo at h
    split at h
    · cases h
    · rename_i k hk
      by_cases e : u = v
      · exact ⟨k, e ▸ hk⟩
      · exact ih h (by omega) (by omega)

/-- Every byte that lies in a unit of 256 B which a range meets is present when the range is. -/
theorem place_of_range {d : Dev} {a n : Nat} (h : rangeErr d a n = none) (b : Nat) (h1 : a / 256 ≤ b / 256)
    (h2 : b / 256 ≤ (a + n - 1) / 256) (hn : 0 < n) : ∃ k, place d b = .ok k := by
  unfold rangeErr at h
  rw [if_neg (by omega)] at h
  obtain ⟨k, hk⟩ := rangeErrGo_none h (b / 256) h1 (by omega)
  refine ⟨k + b % 256, ?_⟩
  have := place_add (i := b % 256) hk (by omega)
  rwa [show 256 * (b / 256) + b % 256 = b by omega] at this

theorem blkUp_congr {d d' : Dev} (h : d'.blocks = d.blocks) : blkUp d' = blkUp d := by
  funext k i; unfold blkUp blkSt; rw [h]
theorem tileUp_congr {d d' : Dev} (hg : d'.grid = d.grid) (hb : d'.blocks = d.blocks) : tileUp d' = tileUp d := by
  funext t; unfold tileUp clusterUp; rw [blkUp_congr hb, hg]

/-- Where addresses lie depends on the grid, the blocks that are on, HBM_IMAP and the DDR5 installed and
published. -/
theorem place_congr {d d' : Dev} (hg : d'.grid = d.grid) (hb : d'.blocks = d.blocks) (hi : d'.mem.imap = d.mem.imap)
    (hc : d'.mem.gibPerCh = d.mem.gibPerCh) (hp : d'.mem.ddrGib = d.mem.ddrGib) (a : Nat) : place d' a = place d a := by
  have h2 : stackUp d' = stackUp d := by funext i; unfold stackUp; rw [blkUp_congr hb]
  have h4 : ddrChans d' = ddrChans d := by unfold ddrChans; rw [blkUp_congr hb]
  have h5 : ddrCap d' = ddrCap d := by unfold ddrCap; rw [h4, hc, hp]
  unfold place
  rw [h2, tileUp_congr hg hb, h4, h5, hi]

@[simp] theorem place_withBytes (d : Dev) (m : Mem) (a : Nat) : place (withBytes d m) a = place d a :=
  place_congr (by rfl) (by rfl) (by rfl) (by rfl) (by rfl) a

@[simp] theorem place_setEcc (d : Dev) (k : Nat) (e : Option EccWord) (a : Nat) : place (setEcc d k e) a = place d a :=
  place_congr (by rfl) (by rfl) (by rfl) (by rfl) (by rfl) a

theorem rangeErr_congr {d d' : Dev} (h : ∀ a, place d' a = place d a) (a n : Nat) : rangeErr d' a n = rangeErr d a n := by
  have : ∀ n u, rangeErrGo d' n u = rangeErrGo d n u := by
    intro n; induction n with
    | zero => intro u; rfl
    | succ n ih => intro u; simp only [rangeErrGo, h, ih]
  simp only [rangeErr, this]

@[simp] theorem rangeErr_withBytes (d : Dev) (m : Mem) (a n : Nat) : rangeErr (withBytes d m) a n = rangeErr d a n :=
  rangeErr_congr (place_withBytes d m) a n

@[simp] theorem bytesAt_length (d : Dev) (a n : Nat) : (bytesAt d a n).length = n := by simp [bytesAt]

theorem bytesAt_append (d : Dev) (a i j : Nat) : bytesAt d a (i + j) = bytesAt d a i ++ bytesAt d (a + i) j := by
  simp [bytesAt, List.range_add, Nat.add_assoc, Function.comp_def]

/-- A word's bytes as its place holds them. -/
theorem readN_eq {d : Dev} {a k : Nat} (h : place d a = .ok k) (n : Nat) (hn : a % 256 + n ≤ 256) :
    Mem.readN d.mem.bytes k n = bytesAt d a n := by
  induction n with
  | zero => rfl
  | succ n ih =>
    have e : Mem.readN d.mem.bytes k (n + 1) = Mem.readN d.mem.bytes k n ++ [Mem.read d.mem.bytes (k + n)] := by
      clear ih hn h
      induction n generalizing k with
      | zero => rfl
      | succ n ih => rw [Mem.readN, ih, Mem.readN, Nat.add_assoc, Nat.add_comm 1 n]; rfl
    rw [e, ih (by omega), bytesAt_append]
    simp [bytesAt, byteAt, place_add h (show a % 256 + n < 256 by omega)]

theorem inShare_up {d : Dev} {p : Polder} {t lo hi : Nat} (h : inShare d p t lo hi = true) : tileUp d t = true := by
  unfold inShare at h
  simp only [Bool.and_eq_true] at h
  exact h.1.1.2

/-- A range of a tile that is there is present. -/
theorem rangeErr_tile {d : Dev} {t o n : Nat} (h : tileUp d t = true) (ht : t < 2048) (hn : o + n ≤ 2 ^ 20) :
    rangeErr d (t * 2 ^ 20 + o) n = none := by
  unfold rangeErr
  split
  · rfl
  · have : ∀ n u, (∀ v, u ≤ v → v < u + n → v / 4096 = t) → rangeErrGo d n u = none := by
      intro n; induction n with
      | zero => intro u _; rfl
      | succ n ih =>
        intro u hv
        have h0 := hv u (by omega) (by omega)
        unfold rangeErrGo
        rw [place_tile (by omega) (by rwa [show 256 * u / 2 ^ 20 = t by omega])]
        exact ih (u + 1) fun v h1 h2 => hv v (by omega) (by omega)
    exact this _ _ fun v h1 h2 => by omega

/-! ### Reads -/

theorem wordsRead_clean (d : Dev) (acc : Acc) (a n : Nat) (ha : a % 8 = 0)
    (h : ∀ j, j < n → ∃ k, place d (a + 8 * j) = .ok k ∧ NMap.find? d.mem.ecc (k / 8) = none) :
    wordsRead d acc a n = (d, none, bytesAt d a (8 * n)) := by
  induction n generalizing a with
  | zero => rfl
  | succ n ih =>
    obtain ⟨k, hk, he⟩ := h 0 (by omega)
    rw [Nat.mul_zero, Nat.add_zero] at hk
    unfold wordsRead
    rw [hk]
    dsimp only
    rw [wordRead_clean _ _ _ _ he]
    dsimp only
    rw [ih (a + 8) (by omega) fun j hj => by
      have := h (j + 1) (by omega)
      rwa [show a + 8 * (j + 1) = a + 8 + 8 * j by omega] at this]
    simp only [rawRead]
    rw [readN_eq hk 8 (by omega), show 8 * (n + 1) = 8 + 8 * n by omega, bytesAt_append]

/-- A read of what is present and in no error returns the bytes and changes nothing. -/
theorem memRead_clean {d : Dev} {a n : Nat} (acc : Acc) (hp : rangeErr d a n = none) (hc : Clean d a n) :
    memRead d acc a n = (d, .ok (bytesAt d a n)) := by
  unfold memRead
  by_cases hn : n = 0
  · subst hn; rfl
  rw [if_neg hn, hp]
  dsimp only
  rw [wordsRead_clean d acc (a / 8 * 8) ((a + n - a / 8 * 8 + 7) / 8) (by omega) fun j hj => by
    obtain ⟨k, hk⟩ := place_of_range hp (a / 8 * 8 + 8 * j) (by omega) (by omega) (by omega)
    refine ⟨k, hk, ?_⟩
    have hk' : ∃ i, i < n ∧ ∃ x, x < 8 ∧ a + i = a / 8 * 8 + 8 * j + x :=
      ⟨max a (a / 8 * 8 + 8 * j) - a, by omega, max a (a / 8 * 8 + 8 * j) - (a / 8 * 8 + 8 * j), by omega, by omega⟩
    obtain ⟨i, hi, x, hx, e⟩ := hk'
    have hm : (a / 8 * 8 + 8 * j) % 256 + x < 256 := by omega
    have := hc i hi (k + x) (by rw [e]; exact place_add hk hm)
    rwa [show (k + x) / 8 = k / 8 by have := (place_lt hk).2; omega] at this]
  dsimp only
  congr 2
  apply List.ext_getElem
  · simp; omega
  · intro i h1 h2
    simp [bytesAt, show a / 8 * 8 + (a - a / 8 * 8 + i) = a + i by omega]

/-! ### Writes -/

theorem erase_none {α : Type} (m : NMap α) (a : Nat) (h : NMap.find? m a = none) : NMap.erase m a = m := by
  induction m with
  | nil => rfl
  | cons e t ih =>
    obtain ⟨k, v⟩ := e
    rw [NMap.find_cons] at h
    split at h
    · cases h
    · rename_i hne
      unfold NMap.erase at ih ⊢
      rw [List.filter_cons_of_pos (by simpa using fun e => hne e.symm), ih h]

/-- A write into a word that is in no error stores its bytes and changes nothing else. -/
theorem wordWrite_clean {d : Dev} {acc : Acc} {k a o : Nat} {bs : List Byte} (h : NMap.find? d.mem.ecc (k / 8) = none)
    (ho : o + bs.length ≤ 8) : wordWrite d acc k a o bs = withBytes d (Mem.writeN d.mem.bytes (k + o) bs) := by
  unfold wordWrite
  by_cases hl : bs.length = 8
  · rw [if_pos hl]
    obtain rfl : o = 0 := by omega
    simp only [setEcc, rawWrite, onMem, withBytes, erase_none _ _ h, Nat.add_zero]
  · rw [if_neg hl, h]
    simp only [eccOut, wordRead_clean _ _ _ _ h]
    rfl

theorem withBytes_withBytes (d : Dev) (m m' : Mem) : withBytes (withBytes d m) m' = withBytes d m' := rfl

theorem Stored.nil (d : Dev) (a : Nat) : Stored d a [] d := ⟨⟨d.mem.bytes, rfl⟩, by simp, fun b _ => rfl, fun k _ => rfl⟩

/-- Bytes stored at the place of an address, within one unit of 256 B. -/
theorem stored_at {d : Dev} {a k : Nat} (bs : List Byte) (h : place d a = .ok k) (hl : a % 256 + bs.length ≤ 256) :
    Stored d a bs (withBytes d (Mem.writeN d.mem.bytes k bs)) := by
  refine ⟨⟨_, rfl⟩, fun i hi => ?_, fun b hb => ?_, fun c hc => ?_⟩
  · have := place_add (i := i) h (by omega)
    simp only [byteAt, place_withBytes, this]
    exact Mem.read_writeN ..
  · simp only [byteAt, place_withBytes]
    split
    · rename_i c hc
      refine Mem.read_writeN_ne _ _ _ _ ?_
      by_cases hk : c < k ∨ k + bs.length ≤ c
      · exact hk
      · have := place_add (i := c - k) h (by omega)
        rw [show k + (c - k) = c by omega] at this
        have := place_inj hc this
        omega
    · rfl
  · have := (place_lt h).1
    exact Mem.read_writeN_ne _ _ _ _ (by
      have := (place_lt h).2
      have hp : progBase = 256 * 4398046511104 := rfl
      omega)

theorem Stored.append {d d' d'' : Dev} {a : Nat} {bs cs : List Byte} (h : Stored d a bs d') (h' : Stored d' (a + bs.length) cs d'') :
    Stored d a (bs ++ cs) d'' := by
  obtain ⟨⟨m, rfl⟩, h1, h2, h3⟩ := h
  obtain ⟨⟨m', rfl⟩, k1, k2, k3⟩ := h'
  refine ⟨⟨m', rfl⟩, fun i hi => ?_, fun b hb => ?_, fun c hc => (k3 c hc).trans (h3 c hc)⟩
  · by_cases hb : i < bs.length
    · rw [k2 _ (.inl (by omega)), h1 i hb, List.getElem_append_left hb]
    · have := k1 (i - bs.length) (by rw [List.length_append] at hi; omega)
      rw [show a + bs.length + (i - bs.length) = a + i by omega] at this
      rw [this, List.getElem_append_right (by omega)]
  · rw [List.length_append] at hb
    rw [k2 b (by omega), h2 b (by omega)]

@[simp] theorem clean_withBytes (d : Dev) (m : Mem) (a n : Nat) : Clean (withBytes d m) a n ↔ Clean d a n := by
  unfold Clean; simp only [place_withBytes]; rfl

theorem Clean.mono {d : Dev} {a n a' n' : Nat} (h : Clean d a n) (h1 : a ≤ a') (h2 : a' + n' ≤ a + n) : Clean d a' n' := by
  intro i hi k hk
  exact h (a' - a + i) (by omega) k (by rwa [show a + (a' - a + i) = a' + i by omega])

theorem wordsWrite_clean {d : Dev} {acc : Acc} {n a : Nat} {bs : List Byte} (hn : a % 8 + bs.length ≤ 8 * n)
    (hp : ∀ b, a / 256 ≤ b / 256 → b / 256 ≤ (a + bs.length - 1) / 256 → ∃ k, place d b = .ok k) (hc : Clean d a bs.length) :
    Stored d a bs (wordsWrite d acc n a bs) := by
  induction n generalizing d a bs with
  | zero =>
    obtain rfl : bs = [] := List.length_eq_zero_iff.1 (by omega)
    exact .nil d a
  | succ n ih =>
    unfold wordsWrite
    by_cases hb : bs = []
    · subst hb; rw [if_pos rfl]; exact .nil d a
    rw [if_neg hb]
    have hpos : 0 < bs.length := List.length_pos_iff.2 hb
    obtain ⟨k, hk⟩ := hp (a - a % 8) (by omega) (by omega)
    dsimp only
    rw [hk]
    dsimp only
    have hka : place d a = .ok (k + a % 8) := by
      have := place_add (i := a % 8) hk (by omega)
      rwa [show a - a % 8 + a % 8 = a by omega] at this
    have hcl : NMap.find? d.mem.ecc (k / 8) = none := by
      have := hc 0 hpos _ hka
      rwa [show (k + a % 8) / 8 = k / 8 by have := (place_lt hk).2; omega] at this
    have hlt : (bs.take (8 - a % 8)).length = min (8 - a % 8) bs.length := List.length_take
    rw [wordWrite_clean hcl (by omega)]
    have h1 := stored_at (bs.take (8 - a % 8)) hka (by omega)
    have e : bs = bs.take (8 - a % 8) ++ bs.drop (8 - a % 8) := (List.take_append_drop ..).symm
    have := h1.append (cs := bs.drop (8 - a % 8)) (d'' := wordsWrite (withBytes d (Mem.writeN d.mem.bytes (k + a % 8) (bs.take (8 - a % 8)))) acc n (a + (8 - a % 8)) (bs.drop (8 - a % 8))) (by
      by_cases hs : bs.length ≤ 8 - a % 8
      · rw [List.drop_eq_nil_of_le hs]
        have : wordsWrite (withBytes d (Mem.writeN d.mem.bytes (k + a % 8) (bs.take (8 - a % 8)))) acc n (a + (8 - a % 8)) [] =
            withBytes d (Mem.writeN d.mem.bytes (k + a % 8) (bs.take (8 - a % 8))) := by cases n <;> simp [wordsWrite]
        rw [this]; exact .nil ..
      · rw [show a + (bs.take (8 - a % 8)).length = a + (8 - a % 8) by omega]
        refine ih ?_ ?_ ?_
        · rw [List.length_drop]; omega
        · intro b h1 h2
          rw [List.length_drop] at h2
          rw [place_withBytes]; exact hp b (by omega) (by omega)
        · rw [clean_withBytes]; exact hc.mono (by omega) (by rw [List.length_drop]; omega))
    rwa [← e] at this

/-- A write to what is present and in no error stores the bytes and changes nothing else. -/
theorem memWrite_clean {d : Dev} {a : Nat} {bs : List Byte} (acc : Acc) (hp : rangeErr d a bs.length = none)
    (hc : Clean d a bs.length) : ∃ d', memWrite d acc a bs = (d', none) ∧ Stored d a bs d' := by
  unfold memWrite
  by_cases hb : bs = []
  · subst hb; exact ⟨d, rfl, .nil d a⟩
  rw [if_neg hb, hp]
  have hpos : 0 < bs.length := List.length_pos_iff.2 hb
  exact ⟨_, rfl, wordsWrite_clean (by omega) (fun b h1 h2 => place_of_range hp b h1 h2 hpos) hc⟩

theorem toBytes_length (n x : Nat) : (toBytes n x).length = n := by
  induction n generalizing x with
  | zero => rfl
  | succ n ih => simp [toBytes, ih]

/-- One whole word written: its bytes are stored, and no error stays in it. -/
theorem memWrite_word {d : Dev} {a k : Nat} {bs : List Byte} (acc : Acc) (hr : rangeErr d a 8 = none) (ha : a % 8 = 0)
    (hp : place d a = .ok k) (hl : bs.length = 8) : memWrite d acc a bs = (rawWrite (setEcc d k none) k bs, none) := by
  have hne : bs ≠ [] := by intro e; rw [e] at hl; cases hl
  unfold memWrite
  rw [if_neg hne, hl, hr]
  dsimp only
  unfold wordsWrite
  rw [if_neg hne]
  dsimp only
  rw [ha, Nat.sub_zero, hp]
  dsimp only
  rw [List.take_of_length_le (by omega), List.drop_eq_nil_of_le (by omega), wordWrite_whole _ _ _ _ _ _ hl]
  rfl

end Sys2Proof.Machine
end

