-- ==== Sys2Proof/Laws/Crown.lean ====
section
/-! SUPPORT. The crown: what an issue hands to an operation, and what writing a register and moving on does. -/

namespace Sys2Proof.Machine

/-! ### Bytes of a word -/

theorem readN_append (m : Mem) (a i j : Nat) : Mem.readN m a (i + j) = Mem.readN m a i ++ Mem.readN m (a + i) j := by
  induction i generalizing a with
  | zero => simp [Mem.readN]
  | succ i ih =>
    rw [show i + 1 + j = (i + j) + 1 by omega]
    simp only [Mem.readN, ih (a + 1), List.cons_append]
    rw [show a + 1 + i = a + (i + 1) by omega]

theorem sliceB_readN (m : Mem) (a o n k : Nat) (h : o + n ≤ k) : sliceB (Mem.readN m a k) o n = Mem.readN m (a + o) n := by
  obtain ⟨j, rfl⟩ : ∃ j, k = o + n + j := ⟨k - (o + n), by omega⟩
  rw [readN_append, readN_append]
  simp [sliceB]

/-! ### The word's fields (R69) -/

theorem iOp_eq (w : W32) : iOp w = (w.extractLsb' 24 8).toNat := by
  unfold iOp fld bits; simp [BitVec.extractLsb'_toNat]
theorem iD_eq (w : W32) : iD w = w.extractLsb' 20 4 := by
  apply BitVec.eq_of_toNat_eq; unfold iD fld bits; simp [BitVec.extractLsb'_toNat]
theorem iA_eq (w : W32) : iA w = w.extractLsb' 16 4 := by
  apply BitVec.eq_of_toNat_eq; unfold iA fld bits; simp [BitVec.extractLsb'_toNat]
theorem iB_eq (w : W32) : iB w = w.extractLsb' 12 4 := by
  apply BitVec.eq_of_toNat_eq; unfold iB fld bits; simp [BitVec.extractLsb'_toNat]
theorem iImm_eq (w : W32) : iImm w = (w.extractLsb' 0 12).toNat := by
  unfold iImm fld bits; simp [BitVec.extractLsb'_toNat]
theorem iSimm_eq (w : W32) : iSimm w = (w.extractLsb' 0 12).signExtend 64 := by
  unfold iSimm; rw [iImm_eq, BitVec.ofNat_toNat, BitVec.setWidth_eq]
theorem iImm64_eq (w : W32) : BitVec.ofNat 64 (iImm w) = (w.extractLsb' 0 12).zeroExtend 64 := by
  rw [iImm_eq]; exact BitVec.ofNat_toNat ..
theorem iOp_of {w : W32} {op : BitVec 8} (h : w.extractLsb' 24 8 = op) : iOp w = op.toNat := by rw [iOp_eq, h]

/-! ### The issue -/

/-- The device once the issue is counted and remembered. -/
def afterIssue (d : Dev) (t th : Nat) (pn : PolderNo) : Dev :=
  count (onTile d t fun x => { x with lastIssue := th }) 0 t 0x010 1 (some pn)

theorem fetch_of {s : State} {t th : Nat} {pn : PolderNo} {p : Polder} {w : W32} (h : Fetches s t th pn p w) :
    fetch s.dev t th pn p = (s.dev, .word w) := by
  have hk : (progKey t (p.pbase + (threadOf s.dev t th).pc.toNat)) % 4 = 0 := by unfold progKey progBase; omega
  unfold fetch
  dsimp only
  rw [if_neg (by have := h.inside; omega)]
  simp only [keyWords]
  rw [wordRead_clean _ _ _ _ (by rw [Nat.mul_div_cancel _ (by omega : 0 < 8)]; exact h.clean)]
  simp only [rawRead, List.append_nil]
  rw [← h.stored, leAt, sliceB_readN _ _ _ _ _ (by omega)]
  rw [show ∀ k : Nat, k / 8 * 8 + k % 8 = k from fun k => by omega]

theorem issueNext_of {s : State} {t th : Nat} {pn : PolderNo} {p : Polder} {w : W32} (h : Fetches s t th pn p w) :
    issueNext s.dev t = some (afterIssue s.dev t th pn, ⟨th, pn, p, .word w⟩) := by
  unfold issueNext
  simp only [h.next, h.owner, fetch_of h]
  rfl

theorem tileOf_afterIssue (d : Dev) (t th : Nat) (pn : PolderNo) :
    tileOf (afterIssue d t th pn) t = { tileOf d t with lastIssue := th } := by
  simp [afterIssue, tileOf]

theorem tileOf_afterIssue_ne (d : Dev) {t u : Nat} (th : Nat) (pn : PolderNo) (h : u ≠ t) :
    tileOf (afterIssue d t th pn) u = tileOf d u := by
  simp [afterIssue, tileOf, h]

@[simp] theorem threadOf_afterIssue (d : Dev) (t th : Nat) (pn : PolderNo) (u : Nat) :
    threadOf (afterIssue d t th pn) t u = threadOf d t u := by
  simp [threadOf, tileOf_afterIssue]

theorem OnlyTiles.refl (d : Dev) : OnlyTiles d d := rfl
theorem OnlyTiles.trans {d e f : Dev} (h : OnlyTiles d e) (h' : OnlyTiles e f) : OnlyTiles d f := by
  unfold OnlyTiles at *; rw [h', h]
theorem onTile_onlyTiles (d : Dev) (t : Nat) (f : Tile → Tile) : OnlyTiles d (onTile d t f) := rfl
theorem onThread_onlyTiles (d : Dev) (t th : Nat) (f : Thread → Thread) : OnlyTiles d (onThread d t th f) := rfl
theorem onEngine_onlyTiles (d : Dev) (t : Nat) (e : EngineId) (f : Engine → Engine) : OnlyTiles d (onEngine d t e f) := rfl
theorem onSlot_onlyTiles (d : Dev) (t n : Nat) (f : Slot → Slot) : OnlyTiles d (onSlot d t n f) := rfl
theorem count_onlyTiles (d : Dev) (k i ev n : Nat) (p : Option PolderNo) : OnlyTiles d (count d k i ev n p) := by
  unfold count; split <;> rfl
theorem afterIssue_onlyTiles (d : Dev) (t th : Nat) (pn : PolderNo) : OnlyTiles d (afterIssue d t th pn) :=
  (onTile_onlyTiles ..).trans (count_onlyTiles ..)

theorem OnlyTiles.place {d d' : Dev} (h : OnlyTiles d d') (a : Nat) : place d' a = Machine.place d a :=
  place_congr (by rw [h]) (by rw [h]) (by rw [h]) (by rw [h]) (by rw [h]) a
theorem OnlyTiles.inShare {d d' : Dev} (h : OnlyTiles d d') (p : Polder) (u lo hi : Nat) :
    inShare d' p u lo hi = Machine.inShare d p u lo hi := by
  unfold Machine.inShare; rw [tileUp_congr (d := d) (d' := d') (by rw [h]) (by rw [h])]
theorem OnlyTiles.rangeErr {d d' : Dev} (h : OnlyTiles d d') (a n : Nat) : rangeErr d' a n = Machine.rangeErr d a n :=
  rangeErr_congr h.place a n
theorem OnlyTiles.mem {d d' : Dev} (h : OnlyTiles d d') : d'.mem = d.mem := by rw [h]
theorem OnlyTiles.byteAt {d d' : Dev} (h : OnlyTiles d d') (a : Nat) : byteAt d' a = Machine.byteAt d a := by
  unfold Machine.byteAt; rw [h.place, h.mem]
theorem OnlyTiles.bytesAt {d d' : Dev} (h : OnlyTiles d d') (a n : Nat) : bytesAt d' a n = Machine.bytesAt d a n := by
  unfold Machine.bytesAt; simp only [h.byteAt]
theorem OnlyTiles.clean {d d' : Dev} (h : OnlyTiles d d') (a n : Nat) : Clean d' a n ↔ Clean d a n := by
  unfold Clean; simp only [h.place, h.mem]

/-- An operation runs on the thread that the crown issues, with its sources. -/
theorem crownOp_of {s : State} {t th : Nat} {pn : PolderNo} {p : Polder} {w : W32} (h : Issues s t th pn p w) {op : Nat}
    (ho : iOp w = op) (body : Dev → Nat → Issued → W32 → W64 → W64 → Dev) :
    crownOp op body s.dev t =
      body (afterIssue s.dev t th pn) t ⟨th, pn, p, .word w⟩ w (sreg s t th (iA w)) (sreg s t th (iB w)) := by
  unfold crownOp crownIf
  simp only [issueNext_of h.toFetches, isOp, ho, h.form, decide_true, Bool.and_self, if_true, wordOf, threadOf_afterIssue]
  rfl

/-! ### The offset of a load or store (R71) -/

theorem imm_eq (w : W32) : BitVec.ofNat 64 (8 * iImm w) = 8 * (w.extractLsb' 0 12).zeroExtend 64 := by
  rw [← iImm64_eq, ← BitVec.ofNat_mul_ofNat]; rfl

theorem lsOfs_of {d : Dev} {t th : Nat} {pn : PolderNo} {p : Polder} {w : W32} {a o : W64}
    (e : o = a + 8 * (w.extractLsb' 0 12).zeroExtend 64) :
    lsOfs (afterIssue d t th pn) t p w a =
      if o.toNat % 8 = 0 ∧ o.toNat + 8 ≤ 2 ^ 20 ∧ inShare d p t (t * 2 ^ 20 + o.toNat) (t * 2 ^ 20 + o.toNat + 8) = true then some o.toNat
      else none := by
  unfold lsOfs; rw [imm_eq, ← e]; simp only [(afterIssue_onlyTiles ..).inShare]

/-! ### Registers -/

theorem regWrite_zero (x : Thread) (v : W64) : regWrite x 0 v = x := by simp [regWrite]

theorem regWrite_pos (x : Thread) {rd : BitVec 4} (v : W64) (h : rd ≠ 0) :
    regWrite x rd v = { x with regs := NMap.set x.regs 0 rd.toNat v } := by unfold regWrite; rw [if_neg h]

@[simp] theorem regWrite_st (x : Thread) (rd : BitVec 4) (v : W64) : (regWrite x rd v).st = x.st := by
  unfold regWrite; split <;> rfl
@[simp] theorem regWrite_pc (x : Thread) (rd : BitVec 4) (v : W64) : (regWrite x rd v).pc = x.pc := by
  unfold regWrite; split <;> rfl

theorem regRead_regWrite (x : Thread) (rd r : BitVec 4) (v : W64) :
    regRead (regWrite x rd v) r = if r = rd ∧ r ≠ 0 then v else regRead x r := by
  by_cases h0 : rd = 0
  · subst h0
    rw [regWrite_zero, if_neg fun h => h.2 h.1]
  · rw [regWrite_pos x v h0]
    unfold regRead
    by_cases hr : r = 0
    · rw [if_pos hr, if_pos hr, if_neg fun h => h.2 hr]
    · rw [if_neg hr, if_neg hr]
      by_cases h : r = rd
      · rw [if_pos ⟨h, hr⟩, h]; exact NMap.get_set_self ..
      · rw [if_neg fun e => h e.1]
        exact NMap.get_set_ne _ _ _ _ fun e => h (BitVec.eq_of_toNat_eq e)

/-- A completed instruction: the destination is written, the program counter moves on, and the thread is READY. -/
theorem threadDone_of (x : Thread) (rd : BitVec 4) (v : W64) (h : x.st ≠ .parked) :
    threadDone x rd v = { regWrite x rd v with pc := x.pc + 1, wait := .nothing, st := .ready } := by
  unfold threadDone
  dsimp only
  rw [regWrite_st, if_neg h, regWrite_pc]

/-- A thread's change in place: nothing else of the tile or the device changes. -/
theorem threadMoves_of {s : State} {t th : Nat} {pn : PolderNo} (f : Thread → Thread) (pc : W64) (regs : BitVec 4 → W64)
    (hst : (f (threadOf s.dev t th)).st = .ready) (hpc : (f (threadOf s.dev t th)).pc = pc)
    (hr : ∀ r, regRead (f (threadOf s.dev t th)) r = regs r) :
    ThreadMoves s t th pc regs (.next { s with dev := onThread (afterIssue s.dev t th pn) t th f }) := by
  refine ⟨_, rfl, ?_, ⟨⟨rfl, rfl, rfl⟩, ?_, ?_, ?_, ?_, ?_, ?_⟩⟩
  · exact (afterIssue_onlyTiles ..).trans (onThread_onlyTiles ..)
  · intro u hu
    rw [tileOf_onThread_ne _ _ _ hu, tileOf_afterIssue_ne _ _ _ hu]
  · rw [tileOf_onThread, tileOf_afterIssue]
  · intro u hu
    rw [threadOf_onThread_ne _ _ hu, threadOf_afterIssue]
  · rw [threadOf_onThread, threadOf_afterIssue]; exact hst
  · rw [threadOf_onThread, threadOf_afterIssue]; exact hpc
  · intro r; rw [sreg, threadOf_onThread, threadOf_afterIssue]; exact hr r

/-- A thread enters WAITING: nothing else of the tile or the device changes. -/
theorem threadWaits_of {s : State} {t th : Nat} {pn : PolderNo} (c : WaitOn) :
    ThreadWaits s t th c (.next { s with dev := threadWait (afterIssue s.dev t th pn) t th c }) := by
  unfold threadWait
  refine ⟨_, rfl, ⟨rfl, rfl, rfl⟩, (afterIssue_onlyTiles ..).trans (onThread_onlyTiles ..), ?_, ?_, ?_, ?_⟩
  · intro u hu
    rw [tileOf_onThread_ne _ _ _ hu, tileOf_afterIssue_ne _ _ _ hu]
  · rw [tileOf_onThread, tileOf_afterIssue]
  · intro u hu
    rw [threadOf_onThread_ne _ _ hu, threadOf_afterIssue]
  · rw [threadOf_onThread, threadOf_afterIssue]

/-- A thread completes with a value for its destination register: nothing else of the tile or the device changes. -/
theorem threadDone_moves {s : State} {t th : Nat} (pn : PolderNo) (rd : BitVec 4) (v : W64) (h : (threadOf s.dev t th).st = .ready) :
    ThreadMoves s t th ((threadOf s.dev t th).pc + 1) (wrote (sreg s t th) rd v)
      (.next { s with dev := onThread (afterIssue s.dev t th pn) t th fun x => threadDone x rd v }) := by
  have hp : (threadOf s.dev t th).st ≠ .parked := by rw [h]; decide
  exact threadMoves_of _ _ _ (by simp [threadDone_of _ _ _ hp]) (by simp [threadDone_of _ _ _ hp])
    (fun r => by rw [threadDone_of _ _ _ hp]; exact regRead_regWrite (threadOf s.dev t th) rd r _)

/-- The spec lemma of the operations that write d and move on. -/
theorem crownAlu_of {s : State} {t th : Nat} {pn : PolderNo} {p : Polder} {w : W32} (h : Issues s t th pn p w) {op : Nat}
    (ho : iOp w = op) (f : W32 → W64 → W64 → W64) :
    ThreadMoves s t th ((threadOf s.dev t th).pc + 1)
      (wrote (sreg s t th) (iD w) (f w (sreg s t th (iA w)) (sreg s t th (iB w))))
      (.next { s with dev := crownAlu op f s.dev t }) := by
  unfold crownAlu
  rw [crownOp_of h ho]
  exact threadDone_moves pn _ _ h.ready

/-- The spec lemma of the operations that set the program counter alone. -/
theorem crownJump_of {s : State} {t th : Nat} {pn : PolderNo} {p : Polder} {w : W32} (h : Issues s t th pn p w) {op : Nat}
    (ho : iOp w = op) (f : W32 → W64 → W64 → W64) :
    ThreadMoves s t th (f w (sreg s t th (iA w)) (threadOf s.dev t th).pc) (sreg s t th)
      (.next { s with dev := crownJump op f s.dev t }) := by
  unfold crownJump
  rw [crownOp_of h ho]
  exact threadMoves_of (fun x => { x with pc := f w (sreg s t th (iA w)) x.pc }) _ _ h.ready rfl (fun r => rfl)

end Sys2Proof.Machine
end

