-- ==== Sys2Proof/Laws/Crypto.lean ====
section
/-! SUPPORT. The cipher's shared operations: AES blocks have 16 bytes, counter mode undoes itself, and the bytes of a tag survive as a
number. -/

namespace Sys2Proof.Machine

theorem xorB_twice : ∀ a e : List Byte, a.length ≤ e.length → xorB (xorB a e) e = a
  | [], _, _ => by simp [xorB]
  | a :: as, [], h => by simp at h
  | a :: as, e :: es, h => by
    have := xorB_twice as es (by simpa using h)
    simp only [xorB, List.zipWith_cons_cons] at this ⊢
    rw [this, BitVec.xor_assoc, BitVec.xor_self, BitVec.xor_zero]
theorem xorB_length (a b : List Byte) : (xorB a b).length = min a.length b.length := by simp [xorB]
theorem aesEnc_length (ks : List (List Byte)) (b : List Byte) (h : (ks.getD 14 []).length = 16) : (aesEnc ks b).length = 16 := by
  unfold aesEnc
  simp only [xorB_length, h, shiftRows, List.length_map, List.length_range, Nat.min_self]
theorem ctrGo_length (ks : List (List Byte)) (iv : List Byte) (h : (ks.getD 14 []).length = 16) :
    ∀ (n c : Nat) (l : List Byte), l.length ≤ 16 * n → (ctrGo ks iv n c l).length = l.length
  | 0, c, l, hl => by cases l with
    | nil => rfl
    | cons => simp at hl
  | n + 1, c, l, hl => by
    unfold ctrGo
    split
    · subst l; rfl
    · have := ctrGo_length ks iv h n (c + 1) (l.drop 16) (by simp; omega)
      rw [List.length_append, this, xorB_length, aesEnc_length _ _ h, List.length_take, List.length_drop]; omega
theorem ctrGo_twice (ks : List (List Byte)) (iv : List Byte) (h : (ks.getD 14 []).length = 16) :
    ∀ (n c : Nat) (l : List Byte), l.length ≤ 16 * n → ctrGo ks iv n c (ctrGo ks iv n c l) = l
  | 0, c, l, hl => by cases l with
    | nil => rfl
    | cons => simp at hl
  | n + 1, c, l, hl => by
    by_cases hn : l = []
    · subst l; simp [ctrGo]
    · have hd : (l.drop 16).length ≤ 16 * n := by simp; omega
      have ih := ctrGo_twice ks iv h n (c + 1) (l.drop 16) hd
      have il := ctrGo_length ks iv h n (c + 1) (l.drop 16) hd
      have he : ∀ b, (aesEnc ks b).length = 16 := fun b => aesEnc_length ks b h
      have hx : ctrGo ks iv (n + 1) c l = xorB (l.take 16) (aesEnc ks (iv ++ toBytesBE 4 c)) ++ ctrGo ks iv n (c + 1) (l.drop 16) := by
        rw [ctrGo, if_neg hn]
      have hlen : (xorB (l.take 16) (aesEnc ks (iv ++ toBytesBE 4 c))).length = min 16 l.length := by
        rw [xorB_length, he, List.length_take]; omega
      have hne : ctrGo ks iv (n + 1) c l ≠ [] := by
        intro e
        have : (ctrGo ks iv (n + 1) c l).length = l.length := ctrGo_length ks iv h (n + 1) c l hl
        rw [e] at this
        exact hn (List.length_eq_zero_iff.mp this.symm)
      have ht : (ctrGo ks iv (n + 1) c l).take 16 = xorB (l.take 16) (aesEnc ks (iv ++ toBytesBE 4 c)) ∧
          (ctrGo ks iv (n + 1) c l).drop 16 = ctrGo ks iv n (c + 1) (l.drop 16) := by
        rw [hx]
        by_cases hs : 16 ≤ l.length
        · exact ⟨List.take_left' (by omega), List.drop_left' (by omega)⟩
        · have hz : ctrGo ks iv n (c + 1) (l.drop 16) = [] :=
            List.length_eq_zero_iff.mp (by rw [il, List.length_drop]; omega)
          rw [hz, List.append_nil]
          exact ⟨List.take_of_length_le (by omega), List.drop_eq_nil_iff.mpr (by omega)⟩
      rw [ctrGo, if_neg hne, ht.1, ht.2, ih, xorB_twice _ _ (by rw [he, List.length_take]; omega), List.take_append_drop]
theorem toBytes_ofBytes : ∀ l : List Byte, toBytes l.length (ofBytes l) = l
  | [] => rfl
  | b :: bs => by
    have hb := b.isLt
    simp only [List.length_cons, toBytes, ofBytes]
    rw [Nat.add_mul_mod_self_left, Nat.mod_eq_of_lt hb, Nat.add_mul_div_left _ _ (by decide), Nat.div_eq_of_lt hb, Nat.zero_add,
      toBytes_ofBytes bs]
    simp
theorem ofBytes_lt : ∀ l : List Byte, ofBytes l < 256 ^ l.length
  | [] => by decide
  | b :: bs => by
    have := ofBytes_lt bs
    have hb := b.isLt
    simp only [ofBytes, List.length_cons, Nat.pow_succ]; omega

/-- The key schedule keeps words of 4 bytes and adds one a step. -/
theorem aesExpand_words : ∀ (n i : Nat) (ws : List (List Byte)), 8 ≤ ws.length → (∀ w ∈ ws, w.length = 4) →
    (aesExpand n i ws).length = n + ws.length ∧ ∀ w ∈ aesExpand n i ws, w.length = 4
  | 0, _, ws, _, h => ⟨by simp [aesExpand], h⟩
  | n + 1, i, ws, hl, h => by
    have h7 : (ws.getD 7 []).length = 4 := by
      rw [List.getD_eq_getElem _ _ (by omega)]; exact h _ (List.getElem_mem _)
    have h0 : (ws.headD []).length = 4 := by
      cases ws with
      | nil => simp at hl
      | cons a l => exact h a (by simp)
    unfold aesExpand
    dsimp only
    have := aesExpand_words n (i + 1) (xorB (ws.getD 7 []) (if i % 8 = 0 then
      xorB (((ws.headD []).drop 1 ++ (ws.headD []).take 1).map sub1) [BitVec.ofNat 8 (2 ^ (i / 8 - 1)), 0, 0, 0]
      else if i % 8 = 4 then (ws.headD []).map sub1 else ws.headD []) :: ws) (by simp; omega) (by
        intro w hw
        rcases List.mem_cons.mp hw with rfl | hw
        · rw [xorB_length, h7]
          generalize ws.headD [] = t at h0
          split
          · simp [xorB_length, h0]
          · split <;> simp [h0]
        · exact h w hw)
    refine ⟨by rw [this.1]; simp; omega, this.2⟩
theorem aesKeys_last (key : List Byte) (h : key.length = 32) : ((aesKeys key).getD 14 []).length = 16 := by
  have h4 : ∀ w ∈ ((List.range 8).map fun i => sliceB key (4 * i) 4).reverse, w.length = 4 := by
    intro w hw
    simp only [List.mem_reverse, List.mem_map, List.mem_range] at hw
    obtain ⟨i, hi, rfl⟩ := hw
    simp [sliceB, h]; omega
  have he := aesExpand_words 52 8 _ (by simp) h4
  have hl : ((aesExpand 52 8 ((List.range 8).map fun i => sliceB key (4 * i) 4).reverse).reverse).length = 60 := by
    rw [List.length_reverse, he.1]; simp
  have hw : ∀ w ∈ (aesExpand 52 8 ((List.range 8).map fun i => sliceB key (4 * i) 4).reverse).reverse, w.length = 4 :=
    fun w hw => he.2 w (List.mem_reverse.mp hw)
  unfold aesKeys
  dsimp only
  generalize (aesExpand 52 8 ((List.range 8).map fun i => sliceB key (4 * i) 4).reverse).reverse = ws at hl hw
  have hd : ((List.range 15).map fun r => (List.take 4 (List.drop (4 * r) ws)).flatten).getD 14 [] = (List.take 4 (List.drop 56 ws)).flatten := by
    simp [List.getD]
  rw [hd, List.length_flatten]
  have hs : ∀ l : List (List Byte), (∀ w ∈ l, w.length = 4) → (l.map List.length).sum = 4 * l.length := by
    intro l
    induction l with
    | nil => intro _; rfl
    | cons a l ih => intro hl; simp [ih fun w h => hl w (by simp [h]), hl a (by simp)]; omega
  rw [hs _ fun w hm => hw w (List.mem_of_mem_drop (List.mem_of_mem_take hm)), List.length_take, List.length_drop, hl]
  rfl
theorem gcmTag_length (ks : List (List Byte)) (iv aad ct : List Byte) (h : (ks.getD 14 []).length = 16) : (gcmTag ks iv aad ct).length = 16 := by
  unfold gcmTag
  simp only [xorB_length, aesEnc_length _ _ h, toBytesBE, List.length_reverse, toBytes_length, Nat.min_self]
/-- The number that a tag of 16 bytes makes has those bytes. -/
theorem toBytes_tag (l : List Byte) (h : l.length = 16) : toBytes 16 (BitVec.ofNat 128 (ofBytes l)).toNat = l := by
  have := ofBytes_lt l
  rw [h] at this
  rw [BitVec.toNat_ofNat, Nat.mod_eq_of_lt (by omega)]
  exact h ▸ toBytes_ofBytes l

end Sys2Proof.Machine
end

