-- ==== Sys2Proof/Laws/Engine.lean ====
section
/-! SUPPORT. What the operations that engines share can touch, said once for each. -/

namespace Sys2Proof.Machine

theorem engCode_inj {e f : EngineId} (h : engCode e = engCode f) : e = f := by cases e <;> cases f <;> first | rfl | cases h

theorem engineOf_onEngine_ne (d : Dev) (t : Nat) {e f : EngineId} (g : Engine → Engine) (h : f ≠ e) :
    engineOf (onEngine d t e g) t f = engineOf d t f := by
  unfold engineOf onEngine
  rw [tileOf_onTile]
  exact NMap.get_upd_ne _ _ _ _ fun h' => h (engCode_inj h')

theorem OpFrame.refl (t : Nat) (e : EngineId) (d : Dev) : OpFrame t e d d :=
  ⟨rfl, fun _ _ => rfl, rfl, fun _ _ => rfl, rfl, fun r h => ⟨r, h, rfl, rfl, rfl, rfl, rfl⟩⟩

theorem OpFrame.trans {t : Nat} {e : EngineId} {d1 d2 d3 : Dev} (h : OpFrame t e d1 d2) (h' : OpFrame t e d2 d3) : OpFrame t e d1 d3 := by
  refine ⟨?_, fun u hu => ?_, ?_, fun f hf => (h'.engines f hf).trans (h.engines f hf), h'.queue.trans h.queue, fun r hr => ?_⟩
  · rw [h'.dev, h.dev]
  · rw [h'.others u hu, h.others u hu]
  · rw [h'.tile, h.tile]
  · obtain ⟨r2, k1, k2, k3, k4, k5, k6⟩ := h.run r hr
    obtain ⟨r3, l1, l2, l3, l4, l5, l6⟩ := h'.run r2 k1
    exact ⟨r3, l1, l2.trans k2, l3.trans k3, l4.trans k4, l5.trans k5, l6.trans k6⟩

/-- A change of the device that leaves its tiles. -/
theorem OpFrame.of_tiles {t : Nat} {e : EngineId} {d d' : Dev} (ht : d'.tiles = d.tiles)
    (hd : d' = { d with free := d'.free, mem := d'.mem, counters := d'.counters, reeve := d'.reeve, fabric := d'.fabric, meters := d'.meters }) :
    OpFrame t e d d' := by
  have hT : ∀ u, tileOf d' u = tileOf d u := fun u => by unfold tileOf; rw [ht]
  have hE : ∀ f, engineOf d' t f = engineOf d t f := fun f => by unfold engineOf; rw [hT]
  refine ⟨?_, fun u _ => by rw [hT], by rw [hT], fun f _ => hE f, by rw [hE], fun r hr => ⟨r, ?_, rfl, rfl, rfl, rfl, rfl⟩⟩
  · rw [ht]; exact hd
  · unfold runOf at hr ⊢; rw [hE]; exact hr

theorem OpFrame.of_onlyMem {t : Nat} {e : EngineId} {d d' : Dev} (h : OnlyMem d d') : OpFrame t e d d' :=
  by
  have hf : d'.fabric = d.fabric := by rw [h]
  have hm : d'.meters = d.meters := by rw [h]
  exact .of_tiles (by rw [h]) (by rw [hf, hm]; exact h)

theorem OpFrame.of_fabric {t : Nat} {e : EngineId} (d : Dev) (f : Fabric → Fabric) : OpFrame t e d (onFabric d f) := .of_tiles rfl rfl

theorem runOf_onRun (d : Dev) (t : Nat) (e : EngineId) (f : RunOp → RunOp) : runOf (onRun d t e f) t e = (runOf d t e).map f := by
  unfold runOf onRun; rw [engineOf_onEngine]

/-- A change of the running operation's progress. -/
theorem OpFrame.of_onRun {t : Nat} {e : EngineId} (d : Dev) (f : RunOp → RunOp)
    (h : ∀ r, (f r).q = r.q ∧ (f r).tds = r.tds ∧ (f r).begun = r.begun ∧ (f r).ended = r.ended ∧ (f r).tallyOk = r.tallyOk) :
    OpFrame t e d (onRun d t e f) := by
  refine ⟨rfl, fun u hu => ?_, ?_, fun g hg => engineOf_onEngine_ne _ _ _ hg, ?_, fun r hr => ⟨f r, ?_, h r⟩⟩
  · unfold onRun onEngine; rw [tileOf_onTile_ne _ _ hu]
  · unfold onRun onEngine; rw [tileOf_onTile]
  · unfold onRun; rw [engineOf_onEngine]
  · rw [runOf_onRun, hr]; rfl

theorem OpFrame.foldl {α : Type} {t : Nat} {e : EngineId} (f : Dev → α → Dev) (h : ∀ d x, OpFrame t e d (f d x)) (l : List α) (d : Dev) :
    OpFrame t e d (l.foldl f d) := by
  induction l generalizing d with
  | nil => exact .refl t e d
  | cons x l ih => exact (h d x).trans (ih (f d x))

/-! ### The fabric -/

theorem onPort_frame {t : Nat} {e : EngineId} (d : Dev) (n : Nat) (f : Port → Port) : OpFrame t e d (onPort d n f) := .of_fabric d _
theorem putMeter_frame {t : Nat} {e : EngineId} (d : Dev) (id : MeterId) (m : Meter) : OpFrame t e d (putMeter d id m) := .of_tiles rfl rfl
theorem count_frame {t : Nat} {e : EngineId} (d : Dev) (k i ev n : Nat) (p : Option PolderNo) : OpFrame t e d (count d k i ev n p) :=
  .of_onlyMem (count_onlyMem ..)

theorem freeFlitsAt_frame {t : Nat} {e : EngineId} (d : Dev) (n vc k : Nat) : OpFrame t e d (freeFlitsAt d n vc k) := by
  unfold freeFlitsAt
  split
  · exact .refl t e d
  · exact onPort_frame ..

theorem pumpGo_frame {t : Nat} {e : EngineId} (d : Dev) (n f : Nat) : OpFrame t e d (pumpGo d n f) := by
  induction f generalizing d with
  | zero => exact .refl t e d
  | succ f ih =>
    unfold pumpGo
    dsimp only
    split
    · exact .refl t e d
    · split
      · exact .refl t e d
      · split
        · exact .refl t e d
        · refine OpFrame.trans ?_ (ih _)
          split <;> split <;> repeat
            first
            | exact putMeter_frame ..
            | refine OpFrame.trans ?_ (count_frame ..)
            | refine OpFrame.trans ?_ (onPort_frame ..)
            | refine OpFrame.trans ?_ (freeFlitsAt_frame ..)

theorem pump_frame {t : Nat} {e : EngineId} (d : Dev) (n : Nat) : OpFrame t e d (pump d n) := by
  unfold pump
  dsimp only
  refine OpFrame.trans (d2 := if portSt d n = .on ∧ (portOf d n).hand ≠ [] then onPort d n fun p => handGo p.hand.length p else d) ?_ ?_
  · split
    · exact onPort_frame ..
    · exact .refl t e d
  · generalize (if portSt d n = .on ∧ (portOf d n).hand ≠ [] then onPort d n fun p => handGo p.hand.length p else d) = d1
    split
    · exact (pumpGo_frame ..).trans (onPort_frame ..)
    · exact pumpGo_frame ..

theorem toPort_frame {t : Nat} {e : EngineId} (d : Dev) (n vc : Nat) (k : Packet) (src : Option (Nat × Nat)) (way : Option Nat × Bool) :
    OpFrame t e d (toPort d n vc k src way) := (onPort_frame ..).trans (pump_frame ..)

theorem routeGo_frame {t : Nat} {e : EngineId} (d : Dev) (k : Packet) (i : Option Nat) (u : Bool) (src : Option (Nat × Nat)) (line : Option Nat)
    (f : Nat) : OpFrame t e d (routeGo d k i u src line f).1 := by
  induction f generalizing d k i u src line with
  | zero => exact .refl t e d
  | succ f ih =>
    unfold routeGo
    cases src <;> dsimp only <;> split
    · exact toPort_frame ..
    · exact .refl t e d
    · split
      · exact .refl t e d
      · split
        · exact .refl t e d
        · exact (count_frame ..).trans (ih ..)
    · exact toPort_frame ..
    · exact freeFlitsAt_frame ..
    · split
      · exact freeFlitsAt_frame ..
      · split
        · exact freeFlitsAt_frame ..
        · exact ((freeFlitsAt_frame ..).trans (count_frame ..)).trans (ih ..)

/-- A packet sent touches the fabric, its meters and counters alone. -/
theorem sendPacket_frame {t : Nat} {e : EngineId} (d : Dev) (k : Packet) (line : Option Nat) :
    OpFrame t e d (sendPacket d k line).1 := by
  unfold sendPacket
  split
  · exact OpFrame.of_fabric d fun b => { b with heldFlows := b.heldFlows.map (holdPacket k) }
  · exact routeGo_frame ..

/-- The same for a result that has been taken apart. -/
theorem sendPacket_frame' {t : Nat} {e : EngineId} {d d' : Dev} {k : Packet} {line : Option Nat} {c : Option Code}
    (h : sendPacket d k line = (d', c)) : OpFrame t e d d' := by
  have := sendPacket_frame (t := t) (e := e) d k line
  rwa [h] at this

/-! ### Requests, reads and writes -/

theorem RunOp.noteBad_kept (r : RunOp) (e : EngineId) (kind dev a n : Nat) (c : Code) :
    (r.noteBad e kind dev a n c).q = r.q ∧ (r.noteBad e kind dev a n c).tds = r.tds ∧ (r.noteBad e kind dev a n c).begun = r.begun ∧
      (r.noteBad e kind dev a n c).ended = r.ended ∧ (r.noteBad e kind dev a n c).tallyOk = r.tallyOk := by
  unfold RunOp.noteBad
  split <;> exact ⟨rfl, rfl, rfl, rfl, rfl⟩

theorem sendReq_frame {t : Nat} {e : EngineId} (d : Dev) (r : RunOp) (kind dev a n : Nat) (bs : List Byte) (o : Bool) :
    OpFrame t e d (sendReq d t e r kind dev a n bs o) := by
  unfold sendReq
  dsimp only
  have h0 := OpFrame.of_onRun (t := t) (e := e) d (fun r => { r with nreq := r.nreq + 1 }) fun r => ⟨rfl, rfl, rfl, rfl, rfl⟩
  split
  · rename_i h
    exact (h0.trans (OpFrame.of_fabric ..)).trans (sendPacket_frame' h)
  · rename_i h
    exact (((h0.trans (OpFrame.of_fabric ..)).trans (sendPacket_frame' h)).trans (OpFrame.of_fabric ..)).trans
      (OpFrame.of_onRun _ _ fun r => RunOp.noteBad_kept ..)

theorem askReads_frame {t : Nat} {e : EngineId} (d : Dev) (r : RunOp) (g : Rng) : OpFrame t e d (askReads d t e r g) := by
  unfold askReads
  split
  · exact .refl t e d
  · refine OpFrame.foldl _ (fun d p => ?_) _ d
    split
    · exact .refl t e d
    · exact sendReq_frame ..

theorem needs_frame {t : Nat} {e : EngineId} (d : Dev) (r : RunOp) (gs : List Rng) : OpFrame t e d (needs d t e r gs).1 := by
  unfold needs
  dsimp only
  split
  · exact .refl t e d
  · exact OpFrame.foldl _ (fun d g => askReads_frame d r g) _ d

/-- Where every range is here, the work goes on with the device as it is. -/
theorem withRanges_of {d : Dev} {t : Nat} {e : EngineId} {r : RunOp} {gs : List Rng} {m : Nat} (go : Dev → Dev) (hb : r.bad = none)
    (hn : gs.filter (fun g => g.dev ≠ selfId d && !fetchedAll r g) = []) : withRanges d t e r gs m go = go d := by
  unfold withRanges needs
  rw [hb]
  dsimp only
  rw [if_pos hn]

theorem tickTile_frame {t : Nat} {e : EngineId} (d : Dev) (u : Nat) : OpFrame t e d (tickTile d u) := by
  unfold tickTile
  dsimp only
  generalize Config.elapsed _ = n
  refine OpFrame.trans ?_ (count_frame ..)
  refine ⟨rfl, fun v hv => ?_, ?_, fun f hf => ?_, ?_, fun r hr => ⟨r, ?_, rfl, rfl, rfl, rfl, rfl⟩⟩
  · by_cases h : v = u
    · subst h; rw [tileOf_onTile]; rfl
    · rw [tileOf_onTile_ne _ _ h]; rfl
  · by_cases h : t = u
    · subst h; rw [tileOf_onTile]; rfl
    · rw [tileOf_onTile_ne _ _ h]; rfl
  all_goals
    have hE : ∀ f, engineOf (onTile { d with free := d.free + 1 } u fun x => { x with cyc := x.cyc + BitVec.ofNat 64 n }) t f = engineOf d t f := by
      intro f; unfold engineOf
      by_cases h : t = u
      · subst h; rw [tileOf_onTile]; rfl
      · rw [tileOf_onTile_ne _ _ h]; rfl
  · exact hE f
  · rw [hE]
  · unfold runOf at hr ⊢; rw [hE]; exact hr

theorem driftBlock_frame {t : Nat} {e : EngineId} (d : Dev) (k i : Nat) : OpFrame t e d (driftBlock d k i) := .of_tiles rfl rfl

theorem touchBlock_frame {t : Nat} {e : EngineId} (d : Dev) (a : Nat) : OpFrame t e d (touchBlock d a) := by
  unfold touchBlock
  split
  · split
    · exact (tickTile_frame ..).trans (driftBlock_frame ..)
    · exact driftBlock_frame ..
  · exact .refl t e d

theorem latchUpper_frame {t : Nat} {e : EngineId} (d : Dev) (k i o : Nat) : OpFrame t e d (latchUpper d k i o) := by
  unfold latchUpper
  split
  · split
    · exact .of_tiles rfl rfl
    · exact .refl t e d
  · exact .refl t e d

theorem ctrWords_frame {t : Nat} {e : EngineId} (d : Dev) (p : Option PolderNo) (w n : Nat) : OpFrame t e d (ctrWords d p w n).1 := by
  induction n generalizing d w with
  | zero => exact .refl t e d
  | succ n ih =>
    unfold ctrWords
    split
    · exact (latchUpper_frame ..).trans (ih ..)
    · exact ih ..

theorem ctrRead_frame {t : Nat} {e : EngineId} (d : Dev) (p : Option PolderNo) (a n : Nat) : OpFrame t e d (ctrRead d p a n).1 :=
  OpFrame.trans (OpFrame.foldl _ (fun d _ => touchBlock_frame d _) _ d) (ctrWords_frame ..)

theorem memRead_frame {t : Nat} {e : EngineId} (d : Dev) (acc : Acc) (a n : Nat) : OpFrame t e d (memRead d acc a n).1 :=
  .of_onlyMem (memRead_onlyMem ..)
theorem memWrite_frame {t : Nat} {e : EngineId} (d : Dev) (acc : Acc) (a : Nat) (bs : List Byte) : OpFrame t e d (memWrite d acc a bs).1 :=
  .of_onlyMem (memWrite_onlyMem ..)
theorem keyWords_frame {t : Nat} {e : EngineId} (d : Dev) (acc : Acc) (k n : Nat) : OpFrame t e d (keyWords d acc k n).1 :=
  .of_onlyMem (keyWords_onlyMem ..)

theorem readRng_frame {t : Nat} {e : EngineId} (d : Dev) (acc : Acc) (r : RunOp) (g : Rng) : OpFrame t e d (readRng d acc r g).1 := by
  unfold readRng
  split
  · split
    · dsimp only; exact ctrRead_frame ..
    · exact memRead_frame ..
  · split <;> exact .refl t e d

theorem readRng_frame' {t : Nat} {e : EngineId} {d d' : Dev} {acc : Acc} {r : RunOp} {g : Rng} {x : Except Code (List Byte)}
    (h : readRng d acc r g = (d', x)) : OpFrame t e d d' := by
  have := readRng_frame (t := t) (e := e) d acc r g
  rwa [h] at this

theorem sendWrites_frame {t : Nat} {e : EngineId} (r : RunOp) (dev : Nat) (o : Bool) (f : Nat) (d : Dev) (a : Nat) (bs : List Byte) :
    OpFrame t e d (sendWrites t e r dev o f d a bs) := by
  induction f generalizing d a bs with
  | zero => exact .refl t e d
  | succ f ih =>
    unfold sendWrites
    split
    · exact .refl t e d
    · exact (sendReq_frame ..).trans (ih ..)

theorem writeRng_frame {t : Nat} {e : EngineId} (d : Dev) (r : RunOp) (dev a : Nat) (bs : List Byte) (o : Bool) :
    OpFrame t e d (writeRng d t e r dev a bs o).1 := by
  unfold writeRng
  split
  · exact memWrite_frame ..
  · dsimp only
    refine OpFrame.trans (OpFrame.of_onRun d _ ?_) (sendWrites_frame ..)
    exact fun r => ⟨rfl, rfl, rfl, rfl, rfl⟩

theorem writeRng_frame' {t : Nat} {e : EngineId} {d d' : Dev} {r : RunOp} {dev a : Nat} {bs : List Byte} {o : Bool} {c : Option Code}
    (h : writeRng d t e r dev a bs o = (d', c)) : OpFrame t e d d' := by
  have := writeRng_frame (t := t) (e := e) d r dev a bs o
  rwa [h] at this

theorem writeAt_frame {t : Nat} {e : EngineId} (d : Dev) (r : RunOp) (td : TDesc) (ix : List Nat) (c : Nat) :
    OpFrame t e d (writeAt d t e r td ix c).1 := by
  unfold writeAt
  dsimp only
  split
  · split
    · exact writeRng_frame ..
    · split
      · rename_i h; exact (readRng_frame' h).trans (writeRng_frame ..)
      · rename_i h; exact (readRng_frame' h).trans (writeRng_frame ..)
  · exact writeRng_frame ..

theorem writeAt_frame' {t : Nat} {e : EngineId} {d d' : Dev} {r : RunOp} {td : TDesc} {ix : List Nat} {c : Nat} {x : Option Code}
    (h : writeAt d t e r td ix c = (d', x)) : OpFrame t e d d' := by
  have := writeAt_frame (t := t) (e := e) d r td ix c
  rwa [h] at this

theorem writeList_frame {t : Nat} {e : EngineId} (r : RunOp) (td : TDesc) (d : Dev) (n : Nat) (l : List (List Nat × Nat)) :
    OpFrame t e d (writeList t e r td d n l).1 := by
  induction l generalizing d n with
  | nil => exact .refl t e d
  | cons p l ih =>
    obtain ⟨ix, c⟩ := p
    unfold writeList
    split
    · rename_i h; exact writeAt_frame' h
    · rename_i h; exact (writeAt_frame' h).trans (ih ..)

theorem readLocal_frame {t u : Nat} {e : EngineId} (d : Dev) (x : Polder) (acc : Acc) (o n : Nat) :
    OpFrame t e d (readLocal d u x acc o n).1 := by
  unfold readLocal
  split
  · exact .refl t e d
  · split
    · exact .refl t e d
    · exact memRead_frame ..

theorem readLocal_frame' {t u : Nat} {e : EngineId} {d d' : Dev} {x : Polder} {acc : Acc} {o n : Nat} {y : Except Code (List Byte)}
    (h : readLocal d u x acc o n = (d', y)) : OpFrame t e d d' := by
  have := readLocal_frame (t := t) (u := u) (e := e) d x acc o n
  rwa [h] at this

theorem readTds_frame {t u : Nat} {e : EngineId} (d : Dev) (x : Polder) (acc : Acc) (l : List (Option Nat)) :
    OpFrame t e d (readTds d u x acc l).1 := by
  induction l generalizing d with
  | nil => exact .refl t e d
  | cons o l ih =>
    unfold readTds
    split
    · have := ih d
      split
      · rename_i h; rw [h] at this; exact this
      · exact this
    · split
      · rename_i h; exact readLocal_frame' h
      · rename_i d1 bs h
        have := ih d1
        split
        · rename_i h'; rw [h'] at this; exact (readLocal_frame' h).trans this
        · exact (readLocal_frame' h).trans this

end Sys2Proof.Machine
end

