-- ==== Sys2Proof/Laws/Steamer.lean ====
section
/-! SUPPORT. What the reading and encoding of elements and the passes of a Steamer operation can touch. -/

namespace Sys2Proof.Machine

/-! ### Elements -/

theorem scaleAt_frame {t : Nat} {e : EngineId} (d : Dev) (acc : Acc) (r : RunOp) (td : TDesc) (sn : List F32) (i : Nat) :
    OpFrame t e d (scaleAt d acc r td sn i).1 := by
  unfold scaleAt
  split
  · exact .refl t e d
  · split <;> (rename_i h; exact readRng_frame' h)

theorem scaleAt_frame' {t : Nat} {e : EngineId} {d d' : Dev} {acc : Acc} {r : RunOp} {td : TDesc} {sn : List F32} {i : Nat}
    {x : Except Code F32} (h : scaleAt d acc r td sn i = (d', x)) : OpFrame t e d d' := by
  have := scaleAt_frame (t := t) (e := e) d acc r td sn i
  rwa [h] at this

theorem sideRow_frame {t : Nat} {e : EngineId} (d : Dev) (acc : Acc) (r : RunOp) (td : TDesc) (n : Nat) :
    OpFrame t e d (sideRow d acc r td n).1 := by
  unfold sideRow
  dsimp only
  split
  · rename_i h; exact readRng_frame' h
  · rename_i h
    split
    · rename_i h'; exact (readRng_frame' h).trans (readRng_frame' h')
    · rename_i h'
      split <;> exact (readRng_frame' h).trans (readRng_frame' h')

theorem sideLookup_frame {t : Nat} {e : EngineId} (d : Dev) (acc : Acc) (r : RunOp) (td : TDesc) (lo hi c : Nat) :
    OpFrame t e d (sideLookup d acc r td lo hi c).1 := by
  unfold sideLookup
  split <;> (rename_i h; exact readRng_frame' h)

theorem sideLookup_frame' {t : Nat} {e : EngineId} {d d' : Dev} {acc : Acc} {r : RunOp} {td : TDesc} {lo hi c : Nat}
    {x : Except Code (Option B16)} (h : sideLookup d acc r td lo hi c = (d', x)) : OpFrame t e d d' := by
  have := sideLookup_frame (t := t) (e := e) d acc r td lo hi c
  rwa [h] at this

theorem elemRaw_frame {t : Nat} {e : EngineId} (d : Dev) (acc : Acc) (r : RunOp) (td : TDesc) (sn : List F32) (ix : List Nat) :
    OpFrame t e d (elemRaw d acc r td sn ix).1 := by
  unfold elemRaw
  dsimp only
  split
  · rename_i h; exact readRng_frame' h
  · rename_i d1 bs h
    have h1 := readRng_frame' (t := t) (e := e) h
    refine h1.trans ?_
    split
    · split
      · split
        · rename_i h2; exact scaleAt_frame' h2
        · rename_i h2
          split <;> exact scaleAt_frame' h2
      · exact .refl ..
    · have hs : ∀ {d2 : Dev} {x : Except Code (Nat × Nat)},
          (if (tSide td && decide (fmtOf td ≠ .u8l)) = true then sideRow d1 acc r td (tRow td ix) else (d1, .ok (0, 0))) = (d2, x) →
            OpFrame t e d1 d2 := by
        intro d2 x hx
        split at hx
        · have := sideRow_frame (t := t) (e := e) d1 acc r td (tRow td ix); rwa [hx] at this
        · cases hx; exact .refl ..
      split
      · rename_i h2; exact hs h2
      · rename_i h2
        refine (hs h2).trans ?_
        split
        · rename_i h3; exact scaleAt_frame' h3
        · rename_i h3
          refine (scaleAt_frame' h3).trans ?_
          split
          · exact .refl ..
          · split
            · split
              · split
                · rename_i h4; exact sideLookup_frame' h4
                · rename_i h4; exact sideLookup_frame' h4
                · rename_i h4; exact sideLookup_frame' h4
              · exact .refl ..
            · exact .refl ..

theorem elemAt_frame {t : Nat} {e : EngineId} (d : Dev) (acc : Acc) (r : RunOp) (td : TDesc) (sn : List F32) (F : FFmt) (ix : List Nat) :
    OpFrame t e d (elemAt d acc r td sn F ix).1 := by
  have := elemRaw_frame (t := t) (e := e) d acc r td sn ix
  unfold elemAt
  split <;> (rename_i h; rw [h] at this; exact this)

theorem elemAt_frame' {t : Nat} {e : EngineId} {d d' : Dev} {acc : Acc} {r : RunOp} {td : TDesc} {sn : List F32} {F : FFmt}
    {ix : List Nat} {x : Except Code (FVal × Bool)} (h : elemAt d acc r td sn F ix = (d', x)) : OpFrame t e d d' := by
  have := elemAt_frame (t := t) (e := e) d acc r td sn F ix
  rwa [h] at this

/-! ### Encoding -/

theorem encScale_frame' {t : Nat} {e : EngineId} {d d' : Dev} {acc : Acc} {r : RunOp} {z : EncSet} {ix : List Nat}
    {x : Except Code (Option F32)} (h : encScale d acc r z ix = (d', x)) : OpFrame t e d d' := by
  unfold encScale at h
  split at h
  · cases h; exact .refl ..
  · split at h
    · rename_i h2
      split at h <;> (cases h; exact scaleAt_frame' h2)
    · rename_i h2; cases h; exact scaleAt_frame' h2

theorem encWrite_frame {t : Nat} {e : EngineId} (d : Dev) (r : RunOp) (z : EncSet) (a : EncAcc) (l : Bool) (ix : List Nat) (v : F32) :
    OpFrame t e d (encWrite d t e r z a l ix v).1 := by
  unfold encWrite
  split
  · rename_i h; exact encScale_frame' h
  · rename_i h
    dsimp only
    split
    · rename_i h2; exact (encScale_frame' h).trans (writeAt_frame' h2)
    · rename_i h2; exact (encScale_frame' h).trans (writeAt_frame' h2)

theorem encWrite_frame' {t : Nat} {e : EngineId} {d d' : Dev} {r : RunOp} {z : EncSet} {a a' : EncAcc} {l : Bool} {ix : List Nat}
    {v : F32} {x : Except Code EncOut} (h : encWrite d t e r z a l ix v = (d', a', x)) : OpFrame t e d d' := by
  have := encWrite_frame (t := t) (e := e) d r z a l ix v
  rwa [h] at this

/-- A change of the tile's own scale registers, summary registers or threads. -/
theorem OpFrame.of_tile {t : Nat} {e : EngineId} (d : Dev) (f : Tile → Tile)
    (h : ∀ x, f x = { x with scale := (f x).scale, threads := (f x).threads, summ := (f x).summ }) : OpFrame t e d (onTile d t f) := by
  have hE : ∀ g, engineOf (onTile d t f) t g = engineOf d t g := by
    intro g; unfold engineOf; rw [tileOf_onTile, h]
  refine ⟨rfl, fun u hu => by rw [tileOf_onTile_ne _ _ hu], ?_, fun g _ => hE g, by rw [hE], fun r hr => ⟨r, ?_, rfl, rfl, rfl, rfl, rfl⟩⟩
  · rw [tileOf_onTile]
    have := h (tileOf d t)
    rw [this]
  · unfold runOf at hr ⊢; rw [hE]; exact hr

theorem onScale_frame {t : Nat} {e : EngineId} (d : Dev) (n : Nat) (f : BitVec 512 → BitVec 512) : OpFrame t e d (onScale d t n f) :=
  OpFrame.of_tile d (fun x => { x with scale := NMap.upd x.scale 0 n f }) fun _ => rfl

theorem mergePend_frame {t : Nat} {e : EngineId} (d : Dev) (n : Nat) (v : F32) : OpFrame t e d (mergePend d t n v) :=
  onScale_frame d n _

theorem writeSide_frame {t : Nat} {e : EngineId} (d : Dev) (r : RunOp) (z : EncSet) (a : EncAcc) :
    OpFrame t e d (writeSide d t e r z a).1 := by
  unfold writeSide
  dsimp only
  split
  · rename_i h; exact writeRng_frame' h
  · rename_i h
    split
    · rename_i h2; exact (writeRng_frame' h).trans (writeRng_frame' h2)
    · rename_i h2
      split
      · exact (writeRng_frame' h).trans (writeRng_frame' h2)
      · exact ((writeRng_frame' h).trans (writeRng_frame' h2)).trans (writeRng_frame ..)

theorem encClose_frame {t : Nat} {e : EngineId} (d : Dev) (r : RunOp) (z : EncSet) (a : EncAcc) :
    OpFrame t e d (encClose d t e r z a).1 := by
  unfold encClose
  have h1 : ∀ {d2 : Dev} {x : Option Code}, (if z.sided then writeSide d t e r z a else (d, none)) = (d2, x) → OpFrame t e d d2 := by
    intro d2 x hx
    split at hx
    · have := writeSide_frame (t := t) (e := e) d r z a; rwa [hx] at this
    · cases hx; exact .refl ..
  generalize hq : (if z.sided then writeSide d t e r z a else (d, none)) = q at *
  obtain ⟨d2, x⟩ := q
  have h2 := h1 rfl
  dsimp only
  have h3 : OpFrame t e d (if z.amx = true then a.obs.foldl (fun d p => mergePend d t (tSrefReg z.td + p.1) p.2) d2 else d2) := by
    split
    · exact h2.trans (OpFrame.foldl _ (fun d p => mergePend_frame ..) _ _)
    · exact h2
  split
  · exact h3
  · exact h3.trans (count_frame ..)

/-! ### The passes of a Steamer operation -/

/-- The pass has touched what its operation may. -/
def SFrame (e : SEnv) (c c' : SCtx) : Prop := OpFrame e.t .steamer c.d c'.d

theorem SFrame.refl (e : SEnv) (c : SCtx) : SFrame e c c := OpFrame.refl ..
theorem SFrame.trans {e : SEnv} {a b c : SCtx} (h : SFrame e a b) (h' : SFrame e b c) : SFrame e a c := OpFrame.trans h h'

theorem sGet_frame (e : SEnv) (c : SCtx) (k : Nat) (ix : List Nat) : SFrame e c (sGet e c k ix).1 := by
  unfold sGet
  split
  · exact .refl e c
  · dsimp only
    split <;> (rename_i h; exact elemAt_frame' h)

theorem sMasked_frame (e : SEnv) (c : SCtx) (ix : List Nat) : SFrame e c (sMasked e c ix).1 := by
  unfold sMasked
  split
  · exact .refl e c
  · exact sGet_frame ..
  · exact .refl e c

theorem sPut_frame (e : SEnv) (c : SCtx) (k : Nat) (ix : List Nat) (v : F32) : SFrame e c (sPut e c k ix v) := by
  unfold sPut
  split
  · exact .refl e c
  · dsimp only
    split <;> (rename_i h; exact writeAt_frame' h)

theorem sOutZ_frame (e : SEnv) (c : SCtx) (ix : List Nat) (v : F32) : SFrame e c (sOutZ e c ix v) := by
  unfold sOutZ
  split
  · exact .refl e c
  · dsimp only
    split
    · exact .refl e c
    · split
      · split <;> (rename_i h; exact writeAt_frame' h)
      · split <;> (rename_i h; exact encWrite_frame' h)

theorem sStage_frame (e : SEnv) (c : SCtx) (ix : List Nat) (v : F32) : SFrame e c (sStage e c ix v) := by
  unfold sStage
  split <;> exact .refl ..

theorem sRow_frame (e : SEnv) (c : SCtx) (ix : List Nat) (b : Bool) : SFrame e c (sRow e c ix b) := OpFrame.refl ..

theorem sApply_frame (e : SEnv) (c : SCtx) (ix : List Nat) (xv : Option F32) : SFrame e c (sApply e c ix xv).1 := by
  unfold sApply
  dsimp only
  have h1 : ∀ c, SFrame e c (if sHas e.r.q.desc 1 = true then sGet e c 1 ix else (c, 0)).1 := by
    intro c; split
    · exact sGet_frame ..
    · exact .refl ..
  have h2 : ∀ c, SFrame e c (if sHas e.r.q.desc 2 = true then sGet e c 2 ix else (c, 0)).1 := by
    intro c; split
    · exact sGet_frame ..
    · exact .refl ..
  cases xv with
  | some v => exact (h1 c).trans (h2 _)
  | none => exact ((sGet_frame ..).trans (h1 _)).trans (h2 _)

end Sys2Proof.Machine
end

