-- ==== Sys2Proof/WellFormed.lean ====
section
/-! DEFINITION. What a sender of commands keeps to: the shape of packets, frames, messages and test outcomes, and operands
that name something that exists. The step does not ask for it; statements may. -/

namespace Sys2Proof

/-- A packet's payload is whole 8 B words, at most 256 B (R253), and its poison marks name its words. -/
def Packet.wf (p : Packet) : Bool :=
  p.payload.length % 8 = 0 && p.payload.length ≤ 256 && p.poison.all fun i => i < p.payload.length / 8

/-- A frame's payload is at most 8,872 B (R368). -/
def Frame.wf (f : Frame) : Bool := f.body.length ≤ 8872

/-- A message's bytes are whole 16 B units (R370). -/
def Message.wf (m : Message) : Bool := m.body.length % 16 = 0

/-- A stage's outcome names each port once, tiles of the 32 clusters' 68, and the 18 cipher pipelines (R435, R441). -/
def StageOutcome.wf (o : StageOutcome) : Bool :=
  decide ((o.ports.map Prod.fst).Nodup) && o.badTiles.all (· < 2176) && o.badPipes.all (· < 18)

/-- A memory controller, the one kind of unit that retrains after a fault (R475). -/
def UnitId.isController : UnitId → Bool
  | .hbm _ | .ddr _ => true
  | _ => false

/-- A command's operands are well formed. -/
def Instr.wf : Instr → Bool
  | .writeRx p | .readRx p | .readDataRx p | .writeAckRx p | .redDataRx p | .redOpenRx p | .failMarkRx p | .redAckRx p
  | .absorbedRx p | .undeliveredRx p | .breakRx p | .ping p | .status p | .mgmtAnswerRx p => p.wf
  | .packetTransit _ _ _ _ _ p _ | .handoverLeadRx _ _ p => p.wf
  | .dataRx f | .ackRx f | .probeRx f | .probeEchoRx f => f.wf
  | .contributionRx m | .ledgerNoticeRx m | .reconcileProposalRx m | .joinerFetchRequestRx m | .joinerStateRx m => m.wf
  | .tidalMessageHandoff _ m _ => m.wf
  | .registerWrite a _ => a.toNat % 4 = 0
  | .frontWindowIgnoredAccess o _ => o.toNat % 4 = 0
  | .bulkApertureAccess _ w n => match w with | some bs => bs ≠ [] | none => 0 < n
  | .mcRetrainEnd u => u.isController
  | .throttleWindow _ _ temps _ => temps.length = 32
  | .periodicKnownAnswerTest failed => decide failed.Nodup
  | .bringupStageEnd o => o.wf
  | .add _ | .sub _ | .mul _ | .andOp _ | .orOp _ | .xorOp _ | .shl _ | .shr _ | .sar _ | .addi _ | .shli _ | .slt _ | .seq _
  | .flt _ | .ld _ | .ldDataReturn _ _ | .st _ | .bnz _ | .bz _ | .jmp _ | .sumrd _ | .waits _ | .issue _ | .issueSlotGrant _
  | .wait _ | .spawn _ | .exit _ | .cyc _ | .unknownOpCode _ | .fetchOutsideRegion _ => true
  | .matmul _ | .bwdData _ | .bwdWeight _ | .adapterDown _ | .fullerPassEnd _ | .handoffBankDrain _ | .handoffStallLimit _
  | .map _ | .reduceSum _ | .reduceMax _ | .reduceMin _ | .reduceArgmax _ | .softmax _ | .rmsnorm _ | .layernorm _
  | .rmsnormBwd _ | .layernormBwd _ | .handoffEntryTake _ | .handoffWaitLimit _ | .encode _ | .decode _ | .roll _ | .sload _
  | .sstore _ | .expand _ | .compress _ | .verify _ | .cbload _ | .cbstore _ | .update _ | .gnorm _ | .delta _ | .outer _
  | .replace _ | .recover _ | .txnPreimageWritten _ | .txnBlockStateAccepted _ | .txnWorkingCopyAccepted _ | .txnRollback _
  | .stateFetchReturn _ | .chunkUpdateStart _ | .waitSlotFree _ | .allreduce _ | .reduceScatter _ | .allgather _ | .alltoall _
  | .permute _ | .permuteHoldCopyEnd _ | .orFlag _ | .transfer _ | .pushCreditGrant _ | .engineOpStart _ _ | .engineOpEnd _ _ => true
  | .scrubRead _ | .softRepairCopyEnd _ | .streamRoomGrant | .chunkComplete _ _ _ _ | .slowMemberNotice _ _ _ | .tideBoundary _
  | .countLineWrite _ _ _ | .linkControlWordRx _ _ | .linkControlTimer _ _ | .linkCodewordUncorrectable _ | .leveeRetrainStart _
  | .leveeRetrainEnd _ _ | .leveeNeighbourTraining _ _ => true
  | .mbxCmdWrite _ _ _ | .mbxSeqWrite _ _ | .mbxGo _ _ | .mbxCancel _ _ | .mbxTakeUp _ | .mailboxStep _ => true
  | .devInfo _ | .noticeRing _ | .clusterClock _ | .levConfig _ | .levConfigShares _ | .polderCreate _ | .polderDestroy _
  | .polderShares _ | .stageQueue _ | .mbxAssign _ | .faultRead _ | .stripeMode _ | .scrubPeriod _ | .elogRead _ | .progLoad _
  | .threadStart _ | .threadPark _ | .threadResume _ | .threadFree _ | .descIssue _ | .collAbort _ | .openShards _
  | .sluiceConfig _ | .sluiceShard _ | .sluiceMember _ | .sluiceReplay _ | .sluicePath _ | .sluiceShardmap _ | .cipherKex _
  | .cipherKek _ | .keyLoad _ | .keyRetire _ | .keyActivate _ | .keyStatus _ | .legacyKey _ | .ciphLkgoWrite _ | .ctrSnapshot _
  | .ctrSelect _ | .bootImage _ | .licence _ | .attest _ | .resClaim _ | .resRelease _ | .stageRead _ | .resetTile _
  | .resetCluster _ | .resetPolder _ | .resetDevice _ => true
  | .nodeBreakAnswered | .resetDrainEnd _ | .drainLimitExpiry _ | .resetRelease _ | .blockEnable _ | .blockDisable _
  | .blockStartEnd _ _ _ | .blockStopEnd _ | .spareStatus _ | .unitFault _ | .reeveHeartbeatMiss _ => true
  | .sensorAlarm _ | .almCauseWrite _ | .pwrCapWrite _ | .gpCtlWrite _ _ _ | .rstNAssert _ | .rstNRelease _ _ | .vinLoss
  | .dbgOpen | .mgmtBusAddressAssign _ | .shadowRotation _ | .powerOn | .alarmConditionEnd _ => true
  | .readyWordWrite _ _ | .stepWordWrite _ _ | .holdingReportRx _ _ _ _ | .mergeFormed _ | .mergeWordRelease _ | .anchorDigestReport _
  | .holdEnd => true
  | .frameSend _ | .ackTimer _ | .rtoExpiry _ | .holdoffExpiry _ | .pathProbeTimer _ | .pathDownTimeout _ | .rateIncrease _
  | .refusedRequeue _ | .packetTooBigRx _ _ | .neighbourSolicitationRx _ _ | .echoRequestRx _ _ | .tidalPacketDiscard _
  | .tidalLinkLoss _ | .tidalRetrainTimeout _ | .tidalLinkRestored _ => true

end Sys2Proof
end

