-- ==== Sys2Proof/Tests/Slice0.lean ====
section
/-! SUPPORT. Tests of the model, each on one step or one function: that ill-formed commands are refused, results that the
spec's examples give, and for each statement of Obligations.lean with hypotheses a state that meets them. -/

namespace Sys2Proof.Tests

set_option Elab.async false

open Sys2Proof Sys2Proof.Machine

/-! ### Well-formed commands -/

def tPacket (n : Nat) (poison : List Nat) : Packet := ⟨0, List.replicate n 0, poison⟩
def tFrame0 (n : Nat) : Frame := { port := 0, src := 0, dst := 0, sport := 0, dport := 0, sumOk := true, hdr := 0, body := List.replicate n 0, tag := 0 }

theorem test_packet_length : (Instr.writeRx (tPacket 256 [31])).wf = true ∧ (Instr.writeRx (tPacket 264 [])).wf = false ∧
    (Instr.ping (tPacket 12 [])).wf = false := by decide +kernel
theorem test_packet_poison : (Instr.readDataRx (tPacket 16 [2])).wf = false ∧ (Instr.packetTransit 0 0 0 0 0 (tPacket 16 [2]) false).wf = false := by
  decide +kernel
theorem test_frame_length (n : Nat) : (Instr.dataRx (tFrame0 n)).wf = decide (n ≤ 8872) := by
  simp [Instr.wf, Frame.wf, tFrame0]
theorem test_message_units : (Instr.contributionRx ⟨0, List.replicate 15 0⟩).wf = false ∧ (Instr.contributionRx ⟨0, List.replicate 16 0⟩).wf = true ∧
    (Instr.tidalMessageHandoff 0 ⟨0, [0]⟩).wf = false := by decide +kernel
theorem test_addresses : (Instr.registerWrite 0x102 0).wf = false ∧ (Instr.registerWrite 0x104 0).wf = true ∧
    (Instr.frontWindowIgnoredAccess 2 false).wf = false := by decide +kernel
theorem test_aperture : (Instr.bulkApertureAccess 0 (some []) 0).wf = false ∧ (Instr.bulkApertureAccess 0 none 0).wf = false ∧
    (Instr.bulkApertureAccess 0 (some [7]) 0).wf = true := by decide +kernel
theorem test_retrain_unit : (Instr.mcRetrainEnd (.tile 0)).wf = false ∧ (Instr.mcRetrainEnd (.ddr 7)).wf = true := by decide +kernel
theorem test_pipelines_once : (Instr.periodicKnownAnswerTest [3, 3]).wf = false ∧ (Instr.periodicKnownAnswerTest [3, 4]).wf = true := by
  decide +kernel

def tOutcome : StageOutcome := ⟨true, 31, none, [], 0, 0, [], 0, [], [], 0, [], 0⟩

theorem test_throttle_sensors : (Instr.throttleWindow 0 0 (List.replicate 31 0) 0).wf = false ∧
    (Instr.throttleWindow 0 0 (List.replicate 32 0) 0).wf = true := by decide +kernel
theorem test_stage_tiles : (Instr.bringupStageEnd { tOutcome with badTiles := [2175] }).wf = true ∧
    (Instr.bringupStageEnd { tOutcome with badTiles := [2176] }).wf = false := by decide +kernel
theorem test_stage_pipes : (Instr.bringupStageEnd { tOutcome with badPipes := [17] }).wf = true ∧
    (Instr.bringupStageEnd { tOutcome with badPipes := [18] }).wf = false := by decide +kernel
theorem test_stage_ports (x : PortTrain) : (Instr.bringupStageEnd { tOutcome with ports := [(0, x), (0, x)] }).wf = false := by
  simp [Instr.wf, StageOutcome.wf, tOutcome]

/-! ### Small states -/

/-- A polder on tile 0: threads 0 to 31, a program region of 1,024 words, the whole scratchpad, summary registers 0 to 31, scale
registers 0 to 63, codebook sets 0 to 31, a share of class 1, a journal of 1 MiB in HBM. -/
def tPol : Polder :=
  { desc := BitVec.ofNat 1024 (7 + 1 <<< 43 + 1 <<< 50 + 1 <<< 69 + 1 <<< 80 + 256 <<< 94 + 32 <<< 109 + 1 <<< 122 + 32 <<< 134
      + 1 <<< 154 + 0x10000000 <<< 192 + 256 <<< 228)
    shares := [100] }

/-- A device with that polder, cluster 0 and stack 0 ON. -/
def tDevice : Dev := { polders := [(1, tPol)], blocks := { st := [(1024, .on), (1280, .on)] } }

/-- Its state, changed. -/
def tState (f : Dev → Dev) : State := { dev := f tDevice }

/-- Without an error of memory every range is clean. -/
theorem clean_of {d : Dev} (a n : Nat) (h : d.mem.ecc = []) : Clean d a n := by
  intro _ _ _ _; rw [h]; rfl

/-- The elements in a list can be read, or reached. -/
def tInput (d : Dev) (p : TDesc × List Nat) (snap : List F32 := []) : Bool :=
  decide ((tDev p.1).toNat = selfId d ∧ rangeErr d (elemAddr p.1 p.2) (elemLen p.1) = none ∧ tCmp p.1 = false ∧ tSide p.1 = false ∧
    (((fmtOf p.1).isCode = false ∧ tSrefKind p.1 = 0) ∨ (tSrefKind p.1 = 1 ∧ scaleOk (snap.getD (scaleIdx p.1 p.2) 0) = true)) ∧
    isEscape (fmtOf p.1) (codeAt d p.1 p.2) = false)
theorem tInputs {d : Dev} {p : TDesc × List Nat} {snap : List F32} (h : tInput d p snap = true) : Input d p.1 snap p.2 :=
  have h := of_decide_eq_true h
  ⟨⟨⟨h.1, h.2.1⟩, h.2.2.1, h.2.2.2.1, h.2.2.2.2.1⟩, h.2.2.2.2.2⟩
theorem tAll {d : Dev} {l : List (TDesc × List Nat)} {snap : TDesc → List F32} (h : (l.all fun p => tInput d p (snap p.1)) = true) :
    ∀ p ∈ l, Input d p.1 (snap p.1) p.2 := fun p hp => tInputs (List.all_eq_true.mp h p hp)
theorem tReach {d : Dev} {l : List (TDesc × List Nat)} (h : (l.all fun p => tInput d p []) = true) :
    ∀ p ∈ l, Reach d p.1 p.2 := fun p hp => (tInputs (List.all_eq_true.mp h p hp)).toReach

/-- A next state of which p holds. -/
def after (o : Out) (p : State → Bool) : Bool :=
  match o with
  | .next s => p s
  | _ => false

/-! ### The crown -/

/-- Thread 0 of tile 0 is READY at instruction pc, where w stands; s1 to s3 hold the values given. -/
def tThread (w : W32) (pc : W64) (s1 s2 s3 : W64) (f : Dev → Dev := id) : State :=
  tState fun d => f { d with
    tiles := [(0, { threads := [(0, { st := .ready, pc := pc, regs := [(1, s1), (2, s2), (3, s3)] })] })]
    mem := { d.mem with bytes := Mem.writeN d.mem.bytes (progKey 0 pc.toNat) (toBytes 4 w.toNat) } }

/-- What `Fetches` asks of thread 0 of tile 0 and polder 1. -/
def tFetch (s : State) (w : W32) : Bool :=
  decide (nextThread s.dev 0 = some 0 ∧ (threadOf s.dev 0 0).st = .ready ∧ polderOfThread s.dev 0 0 = some (1, tPol) ∧
    (threadOf s.dev 0 0).pc.toNat < tPol.plen ∧
    NMap.find? s.dev.mem.ecc (progKey 0 (tPol.pbase + (threadOf s.dev 0 0).pc.toNat) / 8) = none ∧
    BitVec.ofNat 32 (ofBytes (Mem.readN s.dev.mem.bytes (progKey 0 (tPol.pbase + (threadOf s.dev 0 0).pc.toNat)) 4)) = w)

theorem tFetches {s : State} {w : W32} (h : tFetch s w = true) : Fetches s 0 0 1 tPol w := by
  have h := of_decide_eq_true h
  exact ⟨h.1, h.2.1, h.2.2.1, h.2.2.2.1, h.2.2.2.2.1, h.2.2.2.2.2⟩

def tIssue (s : State) (w : W32) : Bool := tFetch s w && iOk w

theorem tIssues {s : State} {w : W32} (h : tIssue s w = true) : Issues s 0 0 1 tPol w :=
  ⟨tFetches (Bool.and_eq_true _ _ ▸ h).1, (Bool.and_eq_true _ _ ▸ h).2⟩

/-- Each operation of the first group issues, its registers at the ends of their ranges. -/
def tWords : List W32 := [0x01312000, 0x02312000, 0x03012000, 0x04312000, 0x05312000, 0x06312000, 0x07312000, 0x08312000, 0x09312000,
  0x0A310FFF, 0x0B310FFF, 0x0C312000, 0x0D312000, 0x0E312000, 0x18010800, 0x19010FFF, 0x1A010FFF]
theorem tWords_issue : (tWords.all fun w => tIssue (tThread w 1023 0x8000000000000000 64 0) w) = true := by decide +kernel
theorem wit_CrownOperations (w : W32) (h : w ∈ tWords) : Issues (tThread w 1023 0x8000000000000000 64 0) 0 0 1 tPol w :=
  tIssues (List.all_eq_true.mp tWords_issue w h)

/-- ADDI takes a negative immediate, wraps, and moves on; JMP goes where register and immediate say (R70). -/
theorem test_addi_wraps : after (exec (.addi 0) (tThread 0x0A310FFF 0 0 0 0)) (fun s => (threadOf s.dev 0 0).pc = 1 ∧ sreg s 0 0 3 = 0xFFFFFFFFFFFFFFFF) = true := by decide +kernel
theorem test_jmp : after (exec (.jmp 0) (tThread 0x1A010FFF 7 1 0 0)) (fun s => (threadOf s.dev 0 0).pc = 0x1000) = true := by decide +kernel
/-- SAR by 63 of the most negative number is −1, and a count of 64 shifts by 0. -/
theorem test_sar : after (exec (.sar 0) (tThread 0x09312000 0 0x8000000000000000 63 0)) (fun s => sreg s 0 0 3 = 0xFFFFFFFFFFFFFFFF) = true := by decide +kernel
theorem test_shl_64 : after (exec (.shl 0) (tThread 0x07312000 0 5 64 0)) (fun s => sreg s 0 0 3 = 5) = true := by decide +kernel
/-- s0 discards what is written to it (R64). -/
theorem test_s0 : after (exec (.add 0) (tThread 0x01012000 0 5 64 0)) (fun s => sreg s 0 0 0 = 0 ∧ (threadOf s.dev 0 0).pc = 1) = true := by decide +kernel

/-- LD at the last word of the scratchpad; its data; a store there. -/
theorem wit_CrownMemory_ld : Issues (tThread 0x10310FFF 0 0xF8000 0 0) 0 0 1 tPol 0x10310FFF ∧
    (0xF8000 + 8 * (0xFFF : W64)).toNat = 0xFFFF8 ∧
    inShare (tThread 0x10310FFF 0 0xF8000 0 0).dev tPol 0 0xFFFF8 0x100000 = true :=
  ⟨tIssues (by decide +kernel), by decide +kernel, by decide +kernel⟩
def tLoading : State := tState fun d => { d with
  tiles := [(0, { threads := [(0, { st := .waiting, wait := .load 3 0xFFFF8 })] })]
  mem := { d.mem with bytes := Mem.writeN d.mem.bytes 0xFFFF8 [1, 2, 3, 4, 5, 6, 7, 8] } }
theorem wit_CrownMemory_return : (threadOf tLoading.dev 0 0).st = .waiting ∧ (threadOf tLoading.dev 0 0).wait = .load 3 0xFFFF8 ∧
    polderOfThread tLoading.dev 0 0 = some (1, tPol) ∧ rangeErr tLoading.dev 0xFFFF8 8 = none ∧ Clean tLoading.dev 0xFFFF8 8 :=
  ⟨rfl, rfl, by decide +kernel, by decide +kernel, clean_of _ _ rfl⟩
theorem test_ld_return : after (exec (.ldDataReturn 0 0) tLoading) (fun s => sreg s 0 0 3 = 0x0807060504030201 ∧ (threadOf s.dev 0 0).pc = 1) = true := by decide +kernel
theorem wit_CrownMemory_st : Issues (tThread 0x11012FFF 0 0xF8000 0 0) 0 0 1 tPol 0x11012FFF ∧
    inShare (tThread 0x11012FFF 0 0xF8000 0 0).dev tPol 0 0xFFFF8 0x100000 = true :=
  ⟨tIssues (by decide +kernel), by decide +kernel⟩
theorem test_st : after (exec (.st 0) (tThread 0x11012001 0 0x1000 0x0102 0)) (fun s => byteAt s.dev 0x1008 = 2 ∧ byteAt s.dev 0x1009 = 1 ∧ byteAt s.dev 0x1000 = 0) = true := by decide +kernel
/-- Summary register 31, the last of the polder's; a WAITS that answers, and one that waits. -/
def tPosts (w : W32) (s1 : W64) : State := tThread w 0 s1 0 0 fun d => onTile d 0 fun x => { x with summ := [(31, 0x0005000000000007)] }
theorem wit_CrownMemory_sumrd : Issues (tPosts 0x2030001F 0) 0 0 1 tPol 0x2030001F ∧ tPol.ybase ≤ 31 ∧ 31 < tPol.ybase + tPol.ycount :=
  ⟨tIssues (by decide +kernel), by decide +kernel, by decide +kernel⟩
theorem wit_CrownMemory_waits : Issues (tPosts 0x2131001F 4) 0 0 1 tPol 0x2131001F ∧
    (summOf (tPosts 0x2131001F 4).dev 0 31).extractLsb' 48 16 ≠ (4 : W64).extractLsb' 0 16 ∧
    Issues (tPosts 0x2131001F 5) 0 0 1 tPol 0x2131001F ∧
    (summOf (tPosts 0x2131001F 5).dev 0 31).extractLsb' 48 16 = (5 : W64).extractLsb' 0 16 :=
  ⟨tIssues (by decide +kernel), by decide +kernel, tIssues (by decide +kernel), by decide +kernel⟩

/-- SPAWN with threads 1 to 31 FREE, and with none FREE; EXIT; CYC. -/
def tFull (w : W32) : State := tThread w 0 5 3 0 fun d => onTile d 0 fun x =>
  { x with threads := x.threads ++ (List.range 31).map fun i => (i + 1, { st := .waiting }) }
theorem wit_CrownThreads : Issues (tThread 0x2B312000 0 9 3 0) 0 0 1 tPol 0x2B312000 ∧
    (threadOf (tThread 0x2B312000 0 9 3 0).dev 0 1).st = .free ∧
    Issues (tFull 0x2B312000) 0 0 1 tPol 0x2B312000 ∧ (∀ m, m < 32 → (threadOf (tFull 0x2B312000).dev 0 m).st ≠ .free) ∧
    Issues (tThread 0x2C000000 0 9 3 0) 0 0 1 tPol 0x2C000000 ∧ Issues (tThread 0x2DF00000 0 9 3 0) 0 0 1 tPol 0x2DF00000 :=
  ⟨tIssues (by decide +kernel), by decide +kernel, tIssues (by decide +kernel), by decide +kernel, tIssues (by decide +kernel),
    tIssues (by decide +kernel)⟩
theorem test_spawn : after (exec (.spawn 0) (tThread 0x2B312000 0 9 3 0)) (fun s => sreg s 0 0 3 = 1 ∧ (threadOf s.dev 0 1).pc = 9 ∧ sreg s 0 1 1 = 3 ∧ sreg s 0 1 2 = 1) = true := by decide +kernel

/-- A word outside the table; a misaligned load, one beyond the scratchpad; the end of the region. -/
theorem wit_CrownFaults_word : Fetches (tThread 0xFF000000 0 0 0 0) 0 0 1 tPol 0xFF000000 ∧ iOk 0xFF000000 = false ∧
    polderOf (tThread 0xFF000000 0 0 0 0).dev 1 = some tPol := ⟨tFetches (by decide +kernel), by decide +kernel, by decide +kernel⟩
theorem wit_CrownFaults_ld : Fetches (tThread 0x10310000 0 1 0 0) 0 0 1 tPol 0x10310000 ∧ (1 : W64).toNat % 8 ≠ 0 ∧
    Fetches (tThread 0x11012000 0 0x100000 0 0) 0 0 1 tPol 0x11012000 ∧ 2 ^ 20 < (0x100000 : W64).toNat + 8 :=
  ⟨tFetches (by decide +kernel), by decide +kernel, tFetches (by decide +kernel), by decide +kernel⟩
theorem wit_CrownFaults_outside : nextThread (tThread 0 1024 0 0 0).dev 0 = some 0 ∧
    polderOfThread (tThread 0 1024 0 0 0).dev 0 0 = some (1, tPol) ∧ tPol.plen ≤ (threadOf (tThread 0 1024 0 0 0).dev 0 0).pc.toNat := by
  decide +kernel
theorem test_unknown_op : after (exec (.unknownOpCode 0) (tThread 0xFF000000 0 0 0 0)) (fun s => (threadOf s.dev 0 0).st = .parked) = true := by decide +kernel

/-- A descriptor of the Fuller at offset 0x1000, with the fields of its header given. -/
def tHeader (eng op pol cls seq tally : Nat) : Nat := eng + op <<< 8 + pol <<< 16 + cls <<< 20 + seq <<< 32 + tally <<< 64
def tWithDesc (desc : Nat) (d : Dev) : Dev := { d with mem := { d.mem with bytes := Mem.writeN d.mem.bytes 0x1000 (toBytes 128 desc) } }
def tIssuing : State := tThread 0x28312000 0 0x1000 0 0 (tWithDesc (tHeader 0 1 1 1 9 0x2000))
theorem wit_CrownIssue : Issues tIssuing 0 0 1 tPol 0x28312000 ∧
    inShare tIssuing.dev tPol 0 0x1000 0x1080 = true ∧ Clean tIssuing.dev 0x1000 128 ∧
    dDepEn (BitVec.ofNat 1024 (ofBytes (bytesAt tIssuing.dev 0x1000 128))) = false ∧
    engOfCode (dEngine (BitVec.ofNat 1024 (ofBytes (bytesAt tIssuing.dev 0x1000 128)))) = some .fuller ∧
    (tileOf tIssuing.dev 0).freeSlots = 0 :: (List.range 31).map (· + 1) ∧ (engineOf tIssuing.dev 0 .fuller).queue.length < 8 ∧
    tIssuing.dev.resets = [] :=
  ⟨tIssues (by decide +kernel), by decide +kernel, clean_of _ _ rfl, by decide +kernel, by decide +kernel, by decide +kernel,
    by decide +kernel, rfl⟩
theorem test_issue : after (exec (.issue 0) tIssuing) (fun s => sreg s 0 0 3 = 0x10000 ∧ (engineOf s.dev 0 .fuller).queue.length = 1) = true := by decide +kernel
/-- WAIT on slot 31, generation 2: ended, and still held. -/
def tWaiting (x : Slot) : State := tThread 0x29310000 0 0x2001F 0 0 fun d => onTile d 0 fun y => { y with slots := [(31, x)] }
theorem wit_CrownWait :
    (Issues (tWaiting { gen := 2, recs := [⟨2, 1, 0x10002⟩] }) 0 0 1 tPol 0x29310000 ∧
      recOf (slotOf (tWaiting { gen := 2, recs := [⟨2, 1, 0x10002⟩] }).dev 0 31) 2 = some ⟨2, 1, 0x10002⟩) ∧
    Issues (tWaiting { gen := 2, use := .held 1 }) 0 0 1 tPol 0x29310000 ∧
      (slotOf (tWaiting { gen := 2, use := .held 1 }).dev 0 31).use = .held 1 ∧
      recOf (slotOf (tWaiting { gen := 2, use := .held 1 }).dev 0 31) 2 = none :=
  ⟨⟨tIssues (by decide +kernel), by decide +kernel⟩, tIssues (by decide +kernel), by decide +kernel, by decide +kernel⟩
/-- An ISSUE that waited for a slot. -/
def tGranting : State := tState fun d => { d with tiles := [(0, {
  threads := [(0, { st := .waiting, wait := .slot 3 })], freeSlots := [31]
  issueQ := [⟨some 0, 0, BitVec.ofNat 1024 (tHeader 5 7 1 1 9 0x2000), .met⟩] })] }
theorem wit_CrownGrant : ∃ x, (tileOf tGranting.dev 0).issueQ = [x] ∧ x.thread = some 0 ∧ (threadOf tGranting.dev 0 0).st = .waiting ∧
    (threadOf tGranting.dev 0 0).wait = .slot 3 ∧ polderOfThread tGranting.dev 0 0 = some (1, tPol) ∧
    engOfCode (dEngine x.desc) = some .router ∧ (tileOf tGranting.dev 0).freeSlots = [31] ∧
    (engineOf tGranting.dev 0 .router).queue.length < 8 ∧ tGranting.dev.resets = [] :=
  ⟨⟨some 0, 0, BitVec.ofNat 1024 (tHeader 5 7 1 1 9 0x2000), .met⟩, by decide +kernel⟩

/-! ### Numbers: the examples of file 02, and witnesses -/

def tE4m3 (conv : Nat) (x : F32) : Nat × Cls := e4m3.conv conv (val32 x)

/-- The table of conversions to E4M3 after R55: 300, 470, 0.0009 and 0.0015; and the 460 of R53's text. -/
theorem test_e4m3_300 : tE4m3 0 0x43960000 = (0x79, .none) ∧ tE4m3 3 0x43960000 = (0x79, .none) := by decide +kernel
theorem test_e4m3_470 : tE4m3 0 0x43EB0000 = (0x7E, .sat) ∧ tE4m3 2 0x43EB0000 = (0x7F, .nonfin) ∧ tE4m3 3 0x43EB0000 = (0x7E, .sat) := by
  decide +kernel
theorem test_e4m3_460 : tE4m3 0 0x43E60000 = (0x7E, .sat) := by decide +kernel
theorem test_e4m3_small : tE4m3 0 0x3A6BEDFA = (0, .flush) ∧ tE4m3 0 0x3AC49BA6 = (1, .none) ∧ tE4m3 4 0x3AC49BA6 = (0, .flush) := by
  decide +kernel
/-- The group of 32 products worked through in file 02. -/
def tGroup : List (FVal × FVal) :=
  [(val16 0x4580, val16 0x4580), (val16 0x3F80, val16 0x3F80), (val16 0xC580, val16 0x4580), (val16 0x3A81, val16 0x3A81)]
    ++ List.replicate 28 (val16 0x3F00, val16 0x3F00)
theorem test_group_of_32 : addGroup 0 tGroup = (0x41000001, true) := by decide +kernel
/-- N8 flushes below 0.00830078125 × scale, N4 below 0.09375 × scale (R55). -/
theorem test_codes : codeEncode .n8 (.fin false 17 (-11)) 0x3F800000 = (1, .none) ∧ (codeEncode .n8 (.fin false 1 (-7)) 0x3F800000).1 = 0 ∧
    (codeEncode .n4 (.fin true 24 (-8)) 0x3F800000).1 = 9 ∧ (codeEncode .n4 (.fin true 23 (-8)) 0x3F800000).1 = 0 := by decide +kernel
/-- R33's identifier, R22's example of the tile at (37, 20), R207's placement of 0x01523456_7A40 near and global. -/
theorem test_tile_37_20 : clusterOf (tileAt 37 20) = 25 ∧ tileAt 37 20 * 2 ^ 20 = 0x52500000 := by decide +kernel
theorem test_placement : hbmPlace 0 0x5234567A40 = (5, 0x234567A40) ∧ hbmPlace 0x100 0x5234567A40 = (10, 0x234567540) := by
  decide +kernel

theorem wit_NumbersRoundTrip : e4m3 ∈ [fp32, bf16, e4m3, e5m2] ∧ 0x81 < 2 ^ (1 + e4m3.ebits + e4m3.fbits) ∧
    (e4m3.decode 0x81).finite = true ∧ bitAt 3 2 = false := by decide +kernel
theorem wit_RoundTowardZero : e5m2 ∈ [fp32, bf16, e4m3, e5m2] ∧ bitAt 3 0 = true ∧
    (e5m2.decode e5m2.maxFin).lt (.fin false 1 16) = true := by decide +kernel
/-- A value above the scale, a negative one, zero, and one that the codes can hold. -/
theorem wit_CodeEncoding : (FVal.fin false 3 0).finite = true ∧ scaleOk 0x3F800000 = true ∧
    (val32 0x3F800000).lt (.fin false 3 0) = true ∧ (FVal.fin true 3 0).isNeg = true ∧ FVal.zero.isZero = true ∧
    (val32 0x3F800000).lt (.fin false 1 0) = false := by decide +kernel
theorem wit_GroupSums : List.Perm tGroup tGroup.reverse ∧ tGroup.length % 32 = 0 := ⟨(List.reverse_perm _).symm, rfl⟩
theorem wit_ReductionOrder : fnan? 0x7FC00000 = true ∧ fnan? 0 = false ∧
    (∃ v, some v ∈ ([some 0x7FC00000, none] : List (Option F32)) ∧ fnan? v = true) ∧
    ∀ v, some v ∈ ([some 0x80000000, none, some 0] : List (Option F32)) → fnan? v = false := by
  refine ⟨by decide +kernel, by decide +kernel, ⟨0x7FC00000, by simp, by decide +kernel⟩, ?_⟩
  intro v h; simp at h; rcases h with rfl | rfl <;> decide +kernel
theorem wit_RowArithmetic : (∀ v ∈ ([none, some ninf32] : List (Option F32)), v = none ∨ v = some ninf32) ∧
    (some nan32 ∈ ([none, some nan32] : List (Option F32)) ∧ fnan? nan32 = true) ∧
    (∀ v, some v ∈ ([some inf32, some 0] : List (Option F32)) → fnan? v = false) ∧ some inf32 ∈ ([some inf32, some 0] : List (Option F32)) ∧
    0 < (List.replicate 64 (0 : F32)).length ∧ (List.replicate 64 (0 : F32)).length % 64 = 0 ∧ [(1 : F32)].length ≤ 64 := by
  refine ⟨by simp, ⟨by simp, by decide +kernel⟩, ?_, by simp, by simp, by simp, by simp⟩
  intro v h; simp at h; rcases h with rfl | rfl <;> decide +kernel
theorem wit_HeaderRoundTrip : ∃ f : HdrF, f.dstDev < 2 ^ 20 ∧ f.dstTile < 2 ^ 11 ∧ f.cls < 8 ∧ f.kind ≤ 8 ∧ f.tgt ≤ 4 ∧ f.tag < 2 ^ 16 ∧
    f.job < 2 ^ 16 ∧ f.srcDev < 2 ^ 20 ∧ f.srcTile < 2 ^ 11 ∧ (List.replicate 256 (0 : Byte)).length / 8 + f.ask ≤ 32 ∧ f.addr < 2 ^ 48 ∧
    f.stream < 2 ^ 16 ∧ f.chunk < 2 ^ 24 ∧ f.pidx < 2 ^ 8 :=
  ⟨⟨2 ^ 20 - 1, 2047, 7, true, 8, 4, 65535, 65535, 2 ^ 20 - 1, 2047, 2 ^ 48 - 1, 65535, 2 ^ 24 - 1, 255, 0⟩, by decide +kernel⟩
theorem wit_SealOpens : (List.replicate 32 (1 : Byte)).length = 32 ∧ (List.replicate 12 (2 : Byte)).length = 12 := by decide

/-! ### Engines -/

/-- A descriptor in slot 3, generation 1: engine, opcode, polder 1, class 1, sequence 9, tally at 0x2000, and the engine's fields. -/
def tOp (eng op : Nat) (fields : Nat := 0) : QOp := ⟨BitVec.ofNat 1024 (tHeader eng op 1 1 9 0x2000 + fields), 3, 1, .met⟩

/-- Tile 0 runs an operation on an engine, in slot 3. -/
def tRun (e : EngineId) (r : RunOp) (f : Dev → Dev := id) : State := tState fun d =>
  f (onEngine (onSlot d 0 3 fun x => { x with gen := 1, use := .held 1 }) 0 e fun x => { x with run := some r })

/-- Bytes placed in tile 0's scratchpad. -/
def tBytes (a : Nat) (bs : List Byte) (d : Dev) : Dev := { d with mem := { d.mem with bytes := Mem.writeN d.mem.bytes a bs } }

/-- A tensor of polder 1 on this device: n0 × n1 elements of a format, row after row from an address. -/
def tTens (base fmt n0 n1 : Nat) : TDesc :=
  BitVec.ofNat 512 (base + fmt <<< 68 + 2 <<< 72 + 1 <<< 80 + n0 <<< 128 + n1 <<< 152 + n0 <<< 272)

/-- It waits in the queue with its prerequisite met, failed, or not yet known. -/
def tQueued (dep : Dep) (polder : Nat := 1) (op : Nat := 1) (tally : Nat := 0x2000) : State := tState fun d =>
  onEngine (onSlot d 0 3 fun x => { x with gen := 1, use := .held 1 }) 0 .fuller fun x =>
    { x with queue := [⟨BitVec.ofNat 1024 (tHeader 0 op polder 1 9 tally), 3, 1, dep⟩] }
def tNext (s : State) : QOp := (nextDesc s.dev 0 .fuller).getD (tOp 0 0)
def tStarts (s : State) (dep : Dep) : Bool :=
  decide (runOf s.dev 0 .fuller = none ∧ nextDesc s.dev 0 .fuller = some (tNext s) ∧ s.dev.grid.routerFault = false ∧
    (slotOf s.dev 0 (tNext s).slot).use = .held 1 ∧ (tNext s).dep = dep)
theorem wit_EngineBoundaries_start : tStarts (tQueued .met) .met = true ∧ tallyErr (tQueued .met).dev 1 0x2000 = none ∧
    dHdrOk (tNext (tQueued .met)).desc = true ∧ opcodeOk .fuller (dOpcode (tNext (tQueued .met)).desc) = true ∧
    polderOf (tQueued .met).dev 1 = some tPol ∧ dPolder (tNext (tQueued .met)).desc = 1 ∧ tPol.share 1 ≠ 0 := by decide +kernel
theorem wit_EngineBoundaries_refusals : tStarts (tQueued .failed) .failed = true ∧ tStarts (tQueued .met 2) .met = true ∧
    dPolder (tNext (tQueued .met 2)).desc ≠ 1 ∧ opcodeOk .fuller (dOpcode (tNext (tQueued .met 1 5)).desc) = false ∧
    tallyErr (tQueued .met 1 1 0x2010).dev 1 0x2010 ≠ none ∧ tStarts (tQueued .met 1 1 0x2010) .met = true ∧
    tStarts (tQueued (.on 4 1)) (.on 4 1) = true := by decide +kernel
theorem test_engine_start : after (exec (.engineOpStart 0 .fuller) (tQueued .met)) (fun s =>
    (engineOf s.dev 0 .fuller).queue = [] ∧ (runOf s.dev 0 .fuller).isSome) = true := by decide +kernel

/-- An operation that has ended, with a thread that waits on it. -/
def tEnded (reqs : List Req) : State := tRun .napper { q := tOp 2 3, begun := true, ended := some ⟨.done, 0⟩, marker := 2 } fun d =>
  { onTile d 0 fun x => { x with threads := [(4, { st := .waiting, wait := .op 3 3 1 })] } with fabric := { reqs := reqs } }
theorem wit_EngineBoundaries_end : (slotOf (tEnded []).dev 0 3).use = .held 1 ∧ openReqs (tEnded []).dev 0 3 = [] ∧
    rangeErr (tEnded []).dev 0x2000 32 = none ∧
    NMap.find? (tileOf (tEnded []).dev 0).threads 4 = some (threadOf (tEnded []).dev 0 4) ∧
    (threadOf (tEnded []).dev 0 4).wait = .op 3 3 1 := by decide +kernel
theorem wit_EngineBoundaries_open : openReqs (tEnded [⟨3, 0, 1, 0, 0, 8, none, false⟩]).dev 0 3 ≠ [] := by decide +kernel
/-- The tally of R425 and the completion word of R74. -/
theorem test_engine_end : after (exec (.engineOpEnd 0 .napper) (tEnded [])) (fun s =>
    bytesAt s.dev 0x2000 12 = [9, 0, 0, 0, 2, 1, 0, 0, 2, 0, 0, 0] ∧ sreg s 0 4 3 = 0x20000) = true := by decide +kernel

/-! ### The Fuller -/

/-- A 1 × 2 by 2 × 1 product: A and B BF16 at 0x3000 and 0x3100, C FP32 at 0x3200; descriptors at 0x1000, 0x1040, 0x1080. -/
def tMm (op : Nat) (fields : Nat := 0) : QOp := tOp 0 op (0x1000 <<< 128 + 0x1040 <<< 160 + 0x1080 <<< 192 + 0x3F800000 <<< 384 + fields)
def tTds : List TDesc := [tTens 0x3000 1 2 1, tTens 0x3100 1 1 2, tTens 0x3200 0 1 1, 0, 0, 0, 0, 0, 0, 0, 0, 0]
def tPut (d : Dev) : Dev :=
  tBytes 0x1000 (toBytes 64 (tTens 0x3000 1 2 1).toNat) (tBytes 0x1040 (toBytes 64 (tTens 0x3100 1 1 2).toNat)
    (tBytes 0x1080 (toBytes 64 (tTens 0x3200 0 1 1).toNat) (tBytes 0x3000 [0x40, 0x40, 0x80, 0x3F] (tBytes 0x3100 [0, 0x40, 0x80, 0x40] d))))
def tMatmul (op fields : Nat) (put : Dev → Dev := tPut) : State := tRun .fuller { q := tMm op fields } put

def tNoErr : Option Code → Bool := fun c => c = none
def tReads (x : Dev × Except Code (List TDesc)) (l : List TDesc) : Bool := match x.2 with | .ok m => m = l | _ => false
def tFails (x : Dev × Except Code (List TDesc)) (c : Code) : Bool := match x.2 with | .error e => e = c | _ => false

theorem wit_FullerStarts : running (tMatmul 1 0).dev 0 .fuller 1 = some { q := tMm 1 } ∧
    polderOf (tMatmul 1 0).dev (runPolder (tMatmul 1 0).dev 0 { q := tMm 1 }) = some tPol ∧ fReservedOk (tMm 1).desc = true ∧ fRoleErr (tMm 1).desc = none ∧
    tReads (readTds (tMatmul 1 0).dev 0 tPol (runAcc (tMatmul 1 0).dev 0 { q := tMm 1 }) (fTdOfs (tMm 1).desc)) tTds = true ∧
    fNOut (tMm 1).desc = 0 ∧ tCmp (tTds.getD 0 0) = false ∧ tCmp (tTds.getD 1 0) = false ∧
    fullerErr (tMatmul 1 0).dev 0 1 tPol { q := tMm 1, tds := tTds, lists := [[]] } = none := by decide +kernel
/-- A is compressed, with the header of its index table at 0x4000: of one block, of two where one is due, and in a word that is
poisoned; a BWD_WEIGHT of a frozen weight; one with a rank, which R116 forbids. -/
def tCmpA : TDesc := tTens 0x3000 1 2 1 ||| BitVec.ofNat 512 (1 <<< 86 + 0x40 <<< 432)
def tTableHdr (n : Nat) : List Byte := let h := toBytes 28 (n + 1 <<< 32); h ++ toBytes 4 (crc32c h)
def tCompressed (n : Nat) (ecc : NMap EccWord := []) : Dev :=
  let d := tBytes 0x4000 (tTableHdr n) (tMatmul 1 0).dev
  { d with mem := { d.mem with ecc := ecc } }
def tTable (d : Dev) : Option (Bool × Code) := (tablesErr d {} { q := tMm 1, tds := tTds.set 0 tCmpA } [tCmpA]).2
theorem wit_FullerStarts_tables : tCmp tCmpA = true ∧ (tDev tCmpA).toNat = selfId tDevice ∧ tTable (tCompressed 1) = none ∧
    tTable (tCompressed 2) = some (false, 0x0450) ∧ tTable (tCompressed 1 [(0x4000 / 8, .poison)]) = some (true, 0x0311) ∧
    fullerErr (tCompressed 1) 0 1 tPol { q := tMm 1, tds := tTds.set 0 tCmpA, lists := [[]] } = none ∧
    tFrozen ((tTds.set 8 (BitVec.ofNat 512 (1 <<< 76))).getD 8 0) = true ∧ fRoleErr (tMm 3 (4 <<< 434)).desc = some 0x0421 := by decide +kernel
/-- A reserved bit; a descriptor that cannot be read; shapes that do not fit (trans_a). -/
theorem wit_FullerStarts_refusals : fReservedOk (tMm 1 (1 <<< 419)).desc = false ∧
    running (tMatmul 1 (1 <<< 419)).dev 0 .fuller 1 = some { q := tMm 1 (1 <<< 419) } ∧
    tFails (readTds (tMatmul 1 (1 <<< 128)).dev 0 tPol {} (fTdOfs (tMm 1 (1 <<< 128)).desc)) 0x0406 = true ∧
    fullerErr (tMatmul 1 (1 <<< 420)).dev 0 1 tPol { q := tMm 1 (1 <<< 420), tds := tTds, lists := [[]] } = some 0x0420 := by decide +kernel

/-- The product under way; the same into the hand-off queue, for slot 4 and generation 1, with so many entries and banks. -/
def tPass : State := tRun .fuller { q := tMm 1, tds := tTds, begun := true } tPut
def tOut : OutTile := ⟨4, 1, 0, 0, 0, 1, 1, true, [0]⟩
def tMmOut : QOp := tMm 1 (1 <<< 424 + 4 <<< 448 + 1 <<< 464 + 5 <<< 480)
def tHand (entries banks : Nat) (step : Nat := 0) : State := tRun .fuller { q := tMmOut, tds := tTds, begun := true, work := { step := step } } fun d =>
  onTile (tPut d) 0 fun x => { x with handoff := List.replicate entries tOut, banks := List.replicate banks tOut }
def tPasses (s : State) (q : QOp) (step : Nat) : Bool :=
  let r : RunOp := { q := q, tds := tTds, begun := true, work := { step := step } }
  decide (runOf s.dev 0 .fuller = some r ∧ fReservedOk q.desc = true ∧ polderOf s.dev (runPolder s.dev 0 r) = some tPol ∧ step < fPasses q.desc r ∧
    banksHeld s.dev 0 r = false ∧ s.dev.mem.ecc = [])
theorem tTds_here : ∀ i, (tDev (tTds.getD i 0)).toNat = 0
  | 0 | 1 | 2 | 3 | 4 | 5 | 6 | 7 | 8 | 9 | 10 | 11 => by decide +kernel
  | n + 12 => (by decide +kernel : (tDev (0 : TDesc)).toNat = 0)
theorem wit_FullerPasses : tPasses tPass (tMm 1) 0 = true ∧ Local tPass.dev (fTdOfs (tMm 1).desc) tTds ∧
    tPasses (tHand 0 0) tMmOut 0 = true ∧ tPasses (tHand 16 1) tMmOut 0 = true ∧ Local (tHand 0 0).dev (fTdOfs tMmOut.desc) tTds ∧
    fOutMode tMmOut.desc = 1 :=
  ⟨by decide +kernel, fun i _ _ => tTds_here i, by decide +kernel, by decide +kernel, fun i _ _ => tTds_here i, by decide +kernel⟩
/-- The same with an adapter of rank 1, its buffer empty and full; a BWD_DATA whose dP is stored. -/
def tAd (op : Nat) (down : Nat) (vals : List F32) : RunOp :=
  let b := if op = 2 then [tTens 0x3100 1 2 1, tTens 0x3200 0 1 1, 0, 0, tTens 0x3400 1 1 1, tTens 0x3300 1 2 1, tTens 0x3500 1 1 1]
    else [tTens 0x3100 1 1 2, tTens 0x3200 0 1 1, 0, 0, tTens 0x3300 1 1 2, tTens 0x3400 1 1 1, 0]
  { q := tMm op (1 <<< 434 + if op = 2 then 1 <<< 651 else 0), tds := tTens 0x3000 1 2 1 :: b ++ [0, 0, 0, 0], begun := true,
    work := { down := down, vals := vals } }
def tAdapt (op : Nat) (down : Nat) (vals : List F32) : State := tRun .fuller (tAd op down vals) fun d =>
  tBytes 0x3300 [0x80, 0x3F, 0x80, 0x3F] (tBytes 0x3400 [0, 0x40] (tPut d))
def tAdOk (op down : Nat) (vals : List F32) : Bool :=
  let s := tAdapt op down vals
  let r := tAd op down vals
  decide (runOf s.dev 0 .fuller = some r ∧ r.work.step < fPasses r.q.desc r ∧ banksHeld s.dev 0 r = false ∧ s.dev.mem.ecc = [] ∧
    polderOf s.dev (runPolder s.dev 0 r) = some tPol)
theorem wit_FullerPasses_down : ([1, 2].all fun op => tAdOk op 0 [] && downDue (tAd op 0 []).q.desc (tAd op 0 []) &&
      ((downReads (tAd op 0 []).q.desc (tAd op 0 [])).all fun p => tInput (tAdapt op 0 []).dev p) &&
      (downWrites (tAd op 0 []).q.desc (tAd op 0 [])).all fun p => tInput (tAdapt op 0 []).dev p) = true ∧
    (downReads (tAd 2 0 []).q.desc (tAd 2 0 [])).length = 4 ∧ (downWrites (tAd 2 0 []).q.desc (tAd 2 0 [])).length = 1 := by decide +kernel
theorem wit_FullerPasses_tile : tAdOk 1 1 [0x40800000] = true ∧ downDue (tAd 1 1 []).q.desc (tAd 1 1 [0x40800000]) = false ∧
    ((tileReads (tAd 1 1 []).q.desc (tAd 1 1 [])).all fun p => tInput (tAdapt 1 1 [0x40800000]).dev p) = true ∧
    ((tileWrites (tAd 1 1 []).q.desc (tAd 1 1 [])).all fun p => tInput (tAdapt 1 1 [0x40800000]).dev p) = true ∧
    (tileWrites (tAd 1 1 []).q.desc (tAd 1 1 [])).length = 1 := by decide +kernel
theorem wit_FullerPasses_inputs : (∀ p ∈ tileReads (tMm 1).desc { q := tMm 1, tds := tTds }, Input tPass.dev p.1 [] p.2) ∧
    (∀ p ∈ tileWrites (tMm 1).desc { q := tMm 1, tds := tTds }, Reach tPass.dev p.1 p.2) ∧
    Spread [] (tileWrites (tMm 1).desc { q := tMm 1, tds := tTds }) :=
  ⟨tAll (snap := fun _ => []) (by decide +kernel), tReach (by decide +kernel), by
    have h : tileWrites (tMm 1).desc { q := tMm 1, tds := tTds } = [(tTens 0x3200 0 1 1, [0, 0, 0, 0, 0, 0])] := by decide +kernel
    rw [h]; exact ⟨fun p hp q hq hn => absurd (List.mem_singleton.mp hp ▸ (List.mem_singleton.mp hq).symm) hn, fun _ _ _ hq => by cases hq⟩⟩
/-- The adapter buffer takes 3 × 1 + 1 × 1, dP its BF16, and with Lb the product is 10 + 4 × 2 (R103, R122). -/
theorem test_adapter : after (exec (.fullerPassEnd 0) (tAdapt 2 0 [])) (fun s => bytesAt s.dev 0x3500 2 = [0x80, 0x40] ∧
      (runOf s.dev 0 .fuller).any fun r => r.work.vals = [0x40800000]) = true ∧
    after (exec (.fullerPassEnd 0) (tAdapt 1 1 [0x40800000])) (fun s => bytesAt s.dev 0x3200 4 = [0, 0, 0x90, 0x41]) = true := by
  decide +kernel
/-- 3 × 2 + 1 × 4 = 10, to memory. -/
theorem test_product : after (exec (.fullerPassEnd 0) tPass) (fun s => bytesAt s.dev 0x3200 4 = [0, 0, 0x20, 0x41]) = true := by decide +kernel
theorem test_product_handoff : after (exec (.fullerPassEnd 0) (tHand 15 0)) (fun s =>
    ((tileOf s.dev 0).handoff.map fun o => o.data.headD 0).getLastD 0 = 0x41200000 ∧ (tileOf s.dev 0).banks = []) = true := by decide +kernel

/-! ### The hand-off queue and the Steamer -/

theorem wit_HandoffQueue_drain : (tileOf (tHand 15 1).dev 0).banks = [tOut] ∧ (tileOf (tHand 15 1).dev 0).handoff.length < 16 := by
  decide +kernel
theorem wit_HandoffQueue_stall : runOf (tHand 16 1 1).dev 0 .fuller = some { q := tMmOut, tds := tTds, begun := true, work := { step := 1 } } ∧
    fHsLimit tMmOut.desc ≠ 0 ∧ handoffStalled (tHand 16 1 1).dev 0 { q := tMmOut, tds := tTds, begun := true, work := { step := 1 } } = true := by
  decide +kernel

/-- A Steamer operation over X, FP32 2 × 1 at 0x3000, into Z at 0x3200; descriptors at 0x1000 and 0x1080; func and other fields. -/
def tSt (op : Nat) (fields : Nat := 0) : QOp := tOp 1 op (0x1000 <<< 128 + 0x1040 <<< 160 + 0x1040 <<< 192 + 0x1080 <<< 224 + 0xFFFFFFFF <<< 256 + fields)
def tStX : TDesc := tTens 0x3000 0 2 1
def tStZ : TDesc := tTens 0x3200 0 2 1
def tStPut (d : Dev) : Dev :=
  tBytes 0x1000 (toBytes 64 tStX.toNat) (tBytes 0x1080 (toBytes 64 tStZ.toNat) (tBytes 0x3000 [0, 0, 0x40, 0x40, 0, 0, 0x80, 0xBF] d))
def tSteam (op fields : Nat) : State := tRun .steamer { q := tSt op fields } tStPut
def tStTds : List TDesc := [tStX, 0, 0, 0, tStZ, 0, 0]
def tSteamOk (s : State) (op : Nat) (q : QOp) (tds : List TDesc) : Bool :=
  decide (running s.dev 0 .steamer op = some { q := q } ∧ polderOf s.dev (runPolder s.dev 0 { q := q }) = some tPol ∧
    sReservedOk q.desc = true ∧ sAbsent q.desc = false ∧
    tReads (readTds s.dev 0 tPol (runAcc s.dev 0 { q := q }) (sTdOfs q.desc)) tds = true ∧
    sErr s.dev 0 1 tPol { q := q, tds := tds } = none ∧ bandErr s.dev 0 tPol q.desc (sShape q.desc { q := q, tds := tds }) = none) &&
  (running (steamBegin s.dev 0 { q := q }) 0 .steamer op).any fun r => r.begun && decide (r.q = q ∧ r.bad = none ∧
    (tileOf s.dev 0).orphans = []) && (List.range 7).all fun k => !sHas q.desc k || decide ((tDev (sTd r k)).toNat = selfId s.dev)
/-- MAP and SOFTMAX over memory; MAP fed by the hand-off queue. -/
theorem wit_SteamerOperations : tSteamOk (tSteam 1 0) 1 (tSt 1) tStTds = true ∧ tSteamOk (tSteam 6 0) 6 (tSt 6) tStTds = true ∧
    tSteamOk (tSteam 1 (1 <<< 432)) 1 (tSt 1 (1 <<< 432)) tStTds = true ∧ sSrc (tSt 1).desc = false ∧ sSrc (tSt 1 (1 <<< 432)).desc = true := by
  decide +kernel
theorem wit_SteamerOperations_refusals : sReservedOk (tSt 1 (1 <<< 419)).desc = false ∧
    running (tSteam 1 (1 <<< 419)).dev 0 .steamer 1 = some { q := tSt 1 (1 <<< 419) } ∧
    sReservedOk (tSt 1 (0xFFFFEF7F <<< 224)).desc = true ∧ sAbsent (tSt 1 (0xFFFFEF7F <<< 224)).desc = true ∧
    tFails (readTds (tSteam 1 (1 <<< 128)).dev 0 tPol {} (sTdOfs (tSt 1 (1 <<< 128)).desc)) 0x0406 = true ∧
    sErr (tSteam 1 0).dev 0 1 tPol { q := tSt 1, tds := tStTds.set 4 (tTens 0x3200 0 3 1) } ≠ none := by decide +kernel
/-- Each operation on memory has begun: X, Y and the Z of two elements; γ; r or r and s in FP32; an h under LAYERNORM. -/
def tMemQ (op : Nat) : QOp := tOp 1 op (0x1000 <<< 128 + (if 7 ≤ op then 0x10C0 else 0) <<< 192 + 0x1080 <<< 224
  + (if 7 ≤ op then 0x1100 else 0xFFFFFFFF) <<< 256 + (if 9 ≤ op then 0x1140 else 0) <<< 288)
def tMemR (op : Nat) : RunOp := { q := tMemQ op, begun := true, tds :=
  [tStX, tTens 0x3040 0 2 1, if 7 ≤ op then tTens 0x3080 0 2 1 else 0, 0, if op ∈ [2, 3, 4, 5] then tTens 0x3200 0 1 1 else tStZ,
    if 7 ≤ op then tTens 0x3100 0 1 1 else 0, if 9 ≤ op then tTens 0x3140 0 2 1 else 0] }
def tMem (op : Nat) : State := tRun .steamer (tMemR op) tStPut
def tMemOk (op : Nat) : Bool :=
  let s := tMem op
  let r := tMemR op
  let x := r.q.desc
  let sh := sShape x r
  let reads := (List.range 6).filter fun k => k = 0 ∨ (k ≤ 3 ∧ sHas x k = true) ∨ (k = 5 ∧ 9 ≤ op)
  let outs := (if sHas x 4 then (shapeIxs (sOut x r)).map fun ix => (sTd r 4, ix) else [])
    ++ (if sHas x 5 ∧ op ≤ 8 then (shapeIxs (sh.drop 1)).map fun ix => (sTd r 5, ix) else [])
    ++ if sHas x 6 then (shapeIxs sh).map fun ix => (sTd r 6, ix) else []
  decide (running s.dev 0 .steamer op = some r ∧ polderOf s.dev (runPolder s.dev 0 r) = some tPol ∧ s.dev.mem.ecc = [] ∧
    sSrc x = false ∧ sh ≠ [] ∧ 0 ∉ sh ∧ outs ≠ [] ∧ ∀ k ∈ reads, fmtOf (sTd r k) = .fp32) &&
  (reads.all fun k => (shapeIxs sh).all fun ix => tInput s.dev (sTd r k, sIx x r sh k ix)) && outs.all fun p => tInput s.dev p
theorem wit_SteamerOperations_memory : ([1, 2, 3, 4, 5, 6, 7, 8, 9, 10].all tMemOk) = true ∧ sMask (tMemQ 1).desc = 0 ∧
    sHas (tMemQ 1).desc 4 = true ∧ (fmtOf (sTd (tMemR 1) 4)).float? = some fp32 := by decide +kernel
theorem test_map : after (exec (.map 0) (tSteam 1 0)) (fun s => bytesAt s.dev 0x3200 8 = [0, 0, 0x40, 0x40, 0, 0, 0x80, 0xBF]) = true := by
  decide +kernel
/-- Two equal values share 1 (R148). -/
theorem test_softmax : after (exec (.softmax 0) (tSteam 6 0)) (fun s => bytesAt s.dev 0x3200 8 = [0, 0, 0, 0x3F, 0, 0, 0, 0x3F]) = true := by
  decide +kernel

/-- A Steamer operation that takes its X from the hand-off queue, with an entry for it or none. -/
def tTake (entries : List OutTile) : State := tRun .steamer { q := tSt 1 (1 <<< 432 + 5 <<< 473), tds := tStTds, begun := true } fun d =>
  onTile (tStPut d) 0 fun x => { x with handoff := entries }
def tTaker : RunOp := { q := tSt 1 (1 <<< 432 + 5 <<< 473), tds := tStTds, begun := true }
def tEntry : OutTile := ⟨3, 1, 0, 0, 0, 1, 2, true, [0x40400000, 0xBF800000]⟩
theorem wit_HandoffQueue_take : runOf (tTake [tEntry]).dev 0 .steamer = some tTaker ∧ sSrc tTaker.q.desc = true ∧
    polderOf (tTake [tEntry]).dev (runPolder (tTake [tEntry]).dev 0 tTaker) = some tPol ∧
    headFor (tTake [tEntry]).dev 0 tTaker = some tEntry ∧ tEntry.last = true ∧
    (∀ k, k < 7 → k ≠ 0 → sHas tTaker.q.desc k = true → (tDev (sTd tTaker k)).toNat = selfId (tTake [tEntry]).dev) ∧
    (tTake [tEntry]).dev.mem.ecc = [] ∧ (tileOf (tTake [tEntry]).dev 0).orphans = [] ∧ dOpcode tTaker.q.desc = 1 ∧
    (entryCells (sShape tTaker.q.desc tTaker) tEntry).length = 2 ∧
    ((entryCells (sShape tTaker.q.desc tTaker) tEntry).all fun p => tInput (tTake [tEntry]).dev (sTd tTaker 4, p.1)) = true ∧
    ([1, 2, 3].all fun k => !sHas tTaker.q.desc k) = true := by decide +kernel
theorem wit_HandoffQueue_wait : runOf (tTake []).dev 0 .steamer = some tTaker ∧ sHwLimit tTaker.q.desc ≠ 0 ∧
    headFor (tTake []).dev 0 tTaker = none ∧ polderOf (tTake []).dev (runPolder (tTake []).dev 0 tTaker) = some tPol := by decide +kernel

/-! ### The Napper and the Carder -/

/-- Operations on registers 62 and 63 against records at 0x3000; ENCODE and DECODE over two elements; begun. -/
def tNapQ (op : Nat) : QOp := tOp 2 op (0x3000 <<< 288 + 62 <<< 336 + 2 <<< 348 + 4 <<< 361)
def tNapR (op : Nat) : RunOp := { q := tNapQ op, begun := true, tds := if op ≤ 2 then [tTens 0x3100 0 2 1, tTens 0x3200 5 2 1, 0, 0] else [] }
def tNap (op : Nat) (f : Dev → Dev := id) : State := tRun .napper (tNapR op) f
theorem wit_NapperOperations : ([1, 2, 3, 4, 5].all fun op => decide (running (tNap op).dev 0 .napper op = some (tNapR op) ∧
    (tNapR op).begun = true ∧ (tNapR op).bad = none ∧ dOpcode (tNapR op).q.desc = op)) = true ∧
    (tDev ((tNapR 1).tds.getD 0 0)).toNat = selfId (tNap 1).dev ∧ (tDev ((tNapR 1).tds.getD 1 0)).toNat = selfId (tNap 1).dev ∧
    nEf (tNapQ 1).desc = false ∧ nNOut (tNapQ 1).desc = 0 ∧ rangeErr (tNap 4).dev 0x3000 128 = none := by decide +kernel
/-- ENCODE of 3 and −1 at 0x3100 into N8 at 0x3200 under the register 62, which holds 1; with error feedback, an outlier at index 1
and current scaling; DECODE back into FP32. -/
def tCode (base : Nat) : TDesc := tTens base 5 2 1 ||| BitVec.ofNat 512 (1 <<< 84 + 62 <<< 472)
def tEncR (more : Bool) : RunOp :=
  { q := tOp 2 1 (if more then 1 <<< 384 + 1 <<< 385 + 1 <<< 387 else 0), begun := true, lists := [[1]], snaps := [[], [one32]],
    tds := [tTens 0x3100 0 2 1, tCode 0x3200, tTens 0x3300 0 2 1, tTens 0x3400 0 2 1] }
def tDecR : RunOp := { q := tOp 2 2, begun := true, snaps := [[one32]], tds := [tCode 0x3200, tTens 0x3500 0 2 1, 0, 0] }
def tScaled (r : RunOp) : State := tRun .napper r (tBytes 0x3100 [0, 0, 0x40, 0x40, 0, 0, 0x80, 0xBF])
theorem wit_NapperOperations_encode : ([false, true].all fun more =>
    let s := tScaled (tEncR more)
    let r := tEncR more
    decide (running s.dev 0 .napper 1 = some r ∧ s.dev.mem.ecc = [] ∧ allIxs (tTens 0x3100 0 2 1) ≠ [] ∧ nSmode r.q.desc = more ∧
      nEf r.q.desc = more ∧ (nNOut r.q.desc = if more then 1 else 0) ∧ nEsc r.q.desc = 0 ∧ tCmp (tCode 0x3200) = false ∧ tSide (tCode 0x3200) = false ∧
      (encListed r [1, 0, 0, 0, 0, 0] = if more then some 0 else none) ∧ (fmtOf (tCode 0x3200)).width = 8 ∧ tSrefKind (tCode 0x3200) = 1) &&
    (allIxs (tTens 0x3100 0 2 1)).all fun ix => tInput s.dev (tTens 0x3100 0 2 1, ix) && tInput s.dev (tTens 0x3300 0 2 1, ix) &&
      tInput s.dev (tCode 0x3200, ix) [one32] && tInput s.dev (tTens 0x3400 0 2 1, ix.set 0 0) && decide (scaleIdx (tCode 0x3200) ix < scaleCount (tCode 0x3200)))
    = true := by decide +kernel
theorem wit_NapperOperations_decode : running (tScaled tDecR).dev 0 .napper 2 = some tDecR ∧ (tScaled tDecR).dev.mem.ecc = [] ∧
    ((allIxs (tCode 0x3200)).all fun ix => tInput (tScaled tDecR).dev (tCode 0x3200, ix) [one32] && tInput (tScaled tDecR).dev (tTens 0x3500 0 2 1, ix))
      = true ∧ (fmtOf (tTens 0x3500 0 2 1)).float? = some fp32 ∧
    (∀ p ∈ allIxs (tCode 0x3200), ∀ q ∈ allIxs (tCode 0x3200),
      elemAddr (tCode 0x3200) q + elemLen (tCode 0x3200) ≤ elemAddr (tTens 0x3500 0 2 1) p) := by decide +kernel
/-- Records that load, and one whose fill is 17. -/
def tRecords (fill : Nat) : State := tNap 4 (tBytes 0x3000 (toBytes 128 (0x3F800000 + 0x40000000 <<< 512 + fill <<< (512 + 48))))
theorem wit_NapperOperations_sload : Clean (tRecords 16).dev 0x3000 128 ∧
    (∀ k, k < 2 → recordOk (BitVec.ofNat 512 (ofBytes (bytesAt (tRecords 16).dev (0x3000 + 64 * k) 64))) = true) ∧
    recordOk (BitVec.ofNat 512 (ofBytes (bytesAt (tRecords 17).dev 0x3040 64))) = false ∧
    recordOk (BitVec.ofNat 512 (ofBytes (bytesAt (tRecords 17).dev 0x3000 64))) = true :=
  ⟨clean_of _ _ rfl, by decide +kernel, by decide +kernel, by decide +kernel⟩
theorem test_sload : after (exec (.sload 0) (tRecords 16)) (fun s => srScale (scaleReg s.dev 0 62) = 0x3F800000 ∧
    srScale (scaleReg s.dev 0 63) = 0x40000000) = true := by decide +kernel
theorem test_sload_fill : after (exec (.sload 0) (tRecords 17)) (fun s =>
    (runOf s.dev 0 .napper).any fun r => r.ended = some ⟨.inPart, 0x0446⟩ ∧ r.marker = 63) = true := by decide +kernel
theorem wit_ScaleRoll : nHlen (tNapQ 3).desc ≤ 16 := by decide +kernel

/-- 3 and −1 under the scale 1 in N8: beyond the scale, and the largest code (R55). -/
theorem test_encode : after (exec (.encode 0) (tScaled (tEncR false))) (fun s => (bytesAt s.dev 0x3200 2).map BitVec.toNat =
    [(codeEncode .n8 (val32 0x40400000) one32).1, (codeEncode .n8 (val32 0xBF800000) one32).1]) = true := by decide +kernel

/-- CBLOAD into set 31 from 0x3000 and CBSTORE from it; EXPAND, COMPRESS and VERIFY. -/
def tCarQ (op : Nat) : QOp := tOp 3 op (0x3000 <<< 192 + 31 <<< 240 + 1 <<< 245)
def tCarR (op : Nat) : RunOp := { q := tCarQ op, begun := true, tds := if op ≤ 3 then [tTens 0x3100 1 4 1, tTens 0x3200 1 4 1] else [] }
def tCar (op : Nat) (f : Dev → Dev := id) : State := tRun .carder (tCarR op) f
theorem wit_CarderOperations : ([1, 2, 3, 4, 5].all fun op => decide (running (tCar op).dev 0 .carder op = some (tCarR op) ∧
    (tCarR op).bad = none ∧ (op = 4 → expanding (tCar op).dev 0 (runPolder (tCar op).dev 0 (tCarR op)) = false) ∧
    polderOf (tCar op).dev (runPolder (tCar op).dev 0 (tCarR op)) = some tPol)) = true ∧
    (tDev ((tCarR 1).tds.getD 0 0)).toNat = selfId (tCar 1).dev ∧ (tDev ((tCarR 1).tds.getD 1 0)).toNat = selfId (tCar 1).dev ∧
    rangeErr (tCar 4).dev 0x3000 2048 = none := by decide +kernel
theorem wit_CarderOperations_sets : Clean (tCar 4).dev 0x3000 2048 ∧
    ∀ k, k < 256 → NMap.find? (tCar 5).dev.mem.ecc (cbKey 0 31 k / 8) = none := ⟨clean_of _ _ rfl, fun _ _ => rfl⟩
/-- COMPRESS of four BF16 values into one block at 0x4000 with its table at 0x5000; EXPAND and VERIFY of such a block. -/
def tCmpZ : TDesc := tTens 0x4000 1 4 1 ||| BitVec.ofNat 512 (1 <<< 86 + 0x50 <<< 432)
def tPackR : RunOp := { q := tOp 3 2 (129 <<< 296), tds := [tTens 0x3100 1 4 1, tCmpZ], begun := true }
def tPack : State := tRun .carder tPackR (tBytes 0x3100 [0, 0x40, 0x80, 0x3F, 0, 0xC0, 0x40, 0x40])
/-- The raw block of those values, 64 B, and its table. -/
def tPacked (op : Nat) : State :=
  tRun .carder { q := tOp 3 op (0x6000 <<< 192), tds := [tCmpZ, tTens 0x3200 1 4 1], begun := true }
    (tBytes 0x4000 (blockBytes 3 0 0 1 4 4 0 [0, 0x40, 0x80, 0x3F, 0, 0xC0, 0x40, 0x40]) ∘ tBytes 0x5000 (tTableHdr 1) ∘ tBytes 0x5024 [2])
def tBlock (op : Nat) : Dev × Except Code BlockOut :=
  expandBlock (tPacked op).dev {} { q := tOp 3 op (0x6000 <<< 192), tds := [tCmpZ, tTens 0x3200 1 4 1], begun := true } 0 tPol tCmpZ 0
theorem wit_CarderOperations_compress : running tPack.dev 0 .carder 2 = some tPackR ∧ fmtOf (tPackR.tds.getD 0 0) = .bf16 ∧ cmpBlocks tCmpZ = 1 ∧
    129 ≤ kZcap tPackR.q.desc ∧ rangeErr tPack.dev 0x4000 4128 = none ∧ rangeErr tPack.dev 0x5000 40 = none ∧
    ((List.range ((blockSize tCmpZ 0).1 * (blockSize tCmpZ 0).2)).all fun k => tInput tPack.dev (tTens 0x3100 1 4 1, blockIx tCmpZ 0 k)) = true := by
  decide +kernel
theorem wit_CarderOperations_expand : ([1, 3].all fun op => match (tBlock op).2 with
      | .ok o => decide (o = ⟨[0x4000, 0x3F80, 0xC000, 0x4040], none, 0, 0⟩)
      | .error _ => false) = true ∧ (tPacked 1).dev.mem.ecc = [] ∧ rangeErr (tPacked 3).dev 0x6000 1 = none ∧
    ((List.range 4).all fun k => (repeats tCmpZ (blockIx tCmpZ 0 k)).all fun ix => tInput (tPacked 1).dev (tTens 0x3200 1 4 1, ix)) = true ∧
    (tAux tCmpZ = 0x5000 ∧ 0x4000 + 32 * leAt (bytesAt (tPacked 1).dev 0x5020 8) 4 4 ≤ 0x5000 ∧ tBase tCmpZ = 0x4000) := by decide +kernel
theorem test_expand : after (exec (.expand 0) (tPacked 1)) (fun s => bytesAt s.dev 0x3200 8 = [0, 0x40, 0x80, 0x3F, 0, 0xC0, 0x40, 0x40]) = true := by
  decide +kernel

/-! ### The Blocker and the tile router -/

/-- Weights FP32 and gradient FP32, two elements of each; layer 7, shard record at 0x3400. -/
def tBlTds : List TDesc := [tTens 0x3000 0 2 1, 0, 0, 0, tTens 0x3100 0 2 1, 0, 0]
def tBlQ (op : Nat) : QOp := tOp 4 op (0xFFFFFFFF <<< 160 + 0xFFFFFFFF <<< 192 + 0xFFFFFFFF <<< 224 + 0x3400 <<< 288
  + 7 <<< 880 + 0xFFFFFFFF <<< 896 + 0xFFFFFFFF <<< 928)
def tBlR (op step : Nat) (tx : Txn := {}) (tds : List TDesc := tBlTds) : RunOp :=
  { q := tBlQ op, tds := tds, begun := true, work := { step := step, txn := tx } }
/-- A shard record of the layer, closed; a journal header with head 62; a gradient. -/
def tBlPut (d : Dev) : Dev :=
  tBytes 0x3400 (toBytes 16 (5 + 7 <<< 32 + 9 <<< 48)) (tBytes 0x10000000000 (toBytes 16 (3 + 8 <<< 16 + 62 <<< 32 + 256 <<< 64)) d)
def tBl (op step : Nat) (tx : Txn := {}) (f : Dev → Dev := tBlPut) : State := tRun .blocker (tBlR op step tx) f
theorem wit_BlockerOperations : ([2, 3, 4, 5, 6].all fun op => decide (running (tBl op 1).dev 0 .blocker op = some (tBlR op 1) ∧
    (tBlR op 1).bad = none ∧ polderOf (tBl op 1).dev (runPolder (tBl op 1).dev 0 (tBlR op 1)) = some tPol)) = true ∧
    (∀ k, k < 7 → (tDev (bTd tBlTds k)).toNat = selfId (tBl 5 1).dev) := by decide +kernel
/-- A REPLACE opens its transaction. -/
theorem wit_BlockerOperations_open : bNvec (tBlQ 5).desc = 0 ∧ bHas (tBlQ 5).desc 0 = true ∧ tFrozen (bTd tBlTds 0) = false ∧
    bAt (tBl 5 1).dev tPol 0x3400 64 64 = none ∧ rangeErr (tBl 5 1).dev 0x3400 64 = none ∧ tPol.jbase = 0x10000000000 ∧
    rangeErr (tBl 5 1).dev 0x10000000000 5120 = none ∧
    shardErr tPol (tBlQ 5).desc (ofBytes (bytesAt (tBl 5 1).dev 0x3400 64)) (ofBytes (bytesAt (tBl 5 1).dev 0x10000000000 64))
      (ofBytes (bytesAt (tBl 5 1).dev (recAddr tPol 62) 64)) = none ∧
    hyperOk (tBlQ 5).desc = true ∧ journalFits tPol (tBlQ 5).desc tBlTds = true := by decide +kernel
theorem wit_BlockerOperations_clean : Clean (tBl 5 1).dev 0x3400 64 ∧ Clean (tBl 5 1).dev 0x10000000000 5120 ∧
    Clean (tBl 6 1).dev (recAddr tPol 62) 64 := ⟨clean_of _ _ rfl, clean_of _ _ rfl, clean_of _ _ rfl⟩
theorem wit_BlockerOperations_recover : rangeErr (tBl 6 1).dev (recAddr tPol 62) 64 = none ∧
    bits (ofBytes (bytesAt (tBl 6 1).dev (recAddr tPol 62) 64)) 34 32 ≠ 1 := by decide +kernel
/-- The weight frozen. -/
def tBlFrozen : List TDesc := tBlTds.set 0 (tTens 0x3000 0 2 1 ||| BitVec.ofNat 512 (1 <<< 76))
theorem wit_BlockerOperations_frozen : tFrozen (bTd tBlFrozen 0) = true ∧
    running (tRun .blocker (tBlR 5 1 {} tBlFrozen)).dev 0 .blocker 5 = some (tBlR 5 1 {} tBlFrozen) := by decide +kernel
/-- Every tensor FP32 with two elements, from 0x3000 on in steps of 32 B, the working copy c in BF16; whether it is present. -/
def tAllTds : List TDesc := [tTens 0x3000 0 2 1, tTens 0x3020 0 2 1, tTens 0x3040 0 2 1, tTens 0x3060 1 2 1, tTens 0x3080 0 2 1, tTens 0x30A0 0 2 1,
  tTens 0x30C0 0 2 1]
def tAllQ (op : Nat) (copy : Bool := true) : QOp := tOp 4 op ((if copy then 0 else 0xFFFFFFFF <<< 224) + 0x3400 <<< 288 + 0x3F000000 <<< 512
  + 0x3F000000 <<< 544 + 0x3F800000 <<< 576 + 0x40000000 <<< 672 + 0x40000000 <<< 704 + 7 <<< 880 + 1 <<< 960 + 16 <<< 1007)
def tAllR (op step : Nat) (tx : Txn := {}) (copy : Bool := true) : RunOp :=
  { q := tAllQ op copy, tds := tAllTds, begun := true, work := { step := step, txn := tx } }
def tAllS (op step : Nat) (tx : Txn := {}) (copy : Bool := true) : State :=
  tRun .blocker (tAllR op step tx copy) (tBytes 0x3000 [0, 0, 0x40, 0x40, 0, 0, 0x80, 0xBF] ∘ tBlPut)
/-- UPDATE and OUTER open their transactions. -/
theorem wit_BlockerOperations_all : ([1, 4, 5].all fun op =>
    let x := (tAllQ op).desc
    let s := tAllS op 1
    decide (running s.dev 0 .blocker op = some (tAllR op 1) ∧ polderOf s.dev (runPolder s.dev 0 (tAllR op 1)) = some tPol ∧
      bAt s.dev tPol 0x3400 64 64 = none ∧ tFrozen (bTd tAllTds 0) = false ∧ bSrec x = 0x3400 ∧
      shardErr tPol x (ofBytes (bytesAt s.dev 0x3400 64)) (ofBytes (bytesAt s.dev 0x10000000000 64)) (ofBytes (bytesAt s.dev (recAddr tPol 62) 64)) = none ∧
      hyperOk x = true ∧ journalFits tPol x tAllTds = true)) = true ∧
    bGsrc (tAllQ 1).desc = false ∧ bClipm (tAllQ 1).desc = 0 ∧ bSkip (tAllQ 1).desc = false ∧ normErr (tAllS 1 1).dev 0 tPol (tAllQ 1).desc = none := by
  decide +kernel
def tFloats (d : Dev) (td : TDesc) (lo hi : Nat) : Bool := (fmtOf td).float?.isSome && (elems td lo hi).all (tInput d ·)
theorem floats_of {d : Dev} {td : TDesc} {lo hi : Nat} (h : tFloats d td lo hi = true) (hh : (tDev td).toNat = selfId d) : Floats d td lo hi := by
  have h := Bool.and_eq_true .. ▸ h
  obtain ⟨F, hF⟩ := Option.isSome_iff_exists.mp h.1
  exact ⟨⟨F, hF⟩, hh, fun p hp => (tInputs (List.all_eq_true.mp h.2 p hp)).toReach⟩
theorem wit_BlockerOperations_reads : ([2, 3].all fun op => decide (running (tAllS op 1).dev 0 .blocker op = some (tAllR op 1) ∧ bCount (tAllQ op).desc tAllTds = 2 ∧
      normAddr 0 (tAllQ op).desc = 112 ∧ rangeErr (tAllS op 1).dev 112 16 = none) && [0, 2, 4].all fun k => tFloats (tAllS op 1).dev (bTd tAllTds k) 0 2)
      = true ∧ Floats (tAllS 2 1).dev (bTd tAllTds 4) 0 2 :=
  ⟨by decide +kernel, floats_of (by decide +kernel) (by decide +kernel)⟩
theorem wit_BlockerOperations_apart : Spread (elems (bTd tAllTds 0) 0 2 ++ elems (bTd tAllTds 2) 0 2) (elems (bTd tAllTds 4) 0 2) ∧
    (elems (bTd tAllTds 4) 0 2).Nodup := by
  unfold Spread Apart
  refine ⟨⟨?_, ?_⟩, ?_⟩ <;> decide +kernel
/-- A gradient of 3 and −1, the sum of whose squares is 10; the anchor less the master (R300, R310). -/
theorem test_gnorm : after (exec (.gnorm 0) (tRun .blocker (tAllR 2 1) (tBytes 0x3080 [0, 0, 0x40, 0x40, 0, 0, 0x80, 0xBF])))
    (fun s => bytesAt s.dev 112 16 = [0, 0, 0x20, 0x41, 0, 0, 0, 0, 0, 0, 0, 0, 0, 0, 0, 0]) = true := by decide +kernel
theorem test_delta : after (exec (.delta 0) (tAllS 3 1)) (fun s => bytesAt s.dev 0x3080 8 = [0, 0, 0x40, 0xC0, 0, 0, 0x80, 0x3F]) = true := by decide +kernel
/-- A transaction in each of its phases: a chunk to start, one in hand, all applied, committed, and one that cannot complete. -/
def tTxn (started applied phase : Nat) (hand : Bool) (fail : Option Code := none) : Txn :=
  { phase := phase, slot := 0, txid := 8, epoch := 3, cuts := some [(0, 2)], started := started, applied := applied, hand := hand, fail := fail }
def tTx (x : Txn) : State := tBl 5 1 x
theorem wit_BlockerTransactions : ([tTxn 0 0 1 false, tTxn 1 0 1 true, tTxn 1 1 1 false, tTxn 1 1 2 false, tTxn 1 0 1 false (some 0x0310)].all
    fun x => decide (runOf (tTx x).dev 0 .blocker = some (tBlR 5 1 x) ∧
      polderOf (tTx x).dev (runPolder (tTx x).dev 0 (tBlR 5 1 x)) = some tPol ∧ openReqs (tTx x).dev 0 (tBlQ 5).slot = [] ∧
      rangeErr (tTx x).dev (recAddr tPol x.slot) 64 = none ∧ recAddr tPol x.slot % 64 = 0 ∧ rangeErr (tTx x).dev (bSrec (tBlQ 5).desc) 64 = none ∧
      gradReady (tTx x).dev 0 (tBlR 5 1 x) 0 = true ∧ stateInDdr (tBlQ 5).desc tBlTds = false ∧ basinSlots tPol (tBlR 5 1 x) = 0)) = true := by
  decide +kernel
/-- Its first chunk starts with the pre-images of one block; in hand, it is applied under UPDATE, OUTER and REPLACE. -/
theorem wit_BlockerTransactions_start : ([1, 4, 5].all fun op =>
    let x := (tAllQ op).desc
    let s := tAllS op 1 (tTxn 0 0 1 false)
    decide (runOf s.dev 0 .blocker = some (tAllR op 1 (tTxn 0 0 1 false)) ∧ s.dev.mem.ecc = [] ∧ bCount x tAllTds = 2 ∧ chunkEnd 2 2 = 2 ∧
      stateInDdr x tAllTds = false ∧ basinSlots tPol (tAllR op 1) = 0 ∧
      rangeErr s.dev (blockPos tPol x tAllTds 0) (blockLen x tAllTds 0 + 64) = none ∧
      ∀ p ∈ blockRuns x tAllTds 0, rangeErr s.dev p.1 p.2 = none ∧ p.1 + p.2 ≤ blockPos tPol x tAllTds 0)) = true := by decide +kernel
theorem wit_BlockerTransactions_apply : ([1, 4, 5].all fun op =>
    let s := tAllS op 1 (tTxn 1 0 1 true)
    decide (runOf s.dev 0 .blocker = some (tAllR op 1 (tTxn 1 0 1 true)) ∧ s.dev.mem.ecc = [] ∧ bHas (tAllQ op).desc 3 = true ∧
      polderOf s.dev (runPolder s.dev 0 (tAllR op 1 (tTxn 1 0 1 true))) = some tPol) &&
    ([0, 1, 2, 4, 5, 6].all fun k => tFloats s.dev (bTd tAllTds k) 0 2) && (elems (bTd tAllTds 3) 0 2).all (tInput s.dev ·)) = true := by decide +kernel
theorem wit_BlockerTransactions_apart :
    let ws := [1, 2, 0].flatMap fun k => elems (bTd tAllTds k) 0 2
    Spread ([5, 6, 4].flatMap fun k => elems (bTd tAllTds k) 0 2) ws ∧ ws.Nodup ∧ ∀ p ∈ ws, ∀ q ∈ elems (bTd tAllTds 3) 0 2, Apart p q := by
  unfold Spread Apart
  refine ⟨⟨?_, ?_⟩, ?_, ?_⟩ <;> decide +kernel
/-- A rollback: the journal's block holds the values of a device whose scratchpad was empty; the working copy present, and absent. -/
def tOld : Dev := tDevice
def tUndoTx : Txn := { tTxn 1 0 1 true (some 0x0310) with pre := 1 }
def tUndo (copy : Bool) : State := tRun .blocker (tAllR 4 1 tUndoTx copy) fun d =>
  let x := (tAllQ 4 copy).desc
  let data := oldValues tOld (blockRuns x tAllTds 0)
  tBytes 0x3000 [0, 0, 0x40, 0x40, 0, 0, 0x80, 0xBF] (tBytes (blockPos tPol x tAllTds 0) (data ++ blockHdr 8 3 0 data) (tBlPut d))
def tUndoOk (copy : Bool) : Bool :=
  let x := (tAllQ 4 copy).desc
  let s := tUndo copy
  let b := blockPos tPol x tAllTds 0
  let n := blockLen x tAllTds 0
  let data := oldValues tOld (blockRuns x tAllTds 0)
  let R := recAddr tPol 0
  let cs := if bHas x 3 then elems (bTd tAllTds 3) 0 2 else []
  let clear (p : Nat × Nat) (a n : Nat) : Bool := p.1 + p.2 ≤ a ∨ a + n ≤ p.1
  let clearC (a n : Nat) : Bool := cs.all fun q => clear (elemAddr q.1 q.2, elemLen q.1) a n
  decide (runOf s.dev 0 .blocker = some (tAllR 4 1 tUndoTx copy) ∧ polderOf s.dev (runPolder s.dev 0 (tAllR 4 1 tUndoTx copy)) = some tPol ∧
    openReqs s.dev 0 3 = [] ∧ s.dev.mem.ecc = [] ∧ bHas x 3 = copy ∧ bCount x tAllTds = 2 ∧ blockPos tPol x tAllTds 1 = b + n + 64 ∧
    rangeErr s.dev b (n + 64) = none ∧ bytesAt s.dev b n = data ∧ bytesAt s.dev (b + n) 64 = blockHdr 8 3 0 data ∧
    rangeErr s.dev 0x3400 64 = none ∧ rangeErr s.dev R 64 = none) &&
  (blockRuns x tAllTds 0).all (fun p => decide (0 < p.2 ∧ rangeErr s.dev p.1 p.2 = none) && clear p b (n + 64) && clear p 0x3400 64 && clear p R 64 &&
    clearC p.1 p.2) && clear (0x3400, 64) R 64 && clearC 0x3400 64 && clearC R 64 &&
  (!copy || (tFloats s.dev (bTd tAllTds 0) 0 2 && cs.all (tInput s.dev ·)))
theorem wit_RollbackRestores : tUndoOk false = true ∧ tUndoOk true = true := by decide +kernel
theorem test_rollback : after (exec (.txnRollback 0) (tUndo true)) (fun s => bytesAt s.dev 0x3000 8 = List.replicate 8 0 ∧
    (runOf s.dev 0 .blocker).any fun r => r.ended = some ⟨.rolledBack, 0x0310⟩) = true := by decide +kernel
/-- State in DDR5, under a polder with two wait-basin slots: a slot free, and one to free. -/
def tPolB : Polder := { tPol with desc := tPol.desc ||| BitVec.ofNat 1024 (2 <<< 240) }
def tBlDdr : List TDesc := [tTens 0x20000000000 0 2 1, 0, 0, 0, tTens 0x3100 0 2 1, 0, 0]
def tBasin (x : Txn) (b : List BasinSlot) : State := tRun .blocker (tBlR 5 1 x tBlDdr) fun d =>
  { onTile d 0 fun y => { y with basin := b } with
    polders := [(1, tPolB)], blocks := { st := [(768, .on), (1024, .on), (1280, .on)] }, mem := { d.mem with ddrGib := 4, gibPerCh := 4 } }
/-- That state can be read, and the chunk's slot is free or held by the chunk. -/
theorem wit_BlockerTransactions_state : ((chunkRuns (tBlQ 5).desc tBlDdr [(0, 2)] 0).all fun p =>
    decide (rangeErr (tBasin (tTxn 0 0 1 false) []).dev p.1 p.2 = none)) = true ∧ (tBasin (tTxn 0 0 1 false) []).dev.mem.ecc = [] ∧
    (chunkRuns (tBlQ 5).desc tBlDdr [(0, 2)] 0).length ≠ 0 := by decide +kernel
theorem wit_BlockerTransactions_fetch : runOf (tBasin (tTxn 0 0 1 false) []).dev 0 .blocker = some (tBlR 5 1 (tTxn 0 0 1 false) tBlDdr) ∧
    polderOf (tBasin (tTxn 0 0 1 false) []).dev (runPolder (tBasin (tTxn 0 0 1 false) []).dev 0 (tBlR 5 1 (tTxn 0 0 1 false) tBlDdr)) = some tPolB ∧
    stateInDdr (tBlQ 5).desc tBlDdr = true ∧ tPolB.wslots = 2 ∧ (basinOf (tBasin (tTxn 0 0 1 false) []).dev 0).length < 2 := by
  decide +kernel
theorem wit_BlockerTransactions_free : ∃ b ∈ basinOf (tBasin (tTxn 1 1 1 false) [⟨0x3400, 0, false, true⟩]).dev 0,
    b.shard = bSrec (tBlQ 5).desc ∧ b.chunk < 1 := ⟨⟨0x3400, 0, false, true⟩, by decide +kernel⟩

/-- Router operations between two tensors of this device; the hold tensor's place first. -/
def tRoTds : List TDesc := [0, tTens 0x3000 0 2 1, tTens 0x3100 0 2 1]
def tRoR (op step : Nat) : RunOp :=
  { q := tOp 5 op, tds := tRoTds, begun := true, work := { step := step, router := { holdDone := false } } }
def tRo (op step : Nat) (f : Dev → Dev := id) : State := tRun .router (tRoR op step) f
theorem wit_RouterOperations : ([1, 2, 3, 4, 5, 6, 7].all fun op => decide (running (tRo op 0).dev 0 .router op = some (tRoR op 0) ∧
    (tRoR op 0).bad = none)) = true := by decide +kernel
theorem wit_RouterOperations_here : ((pairsOf ((tRoR 1 0).tds.drop 1)).all fun p =>
    decide ((tDev p.1).toNat = selfId (tRo 1 0).dev ∧ (tDev p.2).toNat = selfId (tRo 1 0).dev)) = true := by decide +kernel
theorem wit_RouterOperations_hold : running (tRo 5 1).dev 0 .router 5 = some (tRoR 5 1) ∧ (tRoR 5 1).work.router.holdDone = false := by
  decide +kernel
theorem wit_RouterOperations_transfer : (pushQueue (tRo 7 0).dev 0 (tRoR 7 0)).isNone = true := by decide +kernel
/-- A push into a queue of 4 slots whose ring holds the destination: one of the 4 outstanding, and all. -/
def tQueue (p : W32) : StageQ := { qrec := BitVec.ofNat 256 (1 + 4 <<< 8 + 1 <<< 16 + 0x3000 <<< 64), p := p }
def tPush (p : W32) : State := tRo 7 0 fun d => { d with polders := [(1, { tPol with queues := [(2, tQueue p)] })] }
theorem wit_RouterOperations_push : ([1, 4].all fun p => (pushQueue (tPush p).dev 0 (tRoR 7 0)).any fun e => e.2.1 = 2 && e.2.2 = tQueue p) = true ∧
    ((tQueue 1).p - (tQueue 1).f).toNat < (tQueue 1).nslot ∧ (tQueue 4).nslot ≤ ((tQueue 4).p - (tQueue 4).f).toNat := by decide +kernel
/-- A TRANSFER of two FP32 elements from 0x3000 to 0x3100. -/
def tCopyR : RunOp := { tRoR 7 0 with work := {}, lists := [[2]] }
def tCopying : State := tRun .router tCopyR (tBytes 0x3000 [0, 0, 0x40, 0x40, 0, 0, 0x80, 0xBF])
def tCopyCx : RCx := rCx tCopying.dev 0 tCopyR
def tCopyOf (td : TDesc) : List (TDesc × List Nat) := tCopyCx.chunks.flatMap fun k => elems td k.start (k.start + k.len)
theorem wit_RouterOperations_copy : running tCopying.dev 0 .router 7 = some tCopyR ∧ pushQueue tCopying.dev 0 tCopyR = none ∧
    tCopying.dev.mem.ecc = [] ∧ (tCopyOf (tTens 0x3000 0 2 1)).length = 2 ∧ tCopyCx.pairs = [(tTens 0x3000 0 2 1, tTens 0x3100 0 2 1)] ∧
    ((tCopyOf (tTens 0x3000 0 2 1) ++ tCopyOf (tTens 0x3100 0 2 1)).all (tInput tCopying.dev ·)) = true ∧
    (tCopyOf (tTens 0x3100 0 2 1)).Nodup := by decide +kernel
theorem wit_RouterOperations_spread : Spread (tCopyOf (tTens 0x3000 0 2 1)) (tCopyOf (tTens 0x3100 0 2 1)) := by
  unfold Spread Apart; constructor <;> decide +kernel
theorem test_transfer : after (exec (.transfer 0) tCopying) (fun s => bytesAt s.dev 0x3100 8 = [0, 0, 0x40, 0x40, 0, 0, 0x80, 0xBF]) = true := by
  decide +kernel

/-! ### Mailboxes and commands -/

/-- A mailbox as given; the ready list holds it; cores run firmware. -/
def tBox (m : Nat) (b : Mbox) (f : Dev → Dev := id) : State := tState fun d =>
  onMbox { f d with reeve := { (f d).reeve with ready := [m], coresIn := [0, 1], fwrun := true } } m fun _ => b
theorem wit_MailboxWrites : ([MbxSt.empty, .held, .done, .failed, .queued, .stepping, .deferred].all fun st =>
    (mboxOf (tBox 3 { st := st, owner := some (1, 7) }).dev 3).st = st) = true ∧
    (mboxOf (tBox 3 { st := .held, owner := some (1, 7) }).dev 3).owner ≠ none ∧ (mboxOf (tBox 3 { st := .held }).dev 3).owner = none := by
  decide +kernel
theorem wit_MailboxWrites_cancel : (mboxOf (tBox 3 { st := .deferred, cmd := some ⟨[], 0, 0xB02, none, false, true, 0, [], [], none, 0, 1, false, false⟩ }).dev 3).cmd ≠ none ∧
    hostOk (tBox 3 {}).dev 0 32 = true := by decide +kernel
theorem test_go_queues : after (exec (.mbxGo 3 0) (tBox 3 { st := .held, owner := some (1, 7) })) (fun s =>
    (mboxOf s.dev 3).st = .queued ∧ s.dev.reeve.ready = [3, 3]) = true := by decide +kernel
theorem test_go_unowned : after (exec (.mbxGo 3 0) (tBox 3 { st := .held })) (fun s =>
    (mboxOf s.dev 3).st = .failed ∧ (mboxOf s.dev 3).status = 0x0104) = true := by decide +kernel

/-- A QUEUED command with its words; what its checks say. -/
def tQueuedBox (m : Nat) (ws : NMap W32) : State := tBox m { st := .queued, words := ws, owner := if m = 64 then none else some (1, 7) }
def tCopy (s : State) (m : Nat) : Cmd :=
  let c := copyCmd (mboxOf s.dev m)
  { c with polder := (actsFor s.dev m c).1, noPolder := (actsFor s.dev m c).2 }
def tTakes (m : Nat) (ws : NMap W32) : Bool :=
  let s := tQueuedBox m ws
  decide ((mboxOf s.dev m).st = .queued ∧ itsTurn s.dev m = true ∧ s.dev.reeve.fwrun = true) &&
    decide (hostOk s.dev (tCopy s m).tally 32 = true)
/-- A good DEV_INFO; an unknown command; a privileged one of a polder's mailbox, and of family 0x08; a reserved bit; a tally
address that is not aligned. -/
theorem wit_MailboxSteps_take : tTakes 3 [(44, 0x0101)] = true ∧ cmdPerm 0x0101 ≠ none ∧
    mayIssue 3 (tCopy (tQueuedBox 3 [(44, 0x0101)]) 3) = none ∧ argsOk 3 (tCopy (tQueuedBox 3 [(44, 0x0101)]) 3) = true ∧
    tallyAddrOk (tQueuedBox 3 [(44, 0x0101)]).dev (tCopy (tQueuedBox 3 [(44, 0x0101)]) 3) = true ∧ (tCopy (tQueuedBox 3 [(44, 0x0101)]) 3).tloc = false ∧
    tTakes 3 [(44, 0x0999)] = true ∧ cmdPerm 0x0999 = none ∧ tTakes 3 [(44, 0x0103)] = true ∧ cmdPerm 0x0103 = some .priv ∧
    tTakes 3 [(44, 0x0801)] = true ∧ cmdPerm 0x0801 = some .priv ∧
    tTakes 3 [(0, 1), (44, 0x0101)] = true ∧ argsOk 3 (tCopy (tQueuedBox 3 [(0, 1), (44, 0x0101)]) 3) = false ∧
    tTakes 3 [(44, 0x0101), (45, 16)] = true ∧
    tallyAddrOk (tQueuedBox 3 [(44, 0x0101), (45, 16)]).dev (tCopy (tQueuedBox 3 [(44, 0x0101), (45, 16)]) 3) = false := by decide +kernel

/-- Mailbox m runs a step of a command. -/
def tCmd (cmd : Nat) (ws : NMap W32 := []) (polder : Option PolderNo := none) (step : Nat := 0) (nums : List Nat := []) : Cmd :=
  { words := ws, seq := 5, cmd := cmd, polder := polder, step := step, nums := nums }
def tServe (m : Nat) (c : Cmd) (f : Dev → Dev := id) : State := tBox m { st := .stepping, cmd := some c } f
theorem tServes {s : State} {m : Nat} {c : Cmd} (h : decide ((mboxOf s.dev m).st = .stepping ∧ (mboxOf s.dev m).cmd = some c ∧
    c.running = true ∧ c.work = none ∧ c.noPolder = false) = true) : Serves s m c := by
  have h := of_decide_eq_true h; exact ⟨h.1, h.2.1, h.2.2.1, h.2.2.2.1, h.2.2.2.2⟩
/-- A step whose work is done, in each of its ends. -/
theorem wit_MailboxSteps_end : ([StepEnd.over 0 [7], .over 0x010A [], .refused 0x0102 [], .more, .defer].all fun w =>
    let c : Cmd := { tCmd 0x0301 with work := some w }
    let s := tServe 64 c
    decide ((mboxOf s.dev 64).st = .stepping ∧ (mboxOf s.dev 64).cmd = some c ∧ c.lostTally = false ∧ c.cut = false ∧ c.tloc = false ∧
      c.notify = false ∧ hostOk s.dev c.tally 32 = true)) = true := by decide +kernel

/-- DEV_INFO; rings; clocks at the ends of their range; the torus. -/
theorem wit_DeviceAndMemoryCommands : Serves (tServe 64 (tCmd 0x0101)) 64 (tCmd 0x0101) ∧
    (let c := tCmd 0x0102 [(0, 0x1000), (2, 16)]
     Serves (tServe 3 c) 3 c ∧ c.word 0 % 4096 = 0 ∧ c.word 2 % 32 = 16) ∧
    (let c := tCmd 0x0102 [(0, 0x1001), (2, 6)]
     Serves (tServe 3 c) 3 c ∧ c.word 0 % 4096 ≠ 0) ∧
    (let c := tCmd 0x0102 [(2, 17)]
     Serves (tServe 3 c) 3 c ∧ 16 < c.word 2 % 32) ∧
    (let c := tCmd 0x0103 [(0, 1), (1, 2700)]
     Serves (tServe 64 c) 64 c ∧ 1200 ≤ c.word 1 ∧ c.word 1 ≤ 2700) ∧
    (let c := tCmd 0x0103 [(0, 1), (1, 2701)]
     Serves (tServe 64 c) 64 c ∧ 2700 < c.word 1) := by
  refine ⟨tServes (by decide +kernel), ⟨tServes (by decide +kernel), by decide +kernel⟩, ⟨tServes (by decide +kernel), by decide +kernel⟩,
    ⟨tServes (by decide +kernel), by decide +kernel⟩, ⟨tServes (by decide +kernel), by decide +kernel⟩, tServes (by decide +kernel), by decide +kernel⟩
/-- LEV_CONFIG: bits above the extents, an identifier outside, shares over 250, and a good torus of 2 × 1 × 1 without polders. -/
def tLev (ws : NMap W32) : Cmd := tCmd 0x0110 ws
def tThere (s : State) (c : Cmd) : Dev :=
  onFabric s.dev fun b => { b with dims := BitVec.ofNat 32 (c.word 0), self := BitVec.ofNat 32 (c.word 1), tshare := levShares c }
theorem wit_DeviceAndMemoryCommands_torus : (tLev [(0, 0x100000)]).word 0 / 2 ^ 20 % 2 ^ 12 ≠ 0 ∧
    inTorus (tThere (tServe 64 (tLev [(1, 5)])) (tLev [(1, 5)])) 5 = false ∧
    250 < total (levShares (tLev [(2, 0xFFFFFFFF)])) ∧
    (let c := tLev [(0, 1), (1, 1)]
     let s := tServe 64 c fun d => { d with polders := [] }
     (mboxOf s.dev 64).cmd = some c ∧ c.word 0 / 2 ^ 20 % 2 ^ 12 = 0 ∧ inTorus (tThere s c) (selfId (tThere s c)) = true ∧ total (levShares c) ≤ 250 ∧
       s.dev.polders = [] ∧ s.dev.fabric.dims ≠ 1) ∧
    (let c := tLev [(4, 1)]
     c.word 4 = 1 ∧ total (levShares c) ≤ 250) := by decide +kernel
/-- STRIPE_MODE of stripe 63, of the polder's stripe 0 and to global without the stacks; scrub periods; an error ring. -/
theorem wit_DeviceAndMemoryCommands_memory :
    (let c := tCmd 0x0301 [(1, 0x80000000)]
     let s := tServe 64 c
     ¬ (∃ e ∈ (s.dev.polders : List (Nat × Polder)), ∃ j ∈ windowStripes e.2, j < 64 ∧ (c.word 0 + 2 ^ 32 * c.word 1).testBit j = true) ∧ c.word 2 ≠ 1) ∧
    (∃ e ∈ ((tServe 64 (tCmd 0x0301 [(0, 1)])).dev.polders : List (Nat × Polder)), ∃ j ∈ windowStripes e.2, j < 64 ∧ (1 : Nat).testBit j = true) ∧
    stackUp (tServe 64 (tCmd 0x0301 [(1, 1), (2, 1)])).dev 1 = false ∧
    (let c := tCmd 0x0302 [(0, 2), (1, 1440)]
     c.word 0 = 2 ∧ c.word 1 ≤ 1440) ∧
    elogOf (tServe 64 (tCmd 0x0303)).dev 0x60 = none ∧ (elogOf (tServe 64 (tCmd 0x0303)).dev 0).isSome = true ∧
    hostOk (tServe 64 (tCmd 0x0303)).dev 0x20 272 = true := by decide +kernel

/-- A record of polder 2 beside polder 1: threads 32 to 63, the program words and registers above, its own HBM stripes. -/
def tRec2 : Nat := 8 + 2 <<< 16 + 1 <<< 43 + 1 <<< 50 + 1 <<< 64 + 1 <<< 69 + 1 <<< 75 + 1 <<< 80 + 0 <<< 86 + 16 <<< 94 + 32 <<< 103
  + 32 <<< 109 + 1 <<< 116 + 1 <<< 122 + 1 <<< 144 + 1 <<< 154 + 0x10040000 <<< 192 + 256 <<< 228
def tWordsOf (n : Nat) : NMap W32 := (List.range 32).map fun i => (i, BitVec.ofNat 32 (n / 2 ^ (32 * i)))
def tMake (n : Nat) (f : Dev → Dev := id) : State := tServe 64 (tCmd 0x0201 (tWordsOf n)) f
def tX (n : Nat) : Polder := { desc := BitVec.ofNat 1024 n, shares := recShares (BitVec.ofNat 1024 n) }
/-- Polder 1 with half of the scratchpad. -/
def tHalf (d : Dev) : Dev := { d with polders := [(1, { tPol with desc := putFld (putFld tPol.desc 102 94 16) 93 86 100 })] }
theorem wit_PolderAndThreadCommands_create : (let s := tMake tRec2 tHalf
    (mboxOf s.dev 64).cmd = some (tCmd 0x0201 (tWordsOf tRec2)) ∧ BitVec.ofNat 1024 ((tCmd 0x0201 (tWordsOf tRec2)).num 0 32) = BitVec.ofNat 1024 tRec2 ∧
    NMap.find? s.dev.polders 2 = none ∧ (∀ e ∈ (s.dev.polders : List (Nat × Polder)), e.2.job ≠ (tX tRec2).job) ∧ allotOk (tX tRec2) = true ∧
    tilesHeld s.dev (tX tRec2) ≠ [] ∧ (∀ e ∈ (s.dev.polders : List (Nat × Polder)), allotsMeet s.dev (tX tRec2) e.2 = false) ∧
    sharesOk s.dev 2 (tX tRec2).filler (tX tRec2).shares = true ∧ (tX tRec2).dlo = (tX tRec2).dhi ∧ (tX tRec2).buddyEn = false ∧
    (tX tRec2).anyDdr = false ∧ placementOk s.dev (tX tRec2) = true ∧ regionsOk (tX tRec2) = true ∧ s.dev.reeve.clearing = []) := by
  decide +kernel
/-- Each check that fails, in its order. -/
theorem wit_PolderAndThreadCommands_refusals : NMap.find? (tMake (tRec2 - 1 <<< 16) tHalf).dev.polders 1 ≠ none ∧
    (tX (tRec2 - 1)).job = tPol.job ∧ allotsMeet tDevice (tX tRec2) tPol = true ∧
    sharesOk (tMake (tRec2 + 251 <<< 352) tHalf).dev 2 false (tX (tRec2 + 251 <<< 352)).shares = false ∧
    (tX (tRec2 + 1 <<< 177)).dlo ≠ (tX (tRec2 + 1 <<< 177)).dhi ∧ granted (tMake tRec2).dev 2 = false ∧
    placementOk (tMake tRec2 fun d => { d with blocks := {} }).dev (tX tRec2) = false ∧
    regionsOk (tX (tRec2 - 1 <<< 192)) = false ∧
    meets (tX tRec2).hlo ((tX tRec2).hhi - (tX tRec2).hlo) (0x10040000000 : Nat) 64 = true := by decide +kernel
theorem wit_PolderAndThreadCommands_shares : (let c := tCmd 0x0203 [(0, 1), (1, 50)]
    let s := tServe 64 c
    (mboxOf s.dev 64).cmd = some c ∧ NMap.find? s.dev.polders 1 = some tPol ∧ polderOps s.dev 1 = [] ∧
      sharesOk s.dev 1 false [50, 0, 0, 0, 0, 0, 0] = true) ∧
    NMap.find? (tServe 64 (tCmd 0x0203 [(0, 3)])).dev.polders 3 = none := by decide +kernel
/-- A stage queue of one slot of 4 KiB with its line at 0x4000 of tile 0; the same again. -/
def tStage : Nat := 2 + 1 <<< 8 + 1 <<< 16 + 0x3000 <<< 64 + 0x4000 <<< 112
def tStageCmd : Cmd := tCmd 0x0204 ((List.range 8).map fun i => (i, BitVec.ofNat 32 (tStage / 2 ^ (32 * i)))) (some 1)
theorem wit_PolderAndThreadCommands_queue : (mboxOf (tServe 3 tStageCmd).dev 3).cmd = some tStageCmd ∧ tStageCmd.num 0 8 = tStage ∧
    queueOk (tServe 3 tStageCmd).dev tPol { qrec := BitVec.ofNat 256 tStage } = true ∧ NMap.find? tPol.queues 2 = none ∧
    queueOk (tServe 3 tStageCmd).dev tPol { qrec := BitVec.ofNat 256 (tStage + 8 <<< 112) } = false := by decide +kernel
theorem wit_PolderAndThreadCommands_assign : (let s := tServe 64 (tCmd 0x0205 [(0, 2), (2, 1)])
    NMap.find? s.dev.polders 1 = some tPol ∧ (mboxOf s.dev 1).owner = none) ∧
    (let s := tServe 64 (tCmd 0x0205 [(0, 2), (2, 1)]) fun d => onMbox d 1 fun b => { b with owner := some (2, 8) }
     (mboxOf s.dev 1).owner = some (2, 8)) := by decide +kernel
/-- Thread 31, the polder's last, in each state; thread 32, which is not its own. -/
def tThr (c : Cmd) (h : Thread) : State := tServe 3 c fun d => { d with tiles := [(0, { threads := [(31, h)] })] }
theorem wit_PolderAndThreadCommands_threads : ([(.free, .free), (.ready, .free), (.waiting, .free), (.parked, .ready), (.parked, .waiting)].all
    fun (st : ThreadSt × ThreadSt) => [tCmd 0x0402 [(0, 0x1F0000)] (some 1), tCmd 0x0403 [(0, 0x1F0000)] (some 1),
      tCmd 0x0403 [(0, 0x1F0000), (1, 1)] (some 1), tCmd 0x0403 [(0, 0x1F0000), (1, 2)] (some 1)].all fun c =>
      let s := tThr c { st := st.1, was := st.2, wait := .load 3 8 }
      decide ((mboxOf s.dev 3).cmd = some c ∧ polderOf s.dev 1 = some tPol ∧ tPol.inRect 0 = true ∧ tileUp s.dev 0 = true ∧
        c.word 0 / 2 ^ 16 % 2 ^ 10 = 31 ∧ tPol.tbase ≤ 31 ∧ 31 < tPol.tbase + tPol.tcount ∧ (threadOf s.dev 0 31).st = st.1)) = true ∧
    ¬ (32 < tPol.tbase + tPol.tcount) := by decide +kernel
theorem test_thread_start : after (exec (.threadStart 3) (tThr (tCmd 0x0402 [(0, 0x1F0000), (1, 9), (2, 4)] (some 1)) {})) (fun s =>
    (threadOf s.dev 0 31).pc = 9 ∧ sreg s 0 31 1 = 4 ∧ sreg s 0 31 2 = 31) = true := by decide +kernel

/-- PROG_LOAD of 64 B from host memory; DESC_ISSUE; COLL_ABORT. -/
def tProg : Cmd := tCmd 0x0401 [(0, 0x100000), (2, 64), (3, 0xFFF), (4, 4032)] (some 1)
theorem wit_ProgramAndRecordCommands_load : (let s := tServe 3 tProg
    (mboxOf s.dev 3).cmd = some tProg ∧ tProg.word 2 % 4 = 0 ∧ tProg.word 4 % 4 = 0 ∧ cmdAddrOk s.dev (some 1) 0x2000000000000 64 64 = true ∧
    tProg.word 4 + tProg.word 2 ≤ 4 * tPol.plen ∧ tilesHeld s.dev tPol = [0] ∧ tPol.pbase + tPol.plen ≤ 32768 ∧ s.dev.mem.ecc = []) := by
  decide +kernel
theorem wit_ProgramAndRecordCommands_host : (let s := tServe 3 (tCmd 0x0401 [(1, 0x10000), (2, 64), (3, 0xFFF)] (some 1))
    cmdAddrOk s.dev (some 1) 0x1000000000000 64 64 = true ∧ isDevAddr s.dev (some 1) 0x1000000000000 64 = false ∧
    hostOk s.dev 0x1000000000000 64 = true) ∧ ¬ (4096 + 4 ≤ 4 * tPol.plen) ∧
    (∃ h ∈ ((tileOf (tThr tProg { st := .ready }).dev 0).threads : List (Nat × Thread)), tPol.tbase ≤ h.1 ∧ h.2.st = .ready) := by decide +kernel
def tDescCmd : Cmd := tCmd 0x0404 [(1, 0x1000)] (some 1)
theorem wit_ProgramAndRecordCommands_issue : (let s := tServe 3 tDescCmd (tWithDesc (tHeader 0 1 1 1 9 0x2000))
    (mboxOf s.dev 3).cmd = some tDescCmd ∧ inShare s.dev tPol 0 0x1000 0x1080 = true ∧
    dDepEn (BitVec.ofNat 1024 (ofBytes (bytesAt s.dev 0x1000 128))) = false ∧
    engOfCode (dEngine (BitVec.ofNat 1024 (ofBytes (bytesAt s.dev 0x1000 128)))) = some .fuller ∧ (tileOf s.dev 0).issueQ = [] ∧
    (tileOf s.dev 0).freeSlots = 0 :: (List.range 31).map (· + 1) ∧ s.dev.resets = [] ∧ s.dev.mem.ecc = []) := by decide +kernel
theorem wit_ProgramAndRecordCommands_abort : (tCmd 0x0501 [(0, 0x30007)]).word 0 % 2 ^ 16 = tPol.job.toNat ∧
    (tCmd 0x0501 [(0, 0x30008)]).word 0 % 2 ^ 16 ≠ tPol.job.toNat := by decide +kernel
/-- FAULT_READ to host memory and to a bad address; OPEN_SHARDS with its record OPEN; CTR_SELECT in each of its ends. -/
def tFr : Polder := { tPol with faults := [5] }
theorem wit_ProgramAndRecordCommands_faults : (let s := tServe 3 (tCmd 0x0206 [(1, 0x10000)] (some 1)) fun d => { d with polders := [(1, tFr)] }
    cmdAddrOk s.dev (some 1) 0x1000000000000 32 64 = true ∧ isDevAddr s.dev (some 1) 0x1000000000000 32 = false ∧
    hostOk s.dev 0x1000000000000 32 = true ∧ cmdAddrOk s.dev (some 1) 0x1000000000020 32 64 = false) := by decide +kernel
def tShardsCmd (step : Nat) : Cmd := tCmd 0x0601 [(1, 0x10000), (2, 4)] (some 1) step
def tShards (step : Nat) : State := tServe 3 (tShardsCmd step) (tBytes 0x10000000040 (recBytes 8 3 1 5 0 7 0x3400 0x2000 1))
theorem wit_ProgramAndRecordCommands_shards : (let s := tShards 0
    (match memRead s.dev { polder := some 1 } tPol.jbase 64 with
     | (_, .ok h) => decide (ofBytes h / 2 ^ 32 % 2 ^ 6 = 0)
     | _ => false) = true ∧
    (match memRead s.dev { polder := some 1 } (recAddr tPol 0) 64 with
     | (_, .ok bs) => decide (ofBytes bs / 2 ^ 480 % 2 ^ 32 = crc32c (bs.take 60))
     | _ => false) = true ∧ tilesHeld s.dev tPol = [0] ∧ cmdAddrOk s.dev (some 1) 0x1000000000000 64 64 = true) := by decide +kernel
/-- Polder 1 on tiles 0 and 1. -/
def tWide : Polder := { tPol with desc := putFld tPol.desc 49 43 2 }
theorem wit_ProgramAndRecordCommands_two : tilesHeld (tServe 3 (tShardsCmd 0) fun d => { d with polders := [(1, tWide)] }).dev tWide = [0, 1] ∧
    (tShardsCmd 1).step + 1 = 2 := by decide +kernel
def tSel (ws : NMap W32) (p : Option PolderNo) : Cmd := tCmd 0x0902 ws p
theorem wit_ProgramAndRecordCommands_counters : (let s := tServe 64 (tSel [(1, 0x010)] none)
    blockThere s.dev 0 0 = true ∧ eventOk 0 0x010 = true ∧ (counterOf s.dev 0 0 0).held = false ∧
    blockThere s.dev 0 4 = false ∧ eventOk 0 0xFFF = false ∧ polderOf s.dev 1 = some tPol ∧ tPol.cgrant = false) ∧
    (let x : Polder := { tPol with desc := putFld tPol.desc 21 21 1 }
     let s := tServe 3 (tSel [(1, 0x010)] (some 1)) fun d => { d with polders := [(1, x)] }
     x.cgrant = true ∧ x.inRect 0 = true ∧ tileUp s.dev 0 = true ∧ (counterOf s.dev 0 0 0).held = false) := by decide +kernel

/-! ### Resets, faults and blocks -/

/-- RESET of a tile, a cluster, the polder and the device, with targets that exist; of what does not, and from elsewhere. -/
def tReset (l target : Nat) (limit : W32 := 0) (step : Nat := 0) (nums : List Nat := []) : Cmd :=
  tCmd 0x0B01 [(0, BitVec.ofNat 32 (l + target * 65536)), (1, limit)] none step nums
theorem wit_ResetCommandsAndPhases_start : ([(0, 0), (1, 0), (2, 1), (3, 0)].all fun (p : Nat × Nat) =>
    let c := tReset p.1 p.2 1000
    let s := tServe 64 c
    decide ((mboxOf s.dev 64).cmd = some c ∧ c.word 0 % 4 = p.1 ∧ c.word 0 / 2 ^ 16 = p.2 ∧ c.word 1 % 2 ^ 10 = 1000 ∧ s.dev.resets = [])) = true ∧
    tileUp (tServe 64 (tReset 0 0)).dev 0 = true ∧ clusterUp (tServe 64 (tReset 1 0)).dev 0 = true ∧
    NMap.find? (tServe 64 (tReset 2 1)).dev.polders 1 ≠ none := by decide +kernel
theorem wit_ResetCommandsAndPhases_refusals : (tReset 0 0 1001).word 1 % 2 ^ 10 = 1001 ∧ tileUp (tServe 64 (tReset 0 4)).dev 4 = false ∧
    clusterUp (tServe 64 (tReset 1 1)).dev 1 = false ∧ NMap.find? (tServe 64 (tReset 2 5)).dev.polders 5 = none ∧
    (mboxOf (tServe 3 (tReset 2 1)).dev 3).owner = none := by decide +kernel
theorem wit_ResetCommandsAndPhases_wait : (tReset 0 0 0 1 [2, 3]).nums = [2, 3] ∧ (tReset 0 0 0 1).step ≠ 0 := by decide +kernel
/-- A job in its drain, with a request of its tile open, and with none; and in its reset phase. -/
def tJob (level target : Nat) (phase : RPhase) (reqs : List Req := []) : State := tState fun d =>
  { d with resets := [{ id := 4, level := level, target := target, limit := 10, phase := phase, mbox := some 64 }], fabric := { reqs := reqs } }
theorem wit_ResetCommandsAndPhases_phases : (jobOf (tJob 0 0 .drain).dev 4).any (fun j => j.phase = .drain && decide (domainReqs (tJob 0 0 .drain).dev j = []) &&
      decide (domainBoxes (tJob 0 0 .drain).dev j = [])) = true ∧
    (jobOf (tJob 1 0 .drain).dev 4).any (fun j => j.phase = .drain && decide (domainReqs (tJob 1 0 .drain).dev j = [])) = true ∧
    (jobOf (tJob 0 0 .drain [⟨3, 0, 1, 0, 0, 8, none, false⟩]).dev 4).any (fun j =>
      decide (domainReqs (tJob 0 0 .drain [⟨3, 0, 1, 0, 0, 8, none, false⟩]).dev j ≠ [])) = true ∧
    (jobOf (tJob 0 0 .reset).dev 4).any (fun j => j.phase = .reset) = true := by decide +kernel
/-- The node breaks of a RESET of level 3, all answered, after a first bring-up. -/
def tBroken : State := { tJob 3 0 .breaks with aon := { rstLow := false, boots := 1 } }
theorem wit_DeviceResetsAndFaults : (tBroken.dev.resets.find? fun i => i.level = 3 && i.phase = .breaks).isSome = true ∧
    transitHeld tBroken.dev = false ∧ (transitHeld (onFabric tBroken.dev fun b => { b with ports := [(0, { replay := [⟨0, 0, 0, ⟨0, [], []⟩, none, false⟩] })] }) = true) ∧
    tBroken.dev.reeve.mgmtOut = [] ∧ tBroken.aon.powered = true ∧ 0 < tBroken.aon.boots.toNat := by decide +kernel
def tFaulty (f : Dev → Dev) : State := tState f
theorem wit_DeviceResetsAndFaults_units : tileUp (tFaulty id).dev 0 = true ∧ clusterUp (tFaulty id).dev 0 = true ∧
    stackUp (tFaulty id).dev 0 = true ∧
    NMap.find? (tFaulty fun d => { d with mem := { d.mem with lastFault := [(0, 5)] } }).dev.mem.lastFault 0 = some 5 ∧
    (0 ∈ (tFaulty fun d => { d with reeve := { coresIn := [0, 1, 2, 3] } }).dev.reeve.coresIn) ∧
    (4 ∉ (tFaulty fun d => { d with reeve := { coresIn := [0, 1, 2, 3] } }).dev.reeve.coresBad) ∧
    [0, 1].filter (· ≠ 0) ≠ [] ∧ [4].filter (· ≠ 4) = ([] : List Nat) := by decide +kernel
/-- BLOCK_CTL of stack 0 and of cluster 5 in each state; a block that does not exist; one whose grant is missing. -/
def tCtl (k i on : Nat) (step : Nat := 0) (nums : List Nat := []) : Cmd := tCmd 0x0B02 [(0, BitVec.ofNat 32 (k + 256 * i)), (1, BitVec.ofNat 32 on)] none step nums
def tBlk (st : BlkSt) (c : Cmd) (deferred : List (Nat × Nat) := []) : State :=
  tServe 64 c fun d => { d with blocks := { st := [(1285, st)], deferred := deferred } }
theorem wit_BlockEnableDisable : ([BlkSt.off, .starting, .on, .stopping].all fun st => [0, 1].all fun on =>
    let c := tCtl 5 5 on
    let s := tBlk st c
    decide ((mboxOf s.dev 64).cmd = some c ∧ c.word 0 % 256 = 5 ∧ c.word 0 / 256 % 256 = 5 ∧ c.word 1 % 2 = on ∧ blkSt s.dev 5 5 = st ∧
      s.dev.blocks.deferred = [] ∧ s.dev.blocks.waitStart = [] ∧ ctlGranted s.dev 5 5 = true ∧ ctlBusy s.dev 5 5 = false)) = true ∧
    ctlGranted (tBlk .off (tCtl 3 1 1)).dev 3 1 = false ∧ (tCtl 6 0 1).word 0 % 256 = 6 ∧
    ctlBusy (tServe 64 (tCtl 4 0 0)).dev 4 0 = true ∧ (tBlk .stopping (tCtl 5 5 1) [(7, 1285)]).dev.blocks.deferred ≠ [] ∧
    (tCtl 5 5 1 1 [1]).nums = [1] ∧ (tCtl 5 5 1 1 [0]).nums = [0] ∧ (tCtl 5 5 1 1).step ≠ 0 := by decide +kernel
theorem wit_BlockEnableDisable_tidal : blkSt (tServe 64 (tCtl 2 1 0) fun d => { d with blocks := { st := [(513, .on)] } }).dev 2 1 = .on := by
  decide +kernel
theorem wit_BlockEnableDisable_ends : (blockOfId (.cluster 5) = (5, 5)) ∧ blkSt (tBlk .starting (tCtl 5 5 1)).dev 5 5 = .starting ∧
    blkSt (tBlk .stopping (tCtl 5 5 1)).dev 5 5 = .stopping ∧
    ((tBlk .stopping (tCtl 5 5 1) [(64, 1285)]).dev.blocks.deferred.filter fun e => e.2 = 1285) = [(64, 1285)] ∧
    (mboxOf (tBlk .stopping (tCtl 5 5 1) [(64, 1285)]).dev 64).cmd = some (tCtl 5 5 1) := by decide +kernel

/-! ### Keys, alarms and bring-up -/

/-- The AES-256 vector of FIPS 197, C.3, and the SHA-512 of "abc" (FIPS 180-4): its first eight bytes. -/
theorem test_aes256 : aesEnc (aesKeys ((List.range 32).map (BitVec.ofNat 8 ·))) ((List.range 16).map fun i => BitVec.ofNat 8 (i * 17)) =
    [0x8E, 0xA2, 0xB7, 0xCA, 0x51, 0x67, 0x45, 0xBF, 0xEA, 0xFC, 0x49, 0x90, 0x4B, 0x49, 0x60, 0x89] := by decide +kernel
theorem test_sha512 : (sha512 (ascii "abc")).take 8 = [0xDD, 0xAF, 0x35, 0xA1, 0x93, 0x61, 0x7A, 0xBA] := by decide +kernel

/-- A device with every grant but the ones a clause is about. -/
def tGrants (g : W64) (d : Dev) : Dev := { d with boot := { d.boot with grants := g } }
/-- A transmit key of epoch 8 for site 5. -/
def tKey : TKey := { slot := 0, key := 0x55, site := 5, tx := true, kep := 8, llog := 32, legacy := false }
def tKeys : KeyStore := { kek := some 3, keys := [tKey], topKep := [(10, 8)] }
def tKeyed (c : Cmd) (ks : KeyStore := tKeys) (g : W64 := 0x1F) : State := { tServe 64 c (tGrants g) with keys := ks }
/-- A record for site 5, transmit, epoch 9, wrapped under the KEK by RFC 3394 in a blob of format 1. -/
def tBlob : Nat := 9589480466360362042821691142036388585945945888128238842025764836457467974957170370835579004202277867381722357711924001023896824061191922744970624131661825
def tLoad (blob : Nat) : Cmd := tCmd 0x0803 ((List.range 16).map fun i => (i, BitVec.ofNat 32 (blob / 2 ^ (32 * i))))
theorem wit_KeyExchange : (tKeyed (tCmd 0x0801) tKeys 7).dev.boot.grants = 7 ∧ granted (tKeyed (tCmd 0x0801) tKeys 7).dev 3 = false ∧
    granted (tKeyed (tCmd 0x0801)).dev 3 = true ∧ (mboxOf (tKeyed (tCmd 0x0801)).dev 64).cmd = some (tCmd 0x0801) ∧
    (tCmd 0x0801).word 0 % 64 = 0 ∧ (tKeyed (tCmd 0x0801)).keys.exch = none ∧
    (tKeyed (tCmd 0x0801) { exch := some 9, exchRec := [1] }).keys.exch = some 9 ∧ hostOk (tKeyed (tCmd 0x0801)).dev 0 128 = true := by decide +kernel
/-- The exchange with a value P of zero, whose z is zero. -/
theorem wit_KeyExchange_zero : ofBytes (x25519 (toBytes 32 9) (toBytes 32 0)) = 0 := by decide +kernel
theorem wit_KeyLoads : (mboxOf (tKeyed (tLoad tBlob)).dev 64).cmd = some (tLoad tBlob) ∧ (tLoad tBlob).num 0 16 = tBlob ∧
    ofBytes ((toBytes 64 tBlob).take 1) = 1 ∧ ofBytes (((toBytes 64 tBlob).drop 1).take 7) = 0 ∧ tKeys.kek = some 3 ∧
    (∀ k ∈ tKeys.keys, k.key ≠ 0x77) ∧ NMap.find? tKeys.topKep 10 = some 8 ∧ tKeys.keys.length < 1024 ∧ (∀ k ∈ tKeys.keys, k.slot < 1024) := by
  decide +kernel
theorem wit_KeyLoads_refusals : (tKeyed (tLoad tBlob) {}).keys.kek = none ∧ ofBytes ((toBytes 64 (tBlob + 2)).take 1) = 3 ∧
    (∃ k ∈ tKeys.keys, k.key = 0x55) := by decide +kernel
/-- The legacy registers: epoch 9 of site 5, and epoch 8, which is not above the newest. -/
def tLegacy (kep : W32) (g : W64) : State := { tState (tGrants g) with keys := { tKeys with lkey := [(0, 0x99)], lksel := 5, lkep := kep } }
theorem wit_KeyLoads_legacy : granted (tLegacy 9 0x1F).dev 4 = true ∧ granted (tLegacy 9 0xF).dev 4 = false ∧ (1 : W32).getLsbD 0 = true ∧
    8 < (tLegacy 9 0x1F).keys.lkep.toNat ∧ ¬ (8 < (tLegacy 8 0x1F).keys.lkep.toNat) ∧
    (let c := tCmd 0x0807 [(0, 0x99), (8, 5), (9, 9)]
     (mboxOf (tKeyed c).dev 64).cmd = some c ∧ c.word 9 = 9 ∧ ∀ k ∈ tKeys.keys, k.key ≠ BitVec.ofNat 256 (c.num 0 8)) := by decide +kernel
theorem test_legacy_go : after (exec (.ciphLkgoWrite 1) (tLegacy 9 0x1F)) (fun s => (s.keys.keys.map TKey.key) = [0x55, 0x99] ∧ s.keys.lkey = []) = true := by
  decide +kernel
theorem wit_KeysAndSpares : (let c := tCmd 0x0804 [(0, 5), (1, 8)]
     (mboxOf (tKeyed c).dev 64).cmd = some c ∧ ∃ k ∈ tKeys.keys, k.site = c.word 0 % 2 ^ 8 ∧ k.tx = !(c.word 0).testBit 8 ∧ k.kep.toNat = c.word 1) ∧
    (let c := tCmd 0x0804 [(0, 5), (1, 7)]
     ∀ k ∈ tKeys.keys, ¬ (k.site = c.word 0 % 2 ^ 8 ∧ k.tx = !(c.word 0).testBit 8 ∧ k.kep.toNat = c.word 1)) ∧
    hostOk (tKeyed (tCmd 0x0806)).dev 0 80 = true := by decide +kernel
/-- The spares unused, with a mismatch of the pipeline at place 0; and both in use. -/
theorem wit_KeysAndSpares_spares : (tState id).dev.cipher.spares = 16 :: [17] ∧
    (tState id).dev.cipher.serv.getD (tState id).dev.cipher.turn none = some 0 ∧
    (tState fun d => { d with cipher := { d.cipher with spares := [] } }).dev.cipher.spares = [] ∧
    some 3 ∈ (tState id).dev.cipher.serv := by decide +kernel
/-- An alarm of a powered device, one without power, and the last condition's end on hold. -/
theorem wit_AlarmsAndDebug : (tState id).aon.powered = true ∧ ({ tState id with aon := { powered := false } } : State).aon.powered = false ∧
    (2 : BitVec 5) &&& ~~~(BitVec.ofNat 5 (2 ^ 1)) = 0 ∧ (tState fun d => { d with boot := { d.boot with st := .held } }).dev.boot.st = .held ∧
    granted (tState (tGrants 0x20)).dev 5 = true ∧ granted (tState (tGrants 0x1F)).dev 5 = false := by decide +kernel
theorem test_alarm : after (exec (.sensorAlarm 1) { tState (tGrants 0x1F) with keys := tKeys }) (fun s => s.keys = {} ∧ s.aon.cause = 2 ∧ s.dev.polders = []) = true := by
  decide +kernel

/-- A device at a stage of bring-up. -/
def tStagAt (n : Nat) (st : DevSt := .bringup) : State :=
  { tState fun d => { d with boot := { d.boot with st := st, stage := n, licensed := true, grants := 0xF }, reeve := { d.reeve with fwrun := true } } with
    aon := { rstLow := false, clockOk := true } }
def tRunsAt (s : State) : Bool := decide (s.aon.powered = true ∧ s.aon.rstLow = false ∧ (s.dev.boot.st = .boot ∨ s.dev.boot.st = .bringup) ∧
  s.dev.boot.stage < 14 ∧ s.aon.cond = 0 ∧ s.dev.reeve.fwrun = true ∧ s.dev.boot.licensed = true)
theorem wit_BringupStages : ((List.range 14).all fun n => tRunsAt (tStagAt n) && decide ((tStagAt n).dev.boot.stage = n)) = true ∧
    tRunsAt (tStagAt 14) = false ∧ tOutcome.good = true ∧ tOutcome.cores.getLsbD 4 = true ∧ ({ tOutcome with good := false } : StageOutcome).good = false ∧
    granted (tStagAt 10).dev 2 = true ∧ granted (tStagAt 12).dev 3 = true ∧ (tStagAt 9).dev.boot.preserving = false ∧
    tOutcome.puf = none ∧ ({ tOutcome with puf := some 1 } : StageOutcome).puf = some 1 := by decide +kernel
/-- Rows 3 and 9 of a column bad: row 3 is replaced, and logical row 8, which holds row 9, is absent (R442). -/
theorem test_column_repair : (columnRepair [3, 9]).1 % 32 = 3 ∧ (columnRepair [3, 9]).2 = [8] := by decide +kernel
theorem test_stage_1 : after (exec (.bringupStageEnd { tOutcome with cores := 0x1D }) (tStagAt 1 .boot)) (fun s =>
    s.dev.reeve.coresIn = [0, 2, 3, 4] ∧ s.dev.boot.stage = 2) = true := by decide +kernel

/-- Eight channels of one 64 GiB RDIMM; one channel of group 1 has a module of another size (R221). -/
theorem test_stage_10 : ([64, 128].all fun n => after (exec (.bringupStageEnd { tOutcome with
      modules := List.replicate 7 [⟨0, 64, 5600⟩] ++ [[⟨0, BitVec.ofNat 10 n, 5600⟩]] }) (tStagAt 10)) fun s =>
    s.dev.boot.ddr = (if n = 64 then 512 else 256) ∧ blkSt s.dev 3 1 = if n = 64 then .on else .off) = true := by decide +kernel

/-- BOOT_IMAGE at stage 3 and elsewhere; lengths at the ends of the range; LICENCE at stage 4 and elsewhere. -/
def tImage (len : W32) (a : W32 := 0) : Cmd := tCmd 0x0A01 [(0, a), (2, len)]
def tBooting (c : Cmd) (n : Nat) (st : DevSt) : State := tServe 64 c fun d =>
  { d with boot := { d.boot with st := st, stage := n } }
def tBare (c : Cmd) (n : Nat) (st : DevSt) : State :=
  { tBooting c n st with dev := { (tBooting c n st).dev with reeve := { (tBooting c n st).dev.reeve with fwrun := false } } }
theorem wit_ImageAndLicence : (let s := tBare (tImage 128) 3 .boot
     (mboxOf s.dev 64).cmd = some (tImage 128) ∧ s.dev.boot.st = .boot ∧ s.dev.boot.stage = 3 ∧ s.dev.reeve.fwrun = false ∧
     (tImage 128).word 2 = 128 ∧ hostOk s.dev 0 128 = true) ∧
    (tBare (tImage 128) 4 .bringup).dev.boot.stage ≠ 3 ∧ (tImage 128 1).word 0 % 256 ≠ 0 ∧ (tImage 127).word 2 < 128 ∧
    2 ^ 26 < (tImage 0x4000001).word 2 ∧ 0 + 1 < ceilDiv ((tImage 0x100001).word 2) (2 ^ 20) ∧
    (let s := tBooting (tCmd 0x0A02) 4 .bringup
     s.dev.boot.stage = 4 ∧ s.dev.boot.st = .bringup ∧ s.dev.boot.licensed = false ∧ hostOk s.dev 0 128 = true) := by decide +kernel
/-- An image of the good form, and bytes of a bad one; a licence of the good form for this device: whether its signature holds
rests on the fused key, which the model leaves open. -/
def tImageBytes : List Byte := toBytes 16 (0x57464447 + 1 <<< 32 + 2 <<< 72) ++ List.replicate 112 0
theorem wit_ImageAndLicence_form : (let w (i n : Nat) : Nat := ofBytes ((tImageBytes.drop i).take n)
    w 0 4 = 0x57464447 ∧ w 4 1 = 1 ∧ w 5 3 = 0 ∧ w 12 4 % 64 = 0 ∧ (tImage 128).word 2 = 128 + w 12 4 ∧
    (tImageBytes.drop 16).take 48 = List.replicate 48 0 ∧ w 9 1 = 2) ∧
    (let bs : List Byte := toBytes 128 (0x4E45434C + 1 <<< 32 + 3 <<< 40 + 1 <<< 320)
     let w (i n : Nat) : Nat := ofBytes ((bs.drop i).take n)
     w 0 4 = 0x4E45434C ∧ w 4 1 = 1 ∧ w 6 2 = 0 ∧ w 40 8 < 64 ∧ w 48 1 ≠ 1 ∧ (bs.drop 49).take 15 = List.replicate 15 0 ∧
       w 8 32 = (tBooting (tCmd 0x0A02) 4 .bringup).dev.boot.idkey.toNat ∧ w 5 1 = 3 ∧ w 40 1 % 2 = 1) := by decide +kernel

/-- STAGE_READ, ATTEST and SPARE_STATUS from the privileged mailbox; a destination that is not aligned. -/
theorem wit_RecordsAndResources : (tCmd 0x0A05).polder = none ∧ hostOk (tServe 64 (tCmd 0x0A05)).dev 0 2048 = true ∧
    (tCmd 0x0A03 [(8, 32)]).word 8 % 32 = 0 ∧ (tCmd 0x0A03 [(8, 16)]).word 8 % 32 ≠ 0 := by decide +kernel
/-- Claims: land 3 by polder 1, free, held by it, and held by the board; the second link with port 15 free and taken over; releases. -/
def tClaim (k i who p : Nat) : Cmd := tCmd 0x0A04 [(0, BitVec.ofNat 32 (k + 65536 * i)), (1, BitVec.ofNat 32 (who + 16 * p))]
def tHeld (c : Cmd) (l : List Claim) (took : Option PortNo := none) : State :=
  tServe 64 c fun d => onPort { d with claims := l } 15 fun q => { q with took := took }
theorem wit_RecordsAndResources_claims : (let c := tClaim 4 3 3 1
     (mboxOf (tHeld c []).dev 64).cmd = some c ∧ c.word 0 % 2 ^ 8 = 4 ∧ c.word 0 / 2 ^ 16 = 3 ∧ c.word 1 % 2 ^ 4 = 3 ∧
     polderOf (tHeld c []).dev 1 ≠ none ∧ holderOf (tHeld c []).dev 4 3 = none ∧ holderOf (tHeld c [⟨4, 3, 3, 1⟩]).dev 4 3 = some (3, 1) ∧
     holderOf (tHeld c [⟨4, 3, 4, 0⟩]).dev 4 3 = some (4, 0)) ∧
    (tClaim 4 4 3 1).word 0 / 2 ^ 16 = 4 ∧ polderOf (tHeld (tClaim 4 3 3 5) []).dev 5 = none ∧
    holderOf (tHeld (tClaim 1 15 2 0) []).dev 1 15 = some (1, 0) ∧ (portOf (tHeld (tClaim 1 15 2 0) []).dev 15).took = none ∧
    (portOf (tHeld (tClaim 1 15 2 0) [] (some 3)).dev 15).took = some 3 ∧ (tClaim 4 3 0 0).word 1 % 2 ^ 4 = 0 ∧
    holderOf (tHeld (tClaim 1 15 0 0) [⟨1, 15, 2, 0⟩]).dev 1 15 = some (2, 0) := by decide +kernel

/-- A window of a powered device; GP_CTL of a holder. -/
theorem wit_PowerManagement : (tState id).aon.powered = true ∧ (List.replicate 32 (95 : BitVec 8)).length = 32 ∧
    holderOf (tHeld (tCmd 0) [⟨4, 3, 3, 1⟩]).dev 4 3 = some (3, 1) := by decide +kernel
/-- Above the cap the limit falls by 100 MHz from the lower of limit and setting, to 1,200 at least (R500, R501). -/
def tWarm (lim : Nat) : State := { tState id with aon := { lims := [(0, lim)] } }
theorem test_throttle : after (exec (.throttleWindow 4401 1200 (List.replicate 32 60) 60) (tWarm 1250)) (fun s => limOf s.aon 0 = 1200) = true ∧
    after (exec (.throttleWindow 4400 1200 (List.replicate 32 95) 60) (tWarm 2700)) (fun s => limOf s.aon 0 < 2700) = true := by decide +kernel
theorem wit_ResetLandAndPower : State.reset.aon.powered = true ∧ State.reset.aon.rstLow = true ∧
    (let s : State := { aon := { powered := false, rstLow := true, fuses := {} } }
     s.aon = { powered := false, rstLow := true, fuses := s.aon.fuses }) ∧
    ({ aon := { powered := false, rstLow := false } } : State).aon.rstLow = false := by decide +kernel

/-! ### Sluice -/

/-- Site 1: H = 16, S = 1, beta 0.5, eta 1, mu 0.5; this device keeps the ledger, at 0x20000000000, of 16 pages. -/
def tScCfg : BitVec 512 := BitVec.ofNat 512 (1 + 16 <<< 16 + 1 <<< 48 + 0x3F000000 <<< 64 + 0x3F800000 <<< 96 + 0x3F000000 <<< 128
  + 0x20000000000 <<< 384 + 16 <<< 448)
/-- Shard 0: four elements; words, slot and history in tile 0's scratchpad. -/
def tShard : Shard := { words := [(1, 4), (2, 4), (12, 0x5000), (14, 0x6000), (16, 0x6008), (18, 0x8000), (21, 2)] }
/-- Sites 1 and 2 are members from step 0 on. -/
def tEpoch : Epoch := { no := 1, k0 := 0, members := 6, sources := [], mdig := 0, taken := true }
def tSluice : Sluice := { on := true, polder := 1, cfg := tScCfg, shards := [(0, tShard)], epochs := [tEpoch] }
/-- A polder with DDR5, which the ledger lies in. -/
def tPolD : Polder := { tPol with desc := tPol.desc ||| BitVec.ofNat 1024 (1 <<< 177) }
def tSlDev (x : Sluice) (d : Dev) : Dev := { tGrants 0x1F d with polders := [(1, tPolD)], sluice := x }
def tSl (x : Sluice) (f : Dev → Dev := id) : State := tState fun d => f (tSlDev x d)
def tSlCmd (c : Cmd) (x : Sluice := tSluice) : State := tServe 3 c (tSlDev x)
def tNumWords (n k : Nat) : NMap W32 := (List.range k).map fun i => (i, BitVec.ofNat 32 (n / 2 ^ (32 * i)))

theorem wit_SluiceCommands_config : (let c := tCmd 0x0701 (tNumWords tScCfg.toNat 16) (some 1)
     let s := tSlCmd c
     let f (hi lo : Nat) : Nat := fld tScCfg hi lo
     let v (hi lo : Nat) : F32 := BitVec.ofNat 32 (f hi lo)
     (mboxOf s.dev 3).cmd = some c ∧ polderOf s.dev 1 = some tPolD ∧ granted s.dev 3 = true ∧ BitVec.ofNat 512 (c.num 0 16) = tScCfg ∧
     16 ≤ f 31 16 ∧ f 47 32 < f 31 16 ∧ 1 ≤ f 51 48 ∧ f 51 48 ≤ 8 ∧ f 55 52 ≤ f 51 48 ∧
     flt 0 (v 95 64) = true ∧ fle (v 95 64) 0x3F800000 = true ∧ fle 0 (v 127 96) = true ∧ ffinite (v 127 96) = true ∧
     fle 0 (v 159 128) = true ∧ flt (v 159 128) 0x3F800000 = true ∧ inTorus s.dev (f 179 160) = true ∧ f 431 384 % 4096 = 0 ∧
     16 ≤ f 479 448 ∧ tPolD.dlo ≤ f 431 384 ∧ f 431 384 + 4096 * f 479 448 ≤ tPolD.dhi) ∧
    (fld (BitVec.ofNat 512 (tScCfg.toNat - 1 <<< 16)) 31 16 = 15) ∧ granted (tServe 3 (tCmd 0x0701)).dev 3 = false := by decide +kernel
/-- A shard that keeps the allotments, its history in DDR5; one with no elements. -/
def tShardWords : NMap W32 := [(1, 4), (2, 4), (4, 0x7000), (6, 0x7100), (8, 0x7200), (10, 0x7300), (12, 0x5000), (14, 0x6000), (16, 0x6008),
  (18, 0x10000), (19, 0x200), (20, 1), (21, 2)]
theorem wit_SluiceCommands_shard : (let c := tCmd 0x0702 tShardWords (some 1)
     (mboxOf (tSlCmd c).dev 3).cmd = some c ∧ shardOk (tSlCmd c).dev tPolD { words := NMap.clear c.words 22 64 } = true) ∧
    shardOk (tSlCmd (tCmd 0x0702)).dev tPolD { words := [] } = false := by decide +kernel
/-- The second declaration, with site 3 joining from site 1; a joiner that is a member; a number that is not the next. -/
def tMember (no k0 mem join : W32) : Cmd := tCmd 0x0703 [(0, no), (1, k0), (2, mem), (10, join)] (some 1)
theorem wit_SluiceCommands_member : (let c := tMember 2 5 14 0x0103
     (mboxOf (tSlCmd c).dev 3).cmd = some c ∧ joinerPairs c = [(3, 1)] ∧ (curEpoch tSluice).any (fun e => !e.members.getLsbD 3 && e.members.getLsbD 1) = true ∧
     (BitVec.ofNat 256 (c.num 2 8)).getLsbD 3 = true ∧ c.word 0 = curEpochNo tSluice + 1 ∧ committed tSluice < 0 + c.word 1 ∧ tSluice.hold.isNone = true ∧
     (tSlCmd c).dev.boot.fsite = 0 ∧ ∀ j, j < 256 → (BitVec.ofNat 256 (c.num 2 8)).getLsbD j = true → j = 3 ∨ tEpoch.members.getLsbD j = true) ∧
    joinerPairs (tMember 2 5 14 0x0102) = [(2, 1)] ∧ tEpoch.members.getLsbD 2 = true ∧ (tMember 3 5 6 0).word 0 ≠ curEpochNo tSluice + 1 := by
  decide +kernel
/-- Site 1 joining from site 2: it knows no epoch, or it is a member. -/
def tFresh : Sluice := { tSluice with epochs := [] }
theorem wit_SluiceCommands_joins : (let c := tMember 5 5 6 0x0201
     (mboxOf (tSlCmd c tFresh).dev 3).cmd = some c ∧ joinerPairs c = [(1, 2)] ∧ scSite tFresh = 1 ∧ joinBase tFresh = none ∧
     (BitVec.ofNat 256 (c.num 2 8)).getLsbD 1 = true ∧ curEpochNo tFresh < c.word 0 ∧ committed tFresh < 0 + c.word 1 ∧ tFresh.hold.isNone = true ∧
     (tSlCmd c tFresh).dev.boot.fsite = 0) ∧
    (joinBase tSluice).any (fun e => e.members.getLsbD (scSite tSluice)) = true ∧ (tMember 0 5 6 0x0201).word 0 ≤ curEpochNo tFresh ∧
    (joinerPairs (tMember 2 5 14 0x0103)).all (fun q => q.1 ≠ scSite tSluice) = true := by decide +kernel
/-- A replay of no records; after a boundary; at an address below the polder's. -/
theorem wit_SluiceCommands_replay : (let c := tCmd 0x0704 [(1, 0x200)] (some 1)
     (mboxOf (tSlCmd c).dev 3).cmd = some c ∧ tSluice.bnd = none ∧ (c.word 0 + 2 ^ 32 * c.word 1) % 64 = 0 ∧
     tPolD.dlo ≤ c.word 0 + 2 ^ 32 * c.word 1 ∧ c.word 0 + 2 ^ 32 * c.word 1 < tPolD.dhi ∧ (c.word 3).testBit 0 = false ∧ c.word 2 = 0 ∧
     ledgerParse 0 [] = some [] ∧ archiveParse 1 [] = some []) ∧
    ({ tSluice with bnd := some 1 } : Sluice).bnd.isSome = true ∧ 64 < tPolD.dlo ∧ ledgerParse 1 [] = none := by decide +kernel

def tRead (d : Dev) (a n : Nat) : Bool := match memRead d (slAcc d) a n with | (_, .ok _) => true | _ => false
def tFrag : Message := mkMsg 1 2 1 1 0 (List.replicate 16 0)
/-- The ready word with the next boundary, and with another; a contribution new, listed and complete; a report at the keeper. -/
theorem wit_SluiceHolding_ready : (tSl tSluice).dev.sluice.shards = [(0, tShard)] ∧ tShard.next = 1 ∧ wireStep tSluice 1 = 1 ∧
    tRead (memWrite (tSl tSluice).dev { polder := some 1 } tShard.readyWord (toBytes 8 1)).1 (tShard.entry 1 + 2 * tShard.a4) tShard.csz = true := by
  decide +kernel
theorem wit_SluiceHolding_contribution : mgKind tFrag = 1 ∧ mgShard tFrag = 0 ∧ mgOrig tFrag = 2 ∧ absStep tSluice 1 1 = 1 ∧
    (findHeld tShard 2 1).isNone = true ∧ listed tSluice 2 1 = false ∧ ¬ (scS tSluice + scP tSluice + 1 ≤ (tShard.pend.filter fun h => h.site = 2).length) ∧
    (findHeld { tShard with pend := [{ site := 2, epoch := 1, ostep := 1, mlen := 0 }] } 2 1).any heldDone = true ∧
    isKeeper (tSl tSluice).dev = true ∧ isKeeper (tSl { tSluice with cfg := tScCfg ||| BitVec.ofNat 512 (1 <<< 160) }).dev = false := by
  decide +kernel
/-- A device that is not the keeper reports what it holds; a keeper is told, and in a hold evaluates commits. -/
def tAway : Sluice := { tSluice with
  cfg := tScCfg ||| BitVec.ofNat 512 (1 <<< 160), shards := [(0, { tShard with pend := [{ site := 2, epoch := 1, ostep := 1, mlen := 0 }] })] }
theorem wit_SluiceHolding_reports : isKeeper (tSl tAway).dev = false ∧
    (tAway.shards.all fun e => (findHeld e.2 2 1).any heldDone) = true ∧ (selfId (tSl tAway).dev, 2, 1) ∉ tAway.reports ∧
    (selfId (tSl tSluice).dev, 2, 1) ∉ tSluice.reports ∧ ({ tSluice with hold := some (0x0704, 1) } : Sluice).hold.isSome = true := by decide +kernel
/-- The step word: at boundary 1 with site 2 silent since step 0, and with both heard of; a number that is not the next. -/
def tHeard : Sluice := { tSluice with istep := some 14, reports := [(0, 1, 0), (0, 2, 0)] }
theorem wit_SluiceHolding_address : stepWordAt (tSl tHeard).dev 0x100 = true ∧ stepWordAt (tSl tHeard).dev 0x101 = false ∧
    (∀ k : Nat, 1 ≤ k → (13 : W64).toNat + 1 ≠ scB0 tHeard + k * scH tHeard) :=
  ⟨by decide +kernel, by decide +kernel, fun k _ => by
    have h0 : scB0 tHeard = 0 := by decide +kernel
    have h1 : scH tHeard = 16 := by decide +kernel
    rw [h0, h1]; simp; omega⟩
theorem wit_SluiceHolding_step : isKeeper (tSl tHeard).dev = true ∧ (∀ i, tHeard.istep = some i → (15 : W64).toNat = i + 1) ∧
    (15 : W64).toNat + 1 = scB0 tHeard + 1 * scH tHeard ∧ 0 < scH tHeard ∧ tHeard.on = true ∧
    (let d0 := (memWrite (tSl tHeard).dev { polder := some 1 } 0x100 (toBytes 8 15)).1
     let d1 : Dev := { d0 with sluice := { tHeard with istep := some 15, ownWaits := tHeard.ownWaits + b2n (ownWait d0 15) } }
     (holdCause (takeEpochs (flushLedger { d1 with sluice := { d1.sluice with bnd := some 1 } }) 1) 1).isNone = true) ∧
    (∃ i, tHeard.istep = some i ∧ (17 : W64).toNat ≠ i + 1) := ⟨by decide +kernel, fun i h => by cases h; decide +kernel, by decide +kernel,
      by decide +kernel, by decide +kernel, by decide +kernel, ⟨14, rfl, by decide +kernel⟩⟩
theorem wit_SluiceHolding_hold : (let s := tSl { tSluice with hold := some (0x0704, 9), bnd := some 9 }
     holdCause (takeEpochs (flushLedger s.dev) 9) 9 = some 0x0704) ∧
    (let s := tSl { tHeard with hold := some (0x0704, 1), bnd := some 1 }
     (holdCause (takeEpochs (flushLedger s.dev) 1) 1).isNone = true) ∧
    (let s := tSl { tHeard with hold := some (0x0704, 1), bnd := some 1, differs := true }
     holdCause (takeEpochs (flushLedger s.dev) 1) 1 = some 0x0708) := by decide +kernel
theorem wit_CommitEntries : tHeard.wraps = [0] ∧ (∀ r ∈ tHeard.reports, r.2.1 < 256) ∧ 2 < 2 ^ 32 ∧
    (∃ v, (v, 2, 0) ∈ tHeard.reports) ∧ siteHolds (tSl tHeard).dev 2 0 = true ∧ listed tHeard 2 0 = false :=
  ⟨rfl, by decide, by decide, ⟨0, by decide⟩, by decide +kernel, by decide +kernel⟩
/-- Step 1 of a site that holds its own contribution and those of all; of one that lacks its own; a ring that is full. -/
def tDue (own : Bool) : Sluice := { tSluice with istep := some 15, bnd := some 1, reports := if own then [(0, 1, 1), (0, 2, 1)] else [(0, 2, 1)] }
theorem wit_CommitEntries_due : siteHolds (tSl (tDue true)).dev (scSite tSluice) 1 = true ∧
    ((membersAt (tDue true) 1).all fun j => siteHolds (tSl (tDue true)).dev j 1) = true ∧ siteHolds (tSl (tDue false)).dev (scSite tSluice) 1 = false ∧
    (tDue true).replay = [] ∧ (tDue true).backlog = [] ∧ (tDue true).full = none ∧ committed (tDue true) + 1 = 1 ∧
    (commitNow (tSl (tDue true)).dev 1).isSome = true ∧ (commitNow (tSl (tDue false)).dev 1).isNone = true := by decide +kernel
def tRing : Sluice := { tDue true with
  cfg := BitVec.ofNat 512 (tScCfg.toNat - 15 <<< 448), ledger := [mkRec tSluice 6 1 15 0 0 (List.replicate 496 0)], wpos := 4032 }
theorem wit_CommitEntries_full : (let d := (tSl tRing).dev
    tRing.backlog = [] ∧ tRing.full = none ∧ committed tRing = 0 ∧
    (commitNow d 1).any fun r => !ringFits (ringDrained d).1.sluice (ringDrained d).2 r) := by decide +kernel
/-- Both sites' contributions of step 0, which step 2 lists: two steps late, beyond S = 1, they are discarded as stale (R340). -/
theorem test_commit_entries : (commitEnts (tSl tHeard).dev 2).map (fun e => (enSite e, enStep e, enDisp e)) = [(1, 0, 1), (2, 0, 1)] := by
  decide +kernel

/-- The deadline of step 1 ends inner step 23; the own contribution is missing (R339). -/
theorem test_own_wait : ownWait (tSl { tHeard with bnd := some 1 }).dev 23 = true ∧ ownWait (tSl { tHeard with bnd := some 1 }).dev 24 = false := by
  decide +kernel

/-- Merges: a shard for step 0, one whose update is formed, and one whose word is out. -/
def tMerged (merge : Option (Nat × Bool)) (out : Bool) : Sluice := { tSluice with shards := [(0, { tShard with merge := merge, out := out })], rel := some 1 }
theorem wit_SluiceMerges : (tSl (tMerged none false)).dev.sluice.adopting = none ∧ tShard.toMerge = 0 ∧
    tRead (tSl (tMerged (some (0, false)) false)).dev (tShard.entry 0) (2 * tShard.a4) = true ∧
    ¬ (isKeeper (tSl (tMerged (some (0, false)) false)).dev = true ∧ (tMerged (some (0, false)) false).rel.getD 0 < 1) ∧
    (∀ e ∈ (tMerged (some (0, false)) true).shards, e.2.out = true) ∧ (∃ e ∈ (tMerged none false).shards, e.2.out = false) ∧
    tRead (tSl (tMerged (some (0, false)) true)).dev (tShard.entry 1) (4 * tShard.n) = true := by decide +kernel
/-- Away from the keeper a merge that is not ready waits; at it another device's digests arrive, and all devices have reported. -/
theorem wit_SluiceMerges_away : isKeeper (tSl { tAway with waited := 0 }).dev = false ∧ tShard.merge.isNone = true ∧ tAway.waited ≤ tShard.toMerge ∧
    isKeeper (tSl tSluice).dev = true ∧ (1, 3) ∉ tSluice.digDevs ∧
    ((siteDevs (tSl tSluice).dev).all fun v => v = selfId (tSl tSluice).dev) = true := by decide +kernel
/-- Record 1, which lists the contributions of sites 1 and 2 as applied: not here, and here. -/
def tCommit : LRec := mkRec tSluice 1 1 24 0 0 [0x100000001, 0x100000002]
def tTwo (here : Bool) : Sluice := { tSluice with
  ledger := [tCommit]
  shards := [(0, { tShard with toMerge := 1, pend := if here then [⟨1, 1, 1, 0, [], false⟩, ⟨2, 1, 1, 0, [], false⟩] else [] })] }
theorem wit_SluiceMerges_held : commitAt (tTwo true) 1 = some tCommit ∧ applied (tTwo true) 1 = [(1, 1), (2, 1)] ∧
    (tTwo true).shards.all (fun e => allHeld e.2 [(1, 1), (2, 1)]) = true ∧ (tTwo false).shards.all (fun e => !allHeld e.2 [(1, 1), (2, 1)]) = true ∧
    stepMembers (tTwo true) 1 = 2 := by decide +kernel
/-- An adoption at step 1, from anchor 0. -/
def tProp : LRec := mkRec tSluice 3 1 1 0 0 []
theorem wit_SluiceMerges_adopting : ({ tMerged none false with adopting := some (tProp, 1) } : Sluice).adopting = some (tProp, tShard.toMerge + 1) ∧
    tRead (tSl { tMerged none false with adopting := some (tProp, 1) }).dev (tShard.entry (absStep tSluice (rcEpoch tProp) (rcLo tProp)))
      (tShard.a4 + 4 * tShard.n) = true := by decide +kernel
/-- Records: a good one of site 2 and of site 1, one with a wrong check; a divergence notice; a proposal of the leader. -/
def tRecMsg (r : LRec) (orig kind : Nat) : Message := mkMsg kind orig 1 1 0 (rcBytes r)
theorem wit_SluiceMerges_records : (rcParse (tRecMsg tProp 2 2).body).any (fun r => r.1 = tProp && rcOk r.1) = true ∧ mgKind (tRecMsg tProp 2 2) = 2 ∧
    mgOrig (tRecMsg tProp 2 2) ≠ scSite tSluice ∧ mgOrig (tRecMsg tProp 1 2) = scSite tSluice ∧ rcOk { tProp with ents := [0] } = false ∧
    (let r := mkRec tSluice 1 1 15 0 0 []
     rcSite r = scSite tSluice ∧ rcKind r = 1 ∧ rcOk r = true ∧ rcIstep tProp ≠ 0 ∧ isKeeper (tSl tAway).dev = false ∧ tAway.fetches = []) ∧
    rcKind tProp = 3 ∧ (membersNow tSluice).head? = some (rcSite tProp) ∧ rcSite tProp = mgOrig (tRecMsg tProp 1 2) ∧
    leAt (mkMsg 3 2 1 1 0 (toBytes 16 0x0708)).body 0 2 = 0x0708 := by decide +kernel
theorem wit_SluiceMerges_digest : (let x : Sluice := { tSluice with ledger := [mkRec tSluice 2 1 1 0 77 []] }
    anchorDig x (scSite x) (absStep x 1 1) = some 77) := by decide +kernel
/-- A joiner's fetch: of an anchor not yet formed, of one that is gone, and of one in the history; its state, empty and in part. -/
def tFetch1 (k : Nat) : Message := mkMsg 4 3 1 k 0 []
def tAnchor (n : Nat) : Sluice := { tSluice with shards := [(0, { tShard with newest := n })] }
theorem wit_SluiceMerges_joiner : mgKind (tFetch1 1) = 4 ∧ mgShard (tFetch1 1) = 0 ∧ absStep tSluice 1 1 = 1 ∧
    ((commitAt (tAnchor 1) 1).isNone = true ∧ (commitAt (tTwo true) 1).isSome = true ∧ mgOrig (mkMsg 5 2 1 1 0 []) ≠ scSite tSluice) ∧
    (0 < 1 ∧ (tAnchor 0).shards = [(0, { tShard with newest := 0 })]) ∧ 1 + 8 ≤ 9 ∧
    tRead (tSl (tAnchor 8)).dev (tShard.entry 1) (2 * tShard.a4) = true ∧
    mgKind (mkMsg 5 1 1 1 0 []) = 5 ∧ mgOrig (mkMsg 5 1 1 1 0 []) = scSite tSluice ∧ mgLen (mkMsg 5 1 1 1 0 []) = 0 ∧
    (let m := mkMsg 5 1 1 1 0 (List.replicate 128 0)
     let h := heldPut { site := 1, epoch := 1, ostep := 1, mlen := mgLen m } m
     heldDone h = true ∧ h.bad = false ∧ 2 * tShard.a4 ≤ (heldBytes h).length) := by decide +kernel

/-! ### The tidal transport -/

/-- Path 2 to site 5 through port 0, from ::10 to ::20, UDP ports 1000 and 47822, 16 MiB of transmit store in DDR5, 40 Gb/s. -/
def tPathRec : BitVec 512 := BitVec.ofNat 512 (5 + 2 <<< 8 + 0x10 <<< 128 + 0x20 <<< 256 + 1000 <<< 384 + 16 <<< 436 + 40 <<< 448
  + 0x20000000000 <<< 464)
/-- A fragment of a contribution to shard 0 of site 1's step 1. -/
def tFragment : Message := mkMsg 1 1 1 1 0 (List.replicate 16 0)
def tPath (st : PathSt) : TPath := { desc := tPathRec, st := st, queue := [tFragment], due := 1, flight := [⟨7, 1, tFragment, 0⟩], pseq := 8 }
/-- It stands in register 3; port 0 is ON. -/
def tTidDev (p : TPath) (d : Dev) : Dev :=
  { tGrants 0x1F d with polders := [(1, tPolD)], blocks := { st := [(512, .on), (1024, .on), (1280, .on)] }, tidal := { polder := 1, paths := [(3, p)] } }
def tTid (p : TPath) (f : Dev → Dev := id) : State := { tState fun d => f (tTidDev p d) with keys := tKeys }
theorem tCanSend {ks : KeyStore} {d : Dev} {n : Nat} {p : TPath} {k : TKey} (h : decide (pathOf d n = some p ∧ tportOn d (pPort p.desc) = true ∧
    pathKey ks p = some k ∧ NMap.get k.sent 0 (pId p.desc) < 2 ^ 61) = true) : CanSend ks d n p k := by
  have h := of_decide_eq_true h; exact ⟨h.1, h.2.1, h.2.2.1, h.2.2.2⟩
theorem wit_TidalSending : CanSend (tTid (tPath .up)).keys (tTid (tPath .up)).dev (3 : Fin 512).val (tPath .up) tKey ∧
    (tPath .up).queue = tFragment :: [] ∧ maySend (tPath .up) tFragment = true ∧ tFragment.body.length ≤ 8840 ∧ 0 < (tPath .up).due ∧
    (tPath .up).flight ≠ [] ∧ pathKey {} (tPath .up) = none := by
  refine ⟨tCanSend (by decide +kernel), ?_⟩; decide +kernel
theorem wit_TidalSending_states : ([PathSt.down, .up, .holdoff].all fun st => decide (pathOf (tTid (tPath st)).dev 3 = some (tPath st))) = true := by
  decide +kernel

/-- A path that is UP, one that is DOWN with another UP, and one without. -/
theorem wit_TidalSending_requeue : requeueOn (tTid (tPath .up)).dev 3 = 3 ∧ requeueOn (tTid (tPath .down)).dev 3 = 3 ∧
    requeueOn { (tTid (tPath .down)).dev with tidal := { polder := 1, paths := [(3, tPath .down), (4, { tPath .up with desc := tPathRec + 256 })] } } 3 = 4 := by
  decide +kernel

/-- A frame of site 5 on that path: type, sequence, hold and payload, sealed under the receive key of epoch 8. -/
def tRxKey : TKey := { tKey with tx := false, slot := 1 }
def tFrameHdr (type seq hold len : Nat) : BitVec 512 := BitVec.ofNat 512 (1 + type <<< 4 + 5 <<< 8 + 8 <<< 32 + 1 <<< 64 + seq <<< 128
  + hold <<< 192 + len <<< 208)
def tFrame (type seq hold : Nat) (pt : List Byte) : Frame :=
  let hb := toBytes 64 (tFrameHdr type seq hold pt.length).toNat
  let c := gcmSeal (toBytes 32 0x55) (sliceB hb 4 12) hb pt
  { port := 0, src := 0x20, dst := 0x10, sport := 47822, dport := 1000, sumOk := true, hdr := tFrameHdr type seq hold pt.length, body := c.1, tag := BitVec.ofNat 128 (ofBytes c.2) }
def tRx (p : TPath) (f : Dev → Dev := id) : State := { tTid p f with keys := { keys := [tRxKey] } }
theorem tArrives {ks : KeyStore} {d : Dev} {f : Frame} {n : Nat} {p : TPath} {k : TKey} (h : decide (matchPath d f = some n ∧ pathOf d n = some p ∧
    tportOn d f.port.toNat = true ∧ pPort p.desc = f.port.toNat ∧ f.sumOk = true ∧ frameOk d f = true ∧
    (ks.keys.find? fun k => ofPair (fSrc f) false k && k.kep.toNat = fKep f) = some k ∧ windowOk p (fKep f) (fPcount f) = true) = true) :
    Arrives ks d f n p k := by
  have h := of_decide_eq_true h
  exact ⟨h.1, h.2.1, h.2.2.1, h.2.2.2.1, h.2.2.2.2.1, h.2.2.2.2.2.1, h.2.2.2.2.2.2.1, h.2.2.2.2.2.2.2⟩
def tBadFrame : Frame := { tFrame 3 9 0 [] with body := [], tag := 0 }
theorem wit_TidalArrivals_refused : Arrives (tRx (tPath .up)).keys (tRx (tPath .up)).dev tBadFrame 3 (tPath .up) tRxKey ∧ opened tBadFrame tRxKey = none := by
  refine ⟨tArrives (by decide +kernel), by decide +kernel⟩
/-- The receiver of a sealed frame has its payload. -/
theorem opened_sealed (type seq hold : Nat) (pt : List Byte) : opened (tFrame type seq hold pt) tRxKey = some pt := by
  have hk := aesKeys_last (toBytes 32 0x55) (toBytes_length _ _)
  have hc := ctrGo_twice _ (sliceB (toBytes 64 (tFrameHdr type seq hold pt.length).toNat) 4 12) hk (pt.length / 16 + 1) 2 pt (by omega)
  have hn := ctrGo_length _ (sliceB (toBytes 64 (tFrameHdr type seq hold pt.length).toNat) 4 12) hk (pt.length / 16 + 1) 2 pt (by omega)
  have hkey : toBytes 32 tRxKey.key.toNat = toBytes 32 0x55 := rfl
  unfold opened tFrame gcmOpen gcmSeal
  simp only [hkey, hn, hc, toBytes_tag _ (gcmTag_length _ _ _ _ hk), if_true]
/-- A PROBE, and a PROBE_ECHO on a path that is DOWN. -/
def tProbe (type : Nat) : Frame := tFrame type 9 0 []
theorem wit_TidalArrivals_probe : Received (tRx (tPath .up)).keys (tRx (tPath .up)).dev (tProbe 3) 3 (tPath .up) tRxKey [] ∧
    fType (tProbe 3) = 3 := by
  refine ⟨{ toArrives := tArrives (by decide +kernel), opens := opened_sealed .., fdig := by decide +kernel }, by decide +kernel⟩
theorem wit_TidalArrivals_echo : Received (tRx (tPath .down)).keys (tRx (tPath .down)).dev (tProbe 4) 3 (tPath .down) tRxKey [] ∧
    fType (tProbe 4) = 4 ∧ fHold (tProbe 4) ≠ 0xFFFF ∧ (tPath .down).tooBig = false := by
  refine ⟨{ toArrives := tArrives (by decide +kernel), opens := opened_sealed .., fdig := by decide +kernel }, by decide +kernel⟩
/-- A key that answers a PROBE. -/
theorem wit_TidalArrivals_answer : pathKey { keys := [tRxKey, tKey] } (tPath .up) = some tKey ∧ NMap.get tKey.sent 0 (pId tPathRec) < 2 ^ 61 := by
  decide +kernel
/-- DATA: a fragment whose shard the map does not name, names here, or whose header is bad; an ACK. -/
def tDataPt : List Byte := toBytes 32 tFragment.hdr.toNat ++ tFragment.body
def tData : Frame := tFrame 1 0 0 tDataPt
theorem wit_TidalArrivals_data : Received (tRx { tPath .up with due := 0 }).keys (tRx { tPath .up with due := 0 }).dev tData 3
    { tPath .up with due := 0 } tRxKey tDataPt ∧ fType tData = 1 ∧ mgOk tFragment = true ∧ mgKind tFragment = 1 ∧ mgShard tFragment = 0 := by
  refine ⟨{ toArrives := tArrives (by decide +kernel), opens := opened_sealed .., fdig := by decide +kernel }, by decide +kernel⟩
theorem wit_TidalArrivals_owner : NMap.find? (tRx (tPath .up) fun d => { d with tidal := { d.tidal with shardMap := [(0, 0, 5)] } }).dev.tidal.shardMap 0 =
    some (0, 5) := by decide +kernel
theorem tResealed {ks : KeyStore} {d : Dev} {f : Frame} {n : Nat} {p : TPath} {k : TKey} (h : Arrives ks d f n p k) (b : List Byte) (t : BitVec 128)
    (hl : b.length = f.body.length) : Arrives ks d { f with body := b, tag := t } n p k := by
  refine ⟨h.names, h.path, h.port, h.mine, h.sum, ?_, h.key, h.window⟩
  have := h.form
  unfold frameOk at this ⊢
  dsimp only
  rw [hl]; exact this
/-- A frame as it stands with its payload in clear; sealed, it arrives where this one does. -/
def tPlain (type seq hold : Nat) (pt : List Byte) : Frame :=
  { port := 0, src := 0x20, dst := 0x10, sport := 47822, dport := 1000, sumOk := true, hdr := tFrameHdr type seq hold pt.length, body := pt, tag := 0 }
theorem tSealed {ks : KeyStore} {d : Dev} {type seq hold n : Nat} {pt : List Byte} {p : TPath} {k : TKey}
    (h : Arrives ks d (tPlain type seq hold pt) n p k) : Arrives ks d (tFrame type seq hold pt) n p k := by
  have hl : (tFrame type seq hold pt).body.length = pt.length :=
    ctrGo_length _ (sliceB (toBytes 64 (tFrameHdr type seq hold pt.length).toNat) 4 12) (aesKeys_last _ (toBytes_length _ _)) _ _ _ (by omega)
  have hr := tResealed h (tFrame type seq hold pt).body (tFrame type seq hold pt).tag hl
  unfold tPlain at hr
  unfold tFrame at hr ⊢
  exact hr
theorem tFrame_hdr (type seq hold : Nat) (pt : List Byte) : (tFrame type seq hold pt).hdr = (tPlain type seq hold pt).hdr := rfl
/-- An ACK that reports nothing new, on a path in hold-off. -/
def tAckPt : List Byte := List.replicate 176 0
theorem wit_TidalArrivals_ack : Received (tRx (tPath .holdoff)).keys (tRx (tPath .holdoff)).dev (tFrame 2 0 0 tAckPt) 3 (tPath .holdoff) tRxKey tAckPt ∧
    fType (tPlain 2 0 0 tAckPt) = 2 ∧ tAckPt.length = 176 ∧ leAt tAckPt 4 1 ≤ 16 ∧ leAt tAckPt 5 1 ≤ 4 ∧ fHold (tPlain 2 0 0 tAckPt) ≠ 0xFFFF ∧ (tFrame 2 0 0 tAckPt).hdr = (tPlain 2 0 0 tAckPt).hdr :=
  ⟨{ toArrives := tSealed (tArrives (by decide +kernel)), opens := opened_sealed .., fdig := by decide +kernel }, by decide +kernel, by decide +kernel, by decide +kernel,
    by decide +kernel, by decide +kernel, tFrame_hdr ..⟩

/-- SLUICE_PATH: a removal, a good declaration, and one without a store; SLUICE_SHARDMAP of two entries in the polder's DDR5. -/
def tPathCmd (r : BitVec 512) : Cmd := tCmd 0x0705 (tNumWords r.toNat 16) (some 1)
def tPathServe (r : BitVec 512) : State := { tServe 3 (tPathCmd r) (fun d => tTidDev (tPath .up) d) with keys := tKeys }
theorem wit_TidalPaths_commands : ([tPathRec, tPathRec - BitVec.ofNat 512 (40 <<< 448), tPathRec - BitVec.ofNat 512 (8 <<< 436)].all fun r =>
      decide ((mboxOf (tPathServe r).dev 3).cmd = some (tPathCmd r) ∧ granted (tPathServe r).dev 3 = true ∧
        polderOf (tPathServe r).dev 1 = some tPolD ∧ BitVec.ofNat 512 ((tPathCmd r).num 0 16) = r ∧ ownPath (tPathServe r).dev r = some 3)) = true ∧
    pathErr tKeys (tPathServe tPathRec).dev tPolD tPathRec = none ∧ pGw tPathRec = selfId (tPathServe tPathRec).dev ∧ fld tPathRec 457 448 ≠ 0 ∧
    fld (tPathRec - BitVec.ofNat 512 (40 <<< 448)) 457 448 = 0 ∧
    pathErr tKeys (tPathServe tPathRec).dev tPolD (tPathRec - BitVec.ofNat 512 (8 <<< 436)) = some 0x0710 := by decide +kernel
theorem wit_TidalPaths_shardmap : (let c := tCmd 0x0706 [(1, 0x200), (2, 2)] (some 1)
    let s := tServe 3 c fun d => { tTidDev (tPath .up) d with blocks := { st := [(768, .on)] }, mem := { d.mem with gibPerCh := 4, ddrGib := 4 } }
    let a := c.word 0 + 2 ^ 32 * c.word 1
    a % 64 = 0 ∧ tPolD.dlo ≤ a ∧ a + 8 * c.word 2 ≤ tPolD.dhi ∧ tRead s.dev a 16 = true) ∧
    (tCmd 0x0706 [(0, 8), (1, 0x200)]).word 0 % 64 = 8 := by decide +kernel
/-- A path of the gateway at device 1. -/
def tPathFar : BitVec 512 := tPathRec + BitVec.ofNat 512 (1 <<< 416)
def tFarServe : State :=
  { tServe 3 (tPathCmd tPathFar) fun d => { tTidDev (tPath .up) d with tidal := { polder := 1 }, fabric := { d.fabric with dims := 1 } } with keys := tKeys }
theorem wit_TidalPaths_elsewhere : (mboxOf tFarServe.dev 3).cmd = some (tPathCmd tPathFar) ∧ granted tFarServe.dev 3 = true ∧
    polderOf tFarServe.dev 1 = some tPolD ∧ fld tPathFar 457 448 ≠ 0 ∧ BitVec.ofNat 512 ((tPathCmd tPathFar).num 0 16) = tPathFar ∧
    pGw tPathFar ≠ selfId tFarServe.dev ∧ pathErr tKeys tFarServe.dev tPolD tPathFar = none := by decide +kernel
/-- A message handed over, one that the store has no room for, one for a partner without a path or with one that is not UP, and one
that does not wait. -/
def tHanded (m : Message) (p : TPath) : State := tTid p fun d => { d with sluice := { d.sluice with out := [(5, m)] } }
def tStoreOf (p : TPath) (m : Message) : Nat := storeUsed p + ((fragments (m.body.length / 8832 + 1) m.hdr (mgOfs m) m.body).map fragLen).sum
def tFullPath : TPath := { tPath .up with desc := tPathRec - BitVec.ofNat 512 (16 <<< 436) }
theorem wit_TidalPaths_handoff : (5, tFragment) ∈ (tHanded tFragment (tPath .up)).dev.sluice.out ∧ (6, tFragment) ∉ (tHanded tFragment (tPath .up)).dev.sluice.out ∧
    upAll (tHanded tFragment (tPath .up)).dev 5 (List.range 8) = ((tHanded tFragment (tPath .up)).dev, [(2, some 3)]) ∧
    upAll (tHanded tFragment (tPath .down)).dev 5 (List.range 8) = ((tHanded tFragment (tPath .down)).dev, []) ∧
    (∀ i, i < 8 → pathGw (tHanded tFragment (tPath .up)).dev 5 i = none) ∧ mgKind tFragment = 1 ∧ (mgShard tFragment + mgStep tFragment) % 1 = 0 ∧
    pathOf (tHanded tFragment (tPath .up)).dev 3 = some (tPath .up) ∧ tStoreOf (tPath .up) tFragment ≤ pTssize tPathRec ∧
    upAll (tHanded tFragment tFullPath).dev 5 (List.range 8) = ((tHanded tFragment tFullPath).dev, [(2, some 3)]) ∧
    pTssize tFullPath.desc < tStoreOf tFullPath tFragment := by decide +kernel
theorem wit_TidalPaths_given : let own (d : Dev) (i : Nat) := List.find? (fun (e : Nat × TPath) => e.2.st ≠ .undeclared && pPartner e.2.desc = 5 && pId e.2.desc = i) d.tidal.paths
    own (tTid (tPath .up)).dev 2 = some (3, tPath .up) ∧ own (tTid (tPath .up)).dev 1 = none ∧ own (tTid tFullPath).dev 2 = some (3, tFullPath) := by
  decide +kernel
/-- A partner whose one path is another gateway's: the message is held or goes to that gateway, as the free value says the path stands. -/
def tFarOut : State := tTid (tPath .up) fun d =>
  { d with sluice := { d.sluice with out := [(5, tFragment)] }, tidal := { d.tidal with paths := [], others := [(tPathFar, 0)] } }
theorem wit_TidalPaths_fabric : (5, tFragment) ∈ tFarOut.dev.sluice.out ∧ pathGw tFarOut.dev 5 2 = some 1 ∧
    upAll tFarOut.dev 5 (List.range 8) = ((fresh tFarOut.dev).1, if (fresh tFarOut.dev).2.toNat % 2 = 0 then [(2, none)] else []) := by
  refine ⟨by decide +kernel, by decide +kernel, ?_⟩
  have h (i : Nat) : List.find? (fun (e : Nat × TPath) => e.2.st ≠ .undeclared && pPartner e.2.desc = 5 && pId e.2.desc = i) tFarOut.dev.tidal.paths = none := rfl
  have hr : List.range 8 = [0, 1, 2, 3, 4, 5, 6, 7] := by decide
  have g (d : Dev) (he : d.tidal = tFarOut.dev.tidal) : upAll d 5 [3, 4, 5, 6, 7] = (d, []) := by
    have e (i : Nat) : pathGw d 5 i = pathGw tFarOut.dev 5 i := by unfold pathGw; rw [he]
    simp only [upAll, he, h, e, show pathGw tFarOut.dev 5 3 = none by decide +kernel, show pathGw tFarOut.dev 5 4 = none by decide +kernel,
      show pathGw tFarOut.dev 5 5 = none by decide +kernel, show pathGw tFarOut.dev 5 6 = none by decide +kernel,
      show pathGw tFarOut.dev 5 7 = none by decide +kernel, Option.isNone_none, if_true]
  have e2 : pathGw tFarOut.dev 5 2 = some 1 := by decide +kernel
  have e0 : pathGw tFarOut.dev 5 0 = none := by decide +kernel
  have e1 : pathGw tFarOut.dev 5 1 = none := by decide +kernel
  rw [hr]
  unfold upAll; rw [h]; simp only [e0, Option.isNone_none, if_true]
  unfold upAll; rw [h]; simp only [e1, Option.isNone_none, if_true]
  unfold upAll; rw [h]; simp only [e2, Option.isNone_some]
  rw [if_neg (by decide), g (fresh tFarOut.dev).1 rfl]
theorem wit_TidalPaths_ports : blkSt (tTid (tPath .up)).dev 2 (0 : BitVec 1).toNat = .on ∧ blkSt (tTid (tPath .up)).dev 2 (1 : BitVec 1).toNat = .off ∧
    (tTid (tPath .up)).dev.tidal.paths = [(3, tPath .up)] ∧ (tPath .up).st ≠ .undeclared ∧ pPort tPathRec = (0 : BitVec 1).toNat ∧ pLaddr tPathRec = 0x10 ∧
    pathOf (tTid (tPath .up)).dev 3 = some (tPath .up) ∧ (8999 : W32).toNat < 9000 ∧ 9000 ≤ (9000 : W32).toNat ∧
    blkSt (tTid (tPath .up) fun d => { d with blocks := { st := [(512, .starting)] } }).dev 2 0 = .starting := by decide +kernel

/-! ### The fabric -/

/-- A packet of job 7 from device 1 for this device: kind, address of tile 0, payload, units asked for. -/
def tHdrOf (kind : Nat) (addr ask : Nat) (tag chunk pidx : Nat) (pl : List Byte) (dst : Nat := 0) (tgt : Nat := 0) : BitVec 256 :=
  mkHdr { dstDev := dst, dstTile := 0, cls := 1, ord := false, kind := kind, tgt := tgt, tag := tag, job := 7, srcDev := 1, srcTile := 0, addr := addr,
          stream := 9, chunk := chunk, pidx := pidx, ask := ask } pl
def tPkt (kind addr : Nat) (pl : List Byte) (ask : Nat := 0) : Packet := ⟨tHdrOf kind addr ask 0 0 0 pl, pl, []⟩
def tMet (d : Dev) (p : Packet) (kind : Nat) : Bool := forMe d p kind && hOk p.hdr && pcrcOk p && !absorbs d p.hdr &&
  hAddr p.hdr / 2 ^ 20 = hDstTile p.hdr && polderOfJob d (hJob p.hdr) = some (1, tPol)
/-- A WRITE that passes, one outside the windows, one of a tile off the address, with a bit changed, in a reset domain, of no job. -/
theorem wit_FabricPackets_write : (let d := tDevice
    let p := tPkt 0 0x1000 (List.replicate 16 3)
    tMet d p 0 = true ∧ addrErr d tPol (hAddr p.hdr) p.payload.length = none ∧
    tMet d (tPkt 0 0xFFFF8 (List.replicate 16 3)) 0 = true ∧ addrErr d tPol 0xFFFF8 16 ≠ none ∧
    (let q := tPkt 0 0x101000 []
     forMe d q 0 = true ∧ hOk q.hdr = true ∧ pcrcOk q = true ∧ absorbs d q.hdr = false ∧ hTgt q.hdr = 0 ∧ hAddr q.hdr / 2 ^ 20 ≠ hDstTile q.hdr) ∧
    (forMe d { p with payload := List.replicate 16 4 } 0 = true ∧ pcrcOk { p with payload := List.replicate 16 4 } = false) ∧
    (forMe d { p with hdr := p.hdr ||| 0x80000000 } 0 = true ∧ hOk (p.hdr ||| 0x80000000) = false) ∧
    absorbs { d with resets := [{ id := 4, level := 0, target := 0, limit := 10, phase := .drain, mbox := some 64 }] } p.hdr = true ∧
    polderOfJob { d with polders := [] } (hJob p.hdr) = none) := by decide +kernel
/-- A WRITE and a READ of a tile that is absent. -/
theorem wit_FabricPackets_absent : (let d : Dev := { tDevice with grid := { absent := [0] } }
    [0, 1].all fun k => let p := tPkt k 0x1000 (if k = 0 then List.replicate 16 3 else []) (2 * k)
      tMet d p k = true && absentIn d (hAddr p.hdr) 16 && !absentIn tDevice (hAddr p.hdr) 16) = true := by decide +kernel
theorem wit_FabricPackets_clean : Clean tDevice (hAddr (tPkt 0 0x1000 (List.replicate 16 3)).hdr) 16 := clean_of _ _ rfl
/-- A READ of the scratchpad, one outside, and one of the tile's counters by a polder with cgrant. -/
theorem wit_FabricPackets_read : (let d := tDevice
    let p := tPkt 1 0x1000 [] 2
    let c := tPkt 1 0x80000000 [] 1
    let x : Polder := { tPol with desc := tPol.desc ||| BitVec.ofNat 1024 (1 <<< 21) }
    tMet d p 1 = true ∧ 8 * hLen p.hdr = 16 ∧ ctrsOk d tPol (hAddr p.hdr) 16 = false ∧ addrErr d tPol (hAddr p.hdr) 16 = none ∧
    tMet d (tPkt 1 0xFFFF8 [] 2) 1 = true ∧ ctrsOk d tPol 0xFFFF8 16 = false ∧ addrErr d tPol 0xFFFF8 16 ≠ none ∧
    forMe d c 1 = true ∧ hOk c.hdr = true ∧ pcrcOk c = true ∧ ctrsOk d x (hAddr c.hdr) 8 = true) := by decide +kernel
/-- Answers of device 1 to an open request, which some packet of each kind answers, with status 0 and 0x0310. -/
def tReq (kind : Nat) (abandoned : Bool := false) : Req := { tag := 3, no := 0x105, dev := 1, kind := kind, addr := if kind = 4 then 0 else 0x1000, len := 8, abandoned := abandoned }
def tAnswer (kind status : Nat) (pl : List Byte) : Packet := ⟨tHdrOf kind status 0 3 1 5 pl, pl, []⟩
def tAsked (q : Req) : State := tState fun d => { d with fabric := { d.fabric with reqs := [q] } }
theorem wit_FabricPackets_answers : ([(2, 1), (3, 0), (5, 4), (6, 0), (6, 1), (6, 4), (7, 0), (7, 1), (7, 4)].all fun (r : Nat × Nat) => [0, 0x0310].all fun st =>
    [false, true].all fun ab => decide (forMe (tAsked (tReq r.2 ab)).dev (tAnswer r.1 st []) r.1 = true ∧
      (tAsked (tReq r.2 ab)).dev.fabric.reqs.find? (answers (tAnswer r.1 st []).hdr [r.2]) = some (tReq r.2 ab) ∧
      BitVec.ofNat 16 (hAddr (tAnswer r.1 st []).hdr % 2 ^ 16) = (BitVec.ofNat 16 st : Code))) = true ∧
    (tAsked (tReq 0)).dev.fabric.reqs.find? (answers (tAnswer 2 0 []).hdr [1]) = none ∧
    pcrcOk (tAnswer 2 0 (List.replicate 8 1)) = true ∧ pcrcOk { tAnswer 2 0 (List.replicate 8 1) with payload := [] } = false := by decide +kernel
/-- Good data, poisoned data, data with a bad CRC, an answer with a bad header, and a return word: kind 7 without a number. -/
def tLostWord : Packet := ⟨mkHdr { dstDev := 0, dstTile := 0, cls := 1, ord := false, kind := 7, tgt := 0, tag := 3, job := 7, srcDev := 1, srcTile := 0, addr := 0x0310 } [], [], []⟩
theorem wit_FabricPackets_good : (let p := tAnswer 2 0 (List.replicate 8 1)
    hOk p.hdr = true ∧ pcrcOk p = true ∧ pcrcOk { p with payload := [] } = false ∧ forMe tDevice p 2 = true ∧
    (tAsked (tReq 1)).dev.fabric.reqs.find? (answers p.hdr [1]) = some (tReq 1) ∧
    forMe tDevice { p with hdr := p.hdr ||| 0x80000000 } 2 = true ∧ hOk (p.hdr ||| 0x80000000) = false) ∧
    hOk tLostWord.hdr = true ∧ forMe tDevice tLostWord 7 = true ∧ (tAsked (tReq 1)).dev.fabric.reqs.find? (answers tLostWord.hdr [1]) = none ∧
    (tAsked (tReq 1)).dev.fabric.reqs.find? (answersLost tLostWord.hdr [1]) = some (tReq 1) := by decide +kernel
/-- A collective on tile 0, which an open and a data packet of chunk 1 left, answered. -/
def tCollR : RunOp := tRoR 2 0
def tColl (q : Req) : State := tRo 2 0 fun d => { d with fabric := { d.fabric with reqs := [q] } }
theorem wit_FabricPackets_collective : ([0xFE, 0x105].all fun no =>
    let q : Req := { tag := opTag 0 tCollR.q.slot, no := no, dev := 1, kind := 4, addr := 0, len := 0 }
    let p : Packet := ⟨tHdrOf 5 0 0 (opTag 0 tCollR.q.slot).toNat (no / 256) (no % 256) [], [], []⟩
    decide (forMe (tColl q).dev p 5 = true ∧ (tColl q).dev.fabric.reqs.find? (answers p.hdr [4]) = some q ∧
      liveRun (releaseFlows { (tColl q).dev with fabric := { (tColl q).dev.fabric with reqs := [] } }) (q.tag.toNat / 32) = some tCollR)) = true := by
  decide +kernel

/-- Reduction packets: an open, a fail mark and data of collective 9, phase 0, from device 1. -/
def tRed (addr pidx : Nat) (pl : List Byte) : Packet := ⟨tHdrOf 4 addr 0 0 1 pidx pl 0 2, pl, []⟩
def tStream (ctx : Option Nat) : Stream := { job := 7, coll := 9, phase := 0, polder := 1, ctx := ctx, units := 65536 }
def tStreams (l : List Stream) (f : Coll → Coll := id) : State := tState fun d => { d with coll := f { streams := l } }
theorem wit_StreamsAndTides_red : ([tRed 0 0xFE [], tRed 0 0xFF [], tRed 0 0 (List.replicate 8 1)].all fun p =>
      decide (forMe tDevice p 4 = true ∧ arrive tDevice p = .ok (1, tPol) ∧ hAddr p.hdr / 2 ^ 40 = 0 ∧ hStream p.hdr = 9 ∧ hJob p.hdr = 7)) = true ∧
    (arrive tDevice { tRed 0 0 (List.replicate 8 1) with payload := [] } = .error (5, 0x0127)) ∧
    collTile tDevice 7 9 = none ∧ ((7 : BitVec 16), (9 : BitVec 16)) ∈ (tStreams [] fun c => { c with aborted := [(7, 9)] }).dev.coll.aborted := by
  decide +kernel
def tEarly (k deep slow : Nat) : Stream := { job := 7, coll := 9, phase := 0, polder := 1, units := 2 * (4096 * 2 ^ k) * deep, deep := deep, slow := slow }
theorem wit_StreamsAndTides_streams : streamOf (tStreams []).dev 7 9 0 = none ∧ streamOf (tStreams [tStream none]).dev 7 9 0 = some (tStream none) ∧
    streamOf (tStreams [tStream (some 3)]).dev 7 9 0 = some (tStream (some 3)) ∧ (tStream (some 3)).ctx ≠ none ∧
    collTile (tStreams [tStream none]).dev 7 9 = none ∧ hLen (tRed 0 0xFE []).hdr = 0 ∧ hPidx (tRed 0 0xFE []).hdr = 0xFE ∧
    ([0, 4].all fun k => [1, 8].all fun deep => (placeStream (tStreams []).dev (tEarly k deep 0)).2.ready) = true ∧
    ((tStreams [tStream none]).dev.coll.streams.find? fun w => w.ctx = none && w.spill = none && (placeStream (tStreams [tStream none]).dev w).2.ready) =
      some (tStream none) := by decide +kernel
/-- A stream with staging for one chunk: empty, holding chunk 1 of device 1, and holding another of its chunks. -/
def tStaging (l : List Nat) : Stream := { tStream (some 3) with deep := 1, staged := l.map fun n => ⟨1, n, 0, 0, [], false⟩ }
theorem wit_StreamsAndTides_staging : stageRoom (tStaging []) (hSrcDev (tRed 0 0 []).hdr).toNat (hChunk (tRed 0 0 []).hdr) = true ∧
    stageRoom (tStaging [1]) (hSrcDev (tRed 0 0 []).hdr).toNat (hChunk (tRed 0 0 []).hdr) = true ∧
    stageRoom (tStaging [2]) (hSrcDev (tRed 0 0 []).hdr).toNat (hChunk (tRed 0 0 []).hdr) = false ∧
    hAddr (tRed (8 * 2 ^ 40) 0 (List.replicate 8 1)).hdr / 2 ^ 40 = 8 ∧
    arrive tDevice (tRed (8 * 2 ^ 40) 0 (List.replicate 8 1)) = .ok (1, tPol) := by decide +kernel
/-- Every context held and no basin: a stream finds no room. -/
def tAllHeld : State := tStreams ((List.range 64).map fun i => { tStream (some i) with coll := BitVec.ofNat 16 (100 + i) })
theorem wit_StreamsAndTides_full : ([0, 4].all fun k => [1, 8].all fun deep => !(placeStream tAllHeld.dev (tEarly k deep 0)).2.ready) = true ∧
    (∀ w ∈ tAllHeld.dev.coll.streams, w.ctx ≠ none ∨ w.spill ≠ none ∨ (placeStream tAllHeld.dev w).2.ready = false) := by
  decide +kernel
/-- A broadcast of two chunks by a group of one, its first chunk's codes worked out. -/
def tChR (k : Nat) : RunOp :=
  { tRoR k 0 with lists := [[2, 2]], work := { step := 0, router := { holdDone := false, out := [(0, [1, 2])] } } }
theorem wit_StreamsAndTides_chunk : ([0, 1, 2, 3].all fun k => (completable (tRun .router (tChR k)).dev 7 0 0 0).any fun e => e.1 = 0 && e.2.1 = tChR k) = true ∧
    runOf (tRun .router (tChR 2)).dev 0 .blocker = none ∧ completable tDevice 7 0 0 0 = none := by decide +kernel
theorem wit_StreamsAndTides_slow : ([0, 1].all fun slow => [0, 1].all fun quiet => let w := { tStream (some 3) with slow := slow, quiet := quiet }
    streamOf (tStreams [w]).dev 7 9 (0 : Fin 6).val = some w) = true := by decide +kernel
/-- A streamed UPDATE on the tile, whose wait basin has no slot left for a chunk, and has one. -/
def tUpdR : RunOp := { q := tOp 4 1 (0x3400 <<< 288 + 1 <<< 968 + (opTag 0 (tChR 2).q.slot).toNat <<< 975 + (tChR 2).q.gen.toNat <<< 991), begun := true }
def tNoSlot (b : List BasinSlot) : State := tRun .router (tChR 2) fun d =>
  { onTile (onEngine d 0 .blocker fun x => { x with run := some tUpdR }) 0 fun y => { y with basin := b } with
    polders := [(1, { tPol with desc := tPol.desc ||| BitVec.ofNat 1024 (1 <<< 240) })] }
theorem wit_StreamsAndTides_basin : (completable (tNoSlot [⟨1, 0, true, true⟩]).dev 7 0 0 0).any (fun e => e.1 = 0 && e.2.1 = tChR 2 &&
      (basinAdmits (tNoSlot [⟨1, 0, true, true⟩]).dev 0 e.2.2 e.2.1 0 0).isNone && (basinAdmits (tNoSlot []).dev 0 e.2.2 e.2.1 0 0).isSome) = true := by
  decide +kernel
/-- A queue at its producer and at its consumer, with counts at the ends of the range. -/
def tLine (role : Bool) : StageQ := { qrec := BitVec.ofNat 256 (2 + (if role then 8 else 0) + 4 <<< 8 + 0x4000 <<< 112), c := 4, f := 2 }
def tLineOf (role : Bool) : State := tState fun d => { d with polders := [(1, { tPol with queues := [(2, tLine role)] })] }
theorem wit_StreamsAndTides_line : ([true, false].all fun role => decide (polderOf (tLineOf role).dev 1 = some { tPol with queues := [(2, tLine role)] } ∧
      NMap.find? [(2, tLine role)] (2 : BitVec 3).toNat = some (tLine role) ∧ (tLine role).role = role)) = true ∧
    behind 32 3 4 = true ∧ behind 32 8 4 = false ∧ ((8 : W32) - 4).toNat ≤ (tLine true).nslot ∧ (tLine true).nslot < ((9 : W32) - 4).toNat ∧
    behind 32 9 4 = false ∧ behind 32 1 2 = true ∧ behind 32 4 2 = false ∧ behind 32 4 4 = false ∧ behind 32 4 5 = true ∧ behind 32 5 2 = false := by
  decide +kernel

/-- Port 0 in the direction x+ to device 1, port 2 to it as well; both ON. -/
def tPort (f : Port → Port := id) : Port := f { dir := 0, width := 3, nbr := 1, nbrPort := 0, rxSeq := 4095, cabled := true }
def tPorts (f : Port → Port := id) (g : Dev → Dev := id) : State := tState fun d => g { d with
  blocks := { st := [(256, .on), (258, .on), (1024, .on), (1280, .on)] }
  fabric := { dims := 1, ports := [(0, tPort f), (2, { tPort with nbrPort := 2, rxSeq := 100 })] } }
theorem wit_LinkPackets_transit : linkUp (tPorts id).dev (0 : PortNo).toNat = true ∧ portOf (tPorts id).dev 0 = tPort id ∧ (4095 : BitVec 12) = (tPort id).rxSeq ∧
    (0 : BitVec 12) ≠ (tPort id).rxSeq ∧ hOk (tPkt 0 0x1000 []).hdr = true ∧ (hDstDev (tPkt 0 0x1000 []).hdr).toNat = selfId (tPorts id).dev ∧
    hOk ((tPkt 0 0x1000 []).hdr ||| 0x80000000) = false ∧ hKind (tPkt 2 0x1000 []).hdr = 2 := by decide +kernel
/-- A packet for device 1, that goes on by a port. -/
theorem wit_LinkPackets_on : (let h := tHdrOf 0 0x1000 0 0 0 0 [] 1
    hOk h = true ∧ (nextHop (tPorts id).dev h (some 0) false matches .via _ _)) := by decide +kernel
/-- The reserved channel 6; a packet for a device that no way reaches, of this device, an answer, and of another. -/
def tNoWay (kind src : Nat) : BitVec 256 := mkHdr { dstDev := 2, dstTile := 0, cls := 1, ord := false, kind := kind, tgt := 0, tag := 0, job := 7, srcDev := src, srcTile := 0, addr := 0 } []
theorem wit_LinkPackets_nowhere : (6 ≤ (6 : BitVec 3).toNat ∧ (5 : BitVec 3).toNat < 6) ∧
    ([(0, 0), (0, 1), (2, 1)].all fun (e : Nat × Nat) =>
      hOk (tNoWay e.1 e.2) && decide (isRequest (hKind (tNoWay e.1 e.2)) = (e.1 == 0)) && (nextHop (tPorts id).dev (tNoWay e.1 e.2) (some 0) false matches .nowhere)) = true := by
  decide +kernel
/-- A handover lead for VC 2 behind port 2's number 100, and behind 101. -/
def tLead (old : Nat) : W64 := BitVec.ofNat 64 (4 + 2 <<< 4 + 4095 <<< 20 + old <<< 32 + 2 <<< 44)
theorem wit_LinkPackets_handover : ([99, 100].all fun old => decide (linkUp (tPorts id).dev 0 = true ∧ handoverOk (tLead old) = true ∧ (tPort id).dir ≠ 6 ∧
      farEnd (tPorts id).dev 0 (fld (tLead old) 47 44) = some 2 ∧ fld (tLead old) 31 20 = (portOf (tPorts id).dev 0).rxSeq.toNat ∧
      fld (tLead old) 43 32 = old)) = true ∧ (portOf (tPorts id).dev 2).rxSeq = 100 ∧ behind 12 99 100 = true ∧ behind 12 100 100 = false := by
  decide +kernel
/-- The first handover lead for a port, and a later one. -/
theorem wit_LinkPackets_peer : (portOf (tPorts id).dev 2).peerOver = false ∧ (portOf (tPorts fun p => { p with peerOver := true }).dev 0).peerOver = true ∧
    fld (tLead 99) 31 20 = (portOf (peerTakes (tPorts id).dev 0 2) 0).rxSeq.toNat ∧ behind 12 99 (portOf (peerTakes (tPorts id).dev 0 2) 2).rxSeq.toNat = true ∧
    behind 12 100 (portOf (peerTakes (tPorts id).dev 0 2) 2).rxSeq.toNat = false ∧ handoverOk (tLead 99 ||| 0x80000000000000) = false := by decide +kernel
theorem wit_LinkPackets_words : controlOk (BitVec.ofNat 64 (3 + 5 <<< 4 + 4094 <<< 8 + 1 <<< 20 + 9 <<< 32)) = true ∧
    controlOk (BitVec.ofNat 64 (3 + 6 <<< 4)) = false ∧ (0 : BitVec 3).toNat < 6 ∧
    (portOf (tPorts fun p => { p with ackDue := true }).dev 0).ackDue = true ∧
    NMap.get (portOf (tPorts fun p => { p with freed := [(0, 3)] }).dev 0).freed 0 0 ≠ NMap.get (portOf (tPorts id).dev 0).reported 0 0 := by decide +kernel
def tTrainOff (st : BlkSt) (f : Dev → Dev := id) : State := tPorts id fun d => f { d with blocks := { st := [(256, st)] } }
theorem wit_LinkTraining : portSt (tPorts id).dev (0 : PortNo).toNat = .on ∧ portSt (tTrainOff .starting).dev (0 : PortNo).toNat = .starting ∧
    (∀ e ∈ (tTrainOff .starting).dev.blocks.waitStart, e.2 ≠ 256 + (0 : PortNo).toNat) ∧
    (portOf (tPorts id).dev (0 : PortNo).toNat).dir ≠ 7 ∧ (portOf (tPorts fun p => { p with dir := 7 }).dev (0 : PortNo).toNat).dir = 7 ∧
    (portOf (tTrainOff .starting).dev 0).queue = [] ∧ (portOf (tTrainOff .starting).dev 0).replay = [] ∧ (portOf (tTrainOff .starting).dev 0).hand = [] ∧
    portSt (tTrainOff .off).dev (0 : PortNo).toNat = .off ∧ (portOf (tTrainOff .off).dev 0).cabled = true ∧ (portOf (tTrainOff .off).dev 0).dir ≠ 7 ∧
    trainWidth 0xFF = some (3, 15) ∧ trainWidth 0x1FE = some (3, 0) ∧ trainWidth 0 = none ∧
    portDir (tTrainOff .off).dev (0 : PortNo).toNat (1 : DevId).toNat = some 0 ∧ (∀ k, k < 8 → (0xFF : BitVec 9).getLsbD k = true) := by decide +kernel
/-- Few lanes; a neighbour in the standard wiring; a miswired one. -/
def tTrained (lanes : BitVec 9) (nbr : DevId) : PortTrain := { lanes := lanes, nbr := some (nbr, 0) }
theorem wit_LinkTraining_ends : miswired (tTrainOff .starting).dev 0 (tTrained 0xFF 5) = true ∧ miswired (tTrainOff .starting).dev 0 (tTrained 0 1) = false ∧
    trainWidth (tTrained 0 1).lanes = none ∧ portDir (tTrainOff .starting).dev (0 : PortNo).toNat (5 : DevId).toNat = none := by decide +kernel

/-! ### Management, windows, memory, steps -/

/-- Management packets for this reeve: a BREAK of ring 1, the same to clear it, one whose ring is 3; a PING; a STATUS; an unknown one; an answer. -/
def tMgmt (mtype : Nat) (body : List Byte) : Packet :=
  let pl := toBytes 8 (mtype + 5 <<< 16) ++ body
  ⟨mkHdr { dstDev := 0, dstTile := 0, cls := 0, ord := false, kind := 8, tgt := 4, tag := 0, job := 0, srcDev := 1, srcTile := 0, addr := 0 } pl, pl, []⟩
def tBreak (k clear : Nat) : Packet := tMgmt 1 (toBytes 16 (k + clear <<< 6 + 3 <<< 32 + 4 <<< 64))
theorem wit_ManagementAndWindows_packets : ([tBreak 1 0, tBreak 1 1, tBreak 3 0, tMgmt 2 [], tMgmt 3 [], tMgmt 9 [], tMgmt 0x82 []].all fun p => mgmtHere tDevice p) = true ∧
    mType (tBreak 1 0) = 1 ∧ leAt (tBreak 1 0).payload 1 1 = 0 ∧ (tBreak 1 0).payload.length = 24 ∧
    (let b := leAt (tBreak 1 0).payload 8 16
     bits b 1 0 < 3 ∧ bits b 5 2 = 0 ∧ bits b 31 8 = 0 ∧ bits b 63 52 = 0 ∧ bits b 127 84 = 0 ∧ b.testBit 6 = false) ∧
    (leAt (tBreak 1 1).payload 8 16).testBit 6 = true ∧ bits (leAt (tBreak 3 0).payload 8 16) 1 0 = 3 ∧ mType (tMgmt 0x82 []) = 0x82 ∧
    hSrcDev (tMgmt 0x82 []).hdr = 1 ∧ leAt (tMgmt 0x82 []).payload 2 6 = 5 ∧
    breaksOf { tDevice with fabric := { breaks := [(1, List.replicate 4 ⟨false, 3, 4⟩)] } } 1 = List.replicate 4 ⟨false, 3, 4⟩ := by decide +kernel
/-- One with a bit changed, one whose CRC is bad, and an answer that this device awaits. -/
theorem wit_ManagementAndWindows_refused : (let p := tMgmt 2 []
    forMe tDevice { p with hdr := p.hdr ||| 0x80000000 } 8 = true ∧ hOk (p.hdr ||| 0x80000000) = false ∧
    forMe tDevice { p with payload := p.payload.set 1 9 } 8 = true ∧ hOk p.hdr = true ∧ hTgt p.hdr = 4 ∧ pcrcOk { p with payload := p.payload.set 1 9 } = false ∧
    8 ≤ (p.payload.set 1 9).length ∧ mType { p with payload := p.payload.set 1 9 } < 0x80) ∧
    (BitVec.ofNat 48 5, (1 : DevId)) ∈ ({ mgmtOut := [(5, 1)] } : Reeve).mgmtOut := by decide +kernel
/-- MBX_NOTICE of mailbox 64, the status words of mailbox 0, DEV_STATE, a reserved place, and counter block places. -/
theorem wit_ManagementAndWindows_registers : ((0x40F4 : Nat) < 0x4100 ∧ 0x40F4 % 256 = 0xF4) ∧ (0xC8 % 256 ≥ 0xC8 ∧ frontReserved 0xC8 = false) ∧
    frontReserved 0x4100 = false ∧ frontReserved 0xF8 = true ∧ frontReserved 0xFFFF = true ∧
    (regBlock 0x80000000).isSome = true ∧ (regBlock 0x8084FFFC).isSome = true := by decide +kernel
theorem wit_ManagementAndWindows_aperture : apertureOwner tDevice 0x1000 16 = some 1 ∧ apertureOwner tDevice 0xFFFF8 16 = none ∧ Clean tDevice 0x1000 16 :=
  ⟨by decide +kernel, by decide +kernel, clean_of _ _ rfl⟩

/-- Words with one and with three bits in error, poisoned, and good, at 0x1000; and a place without a controller. -/
def tScrub (e : Option EccWord) : State := tState fun d => { d with mem := { d.mem with ecc := match e with | some e => [(512, e)] | none => [] } }
theorem wit_MemoryAndDestroy_stores : (scrubPlace tDevice (.prog 0 5)).isSome = true ∧ (scrubPlace tDevice (.codebook 0 5)).isSome = true ∧
    (scrubPlace tDevice (.mem 0x1000)).isSome = true ∧ scrubPlace { tDevice with grid := { absent := [0] } } (.prog 0 5) = none := by decide +kernel
theorem wit_MemoryAndDestroy_scrub : (match place (tScrub none).dev 0x1000 with | .ok k => k | .error _ => 0) = 0x1000 ∧
    NMap.find? (tScrub (some (.bad 1))).dev.mem.ecc (0x1000 / 8) = some (.bad 1) ∧ popcount 80 (1 : BitVec 80).toNat = 1 ∧
    NMap.find? (tScrub (some (.bad 7))).dev.mem.ecc (0x1000 / 8) = some (.bad 7) ∧ popcount 80 (7 : BitVec 80).toNat = 3 ∧
    NMap.find? (tScrub (some .poison)).dev.mem.ecc (0x1000 / 8) = some .poison ∧
    (match place (tScrub none).dev 0x20000000000 with | .ok _ => false | .error c => c = 0x0302) = true := by decide +kernel
def tRowCopy : Repair := { stack := 0, row := 9, bank := 0, copying := true }
theorem wit_MemoryAndDestroy_repair : (tState fun d => { d with mem := { d.mem with repairs := [tRowCopy] } }).dev.mem.repairs.filter
    (fun r => r.stack = (0 : BitVec 4).toNat && r.copying) = [tRowCopy] ∧ tDevice.mem.repairs.filter (fun r => r.stack = 0 && r.copying) = [] := by
  decide +kernel
/-- POLDER_DESTROY: of polder 1, of one that is not there, after its reset, and with GiB to clear. -/
def tDestroy (p : W32) (step : Nat) (nums : List Nat) : Cmd := tCmd 0x0202 [(0, p)] none step nums
theorem wit_MemoryAndDestroy_destroy : ([tDestroy 1 0 [], tDestroy 5 0 [], tDestroy 1 1 [3, 4], tDestroy 1 2 [0, 0, 0x10000000000]].all fun c =>
      decide ((mboxOf (tServe 64 c).dev 64).st = .stepping ∧ (mboxOf (tServe 64 c).dev 64).cmd = some c ∧ c.running = true ∧ c.work = none ∧
        c.noPolder = false)) = true ∧ NMap.find? tDevice.polders 1 = some tPol ∧ NMap.find? tDevice.polders 5 = none ∧ windowGib tPol = [0x10000000000] ∧
    tDevice.resets = [] ∧ (tDestroy 1 1 []).word 0 = 1 := by decide +kernel

/-- A state with a command at the front of its queue. -/
def tPending : State := { State.reset with pending := [.powerOn] }
theorem wit_StepsRunCommands : tPending.pending = .powerOn :: [] := rfl
/-- A state in the ranges of the always-on domain, at their ends, and the step it takes. -/
def tAonEdge : State := { State.reset with aon := { lims := [(3, 1200)], quiet := [(4, 10)], cap := 1500, cond := 2, cause := 3 } }
theorem wit_AlwaysOnKept : tAonEdge.aon.Ok ∧ step tAonEdge = .next tAonEdge := by
  refine ⟨⟨fun c => ?_, fun c => ?_, by decide, by decide, by decide⟩, rfl⟩
  · by_cases h : c = 3
    · subst h; decide
    · have : limOf tAonEdge.aon c = 2700 := by simp [limOf, tAonEdge, NMap.get, NMap.find?, h]
      omega
  · by_cases h : c = 4
    · subst h; decide
    · have : NMap.get tAonEdge.aon.quiet 0 c = 0 := by simp [tAonEdge, NMap.get, NMap.find?, h]
      omega
/-- A licence in front of the queue. -/
theorem wit_FusesOnlyRise : ({ State.reset with pending := [.licence 64] } : State).pending = .licence 64 :: [] := rfl
/-- A column without a bad row, with two, and with a bad spare. -/
theorem wit_ColumnRepair : (16 ∉ ([] : List Nat)) ∧ (16 ∉ [4, 9] ∧ (List.range 16).filter (· ∈ [4, 9]) = 4 :: [9]) ∧ 16 ∈ [4, 16] ∧
    (columnRepair [4, 9]).2 = [8] ∧ (columnRepair [4, 16]).2 = [4] ∧ (8 ∉ (columnRepair []).2) := by decide
/-- An empty queue idles. -/
theorem test_idle : step State.reset = .next State.reset := rfl
/-- R240, R241: the registers of ports and paths at reset; a port after training. -/
theorem test_port_registers : levpStat State.reset.dev 3 = 0x00000FF0 ∧ tidPstat State.reset.dev 0 = 0 ∧
    levpStat (setBlk (onPort State.reset.dev 4 fun p => { p with width := 3, dir := 2, nbr := 0x00081 }) 1 4 .on) 4 = 0x00081F2E := by
  decide +kernel

end Sys2Proof.Tests
end

section
/-! What a notice or an access of memory leaves of the reeve: everything but the numbers of notice rings and the interrupt
messages sent. It is said once for each operation, beside `OnlyMem`, which says nothing of the reeve. -/

namespace Sys2Proof.Machine

/-- Of the reeve, notice rings and interrupt messages alone change. -/
structure OnlyRings (d d' : Dev) : Prop where
  reeve : d'.reeve = { d.reeve with boxes := d'.reeve.boxes, irqs := d'.reeve.irqs }
  boxes : ∀ m, { mboxOf d' m with ring := none } = { mboxOf d m with ring := none }

theorem OnlyRings.of_reeve {d d' : Dev} (h : d'.reeve = d.reeve) : OnlyRings d d' :=
  ⟨by rw [h], fun m => by rw [mboxOf, h, mboxOf]⟩

theorem OnlyRings.refl (d : Dev) : OnlyRings d d := .of_reeve rfl

theorem OnlyRings.trans {d e f : Dev} (h : OnlyRings d e) (h' : OnlyRings e f) : OnlyRings d f :=
  ⟨by rw [h'.reeve, h.reeve], fun m => (h'.boxes m).trans (h.boxes m)⟩

theorem OnlyRings.after {d e f : Dev} (h : OnlyRings e f) (he : e.reeve = d.reeve) : OnlyRings d f := (of_reeve he).trans h

theorem OnlyRings.ready {d d' : Dev} (h : OnlyRings d d') : d'.reeve.ready = d.reeve.ready := by rw [h.reeve]

theorem count_onlyRings (d : Dev) (k i ev n : Nat) (p : Option PolderNo) : OnlyRings d (count d k i ev n p) :=
  .of_reeve (count_reeve ..)

theorem hostWrite_onlyRings (d : Dev) (a : Nat) (bs : List Byte) : OnlyRings d ((hostWrite d a bs).getD d) := by
  unfold hostWrite; split <;> exact .of_reeve rfl

theorem onMbox_ring_onlyRings (d : Dev) (m : Nat) (r : Option Ring) : OnlyRings d (onMbox d m fun b => { b with ring := r }) := by
  refine ⟨rfl, fun n => ?_⟩
  by_cases h : n = m
  · subst h; rw [mboxOf_onMbox]
  · rw [mboxOf_onMbox_ne d _ h]

theorem noticeTo_onlyRings (d : Dev) (m k : Nat) (p : Option PolderNo) (j : BitVec 16) (c : Code) (i : Nat) :
    OnlyRings d (noticeTo d m k p j c i) := by
  unfold noticeTo; split
  · exact count_onlyRings ..
  · exact ((onMbox_ring_onlyRings ..).trans (hostWrite_onlyRings ..)).trans ⟨rfl, fun _ => rfl⟩

theorem foldl_onlyRings {α : Type} (f : Dev → α → Dev) (h : ∀ d x, OnlyRings d (f d x)) (l : List α) (d : Dev) :
    OnlyRings d (l.foldl f d) := by
  induction l generalizing d with
  | nil => exact .refl d
  | cons x l ih => exact (h d x).trans (ih (f d x))

theorem notice_onlyRings (d : Dev) (k : Nat) (p : Option PolderNo) (c : Code) (i : Nat) : OnlyRings d (notice d k p c i) := by
  unfold notice
  dsimp only
  split
  · exact count_onlyRings ..
  · exact foldl_onlyRings _ (fun d m => noticeTo_onlyRings d m k p _ c i) _ d

/-! ### Memory -/

theorem eccNote_reeve (d : Dev) (acc : Acc) (k a kind : Nat) : (eccNote d acc k a kind).reeve = d.reeve := by
  unfold eccNote eccCount
  dsimp only
  split
  · exact count_reeve ..
  · split
    · exact count_reeve ..
    · rfl

theorem exhausted_onlyRings (d : Dev) (acc : Acc) (k a : Nat) : OnlyRings d (exhausted d acc k a) :=
  (notice_onlyRings ..).after rfl

theorem markRow_onlyRings (d : Dev) (acc : Acc) (k a : Nat) : OnlyRings d (markRow d acc k a) := by
  unfold markRow
  dsimp only
  split
  · exact exhausted_onlyRings ..
  split
  · split
    · exact .refl d
    split
    · exact .of_reeve rfl
    · exact exhausted_onlyRings ..
  · exact .refl d

theorem rowHit_onlyRings (d : Dev) (acc : Acc) (k a : Nat) : OnlyRings d (rowHit d acc k a) := by
  unfold rowHit
  dsimp only
  split
  · split
    · exact (markRow_onlyRings ..).after rfl
    · exact .of_reeve rfl
  · exact .refl d

theorem wordRead_onlyRings (d : Dev) (acc : Acc) (k a : Nat) : OnlyRings d (wordRead d acc k a).1 := by
  unfold wordRead
  split
  · exact .refl d
  · exact (rowHit_onlyRings ..).after (eccNote_reeve ..)
  · exact (rowHit_onlyRings ..).after (eccNote_reeve ..)
  · exact (markRow_onlyRings ..).after (eccNote_reeve ..)
  · exact (markRow_onlyRings ..).after (eccNote_reeve ..)
  · exact (rowHit_onlyRings ..).after (eccNote_reeve ..)
  · exact (rowHit_onlyRings ..).after (eccNote_reeve ..)
  · exact .of_reeve rfl

theorem wordWrite_onlyRings (d : Dev) (acc : Acc) (k a o : Nat) (bs : List Byte) : OnlyRings d (wordWrite d acc k a o bs) := by
  unfold wordWrite
  split
  · exact .of_reeve rfl
  · split
    · exact (markRow_onlyRings ..).after (eccNote_reeve ..)
    · exact .of_reeve rfl
    · exact .of_reeve rfl
    · exact (wordRead_onlyRings ..).trans (.of_reeve rfl)

theorem wordsWrite_onlyRings (d : Dev) (acc : Acc) (n a : Nat) (bs : List Byte) : OnlyRings d (wordsWrite d acc n a bs) := by
  induction n generalizing d a bs with
  | zero => exact .refl d
  | succ n ih =>
    unfold wordsWrite
    split
    · exact .refl d
    · dsimp only
      split
      · exact .refl d
      · exact (wordWrite_onlyRings ..).trans (ih ..)

theorem memWrite_onlyRings (d : Dev) (acc : Acc) (a : Nat) (bs : List Byte) : OnlyRings d (memWrite d acc a bs).1 := by
  unfold memWrite
  split
  · exact .refl d
  · split
    · exact .refl d
    · exact wordsWrite_onlyRings ..

end Sys2Proof.Machine
end

section
/-! The words of a mailbox that a command's end zeroes (R392, R401). -/

namespace Sys2Proof.Machine

theorem NMap.find_clear {α : Type} (m : NMap α) (lo hi k : Nat) :
    NMap.find? (NMap.clear m lo hi) k = if lo ≤ k ∧ k < hi then none else NMap.find? m k := by
  induction m with
  | nil => simp [NMap.clear]
  | cons e t ih =>
    obtain ⟨j, v⟩ := e
    unfold NMap.clear at ih ⊢
    by_cases hj : j < lo ∨ hi ≤ j
    · rw [List.filter_cons_of_pos (by simpa using hj), NMap.find_cons, NMap.find_cons, ih]
      grind
    · rw [List.filter_cons_of_neg (by simpa using hj), ih, NMap.find_cons]
      grind

theorem NMap.get_clear {α : Type} (m : NMap α) (x : α) (lo hi k : Nat) :
    NMap.get (NMap.clear m lo hi) x k = if lo ≤ k ∧ k < hi then x else NMap.get m x k := by
  unfold NMap.get
  rw [NMap.find_clear]
  split <;> rfl

/-- KEY_LOAD's first 16 words and LEGACY_KEY's first 10 read zero; every other word stays. -/
theorem get_wipeWords (cmd : Nat) (ws : NMap W32) (k : Nat) :
    NMap.get (wipeWords cmd ws) 0 k =
      if (cmd = 0x0803 ∧ k < 16) ∨ (cmd = 0x0807 ∧ k < 10) then 0 else NMap.get ws 0 k := by
  unfold wipeWords
  by_cases h3 : cmd = 0x0803
  · simp [h3, NMap.get_clear]
  by_cases h7 : cmd = 0x0807
  · simp [h7, NMap.get_clear]
  · simp [h3, h7]

theorem NMap.get_set {α : Type} [DecidableEq α] (m : NMap α) (d : α) (a : Nat) (x : α) (k : Nat) :
    NMap.get (NMap.set m d a x) d k = if k = a then x else NMap.get m d k := by
  by_cases h : k = a
  · subst h; simp
  · simp [h]

end Sys2Proof.Machine
end

section
/-! The end of a command (R421): what it touches, and how its mailbox stands afterwards. -/

namespace Sys2Proof.Machine

theorem cmdTally_onlyMem (d : Dev) (c : Cmd) (e : OpEnd) (fin : Bool) (marker : Nat) : OnlyMem d (cmdTally d c e fin marker).1 := by
  unfold cmdTally
  dsimp only
  split
  · exact memWrite_onlyMem ..
  · have h := hostWrite_onlyMem d c.tally (tallyBytes c.seq e fin marker {})
    split
    · rename_i hw; rwa [hw] at h
    · exact .refl d

theorem cmdTally_onlyRings (d : Dev) (c : Cmd) (e : OpEnd) (fin : Bool) (marker : Nat) : OnlyRings d (cmdTally d c e fin marker).1 := by
  unfold cmdTally
  dsimp only
  split
  · exact memWrite_onlyRings ..
  · have h := hostWrite_onlyRings d c.tally (tallyBytes c.seq e fin marker {})
    split
    · rename_i hw; rwa [hw] at h
    · exact .refl d

/-- A tally is written to device memory always, and to host memory where the IHA accepts it. -/
theorem cmdTally_ok {d : Dev} {c : Cmd} (e : OpEnd) (fin : Bool) (marker : Nat) (h : c.tloc = true ∨ hostOk d c.tally 32 = true) :
    (cmdTally d c e fin marker).2 = true := by
  have hl : (tallyBytes c.seq e fin marker {}).length = 32 := toBytes_length ..
  unfold cmdTally hostWrite
  by_cases ht : c.tloc = true
  · simp [ht]
  · simp [ht, hl, h.resolve_left ht]

/-- The registers at a command's end, the words and the ring as they stand; ok says that no tally write was refused. -/
def boxResult (c : Cmd) (e : OpEnd) (res : List W32) (ok : Bool) (b : Mbox) : Mbox :=
  let status : Code := if ok && !c.lostTally then e.status else 0x010A
  { b with
    status := status, tstate := BitVec.ofNat 8 e.st.code, fin := true, rseq := c.seq, res := res
    progress := BitVec.ofNat 16 c.done, total := BitVec.ofNat 16 c.total
    words := wipeWords c.cmd b.words
    st := if status = 0 then .done else .failed
    cmd := none }

/-- The device and whether the tally was accepted, after the tally of a command's end. -/
def endTally (d : Dev) (c : Cmd) (e : OpEnd) (tally : Bool) : Dev × Bool :=
  if tally then cmdTally d c e true (if e.st = .notStarted then 0 else c.done) else (d, true)

/-- The device before the notice of a command's end. -/
def endBox (d : Dev) (m : Nat) (c : Cmd) (e : OpEnd) (res : List W32) (tally : Bool) : Dev :=
  leaveReady (onMbox (endTally d c e tally).1 m (boxResult c e res (endTally d c e tally).2)) m

/-- An end is the tally, the result and the state, then the notice, in that order (R421). -/
theorem endCmd_eq (d : Dev) (m : Nat) (c : Cmd) (e : OpEnd) (res : List W32) (tally : Bool) :
    endCmd d m c e res tally =
      if c.notify then
        notice (endBox d m c e res tally) 0 (mboxPolder (endTally d c e tally).1 m)
          (if (endTally d c e tally).2 && !c.lostTally then e.status else 0x010A) (m <<< 96 + c.seq.toNat <<< 128)
      else endBox d m c e res tally := rfl

theorem endTally_onlyMem (d : Dev) (c : Cmd) (e : OpEnd) (tally : Bool) : OnlyMem d (endTally d c e tally).1 := by
  unfold endTally; split
  · exact cmdTally_onlyMem ..
  · exact .refl d

theorem endTally_onlyRings (d : Dev) (c : Cmd) (e : OpEnd) (tally : Bool) : OnlyRings d (endTally d c e tally).1 := by
  unfold endTally; split
  · exact cmdTally_onlyRings ..
  · exact .refl d

theorem endBox_onlyMem (d : Dev) (m : Nat) (c : Cmd) (e : OpEnd) (res : List W32) (tally : Bool) :
    OnlyMem d (endBox d m c e res tally) :=
  ((endTally_onlyMem ..).trans (onMbox_onlyMem ..)).trans (onReeve_onlyMem _ fun r => { r with ready := r.ready.filter (· ≠ m) })

theorem endCmd_onlyMem (d : Dev) (m : Nat) (c : Cmd) (e : OpEnd) (res : List W32) (tally : Bool) :
    OnlyMem d (endCmd d m c e res tally) := by
  rw [endCmd_eq]; split
  · exact (endBox_onlyMem ..).trans (notice_onlyMem ..)
  · exact endBox_onlyMem ..

theorem endBox_endCmd_onlyRings (d : Dev) (m : Nat) (c : Cmd) (e : OpEnd) (res : List W32) (tally : Bool) :
    OnlyRings (endBox d m c e res tally) (endCmd d m c e res tally) := by
  rw [endCmd_eq]; split
  · exact notice_onlyRings ..
  · exact .refl _

/-- An end whose tally is accepted leaves no trace of the ring the mailbox had. -/
theorem boxResult_ended {c : Cmd} (hl : c.lostTally = false) (e : OpEnd) (res : List W32) {b b' : Mbox}
    (h : { b' with ring := none } = { b with ring := none }) :
    { boxResult c e res true b' with ring := none } = boxEnded b c e.st e.status res := by
  simp only [Mbox.mk.injEq] at h
  simp [boxResult, boxEnded, hl, h]

/-- The mailbox of a command that has ended, with its tally accepted. -/
theorem mboxOf_endCmd {d : Dev} {c : Cmd} (m : Nat) (e : OpEnd) (res : List W32) {tally : Bool} (hl : c.lostTally = false)
    (ht : tally = true → c.tloc = true ∨ hostOk d c.tally 32 = true) :
    { mboxOf (endCmd d m c e res tally) m with ring := none } = boxEnded (mboxOf d m) c e.st e.status res := by
  have hok : (endTally d c e tally).2 = true := by
    unfold endTally
    split
    · rename_i h; exact cmdTally_ok _ _ _ (ht h)
    · rfl
  have hbox : mboxOf (endBox d m c e res tally) m = boxResult c e res true (mboxOf (endTally d c e tally).1 m) := by
    rw [← hok]; exact mboxOf_onMbox ..
  rw [(endBox_endCmd_onlyRings ..).boxes, hbox]
  exact boxResult_ended hl e res ((endTally_onlyRings ..).boxes m)

end Sys2Proof.Machine
end

section
/-! The host's writes, go and cancel (R17, R417): one equation per function and state of the mailbox. -/

namespace Sys2Proof.Machine

theorem exec_mbxCmdWrite (m : MboxNo) (word : Fin 48) (v : W32) (s : State) :
    exec (.mbxCmdWrite m word v) s = .next { s with dev := mbxCmdWrite s.dev m.val word.val v } := rfl
theorem exec_mbxSeqWrite (m : MboxNo) (v : W32) (s : State) :
    exec (.mbxSeqWrite m v) s = .next { s with dev := mbxSeqWrite s.dev m.val v } := rfl
theorem exec_mbxGo (m : MboxNo) (rest : BitVec 30) (s : State) :
    exec (.mbxGo m rest) s = .next { s with dev := mbxGo s.dev m.val rest } := rfl
theorem exec_mbxCancel (m : MboxNo) (rest : BitVec 30) (s : State) :
    exec (.mbxCancel m rest) s = .next { s with dev := mbxCancel s.dev m.val rest } := rfl

/-! ### Outcomes of one mailbox -/

theorem boxBecomes_onMbox (s : State) (d : Dev) (m : Nat) (f : Mbox → Mbox) (g : List Nat → List Nat) :
    BoxBecomes s d m (f (mboxOf d m)) (g d.reeve.ready)
      (.next { s with dev := onReeve (onMbox d m f) fun r => { r with ready := g r.ready } }) :=
  ⟨_, rfl, ⟨rfl, rfl, rfl⟩, rfl, fun _ hn => mboxOf_onMbox_ne d f hn, mboxOf_onMbox d m f⟩

theorem boxBecomes_onMbox_same (s : State) (d : Dev) (m : Nat) (f : Mbox → Mbox) :
    BoxBecomes s d m (f (mboxOf d m)) d.reeve.ready (.next { s with dev := onMbox d m f }) :=
  boxBecomes_onMbox s d m f id

/-- A mailbox's change depends on the mailbox as it stands alone. -/
theorem onMbox_congr {d : Dev} {m : Nat} {f g : Mbox → Mbox} (h : f (mboxOf d m) = g (mboxOf d m)) : onMbox d m f = onMbox d m g :=
  congrArg (fun b => onReeve d fun r => { r with boxes := NMap.set r.boxes {} m b }) h

/-! ### Reserved bits -/

theorem counted_onlyMem (d : Dev) (bad : Prop) [Decidable bad] : OnlyMem d (counted d bad) := by
  unfold counted; split
  · exact count_onlyMem ..
  · exact .refl d

@[simp] theorem counted_reeve (d : Dev) (bad : Prop) [Decidable bad] : (counted d bad).reeve = d.reeve := by
  unfold counted; split
  · exact count_reeve ..
  · rfl

@[simp] theorem mboxOf_counted (d : Dev) (bad : Prop) [Decidable bad] (m : Nat) : mboxOf (counted d bad) m = mboxOf d m := by
  rw [mboxOf, counted_reeve, mboxOf]

@[simp] theorem counted_mem (d : Dev) (bad : Prop) [Decidable bad] : (counted d bad).mem = d.mem := by
  unfold counted; split
  · exact count_mem ..
  · rfl

theorem counted_ne {α : Type} [DecidableEq α] (d : Dev) (x y : α) : counted d (x ≠ y) = if x = y then d else ignoredWrite d := by
  simp [counted]

/-! ### The functions -/

theorem open_iff (st : MbxSt) : st.open_ = true ↔ st = .empty ∨ st = .held ∨ st = .done ∨ st = .failed := by
  cases st <;> decide

theorem closed_iff (st : MbxSt) : st.open_ = false ↔ st = .queued ∨ st = .stepping ∨ st = .deferred := by
  cases st <;> decide

theorem mask_eq_cmdWordMask (word : Fin 48) :
    (if word = 44 then 0x0003FFFF else if word = 47 then 0 else 0xFFFFFFFF : W32) = cmdWordMask word.val := by
  simp [cmdWordMask, Fin.ext_iff]

section
variable {d : Dev} {m : Nat}

theorem mbxCmdWrite_open (word : Nat) (v : W32) (h : (mboxOf d m).st.open_ = true) :
    mbxCmdWrite d m word v = onMbox (counted d (v &&& cmdWordMask word ≠ v)) m fun b =>
      { b with words := NMap.set b.words 0 word (v &&& cmdWordMask word), st := .held } := by
  rw [mbxCmdWrite, if_pos h, counted_ne]

theorem mbxCmdWrite_closed (word : Nat) (v : W32) (h : (mboxOf d m).st.open_ = false) :
    mbxCmdWrite d m word v = onMbox d m mbxIgnore := by
  simp [mbxCmdWrite, h]

theorem mbxSeqWrite_open (v : W32) (h : (mboxOf d m).st.open_ = true) :
    mbxSeqWrite d m v = onMbox d m fun b => { b with seq := v, st := .held } := by
  refine onMbox_congr ?_
  rw [if_pos h]

theorem mbxSeqWrite_closed (v : W32) (h : (mboxOf d m).st.open_ = false) : mbxSeqWrite d m v = onMbox d m mbxIgnore := by
  refine onMbox_congr ?_
  rw [if_neg (by simp [h])]

theorem mbxGo_owned (rest : BitVec 30) (h : (mboxOf d m).st.open_ = true) (ho : (mboxOf d m).owner ≠ none ∨ m = 64) :
    mbxGo d m rest = onReeve
      (onMbox (counted d (rest ≠ 0)) m fun b =>
        { b with ign := 0, progress := 0, total := 0, status := 0, tstate := 0, fin := false, rseq := 0, res := [], st := .queued })
      fun r => { r with ready := r.ready ++ [m] } := by
  have hn : ¬ ((mboxOf d m).owner = none ∧ m ≠ 64) := fun hn => ho.elim (· hn.1) hn.2
  rw [mbxGo, if_pos h, if_neg hn, counted_ne]

theorem mbxGo_unowned (rest : BitVec 30) (h : (mboxOf d m).st.open_ = true) (ho : (mboxOf d m).owner = none) (hm : m ≠ 64) :
    mbxGo d m rest = onMbox (counted d (rest ≠ 0)) m fun b =>
      { b with ign := 0, progress := 0, total := 0, status := 0x0104, tstate := 0, fin := true, rseq := b.seq, res := [],
               st := .failed } := by
  rw [mbxGo, if_pos h, if_pos ⟨ho, hm⟩, counted_ne]

theorem mbxGo_closed (rest : BitVec 30) (h : (mboxOf d m).st.open_ = false) : mbxGo d m rest = onMbox d m mbxIgnore := by
  simp [mbxGo, h]

theorem mbxCancel_queued (rest : BitVec 30) (h : (mboxOf d m).st = .queued) :
    mbxCancel d m rest = onReeve
      (onMbox (counted d (rest ≠ 0)) m fun b =>
        { b with st := .failed, status := 0x0105, fin := true, rseq := b.seq, words := wipeWords (copyCmd b).cmd b.words })
      fun r => { r with ready := r.ready.filter (· ≠ m) } := by
  rw [mbxCancel, h, counted_ne]

theorem mbxCancel_deferred {c : Cmd} (rest : BitVec 30) (h : (mboxOf d m).st = .deferred) (hc : (mboxOf d m).cmd = some c) :
    mbxCancel d m rest = endCmd (dropEnable (counted d (rest ≠ 0)) m) m c ⟨.notStarted, 0x0105⟩ [] true := by
  rw [mbxCancel, h, hc, counted_ne]

theorem mbxCancel_other (rest : BitVec 30) (h : (mboxOf d m).st ≠ .queued) (h' : (mboxOf d m).st ≠ .deferred) :
    mbxCancel d m rest = onMbox d m mbxIgnore := by
  unfold mbxCancel
  split
  · contradiction
  · contradiction
  · rfl

end

end Sys2Proof.Machine
end

section
/-! O30, by what the host does: what takes effect, what is ignored, and the two forms of cancel. -/

namespace Sys2Proof.Machine

section
variable (m : MboxNo) (s : State) (rest : BitVec 30)

/-- R417: what is ignored changes nothing but ign, which stops at 0xFFFF. -/
theorem boxBecomes_ignored : BoxBecomes s s.dev m.val
    { mboxOf s.dev m.val with ign := if (mboxOf s.dev m.val).ign = 0xFFFF then 0xFFFF else (mboxOf s.dev m.val).ign + 1 }
    s.dev.reeve.ready (.next { s with dev := onMbox s.dev m.val mbxIgnore }) := by
  have h : mbxIgnore (mboxOf s.dev m.val) =
      { mboxOf s.dev m.val with ign := if (mboxOf s.dev m.val).ign = 0xFFFF then 0xFFFF else (mboxOf s.dev m.val).ign + 1 } := by
    unfold mbxIgnore
    split
    · rename_i h; rw [h]
    · rfl
  rw [← h]
  exact boxBecomes_onMbox_same s s.dev m.val mbxIgnore

/-- The same where reserved bits of the write are counted (R17). -/
theorem boxBecomes_counted (bad : Prop) [Decidable bad] (f : Mbox → Mbox) (g : List Nat → List Nat) :
    BoxBecomes s (counted s.dev bad) m.val (f (mboxOf s.dev m.val)) (g s.dev.reeve.ready)
      (.next { s with dev := onReeve (onMbox (counted s.dev bad) m.val f) fun r => { r with ready := g r.ready } }) := by
  have h := boxBecomes_onMbox s (counted s.dev bad) m.val f g
  rwa [mboxOf_counted, counted_reeve] at h

theorem mbxCmdWrite_becomes (word : Fin 48) (v : W32) (h : (mboxOf s.dev m.val).st.open_ = true) :
    ∃ ws, (∀ k, NMap.get ws 0 k = if k = word.val then v &&& cmdWordMask word.val else NMap.get (mboxOf s.dev m.val).words 0 k) ∧
      BoxBecomes s (counted s.dev (v &&& cmdWordMask word.val ≠ v)) m.val { mboxOf s.dev m.val with words := ws, st := .held }
        s.dev.reeve.ready (exec (.mbxCmdWrite m word v) s) := by
  refine ⟨_, NMap.get_set (mboxOf s.dev m.val).words 0 word.val (v &&& cmdWordMask word.val), ?_⟩
  rw [exec_mbxCmdWrite, mbxCmdWrite_open _ _ h]
  exact boxBecomes_counted m s _
    (fun b => { b with words := NMap.set b.words 0 word.val (v &&& cmdWordMask word.val), st := .held }) id

theorem mbxSeqWrite_becomes (v : W32) (h : (mboxOf s.dev m.val).st.open_ = true) :
    BoxBecomes s s.dev m.val { mboxOf s.dev m.val with seq := v, st := .held } s.dev.reeve.ready (exec (.mbxSeqWrite m v) s) := by
  rw [exec_mbxSeqWrite, mbxSeqWrite_open _ h]
  exact boxBecomes_onMbox_same s s.dev m.val fun b => { b with seq := v, st := .held }

/-- R417: a QUEUED command is withdrawn without a tally; a key's words are zeroed. -/
theorem mbxCancel_queued_becomes (h : (mboxOf s.dev m.val).st = .queued) :
    BoxBecomes s (counted s.dev (rest ≠ 0)) m.val
      { mboxOf s.dev m.val with st := .failed, status := 0x0105, fin := true, rseq := (mboxOf s.dev m.val).seq,
                                words := wipeWords (copyCmd (mboxOf s.dev m.val)).cmd (mboxOf s.dev m.val).words }
      (s.dev.reeve.ready.filter (· ≠ m.val)) (exec (.mbxCancel m rest) s) := by
  rw [exec_mbxCancel, mbxCancel_queued _ h]
  exact boxBecomes_counted m s (rest ≠ 0)
    (fun b => { b with st := .failed, status := 0x0105, fin := true, rseq := b.seq, words := wipeWords (copyCmd b).cmd b.words })
    (·.filter (· ≠ m.val))

end

/-- R417, R467: a DEFERRED command ends with its tally, and its pending enable is withdrawn. -/
theorem mbxCancel_deferred_ends {m : MboxNo} {s : State} {c : Cmd} (rest : BitVec 30) (h : (mboxOf s.dev m.val).st = .deferred)
    (hc : (mboxOf s.dev m.val).cmd = some c) : ∃ s', exec (.mbxCancel m rest) s = .next s' ∧ DevAlone s s' ∧
      (hostOk s.dev c.tally 32 = true → c.lostTally = false →
        { mboxOf s'.dev m.val with ring := none } = boxEnded (mboxOf s.dev m.val) c .notStarted 0x0105 []) ∧
      (∀ e ∈ s'.dev.blocks.deferred, e.1 ≠ m.val) ∧
      (∀ e, e.1 ≠ m.val → (e ∈ s'.dev.blocks.deferred ↔ e ∈ s.dev.blocks.deferred)) ∧
      s'.dev.blocks.st = s.dev.blocks.st ∧ s'.dev.tiles = s.dev.tiles ∧ s'.dev.polders = s.dev.polders := by
  have hm := counted_onlyMem s.dev (rest ≠ 0)
  have he := endCmd_onlyMem (dropEnable (counted s.dev (rest ≠ 0)) m.val) m.val c ⟨.notStarted, 0x0105⟩ [] true
  rw [exec_mbxCancel, mbxCancel_deferred rest h hc]
  refine ⟨_, rfl, ⟨rfl, rfl, rfl⟩, fun ht hl => ?_, ?_⟩
  · have hbox : mboxOf (dropEnable (counted s.dev (rest ≠ 0)) m.val) m.val = mboxOf s.dev m.val := mboxOf_counted ..
    have hhost : hostOk (dropEnable (counted s.dev (rest ≠ 0)) m.val) c.tally 32 = true := by
      rw [← ht]
      exact congrArg (fun x : MemSys => x.hostErr.all _) (counted_mem ..)
    rw [mboxOf_endCmd m.val _ _ hl fun _ => .inr hhost, hbox]
  · dsimp only
    rw [he, hm]
    simp +contextual [dropEnable]

/-- Settles O30: per state of the mailbox, the equation of the host's function gives the outcome. -/
theorem mailboxWrites : Obligations.MailboxWrites := by
  unfold Obligations.MailboxWrites
  refine ⟨fun m s rest => ⟨fun h => ?_, fun h => ?_⟩, fun m s rest => ⟨fun h => ?_, fun c h hc => ?_, fun h h' => ?_⟩⟩
  · have ho := (open_iff _).2 h
    refine ⟨fun word v => ?_, fun v => mbxSeqWrite_becomes m s v ho, fun how => ?_, fun how hm => ?_⟩
    · simp only [mask_eq_cmdWordMask]
      exact mbxCmdWrite_becomes m s word v ho
    · rw [exec_mbxGo, mbxGo_owned _ ho how]
      exact boxBecomes_counted m s (rest ≠ 0) (fun b =>
        { b with ign := 0, progress := 0, total := 0, status := 0, tstate := 0, fin := false, rseq := 0, res := [], st := .queued })
        (· ++ [m.val])
    · rw [exec_mbxGo, mbxGo_unowned _ ho how hm]
      exact boxBecomes_counted m s (rest ≠ 0) (fun b =>
        { b with ign := 0, progress := 0, total := 0, status := 0x0104, tstate := 0, fin := true, rseq := b.seq, res := [],
                 st := .failed }) id
  · have hc := (closed_iff _).2 h
    refine ⟨fun word v => ?_, fun v => ?_, ?_⟩
    · rw [exec_mbxCmdWrite, mbxCmdWrite_closed _ _ hc]
      exact boxBecomes_ignored m s
    · rw [exec_mbxSeqWrite, mbxSeqWrite_closed _ hc]
      exact boxBecomes_ignored m s
    · rw [exec_mbxGo, mbxGo_closed _ hc]
      exact boxBecomes_ignored m s
  · exact ⟨_, get_wipeWords _ _, mbxCancel_queued_becomes m s rest h⟩
  · exact mbxCancel_deferred_ends rest h hc
  · rw [exec_mbxCancel, mbxCancel_other _ h h']
    exact boxBecomes_ignored m s

end Sys2Proof.Machine
end

section
/-! The spare row of a column (R23, R442): the record and the absent rows by the state of the spare, each stated once. -/

namespace Sys2Proof.Machine

/-- The bad rows of a column beside its spare, lowest first. -/
def badRows (bad : List Nat) : List Nat := (List.range 16).filter (· ∈ bad)

theorem mem_badRows {bad : List Nat} {p : Nat} : p ∈ badRows bad ↔ p < 16 ∧ p ∈ bad := by simp [badRows]

theorem badRows_sorted (bad : List Nat) : (badRows bad).Pairwise (· < ·) := List.Pairwise.filter _ List.pairwise_lt_range

theorem filter_contains_eq_badRows (bad : List Nat) : (List.range 16).filter bad.contains = badRows bad :=
  List.filter_congr fun p _ => List.contains_eq_mem p bad

/-- The spare row is bad: it replaces none, and every bad row is absent where it lies. -/
theorem columnRepair_badSpare {bad : List Nat} (h : 16 ∈ bad) :
    columnRepair bad = (31 + (badRows bad).headD 31 <<< 5 + (badRows bad).headD 31 <<< 10, badRows bad) := by
  rw [columnRepair, filter_contains_eq_badRows]
  cases badRows bad <;> simp [h]

/-- No row is bad. -/
theorem columnRepair_none {bad : List Nat} (h : 16 ∉ bad) (hr : badRows bad = []) :
    columnRepair bad = (31 + 31 <<< 5 + 31 <<< 10, []) := by
  rw [columnRepair, filter_contains_eq_badRows, hr]
  simp [h]

/-- The spare row replaces the lowest bad row p; the rows above it move down by one. -/
theorem columnRepair_spare {bad : List Nat} (h : 16 ∉ bad) {p : Nat} {rest : List Nat} (hr : badRows bad = p :: rest) :
    columnRepair bad = (p + rest.headD 31 <<< 5 + (rest.map (· - 1)).headD 31 <<< 10, rest.map (· - 1)) := by
  have hp : p < 16 := (mem_badRows.1 (hr ▸ List.mem_cons_self)).1
  have hlow : ∀ q ∈ rest, p < q := (List.pairwise_cons.1 (hr ▸ badRows_sorted bad)).1
  rw [columnRepair, filter_contains_eq_badRows, hr]
  cases rest with
  | nil => simp [h]
  | cons q rest =>
    have hq : p < q := hlow q List.mem_cons_self
    have hrest : ∀ x ∈ rest, p < x := fun x hx => hlow x (List.mem_cons_of_mem _ hx)
    simp +contextual [h, hq, hrest, show p ≠ 31 by omega]

/-- The three fields of a spare record. -/
theorem spareRecord_fields {f a l : Nat} (hf : f < 32) (ha : a < 32) :
    (f + a <<< 5 + l <<< 10) % 32 = f ∧ (f + a <<< 5 + l <<< 10) / 32 % 32 = a ∧ (f + a <<< 5 + l <<< 10) / 1024 = l := by
  simp only [Nat.shiftLeft_eq]
  omega

theorem headD_badRows_lt {l bad : List Nat} (h : ∀ p ∈ l, p ∈ badRows bad) : l.headD 31 < 32 := by
  cases l with
  | nil => decide
  | cons p l =>
    have := (mem_badRows.1 (h p List.mem_cons_self)).1
    exact Nat.lt_trans this (by decide)

/-- A logical row that is not absent lies on a good physical row: below the replaced row on itself, from there on one above. -/
theorem moved_row_good {bad : List Nat} (h : 16 ∉ bad) {p : Nat} {rest : List Nat} (hr : badRows bad = p :: rest) {l : Nat}
    (hl : l < 16) (hn : l ∉ rest.map (· - 1)) : (if l < p then l else l + 1) ∉ bad := by
  have hmem : ∀ q, q < 16 → q ∈ bad → q = p ∨ q ∈ rest := fun q hq hb => List.mem_cons.1 (hr ▸ mem_badRows.2 ⟨hq, hb⟩)
  have hlow : ∀ q ∈ rest, p < q := (List.pairwise_cons.1 (hr ▸ badRows_sorted bad)).1
  split
  · rename_i hlt
    intro hb
    rcases hmem l hl hb with rfl | hq
    · omega
    · have := hlow l hq; omega
  · rename_i hge
    intro hb
    have hlt : l + 1 < 16 := by
      rcases Nat.lt_or_ge (l + 1) 16 with h' | h'
      · exact h'
      · exact absurd (show l + 1 = 16 by omega) fun e => h (e ▸ hb)
    rcases hmem (l + 1) hlt hb with e | hq
    · omega
    · exact hn (List.mem_map.2 ⟨l + 1, hq, by omega⟩)

end Sys2Proof.Machine

namespace Sys2Proof
open Machine

/-- Settles O43: a bad spare, no bad row, or a lowest bad row that the spare replaces. -/
theorem columnRepair : Obligations.ColumnRepair := by
  unfold Obligations.ColumnRepair
  intro bad
  dsimp only
  rw [← badRows]
  by_cases h : 16 ∈ bad
  · obtain ⟨hf, ha, hl⟩ := spareRecord_fields (f := 31) (l := (badRows bad).headD 31) (by decide) (headD_badRows_lt fun _ => id)
    rw [columnRepair_badSpare h]
    refine ⟨fun _ => ⟨hf, rfl⟩, fun h' => absurd h h', fun h' => absurd h h', fun l hlt hn => ?_, ?_, hl⟩
    · rw [if_pos (.inl hf)]
      exact fun hb => hn (mem_badRows.2 ⟨hlt, hb⟩)
    · rw [if_pos h]
      exact ha
  · cases hr : badRows bad with
    | nil =>
      rw [columnRepair_none h hr]
      refine ⟨fun h' => absurd h' h, fun _ _ => ⟨rfl, rfl⟩, fun _ p rest e => (nomatch e), fun l hlt _ => ?_, ?_, rfl⟩
      · rw [if_pos (.inl rfl)]
        exact fun hb => List.not_mem_nil (hr ▸ mem_badRows.2 ⟨hlt, hb⟩)
      · rw [if_neg h]
        rfl
    | cons p rest =>
      have hp : p < 16 := (mem_badRows.1 (hr ▸ List.mem_cons_self)).1
      obtain ⟨hf, ha, hl⟩ := spareRecord_fields (f := p) (a := rest.headD 31) (l := (rest.map (· - 1)).headD 31) (by omega)
        (headD_badRows_lt fun q hq => hr ▸ List.mem_cons_of_mem p hq)
      rw [columnRepair_spare h hr]
      refine ⟨fun h' => absurd h' h, fun _ e => (nomatch e), fun _ q rest' e => ?_, fun l hlt hn => ?_, ?_, hl⟩
      · obtain ⟨rfl, rfl⟩ := List.cons.inj e
        exact ⟨hf, rfl⟩
      · rw [hf]
        simp only [show p ≠ 31 by omega, false_or]
        exact moved_row_good h hr hlt hn
      · rw [if_neg h]
        exact ha

end Sys2Proof
end

section
/-! A step of a command that reaches the key store (R30, R420): what its row answers when the mailbox serves the command. -/

namespace Sys2Proof.Machine

theorem takeStep_serves {s : State} {m : Nat} {c : Cmd} (h : Serves s m c) {ok : Cmd → Bool} (hok : ok c = true) :
    takeStep s.dev m ok = some (s.dev, c) := by
  simp [takeStep, h.cmd, h.stepping, h.running, h.fresh, hok]

/-- The row of a served command does the command's work in the key store and the device. -/
theorem cmdRowK_serves {s : State} {m : Nat} {c : Cmd} (h : Serves s m c) {ok : Cmd → Bool} (hok : ok c = true)
    (f : KeyStore → Dev → Cmd → KeyStore × Dev × Cmd) :
    onAll s (fun a ks d => cmdRowK a ks d m ok f) =
      .next { s with keys := (f s.keys s.dev c).1, dev := putCmd (f s.keys s.dev c).2.1 m (f s.keys s.dev c).2.2 } := by
  simp [cmdRowK, takeStep_serves h hok]

section
variable {s : State} {m code : Nat} {c : Cmd} {f : KeyStore → Dev → Cmd → KeyStore × Dev × Cmd}

theorem wide_row (h : Serves s m c) (hc : c.cmd = code) (hg : granted s.dev 3 = true) :
    onAll s (fun a ks d => cmdRowK a ks d m (isCmd code) (wide f)) =
      .next { s with keys := (f s.keys s.dev c).1, dev := putCmd (f s.keys s.dev c).2.1 m (f s.keys s.dev c).2.2 } := by
  rw [cmdRowK_serves h (by simp [isCmd, hc]), wide, if_pos hg]

/-- R30, R448: without the WIDE grant a command of family 0x08 is refused. -/
theorem wide_row_ungranted (h : Serves s m c) (hg : granted s.dev 3 = false) (hc : c.cmd = code) :
    Refused s m c 0x080A (onAll s fun a ks d => cmdRowK a ks d m (isCmd code) (wide f)) := by
  rw [cmdRowK_serves h (by simp [isCmd, hc]), wide, if_neg (by simp [hg])]
  rfl

theorem wide_row_refused {e : Code} (h : Serves s m c) (hc : c.cmd = code) (hg : granted s.dev 3 = true)
    (hf : f s.keys s.dev c = (s.keys, s.dev, c.refuse e)) :
    Refused s m c e (onAll s fun a ks d => cmdRowK a ks d m (isCmd code) (wide f)) := by
  rw [wide_row h hc hg, hf]
  rfl

theorem wide_row_succeeds {ks : KeyStore} {d : Dev} {res : List W32} (h : Serves s m c) (hc : c.cmd = code) (hg : granted s.dev 3 = true)
    (hf : f s.keys s.dev c = (ks, d, c.finish res)) :
    KeySucceeds s m c ks d res (onAll s fun a ks d => cmdRowK a ks d m (isCmd code) (wide f)) := by
  rw [wide_row h hc hg, hf]
  rfl

end

end Sys2Proof.Machine
end

section
/-! The key exchange (R390, R391): CIPHER_KEX and CIPHER_KEK, one equation per case. -/

namespace Sys2Proof.Machine

/-! ### An address in host memory, for a command without a polder -/

theorem cmdAddrOk_noPolder (d : Dev) {a align : Nat} (n : Nat) (h : a % align = 0) : cmdAddrOk d none a n align = true := by
  simp [cmdAddrOk, h]

theorem cmdWrite_noPolder {d : Dev} {a : Nat} {bs : List Byte} (h : hostOk d a bs.length = true) :
    cmdWrite d none a bs = ({ d with mem := { d.mem with host := Mem.writeN d.mem.host a bs } }, none) := by
  simp [cmdWrite, isDevAddr, hostWrite, h, onMem]

theorem Cmd.word2_eq (c : Cmd) (i : Nat) : c.word2 i = c.word i + 2 ^ 32 * c.word (i + 1) := by
  unfold Cmd.word2
  rw [Nat.shiftLeft_eq]
  omega

/-! ### CIPHER_KEX (R390) -/

section
variable {ks : KeyStore} {d : Dev} {c : Cmd} (hp : c.polder = none) (ha : c.word2 0 % 64 = 0)
include hp ha

/-- A pair that is held is not made again: its record is written once more. -/
theorem cipherKex_held {x : BitVec 256} (hx : ks.exch = some x) (hh : hostOk d (c.word2 0) ks.exchRec.length = true) :
    cipherKex ks d c =
      (ks, { d with mem := { d.mem with host := Mem.writeN d.mem.host (c.word2 0) ks.exchRec } }, c.finish) := by
  simp [cipherKex, hp, cmdAddrOk_noPolder d 128 ha, hx, cmdWrite_noPolder hh]

theorem cipherKex_new (hx : ks.exch = none) (hh : hostOk d (c.word2 0) (newExchange ks d).1.exchRec.length = true) :
    cipherKex ks d c =
      ((newExchange ks d).1,
        { d with free := d.free + 1, mem := { d.mem with host := Mem.writeN d.mem.host (c.word2 0) (newExchange ks d).1.exchRec } },
        c.finish) := by
  have hw := cmdWrite_noPolder (d := (newExchange ks d).2) hh
  simp only [cipherKex, hp, cmdAddrOk_noPolder d 128 ha, hx, Bool.not_true, Bool.false_eq_true, if_false, if_true, hw]
  rfl

end

/-! ### CIPHER_KEK (R391) -/

section
variable {ks : KeyStore} {c : Cmd} (d : Dev)

theorem cipherKek_noPair (hx : ks.exch = none) : cipherKek ks d c = (ks, d, c.refuse 0x0802) := by
  rw [cipherKek, hx]

variable {x : BitVec 256} (hx : ks.exch = some x)
include hx

theorem cipherKek_zero (hz : ofBytes (x25519 (toBytes 32 x.toNat) (c.bytes 0 32)) = 0) :
    cipherKek ks d c = (ks, d, c.refuse 0x0806) := by
  simp only [cipherKek, hx, hz, if_true]

theorem cipherKek_pair (hz : ofBytes (x25519 (toBytes 32 x.toNat) (c.bytes 0 32)) ≠ 0) :
    cipherKek ks d c =
      ({ ks with
          kek := some (BitVec.ofNat 256 (ofBytes (hkdf512 (x25519Public (toBytes 32 x.toNat) ++ c.bytes 0 32)
            (x25519 (toBytes 32 x.toNat) (c.bytes 0 32)) (ascii "GDF-2048 KEK" ++ idBytes d) 32)))
          exch := none, exchRec := [] }, d, c.finish) := by
  simp only [cipherKek, hx, hz, if_false]

end

/-- Settles O38: each row of family 0x08 without the grant, then the two exchange commands by whether a pair is held. -/
theorem keyExchange : Obligations.KeyExchange := by
  unfold Obligations.KeyExchange
  refine ⟨fun m s c h hg => ?_, fun m s c h hg => ?_⟩
  · refine ⟨?_, ?_, ?_, ?_, ?_, ?_, ?_⟩ <;> exact wide_row_ungranted h hg
  · dsimp only
    rw [← Cmd.word2_eq c 0]
    refine ⟨fun hc hp ha => ⟨fun x hx hh => ?_, fun hx rec_ hr hh => ?_⟩, fun hc => ⟨fun hx => ?_, fun x hx => ⟨fun hz => ?_, fun hz => ?_⟩⟩⟩
    · exact wide_row_succeeds h hc hg (cipherKex_held hp ha hx hh)
    · subst hr
      exact wide_row_succeeds h hc hg (cipherKex_new hp ha hx hh)
    · exact wide_row_refused h hc hg (cipherKek_noPair _ hx)
    · exact wide_row_refused h hc hg (cipherKek_zero _ hx hz)
    · exact wide_row_succeeds h hc hg (cipherKek_pair _ hx hz)

end Sys2Proof.Machine
end

section
/-! A read of memory that is present (R216, R217): no read moves an address, so that a range that is present stays so while its
words are read, and the read returns its bytes or the status of a bad word. -/

namespace Sys2Proof.Machine

/-- What the memory system says of where addresses lie. -/
def addrMap (m : MemSys) : W64 × Nat × Nat := (m.imap, m.gibPerCh, m.ddrGib)

theorem place_of_addrMap {d d' : Dev} (h : OnlyMem d d') (hm : addrMap d'.mem = addrMap d.mem) (a : Nat) : place d' a = place d a := by
  obtain ⟨hi, hc, hp⟩ : d'.mem.imap = d.mem.imap ∧ d'.mem.gibPerCh = d.mem.gibPerCh ∧ d'.mem.ddrGib = d.mem.ddrGib := by
    simpa [addrMap] using hm
  exact place_congr (by rw [h]) (by rw [h]) hi hc hp a

theorem hostWrite_addrMap (d : Dev) (a : Nat) (bs : List Byte) : addrMap ((hostWrite d a bs).getD d).mem = addrMap d.mem := by
  unfold hostWrite; split <;> rfl

theorem noticeTo_addrMap (d : Dev) (m k : Nat) (p : Option PolderNo) (j : BitVec 16) (c : Code) (i : Nat) :
    addrMap (noticeTo d m k p j c i).mem = addrMap d.mem := by
  unfold noticeTo; split
  · rw [count_mem]
  · exact hostWrite_addrMap (onMbox d m _) ..

theorem foldl_addrMap {α : Type} (f : Dev → α → Dev) (h : ∀ d x, addrMap (f d x).mem = addrMap d.mem) (l : List α) (d : Dev) :
    addrMap (l.foldl f d).mem = addrMap d.mem := by
  induction l generalizing d with
  | nil => rfl
  | cons x l ih => exact (ih (f d x)).trans (h d x)

theorem notice_addrMap (d : Dev) (k : Nat) (p : Option PolderNo) (c : Code) (i : Nat) : addrMap (notice d k p c i).mem = addrMap d.mem := by
  unfold notice
  dsimp only
  split
  · rw [count_mem]
  · exact foldl_addrMap _ (fun d m => noticeTo_addrMap d m k p _ c i) _ d

theorem eccNote_addrMap (d : Dev) (acc : Acc) (k a kind : Nat) : addrMap (eccNote d acc k a kind).mem = addrMap d.mem := by
  unfold eccNote eccCount
  dsimp only
  split
  · rw [count_mem]; rfl
  · split
    · rw [count_mem]; rfl
    · rfl

theorem exhausted_addrMap (d : Dev) (acc : Acc) (k a : Nat) : addrMap (exhausted d acc k a).mem = addrMap d.mem := notice_addrMap ..

theorem markRow_addrMap (d : Dev) (acc : Acc) (k a : Nat) : addrMap (markRow d acc k a).mem = addrMap d.mem := by
  unfold markRow
  dsimp only
  split
  · exact exhausted_addrMap ..
  split
  · split
    · rfl
    split
    · rfl
    · exact exhausted_addrMap ..
  · rfl

theorem rowHit_addrMap (d : Dev) (acc : Acc) (k a : Nat) : addrMap (rowHit d acc k a).mem = addrMap d.mem := by
  unfold rowHit
  dsimp only
  split
  · split
    · exact markRow_addrMap ..
    · rfl
  · rfl

theorem wordRead_addrMap (d : Dev) (acc : Acc) (k a : Nat) : addrMap (wordRead d acc k a).1.mem = addrMap d.mem := by
  unfold wordRead
  split
  · rfl
  · exact (rowHit_addrMap ..).trans (eccNote_addrMap ..)
  · exact (rowHit_addrMap ..).trans (eccNote_addrMap ..)
  · exact (markRow_addrMap ..).trans (eccNote_addrMap ..)
  · exact (markRow_addrMap ..).trans (eccNote_addrMap ..)
  · exact (rowHit_addrMap ..).trans (eccNote_addrMap ..)
  · exact (rowHit_addrMap ..).trans (eccNote_addrMap ..)
  · rfl

theorem place_wordRead (d : Dev) (acc : Acc) (k a b : Nat) : place (wordRead d acc k a).1 b = place d b :=
  place_of_addrMap (wordRead_onlyMem ..) (wordRead_addrMap ..) b

/-- Words that are present are read without a status, or with that of a bad word (R217). -/
theorem wordsRead_status (d : Dev) (acc : Acc) (a n : Nat) (h : ∀ j, j < n → ∃ k, place d (a + 8 * j) = .ok k) :
    (wordsRead d acc a n).2.1 ∈ [none, some 0x0310, some 0x0311] := by
  induction n generalizing d a with
  | zero => simp [wordsRead]
  | succ n ih =>
    obtain ⟨k, hk⟩ := h 0 (by omega)
    rw [Nat.mul_zero, Nat.add_zero] at hk
    have hrest := ih (wordRead d acc k a).1 (a + 8) fun j hj => by
      rw [place_wordRead, show a + 8 + 8 * j = a + 8 * (j + 1) by omega]
      exact h (j + 1) (by omega)
    unfold wordsRead
    rw [hk]
    dsimp only
    split
    · exact hrest
    · simp
    · simp
    · simp

/-- Words of 8 B that a present range meets are present. -/
theorem place_word_of_range {d : Dev} {a n : Nat} (hp : rangeErr d a n = none) (hn : n ≠ 0) (j : Nat)
    (hj : j < (a + n - a / 8 * 8 + 7) / 8) : ∃ k, place d (a / 8 * 8 + 8 * j) = .ok k :=
  place_of_range hp _ (by omega) (by omega) (by omega)

/-- A read of what is present returns the bytes, or the status of a bad word. -/
theorem memRead_present {d : Dev} {a n : Nat} (acc : Acc) (hp : rangeErr d a n = none) :
    (∃ d1 bs, memRead d acc a n = (d1, .ok bs) ∧ OnlyMem d d1) ∨
    ∃ d1 c, memRead d acc a n = (d1, .error c) ∧ OnlyMem d d1 ∧ c ∈ [(0x0310 : Code), 0x0311] := by
  have honly := memRead_onlyMem d acc a n
  by_cases hn : n = 0
  · exact .inl ⟨d, [], by simp [memRead, hn], .refl d⟩
  have hst := wordsRead_status d acc (a / 8 * 8) _ (place_word_of_range hp hn)
  unfold memRead at honly ⊢
  rw [if_neg hn, hp] at honly ⊢
  dsimp only at honly ⊢
  split
  · rename_i c hc
    rw [hc] at hst honly
    exact .inr ⟨_, c, rfl, honly, by simpa using hst⟩
  · rename_i hc
    rw [hc] at honly
    exact .inl ⟨_, _, rfl, honly⟩

/-- A write to what is present is not refused. -/
theorem memWrite_present {d : Dev} {a : Nat} {bs : List Byte} (acc : Acc) (hp : rangeErr d a bs.length = none) :
    memWrite d acc a bs = ((memWrite d acc a bs).1, none) := by
  unfold memWrite
  split
  · rfl
  · rw [hp]

theorem addrErr_none {d : Dev} {x : Polder} {a n : Nat} (h : addrErr d x a n = none) : rangeErr d a n = none := by
  unfold addrErr at h
  split at h
  · cases h
  · exact h

end Sys2Proof.Machine
end

section
/-! WRITE and READ at their destination (R23, R253 to R257, R260, R460): the checks of an arriving request, one equation per
outcome, and what the rows of the two requests do after them. -/

namespace Sys2Proof.Machine

/-! ### The checks of an arriving request -/

section
variable {d : Dev} {p : Packet} {n : Nat}

theorem arriveAt_header (h : hOk p.hdr = false) : arriveAt d p n = .error (7, 0x0124) := by
  simp [arriveAt, arrive, h]

theorem arriveAt_error {e : Nat × Code} (h : arrive d p = .error e) : arriveAt d p n = .error e := by
  rw [arriveAt, h]

variable (hh : hOk p.hdr = true)
include hh

theorem arriveAt_pcrc (h : pcrcOk p = false) : arriveAt d p n = .error (answerKind (hKind p.hdr), 0x0127) := by
  simp [arriveAt, arrive, hh, h]

variable (hc : pcrcOk p = true)
include hc

theorem arriveAt_absorbed (h : absorbs d p.hdr = true) : arriveAt d p n = .error (6, 0x0B01) := by
  simp [arriveAt, arrive, hh, hc, h]

variable (ha : absorbs d p.hdr = false)
include ha

theorem arriveAt_tile (h : ¬ (hTgt p.hdr = 0 → hAddr p.hdr / 2 ^ 20 = hDstTile p.hdr)) : arriveAt d p n = .error (7, 0x0124) := by
  refine arriveAt_error ?_
  simp only [arrive, hh, hc, ha, Bool.not_true, Bool.false_eq_true, if_false]
  exact if_pos (Classical.not_imp.1 h)

variable (ht : hTgt p.hdr = 0 → hAddr p.hdr / 2 ^ 20 = hDstTile p.hdr)
include ht

theorem arriveAt_noPolder (h : polderOfJob d (hJob p.hdr) = none) : arriveAt d p n = .error (7, 0x0125) := by
  refine arriveAt_error ?_
  simp only [arrive, hh, hc, ha, h, Bool.not_true, Bool.false_eq_true, if_false]
  exact if_neg fun h' => h'.2 (ht h'.1)

variable {pn : PolderNo} {x : Polder} (hx : polderOfJob d (hJob p.hdr) = some (pn, x))
include hx

theorem arrive_polder : arrive d p = .ok (pn, x) := by
  simp only [arrive, hh, hc, ha, hx, Bool.not_true, Bool.false_eq_true, if_false]
  exact if_neg fun h' => h'.2 (ht h'.1)

theorem arriveAt_absent (h : absentIn d (hAddr p.hdr) n = true) : arriveAt d p n = .error (7, 0x0403) := by
  simp [arriveAt, arrive_polder hh hc ha ht hx, h]

theorem arriveAt_polder (h : absentIn d (hAddr p.hdr) n = false) : arriveAt d p n = .ok (pn, x) := by
  simp [arriveAt, arrive_polder hh hc ha ht hx, h]

end

/-! ### The rows -/

theorem exec_writeRx (p : Packet) (s : State) : exec (.writeRx p) s = .next { s with dev := writeRx s.dev p } := rfl
theorem exec_readRx (p : Packet) (s : State) : exec (.readRx p) s = .next { s with dev := readRx s.dev p } := rfl

section
variable {d : Dev} {p : Packet} {pn : PolderNo} {x : Polder}

theorem writeRx_refused {e : Nat × Code} (hf : forMe d p 0 = true) (h : arriveAt d p p.payload.length = .error e) :
    writeRx d p = sendAnswer d p.hdr e.1 e.2 [] := by
  simp [writeRx, hf, h]

theorem readRx_refused {e : Nat × Code} (hf : forMe d p 1 = true) (h : arriveAt d p (8 * hLen p.hdr) = .error e) :
    readRx d p = sendAnswer d p.hdr e.1 e.2 [] := by
  simp [readRx, hf, h]

theorem writeRx_addrErr {c : Code} (hf : forMe d p 0 = true) (h : arriveAt d p p.payload.length = .ok (pn, x))
    (hc : addrErr d x (hAddr p.hdr) p.payload.length = some c) : writeRx d p = sendAnswer d p.hdr 3 c [] := by
  simp [writeRx, hf, h, hc]

/-- A WRITE that passes its checks: the payload, the count lines, the words that arrived poisoned, then the answer. -/
theorem writeRx_stores (hf : forMe d p 0 = true) (h : arriveAt d p p.payload.length = .ok (pn, x))
    (hc : addrErr d x (hAddr p.hdr) p.payload.length = none) :
    ∃ d1, (Clean d (hAddr p.hdr) p.payload.length → Stored d (hAddr p.hdr) p.payload d1) ∧ OnlyMem d d1 ∧
      writeRx d p = sendAnswer (poisonWords (watchLines d1 pn (hAddr p.hdr) p.payload) (hAddr p.hdr) p.poison) p.hdr 3
        (if p.poison = [] then 0 else 0x0310) [] := by
  have hp := addrErr_none hc
  refine ⟨(memWrite d (pktAcc p.hdr pn) (hAddr p.hdr) p.payload).1, fun hcl => ?_, memWrite_onlyMem .., ?_⟩
  · obtain ⟨d', hm, hst⟩ := memWrite_clean (pktAcc p.hdr pn) hp hcl
    rw [hm]
    exact hst
  · unfold writeRx
    rw [hf, h]
    simp only [hc, Bool.not_true, Bool.false_eq_true, if_false]
    rw [memWrite_present (pktAcc p.hdr pn) hp]
    dsimp only
    by_cases hq : p.poison = []
    · rw [if_pos hq, if_pos hq, hq]
      rfl
    · rw [if_neg hq, if_neg hq]

section
variable (hf : forMe d p 1 = true) (h : arriveAt d p (8 * hLen p.hdr) = .ok (pn, x))
include hf h

theorem readRx_counters (hr : ctrsOk d x (hAddr p.hdr) (8 * hLen p.hdr) = true) :
    readRx d p = sendAnswer (ctrRead d (some pn) (hAddr p.hdr) (8 * hLen p.hdr)).1 p.hdr 2 0
      (ctrRead d (some pn) (hAddr p.hdr) (8 * hLen p.hdr)).2 := by
  simp [readRx, hf, h, hr]

variable (hr : ctrsOk d x (hAddr p.hdr) (8 * hLen p.hdr) = false)
include hr

theorem readRx_addrErr {c : Code} (hc : addrErr d x (hAddr p.hdr) (8 * hLen p.hdr) = some c) :
    readRx d p = sendAnswer d p.hdr 2 c [] := by
  simp [readRx, hf, h, hr, hc]

variable (hc : addrErr d x (hAddr p.hdr) (8 * hLen p.hdr) = none)
include hc

/-- What is present and in no error is answered as it stands, and the READ changes nothing else. -/
theorem readRx_clean (hcl : Clean d (hAddr p.hdr) (8 * hLen p.hdr)) :
    readRx d p = sendAnswer d p.hdr 2 0 (bytesAt d (hAddr p.hdr) (8 * hLen p.hdr)) := by
  simp [readRx, hf, h, hr, hc, memRead_clean _ (addrErr_none hc) hcl]

/-- A READ of what is present touches memory and its records alone, and its answer says at worst that a word is bad. -/
theorem readRx_present : ∃ d1 c bs, OnlyMem d d1 ∧ readRx d p = sendAnswer d1 p.hdr 2 c bs ∧ c ∈ [(0 : Code), 0x0310, 0x0311] := by
  rcases memRead_present (pktAcc p.hdr pn) (addrErr_none hc) with ⟨d1, bs, hm, ho⟩ | ⟨d1, c, hm, ho, hbad⟩
  · exact ⟨d1, 0, bs, ho, by simp [readRx, hf, h, hr, hc, hm], List.mem_cons_self⟩
  · exact ⟨d1, c, [], ho, by simp [readRx, hf, h, hr, hc, hm], List.mem_cons_of_mem _ hbad⟩

end
end

/-! ### Both rows -/

/-- The row i of a request of this device, answered by kind ak where it acts. -/
def RequestRow (d : Dev) (p : Packet) (i : Instr) (ak : Nat) : Prop :=
  (forMe d p 0 = true ∧ i = .writeRx p ∧ ak = 3) ∨ (forMe d p 1 = true ∧ i = .readRx p ∧ ak = 2)

/-- The bytes that a row's request names. -/
def rowLen (p : Packet) (ak : Nat) : Nat := if ak = 3 then p.payload.length else 8 * hLen p.hdr

section
variable {s : State} {p : Packet} {i : Instr} {ak : Nat} (hi : RequestRow s.dev p i ak)
include hi

theorem RequestRow.answerKind_eq : answerKind (hKind p.hdr) = ak := by
  obtain ⟨hf, -, rfl⟩ | ⟨hf, -, rfl⟩ := hi
  all_goals
    simp only [forMe, Bool.and_eq_true, decide_eq_true_eq] at hf
    rw [hf.1]
    rfl

theorem RequestRow.refused {k : Nat} {c : Code} (h : arriveAt s.dev p (rowLen p ak) = .error (k, c)) :
    exec i s = .next { s with dev := sendAnswer s.dev p.hdr k c [] } := by
  obtain ⟨hf, rfl, rfl⟩ | ⟨hf, rfl, rfl⟩ := hi
  · rw [exec_writeRx, writeRx_refused hf h]
  · rw [exec_readRx, readRx_refused hf h]

theorem RequestRow.of_write (h : i = .writeRx p) : forMe s.dev p 0 = true ∧ ak = 3 := by
  obtain ⟨hf, -, ha⟩ | ⟨-, he, -⟩ := hi
  · exact ⟨hf, ha⟩
  · cases h.symm.trans he

theorem RequestRow.of_read (h : i = .readRx p) : forMe s.dev p 1 = true ∧ ak = 2 := by
  obtain ⟨-, he, -⟩ | ⟨hf, -, ha⟩ := hi
  · cases h.symm.trans he
  · exact ⟨hf, ha⟩

end

end Sys2Proof.Machine
end

section
/-! The answers at their requester (R253, R255, R256, R459): the request that an answer takes off the list, and what each row
then does with it. -/

namespace Sys2Proof.Machine

/-! ### The rows -/

/-- The rows of the five kinds of answer: the kind, and the kinds of request that it answers. -/
def answerRows (p : Packet) : List (Instr × Nat × List Nat) :=
  [(.readDataRx p, 2, [1]), (.writeAckRx p, 3, [0]), (.redAckRx p, 5, [4]), (.absorbedRx p, 6, [0, 1, 4]), (.undeliveredRx p, 7, [0, 1, 4])]

/-- What an answer of a kind does with the request that it answers and its status. -/
def takeAnswer (kind : Nat) (p : Packet) (d : Dev) (q : Req) (c : Code) : Dev :=
  if kind = 2 then
    if c ≠ 0 then badAnswer d q c
    else if p.poison ≠ [] then badAnswer d q 0x0310
    else onTagged d q.tag fun r => { r with fetched := keepBytes r.fetched q.dev.toNat q.addr p.payload }
  else if kind = 3 then (if c ≠ 0 then badAnswer d q c else d)
  else if kind = 5 then redAnswered d q p.hdr c p.payload
  else if q.kind = 4 then redAnswered d q p.hdr c []
  else badAnswer d q c

/-- An answer of a kind at this device. -/
def answerRx (d : Dev) (p : Packet) (kind : Nat) (kinds : List Nat) : Dev :=
  match answerAt d p kind kinds with
  | (d, none) => d
  | (d, some (q, c)) => takeAnswer kind p d q c

theorem readDataRx_eq (d : Dev) (p : Packet) : readDataRx d p = answerRx d p 2 [1] := by
  unfold readDataRx answerRx
  rcases answerAt d p 2 [1] with ⟨d, _ | ⟨q, c⟩⟩ <;> rfl

theorem writeAckRx_eq (d : Dev) (p : Packet) : writeAckRx d p = answerRx d p 3 [0] := by
  unfold writeAckRx answerRx
  rcases answerAt d p 3 [0] with ⟨d, _ | ⟨q, c⟩⟩ <;> rfl

theorem redAckRx_eq (d : Dev) (p : Packet) : redAckRx d p = answerRx d p 5 [4] := by
  unfold redAckRx answerRx
  rcases answerAt d p 5 [4] with ⟨d, _ | ⟨q, c⟩⟩ <;> rfl

theorem lostRx_eq (d : Dev) (p : Packet) {kind : Nat} (hk : kind = 6 ∨ kind = 7) : lostRx d p kind = answerRx d p kind [0, 1, 4] := by
  unfold lostRx answerRx
  rcases answerAt d p kind [0, 1, 4] with ⟨d, _ | ⟨q, c⟩⟩
  · rfl
  · rcases hk with rfl | rfl <;> rfl

/-- Every row of an answer is `answerRx` of its kind. -/
theorem exec_answerRow {p : Packet} {r : Instr × Nat × List Nat} (hr : r ∈ answerRows p) (s : State) :
    exec r.1 s = .next { s with dev := answerRx s.dev p r.2.1 r.2.2 } := by
  simp only [answerRows, List.mem_cons, List.not_mem_nil, or_false] at hr
  rcases hr with rfl | rfl | rfl | rfl | rfl
  · rw [← readDataRx_eq]; rfl
  · rw [← writeAckRx_eq]; rfl
  · rw [← redAckRx_eq]; rfl
  · rw [← lostRx_eq _ _ (.inl rfl)]; rfl
  · rw [← lostRx_eq _ _ (.inr rfl)]; rfl

/-! ### The request of an answer -/

/-- The request that an answer finds open. -/
def askedOf (d : Dev) (h : BitVec 256) (kinds : List Nat) : Option Req :=
  (d.fabric.reqs.find? (answers h kinds)).or (d.fabric.reqs.find? (answersLost h kinds))

/-- The device without an open request. -/
def offList (d : Dev) (q : Req) : Dev := { d with fabric := { d.fabric with reqs := d.fabric.reqs.erase q } }

/-- The status of an answer: its own, or 0x0127 where its CRC is bad (R256). -/
def answerCode (p : Packet) : Code := if pcrcOk p = true then BitVec.ofNat 16 (hAddr p.hdr % 2 ^ 16) else 0x0127

theorem takeReq_none {d : Dev} {h : BitVec 256} {kinds : List Nat} (ha : askedOf d h kinds = none) : takeReq d h kinds = (d, none) := by
  rw [takeReq, ← askedOf, ha]

theorem takeReq_abandoned {d : Dev} {h : BitVec 256} {kinds : List Nat} {q : Req} (ha : askedOf d h kinds = some q)
    (hq : q.abandoned = true) : takeReq d h kinds = (releaseFlows (unquarantine (offList d q) q.tag), none) := by
  rw [takeReq, ← askedOf, ha]
  simp only [dropReq, hq, if_true]
  rfl

theorem takeReq_open {d : Dev} {h : BitVec 256} {kinds : List Nat} {q : Req} (ha : askedOf d h kinds = some q)
    (hq : q.abandoned = false) : takeReq d h kinds = (releaseFlows (offList d q), some q) := by
  rw [takeReq, ← askedOf, ha]
  simp only [dropReq, hq, Bool.false_eq_true, if_false]
  rfl

section
variable {d : Dev} {p : Packet} {kind : Nat} {kinds : List Nat} (hf : forMe d p kind = true)
include hf

theorem answerRx_malformed (hh : hOk p.hdr = false) : answerRx d p kind kinds = sendAnswer d p.hdr 7 0x0124 [] := by
  simp [answerRx, answerAt, hf, hh]

variable (hh : hOk p.hdr = true)
include hh

theorem answerRx_none (ha : askedOf d p.hdr kinds = none) : answerRx d p kind kinds = d := by
  simp [answerRx, answerAt, hf, hh, takeReq_none ha]

variable {q : Req} (ha : askedOf d p.hdr kinds = some q)
include ha

theorem answerRx_abandoned (hq : q.abandoned = true) :
    answerRx d p kind kinds = releaseFlows (unquarantine (offList d q) q.tag) := by
  simp [answerRx, answerAt, hf, hh, takeReq_abandoned ha hq]

theorem answerRx_open (hq : q.abandoned = false) :
    answerRx d p kind kinds = takeAnswer kind p (releaseFlows (offList d q)) q (answerCode p) := by
  simp [answerRx, answerAt, hf, hh, takeReq_open ha hq, answerCode, aStatus]

end

/-! ### What it then does -/

/-- A bad answer is noted with the operation that runs in the slot of the request's tag, where there is one. -/
theorem badAnswer_eq (d : Dev) (q : Req) (c : Code) :
    badAnswer d q c = (engineOfSlot d (q.tag.toNat / 32) (q.tag.toNat % 32)).elim d fun e =>
      onRun d (q.tag.toNat / 32) e fun r => r.noteBad e q.kind q.dev.toNat q.addr q.len c := by
  unfold badAnswer
  cases engineOfSlot d (q.tag.toNat / 32) (q.tag.toNat % 32) <;> rfl

section
variable {p : Packet} {d : Dev} {q : Req} {c : Code}

theorem takeAnswer_badRead {kind : Nat} (hk : kind = 2) (hc : c ≠ 0) : takeAnswer kind p d q c = badAnswer d q c :=
  (if_pos hk).trans (if_pos hc)

theorem takeAnswer_poisonedRead {kind : Nat} (hk : kind = 2) (hc : c = 0) (hp : p.poison ≠ []) :
    takeAnswer kind p d q c = badAnswer d q 0x0310 :=
  (if_pos hk).trans ((if_neg (not_not.2 hc)).trans (if_pos hp))

theorem takeAnswer_goodRead {kind : Nat} (hk : kind = 2) (hc : c = 0) (hp : p.poison = []) : takeAnswer kind p d q c =
    onTagged d q.tag fun r => { r with fetched := keepBytes r.fetched q.dev.toNat q.addr p.payload } :=
  (if_pos hk).trans ((if_neg (not_not.2 hc)).trans (if_neg (not_not.2 hp)))

theorem takeAnswer_write {kind : Nat} (hk : kind = 3) : takeAnswer kind p d q c = if c = 0 then d else badAnswer d q c := by
  subst hk
  change (if c ≠ 0 then badAnswer d q c else d) = _
  rw [ite_not]

theorem takeAnswer_lost {kind : Nat} (hk : kind = 6 ∨ kind = 7) (hq : q.kind < 2) : takeAnswer kind p d q c = badAnswer d q c := by
  have h4 : q.kind ≠ 4 := by omega
  rcases hk with rfl | rfl <;> exact if_neg h4

theorem takeAnswer_reduction {kind : Nat} (hk : 5 ≤ kind) (hq : q.kind = 4) (p : Packet) (d : Dev) (c : Code) :
    ∃ pl, takeAnswer kind p d q c = redAnswered d q p.hdr c pl := by
  have h2 : kind ≠ 2 := by omega
  have h3 : kind ≠ 3 := by omega
  by_cases h5 : kind = 5
  · exact ⟨p.payload, (if_neg h2).trans ((if_neg h3).trans (if_pos h5))⟩
  · exact ⟨[], (if_neg h2).trans ((if_neg h3).trans ((if_neg h5).trans (if_pos hq)))⟩

end

/-- The bytes of an answer lie from its request's address on; every other fetched byte stays. -/
theorem find_keepBytes (m : NMap Byte) (dev a : Nat) (bs : List Byte) (k : Nat) :
    NMap.find? (keepBytes m dev a bs) k =
      if fkey dev a ≤ k ∧ k < fkey dev a + bs.length then bs[k - fkey dev a]? else NMap.find? m k := by
  induction bs using List.reverseRecOn with
  | nil => simp [keepBytes, show ¬ (fkey dev a ≤ k ∧ k < fkey dev a) by omega]
  | append_singleton bs b ih =>
    have hstep : keepBytes m dev a (bs ++ [b]) = NMap.insert (keepBytes m dev a bs) (fkey dev a + bs.length) b := by
      have hkey : fkey dev (a + bs.length) = fkey dev a + bs.length := by simp [fkey, Nat.add_assoc]
      simp [keepBytes, List.range_succ, List.zip_append, hkey]
    rw [hstep, List.length_append, List.length_singleton]
    by_cases hk : k = fkey dev a + bs.length
    · subst hk
      simp
    · rw [NMap.find_insert_ne _ _ hk, ih]
      by_cases hin : fkey dev a ≤ k ∧ k < fkey dev a + bs.length
      · rw [if_pos hin, if_pos (by omega), List.getElem?_append_left (by omega)]
      · rw [if_neg hin, if_neg (by omega)]

/-! ### A reduction packet answered (R272, R284) -/

/-- What the collective that runs as x on tile t makes of an answer with status c. -/
def collAnswer (d : Dev) (t : Nat) (x : RunOp) (q : Req) (h : BitVec 256) (c : Code) (pl : List Byte) : Dev :=
  let cx := rCx d t x
  let n := entryOf d cx q.dev.toNat (hChunk h)
  if q.no = 0xFE ∧ q.len = 0 then
    if c = 0 then collPump (onColl d fun b => { b with openOk := b.openOk ++ [(cx.job, rColl cx.x, q.addr, q.dev.toNat)] }) t
    else collPump (openFailed d t cx q.addr q.dev.toNat c) t
  else if cx.op = 4 ∧ q.addr = 6 ∧ c = 0x0507 then collPump (onRst d t fun y => { y with refOut := n :: y.refOut }) t
  else if c ≠ 0 then collPump (failChunk d t n (codeOf c).1 (codeOf c).2) t
  else if cx.op = 4 ∧ q.addr = 6 then collPump (onRst d t fun y => { y with offs := NMap.insert y.offs n (leAt pl 0 8) }) t
  else collPump d t

theorem redAnswered_live {d : Dev} {q : Req} {x : RunOp} (hx : liveRun d (q.tag.toNat / 32) = some x)
    (ht : opTag (q.tag.toNat / 32) x.q.slot = q.tag) (h : BitVec 256) (c : Code) (pl : List Byte) :
    redAnswered d q h c pl = collAnswer d (q.tag.toNat / 32) x q h c pl := by
  unfold redAnswered
  dsimp only
  rw [hx]
  exact if_neg (not_not.2 ht)

/-- An answer of a reduction packet acts on the collective that runs in the slot of its tag, whichever of the three kinds it is. -/
theorem takeAnswer_collective {kind : Nat} (hk : 5 ≤ kind) {p : Packet} {d : Dev} {q : Req} {x : RunOp} (hq : q.kind = 4)
    (hx : liveRun d (q.tag.toNat / 32) = some x) (ht : opTag (q.tag.toNat / 32) x.q.slot = q.tag) (c : Code) :
    ∃ pl, takeAnswer kind p d q c = collAnswer d (q.tag.toNat / 32) x q p.hdr c pl := by
  obtain ⟨pl, h⟩ := takeAnswer_reduction hk hq p d c
  exact ⟨pl, h.trans (redAnswered_live hx ht p.hdr c pl)⟩

section
variable {d : Dev} {t : Nat} {x : RunOp} {q : Req} {h : BitVec 256} {c : Code} {pl : List Byte}

theorem collAnswer_openGood (ho : q.no = 0xFE ∧ q.len = 0) (hc : c = 0) : collAnswer d t x q h c pl = collPump (onColl d fun b =>
    { b with openOk := b.openOk ++ [((rCx d t x).job, rColl (rCx d t x).x, q.addr, q.dev.toNat)] }) t :=
  (if_pos ho).trans (if_pos hc)

theorem collAnswer_openBad (ho : q.no = 0xFE ∧ q.len = 0) (hc : c ≠ 0) :
    collAnswer d t x q h c pl = collPump (openFailed d t (rCx d t x) q.addr q.dev.toNat c) t :=
  (if_pos ho).trans (if_neg hc)

variable (ho : ¬ (q.no = 0xFE ∧ q.len = 0))
include ho

/-- An all-to-all's count that the peer refuses is noted, and fails nothing (R277). -/
theorem collAnswer_countRefused (h4 : (rCx d t x).op = 4) (h6 : q.addr = 6) (hc : c = 0x0507) : collAnswer d t x q h c pl =
    collPump (onRst d t fun y => { y with refOut := entryOf d (rCx d t x) q.dev.toNat (hChunk h) :: y.refOut }) t :=
  (if_neg ho).trans (if_pos ⟨h4, h6, hc⟩)

theorem collAnswer_chunkFails (hc : c ≠ 0) (hn : ¬ ((rCx d t x).op = 4 ∧ q.addr = 6 ∧ c = 0x0507)) : collAnswer d t x q h c pl =
    collPump (failChunk d t (entryOf d (rCx d t x) q.dev.toNat (hChunk h)) (codeOf c).1 (codeOf c).2) t :=
  (if_neg ho).trans ((if_neg hn).trans (if_pos hc))

theorem collAnswer_dataGood (hc : c = 0) (hn : ¬ ((rCx d t x).op = 4 ∧ q.addr = 6)) : collAnswer d t x q h c pl = collPump d t :=
  (if_neg ho).trans ((if_neg fun h' => hn ⟨h'.1, h'.2.1⟩).trans ((if_neg (not_not.2 hc)).trans (if_neg hn)))

end

end Sys2Proof.Machine
end

section
/-! O55: the requests by the first check that they fail, and the answers by what the request was. -/

namespace Sys2Proof.Machine

theorem next_dev {s : State} {d d' : Dev} (h : d = d') : (.next { s with dev := d } : Out) = .next { s with dev := d' } := by rw [h]

/-- Settles O55: requests by `RequestRow`, answers by `answerRx`. -/
theorem fabricPackets : Obligations.FabricPackets := by
  unfold Obligations.FabricPackets
  refine ⟨fun p s => ?_, fun p s => ?_⟩
  · intro d h answered i ak hi tileOk
    have hrow : RequestRow s.dev p i ak := hi
    refine ⟨fun hh => hrow.refused (arriveAt_header hh), fun hh hc => ?_, fun hh hc ha => hrow.refused (arriveAt_absorbed hh hc ha),
      fun hh hc ha ht => hrow.refused (arriveAt_tile hh hc ha ht), fun hh hc ha ht hx => hrow.refused (arriveAt_noPolder hh hc ha ht hx),
      fun pn x hh hc ha ht hx => ⟨fun hn => hrow.refused (arriveAt_absent hh hc ha ht hx hn), fun hn => ?_⟩⟩
    · have := hrow.refused (arriveAt_pcrc hh hc)
      rwa [hrow.answerKind_eq] at this
    · have hok := arriveAt_polder hh hc ha ht hx hn
      refine ⟨fun c he hr => ?_, fun he hr => ?_, fun c he hs hr => ?_, fun he hs hr => ?_, fun he hs => ?_⟩
      · obtain ⟨hf, rfl⟩ := hrow.of_write he
        subst he
        exact next_dev (writeRx_addrErr hf hok hr)
      · obtain ⟨hf, rfl⟩ := hrow.of_write he
        subst he
        obtain ⟨d1, hst, ho, hw⟩ := writeRx_stores hf hok hr
        exact ⟨d1, hst, ho, next_dev hw⟩
      · obtain ⟨hf, rfl⟩ := hrow.of_read he
        subst he
        exact next_dev (readRx_addrErr hf hok hs hr)
      · obtain ⟨hf, rfl⟩ := hrow.of_read he
        subst he
        obtain ⟨d1, c, bs, ho, hw, hcode⟩ := readRx_present hf hok hs hr
        exact ⟨fun hcl => next_dev (readRx_clean hf hok hs hr hcl), d1, c, bs, ho, next_dev hw, hcode⟩
      · obtain ⟨hf, rfl⟩ := hrow.of_read he
        subst he
        exact next_dev (readRx_counters hf hok hs)
  · intro h rows r hr hf
    rw [exec_answerRow hr]
    refine ⟨fun hh => next_dev (answerRx_malformed hf hh), fun hh => ?_⟩
    intro asked
    refine ⟨fun ha => next_dev (answerRx_none hf hh ha), fun q ha => ?_⟩
    intro d0 d1 t c bad
    have hbad : ∀ c, badAnswer d1 q c = bad c := fun c => by
      rw [badAnswer_eq]
      simp only [bad, t]
      cases engineOfSlot d1 (q.tag.toNat / 32) (q.tag.toNat % 32) <;> rfl
    have hopen : q.abandoned = false → answerRx s.dev p r.2.1 r.2.2 = takeAnswer r.2.1 p d1 q c := answerRx_open hf hh ha
    refine ⟨fun hq => next_dev (answerRx_abandoned hf hh ha hq), fun hq _ hk => ⟨fun hc => ?_, fun hc hp => ?_, fun hc hp => ?_⟩,
      fun hq _ hk => ?_, fun hq hlt hk => ?_, fun hq h4 hk x hx ht => ?_⟩
    · exact next_dev ((hopen hq).trans ((takeAnswer_badRead hk hc).trans (hbad c)))
    · exact next_dev ((hopen hq).trans ((takeAnswer_poisonedRead hk hc hp).trans (hbad 0x0310)))
    · exact ⟨fun m => keepBytes m q.dev.toNat q.addr p.payload, next_dev ((hopen hq).trans (takeAnswer_goodRead hk hc hp)),
        fun m k => find_keepBytes m q.dev.toNat q.addr p.payload k⟩
    · exact next_dev ((hopen hq).trans ((takeAnswer_write hk).trans (by rw [hbad c])))
    · exact next_dev ((hopen hq).trans ((takeAnswer_lost hk hlt).trans (hbad c)))
    · obtain ⟨pl, htake⟩ := takeAnswer_collective hk h4 hx ht c
      have hcoll : answerRx s.dev p r.2.1 r.2.2 = collAnswer d1 t x q h c pl := (hopen hq).trans htake
      exact ⟨fun ho hc => next_dev (hcoll.trans (collAnswer_openGood ho hc)),
        fun ho hc => next_dev (hcoll.trans (collAnswer_openBad ho hc)),
        fun ho hop ha hc => next_dev (hcoll.trans (collAnswer_countRefused ho hop ha hc)),
        fun ho hc hn => next_dev (hcoll.trans (collAnswer_chunkFails ho hc (by tauto))),
        fun ho hc hn => next_dev (hcoll.trans (collAnswer_dataGood ho hc (by tauto)))⟩

end Sys2Proof.Machine
end

section
/-! Sums of products (R46, R47, R49): a group's sum looks at its products by tests, a maximum and a sum, none of which sees their
order; a sequence cut at a multiple of the group's length has the groups of its two parts. -/

namespace Sys2Proof.Machine

/-! ### One group -/

/-- The finite path of add_group (R47) on the nonzero products. -/
def addWindow (acc : F32) : List FVal → F32 × Bool
  | [] => (acc, false)
  | p :: rest =>
    let lo := rest.foldl (fun l q => max l q.ilog2) p.ilog2 - 47
    let ts := (p :: rest).map (truncAt lo)
    let s : Int := ts.foldl (fun a t => a + t.1) 0
    let cut := ts.any Prod.snd
    if s = 0 then (acc, cut)
    else (rne32 ((val32 acc).add (.fin (decide (s < 0)) s.natAbs lo)), cut)

/-- add_group on the exact products. -/
def addProducts (acc : F32) (prods : List FVal) : F32 × Bool :=
  if fnan? acc then (nan32, false)
  else if prods.any FVal.isNan then (nan32, false)
  else
    let pos := prods.any (fun p => p.isInf && !p.isNeg)
    let neg := prods.any (fun p => p.isInf && p.isNeg)
    if pos && neg then (nan32, false)
    else if pos then (fadd acc inf32, false)
    else if neg then (fadd acc ninf32, false)
    else if (val32 acc).isInf then (acc, false)
    else addWindow acc (prods.filter (fun p => !p.isZero))

theorem addGroup_eq_addProducts (acc : F32) (ps : List (FVal × FVal)) :
    addGroup acc ps = addProducts acc (ps.map fun p => p.1.mul p.2) := by
  unfold addGroup addProducts
  dsimp only
  generalize (ps.map fun p => p.1.mul p.2).filter (fun p => !p.isZero) = nz
  cases nz <;> rfl

/-- The window's top is the greatest weight of the products, wherever it stands. -/
theorem foldl_max_ilog2 (p : FVal) (rest : List FVal) :
    some (rest.foldl (fun l q => max l q.ilog2) p.ilog2) = ((p :: rest).map FVal.ilog2).max? := by
  rw [List.map_cons, List.max?_cons', List.foldl_map]

theorem max?_eq_of_perm {l l' : List Int} (h : l.Perm l') : l.max? = l'.max? := by
  cases hm : l'.max? with
  | none =>
    rw [List.max?_eq_none_iff] at hm ⊢
    exact List.perm_nil.1 (hm ▸ h)
  | some a =>
    rw [List.max?_eq_some_iff] at hm ⊢
    simpa only [h.mem_iff] using hm

theorem addWindow_perm (acc : F32) {ps qs : List FVal} (h : ps.Perm qs) : addWindow acc ps = addWindow acc qs := by
  match ps, qs with
  | [], [] => rfl
  | [], _ :: _ => exact absurd h.symm (by simp)
  | _ :: _, [] => exact absurd h (by simp)
  | p :: ps, q :: qs =>
    have htop : ps.foldl (fun l q => max l q.ilog2) p.ilog2 = qs.foldl (fun l q => max l q.ilog2) q.ilog2 :=
      Option.some.inj (by rw [foldl_max_ilog2, foldl_max_ilog2, max?_eq_of_perm (h.map _)])
    have hcomm : RightCommutative fun (a : Int) (t : Int × Bool) => a + t.1 := ⟨fun a t u => by omega⟩
    have hts := h.map (truncAt (qs.foldl (fun l q => max l q.ilog2) q.ilog2 - 47))
    simp only [addWindow, htop, hts.foldl_eq, hts.any_eq]

theorem addProducts_perm (acc : F32) {ps qs : List FVal} (h : ps.Perm qs) : addProducts acc ps = addProducts acc qs := by
  simp only [addProducts, h.any_eq, addWindow_perm acc (h.filter _)]

theorem addGroup_perm (acc : F32) {ps qs : List (FVal × FVal)} (h : ps.Perm qs) : addGroup acc ps = addGroup acc qs := by
  rw [addGroup_eq_addProducts, addGroup_eq_addProducts, addProducts_perm acc (h.map _)]

/-! ### The groups of a sequence -/

@[simp] theorem chunksOf_nil {α : Type} (k n : Nat) : chunksOf k n ([] : List α) = [] := by
  cases n <;> rfl

theorem chunksOf_append {α : Type} {k : Nat} (hk : 0 < k) (n a : Nat) (l l' : List α) (hl : l.length = k * a) :
    chunksOf k (a + n) (l ++ l') = chunksOf k a l ++ chunksOf k n l' := by
  induction a generalizing l with
  | zero =>
    have : l = [] := List.eq_nil_of_length_eq_zero (by simpa using hl)
    simp [this]
  | succ a ih =>
    rw [Nat.mul_succ] at hl
    have hne : l ≠ [] := by rintro rfl; simp at hl; omega
    have hdrop := ih (l.drop k) (by rw [List.length_drop]; omega)
    rw [Nat.add_right_comm]
    simp only [chunksOf, List.isEmpty_iff, hne, List.append_eq_nil_iff, false_and, if_false, List.cons_append]
    rw [List.take_append_of_le_length (by omega), List.drop_append_of_le_length (by omega), hdrop]

/-- One more group, and whether it was truncated, after the groups before it (R46). -/
def addCounted (a : F32 × Nat) (g : List (FVal × FVal)) : F32 × Nat := ((addGroup a.1 g).1, a.2 + b2n (addGroup a.1 g).2)

theorem addGroups_eq_foldl (acc : F32) (ps : List (FVal × FVal)) :
    addGroups acc ps = (chunksOf 32 (ps.length / 32 + 1) ps).foldl addCounted (acc, 0) := rfl

/-- The count of truncated groups goes on from any number, and no bit of the sum depends on it. -/
theorem foldl_addCounted (gs : List (List (FVal × FVal))) (acc : F32) (n : Nat) :
    gs.foldl addCounted (acc, n) = ((gs.foldl addCounted (acc, 0)).1, n + (gs.foldl addCounted (acc, 0)).2) := by
  induction gs generalizing acc n with
  | nil => rfl
  | cons g gs ih =>
    simp only [List.foldl_cons, addCounted]
    rw [ih, ih (n := 0 + _)]
    simp only [Nat.zero_add, Nat.add_assoc]

theorem addGroups_append (acc : F32) (ps qs : List (FVal × FVal)) (h : ps.length % 32 = 0) :
    addGroups acc (ps ++ qs) =
      ((addGroups (addGroups acc ps).1 qs).1, (addGroups acc ps).2 + (addGroups (addGroups acc ps).1 qs).2) := by
  have hlen : ps.length = 32 * (ps.length / 32) := by omega
  have hpieces : (ps ++ qs).length / 32 + 1 = ps.length / 32 + (qs.length / 32 + 1) := by rw [List.length_append]; omega
  have hfirst : chunksOf 32 (ps.length / 32 + 1) ps = chunksOf 32 (ps.length / 32) ps := by
    simpa using chunksOf_append (by decide) 1 _ ps [] hlen
  rw [addGroups_eq_foldl acc (ps ++ qs), hpieces, chunksOf_append (by decide) _ _ _ _ hlen, List.foldl_append, ← hfirst,
    ← addGroups_eq_foldl]
  exact foldl_addCounted _ _ _

/-- Settles O10: within a group by `addGroup_perm`, across the split by `addGroups_append`. -/
theorem groupSums : Obligations.GroupSums := by
  unfold Obligations.GroupSums
  exact ⟨fun acc _ _ => addGroup_perm acc, addGroups_append⟩

end Sys2Proof.Machine
end

section
/-! The exact values of file 02 as rational numbers: the model's comparison is their order and its product theirs. -/

namespace Sys2Proof.Machine

/-- The number that a finite value is; 0 stands for the others. -/
def FVal.rat : FVal → ℚ
  | .fin n m e => signed n m * 2 ^ e
  | _ => 0

theorem shl2_cast (m : Nat) {k : Int} (hk : 0 ≤ k) : (shl2 m k : ℚ) = m * 2 ^ k := by
  lift k to Nat using hk
  simp [shl2, Nat.shiftLeft_eq]

theorem signed_cast (n : Bool) (m : Nat) : ((signed n m : Int) : ℚ) = if n then -(m : ℚ) else m := by
  cases n <;> simp [signed]

theorem FVal.rat_pos (m : Nat) (e : Int) : (FVal.fin false m e).rat = m * 2 ^ e := by
  simp [FVal.rat, signed]

/-- A value brought to a lower unit is the same number. -/
theorem FVal.rat_at_unit (n : Bool) (m : Nat) {e lo : Int} (h : lo ≤ e) :
    (FVal.fin n m e).rat = (signed n (shl2 m (e - lo)) : Int) * 2 ^ lo := by
  have hpow : (2 : ℚ) ^ e = 2 ^ (e - lo) * 2 ^ lo := by rw [← zpow_add₀ two_ne_zero, Int.sub_add_cancel]
  simp only [FVal.rat, signed_cast, shl2_cast m (Int.sub_nonneg.2 h), hpow]
  split <;> ring

@[simp] theorem FVal.finite_fin (n : Bool) (m : Nat) (e : Int) : (FVal.fin n m e).finite = true := rfl

theorem FVal.exists_fin {x : FVal} (hx : x.finite = true) : ∃ n m e, x = .fin n m e := by
  cases x with
  | fin n m e => exact ⟨n, m, e, rfl⟩
  | nan => cases hx
  | inf n => cases hx

theorem FVal.lt_iff {x y : FVal} (hx : x.finite = true) (hy : y.finite = true) : x.lt y = true ↔ x.rat < y.rat := by
  obtain ⟨a, m, e, rfl⟩ := exists_fin hx
  obtain ⟨b, n, f, rfl⟩ := exists_fin hy
  rw [FVal.rat_at_unit a m (min_le_left e f), FVal.rat_at_unit b n (min_le_right e f), mul_lt_mul_iff_left₀ (by positivity)]
  simp [FVal.lt]

theorem FVal.isNan_of_finite {x : FVal} (hx : x.finite = true) : x.isNan = false := by
  obtain ⟨n, m, e, rfl⟩ := exists_fin hx
  rfl

theorem FVal.le_iff {x y : FVal} (hx : x.finite = true) (hy : y.finite = true) : x.le y = true ↔ x.rat ≤ y.rat := by
  have hxy := FVal.lt_iff hx hy
  have hyx := FVal.lt_iff hy hx
  simp only [FVal.le, FVal.eqv, isNan_of_finite hx, isNan_of_finite hy, Bool.or_eq_true, Bool.and_eq_true, Bool.not_eq_true',
    Bool.not_false, true_and, ← Bool.not_eq_true, hxy, hyx, not_lt]
  exact ⟨fun h => h.elim le_of_lt And.right, fun h => h.lt_or_eq.imp_right fun h => ⟨h.ge, h.le⟩⟩

theorem FVal.finite_mul {x y : FVal} (hx : x.finite = true) (hy : y.finite = true) : (x.mul y).finite = true := by
  obtain ⟨a, m, e, rfl⟩ := exists_fin hx
  obtain ⟨b, n, f, rfl⟩ := exists_fin hy
  rfl

theorem FVal.rat_mul {x y : FVal} (hx : x.finite = true) (hy : y.finite = true) : (x.mul y).rat = x.rat * y.rat := by
  obtain ⟨a, m, e, rfl⟩ := exists_fin hx
  obtain ⟨b, n, f, rfl⟩ := exists_fin hy
  simp only [FVal.mul, FVal.rat, signed_cast, zpow_add₀ (two_ne_zero (α := ℚ)), Nat.cast_mul]
  cases a <;> cases b <;> simp <;> ring

theorem FVal.finite_abs {x : FVal} (hx : x.finite = true) : x.abs.finite = true := by
  obtain ⟨n, m, e, rfl⟩ := exists_fin hx
  rfl

theorem FVal.isZero_iff {x : FVal} (hx : x.finite = true) : x.isZero = true ↔ x.rat = 0 := by
  obtain ⟨n, m, e, rfl⟩ := exists_fin hx
  cases n <;> simp [FVal.isZero, FVal.rat, signed, zpow_ne_zero]

theorem FVal.isZero_abs (x : FVal) : x.abs.isZero = x.isZero := by cases x <;> rfl

end Sys2Proof.Machine
end

section
/-! The encodings of the floating-point formats (R36): a sign and a magnitude, which is a significand and the exponent of its unit.
`decode` reads them, `pack` writes them, and a rounding finds them again (R48, R50). -/

namespace Sys2Proof.Machine

/-- What the four formats share: the encodings end in the largest finite one, and then the non-finite ones. -/
structure FFmt.Layout (F : FFmt) : Prop where
  ebits : 0 < F.ebits
  fbits : 0 < F.fbits
  normal : 2 ^ F.fbits ≤ F.maxFin
  inf : F.hasInf = true → F.maxFin + 1 = (2 ^ F.ebits - 1) * 2 ^ F.fbits
  nan : F.hasInf = false → F.nanBits = F.maxFin + 1 ∧ F.maxFin + 2 = 2 ^ (F.ebits + F.fbits)

theorem FFmt.layout_of_mem {F : FFmt} (h : F ∈ [fp32, bf16, e4m3, e5m2]) : F.Layout := by
  simp only [List.mem_cons, List.not_mem_nil, or_false] at h
  obtain rfl | rfl | rfl | rfl := h <;> constructor <;> decide

section Encodings
variable {F : FFmt}

/-- The significand of an encoding without its sign. -/
def FFmt.sig (F : FFmt) (mag : Nat) : Nat := if mag < 2 ^ F.fbits then mag else 2 ^ F.fbits + mag % 2 ^ F.fbits

/-- The exponent of its unit: that of the subnormals, or that of its exponent field. -/
def FFmt.unit (F : FFmt) (mag : Nat) : Int := max ((mag / 2 ^ F.fbits : Nat) : Int) 1 - F.bias - F.fbits

theorem FFmt.sig_subnormal {mag : Nat} (h : mag < 2 ^ F.fbits) : F.sig mag = mag := if_pos h

theorem FFmt.sig_normal {mag : Nat} (h : 2 ^ F.fbits ≤ mag) : F.sig mag = 2 ^ F.fbits + mag % 2 ^ F.fbits := if_neg (by omega)

theorem FFmt.two_pow_le_sig {mag : Nat} (h : 2 ^ F.fbits ≤ mag) : 2 ^ F.fbits ≤ F.sig mag := by
  rw [sig_normal h]
  exact Nat.le_add_right ..

theorem FFmt.unit_subnormal {mag : Nat} (h : mag < 2 ^ F.fbits) : F.unit mag = 1 - F.bias - F.fbits := by
  simp [FFmt.unit, Nat.div_eq_of_lt h]

theorem FFmt.one_le_field {mag : Nat} (h : 2 ^ F.fbits ≤ mag) : 1 ≤ mag / 2 ^ F.fbits := Nat.div_pos h (Nat.two_pow_pos _)

theorem FFmt.unit_normal {mag : Nat} (h : 2 ^ F.fbits ≤ mag) : F.unit mag = ((mag / 2 ^ F.fbits : Nat) : Int) - F.bias - F.fbits := by
  have := one_le_field h
  simp only [FFmt.unit]
  omega

theorem FFmt.sig_lt (F : FFmt) (mag : Nat) : F.sig mag < 2 ^ (F.fbits + 1) := by
  have := Nat.mod_lt mag (Nat.two_pow_pos F.fbits)
  simp only [FFmt.sig, Nat.pow_succ]
  split <;> omega

theorem FFmt.least_unit_le (F : FFmt) (mag : Nat) : 1 - (F.bias : Int) - F.fbits ≤ F.unit mag := by
  simp only [FFmt.unit]
  omega

theorem FFmt.sig_eq_zero {mag : Nat} : F.sig mag = 0 ↔ mag = 0 := by
  have := Nat.two_pow_pos F.fbits
  simp only [FFmt.sig]
  split <;> omega

/-! ### Decoding -/

theorem FFmt.sign_eq (F : FFmt) (neg : Bool) : F.sign neg = 2 ^ (F.ebits + F.fbits) * b2n neg := by
  cases neg <;> simp [FFmt.sign, b2n]

theorem FFmt.Layout.maxFin_lt (hF : F.Layout) : F.maxFin < 2 ^ (F.ebits + F.fbits) := by
  cases h : F.hasInf with
  | true =>
    have hmax := hF.inf h
    rw [Nat.sub_mul, ← Nat.pow_add] at hmax
    omega
  | false =>
    obtain ⟨-, hmax⟩ := hF.nan h
    omega

/-- An encoding splits into its sign and its magnitude. -/
theorem FFmt.exists_sign_add {code : Nat} (h : code < 2 ^ (1 + F.ebits + F.fbits)) :
    ∃ neg mag, mag < 2 ^ (F.ebits + F.fbits) ∧ code = F.sign neg + mag := by
  have hlt := Nat.mod_lt code (Nat.two_pow_pos (F.ebits + F.fbits))
  rw [Nat.add_assoc, Nat.add_comm, Nat.pow_succ] at h
  by_cases hc : code < 2 ^ (F.ebits + F.fbits)
  · exact ⟨false, code, hc, by simp [FFmt.sign]⟩
  · exact ⟨true, code - 2 ^ (F.ebits + F.fbits), by omega, by simp only [FFmt.sign, if_true]; omega⟩

theorem FFmt.field_lt {mag : Nat} (h : mag < 2 ^ (F.ebits + F.fbits)) : mag / 2 ^ F.fbits < 2 ^ F.ebits :=
  Nat.div_lt_of_lt_mul (by rwa [← Nat.pow_add, Nat.add_comm])

/-- The fields that `decode` reads of an encoding written as a sign and a magnitude. -/
theorem FFmt.decode_fields (hF : F.Layout) (neg : Bool) {mag : Nat} (h : mag < 2 ^ (F.ebits + F.fbits)) :
    bitAt (F.sign neg + mag) (F.ebits + F.fbits) = neg ∧
    bits (F.sign neg + mag) (F.ebits + F.fbits - 1) F.fbits = mag / 2 ^ F.fbits ∧
    bits (F.sign neg + mag) (F.fbits - 1) 0 = mag % 2 ^ F.fbits ∧ (F.sign neg + mag) % 2 ^ (F.ebits + F.fbits) = mag := by
  have he := hF.ebits
  have hf := hF.fbits
  have hfield := field_lt h
  have hsplit : 2 ^ (F.ebits + F.fbits) = 2 ^ F.fbits * 2 ^ F.ebits := by rw [Nat.pow_add, Nat.mul_comm]
  refine ⟨?_, ?_, ?_, ?_⟩
  · rw [bitAt, Nat.shiftRight_eq_div_pow, F.sign_eq, Nat.mul_add_div (Nat.two_pow_pos _), Nat.div_eq_of_lt h]
    cases neg <;> rfl
  · rw [bits, Nat.shiftRight_eq_div_pow, F.sign_eq, hsplit, Nat.mul_assoc, Nat.mul_add_div (Nat.two_pow_pos _),
      show F.ebits + F.fbits - 1 + 1 - F.fbits = F.ebits by omega, Nat.mul_add_mod, Nat.mod_eq_of_lt hfield]
  · rw [bits, Nat.shiftRight_zero, show F.fbits - 1 + 1 - 0 = F.fbits by omega, F.sign_eq, hsplit, Nat.mul_assoc, Nat.mul_add_mod]
  · rw [F.sign_eq, Nat.mul_add_mod, Nat.mod_eq_of_lt h]

/-- The exponent field of ones is that of the encodings beyond the largest finite one. -/
theorem FFmt.Layout.field_eq_iff (hF : F.Layout) (hi : F.hasInf = true) {mag : Nat} (h : mag < 2 ^ (F.ebits + F.fbits)) :
    mag / 2 ^ F.fbits = 2 ^ F.ebits - 1 ↔ F.maxFin < mag := by
  have hfield := field_lt h
  have hle := Nat.le_div_iff_mul_le (Nat.two_pow_pos F.fbits) (x := 2 ^ F.ebits - 1) (y := mag)
  rw [← hF.inf hi] at hle
  omega

theorem FFmt.decode_of_le (hF : F.Layout) (neg : Bool) {mag : Nat} (h : mag ≤ F.maxFin) :
    F.decode (F.sign neg + mag) = .fin neg (F.sig mag) (F.unit mag) := by
  have hlt := lt_of_le_of_lt h hF.maxFin_lt
  obtain ⟨hneg, hfield, hfrac, hmag⟩ := decode_fields hF neg hlt
  have hinf : ¬(F.hasInf = true ∧ mag / 2 ^ F.fbits = 2 ^ F.ebits - 1) := fun hi => by
    have := (hF.field_eq_iff hi.1 hlt).1 hi.2
    omega
  have hnan : ¬(¬F.hasInf = true ∧ mag = F.nanBits) := fun hn => by
    have := hF.nan (by simpa using hn.1)
    omega
  simp only [FFmt.decode, hneg, hfield, hfrac, hmag, hinf, hnan, if_false]
  by_cases hs : mag < 2 ^ F.fbits
  · rw [if_pos (Nat.div_eq_of_lt hs), sig_subnormal hs, unit_subnormal hs, Nat.mod_eq_of_lt hs]
  · rw [Nat.not_lt] at hs
    have := one_le_field hs
    rw [if_neg (by omega), sig_normal hs, unit_normal hs]

theorem FFmt.decode_pos_of_le (hF : F.Layout) {mag : Nat} (h : mag ≤ F.maxFin) :
    F.decode mag = .fin false (F.sig mag) (F.unit mag) := by
  simpa [FFmt.sign] using decode_of_le hF false h

theorem FFmt.le_maxFin_of_finite (hF : F.Layout) {neg : Bool} {mag : Nat} (h : mag < 2 ^ (F.ebits + F.fbits))
    (hfin : (F.decode (F.sign neg + mag)).finite = true) : mag ≤ F.maxFin := by
  by_contra hgt
  rw [Nat.not_le] at hgt
  obtain ⟨hneg, hfield, hfrac, hmag⟩ := decode_fields hF neg h
  simp only [FFmt.decode, hneg, hfield, hfrac, hmag] at hfin
  cases hi : F.hasInf with
  | true =>
    rw [if_pos ⟨hi, (hF.field_eq_iff hi h).2 hgt⟩] at hfin
    split at hfin <;> cases hfin
  | false =>
    have hmag : mag = F.nanBits := by
      have := hF.nan hi
      omega
    simp [hi, hmag, FVal.finite] at hfin

/-! ### Packing -/

theorem FFmt.pack_normal {q : Nat} (hlo : 2 ^ F.fbits ≤ q) (hhi : q < 2 ^ (F.fbits + 1)) (u : Int) :
    F.pack q u = (u + F.fbits + F.bias).toNat * 2 ^ F.fbits + (q - 2 ^ F.fbits) := by
  simp [FFmt.pack, Nat.not_le.2 hhi, Nat.not_lt.2 hlo, Nat.shiftLeft_eq]

/-- What `decode` takes apart, `pack` puts together. -/
theorem FFmt.pack_sig_unit (F : FFmt) (mag : Nat) : F.pack (F.sig mag) (F.unit mag) = mag := by
  have hlt := F.sig_lt mag
  by_cases hs : mag < 2 ^ F.fbits
  · rw [sig_subnormal hs] at hlt ⊢
    simp [FFmt.pack, Nat.not_le.2 hlt, hs]
  · rw [Nat.not_lt] at hs
    have hfield : (F.unit mag + F.fbits + F.bias).toNat = mag / 2 ^ F.fbits := by
      rw [unit_normal hs, Int.sub_add_cancel, Int.sub_add_cancel, Int.toNat_natCast]
    rw [pack_normal (two_pow_le_sig hs) hlt, hfield, sig_normal hs, Nat.add_sub_cancel_left, Nat.mul_comm, Nat.div_add_mod]

/-! ### Rounding -/

/-- The unit to which a number m · 2^e is rounded. -/
def FFmt.roundUnit (F : FFmt) (m : Nat) (e : Int) : Int := max (m.log2 + e - F.fbits) (1 - F.bias - F.fbits)

theorem floorLog2Q_one {m : Nat} (hm : m ≠ 0) : floorLog2Q m 1 = m.log2 := by
  have hle := Nat.log2_self_le hm
  have hone : Nat.log2 1 = 0 := by decide
  simp [floorLog2Q, shl2, Nat.shiftLeft_eq, hone, hle]

/-- Where the unit is the number's own nothing is lost, in either mode. -/
theorem FFmt.roundMag_exact {m : Nat} {e : Int} (hm : m ≠ 0) (h : F.roundUnit m e = e) (rtz : Bool) :
    F.roundMag rtz m 1 e = (m, e, false) := by
  rw [FFmt.roundUnit] at h
  simp [FFmt.roundMag, floorLog2Q_one hm, h, shl2, b2n, Nat.mod_one]

/-- The number m · 2^e cut toward zero is q units of 2^u. -/
structure IsCut (m : Nat) (e : Int) (q : Nat) (u : Int) : Prop where
  le : (q : ℚ) * 2 ^ u ≤ m * 2 ^ e
  lt : (m : ℚ) * 2 ^ e < (q + 1) * 2 ^ u

/-- Toward zero a number is cut to a multiple of its unit, and something is lost where it is none. -/
theorem FFmt.roundMag_rtz (F : FFmt) {m : Nat} (hm : m ≠ 0) (e : Int) : ∃ q lost, F.roundMag true m 1 e = (q, F.roundUnit m e, lost) ∧
    IsCut m e q (F.roundUnit m e) ∧ (lost = false → (m : ℚ) * 2 ^ e = q * 2 ^ F.roundUnit m e) := by
  set u := F.roundUnit m e with hu
  rw [FFmt.roundUnit] at hu
  by_cases hk : u ≤ e
  · have hval : (shl2 m (e - u) : ℚ) * 2 ^ u = m * 2 ^ e := by
      rw [shl2_cast m (Int.sub_nonneg.2 hk), mul_assoc, ← zpow_add₀ two_ne_zero, Int.sub_add_cancel]
    refine ⟨shl2 m (e - u), false, ?_, ⟨hval.le, ?_⟩, fun _ => hval.symm⟩
    · simp [FFmt.roundMag, floorLog2Q_one hm, ← hu, hk, b2n, Nat.mod_one]
    · rw [add_mul, hval, one_mul]
      exact lt_add_of_pos_right _ (by positivity)
  · set d := shl2 1 (u - e) with hd
    have hunit : (2 : ℚ) ^ u = d * 2 ^ e := by
      rw [hd, shl2_cast 1 (by omega), Nat.cast_one, one_mul, ← zpow_add₀ two_ne_zero, Int.sub_add_cancel]
    have hpe : (0 : ℚ) < 2 ^ e := by positivity
    have hdpos : 0 < d := by simp [hd, shl2, Nat.shiftLeft_eq]
    refine ⟨m / d, decide (m % d ≠ 0), ?_, ⟨?_, ?_⟩, fun hl => ?_⟩
    · simp [FFmt.roundMag, floorLog2Q_one hm, ← hu, hk, b2n, hd]
    · rw [hunit, ← mul_assoc]
      exact mul_le_mul_of_nonneg_right (by exact_mod_cast Nat.div_mul_le_self m d) hpe.le
    · rw [hunit, ← mul_assoc]
      exact mul_lt_mul_of_pos_right (by exact_mod_cast Nat.lt_mul_of_div_lt (Nat.lt_succ_self _) hdpos) hpe
    · have hdvd : d ∣ m := Nat.dvd_of_mod_eq_zero (by simpa using hl)
      rw [hunit, ← mul_assoc, ← Nat.cast_mul, Nat.div_mul_cancel hdvd]

theorem FFmt.roundUnit_sig (F : FFmt) {mag : Nat} (h : mag ≠ 0) : F.roundUnit (F.sig mag) (F.unit mag) = F.unit mag := by
  have hne : F.sig mag ≠ 0 := sig_eq_zero.not.2 h
  have hlog : (F.sig mag).log2 < F.fbits + 1 := (Nat.log2_lt hne).2 (F.sig_lt mag)
  have hleast := F.least_unit_le mag
  simp only [FFmt.roundUnit]
  by_cases hs : mag < 2 ^ F.fbits
  · rw [unit_subnormal hs]
    omega
  · have hge : F.fbits ≤ (F.sig mag).log2 := (Nat.le_log2 hne).2 (two_pow_le_sig (Nat.not_lt.1 hs))
    omega

/-- Every encoding is found again by a rounding of its own value. -/
theorem FFmt.roundMag_sig (F : FFmt) {mag : Nat} (h : mag ≠ 0) (rtz : Bool) :
    F.roundMag rtz (F.sig mag) 1 (F.unit mag) = (F.sig mag, F.unit mag, false) :=
  roundMag_exact (sig_eq_zero.not.2 h) (F.roundUnit_sig h) rtz

/-! ### Conversion -/

theorem FFmt.conv_zero (F : FFmt) (conv : Nat) (n : Bool) (e : Int) : F.conv conv (.fin n 0 e) = (F.sign n, .none) := by
  simp [FFmt.conv]

end Encodings

/-- Settles O7: a magnitude's significand and unit are rounded to themselves (`roundMag_sig`) and packed to it
(`pack_sig_unit`). -/
theorem numbersRoundTrip : Obligations.NumbersRoundTrip := by
  unfold Obligations.NumbersRoundTrip
  intro F conv code hmem hcode hfin hftz
  have hF := FFmt.layout_of_mem hmem
  obtain ⟨neg, mag, hmag, rfl⟩ := FFmt.exists_sign_add hcode
  have hle := FFmt.le_maxFin_of_finite hF hmag hfin
  rw [FFmt.decode_of_le hF neg hle]
  by_cases h0 : mag = 0
  · rw [FFmt.sig_eq_zero.2 h0, FFmt.conv_zero, h0, Nat.add_zero]
  · simp [FFmt.conv, FFmt.sig_eq_zero, h0, F.roundMag_sig h0, F.pack_sig_unit, Nat.not_lt.2 hle, hftz]

end Sys2Proof.Machine
end

section
/-! Rounding toward zero (R50, R54): a number beyond the largest finite one is cut to that one or packs to more. -/

namespace Sys2Proof.Machine

/-- A number lies in the binade of its leading bit. -/
theorem log2_binade {m : Nat} (hm : m ≠ 0) (e : Int) :
    (2 : ℚ) ^ ((m.log2 : Int) + e) ≤ m * 2 ^ e ∧ (m : ℚ) * 2 ^ e < 2 ^ ((m.log2 : Int) + e + 1) := by
  have hpe : (0 : ℚ) < 2 ^ e := by positivity
  rw [add_right_comm, zpow_add₀ two_ne_zero, zpow_add₀ two_ne_zero, mul_le_mul_iff_left₀ hpe, mul_lt_mul_iff_left₀ hpe]
  exact ⟨by exact_mod_cast Nat.log2_self_le hm, by exact_mod_cast Nat.lt_log2_self⟩

/-- A number of at least 2^L has its leading bit there or above. -/
theorem le_log2_of_le {m : Nat} (hm : m ≠ 0) {e L : Int} (h : (2 : ℚ) ^ L ≤ m * 2 ^ e) : L ≤ m.log2 + e := by
  have := (zpow_lt_zpow_iff_right₀ (one_lt_two (α := ℚ))).1 (h.trans_lt (log2_binade hm e).2)
  omega

section TowardZero
variable {F : FFmt}

/-- A number that reaches 2^fbits units of a format keeps fbits + 1 bits in its own unit, which is no smaller. -/
theorem FFmt.roundUnit_of_le {m : Nat} {e v : Int} (hm : m ≠ 0) (hv : 1 - (F.bias : Int) - F.fbits ≤ v)
    (h : (2 : ℚ) ^ F.fbits * 2 ^ v ≤ m * 2 ^ e) : F.roundUnit m e = m.log2 + e - F.fbits ∧ v ≤ F.roundUnit m e := by
  have hL : (F.fbits : Int) + v ≤ m.log2 + e := le_log2_of_le hm (by rwa [zpow_add₀ two_ne_zero, zpow_natCast])
  simp only [FFmt.roundUnit]
  omega

/-- Cut to such a unit, a number has a normal significand. -/
theorem FFmt.normal_of_isCut {m q : Nat} {e u : Int} (hm : m ≠ 0) (hu : u = m.log2 + e - F.fbits)
    (hcut : IsCut m e q u) : 2 ^ F.fbits ≤ q ∧ q < 2 ^ (F.fbits + 1) := by
  have hpu : (0 : ℚ) < 2 ^ u := by positivity
  obtain ⟨hlow, hhigh⟩ := log2_binade hm e
  rw [show (m.log2 : Int) + e = (F.fbits : Nat) + u by omega] at hlow hhigh
  rw [zpow_add₀ two_ne_zero, zpow_natCast] at hlow
  rw [add_right_comm, zpow_add₀ two_ne_zero, ← Nat.cast_add_one, zpow_natCast] at hhigh
  have h1 := lt_of_mul_lt_mul_right (hlow.trans_lt hcut.lt) hpu.le
  have h2 := lt_of_mul_lt_mul_right (hcut.le.trans_lt hhigh) hpu.le
  exact ⟨Nat.lt_succ_iff.1 (by exact_mod_cast h1), by exact_mod_cast h2⟩

/-- Encodings are ordered by their units first, then by their significands. -/
theorem FFmt.lt_pack_of_unit_lt {mag q : Nat} {u : Int} (hn : 2 ^ F.fbits ≤ mag) (hlo : 2 ^ F.fbits ≤ q)
    (hhi : q < 2 ^ (F.fbits + 1)) (hu : F.unit mag < u) : mag < F.pack q u := by
  rw [unit_normal hn] at hu
  rw [pack_normal hlo hhi]
  have hfield : mag / 2 ^ F.fbits < (u + F.fbits + F.bias).toNat := by omega
  exact (Nat.lt_mul_of_div_lt hfield (Nat.two_pow_pos _)).trans_le (Nat.le_add_right ..)

theorem FFmt.lt_pack_of_sig_lt {mag q : Nat} (hn : 2 ^ F.fbits ≤ mag) (hhi : q < 2 ^ (F.fbits + 1))
    (hq : F.sig mag < q) : mag < F.pack q (F.unit mag) := by
  have hsig := two_pow_le_sig hn
  have hmag := F.pack_sig_unit mag
  rw [pack_normal hsig (F.sig_lt mag)] at hmag
  rw [pack_normal (hsig.trans hq.le) hhi]
  omega

/-- A number above a normal one, cut to its unit, packs to more, or is cut to that one. -/
theorem FFmt.lt_pack_or_eq_of_isCut {mag m q : Nat} {e : Int} (hm : m ≠ 0) (hn : 2 ^ F.fbits ≤ mag)
    (hgt : (F.sig mag : ℚ) * 2 ^ F.unit mag < m * 2 ^ e) (hcut : IsCut m e q (F.roundUnit m e)) :
    mag < F.pack q (F.roundUnit m e) ∨ q = F.sig mag ∧ F.roundUnit m e = F.unit mag := by
  have hsig : (2 : ℚ) ^ F.fbits ≤ F.sig mag := by exact_mod_cast two_pow_le_sig hn
  have hreach := (mul_le_mul_of_nonneg_right hsig (by positivity)).trans hgt.le
  obtain ⟨hu, hunit⟩ := roundUnit_of_le hm (F.least_unit_le mag) hreach
  obtain ⟨hlo, hhi⟩ := normal_of_isCut hm hu hcut
  obtain hunit | hunit := hunit.lt_or_eq
  · exact .inl (lt_pack_of_unit_lt hn hlo hhi hunit)
  · rw [← hunit] at hcut ⊢
    have hq : F.sig mag ≤ q :=
      Nat.lt_succ_iff.1 (by exact_mod_cast lt_of_mul_lt_mul_right (hgt.trans hcut.lt) (by positivity))
    exact hq.lt_or_eq.imp (lt_pack_of_sig_lt hn hhi) fun h => ⟨h.symm, rfl⟩

/-- Under RTZ a finite number is written as a sign and a magnitude that is at most the largest finite one. -/
theorem FFmt.conv_rtz_le (F : FFmt) {conv : Nat} (hrtz : bitAt conv 0 = true) (neg : Bool) (m : Nat) (e : Int) :
    ∃ mag ≤ F.maxFin, (F.conv conv (.fin neg m e)).1 = F.sign neg + mag := by
  simp only [FFmt.conv, hrtz, Bool.true_or, if_true]
  split_ifs with hm hover hzero hftz
  · exact ⟨0, Nat.zero_le _, rfl⟩
  · exact ⟨F.maxFin, le_rfl, rfl⟩
  · exact ⟨0, Nat.zero_le _, rfl⟩
  · exact ⟨0, Nat.zero_le _, rfl⟩
  · exact ⟨_, Nat.not_lt.1 hover, rfl⟩
  · exact ⟨_, Nat.not_lt.1 hover, rfl⟩

theorem FFmt.conv_rtz_saturates (hF : F.Layout) {conv : Nat} (hrtz : bitAt conv 0 = true) (neg : Bool) {m : Nat} {e : Int}
    (h : (F.decode F.maxFin).lt (.fin false m e) = true) : F.conv conv (.fin neg m e) = (F.sign neg + F.maxFin, .sat) := by
  rw [decode_pos_of_le hF le_rfl] at h
  have hgt := (FVal.lt_iff rfl rfl).1 h
  rw [FVal.rat_pos, FVal.rat_pos] at hgt
  have hm : m ≠ 0 := by
    rintro rfl
    have : (0 : ℚ) ≤ F.sig F.maxFin * 2 ^ F.unit F.maxFin := by positivity
    simp only [Nat.cast_zero, zero_mul] at hgt
    linarith
  obtain ⟨q, lost, hround, hcut, hlost⟩ := F.roundMag_rtz hm e
  simp only [FFmt.conv, hm, if_false, hrtz, hround, Bool.true_or, if_true]
  obtain hover | ⟨rfl, hunit⟩ := lt_pack_or_eq_of_isCut hm hF.normal hgt hcut
  · rw [if_pos hover]
  · have hl : lost = true := by
      cases lost with
      | true => rfl
      | false => exact absurd (hlost rfl) (by rw [hunit]; exact hgt.ne')
    have hpack := F.pack_sig_unit F.maxFin
    have hpos : F.maxFin ≠ 0 := by
      have := hF.normal
      have := Nat.two_pow_pos F.fbits
      omega
    simp [hunit, hpack, hpos, Nat.not_lt.2 hF.normal, hl, h]

end TowardZero

/-- Settles O8: what is written is at most the largest finite magnitude (`conv_rtz_le`), and is that one above it. -/
theorem roundTowardZero : Obligations.RoundTowardZero := by
  unfold Obligations.RoundTowardZero
  intro F conv neg m e hmem hrtz
  have hF := FFmt.layout_of_mem hmem
  refine ⟨?_, FFmt.conv_rtz_saturates hF hrtz neg⟩
  obtain ⟨mag, hmag, hcode⟩ := F.conv_rtz_le hrtz neg m e
  rw [hcode, FFmt.decode_of_le hF neg hmag, FVal.finite_fin]

end Sys2Proof.Machine
end

section
/-! The codes of a value under a scale (R40 to R43, R55): a search among the grid values, largest first for a sign and a magnitude,
smallest code first for U8L. -/

namespace Sys2Proof.Machine

/-! ### The two searches -/

theorem largest_le (n : Nat) (p : Nat → Bool) : largest n p ≤ n - 1 := by
  induction n with
  | zero => exact le_rfl
  | succ n ih =>
    simp only [largest]
    split <;> omega

theorem largest_holds {n : Nat} {p : Nat → Bool} (h : largest n p ≠ 0) : p (largest n p) = true := by
  induction n with
  | zero => exact absurd rfl h
  | succ n ih =>
    by_cases hn : p n = true
    · rwa [largest, if_pos hn]
    · rw [largest, if_neg hn] at h ⊢
      exact ih h

theorem largest_above {n : Nat} {p : Nat → Bool} {j : Nat} (h : largest n p < j) (hj : j < n) : p j = false := by
  induction n with
  | zero => omega
  | succ n ih =>
    by_cases hn : p n = true
    · rw [largest, if_pos hn] at h
      omega
    · rw [largest, if_neg hn] at h
      obtain hj | rfl := Nat.lt_succ_iff_lt_or_eq.1 hj
      · exact ih h hj
      · exact Bool.eq_false_iff.2 hn

theorem smallest_spec (n : Nat) (p : Nat → Bool) :
    smallest n p ≤ n ∧ (smallest n p ≠ n → p (smallest n p) = true) ∧ ∀ j, j < smallest n p → p j = false := by
  unfold smallest
  cases h : (List.range n).find? p with
  | none => exact ⟨le_rfl, fun hn => absurd rfl hn, by simpa using h⟩
  | some c =>
    obtain ⟨hp, hc, hmin⟩ := List.find?_range_eq_some.1 h
    rw [List.mem_range] at hc
    exact ⟨hc.le, fun _ => hp, by simpa using hmin⟩

/-! ### A sign and a magnitude: N4 and N8 -/

/-- The index of the largest grid value that does not exceed a value's magnitude, 0 for none. -/
def gridIndex (f : Fmt) (n : Nat) (x : FVal) (scale : F32) : Nat :=
  if x.isZero then 0 else largest n fun i => 0 < i && ((codeVal f i scale).getD .nan).le x.abs

/-- An index below n with a sign above it; index 0 has none. -/
def signedCode (n i : Nat) (neg : Bool) : Nat := if i = 0 then 0 else i + if neg then n else 0

theorem codeEncode_n4 (x : FVal) (scale : F32) :
    (codeEncode .n4 x scale).1 = signedCode 8 (gridIndex .n4 8 x scale) x.isNeg := by
  exact apply_ite Prod.fst _ _ _

theorem codeEncode_n8 (x : FVal) (scale : F32) :
    (codeEncode .n8 x scale).1 = signedCode 128 (gridIndex .n8 128 x scale) x.isNeg := by
  exact apply_ite Prod.fst _ _ _

theorem signedCode_mod {n i : Nat} (hi : i < n) (neg : Bool) : signedCode n i neg % n = i := by
  unfold signedCode
  split
  · simp [*]
  · cases neg <;> simp [Nat.mod_eq_of_lt hi]

theorem signedCode_lt {n i : Nat} (hi : i < n) (neg : Bool) : signedCode n i neg < 2 * n := by
  unfold signedCode
  split
  · omega
  · split <;> omega

theorem signedCode_ne {n i : Nat} (hi : i < n) (neg : Bool) : signedCode n i neg ≠ n := by
  unfold signedCode
  split
  · omega
  · split <;> omega

theorem signedCode_eq_zero {n i : Nat} {neg : Bool} : signedCode n i neg = 0 ↔ i = 0 := by
  unfold signedCode
  split <;> simp [*]

theorem bitAt_signedCode {b i : Nat} (hi : i < 2 ^ b) (hne : i ≠ 0) (neg : Bool) : bitAt (signedCode (2 ^ b) i neg) b = neg := by
  rw [bitAt, Nat.shiftRight_eq_div_pow, signedCode, if_neg hne]
  cases neg <;> simp [Nat.div_eq_of_lt hi, Nat.add_div_right]

/-- The grid value of a code does not exceed a value's magnitude. -/
def CodeLe (f : Fmt) (x : FVal) (scale : F32) (c : Nat) : Prop := ∃ v, codeVal f c scale = some v ∧ v.le x.abs = true

/-- The indices 1 up to n stand for numbers that are at least the positive number `least`. -/
def GridAbove (f : Fmt) (n : Nat) (scale : F32) (least : FVal) : Prop :=
  ∀ i, 0 < i → i < n → ∃ v, codeVal f i scale = some v ∧ v.finite = true ∧ least.rat ≤ v.rat

section Grid
variable {f : Fmt} {n : Nat} {x : FVal} {scale : F32} {least : FVal}

theorem gridIndex_lt (hn : 0 < n) : gridIndex f n x scale < n := by
  have := largest_le n fun i => 0 < i && ((codeVal f i scale).getD .nan).le x.abs
  unfold gridIndex
  split <;> omega

theorem codeLe_gridIndex (hg : GridAbove f n scale least) (hn : 0 < n) (h : gridIndex f n x scale ≠ 0) :
    CodeLe f x scale (gridIndex f n x scale) := by
  obtain ⟨v, hv, -, -⟩ := hg _ (Nat.pos_of_ne_zero h) (gridIndex_lt hn)
  refine ⟨v, hv, ?_⟩
  unfold gridIndex at h hv
  split at h
  · exact absurd rfl h
  · rename_i hz
    rw [if_neg hz] at hv
    have hp := largest_holds h
    rw [hv, Bool.and_eq_true] at hp
    exact hp.2

/-- No grid value is at most the magnitude of a number below the least of them. -/
theorem not_codeLe_of_lt (hg : GridAbove f n scale least) (hx : x.finite = true) (hlt : x.abs.rat < least.rat) {j : Nat} (hpos : 0 < j)
    (hj : j < n) : ¬CodeLe f x scale j := by
  rintro ⟨v, hv, hle⟩
  obtain ⟨w, hw, hfin, hleast⟩ := hg j hpos hj
  cases hv.symm.trans hw
  exact absurd ((FVal.le_iff hfin (FVal.finite_abs hx)).1 hle) (by linarith)

theorem not_codeLe_above (hg : GridAbove f n scale least) (hleast : 0 < least.rat) (hx : x.finite = true) {j : Nat}
    (h : gridIndex f n x scale < j) (hj : j < n) : ¬CodeLe f x scale j := by
  by_cases hz : x.isZero = true
  · have habs : x.abs.rat = 0 := (FVal.isZero_iff (FVal.finite_abs hx)).1 (by rwa [FVal.isZero_abs])
    exact not_codeLe_of_lt hg hx (by rwa [habs]) (by omega) hj
  · rw [gridIndex, if_neg hz] at h
    rintro ⟨v, hv, hle⟩
    have := largest_above h hj
    simp [hv, hle, show 0 < j by omega] at this

/-- What R55 says of a code with sign bit b. -/
theorem signedCode_gridIndex {b : Nat} (hg : GridAbove f (2 ^ b) scale least) (hfin : least.finite = true) (hleast : 0 < least.rat)
    (hx : x.finite = true) {c : Nat} (hc : c = signedCode (2 ^ b) (gridIndex f (2 ^ b) x scale) x.isNeg) :
    c < 2 * 2 ^ b ∧ c ≠ 2 ^ b ∧ (c ≠ 0 → CodeLe f x scale (c % 2 ^ b) ∧ bitAt c b = x.isNeg) ∧
      (∀ j, c % 2 ^ b < j → j < 2 ^ b → ¬CodeLe f x scale j) ∧ (x.abs.lt least = true → c = 0) := by
  have hi := gridIndex_lt (f := f) (x := x) (scale := scale) (Nat.two_pow_pos b)
  subst hc
  rw [signedCode_mod hi]
  refine ⟨signedCode_lt hi _, signedCode_ne hi _, fun hne => ?_, fun j => not_codeLe_above hg hleast hx, fun hlt => ?_⟩
  · rw [Ne, signedCode_eq_zero] at hne
    exact ⟨codeLe_gridIndex hg (Nat.two_pow_pos b) hne, bitAt_signedCode hi hne _⟩
  · by_contra hne
    rw [signedCode_eq_zero] at hne
    exact not_codeLe_of_lt hg hx ((FVal.lt_iff (FVal.finite_abs hx) hfin).1 hlt) (Nat.pos_of_ne_zero hne) hi
      (codeLe_gridIndex hg (Nat.two_pow_pos b) hne)

end Grid

/-! ### The grids under a scale that R44 lets pass -/

theorem val32_scaleOk {scale : F32} (h : scaleOk scale = true) : (val32 scale).finite = true ∧ 0 < (val32 scale).rat := by
  simp only [scaleOk, Bool.and_eq_true, decide_eq_true_eq] at h
  obtain ⟨hlo, hhi⟩ := h
  have hdec : val32 scale = .fin false (fp32.sig scale.toNat) (fp32.unit scale.toNat) :=
    FFmt.decode_pos_of_le (FFmt.layout_of_mem (by simp)) hhi
  have hsig : 0 < fp32.sig scale.toNat := Nat.pos_of_ne_zero (FFmt.sig_eq_zero.not.2 (by omega))
  rw [hdec, FVal.rat_pos]
  exact ⟨rfl, by positivity⟩

/-- A grid whose indices are multiples of the scale is above the multiple that is the least of them. -/
theorem gridAbove_of_factor {f : Fmt} {n : Nat} {scale : F32} {least : FVal} (hs : scaleOk scale = true) (factor : Nat → FVal)
    (hfin : least.finite = true) (hf : ∀ i, 0 < i → i < n → codeVal f i scale = some ((factor i).mul (val32 scale)) ∧
      (factor i).finite = true ∧ least.rat ≤ (factor i).rat) : GridAbove f n scale (least.mul (val32 scale)) := by
  obtain ⟨hsfin, hspos⟩ := val32_scaleOk hs
  intro i hpos hi
  obtain ⟨hv, hfac, hle⟩ := hf i hpos hi
  refine ⟨_, hv, FVal.finite_mul hfac hsfin, ?_⟩
  rw [FVal.rat_mul hfac hsfin, FVal.rat_mul hfin hsfin]
  exact mul_le_mul_of_nonneg_right hle hspos.le

theorem gridAbove_n4 {scale : F32} (hs : scaleOk scale = true) :
    GridAbove .n4 8 scale ((FVal.fin false 24 (-8)).mul (val32 scale)) := by
  refine gridAbove_of_factor hs (fun i => .fin false (n4Level i) (-8)) rfl fun i hpos hi => ⟨?_, rfl, ?_⟩
  · have hbit : bitAt i 3 = false := by simp [bitAt, Nat.shiftRight_eq_div_pow, Nat.div_eq_of_lt hi]
    simp [codeVal, Nat.mod_eq_of_lt hi, hbit, show i ≠ 8 by omega, show i ≠ 0 by omega]
  · have hlevel : ∀ i < 8, 0 < i → 24 ≤ n4Level i := by decide
    rw [FVal.rat_pos, FVal.rat_pos]
    exact mul_le_mul_of_nonneg_right (by exact_mod_cast hlevel i hi hpos) (by positivity)

theorem gridAbove_n8 {scale : F32} (hs : scaleOk scale = true) :
    GridAbove .n8 128 scale ((FVal.fin false 17 (-11)).mul (val32 scale)) := by
  refine gridAbove_of_factor hs (fun i => .fin false (16 + i % 16) ((bits i 6 4 : Nat) - 7 - 4)) rfl fun i hpos hi => ⟨?_, rfl, ?_⟩
  · have hbit : bitAt i 7 = false := by simp [bitAt, Nat.shiftRight_eq_div_pow, Nat.div_eq_of_lt hi]
    simp [codeVal, hbit, show i ≠ 128 by omega, show i ≠ 0 by omega]
  · have hexp : bits i 6 4 = i / 16 := by rw [bits, Nat.shiftRight_eq_div_pow]; omega
    have hpow : 17 ≤ (16 + i % 16) * 2 ^ (i / 16) := by
      by_cases h16 : i < 16
      · rw [Nat.div_eq_of_lt h16]
        omega
      · have : 2 ^ 1 ≤ 2 ^ (i / 16) := Nat.pow_le_pow_right (by decide) (by omega)
        exact (by omega : 17 ≤ (16 + i % 16) * 2 ^ 1).trans (Nat.mul_le_mul_left _ this)
    rw [FVal.rat_pos, FVal.rat_pos, hexp, show ((i / 16 : Nat) : Int) - 7 - 4 = (i / 16 : Nat) + -11 by omega, zpow_add₀ two_ne_zero,
      ← mul_assoc, zpow_natCast]
    exact mul_le_mul_of_nonneg_right (by exact_mod_cast hpow) (by positivity)

/-- A positive multiple of a valid scale is positive. -/
theorem mul_scale_pos {scale : F32} (hs : scaleOk scale = true) {m : Nat} (hm : 0 < m) (e : Int) :
    0 < ((FVal.fin false m e).mul (val32 scale)).rat := by
  obtain ⟨hfin, hpos⟩ := val32_scaleOk hs
  rw [FVal.rat_mul rfl hfin, FVal.rat_pos]
  positivity

/-! ### U8L -/

theorem codeEncode_u8l_zero {x : FVal} (h : x.isZero = true) (scale : F32) : (codeEncode .u8l x scale).1 = 0xFF := by
  simp [codeEncode, h]

theorem codeEncode_u8l_neg {x : FVal} (hz : x.isZero = false) (h : x.isNeg = true) (scale : F32) :
    (codeEncode .u8l x scale).1 = 0xFF := by
  simp [codeEncode, hz, h]

theorem codeEncode_u8l_above {x : FVal} {scale : F32} (hz : x.isZero = false) (hn : x.isNeg = false)
    (h : (val32 scale).lt x = true) : (codeEncode .u8l x scale).1 = 0 := by
  simp [codeEncode, hz, hn, h]

theorem codeEncode_u8l_within {x : FVal} {scale : F32} (hz : x.isZero = false) (hn : x.isNeg = false)
    (h : (val32 scale).lt x = false) :
    (codeEncode .u8l x scale).1 = smallest 255 fun c => (val32 (u8lDecode c scale)).le x := by
  simp only [codeEncode, hz, hn, h, Bool.false_eq_true, if_false]
  split
  · rw [‹smallest 255 _ = 255›]
  · rfl

theorem codeEncode_zero {x : FVal} (h : x.isZero = true) (scale : F32) :
    (codeEncode .n4 x scale).1 = 0 ∧ (codeEncode .n8 x scale).1 = 0 ∧ (codeEncode .u8l x scale).1 = 0xFF := by
  rw [codeEncode_n4, codeEncode_n8]
  simp [signedCode, gridIndex, h, codeEncode_u8l_zero]

/-- A number above a valid scale is not zero. -/
theorem isZero_of_scale_lt {x : FVal} {scale : F32} (hs : scaleOk scale = true) (hx : x.finite = true)
    (h : (val32 scale).lt x = true) : x.isZero = false := by
  obtain ⟨hfin, hpos⟩ := val32_scaleOk hs
  have hlt := (FVal.lt_iff hfin hx).1 h
  rw [← Bool.not_eq_true, FVal.isZero_iff hx]
  exact (hpos.trans hlt).ne'

/-- Settles O9: N4 and N8 by the search of a grid (`signedCode_gridIndex`), U8L by the search of its codes. -/
theorem codeEncoding : Obligations.CodeEncoding := by
  unfold Obligations.CodeEncoding
  intro x scale hx hs
  have hsfin := (val32_scaleOk hs).1
  have hleast (m : Nat) (e : Int) : ((FVal.fin false m e).mul (val32 scale)).finite = true := FVal.finite_mul rfl hsfin
  refine ⟨signedCode_gridIndex (b := 3) (gridAbove_n4 hs) (hleast ..) (mul_scale_pos hs (by decide) _) hx (codeEncode_n4 ..),
    signedCode_gridIndex (b := 7) (gridAbove_n8 hs) (hleast ..) (mul_scale_pos hs (by decide) _) hx (codeEncode_n8 ..),
    fun hz => codeEncode_zero hz scale, fun hz hn => codeEncode_u8l_neg hz hn scale,
    fun hn h => codeEncode_u8l_above (isZero_of_scale_lt hs hx h) hn h, fun hn hz h => ?_⟩
  rw [codeEncode_u8l_within hz hn h]
  exact smallest_spec 255 _

end Sys2Proof.Machine
end

section
/-! The operations of the crown (R70), by the spec lemmas `crownAlu_of` and `crownJump_of`: a row's function on the fields of the
word gives the value that d receives, or the program counter. -/

namespace Sys2Proof.Machine

section
variable {s : State} {t th : Nat} {pn : PolderNo} {p : Polder} {w : W32} (h : Issues s t th pn p w) {op : BitVec 8}
  (ho : w.extractLsb' 24 8 = op)
include h ho

theorem crownAlu_gives (f : W32 → W64 → W64 → W64) {v : W64}
    (hv : f w (sreg s t th (w.extractLsb' 16 4)) (sreg s t th (w.extractLsb' 12 4)) = v) :
    ThreadMoves s t th ((threadOf s.dev t th).pc + 1) (wrote (sreg s t th) (w.extractLsb' 20 4) v)
      (.next { s with dev := crownAlu op.toNat f s.dev t }) := by
  have := crownAlu_of h (iOp_of ho) f
  rwa [iD_eq, iA_eq, iB_eq, hv] at this

theorem crownJump_goes (f : W32 → W64 → W64 → W64) {v : W64}
    (hv : f w (sreg s t th (w.extractLsb' 16 4)) (threadOf s.dev t th).pc = v) :
    ThreadMoves s t th v (sreg s t th) (.next { s with dev := crownJump op.toNat f s.dev t }) := by
  have := crownJump_of h (iOp_of ho) f
  rwa [iA_eq, hv] at this

end

theorem FVal.lt_eq_false_of_isNan {x y : FVal} (h : x.isNan = true ∨ y.isNan = true) : x.lt y = false := by
  cases x <;> cases y <;> simp_all [FVal.isNan, FVal.lt]

/-- Settles O13: each operation is its row's function, by `crownAlu_gives` and `crownJump_goes`. -/
theorem crownOperations : Obligations.CrownOperations := by
  unfold Obligations.CrownOperations
  refine ⟨fun t s th pn p w h => ?_, fun t s th pn p w h => ?_, fun t s th pn p w h => ?_⟩
  · exact ⟨fun ho => crownAlu_gives h ho (fun _ a b => a + b) rfl, fun ho => crownAlu_gives h ho (fun _ a b => a - b) rfl,
      fun ho => crownAlu_gives h ho (fun _ a b => a * b) rfl, fun ho => crownAlu_gives h ho (fun _ a b => a &&& b) rfl,
      fun ho => crownAlu_gives h ho (fun _ a b => a ||| b) rfl, fun ho => crownAlu_gives h ho (fun _ a b => a ^^^ b) rfl,
      fun ho => crownAlu_gives h ho (fun _ a b => a <<< shiftBy b) rfl, fun ho => crownAlu_gives h ho (fun _ a b => a >>> shiftBy b) rfl,
      fun ho => crownAlu_gives h ho (fun _ a b => a.sshiftRight (shiftBy b)) rfl,
      fun ho => crownAlu_gives h ho (fun w a _ => a + iSimm w) (by rw [iSimm_eq]),
      fun ho => crownAlu_gives h ho (fun w a _ => (a <<< 12) ||| BitVec.ofNat 64 (iImm w)) (by rw [iImm64_eq])⟩
  · exact ⟨fun ho => crownAlu_gives h ho (fun _ a b => if a.toInt < b.toInt then 1 else 0) rfl,
      fun ho => crownAlu_gives h ho (fun _ a b => if a = b then 1 else 0) rfl,
      fun ho => crownAlu_gives h ho (fun _ a b => if flt (a.truncate 32) (b.truncate 32) then 1 else 0)
        rfl,
      fun x y hn => FVal.lt_eq_false_of_isNan hn, by decide +kernel, by decide +kernel⟩
  · exact ⟨fun ho => crownJump_goes h ho (fun w a pc => if a ≠ 0 then pc + iSimm w else pc + 1) (by rw [iSimm_eq]),
      fun ho => crownJump_goes h ho (fun w a pc => if a = 0 then pc + iSimm w else pc + 1) (by rw [iSimm_eq]),
      fun ho => crownJump_goes h ho (fun w a _ => a + BitVec.ofNat 64 (iImm w)) (by rw [iImm64_eq])⟩

end Sys2Proof.Machine
end

section
/-! O1: a step runs the command at the front of the queue, and every row answers through one of the five lenses on the state
(`onDev`, `onDevA`, `onAon`, `onKeys`, `onAll`), none of which reaches the queue. -/

namespace Sys2Proof.Machine

theorem step_cons {s : State} {c : Instr} {rest : List Instr} (h : s.pending = c :: rest) :
    step s = exec c { s with pending := rest } := by
  unfold step; rw [h]

theorem step_nil {s : State} (h : s.pending = []) : step s = .next s := by
  unfold step; rw [h]

/-- Each row is one lens on the state, which answers a next state and keeps the queue by definition. -/
theorem exec_next (c : Instr) (s : State) : ∃ s', exec c s = .next s' ∧ s'.pending = s.pending := by
  cases c <;> exact ⟨_, rfl, rfl⟩

/-- Settles O1, by `step_cons`, `step_nil` and `exec_next`; no word of the table spells a command. -/
theorem stepsRunCommands : Obligations.StepsRunCommands := by
  unfold Obligations.StepsRunCommands
  exact ⟨⟨fun s c rest h => step_cons h, fun s h => step_nil h, fun s nbits w => rfl⟩, exec_next⟩

end Sys2Proof.Machine
end

section
/-! Loads, stores and summary registers of the crown (R70, R71, R79, R80). -/

namespace Sys2Proof.Machine

/-- A field of a word as a number is the slice of its bits. -/
theorem fld_eq_extractLsb' {n : Nat} (x : BitVec n) (hi lo : Nat) : fld x hi lo = (x.extractLsb' lo (hi + 1 - lo)).toNat := by
  simp [fld, bits, BitVec.extractLsb'_toNat]

/-- `crownOp_of` with the op code and the fields of the word as bit slices. -/
theorem crownOp_runs {s : State} {t th : Nat} {pn : PolderNo} {p : Polder} {w : W32} (h : Issues s t th pn p w) {op : BitVec 8}
    (ho : w.extractLsb' 24 8 = op) (body : Dev → Nat → Issued → W32 → W64 → W64 → Dev) :
    crownOp op.toNat body s.dev t = body (afterIssue s.dev t th pn) t ⟨th, pn, p, .word w⟩ w
      (sreg s t th (w.extractLsb' 16 4)) (sreg s t th (w.extractLsb' 12 4)) := by
  rw [crownOp_of h (iOp_of ho), iA_eq, iB_eq]

section
variable {s : State} {t th : Nat} {pn : PolderNo} {d : Dev}

/-- A row that completes the instruction with a value. -/
theorem moves_of_row (hst : (threadOf s.dev t th).st = .ready) {rd : BitVec 4} {v : W64}
    (hd : d = onThread (afterIssue s.dev t th pn) t th fun x => threadDone x rd v) :
    ThreadMoves s t th ((threadOf s.dev t th).pc + 1) (wrote (sreg s t th) rd v) (.next { s with dev := d }) := by
  rw [hd]
  exact threadDone_moves pn rd v hst

/-- A row that leaves the thread waiting. -/
theorem waits_of_row {c : WaitOn} (hd : d = threadWait (afterIssue s.dev t th pn) t th c) :
    ThreadWaits s t th c (.next { s with dev := d }) := by
  rw [hd]
  exact threadWaits_of c

end

/-- A thread changed in place, on a device whose tiles are those of the state but for the thread that issued last. -/
theorem oneThread_onThread {s : State} {d : Dev} {t th last : Nat} {pc : W64} {regs : BitVec 4 → W64} (f : Thread → Thread)
    (htile : tileOf d t = { tileOf s.dev t with lastIssue := last }) (hothers : ∀ u, u ≠ t → tileOf d u = tileOf s.dev u)
    (hst : (f (threadOf s.dev t th)).st = .ready) (hpc : (f (threadOf s.dev t th)).pc = pc)
    (hregs : ∀ r, regRead (f (threadOf s.dev t th)) r = regs r) :
    OneThread s { s with dev := onThread d t th f } t th last pc regs := by
  have hthread : ∀ u, threadOf d t u = threadOf s.dev t u := fun u => by rw [threadOf, htile]; rfl
  refine ⟨⟨rfl, rfl, rfl⟩, fun u hu => ?_, ?_, fun u hu => ?_, ?_, ?_, fun r => ?_⟩
  · rw [tileOf_onThread_ne _ _ _ hu, hothers u hu]
  · rw [tileOf_onThread, htile]
  · rw [threadOf_onThread_ne _ _ hu, hthread]
  · rw [threadOf_onThread, hthread, hst]
  · rw [threadOf_onThread, hthread, hpc]
  · rw [sreg, threadOf_onThread, hthread, hregs]

/-! ### LD -/

section
variable {s : State} {t : TileNo} {th : Nat} {pn : PolderNo} {p : Polder} {w : W32} {o : W64} (h : Issues s t.toNat th pn p w)
  (heq : o = sreg s t.toNat th (w.extractLsb' 16 4) + 8 * (w.extractLsb' 0 12).zeroExtend 64)
  (halign : o.toNat % 8 = 0) (hend : o.toNat + 8 ≤ 2 ^ 20)
  (hshare : inShare s.dev p t.toNat (t.toNat * 2 ^ 20 + o.toNat) (t.toNat * 2 ^ 20 + o.toNat + 8) = true)

include heq halign hend hshare in
theorem lsOfs_inside :
    lsOfs (afterIssue s.dev t.toNat th pn) t.toNat p w (sreg s t.toNat th (w.extractLsb' 16 4)) = some o.toNat := by
  rw [lsOfs_of heq, if_pos ⟨halign, hend, hshare⟩]

include h heq halign hend hshare

theorem ld_waits (ho : w.extractLsb' 24 8 = 0x10) :
    ThreadWaits s t.toNat th (.load (w.extractLsb' 20 4) o.toNat) (exec (.ld t) s) := by
  have hrow : crownOp 0x10 crownLd s.dev t.toNat =
      threadWait (afterIssue s.dev t.toNat th pn) t.toNat th (.load (w.extractLsb' 20 4) o.toNat) := by
    refine (crownOp_runs h ho crownLd).trans ?_
    unfold crownLd
    simp only [lsOfs_inside heq halign hend hshare, iD_eq]
  exact waits_of_row hrow

end

/-- The data of an outstanding load returns. -/
theorem ldDataReturn_moves {t : TileNo} {th : ThreadNo} {s : State} {pn : PolderNo} {p : Polder} {rd : BitVec 4} {o : Nat}
    (hst : (threadOf s.dev t.toNat th.toNat).st = .waiting) (hw : (threadOf s.dev t.toNat th.toNat).wait = .load rd o)
    (hpol : polderOfThread s.dev t.toNat th.toNat = some (pn, p)) (hr : rangeErr s.dev (t.toNat * 2 ^ 20 + o) 8 = none)
    (hc : Clean s.dev (t.toNat * 2 ^ 20 + o) 8) :
    ∃ s', exec (.ldDataReturn t th) s = .next s' ∧ s'.dev = { s.dev with tiles := s'.dev.tiles } ∧
      OneThread s s' t.toNat th.toNat (tileOf s.dev t.toNat).lastIssue ((threadOf s.dev t.toNat th.toNat).pc + 1)
        (wrote (sreg s t.toNat th.toNat) rd (BitVec.ofNat 64 (ofBytes (bytesAt s.dev (t.toNat * 2 ^ 20 + o) 8)))) := by
  have hp : (threadOf s.dev t.toNat th.toNat).st ≠ .parked := by rw [hst]; decide
  have hrow : crownLoadReturn s.dev t.toNat th.toNat = onThread s.dev t.toNat th.toNat fun x =>
      threadDone x rd (BitVec.ofNat 64 (ofBytes (bytesAt s.dev (t.toNat * 2 ^ 20 + o) 8))) := by
    unfold crownLoadReturn
    simp only [hw, hpol, hst, true_or, if_true, memRead_clean _ hr hc]
  refine ⟨{ s with dev := crownLoadReturn s.dev t.toNat th.toNat }, rfl, by rw [hrow]; rfl, ?_⟩
  rw [hrow]
  exact oneThread_onThread _ rfl (fun _ _ => rfl) (by rw [threadDone_of _ _ _ hp]) (by rw [threadDone_of _ _ _ hp])
    fun r => by rw [threadDone_of _ _ _ hp]; exact regRead_regWrite ..

/-! ### ST -/

/-- What a whole word stored leaves: its bytes there, every other byte and every other error as they were. -/
theorem stored_word {d : Dev} {a : Nat} {bs : List Byte} (ha : a % 8 = 0) (hl : bs.length = 8) (hp : place d a = .ok a) :
    bytesAt (rawWrite (setEcc d a none) a bs) a 8 = bs ∧
      (∀ b, b < a ∨ a + 8 ≤ b → byteAt (rawWrite (setEcc d a none) a bs) b = byteAt d b) ∧
      (∀ k, progBase ≤ k → Mem.read (rawWrite (setEcc d a none) a bs).mem.bytes k = Mem.read d.mem.bytes k) ∧
      ∀ k, NMap.find? (rawWrite (setEcc d a none) a bs).mem.ecc k = if k = a / 8 then none else NMap.find? d.mem.ecc k := by
  have hst : Stored (setEcc d a none) a bs (rawWrite (setEcc d a none) a bs) :=
    stored_at bs (by rwa [place_setEcc]) (by omega)
  obtain ⟨-, hin, hout, hprog⟩ := hst
  rw [hl] at hout
  refine ⟨?_, fun b hb => (hout b hb).trans ?_, hprog, fun k => ?_⟩
  · exact List.ext_getElem (by simp [hl]) fun i _ hi => by simpa [bytesAt] using hin i hi
  · unfold byteAt; rw [place_setEcc]; rfl
  · change NMap.find? (NMap.erase d.mem.ecc (a / 8)) k = _
    split
    · next hk => rw [hk, NMap.find_erase_self]
    · next hk => exact NMap.find_erase_ne _ hk

section
variable {s : State} {t : TileNo} {th : Nat} {pn : PolderNo} {p : Polder} {w : W32} {o : W64} (h : Issues s t.toNat th pn p w)
  (heq : o = sreg s t.toNat th (w.extractLsb' 16 4) + 8 * (w.extractLsb' 0 12).zeroExtend 64)
  (halign : o.toNat % 8 = 0) (hend : o.toNat + 8 ≤ 2 ^ 20)
  (hshare : inShare s.dev p t.toNat (t.toNat * 2 ^ 20 + o.toNat) (t.toNat * 2 ^ 20 + o.toNat + 8) = true)
include halign hend hshare

theorem place_inside : place s.dev (t.toNat * 2 ^ 20 + o.toNat) = .ok (t.toNat * 2 ^ 20 + o.toNat) := by
  have ht := t.isLt
  exact place_tile (by omega) (by rw [show (t.toNat * 2 ^ 20 + o.toNat) / 2 ^ 20 = t.toNat by omega]; exact inShare_up hshare)

include h heq in
/-- The row of ST: the word is stored, whatever error lay there, and the thread goes on. -/
theorem crownOp_st (ho : w.extractLsb' 24 8 = 0x11) :
    crownOp 0x11 crownSt s.dev t.toNat =
      onThread (rawWrite (setEcc (afterIssue s.dev t.toNat th pn) (t.toNat * 2 ^ 20 + o.toNat) none) (t.toNat * 2 ^ 20 + o.toNat)
        (toBytes 8 (sreg s t.toNat th (w.extractLsb' 12 4)).toNat)) t.toNat th fun x => { x with pc := x.pc + 1 } := by
  have hT := afterIssue_onlyTiles s.dev t.toNat th pn
  refine (crownOp_runs h ho crownSt).trans ?_
  unfold crownSt
  simp only [lsOfs_inside heq halign hend hshare]
  rw [memWrite_word _ ((hT.rangeErr ..).trans (rangeErr_tile (inShare_up hshare) t.isLt hend)) (by omega)
    ((hT.place _).trans (place_inside halign hend hshare)) (toBytes_length ..)]

include h heq in
theorem crownOp_st_stores (ho : w.extractLsb' 24 8 = 0x11) :
    let d := crownOp 0x11 crownSt s.dev t.toNat
    d = { s.dev with tiles := d.tiles, counters := d.counters, mem := { s.dev.mem with bytes := d.mem.bytes, ecc := d.mem.ecc } } ∧
      OneThread s { s with dev := d } t.toNat th th ((threadOf s.dev t.toNat th).pc + 1) (sreg s t.toNat th) ∧
      bytesAt d (t.toNat * 2 ^ 20 + o.toNat) 8 = toBytes 8 (sreg s t.toNat th (w.extractLsb' 12 4)).toNat ∧
      (∀ a, a < t.toNat * 2 ^ 20 + o.toNat ∨ t.toNat * 2 ^ 20 + o.toNat + 8 ≤ a → byteAt d a = byteAt s.dev a) ∧
      (∀ k, progBase ≤ k → Mem.read d.mem.bytes k = Mem.read s.dev.mem.bytes k) ∧
      ∀ k, NMap.find? d.mem.ecc k = if k = (t.toNat * 2 ^ 20 + o.toNat) / 8 then none else NMap.find? s.dev.mem.ecc k := by
  rw [crownOp_st h heq halign hend hshare ho]
  intro d
  have hT := afterIssue_onlyTiles s.dev t.toNat th pn
  have hO (d : Dev) : OnlyTiles d (onThread d t.toNat th fun x => { x with pc := x.pc + 1 }) := onThread_onlyTiles ..
  obtain ⟨hin, hout, hprog, hecc⟩ := stored_word (d := afterIssue s.dev t.toNat th pn) (a := t.toNat * 2 ^ 20 + o.toNat)
    (bs := toBytes 8 (sreg s t.toNat th (w.extractLsb' 12 4)).toNat) (by omega) (toBytes_length ..)
    ((hT.place _).trans (place_inside halign hend hshare))
  refine ⟨?_, oneThread_onThread _ (tileOf_afterIssue ..) (fun u hu => tileOf_afterIssue_ne _ _ _ hu) h.ready rfl (fun _ => rfl), ?_,
    fun a ha => ?_, fun k hk => (hprog k hk).trans (by rw [hT.mem]), fun k => (hecc k).trans (by rw [hT.mem])⟩
  · simp only [d, onThread, onTile, rawWrite, setEcc, onMem]
    rw [hT]
  · exact ((hO _).bytesAt ..).trans hin
  · exact ((hO _).byteAt a).trans ((hout a ha).trans (hT.byteAt a))

end

/-! ### SUMRD and WAITS -/

theorem summOf_afterIssue (d : Dev) (t th : Nat) (pn : PolderNo) (r : Nat) : summOf (afterIssue d t th pn) t r = summOf d t r := by
  unfold summOf; rw [tileOf_afterIssue]

section
variable {s : State} {t : TileNo} {th : Nat} {pn : PolderNo} {p : Polder} {w : W32} (h : Issues s t.toNat th pn p w)
  (hlo : p.ybase ≤ (w.extractLsb' 0 6).toNat) (hhi : (w.extractLsb' 0 6).toNat < p.ybase + p.ycount)

/-- The summary register that a word names. -/
theorem iImm_mod (w : W32) : iImm w % 64 = (w.extractLsb' 0 6).toNat := by
  rw [iImm_eq]; simp [BitVec.extractLsb'_toNat]

include hlo hhi in
theorem summOk_inside : summOk p (w.extractLsb' 0 6).toNat = true := by
  rw [summOk, decide_eq_true hlo, decide_eq_true hhi]; rfl

include h hlo hhi

theorem sumrd_moves (ho : w.extractLsb' 24 8 = 0x20) :
    ThreadMoves s t.toNat th ((threadOf s.dev t.toNat th).pc + 1)
      (wrote (sreg s t.toNat th) (w.extractLsb' 20 4) (summOf s.dev t.toNat (w.extractLsb' 0 6).toNat)) (exec (.sumrd t) s) := by
  have hrow : crownOp 0x20 crownSumrd s.dev t.toNat = onThread (afterIssue s.dev t.toNat th pn) t.toNat th fun x =>
      threadDone x (w.extractLsb' 20 4) (summOf s.dev t.toNat (w.extractLsb' 0 6).toNat) := by
    refine (crownOp_runs h ho crownSumrd).trans ?_
    unfold crownSumrd
    simp only [iImm_mod, summOk_inside hlo hhi, if_true, summOf_afterIssue, iD_eq]
  exact moves_of_row h.ready hrow

/-- The row of WAITS, by the comparison of the post count. -/
theorem crownOp_waits (ho : w.extractLsb' 24 8 = 0x21) :
    let v := summOf s.dev t.toNat (w.extractLsb' 0 6).toNat
    let a := sreg s t.toNat th (w.extractLsb' 16 4)
    crownOp 0x21 crownWaits s.dev t.toNat =
      if v.extractLsb' 48 16 ≠ a.extractLsb' 0 16 then
        onThread (afterIssue s.dev t.toNat th pn) t.toNat th fun x => threadDone x (w.extractLsb' 20 4) v
      else threadWait (afterIssue s.dev t.toNat th pn) t.toNat th
        (.post (w.extractLsb' 20 4) (w.extractLsb' 0 6).toNat (a.extractLsb' 0 16)) := by
  intro v a
  refine (crownOp_runs h ho crownWaits).trans ?_
  unfold crownWaits
  simp only [iImm_mod, summOk_inside hlo hhi, summOf_afterIssue, iD_eq, fld_eq_extractLsb', Bool.not_true, Bool.false_eq_true, if_false,
    ne_eq, BitVec.toNat_inj]
  simp only [v, a, BitVec.ofNat_toNat, BitVec.setWidth_eq]

theorem waits_moves (ho : w.extractLsb' 24 8 = 0x21) (hne : (summOf s.dev t.toNat (w.extractLsb' 0 6).toNat).extractLsb' 48 16 ≠
      (sreg s t.toNat th (w.extractLsb' 16 4)).extractLsb' 0 16) :
    ThreadMoves s t.toNat th ((threadOf s.dev t.toNat th).pc + 1)
      (wrote (sreg s t.toNat th) (w.extractLsb' 20 4) (summOf s.dev t.toNat (w.extractLsb' 0 6).toNat)) (exec (.waits t) s) := by
  exact moves_of_row h.ready ((crownOp_waits h hlo hhi ho).trans (if_pos hne))

theorem waits_waits (ho : w.extractLsb' 24 8 = 0x21) (heq : (summOf s.dev t.toNat (w.extractLsb' 0 6).toNat).extractLsb' 48 16 =
      (sreg s t.toNat th (w.extractLsb' 16 4)).extractLsb' 0 16) :
    ThreadWaits s t.toNat th (.post (w.extractLsb' 20 4) (w.extractLsb' 0 6).toNat
      ((sreg s t.toNat th (w.extractLsb' 16 4)).extractLsb' 0 16)) (exec (.waits t) s) := by
  exact waits_of_row ((crownOp_waits h hlo hhi ho).trans (if_neg (not_not.2 heq)))

end

/-- Settles O14, operation by operation. -/
theorem crownMemory : Obligations.CrownMemory := by
  unfold Obligations.CrownMemory
  refine ⟨⟨fun t s th pn p w o h ho heq halign hend hshare => ld_waits h heq halign hend hshare ho,
    fun t th s pn p rd o hst hw hpol hr hc => ldDataReturn_moves hst hw hpol hr hc⟩,
    fun t s th pn p w o h ho heq halign hend hshare => ⟨_, rfl, crownOp_st_stores h heq halign hend hshare ho⟩,
    fun t s th pn p w h => ?_⟩
  intro r v rd a hlo hhi
  exact ⟨fun ho => sumrd_moves h hlo hhi ho, fun ho => waits_moves h hlo hhi ho,
      fun ho => waits_waits h hlo hhi ho⟩

end Sys2Proof.Machine
end

section
/-! SPAWN, EXIT and CYC (R64, R67, R70). -/

namespace Sys2Proof.Machine

/-! ### SPAWN -/

theorem freeThread_of {d : Dev} {t : Nat} {p : Polder} {n : Nat} (hlo : p.tbase ≤ n) (hhi : n < p.tbase + p.tcount)
    (hfree : (threadOf d t n).st = .free) (hmin : ∀ m, p.tbase ≤ m → m < n → (threadOf d t m).st ≠ .free) :
    freeThread d t p = some n := by
  unfold freeThread
  rw [List.find?_eq_some_iff_getElem]
  refine ⟨by simpa using hfree, n - p.tbase, by simp; omega, by simp; omega, fun j hj => ?_⟩
  simpa using hmin (p.tbase + j) (by omega) (by omega)

theorem freeThread_none {d : Dev} {t : Nat} {p : Polder}
    (h : ∀ m, p.tbase ≤ m → m < p.tbase + p.tcount → (threadOf d t m).st ≠ .free) : freeThread d t p = none := by
  unfold freeThread
  rw [List.find?_eq_none]
  intro m hm
  obtain ⟨i, hi, rfl⟩ := List.mem_map.1 hm
  rw [List.mem_range] at hi
  simpa using h (p.tbase + i) (by omega) (by omega)

theorem regRead_startThread (n : Nat) (pc arg : W64) (r : BitVec 4) :
    regRead (startThread n pc arg) r = if r = 1 then arg else if r = 2 then BitVec.ofNat 64 n else 0 := by
  have hne : ∀ k : BitVec 4, r ≠ k → r.toNat ≠ k.toNat := fun k h e => h (BitVec.eq_of_toNat_eq e)
  unfold regRead startThread
  by_cases h1 : r = 1
  · subst h1; simp
  by_cases h2 : r = 2
  · subst h2; simp
  have hn1 := hne 1 h1
  have hn2 := hne 2 h2
  by_cases h0 : r = 0
  · simp [h0]
  · rw [if_neg h0, if_neg h1, if_neg h2]
    exact (NMap.get_set_ne _ _ _ _ hn2).trans (NMap.get_set_ne _ _ _ _ hn1)

section
variable {s : State} {t : TileNo} {th : Nat} {pn : PolderNo} {p : Polder} {w : W32} (h : Issues s t.toNat th pn p w)
include h

theorem spawn_starts (ho : w.extractLsb' 24 8 = 0x2B) {n : Nat} (hlo : p.tbase ≤ n) (hhi : n < p.tbase + p.tcount)
    (hfree : (threadOf s.dev t.toNat n).st = .free) (hmin : ∀ m, p.tbase ≤ m → m < n → (threadOf s.dev t.toNat m).st ≠ .free) :
    crownOp 0x2B crownSpawn s.dev t.toNat =
      onThread (onThread (afterIssue s.dev t.toNat th pn) t.toNat n fun _ =>
        startThread n (sreg s t.toNat th (w.extractLsb' 16 4)) (sreg s t.toNat th (w.extractLsb' 12 4))) t.toNat th fun x =>
          threadDone x (w.extractLsb' 20 4) (BitVec.ofNat 64 n) := by
  refine (crownOp_runs h ho crownSpawn).trans ?_
  unfold crownSpawn
  rw [freeThread_of hlo hhi (by rwa [threadOf_afterIssue]) (fun m hm hn => by rw [threadOf_afterIssue]; exact hmin m hm hn)]
  simp only [iD_eq]

theorem spawn_full (ho : w.extractLsb' 24 8 = 0x2B)
    (hfull : ∀ m, p.tbase ≤ m → m < p.tbase + p.tcount → (threadOf s.dev t.toNat m).st ≠ .free) :
    ThreadMoves s t.toNat th ((threadOf s.dev t.toNat th).pc + 1)
      (wrote (sreg s t.toNat th) (w.extractLsb' 20 4) (BitVec.allOnes 64)) (exec (.spawn t) s) := by
  have hrow : crownOp 0x2B crownSpawn s.dev t.toNat = onThread (afterIssue s.dev t.toNat th pn) t.toNat th fun x =>
      threadDone x (w.extractLsb' 20 4) (BitVec.allOnes 64) := by
    refine (crownOp_runs h ho crownSpawn).trans ?_
    unfold crownSpawn
    rw [freeThread_none fun m hm hn => by rw [threadOf_afterIssue]; exact hfull m hm hn]
    simp only [iD_eq]
    rfl
  exact moves_of_row h.ready hrow

theorem spawn_next (ho : w.extractLsb' 24 8 = 0x2B) {n : Nat} (hlo : p.tbase ≤ n) (hhi : n < p.tbase + p.tcount)
    (hfree : (threadOf s.dev t.toNat n).st = .free) (hmin : ∀ m, p.tbase ≤ m → m < n → (threadOf s.dev t.toNat m).st ≠ .free) :
    let d := crownOp 0x2B crownSpawn s.dev t.toNat
    OnlyTiles s.dev d ∧ (∀ u, u ≠ t.toNat → tileOf d u = tileOf s.dev u) ∧
      tileOf d t.toNat = { tileOf s.dev t.toNat with threads := (tileOf d t.toNat).threads, lastIssue := th } ∧
      (∀ u, u ≠ th → u ≠ n → threadOf d t.toNat u = threadOf s.dev t.toNat u) ∧
      threadOf d t.toNat n = startThread n (sreg s t.toNat th (w.extractLsb' 16 4)) (sreg s t.toNat th (w.extractLsb' 12 4)) ∧
      threadOf d t.toNat th = threadDone (threadOf s.dev t.toNat th) (w.extractLsb' 20 4) (BitVec.ofNat 64 n) := by
  have hne : n ≠ th := fun e => by rw [e, h.ready] at hfree; cases hfree
  rw [spawn_starts h ho hlo hhi hfree hmin]
  refine ⟨((afterIssue_onlyTiles ..).trans (onThread_onlyTiles ..)).trans (onThread_onlyTiles ..), fun u hu => ?_, ?_, fun u h1 h2 => ?_,
    ?_, ?_⟩
  · rw [tileOf_onThread_ne _ _ _ hu, tileOf_onThread_ne _ _ _ hu, tileOf_afterIssue_ne _ _ _ hu]
  · rw [tileOf_onThread, tileOf_onThread, tileOf_afterIssue]
  · rw [threadOf_onThread_ne _ _ h1, threadOf_onThread_ne _ _ h2, threadOf_afterIssue]
  · rw [threadOf_onThread_ne _ _ hne, threadOf_onThread]
  · rw [threadOf_onThread, threadOf_onThread_ne _ _ hne.symm, threadOf_afterIssue]

/-! ### EXIT -/

theorem exit_next (ho : w.extractLsb' 24 8 = 0x2C) :
    let d := crownOp 0x2C crownExit s.dev t.toNat
    OnlyTiles s.dev d ∧ (∀ u, u ≠ t.toNat → tileOf d u = tileOf s.dev u) ∧
      tileOf d t.toNat = { tileOf s.dev t.toNat with threads := (tileOf d t.toNat).threads, lastIssue := th } ∧
      (∀ u, u ≠ th → threadOf d t.toNat u = threadOf s.dev t.toNat u) ∧ threadOf d t.toNat th = {} := by
  rw [show crownOp 0x2C crownExit s.dev t.toNat = _ from crownOp_runs h ho crownExit]
  unfold crownExit
  refine ⟨(afterIssue_onlyTiles ..).trans (onThread_onlyTiles ..), fun u hu => ?_, ?_, fun u hu => ?_, threadOf_onThread ..⟩
  · rw [tileOf_onThread_ne _ _ _ hu, tileOf_afterIssue_ne _ _ _ hu]
  · rw [tileOf_onThread, tileOf_afterIssue]
  · rw [threadOf_onThread_ne _ _ hu, threadOf_afterIssue]

/-! ### CYC -/

omit h in
theorem tileOf_tickTile (d : Dev) (t : Nat) :
    tileOf (tickTile d t) t = { tileOf d t with cyc := (tileOf d t).cyc + BitVec.ofNat 64 (Config.elapsed d.free) } := by
  simp [tickTile, tileOf]

omit h in
theorem tileOf_tickTile_ne (d : Dev) {t u : Nat} (hu : u ≠ t) : tileOf (tickTile d t) u = tileOf d u := by
  simp [tickTile, tileOf, hu]

omit h in
theorem tickTile_only (d : Dev) (t : Nat) :
    tickTile d t = { d with free := d.free + 1, tiles := (tickTile d t).tiles, counters := (tickTile d t).counters } := by
  unfold tickTile count
  dsimp only
  split <;> rfl

theorem cyc_next (ho : w.extractLsb' 24 8 = 0x2D) :
    let d := crownOp 0x2D crownCyc s.dev t.toNat
    d = { s.dev with free := s.dev.free + 1, tiles := d.tiles, counters := d.counters } ∧
      (∀ u, u ≠ t.toNat → tileOf d u = tileOf s.dev u) ∧
      (∀ u, u ≠ th → threadOf d t.toNat u = threadOf s.dev t.toNat u) ∧
      (tileOf d t.toNat).cyc = (tileOf s.dev t.toNat).cyc + BitVec.ofNat 64 (Config.elapsed s.dev.free) ∧
      threadOf d t.toNat th = threadDone (threadOf s.dev t.toNat th) (w.extractLsb' 20 4) (tileOf d t.toNat).cyc := by
  rw [show crownOp 0x2D crownCyc s.dev t.toNat = _ from crownOp_runs h ho crownCyc]
  unfold crownCyc
  have hT := afterIssue_onlyTiles s.dev t.toNat th pn
  have hfree : (afterIssue s.dev t.toNat th pn).free = s.dev.free := by rw [hT]
  have hthread : ∀ u, threadOf (tickTile (afterIssue s.dev t.toNat th pn) t.toNat) t.toNat u = threadOf s.dev t.toNat u := fun u => by
    rw [threadOf, tileOf_tickTile]; exact threadOf_afterIssue ..
  refine ⟨?_, fun u hu => ?_, fun u hu => ?_, ?_, ?_⟩
  · dsimp only [onThread, onTile]
    rw [tickTile_only, hfree, hT]
  · rw [tileOf_onThread_ne _ _ _ hu, tileOf_tickTile_ne _ hu, tileOf_afterIssue_ne _ _ _ hu]
  · rw [threadOf_onThread_ne _ _ hu, hthread]
  · rw [tileOf_onThread, tileOf_tickTile, tileOf_afterIssue, hfree]
  · rw [threadOf_onThread, hthread, tileOf_onThread, iD_eq]

end

/-- A thread that was READY, after an instruction with a destination register. -/
theorem threadDone_ready {s s' : State} {t th : Nat} {rd : BitVec 4} {v : W64} (hr : (threadOf s.dev t th).st = .ready)
    (h : threadOf s'.dev t th = threadDone (threadOf s.dev t th) rd v) :
    (threadOf s'.dev t th).st = .ready ∧ (threadOf s'.dev t th).pc = (threadOf s.dev t th).pc + 1 ∧
      ∀ r, sreg s' t th r = wrote (sreg s t th) rd v r := by
  have hp : (threadOf s.dev t th).st ≠ .parked := by rw [hr]; decide
  rw [threadDone_of _ _ _ hp] at h
  refine ⟨by rw [h], by rw [h], fun r => ?_⟩
  rw [sreg, h]
  exact regRead_regWrite ..

/-- Settles O15, by `spawn_next`, `spawn_full`, `exit_next` and `cyc_next`. -/
theorem crownThreads : Obligations.CrownThreads := by
  unfold Obligations.CrownThreads
  intro t s th pn p w h a b rd pc
  refine ⟨fun n ho hlo hhi hfree hmin => ?_, fun ho hfull => spawn_full h ho hfull, fun ho => ?_, fun ho => ?_⟩
  · obtain ⟨hO, hu, ht, hothers, hn, hth⟩ := spawn_next h ho hlo hhi hfree hmin
    obtain ⟨hst, hpc, hregs⟩ := threadDone_ready (s' := { s with dev := crownOp 0x2B crownSpawn s.dev t.toNat }) h.ready hth
    refine ⟨_, rfl, ⟨rfl, rfl, rfl⟩, hO, hu, ht, hothers, congrArg Thread.st hn, congrArg Thread.pc hn, fun r => ?_, hst, hpc, hregs⟩
    exact (congrArg (regRead · r) hn).trans (regRead_startThread ..)
  · obtain ⟨hO, hu, ht, hothers, hth⟩ := exit_next h ho
    refine ⟨_, rfl, ⟨rfl, rfl, rfl⟩, hO, hu, ht, hothers, congrArg Thread.st hth, fun r => ?_⟩
    refine (congrArg (regRead · r) hth).trans ?_
    unfold regRead
    split <;> rfl
  · obtain ⟨hd, hu, hothers, hcyc, hth⟩ := cyc_next h ho
    obtain ⟨hst, hpc, hregs⟩ := threadDone_ready (s' := { s with dev := crownOp 0x2D crownCyc s.dev t.toNat }) h.ready hth
    exact ⟨_, rfl, ⟨rfl, rfl, rfl⟩, hd, hu, hothers, hcyc, hst, hpc, hregs⟩

end Sys2Proof.Machine
end

section
/-! The faults of the crown (R66, R68, R69, R71, R424): a fault is a thread parked, a record in its polder's log, and a notice. -/

namespace Sys2Proof.Machine

/-! ### Notices -/

/-- A notice touches counters, the mailboxes with their rings, and the rings' bytes in host memory. -/
def OnlyTold (d d' : Dev) : Prop :=
  d' = { d with counters := d'.counters, reeve := d'.reeve, mem := { d.mem with host := d'.mem.host } }

theorem OnlyTold.refl (d : Dev) : OnlyTold d d := rfl

theorem OnlyTold.trans {d e f : Dev} (h : OnlyTold d e) (h' : OnlyTold e f) : OnlyTold d f := by
  unfold OnlyTold at *
  rw [h', h]

theorem count_onlyTold (d : Dev) (k i ev n : Nat) (p : Option PolderNo) : OnlyTold d (count d k i ev n p) := by
  unfold count; split <;> rfl

theorem hostWrite_onlyTold (d : Dev) (a : Nat) (bs : List Byte) : OnlyTold d ((hostWrite d a bs).getD d) := by
  unfold hostWrite; split <;> rfl

theorem noticeTo_onlyTold (d : Dev) (m k : Nat) (p : Option PolderNo) (j : BitVec 16) (c : Code) (i : Nat) :
    OnlyTold d (noticeTo d m k p j c i) := by
  unfold noticeTo
  split
  · exact count_onlyTold ..
  · next r _ =>
    have hbox : OnlyTold d (onMbox d m fun b => { b with ring := some { r with nseq := nextSeq r.nseq } }) := rfl
    exact (hbox.trans (hostWrite_onlyTold ..)).trans rfl

theorem foldl_onlyTold {α : Type} (f : Dev → α → Dev) (h : ∀ d x, OnlyTold d (f d x)) (l : List α) (d : Dev) :
    OnlyTold d (l.foldl f d) := by
  induction l generalizing d with
  | nil => exact .refl d
  | cons x l ih => exact (h d x).trans (ih (f d x))

theorem notice_onlyTold (d : Dev) (k : Nat) (p : Option PolderNo) (c : Code) (i : Nat) : OnlyTold d (notice d k p c i) := by
  unfold notice
  dsimp only
  split
  · exact count_onlyTold ..
  · exact foldl_onlyTold _ (fun d m => noticeTo_onlyTold d m k p _ c i) _ d

/-! ### Fault records -/

theorem onPolder_of {d : Dev} {p : PolderNo} {x : Polder} (h : polderOf d p = some x) (f : Polder → Polder) :
    onPolder d p f = { d with polders := NMap.insert d.polders p.toNat (f x) } := by
  unfold onPolder
  rw [show NMap.find? d.polders p.toNat = some x from h]

/-- The record of R424 as a number: its kind, polder, job and code, and where the thread stood. -/
def faultWord (p : PolderNo) (job : BitVec 16) (tile th pc : Nat) (code : Code) : Nat :=
  2 <<< 32 + p.toNat <<< 40 + job.toNat <<< 48 + code.toNat <<< 64 +
    (tile <<< 96 + th <<< 112 + (pc % 2 ^ 16) <<< 128 + code.toNat <<< 144)

/-- The digit of a number that stands above `lo` bits and below the rest. -/
theorem bits_digit {x below v rest hi lo : Nat} (hx : x = below + (v + rest * 2 ^ (hi + 1 - lo)) * 2 ^ lo) (hb : below < 2 ^ lo)
    (hv : v < 2 ^ (hi + 1 - lo)) : bits x hi lo = v := by
  unfold bits
  rw [hx, Nat.shiftRight_eq_div_pow, Nat.add_mul_div_right _ _ (Nat.two_pow_pos lo), Nat.div_eq_of_lt hb, Nat.zero_add,
    Nat.add_mul_mod_self_right, Nat.mod_eq_of_lt hv]

theorem faultWord_eq (p : PolderNo) (job : BitVec 16) (tile th pc : Nat) (code : Code) :
    faultWord p job tile th pc code = 2 * 2 ^ 32 + p.toNat * 2 ^ 40 + job.toNat * 2 ^ 48 + code.toNat * 2 ^ 64 +
      (tile * 2 ^ 96 + th * 2 ^ 112 + (pc % 2 ^ 16) * 2 ^ 128 + code.toNat * 2 ^ 144) := by
  unfold faultWord
  simp only [Nat.shiftLeft_eq]

theorem faultWord_fields (p : PolderNo) (job : BitVec 16) {tile th : Nat} (ht : tile < 2048) (hth : th < 1024) (pc : Nat) (code : Code) :
    let r : BitVec 256 := BitVec.ofNat 256 (faultWord p job tile th pc code)
    fld r 39 32 = 2 ∧ fld r 43 40 = p.toNat ∧ fld r 79 64 = code.toNat ∧ fld r 111 96 = tile ∧ fld r 127 112 = th ∧
      fld r 143 128 = pc % 2 ^ 16 := by
  intro r
  have hp := p.isLt
  have hj := job.isLt
  have hc := code.isLt
  have hq := Nat.mod_lt pc (Nat.two_pow_pos 16)
  have hr : r.toNat = faultWord p job tile th pc code := by
    refine (BitVec.toNat_ofNat ..).trans (Nat.mod_eq_of_lt ?_)
    rw [faultWord_eq]
    omega
  rw [faultWord_eq] at hr
  unfold fld
  rw [hr]
  generalize p.toNat = n at *
  generalize job.toNat = j at *
  generalize code.toNat = c at *
  generalize pc % 2 ^ 16 = q at *
  refine ⟨bits_digit (below := 0) (rest := n + j * 2 ^ 8 + c * 2 ^ 24 + tile * 2 ^ 56 + th * 2 ^ 72 + q * 2 ^ 88 + c * 2 ^ 104) ?_ ?_ ?_,
    bits_digit (below := 2 * 2 ^ 32) (rest := j * 2 ^ 4 + c * 2 ^ 20 + tile * 2 ^ 52 + th * 2 ^ 68 + q * 2 ^ 84 + c * 2 ^ 100) ?_ ?_ ?_,
    bits_digit (below := 2 * 2 ^ 32 + n * 2 ^ 40 + j * 2 ^ 48)
      (rest := tile * 2 ^ 16 + th * 2 ^ 32 + q * 2 ^ 48 + c * 2 ^ 64) ?_ ?_ ?_,
    bits_digit (below := 2 * 2 ^ 32 + n * 2 ^ 40 + j * 2 ^ 48 + c * 2 ^ 64) (rest := th + q * 2 ^ 16 + c * 2 ^ 32) ?_ ?_ ?_,
    bits_digit (below := 2 * 2 ^ 32 + n * 2 ^ 40 + j * 2 ^ 48 + c * 2 ^ 64 + tile * 2 ^ 96) (rest := q + c * 2 ^ 16) ?_ ?_ ?_,
    bits_digit (below := 2 * 2 ^ 32 + n * 2 ^ 40 + j * 2 ^ 48 + c * 2 ^ 64 + tile * 2 ^ 96 + th * 2 ^ 112) (rest := c) ?_ ?_ ?_⟩ <;>
  omega

/-- A fault's record heads its polder's log, and its notice goes out. -/
theorem faultRecord_of {d : Dev} {p : PolderNo} {x : Polder} (h : polderOf d p = some x) (tile th pc : Nat) (code : Code) :
    ∃ y rest, y.faults = BitVec.ofNat 256 (faultWord p x.job tile th pc code) :: rest ∧
      OnlyTold { d with polders := NMap.insert d.polders p.toNat y } (faultRecord d p tile th pc code) := by
  unfold faultRecord
  rw [h]
  dsimp only
  rw [onPolder_of h]
  refine ⟨_, x.faults.take 63, ?_, notice_onlyTold ..⟩
  unfold faultWord
  exact List.take_succ_cons

/-! ### A thread that faults -/

/-- What a thread is once it has faulted: PARKED for good (R66). -/
def faulted (x : Thread) : Thread := { x with st := .parked, was := x.st, wait := .nothing, byFault := true }

theorem threadFaults_of {s : State} {t : TileNo} {th : Nat} {pn : PolderNo} {p : Polder} (hth : th < 1024)
    (hpol : polderOf s.dev pn = some p) (code : Code) :
    ThreadFaults s t.toNat th pn code (.next { s with dev := threadFault (afterIssue s.dev t.toNat th pn) t.toNat th pn code }) := by
  have hT : OnlyTiles s.dev (onThread (afterIssue s.dev t.toNat th pn) t.toNat th faulted) :=
    (afterIssue_onlyTiles ..).trans (onThread_onlyTiles ..)
  obtain ⟨y, rest, hfaults, htold⟩ := faultRecord_of (d := onThread (afterIssue s.dev t.toNat th pn) t.toNat th faulted)
    (x := p) (by rw [polderOf, hT]; exact hpol) t.toNat th (threadOf (afterIssue s.dev t.toNat th pn) t.toNat th).pc.toNat code
  rw [threadOf_afterIssue] at hfaults htold
  have hrow : threadFault (afterIssue s.dev t.toNat th pn) t.toNat th pn code =
      faultRecord (onThread (afterIssue s.dev t.toNat th pn) t.toNat th faulted) pn t.toNat th (threadOf s.dev t.toNat th).pc.toNat code := by
    unfold threadFault
    rw [threadOf_afterIssue]
    rfl
  rw [hrow]
  generalize faultRecord (onThread (afterIssue s.dev t.toNat th pn) t.toNat th faulted) pn t.toNat th _ code = d at htold
  have htile : ∀ u, tileOf d u = tileOf (onThread (afterIssue s.dev t.toNat th pn) t.toNat th faulted) u := fun u => by
    unfold tileOf; rw [htold]
  have hthread : ∀ u, threadOf d t.toNat u = threadOf (onThread (afterIssue s.dev t.toNat th pn) t.toNat th faulted) t.toNat u := fun u => by
    unfold threadOf; rw [htile]
  have hbytes : d.mem.bytes = s.dev.mem.bytes := by rw [htold, hT]
  have hecc : d.mem.ecc = s.dev.mem.ecc := by rw [htold, hT]
  refine ⟨_, rfl, ⟨rfl, rfl, rfl⟩, fun u hu => ?_, ?_, fun u hu => ?_, ?_, hbytes, hecc,
    y, _, rest, ?_, hfaults, faultWord_fields pn p.job t.isLt hth _ code⟩
  · rw [htile, tileOf_onThread_ne _ _ _ hu, tileOf_afterIssue_ne _ _ _ hu]
  · rw [htile, tileOf_onThread, tileOf_afterIssue]
  · rw [hthread, threadOf_onThread_ne _ _ hu, threadOf_afterIssue]
  · rw [hthread, threadOf_onThread, threadOf_afterIssue]; rfl
  · change NMap.find? d.polders pn.toNat = some y
    rw [htold]
    exact NMap.find_insert_self ..

/-- A row that faults the issuing thread. -/
theorem faults_of_row {s : State} {t : TileNo} {th : Nat} {pn : PolderNo} {p : Polder} {d : Dev} {code : Code} (hth : th < 1024)
    (hpol : polderOf s.dev pn = some p) (hd : d = threadFault (afterIssue s.dev t.toNat th pn) t.toNat th pn code) :
    ThreadFaults s t.toNat th pn code (.next { s with dev := d }) := by
  rw [hd]
  exact threadFaults_of hth hpol code

/-! ### The faulting rows -/

section
variable {s : State} {t : TileNo} {th : Nat} {pn : PolderNo} {p : Polder} {w : W32} (hth : th < 1024) (hpol : polderOf s.dev pn = some p)
include hth hpol

theorem unknownOpCode_faults (h : Fetches s t.toNat th pn p w) (hbad : iOk w = false) :
    ThreadFaults s t.toNat th pn 0x0410 (exec (.unknownOpCode t) s) := by
  have hrow : exec (.unknownOpCode t) s = .next { s with dev := threadFault (afterIssue s.dev t.toNat th pn) t.toNat th pn 0x0410 } := by
    change execUnknownOpCode t s = _
    unfold execUnknownOpCode crownIf
    simp only [onDev_eq, issueNext_of h, hbad, Bool.not_false, if_true]
  rw [hrow]
  exact threadFaults_of hth hpol _

theorem ld_faults (h : Issues s t.toNat th pn p w) (ho : w.extractLsb' 24 8 = 0x10)
    (hofs : lsOfs (afterIssue s.dev t.toNat th pn) t.toNat p w (sreg s t.toNat th (w.extractLsb' 16 4)) = none) :
    ThreadFaults s t.toNat th pn 0x0412 (exec (.ld t) s) := by
  have hrow : crownOp 0x10 crownLd s.dev t.toNat = threadFault (afterIssue s.dev t.toNat th pn) t.toNat th pn 0x0412 := by
    refine (crownOp_runs h ho crownLd).trans ?_
    unfold crownLd
    simp only [hofs]
  exact faults_of_row hth hpol hrow

theorem st_faults (h : Issues s t.toNat th pn p w) (ho : w.extractLsb' 24 8 = 0x11)
    (hofs : lsOfs (afterIssue s.dev t.toNat th pn) t.toNat p w (sreg s t.toNat th (w.extractLsb' 16 4)) = none) :
    ThreadFaults s t.toNat th pn 0x0412 (exec (.st t) s) := by
  have hrow : crownOp 0x11 crownSt s.dev t.toNat = threadFault (afterIssue s.dev t.toNat th pn) t.toNat th pn 0x0412 := by
    refine (crownOp_runs h ho crownSt).trans ?_
    unfold crownSt
    simp only [hofs]
  exact faults_of_row hth hpol hrow

theorem fetchOutsideRegion_faults (hnext : nextThread s.dev t.toNat = some th) (howner : polderOfThread s.dev t.toNat th = some (pn, p))
    (hpc : p.plen ≤ (threadOf s.dev t.toNat th).pc.toNat) :
    ThreadFaults s t.toNat th pn 0x0411 (exec (.fetchOutsideRegion t) s) := by
  have hissue : issueNext s.dev t.toNat = some (afterIssue s.dev t.toNat th pn, ⟨th, pn, p, .outside⟩) := by
    unfold issueNext fetch
    simp only [hnext, howner, hpc, if_true]
    rfl
  have hrow : exec (.fetchOutsideRegion t) s =
      .next { s with dev := threadFault (afterIssue s.dev t.toNat th pn) t.toNat th pn 0x0411 } := by
    change execFetchOutsideRegion t s = _
    unfold execFetchOutsideRegion crownIf
    simp only [onDev_eq, hissue, if_true]
  rw [hrow]
  exact threadFaults_of hth hpol _

end

/-! ### Words outside the table (R69) -/

/-- The op codes of R70's table. -/
def opCodes : List Nat := [0x01, 0x02, 0x03, 0x04, 0x05, 0x06, 0x07, 0x08, 0x09, 0x0A, 0x0B, 0x0C, 0x0D, 0x0E,
    0x10, 0x11, 0x18, 0x19, 0x1A, 0x20, 0x21, 0x28, 0x29, 0x2B, 0x2C, 0x2D]

theorem iUses_eq_none {op : Nat} (h : op ∉ opCodes) : iUses op = none := by
  unfold iUses
  split <;> simp_all [opCodes]

theorem iOk_outside {w : W32} (h : (w.extractLsb' 24 8).toNat ∉ opCodes) : iOk w = false := by
  unfold iOk
  rw [iOp_eq, iUses_eq_none h]

theorem iOk_add {w : W32} (ho : w.extractLsb' 24 8 = 0x01) (himm : w.extractLsb' 0 12 ≠ 0) : iOk w = false := by
  have hne : iImm w ≠ 0 := by
    rw [iImm_eq]
    exact fun e => himm (BitVec.eq_of_toNat_eq e)
  unfold iOk
  rw [iOp_of ho]
  simp [iUses, hne]

theorem iOk_exit {w : W32} (ho : w.extractLsb' 24 8 = 0x2C) (hrest : w.extractLsb' 0 24 ≠ 0) : iOk w = false := by
  rw [← Bool.not_eq_true]
  intro hok
  unfold iOk at hok
  simp only [iOp_of ho, iUses, iD_eq, iA_eq, iB_eq, iImm_eq, BitVec.reduceToNat, Bool.false_or, Bool.and_eq_true, decide_eq_true_eq,
    ← BitVec.toNat_inj, BitVec.extractLsb'_toNat, Nat.shiftRight_eq_div_pow] at hok
  obtain ⟨⟨⟨hd, ha⟩, hb⟩, himm⟩ := hok
  refine hrest (BitVec.eq_of_toNat_eq ?_)
  simp at hd ha hb himm ⊢
  omega

/-- Settles O16: the rows by `threadFaults_of`, the words by R69's table of used fields. -/
theorem crownFaults : Obligations.CrownFaults := by
  unfold Obligations.CrownFaults
  refine ⟨fun t s th pn p w h hth hpol => ⟨unknownOpCode_faults hth hpol h, fun hok o heq hbad => ?_⟩,
    fun t s th pn p hnext hth howner hpol hpc => fetchOutsideRegion_faults hth hpol hnext howner hpc,
    fun w h => iOk_outside h, fun w ho himm => iOk_add ho himm, fun w ho hrest => iOk_exit ho hrest⟩
  have hofs : lsOfs (afterIssue s.dev t.toNat th pn) t.toNat p w (sreg s t.toNat th (w.extractLsb' 16 4)) = none := by
    rw [lsOfs_of heq, if_neg]
    rintro ⟨h1, h2, h3⟩
    rcases hbad with hb | hb | hb
    · exact hb h1
    · omega
    · rw [h3] at hb; cases hb
  exact ⟨fun ho => ld_faults hth hpol ⟨h, hok⟩ ho hofs, fun ho => st_faults hth hpol ⟨h, hok⟩ ho hofs⟩

end Sys2Proof.Machine
end

section
/-! ISSUE, WAIT and the waiting ISSUE (R70, R73, R74, R76). What a descriptor takes when it is granted a slot and a queue entry is
said once (`Granted`). -/

namespace Sys2Proof.Machine

/-! ### A slot and a queue entry granted -/

/-- Descriptor q has obtained its slot, the head of the free list, and a queue entry of engine e (R73). -/
structure Granted (d d' : Dev) (t : Nat) (e : EngineId) (pn : PolderNo) (q : QOp) (rest : List Nat) : Prop where
  dev : d' = { d with tiles := d'.tiles }
  others : ∀ u, u ≠ t → tileOf d' u = tileOf d u
  tile : tileOf d' t = { tileOf d t with freeSlots := rest, slots := (tileOf d' t).slots, engines := (tileOf d' t).engines }
  gen : (slotOf d' t q.slot).gen = q.gen
  held : (slotOf d' t q.slot).use = .held pn
  slots : ∀ k, k ≠ q.slot → slotOf d' t k = slotOf d t k
  queue : (engineOf d' t e).queue = (engineOf d t e).queue ++ [q]
  run : (engineOf d' t e).run = (engineOf d t e).run
  engines : ∀ f, f ≠ e → engineOf d' t f = engineOf d t f

theorem takeSlot_of {d : Dev} {t sl : Nat} {rest : List Nat} (pn : PolderNo) (h : (tileOf d t).freeSlots = sl :: rest) :
    takeSlot d t pn = (onTile d t fun x => { x with
        freeSlots := rest
        slots := NMap.upd x.slots {} sl fun y =>
          { gen := (slotOf d t sl).gen + 1, use := .held pn
            recs := y.recs.filter fun r => ((slotOf d t sl).gen + 1 - r.gen).toNat < 16 } },
      sl, (slotOf d t sl).gen + 1) := by
  unfold takeSlot; rw [h]

theorem enqueue_granted {d : Dev} {t sl : Nat} {rest : List Nat} {desc : BitVec 1024} {e : EngineId} (pn : PolderNo) (dep : Dep)
    (hfree : (tileOf d t).freeSlots = sl :: rest) (he : engOfCode (dEngine desc) = some e) :
    ∃ d', enqueue d t pn desc dep = (d', sl, (slotOf d t sl).gen + 1) ∧
      Granted d d' t e pn ⟨desc, sl, (slotOf d t sl).gen + 1, dep⟩ rest := by
  unfold enqueue
  rw [takeSlot_of pn hfree]
  dsimp only
  rw [he]
  refine ⟨_, rfl, rfl, fun u hu => ?_, ?_, ?_, ?_, fun k hk => ?_, ?_, ?_, fun f hf => ?_⟩
  · rw [onEngine, tileOf_onTile_ne _ _ hu, tileOf_onTile_ne _ _ hu]
  · rw [onEngine, tileOf_onTile, tileOf_onTile]
  · simp [slotOf, onEngine]
  · simp [slotOf, onEngine]
  · simp [slotOf, onEngine, hk]
  · rw [engineOf_onEngine]; simp [engineOf]
  · rw [engineOf_onEngine]; simp [engineOf]
  · rw [engineOf_onEngine_ne _ _ _ hf]; simp [engineOf]

theorem canGrant_of {d : Dev} {t sl : Nat} {rest : List Nat} {desc : BitVec 1024} {e : EngineId} (hr : d.resets = [])
    (hfree : (tileOf d t).freeSlots = sl :: rest) (he : engOfCode (dEngine desc) = some e) (hq : (engineOf d t e).queue.length < 8) :
    canGrant d t desc = true := by
  unfold canGrant fenced
  simp [hr, hfree, he, hq]

/-- The op tag and generation as ISSUE returns them (R73). -/
theorem issueVal_eq (t : TileNo) {sl : Nat} (hsl : sl < 32) (gen : BitVec 16) :
    issueVal t.toNat sl gen = BitVec.ofNat 64 (t.toNat * 32 + sl + gen.toNat * 2 ^ 16) := by
  have ht := t.isLt
  unfold issueVal opTag
  rw [BitVec.toNat_ofNat, Nat.mod_eq_of_lt (by omega), Nat.shiftLeft_eq]

/-- The thread goes on with its value after the grant: its registers, slots and engines as the grant leaves them. -/
theorem Granted.goes_on {s : State} {d0 d1 : Dev} {t th : Nat} {e : EngineId} {pn : PolderNo} {q : QOp} {rest : List Nat}
    (hG : Granted d0 d1 t e pn q rest) (hthreads : (tileOf d0 t).threads = (tileOf s.dev t).threads)
    (hslots : (tileOf d0 t).slots = (tileOf s.dev t).slots) (hengines : (tileOf d0 t).engines = (tileOf s.dev t).engines)
    (hst : (threadOf s.dev t th).st ≠ .parked) (rd : BitVec 4) (v : W64) :
    let d := onThread d1 t th fun x => threadDone x rd v
    (∀ u, u ≠ th → threadOf d t u = threadOf s.dev t u) ∧
      (threadOf d t th).st = .ready ∧ (threadOf d t th).pc = (threadOf s.dev t th).pc + 1 ∧
      (∀ r, sreg { s with dev := d } t th r = wrote (sreg s t th) rd v r) ∧
      (slotOf d t q.slot).gen = q.gen ∧ (slotOf d t q.slot).use = .held pn ∧
      (∀ k, k ≠ q.slot → slotOf d t k = slotOf s.dev t k) ∧
      (engineOf d t e).queue = (engineOf s.dev t e).queue ++ [q] ∧
      (engineOf d t e).run = (engineOf s.dev t e).run ∧
      ∀ f, f ≠ e → engineOf d t f = engineOf s.dev t f := by
  intro d
  have hthread : ∀ u, threadOf d1 t u = threadOf s.dev t u := fun u => by
    rw [threadOf, hG.tile]; exact congrArg (NMap.get · _ u) hthreads
  have hslot : ∀ k, slotOf d t k = slotOf d1 t k := fun k => by rw [slotOf, tileOf_onThread]; rfl
  have hslot0 : ∀ k, slotOf d0 t k = slotOf s.dev t k := fun k => congrArg (NMap.get · _ k) hslots
  have heng : ∀ f, engineOf d t f = engineOf d1 t f := fun f => by rw [engineOf, tileOf_onThread]; rfl
  have heng0 : ∀ f, engineOf d0 t f = engineOf s.dev t f := fun f => congrArg (NMap.get · _ (engCode f)) hengines
  have hth : threadOf d t th = threadDone (threadOf s.dev t th) rd v := by rw [threadOf_onThread, hthread]
  rw [threadDone_of _ _ _ hst] at hth
  refine ⟨fun u hu => ?_, congrArg Thread.st hth, congrArg Thread.pc hth, fun r => ?_, ?_, ?_, fun k hk => ?_, ?_, ?_, fun f hf => ?_⟩
  · rw [threadOf_onThread_ne _ _ hu, hthread]
  · exact (congrArg (regRead · r) hth).trans (regRead_regWrite ..)
  · rw [hslot, hG.gen]
  · rw [hslot, hG.held]
  · rw [hslot, hG.slots k hk, hslot0]
  · rw [heng, hG.queue, heng0]
  · rw [heng, hG.run, heng0]
  · rw [heng, hG.engines f hf, heng0]

/-! ### ISSUE -/

theorem slotOf_afterIssue (d : Dev) (t th : Nat) (pn : PolderNo) (k : Nat) : slotOf (afterIssue d t th pn) t k = slotOf d t k := by
  rw [slotOf, tileOf_afterIssue]; rfl

theorem engineOf_afterIssue (d : Dev) (t th : Nat) (pn : PolderNo) (e : EngineId) :
    engineOf (afterIssue d t th pn) t e = engineOf d t e := by
  rw [engineOf, tileOf_afterIssue]; rfl

theorem readDesc_clean {d : Dev} {t : TileNo} {pn : PolderNo} {p : Polder} {o : Nat} (halign : o % 64 = 0) (hend : o + 128 ≤ 2 ^ 20)
    (hshare : inShare d p t.toNat (t.toNat * 2 ^ 20 + o) (t.toNat * 2 ^ 20 + o + 128) = true)
    (hc : Clean d (t.toNat * 2 ^ 20 + o) 128) :
    readDesc d t.toNat pn p o = (d, .ok (BitVec.ofNat 1024 (ofBytes (bytesAt d (t.toNat * 2 ^ 20 + o) 128)))) := by
  unfold readDesc
  dsimp only
  rw [if_neg (by rw [hshare]; simp; omega), memRead_clean _ (rangeErr_tile (inShare_up hshare) t.isLt hend) hc]

theorem resolveDep_met {d : Dev} {t : Nat} {pn : PolderNo} {desc : BitVec 1024} (b : W64) (h : dDepEn desc = false) :
    resolveDep d t pn desc b = .met := by
  unfold resolveDep; simp [h]

theorem issue_next {s : State} {t : TileNo} {th : Nat} {pn : PolderNo} {p : Polder} {w : W32} {e : EngineId} {sl : Nat} {rest : List Nat}
    (h : Issues s t.toNat th pn p w) (ho : w.extractLsb' 24 8 = 0x28) {a : W64} (hreg : sreg s t.toNat th (w.extractLsb' 16 4) = a)
    {desc : BitVec 1024} (hdesc : desc = BitVec.ofNat 1024 (ofBytes (bytesAt s.dev (t.toNat * 2 ^ 20 + a.toNat) 128)))
    (halign : a.toNat % 64 = 0) (hend : a.toNat + 128 ≤ 2 ^ 20)
    (hshare : inShare s.dev p t.toNat (t.toNat * 2 ^ 20 + a.toNat) (t.toNat * 2 ^ 20 + a.toNat + 128) = true)
    (hc : Clean s.dev (t.toNat * 2 ^ 20 + a.toNat) 128) (hdep : dDepEn desc = false)
    (he : engOfCode (dEngine desc) = some e) (hwait : (tileOf s.dev t.toNat).issueQ = [])
    (hfree : (tileOf s.dev t.toNat).freeSlots = sl :: rest) (hq : (engineOf s.dev t.toNat e).queue.length < 8) (hr : s.dev.resets = []) :
    ∃ d1, Granted (afterIssue s.dev t.toNat th pn) d1 t.toNat e pn ⟨desc, sl, (slotOf s.dev t.toNat sl).gen + 1, .met⟩ rest ∧
      crownOp 0x28 crownIssue s.dev t.toNat = onThread d1 t.toNat th fun x =>
        threadDone x (w.extractLsb' 20 4) (issueVal t.toNat sl ((slotOf s.dev t.toNat sl).gen + 1)) := by
  have hT := afterIssue_onlyTiles s.dev t.toNat th pn
  have htile := tileOf_afterIssue s.dev t.toNat th pn
  have hfree' : (tileOf (afterIssue s.dev t.toNat th pn) t.toNat).freeSlots = sl :: rest := by rw [htile]; exact hfree
  have hwait' : (tileOf (afterIssue s.dev t.toNat th pn) t.toNat).issueQ = [] := by rw [htile]; exact hwait
  have hread := readDesc_clean (pn := pn) halign hend ((hT.inShare ..).trans hshare) ((hT.clean ..).2 hc)
  rw [hT.bytesAt, ← hdesc] at hread
  obtain ⟨d1, henq, hG⟩ := enqueue_granted (d := afterIssue s.dev t.toNat th pn) pn .met hfree' he
  rw [slotOf_afterIssue] at henq hG
  refine ⟨d1, hG, (crownOp_runs h ho crownIssue).trans ?_⟩
  unfold crownIssue
  simp only [hreg, hread]
  rw [if_pos ⟨hwait', canGrant_of (by rw [hT]; exact hr) hfree' he (by rw [engineOf_afterIssue]; exact hq)⟩, resolveDep_met _ hdep]
  simp only [henq, iD_eq]

/-! ### WAIT -/

theorem heldBy_of_recOf {x : Slot} {gen : BitVec 16} {r : OpRec} (hr : recOf x gen = some r) : heldBy x gen = none := by
  unfold heldBy
  rw [hr]
  split <;> simp

theorem heldBy_of_held {x : Slot} {gen : BitVec 16} {q : PolderNo} (hu : x.use = .held q) (hg : x.gen = gen)
    (hr : recOf x gen = none) : heldBy x gen = some q := by
  unfold heldBy
  simp only [hu, hg, hr, and_self, if_true]

section
variable {d : Dev} {t : Nat} {q : PolderNo} {a : W64} (ht : (a.extractLsb' 0 16).toNat / 32 = t)

theorem ofNat_fld_31_16 (a : W64) : BitVec.ofNat 16 (fld a 31 16) = a.extractLsb' 16 16 := by
  rw [fld_eq_extractLsb']
  exact (BitVec.ofNat_toNat _ _).trans (BitVec.setWidth_eq _)

/-- The slot that a tag names. -/
theorem fld_15_0_mod (a : W64) : fld a 15 0 % 32 = (a.extractLsb' 0 5).toNat := by
  rw [fld_eq_extractLsb']
  simp [BitVec.extractLsb'_toNat]

include ht

theorem waitWord_recorded {r : OpRec} (hr : recOf (slotOf d t (a.extractLsb' 0 5).toNat) (a.extractLsb' 16 16) = some r)
    (hp : r.polder = q) : waitWord d t q a = some (r.cword.zeroExtend 64) := by
  unfold waitWord
  dsimp only
  rw [if_neg (by rw [fld_eq_extractLsb']; exact not_not.2 ht), fld_15_0_mod, ofNat_fld_31_16, heldBy_of_recOf hr]
  simp only [hr, hp, if_true]

theorem waitWord_running (hu : (slotOf d t (a.extractLsb' 0 5).toNat).use = .held q)
    (hg : (slotOf d t (a.extractLsb' 0 5).toNat).gen = a.extractLsb' 16 16)
    (hr : recOf (slotOf d t (a.extractLsb' 0 5).toNat) (a.extractLsb' 16 16) = none) : waitWord d t q a = none := by
  unfold waitWord
  dsimp only
  rw [if_neg (by rw [fld_eq_extractLsb']; exact not_not.2 ht), fld_15_0_mod, ofNat_fld_31_16, heldBy_of_held hu hg hr]
  simp only [if_true]

end

section
variable {s : State} {t : TileNo} {th : Nat} {pn : PolderNo} {p : Polder} {w : W32} (h : Issues s t.toNat th pn p w)
  (ho : w.extractLsb' 24 8 = 0x29) {a : W64} (hreg : sreg s t.toNat th (w.extractLsb' 16 4) = a)
  (htag : (a.extractLsb' 0 16).toNat / 32 = t.toNat)

include h ho hreg htag

theorem wait_moves {r : OpRec}
    (hr : recOf (slotOf s.dev t.toNat (a.extractLsb' 0 5).toNat) (a.extractLsb' 16 16) = some r) (hp : r.polder = pn) :
    ThreadMoves s t.toNat th ((threadOf s.dev t.toNat th).pc + 1)
      (wrote (sreg s t.toNat th) (w.extractLsb' 20 4) (r.cword.zeroExtend 64)) (exec (.wait t) s) := by
  have hrow : crownOp 0x29 crownWait s.dev t.toNat = onThread (afterIssue s.dev t.toNat th pn) t.toNat th fun x =>
      threadDone x (w.extractLsb' 20 4) (r.cword.zeroExtend 64) := by
    refine (crownOp_runs h ho crownWait).trans ?_
    unfold crownWait
    dsimp only
    rw [hreg, waitWord_recorded htag (by rwa [slotOf_afterIssue]) hp, iD_eq]
  exact moves_of_row h.ready hrow

theorem wait_waits
    (hu : (slotOf s.dev t.toNat (a.extractLsb' 0 5).toNat).use = .held pn)
    (hg : (slotOf s.dev t.toNat (a.extractLsb' 0 5).toNat).gen = a.extractLsb' 16 16)
    (hr : recOf (slotOf s.dev t.toNat (a.extractLsb' 0 5).toNat) (a.extractLsb' 16 16) = none) :
    ThreadWaits s t.toNat th (.op (w.extractLsb' 20 4) (a.extractLsb' 0 5).toNat (a.extractLsb' 16 16))
      (exec (.wait t) s) := by
  have hrow : crownOp 0x29 crownWait s.dev t.toNat = threadWait (afterIssue s.dev t.toNat th pn) t.toNat th
      (.op (w.extractLsb' 20 4) (a.extractLsb' 0 5).toNat (a.extractLsb' 16 16)) := by
    refine (crownOp_runs h ho crownWait).trans ?_
    unfold crownWait
    dsimp only
    rw [hreg, waitWord_running htag (by rwa [slotOf_afterIssue]) (by rwa [slotOf_afterIssue]) (by rwa [slotOf_afterIssue]), iD_eq,
      ofNat_fld_31_16, fld_eq_extractLsb']
  exact waits_of_row hrow

end

/-! ### The ISSUE that waits first -/

/-- A change of a tile looks at that tile alone. -/
theorem onTile_congr {d : Dev} {t : Nat} {f g : Tile → Tile} (h : f (tileOf d t) = g (tileOf d t)) : onTile d t f = onTile d t g := by
  unfold onTile NMap.upd
  exact congrArg (fun x => { d with tiles := NMap.set d.tiles {} t x }) h

theorem nextGrant_head {d : Dev} {t th : Nat} {x : IssueWait} {q : List IssueWait} (hq : (tileOf d t).issueQ = x :: q)
    (hx : x.thread = some th) (hst : (threadOf d t th).st = .waiting) (hg : canGrant d t x.desc = true) : nextGrant d t = some x := by
  unfold nextGrant
  rw [hq, List.find?_cons_of_pos (by simp [hx, hst])]
  simp [hg]

theorem issueSlotGrant_next {s : State} {t th : Nat} {pn : PolderNo} {p : Polder} {x : IssueWait} {q : List IssueWait} {rd : BitVec 4}
    {e : EngineId} {sl : Nat} {rest : List Nat} (hq : (tileOf s.dev t).issueQ = x :: q) (hx : x.thread = some th)
    (hst : (threadOf s.dev t th).st = .waiting) (hw : (threadOf s.dev t th).wait = .slot rd)
    (hpol : polderOfThread s.dev t th = some (pn, p)) (he : engOfCode (dEngine x.desc) = some e)
    (hfree : (tileOf s.dev t).freeSlots = sl :: rest) (hlen : (engineOf s.dev t e).queue.length < 8) (hr : s.dev.resets = []) :
    ∃ d1, Granted (onTile s.dev t fun y => { y with issueQ := q }) d1 t e pn ⟨x.desc, sl, (slotOf s.dev t sl).gen + 1, x.dep⟩ rest ∧
      crownGrant s.dev t = onThread d1 t th fun y => threadDone y rd (issueVal t sl ((slotOf s.dev t sl).gen + 1)) := by
  have hdrop : (onTile s.dev t fun y => { y with issueQ := y.issueQ.erase x }) = onTile s.dev t fun y => { y with issueQ := q } :=
    onTile_congr (by rw [hq, List.erase_cons_head])
  have htile : tileOf (onTile s.dev t fun y => { y with issueQ := q }) t = { tileOf s.dev t with issueQ := q } := tileOf_onTile ..
  have hslot : slotOf (onTile s.dev t fun y => { y with issueQ := q }) t sl = slotOf s.dev t sl := by rw [slotOf, htile]; rfl
  obtain ⟨d1, henq, hG⟩ := enqueue_granted (d := onTile s.dev t fun y => { y with issueQ := q }) pn x.dep (by rw [htile]; exact hfree) he
  rw [hslot] at henq hG
  have hwait : (threadOf d1 t th).wait = .slot rd := by rw [threadOf, hG.tile, htile]; exact hw
  refine ⟨d1, hG, ?_⟩
  unfold crownGrant
  rw [nextGrant_head hq hx hst (canGrant_of hr hfree he hlen)]
  simp only [hx]
  rw [hdrop, show polderOfThread (onTile s.dev t fun y => { y with issueQ := q }) t th = some (pn, p) from hpol]
  simp only [henq, hwait]

/-- Settles O17, by `Granted` for the two that obtain a slot and by `waitWord_recorded` and `waitWord_running` for WAIT. -/
theorem crownIssueAndWait : Obligations.CrownIssueAndWait := by
  unfold Obligations.CrownIssueAndWait
  refine ⟨fun t s th pn p w e sl rest h ho => ?_, fun t s th pn p w h ho => ?_,
    fun t s th pn p x q rd e sl rest hq hx hst hw hpol he hfree hsl hlen hr => ?_⟩
  · intro A desc gen halign hend hshare hc hdep he hwait hfree hsl hlen hr
    obtain ⟨d1, hG, hrow⟩ := issue_next h ho rfl rfl halign hend hshare hc hdep he hwait hfree hlen hr
    have htile := tileOf_afterIssue s.dev t.toNat th pn
    have hst : (threadOf s.dev t.toNat th).st ≠ .parked := by rw [h.ready]; decide
    have hgo := hG.goes_on (s := s) (th := th) (by rw [htile]) (by rw [htile]) (by rw [htile]) hst (w.extractLsb' 20 4)
      (issueVal t.toNat sl gen)
    rw [issueVal_eq t hsl] at hgo hrow
    refine ⟨{ s with dev := crownOp 0x28 crownIssue s.dev t.toNat }, rfl, ⟨rfl, rfl, rfl⟩, ?_, ?_, ?_, ?_⟩ <;> rw [hrow]
    · refine ((afterIssue_onlyTiles s.dev t.toNat th pn).trans ?_).trans (onThread_onlyTiles ..)
      unfold OnlyTiles
      rw [hG.dev]
    · exact fun u hu => by rw [tileOf_onThread_ne _ _ _ hu, hG.others u hu, tileOf_afterIssue_ne _ _ _ hu]
    · rw [tileOf_onThread, hG.tile, htile]
    · exact hgo
  · intro a sl gen htag
    exact ⟨fun r hr hp => wait_moves h ho rfl htag hr hp, fun hu hg hr => wait_waits h ho rfl htag hu hg hr⟩
  · intro gen
    obtain ⟨d1, hG, hrow⟩ := issueSlotGrant_next hq hx hst hw hpol he hfree hlen hr
    have htile : tileOf (onTile s.dev t.toNat fun y => { y with issueQ := q }) t.toNat = { tileOf s.dev t.toNat with issueQ := q } :=
      tileOf_onTile ..
    have hgo := hG.goes_on (s := s) (th := th) (by rw [htile]) (by rw [htile]) (by rw [htile]) (by rw [hst]; decide) rd
      (issueVal t.toNat sl gen)
    rw [issueVal_eq t hsl] at hgo hrow
    refine ⟨{ s with dev := crownGrant s.dev t.toNat }, rfl, ⟨rfl, rfl, rfl⟩, ?_, ?_, ?_, ?_⟩ <;> rw [hrow]
    · unfold onThread onTile
      rw [hG.dev]
      rfl
    · exact fun u hu => by rw [tileOf_onThread_ne _ _ _ hu, hG.others u hu]; exact tileOf_onTile_ne _ _ hu
    · rw [tileOf_onThread, hG.tile, htile]
    · exact hgo

end Sys2Proof.Machine
end

section
/-! Descriptor boundaries (R72, R75 to R77, R86): what an idle engine makes of its next descriptor. -/

namespace Sys2Proof.Machine

theorem opPolder_held {d : Dev} {t : Nat} {q : QOp} {pn : PolderNo} (h : (slotOf d t q.slot).use = .held pn) : opPolder d t q = pn := by
  unfold opPolder; rw [h]

/-! ### The checks before an engine's own -/

section
variable {d : Dev} {t : Nat} {e : EngineId} {q : QOp} {pn : PolderNo} (hu : (slotOf d t q.slot).use = .held pn)
include hu

theorem startErr_tally {c : Code} (h : tallyErr d pn (dTally q.desc) = some c) : startErr d t e q = (false, some c) := by
  unfold startErr
  simp only [opPolder_held hu, h]

theorem startErr_eq (h : tallyErr d pn (dTally q.desc) = none) : startErr d t e q = (true,
    if q.dep = .failed then some 0x040C
    else if !dHdrOk q.desc ∨ !opcodeOk e (dOpcode q.desc) then some 0x0402
    else if dPolder q.desc ≠ pn then some 0x0408
    else if dClass q.desc = 0 ∨ ((polderOf d pn).map fun x => x.share (dClass q.desc)).getD 0 = 0 then some 0x0408
    else none) := by
  unfold startErr
  simp only [opPolder_held hu, h]

theorem startErr_failed (h : tallyErr d pn (dTally q.desc) = none) (hd : q.dep = .failed) :
    startErr d t e q = (true, some 0x040C) := by
  rw [startErr_eq hu h, if_pos hd]

theorem startErr_encoding (h : tallyErr d pn (dTally q.desc) = none) (hd : q.dep = .met)
    (hbad : dHdrOk q.desc = false ∨ opcodeOk e (dOpcode q.desc) = false) : startErr d t e q = (true, some 0x0402) := by
  rw [startErr_eq hu h, if_neg (by rw [hd]; exact Dep.noConfusion), if_pos (by simpa using hbad)]

theorem startErr_owner (h : tallyErr d pn (dTally q.desc) = none) (hd : q.dep = .met) (hhdr : dHdrOk q.desc = true)
    (hop : opcodeOk e (dOpcode q.desc) = true) {p : Polder} (hp : polderOf d pn = some p) :
    startErr d t e q = (true,
      if dPolder q.desc ≠ pn ∨ dClass q.desc = 0 ∨ p.share (dClass q.desc) = 0 then some 0x0408 else none) := by
  rw [startErr_eq hu h, if_neg (by rw [hd]; exact Dep.noConfusion), if_neg (by simp [hhdr, hop]), hp]
  by_cases hpol : dPolder q.desc = pn
  · rw [if_neg (not_not.2 hpol)]
    simp [hpol]
  · rw [if_pos hpol, if_pos (.inl hpol)]

end

/-! ### The boundary -/

theorem opStart_takes {d : Dev} {t : Nat} {e : EngineId} {q : QOp} (hrun : runOf d t e = none) (hnext : nextDesc d t e = some q)
    (hrouter : d.grid.routerFault = false) (hdep : q.dep = .met ∨ q.dep = .failed) :
    opStart d t e = onEngine d t e fun y =>
      { queue := y.queue.erase q
        run := some { q := q, tallyOk := (startErr d t e q).1, ended := (startErr d t e q).2.map fun c => ⟨.notStarted, c⟩ } } := by
  unfold opStart
  rcases hdep with hd | hd <;> simp only [hrun, hnext, hrouter, hd, Bool.false_eq_true, if_false]

theorem opStart_busy {d : Dev} {t : Nat} {e : EngineId} {r : RunOp} (hrun : runOf d t e = some r) : opStart d t e = d := by
  unfold opStart; rw [hrun]

theorem opStart_empty {d : Dev} {t : Nat} {e : EngineId} (hnext : nextDesc d t e = none) : opStart d t e = d := by
  unfold opStart
  rw [hnext]
  split <;> simp_all

theorem opStart_pending {d : Dev} {t : Nat} {e : EngineId} {q : QOp} {sl : Nat} {g : BitVec 16} (hnext : nextDesc d t e = some q)
    (hd : q.dep = .on sl g) : opStart d t e = d := by
  unfold opStart
  rw [hnext]
  cases runOf d t e with
  | some r => rfl
  | none => simp only [hd, ite_self]

end Sys2Proof.Machine
end

section
/-! Whole words stored, whatever errors lay in them (R217). -/

namespace Sys2Proof.Machine

/-- The bytes bs stand at a, no byte elsewhere has changed, and beside bytes and error states nothing has. -/
structure Restored (d : Dev) (a : Nat) (bs : List Byte) (d' : Dev) : Prop where
  dev : d' = { d with mem := { d.mem with bytes := d'.mem.bytes, ecc := d'.mem.ecc } }
  inside : ∀ i (h : i < bs.length), byteAt d' (a + i) = bs[i]
  outside : ∀ b, b < a ∨ a + bs.length ≤ b → byteAt d' b = byteAt d b

theorem Restored.nil (d : Dev) (a : Nat) : Restored d a [] d := ⟨rfl, by simp, fun _ _ => rfl⟩

theorem Restored.append {d d' d'' : Dev} {a : Nat} {bs cs : List Byte} (h : Restored d a bs d')
    (h' : Restored d' (a + bs.length) cs d'') : Restored d a (bs ++ cs) d'' := by
  refine ⟨by rw [h'.dev, h.dev], fun i hi => ?_, fun b hb => ?_⟩
  · rw [List.length_append] at hi
    by_cases hb : i < bs.length
    · rw [h'.outside _ (.inl (by omega)), h.inside i hb, List.getElem_append_left hb]
    · have := h'.inside (i - bs.length) (by omega)
      rw [show a + bs.length + (i - bs.length) = a + i by omega] at this
      rw [this, List.getElem_append_right (by omega)]
  · rw [List.length_append] at hb
    rw [h'.outside b (by omega), h.outside b (by omega)]

theorem Restored.place {d d' : Dev} {a : Nat} {bs : List Byte} (h : Restored d a bs d') (b : Nat) : place d' b = Machine.place d b :=
  place_congr (by rw [h.dev]) (by rw [h.dev]) (by rw [h.dev]) (by rw [h.dev]) (by rw [h.dev]) b

theorem Restored.bytesAt {d d' : Dev} {a : Nat} {bs : List Byte} (h : Restored d a bs d') : bytesAt d' a bs.length = bs :=
  List.ext_getElem (by simp) fun i _ hi => by simpa [Machine.bytesAt] using h.inside i hi

theorem restored_word {d : Dev} {acc : Acc} {a k : Nat} {bs : List Byte} (ha : a % 8 = 0) (hp : place d a = .ok k) (hl : bs.length = 8) :
    Restored d a bs (wordWrite d acc k a 0 bs) := by
  rw [wordWrite_whole _ _ _ _ _ _ hl]
  obtain ⟨-, hin, hout, -⟩ : Stored (setEcc d k none) a bs (rawWrite (setEcc d k none) k bs) :=
    stored_at bs (by rwa [place_setEcc]) (by omega)
  refine ⟨rfl, hin, fun b hb => (hout b hb).trans ?_⟩
  unfold byteAt
  rw [place_setEcc]
  rfl

theorem wordsWrite_restored {d : Dev} {acc : Acc} {k n a : Nat} {bs : List Byte} (ha : a % 8 = 0) (hl : bs.length = 8 * k) (hn : k ≤ n)
    (hp : ∀ j, j < k → ∃ key, place d (a + 8 * j) = .ok key) : Restored d a bs (wordsWrite d acc n a bs) := by
  induction n generalizing d a bs k with
  | zero =>
    obtain rfl : bs = [] := List.length_eq_zero_iff.1 (by omega)
    exact .nil d a
  | succ n ih =>
    unfold wordsWrite
    by_cases hb : bs = []
    · rw [if_pos hb, hb]
      exact .nil d a
    have hpos : 0 < bs.length := List.length_pos_iff.2 hb
    obtain ⟨key, hkey⟩ := hp 0 (by omega)
    rw [if_neg hb]
    dsimp only
    rw [ha, Nat.sub_zero, show place d a = .ok key from hkey]
    have hword : Restored d a (bs.take 8) (wordWrite d acc key a 0 (bs.take 8)) := restored_word ha hkey (by simp; omega)
    have hrest := ih (d := wordWrite d acc key a 0 (bs.take 8)) (k := k - 1) (a := a + 8) (bs := bs.drop 8) (by omega) (by simp; omega)
      (by omega) fun j hj => by
        obtain ⟨key', hkey'⟩ := hp (j + 1) (by omega)
        exact ⟨key', by rw [hword.place, show a + 8 + 8 * j = a + 8 * (j + 1) by omega, hkey']⟩
    have := hword.append (cs := bs.drop 8) (by rwa [show (bs.take 8).length = 8 by simp; omega])
    rwa [List.take_append_drop] at this

theorem memWrite_restored {d : Dev} {a k : Nat} {bs : List Byte} (acc : Acc) (ha : a % 8 = 0) (hl : bs.length = 8 * k)
    (hr : rangeErr d a bs.length = none) : Restored d a bs (memWrite d acc a bs).1 := by
  unfold memWrite
  by_cases hb : bs = []
  · rw [if_pos hb, hb]
    exact .nil d a
  · rw [if_neg hb, hr]
    exact wordsWrite_restored ha hl (by omega) fun j hj => place_of_range hr _ (by omega) (by omega) (by omega)

end Sys2Proof.Machine
end

section
/-! The end of an operation (R74, R76, R77): what record, waiting threads, dependents, notice and slot make of the device; and what
an engine does before and after. -/

namespace Sys2Proof.Machine

theorem NMap.find_mapVals {α β : Type} (m : NMap α) (f : Nat → α → β) (k : Nat) :
    NMap.find? (NMap.mapVals m f) k = (NMap.find? m k).map (f k) := by
  induction m with
  | nil => rfl
  | cons p m ih =>
    obtain ⟨j, v⟩ := p
    change NMap.find? ((j, f j v) :: NMap.mapVals m f) k = _
    rw [NMap.find_cons, NMap.find_cons, ih]
    split
    · next h => rw [h]; rfl
    · rfl

/-- Of the device, one tile alone has changed. -/
structure OnlyTile (t : Nat) (d d' : Dev) : Prop where
  dev : d' = { d with tiles := d'.tiles }
  others : ∀ u, u ≠ t → tileOf d' u = tileOf d u

theorem OnlyTile.refl (t : Nat) (d : Dev) : OnlyTile t d d := ⟨rfl, fun _ _ => rfl⟩
theorem OnlyTile.trans {t : Nat} {d e f : Dev} (h : OnlyTile t d e) (h' : OnlyTile t e f) : OnlyTile t d f :=
  ⟨by rw [h'.dev, h.dev], fun u hu => (h'.others u hu).trans (h.others u hu)⟩
theorem onTile_onlyTile (t : Nat) (d : Dev) (f : Tile → Tile) : OnlyTile t d (onTile d t f) := ⟨rfl, fun _ hu => tileOf_onTile_ne _ _ hu⟩
theorem OnlyTile.onlyTiles {t : Nat} {d d' : Dev} (h : OnlyTile t d d') : OnlyTiles d d' := by
  unfold OnlyTiles
  rw [h.dev]

theorem onRun_onlyTile (t : Nat) (d : Dev) (e : EngineId) (f : RunOp → RunOp) : OnlyTile t d (onRun d t e f) := onTile_onlyTile ..

/-- A thread of the tile that the table lists. -/
def Listed (d : Dev) (t th : Nat) : Prop := NMap.find? (tileOf d t).threads th = some (threadOf d t th)

theorem listed_onTile {d : Dev} {t th : Nat} {f : Tile → Tile} {x : Thread}
    (hf : NMap.find? (f (tileOf d t)).threads th = some x) : Listed (onTile d t f) t th ∧ threadOf (onTile d t f) t th = x := by
  have hfind : NMap.find? (tileOf (onTile d t f) t).threads th = some x := by rw [tileOf_onTile, hf]
  have hget : threadOf (onTile d t f) t th = x := by
    unfold threadOf NMap.get
    rw [hfind]
    rfl
  exact ⟨by rw [Listed, hfind, hget], hget⟩

end Sys2Proof.Machine
end

section
/-! An operation's end (R73, R74, R76): its record, the threads that wait on it, dependents, notice and slot. -/

namespace Sys2Proof.Machine

/-- Operation q of polder pn has ended with completion word w (R73, R74, R76): its slot is free at the tail of the list and has its
record, and the threads that wait on it have gone on. -/
structure Finished (d d' : Dev) (t : Nat) (q : QOp) (pn : PolderNo) (w : W32) : Prop where
  dev : d' = { d with tiles := d'.tiles, counters := d'.counters, reeve := d'.reeve, mem := { d.mem with host := d'.mem.host } }
  others : ∀ u, u ≠ t → tileOf d' u = tileOf d u
  tile : tileOf d' t = { tileOf d t with
    threads := (tileOf d' t).threads, slots := (tileOf d' t).slots, freeSlots := (tileOf d t).freeSlots ++ [q.slot],
    engines := (tileOf d' t).engines, issueQ := (tileOf d' t).issueQ }
  freed : (slotOf d' t q.slot).use = .free
  record : (slotOf d' t q.slot).recs.head? = some ⟨q.gen, pn, w⟩
  woken : ∀ th rd, Listed d t th → (threadOf d t th).wait = .op rd q.slot q.gen → (threadOf d t th).st = .waiting →
    threadOf d' t th = threadDone (threadOf d t th) rd (w.zeroExtend 64)

theorem wakeOp_woken {d : Dev} {t th slot : Nat} {gen : BitVec 16} {rd : BitVec 4} (w : W32) (hl : Listed d t th)
    (hw : (threadOf d t th).wait = .op rd slot gen) (hst : (threadOf d t th).st = .waiting) :
    threadOf (wakeOp d t slot gen w) t th = threadDone (threadOf d t th) rd (w.zeroExtend 64) := by
  refine (listed_onTile ?_).2
  dsimp only
  rw [NMap.find_mapVals, show NMap.find? _ th = _ from hl, Option.map_some, hw]
  simp [hst]

theorem freeSlot_of {d : Dev} {t slot : Nat} (h : d.fabric.reqs.any (fun r => r.abandoned && r.tag = opTag t slot) = false) :
    freeSlot d t slot =
      onTile (onSlot d t slot fun s => { s with use := .free }) t fun x => { x with freeSlots := x.freeSlots ++ [slot] } := by
  unfold freeSlot
  rw [if_neg (by rw [h]; exact Bool.false_ne_true)]

theorem opNotice_onlyTold (d : Dev) (t slot : Nat) (gen : BitVec 16) (p : PolderNo) (w : W32) : OnlyTold d (opNotice d t slot gen p w) :=
  notice_onlyTold ..

theorem finishOp_finished {d : Dev} {t : Nat} {q : QOp} {pn : PolderNo} (x : OpEnd) (hu : (slotOf d t q.slot).use = .held pn)
    (hreqs : d.fabric.reqs.any (fun r => r.abandoned && r.tag = opTag t q.slot) = false) :
    Finished d (finishOp d t q x true) t q pn (cword x) := by
  obtain ⟨d1, h1⟩ : ∃ d1, d1 = recordEnd d t q.slot q.gen pn (cword x) := ⟨_, rfl⟩
  obtain ⟨d2, h2⟩ : ∃ d2, d2 = wakeOp d1 t q.slot q.gen (cword x) := ⟨_, rfl⟩
  obtain ⟨d3, h3⟩ : ∃ d3, d3 = settleDeps d2 t q.slot q.gen (cwordOk (cword x)) := ⟨_, rfl⟩
  obtain ⟨d4, h4⟩ : ∃ d4, d4 = if dNotify q.desc then opNotice d3 t q.slot q.gen pn (cword x) else d3 := ⟨_, rfl⟩
  have htold : OnlyTold d3 d4 := by
    rw [h4]
    split
    · exact opNotice_onlyTold ..
    · exact .refl d3
  have hd1 : d1 = { d with tiles := d1.tiles } := by rw [h1]; rfl
  have hd2 : d2 = { d1 with tiles := d2.tiles } := by rw [h2]; rfl
  have hd3 : d3 = { d2 with tiles := d3.tiles } := by rw [h3]; rfl
  have hreqs4 : d4.fabric.reqs.any (fun r => r.abandoned && r.tag = opTag t q.slot) = false := by
    rw [htold, hd3, hd2, hd1]; exact hreqs
  have hfin : finishOp d t q x true = freeSlot d4 t q.slot := by
    unfold finishOp
    dsimp only
    rw [hu]
    dsimp only
    rw [← h1, ← h2, ← h3, ← h4, if_pos rfl]
  rw [hfin, freeSlot_of hreqs4]
  have ht1 : tileOf d1 t = { tileOf d t with slots := (tileOf d1 t).slots } := by rw [h1, recordEnd, onSlot, tileOf_onTile]
  have ht2 : tileOf d2 t = { tileOf d1 t with threads := (tileOf d2 t).threads } := by rw [h2, wakeOp, tileOf_onTile]
  have ht3 : tileOf d3 t = { tileOf d2 t with engines := (tileOf d3 t).engines, issueQ := (tileOf d3 t).issueQ } := by
    rw [h3, settleDeps, tileOf_onTile]
  have ht4 : ∀ u, tileOf d4 u = tileOf d3 u := fun u => by unfold tileOf; rw [htold]
  have hslot : slotOf d4 t q.slot = slotOf d1 t q.slot := by rw [slotOf, ht4, ht3, ht2]; rfl
  have hslot1 : slotOf d1 t q.slot = { slotOf d t q.slot with recs := (⟨q.gen, pn, cword x⟩ :: (slotOf d t q.slot).recs).take 16 } := by
    rw [h1, recordEnd, slotOf_onSlot]
  refine ⟨?_, fun u hu => ?_, ?_, ?_, ?_, fun th rd hl hw hst => ?_⟩
  · unfold onTile onSlot onTile
    rw [htold, hd3, hd2, hd1]
  · rw [tileOf_onTile_ne _ _ hu, onSlot, tileOf_onTile_ne _ _ hu, ht4, h3, settleDeps, tileOf_onTile_ne _ _ hu, h2, wakeOp,
      tileOf_onTile_ne _ _ hu, h1, recordEnd, onSlot, tileOf_onTile_ne _ _ hu]
  · rw [tileOf_onTile, onSlot, tileOf_onTile, ht4, ht3, ht2, ht1]
  · rw [slotOf, tileOf_onTile]
    exact congrArg Slot.use (slotOf_onSlot ..)
  · rw [slotOf, tileOf_onTile]
    refine (congrArg (fun s => s.recs.head?) (slotOf_onSlot ..)).trans ?_
    dsimp only
    rw [hslot, hslot1, List.take_succ_cons, List.head?_cons]
  · have hl1 : threadOf d1 t th = threadOf d t th := by rw [threadOf, ht1]; rfl
    have hwoken := wakeOp_woken (d := d1) (cword x) (by rw [Listed, hl1, ht1]; exact hl) (by rw [hl1]; exact hw) (by rw [hl1]; exact hst)
    rw [← h2, hl1] at hwoken
    rw [threadOf, tileOf_onTile, onSlot, tileOf_onTile, ht4, ht3]
    exact hwoken

end Sys2Proof.Machine
end

section
/-! The end of an operation on each engine (R74, R77): its tally before `finishOp`, and the steps of engines and hand-off queue around
it, none of which undoes what it left. -/

namespace Sys2Proof.Machine

/-! ### What an end leaves -/

/-- An operation of polder pn on tile t has ended with x (R74, R77): its tally is written and no other byte of memory changed, its slot
has its record and is free at the tail of the list, and the threads that waited on it have gone on. -/
structure OpOver (d d' : Dev) (t : Nat) (r : RunOp) (x : OpEnd) (pn : PolderNo) : Prop where
  others : ∀ u, u ≠ t → tileOf d' u = tileOf d u
  tally : bytesAt d' (dTally r.q.desc) 32 = tallyBytes (dSeq r.q.desc) x true r.marker r.counts
  bytes : ∀ a, a < dTally r.q.desc ∨ dTally r.q.desc + 32 ≤ a → byteAt d' a = byteAt d a
  freed : (slotOf d' t r.q.slot).use = .free
  record : (slotOf d' t r.q.slot).recs.head? = some ⟨r.q.gen, pn, cword x⟩
  free : (tileOf d' t).freeSlots = (tileOf d t).freeSlots ++ [r.q.slot]
  woken : ∀ th rd, Listed d t th → (threadOf d t th).wait = .op rd r.q.slot r.q.gen → (threadOf d t th).st = .waiting →
    threadOf d' t th = threadDone (threadOf d t th) rd ((cword x).zeroExtend 64)

/-- An operation of polder pn that has ended with x, with every request answered and nothing in the way of its tally. -/
structure Ends (d : Dev) (t : Nat) (e : EngineId) (r : RunOp) (x : OpEnd) (pn : PolderNo) : Prop where
  run : runOf d t e = some r
  ended : r.ended = some x
  held : (slotOf d t r.q.slot).use = .held pn
  answered : openReqs d t r.q.slot = []
  noLost : r.lostWrites = []
  noBad : r.bad = none
  tallyOk : r.tallyOk = true
  present : rangeErr d (dTally r.q.desc) 32 = none
  aligned : dTally r.q.desc % 32 = 0
  noneLeft : d.fabric.reqs.any (fun y => y.abandoned && y.tag = opTag t r.q.slot) = false

theorem tallyBytes_length (seq : W32) (e : OpEnd) (fin : Bool) (marker : Nat) (c : Counts) : (tallyBytes seq e fin marker c).length = 32 :=
  toBytes_length ..

section
variable {d : Dev} {t : Nat} {e : EngineId} {r : RunOp} {x : OpEnd} {pn : PolderNo}

/-- The tally and all that `finishOp` does. -/
theorem Ends.over (h : Ends d t e r x pn) :
    let d1 := (memWrite d (runAcc d t r) (dTally r.q.desc) (tallyBytes (dSeq r.q.desc) x true r.marker r.counts)).1
    OpOver d (finishOp d1 t r.q x true) t r x pn ∧ (tileOf (finishOp d1 t r.q x true) t).orphans = (tileOf d t).orphans := by
  intro d1
  have ha := h.aligned
  have hlen := tallyBytes_length (dSeq r.q.desc) x true r.marker r.counts
  have hw : Restored d (dTally r.q.desc) (tallyBytes (dSeq r.q.desc) x true r.marker r.counts) d1 :=
    memWrite_restored (k := 4) _ (by omega) hlen (by rw [hlen]; exact h.present)
  have htiles : d1.tiles = d.tiles := by rw [hw.dev]
  have htile : ∀ u, tileOf d1 u = tileOf d u := fun u => by unfold tileOf; rw [htiles]
  have hthread : ∀ u, threadOf d1 t u = threadOf d t u := fun u => by unfold threadOf; rw [htile]
  have hf : Finished d1 (finishOp d1 t r.q x true) t r.q pn (cword x) :=
    finishOp_finished x (by rw [slotOf, htile]; exact h.held) (by rw [hw.dev]; exact h.noneLeft)
  have hbyte : ∀ a, byteAt (finishOp d1 t r.q x true) a = byteAt d1 a := fun a => by
    unfold byteAt
    rw [place_congr (d := d1) (by rw [hf.dev]) (by rw [hf.dev]) (by rw [hf.dev]) (by rw [hf.dev]) (by rw [hf.dev]),
      show (finishOp d1 t r.q x true).mem.bytes = d1.mem.bytes by rw [hf.dev]]
  refine ⟨⟨fun u hu => (hf.others u hu).trans (htile u), ?_, fun a hout => ?_, hf.freed, hf.record, ?_, fun th rd hl hwait hst => ?_⟩, ?_⟩
  · have := hw.bytesAt
    rw [hlen] at this
    rw [← this]
    unfold bytesAt
    simp only [hbyte]
  · rw [hbyte, hw.outside a (by rwa [hlen])]
  · rw [hf.tile, htile]
  · rw [hf.woken th rd (by rw [Listed, hthread, htile]; exact hl) (by rw [hthread]; exact hwait) (by rw [hthread]; exact hst), hthread]
  · rw [hf.tile, htile]

/-! ### Steps around it -/

/-- A step that touches engines and the hand-off queue of one tile. -/
structure OnlyEngines (t : Nat) (d d' : Dev) : Prop extends OnlyTile t d d' where
  tile : tileOf d' t = { tileOf d t with
    engines := (tileOf d' t).engines, handoff := (tileOf d' t).handoff, banks := (tileOf d' t).banks, orphans := (tileOf d' t).orphans }

theorem OnlyEngines.refl (t : Nat) (d : Dev) : OnlyEngines t d d := ⟨.refl t d, rfl⟩
theorem OnlyEngines.trans {d1 d2 d3 : Dev} (h : OnlyEngines t d1 d2) (h' : OnlyEngines t d2 d3) : OnlyEngines t d1 d3 :=
  ⟨h.toOnlyTile.trans h'.toOnlyTile, by rw [h'.tile, h.tile]⟩

theorem onEngine_onlyEngines (d : Dev) (t : Nat) (e : EngineId) (f : Engine → Engine) : OnlyEngines t d (onEngine d t e f) :=
  ⟨onTile_onlyTile .., by rw [onEngine, tileOf_onTile]⟩

theorem onRun_onlyEngines (d : Dev) (t : Nat) (e : EngineId) (f : RunOp → RunOp) : OnlyEngines t d (onRun d t e f) :=
  onEngine_onlyEngines ..

theorem consumerEnded_onlyEngines (d : Dev) (t : Nat) (tag gen : BitVec 16) : OnlyEngines t d (consumerEnded d t tag gen) := by
  have hleave (d : Dev) (f : Tile → List OutTile) (g : Tile → List OutTile) (k : Tile → List (BitVec 16 × BitVec 16)) :
      OnlyEngines t d (onTile d t fun x => { x with handoff := f x, banks := g x, orphans := k x }) :=
    ⟨onTile_onlyTile .., by rw [tileOf_onTile]⟩
  unfold consumerEnded
  dsimp only
  refine OnlyEngines.trans ?_ (hleave ..)
  split
  · split
    · exact onRun_onlyEngines ..
    · exact .refl t d
  · exact .refl t d

theorem fullerDone_cases (d : Dev) (t : Nat) : fullerDone d t = d ∨ ∃ f, fullerDone d t = onRun d t .fuller f := by
  unfold fullerDone
  split
  · exact .inl rfl
  · split
    · refine .inr ?_
      split <;> exact ⟨_, rfl⟩
    · exact .inl rfl

theorem fullerDone_onlyEngines (d : Dev) (t : Nat) : OnlyEngines t d (fullerDone d t) := by
  rcases fullerDone_cases d t with h | ⟨f, h⟩ <;> rw [h]
  · exact .refl t d
  · exact onRun_onlyEngines ..

theorem runOf_fullerDone (d : Dev) (t : Nat) (he : e ≠ .fuller) : runOf (fullerDone d t) t e = runOf d t e := by
  rcases fullerDone_cases d t with h | ⟨f, h⟩ <;> rw [h]
  rw [runOf, onRun, engineOf_onEngine_ne _ _ _ he]
  rfl

theorem OpOver.then {d' d'' : Dev} (h : OpOver d d' t r x pn) (h' : OnlyEngines t d' d'') : OpOver d d'' t r x pn := by
  have hslot : slotOf d'' t r.q.slot = slotOf d' t r.q.slot := by rw [slotOf, h'.tile]; rfl
  have hT := h'.onlyTiles
  refine ⟨fun u hu => (h'.others u hu).trans (h.others u hu), (hT.bytesAt ..).trans h.tally, fun a ha => (hT.byteAt a).trans (h.bytes a ha),
    by rw [hslot]; exact h.freed, by rw [hslot]; exact h.record, by rw [h'.tile]; exact h.free, fun th rd hl hw hst => ?_⟩
  rw [threadOf, h'.tile]
  exact h.woken th rd hl hw hst

/-- A step that touches the summary registers, the basin and the threads of one tile, but none that waits on an operation. -/
structure OnlyPosts (t : Nat) (d d' : Dev) : Prop extends OnlyTile t d d' where
  tile : tileOf d' t = { tileOf d t with
    threads := (tileOf d' t).threads, summ := (tileOf d' t).summ, basin := (tileOf d' t).basin }
  kept : ∀ th rd s g, Listed d t th → (threadOf d t th).wait = .op rd s g → Listed d' t th ∧ threadOf d' t th = threadOf d t th

theorem OnlyPosts.refl (t : Nat) (d : Dev) : OnlyPosts t d d := ⟨.refl t d, rfl, fun _ _ _ _ hl _ => ⟨hl, rfl⟩⟩

theorem onBasin_onlyPosts (d : Dev) (t : Nat) (f : List BasinSlot → List BasinSlot) : OnlyPosts t d (onBasin d t f) := by
  refine ⟨onTile_onlyTile .., by rw [onBasin, tileOf_onTile], fun th rd s g hl _ => ?_⟩
  exact listed_onTile hl

theorem postSumm_onlyPosts (d : Dev) (t r kind value : Nat) (empty nonfinite : Bool) :
    OnlyPosts t d (postSumm d t r kind value empty nonfinite) := by
  unfold postSumm
  refine ⟨onTile_onlyTile .., by rw [tileOf_onTile], fun th rd s g hl hw => listed_onTile ?_⟩
  dsimp only
  rw [NMap.find_mapVals, show NMap.find? _ th = _ from hl, Option.map_some, hw]

theorem steamPost_onlyPosts (d : Dev) (t : Nat) : OnlyPosts t d (steamPost d t) := by
  unfold steamPost
  split
  · exact .refl t d
  · dsimp only
    split
    · exact postSumm_onlyPosts ..
    · exact .refl t d

theorem OpOver.of_posts {d0 d' : Dev} (h0 : OnlyPosts t d d0) (h : OpOver d0 d' t r x pn) : OpOver d d' t r x pn := by
  have hT := h0.onlyTiles
  refine ⟨fun u hu => (h.others u hu).trans (h0.others u hu), h.tally, fun a ha => (h.bytes a ha).trans (hT.byteAt a), h.freed, h.record,
    by rw [h.free, h0.tile], fun th rd hl hw hst => ?_⟩
  obtain ⟨hl0, hk⟩ := h0.kept th rd _ _ hl hw
  rw [h.woken th rd hl0 (by rw [hk]; exact hw) (by rw [hk]; exact hst), hk]

theorem Ends.of_posts {d0 : Dev} (h0 : OnlyPosts t d d0) (h : Ends d t e r x pn) : Ends d0 t e r x pn := by
  have hT := h0.onlyTiles
  have hfab : d0.fabric = d.fabric := by rw [h0.dev]
  refine ⟨?_, h.ended, ?_, ?_, h.noLost, h.noBad, h.tallyOk, (hT.rangeErr ..).trans h.present, h.aligned, by rw [hfab]; exact h.noneLeft⟩
  · rw [runOf, engineOf, h0.tile]; exact h.run
  · rw [slotOf, h0.tile]; exact h.held
  · rw [openReqs, hfab]; exact h.answered

/-! ### The engines -/

theorem Ends.opEnd_eq (h : Ends d t e r x pn) :
    let d1 := (memWrite d (runAcc d t r) (dTally r.q.desc) (tallyBytes (dSeq r.q.desc) x true r.marker r.counts)).1
    let d2 := finishOp d1 t r.q x true
    opEnd d t e = onEngine (if e = .steamer then consumerEnded d2 t (opTag t r.q.slot) r.q.gen else d2) t e fun y => { y with run := none } := by
  have hx : endOf r x = x := by unfold endOf; rw [h.noBad]
  unfold opEnd
  simp only [h.run, h.ended, h.answered, hx, h.tallyOk, ne_eq, not_true_eq_false, if_false, if_true]

theorem Ends.opEnd_over (h : Ends d t e r x pn) : OpOver d (opEnd d t e) t r x pn ∧ runOf (opEnd d t e) t e = none := by
  rw [h.opEnd_eq]
  refine ⟨(h.over.1.then ?_).then (onEngine_onlyEngines ..), by rw [runOf, engineOf_onEngine]⟩
  split
  · exact consumerEnded_onlyEngines ..
  · exact .refl ..

theorem Ends.opEnd_orphans (h : Ends d t e r x pn) (he : e ≠ .steamer) : (tileOf (opEnd d t e) t).orphans = (tileOf d t).orphans := by
  rw [h.opEnd_eq, if_neg he, onEngine, tileOf_onTile]
  exact h.over.2

theorem orphanCheck_none (h : (tileOf d t).orphans = []) : orphanCheck d t = d := by
  unfold orphanCheck
  split
  · rfl
  · rw [if_neg (by simp [h])]

theorem producerEnds_toMemory (hrun : runOf d t .fuller = some r) (hmode : fOutMode r.q.desc = 0) : producerEnds d t = d := by
  unfold producerEnds
  simp only [hrun, hmode, Nat.zero_ne_one, false_and, and_false, if_false]

theorem routerOver_ended (hrun : runOf d t .router = some r) (hend : r.ended = some x) : routerOver d t = d := by
  have hlive : liveRun d t = none := by
    unfold liveRun
    simp only [hrun, hend, reduceCtorEq, and_false, if_false]
  unfold routerOver
  rw [hlive]

theorem routerAfter_plain (hlo : 3 ≤ dOpcode r.q.desc) (hhi : dOpcode r.q.desc ≤ 6) : routerAfter d t r x = d := by
  unfold routerAfter
  rw [if_neg (by omega), if_neg (by omega)]

/-- What operationEnd does once every request is answered, with no write lost. -/
theorem Ends.operationEnd_eq (h : Ends d t e r x pn) (hr : e = .router → 3 ≤ dOpcode r.q.desc ∧ dOpcode r.q.desc ≤ 6) :
    operationEnd d t e =
      let d0 := if e = .blocker then onBasin d t fun l => l.filter fun s => s.shard ≠ bSrec r.q.desc else d
      if e = .steamer then fullerDone (engineOpEnd d0 t e) t else engineOpEnd d0 t e := by
  have hover : (if e = .router then routerOver d t else d) = d := by
    split
    · next he => subst he; exact routerOver_ended h.run h.ended
    · rfl
  unfold operationEnd
  simp only [hover, h.run, h.ended, h.answered, h.noLost, ne_eq, not_true_eq_false, false_and, and_false, if_false]
  cases e with
  | router => rw [routerAfter_plain (hr rfl).1 (hr rfl).2]; rfl
  | fuller => rfl
  | steamer => rfl
  | napper => rfl
  | carder => rfl
  | blocker => rfl

theorem Ends.operationEnd_over (h : Ends d t e r x pn) (hf : e = .fuller → fOutMode r.q.desc = 0 ∧ (tileOf d t).orphans = [])
    (hr : e = .router → 3 ≤ dOpcode r.q.desc ∧ dOpcode r.q.desc ≤ 6) :
    OpOver d (operationEnd d t e) t r x pn ∧ runOf (operationEnd d t e) t e = none := by
  rw [h.operationEnd_eq hr]
  cases e with
  | router => exact h.opEnd_over
  | napper => exact h.opEnd_over
  | carder => exact h.opEnd_over
  | fuller =>
    obtain ⟨hmode, horph⟩ := hf rfl
    have hidle := h.opEnd_over.2
    have heq : engineOpEnd d t .fuller = opEnd d t .fuller := by
      unfold engineOpEnd
      simp only [producerEnds_toMemory h.run hmode, hidle, Option.isSome_none, Bool.false_eq_true, if_false]
      exact orphanCheck_none ((h.opEnd_orphans (by decide)).trans horph)
    rw [show (if EngineId.fuller = .blocker then _ else d) = d from rfl, if_neg (by decide), heq]
    exact h.opEnd_over
  | steamer =>
    have h0 := steamPost_onlyPosts d t
    obtain ⟨hover, hidle⟩ := (h.of_posts h0).opEnd_over
    exact ⟨(hover.of_posts h0).then (fullerDone_onlyEngines ..), (runOf_fullerDone _ _ (by decide)).trans hidle⟩
  | blocker =>
    have h0 := onBasin_onlyPosts d t fun l => l.filter fun s => s.shard ≠ bSrec r.q.desc
    obtain ⟨hover, hidle⟩ := (h.of_posts h0).opEnd_over
    exact ⟨hover.of_posts h0, hidle⟩

end

theorem operationEnd_open {d : Dev} {t : Nat} {e : EngineId} {r : RunOp} {x : OpEnd} (hrun : runOf d t e = some r) (hend : r.ended = some x)
    (hopen : openReqs d t r.q.slot ≠ []) (he : e ≠ .router) : operationEnd d t e = d := by
  unfold operationEnd
  simp only [he, if_false, hrun, hend, hopen, ne_eq, not_false_eq_true, if_true]

end Sys2Proof.Machine
end

section
/-! O18. -/

namespace Sys2Proof.Machine

/-- Settles O18: the boundary by `opStart_takes` and `startErr`'s checks, the end by `Ends.operationEnd_over`. -/
theorem engineBoundaries : Obligations.EngineBoundaries := by
  unfold Obligations.EngineBoundaries
  refine ⟨fun t e s => ⟨fun q pn hrun hnext hrouter hu hdep => ?_, fun q sl g hnext hd => ?_, fun r hrun => ?_, fun hnext => ?_⟩,
    fun t e s r x pn hrun hend hu => ⟨fun hopen he => ?_, fun hans hlost hbad hok hpres hal hf hr hleft => ?_⟩⟩
  · have hstart := opStart_takes hrun hnext hrouter hdep
    refine ⟨_, _, rfl, ⟨rfl, rfl, rfl⟩, hstart, rfl, rfl, fun c hc => ?_, fun hc => ⟨?_, fun hd => ?_, fun hd hbad => ?_, fun hd hhdr hop p hp => ?_⟩⟩
    · rw [startErr_tally hu hc]; exact ⟨rfl, rfl⟩
    · rw [startErr_eq hu hc]
    · rw [startErr_failed hu hc hd]; rfl
    · rw [startErr_encoding hu hc hd hbad]; rfl
    · rw [startErr_owner hu hc hd hhdr hop hp]
      refine ⟨fun hbad => by rw [if_pos hbad]; rfl, fun h1 h2 h3 => ?_⟩
      rw [if_neg (by simp [h1, h2, h3])]; rfl
  · exact next_dev (opStart_pending hnext hd)
  · exact next_dev (opStart_busy hrun)
  · exact next_dev (opStart_empty hnext)
  · exact next_dev (operationEnd_open hrun hend hopen he)
  · have hends : Ends s.dev t.toNat e r x pn := ⟨hrun, hend, hu, hans, hlost, hbad, hok, hpres, hal, hleft⟩
    obtain ⟨hover, hidle⟩ := hends.operationEnd_over hf hr
    refine ⟨{ s with dev := operationEnd s.dev t.toNat e }, rfl, ⟨rfl, rfl, rfl⟩, hidle, hover.tally, hover.bytes, hover.freed, hover.record, hover.free,
      fun th rd hl hw hst => ?_, hover.others⟩
    have hth := hover.woken th rd hl hw hst
    have hp : (threadOf s.dev t.toNat th).st ≠ .parked := by rw [hst]; decide
    rw [threadDone_of _ _ _ hp] at hth
    exact ⟨congrArg Thread.st hth, congrArg Thread.pc hth, fun y => (congrArg (regRead · y) hth).trans (regRead_regWrite ..)⟩

end Sys2Proof.Machine
end

section
/-! The end of a running operation as a helper of the engines gives it (`endRun`), and what reads at a start leave. -/

namespace Sys2Proof.Machine

/-- A change of an engine looks at that engine alone. -/
theorem onEngine_congr {d : Dev} {t : Nat} {e : EngineId} {f g : Engine → Engine} (h : f (engineOf d t e) = g (engineOf d t e)) :
    onEngine d t e f = onEngine d t e g := by
  refine onTile_congr ?_
  unfold NMap.upd
  exact congrArg (fun y => { tileOf d t with engines := NMap.set (tileOf d t).engines {} (engCode e) y }) h

theorem endRun_eq {d : Dev} {t : Nat} {e : EngineId} {r : RunOp} (hrun : runOf d t e = some r) (hend : r.ended = none) (st : TState)
    (c : Code) (m : Nat) :
    endRun d t e st c m = onEngine d t e fun x => { x with run := some { r with ended := some ⟨st, c⟩, marker := m } } := by
  refine onEngine_congr ?_
  rw [show (engineOf d t e).run = some r from hrun, Option.map_some, if_pos hend]

/-- An operation that its engine's work d has reached ends there. -/
theorem opEnds_endRun {s : State} {d : Dev} {t : Nat} {e : EngineId} {r : RunOp} (hframe : OpFrame t e s.dev d)
    (hrun : runOf d t e = some r) (hend : r.ended = none) (st : TState) (c : Code) (m : Nat) :
    OpEnds s t e st c m (.next { s with dev := endRun d t e st c m }) :=
  ⟨_, d, r, rfl, ⟨rfl, rfl, rfl⟩, hframe, hrun, hend, endRun_eq hrun hend st c m⟩

theorem running_iff {d : Dev} {t : Nat} {e : EngineId} {op : Nat} {r : RunOp} :
    running d t e op = some r ↔ runOf d t e = some r ∧ dOpcode r.q.desc = op ∧ r.ended = none := by
  unfold running
  cases runOf d t e with
  | none => simp
  | some y => by_cases h : dOpcode y.q.desc = op ∧ y.ended = none <;> simp [h] <;> rintro rfl <;> simp_all

theorem OnlyMem.runOf {d d' : Dev} (h : OnlyMem d d') (t : Nat) (e : EngineId) : runOf d' t e = Machine.runOf d t e := by
  unfold Machine.runOf engineOf tileOf
  rw [h]

theorem readLocal_onlyMem (d : Dev) (t : Nat) (p : Polder) (acc : Acc) (o n : Nat) : OnlyMem d (readLocal d t p acc o n).1 := by
  unfold readLocal
  split
  · exact .refl d
  · split
    · exact .refl d
    · exact memRead_onlyMem ..

/-- The descriptors read stand for the offsets, one for each; an absent one is zero. -/
def TdsOf (ofs : List (Option Nat)) (l : List TDesc) : Prop :=
  l.length = ofs.length ∧ ∀ i : Nat, ofs[i]? = some none → l.getD i 0 = 0

theorem TdsOf.cons {o : Option Nat} {ofs : List (Option Nat)} {td : TDesc} {l : List TDesc} (htd : o = none → td = 0) (h : TdsOf ofs l) :
    TdsOf (o :: ofs) (td :: l) := by
  refine ⟨congrArg (· + 1) h.1, fun i hi => ?_⟩
  cases i with
  | zero => exact htd (Option.some.inj hi)
  | succ i => exact h.2 i hi

theorem readTds_spec (d : Dev) (t : Nat) (p : Polder) (acc : Acc) (ofs : List (Option Nat)) :
    OnlyMem d (readTds d t p acc ofs).1 ∧ ∀ l, (readTds d t p acc ofs).2 = .ok l → TdsOf ofs l := by
  induction ofs generalizing d with
  | nil => exact ⟨.refl d, fun l hl => by obtain rfl := Except.ok.inj hl; exact ⟨rfl, by simp⟩⟩
  | cons o ofs ih =>
    unfold readTds
    cases o with
    | none =>
      obtain ⟨hmem, hspec⟩ := ih d
      dsimp only
      generalize readTds d t p acc ofs = x at *
      match x with
      | (d', .error c) => exact ⟨hmem, fun l hl => by cases hl⟩
      | (d', .ok m) => exact ⟨hmem, fun l hl => Except.ok.inj hl ▸ (hspec m rfl).cons fun _ => rfl⟩
    | some o =>
      have hlocal := readLocal_onlyMem d t p acc o 64
      dsimp only
      generalize readLocal d t p acc o 64 = y at *
      match y with
      | (d1, .error c) => exact ⟨hlocal, fun l hl => by cases hl⟩
      | (d1, .ok bs) =>
        obtain ⟨hmem, hspec⟩ := ih d1
        dsimp only
        generalize readTds d1 t p acc ofs = x at *
        match x with
        | (d', .error c) => exact ⟨hlocal.trans hmem, fun l hl => by cases hl⟩
        | (d', .ok m) => exact ⟨hlocal.trans hmem, fun l hl => Except.ok.inj hl ▸ (hspec m rfl).cons fun h => by cases h⟩

/-! ### The index tables of compressed operands (R186) -/

/-- A tensor whose index table lies in the memory of this device. -/
def TableHere (d : Dev) (td : TDesc) : Prop := (tDev td).toNat = selfId d ∧ inBlockRegs (tAux td) = false

theorem readRng_here {d : Dev} (acc : Acc) (r : RunOp) {td : TDesc} (h : TableHere d td) :
    readRng d acc r (tableHdr td) = memRead d acc (tAux td) 32 := by
  unfold readRng tableHdr
  dsimp only
  rw [if_pos h.1, if_neg (by rw [h.2]; exact Bool.false_ne_true)]

theorem TableHere.of_onlyMem {d d' : Dev} {td : TDesc} (h : OnlyMem d d') (ht : TableHere d td) : TableHere d' td := by
  refine ⟨ht.1.trans ?_, ht.2⟩
  unfold selfId
  rw [h]

/-- The tables of this device are read from memory alone, whatever else the operation holds. -/
theorem tablesErr_here {d : Dev} (acc : Acc) (r r' : RunOp) {l : List TDesc} (h : ∀ td ∈ l, TableHere d td) :
    OnlyMem d (tablesErr d acc r l).1 ∧ tablesErr d acc r l = tablesErr d acc r' l := by
  induction l generalizing d with
  | nil => exact ⟨.refl d, rfl⟩
  | cons td l ih =>
    have hmem := memRead_onlyMem d acc (tAux td) 32
    unfold tablesErr
    rw [readRng_here acc r (h td List.mem_cons_self), readRng_here acc r' (h td List.mem_cons_self)]
    generalize memRead d acc (tAux td) 32 = x at *
    match x with
    | (d1, .error c) => exact ⟨hmem, rfl⟩
    | (d1, .ok hb) =>
      obtain ⟨hrest, heq⟩ := ih fun y hy => (h y (List.mem_cons_of_mem _ hy)).of_onlyMem hmem
      dsimp only
      split
      · exact ⟨hmem, rfl⟩
      · exact ⟨hmem.trans hrest, heq⟩

/-! ### Checks that have passed -/

theorem foldl_or_none {l : List (Option Code)} {a : Option Code} (h : l.foldl (fun a b => a.or b) a = none) : a = none ∧ ∀ x ∈ l, x = none := by
  induction l generalizing a with
  | nil => exact ⟨h, by simp⟩
  | cons x l ih =>
    obtain ⟨hax, hl⟩ := ih h
    rw [Option.or_eq_none_iff] at hax
    exact ⟨hax.1, fun y hy => by rcases List.mem_cons.1 hy with rfl | hy; exacts [hax.2, hl y hy]⟩

theorem firstErr_none {l : List (Option Code)} (h : firstErr l = none) {x : Option Code} (hx : x ∈ l) : x = none := (foldl_or_none h).2 x hx

/-- No window of a polder reaches the block registers. -/
theorem inBlockRegs_of_inWindows {d : Dev} {p : Polder} {a n : Nat} (hn : n ≠ 0) (h : inWindows d p a n = true) : inBlockRegs a = false := by
  have b1 : hbmBase = 1099511627776 := rfl
  have b2 : ddrBase = 2199023255552 := rfl
  rw [← Bool.not_eq_true]
  intro hb
  simp only [inBlockRegs, Bool.and_eq_true, decide_eq_true_eq] at hb
  unfold inWindows at h
  rw [if_neg hn, if_neg (by omega), if_neg (by omega), if_neg (by omega), if_neg (by omega)] at h
  cases h

theorem tableHere_of_cmpForm {d : Dev} {p : Polder} {td : TDesc} (h : cmpForm d p td = none) (hdev : (tDev td).toNat = selfId d) :
    TableHere d td := by
  refine ⟨hdev, ?_⟩
  unfold cmpForm at h
  rw [if_pos hdev] at h
  split at h
  · cases h
  split at h
  · cases h
  unfold rngErr addrErr at h
  split at h
  · cases h
  split at h
  · cases h
  · next hw =>
    have hin : inWindows d p (tAux td) (32 + 4 * (cmpBlocks td + 1)) = true := by simpa using hw
    exact inBlockRegs_of_inWindows (by omega) hin

/-- A Fuller operation whose checks have passed has the index tables of its compressed operands in its windows. -/
theorem fullerErr_cmpForm {d : Dev} {t : Nat} {pn : PolderNo} {px : Polder} {r : RunOp} (h : fullerErr d t pn px r = none) :
    (tCmp (fTd r 0) = true → cmpForm d px (fTd r 0) = none) ∧
      (dOpcode r.q.desc ≠ 4 → tCmp (fTd r 1) = true → cmpForm d px (fTd r 1) = none) := by
  unfold fullerErr at h
  dsimp only at h
  have ha := firstErr_none h (x := if tCmp (fTd r 0) then cmpForm d px (fTd r 0) else none) (by simp only [List.mem_cons, true_or, or_true])
  have hb := firstErr_none h (x := if dOpcode r.q.desc ≠ 4 ∧ tCmp (fTd r 1) then cmpForm d px (fTd r 1) else none)
    (by simp only [List.mem_cons, true_or, or_true])
  exact ⟨fun hc => by rwa [if_pos hc] at ha, fun hop hc => by rwa [if_pos ⟨hop, hc⟩] at hb⟩

end Sys2Proof.Machine
end

section
/-! The start of a Fuller operation (R93, R116, R186): the reads and checks in order, then the index tables and the beginning. -/

namespace Sys2Proof.Machine

/-! ### Reads and checks -/

/-- The outlier channel list, read after the descriptors (R100). -/
def listRead (d : Dev) (t : Nat) (px : Polder) (acc : Acc) (x : BitVec 1024) : Dev × Except Code (List Byte) :=
  if fNOut x = 0 then (d, .ok []) else readLocal d t px acc (fld x 319 288) (4 * fNOut x)

theorem listRead_onlyMem (d : Dev) (t : Nat) (px : Polder) (acc : Acc) (x : BitVec 1024) : OnlyMem d (listRead d t px acc x).1 := by
  unfold listRead
  split
  · exact .refl d
  · exact readLocal_onlyMem ..

/-- The polder of an operation depends on its slot's use and its descriptor alone. -/
theorem runPolder_congr {d d' : Dev} {t : Nat} {r r' : RunOp} (hslot : (slotOf d' t r.q.slot).use = (slotOf d t r.q.slot).use) (hq : r'.q = r.q) :
    runPolder d' t r' = runPolder d t r := by
  unfold runPolder opPolder
  rw [hq, hslot]

theorem runAcc_onlyMem {d d' : Dev} (h : OnlyMem d d') (t : Nat) (r : RunOp) : runAcc d' t r = runAcc d t r := by
  unfold runAcc runPolder opPolder slotOf tileOf
  rw [h]

/-- What the operation keeps of its reads: the tensors, the outlier channels, and the scales of A, B and the initial tile. -/
def fullerKept (d : Dev) (t : Nat) (l : List TDesc) (ls : List (List Nat)) (r : RunOp) : RunOp :=
  { r with tds := l, lists := ls, snaps := [snapScales d t (l.getD 0 0), snapScales d t (l.getD 1 0), snapScales d t (l.getD 3 0)] }

section
variable {d : Dev} {t : Nat} {r : RunOp} {px : Polder} (hpol : polderOf d (runPolder d t r) = some px)
include hpol

theorem fullerRead_reserved (hres : fReservedOk r.q.desc = false) : fullerRead d t r = refuse d t .fuller 0x0402 := by
  unfold fullerRead
  simp only [hpol, hres, Bool.not_false, if_true]

variable (hres : fReservedOk r.q.desc = true)
include hres

theorem fullerRead_role {c : Code} (hrole : fRoleErr r.q.desc = some c) : fullerRead d t r = refuse d t .fuller c := by
  unfold fullerRead
  simp only [hpol, hres, Bool.not_true, Bool.false_eq_true, if_false, hrole]

variable (hrole : fRoleErr r.q.desc = none)
include hrole

theorem fullerRead_descriptors {d1 : Dev} {c : Code} (htds : readTds d t px (runAcc d t r) (fTdOfs r.q.desc) = (d1, .error c)) :
    fullerRead d t r = refuse d1 t .fuller c := by
  unfold fullerRead
  simp only [hpol, hres, Bool.not_true, Bool.false_eq_true, if_false, hrole, htds]

variable {d1 : Dev} {l : List TDesc} (htds : readTds d t px (runAcc d t r) (fTdOfs r.q.desc) = (d1, .ok l)) (hmem : OnlyMem d d1)
include htds hmem

theorem fullerRead_list {d2 : Dev} {c : Code} (hlist : listRead d1 t px (runAcc d t r) r.q.desc = (d2, .error c)) :
    fullerRead d t r = refuse d2 t .fuller c := by
  rw [← runAcc_onlyMem hmem] at hlist
  unfold listRead at hlist
  unfold fullerRead
  simp only [hpol, hres, Bool.not_true, Bool.false_eq_true, if_false, hrole, htds, hlist]

variable {d2 : Dev} {bs : List Byte} (hlist : listRead d1 t px (runAcc d t r) r.q.desc = (d2, .ok bs))
include hlist

theorem fullerRead_check {c : Code}
    (herr : fullerErr d2 t (runPolder d t r) px { r with tds := l, lists := [words32 (fNOut r.q.desc) bs] } = some c) :
    fullerRead d t r = refuse d2 t .fuller c := by
  rw [← runAcc_onlyMem hmem] at hlist
  unfold listRead at hlist
  unfold fullerRead
  simp only [hpol, hres, Bool.not_true, Bool.false_eq_true, if_false, hrole, htds, hlist, herr]

theorem fullerRead_ok (herr : fullerErr d2 t (runPolder d t r) px { r with tds := l, lists := [words32 (fNOut r.q.desc) bs] } = none) :
    fullerRead d t r = onRun d2 t .fuller (fullerKept d2 t l [words32 (fNOut r.q.desc) bs]) := by
  rw [← runAcc_onlyMem hmem] at hlist
  unfold listRead at hlist
  unfold fullerRead fullerKept
  simp only [hpol, hres, Bool.not_true, Bool.false_eq_true, if_false, hrole, htds, hlist, herr, fTd]

end

end Sys2Proof.Machine
end

section
/-! The start of a Fuller operation, from its run to its end or its begun work. -/

namespace Sys2Proof.Machine

section
variable {d : Dev} {t op : Nat} {r : RunOp} (hrun : running d t .fuller op = some r) (hb : r.begun = false) (htds : r.tds = [])

theorem running_endRun (d : Dev) (t : Nat) (e : EngineId) (op : Nat) (st : TState) (c : Code) (m : Nat) :
    running (endRun d t e st c m) t e op = none := by
  rw [Option.eq_none_iff_forall_ne_some]
  intro r h
  obtain ⟨hr, -, hend⟩ := running_iff.1 h
  unfold endRun at hr
  rw [runOf_onRun] at hr
  obtain ⟨y, -, hy⟩ := Option.map_eq_some_iff.1 hr
  split at hy
  · subst hy; cases hend
  · next hne => exact hne (hy ▸ hend)

include hrun hb htds

/-- Reads that end in a refusal end the start there. -/
theorem fullerStart_refused {d' : Dev} {c : Code} (hread : fullerRead d t r = refuse d' t .fuller c) :
    fullerStart d t op = refuse d' t .fuller c := by
  unfold fullerStart
  simp only [hrun, hb, htds, hread, Bool.false_eq_true, if_false, if_true]
  rw [show running (refuse d' t .fuller c) t .fuller op = none from running_endRun ..]

/-- Reads that pass go on to the index tables. -/
theorem fullerStart_read {d2 : Dev} {r2 : RunOp} (hread : fullerRead d t r = d2) (hrun2 : running d2 t .fuller op = some r2)
    (htds2 : r2.tds ≠ []) : fullerStart d t op = fullerBegin d2 t op r2 := by
  unfold fullerStart
  simp only [hrun, hb, htds, hread, Bool.false_eq_true, if_false, if_true, hrun2, htds2]

end

/-! ### The index tables -/

/-- The compressed operands whose index tables a start reads: none where the weight is frozen (R119, R186). -/
def fullerTables (op : Nat) (l : List TDesc) : List TDesc :=
  if op = 3 ∧ tFrozen (l.getD 8 0) = true then [] else [l.getD 0 0, l.getD 1 0].filter tCmp

theorem fullerTables_eq (op : Nat) (r : RunOp) :
    (if (decide (op = 3) && tFrozen (fTd r 8)) = true then [] else [fTd r 0, fTd r 1].filter tCmp) = fullerTables op r.tds := by
  unfold fullerTables fTd
  simp only [Bool.and_eq_true, decide_eq_true_eq]

theorem withRanges_here {d : Dev} {t : Nat} {e : EngineId} {r : RunOp} {cm : List TDesc} {m : Nat} (go : Dev → Dev) (hbad : r.bad = none)
    (hhere : ∀ td ∈ cm, TableHere d td) : withRanges d t e r (cm.map tableHdr) m go = go d := by
  refine withRanges_of go hbad (List.filter_eq_nil_iff.2 fun g hg => ?_)
  obtain ⟨td, htd, rfl⟩ := List.mem_map.1 hg
  simp [tableHdr, (hhere td htd).1]

section
variable {d d' : Dev} {t op : Nat} {r : RunOp} (hbad : r.bad = none) (hhere : ∀ td ∈ fullerTables op r.tds, TableHere d td)
include hbad hhere

theorem fullerBegin_refused {c : Code} (htb : tablesErr d (runAcc d t r) r (fullerTables op r.tds) = (d', some (false, c))) :
    fullerBegin d t op r = refuse d' t .fuller c := by
  unfold fullerBegin
  simp only [fullerTables_eq]
  rw [withRanges_here _ hbad hhere, htb]

theorem fullerBegin_partial {c : Code} (htb : tablesErr d (runAcc d t r) r (fullerTables op r.tds) = (d', some (true, c))) :
    fullerBegin d t op r = partRun d' t .fuller c 0 := by
  unfold fullerBegin
  simp only [fullerTables_eq]
  rw [withRanges_here _ hbad hhere, htb]

/-- A step's own mark that the operation has begun. -/
def fullerBegun (d : Dev) (t : Nat) : Dev := onRun d t .fuller fun r => { r with begun := true, fetched := [] }

variable (htb : tablesErr d (runAcc d t r) r (fullerTables op r.tds) = (d', none))
include htb

theorem fullerBegin_begun (hf : ¬ (op = 3 ∧ tFrozen (r.tds.getD 8 0) = true)) : fullerBegin d t op r = fullerBegun d' t := by
  unfold fullerBegin
  simp only [fullerTables_eq]
  rw [withRanges_here _ hbad hhere, htb]
  exact if_neg (by simpa [fTd] using hf)

theorem fullerBegin_frozen (hf : op = 3 ∧ tFrozen (r.tds.getD 8 0) = true) :
    fullerBegin d t op r = doneRun (count (fullerBegun d' t) 0 t 0x104 1 (some (runPolder (fullerBegun d' t) t r))) t .fuller 0 := by
  unfold fullerBegin
  simp only [fullerTables_eq]
  rw [withRanges_here _ hbad hhere, htb]
  exact if_pos (by simpa [fTd] using hf)

end

end Sys2Proof.Machine
end

section
/-! The start of a Fuller operation: its outcomes. -/

namespace Sys2Proof.Machine

/-! ### One engine alone -/

/-- Of the tiles, one engine of tile t alone changes. -/
structure EngineAlone (t : Nat) (e : EngineId) (d d' : Dev) : Prop where
  others : ∀ u, u ≠ t → tileOf d' u = tileOf d u
  engines : ∀ f, f ≠ e → engineOf d' t f = engineOf d t f

theorem EngineAlone.trans {t : Nat} {e : EngineId} {d1 d2 d3 : Dev} (h : EngineAlone t e d1 d2) (h' : EngineAlone t e d2 d3) :
    EngineAlone t e d1 d3 :=
  ⟨fun u hu => (h'.others u hu).trans (h.others u hu), fun f hf => (h'.engines f hf).trans (h.engines f hf)⟩

theorem EngineAlone.of_onlyMem {t : Nat} {e : EngineId} {d d' : Dev} (h : OnlyMem d d') : EngineAlone t e d d' := by
  have htile : ∀ u, tileOf d' u = tileOf d u := fun u => by unfold tileOf; rw [h]
  exact ⟨fun u _ => htile u, fun f _ => by unfold engineOf; rw [htile]⟩

theorem EngineAlone.of_onEngine (d : Dev) (t : Nat) (e : EngineId) (f : Engine → Engine) : EngineAlone t e d (onEngine d t e f) :=
  ⟨fun _ hu => by unfold onEngine; rw [tileOf_onTile_ne _ _ hu], fun _ hf => engineOf_onEngine_ne _ _ _ hf⟩

/-! ### The operands of a start whose checks have passed -/

theorem tCmp_zero : tCmp 0 = false := by
  unfold tCmp flag
  rw [show (0 : TDesc).toNat = 0 from BitVec.toNat_zero]
  decide

/-- An ADAPTER_DOWN has no second operand (R122). -/
theorem fTdOfs_adapterDown {x : BitVec 1024} (h : dOpcode x = 4) : (fTdOfs x)[1]? = some none := by
  unfold fTdOfs
  simp [h]

section
variable {d : Dev} {t op : Nat} {r : RunOp} {px : Polder} {l : List TDesc} {ls : List (List Nat)} {pn : PolderNo}

theorem fullerTables_here (hl : TdsOf (fTdOfs r.q.desc) l)
    (herr : fullerErr d t pn px { r with tds := l, lists := ls } = none)
    (hdev : ∀ td ∈ fullerTables op l, (tDev td).toNat = selfId d) : ∀ td ∈ fullerTables op l, TableHere d td := by
  intro td htd
  refine tableHere_of_cmpForm (p := px) ?_ (hdev td htd)
  obtain ⟨ha, hb⟩ := fullerErr_cmpForm herr
  unfold fullerTables at htd
  split at htd
  · cases htd
  · obtain ⟨hmem, hcmp⟩ := List.mem_filter.1 htd
    rcases List.mem_pair.1 hmem with rfl | rfl
    · exact ha hcmp
    · refine hb (fun h4 => ?_) hcmp
      rw [hl.2 1 (fTdOfs_adapterDown h4), tCmp_zero] at hcmp
      cases hcmp

theorem running_onRun {d : Dev} {e : EngineId} {f : RunOp → RunOp} (h : running d t e op = some r) (hq : (f r).q = r.q)
    (hend : (f r).ended = r.ended) : running (onRun d t e f) t e op = some (f r) := by
  obtain ⟨hrun, hop, hne⟩ := running_iff.1 h
  exact running_iff.2 ⟨by rw [runOf_onRun, hrun]; rfl, by rw [hq]; exact hop, hend.trans hne⟩

theorem OnlyMem.running {d d' : Dev} {e : EngineId} (h : OnlyMem d d') (hrun : Machine.running d t e op = some r) :
    Machine.running d' t e op = some r := by
  rw [running_iff] at hrun ⊢
  rwa [h.runOf]

theorem runAcc_onRun (d : Dev) (t : Nat) (e : EngineId) (f : RunOp → RunOp) {r r' : RunOp} (hq : r'.q = r.q) :
    runAcc (onRun d t e f) t r' = runAcc d t r := by
  have hslot : slotOf (onRun d t e f) t r.q.slot = slotOf d t r.q.slot := by
    unfold onRun onEngine slotOf
    rw [tileOf_onTile]
  unfold runAcc
  rw [runPolder_congr (congrArg Slot.use hslot) hq, hq]

end

/-! ### The checks have passed -/

section
variable {d d1 : Dev} {t op : Nat} {r : RunOp} {l : List TDesc} {ls : List (List Nat)}

/-- The index tables as the operation reads them once its tensors and channels are known. -/
def fullerTablesRead (d : Dev) (t op : Nat) (r : RunOp) (l : List TDesc) (ls : List (List Nat)) : Dev × Option (Bool × Code) :=
  tablesErr (fullerRead d t r) (runAcc d t r) { r with tds := l, lists := ls } (fullerTables op l)

/-- A start whose checks have passed: what was read left memory d1, the tensors l and the outlier channels ls, and the operation's
run keeps them. -/
structure FullerChecked (d : Dev) (t op : Nat) (r : RunOp) (d1 : Dev) (l : List TDesc) (ls : List (List Nat)) : Prop where
  run : running d t .fuller op = some r
  fresh : r.begun = false
  unread : r.tds = []
  good : r.bad = none
  reads : OnlyMem d d1
  tensors : l ≠ []
  kept : fullerRead d t r = onRun d1 t .fuller (fullerKept d1 t l ls)
  tables : ∀ td ∈ fullerTables op l, TableHere d1 td

variable (h : FullerChecked d t op r d1 l ls)
include h

theorem FullerChecked.running : running (fullerRead d t r) t .fuller op = some (fullerKept d1 t l ls r) := by
  rw [h.kept]
  exact running_onRun (h.reads.running h.run) rfl rfl

theorem FullerChecked.start : fullerStart d t op = fullerBegin (fullerRead d t r) t op (fullerKept d1 t l ls r) :=
  fullerStart_read h.run h.fresh h.unread rfl h.running h.tensors

theorem FullerChecked.here : ∀ td ∈ fullerTables op (fullerKept d1 t l ls r).tds, TableHere (fullerRead d t r) td := by
  rw [h.kept]
  exact h.tables

theorem FullerChecked.alone : EngineAlone t .fuller d (fullerRead d t r) := by
  rw [h.kept]
  exact (EngineAlone.of_onlyMem h.reads).trans (.of_onEngine ..)

theorem FullerChecked.kept_good : (fullerKept d1 t l ls r).bad = none := h.good

/-- The tables are read as for the operation before its reads. -/
theorem FullerChecked.tablesErr_kept :
    OnlyMem (fullerRead d t r) (fullerTablesRead d t op r l ls).1 ∧
      tablesErr (fullerRead d t r) (runAcc (fullerRead d t r) t (fullerKept d1 t l ls r)) (fullerKept d1 t l ls r)
          (fullerTables op (fullerKept d1 t l ls r).tds) = fullerTablesRead d t op r l ls := by
  have hacc : runAcc (fullerRead d t r) t (fullerKept d1 t l ls r) = runAcc d t r := by
    rw [h.kept, runAcc_onRun d1 t .fuller _ (show (fullerKept d1 t l ls r).q = r.q from rfl), runAcc_onlyMem h.reads]
  rw [hacc]
  exact ⟨(tablesErr_here _ _ { r with tds := l, lists := ls } h.here).1, (tablesErr_here _ _ _ h.here).2⟩

end

end Sys2Proof.Machine
end

section
/-! The start of a Fuller operation, settled. -/

namespace Sys2Proof.Machine

section
variable {s : State} {d1 d' : Dev} {t op : Nat} {r : RunOp} {l : List TDesc} {ls : List (List Nat)} {c : Code}
  (h : FullerChecked s.dev t op r d1 l ls)
include h

/-- What the tables leave of the operation, at the device d' that their reads lead to. -/
theorem FullerChecked.run_tables {x : Option (Bool × Code)} (htb : fullerTablesRead s.dev t op r l ls = (d', x)) :
    OnlyMem (fullerRead s.dev t r) d' ∧ runOf d' t .fuller = some (fullerKept d1 t l ls r) ∧ (fullerKept d1 t l ls r).ended = none := by
  have hmem := h.tablesErr_kept.1
  rw [htb] at hmem
  obtain ⟨hrun, -, hend⟩ := running_iff.1 (hmem.running h.running)
  exact ⟨hmem, hrun, hend⟩

theorem FullerChecked.refused (htb : fullerTablesRead s.dev t op r l ls = (d', some (false, c))) :
    OpEnds { s with dev := fullerRead s.dev t r } t .fuller .notStarted c 0 (.next { s with dev := fullerStart s.dev t op }) := by
  obtain ⟨hmem, hrun, hend⟩ := h.run_tables htb
  rw [h.start, fullerBegin_refused h.kept_good h.here (h.tablesErr_kept.2.trans htb)]
  exact opEnds_endRun (s := { s with dev := fullerRead s.dev t r }) (.of_onlyMem hmem) hrun hend ..

theorem FullerChecked.ended_partial (htb : fullerTablesRead s.dev t op r l ls = (d', some (true, c))) :
    OpEnds { s with dev := fullerRead s.dev t r } t .fuller .inPart c 0 (.next { s with dev := fullerStart s.dev t op }) := by
  obtain ⟨hmem, hrun, hend⟩ := h.run_tables htb
  rw [h.start, fullerBegin_partial h.kept_good h.here (h.tablesErr_kept.2.trans htb)]
  exact opEnds_endRun (s := { s with dev := fullerRead s.dev t r }) (.of_onlyMem hmem) hrun hend ..

/-- With good tables the operation has begun; of a frozen weight it is DONE. -/
theorem FullerChecked.begun (htb : fullerTablesRead s.dev t op r l ls = (d', none)) :
    ∃ r', runOf (fullerStart s.dev t op) t .fuller = some r' ∧ r'.q = r.q ∧ r'.tds = l ∧ r'.lists = ls ∧ r'.begun = true ∧
      r'.work = r.work ∧ r'.ended = (if op = 3 ∧ tFrozen (l.getD 8 0) = true then some ⟨.done, 0⟩ else none) ∧
      (fullerStart s.dev t op).mem = d'.mem ∧ EngineAlone t .fuller s.dev (fullerStart s.dev t op) := by
  obtain ⟨hmem, hrun, hend⟩ := h.run_tables htb
  have htb' := h.tablesErr_kept.2.trans htb
  have hbegun : runOf (fullerBegun d' t) t .fuller = some { fullerKept d1 t l ls r with begun := true, fetched := [] } := by
    unfold fullerBegun
    rw [runOf_onRun, hrun]
    rfl
  have halone : EngineAlone t .fuller s.dev (fullerBegun d' t) :=
    (h.alone.trans (.of_onlyMem hmem)).trans (.of_onEngine ..)
  rw [h.start]
  by_cases hf : op = 3 ∧ tFrozen (l.getD 8 0) = true
  · rw [fullerBegin_frozen h.kept_good h.here htb' hf]
    generalize some (runPolder _ _ _) = p
    have hcount := count_onlyMem (fullerBegun d' t) 0 t 0x104 1 p
    unfold doneRun endRun
    refine ⟨_, by rw [runOf_onRun, hcount.runOf, hbegun]; rfl, ?_⟩
    dsimp only
    rw [if_pos hend, if_pos hf]
    exact ⟨rfl, rfl, rfl, rfl, rfl, rfl, count_mem .., (halone.trans (.of_onlyMem hcount)).trans (.of_onEngine ..)⟩
  · rw [fullerBegin_begun h.kept_good h.here htb' hf, if_neg hf]
    exact ⟨_, hbegun, rfl, rfl, rfl, rfl, rfl, hend, rfl, halone⟩

end

/-- Reads that end in a refusal, as the end of the operation. -/
theorem fullerStart_opEnds {s : State} {t op : Nat} {r : RunOp} {d' : Dev} {c : Code} (hrun : running s.dev t .fuller op = some r)
    (hb : r.begun = false) (hnil : r.tds = []) (hmem : OnlyMem s.dev d') (hread : fullerRead s.dev t r = refuse d' t .fuller c) :
    OpEnds s t .fuller .notStarted c 0 (.next { s with dev := fullerStart s.dev t op }) := by
  obtain ⟨hr, -, hend⟩ := running_iff.1 (hmem.running hrun)
  rw [fullerStart_refused hrun hb hnil hread]
  exact opEnds_endRun (.of_onlyMem hmem) hr hend ..

/-- The checks pass: the operation keeps what it has read. -/
theorem fullerChecked_of {d d1 d2 : Dev} {t op : Nat} {r : RunOp} {px : Polder} {l : List TDesc} {bs : List Byte}
    (hrun : running d t .fuller op = some r) (hb : r.begun = false) (hbad : r.bad = none) (hnil : r.tds = [])
    (hpol : polderOf d (runPolder d t r) = some px) (hres : fReservedOk r.q.desc = true) (hrole : fRoleErr r.q.desc = none)
    (htds : readTds d t px (runAcc d t r) (fTdOfs r.q.desc) = (d1, .ok l))
    (hlist : listRead d1 t px (runAcc d t r) r.q.desc = (d2, .ok bs))
    (herr : fullerErr d2 t (runPolder d t r) px { r with tds := l, lists := [words32 (fNOut r.q.desc) bs] } = none)
    (hdev : ∀ td ∈ fullerTables op l, (tDev td).toNat = selfId d) :
    FullerChecked d t op r d2 l [words32 (fNOut r.q.desc) bs] := by
  obtain ⟨hmem, hspec⟩ := readTds_spec d t px (runAcc d t r) (fTdOfs r.q.desc)
  have hmem2 := listRead_onlyMem d1 t px (runAcc d t r) r.q.desc
  rw [htds] at hmem hspec
  rw [hlist] at hmem2
  have hl := hspec l rfl
  have hreads : OnlyMem d d2 := hmem.trans hmem2
  have hself : selfId d2 = selfId d := by rw [selfId, hreads, selfId]
  refine ⟨hrun, hb, hnil, hbad, hreads, ?_, fullerRead_ok hpol hres hrole htds hmem hlist herr,
    fullerTables_here hl herr fun td htd => (hdev td htd).trans hself.symm⟩
  rintro rfl
  cases hl.1

theorem exec_fullerStart {t : TileNo} {op : Nat} {i : Instr}
    (h : (op, i) ∈ [(1, Instr.matmul t), (2, .bwdData t), (3, .bwdWeight t), (4, .adapterDown t)]) (s : State) :
    exec i s = .next { s with dev := fullerStart s.dev t.toNat op } := by
  simp only [List.mem_cons, List.not_mem_nil, or_false, Prod.mk.injEq] at h
  obtain ⟨rfl, rfl⟩ | ⟨rfl, rfl⟩ | ⟨rfl, rfl⟩ | ⟨rfl, rfl⟩ := h <;> rfl

/-- Settles O19: a start is its reads in order, each refusing in its place, and then the tables of the compressed operands, which
lie in this device's memory once the checks have passed. -/
theorem fullerStarts : Obligations.FullerStarts := by
  unfold Obligations.FullerStarts
  intro t s op i r px hi hrun hb hbad hnil hpol
  rw [exec_fullerStart hi]
  have hmem := (readTds_spec s.dev t.toNat px (runAcc s.dev t.toNat r) (fTdOfs r.q.desc)).1
  refine ⟨fun hres => fullerStart_opEnds hrun hb hnil (.refl _) (fullerRead_reserved hpol hres),
    fun c hres hrole => fullerStart_opEnds hrun hb hnil (.refl _) (fullerRead_role hpol hres hrole), fun hres hrole => ?_⟩
  generalize htds : readTds s.dev t.toNat px (runAcc s.dev t.toNat r) (fTdOfs r.q.desc) = x at hmem
  obtain ⟨d1, tds⟩ := x
  have hmem2 := hmem.trans (listRead_onlyMem d1 t.toNat px (runAcc s.dev t.toNat r) r.q.desc)
  refine ⟨fun c hc => ?_, fun l c hl hc => ?_, fun l bs hl hbs => ⟨fun c herr => ?_, fun herr hdev => ?_⟩⟩
  · obtain rfl : tds = _ := hc
    exact fullerStart_opEnds hrun hb hnil hmem (fullerRead_descriptors hpol hres hrole htds)
  · obtain rfl : tds = _ := hl
    exact fullerStart_opEnds hrun hb hnil hmem2 (fullerRead_list hpol hres hrole htds hmem (Prod.ext rfl hc))
  · obtain rfl : tds = _ := hl
    exact fullerStart_opEnds hrun hb hnil hmem2 (fullerRead_check hpol hres hrole htds hmem (Prod.ext rfl hbs) herr)
  · obtain rfl : tds = _ := hl
    have h := fullerChecked_of hrun hb hbad hnil hpol hres hrole htds (Prod.ext rfl hbs) herr hdev
    refine ⟨fun c htb => h.refused (Prod.ext rfl htb), fun c htb => h.ended_partial (Prod.ext rfl htb), fun htb => ?_⟩
    obtain ⟨r', hrun', hq, htds', hlists, hbegun, hwork, hend, hmem', halone⟩ := h.begun (Prod.ext rfl htb)
    exact ⟨_, r', rfl, ⟨rfl, rfl, rfl⟩, hrun', hq, htds', hlists, hbegun, hwork, hend, hmem', halone.others, halone.engines⟩

end Sys2Proof.Machine
end

section
/-! What a step that reads operands or stores results on this device touches, whatever the engine (`Quiet`). -/

namespace Sys2Proof.Machine

/-- Memory with its error records, free values, counters, notices and cycle counters alone change. -/
structure Quiet (d d' : Dev) : Prop where
  dev : d' = { d with free := d'.free, mem := d'.mem, counters := d'.counters, reeve := d'.reeve, tiles := d'.tiles }
  tile : ∀ u, tileOf d' u = { tileOf d u with cyc := (tileOf d' u).cyc }

theorem Quiet.refl (d : Dev) : Quiet d d := ⟨rfl, fun _ => rfl⟩
theorem Quiet.trans {d e f : Dev} (h : Quiet d e) (h' : Quiet e f) : Quiet d f :=
  ⟨by rw [h'.dev, h.dev], fun u => by rw [h'.tile, h.tile]⟩

theorem Quiet.of_onlyMem {d d' : Dev} (h : OnlyMem d d') : Quiet d d' := by
  have ht : d'.tiles = d.tiles := by rw [h]
  exact ⟨by rw [ht]; exact h, fun u => by unfold tileOf; rw [ht]⟩

theorem Quiet.foldl {α : Type} (f : Dev → α → Dev) (h : ∀ d x, Quiet d (f d x)) (l : List α) (d : Dev) : Quiet d (l.foldl f d) := by
  induction l generalizing d with
  | nil => exact .refl d
  | cons x l ih => exact (h d x).trans (ih _)

section
variable {d d' : Dev} (h : Quiet d d')
include h

theorem Quiet.engineOf (t : Nat) (e : EngineId) : engineOf d' t e = Machine.engineOf d t e := by unfold Machine.engineOf; rw [h.tile]
theorem Quiet.runOf (t : Nat) (e : EngineId) : runOf d' t e = Machine.runOf d t e := by unfold Machine.runOf; rw [h.engineOf]
theorem Quiet.selfId : selfId d' = Machine.selfId d := by unfold Machine.selfId; rw [h.dev]

theorem Quiet.frame (t : Nat) (e : EngineId) : OpFrame t e d d' :=
  ⟨by rw [h.dev], fun u _ => h.tile u, by rw [h.tile], fun f _ => h.engineOf t f, by rw [h.engineOf],
    fun r hr => ⟨r, (h.runOf t e).trans hr, rfl, rfl, rfl, rfl, rfl⟩⟩

end

/-! ### Reads -/

theorem tickTile_quiet (d : Dev) (u : Nat) : Quiet d (tickTile d u) := by
  unfold tickTile
  refine Quiet.trans ⟨rfl, fun v => ?_⟩ (.of_onlyMem (count_onlyMem ..))
  by_cases hv : v = u
  · rw [hv, tileOf_onTile]; rfl
  · rw [tileOf_onTile_ne _ _ hv]; rfl

theorem touchBlock_quiet (d : Dev) (a : Nat) : Quiet d (touchBlock d a) := by
  have hdrift (d : Dev) (k i : Nat) : Quiet d (driftBlock d k i) := ⟨rfl, fun _ => rfl⟩
  unfold touchBlock
  split
  · split
    · exact (tickTile_quiet ..).trans (hdrift ..)
    · exact hdrift ..
  · exact .refl d

theorem latchUpper_quiet (d : Dev) (k i o : Nat) : Quiet d (latchUpper d k i o) := by
  unfold latchUpper
  split
  · split
    · exact ⟨rfl, fun _ => rfl⟩
    · exact .refl d
  · exact .refl d

theorem ctrWords_quiet (d : Dev) (p : Option PolderNo) (w n : Nat) : Quiet d (ctrWords d p w n).1 := by
  induction n generalizing d w with
  | zero => exact .refl d
  | succ n ih =>
    unfold ctrWords
    split
    · exact (latchUpper_quiet ..).trans (ih ..)
    · exact ih ..

theorem ctrRead_quiet (d : Dev) (p : Option PolderNo) (a n : Nat) : Quiet d (ctrRead d p a n).1 :=
  (Quiet.foldl _ (fun d _ => touchBlock_quiet d _) _ d).trans (ctrWords_quiet ..)

theorem readRng_quiet {d d' : Dev} {acc : Acc} {r : RunOp} {g : Rng} {x : Except Code (List Byte)}
    (h : readRng d acc r g = (d', x)) : Quiet d d' := by
  have hq : Quiet d (readRng d acc r g).1 := by
    unfold readRng
    split
    · split
      · exact ctrRead_quiet ..
      · exact .of_onlyMem (memRead_onlyMem ..)
    · split <;> exact .refl d
  rwa [h] at hq

theorem scaleAt_quiet {d d' : Dev} {acc : Acc} {r : RunOp} {td : TDesc} {sn : List F32} {i : Nat} {x : Except Code F32}
    (h : scaleAt d acc r td sn i = (d', x)) : Quiet d d' := by
  unfold scaleAt at h
  split at h
  · cases h; exact .refl d
  · split at h <;> (cases h; exact readRng_quiet ‹_›)

theorem sideRow_quiet {d d' : Dev} {acc : Acc} {r : RunOp} {td : TDesc} {n : Nat} {x : Except Code (Nat × Nat)}
    (h : sideRow d acc r td n = (d', x)) : Quiet d d' := by
  unfold sideRow at h
  dsimp only at h
  split at h
  · cases h; exact readRng_quiet ‹_›
  · next h1 =>
    split at h
    · next h2 => cases h; exact (readRng_quiet h1).trans (readRng_quiet h2)
    · next h2 => split at h <;> (cases h; exact (readRng_quiet h1).trans (readRng_quiet h2))

theorem sideLookup_quiet {d d' : Dev} {acc : Acc} {r : RunOp} {td : TDesc} {lo hi c : Nat} {x : Except Code (Option B16)}
    (h : sideLookup d acc r td lo hi c = (d', x)) : Quiet d d' := by
  unfold sideLookup at h
  split at h <;> (cases h; exact readRng_quiet ‹_›)

theorem elemRaw_quiet {d d' : Dev} {acc : Acc} {r : RunOp} {td : TDesc} {sn : List F32} {ix : List Nat}
    {x : Except Code (FVal × Bool × Nat)} (h : elemRaw d acc r td sn ix = (d', x)) : Quiet d d' := by
  unfold elemRaw at h
  have hside {d1 d2 : Dev} {y : Except Code (Nat × Nat)}
      (hs : (if (tSide td && decide (fmtOf td ≠ .u8l)) = true then sideRow d1 acc r td (tRow td ix) else (d1, .ok (0, 0))) = (d2, y)) :
      Quiet d1 d2 := by
    split at hs
    · exact sideRow_quiet hs
    · cases hs; exact .refl d1
  dsimp only at h
  (repeat' split at h) <;> cases h <;> grind only [Quiet.trans, → readRng_quiet, → scaleAt_quiet, → sideLookup_quiet]

theorem elemAt_quiet {d d' : Dev} {acc : Acc} {r : RunOp} {td : TDesc} {sn : List F32} {F : FFmt} {ix : List Nat}
    {x : Except Code (FVal × Bool)} (h : elemAt d acc r td sn F ix = (d', x)) : Quiet d d' := by
  unfold elemAt at h
  split at h <;> (cases h; exact elemRaw_quiet ‹_›)

theorem fetchGo_quiet (acc : Acc) (r : RunOp) (td : TDesc) (sn : List F32) (F : FFmt) (d : Dev) (g : Got) (l : List (List Nat)) :
    Quiet d (fetchGo acc r td sn F d g l).1 := by
  induction l generalizing d g with
  | nil => exact .refl d
  | cons ix l ih =>
    unfold fetchGo
    split
    · next h => exact elemAt_quiet h
    · next h => exact (elemAt_quiet h).trans (ih ..)

theorem cbEntry_quiet {d d' : Dev} {acc : Acc} {t set i : Nat} {x : Except Code (List B16)} (h : cbEntry d acc t set i = (d', x)) :
    Quiet d d' := by
  have hq := keyWords_onlyMem d acc (cbKey t set i) 1
  unfold cbEntry at h
  split at h <;> (next hk => cases h; rw [hk] at hq; exact .of_onlyMem hq)

theorem vecsGo_quiet {d d' : Dev} {acc : Acc} {t set : Nat} {rset : Option Nat} {bs : List Byte} {cnt n v : Nat}
    {x : Except Code (List B16 × List Bool)} (h : vecsGo d acc t set rset bs cnt n v = (d', x)) : Quiet d d' := by
  induction n generalizing d d' v x with
  | zero => cases h; exact .refl d
  | succ n ih =>
    unfold vecsGo at h
    dsimp only at h
    (repeat' split at h) <;> cases h <;> grind only [Quiet.trans, → cbEntry_quiet]

theorem expandBlock_quiet {d d' : Dev} {acc : Acc} {r : RunOp} {t : Nat} {x : Polder} {td : TDesc} {b : Nat} {y : Except Code BlockOut}
    (h : expandBlock d acc r t x td b = (d', y)) : Quiet d d' := by
  unfold expandBlock at h
  dsimp only at h
  (repeat' split at h) <;> cases h <;> grind only [Quiet.trans, → readRng_quiet, → vecsGo_quiet]

theorem blockEvents_quiet (d : Dev) (acc : Acc) (t : Nat) (o : BlockOut) : Quiet d (blockEvents d acc t o) := by
  refine .of_onlyMem ?_
  unfold blockEvents
  dsimp only
  split
  · exact (count_onlyMem ..).trans (count_onlyMem ..)
  · exact count_onlyMem ..

theorem expandGo_quiet (acc : Acc) (r : RunOp) (t : Nat) (x : Polder) (td : TDesc) (d : Dev) (m : NMap (List B16)) (f : Option (Code × Nat))
    (bs : List Nat) : Quiet d (expandGo acc r t x td d m f bs).1 := by
  induction bs generalizing d m f with
  | nil => exact .refl d
  | cons b bs ih =>
    unfold expandGo
    split
    · next h => exact expandBlock_quiet h
    · next h => exact ((expandBlock_quiet h).trans (blockEvents_quiet ..)).trans (ih ..)

/-- Elements fetched, expanded from blocks or not. -/
theorem fetchVals_quiet (d : Dev) (acc : Acc) (r : RunOp) (t : Nat) (x : Polder) (td : TDesc) (sn : List F32) (F : FFmt)
    (ixs : List (List Nat)) : Quiet d (fetchVals d acc r t x td sn F ixs).1 := by
  unfold fetchVals
  split
  · have hq := expandGo_quiet acc r t x td d [] none ((ixs.map fun ix => (blockOf td ix).1).foldl (fun l b => if l.contains b then l else b :: l) []).reverse
    dsimp only
    split <;> exact hq
  · exact fetchGo_quiet ..

/-! ### Writes on this device -/

theorem writeRng_quiet {d d' : Dev} {t : Nat} {e : EngineId} {r : RunOp} {dev a : Nat} {bs : List Byte} {o : Bool} {x : Option Code}
    (hdev : dev = selfId d) (h : writeRng d t e r dev a bs o = (d', x)) : Quiet d d' := by
  have hq := memWrite_onlyMem d (runAcc d t r) a bs
  unfold writeRng at h
  rw [if_pos hdev] at h
  rw [h] at hq
  exact .of_onlyMem hq

theorem writeAt_quiet {d d' : Dev} {t : Nat} {e : EngineId} {r : RunOp} {td : TDesc} {ix : List Nat} {c : Nat} {x : Option Code}
    (hdev : (tDev td).toNat = selfId d) (h : writeAt d t e r td ix c = (d', x)) : Quiet d d' := by
  unfold writeAt at h
  dsimp only at h
  (repeat' split at h) <;> grind only [Quiet.trans, → readRng_quiet, → Quiet.selfId, → writeRng_quiet]

/-- Elements stored on this device. -/
theorem writeList_quiet (t : Nat) (e : EngineId) (r : RunOp) {td : TDesc} {d : Dev} (n : Nat) (l : List (List Nat × Nat))
    (hdev : (tDev td).toNat = selfId d) : Quiet d (writeList t e r td d n l).1 := by
  induction l generalizing d n with
  | nil => exact .refl d
  | cons p l ih =>
    obtain ⟨ix, c⟩ := p
    unfold writeList
    split
    · next h => exact writeAt_quiet hdev h
    · next h =>
      have hq := writeAt_quiet hdev h
      exact hq.trans (ih _ (hdev.trans hq.selfId.symm))

end Sys2Proof.Machine
end

section
/-! The Steamer's passes and the end of its operations stay in its frame. -/

namespace Sys2Proof.Machine

/-! ### Passes over elements (R139 to R150) -/

/-- What MAP does at one element (R139, R140). -/
def sMapElem (e : SEnv) (c : SCtx) (ix : List Nat) (xv : Option F32) : SCtx :=
  let (c, m) := sMasked e c ix
  let c := sRow e c ix (!m && c.stop.isNone)
  if c.stop.isSome then c
  else if m then { c with st := { c.st with done := linOf e.out ix :: c.st.done } }
  else
    let (c, v) := sApply e { c with lost := false } ix xv
    sOutZ e (sStage e c ix v) ix v

theorem sMapGo_cons (e : SEnv) (c : SCtx) (ix : List Nat) (xv : Option F32) (l : List (List Nat × Option F32)) :
    sMapGo e c ((ix, xv) :: l) = match c.stop with | some _ => c | none => sMapGo e (sMapElem e c ix xv) l := by
  obtain ⟨d, stop, lost, enc, st⟩ := c
  cases stop <;> rfl

/-- What a reduction does at one element (R144, R145). -/
def sRedElem (e : SEnv) (c : SCtx) (ix : List Nat) (xv : Option F32) : SCtx :=
  let rd := sRdim e.r.q.desc
  let n := linOf e.sh ix
  let (c, m) := sMasked e c ix
  let c := sRow e c ix (!m && c.stop.isNone)
  let o := linOf e.out (ix.set rd 0)
  let c :=
    if c.stop.isSome ∨ m then c
    else
      let (c, v) := sApply e { c with lost := false } ix xv
      let c := sStage e c ix v
      let miss := if c.lost ∧ sHas e.r.q.desc 4 then some (match c.st.miss with | some q => min q o | none => o) else c.st.miss
      if c.stop.isSome then c else { c with lost := false, st := { c.st with buf := NMap.insert c.st.buf n v, miss := miss } }
  if c.stop.isNone ∧ ix.getD rd 0 + 1 = e.sh.getD rd 1 then
    let oix := ix.set rd 0
    let seq := sSeq e.sh c.st rd oix
    let c := sOutZ e { c with lost := false } oix (stReduce (dOpcode e.r.q.desc) seq)
    { c with st := { c.st with buf := c.st.buf.filter fun p => !((ixOf e.sh p.1).set rd 0 == oix) } }
  else c

theorem sRedGo_cons (e : SEnv) (c : SCtx) (ix : List Nat) (xv : Option F32) (l : List (List Nat × Option F32)) :
    sRedGo e c ((ix, xv) :: l) = match c.stop with | some _ => c | none => sRedGo e (sRedElem e c ix xv) l := by
  obtain ⟨d, stop, lost, enc, st⟩ := c
  cases stop <;> rfl

theorem sMasked_frame' {e : SEnv} {c c' : SCtx} {ix : List Nat} {m : Bool} (h : sMasked e c ix = (c', m)) : SFrame e c c' := by
  have hf := sMasked_frame e c ix
  rwa [h] at hf

theorem sGet_frame' {e : SEnv} {c c' : SCtx} {k : Nat} {ix : List Nat} {v : F32} (h : sGet e c k ix = (c', v)) : SFrame e c c' := by
  have hf := sGet_frame e c k ix
  rwa [h] at hf

theorem sApply_frame' {e : SEnv} {c c' : SCtx} {ix : List Nat} {xv : Option F32} {v : F32} (h : sApply e c ix xv = (c', v)) :
    SFrame e c c' := by
  have hf := sApply_frame e c ix xv
  rwa [h] at hf

/-- The result of a function at an element entered and written. -/
theorem sMapElem_frame (e : SEnv) (c : SCtx) (ix : List Nat) (xv : Option F32) : SFrame e c (sMapElem e c ix xv) := by
  unfold sMapElem
  split
  next c0 m h0 =>
  have h1 : SFrame e c (sRow e c0 ix (!m && c0.stop.isNone)) := (sMasked_frame' h0).trans (sRow_frame ..)
  refine h1.trans ?_
  extract_lets c1
  split
  · exact .refl ..
  split
  · exact .refl ..
  split
  next h2 => exact ((sApply_frame' h2).trans (sStage_frame ..)).trans (sOutZ_frame ..)

theorem sRedElem_frame (e : SEnv) (c : SCtx) (ix : List Nat) (xv : Option F32) : SFrame e c (sRedElem e c ix xv) := by
  unfold sRedElem
  extract_lets rd n o oix
  split
  next c0 m h0 =>
  have h1 : SFrame e c (sRow e c0 ix (!m && c0.stop.isNone)) := (sMasked_frame' h0).trans (sRow_frame ..)
  extract_lets c1 c2 seq c3
  have h2 : SFrame e c1 c2 := by
    unfold c2
    split
    · exact .refl ..
    split
    next c4 v h4 =>
    have h5 := (sApply_frame' h4).trans (sStage_frame e c4 ix v)
    extract_lets c5 miss
    split <;> exact h5
  refine (h1.trans h2).trans ?_
  split
  · exact sOutZ_frame e { c2 with lost := false } _ _
  · exact .refl ..

theorem sMapGo_frame (e : SEnv) (c : SCtx) (l : List (List Nat × Option F32)) : SFrame e c (sMapGo e c l) := by
  induction l generalizing c with
  | nil => exact .refl e c
  | cons p l ih =>
    rw [sMapGo_cons]
    split
    · exact .refl e c
    · exact (sMapElem_frame ..).trans (ih _)

theorem sRedGo_frame (e : SEnv) (c : SCtx) (l : List (List Nat × Option F32)) : SFrame e c (sRedGo e c l) := by
  induction l generalizing c with
  | nil => exact .refl e c
  | cons p l ih =>
    rw [sRedGo_cons]
    split
    · exact .refl e c
    · exact (sRedElem_frame ..).trans (ih _)

theorem sPuts_frame (e : SEnv) (k : Nat) (c : SCtx) (l : List (List Nat × F32)) : SFrame e c (sPuts e k c l) := by
  induction l generalizing c with
  | nil => exact .refl e c
  | cons p l ih => exact (sPut_frame ..).trans (ih _)

theorem sOuts_frame (e : SEnv) (c : SCtx) (l : List (List Nat × F32 × Bool)) : SFrame e c (sOuts e c l) := by
  induction l generalizing c with
  | nil => exact .refl e c
  | cons p l ih => exact SFrame.trans (sOutZ_frame e { c with lost := p.2.2 } p.1 p.2.1) (ih _)

theorem sMasks_frame {e : SEnv} {c c' : SCtx} {l : List (List Nat)} {ms : List Bool} (h : sMasks e c l = (c', ms)) : SFrame e c c' := by
  induction l generalizing c c' ms with
  | nil => cases h; exact .refl e c
  | cons ix l ih =>
    unfold sMasks at h
    split at h
    next h1 =>
    split at h
    next h2 => cases h; exact (sMasked_frame' h1).trans (ih h2)

theorem sXs_frame {e : SEnv} {xv : List Nat → Option F32} {c c' : SCtx} {l : List (List Nat × Bool)} {vs : List (Option F32)}
    (h : sXs e xv c l = (c', vs)) : SFrame e c c' := by
  induction l generalizing c c' vs with
  | nil => cases h; exact .refl e c
  | cons p l ih =>
    obtain ⟨ix, m⟩ := p
    unfold sXs at h
    split at h
    next h1 =>
    split at h
    next h2 =>
    cases h
    refine SFrame.trans ?_ (ih h2)
    split at h1
    · cases h1; exact .refl ..
    split at h1
    · cases h1; exact .refl ..
    split at h1
    next h3 => cases h1; exact sGet_frame' h3

theorem sCol_frame {e : SEnv} {k : Nat} {c c' : SCtx} {l : List (List Nat)} {vs : List (F32 × Bool)} (h : sCol e k c l = (c', vs)) :
    SFrame e c c' := by
  induction l generalizing c c' vs with
  | nil => cases h; exact .refl e c
  | cons ix l ih =>
    unfold sCol at h
    split at h
    next h1 =>
    extract_lets lost at h
    split at h
    next h2 => cases h; exact SFrame.trans (sGet_frame' (c := { c with lost := false }) h1) (ih h2)

theorem SFrame.foldl {α : Type} (e : SEnv) (f : SCtx → α → SCtx) (h : ∀ c x, SFrame e c (f c x)) (l : List α) (c : SCtx) :
    SFrame e c (l.foldl f c) := by
  induction l generalizing c with
  | nil => exact .refl e c
  | cons x l ih => exact (h c x).trans (ih _)

/-- The stage values of a row entered. -/
theorem sStages_frame (e : SEnv) (l : List (List Nat × Option F32)) (c : SCtx) :
    SFrame e c (l.foldl (fun c p => match p.2 with | some v => sStage e c p.1 v | none => c) c) := by
  refine SFrame.foldl e _ (fun c p => ?_) l c
  split
  · exact sStage_frame ..
  · exact .refl ..

theorem sRowGo_frame (e : SEnv) (c : SCtx) (rx : List Nat) (xv : List Nat → Option F32) : SFrame e c (sRowGo e c rx xv) := by
  unfold sRowGo
  extract_lets x op n ixs stageAll
  have hstage (c : SCtx) (vs : List (Option F32)) : SFrame e c (stageAll c vs) := sStages_frame ..
  split
  next c1 ms h1 =>
  split
  next c2 xs h2 =>
  extract_lets xlost ps cp sp xf c0 bad
  refine ((sMasks_frame h1).trans (sXs_frame (c := { c1 with lost := false }) h2)).trans ?_
  split
  · exact .refl ..
  split
  · -- SOFTMAX
    split
    next o empty h3 =>
    exact SFrame.trans (hstage { cp with st := { cp.st with emptyRow := cp.st.emptyRow || empty } } ps) (sOuts_frame ..)
  have h0 : SFrame e c2 c0 := sRow_frame ..
  split
  · -- RMSNORM and LAYERNORM
    split
    extract_lets rr xh
    split
    next c3 g h3 =>
    split
    next c4 b h4 =>
    have h34 : SFrame e c2 c4 := by
      refine h0.trans (SFrame.trans (b := c3) ?_ ?_)
      · split at h3
        · cases h3; exact .refl ..
        · exact sCol_frame (c := { c0 with lost := false }) h3
      · split at h4
        · cases h4; exact .refl ..
        · exact sCol_frame h4
    refine h34.trans ?_
    split
    · exact .refl ..
    extract_lets o c5 c6
    have h6 : SFrame e c4 c6 := by
      have h5 : SFrame e c4 c5 := SFrame.trans (hstage { c4 with lost := xlost } xs) (sOuts_frame ..)
      refine h5.trans ?_
      unfold c6
      split
      · exact sPuts_frame ..
      · exact .refl ..
    refine h6.trans ?_
    split
    · exact sPut_frame ..
    · exact .refl ..
  · -- their backward forms
    split
    next h3 =>
    split
    next h4 =>
    split
    next c5 rr h5 =>
    refine ((h0.trans (SFrame.trans (sCol_frame (c := { c0 with lost := false }) h3) (sCol_frame h4))).trans (sGet_frame' h5)).trans ?_
    split
    · exact .refl ..
    · exact SFrame.trans (hstage { c5 with lost := xlost } xs) (sOuts_frame ..)

theorem sRowsGo_frame (e : SEnv) (xv : List Nat → Option F32) (c : SCtx) (l : List (List Nat)) : SFrame e c (sRowsGo e xv c l) := by
  induction l generalizing c with
  | nil => exact .refl e c
  | cons rx l ih =>
    unfold sRowsGo
    split
    · exact .refl e c
    · exact (sRowGo_frame ..).trans (ih _)

/-! ### Entries of the hand-off queue (R152) -/

theorem memWrite_frame' {t : Nat} {e : EngineId} {d d' : Dev} {acc : Acc} {a : Nat} {bs : List Byte} {x : Option Code}
    (h : memWrite d acc a bs = (d', x)) : OpFrame t e d d' := by
  have hf := memWrite_frame (t := t) (e := e) d acc a bs
  rwa [h] at hf

theorem bandWrite_frame (e : SEnv) (c : SCtx) (o : OutTile) : SFrame e c (bandWrite e c o) := by
  have hw {d d' acc a bs x} : memWrite d acc a bs = (d', x) → OpFrame e.t .steamer d d' := memWrite_frame'
  unfold bandWrite
  -- kept folded: the kernel would work out the address of a write
  revert hw
  generalize memWrite = w
  revert w
  refine id fun w hw => ?_
  split
  · refine SFrame.foldl e _ (fun c p => ?_) _ c
    split
    · exact .refl ..
    dsimp only
    split <;> exact hw ‹_›
  · exact .refl ..

theorem bandArrive_frame (e : SEnv) (c : SCtx) (o : OutTile) : SFrame e c (bandArrive e c o) := by
  unfold bandArrive
  extract_lets op ntl bad fitsPast s0 c1 cells c2 s2 c3 rows full xv c4 s4
  refine iteInduction (motive := SFrame e c) (fun _ => OpFrame.refl ..) fun _ => ?_
  refine iteInduction (motive := SFrame e c) (fun _ => OpFrame.refl ..) fun _ => ?_
  have h3 : SFrame e c c3 := by
    show SFrame e c1 c2
    unfold c2
    split
    · exact .refl ..
    · exact bandWrite_frame ..
  split
  · exact h3
  split
  · exact h3
  refine h3.trans ?_
  show SFrame e c3 c4
  unfold c4
  split
  · exact sRedGo_frame ..
  · exact sRowsGo_frame ..

/-! ### The end of an operation (R152, R171) -/

theorem churn_onlyMem (d : Dev) (acc : Acc) (a n : Nat) : OnlyMem d (churn d acc a n) :=
  OnlyMem.trans (e := { d with free := d.free + n }) rfl (memWrite_onlyMem ..)

/-- What the end of an operation leaves, before its run is marked as ended. -/
def steamLeft (c : SCtx) (e : SEnv) : Dev :=
  let d := if sHas e.r.q.desc 4 ∧ sCoded (sTd e.r 4) then (encClose c.d e.t .steamer e.r e.z c.enc).1 else c.d
  onRun (bandLeft d e c.st) e.t .steamer fun r => { r with
    counts := c.enc.counts, work := { r.work with enc := c.enc, steam := c.st } }

theorem steamClose_eq (c : SCtx) (e : SEnv) (st : TState) (status : Code) (marker : Nat) :
    steamClose c e st status marker = endRun (steamLeft c e) e.t .steamer st status marker := rfl

theorem steamLeft_frame (c : SCtx) (e : SEnv) : OpFrame e.t .steamer c.d (steamLeft c e) := by
  unfold steamLeft bandLeft
  extract_lets d
  have hd : OpFrame e.t .steamer c.d d := by
    unfold d
    split
    · exact encClose_frame ..
    · exact .refl ..
  refine (hd.trans ?_).trans (.of_onRun _ _ fun _ => ⟨rfl, rfl, rfl, rfl, rfl⟩)
  split
  · exact .of_onlyMem (churn_onlyMem ..)
  · exact .refl ..

end Sys2Proof.Machine
end

section
/-! Elements of this device where memory is in no error: what a read gives, and what a write stores. -/

namespace Sys2Proof.Machine

theorem inBlockRegs_of_place {d : Dev} {a k : Nat} (h : place d a = .ok k) : inBlockRegs a = false := by
  unfold inBlockRegs
  rw [← Bool.not_eq_true]
  intro hb
  simp only [Bool.and_eq_true, decide_eq_true_eq] at hb
  unfold place at h
  rw [if_neg (by omega), if_pos hb.2] at h
  cases h

/-- Without an error of memory every range is in no error. -/
theorem clean_of_ecc {d : Dev} {a n : Nat} (h : d.mem.ecc = []) : Clean d a n := fun _ _ _ _ => by rw [h]; rfl

/-- A range of this device is read from its memory, and a read changes nothing. -/
theorem readRng_clean {d : Dev} (acc : Acc) (r : RunOp) {dev a n : Nat} (hecc : d.mem.ecc = []) (hdev : dev = selfId d)
    (hp : rangeErr d a n = none) (hn : 0 < n) : readRng d acc r ⟨dev, a, n⟩ = (d, .ok (bytesAt d a n)) := by
  obtain ⟨k, hk⟩ := place_of_range hp a (by omega) (by omega) hn
  unfold readRng
  dsimp only
  rw [if_pos hdev, if_neg (by rw [inBlockRegs_of_place hk]; exact Bool.false_ne_true), memRead_clean acc hp (clean_of_ecc hecc)]

theorem elemLen_pos (td : TDesc) : 0 < elemLen td := Nat.lt_of_lt_of_le Nat.zero_lt_one (Nat.le_max_left ..)

/-- A format without an escape code. -/
theorem Plain.input {d : Dev} {td : TDesc} {sn : List F32} {ix : List Nat} (h : Plain d td sn ix) (h4 : fmtOf td ≠ .n4)
    (h8 : fmtOf td ≠ .n8) : Input d td sn ix :=
  ⟨h, by simp [isEscape, h4, h8]⟩

theorem float?_none {f : Fmt} (h : f.float? = none) : f.isCode = true := by cases f <;> first | rfl | cases h
theorem isCode_false {f : Fmt} {F : FFmt} (h : f.float? = some F) : f.isCode = false := by cases f <;> first | rfl | cases h

theorem scaleAt_snap (d : Dev) (acc : Acc) (r : RunOp) {td : TDesc} (sn : List F32) (i : Nat) (h : tSrefKind td = 1) :
    scaleAt d acc r td sn i = (d, .ok (sn.getD i 0)) := by
  unfold scaleAt
  rw [if_pos h]

theorem elemRaw_input {d : Dev} (acc : Acc) (r : RunOp) {td : TDesc} {sn : List F32} {ix : List Nat} (hecc : d.mem.ecc = [])
    (h : Input d td sn ix) : ∃ v c, elemRaw d acc r td sn ix = (d, .ok (v, false, c)) := by
  have hread := readRng_clean acc r hecc h.here h.bytes (elemLen_pos td)
  have hbare := h.bare
  have hesc := h.noEscape
  unfold codeAt at hesc
  unfold elemAddr elemLen at hread hesc
  unfold elemRaw
  simp only [hread]
  cases hf : (fmtOf td).float? with
  | some F =>
    dsimp only
    split
    next h8 =>
      rcases h.scale with ⟨_, h0⟩ | ⟨h1, hok⟩
      · exact absurd h0 h8.2
      · rw [scaleAt_snap _ _ _ _ _ h1]
        exact ⟨_, _, if_pos hok⟩
    next => exact ⟨_, _, rfl⟩
  | none =>
    rcases h.scale with ⟨hcode, _⟩ | ⟨h1, hok⟩
    · rw [float?_none hf] at hcode
      cases hcode
    · simp only [hbare, Bool.false_and, Bool.false_eq_true, if_false, scaleAt_snap _ _ _ _ _ h1, hok, hesc, Bool.not_true]
      exact ⟨_, _, rfl⟩

/-- An element that can be read has its value, and a read changes nothing. -/
theorem elemAt_input {d : Dev} (acc : Acc) (r : RunOp) {td : TDesc} {sn : List F32} (F : FFmt) {ix : List Nat} (hecc : d.mem.ecc = [])
    (h : Input d td sn ix) : elemAt d acc r td sn F ix = (d, .ok (valAt d acc r td sn F ix, false)) := by
  obtain ⟨v, c, hraw⟩ := elemRaw_input acc r hecc h
  unfold valAt elemAt
  rw [hraw]

/-! ### Writes -/

/-- Stored bytes alone differ. -/
def OnlyBytes (d d' : Dev) : Prop := ∃ m, d' = withBytes d m

theorem OnlyBytes.refl (d : Dev) : OnlyBytes d d := ⟨d.mem.bytes, rfl⟩
theorem OnlyBytes.trans {d d' d'' : Dev} (h : OnlyBytes d d') (h' : OnlyBytes d' d'') : OnlyBytes d d'' := by
  obtain ⟨m, rfl⟩ := h
  obtain ⟨m', rfl⟩ := h'
  exact ⟨m', rfl⟩

section
variable {d d' : Dev} (h : OnlyBytes d d')
include h

theorem OnlyBytes.ecc : d'.mem.ecc = d.mem.ecc := by obtain ⟨m, rfl⟩ := h; rfl
theorem OnlyBytes.reach {td : TDesc} {ix : List Nat} (hr : Reach d td ix) : Reach d' td ix := by
  obtain ⟨m, rfl⟩ := h
  exact ⟨hr.here, (rangeErr_withBytes ..).trans hr.bytes⟩
theorem OnlyBytes.plain {td : TDesc} {sn : List F32} {ix : List Nat} (hp : Plain d td sn ix) : Plain d' td sn ix :=
  ⟨h.reach hp.toReach, hp.whole, hp.bare, hp.scale⟩
theorem OnlyBytes.quiet : Quiet d d' := by obtain ⟨m, rfl⟩ := h; exact ⟨rfl, fun _ => rfl⟩

end

/-- What an element's write stores: whole bytes, or the byte that holds its nibble. -/
theorem writeAt_reach {d : Dev} (t : Nat) (e : EngineId) (r : RunOp) {td : TDesc} {ix : List Nat} (c : Nat) (hecc : d.mem.ecc = [])
    (h : Reach d td ix) : ∃ d' bs, writeAt d t e r td ix c = (d', none) ∧ Stored d (elemAddr td ix) bs d' ∧ bs.length = elemLen td ∧
      (8 ≤ (fmtOf td).width → bs = toBytes ((fmtOf td).width / 8) c) := by
  have hwrite (bs : List Byte) (hl : bs.length = elemLen td) : ∃ d', writeRng d t e r (tDev td).toNat (elemAddr td ix) bs = (d', none) ∧
      Stored d (elemAddr td ix) bs d' := by
    unfold writeRng
    rw [if_pos h.here]
    exact memWrite_clean _ (hl ▸ h.bytes) (clean_of_ecc hecc)
  have hlen : elemLen td = max 1 ((fmtOf td).width / 8) := rfl
  unfold writeAt
  dsimp only
  split
  next hw =>
    have h1 : elemLen td = 1 := by omega
    have hbyte (x : Nat) := hwrite (toBytes 1 x) (by rw [toBytes_length, h1])
    have hout (x : Nat) : ∃ d' bs, writeRng d t e r (tDev td).toNat (elemAddr td ix) (toBytes 1 x) = (d', none) ∧
        Stored d (elemAddr td ix) bs d' ∧ bs.length = elemLen td ∧ (8 ≤ (fmtOf td).width → bs = toBytes ((fmtOf td).width / 8) c) := by
      obtain ⟨d', hd, hs⟩ := hbyte x
      exact ⟨d', _, hd, hs, by rw [toBytes_length, h1], fun h8 => by omega⟩
    split
    · exact hout _
    · have hb := h.bytes
      rw [h1] at hb
      rw [show tBitAddr td (fmtOf td).width ix / 8 = elemAddr td ix from rfl, readRng_clean _ _ hecc h.here hb Nat.one_pos]
      exact hout _
  next hw =>
    have hl : (toBytes ((fmtOf td).width / 8) c).length = elemLen td := by rw [toBytes_length]; omega
    obtain ⟨d', hd, hs⟩ := hwrite _ hl
    exact ⟨d', _, hd, hs, hl, fun _ => rfl⟩

end Sys2Proof.Machine
end

section
/-! The hand-off queue's banks (R106): steps of one run, and the Fuller's end. -/

namespace Sys2Proof.Machine

/-! ### One run alone -/

/-- The run of one engine alone changes, or the engine's queue. -/
structure RunAlone (t : Nat) (e : EngineId) (d d' : Dev) : Prop extends EngineAlone t e d d' where
  dev : d' = { d with tiles := d'.tiles }
  tile : tileOf d' t = { tileOf d t with engines := (tileOf d' t).engines }

theorem RunAlone.refl (t : Nat) (e : EngineId) (d : Dev) : RunAlone t e d d := ⟨⟨fun _ _ => rfl, fun _ _ => rfl⟩, rfl, rfl⟩
theorem RunAlone.trans {t : Nat} {e : EngineId} {d1 d2 d3 : Dev} (h : RunAlone t e d1 d2) (h' : RunAlone t e d2 d3) :
    RunAlone t e d1 d3 :=
  ⟨h.toEngineAlone.trans h'.toEngineAlone, by rw [h'.dev, h.dev], by rw [h'.tile, h.tile]⟩

theorem RunAlone.of_onEngine (d : Dev) (t : Nat) (e : EngineId) (f : Engine → Engine) : RunAlone t e d (onEngine d t e f) :=
  ⟨.of_onEngine .., rfl, by rw [onEngine, tileOf_onTile]⟩
theorem RunAlone.of_onRun (d : Dev) (t : Nat) (e : EngineId) (f : RunOp → RunOp) : RunAlone t e d (onRun d t e f) := .of_onEngine ..
theorem RunAlone.of_endRun (d : Dev) (t : Nat) (e : EngineId) (st : TState) (c : Code) (m : Nat) :
    RunAlone t e d (endRun d t e st c m) := .of_onRun ..

theorem fullerDone_alone (d : Dev) (t : Nat) : RunAlone t .fuller d (fullerDone d t) := by
  rcases fullerDone_cases d t with h | ⟨f, h⟩ <;> rw [h]
  · exact .refl ..
  · exact .of_onRun ..

theorem runOf_endRun {d : Dev} {t : Nat} {e : EngineId} {r : RunOp} (hrun : runOf d t e = some r) (hend : r.ended = none) (st : TState)
    (c : Code) (m : Nat) : runOf (endRun d t e st c m) t e = some { r with ended := some ⟨st, c⟩, marker := m } := by
  rw [endRun, runOf_onRun, hrun, Option.map_some, if_pos hend]

/-- A change of a tile that leaves its engines leaves their runs. -/
theorem engineOf_onTile {d : Dev} {t : Nat} {f : Tile → Tile} (h : (f (tileOf d t)).engines = (tileOf d t).engines) (e : EngineId) :
    engineOf (onTile d t f) t e = engineOf d t e := by
  unfold engineOf
  rw [tileOf_onTile, h]

theorem runOf_onTile {d : Dev} {t : Nat} {f : Tile → Tile} (h : (f (tileOf d t)).engines = (tileOf d t).engines) (e : EngineId) :
    runOf (onTile d t f) t e = runOf d t e := congrArg Engine.run (engineOf_onTile h e)

/-- An operation in no error is DONE with its last tile out. -/
theorem runOf_fullerDone_self {d : Dev} {t : Nat} {r : RunOp} (hrun : runOf d t .fuller = some r) (hbeg : r.begun = true)
    (hend : r.ended = none) (hgone : r.gone = none) (hnote : r.note = none) :
    runOf (fullerDone d t) t .fuller = some (if r.work.step = fPasses r.q.desc r ∧ (tileOf d t).banks = [] then
      { r with ended := some ⟨.done, 0⟩, marker := fPasses r.q.desc r } else r) := by
  have hrow : fullerDone d t = if r.work.step = fPasses r.q.desc r ∧ (tileOf d t).banks = [] then
      doneRun d t .fuller (fPasses r.q.desc r) else d := by
    unfold fullerDone
    rw [hrun]
    simp only [hbeg, hend, hgone, hnote, true_and]
  rw [hrow]
  split
  · exact runOf_endRun hrun hend _ _ _
  · exact hrun

/-! ### A bank drains (R106) -/

/-- The tile with its oldest bank in the queue. -/
def bankPlaced (rest : List OutTile) (o : OutTile) (x : Tile) : Tile := { x with banks := rest, handoff := x.handoff ++ [o] }

/-- The stall is over once a bank drains. -/
def unstalled (r : RunOp) : RunOp := { r with work := { r.work with stall := false } }

theorem bankDrain_eq {d : Dev} {t : Nat} {o : OutTile} {rest : List OutTile} (hb : (tileOf d t).banks = o :: rest)
    (hq : (tileOf d t).handoff.length < 16) :
    bankDrain d t = fullerDone (onTile (onRun d t .fuller unstalled) t (bankPlaced rest o)) t := by
  unfold bankDrain
  rw [hb]
  exact if_pos hq

section
variable {d : Dev} {t : Nat} {o : OutTile} {rest : List OutTile} (hb : (tileOf d t).banks = o :: rest) (hq : (tileOf d t).handoff.length < 16)
include hb hq

theorem bankDrain_dev : bankDrain d t = { d with tiles := (bankDrain d t).tiles } := by
  rw [bankDrain_eq hb hq, (fullerDone_alone ..).dev]
  rfl

theorem bankDrain_others {u : Nat} (hu : u ≠ t) : tileOf (bankDrain d t) u = tileOf d u := by
  rw [bankDrain_eq hb hq, (fullerDone_alone ..).others u hu, tileOf_onTile_ne _ _ hu, (RunAlone.of_onRun d t .fuller _).others u hu]

theorem bankDrain_tile : tileOf (bankDrain d t) t = { tileOf d t with
    banks := rest, handoff := (tileOf d t).handoff ++ [o], engines := (tileOf (bankDrain d t) t).engines } := by
  rw [bankDrain_eq hb hq, (fullerDone_alone ..).tile, tileOf_onTile, (RunAlone.of_onRun d t .fuller _).tile]
  rfl

theorem bankDrain_engines {f : EngineId} (hf : f ≠ .fuller) : engineOf (bankDrain d t) t f = engineOf d t f := by
  rw [bankDrain_eq hb hq, (fullerDone_alone ..).engines f hf, engineOf_onTile (by rfl), (RunAlone.of_onRun d t .fuller _).engines f hf]

theorem bankDrain_run {r : RunOp} (hrun : runOf d t .fuller = some r) (hbeg : r.begun = true) (hend : r.ended = none)
    (hgone : r.gone = none) (hnote : r.note = none) :
    runOf (bankDrain d t) t .fuller = some (if r.work.step = fPasses r.q.desc r ∧ rest = [] then
      { unstalled r with ended := some ⟨.done, 0⟩, marker := fPasses r.q.desc r } else unstalled r) := by
  have hrun1 : runOf (onTile (onRun d t .fuller unstalled) t (bankPlaced rest o)) t .fuller = some (unstalled r) := by
    rw [runOf_onTile (by rfl), runOf_onRun, hrun, Option.map_some]
  rw [bankDrain_eq hb hq, runOf_fullerDone_self hrun1 hbeg hend hgone hnote, tileOf_onTile]
  rfl

end

/-! ### The stall limit (R106) -/

theorem stallLimit_eq {d : Dev} {t : Nat} {r : RunOp} (hrun : runOf d t .fuller = some r) (hbeg : r.begun = true) (hend : r.ended = none)
    (hlim : fHsLimit r.q.desc ≠ 0) (hst : handoffStalled d t r = true) :
    stallLimit d t = endRun (onTile d t fun y => { y with banks := [] }) t .fuller .inPart 0x0425
      (r.work.step - (tileOf d t).banks.length) := by
  unfold stallLimit
  rw [hrun]
  exact if_pos ⟨hbeg, hend, hlim, hst⟩

end Sys2Proof.Machine
end

section
/-! An entry of the hand-off queue taken by the Steamer, and its wait for one (R151 to R153). -/

namespace Sys2Proof.Machine

/-! ### The other tensors are on this device -/

theorem fetchRngs_here {d : Dev} {td : TDesc} (h : (tDev td).toNat = selfId d) (r : RunOp) (ixs : List (List Nat)) :
    fetchRngs d r td ixs = [] := by
  unfold fetchRngs
  rw [if_pos h]

theorem edgeRngs_here {d : Dev} {g : Rng} (h : g.dev = selfId d) : edgeRngs d g = [] := by
  unfold edgeRngs
  rw [if_pos (.inl h)]

theorem tEdges_here {d : Dev} {td : TDesc} (h : (tDev td).toNat = selfId d) (w : Nat) : tEdges d td w = [] := by
  unfold tEdges tRngs
  refine List.flatMap_eq_nil_iff.2 fun g hg => ?_
  obtain ⟨p, _, rfl⟩ := List.mem_map.1 hg
  rw [edgeRngs_here h, if_neg (by simp [h])]
  rfl

theorem encRngs_here {d : Dev} {z : EncSet} (h : (tDev z.td).toNat = selfId d) : encRngs d z = [] := by
  unfold encRngs
  simp [tEdges_here h, h]

/-- The tensors that an operation names beside the entries lie on this device. -/
def OthersHere (d : Dev) (r : RunOp) : Prop := ∀ k, k < 7 → k ≠ 0 → sHas r.q.desc k = true → (tDev (sTd r k)).toNat = selfId d

theorem steamRngs_here {d : Dev} {t : Nat} {r : RunOp} {px : Polder} (hsrc : sSrc r.q.desc = true) (h : OthersHere d r) :
    steamRngs d r (sEnv d t r px).z = [] := by
  unfold steamRngs
  simp only [List.append_eq_nil_iff, List.flatMap_eq_nil_iff, List.mem_filter]
  refine ⟨⟨fun k hk => ?_, fun k hk => ?_⟩, ?_⟩
  · obtain ⟨hk, hs⟩ := hk
    simp only [hsrc, Bool.and_true, Bool.and_eq_true, Bool.not_eq_true', decide_eq_false_iff_not] at hs
    exact fetchRngs_here (h k (by fin_cases hk <;> decide) hs.1.2 hs.1.1) ..
  · obtain ⟨hk, hs⟩ := hk
    simp only [Bool.and_eq_true] at hs
    exact tEdges_here (h k (by fin_cases hk <;> decide) (by fin_cases hk <;> decide) hs.1) _
  · split
    next h4 => exact encRngs_here (h 4 (by decide) (by decide) h4)
    next => rfl

/-! ### One entry -/

/-- The device once the entry has left the queue. -/
def entryOut (d : Dev) (t : Nat) : Dev := onTile d t fun y => { y with handoff := y.handoff.tail }

/-- The operation as an entry arrives, with its lane groups counted. -/
def entryCtx (d : Dev) (t : Nat) (r : RunOp) (px : Polder) (o : OutTile) : SCtx :=
  let e := sEnv d t r px
  let live := if 64 * o.nt < e.sh.headD 1 ∧ o.cols ≠ 0 then ((List.range o.rows).filter fun i => (entryRow e.sh o.batch (32 * o.mt + i)).isSome).length else 0
  { d := count (entryOut d t) 0 t 0x200 (laneGroups r.q.desc r live 1) (some (runPolder (entryOut d t) t r)), enc := r.work.enc, st := r.work.steam }

/-- The work on an entry (R151, R152). -/
def entryWork (e : SEnv) (c : SCtx) (o : OutTile) : SCtx :=
  if dOpcode e.r.q.desc = 1 then sMapGo e c (entryCells e.sh o) else bandArrive e c o

/-- A last entry leaves no band open. -/
def entryLast (c : SCtx) (last : Bool) : SCtx :=
  if c.stop = none ∧ last ∧ c.st.band ≠ none then { c with stop := some (0x0432, none) } else c

/-- The operation after an entry. -/
def entryPass (d : Dev) (t : Nat) (r : RunOp) (px : Polder) (o : OutTile) : SCtx :=
  entryLast (entryWork (sEnv d t r px) (entryCtx d t r px o) o) o.last

theorem entryTake_eq {d : Dev} {t : Nat} {r : RunOp} {px : Polder} {o : OutTile} (hrun : runOf d t .steamer = some r)
    (hbeg : r.begun = true) (hend : r.ended = none) (hbad : r.bad = none) (hsrc : sSrc r.q.desc = true)
    (hpol : polderOf d (runPolder d t r) = some px) (hhead : headFor d t r = some o) (hhere : OthersHere d r) :
    entryTake d t = orphanCheck (steamSettle (entryPass d t r px o) (sEnv d t r px) o.last) t := by
  unfold entryTake
  simp -zeta only [hrun]
  refine (if_neg (by simp [hbeg, hend, hsrc])).trans ?_
  simp -zeta only [hhead, hpol]
  exact withRanges_of _ hbad (by rw [steamRngs_here hsrc hhere]; rfl)

theorem entryWork_frame (e : SEnv) (c : SCtx) (o : OutTile) : SFrame e c (entryWork e c o) := by
  unfold entryWork
  split
  · exact sMapGo_frame ..
  · exact bandArrive_frame ..

theorem entryLast_frame (e : SEnv) (c : SCtx) (last : Bool) : SFrame e c (entryLast c last) := by
  unfold entryLast
  split <;> exact OpFrame.refl ..

theorem entryPass_frame (d : Dev) (t : Nat) (r : RunOp) (px : Polder) (o : OutTile) :
    OpFrame t .steamer (entryOut d t) (entryPass d t r px o).d :=
  (count_frame ..).trans (SFrame.trans (entryWork_frame (sEnv d t r px) (entryCtx d t r px o) o) (entryLast_frame ..))

/-! ### The operation after it -/

/-- The operation goes on at a device that its work leaves, or ends there: DONE or PARTIAL after the last entry, and PARTIAL after
one before. -/
def GoesOn (t : Nat) (r : RunOp) (last : Bool) (d d' : Dev) : Prop :=
  ∃ d1 r1, OpFrame t .steamer d d1 ∧ runOf d1 t .steamer = some r1 ∧ r1.q = r.q ∧ r1.ended = none ∧
    ((d' = d1 ∧ last = false) ∨ ∃ st c m, d' = endRun d1 t .steamer st c m ∧ (st = .inPart ∨ (st = .done ∧ c = 0 ∧ last = true)))

section
variable {t : Nat} {r : RunOp} {d d' : Dev}

theorem OpFrame.goesOn_end {last : Bool} {st : TState} {c : Code} (h : OpFrame t .steamer d d') (hrun : runOf d t .steamer = some r)
    (hend : r.ended = none) (m : Nat) (hst : st = .inPart ∨ (st = .done ∧ c = 0 ∧ last = true)) :
    GoesOn t r last d (endRun d' t .steamer st c m) := by
  obtain ⟨r1, hrun1, hq, _, _, hend1, _⟩ := h.run r hrun
  exact ⟨d', r1, h, hrun1, hq, hend1.trans hend, .inr ⟨st, c, m, rfl, hst⟩⟩

theorem steamSettle_goesOn {c : SCtx} {e : SEnv} (last : Bool) (hrun : runOf c.d e.t .steamer = some r) (hend : r.ended = none) :
    GoesOn e.t r last c.d (steamSettle c e last) := by
  have hclose {st : TState} {x : Code} (m : Nat) (hst : st = .inPart ∨ (st = .done ∧ x = 0 ∧ last = true)) :
      GoesOn e.t r last c.d (steamClose c e st x m) := by
    rw [steamClose_eq]
    exact (steamLeft_frame c e).goesOn_end hrun hend m hst
  unfold steamSettle
  split
  · exact hclose _ (.inl rfl)
  split
  next hlast =>
    split
    · exact hclose _ (.inl rfl)
    · exact hclose _ (.inr ⟨rfl, rfl, hlast⟩)
  next hlast =>
    refine ⟨_, _, .of_onRun c.d _ ?_, (runOf_onRun ..).trans (congrArg _ hrun), rfl, hend, .inl ⟨rfl, Bool.not_eq_true _ ▸ hlast⟩⟩
    exact fun _ => ⟨rfl, rfl, rfl, rfl, rfl⟩

/-- A producer that is gone ends an operation that goes on, and no other. -/
theorem orphanCheck_cases (d : Dev) (t : Nat) : orphanCheck d t = d ∨
    ∃ r px, runOf d t .steamer = some r ∧ r.ended = none ∧ orphanCheck d t = steamClose { d := d, enc := r.work.enc, st := r.work.steam }
      (sEnv d t r px) .inPart 0x0433 (sMarker (sEnv d t r px) d r.work.steam) := by
  unfold orphanCheck
  split
  · exact .inl rfl
  next r hrun =>
    split
    next h =>
      split
      · exact .inl rfl
      next px _ => exact .inr ⟨r, px, hrun, h.2.1, rfl⟩
    · exact .inl rfl

theorem GoesOn.orphanCheck {last : Bool} (h : GoesOn t r last d d') : GoesOn t r last d (orphanCheck d' t) := by
  rcases orphanCheck_cases d' t with heq | ⟨r2, px, hrun2, hend2, heq⟩ <;> rw [heq]
  · exact h
  obtain ⟨d1, r1, hframe, hrun1, hq, hend1, ⟨rfl, hlast⟩ | ⟨st, c, m, rfl, _⟩⟩ := h
  · obtain rfl : r1 = r2 := Option.some.inj (hrun1.symm.trans hrun2)
    rw [steamClose_eq]
    have hleft := steamLeft_frame { d := d', enc := r1.work.enc, st := r1.work.steam } (sEnv d' t r1 px)
    obtain ⟨r3, hrun3, hq3, _, _, hend3, _⟩ := hleft.run r1 hrun1
    exact ⟨_, r3, hframe.trans hleft, hrun3, hq3.trans hq, hend3.trans hend1, .inr ⟨_, _, _, rfl, .inl rfl⟩⟩
  · rw [runOf_endRun hrun1 hend1] at hrun2
    rw [← Option.some.inj hrun2] at hend2
    cases hend2

end

theorem waitLimit_eq {d : Dev} {t : Nat} {r : RunOp} {px : Polder} (hrun : runOf d t .steamer = some r) (hbeg : r.begun = true)
    (hend : r.ended = none) (hsrc : sSrc r.q.desc = true) (hlim : sHwLimit r.q.desc ≠ 0) (hhead : headFor d t r = none)
    (hpol : polderOf d (runPolder d t r) = some px) :
    waitLimit d t = steamClose { d := d, enc := r.work.enc, st := r.work.steam } (sEnv d t r px) .inPart 0x0434
      (sMarker (sEnv d t r px) d r.work.steam) := by
  unfold waitLimit
  rw [hrun]
  dsimp only
  rw [if_pos ⟨hbeg, hend, hsrc, hlim, hhead⟩, hpol]

end Sys2Proof.Machine
end

section
/-! A MAP on an entry whose other tensors can be read and written (R140, R151): it meets no error. -/

namespace Sys2Proof.Machine

/-- An operation that has met no error, at a device where stored bytes alone have changed. -/
structure Smooth (d0 : Dev) (c : SCtx) : Prop where
  bytes : OnlyBytes d0 c.d
  stop : c.stop = none
  miss : c.st.miss = none
  band : c.st.band = none

/-- The tensors beside X can be read at an index of the shape, and Z written. -/
structure CellOk (d : Dev) (e : SEnv) (ix : List Nat) : Prop where
  reads : ∀ k ∈ [1, 2, 3], sHas e.r.q.desc k = true →
    Plain d (sTd e.r k) (e.r.snaps.getD k []) (sIx e.r.q.desc e.r e.sh k ix) ∧ fmtOf (sTd e.r k) ≠ .n4 ∧ fmtOf (sTd e.r k) ≠ .n8
  writes : sHas e.r.q.desc 4 = true → Plain d (sTd e.r 4) (e.r.snaps.getD 4 []) ix

section
variable {d0 : Dev} {e : SEnv} {c : SCtx} {ix : List Nat} (hecc : d0.mem.ecc = []) (hok : CellOk d0 e ix)
include hecc hok

theorem sGet_smooth (h : Smooth d0 c) {k : Nat} (hk : k ∈ [1, 2, 3]) (hhas : sHas e.r.q.desc k = true) :
    ∃ v, sGet e c k ix = (c, v) := by
  obtain ⟨hp, h4, h8⟩ := hok.reads k hk hhas
  have hread := elemAt_input e.acc e.r fp32 (h.bytes.ecc.trans hecc) ((h.bytes.plain hp).input h4 h8)
  obtain ⟨d, stop, lost, enc, st⟩ := c
  obtain rfl : stop = none := h.stop
  unfold sGet
  dsimp only at hread ⊢
  rw [hread]
  dsimp only
  exact ⟨_, by rw [Bool.or_false]⟩

theorem sMasked_smooth (h : Smooth d0 c) : ∃ m, sMasked e c ix = (c, m) := by
  unfold sMasked
  split
  · exact ⟨_, rfl⟩
  next hmask =>
    obtain ⟨v, hv⟩ := sGet_smooth hecc hok h (k := 3) (by decide) (decide_eq_true hmask)
    rw [hv]
    exact ⟨_, rfl⟩
  · exact ⟨_, rfl⟩

theorem sApply_smooth (h : Smooth d0 c) (x : F32) : ∃ v, sApply e c ix (some x) = (c, v) := by
  have hif {k : Nat} (hk : k ∈ [1, 2, 3]) : ∃ v, (if sHas e.r.q.desc k = true then sGet e c k ix else (c, 0)) = (c, v) := by
    split
    next hhas => exact sGet_smooth hecc hok h hk hhas
    next => exact ⟨_, rfl⟩
  obtain ⟨y, hy⟩ := hif (k := 1) (by decide)
  obtain ⟨w, hw⟩ := hif (k := 2) (by decide)
  unfold sApply
  dsimp only
  rw [hy]
  dsimp only
  rw [hw]
  exact ⟨_, rfl⟩

omit hok in
theorem encWrite_plain {d : Dev} (t : Nat) {r : RunOp} {z : EncSet} (a : EncAcc) (l : Bool) (v : F32) (hd : OnlyBytes d0 d)
    (h : Plain d0 z.td z.snap ix) : ∃ d' a' o, encWrite d t .steamer r z a l ix v = (d', a', .ok o) ∧ OnlyBytes d d' := by
  have hp := hd.plain h
  have hscale : ∃ x, encScale d (runAcc d t r) r z ix = (d, .ok x) := by
    unfold encScale
    rcases hp.scale with ⟨_, h0⟩ | ⟨h1, hs⟩
    · exact ⟨_, if_pos h0⟩
    · rw [if_neg (by rw [h1]; decide), scaleAt_snap _ _ _ _ _ h1]
      exact ⟨_, if_pos hs⟩
  obtain ⟨x, hx⟩ := hscale
  unfold encWrite
  rw [hx]
  dsimp only
  obtain ⟨d', bs, hw, hst, _⟩ := writeAt_reach t .steamer r
    (encElem (fmtOf z.td) x.isSome (x.getD one32) z.conv z.esc (decide (a.entries.length < z.cap)) l v).code (hd.ecc.trans hecc) hp.toReach
  rw [hw]
  exact ⟨d', _, _, rfl, hst.1⟩

theorem sOutZ_smooth (h : Smooth d0 c) (hlost : c.lost = false) (htd : e.z.td = sTd e.r 4) (hsnap : e.z.snap = e.r.snaps.getD 4 [])
    (v : F32) : Smooth d0 (sOutZ e c ix v) := by
  unfold sOutZ
  rw [h.stop]
  dsimp only
  split
  · exact ⟨h.bytes, rfl, h.miss, h.band⟩
  next hz =>
    have hp := hok.writes (by simpa using hz)
    split
    · obtain ⟨d', bs, hw, hst, _⟩ := writeAt_reach e.t .steamer e.r
        ((((fmtOf (sTd e.r 4)).float?).getD fp32).conv (sConv e.r.q.desc) (val32 v)).1 (h.bytes.ecc.trans hecc) (h.bytes.reach hp.toReach)
      rw [hw]
      exact ⟨h.bytes.trans hst.1, rfl, by simp only [hlost, Bool.false_eq_true, if_false]; exact h.miss, h.band⟩
    · obtain ⟨d', a', o, hw, hd'⟩ := encWrite_plain hecc e.t (r := e.r) c.enc false v h.bytes (z := e.z) (ix := ix) (by rw [htd, hsnap]; exact hp)
      rw [hw]
      exact ⟨h.bytes.trans hd', rfl, by simp only [hlost, Bool.false_eq_true, if_false]; exact h.miss, h.band⟩

omit hecc hok in
theorem sStage_smooth (h : Smooth d0 c) (hlost : c.lost = false) (v : F32) : Smooth d0 (sStage e c ix v) ∧ (sStage e c ix v).lost = false := by
  unfold sStage
  rw [h.stop]
  dsimp only
  refine ⟨⟨h.bytes, rfl, ?_, h.band⟩, hlost⟩
  simp only [hlost, Bool.false_and, Bool.false_eq_true, if_false]
  exact h.miss

theorem sMapElem_smooth (h : Smooth d0 c) (htd : e.z.td = sTd e.r 4) (hsnap : e.z.snap = e.r.snaps.getD 4 []) (x : F32) :
    Smooth d0 (sMapElem e c ix (some x)) := by
  obtain ⟨m, hm⟩ := sMasked_smooth hecc hok h
  unfold sMapElem
  rw [hm]
  dsimp only
  generalize hrow : sRow e c ix (!m && c.stop.isNone) = c1
  have h1 : Smooth d0 c1 := hrow ▸ ⟨h.bytes, h.stop, h.miss, h.band⟩
  rw [if_neg (by rw [h1.stop]; exact Bool.false_ne_true)]
  split
  · exact ⟨h1.bytes, h1.stop, h1.miss, h1.band⟩
  · have h2 : Smooth d0 { c1 with lost := false } := ⟨h1.bytes, h1.stop, h1.miss, h1.band⟩
    obtain ⟨v, hv⟩ := sApply_smooth hecc hok h2 x
    rw [hv]
    obtain ⟨h3, hlost⟩ := sStage_smooth (e := e) (ix := ix) h2 rfl v
    exact sOutZ_smooth hecc hok h3 hlost htd hsnap v

end

/-- The cells of an entry come with their values. -/
theorem entryCells_given {sh : List Nat} {o : OutTile} {p : List Nat × Option F32} (h : p ∈ entryCells sh o) : ∃ x, p.2 = some x := by
  obtain ⟨i, _, hi⟩ := List.mem_flatMap.1 h
  split at hi
  · cases hi
  · obtain ⟨j, _, hj⟩ := List.mem_filterMap.1 hi
    split at hj
    · exact ⟨_, (congrArg Prod.snd (Option.some.inj hj)).symm⟩
    · cases hj

theorem sMapGo_smooth {d0 : Dev} {e : SEnv} {c : SCtx} {l : List (List Nat × Option F32)} (hecc : d0.mem.ecc = []) (h : Smooth d0 c)
    (htd : e.z.td = sTd e.r 4) (hsnap : e.z.snap = e.r.snaps.getD 4 []) (hl : ∀ p ∈ l, CellOk d0 e p.1 ∧ ∃ x, p.2 = some x) :
    Smooth d0 (sMapGo e c l) := by
  induction l generalizing c with
  | nil => exact h
  | cons p l ih =>
    obtain ⟨⟨hok, x, hx⟩, hl⟩ := List.forall_mem_cons.1 hl
    rw [sMapGo_cons, h.stop, hx]
    exact ih (sMapElem_smooth hecc hok h htd hsnap x) hl

/-- A MAP in no error goes on, or is DONE with the last entry. -/
theorem steamSettle_smooth {d0 : Dev} {c : SCtx} {e : SEnv} {r : RunOp} (h : Smooth d0 c) (last : Bool)
    (hrun : runOf c.d e.t .steamer = some r) (hend : r.ended = none) :
    ∃ r', runOf (steamSettle c e last) e.t .steamer = some r' ∧ r'.ended = if last then some ⟨.done, 0⟩ else none := by
  unfold steamSettle
  rw [h.stop]
  dsimp only
  cases last with
  | false =>
    rw [if_neg Bool.false_ne_true]
    exact ⟨_, (runOf_onRun ..).trans (congrArg _ hrun), hend⟩
  | true =>
    rw [if_pos rfl, h.miss]
    dsimp only
    obtain ⟨r1, hrun1, _, _, _, hend1, _⟩ := (steamLeft_frame c e).run r hrun
    rw [steamClose_eq]
    exact ⟨_, runOf_endRun hrun1 (hend1.trans hend) _ _ _, rfl⟩

end Sys2Proof.Machine
end

section
/-! O21. -/

namespace Sys2Proof.Machine

section
variable {t : Nat} {r : RunOp} {last : Bool} {d d' : Dev} (h : GoesOn t r last d d')
include h

theorem GoesOn.run : ∃ r', runOf d' t .steamer = some r' ∧ r'.q = r.q ∧
    (last = true → ∃ x, r'.ended = some x ∧ (x = ⟨.done, 0⟩ ∨ x.st = .inPart)) ∧
    (last = false → r'.ended = none ∨ ∃ c, r'.ended = some ⟨.inPart, c⟩) := by
  obtain ⟨d1, r1, _, hrun, hq, hend, ⟨rfl, hl⟩ | ⟨st, c, m, rfl, hst⟩⟩ := h
  · exact ⟨r1, hrun, hq, fun ht => absurd (hl.symm.trans ht) (by decide), fun _ => .inl hend⟩
  · refine ⟨_, runOf_endRun hrun hend _ _ _, hq, fun _ => ⟨_, rfl, ?_⟩, fun hl => .inr ⟨c, ?_⟩⟩
    · rcases hst with rfl | ⟨rfl, rfl, _⟩
      · exact .inr rfl
      · exact .inl rfl
    · rcases hst with rfl | ⟨_, _, ht⟩
      · rfl
      · exact absurd (hl.symm.trans ht) (by decide)

theorem GoesOn.tile : tileOf d' t = { tileOf d t with
    engines := (tileOf d' t).engines, scale := (tileOf d' t).scale, threads := (tileOf d' t).threads, summ := (tileOf d' t).summ,
    cyc := (tileOf d' t).cyc } := by
  obtain ⟨d1, r1, hframe, _, _, _, ⟨rfl, _⟩ | ⟨st, c, m, rfl, _⟩⟩ := h
  · exact hframe.tile
  · rw [(RunAlone.of_endRun d1 t .steamer st c m).tile, hframe.tile]

theorem GoesOn.engines {f : EngineId} (hf : f ≠ .steamer) : engineOf d' t f = engineOf d t f := by
  obtain ⟨d1, r1, hframe, _, _, _, ⟨rfl, _⟩ | ⟨st, c, m, rfl, _⟩⟩ := h
  · exact hframe.engines f hf
  · rw [(RunAlone.of_endRun d1 t .steamer st c m).engines f hf, hframe.engines f hf]

end

theorem OnlyTiles.selfId {d d' : Dev} (h : OnlyTiles d d') : selfId d' = Machine.selfId d := by unfold Machine.selfId; rw [h]

theorem OnlyTiles.plain {d d' : Dev} (h : OnlyTiles d d') {td : TDesc} {sn : List F32} {ix : List Nat} (hp : Plain d td sn ix) :
    Plain d' td sn ix :=
  ⟨⟨hp.here.trans h.selfId.symm, (h.rangeErr ..).trans hp.bytes⟩, hp.whole, hp.bare, hp.scale⟩

section
variable {d : Dev} {t : Nat} {r : RunOp} {px : Polder} {o : OutTile} (hrun : runOf d t .steamer = some r) (hbeg : r.begun = true)
  (hend : r.ended = none) (hbad : r.bad = none) (hsrc : sSrc r.q.desc = true) (hpol : polderOf d (runPolder d t r) = some px)
  (hhead : headFor d t r = some o) (hhere : OthersHere d r)
include hrun

theorem runOf_entryOut : runOf (entryOut d t) t .steamer = some r := (runOf_onTile (by rfl) _).trans hrun

include hend

/-- The operation after the entry's work, before it is settled. -/
theorem entryPass_run : ∃ r1, runOf (entryPass d t r px o).d t .steamer = some r1 ∧ r1.q = r.q ∧ r1.ended = none := by
  obtain ⟨r1, hrun1, hq, _, _, hend1, _⟩ := (entryPass_frame d t r px o).run r (runOf_entryOut hrun)
  exact ⟨r1, hrun1, hq, hend1.trans hend⟩

theorem entrySettle_goesOn : GoesOn t r o.last (entryOut d t) (steamSettle (entryPass d t r px o) (sEnv d t r px) o.last) := by
  obtain ⟨r1, hrun1, hq, hend1⟩ := entryPass_run (px := px) (o := o) hrun hend
  obtain ⟨d1, r2, hframe, hrun2, hq2, hrest⟩ := steamSettle_goesOn (e := sEnv d t r px) o.last hrun1 hend1
  exact ⟨d1, r2, (entryPass_frame ..).trans hframe, hrun2, hq2.trans hq, hrest⟩

include hbeg hbad hsrc hpol hhead hhere

theorem entryTake_goesOn : GoesOn t r o.last (entryOut d t) (entryTake d t) := by
  rw [entryTake_eq hrun hbeg hend hbad hsrc hpol hhead hhere]
  exact (entrySettle_goesOn hrun hend).orphanCheck

/-- A MAP whose other tensors can be read and written meets no error. -/
theorem entryTake_map (hop : dOpcode r.q.desc = 1) (hecc : d.mem.ecc = []) (horph : (tileOf d t).orphans = [])
    (hband : r.work.steam.band = none) (hmiss : r.work.steam.miss = none)
    (hcells : ∀ p ∈ entryCells (sShape r.q.desc r) o, CellOk d (sEnv d t r px) p.1) :
    ∃ r', runOf (entryTake d t) t .steamer = some r' ∧ r'.ended = if o.last then some ⟨.done, 0⟩ else none := by
  have honly : OnlyTiles d (entryCtx d t r px o).d := (onTile_onlyTiles d t _).trans (count_onlyTiles ..)
  have hctx : Smooth (entryCtx d t r px o).d (entryCtx d t r px o) := ⟨.refl _, rfl, hmiss, hband⟩
  have hwork : Smooth (entryCtx d t r px o).d (entryWork (sEnv d t r px) (entryCtx d t r px o) o) := by
    unfold entryWork
    rw [if_pos (show dOpcode (sEnv d t r px).r.q.desc = 1 from hop)]
    refine sMapGo_smooth (honly.mem ▸ hecc) hctx rfl rfl fun p hp => ⟨?_, entryCells_given hp⟩
    obtain ⟨hreads, hwrites⟩ := hcells p hp
    exact ⟨fun k hk hhas => ⟨honly.plain (hreads k hk hhas).1, (hreads k hk hhas).2⟩, fun h4 => honly.plain (hwrites h4)⟩
  have hpass : Smooth (entryCtx d t r px o).d (entryPass d t r px o) := by
    unfold entryPass entryLast
    rw [if_neg fun h => h.2.2 hwork.band]
    exact hwork
  obtain ⟨r1, hrun1, _, hend1⟩ := entryPass_run (px := px) (o := o) hrun hend
  have hgo := entrySettle_goesOn (px := px) (o := o) hrun hend
  rw [entryTake_eq hrun hbeg hend hbad hsrc hpol hhead hhere, orphanCheck_none (by rw [hgo.tile, entryOut, tileOf_onTile]; exact horph)]
  exact steamSettle_smooth (e := sEnv d t r px) hpass o.last hrun1 hend1

end

/-- Settles O21: a bank drains by `bankDrain_eq`, a stall ends by `stallLimit_eq`, an entry is taken by `entryTake_eq`, where the
work on it stays in its frame (`entryPass_frame`) and a MAP meets no error (`entryTake_map`); a wait ends by `waitLimit_eq`. -/
theorem handoffQueue : Obligations.HandoffQueue := by
  unfold Obligations.HandoffQueue
  refine ⟨fun t s o rest hb hq => ?_, fun t s r hrun hbeg hend hlim hst => ?_, fun t s r px o hrun hbeg hend hbad hsrc hpol hhead hhere => ?_,
    fun t s r px hrun hbeg hend hsrc hlim hhead hpol => ?_⟩
  · exact ⟨_, rfl, ⟨rfl, rfl, rfl⟩, bankDrain_dev hb hq, fun u => bankDrain_others hb hq, bankDrain_tile hb hq,
      fun f => bankDrain_engines hb hq, fun r hrun hbeg hend hgone hnote => bankDrain_run hb hq hrun hbeg hend hgone hnote⟩
  · have heq := stallLimit_eq hrun hbeg hend hlim hst
    have hrun1 : runOf (onTile s.dev t.toNat fun y => { y with banks := [] }) t.toNat .fuller = some r := (runOf_onTile (by rfl) _).trans hrun
    have halone := RunAlone.of_endRun (onTile s.dev t.toNat fun y => { y with banks := [] }) t.toNat .fuller .inPart 0x0425
      (r.work.step - (tileOf s.dev t.toNat).banks.length)
    refine ⟨_, next_dev heq, ⟨rfl, rfl, rfl⟩, halone.dev.trans rfl, fun u hu => ?_, ?_, fun f hf => ?_,
      runOf_endRun hrun1 hend _ _ _⟩
    · exact (halone.others u hu).trans (tileOf_onTile_ne _ _ hu)
    · exact halone.tile.trans (by rw [tileOf_onTile])
    · exact (halone.engines f hf).trans (engineOf_onTile (by rfl) f)
  · have hgo := entryTake_goesOn hrun hbeg hend hbad hsrc hpol hhead hhere
    obtain ⟨r', hrun', hq, hlast, hmore⟩ := hgo.run
    refine ⟨_, r', rfl, ⟨rfl, rfl, rfl⟩, hrun', hq, ?_, ?_, fun f hf => ?_, hlast, hmore, fun hop hecc horph hband hmiss hcells => ?_⟩
    · exact (congrArg Tile.handoff hgo.tile).trans (by rw [entryOut, tileOf_onTile])
    · exact (congrArg Tile.banks hgo.tile).trans (by rw [entryOut, tileOf_onTile])
    · exact (hgo.engines hf).trans (engineOf_onTile (by rfl) f)
    · obtain ⟨r2, hrun2, hend2⟩ := entryTake_map (px := px) hrun hbeg hend hbad hsrc hpol hhead hhere hop hecc horph hband hmiss
        fun p hp => ⟨(hcells p hp).1, (hcells p hp).2⟩
      rwa [Option.some.inj (hrun'.symm.trans hrun2)]
  · have heq := waitLimit_eq hrun hbeg hend hsrc hlim hhead hpol
    rw [steamClose_eq] at heq
    have hleft := steamLeft_frame { d := s.dev, enc := r.work.enc, st := r.work.steam } (sEnv s.dev t.toNat r px)
    obtain ⟨r1, hrun1, _, _, _, hend1, _⟩ := hleft.run r hrun
    rw [show exec (.handoffWaitLimit t) s = _ from next_dev heq]
    exact opEnds_endRun hleft hrun1 (hend1.trans hend) _ _ _

end Sys2Proof.Machine
end

section
/-! A pass of the Fuller, cut at its seams (R90 to R106): the lines it fetches, the sums it forms, the tile it drains. -/

namespace Sys2Proof.Machine

/-! ### What the pass of an output tile fetches -/

section
variable (x : BitVec 1024) (r : RunOp)

/-- The operand lines of the main, outlier and adapter k-steps, and the elements of the initial values and of the epilogue. -/
def tileA : List (List (Option (TDesc × List Nat))) := (nowRows x r).map (aLine x r (passBx x r r.work.step))
def tileB : List (List (Option (TDesc × List Nat))) := (nowCols x r).map (bLine x r (passBx x r r.work.step))
def tileOA : List (List (Option (TDesc × List Nat))) :=
  if decide (dOpcode x = 1) && decide (fNOut x ≠ 0) then (nowRows x r).map (outA x r (passBx x r r.work.step)) else []
def tileOB : List (List (Option (TDesc × List Nat))) :=
  if decide (dOpcode x = 1) && decide (fNOut x ≠ 0) then (nowCols x r).map (outB x r (passBx x r r.work.step)) else []
def tileU : List (List (Option (TDesc × List Nat))) :=
  if decide (fRank x ≠ 0) && decide (dOpcode x ≠ 4) then (nowCols x r).map (upLine x r (passBx x r r.work.step)) else []
def tileInit : List (List Nat) :=
  if fInit x then (nowRows x r).flatMap fun m => (nowCols x r).map fun n => initIx r (passBx x r r.work.step) m n else []
def tileE : List (List Nat) := if fEpi x ≠ 0 then (nowRows x r).flatMap fun m => (nowCols x r).map fun n => epiIx m n else []
def tileR : List (List Nat) := if 2 ≤ fEpi x then (nowRows x r).map epiVec else []
def tileG : List (List Nat) := if 2 ≤ fEpi x then (nowCols x r).map epiVec else []
/-- An element of C that the pass forms. -/
def tileIx (m n : Nat) : List Nat := [n, m] ++ passBx x r r.work.step

/-- The ranges on other devices that the pass reads, or writes in part. -/
def tileRngs (d : Dev) : List Rng :=
  lineRngs d r (tileA x r ++ tileB x r ++ tileOA x r ++ tileOB x r ++ tileU x r)
    ++ (if fInit x then fetchRngs d r (fTd r 3) (tileInit x r) else [])
    ++ (if fEpi x ≠ 0 then fetchRngs d r (fTd r 9) (tileE x r) else [])
    ++ (if 2 ≤ fEpi x then fetchRngs d r (fTd r 10) (tileR x r) ++ fetchRngs d r (fTd r 11) (tileG x r) else [])
    ++ if fOutMode x = 0 then (nowRows x r).flatMap fun m => (nowCols x r).flatMap fun n => elemEdges d (fTd r 2) (tileIx x r m n) else []

end

/-- The values that a pass fetches: initial values, the lines of its k-steps, and what the epilogue takes. -/
structure TileVals where
  init : List (List F32)
  a : List (List FVal)
  b : List (List FVal)
  oa : List (List FVal)
  ob : List (List FVal)
  u : List (List FVal)
  e : List F32
  rv : List F32
  g : List F32

/-- The fetches of a pass in turn. -/
def tileFetch (d : Dev) (t : Nat) (r : RunOp) (px : Polder) : FCtx × TileVals :=
  let x := r.q.desc
  let acc := runAcc d t r
  let ctx : FCtx := { d := d, note := r.note }
  let (ctx, iv) := if fInit x then fetch32 acc r t px ctx (fTd r 3) (tileInit x r)
    else (ctx, List.replicate ((nowRows x r).length * (nowCols x r).length) 0)
  let (ctx, av, bv) := fetchPair acc r t px (stepBlocks (tileA x r) (tileB x r)) ctx (tileA x r) (tileB x r)
  let (ctx, oav, obv) := fetchPair acc r t px (stepBlocks (tileOA x r) (tileOB x r)) ctx (tileOA x r) (tileOB x r)
  let (ctx, _, uv) := fetchPair acc r t px (stepBlocks [] (tileU x r)) ctx [] (tileU x r)
  let (ctx, ev) := if fEpi x ≠ 0 then fetch32 acc r t px ctx (fTd r 9) (tileE x r) else (ctx, [])
  let (ctx, rv) := if fEpi x ≥ 2 then fetch32 acc r t px ctx (fTd r 10) (tileR x r) else (ctx, [])
  let (ctx, gv) := if fEpi x ≥ 2 then fetch32 acc r t px ctx (fTd r 11) (tileG x r) else (ctx, [])
  (ctx, ⟨chunksOf (nowCols x r).length ((nowRows x r).length + 1) iv, av, bv, oav, obv, uv, ev, rv, gv⟩)

/-! ### The sums it forms -/

/-- The accumulators of some sums. -/
def sumsOf (l : List (List (F32 × Nat))) : List (List F32) := l.map fun q => q.map Prod.fst

section
variable (x : BitVec 1024) (r : RunOp) (v : TileVals)

def tileMain : List (List (F32 × Nat)) := mulRows v.init v.a v.b
def tileOutl : List (List (F32 × Nat)) := if tileOA x r = [] then tileMain v else mulRows (sumsOf (tileMain v)) v.oa v.ob
/-- The rows of the adapter buffer. -/
def bufRows : List (List FVal) := (chunksOf (fRank x) ((nowRows x r).length + 1) r.work.vals).map fun l => l.map val32
def tileAdap : List (List (F32 × Nat)) :=
  if tileU x r = [] then tileOutl x r v else mulRows (sumsOf (tileOutl x r v)) (bufRows x r) v.u
/-- Groups that were truncated. -/
def tileTg : Nat :=
  addTgs (tileMain v) + (if tileOA x r = [] then 0 else addTgs (tileOutl x r v)) + (if tileU x r = [] then 0 else addTgs (tileAdap x r v))
/-- The values of the tile, after its epilogue. -/
def tileGrid : List (List F32) :=
  if fEpi x = 0 then sumsOf (tileAdap x r v)
  else List.zipWith (fun (row : List F32) (q : List F32 × F32) => epiRow (fEpi x) row q.1 v.g q.2) (sumsOf (tileAdap x r v))
    (List.zip (chunksOf (nowCols x r).length ((nowRows x r).length + 1) v.e) (if fEpi x ≥ 2 then v.rv else (nowRows x r).map fun _ => 0))

end

/-! ### How it drains -/

/-- k-steps of a pass. -/
def tileSteps (x : BitVec 1024) (r : RunOp) : Nat :=
  (if dOpcode x = 3 then fBatches x r * (fShape x r).k else (fShape x r).k) + (if dOpcode x = 1 then fNOut x else 0)
    + (if dOpcode x = 4 then 0 else fRank x)

/-- k-steps and truncated groups counted as events. -/
def stepsCounted (d : Dev) (t : Nat) (r : RunOp) (pn : PolderNo) (k tg : Nat) : Dev :=
  let d := count d 0 t 0x100 k (some pn)
  if tg = 0 then d else count d 0 t 0x105 tg (some (runPolder d t r))

section
variable (x : BitVec 1024) (r : RunOp) (g : List (List F32))

/-- The elements of C that the pass forms, with their codes. -/
def tileFormed : List (List Nat × Nat × Cls) :=
  ((List.zip (nowRows x r) g).flatMap fun q => (List.zip (nowCols x r) q.2).map fun e => (tileIx x r q.1 e.1, e.2)).map fun e =>
    (e.1, if dOpcode x = 4 then downElem (fAlpha x) e.2 else outCode (fTd r 2) (fConv x) e.2)

/-- The tile that leaves through the hand-off queue, its rows padded to 64 values. -/
def tileOut : OutTile :=
  ⟨BitVec.ofNat 16 (fld x 463 448), BitVec.ofNat 16 (fld x 479 464), (fPassAt x r r.work.step).1, (fPassAt x r r.work.step).2.1,
    (fPassAt x r r.work.step).2.2, (nowRows x r).length, (nowCols x r).length, decide (r.work.step + 1 = fPasses x r),
    (g.map fun l => l ++ List.replicate (64 - l.length) 0).flatten ++ List.replicate (64 * (32 - (nowRows x r).length)) 0⟩

end

/-- The operation with its next tile done. -/
def tileNext (p : Nat) (cn : Counts) (note : Option (Code × Nat)) (r : RunOp) : RunOp :=
  { r with counts := cn, note := note, fetched := [], work := { r.work with step := p + 1, down := 0, stall := false } }

/-- A tile placed in the queue, or held in a bank (R106). -/
def tilePlaced (d : Dev) (t : Nat) (o : OutTile) : Dev :=
  if (tileOf d t).banks = [] ∧ (tileOf d t).handoff.length < 16 then onTile d t fun y => { y with handoff := y.handoff ++ [o] }
  else onTile d t fun y => { y with banks := y.banks ++ [o] }

/-- The tile of a pass that has fetched what it needs. -/
def tileDrain (ctx : FCtx) (t : Nat) (r : RunOp) (v : TileVals) : Dev :=
  let x := r.q.desc
  let tg := tileTg x r v
  let cn := r.counts.addTg tg
  let d := stepsCounted ctx.d t r (runPolder ctx.d t r) (tileSteps x r) tg
  if fOutMode x = 0 then
    let l := tileFormed x r (tileGrid x r v)
    match writeList t .fuller r (fTd r 2) d 0 (l.map fun e => (e.1, e.2.1)) with
    | (d, some (code, _)) => partRun d t .fuller code r.work.step
    | (d, none) => onRun d t .fuller (tileNext r.work.step (countAll cn (l.map fun e => e.2.2)) ctx.note)
  else
    let d := onRun d t .fuller (tileNext r.work.step cn ctx.note)
    if r.gone.isSome then d else tilePlaced d t (tileOut x r (tileGrid x r v))

/-- The pass once what it reads is here. -/
def tileGo (d : Dev) (acc : Acc) (t : Nat) (r : RunOp) (px : Polder) : Dev :=
  let x := r.q.desc
  let ctx : FCtx := { d := d, note := r.note }
  let (ctx, iv) := if fInit x then fetch32 acc r t px ctx (fTd r 3) (tileInit x r)
    else (ctx, List.replicate ((nowRows x r).length * (nowCols x r).length) 0)
  let (ctx, av, bv) := fetchPair acc r t px (stepBlocks (tileA x r) (tileB x r)) ctx (tileA x r) (tileB x r)
  let (ctx, oav, obv) := fetchPair acc r t px (stepBlocks (tileOA x r) (tileOB x r)) ctx (tileOA x r) (tileOB x r)
  let (ctx, _, uv) := fetchPair acc r t px (stepBlocks [] (tileU x r)) ctx [] (tileU x r)
  let (ctx, ev) := if fEpi x ≠ 0 then fetch32 acc r t px ctx (fTd r 9) (tileE x r) else (ctx, [])
  let (ctx, rv) := if fEpi x ≥ 2 then fetch32 acc r t px ctx (fTd r 10) (tileR x r) else (ctx, [])
  let (ctx, gv) := if fEpi x ≥ 2 then fetch32 acc r t px ctx (fTd r 11) (tileG x r) else (ctx, [])
  match ctx.stop with
  | some code => fullerFail ctx.d t code r.work.step
  | none => tileDrain ctx t r ⟨chunksOf (nowCols x r).length ((nowRows x r).length + 1) iv, av, bv, oav, obv, uv, ev, rv, gv⟩

theorem fullerPass_go (d : Dev) (t : Nat) (r : RunOp) (px : Polder) :
    fullerPass d t r px = passRanges d t r (tileRngs r.q.desc r d) fun d' => tileGo d' (runAcc d t r) t r px := by
  rfl

theorem passRanges_of {d : Dev} {t : Nat} {r : RunOp} {gs : List Rng} (go : Dev → Dev) (hbad : r.bad = none) (hgs : gs = []) :
    passRanges d t r gs go = go d := by
  unfold passRanges
  rw [hbad, hgs]
  exact withRanges_of go hbad List.filter_nil

/-- A pass whose operands are on this device: the operation ends at an operand error, or its next tile drains. -/
theorem fullerPass_eq {d : Dev} (t : Nat) {r : RunOp} (px : Polder) (hbad : r.bad = none) (hr : tileRngs r.q.desc r d = []) :
    fullerPass d t r px = match (tileFetch d t r px).1.stop with
      | some code => fullerFail (tileFetch d t r px).1.d t code r.work.step
      | none => tileDrain (tileFetch d t r px).1 t r (tileFetch d t r px).2 :=
  (fullerPass_go d t r px).trans (passRanges_of _ hbad hr)

/-! ### A down pass (R103, R122) -/

section
variable (x : BitVec 1024) (r : RunOp)

def downA : List (List (Option (TDesc × List Nat))) := (nowRows x r).map (aLine x r (passBx x r r.work.step))
def downD : List (List (Option (TDesc × List Nat))) := (downCols x r).map (downLine x r (passBx x r r.work.step))
/-- An element of dP that the pass stores under pstore. -/
def downIx (m j : Nat) : List Nat := mIx (fTd r 7) false m j (passBx x r r.work.step)

def downRngs (d : Dev) : List Rng :=
  lineRngs d r (downA x r ++ downD x r)
    ++ if fPstore x then (nowRows x r).flatMap fun m => (downCols x r).flatMap fun j => elemEdges d (fTd r 7) (downIx x r m j) else []

/-- The sums of a down pass, from the values of its lines. -/
def downSums (av dv : List (List FVal)) : List (List (F32 × Nat)) :=
  mulRows ((nowRows x r).map fun _ => List.replicate (downCols x r).length 0) av dv

/-- The columns that stand in the adapter buffer. -/
def downOld : List (List F32) :=
  if 64 * r.work.down = 0 then (nowRows x r).map fun _ => [] else chunksOf (64 * r.work.down) ((nowRows x r).length + 1) r.work.vals

/-- The adapter buffer with new columns. -/
def downBuf (new : List (List (B16 × Cls))) : List F32 :=
  (List.zipWith (fun (o : List F32) n => o ++ n.map fun q => rne32 (val16 q.1)) (downOld x r) new).flatten

/-- The elements of dP with their codes. -/
def downFormed (new : List (List (B16 × Cls))) : List (List Nat × Nat) :=
  (List.zip (nowRows x r) new).flatMap fun q => (List.zip (downCols x r) q.2).map fun e => (downIx x r q.1 e.1, e.2.1.toNat)

end

/-- The operation with the next columns of its adapter buffer. -/
def downNext (buf : List F32) (tg : Nat) (cls : List Cls) (note : Option (Code × Nat)) (held : Bool) (r : RunOp) : RunOp :=
  { r with counts := (countAll r.counts cls).addTg tg, note := note, fetched := []
           work := { r.work with vals := buf, down := r.work.down + 1, stall := held } }

/-- The lines of a down pass. -/
def downFetch (d : Dev) (t : Nat) (r : RunOp) (px : Polder) : FCtx × List (List FVal) × List (List FVal) :=
  let x := r.q.desc
  fetchPair (runAcc d t r) r t px (stepBlocks (downA x r) (downD x r)) { d := d, note := r.note } (downA x r) (downD x r)

/-- A down pass that has fetched what it needs. -/
def downDrain (ctx : FCtx) (t : Nat) (r : RunOp) (pn : PolderNo) (sums : List (List (F32 × Nat))) : Dev :=
  let x := r.q.desc
  let new := sums.map (downRow (fAlpha x))
  let d := stepsCounted ctx.d t r pn (fShape x r).k (addTgs sums)
  let (d, st) := if fPstore x then writeList t .fuller r (fTd r 7) d 0 (downFormed x r new) else (d, none)
  match st with
  | some (code, _) => fullerFail d t code r.work.step
  | none => onRun d t .fuller
      (downNext (downBuf x r new) (addTgs sums) (new.flatten.map Prod.snd) ctx.note (decide ((tileOf d t).banks ≠ [])))

/-- The down pass once what it reads is here. -/
def downGo (d : Dev) (acc : Acc) (t : Nat) (r : RunOp) (px : Polder) : Dev :=
  let x := r.q.desc
  let (ctx, av, dv) := fetchPair acc r t px (stepBlocks (downA x r) (downD x r)) { d := d, note := r.note } (downA x r) (downD x r)
  match ctx.stop with
  | some code => fullerFail ctx.d t code r.work.step
  | none => downDrain ctx t r (runPolder d t r) (downSums x r av dv)

theorem fullerDown_go (d : Dev) (t : Nat) (r : RunOp) (px : Polder) :
    fullerDown d t r px = passRanges d t r (downRngs r.q.desc r d) fun d' => downGo d' (runAcc d t r) t r px := by
  rfl

/-- A down pass whose operands are on this device. -/
theorem fullerDown_eq {d : Dev} (t : Nat) {r : RunOp} (px : Polder) (hbad : r.bad = none) (hr : downRngs r.q.desc r d = []) :
    fullerDown d t r px = match (downFetch d t r px).1.stop with
      | some code => fullerFail (downFetch d t r px).1.d t code r.work.step
      | none => downDrain (downFetch d t r px).1 t r (runPolder d t r) (downSums r.q.desc r (downFetch d t r px).2.1 (downFetch d t r px).2.2) :=
  (fullerDown_go d t r px).trans (passRanges_of _ hbad hr)

end Sys2Proof.Machine
end

section
/-! What the passes of the Fuller touch, and where their operands lie. -/

namespace Sys2Proof.Machine

/-! ### Fetches leave all but memory's errors and counters -/

section
variable (acc : Acc) (r : RunOp) (t : Nat) (px : Polder)

theorem foldl_quiet {α : Type} (f : FCtx × α → TDesc → FCtx × α) (h : ∀ s td, Quiet s.1.d (f s td).1.d) (l : List TDesc) (s : FCtx × α) :
    Quiet s.1.d (l.foldl f s).1.d := by
  induction l generalizing s with
  | nil => exact .refl _
  | cons td l ih => exact (h s td).trans (ih _)

theorem fetchLine_quiet (side : Bool) (c : FCtx) (ls : List (Option (TDesc × List Nat))) :
    Quiet c.d (fetchLine acc r t px side c ls).1.d := by
  unfold fetchLine
  extract_lets tds
  refine foldl_quiet _ (fun s td => ?_) tds (c, [])
  split
  · exact .refl _
  · exact fetchVals_quiet ..

theorem fetchBlock_quiet (side : Bool) (c : FCtx) (blk : List (List (Option (TDesc × List Nat)))) :
    Quiet c.d (fetchBlock acc r t px side c blk).1.d := by
  unfold fetchBlock
  dsimp only
  split <;> exact fetchLine_quiet ..

theorem fetchPair_quiet (n : Nat) (c : FCtx) (a b : List (List (Option (TDesc × List Nat)))) :
    Quiet c.d (fetchPair acc r t px n c a b).1.d := by
  induction n generalizing c a b with
  | zero => exact .refl _
  | succ n ih => exact ((fetchBlock_quiet ..).trans (fetchBlock_quiet ..)).trans (ih ..)

theorem fetch32_quiet (c : FCtx) (td : TDesc) (ixs : List (List Nat)) : Quiet c.d (fetch32 acc r t px c td ixs).1.d := by
  unfold fetch32
  split
  · exact .refl _
  · exact fetchVals_quiet ..

theorem fetch32_if_quiet {p : Prop} [Decidable p] (c : FCtx) (td : TDesc) (ixs : List (List Nat)) (l : List F32) :
    Quiet c.d (if p then fetch32 acc r t px c td ixs else (c, l)).1.d := by
  split
  · exact fetch32_quiet ..
  · exact .refl _

end

theorem tileFetch_quiet (d : Dev) (t : Nat) (r : RunOp) (px : Polder) : Quiet d (tileFetch d t r px).1.d :=
  (fetch32_if_quiet _ _ _ _ { d := d, note := r.note } _ _ _).trans <| (fetchPair_quiet ..).trans <| (fetchPair_quiet ..).trans <|
    (fetchPair_quiet ..).trans <| (fetch32_if_quiet ..).trans <| (fetch32_if_quiet ..).trans (fetch32_if_quiet ..)

theorem downFetch_quiet (d : Dev) (t : Nat) (r : RunOp) (px : Polder) : Quiet d (downFetch d t r px).1.d :=
  fetchPair_quiet _ _ _ _ _ { d := d, note := r.note } _ _

theorem stepsCounted_onlyMem (d : Dev) (t : Nat) (r : RunOp) (pn : PolderNo) (k tg : Nat) : OnlyMem d (stepsCounted d t r pn k tg) := by
  unfold stepsCounted
  dsimp only
  split
  · exact count_onlyMem ..
  · exact (count_onlyMem ..).trans (count_onlyMem ..)

/-! ### Operands on this device -/

/-- Elements of tensors on this device. -/
def AllHere (d : Dev) (l : List (TDesc × List Nat)) : Prop := ∀ p ∈ l, (tDev p.1).toNat = selfId d

theorem lineRngs_here {d : Dev} {r : RunOp} {ls : List (List (Option (TDesc × List Nat)))} (h : AllHere d (ls.flatten.filterMap id)) :
    lineRngs d r ls = [] := by
  unfold lineRngs
  refine List.flatMap_eq_nil_iff.2 fun td htd => ?_
  obtain ⟨p, hp, rfl⟩ := List.mem_map.1 (List.mem_dedup.1 htd)
  exact fetchRngs_here (h p hp) ..

theorem elemEdges_here {d : Dev} {td : TDesc} (h : (tDev td).toNat = selfId d) (ix : List Nat) : elemEdges d td ix = [] := edgeRngs_here h

section
variable {d : Dev} {x : BitVec 1024} {r : RunOp}

/-- The lines of a pass are the first elements that it reads. -/
theorem tileReads_eq (x : BitVec 1024) (r : RunOp) : tileReads x r =
    ((tileA x r ++ tileB x r ++ tileOA x r ++ tileOB x r ++ tileU x r).flatten.filterMap id)
      ++ (tileInit x r).map (fun ix => (fTd r 3, ix)) ++ (tileE x r).map (fun ix => (fTd r 9, ix))
      ++ ((tileR x r).map (fun ix => (fTd r 10, ix)) ++ (tileG x r).map fun ix => (fTd r 11, ix)) := by
  have hout : (if dOpcode x = 1 ∧ fNOut x ≠ 0 then (nowRows x r).map (outA x r (passBx x r r.work.step)) ++
      (nowCols x r).map (outB x r (passBx x r r.work.step)) else []) = tileOA x r ++ tileOB x r := by
    unfold tileOA tileOB
    simp only [← Bool.decide_and, decide_eq_true_eq]
    split <;> rfl
  have hup : (if fRank x ≠ 0 ∧ dOpcode x ≠ 4 then (nowCols x r).map (upLine x r (passBx x r r.work.step)) else []) = tileU x r := by
    unfold tileU
    simp only [← Bool.decide_and, decide_eq_true_eq]
  have hinit : (if fInit x then (nowRows x r).flatMap fun m => (nowCols x r).map fun n => (fTd r 3, initIx r (passBx x r r.work.step) m n)
      else []) = (tileInit x r).map fun ix => (fTd r 3, ix) := by
    unfold tileInit
    split <;> simp [List.map_flatMap, Function.comp_def]
  have hepi : (if fEpi x ≠ 0 then (nowRows x r).flatMap fun m => (nowCols x r).map fun n => (fTd r 9, epiIx m n) else []) =
      (tileE x r).map fun ix => (fTd r 9, ix) := by
    unfold tileE
    split <;> simp [List.map_flatMap, Function.comp_def]
  have hvec : (if 2 ≤ fEpi x then (nowRows x r).map (fun m => (fTd r 10, epiVec m)) ++ (nowCols x r).map fun n => (fTd r 11, epiVec n)
      else []) = (tileR x r).map (fun ix => (fTd r 10, ix)) ++ (tileG x r).map fun ix => (fTd r 11, ix) := by
    unfold tileR tileG
    split <;> simp [Function.comp_def]
  unfold tileReads
  dsimp only
  rw [hout, hup, hinit, hepi, hvec, ← List.append_assoc (_ ++ _) (tileOA x r)]
  rfl

end

end Sys2Proof.Machine
end

section
/-! The tensors of the lines of a pass, and its rows and columns. -/

namespace Sys2Proof.Machine

/-! ### The tile of a pass lies in the product (R91) -/

theorem lt_ceilDiv {a b k : Nat} (hb : 0 < b) (h : k < ceilDiv a b) : b * k < a := by
  unfold ceilDiv at h
  have h1 := (Nat.lt_div_iff_mul_lt hb).1 h
  rw [Nat.mul_comm] at h1
  omega

section
variable {x : BitVec 1024} {r : RunOp}

theorem fPassAt_lt {p : Nat} (h : p < fPasses x r) : (fPassAt x r p).2.1 < fMt x r ∧ (fPassAt x r p).2.2 < fNt x r := by
  have hpos : 0 < fMt x r * fNt x r := by
    rw [Nat.pos_iff_ne_zero]
    intro h0
    unfold fPasses at h
    rw [Nat.mul_assoc, h0] at h
    exact Nat.not_lt_zero _ h
  have hm : 0 < fMt x r := Nat.pos_of_mul_pos_right hpos
  have hn : 0 < fNt x r := Nat.pos_of_mul_pos_left hpos
  have hq := Nat.mod_lt p hpos
  unfold fPassAt
  dsimp only
  split
  · exact ⟨Nat.div_lt_of_lt_mul (Nat.mul_comm (fMt x r) _ ▸ hq), Nat.mod_lt _ hn⟩
  · exact ⟨Nat.mod_lt _ hm, Nat.div_lt_of_lt_mul hq⟩

theorem nowRows_ne (h : r.work.step < fPasses x r) : nowRows x r ≠ [] := by
  have := lt_ceilDiv (by decide) (fPassAt_lt h).1
  unfold nowRows passRows
  simp only [ne_eq, List.map_eq_nil_iff, List.range_eq_nil]
  omega

theorem nowCols_ne (h : r.work.step < fPasses x r) : nowCols x r ≠ [] := by
  have := lt_ceilDiv (by decide) (fPassAt_lt h).2
  unfold nowCols passCols
  simp only [ne_eq, List.map_eq_nil_iff, List.range_eq_nil]
  omega

/-! ### The ranges of a pass on this device -/

variable {d : Dev}

theorem tileRngs_here (hrows : nowRows x r ≠ []) (hcols : nowCols x r ≠ []) (hreads : AllHere d (tileReads x r))
    (hwrites : AllHere d (tileWrites x r)) : tileRngs x r d = [] := by
  rw [tileReads_eq] at hreads
  unfold AllHere at hreads
  simp only [List.forall_mem_append, List.forall_mem_map] at hreads
  obtain ⟨⟨⟨hlines, hinit⟩, hepi⟩, hr, hg⟩ := hreads
  have hcell {α : Type} (f : Nat → Nat → α) : (nowRows x r).flatMap (fun m => (nowCols x r).map fun n => f m n) ≠ [] := by
    obtain ⟨m, hm⟩ := List.exists_mem_of_ne_nil _ hrows
    obtain ⟨n, hn⟩ := List.exists_mem_of_ne_nil _ hcols
    exact List.ne_nil_of_mem (List.mem_flatMap.2 ⟨m, hm, List.mem_map_of_mem hn⟩)
  have hfetch {td : TDesc} {l : List (List Nat)} (hne : l ≠ []) (h : ∀ ix ∈ l, (tDev td).toNat = selfId d) :
      fetchRngs d r td l = [] := by
    obtain ⟨ix, hix⟩ := List.exists_mem_of_ne_nil _ hne
    exact fetchRngs_here (h ix hix) ..
  unfold tileRngs
  rw [lineRngs_here hlines, List.nil_append, List.append_eq_nil_iff, List.append_eq_nil_iff, List.append_eq_nil_iff]
  refine ⟨⟨⟨?_, ?_⟩, ?_⟩, ?_⟩
  · split
    next h => exact hfetch (by unfold tileInit; rw [if_pos h]; exact hcell _) hinit
    next => rfl
  · split
    next h => exact hfetch (by unfold tileE; rw [if_pos h]; exact hcell _) hepi
    next => rfl
  · split
    next h =>
      have hR : fetchRngs d r (fTd r 10) (tileR x r) = [] := hfetch (by unfold tileR; rw [if_pos h]; simpa using hrows) hr
      have hG : fetchRngs d r (fTd r 11) (tileG x r) = [] := hfetch (by unfold tileG; rw [if_pos h]; simpa using hcols) hg
      rw [hR, hG]
      rfl
    next => rfl
  · split
    next h =>
      refine List.flatMap_eq_nil_iff.2 fun m hm => List.flatMap_eq_nil_iff.2 fun n hn => elemEdges_here ?_ _
      refine hwrites (fTd r 2, tileIx x r m n) ?_
      unfold tileWrites
      rw [if_pos h]
      exact List.mem_flatMap.2 ⟨m, hm, List.mem_map_of_mem hn⟩
    next => rfl

theorem downRngs_here (hreads : AllHere d (downReads x r)) (hwrites : AllHere d (downWrites x r)) : downRngs x r d = [] := by
  unfold downRngs
  rw [lineRngs_here (show AllHere d ((downA x r ++ downD x r).flatten.filterMap id) from hreads), List.nil_append]
  split
  next h =>
    refine List.flatMap_eq_nil_iff.2 fun m hm => List.flatMap_eq_nil_iff.2 fun j hj => elemEdges_here ?_ _
    refine hwrites (fTd r 7, downIx x r m j) ?_
    unfold downWrites
    rw [if_pos h]
    exact List.mem_flatMap.2 ⟨m, hm, List.mem_map_of_mem hj⟩
  next => rfl

/-! ### Which tensors the lines name -/

section
variable {bx : List Nat} {p : TDesc × List Nat}

theorem aLine_td {m : Nat} (h : some p ∈ aLine x r bx m) : p.1 = fTd r 0 ∨ (p.1 = fTd r 4 ∧ fNOut x ≠ 0) := by
  unfold aLine at h
  dsimp only at h
  split at h
  · obtain ⟨b, _, h⟩ := List.mem_flatMap.1 h
    obtain ⟨k, _, h⟩ := List.mem_map.1 h
    split at h
    next hj =>
      obtain rfl := Option.some.inj h
      exact .inr ⟨rfl, fun h0 => by rw [if_pos h0] at hj; cases hj⟩
    next => obtain rfl := Option.some.inj h; exact .inl rfl
  · obtain ⟨k, _, h⟩ := List.mem_map.1 h
    split at h
    · cases h
    · obtain rfl := Option.some.inj h; exact .inl rfl

theorem bLine_td {n : Nat} (h : some p ∈ bLine x r bx n) :
    (p.1 = fTd r 1 ∧ dOpcode x ≠ 4) ∨ (p.1 = fTd r 4 ∧ fNOut x ≠ 0) ∨ (p.1 = fTd r 5 ∧ dOpcode x = 4) := by
  unfold bLine at h
  dsimp only at h
  split at h
  next hop =>
    obtain ⟨k, _, h⟩ := List.mem_map.1 h
    split at h
    next hj =>
      obtain rfl := Option.some.inj h
      exact .inr (.inl ⟨rfl, fun h0 => by rw [if_pos h0] at hj; cases hj⟩)
    next => obtain rfl := Option.some.inj h; exact .inl ⟨rfl, by omega⟩
  next hop =>
    obtain ⟨b, _, h⟩ := List.mem_flatMap.1 h
    obtain ⟨k, _, h⟩ := List.mem_map.1 h
    obtain rfl := Option.some.inj h
    exact .inl ⟨rfl, by omega⟩
  next hop =>
    obtain ⟨k, _, h⟩ := List.mem_map.1 h
    obtain rfl := Option.some.inj h
    exact .inr (.inr ⟨rfl, hop⟩)
  next h4 =>
    obtain ⟨k, _, h⟩ := List.mem_map.1 h
    split at h
    · cases h
    · obtain rfl := Option.some.inj h; exact .inl ⟨rfl, h4⟩

theorem outA_td {m : Nat} (h : some p ∈ outA x r bx m) : p.1 = fTd r 4 ∨ p.1 = fTd r 0 := by
  obtain ⟨j, _, h⟩ := List.mem_map.1 h
  split at h <;> obtain rfl := Option.some.inj h
  · exact .inl rfl
  · exact .inr rfl

theorem outB_td {n : Nat} (h : some p ∈ outB x r bx n) : p.1 = fTd r 1 ∨ p.1 = fTd r 4 := by
  obtain ⟨j, _, h⟩ := List.mem_map.1 h
  split at h <;> obtain rfl := Option.some.inj h
  · exact .inl rfl
  · exact .inr rfl

theorem upLine_td {n : Nat} (h : some p ∈ upLine x r bx n) : p.1 = fTd r 5 ∨ p.1 = fTd r 6 := by
  obtain ⟨j, _, h⟩ := List.mem_map.1 h
  split at h <;> obtain rfl := Option.some.inj h
  · exact .inl rfl
  · exact .inr rfl

theorem downLine_td {j : Nat} (h : some p ∈ downLine x r bx j) : p.1 = fTd r 6 ∨ p.1 = fTd r 5 := by
  obtain ⟨k, _, h⟩ := List.mem_map.1 h
  split at h <;> obtain rfl := Option.some.inj h
  · exact .inl rfl
  · exact .inr rfl

end

/-! ### Tensors of this device -/

section
variable (h : Local d (fTdOfs x) r.tds)
include h

theorem Local.a : (tDev (fTd r 0)).toNat = selfId d := h 0 _ rfl
theorem Local.b (h4 : dOpcode x ≠ 4) : (tDev (fTd r 1)).toNat = selfId d := h 1 (fld x 191 160) (by simp [fTdOfs, h4])
theorem Local.c : (tDev (fTd r 2)).toNat = selfId d := h 2 _ rfl
theorem Local.init (h0 : fInit x = true) : (tDev (fTd r 3)).toNat = selfId d := h 3 (fld x 255 224) (by simp [fTdOfs, h0])
theorem Local.out (h0 : fNOut x ≠ 0) : (tDev (fTd r 4)).toNat = selfId d := h 4 (fld x 287 256) (by simp [fTdOfs, h0])
theorem Local.la (h0 : fRank x ≠ 0) : (tDev (fTd r 5)).toNat = selfId d := h 5 (fld x 351 320) (by simp [fTdOfs, h0])
theorem Local.lb (h0 : fRank x ≠ 0) (h4 : dOpcode x ≠ 4) : (tDev (fTd r 6)).toNat = selfId d :=
  h 6 (fld x 383 352) (by simp [fTdOfs, h0, h4])
theorem Local.dp (h0 : fPstore x = true) : (tDev (fTd r 7)).toNat = selfId d := h 7 (fld x 519 488) (by simp [fTdOfs, h0])
theorem Local.epi (h0 : fEpi x ≠ 0) : (tDev (fTd r 9)).toNat = selfId d := h 9 (fld x 583 552) (by simp [fTdOfs, h0])
theorem Local.epiRow (h0 : fEpi x = 2 ∨ fEpi x = 3) : (tDev (fTd r 10)).toNat = selfId d :=
  h 10 (fld x 615 584) (by simp [fTdOfs, h0])
theorem Local.epiCol (h0 : fEpi x = 2 ∨ fEpi x = 3) : (tDev (fTd r 11)).toNat = selfId d :=
  h 11 (fld x 647 616) (by simp [fTdOfs, h0])

end

theorem fEpi_le (h : fReservedOk x = true) : fEpi x ≤ 3 := by
  unfold fEpi
  split
  next hop =>
    unfold fReservedOk at h
    simp only [hop, Bool.and_eq_true, Bool.or_eq_true, decide_eq_true_eq] at h
    omega
  · omega

/-- An ADAPTER_DOWN that has passes has adapter columns. -/
theorem fRank_ne (hop : dOpcode x = 4) (h : r.work.step < fPasses x r) : fRank x ≠ 0 := by
  have hn := lt_ceilDiv (by decide) (fPassAt_lt h).2
  have hs : (fShape x r).n = fRank x := by
    unfold fShape
    simp only [hop]
  omega

section
variable (h : Local d (fTdOfs x) r.tds)
include h

theorem Local.tileWrites_here : AllHere d (tileWrites x r) := by
  intro p hp
  unfold tileWrites at hp
  split at hp
  · obtain ⟨m, _, hp⟩ := List.mem_flatMap.1 hp
    obtain ⟨n, _, rfl⟩ := List.mem_map.1 hp
    exact h.c
  · cases hp

theorem Local.downWrites_here : AllHere d (downWrites x r) := by
  intro p hp
  unfold downWrites at hp
  split at hp
  next h0 =>
    obtain ⟨m, _, hp⟩ := List.mem_flatMap.1 hp
    obtain ⟨n, _, rfl⟩ := List.mem_map.1 hp
    exact h.dp h0
  · cases hp

theorem Local.aLine_here {bx : List Nat} {m : Nat} {p : TDesc × List Nat} (hp : some p ∈ aLine x r bx m) : (tDev p.1).toNat = selfId d := by
  rcases aLine_td hp with h0 | ⟨h0, hout⟩ <;> rw [h0]
  · exact h.a
  · exact h.out hout

theorem Local.downReads_here (hrank : fRank x ≠ 0) (hop : dOpcode x ≠ 4) : AllHere d (downReads x r) := by
  intro p hp
  unfold downReads at hp
  simp only [List.mem_filterMap, List.mem_flatten, List.mem_append, List.mem_map, id_eq, exists_eq_right] at hp
  obtain ⟨l, ⟨m, _, rfl⟩ | ⟨j, _, rfl⟩, hp⟩ := hp
  · exact h.aLine_here hp
  · rcases downLine_td hp with h0 | h0 <;> rw [h0]
    · exact h.lb hrank hop
    · exact h.la hrank

theorem Local.tileReads_here (hres : fReservedOk x = true) (hstep : r.work.step < fPasses x r) : AllHere d (tileReads x r) := by
  have hepi := fEpi_le hres
  rw [tileReads_eq]
  unfold AllHere
  simp only [List.forall_mem_append, List.forall_mem_map]
  refine ⟨⟨⟨fun p hp => ?_, fun ix hix => ?_⟩, fun ix hix => ?_⟩, fun ix hix => ?_, fun ix hix => ?_⟩
  · unfold tileA tileB tileOA tileOB tileU at hp
    simp only [List.mem_filterMap, List.mem_flatten, List.mem_append, id_eq, exists_eq_right, ← Bool.decide_and, decide_eq_true_eq] at hp
    obtain ⟨l, (((hl | hl) | hl) | hl) | hl, hp⟩ := hp
    · obtain ⟨m, _, rfl⟩ := List.mem_map.1 hl
      exact h.aLine_here hp
    · obtain ⟨n, _, rfl⟩ := List.mem_map.1 hl
      rcases bLine_td hp with ⟨h0, h4⟩ | ⟨h0, hout⟩ | ⟨h0, h4⟩ <;> rw [h0]
      · exact h.b h4
      · exact h.out hout
      · exact h.la (fRank_ne h4 hstep)
    · split at hl
      next hout =>
        obtain ⟨m, _, rfl⟩ := List.mem_map.1 hl
        rcases outA_td hp with h0 | h0 <;> rw [h0]
        · exact h.out hout.2
        · exact h.a
      · cases hl
    · split at hl
      next hout =>
        obtain ⟨n, _, rfl⟩ := List.mem_map.1 hl
        rcases outB_td hp with h0 | h0 <;> rw [h0]
        · exact h.b (by omega)
        · exact h.out hout.2
      · cases hl
    · split at hl
      next hup =>
        obtain ⟨n, _, rfl⟩ := List.mem_map.1 hl
        rcases upLine_td hp with h0 | h0 <;> rw [h0]
        · exact h.la hup.1
        · exact h.lb hup.1 hup.2
      · cases hl
  · unfold tileInit at hix
    split at hix
    next h0 => exact h.init h0
    · cases hix
  · unfold tileE at hix
    split at hix
    next h0 => exact h.epi h0
    · cases hix
  · unfold tileR at hix
    split at hix
    next h0 => exact h.epiRow (by omega)
    · cases hix
  · unfold tileG at hix
    split at hix
    next h0 => exact h.epiCol (by omega)
    · cases hix

end

end

end Sys2Proof.Machine
end

section
/-! The end of a pass of the Fuller: an operand error, the next adapter columns, or the next output tile (R90, R103 to R110). -/

namespace Sys2Proof.Machine

/-! ### What a pass touches -/

/-- Of other tiles the cycle counters alone change, and of the engines of its own tile the Fuller alone. -/
structure PassFrame (t : Nat) (d d' : Dev) : Prop where
  others : ∀ u, u ≠ t → tileOf d' u = { tileOf d u with cyc := (tileOf d' u).cyc }
  engines : ∀ f, f ≠ .fuller → engineOf d' t f = engineOf d t f

section
variable {t : Nat} {d d' d'' : Dev}

theorem PassFrame.trans (h : PassFrame t d d') (h' : PassFrame t d' d'') : PassFrame t d d'' :=
  ⟨fun u hu => by rw [h'.others u hu, h.others u hu], fun f hf => (h'.engines f hf).trans (h.engines f hf)⟩

theorem Quiet.pass (h : Quiet d d') : PassFrame t d d' := ⟨fun u _ => h.tile u, fun f _ => h.engineOf t f⟩
theorem RunAlone.pass (h : RunAlone t .fuller d d') : PassFrame t d d' := ⟨fun u hu => by rw [h.others u hu], h.engines⟩

theorem PassFrame.of_onTile {f : Tile → Tile} (h : (f (tileOf d t)).engines = (tileOf d t).engines) : PassFrame t d (onTile d t f) :=
  ⟨fun _ hu => by rw [tileOf_onTile_ne _ _ hu], fun e _ => engineOf_onTile h e⟩

theorem fullerFail_pass (d : Dev) (t : Nat) (c : Code) (p : Nat) : PassFrame t d (fullerFail d t c p) :=
  PassFrame.trans (.of_onTile (by rfl)) (RunAlone.of_endRun ..).pass

theorem tilePlaced_pass (d : Dev) (t : Nat) (o : OutTile) : PassFrame t d (tilePlaced d t o) := by
  unfold tilePlaced
  split <;> exact .of_onTile (by rfl)

theorem runOf_tilePlaced (d : Dev) (t : Nat) (o : OutTile) (e : EngineId) : runOf (tilePlaced d t o) t e = runOf d t e := by
  unfold tilePlaced
  split <;> exact runOf_onTile (by rfl) e

end

/-! ### How an operation stands after a pass -/

section
variable {d : Dev} {t : Nat} {r : RunOp} (hrun : runOf d t .fuller = some r)
include hrun

theorem fullerDone_ended (h : r.ended ≠ none) : fullerDone d t = d := by
  unfold fullerDone
  rw [hrun]
  exact if_neg fun hall => h hall.2.1

/-- A pass has ended its operation PARTIAL. -/
def Stopped (d : Dev) (t : Nat) (r : RunOp) : Prop :=
  ∃ c m, runOf d t .fuller = some { r with ended := some ⟨.inPart, c⟩, marker := m }

theorem stopped_endRun (hend : r.ended = none) (c : Code) (m : Nat) : Stopped (partRun d t .fuller c m) t r :=
  ⟨c, m, runOf_endRun hrun hend ..⟩

theorem stopped_fail (hend : r.ended = none) (c : Code) (p : Nat) : Stopped (fullerFail d t c p) t r :=
  stopped_endRun ((runOf_onTile (by rfl) _).trans hrun) hend c _

/-- A last tile ends its operation, DONE or PARTIAL by what it noted. -/
theorem fullerDone_run (hend : r.ended = none) (hgone : r.gone = none) : ∃ r', runOf (fullerDone d t) t .fuller = some r' ∧
    r'.q = r.q ∧ r'.tds = r.tds ∧ r'.work = r.work ∧ (r'.ended = none ∨ (∃ c, r'.ended = some ⟨.inPart, c⟩) ∨
      (r'.ended = some ⟨.done, 0⟩ ∧ r'.marker = fPasses r.q.desc r ∧ r.work.step = fPasses r.q.desc r)) := by
  unfold fullerDone
  rw [hrun]
  dsimp only
  split
  next h =>
    rw [hgone]
    split
    next hm => cases hm
    next => exact ⟨_, runOf_endRun hrun hend .., rfl, rfl, rfl, .inr (.inl ⟨_, rfl⟩)⟩
    next => exact ⟨_, runOf_endRun hrun hend .., rfl, rfl, rfl, .inr (.inr ⟨rfl, rfl, h.2.2.1⟩)⟩
  next => exact ⟨r, hrun, rfl, rfl, rfl, .inl hend⟩

end

/-! ### What a pass stores -/

theorem writeList_here (t : Nat) (e : EngineId) (r : RunOp) {td : TDesc} {d : Dev} (n : Nat) (l : List (List Nat × Nat))
    (h : ∀ p ∈ l, (tDev td).toNat = selfId d) : Quiet d (writeList t e r td d n l).1 := by
  cases l with
  | nil => exact .refl d
  | cons p l => exact writeList_quiet t e r n (p :: l) (h p List.mem_cons_self)

/-- Rows and columns of values stand at the places of rows and columns. -/
theorem mem_zip_grid {α β : Type} {f : Nat → Nat → β → α} {rows cols : List Nat} {g : List (List β)} {y : α}
    (h : y ∈ (List.zip rows g).flatMap fun q => (List.zip cols q.2).map fun e => f q.1 e.1 e.2) :
    ∃ m ∈ rows, ∃ n ∈ cols, ∃ v, y = f m n v := by
  obtain ⟨⟨m, l⟩, hm, h⟩ := List.mem_flatMap.1 h
  obtain ⟨⟨n, v⟩, hn, rfl⟩ := List.mem_map.1 h
  exact ⟨m, (List.of_mem_zip hm).1, n, (List.of_mem_zip hn).1, v, rfl⟩

section
variable {x : BitVec 1024} {r : RunOp}

theorem downFormed_mem {new : List (List (B16 × Cls))} {e : List Nat × Nat} (hp : fPstore x = true) (h : e ∈ downFormed x r new) :
    (fTd r 7, e.1) ∈ downWrites x r := by
  obtain ⟨m, hm, j, hj, v, rfl⟩ := mem_zip_grid (f := fun m j (v : B16 × Cls) => (downIx x r m j, v.1.toNat)) h
  unfold downWrites
  rw [if_pos hp]
  exact List.mem_flatMap.2 ⟨m, hm, List.mem_map_of_mem hj⟩

theorem tileFormed_mem {g : List (List F32)} {e : List Nat × Nat × Cls} (hm : fOutMode x = 0) (h : e ∈ tileFormed x r g) :
    (fTd r 2, e.1) ∈ tileWrites x r := by
  obtain ⟨c, hc, rfl⟩ := List.mem_map.1 h
  obtain ⟨m, hrow, n, hcol, v, rfl⟩ := mem_zip_grid (f := fun m n (v : F32) => (tileIx x r m n, v)) hc
  unfold tileWrites
  rw [if_pos hm]
  exact List.mem_flatMap.2 ⟨m, hrow, List.mem_map_of_mem hcol⟩

end

/-! ### The two kinds of pass -/

section
variable {d : Dev} {t : Nat} {r : RunOp} (px : Polder) (hrun : runOf d t .fuller = some r) (hend : r.ended = none) (hbad : r.bad = none)
include hrun hend hbad

/-- A down pass stops its operation, or its columns stand in the adapter buffer. -/
theorem fullerDown_cases (hreads : AllHere d (downReads r.q.desc r)) (hwrites : AllHere d (downWrites r.q.desc r)) :
    PassFrame t d (fullerDown d t r px) ∧ (Stopped (fullerDown d t r px) t r ∨ ∃ d1 buf tg cls note, Quiet d d1 ∧
      fullerDown d t r px = onRun d1 t .fuller (downNext buf tg cls note (decide ((tileOf d1 t).banks ≠ [])))) := by
  rw [fullerDown_eq t px hbad (downRngs_here hreads hwrites)]
  have hfetch := downFetch_quiet d t r px
  have hfail {d1 : Dev} (hq : Quiet d d1) (code : Code) :
      PassFrame t d (fullerFail d1 t code r.work.step) ∧ Stopped (fullerFail d1 t code r.work.step) t r :=
    ⟨hq.pass.trans (fullerFail_pass ..), stopped_fail ((hq.runOf t .fuller).trans hrun) hend ..⟩
  split
  next code _ => exact ⟨(hfail hfetch code).1, .inl (hfail hfetch code).2⟩
  next =>
    unfold downDrain
    generalize (downFetch d t r px).1 = ctx at hfetch
    extract_lets x new d1
    have h1 : Quiet d d1 := hfetch.trans (.of_onlyMem (stepsCounted_onlyMem ..))
    split
    next d2 st hw =>
    have h2 : Quiet d d2 := by
      split at hw
      next hp =>
        have hquiet := writeList_here t .fuller r (td := fTd r 7) (d := d1) 0 (downFormed x r new) fun e he =>
          (hwrites _ (downFormed_mem hp he)).trans h1.selfId.symm
        rw [hw] at hquiet
        exact h1.trans hquiet
      next => cases hw; exact h1
    split
    next code _ => exact ⟨(hfail h2 code).1, .inl (hfail h2 code).2⟩
    next => exact ⟨h2.pass.trans (RunAlone.of_onRun ..).pass, .inr ⟨d2, _, _, _, _, h2, rfl⟩⟩

/-- The pass of an output tile stops its operation, or its tile is stored, or leaves for the hand-off queue. -/
theorem fullerPass_cases (hgone : r.gone = none) (hrows : nowRows r.q.desc r ≠ []) (hcols : nowCols r.q.desc r ≠ [])
    (hreads : AllHere d (tileReads r.q.desc r)) (hwrites : AllHere d (tileWrites r.q.desc r)) :
    PassFrame t d (fullerPass d t r px) ∧ (Stopped (fullerPass d t r px) t r ∨ ∃ d1 cn note, Quiet d d1 ∧
      if fOutMode r.q.desc = 0 then fullerPass d t r px = onRun d1 t .fuller (tileNext r.work.step cn note)
      else ∃ g, fullerPass d t r px = tilePlaced (onRun d1 t .fuller (tileNext r.work.step cn note)) t (tileOut r.q.desc r g)) := by
  rw [fullerPass_eq t px hbad (tileRngs_here hrows hcols hreads hwrites)]
  have hfetch := tileFetch_quiet d t r px
  split
  next code _ => exact ⟨hfetch.pass.trans (fullerFail_pass ..), .inl (stopped_fail ((hfetch.runOf t .fuller).trans hrun) hend ..)⟩
  next =>
    unfold tileDrain
    generalize (tileFetch d t r px).1 = ctx at hfetch
    generalize (tileFetch d t r px).2 = v
    extract_lets x tg cn d1 l d2
    have h1 : Quiet d d1 := hfetch.trans (.of_onlyMem (stepsCounted_onlyMem ..))
    split
    next hm =>
      have hquiet := writeList_here t .fuller r (td := fTd r 2) (d := d1) 0 (l.map fun e => (e.1, e.2.1)) fun p hp => by
        obtain ⟨e, he, rfl⟩ := List.mem_map.1 hp
        exact (hwrites _ (tileFormed_mem hm he)).trans h1.selfId.symm
      split
      next code _ hw =>
        rw [hw] at hquiet
        exact ⟨(h1.trans hquiet).pass.trans (RunAlone.of_endRun ..).pass,
          .inl (stopped_endRun (((h1.trans hquiet).runOf t .fuller).trans hrun) hend ..)⟩
      next hw =>
        rw [hw] at hquiet
        exact ⟨(h1.trans hquiet).pass.trans (RunAlone.of_onRun ..).pass, .inr ⟨_, _, _, h1.trans hquiet, rfl⟩⟩
    next hm =>
      rw [if_neg (by rw [hgone]; decide)]
      exact ⟨(h1.pass.trans (RunAlone.of_onRun ..).pass).trans (tilePlaced_pass ..), .inr ⟨d1, _, _, h1, _, rfl⟩⟩

end

/-- The pass that comes next, for an operation that runs and is not held. -/
theorem fullerPassEnd_eq {d : Dev} {t : Nat} {r : RunOp} {px : Polder} (hrun : runOf d t .fuller = some r) (hbeg : r.begun = true)
    (hend : r.ended = none) (hpol : polderOf d (runPolder d t r) = some px) (hstep : r.work.step < fPasses r.q.desc r)
    (hheld : banksHeld d t r = false) :
    fullerPassEnd d t = if downDue r.q.desc r then fullerDown d t r px else fullerDone (fullerPass d t r px) t := by
  unfold fullerPassEnd
  rw [hrun]
  refine (if_neg ?_).trans ?_
  · simp only [hbeg, hend, hheld, Bool.not_true, Bool.false_eq_true, ne_eq, not_true_eq_false, false_or, or_false]
    omega
  · simp only [hpol]

end Sys2Proof.Machine
end

section
/-! The outcomes of FULLER_PASS_END (R90, R91, R103 to R106, R110). -/

namespace Sys2Proof.Machine

theorem ofNat_fld_toNat {n : Nat} (x : BitVec n) (hi lo : Nat) : (BitVec.ofNat (hi + 1 - lo) (fld x hi lo)).toNat = fld x hi lo := by
  rw [fld_eq_extractLsb', BitVec.toNat_ofNat, Nat.mod_eq_of_lt (BitVec.isLt _)]

theorem tileOut_cons (x : BitVec 1024) (r : RunOp) (g : List (List F32)) : (tileOut x r g).cons.toNat = fld x 463 448 :=
  ofNat_fld_toNat x 463 448
theorem tileOut_gen (x : BitVec 1024) (r : RunOp) (g : List (List F32)) : (tileOut x r g).gen.toNat = fld x 479 464 :=
  ofNat_fld_toNat x 479 464

section
variable {d d1 : Dev} {t : Nat} {r : RunOp} {cn : Counts} {note : Option (Code × Nat)} (hq : Quiet d d1)
include hq

theorem Quiet.banks (t : Nat) : (tileOf d1 t).banks = (tileOf d t).banks := by rw [hq.tile]
theorem Quiet.handoff (t : Nat) : (tileOf d1 t).handoff = (tileOf d t).handoff := by rw [hq.tile]

/-- Progress of a run leaves queue and banks. -/
theorem Quiet.banks_onRun (e : EngineId) (f : RunOp → RunOp) : (tileOf (onRun d1 t e f) t).banks = (tileOf d t).banks := by
  rw [(RunAlone.of_onRun d1 t e f).tile]
  exact hq.banks t
theorem Quiet.handoff_onRun (e : EngineId) (f : RunOp → RunOp) : (tileOf (onRun d1 t e f) t).handoff = (tileOf d t).handoff := by
  rw [(RunAlone.of_onRun d1 t e f).tile]
  exact hq.handoff t

/-- A tile leaves through the queue, or waits in a bank (R106). -/
theorem Quiet.placed (o : OutTile) (f : RunOp → RunOp) : let d' := fullerDone (tilePlaced (onRun d1 t .fuller f) t o) t
    if (tileOf d t).banks = [] ∧ (tileOf d t).handoff.length < 16 then
      (tileOf d' t).handoff = (tileOf d t).handoff ++ [o] ∧ (tileOf d' t).banks = []
    else (tileOf d' t).banks = (tileOf d t).banks ++ [o] ∧ (tileOf d' t).handoff = (tileOf d t).handoff := by
  dsimp only
  have hdone := (fullerDone_alone (tilePlaced (onRun d1 t .fuller f) t o) t).tile
  have hb := hq.banks_onRun (t := t) .fuller f
  have hh := hq.handoff_onRun (t := t) .fuller f
  unfold tilePlaced at hdone ⊢
  rw [hb, hh] at hdone ⊢
  split
  next h =>
    rw [if_pos h, tileOf_onTile] at hdone
    rw [hdone]
    exact ⟨congrArg (· ++ [o]) hh, hb.trans h.1⟩
  next h =>
    rw [if_neg h, tileOf_onTile] at hdone
    rw [hdone]
    exact ⟨congrArg (· ++ [o]) hb, hh⟩

end

/-- What a pass that is not stopped leaves: its columns in the adapter buffer, or its tile in memory, in the queue or in a bank. -/
def PassDone (d d' : Dev) (t : Nat) (r r' : RunOp) : Prop :=
  (downDue r.q.desc r = true ∧ r'.work.step = r.work.step ∧ r'.work.down = r.work.down + 1 ∧ r'.ended = none ∧
    r'.work.stall = decide ((tileOf d t).banks ≠ []) ∧ (tileOf d' t).banks = (tileOf d t).banks ∧
    (tileOf d' t).handoff = (tileOf d t).handoff) ∨
  (downDue r.q.desc r = false ∧ r'.work.step = r.work.step + 1 ∧ r'.work.down = 0 ∧
    (r'.ended = none ∨ (r'.ended = some ⟨.done, 0⟩ ∧ r'.marker = fPasses r.q.desc r ∧ r'.work.step = fPasses r.q.desc r)) ∧
    (fOutMode r.q.desc = 0 → (tileOf d' t).banks = (tileOf d t).banks ∧ (tileOf d' t).handoff = (tileOf d t).handoff) ∧
    (fOutMode r.q.desc = 1 → ∃ o : OutTile,
      o.cons.toNat = fld r.q.desc 463 448 ∧ o.gen.toNat = fld r.q.desc 479 464 ∧
      (o.batch, o.mt, o.nt) = fPassAt r.q.desc r r.work.step ∧ o.last = decide (r.work.step + 1 = fPasses r.q.desc r) ∧
      if (tileOf d t).banks = [] ∧ (tileOf d t).handoff.length < 16 then
        (tileOf d' t).handoff = (tileOf d t).handoff ++ [o] ∧ (tileOf d' t).banks = []
      else (tileOf d' t).banks = (tileOf d t).banks ++ [o] ∧ (tileOf d' t).handoff = (tileOf d t).handoff))

section
variable {d : Dev} {t : Nat} {r : RunOp} {px : Polder} (hrun : runOf d t .fuller = some r) (hbeg : r.begun = true) (hend : r.ended = none)
  (hbad : r.bad = none) (hgone : r.gone = none) (hres : fReservedOk r.q.desc = true) (hlocal : Local d (fTdOfs r.q.desc) r.tds)
  (hpol : polderOf d (runPolder d t r) = some px) (hstep : r.work.step < fPasses r.q.desc r) (hheld : banksHeld d t r = false)
include hrun hbeg hend hbad hgone hres hlocal hpol hstep hheld

theorem fullerPassEnd_outcome : PassFrame t d (fullerPassEnd d t) ∧ ∃ r', runOf (fullerPassEnd d t) t .fuller = some r' ∧ r'.q = r.q ∧
    r'.tds = r.tds ∧ ((∃ c, r'.ended = some ⟨.inPart, c⟩) ∨ PassDone d (fullerPassEnd d t) t r r') := by
  rw [fullerPassEnd_eq hrun hbeg hend hpol hstep hheld]
  split
  next hdue =>
    have hrank : fRank r.q.desc ≠ 0 ∧ dOpcode r.q.desc ≠ 4 := by
      unfold downDue at hdue
      simp only [Bool.and_eq_true, decide_eq_true_eq] at hdue
      exact hdue.1.1
    obtain ⟨hframe, ⟨c, m, hstop⟩ | ⟨d1, buf, tg, cls, note, hq, heq⟩⟩ :=
      fullerDown_cases px hrun hend hbad (hlocal.downReads_here hrank.1 hrank.2) hlocal.downWrites_here
    · exact ⟨hframe, _, hstop, rfl, rfl, .inl ⟨c, rfl⟩⟩
    · have hnext : runOf (fullerDown d t r px) t .fuller = some (downNext buf tg cls note (decide ((tileOf d1 t).banks ≠ [])) r) := by
        rw [heq, runOf_onRun, hq.runOf, hrun, Option.map_some]
      refine ⟨hframe, _, hnext, rfl, rfl, .inr (.inl ⟨hdue, rfl, rfl, hend, ?_, ?_, ?_⟩)⟩
      · rw [← hq.banks t]
        rfl
      · rw [heq, hq.banks_onRun]
      · rw [heq, hq.handoff_onRun]
  next hdue =>
    obtain ⟨hframe, ⟨c, m, hstop⟩ | ⟨d1, cn, note, hq, heq⟩⟩ := fullerPass_cases px hrun hend hbad hgone (nowRows_ne hstep) (nowCols_ne hstep)
      (hlocal.tileReads_here hres hstep) hlocal.tileWrites_here
    · rw [fullerDone_ended hstop (by simp)]
      exact ⟨hframe, _, hstop, rfl, rfl, .inl ⟨c, rfl⟩⟩
    · have hnext : runOf (onRun d1 t .fuller (tileNext r.work.step cn note)) t .fuller = some (tileNext r.work.step cn note r) := by
        rw [runOf_onRun, hq.runOf, hrun, Option.map_some]
      have hpass : runOf (fullerPass d t r px) t .fuller = some (tileNext r.work.step cn note r) := by
        split at heq
        · rw [heq, hnext]
        · obtain ⟨g, heq⟩ := heq
          rw [heq, runOf_tilePlaced, hnext]
      obtain ⟨r', hrun', hq', htds, hwork, hended⟩ := fullerDone_run hpass hend hgone
      refine ⟨hframe.trans (fullerDone_alone ..).pass, r', hrun', hq', htds, ?_⟩
      have hfin (h : r'.ended = none ∨ (r'.ended = some ⟨.done, 0⟩ ∧ r'.marker = fPasses r.q.desc r ∧ r.work.step + 1 = fPasses r.q.desc r)) :
          PassDone d (fullerDone (fullerPass d t r px) t) t r r' := by
        refine .inr ⟨Bool.not_eq_true _ ▸ hdue, by rw [hwork]; rfl, by rw [hwork]; rfl, h.imp_right fun h => ⟨h.1, h.2.1, ?_⟩, fun hm => ?_, fun hm => ?_⟩
        · rw [hwork]
          exact h.2.2
        · rw [if_pos hm] at heq
          rw [(fullerDone_alone ..).tile, heq]
          exact ⟨hq.banks_onRun .., hq.handoff_onRun ..⟩
        · rw [if_neg (by rw [hm]; decide)] at heq
          obtain ⟨g, heq⟩ := heq
          rw [heq]
          exact ⟨_, tileOut_cons .., tileOut_gen .., rfl, rfl, hq.placed (tileOut r.q.desc r g) _⟩
      rcases hended with h0 | h0 | h0
      · exact .inr (hfin (.inl h0))
      · exact .inl h0
      · exact .inr (hfin (.inr h0))

end

end Sys2Proof.Machine
end

section
/-! Lists of rows: cut, joined, and looked up. -/

namespace Sys2Proof.Machine

/-! ### Rows of one length -/

/-- The first entry of a key, where all entries of that key agree. -/
theorem find?_key {α β : Type} [DecidableEq α] {l : List (α × β)} {a : α} {b : β} (hmem : (a, b) ∈ l)
    (h : ∀ p ∈ l, p.1 = a → p.2 = b) : l.find? (fun p => p.1 = a) = some (a, b) := by
  cases hf : l.find? fun p => p.1 = a with
  | none => exact absurd (List.find?_eq_none.1 hf _ hmem) (by simp)
  | some p =>
    have hkey : p.1 = a := by simpa using List.find?_some hf
    rw [← h p (List.mem_of_find?_eq_some hf) hkey, ← hkey]

theorem getElem?_flatten {α : Type} {w : Nat} {l : List (List α)} (hl : ∀ x ∈ l, x.length = w) {j : Nat} (hj : j < w) (i : Nat) :
    l.flatten[w * i + j]? = l[i]?.bind (·[j]?) := by
  induction l generalizing i with
  | nil => simp
  | cons x l ih =>
    obtain ⟨hx, hl⟩ := List.forall_mem_cons.1 hl
    rw [List.flatten_cons]
    cases i with
    | zero => rw [List.getElem?_append_left (by omega)]; simp
    | succ i =>
      rw [List.getElem?_append_right (by rw [hx, Nat.mul_succ]; omega), show w * (i + 1) + j - x.length = w * i + j by rw [hx, Nat.mul_succ]; omega, ih hl]
      rfl

/-- Rows joined and cut again. -/
theorem cut_flatten {α : Type} {w : Nat} {l : List (List α)} (hl : ∀ x ∈ l, x.length = w) :
    (List.range l.length).map (fun i => (l.flatten.drop (i * w)).take w) = l := by
  induction l with
  | nil => rfl
  | cons x l ih =>
    obtain ⟨hx, hl⟩ := List.forall_mem_cons.1 hl
    rw [List.length_cons, List.range_succ_eq_map, List.map_cons, List.map_map, List.flatten_cons]
    congr 1
    · rw [Nat.zero_mul, List.drop_zero, ← hx, List.take_left]
    · refine (List.map_congr_left fun i _ => ?_).trans (ih hl)
      rw [Function.comp_apply, Nat.succ_mul, Nat.add_comm, ← List.drop_drop, ← hx, List.drop_left]

theorem chunksOf_flatten {α : Type} {w n : Nat} {l : List (List α)} (hw : 0 < w) (hl : ∀ x ∈ l, x.length = w) (hn : l.length ≤ n) :
    chunksOf w n l.flatten = l := by
  induction l generalizing n with
  | nil => exact chunksOf_nil ..
  | cons x l ih =>
    obtain ⟨hx, hl⟩ := List.forall_mem_cons.1 hl
    cases n with
    | zero => simp at hn
    | succ n =>
      have hne : ¬ (x ++ l.flatten).isEmpty = true := by
        rw [List.isEmpty_iff, List.append_eq_nil_iff, ← List.length_eq_zero_iff]
        omega
      rw [List.flatten_cons, chunksOf, if_neg hne, ← hx, List.take_left, List.drop_left]
      subst hx
      rw [ih hl (by simpa using hn)]

theorem chunksOf_eq {α : Type} {w n k : Nat} {l : List α} (hw : 0 < w) (hl : l.length = k * w) (hn : k ≤ n) :
    chunksOf w n l = (List.range k).map fun i => (l.drop (i * w)).take w := by
  induction k generalizing n l with
  | zero =>
    rw [Nat.zero_mul, List.length_eq_zero_iff] at hl
    rw [hl]
    exact chunksOf_nil ..
  | succ k ih =>
    cases n with
    | zero => omega
    | succ n =>
      rw [Nat.succ_mul] at hl
      have hne : ¬ l.isEmpty = true := by
        rw [List.isEmpty_iff, ← List.length_eq_zero_iff]
        omega
      rw [chunksOf, if_neg hne, ih (by rw [List.length_drop]; omega) (by omega), List.range_succ_eq_map, List.map_cons, List.map_map]
      congr 1
      · rw [Nat.zero_mul, List.drop_zero]
      · refine List.map_congr_left fun i _ => ?_
        rw [Function.comp_apply, List.drop_drop, Nat.succ_mul, Nat.add_comm]

/-! ### Grids -/

/-- Values of rows and columns, one list for each row. -/
def gridOf {α β : Type} (rows : List α) (cols : List Nat) (f : α → Nat → β) : List (List β) := rows.map fun i => cols.map (f i)

section
variable {α β : Type} {rows : List α} {cols : List Nat}

theorem gridOf_length {f : α → Nat → β} {l : List β} (h : l ∈ gridOf rows cols f) : l.length = cols.length := by
  obtain ⟨i, _, rfl⟩ := List.mem_map.1 h
  exact List.length_map ..

theorem zip_map_self {γ : Type} (l : List α) (f : α → γ) : List.zip l (l.map f) = l.map fun x => (x, f x) := by
  simpa using List.zip_map' (f := id) (g := f) (l := l)

theorem mulRows_gridOf (z : α → Nat → F32) (a : α → List FVal) (b : Nat → List FVal) :
    mulRows (gridOf rows cols z) (rows.map a) (cols.map b) = gridOf rows cols fun i n => addGroups (z i n) (List.zip (a i) (b n)) := by
  unfold mulRows gridOf
  simp only [List.zipWith_map, List.zipWith_self]

theorem sumsOf_gridOf (f : α → Nat → F32 × Nat) : sumsOf (gridOf rows cols f) = gridOf rows cols fun i n => (f i n).1 := by
  unfold sumsOf gridOf
  simp only [List.map_map, Function.comp_def]

theorem gridOf_congr {f g : α → Nat → β} (h : ∀ i ∈ rows, ∀ n ∈ cols, f i n = g i n) : gridOf rows cols f = gridOf rows cols g :=
  List.map_congr_left fun i hi => List.map_congr_left fun n hn => h i hi n hn

end

end Sys2Proof.Machine
end

section
/-! What the Fuller fetches where every element can be read: the values of its lines, and nothing changes (R99, R112). -/

namespace Sys2Proof.Machine

section
variable {d : Dev} (acc : Acc) (r : RunOp) (hecc : d.mem.ecc = [])
include hecc

/-! ### Elements of one tensor -/

theorem fetchGo_input {td : TDesc} {sn : List F32} (F : FFmt) (g : Got) {ixs : List (List Nat)} (h : ∀ ix ∈ ixs, Input d td sn ix) :
    fetchGo acc r td sn F d g ixs = (d, { g with vals := (ixs.map (valAt d acc r td sn F)).reverse ++ g.vals }) := by
  induction ixs generalizing g with
  | nil => rfl
  | cons ix ixs ih =>
    obtain ⟨hix, h⟩ := List.forall_mem_cons.1 h
    unfold fetchGo
    rw [elemAt_input acc r F hecc hix]
    dsimp only
    rw [ih _ h]
    simp

theorem fetchVals_input (t : Nat) (px : Polder) {td : TDesc} {sn : List F32} (F : FFmt) {ixs : List (List Nat)}
    (h : ∀ ix ∈ ixs, Input d td sn ix) :
    fetchVals d acc r t px td sn F ixs = (d, { vals := ixs.map (valAt d acc r td sn F) }) := by
  unfold fetchVals
  cases ixs with
  | nil => split <;> rfl
  | cons ix ixs =>
    rw [if_neg (by rw [(h ix List.mem_cons_self).whole]; exact Bool.false_ne_true), fetchGo_input acc r hecc F {} h]
    simp

variable (t : Nat) (px : Polder)

theorem fetch32_input {c : FCtx} (hd : c.d = d) (hstop : c.stop = none) {td : TDesc} {ixs : List (List Nat)}
    (h : ∀ ix ∈ ixs, Input d td (fSnap r td) ix) :
    fetch32 acc r t px c td ixs = (c, ixs.map fun ix => rne32 (valAt d acc r td (fSnap r td) fp32 ix)) := by
  obtain ⟨d', stop, note⟩ := c
  obtain rfl : d' = d := hd
  obtain rfl : stop = none := hstop
  unfold fetch32
  dsimp only
  rw [fetchVals_input acc r hecc t px fp32 h, List.map_map]
  rfl

/-! ### Lines -/

/-- Every element that some places name can be read. -/
def LineOk (d : Dev) (r : RunOp) (l : List (Option (TDesc × List Nat))) : Prop := ∀ p, some p ∈ l → Input d p.1 (fSnap r p.1) p.2

/-- The index vectors of a tensor in a line. -/
def lineIxs (l : List (Option (TDesc × List Nat))) (td : TDesc) : List (List Nat) :=
  l.filterMap fun e => match e with | some p => if p.1 = td then some p.2 else none | none => none

omit hecc in
theorem mem_lineIxs {l : List (Option (TDesc × List Nat))} {td : TDesc} {ix : List Nat} : ix ∈ lineIxs l td ↔ some (td, ix) ∈ l := by
  unfold lineIxs
  rw [List.mem_filterMap]
  constructor
  · rintro ⟨e, he, h⟩
    split at h
    next p =>
      split at h
      next htd => rw [← htd, ← Option.some.inj h]; exact he
      next => cases h
    next => cases h
  · exact fun h => ⟨_, h, if_pos rfl⟩

/-- The tensors of a line. -/
def lineTds (l : List (Option (TDesc × List Nat))) : List TDesc := (l.filterMap fun e => e.map Prod.fst).dedup

/-- The values of a tensor in a line. -/
def lineTab (d : Dev) (acc : Acc) (r : RunOp) (l : List (Option (TDesc × List Nat))) (td : TDesc) : TDesc × List (List Nat × FVal) :=
  (td, (lineIxs l td).map fun ix => (ix, valAt d acc r td (fSnap r td) bf16 ix))

/-- One tensor of a line fetched. -/
def lineStep (acc : Acc) (r : RunOp) (t : Nat) (px : Polder) (side : Bool) (l : List (Option (TDesc × List Nat)))
    (s : FCtx × List (TDesc × List (List Nat × FVal))) (td : TDesc) : FCtx × List (TDesc × List (List Nat × FVal)) :=
  match s.1.stop with
  | some _ => s
  | none =>
    let (d, g) := fetchVals s.1.d acc r t px td (fSnap r td) bf16 (lineIxs l td)
    let mark (n : Nat) : Nat := n + (if side then 2 ^ 63 else 0)
    let nt := (g.failed.map fun f => (f.1, mark f.2)).or (g.lost.map fun n => ((0x0445 : Code), mark n))
    ({ d := d, stop := g.stop, note := s.1.note.or nt }, (td, List.zip (lineIxs l td) g.vals) :: s.2)

/-- The value at a place of a line. -/
def placeVal (d : Dev) (acc : Acc) (r : RunOp) : Option (TDesc × List Nat) → FVal
  | some p => valAt d acc r p.1 (fSnap r p.1) bf16 p.2
  | none => FVal.zero

omit hecc in
theorem lineVals_eq (l : List (Option (TDesc × List Nat))) : lineVals d acc r l = l.map (placeVal d acc r) :=
  List.map_congr_left fun e _ => by cases e <;> rfl

/-- A place looked up among the fetched values. -/
def lineLook (tab : List (TDesc × List (List Nat × FVal))) : Option (TDesc × List Nat) → FVal
  | none => FVal.zero
  | some (td, ix) =>
    match tab.find? (fun p => p.1 = td) with
    | some (_, vs) => ((vs.find? fun v => v.1 = ix).map Prod.snd).getD .nan
    | none => .nan

omit hecc in
theorem fetchLine_eq (side : Bool) (c : FCtx) (l : List (Option (TDesc × List Nat))) :
    let s := (lineTds l).foldl (lineStep acc r t px side l) (c, [])
    fetchLine acc r t px side c l = (s.1, l.map (lineLook s.2)) := rfl

theorem foldl_lineStep (side : Bool) {c : FCtx} (hd : c.d = d) (hstop : c.stop = none) {l : List (Option (TDesc × List Nat))}
    (h : LineOk d r l) (tds : List TDesc) (tab : List (TDesc × List (List Nat × FVal))) :
    tds.foldl (lineStep acc r t px side l) (c, tab) = (c, (tds.map (lineTab d acc r l)).reverse ++ tab) := by
  obtain ⟨d', stop, note⟩ := c
  obtain rfl : d' = d := hd
  obtain rfl : stop = none := hstop
  induction tds generalizing tab with
  | nil => rfl
  | cons td tds ih =>
    have hstep : lineStep acc r t px side l (⟨d', none, note⟩, tab) td = (⟨d', none, note⟩, lineTab d' acc r l td :: tab) := by
      unfold lineStep
      dsimp only
      rw [fetchVals_input acc r hecc t px bf16 fun ix hix => h (td, ix) (mem_lineIxs.1 hix)]
      simp [lineTab, zip_map_self]
    rw [List.foldl_cons, hstep, ih, List.map_cons, List.reverse_cons, List.append_assoc]
    rfl

omit hecc in
theorem lineLook_eq {l : List (Option (TDesc × List Nat))} {e : Option (TDesc × List Nat)} (he : e ∈ l) :
    lineLook (((lineTds l).map (lineTab d acc r l)).reverse ++ []) e =
      placeVal d acc r e := by
  cases e with
  | none => rfl
  | some p =>
    obtain ⟨td, ix⟩ := p
    have htab : (((lineTds l).map (lineTab d acc r l)).reverse ++ []).find? (fun p => p.1 = td) =
        some (lineTab d acc r l td) := by
      refine find?_key ?_ fun p hp hkey => ?_
      · rw [List.append_nil, List.mem_reverse]
        exact List.mem_map.2 ⟨td, List.mem_dedup.2 (List.mem_filterMap.2 ⟨_, he, rfl⟩), rfl⟩
      · rw [List.append_nil, List.mem_reverse] at hp
        obtain ⟨td', _, rfl⟩ := List.mem_map.1 hp
        obtain rfl : td' = td := hkey
        rfl
    have hval : (lineTab d acc r l td).2.find? (fun v => v.1 = ix) = some (ix, valAt d acc r td (fSnap r td) bf16 ix) := by
      refine find?_key (List.mem_map.2 ⟨ix, mem_lineIxs.2 he, rfl⟩) fun v hv hkey => ?_
      obtain ⟨ix', _, rfl⟩ := List.mem_map.1 hv
      obtain rfl : ix' = ix := hkey
      rfl
    simp only [lineLook, htab]
    exact congrArg (fun o : Option (List Nat × FVal) => (o.map Prod.snd).getD .nan) hval

/-- The values of some places. -/
theorem fetchLine_input (side : Bool) {c : FCtx} (hd : c.d = d) (hstop : c.stop = none) {l : List (Option (TDesc × List Nat))}
    (h : LineOk d r l) : fetchLine acc r t px side c l = (c, lineVals d acc r l) := by
  rw [fetchLine_eq, foldl_lineStep acc r hecc t px side hd hstop h]
  rw [lineVals_eq]
  exact congrArg (Prod.mk c) (List.map_congr_left fun e he => lineLook_eq acc r he)

/-! ### Blocks of lines (R112) -/

omit hecc in
theorem lineVals_flatten (ls : List (List (Option (TDesc × List Nat)))) :
    lineVals d acc r ls.flatten = (ls.map (lineVals d acc r)).flatten := List.map_flatten

omit hecc in
/-- Values of lines fetched place by place. -/
theorem transposed_getD {blk : List (List (Option (TDesc × List Nat)))} {w i k : Nat} (hi : i < blk.length) (hk : k < w) :
    (lineVals d acc r ((List.range w).flatMap fun k => blk.map fun l => l.getD k none)).getD (k * blk.length + i) .nan =
      (lineVals d acc r [(blk[i]).getD k none]).headD .nan := by
  have hrow : ∀ x ∈ ((List.range w).map fun k => blk.map fun l => l.getD k none).map (lineVals d acc r), x.length = blk.length := by
    intro x hx
    obtain ⟨y, hy, rfl⟩ := List.mem_map.1 hx
    obtain ⟨k', _, rfl⟩ := List.mem_map.1 hy
    simp [lineVals]
  rw [List.flatMap_def, lineVals_flatten, List.getD_eq_getElem?_getD, Nat.mul_comm, getElem?_flatten hrow hi]
  simp [hk, hi, lineVals]

theorem fetchBlock_input (side : Bool) {c : FCtx} (hd : c.d = d) (hstop : c.stop = none) {blk : List (List (Option (TDesc × List Nat)))}
    {w : Nat} (hw : ∀ l ∈ blk, l.length = w) (h : ∀ l ∈ blk, LineOk d r l) :
    fetchBlock acc r t px side c blk = (c, blk.map (lineVals d acc r)) := by
  cases blk with
  | nil =>
    have hnil : fetchLine acc r t px side c [] = (c, lineVals d acc r []) := fetchLine_input acc r hecc t px side hd hstop fun p hp => by cases hp
    unfold fetchBlock
    simp [hnil]
  | cons l0 blk0 =>
    generalize hblk : l0 :: blk0 = blk at hw h
    have hhead : (blk.headD []).length = w := by
      rw [← hblk] at hw ⊢
      exact hw l0 List.mem_cons_self
    have hlen : ∀ l ∈ blk.map (lineVals d acc r), l.length = w := by
      intro l hl
      obtain ⟨l', hl', rfl⟩ := List.mem_map.1 hl
      exact (List.length_map ..).trans (hw l' hl')
    unfold fetchBlock
    simp only [hhead]
    split
    · rw [fetchLine_input acc r hecc t px side hd hstop fun p hp => by
        obtain ⟨l, hl, hp⟩ := List.mem_flatten.1 hp
        exact h l hl p hp]
      dsimp only
      rw [lineVals_flatten]
      have := cut_flatten hlen
      rw [List.length_map] at this
      rw [this]
    · have hplace (k : Nat) (hk : k < w) (i : Nat) (hi : i < blk.length) : blk[i].getD k none = blk[i][k]'(by rw [hw _ (List.getElem_mem hi)]; exact hk) := by
        rw [List.getD_eq_getElem?_getD, List.getElem?_eq_getElem (by rw [hw _ (List.getElem_mem hi)]; exact hk), Option.getD_some]
      rw [fetchLine_input acc r hecc t px side hd hstop fun p hp => by
        obtain ⟨k, hk, hp⟩ := List.mem_flatMap.1 hp
        obtain ⟨l, hl, hp⟩ := List.mem_map.1 hp
        have hkl : k < l.length := by rw [hw l hl]; exact List.mem_range.1 hk
        rw [List.getD_eq_getElem?_getD, List.getElem?_eq_getElem hkl, Option.getD_some] at hp
        exact h l hl p (hp ▸ List.getElem_mem hkl)]
      dsimp only
      refine congrArg (Prod.mk c) ?_
      refine List.ext_getElem (by simp) fun i h1 h2 => ?_
      have hi : i < blk.length := by simpa using h1
      rw [List.getElem_map, List.getElem_map, List.getElem_range]
      refine List.ext_getElem ?_ fun k h3 h4 => ?_
      · rw [List.length_map, List.length_range]
        exact (hlen _ (List.mem_map.2 ⟨_, List.getElem_mem hi, rfl⟩)).symm
      have hk : k < w := by simpa using h3
      rw [List.getElem_map, List.getElem_range, transposed_getD acc r hi hk, hplace k hk i hi]
      simp [lineVals]

/-! ### The lines of both ports -/

omit hecc in
theorem LineOk.take {l : List (Option (TDesc × List Nat))} (h : LineOk d r l) (n : Nat) : LineOk d r (l.take n) :=
  fun p hp => h p (List.mem_of_mem_take hp)
omit hecc in
theorem LineOk.drop {l : List (Option (TDesc × List Nat))} (h : LineOk d r l) (n : Nat) : LineOk d r (l.drop n) :=
  fun p hp => h p (List.mem_of_mem_drop hp)

theorem fetchPair_input {c : FCtx} (hd : c.d = d) (hstop : c.stop = none) {n wa wb : Nat} {a b : List (List (Option (TDesc × List Nat)))}
    (ha : ∀ l ∈ a, l.length = wa ∧ LineOk d r l) (hb : ∀ l ∈ b, l.length = wb ∧ LineOk d r l) (hna : wa ≤ 64 * n) (hnb : wb ≤ 64 * n) :
    fetchPair acc r t px n c a b = (c, a.map (lineVals d acc r), b.map (lineVals d acc r)) := by
  induction n generalizing wa wb a b with
  | zero =>
    have hempty {w : Nat} (hw : w ≤ 64 * 0) {l : List (List (Option (TDesc × List Nat)))} (h : ∀ x ∈ l, x.length = w ∧ LineOk d r x) :
        l.map (fun _ => ([] : List FVal)) = l.map (lineVals d acc r) :=
      List.map_congr_left fun x hx => by rw [List.length_eq_zero_iff.1 ((h x hx).1.trans (by omega))]; rfl
    unfold fetchPair
    rw [hempty hna ha, hempty hnb hb]
  | succ n ih =>
    have hblock (side : Bool) {w : Nat} {l : List (List (Option (TDesc × List Nat)))} (h : ∀ x ∈ l, x.length = w ∧ LineOk d r x) :
        fetchBlock acc r t px side c (l.map (·.take 64)) = (c, (l.map (·.take 64)).map (lineVals d acc r)) := by
      refine fetchBlock_input acc r hecc t px side hd hstop (w := min 64 w) (fun x hx => ?_) fun x hx => ?_ <;> obtain ⟨y, hy, rfl⟩ := List.mem_map.1 hx
      · rw [List.length_take, (h y hy).1]
      · exact (h y hy).2.take r 64
    have hrest {w : Nat} {l : List (List (Option (TDesc × List Nat)))} (h : ∀ x ∈ l, x.length = w ∧ LineOk d r x) :
        ∀ x ∈ l.map (·.drop 64), x.length = w - 64 ∧ LineOk d r x := by
      intro x hx
      obtain ⟨y, hy, rfl⟩ := List.mem_map.1 hx
      exact ⟨by rw [List.length_drop, (h y hy).1], (h y hy).2.drop r 64⟩
    have hjoin (l : List (List (Option (TDesc × List Nat)))) :
        List.zipWith (· ++ ·) ((l.map (·.take 64)).map (lineVals d acc r)) ((l.map (·.drop 64)).map (lineVals d acc r)) =
          l.map (lineVals d acc r) := by
      rw [List.map_map, List.map_map, List.zipWith_map, List.zipWith_self]
      refine List.map_congr_left fun x _ => ?_
      simp only [Function.comp_apply, lineVals, ← List.map_append, List.take_append_drop]
    unfold fetchPair
    rw [hblock false ha]
    dsimp only
    rw [hblock true hb]
    dsimp only
    rw [ih (hrest ha) (hrest hb) (by omega) (by omega)]
    dsimp only
    rw [hjoin, hjoin]

omit hecc in
theorem le_ceilDiv_mul (a : Nat) : a ≤ 64 * ceilDiv a 64 := by
  unfold ceilDiv
  omega

omit hecc in
/-- The blocks of 64 steps take every step of the lines. -/
theorem le_stepBlocks {w : Nat} {a b l : List (List (Option (TDesc × List Nat)))} (h : l = a ∨ l = b) (hl : ∀ x ∈ l, x.length = w)
    (hne : l ≠ []) : w ≤ 64 * stepBlocks a b := by
  have hhead : (l.headD []).length = w := by
    cases l with
    | nil => exact absurd rfl hne
    | cons x l => exact hl x List.mem_cons_self
  have hmax := le_ceilDiv_mul (max (a.headD []).length (b.headD []).length)
  unfold stepBlocks
  rcases h with rfl | rfl <;> omega

/-- Lines of one length for each port are fetched whole. -/
theorem fetchPair_lines {c : FCtx} (hd : c.d = d) (hstop : c.stop = none) {wa wb : Nat} {a b : List (List (Option (TDesc × List Nat)))}
    (ha : ∀ l ∈ a, l.length = wa ∧ LineOk d r l) (hb : ∀ l ∈ b, l.length = wb ∧ LineOk d r l) :
    fetchPair acc r t px (stepBlocks a b) c a b = (c, a.map (lineVals d acc r), b.map (lineVals d acc r)) := by
  have hwidth {w : Nat} {l : List (List (Option (TDesc × List Nat)))} (hor : l = a ∨ l = b) (hl : ∀ x ∈ l, x.length = w ∧ LineOk d r x) :
      ∃ w' ≤ 64 * stepBlocks a b, ∀ x ∈ l, x.length = w' ∧ LineOk d r x := by
    by_cases hne : l = []
    · exact ⟨0, Nat.zero_le _, by rw [hne]; simp⟩
    · exact ⟨w, le_stepBlocks hor (fun x hx => (hl x hx).1) hne, hl⟩
  obtain ⟨wa', hna, ha'⟩ := hwidth (.inl rfl) ha
  obtain ⟨wb', hnb, hb'⟩ := hwidth (.inr rfl) hb
  exact fetchPair_input acc r hecc t px hd hstop ha' hb' hna hnb

end

end Sys2Proof.Machine
end

section
/-! The sums of a pass whose elements can all be read (R97 to R103, R117, R118, R122). -/

namespace Sys2Proof.Machine

/-! ### Lines of one length -/

section
variable (x : BitVec 1024) (r : RunOp) (bx : List Nat)

/-- Steps of the contraction. -/
def lineLen : Nat := if dOpcode x = 3 then fBatches x r * (fShape x r).k else (fShape x r).k

theorem aLine_length (m : Nat) : (aLine x r bx m).length = lineLen x r := by
  unfold aLine lineLen
  dsimp only
  split
  next h => rw [if_pos h]; simp
  next h => rw [if_neg h]; simp

theorem bLine_length (n : Nat) : (bLine x r bx n).length = lineLen x r := by
  unfold bLine lineLen
  dsimp only
  split
  next h => simp [h]
  next h => simp [h]
  next h => simp [h]
  next h3 _ => rw [if_neg h3]; simp

theorem outA_length (m : Nat) : (outA x r bx m).length = fNOut x := by simp [outA]
theorem outB_length (n : Nat) : (outB x r bx n).length = fNOut x := by simp [outB]
theorem upLine_length (n : Nat) : (upLine x r bx n).length = fRank x := by simp [upLine]
theorem downLine_length (j : Nat) : (downLine x r bx j).length = (fShape x r).k := by simp [downLine]

end

section
variable {x : BitVec 1024} {r : RunOp} {l : List (Option (TDesc × List Nat))}

theorem tileA_length (h : l ∈ tileA x r) : l.length = lineLen x r := by
  obtain ⟨m, _, rfl⟩ := List.mem_map.1 h
  exact aLine_length ..
theorem tileB_length (h : l ∈ tileB x r) : l.length = lineLen x r := by
  obtain ⟨n, _, rfl⟩ := List.mem_map.1 h
  exact bLine_length ..
theorem tileOA_length (h : l ∈ tileOA x r) : l.length = fNOut x := by
  unfold tileOA at h
  split at h
  · obtain ⟨m, _, rfl⟩ := List.mem_map.1 h
    exact outA_length ..
  · cases h
theorem tileOB_length (h : l ∈ tileOB x r) : l.length = fNOut x := by
  unfold tileOB at h
  split at h
  · obtain ⟨n, _, rfl⟩ := List.mem_map.1 h
    exact outB_length ..
  · cases h
theorem tileU_length (h : l ∈ tileU x r) : l.length = fRank x := by
  unfold tileU at h
  split at h
  · obtain ⟨n, _, rfl⟩ := List.mem_map.1 h
    exact upLine_length ..
  · cases h

end

/-! ### The fetches of a pass -/

section
variable {d : Dev} {t : Nat} {r : RunOp} (px : Polder) (hecc : d.mem.ecc = [])

/-- Elements that can be read. -/
def AllInput (d : Dev) (r : RunOp) (l : List (TDesc × List Nat)) : Prop := ∀ p ∈ l, Input d p.1 (fSnap r p.1) p.2

theorem AllInput.here {l : List (TDesc × List Nat)} (h : AllInput d r l) : AllHere d l := fun p hp => (h p hp).here

/-- The lines of some list of lines can be read where their elements can. -/
theorem AllInput.lines {ls : List (List (Option (TDesc × List Nat)))} (h : AllInput d r (ls.flatten.filterMap id))
    {l : List (Option (TDesc × List Nat))} (hl : l ∈ ls) : LineOk d r l :=
  fun p hp => h p (List.mem_filterMap.2 ⟨_, List.mem_flatten.2 ⟨l, hl, hp⟩, rfl⟩)

/-- An initial value (R95). -/
def tileZ (d : Dev) (acc : Acc) (r : RunOp) (m n : Nat) : F32 :=
  if fInit r.q.desc then rne32 (valAt d acc r (fTd r 3) (fSnap r (fTd r 3)) fp32 (initIx r (passBx r.q.desc r r.work.step) m n)) else 0

/-- The values that a pass fetches, line by line. -/
structure TileRead (d : Dev) (t : Nat) (r : RunOp) (v : TileVals) : Prop where
  init : v.init = gridOf (nowRows r.q.desc r) (nowCols r.q.desc r) (tileZ d (runAcc d t r) r)
  a : v.a = (tileA r.q.desc r).map (lineVals d (runAcc d t r) r)
  b : v.b = (tileB r.q.desc r).map (lineVals d (runAcc d t r) r)
  oa : v.oa = (tileOA r.q.desc r).map (lineVals d (runAcc d t r) r)
  ob : v.ob = (tileOB r.q.desc r).map (lineVals d (runAcc d t r) r)
  u : v.u = (tileU r.q.desc r).map (lineVals d (runAcc d t r) r)

include hecc

theorem fetch32_if {p : Prop} [Decidable p] {c : FCtx} (hd : c.d = d) (hstop : c.stop = none) {td : TDesc} {ixs : List (List Nat)}
    (h : ∀ ix ∈ ixs, Input d td (fSnap r td) ix) (l : List F32) :
    (if p then fetch32 (runAcc d t r) r t px c td ixs else (c, l)) =
      (c, if p then ixs.map fun ix => rne32 (valAt d (runAcc d t r) r td (fSnap r td) fp32 ix) else l) := by
  split
  · exact fetch32_input _ r hecc t px hd hstop h
  · rfl

/-- A pass whose elements can all be read fetches their values, and nothing changes. -/
theorem tileFetch_input (hcols : nowCols r.q.desc r ≠ []) (hreads : AllInput d r (tileReads r.q.desc r)) :
    (tileFetch d t r px).1 = { d := d, note := r.note } ∧ TileRead d t r (tileFetch d t r px).2 := by
  rw [tileReads_eq] at hreads
  unfold AllInput at hreads
  simp only [List.forall_mem_append, List.forall_mem_map] at hreads
  obtain ⟨⟨⟨hlines, hinit⟩, hepi⟩, hrow, hcol⟩ := hreads
  have hline {l : List (Option (TDesc × List Nat))} (hl : l ∈ tileA r.q.desc r ++ tileB r.q.desc r ++ tileOA r.q.desc r ++
      tileOB r.q.desc r ++ tileU r.q.desc r) : LineOk d r l := AllInput.lines hlines hl
  have hA := fetchPair_lines (runAcc d t r) r hecc t px (c := { d := d, note := r.note }) rfl rfl (a := tileA r.q.desc r) (b := tileB r.q.desc r)
    (fun l hl => ⟨tileA_length hl, hline (by simp [hl])⟩) (fun l hl => ⟨tileB_length hl, hline (by simp [hl])⟩)
  have hO := fetchPair_lines (runAcc d t r) r hecc t px (c := { d := d, note := r.note }) rfl rfl (a := tileOA r.q.desc r) (b := tileOB r.q.desc r)
    (fun l hl => ⟨tileOA_length hl, hline (by simp [hl])⟩) (fun l hl => ⟨tileOB_length hl, hline (by simp [hl])⟩)
  have hU := fetchPair_lines (runAcc d t r) r hecc t px (c := { d := d, note := r.note }) rfl rfl (wa := 0) (a := []) (b := tileU r.q.desc r)
    (fun l hl => by cases hl) (fun l hl => ⟨tileU_length hl, hline (by simp [hl])⟩)
  have hI := fetch32_if (t := t) px hecc (p := fInit r.q.desc = true) (c := { d := d, note := r.note }) rfl rfl hinit
    (List.replicate ((nowRows r.q.desc r).length * (nowCols r.q.desc r).length) 0)
  have hE := fetch32_if (t := t) px hecc (p := fEpi r.q.desc ≠ 0) (c := { d := d, note := r.note }) rfl rfl hepi []
  have hR := fetch32_if (t := t) px hecc (p := fEpi r.q.desc ≥ 2) (c := { d := d, note := r.note }) rfl rfl hrow []
  have hG := fetch32_if (t := t) px hecc (p := fEpi r.q.desc ≥ 2) (c := { d := d, note := r.note }) rfl rfl hcol []
  unfold tileFetch
  simp only [hI, hA, hO, hU, hE, hR, hG, true_and]
  refine ⟨?_, rfl, rfl, rfl, rfl, rfl⟩
  have hflat : (if fInit r.q.desc = true then (tileInit r.q.desc r).map fun ix =>
        rne32 (valAt d (runAcc d t r) r (fTd r 3) (fSnap r (fTd r 3)) fp32 ix)
      else List.replicate ((nowRows r.q.desc r).length * (nowCols r.q.desc r).length) 0) =
      (gridOf (nowRows r.q.desc r) (nowCols r.q.desc r) (tileZ d (runAcc d t r) r)).flatten := by
    unfold gridOf tileZ tileInit
    split
    · rw [List.map_flatMap, List.flatMap_def]
      simp only [List.map_map, Function.comp_def]
    · simp only [List.map_const', List.flatten_replicate_replicate]
  rw [hflat]
  exact chunksOf_flatten (List.length_pos_iff.2 hcols) (fun l => gridOf_length) (by simp [gridOf])

end

end Sys2Proof.Machine
end

section
/-! The tile of a pass: its sums (R99, R101, R103). -/

namespace Sys2Proof.Machine

/-! ### Rows by number -/

/-- Row i of the tile. -/
def rowAt (x : BitVec 1024) (r : RunOp) (i : Nat) : Nat := 32 * (fPassAt x r r.work.step).2.1 + i

theorem nowRows_eq (x : BitVec 1024) (r : RunOp) : nowRows x r = (List.range (nowRows x r).length).map (rowAt x r) := by
  unfold nowRows passRows
  rw [List.length_map, List.length_range]
  rfl

theorem nowRows_getElem? {x : BitVec 1024} {r : RunOp} {i m : Nat} (h : (nowRows x r)[i]? = some m) :
    i < (nowRows x r).length ∧ m = rowAt x r i := by
  obtain ⟨hi, hm⟩ := List.getElem?_eq_some_iff.1 h
  refine ⟨hi, hm.symm.trans ?_⟩
  have := nowRows_eq x r
  rw [List.getElem_of_eq this, List.getElem_map, List.getElem_range]

theorem gridOf_map {α β γ : Type} (l : List α) (g : α → β) (cols : List Nat) (f : β → Nat → γ) :
    gridOf (l.map g) cols f = gridOf l cols fun i => f (g i) := List.map_map

/-! ### The sums -/

/-- A sum that goes on through k-steps (R46). -/
def sumOn (z : F32) (a b : List FVal) : F32 := (addGroups z (List.zip a b)).1

section
variable (d : Dev) (t : Nat) (r : RunOp)

/-- An output element's sum through the main k-steps, and through those of the outlier channels. -/
def mainSum (m n : Nat) : F32 :=
  sumOn (tileZ d (runAcc d t r) r m n) (lineVals d (runAcc d t r) r (aLine r.q.desc r (passBx r.q.desc r r.work.step) m))
    (lineVals d (runAcc d t r) r (bLine r.q.desc r (passBx r.q.desc r r.work.step) n))
def outlSum (m n : Nat) : F32 :=
  if dOpcode r.q.desc = 1 ∧ fNOut r.q.desc ≠ 0 then
    sumOn (mainSum d t r m n) (lineVals d (runAcc d t r) r (outA r.q.desc r (passBx r.q.desc r r.work.step) m))
      (lineVals d (runAcc d t r) r (outB r.q.desc r (passBx r.q.desc r r.work.step) n))
  else mainSum d t r m n

/-- Every row of the adapter buffer stands, where the pass adds an adapter. -/
def BufFull (r : RunOp) : Prop :=
  fRank r.q.desc = 0 ∨ dOpcode r.q.desc = 4 ∨ r.work.vals.length = (nowRows r.q.desc r).length * fRank r.q.desc

/-- Row i of the adapter buffer. -/
def bufRow (i : Nat) : List FVal := ((r.work.vals.drop (i * fRank r.q.desc)).take (fRank r.q.desc)).map val32

theorem tileSum_eq (i m n : Nat) : tileSum d (runAcc d t r) r i m n =
    if fRank r.q.desc ≠ 0 ∧ dOpcode r.q.desc ≠ 4 then
      sumOn (outlSum d t r m n) (bufRow r i) (lineVals d (runAcc d t r) r (upLine r.q.desc r (passBx r.q.desc r r.work.step) n))
    else outlSum d t r m n := rfl

end

section
variable {d : Dev} {t : Nat} {r : RunOp} {v : TileVals} (h : TileRead d t r v) (hrows : nowRows r.q.desc r ≠ [])
  (hcols : nowCols r.q.desc r ≠ [])
include h

theorem tileMain_eq : sumsOf (tileMain v) = gridOf (nowRows r.q.desc r) (nowCols r.q.desc r) (mainSum d t r) := by
  unfold tileMain
  rw [h.init, h.a, h.b]
  unfold tileA tileB
  rw [List.map_map, List.map_map, mulRows_gridOf, sumsOf_gridOf]
  rfl

include hrows

theorem tileOutl_eq : sumsOf (tileOutl r.q.desc r v) = gridOf (nowRows r.q.desc r) (nowCols r.q.desc r) (outlSum d t r) := by
  unfold tileOutl outlSum
  by_cases hout : dOpcode r.q.desc = 1 ∧ fNOut r.q.desc ≠ 0
  · have hA : tileOA r.q.desc r = (nowRows r.q.desc r).map (outA r.q.desc r (passBx r.q.desc r r.work.step)) := by
      unfold tileOA
      rw [← Bool.decide_and, decide_eq_true hout, if_pos rfl]
    have hB : tileOB r.q.desc r = (nowCols r.q.desc r).map (outB r.q.desc r (passBx r.q.desc r r.work.step)) := by
      unfold tileOB
      rw [← Bool.decide_and, decide_eq_true hout, if_pos rfl]
    rw [if_neg (by rw [hA]; simpa using hrows), tileMain_eq h, h.oa, h.ob, hA, hB, List.map_map, List.map_map, mulRows_gridOf, sumsOf_gridOf]
    simp only [if_pos hout]
    rfl
  · have hA : tileOA r.q.desc r = [] := by
      unfold tileOA
      rw [← Bool.decide_and, decide_eq_false hout, if_neg Bool.false_ne_true]
    rw [if_pos hA, tileMain_eq h]
    simp only [if_neg hout]

include hcols

/-- The sums of the tile, where the adapter buffer has its columns. -/
theorem tileAdap_eq (hbuf : BufFull r) :
    sumsOf (tileAdap r.q.desc r v) = gridOf (List.range (nowRows r.q.desc r).length) (nowCols r.q.desc r) fun i n =>
      tileSum d (runAcc d t r) r i (rowAt r.q.desc r i) n := by
  have houtl : sumsOf (tileOutl r.q.desc r v) =
      gridOf (List.range (nowRows r.q.desc r).length) (nowCols r.q.desc r) fun i => outlSum d t r (rowAt r.q.desc r i) := by
    rw [tileOutl_eq h hrows, ← gridOf_map _ (rowAt r.q.desc r), ← nowRows_eq]
  unfold tileAdap
  simp only [tileSum_eq]
  by_cases hup : fRank r.q.desc ≠ 0 ∧ dOpcode r.q.desc ≠ 4
  · have hU : tileU r.q.desc r = (nowCols r.q.desc r).map (upLine r.q.desc r (passBx r.q.desc r r.work.step)) := by
      unfold tileU
      rw [← Bool.decide_and, decide_eq_true hup, if_pos rfl]
    have hB : bufRows r.q.desc r = (List.range (nowRows r.q.desc r).length).map (bufRow r) := by
      unfold bufRows
      rw [chunksOf_eq (Nat.pos_of_ne_zero hup.1) ((hbuf.resolve_left hup.1).resolve_left hup.2) (Nat.le_succ _), List.map_map]
      rfl
    rw [if_neg (by rw [hU]; simpa using hcols), houtl, h.u, hU, hB, List.map_map, mulRows_gridOf, sumsOf_gridOf]
    simp only [if_pos hup]
    rfl
  · have hU : tileU r.q.desc r = [] := by
      unfold tileU
      rw [← Bool.decide_and, decide_eq_false hup, if_neg Bool.false_ne_true]
    rw [if_pos hU, houtl]
    simp only [if_neg hup]

end

end Sys2Proof.Machine
end

section
/-! What a pass stores where memory is in no error (R54, R103, R104). -/

namespace Sys2Proof.Machine

/-! ### Elements stored in turn -/

theorem Stored.bytesAt_self {d d' : Dev} {a : Nat} {bs : List Byte} (h : Stored d a bs d') : bytesAt d' a bs.length = bs := by
  obtain ⟨_, hin, _, _⟩ := h
  refine List.ext_getElem (bytesAt_length ..) fun i h1 h2 => ?_
  simp only [bytesAt, List.getElem_map, List.getElem_range, hin i h2]

theorem bytesAt_congr {d d' : Dev} {a n : Nat} (h : ∀ i, i < n → byteAt d' (a + i) = byteAt d (a + i)) : bytesAt d' a n = bytesAt d a n :=
  List.map_congr_left fun i hi => h i (List.mem_range.1 hi)

section
variable (t : Nat) (e : EngineId) (r : RunOp) {td : TDesc}

/-- What stores of some elements leave: the bytes beside them, and where no two meet, the code of each. -/
structure ListStored (td : TDesc) (l : List (List Nat × Nat)) (d d' : Dev) : Prop where
  only : OnlyBytes d d'
  beside : ∀ a, Beside (l.map fun p => (td, p.1)) a → byteAt d' a = byteAt d a
  codes : 8 ≤ (fmtOf td).width → (∀ p ∈ l, ∀ q ∈ l, p.1 ≠ q.1 → Apart (td, p.1) (td, q.1)) →
    (∀ p ∈ l, ∀ q ∈ l, p.1 = q.1 → p.2 = q.2) →
    ∀ p ∈ l, bytesAt d' (elemAddr td p.1) (elemLen td) = toBytes ((fmtOf td).width / 8) p.2

/-- A byte of an element lies beside those that it does not meet. -/
theorem beside_of_apart {ix : List Nat} {l : List (List Nat × Nat)} (h : ∀ q ∈ l, Apart (td, ix) (td, q.1)) {i : Nat} (hi : i < elemLen td) :
    Beside (l.map fun p => (td, p.1)) (elemAddr td ix + i) := by
  intro p hp
  obtain ⟨q, hq, rfl⟩ := List.mem_map.1 hp
  rcases h q hq with h | h <;> dsimp only at h ⊢ <;> omega

theorem writeList_reach {d : Dev} (n : Nat) {l : List (List Nat × Nat)} (hecc : d.mem.ecc = []) (h : ∀ p ∈ l, Reach d td p.1) :
    ∃ d', writeList t e r td d n l = (d', none) ∧ ListStored td l d d' := by
  induction l generalizing d n with
  | nil => exact ⟨d, rfl, .refl d, fun _ _ => rfl, fun _ _ _ p hp => by cases hp⟩
  | cons p l ih =>
    obtain ⟨ix, c⟩ := p
    obtain ⟨hix, h⟩ := List.forall_mem_cons.1 h
    obtain ⟨d1, bs, hw, hst, hlen, hbs⟩ := writeAt_reach t e r c hecc hix
    have h1 : OnlyBytes d d1 := hst.1
    obtain ⟨d', hd', hl⟩ := ih (n + 1) (h1.ecc.trans hecc) fun q hq => h1.reach (h q hq)
    refine ⟨d', by unfold writeList; rw [hw]; exact hd', h1.trans hl.only, fun a ha => ?_, fun h8 hapart hsame => ?_⟩
    · rw [List.map_cons] at ha
      obtain ⟨hhead, htail⟩ := List.forall_mem_cons.1 ha
      exact (hl.beside a htail).trans (hst.2.2.1 a (hlen ▸ hhead))
    · have htail := hl.codes h8 (fun p hp q hq => hapart p (List.mem_cons_of_mem _ hp) q (List.mem_cons_of_mem _ hq))
        fun p hp q hq => hsame p (List.mem_cons_of_mem _ hp) q (List.mem_cons_of_mem _ hq)
      refine List.forall_mem_cons.2 ⟨?_, htail⟩
      by_cases hagain : ∃ q ∈ l, q.1 = ix
      · obtain ⟨q, hq, rfl⟩ := hagain
        rw [htail q hq, hsame _ (List.mem_cons_of_mem _ hq) _ List.mem_cons_self rfl]
      · have hbeside : ∀ q ∈ l, Apart (td, ix) (td, q.1) := fun q hq =>
          hapart _ List.mem_cons_self q (List.mem_cons_of_mem _ hq) fun heq => hagain ⟨q, hq, heq.symm⟩
        rw [bytesAt_congr fun i hi => hl.beside _ (beside_of_apart hbeside hi), ← hlen, hst.bytesAt_self, hbs h8]

end

theorem stepsCounted_onlyTiles (d : Dev) (t : Nat) (r : RunOp) (pn : PolderNo) (k tg : Nat) : OnlyTiles d (stepsCounted d t r pn k tg) := by
  unfold stepsCounted
  dsimp only
  split
  · exact count_onlyTiles ..
  · exact (count_onlyTiles ..).trans (count_onlyTiles ..)

theorem OnlyTiles.reach {d d' : Dev} (h : OnlyTiles d d') {td : TDesc} {ix : List Nat} (hr : Reach d td ix) : Reach d' td ix :=
  ⟨hr.here.trans h.selfId.symm, (h.rangeErr ..).trans hr.bytes⟩

/-- Events counted, then some elements stored. -/
theorem writeList_counted (d : Dev) (t : Nat) (r : RunOp) (pn : PolderNo) (k tg : Nat) {td : TDesc} {l : List (List Nat × Nat)}
    (hecc : d.mem.ecc = []) (h : ∀ p ∈ l, Reach d td p.1) :
    ∃ d', writeList t .fuller r td (stepsCounted d t r pn k tg) 0 l = (d', none) ∧ Quiet d d' ∧
      (∀ a, Beside (l.map fun p => (td, p.1)) a → byteAt d' a = byteAt d a) ∧ ListStored td l (stepsCounted d t r pn k tg) d' := by
  have hcount := stepsCounted_onlyTiles d t r pn k tg
  obtain ⟨d', hw, hl⟩ := writeList_reach t .fuller r 0 (hcount.mem ▸ hecc) fun p hp => hcount.reach (h p hp)
  exact ⟨d', hw, (Quiet.of_onlyMem (stepsCounted_onlyMem ..)).trans hl.only.quiet, fun a ha => (hl.beside a ha).trans (hcount.byteAt a), hl⟩

/-! ### An output tile -/

/-- An element of C as the pass forms it: under conv, or alpha times the sum in BF16 under ADAPTER_DOWN. -/
def tileCode (x : BitVec 1024) (r : RunOp) (v : F32) : Nat × Cls :=
  if dOpcode x = 4 then downElem (fAlpha x) v else outCode (fTd r 2) (fConv x) v

theorem tileFormed_gridOf (x : BitVec 1024) (r : RunOp) (f : Nat → Nat → F32) :
    tileFormed x r (gridOf (List.range (nowRows x r).length) (nowCols x r) f) = (List.range (nowRows x r).length).flatMap fun i =>
      (nowCols x r).map fun n => (tileIx x r (rowAt x r i) n, tileCode x r (f i n)) := by
  have hzip : List.zip (nowRows x r) (gridOf (List.range (nowRows x r).length) (nowCols x r) f) =
      (List.range (nowRows x r).length).map fun i => (rowAt x r i, (nowCols x r).map (f i)) := by
    conv_lhs => rw [nowRows_eq]
    unfold gridOf
    rw [List.length_map, List.length_range]
    exact List.zip_map' ..
  unfold tileFormed tileCode
  rw [hzip, List.flatMap_map, List.map_flatMap]
  simp only [zip_map_self, List.map_map, Function.comp_def]

theorem tileIx_inj {x : BitVec 1024} {r : RunOp} {m n m' n' : Nat} (h : tileIx x r m n = tileIx x r m' n') : m = m' ∧ n = n' := by
  unfold tileIx at h
  simp only [List.cons_append, List.nil_append, List.cons.injEq] at h
  exact ⟨h.2.1, h.1⟩

section
variable {d : Dev} {t : Nat} {r : RunOp} {v : TileVals} (hecc : d.mem.ecc = []) (hmode : fOutMode r.q.desc = 0)
  (hreach : ∀ p ∈ tileWrites r.q.desc r, Reach d p.1 p.2)
include hecc hmode hreach

/-- A tile stored to memory: no other byte changes, and where no two elements meet each takes its code. -/
theorem tileDrain_memory (note : Option (Code × Nat)) : ∃ d2 cn,
    tileDrain { d := d, note := note } t r v = onRun d2 t .fuller (tileNext r.work.step cn note) ∧
    Quiet d d2 ∧ (∀ a, Beside (tileWrites r.q.desc r) a → byteAt d2 a = byteAt d a) ∧
    ∀ f : Nat → Nat → F32, tileGrid r.q.desc r v = gridOf (List.range (nowRows r.q.desc r).length) (nowCols r.q.desc r) f →
      8 ≤ (fmtOf (fTd r 2)).width → Spread [] (tileWrites r.q.desc r) → ∀ i, i < (nowRows r.q.desc r).length → ∀ n ∈ nowCols r.q.desc r,
        bytesAt d2 (elemAddr (fTd r 2) (tileIx r.q.desc r (rowAt r.q.desc r i) n)) (elemLen (fTd r 2)) =
          toBytes ((fmtOf (fTd r 2)).width / 8) (tileCode r.q.desc r (f i n)).1 := by
  have hmem (e) (he : e ∈ (tileFormed r.q.desc r (tileGrid r.q.desc r v)).map fun e => (e.1, e.2.1)) :
      (fTd r 2, e.1) ∈ tileWrites r.q.desc r := by
    obtain ⟨y, hy, rfl⟩ := List.mem_map.1 he
    exact tileFormed_mem hmode hy
  obtain ⟨d2, hw, hq, hbeside, hl⟩ := writeList_counted d t r (runPolder d t r) (tileSteps r.q.desc r) (tileTg r.q.desc r v)
    (td := fTd r 2) (l := (tileFormed r.q.desc r (tileGrid r.q.desc r v)).map fun e => (e.1, e.2.1)) hecc fun e he => hreach _ (hmem e he)
  refine ⟨d2, countAll (r.counts.addTg (tileTg r.q.desc r v)) ((tileFormed r.q.desc r (tileGrid r.q.desc r v)).map fun e => e.2.2), ?_, hq,
    fun a ha => hbeside a fun p hp => ?_, fun f hf h8 hspread i hi n hn => ?_⟩
  · unfold tileDrain
    simp only [hmode, if_true, hw]
  · obtain ⟨e, he, rfl⟩ := List.mem_map.1 hp
    exact ha _ (hmem e he)
  · refine hl.codes h8 (fun p hp q hq hne => hspread.1 _ (hmem p hp) _ (hmem q hq) fun heq => hne (congrArg Prod.snd heq)) (fun p hp q hq heq => ?_)
      (tileIx r.q.desc r (rowAt r.q.desc r i) n, (tileCode r.q.desc r (f i n)).1) ?_
    · rw [hf, tileFormed_gridOf] at hp hq
      simp only [List.map_flatMap, List.map_map, List.mem_flatMap, List.mem_map, Function.comp_apply] at hp hq
      obtain ⟨i1, _, n1, _, rfl⟩ := hp
      obtain ⟨i2, _, n2, _, rfl⟩ := hq
      obtain ⟨hm, rfl⟩ := tileIx_inj heq
      obtain rfl : i1 = i2 := by unfold rowAt at hm; omega
      rfl
    · rw [hf, tileFormed_gridOf]
      exact List.mem_map.2 ⟨_, List.mem_flatMap.2 ⟨i, List.mem_range.2 hi, List.mem_map.2 ⟨n, hn, rfl⟩⟩, rfl⟩

end

/-! ### A tile for the hand-off queue -/

/-- A tile that leaves through the hand-off queue: events are counted, and no byte changes. -/
theorem tileDrain_handoff {d : Dev} {t : Nat} {r : RunOp} {v : TileVals} (hmode : fOutMode r.q.desc ≠ 0) (hgone : r.gone = none)
    (note : Option (Code × Nat)) : ∃ d1 cn, Quiet d d1 ∧ OnlyTiles d d1 ∧ tileDrain { d := d, note := note } t r v =
      tilePlaced (onRun d1 t .fuller (tileNext r.work.step cn note)) t (tileOut r.q.desc r (tileGrid r.q.desc r v)) := by
  refine ⟨stepsCounted d t r (runPolder d t r) (tileSteps r.q.desc r) (tileTg r.q.desc r v), r.counts.addTg (tileTg r.q.desc r v),
    .of_onlyMem (stepsCounted_onlyMem ..), stepsCounted_onlyTiles .., ?_⟩
  unfold tileDrain
  simp only [if_neg hmode, hgone, Option.isSome_none, Bool.false_eq_true, if_false]

theorem nowCols_length (x : BitVec 1024) (r : RunOp) : (nowCols x r).length ≤ 64 := by
  unfold nowCols passCols
  rw [List.length_map, List.length_range]
  exact Nat.min_le_left ..

/-- The values of a tile stand in rows of 64. -/
theorem tileOut_data {x : BitVec 1024} {r : RunOp} {f : Nat → Nat → F32} {i j n : Nat} (hi : i < (nowRows x r).length)
    (hn : (nowCols x r)[j]? = some n) :
    (tileOut x r (gridOf (List.range (nowRows x r).length) (nowCols x r) f)).data[64 * i + j]? = some (f i n) := by
  have hcols := nowCols_length x r
  have hj : j < (nowCols x r).length := (List.getElem?_eq_some_iff.1 hn).1
  have hpad : ∀ l ∈ (gridOf (List.range (nowRows x r).length) (nowCols x r) f).map fun l => l ++ List.replicate (64 - l.length) (0 : F32),
      l.length = 64 := by
    intro l hl
    obtain ⟨l', hl', rfl⟩ := List.mem_map.1 hl
    rw [List.length_append, List.length_replicate, gridOf_length hl']
    omega
  have hget := getElem?_flatten hpad (show j < 64 by omega) i
  have hrow : ((gridOf (List.range (nowRows x r).length) (nowCols x r) f).map fun l => l ++ List.replicate (64 - l.length) (0 : F32))[i]? =
      some ((nowCols x r).map (f i) ++ List.replicate (64 - ((nowCols x r).map (f i)).length) 0) := by
    unfold gridOf
    rw [List.getElem?_map, List.getElem?_map, List.getElem?_range hi]
    rfl
  rw [hrow, Option.bind_some, List.getElem?_append_left (by rwa [List.length_map]), List.getElem?_map, hn, Option.map_some] at hget
  unfold tileOut
  dsimp only
  rw [List.getElem?_append_left (List.getElem?_eq_some_iff.1 hget).1]
  exact hget

end Sys2Proof.Machine
end

section
/-! A down pass whose elements can all be read (R103, R122). -/

namespace Sys2Proof.Machine

theorem RunAlone.onlyTiles {t : Nat} {e : EngineId} {d d' : Dev} (h : RunAlone t e d d') : OnlyTiles d d' := by
  have hcounters : d'.counters = d.counters := by rw [h.dev]
  unfold OnlyTiles
  rw [hcounters]
  exact h.dev
theorem onRun_byteAt (d : Dev) (t : Nat) (e : EngineId) (f : RunOp → RunOp) (a : Nat) : byteAt (onRun d t e f) a = byteAt d a :=
  (RunAlone.of_onRun d t e f).onlyTiles.byteAt a

/-! ### Rows with new columns -/

/-- A column added to rows of one length. -/
theorem getElem?_widened {α β γ : Type} {w : Nat} {old : List (List γ)} {rows : List α} {cols : List Nat} (hlen : old.length = rows.length)
    (hold : ∀ o ∈ old, o.length = w) (f : α → Nat → β) (g : β → γ) {i j k : Nat} {m : α} (hm : rows[i]? = some m) (hk : cols[j]? = some k) :
    (List.zipWith (fun o n => o ++ n.map g) old (gridOf rows cols f)).flatten[i * (w + cols.length) + w + j]? = some (g (f m k)) := by
  have hj : j < cols.length := (List.getElem?_eq_some_iff.1 hk).1
  have hi : i < old.length := hlen ▸ (List.getElem?_eq_some_iff.1 hm).1
  have hrows : ∀ l ∈ List.zipWith (fun o n => o ++ n.map g) old (gridOf rows cols f), l.length = w + cols.length := by
    intro l hl
    obtain ⟨p, hp, rfl⟩ := List.mem_map.1 (List.map_uncurry_zip_eq_zipWith ▸ hl)
    have hmem := List.of_mem_zip hp
    simp only [Function.uncurry, List.length_append, List.length_map, hold _ hmem.1, gridOf_length hmem.2]
  have hrow : (gridOf rows cols f)[i]? = some (cols.map (f m)) := by
    unfold gridOf
    rw [List.getElem?_map, hm, Option.map_some]
  have hget := getElem?_flatten hrows (show w + j < w + cols.length by omega) i
  rw [List.getElem?_zipWith, List.getElem?_eq_getElem hi, hrow] at hget
  rw [Nat.add_assoc, Nat.mul_comm, hget]
  simp only [Option.bind_some]
  rw [List.getElem?_append_right (by rw [hold _ (List.getElem_mem hi)]; omega), hold _ (List.getElem_mem hi), Nat.add_sub_cancel_left,
    List.getElem?_map, List.getElem?_map, hk]
  rfl

theorem downOld_rows {x : BitVec 1024} {r : RunOp} (h : r.work.vals.length = (nowRows x r).length * (64 * r.work.down) ∨ r.work.down = 0) :
    (downOld x r).length = (nowRows x r).length ∧ ∀ o ∈ downOld x r, o.length = 64 * r.work.down := by
  unfold downOld
  split
  next h0 =>
    refine ⟨List.length_map .., fun o ho => ?_⟩
    obtain ⟨_, _, rfl⟩ := List.mem_map.1 ho
    exact h0.symm
  next h0 =>
    have hlen : r.work.vals.length = (nowRows x r).length * (64 * r.work.down) := h.resolve_right (by omega)
    rw [chunksOf_eq (by omega) hlen (Nat.le_succ _)]
    refine ⟨by rw [List.length_map, List.length_range], fun o ho => ?_⟩
    obtain ⟨i, hi, rfl⟩ := List.mem_map.1 ho
    have hle := Nat.mul_le_mul_right (64 * r.work.down) (Nat.succ_le_of_lt (List.mem_range.1 hi))
    rw [Nat.succ_mul] at hle
    rw [List.length_take, List.length_drop]
    omega

/-- The adapter buffer has its rows widened by the new columns. -/
theorem downBuf_getElem? {x : BitVec 1024} {r : RunOp} (h : r.work.vals.length = (nowRows x r).length * (64 * r.work.down) ∨ r.work.down = 0)
    (f : Nat → Nat → B16 × Cls) {i m j k : Nat} (hm : (nowRows x r)[i]? = some m) (hk : (downCols x r)[j]? = some k) :
    (downBuf x r (gridOf (nowRows x r) (downCols x r) f))[i * (64 * r.work.down + (downCols x r).length) + 64 * r.work.down + j]? =
      some (rne32 (val16 (f m k).1)) :=
  getElem?_widened (downOld_rows h).1 (downOld_rows h).2 f (fun q => rne32 (val16 q.1)) hm hk

/-! ### The sums of a down pass -/

/-- The sum of an element of the adapter buffer, and the element. -/
def downSum (d : Dev) (t : Nat) (r : RunOp) (m k : Nat) : F32 :=
  sumOn 0 (lineVals d (runAcc d t r) r (aLine r.q.desc r (passBx r.q.desc r r.work.step) m))
    (lineVals d (runAcc d t r) r (downLine r.q.desc r (passBx r.q.desc r r.work.step) k))
def downCell (x : BitVec 1024) (v : F32) : B16 × Cls := (BitVec.ofNat 16 (downElem (fAlpha x) v).1, downCls v (downElem (fAlpha x) v).2)

theorem downNew_eq (d : Dev) (t : Nat) (r : RunOp) : (downSums r.q.desc r ((downA r.q.desc r).map (lineVals d (runAcc d t r) r))
      ((downD r.q.desc r).map (lineVals d (runAcc d t r) r))).map (downRow (fAlpha r.q.desc)) =
    gridOf (nowRows r.q.desc r) (downCols r.q.desc r) fun m k => downCell r.q.desc (downSum d t r m k) := by
  have hzero : ((nowRows r.q.desc r).map fun _ => List.replicate (downCols r.q.desc r).length (0 : F32)) =
      gridOf (nowRows r.q.desc r) (downCols r.q.desc r) fun _ _ => 0 := by
    unfold gridOf
    simp only [List.map_const']
  unfold downSums downA downD
  rw [hzero, List.map_map, List.map_map, mulRows_gridOf]
  unfold gridOf downRow
  simp only [List.map_map, Function.comp_def]
  rfl

section
variable {d : Dev} {t : Nat} {r : RunOp} (px : Polder) (hecc : d.mem.ecc = [])
include hecc

theorem downFetch_input (hreads : AllInput d r (downReads r.q.desc r)) : downFetch d t r px = ({ d := d, note := r.note },
    (downA r.q.desc r).map (lineVals d (runAcc d t r) r), (downD r.q.desc r).map (lineVals d (runAcc d t r) r)) := by
  have hline {l : List (Option (TDesc × List Nat))} (hl : l ∈ downA r.q.desc r ++ downD r.q.desc r) : LineOk d r l := AllInput.lines hreads hl
  refine fetchPair_lines (runAcc d t r) r hecc t px rfl rfl (wa := lineLen r.q.desc r) (wb := (fShape r.q.desc r).k)
    (fun l hl => ⟨?_, hline (List.mem_append_left _ hl)⟩) fun l hl => ⟨?_, hline (List.mem_append_right _ hl)⟩
  · obtain ⟨m, _, rfl⟩ := List.mem_map.1 hl
    exact aLine_length ..
  · obtain ⟨j, _, rfl⟩ := List.mem_map.1 hl
    exact downLine_length ..

/-- A down pass stores its elements of dP, where pstore asks for it. -/
theorem downStore_memory (hreach : ∀ p ∈ downWrites r.q.desc r, Reach d p.1 p.2) (pn : PolderNo) (k tg : Nat)
    (new : List (List (B16 × Cls))) : ∃ d2, (if fPstore r.q.desc then
        writeList t .fuller r (fTd r 7) (stepsCounted d t r pn k tg) 0 (downFormed r.q.desc r new)
      else (stepsCounted d t r pn k tg, none)) = (d2, none) ∧
    Quiet d d2 ∧ ∀ a, Beside (downWrites r.q.desc r) a → byteAt d2 a = byteAt d a := by
  split
  next hp =>
    obtain ⟨d2, hw, hq, hbeside, _⟩ := writeList_counted d t r pn k tg (td := fTd r 7) (l := downFormed r.q.desc r new) hecc
      fun e he => hreach _ (downFormed_mem hp he)
    refine ⟨d2, hw, hq, fun a ha => hbeside a fun p hp' => ?_⟩
    obtain ⟨e, he, rfl⟩ := List.mem_map.1 hp'
    exact ha _ (downFormed_mem hp he)
  next => exact ⟨_, rfl, .of_onlyMem (stepsCounted_onlyMem ..), fun a _ => (stepsCounted_onlyTiles ..).byteAt a⟩

theorem downDrain_memory (hreach : ∀ p ∈ downWrites r.q.desc r, Reach d p.1 p.2) (note : Option (Code × Nat)) (pn : PolderNo)
    (sums : List (List (F32 × Nat))) : ∃ d2 tg cls held, Quiet d d2 ∧ (∀ a, Beside (downWrites r.q.desc r) a → byteAt d2 a = byteAt d a) ∧
      downDrain { d := d, note := note } t r pn sums =
        onRun d2 t .fuller (downNext (downBuf r.q.desc r (sums.map (downRow (fAlpha r.q.desc)))) tg cls note held) := by
  obtain ⟨d2, hw, hq, hbeside⟩ := downStore_memory (t := t) hecc hreach pn (fShape r.q.desc r).k (addTgs sums)
    (sums.map (downRow (fAlpha r.q.desc)))
  refine ⟨d2, addTgs sums, (sums.map (downRow (fAlpha r.q.desc))).flatten.map Prod.snd, decide ((tileOf d2 t).banks ≠ []), hq, hbeside, ?_⟩
  unfold downDrain
  simp only [hw]

/-- A down pass enters its columns into the adapter buffer. -/
theorem fullerDown_memory (hrun : runOf d t .fuller = some r) (hend : r.ended = none) (hbad : r.bad = none)
    (hreads : AllInput d r (downReads r.q.desc r)) (hreach : ∀ p ∈ downWrites r.q.desc r, Reach d p.1 p.2) :
    (∀ a, Beside (downWrites r.q.desc r) a → byteAt (fullerDown d t r px) a = byteAt d a) ∧
    ∃ r', runOf (fullerDown d t r px) t .fuller = some r' ∧ r'.ended = none ∧ r'.work.step = r.work.step ∧
      r'.work.down = r.work.down + 1 ∧ (r.work.vals.length = (nowRows r.q.desc r).length * (64 * r.work.down) ∨ r.work.down = 0 →
        ∀ i m j k, (nowRows r.q.desc r)[i]? = some m → (downCols r.q.desc r)[j]? = some k →
          r'.work.vals[i * (64 * r.work.down + (downCols r.q.desc r).length) + 64 * r.work.down + j]? =
            some (rne32 (val16 (downCell r.q.desc (downSum d t r m k)).1))) := by
  obtain ⟨d2, tg, cls, held, hq, hbeside, heq⟩ := downDrain_memory (t := t) hecc hreach r.note (runPolder d t r)
    (downSums r.q.desc r ((downA r.q.desc r).map (lineVals d (runAcc d t r) r)) ((downD r.q.desc r).map (lineVals d (runAcc d t r) r)))
  rw [downNew_eq] at heq
  have hdown := fullerDown_eq t px hbad (downRngs_here hreads.here fun p hp => (hreach p hp).here)
  rw [downFetch_input px hecc hreads] at hdown
  rw [hdown.trans heq]
  have hnext (f : RunOp → RunOp) : runOf (onRun d2 t .fuller f) t .fuller = some (f r) := by
    rw [runOf_onRun, hq.runOf, hrun, Option.map_some]
  refine ⟨fun a ha => (onRun_byteAt ..).trans (hbeside a ha), _, hnext _, hend, rfl, rfl, fun hvals i m j k hm hk => ?_⟩
  exact downBuf_getElem? hvals (fun m k => downCell r.q.desc (downSum d t r m k)) hm hk

end

end Sys2Proof.Machine
end

section
/-! The pass of an output tile whose elements can all be read, and O20 (R90 to R106, R117, R118, R122). -/

namespace Sys2Proof.Machine

theorem tilePlaced_onlyTiles (d : Dev) (t : Nat) (o : OutTile) : OnlyTiles d (tilePlaced d t o) := by
  unfold tilePlaced
  split <;> exact onTile_onlyTiles ..

theorem float_width {f : Fmt} (h : f.float?.isSome = true) : 8 ≤ f.width := by
  cases f
  case n4 => cases h
  all_goals decide

section
variable {d : Dev} {t : Nat} {r : RunOp} (hend : r.ended = none) (hbeg : r.begun = true) (hgone : r.gone = none)
include hend hbeg hgone

/-- After its last tile the operation is DONE, once no bank is held. -/
theorem tileNext_done {p : Nat} {cn : Counts} (hrun : runOf d t .fuller = some (tileNext p cn none r)) :
    ∃ r', runOf (fullerDone d t) t .fuller = some r' ∧ r'.work.step = p + 1 ∧
      r'.ended = if r'.work.step = fPasses r.q.desc r ∧ (tileOf (fullerDone d t) t).banks = [] then some ⟨.done, 0⟩ else none := by
  have hdone := runOf_fullerDone_self hrun hbeg hend hgone rfl
  rw [(fullerDone_alone d t).tile]
  split at hdone
  next h => exact ⟨_, hdone, rfl, (if_pos h).symm⟩
  next h => exact ⟨_, hdone, rfl, hend.trans (if_neg h).symm⟩

end

/-- What the pass of an output tile leaves: each element of C in memory, or the tile in the queue or in a bank. -/
structure TileDone (t : Nat) (r : RunOp) (d d' : Dev) : Prop where
  beside : ∀ a, Beside (tileWrites r.q.desc r) a → byteAt d' a = byteAt d a
  run : ∃ r', runOf d' t .fuller = some r' ∧ r'.work.step = r.work.step + 1 ∧
    r'.ended = if r'.work.step = fPasses r.q.desc r ∧ (tileOf d' t).banks = [] then some ⟨.done, 0⟩ else none
  stored : fEpi r.q.desc = 0 → BufFull r →
    fOutMode r.q.desc = 0 → (fmtOf (fTd r 2)).float?.isSome = true → Spread [] (tileWrites r.q.desc r) →
    ∀ i m n, (nowRows r.q.desc r)[i]? = some m → n ∈ nowCols r.q.desc r →
      bytesAt d' (elemAddr (fTd r 2) (tileIx r.q.desc r m n)) (elemLen (fTd r 2)) =
        toBytes ((fmtOf (fTd r 2)).width / 8) (tileCode r.q.desc r (tileSum d (runAcc d t r) r i m n)).1
  handed : fEpi r.q.desc = 0 → BufFull r →
    fOutMode r.q.desc ≠ 0 → ∃ o : OutTile, (o ∈ (tileOf d' t).handoff ∨ o ∈ (tileOf d' t).banks) ∧
      (o.batch, o.mt, o.nt) = fPassAt r.q.desc r r.work.step ∧ o.rows = (nowRows r.q.desc r).length ∧ o.cols = (nowCols r.q.desc r).length ∧
      ∀ i m j n, (nowRows r.q.desc r)[i]? = some m → (nowCols r.q.desc r)[j]? = some n →
        o.data[64 * i + j]? = some (tileSum d (runAcc d t r) r i m n)

section
variable {d : Dev} {t : Nat} {r : RunOp} (px : Polder) (hrun : runOf d t .fuller = some r) (hbeg : r.begun = true) (hend : r.ended = none)
  (hbad : r.bad = none) (hgone : r.gone = none) (hnote : r.note = none) (hstep : r.work.step < fPasses r.q.desc r) (hecc : d.mem.ecc = [])
include hrun hbeg hend hbad hgone hnote hstep hecc

theorem fullerPass_memory (hreads : AllInput d r (tileReads r.q.desc r)) (hreach : ∀ p ∈ tileWrites r.q.desc r, Reach d p.1 p.2) :
    TileDone t r d (fullerDone (fullerPass d t r px) t) := by
  have hrows := nowRows_ne hstep
  have hcols := nowCols_ne hstep
  have hpass := fullerPass_eq t px hbad (tileRngs_here hrows hcols hreads.here fun p hp => (hreach p hp).here)
  obtain ⟨hctx, hvals⟩ := tileFetch_input (t := t) px hecc hcols hreads
  rw [hctx, hnote] at hpass
  generalize (tileFetch d t r px).2 = v at hpass hvals
  have hgrid (hepi : fEpi r.q.desc = 0) (hbuf : BufFull r) : tileGrid r.q.desc r v =
      gridOf (List.range (nowRows r.q.desc r).length) (nowCols r.q.desc r) fun i n =>
        tileSum d (runAcc d t r) r i (rowAt r.q.desc r i) n := by
    unfold tileGrid
    rw [if_pos hepi]
    exact tileAdap_eq hvals hrows hcols hbuf
  have hnext {d1 : Dev} (hq : Quiet d d1) (cn : Counts) :
      runOf (onRun d1 t .fuller (tileNext r.work.step cn none)) t .fuller = some (tileNext r.work.step cn none r) := by
    rw [runOf_onRun, hq.runOf, hrun, Option.map_some]
  by_cases hmode : fOutMode r.q.desc = 0
  · obtain ⟨d2, cn, hdrain, hq, hbeside, hcodes⟩ := tileDrain_memory (t := t) (v := v) hecc hmode hreach none
    rw [hpass.trans hdrain]
    have hlast := (RunAlone.of_onRun d2 t .fuller (tileNext r.work.step cn none)).trans (fullerDone_alone _ t)
    refine ⟨fun a ha => (hlast.onlyTiles.byteAt a).trans (hbeside a ha), tileNext_done hend hbeg hgone (hnext hq cn),
      fun hepi hbuf _ hfloat hspread i m n hm hn => ?_, fun _ _ h => absurd hmode h⟩
    obtain ⟨hi, rfl⟩ := nowRows_getElem? hm
    exact (hlast.onlyTiles.bytesAt ..).trans (hcodes _ (hgrid hepi hbuf) (float_width hfloat) hspread i hi n hn)
  · obtain ⟨d1, cn, hq, hcount, hdrain⟩ := tileDrain_handoff (d := d) (t := t) (v := v) hmode hgone none
    rw [hpass.trans hdrain]
    refine ⟨fun a _ => ?_, tileNext_done hend hbeg hgone ((runOf_tilePlaced ..).trans (hnext hq cn)), fun _ _ h => absurd h hmode,
      fun hepi hbuf _ => ?_⟩
    · refine OnlyTiles.byteAt (((hcount.trans ?_).trans (tilePlaced_onlyTiles ..)).trans (fullerDone_alone ..).onlyTiles) a
      exact (RunAlone.of_onRun ..).onlyTiles
    · refine ⟨tileOut r.q.desc r (tileGrid r.q.desc r v), ?_, rfl, rfl, rfl, fun i m j n hm hn => ?_⟩
      · have hplaced := hq.placed (t := t) (tileOut r.q.desc r (tileGrid r.q.desc r v)) (tileNext r.work.step cn none)
        dsimp only at hplaced
        split at hplaced
        · exact .inl (by rw [hplaced.1]; simp)
        · exact .inr (by rw [hplaced.1]; simp)
      · obtain ⟨hi, rfl⟩ := nowRows_getElem? hm
        rw [hgrid hepi hbuf]
        exact tileOut_data hi hn

end

/-- Settles O20: a pass ends as `fullerPassEnd_outcome` says; where its elements can all be read, a down pass enters its columns into
the adapter buffer (`fullerDown_memory`), and an output tile is stored or handed off (`fullerPass_memory`). -/
theorem fullerPasses : Obligations.FullerPasses := by
  unfold Obligations.FullerPasses
  refine ⟨fun t s r px hrun hbeg hend hbad hgone hres hlocal hpol hstep hheld => ?_,
    fun t s r px hrun hbeg hend hbad hgone hnote hpol hstep hheld hecc => ⟨fun hdue hreads hreach => ?_, fun hdue hreads hreach => ?_⟩⟩
  · obtain ⟨hframe, r', hrun', hq, htds, hout⟩ := fullerPassEnd_outcome hrun hbeg hend hbad hgone hres hlocal hpol hstep hheld
    exact ⟨_, r', rfl, ⟨rfl, rfl, rfl⟩, hrun', hq, htds, hframe.engines, hframe.others, hout⟩
  · have heq := fullerPassEnd_eq hrun hbeg hend hpol hstep hheld
    rw [if_pos hdue] at heq
    obtain ⟨hbeside, r', hrun', hend', hstep', hdown, hvals⟩ := fullerDown_memory px hecc hrun hend hbad hreads hreach
    rw [← heq] at hbeside hrun'
    exact ⟨⟨_, rfl, hbeside⟩, _, r', rfl, hrun', hend', hstep', hdown, hvals⟩
  · have heq := fullerPassEnd_eq hrun hbeg hend hpol hstep hheld
    rw [if_neg (by rw [hdue]; decide)] at heq
    have hdone := fullerPass_memory px hrun hbeg hend hbad hgone hnote hstep hecc hreads hreach
    rw [← heq] at hdone
    obtain ⟨hbeside, ⟨r', hrun', hstep', hend'⟩, hstored, hhanded⟩ := hdone
    exact ⟨⟨_, rfl, hbeside⟩, _, r', rfl, hrun', hstep', hend', fun hepi hbuf => ⟨hstored hepi hbuf, hhanded hepi hbuf⟩⟩

end Sys2Proof.Machine
end

section
/-! The sums by rows and SOFTMAX's rows (R126, R144, R148): a sequence whose first part is made of whole blocks of 64 goes on from
that part's sum, and among numbers +∞ is the maximum of R145 wherever it stands. -/

namespace Sys2Proof.Machine

/-! ### rowsum -/

/-- The running sum after one more block (R126). -/
def addBlock (s : Option F32) (block : List F32) : F32 := s.elim (tree64 block) (fadd · (tree64 block))

@[simp] theorem rowsumGo_nil (n : Nat) (s : Option F32) : rowsumGo n s [] = s.getD 0 := by
  cases n <;> rfl

theorem rowsumGo_block {l : List F32} (h : 0 < l.length) (n : Nat) (s : Option F32) :
    rowsumGo (n + 1) s l = rowsumGo n (some (addBlock s (l.take 64))) (l.drop 64) := by
  rw [rowsumGo, if_neg (List.ne_nil_of_length_pos h)]
  cases s <;> rfl

theorem rowsumGo_append_block {a : List F32} (ha : 64 ≤ a.length) (n : Nat) (s : Option F32) (b : List F32) :
    rowsumGo (n + 1) s (a ++ b) = rowsumGo n (some (addBlock s (a.take 64))) (a.drop 64 ++ b) := by
  rw [rowsumGo_block (by rw [List.length_append]; omega), List.take_append_of_le_length ha, List.drop_append_of_le_length ha]

/-- Past whole blocks the sum goes on from theirs. -/
theorem rowsumGo_append (n k : Nat) (s : Option F32) (a b : List F32) (ha : a.length = 64 * (k + 1)) :
    rowsumGo (k + 1 + n) s (a ++ b) = rowsumGo n (some (rowsumGo (k + 1) s a)) b := by
  induction k generalizing s a with
  | zero =>
    rw [Nat.add_right_comm, rowsumGo_append_block (by omega), rowsumGo_block (by omega)]
    simp [List.drop_of_length_le ha.le]
  | succ k ih =>
    have hdrop : (a.drop 64).length = 64 * (k + 1) := by rw [List.length_drop]; omega
    rw [Nat.add_right_comm, rowsumGo_append_block (by omega), rowsumGo_block (by omega)]
    exact ih _ _ hdrop

/-- A row of whole blocks and one block more: the tree of that block is added to the sum before it (R126). -/
theorem rowsum_append (a b : List F32) (ha : 0 < a.length) (hblocks : a.length % 64 = 0) (hb : 0 < b.length)
    (hlast : b.length ≤ 64) : rowsum (a ++ b) = fadd (rowsum a) (tree64 b) := by
  obtain ⟨k, hk⟩ : ∃ k, a.length = 64 * (k + 1) := ⟨a.length / 64 - 1, by omega⟩
  have hfirst : rowsum a = rowsumGo (k + 1) none a := by
    have hgo := rowsumGo_append 1 k none a [] hk
    rwa [List.append_nil, rowsumGo_nil, Option.getD_some, show k + 1 + 1 = a.length / 64 + 1 by omega] at hgo
  have hfuel : (a ++ b).length / 64 + 1 = k + 1 + (b.length / 64 + 1) := by rw [List.length_append]; omega
  rw [rowsum, hfuel, rowsumGo_append _ k none a b hk, ← hfirst, rowsumGo_block hb,
    List.take_of_length_le hlast, List.drop_of_length_le hlast, rowsumGo_nil]
  rfl

theorem stReduce_sum (l : List (Option F32)) : stReduce 2 l = rowsum (l.map fun v => v.getD 0) := rfl

/-! ### The maximum among numbers with +∞ (R145) -/

theorem val32_inf32 : val32 inf32 = .inf false := by decide

/-- No other encoding holds +∞. -/
theorem eq_inf32_of_val32 {x : F32} (h : val32 x = .inf false) : x = inf32 := by
  obtain ⟨neg, mag, hmag, hx⟩ := fp32.exists_sign_add x.isLt
  have hF := FFmt.layout_of_mem (F := fp32) (by simp)
  obtain ⟨hneg, hfield, hfrac, -⟩ := FFmt.decode_fields hF neg hmag
  simp only [val32, hx, FFmt.decode, hneg, hfield, hfrac] at h
  split_ifs at h with hones hzero
  obtain rfl : neg = false := FVal.inf.inj h
  obtain ⟨-, hones⟩ := hones
  refine BitVec.eq_of_toNat_eq (hx.trans ?_)
  have hmag : mag = 255 * 2 ^ 23 := by
    rw [← Nat.div_add_mod mag (2 ^ fp32.fbits), hones, hzero]
    rfl
  rw [hmag]
  rfl

theorem ford_inf32_left (y : F32) : ford inf32 y = false := by
  have hlt : (FVal.inf false).lt (val32 y) = false := by cases val32 y <;> rfl
  simp [ford, flt, val32_inf32, hlt, FVal.isNeg]

theorem ford_inf32_right {x : F32} (h : fnan? x = false) (hne : x ≠ inf32) : ford x inf32 = true := by
  have hval : val32 x ≠ .inf false := mt eq_inf32_of_val32 hne
  rw [fnan?] at h
  rw [ford, flt, val32_inf32]
  cases hx : val32 x with
  | nan => rw [hx] at h; cases h
  | inf neg => cases neg with
    | false => exact absurd hx hval
    | true => rfl
  | fin neg m e => rfl

theorem fnan?_inf32 : fnan? inf32 = false := by decide

/-- Of two numbers `fmax` gives the greater. -/
theorem fmax_of_num {x y : F32} (hx : fnan? x = false) (hy : fnan? y = false) : fmax x y = if ford x y then y else x := by
  simp [fmax, hx, hy]

theorem fmax_inf32_left {y : F32} (h : fnan? y = false) : fmax inf32 y = inf32 := by
  simp [fmax_of_num fnan?_inf32 h, ford_inf32_left]

theorem fmax_inf32_right {x : F32} (h : fnan? x = false) : fmax x inf32 = inf32 := by
  by_cases hx : x = inf32
  · rw [hx, fmax_inf32_left fnan?_inf32]
  · simp [fmax_of_num h fnan?_inf32, ford_inf32_right h hx]

theorem fnan?_fmax {x y : F32} (hx : fnan? x = false) (hy : fnan? y = false) : fnan? (fmax x y) = false := by
  rw [fmax_of_num hx hy]
  split
  · exact hy
  · exact hx

theorem foldl_fmax_inf32 {l : List F32} {a : F32} (ha : fnan? a = false) (hl : ∀ v ∈ l, fnan? v = false)
    (h : inf32 ∈ a :: l) : l.foldl fmax a = inf32 := by
  induction l generalizing a with
  | nil => exact (List.mem_singleton.1 h).symm
  | cons b l ih =>
    obtain ⟨hb, hl⟩ := List.forall_mem_cons.1 hl
    refine ih (fnan?_fmax ha hb) hl ?_
    obtain rfl | h := List.mem_cons.1 h
    · simp [fmax_inf32_left hb]
    obtain rfl | h := List.mem_cons.1 h
    · simp [fmax_inf32_right ha]
    · exact List.mem_cons_of_mem _ h

/-! ### Rows of SOFTMAX -/

theorem softRow_ninf {xs : List (Option F32)} (h : ∀ v ∈ xs, v = none ∨ v = some ninf32) :
    softRow xs = (xs.map fun _ => 0, true) := by
  have hall : (xs.filterMap id).all (fun v => v = ninf32) = true := by
    simp only [List.all_eq_true, List.mem_filterMap, id_eq, exists_eq_right, decide_eq_true_eq]
    exact fun v hv => Option.some.inj ((h _ hv).resolve_left (by simp))
  rw [softRow, if_pos hall]

/-- A row with some value other than −∞ is not empty. -/
theorem not_all_ninf {xs : List (Option F32)} {v : F32} (hv : some v ∈ xs) (hne : v ≠ ninf32) :
    ¬(xs.filterMap id).all (fun v => v = ninf32) = true := by
  simp only [List.all_eq_true, List.mem_filterMap, id_eq, exists_eq_right, decide_eq_true_eq]
  exact fun h => hne (h v hv)

theorem softRow_nan {xs : List (Option F32)} {v : F32} (hv : some v ∈ xs) (hnan : fnan? v = true) :
    softRow xs = (xs.map fun _ => nan32, false) := by
  have hne : v ≠ ninf32 := by rintro rfl; revert hnan; decide
  have hany : (xs.filterMap id).any fnan? = true := List.any_eq_true.2 ⟨v, by simpa using hv, hnan⟩
  rw [softRow, if_neg (not_all_ninf hv hne), if_pos hany]

theorem length_filter_inf32 (xs : List (Option F32)) :
    ((xs.filterMap id).filter fun v => v = inf32).length = xs.count (some inf32) := by
  rw [← List.countP_eq_length_filter, List.countP_filterMap, List.count]
  refine List.countP_congr fun v _ => ?_
  cases v <;> simp

theorem softRow_inf {xs : List (Option F32)} (hnum : ∀ v, some v ∈ xs → fnan? v = false) (hinf : some inf32 ∈ xs) :
    softRow xs =
      (xs.map fun v => if v = some inf32 then fdiv one32 (fofNat (xs.count (some inf32))) else 0, false) := by
  have hall := not_all_ninf hinf (by decide)
  have hcount := length_filter_inf32 xs
  have hmem : ∀ v, v ∈ xs.filterMap id ↔ some v ∈ xs := by simp
  generalize hu : xs.filterMap id = u at hall hcount hmem
  have hnum' : ∀ v ∈ u, fnan? v = false := fun v hv => hnum v ((hmem v).1 hv)
  have hany : ¬u.any fnan? = true := by simpa using hnum'
  cases u with
  | nil => exact absurd ((hmem inf32).2 hinf) List.not_mem_nil
  | cons a t =>
    obtain ⟨ha, ht⟩ := List.forall_mem_cons.1 hnum'
    simp only [softRow, hu, if_neg hall, if_neg hany, foldl_fmax_inf32 ha ht ((hmem inf32).2 hinf), hcount, if_true]

/-- Settles O12: SOFTMAX's rows by `softRow_ninf`, `softRow_nan` and `softRow_inf`, the blocks by `rowsum_append`. -/
theorem rowArithmetic : Obligations.RowArithmetic := by
  unfold Obligations.RowArithmetic
  refine ⟨fun _ => softRow_ninf, fun _ ⟨_, hv, hnan⟩ => softRow_nan hv hnan, fun _ => softRow_inf, rowsum_append, fun a b => ?_⟩
  simp [stReduce_sum]

end Sys2Proof.Machine
end

section
/-! The order of R145: numbers by value with −0 below +0. A maximum or minimum of a sequence is the greatest or least of its keys,
whatever the order in which the values are compared. -/

namespace Sys2Proof.Machine

/-! ### Keys -/

/-- Where a number stands in the order of R145: infinities outside the finite values, −0 below +0. -/
def FVal.key : FVal → ℤ ×ₗ ℚ ×ₗ Bool
  | .inf n => toLex (if n then -1 else 1, toLex (0, !n))
  | v => toLex (0, toLex (v.rat, !v.isNeg))

theorem FVal.eqv_iff {x y : FVal} (hx : x.finite = true) (hy : y.finite = true) : x.eqv y = true ↔ x.rat = y.rat := by
  have hxy := FVal.lt_iff hx hy
  have hyx := FVal.lt_iff hy hx
  simp only [FVal.eqv, isNan_of_finite hx, isNan_of_finite hy, Bool.not_false, Bool.true_and, Bool.and_eq_true, Bool.not_eq_true',
    ← Bool.not_eq_true, hxy, hyx, not_lt]
  exact ⟨fun h => h.2.antisymm h.1, fun h => ⟨h.ge, h.le⟩⟩

/-- The order of R145 is that of the keys. -/
theorem ford_iff {x y : F32} (hx : fnan? x = false) (hy : fnan? y = false) :
    ford x y = true ↔ (val32 x).key < (val32 y).key := by
  unfold fnan? at hx hy
  unfold ford flt
  generalize val32 x = a at *
  generalize val32 y = b at *
  cases a with
  | nan => cases hx
  | inf n =>
    cases b with
    | nan => cases hy
    | inf m => cases n <;> cases m <;> simp [FVal.key, FVal.lt, FVal.eqv, FVal.isNeg, Prod.Lex.toLex_lt_toLex]
    | fin m k e => cases n <;> simp [FVal.key, FVal.lt, FVal.eqv, FVal.isNan, FVal.isNeg, Prod.Lex.toLex_lt_toLex]
  | fin n k e =>
    cases b with
    | nan => cases hy
    | inf m => cases m <;> simp [FVal.key, FVal.lt, FVal.eqv, FVal.isNan, FVal.isNeg, Prod.Lex.toLex_lt_toLex]
    | fin m j f =>
      simp only [Bool.or_eq_true, Bool.and_eq_true, FVal.lt_iff (FVal.finite_fin n k e) (FVal.finite_fin m j f),
        FVal.eqv_iff (FVal.finite_fin n k e) (FVal.finite_fin m j f), FVal.key, Prod.Lex.toLex_lt_toLex, lt_irrefl, false_or, true_and,
        FVal.isNeg, Bool.not_eq_true', and_assoc]
      cases n <;> cases m <;> simp

theorem ford_false_iff {x y : F32} (hx : fnan? x = false) (hy : fnan? y = false) :
    ford x y = false ↔ (val32 y).key ≤ (val32 x).key := by
  rw [← Bool.not_eq_true, ford_iff hx hy, not_lt]

/-! ### Maxima and minima -/

/-- Of two numbers the one with the greater key, the first where they are equal; with a NaN, the canonical NaN. -/
structure Chooses {α : Type} [LinearOrder α] (key : F32 → α) (f : F32 → F32 → F32) : Prop where
  num : ∀ x y, fnan? x = false → fnan? y = false → f x y = if key x < key y then y else x
  nan : ∀ x y, fnan? x = true ∨ fnan? y = true → f x y = nan32

theorem fmax_chooses : Chooses (fun x => (val32 x).key) fmax :=
  ⟨fun x y hx hy => by simp only [fmax_of_num hx hy, ford_iff hx hy], fun x y h => if_pos (by simpa using h)⟩

theorem fmin_chooses : Chooses (fun x => OrderDual.toDual (val32 x).key) fmin :=
  ⟨fun x y hx hy => by simp [fmin, hx, hy, ford_iff hy hx], fun x y h => if_pos (by simpa using h)⟩

theorem fnan?_nan32 : fnan? nan32 = true := by decide

section
variable {α : Type} [LinearOrder α] {key : F32 → α} {f : F32 → F32 → F32} (hf : Chooses key f)
include hf

theorem Chooses.pair {a b : F32} (ha : fnan? a = false) (hb : fnan? b = false) :
    (f a b = a ∨ f a b = b) ∧ key a ≤ key (f a b) ∧ key b ≤ key (f a b) := by
  rw [hf.num a b ha hb]
  split
  next hlt => exact ⟨.inr rfl, hlt.le, le_rfl⟩
  next hge => exact ⟨.inl rfl, le_rfl, not_lt.1 hge⟩

/-- Among numbers a fold gives one of the greatest key. -/
theorem Chooses.foldl {l : List F32} {a : F32} (h : ∀ v ∈ a :: l, fnan? v = false) :
    l.foldl f a ∈ a :: l ∧ ∀ w ∈ a :: l, key w ≤ key (l.foldl f a) := by
  induction l generalizing a with
  | nil => simp
  | cons b l ih =>
    obtain ⟨ha, hl⟩ := List.forall_mem_cons.1 h
    obtain ⟨hb, hl⟩ := List.forall_mem_cons.1 hl
    obtain ⟨hpick, hla, hlb⟩ := hf.pair ha hb
    obtain ⟨hin, hmax⟩ := ih (a := f a b) (List.forall_mem_cons.2 ⟨by rcases hpick with h | h <;> rwa [h], hl⟩)
    obtain ⟨hfirst, hmax⟩ := List.forall_mem_cons.1 hmax
    refine ⟨?_, List.forall_mem_cons.2 ⟨hla.trans hfirst, List.forall_mem_cons.2 ⟨hlb.trans hfirst, hmax⟩⟩⟩
    rw [List.foldl_cons]
    rcases List.mem_cons.1 hin with h | h
    · rw [h]
      rcases hpick with h | h <;> simp [h]
    · exact List.mem_cons_of_mem _ (List.mem_cons_of_mem _ h)

/-- A NaN anywhere makes a fold the canonical NaN; the first value comes canonical. -/
theorem Chooses.foldl_nan {l : List F32} {a : F32} (ha : fnan? a = true → a = nan32) (h : ∃ v ∈ a :: l, fnan? v = true) :
    l.foldl f a = nan32 := by
  induction l generalizing a with
  | nil =>
    obtain ⟨v, hv, hnan⟩ := h
    obtain rfl := List.mem_singleton.1 hv
    exact ha hnan
  | cons b l ih =>
    by_cases hab : fnan? a = true ∨ fnan? b = true
    · rw [List.foldl_cons, hf.nan a b hab]
      exact ih (fun _ => rfl) ⟨nan32, List.mem_cons_self, fnan?_nan32⟩
    · obtain ⟨hna, hnb⟩ : fnan? a = false ∧ fnan? b = false := by simpa using hab
      obtain ⟨v, hv, hnan⟩ := h
      have hv : v ∈ l := by grind
      have hpick := (hf.pair hna hnb).1
      exact ih (by grind) ⟨v, List.mem_cons_of_mem _ hv, hnan⟩

end

/-! ### Values that FP32 holds exactly -/

/-- A magnitude's significand and unit round to it. -/
theorem FFmt.rneQ_sig (F : FFmt) (neg : Bool) {mag : Nat} (h : mag ≤ F.maxFin) : F.rneQ neg (F.sig mag) 1 (F.unit mag) = F.sign neg + mag := by
  by_cases h0 : mag = 0
  · simp [FFmt.rneQ, FFmt.sig_eq_zero, h0]
  · simp [FFmt.rneQ, FFmt.sig_eq_zero, h0, F.roundMag_sig h0, F.pack_sig_unit, Nat.not_lt.2 h]

/-- An encoding of an infinity. -/
theorem FFmt.mag_of_inf {F : FFmt} (hF : F.Layout) {neg n : Bool} {mag : Nat} (h : mag < 2 ^ (F.ebits + F.fbits))
    (hinf : F.decode (F.sign neg + mag) = .inf n) : F.hasInf = true ∧ neg = n ∧ mag = F.maxFin + 1 := by
  obtain ⟨hneg, hfield, hfrac, -⟩ := decode_fields hF neg h
  simp only [FFmt.decode, hneg, hfield, hfrac] at hinf
  split_ifs at hinf with hones hzero
  have hdiv := Nat.div_add_mod mag (2 ^ F.fbits)
  rw [hones.2, hzero, Nat.add_zero, Nat.mul_comm, ← hF.inf hones.1] at hdiv
  exact ⟨hones.1, FVal.inf.inj hinf, hdiv.symm⟩

/-- Every number is its own canonical form (R37, R48). -/
theorem fcanon_num {x : F32} (h : fnan? x = false) : fcanon x = x := by
  have hF := FFmt.layout_of_mem (F := fp32) (by simp)
  obtain ⟨neg, mag, hmag, hx⟩ := fp32.exists_sign_add x.isLt
  suffices hround : fp32.rne (val32 x) = x.toNat by rw [fcanon, rne32, hround, BitVec.ofNat_toNat, BitVec.setWidth_eq]
  rw [fnan?] at h
  have hval : val32 x = fp32.decode (fp32.sign neg + mag) := congrArg fp32.decode hx
  cases hv : val32 x with
  | nan => rw [hv] at h; cases h
  | inf n =>
    obtain ⟨-, rfl, rfl⟩ := FFmt.mag_of_inf hF hmag (hval.symm.trans hv)
    exact hx.symm
  | fin n m e =>
    have hle := FFmt.le_maxFin_of_finite hF hmag (by rw [← hval, hv]; rfl)
    rw [← hv, hval, FFmt.decode_of_le hF neg hle, hx]
    exact fp32.rneQ_sig neg hle

theorem fcanon_nan {x : F32} (h : fnan? x = true) : fcanon x = nan32 := by
  unfold fnan? at h
  unfold fcanon
  cases hv : val32 x with
  | nan => rfl
  | inf n => rw [hv] at h; cases h
  | fin n m e => rw [hv] at h; cases h

/-- What `pack` puts together, `sig` and `unit` take apart. -/
theorem FFmt.sig_unit_pack {F : FFmt} {q : Nat} {u : Int} (hlo : 2 ^ F.fbits ≤ q) (hhi : q < 2 ^ (F.fbits + 1)) (hu : 1 ≤ u + F.fbits + F.bias) :
    F.sig (F.pack q u) = q ∧ F.unit (F.pack q u) = u := by
  have hpos := Nat.two_pow_pos F.fbits
  have hfrac : q - 2 ^ F.fbits < 2 ^ F.fbits := by rw [Nat.pow_succ] at hhi; omega
  rw [pack_normal hlo hhi, Nat.mul_comm]
  generalize hfield : (u + F.fbits + F.bias).toNat = k
  have hk : 1 ≤ k := by omega
  have hn : 2 ^ F.fbits ≤ 2 ^ F.fbits * k + (q - 2 ^ F.fbits) := (Nat.le_mul_of_pos_right _ hk).trans (Nat.le_add_right ..)
  rw [sig_normal hn, unit_normal hn, Nat.mul_add_mod, Nat.mul_add_div hpos, Nat.mod_eq_of_lt hfrac, Nat.div_eq_of_lt hfrac]
  omega

/-- A number in the unit that leaves it the 24 bits of an FP32 significand. -/
theorem fp32_roundMag_nat {i : Nat} (h0 : i ≠ 0) (hlog : i.log2 ≤ 23) :
    fp32.roundMag false i 1 0 = (i * 2 ^ (23 - i.log2), (i.log2 : Int) - 23, false) := by
  have hu : max ((i.log2 : Int) + 0 - fp32.fbits) (1 - fp32.bias - fp32.fbits) = (i.log2 : Int) - 23 := by simp [fp32]; omega
  have hk : (0 : Int) ≤ 0 - ((i.log2 : Int) - 23) := by omega
  have hshift : (0 - ((i.log2 : Int) - 23)).toNat = 23 - i.log2 := by omega
  simp only [FFmt.roundMag, floorLog2Q_one h0, hu, if_pos hk, shl2, hshift, Nat.shiftLeft_eq]
  simp [b2n, Nat.mod_one]

/-- Every number below 2^24 is an FP32 value. -/
theorem val32_fofNat {i : Nat} (h : i < 2 ^ 24) : (val32 (fofNat i)).eqv (.fin false i 0) = true := by
  by_cases h0 : i = 0
  · subst h0; decide
  have hF := FFmt.layout_of_mem (F := fp32) (by simp)
  have hlog : i.log2 ≤ 23 := Nat.lt_succ_iff.1 ((Nat.log2_lt h0).2 h)
  have hlo : 2 ^ fp32.fbits ≤ i * 2 ^ (23 - i.log2) := by
    have := Nat.mul_le_mul_right (2 ^ (23 - i.log2)) (Nat.log2_self_le h0)
    rwa [← Nat.pow_add, Nat.add_sub_cancel' hlog] at this
  have hhi : i * 2 ^ (23 - i.log2) < 2 ^ (fp32.fbits + 1) := by
    have := Nat.mul_lt_mul_of_pos_right (Nat.lt_log2_self (n := i)) (Nat.two_pow_pos (23 - i.log2))
    rwa [← Nat.pow_add, show i.log2 + 1 + (23 - i.log2) = 24 by omega] at this
  have hfield : 1 ≤ (i.log2 : Int) - 23 + fp32.fbits + fp32.bias := by simp [fp32]; omega
  obtain ⟨hsig, hunit⟩ := FFmt.sig_unit_pack hlo hhi hfield
  have hround := fp32_roundMag_nat h0 hlog
  have hpack := FFmt.pack_normal hlo hhi ((i.log2 : Int) - 23)
  generalize hmag : fp32.pack (i * 2 ^ (23 - i.log2)) ((i.log2 : Int) - 23) = mag at *
  have hle : mag ≤ fp32.maxFin := by
    simp only [fp32] at *
    omega
  have hnat : (fofNat i).toNat = mag := by
    have hrne : fp32.rne (.fin false i 0) = mag := by
      simp [FFmt.rne, FFmt.rneQ, h0, hround, hmag, Nat.not_lt.2 hle, FFmt.sign]
    rw [fofNat, rne32, hrne, BitVec.toNat_ofNat, Nat.mod_eq_of_lt (hle.trans_lt (by decide))]
  rw [val32, hnat, FFmt.decode_pos_of_le hF hle, hsig, hunit, FVal.eqv_iff rfl rfl, FVal.rat_pos, FVal.rat_pos]
  push_cast
  rw [mul_assoc, ← zpow_natCast, ← zpow_add₀ two_ne_zero, Nat.cast_sub hlog]
  norm_num

/-! ### The index of the maximum -/

/-- The first NaN of some indexed values, or where there is none the first of the greatest. -/
structure IsArgmax (b : Nat × F32) (l : List (Nat × F32)) : Prop where
  mem : b ∈ l
  nan : fnan? b.2 = true → ∀ p ∈ l, p.1 < b.1 → fnan? p.2 = false
  num : fnan? b.2 = false → ∀ p ∈ l, fnan? p.2 = false ∧ ford b.2 p.2 = false ∧ (p.1 < b.1 → ford p.2 b.2 = true)

theorem IsArgmax.step {b p : Nat × F32} {l : List (Nat × F32)} (h : IsArgmax b l) (hp : ∀ q ∈ l, q.1 < p.1) :
    IsArgmax (if !fnan? b.2 && (fnan? p.2 || ford b.2 p.2) then p else b) (l ++ [p]) := by
  have hlate : ¬p.1 < b.1 := (hp b h.mem).asymm
  cases hb : fnan? b.2 with
  | true => exact ⟨by simp [h.mem], fun _ => by simpa [or_imp, forall_and, hlate] using h.nan hb, fun hn => by simp [hb] at hn⟩
  | false =>
    have hnum := h.num hb
    cases hpn : fnan? p.2 with
    | true => exact ⟨by simp, fun _ => by simpa [or_imp, forall_and] using fun i v hv _ => (hnum (i, v) hv).1, fun hn => by simp [hpn] at hn⟩
    | false =>
      simp only [Bool.not_false, Bool.true_and, Bool.false_or]
      split
      next hlt =>
        refine ⟨by simp, fun hn => by simp [hpn] at hn, fun _ => List.forall_mem_append.2 ⟨fun q hq => ?_, ?_⟩⟩
        · obtain ⟨hqn, hbq, -⟩ := hnum q hq
          have hqp : (val32 q.2).key < (val32 p.2).key := ((ford_false_iff hb hqn).1 hbq).trans_lt ((ford_iff hb hpn).1 hlt)
          exact ⟨hqn, (ford_false_iff hpn hqn).2 hqp.le, fun _ => (ford_iff hqn hpn).2 hqp⟩
        · simp [hpn, ford_false_iff hpn hpn]
      next hge =>
        refine ⟨by simp [h.mem], fun hn => by simp [hb] at hn, fun _ => List.forall_mem_append.2 ⟨hnum, ?_⟩⟩
        simp [hpn, hlate, Bool.not_eq_true _ ▸ hge]

theorem argmaxGo_isArgmax {b : Nat × F32} {l m : List (Nat × F32)} (h : IsArgmax b l) (hm : (l ++ m).Pairwise fun p q => p.1 < q.1) :
    IsArgmax (argmaxGo b m) (l ++ m) := by
  induction m generalizing b l with
  | nil => rwa [List.append_nil]
  | cons p m ih =>
    rw [List.append_cons] at hm ⊢
    have hp := (List.pairwise_append.1 (List.pairwise_append.1 hm).1).2.2
    exact ih (h.step fun q hq => hp q hq p (List.mem_singleton_self p)) hm

theorem mem_zip_range {α : Type} {l : List α} {i : Nat} {a : α} : (i, a) ∈ List.zip (List.range l.length) l ↔ l[i]? = some a := by
  simp only [List.mem_iff_getElem?, List.getElem?_zip_eq_some]
  constructor
  · rintro ⟨k, hk, ha⟩
    obtain ⟨_, hk⟩ := List.getElem?_eq_some_iff.1 hk
    rwa [← hk, List.getElem_range]
  · intro ha
    have hi : i < l.length := (List.getElem?_eq_some_iff.1 ha).1
    exact ⟨i, by simp [hi], ha⟩

/-- The values of a sequence with their indices. -/
def indexed (l : List (Option F32)) : List (Nat × F32) := (List.zip (List.range l.length) l).filterMap fun p => p.2.map fun v => (p.1, v)

theorem mem_indexed {l : List (Option F32)} {p : Nat × F32} : p ∈ indexed l ↔ l[p.1]? = some (some p.2) := by
  rw [← mem_zip_range, indexed, List.mem_filterMap]
  constructor
  · rintro ⟨⟨i, o⟩, hmem, ho⟩
    obtain ⟨v, rfl, rfl⟩ := Option.map_eq_some_iff.1 ho
    exact hmem
  · exact fun h => ⟨_, h, rfl⟩

theorem indexed_pairwise (l : List (Option F32)) : (indexed l).Pairwise fun p q => p.1 < q.1 := by
  have hzip : (List.zip (List.range l.length) l).Pairwise fun p q => p.1 < q.1 := by
    rw [← List.pairwise_map (f := Prod.fst), List.map_fst_zip (by simp)]
    exact List.pairwise_lt_range
  refine hzip.filterMap _ fun a b hab x hx y hy => ?_
  obtain ⟨v, -, rfl⟩ := Option.map_eq_some_iff.1 hx
  obtain ⟨w, -, rfl⟩ := Option.map_eq_some_iff.1 hy
  exact hab

/-! ### Reductions -/

theorem stReduce_max (l : List (Option F32)) :
    stReduce 3 l = match l.filterMap id with | [] => ninf32 | a :: t => t.foldl fmax (fcanon a) := rfl

theorem stReduce_min (l : List (Option F32)) :
    stReduce 4 l = match l.filterMap id with | [] => inf32 | a :: t => t.foldl fmin (fcanon a) := rfl

theorem mem_live {l : List (Option F32)} {v : F32} : v ∈ l.filterMap id ↔ some v ∈ l := by simp

/-- A maximum or minimum of a sequence with some value that is not masked. -/
def chosen (f : F32 → F32 → F32) : List F32 → F32
  | [] => 0
  | a :: t => t.foldl f (fcanon a)

theorem stReduce_chosen {l : List (Option F32)} (h : ∃ v, some v ∈ l) :
    stReduce 3 l = chosen fmax (l.filterMap id) ∧ stReduce 4 l = chosen fmin (l.filterMap id) := by
  obtain ⟨v, hv⟩ := h
  have hlive := mem_live.2 hv
  rw [stReduce_max, stReduce_min]
  cases hl : l.filterMap id with
  | nil => rw [hl] at hlive; cases hlive
  | cons a t => exact ⟨rfl, rfl⟩

section
variable {α : Type} [LinearOrder α] {key : F32 → α} {f : F32 → F32 → F32} (hf : Chooses key f)
include hf

theorem Chooses.chosen_nan {l : List F32} (h : ∃ v ∈ l, fnan? v = true) : chosen f l = nan32 := by
  obtain ⟨v, hv, hnan⟩ := h
  cases l with
  | nil => cases hv
  | cons a t =>
    refine hf.foldl_nan (fun hn => ?_) ?_
    · by_cases ha : fnan? a = true
      · exact fcanon_nan ha
      · rw [fcanon_num (by simpa using ha)] at hn; exact absurd hn ha
    · rcases List.mem_cons.1 hv with rfl | hv
      · exact ⟨_, List.mem_cons_self, by rw [fcanon_nan hnan]; exact fnan?_nan32⟩
      · exact ⟨v, List.mem_cons_of_mem _ hv, hnan⟩

theorem Chooses.chosen_num {l : List F32} (hl : l ≠ []) (h : ∀ v ∈ l, fnan? v = false) :
    chosen f l ∈ l ∧ ∀ w ∈ l, key w ≤ key (chosen f l) := by
  cases l with
  | nil => exact absurd rfl hl
  | cons a t =>
    rw [chosen, fcanon_num (h a List.mem_cons_self)]
    exact hf.foldl h

end

/-- REDUCE_ARGMAX gives the index of the first NaN, or of the first of the greatest values. -/
theorem stReduce_argmax {l : List (Option F32)} (h : ∃ v, some v ∈ l) :
    ∃ b, IsArgmax b (indexed l) ∧ stReduce 5 l = fofNat b.1 := by
  have hred : stReduce 5 l = match argmax (indexed l) with | some i => fofNat i | none => fneg one32 := rfl
  obtain ⟨v, hv⟩ := h
  obtain ⟨i, hi⟩ := List.mem_iff_getElem?.1 hv
  have hmem : (i, v) ∈ indexed l := mem_indexed.2 hi
  have hsorted := indexed_pairwise l
  rw [hred]
  cases hl : indexed l with
  | nil => rw [hl] at hmem; cases hmem
  | cons p m =>
    rw [hl] at hsorted
    have hfirst : IsArgmax p [p] := ⟨List.mem_singleton_self p, by simp, fun hn => by simp [hn, ford_false_iff hn hn]⟩
    exact ⟨_, argmaxGo_isArgmax hfirst hsorted, rfl⟩

/-! ### Every element masked -/

theorem pairUp_zero (n : Nat) : ∃ m, pairUp (List.replicate n 0) = List.replicate m 0 := by
  induction n using Nat.twoStepInduction with
  | zero => exact ⟨0, rfl⟩
  | one => exact ⟨1, rfl⟩
  | more n ih _ =>
    obtain ⟨m, hm⟩ := ih
    refine ⟨m + 1, ?_⟩
    rw [List.replicate_succ, List.replicate_succ, pairUp, hm, List.replicate_succ, show fadd 0 0 = 0 by decide]

theorem tree64_zero (n : Nat) : tree64 (List.replicate n 0) = 0 := by
  unfold tree64
  obtain ⟨a, ha⟩ := pairUp_zero n
  obtain ⟨b, hb⟩ := pairUp_zero a
  obtain ⟨c, hc⟩ := pairUp_zero b
  obtain ⟨d, hd⟩ := pairUp_zero c
  obtain ⟨e, he⟩ := pairUp_zero d
  obtain ⟨f, hf⟩ := pairUp_zero e
  rw [ha, hb, hc, hd, he, hf]
  cases f <;> rfl

theorem rowsumGo_zero (k n : Nat) {s : Option F32} (hs : s.getD 0 = 0) : rowsumGo k s (List.replicate n 0) = 0 := by
  induction k generalizing n s with
  | zero => exact hs
  | succ k ih =>
    cases n with
    | zero => exact hs
    | succ n =>
      rw [rowsumGo_block (by simp), List.take_replicate, List.drop_replicate, addBlock, tree64_zero]
      refine ih _ ?_
      cases s with
      | none => rfl
      | some v => obtain rfl : v = 0 := hs; decide

theorem stReduce_masked (n : Nat) : stReduce 2 (List.replicate n none) = 0 ∧ stReduce 3 (List.replicate n none) = ninf32 ∧
    stReduce 4 (List.replicate n none) = inf32 ∧ stReduce 5 (List.replicate n none) = fneg one32 := by
  have hlive : (List.replicate n (none : Option F32)).filterMap id = [] := by simp
  have hindex : indexed (List.replicate n none) = [] := List.eq_nil_iff_forall_not_mem.2 fun p hp => by
    simpa [List.getElem?_replicate] using mem_indexed.1 hp
  refine ⟨?_, ?_, ?_, ?_⟩
  · rw [stReduce_sum, List.map_replicate]
    exact rowsumGo_zero _ _ rfl
  · rw [stReduce_max, hlive]
  · rw [stReduce_min, hlive]
  · show (match argmax (indexed (List.replicate n none)) with | some i => fofNat i | none => fneg one32) = _
    rw [hindex]
    rfl

/-- Settles O11: the order by its keys, maxima and minima as folds of `Chooses`, the index by `IsArgmax`. -/
theorem reductionOrder : Obligations.ReductionOrder := by
  unfold Obligations.ReductionOrder
  refine ⟨by decide, fun x y => ⟨fun h => ⟨fmax_chooses.nan x y h, fmin_chooses.nan x y h⟩, fun hx hy => ?_⟩,
    fun l hl => ⟨fun ⟨v, hv, hnan⟩ => ?_, fun h => ?_, ?_⟩, stReduce_masked, fun _ => val32_fofNat⟩
  · obtain ⟨hmax, hmaxx, hmaxy⟩ := fmax_chooses.pair hx hy
    obtain ⟨hmin, hminx, hminy⟩ := fmin_chooses.pair hx hy
    have hnmax : fnan? (fmax x y) = false := by rcases hmax with h | h <;> rwa [h]
    have hnmin : fnan? (fmin x y) = false := by rcases hmin with h | h <;> rwa [h]
    exact ⟨hmax, (ford_false_iff hnmax hx).2 hmaxx, (ford_false_iff hnmax hy).2 hmaxy, hmin,
      (ford_false_iff hx hnmin).2 hminx, (ford_false_iff hy hnmin).2 hminy⟩
  · obtain ⟨hmax, hmin⟩ := stReduce_chosen hl
    have hlive : ∃ v ∈ l.filterMap id, fnan? v = true := ⟨v, mem_live.2 hv, hnan⟩
    exact ⟨hmax.trans (fmax_chooses.chosen_nan hlive), hmin.trans (fmin_chooses.chosen_nan hlive)⟩
  · obtain ⟨hmax, hmin⟩ := stReduce_chosen hl
    obtain ⟨v, hv⟩ := hl
    have hne := List.ne_nil_of_mem (mem_live.2 hv)
    have hnum : ∀ v ∈ l.filterMap id, fnan? v = false := fun v hv => h v (mem_live.1 hv)
    obtain ⟨hinmax, hgreatest⟩ := fmax_chooses.chosen_num hne hnum
    obtain ⟨hinmin, hleast⟩ := fmin_chooses.chosen_num hne hnum
    rw [hmax, hmin]
    exact ⟨⟨mem_live.1 hinmax, fun w hw => (ford_false_iff (hnum _ hinmax) (h w hw)).2 (hgreatest w (mem_live.2 hw))⟩,
      mem_live.1 hinmin, fun w hw => (ford_false_iff (h w hw) (hnum _ hinmin)).2 (hleast w (mem_live.2 hw))⟩
  · obtain ⟨⟨i, v⟩, hbest, hred⟩ := stReduce_argmax hl
    exact ⟨i, v, mem_indexed.1 hbest.mem, hred, fun hn j w hj hw => hbest.nan hn (j, w) (mem_indexed.2 hw) hj,
      fun hn j w hw => hbest.num hn (j, w) (mem_indexed.2 hw)⟩

end Sys2Proof.Machine
end

section
/-! The index vectors of a shape (R138, R139): those whose indices all lie below the extents. -/

namespace Sys2Proof.Machine

theorem volume_cons (n : Nat) (sh : List Nat) : volume (n :: sh) = n * volume sh := by
  have hprod (l : List Nat) : volume l = l.prod := List.prod_eq_foldl.symm
  rw [hprod, hprod, List.prod_cons]

theorem mem_shapeIxs {sh ix : List Nat} : ix ∈ shapeIxs sh ↔ List.Forall₂ (· < ·) ix sh := by
  simp only [shapeIxs, List.mem_map, List.mem_range]
  induction sh generalizing ix with
  | nil => simp [ixOf, volume, eq_comm]
  | cons n sh ih =>
    rw [volume_cons, List.forall₂_cons_right_iff]
    constructor
    · rintro ⟨i, hi, rfl⟩
      have hn : 0 < n := Nat.pos_of_mul_pos_right (Nat.zero_lt_of_lt hi)
      exact ⟨_, _, Nat.mod_lt i hn, ih.1 ⟨_, Nat.div_lt_of_lt_mul hi, rfl⟩, rfl⟩
    · rintro ⟨j, jx, hj, hjx, rfl⟩
      obtain ⟨k, hk, rfl⟩ := ih.2 hjx
      refine ⟨j + n * k, ?_, ?_⟩
      · calc j + n * k < n * (k + 1) := by rw [Nat.mul_succ]; omega
          _ ≤ n * volume sh := Nat.mul_le_mul_left _ hk
      · rw [ixOf, Nat.add_mul_mod_self_left, Nat.mod_eq_of_lt hj, Nat.add_mul_div_left _ _ (Nat.zero_lt_of_lt hj), Nat.div_eq_of_lt hj, Nat.zero_add]

theorem shapeIxs_ne {sh : List Nat} (h : ∀ n ∈ sh, n ≠ 0) : ∃ ix, ix ∈ shapeIxs sh := by
  refine ⟨sh.map fun _ => 0, mem_shapeIxs.2 ?_⟩
  rw [List.forall₂_map_left_iff, List.forall₂_same]
  exact fun n hn => Nat.pos_of_ne_zero (h n hn)

/-- An index vector of a row of a shape, with an index in that row. -/
theorem cons_mem_shapeIxs {sh rx : List Nat} {j : Nat} (hsh : sh ≠ []) (hj : j < sh.headD 1) (h : rx ∈ shapeIxs (sh.drop 1)) :
    j :: rx ∈ shapeIxs sh := by
  cases sh with
  | nil => exact absurd rfl hsh
  | cons n sh => exact mem_shapeIxs.2 (.cons hj (mem_shapeIxs.1 h))

theorem forall₂_set {α β : Type} {R : α → β → Prop} {l : List α} {m : List β} (h : List.Forall₂ R l m) (k : Nat) {a : α} {b : β} (hab : R a b) :
    List.Forall₂ R (l.set k a) (m.set k b) := by
  induction h generalizing k with
  | nil => exact .nil
  | cons hxy hl ih =>
    cases k with
    | zero => exact .cons hab hl
    | succ k => exact .cons hxy (ih k)

/-- The element of Z that a reduction forms from the row of an index vector. -/
theorem set_mem_shapeIxs {sh ix : List Nat} (h : ix ∈ shapeIxs sh) (k : Nat) : ix.set k 0 ∈ shapeIxs (sh.set k 1) :=
  mem_shapeIxs.2 (forall₂_set (mem_shapeIxs.1 h) k Nat.one_pos)

end Sys2Proof.Machine
end

section
/-! A Steamer operation from memory whose elements can all be read and written (R139 to R150): it meets no error, a read changes
nothing, and a write stores an element of its own outputs. -/

namespace Sys2Proof.Machine

/-! ### An operation in no error -/

/-- The tensors that an operation reads. -/
def SUses (x : BitVec 1024) (k : Nat) : Prop := k = 0 ∨ (k ≤ 3 ∧ sHas x k = true) ∨ (k = 5 ∧ 9 ≤ dOpcode x)

/-- The elements that an operation writes: of Z, of s and of h (R138). -/
def steamOuts (x : BitVec 1024) (r : RunOp) : List (TDesc × List Nat) :=
  (if sHas x 4 then (shapeIxs (sOut x r)).map fun ix => (sTd r 4, ix) else [])
    ++ (if sHas x 5 ∧ dOpcode x ≤ 8 then (shapeIxs ((sShape x r).drop 1)).map fun ix => (sTd r 5, ix) else [])
    ++ if sHas x 6 then (shapeIxs (sShape x r)).map fun ix => (sTd r 6, ix) else []

section
variable {x : BitVec 1024} {r : RunOp} {ix : List Nat}

theorem steamOuts_z (h : sHas x 4 = true) (hix : ix ∈ shapeIxs (sOut x r)) : (sTd r 4, ix) ∈ steamOuts x r := by
  unfold steamOuts
  rw [if_pos h]
  exact List.mem_append_left _ (List.mem_append_left _ (List.mem_map.2 ⟨ix, hix, rfl⟩))

theorem steamOuts_s (h : sHas x 5 = true) (hop : dOpcode x ≤ 8) (hix : ix ∈ shapeIxs ((sShape x r).drop 1)) : (sTd r 5, ix) ∈ steamOuts x r := by
  unfold steamOuts
  rw [if_pos (And.intro h hop)]
  exact List.mem_append_left _ (List.mem_append_right _ (List.mem_map.2 ⟨ix, hix, rfl⟩))

theorem steamOuts_h (h : sHas x 6 = true) (hix : ix ∈ shapeIxs (sShape x r)) : (sTd r 6, ix) ∈ steamOuts x r := by
  unfold steamOuts
  rw [if_pos h]
  exact List.mem_append_right _ (List.mem_map.2 ⟨ix, hix, rfl⟩)

end

/-- Every element of an operation can be read and written. -/
structure SteamOk (d : Dev) (r : RunOp) : Prop where
  shape : sShape r.q.desc r ≠ []
  full : ∀ n ∈ sShape r.q.desc r, n ≠ 0
  reads : ∀ k, SUses r.q.desc k → ∀ ix ∈ shapeIxs (sShape r.q.desc r),
    Plain d (sTd r k) (r.snaps.getD k []) (sIx r.q.desc r (sShape r.q.desc r) k ix) ∧ fmtOf (sTd r k) ≠ .n4 ∧ fmtOf (sTd r k) ≠ .n8
  writes : ∀ p ∈ steamOuts r.q.desc r, Reach d p.1 p.2
  codes : sHas r.q.desc 4 = true → ∀ ix ∈ shapeIxs (sOut r.q.desc r), Plain d (sTd r 4) (r.snaps.getD 4 []) ix

/-- An operation that has met no error: of memory it has changed its outputs alone. -/
structure Steady (d0 : Dev) (outs : List (TDesc × List Nat)) (c : SCtx) : Prop where
  bytes : OnlyBytes d0 c.d
  beside : ∀ a, Beside outs a → byteAt c.d a = byteAt d0 a
  stop : c.stop = none
  lost : c.lost = false
  miss : c.st.miss = none
  unused : c.st.bufUsed = false

section
variable {d0 : Dev} {outs : List (TDesc × List Nat)} {c c' : SCtx}

/-- A step that touches none of what `Steady` speaks of. -/
theorem Steady.keep (h : Steady d0 outs c) (hd : c'.d = c.d) (hstop : c'.stop = c.stop) (hlost : c'.lost = c.lost)
    (hmiss : c'.st.miss = c.st.miss) (hused : c'.st.bufUsed = c.st.bufUsed) : Steady d0 outs c' :=
  ⟨hd ▸ h.bytes, hd ▸ h.beside, hstop.trans h.stop, hlost.trans h.lost, hmiss.trans h.miss, hused.trans h.unused⟩

theorem Steady.clear (h : Steady d0 outs c) : { c with lost := false } = c := by
  obtain ⟨d, stop, lost, enc, st⟩ := c
  obtain rfl : lost = false := h.lost
  rfl

/-- An element of the outputs stored. -/
theorem Steady.store (h : Steady d0 outs c) {td : TDesc} {ix : List Nat} {bs : List Byte} (hmem : (td, ix) ∈ outs)
    (hst : Stored c.d (elemAddr td ix) bs c'.d) (hlen : bs.length = elemLen td) (hstop : c'.stop = none) (hlost : c'.lost = false)
    (hmiss : c'.st.miss = none) (hused : c'.st.bufUsed = c.st.bufUsed) : Steady d0 outs c' := by
  refine ⟨h.bytes.trans hst.1, fun a ha => ?_, hstop, hlost, hmiss, hused.trans h.unused⟩
  obtain ⟨-, -, hbeside, -⟩ := hst
  exact (hbeside a (hlen ▸ ha _ hmem)).trans (h.beside a ha)

theorem Steady.row (h : Steady d0 outs c) (e : SEnv) (ix : List Nat) (b : Bool) : Steady d0 outs (sRow e c ix b) := h.keep rfl rfl rfl rfl rfl

theorem Steady.stage (h : Steady d0 outs c) (e : SEnv) (ix : List Nat) (v : F32) : Steady d0 outs (sStage e c ix v) := by
  unfold sStage
  rw [h.stop]
  refine h.keep rfl h.stop.symm rfl ?_ rfl
  simp [h.lost]

theorem Steady.stages (h : Steady d0 outs c) (e : SEnv) (l : List (List Nat × Option F32)) :
    Steady d0 outs (l.foldl (fun c p => match p.2 with | some v => sStage e c p.1 v | none => c) c) := by
  induction l generalizing c with
  | nil => exact h
  | cons p l ih =>
    refine ih ?_
    dsimp only
    split
    · exact h.stage ..
    · exact h

end

/-! ### Reads -/

/-- The operation works from the run that its checks are about. -/
structure EnvOf (e : SEnv) : Prop where
  sh : e.sh = sShape e.r.q.desc e.r
  out : e.out = sOut e.r.q.desc e.r
  td : e.z.td = sTd e.r 4
  snap : e.z.snap = e.r.snaps.getD 4 []

theorem SteamOk.head_pos {d : Dev} {e : SEnv} (henv : EnvOf e) (hok : SteamOk d e.r) : 0 < e.sh.headD 1 := by
  have hne := hok.shape
  have hfull := hok.full
  rw [← henv.sh] at hne hfull
  cases hsh : e.sh with
  | nil => exact absurd hsh hne
  | cons n sh => exact Nat.pos_of_ne_zero (hfull n (hsh ▸ List.mem_cons_self))

/-- The value of an input's element at an index of the shape. -/
def sVal (e : SEnv) (d : Dev) (k : Nat) (ix : List Nat) : F32 :=
  rne32 (valAt d e.acc e.r (sTd e.r k) (e.r.snaps.getD k []) fp32 (sIx e.r.q.desc e.r e.sh k ix))

/-- What a function makes of the inputs at an index of the shape (R141). -/
def sMapVal (e : SEnv) (d : Dev) (ix : List Nat) : F32 :=
  stFunc (sFunc e.r.q.desc) (sVal e d 0 ix) (if sHas e.r.q.desc 1 then sVal e d 1 ix else 0)
    (if sHas e.r.q.desc 2 then sVal e d 2 ix else 0) (sI0 e.r.q.desc) (sI1 e.r.q.desc)

section
variable {d0 : Dev} {e : SEnv} {outs : List (TDesc × List Nat)} {c : SCtx} (hecc : d0.mem.ecc = []) (henv : EnvOf e) (hok : SteamOk d0 e.r)
  (h : Steady d0 outs c)
include hecc henv hok h

theorem sGet_steady {k : Nat} (hk : SUses e.r.q.desc k) {ix : List Nat} (hix : ix ∈ shapeIxs e.sh) : sGet e c k ix = (c, sVal e c.d k ix) := by
  rw [henv.sh] at hix
  obtain ⟨hp, h4, h8⟩ := hok.reads k hk ix hix
  rw [← henv.sh] at hp
  have hread := elemAt_input e.acc e.r fp32 (h.bytes.ecc.trans hecc) ((h.bytes.plain hp).input h4 h8)
  obtain ⟨d, stop, lost, enc, st⟩ := c
  obtain rfl : stop = none := h.stop
  unfold sGet
  dsimp only at hread ⊢
  rw [hread]
  dsimp only
  rw [Bool.or_false]
  rfl

theorem sMasked_steady {ix : List Nat} (hix : ix ∈ shapeIxs e.sh) : ∃ m, sMasked e c ix = (c, m) := by
  unfold sMasked
  split
  · exact ⟨_, rfl⟩
  next hmask =>
    rw [sGet_steady hecc henv hok h (.inr (.inl ⟨le_rfl, decide_eq_true hmask⟩)) hix]
    exact ⟨_, rfl⟩
  · exact ⟨_, rfl⟩

theorem sApply_steady {ix : List Nat} (hix : ix ∈ shapeIxs e.sh) :
    sApply e c ix none = (c, sMapVal e c.d ix) := by
  have hif {k : Nat} (hk : k ≤ 3) : (if sHas e.r.q.desc k = true then sGet e c k ix else (c, 0)) =
      (c, if sHas e.r.q.desc k then sVal e c.d k ix else 0) := by
    split
    next hhas => rw [sGet_steady hecc henv hok h (.inr (.inl ⟨hk, hhas⟩)) hix]
    next => rfl
  unfold sApply
  dsimp only
  rw [sGet_steady hecc henv hok h (.inl rfl) hix]
  dsimp only
  rw [hif (k := 1) (by decide)]
  dsimp only
  rw [hif (k := 2) (by decide)]
  rfl

/-- The masks of a row. -/
theorem sMasks_steady {l : List (List Nat)} (hl : ∀ ix ∈ l, ix ∈ shapeIxs e.sh) : ∃ ms, sMasks e c l = (c, ms) := by
  induction l with
  | nil => exact ⟨_, rfl⟩
  | cons ix l ih =>
    obtain ⟨hix, hl⟩ := List.forall_mem_cons.1 hl
    obtain ⟨m, hm⟩ := sMasked_steady hecc henv hok h hix
    obtain ⟨ms, hms⟩ := ih hl
    unfold sMasks
    rw [hm]
    dsimp only
    rw [hms]
    exact ⟨_, rfl⟩

/-- X at the unmasked places of a row. -/
theorem sXs_steady {l : List (List Nat × Bool)} (hl : ∀ p ∈ l, p.1 ∈ shapeIxs e.sh) : ∃ vs, sXs e (fun _ => none) c l = (c, vs) := by
  induction l with
  | nil => exact ⟨_, rfl⟩
  | cons p l ih =>
    obtain ⟨ix, m⟩ := p
    obtain ⟨hix, hl⟩ := List.forall_mem_cons.1 hl
    obtain ⟨vs, hvs⟩ := ih hl
    unfold sXs
    cases m with
    | true => simp only [if_true, hvs]; exact ⟨_, rfl⟩
    | false => simp only [Bool.false_eq_true, if_false, sGet_steady hecc henv hok h (.inl rfl) hix, hvs]; exact ⟨_, rfl⟩

/-- γ or β of a row: no element comes without its entry. -/
theorem sCol_steady {k : Nat} (hk : SUses e.r.q.desc k) {l : List (List Nat)} (hl : ∀ ix ∈ l, ix ∈ shapeIxs e.sh) :
    ∃ vs, sCol e k c l = (c, vs) ∧ ∀ v ∈ vs, v.2 = false := by
  induction l with
  | nil => exact ⟨_, rfl, by simp⟩
  | cons ix l ih =>
    obtain ⟨hix, hl⟩ := List.forall_mem_cons.1 hl
    obtain ⟨vs, hvs, hlost⟩ := ih hl
    unfold sCol
    rw [h.clear, sGet_steady hecc henv hok h hk hix]
    dsimp only
    rw [hvs]
    exact ⟨_, rfl, List.forall_mem_cons.2 ⟨h.lost, hlost⟩⟩

end

/-! ### Writes -/

section
variable {d0 : Dev} {e : SEnv} {c : SCtx} (hecc : d0.mem.ecc = []) (henv : EnvOf e) (hok : SteamOk d0 e.r)
  (h : Steady d0 (steamOuts e.r.q.desc e.r) c)
include hecc henv hok h

omit henv hok in
/-- An element encoded and stored (R134, R172). -/
theorem encWrite_stored {ix : List Nat} (hp : Plain d0 e.z.td e.z.snap ix) (v : F32) : ∃ d' a' o bs,
    encWrite c.d e.t .steamer e.r e.z c.enc false ix v = (d', a', .ok o) ∧ Stored c.d (elemAddr e.z.td ix) bs d' ∧ bs.length = elemLen e.z.td := by
  replace hp := h.bytes.plain hp
  have hscale : ∃ x, encScale c.d (runAcc c.d e.t e.r) e.r e.z ix = (c.d, .ok x) := by
    unfold encScale
    rcases hp.scale with ⟨_, h0⟩ | ⟨h1, hs⟩
    · exact ⟨_, if_pos h0⟩
    · rw [if_neg (by rw [h1]; decide), scaleAt_snap _ _ _ _ _ h1]
      exact ⟨_, if_pos hs⟩
  obtain ⟨x, hx⟩ := hscale
  unfold encWrite
  rw [hx]
  dsimp only
  obtain ⟨d', bs, hw, hst, hlen, -⟩ := writeAt_reach e.t .steamer e.r
    (encElem (fmtOf e.z.td) x.isSome (x.getD one32) e.z.conv e.z.esc (decide (c.enc.entries.length < e.z.cap)) false v).code
    (h.bytes.ecc.trans hecc) hp.toReach
  rw [hw]
  exact ⟨d', _, _, bs, rfl, hst, hlen⟩

theorem sOutZ_steady {ix : List Nat} (hix : ix ∈ shapeIxs e.out) (v : F32) : Steady d0 (steamOuts e.r.q.desc e.r) (sOutZ e c ix v) := by
  unfold sOutZ
  rw [h.stop]
  dsimp only
  split
  next => exact h.keep rfl h.stop.symm rfl rfl rfl
  next hz =>
    have hhas : sHas e.r.q.desc 4 = true := by simpa using hz
    rw [henv.out] at hix
    have hp := hok.codes hhas ix hix
    have hmem := steamOuts_z hhas hix
    have hmiss (m : Nat) : (if c.lost = true then some m else c.st.miss) = none := by rw [h.lost]; exact h.miss
    split
    · obtain ⟨d', bs, hw, hst, hlen, -⟩ := writeAt_reach e.t .steamer e.r
        ((((fmtOf (sTd e.r 4)).float?).getD fp32).conv (sConv e.r.q.desc) (val32 v)).1 (h.bytes.ecc.trans hecc) (h.bytes.reach hp.toReach)
      rw [hw]
      exact h.store hmem hst hlen rfl h.lost (hmiss _) rfl
    · rw [← henv.td, ← henv.snap] at hp
      obtain ⟨d', a', o, bs, hw, hst, hlen⟩ := encWrite_stored hecc h hp v
      rw [henv.td] at hst hlen
      rw [hw]
      exact h.store hmem hst hlen rfl h.lost (hmiss _) rfl

omit henv hok in
/-- An element of s or h stored. -/
theorem sPut_steady {k : Nat} {ix : List Nat} (hmem : (sTd e.r k, ix) ∈ steamOuts e.r.q.desc e.r) (hr : Reach d0 (sTd e.r k) ix) (v : F32) :
    Steady d0 (steamOuts e.r.q.desc e.r) (sPut e c k ix v) := by
  obtain ⟨d', bs, hw, hst, hlen, -⟩ := writeAt_reach e.t .steamer e.r v.toNat (h.bytes.ecc.trans hecc) (h.bytes.reach hr)
  unfold sPut
  rw [h.stop]
  dsimp only
  rw [hw]
  exact h.store hmem hst hlen rfl h.lost h.miss rfl

omit henv hok in
theorem sPuts_steady {k : Nat} {l : List (List Nat × F32)} (hl : ∀ p ∈ l, (sTd e.r k, p.1) ∈ steamOuts e.r.q.desc e.r ∧ Reach d0 (sTd e.r k) p.1) :
    Steady d0 (steamOuts e.r.q.desc e.r) (sPuts e k c l) := by
  induction l generalizing c with
  | nil => exact h
  | cons p l ih =>
    obtain ⟨⟨hmem, hr⟩, hl⟩ := List.forall_mem_cons.1 hl
    exact ih (sPut_steady hecc h hmem hr p.2) hl

theorem sOuts_steady {l : List (List Nat × F32 × Bool)} (hl : ∀ p ∈ l, p.1 ∈ shapeIxs e.out ∧ p.2.2 = false) :
    Steady d0 (steamOuts e.r.q.desc e.r) (sOuts e c l) := by
  induction l generalizing c with
  | nil => exact h
  | cons p l ih =>
    obtain ⟨ix, v, lost⟩ := p
    obtain ⟨⟨hix, hlost⟩, htail⟩ := List.forall_mem_cons.1 hl
    obtain rfl : lost = false := hlost
    unfold sOuts
    rw [h.clear]
    exact ih (sOutZ_steady hecc henv hok h hix v) htail

/-! ### One element and one row -/

/-- What MAP does at one element. -/
theorem sMapElem_steady {ix : List Nat} (hix : ix ∈ shapeIxs e.sh) (hout : ix ∈ shapeIxs e.out) :
    Steady d0 (steamOuts e.r.q.desc e.r) (sMapElem e c ix none) := by
  obtain ⟨m, hm⟩ := sMasked_steady hecc henv hok h hix
  unfold sMapElem
  rw [hm]
  dsimp only
  have h1 := h.row e ix (!m && c.stop.isNone)
  rw [if_neg (by rw [h1.stop]; exact Bool.false_ne_true)]
  split
  · exact h1.keep rfl rfl rfl rfl rfl
  · rw [h1.clear, sApply_steady hecc henv hok h1 hix]
    exact sOutZ_steady hecc henv hok (h1.stage ..) hout _

/-- What a reduction does at one element. -/
theorem sRedElem_steady {ix : List Nat} (hix : ix ∈ shapeIxs e.sh) (hout : ix.set (sRdim e.r.q.desc) 0 ∈ shapeIxs e.out) :
    Steady d0 (steamOuts e.r.q.desc e.r) (sRedElem e c ix none) := by
  obtain ⟨m, hm⟩ := sMasked_steady hecc henv hok h hix
  unfold sRedElem
  extract_lets rd n o oix
  split
  next c0 m0 h0 =>
  obtain rfl : c = c0 := congrArg Prod.fst (hm.symm.trans h0)
  extract_lets c1 c2 seq c3
  have h1 : Steady d0 (steamOuts e.r.q.desc e.r) c1 := h.row ..
  have h2 : Steady d0 (steamOuts e.r.q.desc e.r) c2 := by
    unfold c2
    split
    · exact h1
    split
    next c5 v h5 =>
      rw [h1.clear, sApply_steady hecc henv hok h1 hix] at h5
      obtain rfl : c5 = c1 := (congrArg Prod.fst h5).symm
      extract_lets c4 miss
      have h4 : Steady d0 (steamOuts e.r.q.desc e.r) c4 := h1.stage ..
      have hmiss : miss = none := (if_neg fun hl => by rw [h4.lost] at hl; cases hl.1).trans h4.miss
      rw [if_neg (by rw [h4.stop]; exact Bool.false_ne_true)]
      exact h4.keep rfl rfl h4.lost.symm (hmiss.trans h4.miss.symm) rfl
  split
  · have h3 : Steady d0 (steamOuts e.r.q.desc e.r) c3 := by
      unfold c3
      rw [h2.clear]
      exact sOutZ_steady hecc henv hok h2 hout _
    exact h3.keep rfl rfl rfl rfl rfl
  · exact h2

end

/-! ### One row (R148 to R150) -/

/-- The stage values of a row entered. -/
def sStages (e : SEnv) (c : SCtx) (ixs : List (List Nat)) (vs : List (Option F32)) : SCtx :=
  (List.zip ixs vs).foldl (fun c p => match p.2 with | some v => sStage e c p.1 v | none => c) c

/-- A row of SOFTMAX from its X. -/
def sSoftRow (e : SEnv) (c : SCtx) (ridx : List Nat) (ixs : List (List Nat)) (xs : List (Option F32)) : SCtx :=
  let xlost := c.lost
  let ps := xs.map fun v => v.map fun v => fmul (sI0 e.r.q.desc) v
  let (o, empty) := softRow ps
  let c := sRow e c (0 :: ridx) (ps.any Option.isSome)
  let c := { c with st := { c.st with emptyRow := c.st.emptyRow || empty } }
  sOuts e (sStages e c ixs ps) (List.zip ixs (o.map fun v => (v, xlost)))

/-- A row of RMSNORM or LAYERNORM from its X. -/
def sNormRow (e : SEnv) (c : SCtx) (ridx : List Nat) (ixs : List (List Nat)) (xs : List (Option F32)) : SCtx :=
  let x := e.r.q.desc
  let op := dOpcode x
  let xlost := c.lost
  let xf := xs.map fun v => v.getD 0
  let c0 := sRow e c (0 :: ridx) true
  let bad := xf.any fun v => !ffinite v
  let (dd, rr) := normRow (op = 8) (sI0 x) xf
  let rr := if bad then nan32 else rr
  let xh := if bad then xf.map fun _ => nan32 else dd.map fun v => fmul v rr
  let (c, g) := if bad then (c0, xf.map fun _ => (one32, false)) else sCol e 1 { c0 with lost := false } ixs
  let (c, b) := if bad ∨ op = 7 then (c, xf.map fun _ => ((0 : F32), false)) else sCol e 2 c ixs
  if c.stop.isSome then c
  else
    let o := List.zipWith (fun (h : F32) (p : (F32 × Bool) × (F32 × Bool)) =>
      (if bad then nan32 else if op = 8 then ffma h p.1.1 p.2.1 else fmul h p.1.1, xlost || p.1.2 || p.2.2)) xh (List.zip g b)
    let c := sOuts e (sStages e { c with lost := xlost } ixs xs) (List.zip ixs o)
    let c := if sHas x 6 then sPuts e 6 c (List.zip ixs xh) else c
    if sHas x 5 then sPut e c 5 ridx rr else c

/-- A row of RMSNORM_BWD or LAYERNORM_BWD from its X. -/
def sBwdRow (e : SEnv) (c : SCtx) (ridx : List Nat) (ixs : List (List Nat)) (xs : List (Option F32)) : SCtx :=
  let xlost := c.lost
  let xf := xs.map fun v => v.getD 0
  let (c, xh) := sCol e 1 { sRow e c (0 :: ridx) true with lost := false } ixs
  let (c, g) := sCol e 2 c ixs
  let (c, rr) := sGet e c 5 (0 :: ridx)
  if c.stop.isSome then c
  else
    let lost := xlost || xh.any Prod.snd || g.any Prod.snd
    let o := epiRow (if dOpcode e.r.q.desc = 9 then 2 else 3) xf (xh.map Prod.fst) (g.map Prod.fst) rr
    sOuts e (sStages e { c with lost := xlost } ixs xs) (List.zip ixs (o.map fun v => (v, lost)))

/-- A row is its masks, its X, and the work of its operation. -/
theorem sRowGo_eq (e : SEnv) (c : SCtx) (ridx : List Nat) (xv : List Nat → Option F32) : sRowGo e c ridx xv =
    let ixs := (List.range (e.sh.headD 1)).map fun j => j :: ridx
    let (c, ms) := sMasks e c ixs
    let (c, xs) := sXs e xv { c with lost := false } (List.zip ixs ms)
    if c.stop.isSome then c
    else if dOpcode e.r.q.desc = 6 then sSoftRow e c ridx ixs xs
    else if dOpcode e.r.q.desc ≤ 8 then sNormRow e c ridx ixs xs
    else sBwdRow e c ridx ixs xs := rfl

theorem mem_zipWith {α β γ : Type} {f : α → β → γ} {l : List α} {m : List β} {v : γ} (h : v ∈ List.zipWith f l m) :
    ∃ a ∈ l, ∃ b ∈ m, v = f a b := by
  rw [← List.map_uncurry_zip_eq_zipWith] at h
  obtain ⟨⟨a, b⟩, hab, rfl⟩ := List.mem_map.1 h
  exact ⟨a, (List.of_mem_zip hab).1, b, (List.of_mem_zip hab).2, rfl⟩

section
variable {d0 : Dev} {e : SEnv} {c : SCtx} (hecc : d0.mem.ecc = []) (henv : EnvOf e) (hok : SteamOk d0 e.r)
  (h : Steady d0 (steamOuts e.r.q.desc e.r) c) (hop : 6 ≤ dOpcode e.r.q.desc) {rx : List Nat} {ixs : List (List Nat)}
  (hixs : ∀ ix ∈ ixs, ix ∈ shapeIxs e.sh)
include henv hop

theorem sOut_of_rows : e.out = e.sh := by
  rw [henv.out, henv.sh, sOut, if_neg]
  simp only [sRed, Bool.and_eq_true, decide_eq_true_eq]
  omega

omit henv in
theorem sMapRed_of_rows : sMapRed e.r.q.desc = false := decide_eq_false (by omega)

include hecc hok h hixs

/-- The results of a row stored, none of which comes from an escape without an entry. -/
theorem sRowOuts_steady {xs : List (Option F32)} {o : List (F32 × Bool)} (ho : ∀ v ∈ o, v.2 = false) :
    Steady d0 (steamOuts e.r.q.desc e.r) (sOuts e (sStages e c ixs xs) (List.zip ixs o)) :=
  sOuts_steady hecc henv hok (h.stages ..) fun _ hp =>
    ⟨sOut_of_rows henv hop ▸ hixs _ (List.of_mem_zip hp).1, ho _ (List.of_mem_zip hp).2⟩

theorem sSoftRow_steady (xs : List (Option F32)) : Steady d0 (steamOuts e.r.q.desc e.r) (sSoftRow e c rx ixs xs) := by
  unfold sSoftRow
  extract_lets xlost ps cp
  split
  next o empty _ =>
  have hcp : Steady d0 (steamOuts e.r.q.desc e.r) { cp with st := { cp.st with emptyRow := cp.st.emptyRow || empty } } :=
    h.keep rfl rfl rfl rfl rfl
  refine sRowOuts_steady hecc henv hok hcp hop hixs fun v hv => ?_
  obtain ⟨w, -, rfl⟩ := List.mem_map.1 hv
  exact h.lost

theorem sNormRow_steady (hrx : rx ∈ shapeIxs (e.sh.drop 1)) (h6 : dOpcode e.r.q.desc ≠ 6) (h8 : dOpcode e.r.q.desc ≤ 8)
    (xs : List (Option F32)) : Steady d0 (steamOuts e.r.q.desc e.r) (sNormRow e c rx ixs xs) := by
  have hmap := sMapRed_of_rows hop
  unfold sNormRow
  extract_lets x op xlost xf c0 bad
  have h0 : Steady d0 (steamOuts e.r.q.desc e.r) c0 := h.row ..
  split
  extract_lets rr xh
  split
  next c3 g h3 =>
  obtain ⟨rfl, hg⟩ : c3 = c0 ∧ ∀ v ∈ g, v.2 = false := by
    split at h3
    next => cases h3; exact ⟨rfl, by simp⟩
    next =>
      have hgamma : SUses e.r.q.desc 1 := .inr (.inl ⟨by decide, by simpa [sHas, hmap] using h6⟩)
      obtain ⟨vs, hvs, hclean⟩ := sCol_steady hecc henv hok h0 hgamma hixs
      rw [h0.clear, hvs] at h3
      cases h3
      exact ⟨rfl, hclean⟩
  split
  next c4 b h4 =>
  obtain ⟨rfl, hb⟩ : c4 = c0 ∧ ∀ v ∈ b, v.2 = false := by
    split at h4
    next => cases h4; exact ⟨rfl, by simp⟩
    next h7 =>
      have h7 : dOpcode e.r.q.desc ≠ 7 := fun h => h7 (.inr h)
      have hbeta : SUses e.r.q.desc 2 := .inr (.inl ⟨by decide, by simp only [sHas, hmap]; simpa using (by omega : 8 ≤ dOpcode e.r.q.desc)⟩)
      obtain ⟨vs, hvs, hclean⟩ := sCol_steady hecc henv hok h0 hbeta hixs
      rw [hvs] at h4
      cases h4
      exact ⟨rfl, hclean⟩
  rw [if_neg (by rw [h0.stop]; exact Bool.false_ne_true)]
  extract_lets o c5 c6
  have h5 : Steady d0 (steamOuts e.r.q.desc e.r) c5 := by
    refine sRowOuts_steady hecc henv hok (h0.keep rfl rfl rfl rfl rfl) hop hixs fun v hv => ?_
    obtain ⟨_, -, ⟨p, q⟩, hpq, rfl⟩ := mem_zipWith hv
    simp [xlost, h.lost, hg p (List.of_mem_zip hpq).1, hb q (List.of_mem_zip hpq).2]
  have h6 : Steady d0 (steamOuts e.r.q.desc e.r) c6 := by
    unfold c6
    split
    next hhas =>
      refine sPuts_steady hecc h5 fun _ hp => ?_
      have hmem := steamOuts_h hhas (henv.sh ▸ hixs _ (List.of_mem_zip hp).1)
      exact ⟨hmem, hok.writes _ hmem⟩
    next => exact h5
  split
  next hhas =>
    have hmem := steamOuts_s hhas h8 (henv.sh ▸ hrx)
    exact sPut_steady hecc h6 hmem (hok.writes _ hmem) _
  next => exact h6

theorem sBwdRow_steady (hfirst : 0 :: rx ∈ shapeIxs e.sh) (h9 : 9 ≤ dOpcode e.r.q.desc) (xs : List (Option F32)) :
    Steady d0 (steamOuts e.r.q.desc e.r) (sBwdRow e c rx ixs xs) := by
  have hmap := sMapRed_of_rows hop
  have hxhat : SUses e.r.q.desc 1 := .inr (.inl ⟨by decide, by simp only [sHas, hmap]; simpa using (by omega : dOpcode e.r.q.desc ≠ 6)⟩)
  have hgamma : SUses e.r.q.desc 2 := .inr (.inl ⟨by decide, by simp only [sHas, hmap]; simpa using (by omega : 8 ≤ dOpcode e.r.q.desc)⟩)
  have h0 : Steady d0 (steamOuts e.r.q.desc e.r) (sRow e c (0 :: rx) true) := h.row ..
  obtain ⟨xh, hxh, hxhc⟩ := sCol_steady hecc henv hok h0 hxhat hixs
  obtain ⟨g, hg, hgc⟩ := sCol_steady hecc henv hok h0 hgamma hixs
  have hr := sGet_steady hecc henv hok h0 (.inr (.inr ⟨rfl, h9⟩)) hfirst
  unfold sBwdRow
  dsimp only
  rw [h0.clear, hxh]
  dsimp only
  rw [hg]
  dsimp only
  rw [hr]
  dsimp only
  rw [if_neg (by rw [h0.stop]; exact Bool.false_ne_true)]
  refine sRowOuts_steady hecc henv hok (h0.keep rfl rfl rfl rfl rfl) hop hixs fun v hv => ?_
  obtain ⟨w, -, rfl⟩ := List.mem_map.1 hv
  have hxh : xh.any Prod.snd = false := List.any_eq_false.2 fun v hv => by simp [hxhc v hv]
  have hg : g.any Prod.snd = false := List.any_eq_false.2 fun v hv => by simp [hgc v hv]
  simp [h.lost, hxh, hg]

end

/-- A row of an operation whose elements can all be read and written. -/
theorem sRowGo_steady {d0 : Dev} {e : SEnv} {c : SCtx} (hecc : d0.mem.ecc = []) (henv : EnvOf e) (hok : SteamOk d0 e.r)
    (h : Steady d0 (steamOuts e.r.q.desc e.r) c) (hop : 6 ≤ dOpcode e.r.q.desc) {rx : List Nat} (hrx : rx ∈ shapeIxs (e.sh.drop 1)) :
    Steady d0 (steamOuts e.r.q.desc e.r) (sRowGo e c rx fun _ => none) := by
  have hcons {j : Nat} (hj : j < e.sh.headD 1) : j :: rx ∈ shapeIxs e.sh := cons_mem_shapeIxs (henv.sh ▸ hok.shape) hj hrx
  have hixs : ∀ ix ∈ (List.range (e.sh.headD 1)).map fun j => j :: rx, ix ∈ shapeIxs e.sh :=
    List.forall_mem_map.2 fun j hj => hcons (List.mem_range.1 hj)
  obtain ⟨ms, hms⟩ := sMasks_steady hecc henv hok h hixs
  obtain ⟨xs, hxs⟩ := sXs_steady hecc henv hok h (l := List.zip _ ms) fun _ hp => hixs _ (List.of_mem_zip hp).1
  rw [sRowGo_eq]
  dsimp only
  rw [hms]
  dsimp only
  rw [h.clear, hxs]
  dsimp only
  rw [if_neg (by rw [h.stop]; exact Bool.false_ne_true)]
  split
  · exact sSoftRow_steady hecc henv hok h hop hixs xs
  split
  next h6 h8 => exact sNormRow_steady hecc henv hok h hop hixs hrx h6 h8 xs
  next h8 => exact sBwdRow_steady hecc henv hok h hop hixs (hcons (hok.head_pos henv)) (by omega) xs

end Sys2Proof.Machine
end

section
/-! A Steamer operation from memory as a whole (R139): its pass over its shape, and its end. -/

namespace Sys2Proof.Machine

/-! ### The pass -/

/-- The work on every element of the shape, or on every row. -/
def steamWork (e : SEnv) (c : SCtx) : SCtx :=
  let all := (List.range (volume e.sh)).map fun n => (ixOf e.sh n, (none : Option F32))
  if dOpcode e.r.q.desc = 1 then sMapGo e c all
  else if sRed e.r.q.desc then sRedGo e c all
  else sRowsGo e (fun _ => none) c ((List.range (volume (e.sh.drop 1))).map (ixOf (e.sh.drop 1)))

theorem steamWork_map {e : SEnv} {c : SCtx} (hop : dOpcode e.r.q.desc = 1) :
    steamWork e c = sMapGo e c ((shapeIxs e.sh).map fun ix => (ix, none)) := by
  rw [shapeIxs, List.map_map]
  exact if_pos hop

/-- The operation after its work, with its lane groups counted. -/
def steamPass (d : Dev) (t : Nat) (r : RunOp) (px : Polder) : SCtx :=
  let e := sEnv d t r px
  let c := steamWork e { d := d }
  { c with d := count c.d 0 t 0x200 (laneGroups r.q.desc r (volume (e.sh.drop 1)) (e.sh.headD 1)) (some (runPolder d t r)) }

/-- The tensors that an operation names lie on this device. -/
def TensorsHere (d : Dev) (r : RunOp) : Prop := ∀ k, k < 7 → sHas r.q.desc k = true → (tDev (sTd r k)).toNat = selfId d

theorem TensorsHere.steamRngs {d : Dev} {t : Nat} {r : RunOp} {px : Polder} (h : TensorsHere d r) : steamRngs d r (sEnv d t r px).z = [] := by
  unfold Machine.steamRngs
  simp only [List.append_eq_nil_iff, List.flatMap_eq_nil_iff, List.mem_filter]
  refine ⟨⟨fun k hk => ?_, fun k hk => ?_⟩, ?_⟩
  · obtain ⟨hk, hs⟩ := hk
    simp only [Bool.and_eq_true] at hs
    exact fetchRngs_here (h k (by fin_cases hk <;> decide) hs.1.1) ..
  · obtain ⟨hk, hs⟩ := hk
    simp only [Bool.and_eq_true] at hs
    exact tEdges_here (h k (by fin_cases hk <;> decide) hs.1) _
  · split
    next h4 => exact encRngs_here (h 4 (by decide) h4)
    next => rfl

theorem steamRun_eq {d : Dev} {t : Nat} {r : RunOp} {px : Polder} (hbad : r.bad = none) (h : TensorsHere d r) :
    steamRun d t r px = steamSettle (steamPass d t r px) (sEnv d t r px) true :=
  withRanges_of _ hbad (by rw [h.steamRngs]; rfl)

theorem steamWork_frame (e : SEnv) (c : SCtx) : SFrame e c (steamWork e c) := by
  unfold steamWork
  dsimp only
  split
  · exact sMapGo_frame ..
  split
  · exact sRedGo_frame ..
  · exact sRowsGo_frame ..

theorem steamPass_frame (d : Dev) (t : Nat) (r : RunOp) (px : Polder) : OpFrame t .steamer d (steamPass d t r px).d :=
  OpFrame.trans (steamWork_frame (sEnv d t r px) { d := d }) (count_frame ..)

section
variable {s : State} {c : SCtx} {e : SEnv} {r : RunOp} (hframe : OpFrame e.t .steamer s.dev c.d)
  (hrun : runOf s.dev e.t .steamer = some r) (hend : r.ended = none)
include hframe hrun hend

theorem steamClose_ends (st : TState) (x : Code) (m : Nat) :
    OpEnds s e.t .steamer st x m (.next { s with dev := steamClose c e st x m }) := by
  have hleft := hframe.trans (steamLeft_frame c e)
  obtain ⟨r1, hrun1, -, -, -, hend1, -⟩ := hleft.run r hrun
  exact opEnds_endRun hleft hrun1 (hend1.trans hend) st x m

/-- An operation that has passed over its shape ends, DONE or PARTIAL. -/
theorem steamSettle_last : RunsOut s s.dev e.t .steamer (volume e.out) (.next { s with dev := steamSettle c e true }) := by
  have hclose := steamClose_ends hframe hrun hend
  unfold steamSettle
  split
  · exact .inr ⟨_, _, hclose ..⟩
  rw [if_pos rfl]
  split
  · exact .inr ⟨_, _, hclose ..⟩
  · exact .inl (hclose ..)

end

/-! ### Without an error -/

theorem sOut_of_map {e : SEnv} (henv : EnvOf e) (hop : dOpcode e.r.q.desc = 1) : e.out = e.sh := by
  rw [henv.out, henv.sh, sOut, if_neg (by simp [sRed, hop])]

theorem sEnv_envOf (d : Dev) (t : Nat) (r : RunOp) (px : Polder) : EnvOf (sEnv d t r px) := ⟨rfl, rfl, rfl, rfl⟩

section
variable {d0 : Dev} {e : SEnv} {c : SCtx} (hecc : d0.mem.ecc = []) (henv : EnvOf e) (hok : SteamOk d0 e.r)
  (h : Steady d0 (steamOuts e.r.q.desc e.r) c)
include hecc henv hok h

theorem sMapGo_steady (hop : dOpcode e.r.q.desc = 1) {l : List (List Nat)} (hl : ∀ ix ∈ l, ix ∈ shapeIxs e.sh) :
    Steady d0 (steamOuts e.r.q.desc e.r) (sMapGo e c (l.map fun ix => (ix, none))) := by
  induction l generalizing c with
  | nil => exact h
  | cons ix l ih =>
    obtain ⟨hix, hl⟩ := List.forall_mem_cons.1 hl
    rw [List.map_cons, sMapGo_cons, h.stop]
    exact ih (sMapElem_steady hecc henv hok h hix (sOut_of_map henv hop ▸ hix)) hl

theorem sRedGo_steady (hred : sRed e.r.q.desc = true) {l : List (List Nat)} (hl : ∀ ix ∈ l, ix ∈ shapeIxs e.sh) :
    Steady d0 (steamOuts e.r.q.desc e.r) (sRedGo e c (l.map fun ix => (ix, none))) := by
  induction l generalizing c with
  | nil => exact h
  | cons ix l ih =>
    obtain ⟨hix, hl⟩ := List.forall_mem_cons.1 hl
    have hout : e.out = e.sh.set (sRdim e.r.q.desc) 1 := by rw [henv.out, henv.sh, sOut, if_pos hred]
    rw [List.map_cons, sRedGo_cons, h.stop]
    exact ih (sRedElem_steady hecc henv hok h hix (hout ▸ set_mem_shapeIxs hix _)) hl

theorem sRowsGo_steady (hop : 6 ≤ dOpcode e.r.q.desc) {l : List (List Nat)} (hl : ∀ rx ∈ l, rx ∈ shapeIxs (e.sh.drop 1)) :
    Steady d0 (steamOuts e.r.q.desc e.r) (sRowsGo e (fun _ => none) c l) := by
  induction l generalizing c with
  | nil => exact h
  | cons rx l ih =>
    obtain ⟨hrx, hl⟩ := List.forall_mem_cons.1 hl
    unfold sRowsGo
    rw [h.stop]
    exact ih (sRowGo_steady hecc henv hok h hop hrx) hl

theorem steamWork_steady (hop : 1 ≤ dOpcode e.r.q.desc) : Steady d0 (steamOuts e.r.q.desc e.r) (steamWork e c) := by
  have hall : ((List.range (volume e.sh)).map fun n => (ixOf e.sh n, (none : Option F32))) = (shapeIxs e.sh).map fun ix => (ix, none) := by
    rw [shapeIxs, List.map_map]; rfl
  unfold steamWork
  dsimp only
  rw [hall]
  split
  next h1 => exact sMapGo_steady hecc henv hok h h1 fun _ hix => hix
  split
  next hred => exact sRedGo_steady hecc henv hok h hred fun _ hix => hix
  next h1 hred =>
    refine sRowsGo_steady hecc henv hok h ?_ fun _ hrx => hrx
    simp only [sRed, Bool.and_eq_true, decide_eq_true_eq] at hred
    omega

end

section
variable {d : Dev} {r : RunOp} (hok : SteamOk d r)
include hok

theorem SteamOk.ixs : ∃ ix, ix ∈ shapeIxs (sShape r.q.desc r) := shapeIxs_ne hok.full

theorem SteamOk.row_ixs : ∃ rx, rx ∈ shapeIxs ((sShape r.q.desc r).drop 1) := shapeIxs_ne fun n hn => hok.full n (List.mem_of_mem_drop hn)

theorem SteamOk.out_ixs : ∃ ix, ix ∈ shapeIxs (sOut r.q.desc r) := by
  refine shapeIxs_ne fun n hn => ?_
  unfold sOut at hn
  split at hn
  · rcases List.mem_or_eq_of_mem_set hn with hn | rfl
    · exact hok.full n hn
    · exact Nat.one_ne_zero
  · exact hok.full n hn

/-- Each tensor of the operation has an element on this device. -/
theorem SteamOk.here : TensorsHere d r := by
  obtain ⟨ix, hix⟩ := hok.ixs
  obtain ⟨ox, hox⟩ := hok.out_ixs
  obtain ⟨rx, hrx⟩ := hok.row_ixs
  have hread {k : Nat} (hk : SUses r.q.desc k) : (tDev (sTd r k)).toNat = selfId d := (hok.reads k hk ix hix).1.here
  intro k hk hhas
  match k, hk with
  | 0, _ => exact hread (.inl rfl)
  | 1, _ | 2, _ | 3, _ => exact hread (.inr (.inl ⟨by decide, hhas⟩))
  | 4, _ => exact (hok.codes hhas ox hox).here
  | 5, _ =>
    by_cases hop : dOpcode r.q.desc ≤ 8
    · exact (hok.writes _ (steamOuts_s hhas hop hrx)).here
    · exact hread (.inr (.inr ⟨rfl, by omega⟩))
  | 6, _ => exact (hok.writes _ (steamOuts_h hhas hix)).here

end

/-- What an encode without a side list leaves at its close is no memory. -/
theorem encClose_onlyTiles (d : Dev) (t : Nat) (e : EngineId) (r : RunOp) {z : EncSet} (a : EncAcc) (h : z.sided = false) :
    OnlyTiles d (encClose d t e r z a).1 := by
  have hmerge (l : NMap F32) (d : Dev) : OnlyTiles d (l.foldl (fun d p => mergePend d t (tSrefReg z.td + p.1) p.2) d) := by
    induction l generalizing d with
    | nil => exact .refl d
    | cons p l ih => exact OnlyTiles.trans (onTile_onlyTiles ..) (ih _)
  unfold encClose
  simp only [h, Bool.false_eq_true, if_false]
  have hamx : OnlyTiles d (if z.amx = true then a.obs.foldl (fun d p => mergePend d t (tSrefReg z.td + p.1) p.2) d else d) := by
    split
    · exact hmerge ..
    · exact .refl d
  split
  · exact hamx
  · exact hamx.trans (count_onlyTiles ..)

/-- The end of an operation in no error changes no memory. -/
theorem steamLeft_onlyTiles {d0 : Dev} {e : SEnv} {c : SCtx} (henv : EnvOf e) (hok : SteamOk d0 e.r) (hused : c.st.bufUsed = false) :
    OnlyTiles c.d (steamLeft c e) := by
  unfold steamLeft bandLeft
  simp only [hused, Bool.false_eq_true, if_false]
  refine OnlyTiles.trans ?_ (onEngine_onlyTiles ..)
  split
  next hz =>
    refine encClose_onlyTiles _ _ _ _ _ ?_
    obtain ⟨ix, hix⟩ := hok.out_ixs
    rw [EncSet.sided, henv.td, (hok.codes hz.1 ix hix).bare, Bool.false_and]
  next => exact .refl _

section
variable {d : Dev} {t : Nat} {r : RunOp} (px : Polder) (hecc : d.mem.ecc = []) (hok : SteamOk d r) (hop : 1 ≤ dOpcode r.q.desc)
include hecc hok hop

theorem steamWork_ok : Steady d (steamOuts r.q.desc r) (steamWork (sEnv d t r px) { d := d }) := by
  have hstart : Steady d (steamOuts r.q.desc r) { d := d } := ⟨.refl d, fun _ _ => rfl, rfl, rfl, rfl, rfl⟩
  exact steamWork_steady (e := sEnv d t r px) hecc (sEnv_envOf d t r px) hok hstart hop

/-- Without an error the operation is DONE with the elements of Z. -/
theorem steamRun_done (hbad : r.bad = none) :
    steamRun d t r px = steamClose (steamPass d t r px) (sEnv d t r px) .done 0 (volume (sOut r.q.desc r)) := by
  have h := steamWork_ok (t := t) px hecc hok hop
  rw [steamRun_eq hbad hok.here]
  unfold steamSettle steamPass
  dsimp only
  rw [h.stop]
  dsimp only
  rw [if_pos rfl, h.miss]
  rfl

/-- Lane groups counted and the end of the operation change no memory. -/
theorem steamRun_onlyTiles (hbad : r.bad = none) : OnlyTiles (steamWork (sEnv d t r px) { d := d }).d (steamRun d t r px) := by
  have h := steamWork_ok (t := t) px hecc hok hop
  rw [steamRun_done px hecc hok hop hbad, steamClose_eq]
  refine OnlyTiles.trans (OnlyTiles.trans (e := (steamPass d t r px).d) (count_onlyTiles ..) ?_) (RunAlone.of_endRun ..).onlyTiles
  exact steamLeft_onlyTiles (sEnv_envOf d t r px) hok h.unused

end

/-! ### The values of a MAP (R139 to R143) -/

/-- A value depends on the bytes of its element alone. -/
theorem valAt_congr {d d' : Dev} (acc : Acc) (r : RunOp) {td : TDesc} {sn : List F32} (F : FFmt) {ix : List Nat} (hecc : d.mem.ecc = [])
    (h : OnlyBytes d d') (hp : Plain d td sn ix) (hbytes : bytesAt d' (elemAddr td ix) (elemLen td) = bytesAt d (elemAddr td ix) (elemLen td)) :
    valAt d' acc r td sn F ix = valAt d acc r td sn F ix := by
  have hp' := h.plain hp
  have hread := readRng_clean acc r hecc hp.here hp.bytes (elemLen_pos td)
  have hread' := readRng_clean acc r (h.ecc.trans hecc) hp'.here hp'.bytes (elemLen_pos td)
  rw [hbytes] at hread'
  unfold elemAddr elemLen at hread hread'
  unfold valAt elemAt elemRaw
  simp only [hread, hread', hp.bare, Bool.false_and, Bool.false_eq_true, if_false]
  cases hf : (fmtOf td).float? with
  | some G =>
    by_cases h8 : (fmtOf td).isFp8 = true ∧ tSrefKind td ≠ 0
    · rcases hp.scale with ⟨_, h0⟩ | ⟨h1, hok⟩
      · exact absurd h0 h8.2
      · simp only [if_pos h8, scaleAt_snap _ _ _ _ _ h1, hok, if_true]
    · simp only [if_neg h8]
  | none =>
    rcases hp.scale with ⟨hcode, _⟩ | ⟨h1, hok⟩
    · rw [float?_none hf] at hcode
      cases hcode
    · simp only [scaleAt_snap _ _ _ _ _ h1, hok, Bool.not_true, Bool.false_eq_true, if_false]
      generalize isEscape (fmtOf td) _ = escape
      cases escape <;> rfl

theorem beside_of_all_apart {outs : List (TDesc × List Nat)} {q : TDesc × List Nat} (h : ∀ p ∈ outs, Apart p q) {i : Nat}
    (hi : i < elemLen q.1) : Beside outs (elemAddr q.1 q.2 + i) := by
  intro p hp
  rcases h p hp with h | h <;> omega

/-- The code that a MAP writes to an element of a Z in a floating-point format (R134). -/
def sMapCode (e : SEnv) (d : Dev) (ix : List Nat) : Nat :=
  ((((fmtOf (sTd e.r 4)).float?).getD fp32).conv (sConv e.r.q.desc) (val32 (sMapVal e d ix))).1

/-- The elements that a MAP reads without a mask. -/
def mapReads (x : BitVec 1024) (r : RunOp) : List (TDesc × List Nat) :=
  [0, 1, 2].flatMap fun k => if k = 0 ∨ sHas x k = true then
    (shapeIxs (sShape x r)).map fun ix => (sTd r k, sIx x r (sShape x r) k ix) else []

theorem mem_mapReads {x : BitVec 1024} {r : RunOp} {k : Nat} {ix : List Nat} (hk : k ≤ 2) (huse : k = 0 ∨ sHas x k = true)
    (hix : ix ∈ shapeIxs (sShape x r)) : (sTd r k, sIx x r (sShape x r) k ix) ∈ mapReads x r := by
  refine List.mem_flatMap.2 ⟨k, by simp; omega, ?_⟩
  rw [if_pos huse]
  exact List.mem_map.2 ⟨ix, hix, rfl⟩

/-- A MAP writes Z alone. -/
theorem steamOuts_map {x : BitVec 1024} (r : RunOp) (hop : dOpcode x = 1) (hz : sHas x 4 = true) :
    steamOuts x r = (shapeIxs (sShape x r)).map fun ix => (sTd r 4, ix) := by
  have hred : sRed x = false := by simp [sRed, hop]
  have h5 : sHas x 5 = false := by simp [sHas, hop]
  have h6 : sHas x 6 = false := by simp [sHas, hop]
  simp [steamOuts, hz, h5, h6, sOut, hred]

theorem sStage_d (e : SEnv) (c : SCtx) (ix : List Nat) (v : F32) : (sStage e c ix v).d = c.d := by
  unfold sStage
  split <;> rfl

section
variable {d0 : Dev} {e : SEnv} {c : SCtx} (hecc : d0.mem.ecc = []) (henv : EnvOf e) (hok : SteamOk d0 e.r)
  (h : Steady d0 (steamOuts e.r.q.desc e.r) c)
include hecc henv hok h

/-- An element of a Z in a floating-point format is written under conv. -/
theorem sOutZ_write (hz : sHas e.r.q.desc 4 = true) (hcoded : sCoded (sTd e.r 4) = false) {ix : List Nat} (hix : ix ∈ shapeIxs e.out) (v : F32) :
    writeAt c.d e.t .steamer e.r (sTd e.r 4) ix ((((fmtOf (sTd e.r 4)).float?).getD fp32).conv (sConv e.r.q.desc) (val32 v)).1 =
      ((sOutZ e c ix v).d, none) := by
  have hr : Reach c.d (sTd e.r 4) ix := h.bytes.reach (hok.codes hz ix (henv.out ▸ hix)).toReach
  obtain ⟨d', bs, hw, -⟩ := writeAt_reach e.t .steamer e.r
    ((((fmtOf (sTd e.r 4)).float?).getD fp32).conv (sConv e.r.q.desc) (val32 v)).1 (h.bytes.ecc.trans hecc) hr
  unfold sOutZ
  rw [h.stop]
  dsimp only
  rw [if_neg (by simp [hz]), if_pos (by simp [hcoded]), hw]

/-- What the operation has written does not reach an input that it does not meet. -/
theorem sVal_steady {k : Nat} (hk : SUses e.r.q.desc k) {ix : List Nat} (hix : ix ∈ shapeIxs e.sh)
    (hapart : ∀ p ∈ steamOuts e.r.q.desc e.r, Apart p (sTd e.r k, sIx e.r.q.desc e.r e.sh k ix)) : sVal e c.d k ix = sVal e d0 k ix := by
  rw [henv.sh] at hix
  have hp := (hok.reads k hk ix hix).1
  rw [← henv.sh] at hp
  exact congrArg rne32 (valAt_congr e.acc e.r fp32 hecc h.bytes hp (bytesAt_congr fun i hi => h.beside _ (beside_of_all_apart hapart hi)))

variable (hspread : Spread (mapReads e.r.q.desc e.r) (steamOuts e.r.q.desc e.r))
include hspread

theorem sMapCode_steady {ix : List Nat} (hix : ix ∈ shapeIxs e.sh) : sMapCode e c.d ix = sMapCode e d0 ix := by
  have hval {k : Nat} (hk : k ≤ 2) (huse : k = 0 ∨ sHas e.r.q.desc k = true) : sVal e c.d k ix = sVal e d0 k ix := by
    refine sVal_steady hecc henv hok h (huse.imp_right fun h => .inl ⟨by omega, h⟩) hix fun p hp => hspread.2 p hp _ ?_
    rw [henv.sh] at hix ⊢
    exact mem_mapReads hk huse hix
  have hif {k : Nat} (hk : k ≤ 2) : (if sHas e.r.q.desc k then sVal e c.d k ix else 0) = if sHas e.r.q.desc k then sVal e d0 k ix else 0 := by
    split
    next hhas => exact hval hk (.inr hhas)
    next => rfl
  unfold sMapCode sMapVal
  rw [hval (k := 0) (by decide) (.inl rfl), hif (k := 1) (by decide), hif (k := 2) (by decide)]

variable (hop : dOpcode e.r.q.desc = 1) (hmask : sMask e.r.q.desc = 0) (hz : sHas e.r.q.desc 4 = true) (hcoded : sCoded (sTd e.r 4) = false)
include hop hmask hz hcoded

theorem sMapElem_write {ix : List Nat} (hix : ix ∈ shapeIxs e.sh) :
    writeAt c.d e.t .steamer e.r (sTd e.r 4) ix (sMapCode e d0 ix) = ((sMapElem e c ix none).d, none) := by
  have hm : sMasked e c ix = (c, false) := by simp [sMasked, hmask]
  have h1 := h.row e ix (!false && c.stop.isNone)
  have hwrite := sOutZ_write hecc henv hok (h1.stage e ix (sMapVal e c.d ix)) hz hcoded (sOut_of_map henv hop ▸ hix) (sMapVal e c.d ix)
  rw [sStage_d] at hwrite
  rw [← sMapCode_steady hecc henv hok h hspread hix]
  unfold sMapElem
  rw [hm]
  dsimp only
  rw [if_neg (by rw [h1.stop]; exact Bool.false_ne_true), if_neg Bool.false_ne_true, h1.clear, sApply_steady hecc henv hok h1 hix]
  exact hwrite

/-- The elements of Z are written in turn. -/
theorem sMapGo_writeList (n : Nat) {l : List (List Nat)} (hl : ∀ ix ∈ l, ix ∈ shapeIxs e.sh) :
    writeList e.t .steamer e.r (sTd e.r 4) c.d n (l.map fun ix => (ix, sMapCode e d0 ix)) =
      ((sMapGo e c (l.map fun ix => (ix, none))).d, none) := by
  induction l generalizing c n with
  | nil => rfl
  | cons ix l ih =>
    obtain ⟨hix, hl⟩ := List.forall_mem_cons.1 hl
    have hstep := sMapElem_steady hecc henv hok h hix (sOut_of_map henv hop ▸ hix)
    rw [List.map_cons, List.map_cons, sMapGo_cons, h.stop, writeList, sMapElem_write hecc henv hok h hspread hop hmask hz hcoded hix]
    exact ih hstep (n + 1) hl

/-- Every element of Z takes its code. -/
theorem sMapGo_stored (hd : c.d = d0) : ListStored (sTd e.r 4) ((shapeIxs e.sh).map fun ix => (ix, sMapCode e d0 ix)) d0
    (sMapGo e c ((shapeIxs e.sh).map fun ix => (ix, none))).d := by
  have hreach : ∀ p ∈ (shapeIxs e.sh).map fun ix => (ix, sMapCode e d0 ix), Reach d0 (sTd e.r 4) p.1 := fun p hp => by
    obtain ⟨ix, hix, rfl⟩ := List.mem_map.1 hp
    exact (hok.codes hz ix (by rw [← henv.out, sOut_of_map henv hop]; exact hix)).toReach
  obtain ⟨d', hw, hl⟩ := writeList_reach e.t .steamer e.r 0 hecc hreach
  have hgo := sMapGo_writeList hecc henv hok h hspread hop hmask hz hcoded 0 fun _ hix => hix
  rw [hd, hw] at hgo
  obtain rfl : d' = _ := congrArg Prod.fst hgo
  exact hl

theorem sMapGo_codes (hd : c.d = d0) (hwidth : 8 ≤ (fmtOf (sTd e.r 4)).width) {ix : List Nat} (hix : ix ∈ shapeIxs e.sh) :
    bytesAt (sMapGo e c ((shapeIxs e.sh).map fun ix => (ix, none))).d (elemAddr (sTd e.r 4) ix) (elemLen (sTd e.r 4)) =
      toBytes ((fmtOf (sTd e.r 4)).width / 8) (sMapCode e d0 ix) := by
  have hmem {ix : List Nat} (hix : ix ∈ shapeIxs e.sh) : (sTd e.r 4, ix) ∈ steamOuts e.r.q.desc e.r :=
    steamOuts_z hz (by rw [← henv.out, sOut_of_map henv hop]; exact hix)
  refine (sMapGo_stored hecc henv hok h hspread hop hmask hz hcoded hd).codes hwidth (fun p hp q hq hne => ?_) (fun p hp q hq heq => ?_)
    (ix, sMapCode e d0 ix) (List.mem_map.2 ⟨ix, hix, rfl⟩)
  · obtain ⟨ix, hix, rfl⟩ := List.mem_map.1 hp
    obtain ⟨jx, hjx, rfl⟩ := List.mem_map.1 hq
    exact hspread.1 _ (hmem hix) _ (hmem hjx) fun heq => hne (congrArg Prod.snd heq)
  · obtain ⟨ix, _, rfl⟩ := List.mem_map.1 hp
    obtain ⟨jx, _, rfl⟩ := List.mem_map.1 hq
    exact congrArg (sMapCode e d0) heq

end

/-- A MAP without a mask leaves in each element of Z its function of the inputs, under conv. -/
theorem steamRun_map {d : Dev} {t : Nat} {r : RunOp} (px : Polder) (hecc : d.mem.ecc = []) (hok : SteamOk d r) (hbad : r.bad = none)
    (hop : dOpcode r.q.desc = 1) (hmask : sMask r.q.desc = 0) (hz : sHas r.q.desc 4 = true) {F : FFmt}
    (hF : (fmtOf (sTd r 4)).float? = some F) (href : tSrefKind (sTd r 4) = 0)
    (hspread : Spread (mapReads r.q.desc r) (steamOuts r.q.desc r)) {ix : List Nat} (hix : ix ∈ shapeIxs (sShape r.q.desc r)) :
    bytesAt (steamRun d t r px) (elemAddr (sTd r 4) ix) (elemLen (sTd r 4)) =
      toBytes ((fmtOf (sTd r 4)).width / 8) (F.conv (sConv r.q.desc) (val32 (sMapVal (sEnv d t r px) d ix))).1 := by
  have hstart : Steady d (steamOuts r.q.desc r) { d := d } := ⟨.refl d, fun _ _ => rfl, rfl, rfl, rfl, rfl⟩
  have hcoded : sCoded (sTd r 4) = false := by simp [sCoded, isCode_false hF, href]
  have hcodes := sMapGo_codes (e := sEnv d t r px) hecc (sEnv_envOf d t r px) hok hstart hspread hop hmask hz hcoded rfl
    (float_width (by rw [show (fmtOf (sTd (sEnv d t r px).r 4)).float? = some F from hF]; rfl)) hix
  rw [← steamWork_map (e := sEnv d t r px) hop, sMapCode, show (fmtOf (sTd (sEnv d t r px).r 4)).float? = some F from hF] at hcodes
  exact ((steamRun_onlyTiles (t := t) px hecc hok hop.ge hbad).bytesAt ..).trans hcodes

end Sys2Proof.Machine
end

section
/-! The start of a Steamer operation (R93, R135 to R138): its checks in order, each refusing in its place. -/

namespace Sys2Proof.Machine

/-! ### The checks -/

/-- The first check that an operation fails once its descriptors are read, at the device that the reads leave. -/
def steamErr (d1 d : Dev) (t : Nat) (r : RunOp) (px : Polder) (l : List TDesc) : Option Code :=
  (sErr d1 t (runPolder d t r) px { r with tds := l }).or (bandErr d1 t px r.q.desc (sShape r.q.desc { r with tds := l }))

/-- The operation once it has begun. -/
def steamKept (d : Dev) (t : Nat) (l : List TDesc) (r : RunOp) : RunOp := { r with tds := l, begun := true, snaps := l.map (snapScales d t) }

section
variable {d d1 : Dev} {t : Nat} {r : RunOp} {px : Polder} {l : List TDesc} {c : Code} (hpol : polderOf d (runPolder d t r) = some px)
include hpol

theorem steamBegin_reserved (hres : sReservedOk r.q.desc = false) : steamBegin d t r = refuse d t .steamer 0x0402 := by
  simp [steamBegin, hpol, hres]

theorem steamBegin_absent (hres : sReservedOk r.q.desc = true) (habs : sAbsent r.q.desc = true) :
    steamBegin d t r = refuse d t .steamer 0x0435 := by
  simp [steamBegin, hpol, hres, habs]

variable (hres : sReservedOk r.q.desc = true) (habs : sAbsent r.q.desc = false)
include hres habs

theorem steamBegin_descriptors (htds : readTds d t px (runAcc d t r) (sTdOfs r.q.desc) = (d1, .error c)) :
    steamBegin d t r = refuse d1 t .steamer c := by
  simp [steamBegin, hpol, hres, habs, htds]

theorem steamBegin_check (htds : readTds d t px (runAcc d t r) (sTdOfs r.q.desc) = (d1, .ok l)) (herr : steamErr d1 d t r px l = some c) :
    steamBegin d t r = refuse d1 t .steamer c := by
  unfold steamErr at herr
  simp [steamBegin, hpol, hres, habs, htds, herr]

theorem steamBegin_ok (htds : readTds d t px (runAcc d t r) (sTdOfs r.q.desc) = (d1, .ok l)) (herr : steamErr d1 d t r px l = none) :
    steamBegin d t r = onRun d1 t .steamer (steamKept d1 t l) := by
  unfold steamErr at herr
  simp only [steamBegin, hpol, hres, habs, htds, herr, Bool.not_true, Bool.false_eq_true, if_false]
  rfl

end

/-- A start reads memory and changes its own run. -/
theorem steamBegin_form (d : Dev) (t : Nat) (r : RunOp) : ∃ d1, OnlyMem d d1 ∧ RunAlone t .steamer d1 (steamBegin d t r) := by
  have hrefuse {d1 : Dev} {c : Code} (h : OnlyMem d d1) (heq : steamBegin d t r = refuse d1 t .steamer c) :
      ∃ d1, OnlyMem d d1 ∧ RunAlone t .steamer d1 (steamBegin d t r) := ⟨d1, h, heq ▸ .of_endRun ..⟩
  cases hpol : polderOf d (runPolder d t r) with
  | none => exact ⟨d, .refl d, by simp only [steamBegin, hpol]; exact .refl ..⟩
  | some px =>
    cases hres : sReservedOk r.q.desc with
    | false => exact hrefuse (.refl d) (steamBegin_reserved hpol hres)
    | true =>
      cases habs : sAbsent r.q.desc with
      | true => exact hrefuse (.refl d) (steamBegin_absent hpol hres habs)
      | false =>
        have hmem := (readTds_spec d t px (runAcc d t r) (sTdOfs r.q.desc)).1
        cases htds : readTds d t px (runAcc d t r) (sTdOfs r.q.desc) with
        | mk d1 tds =>
          rw [htds] at hmem
          cases tds with
          | error c => exact hrefuse hmem (steamBegin_descriptors hpol hres habs htds)
          | ok l =>
            cases herr : steamErr d1 d t r px l with
            | some c => exact hrefuse hmem (steamBegin_check hpol hres habs htds herr)
            | none => exact ⟨d1, hmem, steamBegin_ok hpol hres habs htds herr ▸ .of_onRun ..⟩

/-! ### The operation after its start -/

/-- The device once the operation has begun, now or before. -/
def steamStart (d : Dev) (t : Nat) (r : RunOp) : Dev := if r.begun then d else steamBegin d t r

theorem steamStart_form (d : Dev) (t : Nat) (r : RunOp) : ∃ d1, OnlyMem d d1 ∧ RunAlone t .steamer d1 (steamStart d t r) := by
  unfold steamStart
  split
  · exact ⟨d, .refl d, .refl ..⟩
  · exact steamBegin_form d t r

theorem steamStart_selfId (d : Dev) (t : Nat) (r : RunOp) : selfId (steamStart d t r) = selfId d := by
  obtain ⟨d1, hmem, halone⟩ := steamStart_form d t r
  unfold selfId
  rw [halone.dev, hmem]

theorem steamStart_orphans (d : Dev) (t : Nat) (r : RunOp) : (tileOf (steamStart d t r) t).orphans = (tileOf d t).orphans := by
  obtain ⟨d1, hmem, halone⟩ := steamStart_form d t r
  rw [halone.tile]
  unfold tileOf
  rw [hmem]

theorem steamStart_polder {d : Dev} {t : Nat} {r r1 : RunOp} (hq : r1.q = r.q) :
    polderOf (steamStart d t r) (runPolder (steamStart d t r) t r1) = polderOf d (runPolder d t r) := by
  obtain ⟨d1, hmem, halone⟩ := steamStart_form d t r
  have htile : tileOf d1 t = tileOf d t := by unfold tileOf; rw [hmem]
  have hslot : (slotOf (steamStart d t r) t r.q.slot).use = (slotOf d t r.q.slot).use := by
    unfold slotOf
    rw [halone.tile, htile]
  rw [runPolder_congr hslot hq]
  unfold polderOf
  rw [halone.dev, hmem]

section
variable {d : Dev} {t op : Nat} {r r1 : RunOp} {px : Polder} (hrun : running d t .steamer op = some r)
include hrun

theorem steamer_start : steamer d t op = match running (steamStart d t r) t .steamer op with
    | none => steamStart d t r
    | some r1 =>
      match polderOf (steamStart d t r) (runPolder (steamStart d t r) t r1) with
      | none => steamStart d t r
      | some px =>
        if !r1.begun then steamStart d t r
        else if sSrc r1.q.desc then orphanCheck (steamStart d t r) t else steamRun (steamStart d t r) t r1 px := by
  unfold steamer
  rw [hrun]
  rfl

/-- An operation that has begun waits for entries, or runs. -/
theorem steamer_begun (hrun1 : running (steamStart d t r) t .steamer op = some r1) (hbeg : r1.begun = true) (hq : r1.q = r.q)
    (hpol : polderOf d (runPolder d t r) = some px) :
    steamer d t op = if sSrc r.q.desc then orphanCheck (steamStart d t r) t else steamRun (steamStart d t r) t r1 px := by
  rw [steamer_start hrun, hrun1]
  simp only [steamStart_polder hq, hpol, hbeg, hq, Bool.not_true, Bool.false_eq_true, if_false]

end

/-- A start that is refused ends the operation. -/
theorem steamer_refused {s : State} {t op : Nat} {r : RunOp} {d1 : Dev} {c : Code} (hrun : running s.dev t .steamer op = some r)
    (hb : r.begun = false) (hmem : OnlyMem s.dev d1) (heq : steamBegin s.dev t r = refuse d1 t .steamer c) :
    OpEnds s t .steamer .notStarted c 0 (.next { s with dev := steamer s.dev t op }) := by
  obtain ⟨hr, -, hend⟩ := running_iff.1 (hmem.running hrun)
  have hstart : steamStart s.dev t r = refuse d1 t .steamer c := by rw [steamStart, hb]; exact heq
  have hover : running (steamStart s.dev t r) t .steamer op = none := by
    unfold running
    rw [hstart, refuse, runOf_endRun hr hend]
    simp
  rw [steamer_start hrun, hover, hstart]
  exact opEnds_endRun (.of_onlyMem hmem) hr hend ..

theorem exec_steamer {t : TileNo} {op : Nat} {i : Instr}
    (h : (op, i) ∈ [(1, Instr.map t), (2, .reduceSum t), (3, .reduceMax t), (4, .reduceMin t), (5, .reduceArgmax t), (6, .softmax t),
      (7, .rmsnorm t), (8, .layernorm t), (9, .rmsnormBwd t), (10, .layernormBwd t)]) (s : State) :
    exec i s = .next { s with dev := steamer s.dev t.toNat op } ∧ 1 ≤ op := by
  simp only [List.mem_cons, List.not_mem_nil, or_false, Prod.mk.injEq] at h
  obtain ⟨rfl, rfl⟩ | ⟨rfl, rfl⟩ | ⟨rfl, rfl⟩ | ⟨rfl, rfl⟩ | ⟨rfl, rfl⟩ | ⟨rfl, rfl⟩ | ⟨rfl, rfl⟩ | ⟨rfl, rfl⟩ | ⟨rfl, rfl⟩ | ⟨rfl, rfl⟩ := h <;>
    exact ⟨rfl, by decide⟩

/-- The checks have passed and the operation has begun. -/
theorem steamBegin_begun {d d1 : Dev} {t op : Nat} {r : RunOp} {px : Polder} {l : List TDesc} (hrun : running d t .steamer op = some r)
    (hpol : polderOf d (runPolder d t r) = some px) (hres : sReservedOk r.q.desc = true) (habs : sAbsent r.q.desc = false)
    (htds : readTds d t px (runAcc d t r) (sTdOfs r.q.desc) = (d1, .ok l)) (hmem : OnlyMem d d1) (herr : steamErr d1 d t r px l = none) :
    Begun t .steamer r l d (steamBegin d t r) := by
  obtain ⟨hr, -, hend⟩ := running_iff.1 (hmem.running hrun)
  refine ⟨d1, steamKept d1 t l r, .of_onlyMem hmem, ?_, rfl, rfl, rfl, hend, rfl, rfl⟩
  rw [steamBegin_ok hpol hres habs htds herr]
  refine onEngine_congr ?_
  rw [show (engineOf d1 t .steamer).run = some r from hr, Option.map_some]

/-! ### The operation from memory -/

section
variable {s : State} {t op : Nat} {r r1 : RunOp} {px : Polder} (hrun : running s.dev t .steamer op = some r) (hbeg : r1.begun = true)
  (hq : r1.q = r.q) (hbad : r1.bad = none) (hpol : polderOf s.dev (runPolder s.dev t r) = some px) (hsrc : sSrc r.q.desc = false)
include hrun hbeg hq hbad hpol hsrc

/-- It runs out over its shape. -/
theorem steamer_runsOut (hrun1 : running (steamStart s.dev t r) t .steamer op = some r1)
    (hhere : ∀ k, k < 7 → sHas r.q.desc k = true → (tDev (sTd r1 k)).toNat = selfId s.dev) :
    RunsOut s (steamStart s.dev t r) t .steamer (volume (sOut r.q.desc r1)) (.next { s with dev := steamer s.dev t op }) := by
  obtain ⟨hr1, -, hend1⟩ := running_iff.1 hrun1
  have htensors : TensorsHere (steamStart s.dev t r) r1 := fun k hk hhas => by
    rw [steamStart_selfId]
    exact hhere k hk (hq ▸ hhas)
  have heq := steamer_begun hrun hrun1 hbeg hq hpol
  rw [hsrc, if_neg Bool.false_ne_true, steamRun_eq hbad htensors] at heq
  rw [heq, ← hq]
  exact steamSettle_last (s := { s with dev := steamStart s.dev t r }) (c := steamPass (steamStart s.dev t r) t r1 px)
    (e := sEnv (steamStart s.dev t r) t r1 px) (steamPass_frame ..) hr1 hend1

end

section
variable {s : State} {t : Nat} {r : RunOp} (px : Polder) (hecc : s.dev.mem.ecc = []) (hok : SteamOk s.dev r)
  (hop : 1 ≤ dOpcode r.q.desc) (hbad : r.bad = none)
include hecc hok hop hbad

/-- In no error it ends DONE with the elements of Z. -/
theorem steamRun_ends (hrun : runOf s.dev t .steamer = some r) (hend : r.ended = none) :
    OpEnds s t .steamer .done 0 (volume (sOut r.q.desc r)) (.next { s with dev := steamRun s.dev t r px }) := by
  rw [steamRun_done px hecc hok hop hbad]
  exact steamClose_ends (e := sEnv s.dev t r px) (steamPass_frame ..) hrun hend ..

/-- In no error it stores its outputs alone. -/
theorem steamRun_storesOnly : StoresOnly s (steamOuts r.q.desc r) (.next { s with dev := steamRun s.dev t r px }) :=
  ⟨_, rfl, fun a ha => ((steamRun_onlyTiles (t := t) px hecc hok hop hbad).byteAt a).trans ((steamWork_ok px hecc hok hop).beside a ha)⟩

end

/-- Settles O22. A start fails at the first of its checks that fails (`steamer_refused`) or the operation begins
(`steamBegin_begun`); from memory it passes over its shape and ends (`steamer_runsOut`). Where every element is good a pass stays
steady (`steamWork_ok`): it reads without an error and stores its outputs alone, so it ends DONE (`steamRun_ends`), and a MAP leaves
its function of the inputs in Z (`steamRun_map`). -/
theorem steamerOperations : Obligations.SteamerOperations := by
  unfold Obligations.SteamerOperations
  refine ⟨fun t s op i r px hi hrun hbad hpol => ?_, fun t s op i r px hi hrun hbeg hbad hpol hecc => ?_⟩
  · rw [(exec_steamer hi s).1]
    have hmem := (readTds_spec s.dev t.toNat px (runAcc s.dev t.toNat r) (sTdOfs r.q.desc)).1
    refine ⟨fun hb hres => steamer_refused hrun hb (.refl _) (steamBegin_reserved hpol hres),
      fun hb hres habs => steamer_refused hrun hb (.refl _) (steamBegin_absent hpol hres habs), fun hb hres habs => ?_,
      fun r1 hrun1 hbeg1 hq hbad1 => ⟨fun hsrc horph => ?_, fun hsrc hhere => ?_⟩⟩
    · generalize htds : readTds s.dev t.toNat px (runAcc s.dev t.toNat r) (sTdOfs r.q.desc) = x at hmem
      obtain ⟨d1, tds⟩ := x
      refine ⟨fun c hc => ?_, fun l c hl hc => ?_, fun l hl hnone => ?_⟩
      · obtain rfl : tds = _ := hc
        exact steamer_refused hrun hb hmem (steamBegin_descriptors hpol hres habs htds)
      · obtain rfl : tds = _ := hl
        exact steamer_refused hrun hb hmem (steamBegin_check hpol hres habs htds hc)
      · obtain rfl : tds = _ := hl
        exact steamBegin_begun hrun hpol hres habs htds hmem hnone
    · rw [steamer_begun hrun hrun1 hbeg1 hq hpol, if_pos hsrc, orphanCheck_none (by rw [steamStart_orphans]; exact horph)]
      rfl
    · exact steamer_runsOut hrun hbeg1 hq hbad1 hpol hsrc hrun1 hhere
  · obtain ⟨hexec, hop⟩ := exec_steamer hi s
    obtain ⟨hr, rfl, hend⟩ := running_iff.1 hrun
    rw [hexec]
    intro x acc sh used outs read hsrc hne hfull hreads hwrites hcodes
    have hstart : steamStart s.dev t.toNat r = s.dev := if_pos hbeg
    have hrunning : steamer s.dev t.toNat (dOpcode r.q.desc) = steamRun s.dev t.toNat r px := by
      have heq := steamer_begun hrun (by rw [hstart]; exact hrun) hbeg rfl hpol
      rwa [hstart, show sSrc r.q.desc = false from hsrc, if_neg Bool.false_ne_true] at heq
    have hok : SteamOk s.dev r := ⟨hne, hfull, hreads, hwrites, hcodes⟩
    rw [hrunning]
    refine ⟨steamRun_ends px hecc hok hop hbad hr hend, steamRun_storesOnly px hecc hok hop hbad,
      fun hmap hmask hz F hF href hspread => ⟨_, rfl, fun ix hix => ?_⟩⟩
    exact steamRun_map px hecc hok hbad hmap hmask hz hF href (steamOuts_map r hmap hz ▸ hspread) hix

end Sys2Proof.Machine
end

section
/-! Fields of a word written and read (R12): a field that is put is the field read, and the fields beside it stay. -/

namespace Sys2Proof.Machine

/-- A number with a field replaced is what stands below the field, the new value, and what stands above. -/
theorem setBits_eq (x v : Nat) {hi lo : Nat} (h : lo ≤ hi) :
    setBits x hi lo v = 2 ^ lo * (2 ^ (hi + 1 - lo) * (x >>> (hi + 1)) + v % 2 ^ (hi + 1 - lo)) + x % 2 ^ lo := by
  have hlow := Nat.div_add_mod x (2 ^ lo)
  have hmid := Nat.div_add_mod (x / 2 ^ lo) (2 ^ (hi + 1 - lo))
  have hhigh : x / 2 ^ lo / 2 ^ (hi + 1 - lo) = x / 2 ^ (hi + 1) := by
    rw [Nat.div_div_eq_div_mul, ← Nat.pow_add, show lo + (hi + 1 - lo) = hi + 1 by omega]
  unfold setBits bits
  simp only [Nat.shiftRight_eq_div_pow, Nat.shiftLeft_eq]
  rw [hhigh] at hmid
  generalize 2 ^ (hi + 1 - lo) * (x / 2 ^ (hi + 1)) = high at *
  generalize x / 2 ^ lo % 2 ^ (hi + 1 - lo) = mid at *
  rw [← hmid] at hlow
  rw [Nat.mul_add] at hlow ⊢
  rw [Nat.mul_comm mid, Nat.mul_comm (v % _)]
  omega

theorem testBit_setBits (x v : Nat) {hi lo : Nat} (h : lo ≤ hi) (i : Nat) :
    (setBits x hi lo v).testBit i = if lo ≤ i ∧ i ≤ hi then v.testBit (i - lo) else x.testBit i := by
  rw [setBits_eq x v h, Nat.testBit_two_pow_mul_add _ (Nat.mod_lt _ (Nat.two_pow_pos _)),
    Nat.testBit_two_pow_mul_add _ (Nat.mod_lt _ (Nat.two_pow_pos _))]
  rcases lt_or_ge i lo with hlo | hlo
  · rw [if_pos hlo, if_neg (by omega), Nat.testBit_mod_two_pow, decide_eq_true hlo, Bool.true_and]
  rw [if_neg (by omega)]
  rcases lt_or_ge hi i with hhi | hhi
  · rw [if_neg (by omega), if_neg (by omega), Nat.testBit_shiftRight]
    congr 1
    omega
  · rw [if_pos (by omega), if_pos ⟨hlo, hhi⟩, Nat.testBit_mod_two_pow, decide_eq_true (by omega), Bool.true_and]

section
variable {w : Nat} (y : BitVec w) {hi lo : Nat} (v : Nat) (h : lo ≤ hi)
include h

/-- The field that is put. -/
theorem fld_putFld (hw : hi < w) : fld (putFld y hi lo v) hi lo = v % 2 ^ (hi + 1 - lo) := by
  refine Nat.eq_of_testBit_eq fun i => ?_
  unfold fld bits putFld
  rw [BitVec.toNat_ofNat, Nat.testBit_mod_two_pow, Nat.testBit_shiftRight, Nat.testBit_mod_two_pow, Nat.testBit_mod_two_pow,
    testBit_setBits _ _ h]
  by_cases hi' : i < hi + 1 - lo
  · rw [decide_eq_true hi', decide_eq_true (by omega), if_pos (by omega), Nat.add_sub_cancel_left]
    rfl
  · rw [decide_eq_false hi', Bool.false_and, Bool.false_and]

/-- A field beside it. -/
theorem fld_putFld_ne {hi' lo' : Nat} (hw : hi' < w) (hne : hi' < lo ∨ hi < lo') : fld (putFld y hi lo v) hi' lo' = fld y hi' lo' := by
  refine Nat.eq_of_testBit_eq fun i => ?_
  unfold fld bits putFld
  rw [BitVec.toNat_ofNat, Nat.testBit_mod_two_pow, Nat.testBit_shiftRight, Nat.testBit_mod_two_pow, Nat.testBit_mod_two_pow,
    Nat.testBit_shiftRight, testBit_setBits _ _ h]
  by_cases hi'' : i < hi' + 1 - lo'
  · rw [if_neg (by omega), decide_eq_true (show lo' + i < w by omega), Bool.true_and]
  · rw [decide_eq_false hi'', Bool.false_and, Bool.false_and]

end

end Sys2Proof.Machine
end

section
/-! One scale register rolled (R163). -/

namespace Sys2Proof.Machine

/-- Entries of a history put at their places. -/
def putHist (y : BitVec 512) (l : List (Nat × B16)) : BitVec 512 :=
  l.foldl (fun y p => putFld y (16 * p.1 + 79) (16 * p.1 + 64) p.2.toNat) y

/-- The history of a register after its roll. -/
def rolledHist (y : BitVec 512) : List B16 := srPend y :: (List.range 15).map (srHist y)

/-- The register after its roll, under its old scale. -/
def rolled (y : BitVec 512) : BitVec 512 :=
  putFld (putFld (putHist y (List.zip (List.range 16) (rolledHist y))) 47 32 0) 52 48 (min (srFill y + 1) 16)

/-- The largest of some entries. -/
def rollMax : List F32 → F32
  | [] => 0
  | b :: l => l.foldl fmax b

/-- The entries that a roll forms the scale from. -/
def rollUsed (x : BitVec 1024) (y : BitVec 512) : List F32 :=
  ((rolledHist y).take (min (if nHlen x = 0 then 4 else nHlen x) (min (srFill y + 1) 16))).map fun v => rne32 (val16 v)

/-- The scale that a roll forms. -/
def rollScale (x : BitVec 1024) (y : BitVec 512) : Option F32 :=
  formScale ((Fmt.ofCode (nTfmt x)).getD .fp32) (rollMax (rollUsed x y)) (nMg x)

theorem rollReg_eq (x : BitVec 1024) (y : BitVec 512) : rollReg x y = match rollScale x y with
    | some s => (putFld (rolled y) 31 0 s.toNat, false)
    | none => (if scaleOk (srScale (rolled y)) then rolled y else putFld (rolled y) 31 0 one32.toNat, true) := by
  unfold rollReg rollScale rollMax rollUsed
  rfl

/-! ### The history -/

section
variable (y : BitVec 512) {l : List (Nat × B16)}

theorem fld_putHist_ne {hi lo : Nat} (hw : hi < 512) (h : ∀ p ∈ l, hi < 16 * p.1 + 64 ∨ 16 * p.1 + 79 < lo) :
    fld (putHist y l) hi lo = fld y hi lo := by
  induction l generalizing y with
  | nil => rfl
  | cons p l ih =>
    obtain ⟨hp, h⟩ := List.forall_mem_cons.1 h
    exact (ih _ h).trans (fld_putFld_ne y _ (by omega) hw hp)

theorem srHist_putHist (hdistinct : (l.map Prod.fst).Nodup) (hplaces : ∀ p ∈ l, p.1 < 16) {p : Nat × B16} (hp : p ∈ l) :
    srHist (putHist y l) p.1 = p.2 := by
  induction l generalizing y with
  | nil => cases hp
  | cons q l ih =>
    obtain ⟨hq, hplaces⟩ := List.forall_mem_cons.1 hplaces
    obtain ⟨hnew, hdistinct⟩ := List.nodup_cons.1 hdistinct
    rcases List.mem_cons.1 hp with rfl | hp
    · have hlater : ∀ r ∈ l, r.1 ≠ p.1 := fun r hr heq => hnew (heq ▸ List.mem_map_of_mem hr)
      unfold srHist
      rw [show putHist y (p :: l) = putHist (putFld y (16 * p.1 + 79) (16 * p.1 + 64) p.2.toNat) l from rfl,
        fld_putHist_ne _ (by omega) fun r hr => by have := hlater r hr; omega, fld_putFld _ _ (by omega) (by omega)]
      rw [show 16 * p.1 + 79 + 1 - (16 * p.1 + 64) = 16 by omega, Nat.mod_eq_of_lt p.2.isLt, BitVec.ofNat_toNat, BitVec.setWidth_eq]
    · exact ih _ hdistinct hplaces hp

end

/-! ### The fields after a roll -/

section
variable (x : BitVec 1024) (y : BitVec 512)

theorem rolledHist_length : (rolledHist y).length = 16 := by simp [rolledHist]

/-- A roll writes pend, fill and the history. -/
theorem fld_rolled {hi lo : Nat} (hw : hi < 512) (h : hi < 32 ∨ 53 ≤ lo ∧ hi < 64 ∨ 320 ≤ lo) : fld (rolled y) hi lo = fld y hi lo := by
  unfold rolled
  rw [fld_putFld_ne _ _ (by omega) hw (by omega), fld_putFld_ne _ _ (by omega) hw (by omega), fld_putHist_ne _ hw]
  intro p hp
  have := List.mem_range.1 (List.of_mem_zip hp).1
  omega

theorem srHist_rolled {i : Nat} (hi : i < 16) : srHist (rolled y) i = (rolledHist y)[i]'(by rwa [rolledHist_length]) := by
  have hlen := rolledHist_length y
  have hmem : (i, (rolledHist y)[i]'(by omega)) ∈ List.zip (List.range 16) (rolledHist y) :=
    List.mem_iff_getElem.2 ⟨i, by simp [hlen, hi], by simp⟩
  have hplace := srHist_putHist y (by rw [List.map_fst_zip (by simp [hlen])]; exact List.nodup_range)
    (fun p hp => List.mem_range.1 (List.of_mem_zip hp).1) hmem
  refine Eq.trans ?_ hplace
  unfold rolled srHist
  rw [fld_putFld_ne _ _ (by omega) (by omega) (by omega), fld_putFld_ne _ _ (by omega) (by omega) (by omega)]

theorem srPend_rolled : srPend (rolled y) = 0 := by
  unfold rolled srPend
  rw [fld_putFld_ne _ _ (by omega) (by omega) (by omega), fld_putFld _ _ (by omega) (by omega)]
  rfl

theorem srFill_rolled : srFill (rolled y) = min (srFill y + 1) 16 := by
  unfold rolled
  rw [srFill, fld_putFld _ _ (by omega) (by omega), Nat.mod_eq_of_lt (by omega)]

theorem srScale_rolled : srScale (rolled y) = srScale y := congrArg (BitVec.ofNat 32) (fld_rolled y (by omega) (by omega))

theorem srScale_putFld (z : BitVec 512) (v : F32) : srScale (putFld z 31 0 v.toNat) = v := by
  unfold srScale
  rw [fld_putFld _ _ (by omega) (by omega), Nat.mod_eq_of_lt v.isLt, BitVec.ofNat_toNat, BitVec.setWidth_eq]

/-- Beside the scale, a register holds what its roll left. -/
theorem fld_rollReg {hi lo : Nat} (hw : hi < 512) (h : 32 ≤ lo) : fld (rollReg x y).1 hi lo = fld (rolled y) hi lo := by
  have hput (v : Nat) : fld (putFld (rolled y) 31 0 v) hi lo = fld (rolled y) hi lo := fld_putFld_ne _ _ (by omega) hw (by omega)
  rw [rollReg_eq]
  cases rollScale x y with
  | some s => exact hput _
  | none =>
    dsimp only
    split
    · rfl
    · exact hput _

theorem srHist_rollReg {i : Nat} (hi : i < 16) : srHist (rollReg x y).1 i = (rolledHist y)[i]'(by rwa [rolledHist_length]) :=
  (congrArg (BitVec.ofNat 16) (fld_rollReg x y (by omega) (by omega))).trans (srHist_rolled y hi)

/-- The entries used are the newest of the history as it stands after the roll. -/
theorem rollUsed_eq : rollUsed x y = (List.range (min (if nHlen x = 0 then 4 else nHlen x) (min (srFill y + 1) 16))).map fun i =>
    rne32 (val16 (srHist (rollReg x y).1 i)) := by
  have hlen := rolledHist_length y
  unfold rollUsed
  refine List.ext_getElem (by simp [hlen]) fun i h1 h2 => ?_
  have hi : i < 16 := by rw [List.length_map, List.length_range] at h2; omega
  simp only [List.getElem_map, List.getElem_take, List.getElem_range, srHist_rollReg x y hi]

theorem rollReg_scale : match rollScale x y with
    | some v => srScale (rollReg x y).1 = v ∧ (rollReg x y).2 = false
    | none => srScale (rollReg x y).1 = (if scaleOk (srScale y) then srScale y else one32) ∧ (rollReg x y).2 = true := by
  rw [rollReg_eq]
  cases rollScale x y with
  | some s => exact ⟨srScale_putFld .., rfl⟩
  | none =>
    dsimp only
    rw [srScale_rolled]
    split
    · exact ⟨srScale_rolled y, rfl⟩
    · exact ⟨srScale_putFld .., rfl⟩

end

/-- Settles O24: the fields that a roll writes by `fld_putFld`, the history by `srHist_rolled`, the scale by `rollReg_scale`. -/
theorem scaleRoll : Obligations.ScaleRoll := by
  unfold Obligations.ScaleRoll
  intro x y _ z w used a
  have hfld {hi lo : Nat} (hw : hi < 512) (h : 53 ≤ lo ∧ hi < 64 ∨ 320 ≤ lo) : fld z hi lo = fld y hi lo :=
    (fld_rollReg x y hw (by omega)).trans (fld_rolled y hw (.inr h))
  have ha : a = rollMax (rollUsed x y) := by
    rw [rollUsed_eq]
    rfl
  refine ⟨srHist_rollReg x y (by omega), fun i hi => ?_, ?_, ?_, hfld (by omega) (by omega), hfld (by omega) (by omega), ?_⟩
  · rw [srHist_rollReg x y (by omega)]
    simp [rolledHist]
  · exact (congrArg (BitVec.ofNat 16) (fld_rollReg x y (by omega) (by omega))).trans (srPend_rolled y)
  · exact (fld_rollReg x y (by omega) (by omega)).trans (srFill_rolled y)
  · rw [ha]
    exact rollReg_scale x y

end Sys2Proof.Machine
end

section
/-! A Napper operation begins and does its work (R159, R163 to R176): the row's meaning once the operation has begun, and the end
that its work reaches. -/

namespace Sys2Proof.Machine

/-- The device once the operation has begun, now or before. -/
def napperStart (d : Dev) (t : Nat) (r : RunOp) : Dev := if r.begun then d else napperBegin d t r

/-- The end of SLOAD and SSTORE: DONE with the number of registers, or PARTIAL at the register that could not be done. -/
def regsEnd (t n : Nat) : Dev × Option (Code × Nat) → Dev
  | (d, some (c, k)) => partRun d t .napper c k
  | (d, none) => doneRun d t .napper n

/-- ROLL's registers rolled in turn, and its end. -/
def rollRun (d : Dev) (t : Nat) (r : RunOp) : Dev :=
  let p := rollGo t r.q.desc (nRcount r.q.desc) (nRbase r.q.desc) d 0
  doneRun (onRun p.1 t .napper fun r => { r with counts := { sat := p.2 } }) t .napper (nRcount r.q.desc)

/-- The work of each row on an operation that has begun. -/
def napperWork (d : Dev) (t op : Nat) (r : RunOp) : Dev :=
  match op with
  | 1 => encodeRun d t r
  | 2 => decodeRun d t r
  | 3 => rollRun d t r
  | 4 => regsEnd t (nRcount r.q.desc) (sloadGo t r (nRcount r.q.desc) 0 d)
  | _ => regsEnd t (nRcount r.q.desc) (sstoreGo t r (nRcount r.q.desc) 0 d)

theorem napper_begun {d : Dev} {t op : Nat} {r r1 : RunOp} (hrun : running d t .napper op = some r)
    (hrun1 : running (napperStart d t r) t .napper op = some r1) (hbeg : r1.begun = true) :
    napper d t op = napperWork (napperStart d t r) t op r1 := by
  unfold napper
  rw [hrun]
  dsimp only
  rw [show (if r.begun then d else napperBegin d t r) = napperStart d t r from rfl, hrun1]
  dsimp only
  rw [hbeg, Bool.not_true, if_neg Bool.false_ne_true]
  rfl

theorem exec_napper {t : TileNo} {op : Nat} {i : Instr}
    (h : (op, i) ∈ [(1, Instr.encode t), (2, .decode t), (3, .roll t), (4, .sload t), (5, .sstore t)]) (s : State) :
    exec i s = .next { s with dev := napper s.dev t.toNat op } := by
  simp only [List.mem_cons, List.not_mem_nil, or_false, Prod.mk.injEq] at h
  obtain ⟨rfl, rfl⟩ | ⟨rfl, rfl⟩ | ⟨rfl, rfl⟩ | ⟨rfl, rfl⟩ | ⟨rfl, rfl⟩ := h <;> rfl

section
variable {t : TileNo} {op : Nat} {i : Instr} {s : State} {r : RunOp}
  (hi : (op, i) ∈ [(1, Instr.encode t), (2, .decode t), (3, .roll t), (4, .sload t), (5, .sstore t)])
  (hrun : running s.dev t.toNat .napper op = some r)
include hi hrun

/-- The row of an operation that begins now, or has begun. -/
theorem exec_napper_begun {r1 : RunOp} (hrun1 : running (napperStart s.dev t.toNat r) t.toNat .napper op = some r1)
    (hbeg1 : r1.begun = true) : exec i s = .next { s with dev := napperWork (napperStart s.dev t.toNat r) t.toNat op r1 } := by
  rw [exec_napper hi, napper_begun hrun hrun1 hbeg1]

/-- The row of an operation that has begun before. -/
theorem exec_napper_going (hbeg : r.begun = true) : exec i s = .next { s with dev := napperWork s.dev t.toNat op r } := by
  have hstart : napperStart s.dev t.toNat r = s.dev := if_pos hbeg
  have hexec := exec_napper_begun hi hrun (by rw [hstart]; exact hrun) hbeg
  rwa [hstart] at hexec

end

/-- Work in the operation's frame reaches the end that the helper gives. -/
theorem OpFrame.opEnds {s : State} {d : Dev} {t : Nat} {e : EngineId} {r : RunOp} (h : OpFrame t e s.dev d)
    (hrun : runOf s.dev t e = some r) (hend : r.ended = none) (st : TState) (c : Code) (m : Nat) :
    OpEnds s t e st c m (.next { s with dev := endRun d t e st c m }) := by
  obtain ⟨r1, hrun1, -, -, -, hend1, -⟩ := h.run r hrun
  exact opEnds_endRun h hrun1 (hend1.trans hend) st c m

/-- Progress of the run entered. -/
theorem OpFrame.counts {t : Nat} {e : EngineId} {d d' : Dev} (h : OpFrame t e d d') (cn : Counts) :
    OpFrame t e d (onRun d' t e fun r => { r with counts := cn }) := h.trans (.of_onRun _ _ fun _ => ⟨rfl, rfl, rfl, rfl, rfl⟩)

end Sys2Proof.Machine
end

section
/-! Scale registers rolled, loaded and stored (R156, R163, R176). -/

namespace Sys2Proof.Machine

/-! ### Registers written -/

theorem scaleReg_onScale (d : Dev) (t n : Nat) (f : BitVec 512 → BitVec 512) (k : Nat) :
    scaleReg (onScale d t n f) t k = if k = n then f (scaleReg d t n) else scaleReg d t k := by
  unfold scaleReg onScale
  rw [tileOf_onTile]
  split
  next h => rw [h]; exact NMap.get_upd_self ..
  next h => exact NMap.get_upd_ne _ _ _ _ h

theorem RunAlone.scaleReg {t : Nat} {e : EngineId} {d d' : Dev} (h : RunAlone t e d d') (k : Nat) :
    scaleReg d' t k = Machine.scaleReg d t k := by
  unfold Machine.scaleReg
  rw [h.tile]

/-- Of the device, n registers from lo on alone have changed, and hold the words given. -/
structure RegsWritten (t lo n : Nat) (f : Nat → BitVec 512) (d d' : Dev) : Prop where
  frame : OpFrame t .napper d d'
  tiles : OnlyTiles d d'
  regs : ∀ k, scaleReg d' t k = if lo ≤ k ∧ k < lo + n then f k else scaleReg d t k

theorem RegsWritten.nil (t lo : Nat) (f : Nat → BitVec 512) (d : Dev) : RegsWritten t lo 0 f d d :=
  ⟨.refl .., .refl d, fun k => by rw [if_neg (by omega)]⟩

theorem RegsWritten.cons {t lo n : Nat} {f : Nat → BitVec 512} {d d' : Dev} {g : BitVec 512 → BitVec 512} (hg : g (scaleReg d t lo) = f lo)
    (h : RegsWritten t (lo + 1) n f (onScale d t lo g) d') : RegsWritten t lo (n + 1) f d d' := by
  refine ⟨(onScale_frame ..).trans h.frame, OnlyTiles.trans (onTile_onlyTiles ..) h.tiles, fun k => ?_⟩
  rw [h.regs, scaleReg_onScale, hg]
  rcases Nat.lt_trichotomy k lo with hk | rfl | hk
  · rw [if_neg (by omega), if_neg (by omega), if_neg (by omega)]
  · rw [if_neg (by omega), if_pos rfl, if_pos (by omega)]
  · rw [if_neg (show k ≠ lo by omega)]
    exact if_congr (by omega) rfl rfl

/-- The registers as an end of the operation leaves them. -/
theorem RegsWritten.ended {t lo n : Nat} {f : Nat → BitVec 512} {d d1 d' : Dev} (h : RegsWritten t lo n f d d1) (he : RunAlone t .napper d1 d') :
    d'.mem = d.mem ∧ ∀ k, scaleReg d' t k = if lo ≤ k ∧ k < lo + n then f k else scaleReg d t k :=
  ⟨he.onlyTiles.mem.trans h.tiles.mem, fun k => (he.scaleReg k).trans (h.regs k)⟩

/-! ### ROLL (R163) -/

theorem rollGo_written (t : Nat) (x : BitVec 1024) (n lo : Nat) (d : Dev) (held : Nat) :
    RegsWritten t lo n (fun k => (rollReg x (scaleReg d t k)).1) d (rollGo t x n lo d held).1 := by
  induction n generalizing lo d held with
  | zero => exact .nil ..
  | succ n ih =>
    have hrest := ih (lo + 1) (onScale d t lo fun _ => (rollReg x (scaleReg d t lo)).1) (held + b2n (rollReg x (scaleReg d t lo)).2)
    refine RegsWritten.cons (g := fun _ => (rollReg x (scaleReg d t lo)).1) rfl ⟨hrest.frame, hrest.tiles, fun k => ?_⟩
    refine (hrest.regs k).trans ?_
    split
    next hk => rw [scaleReg_onScale, if_neg (by omega)]
    next => rfl

/-! ### Records of 64 B -/

/-- A range within one that is present is present. -/
theorem rangeErr_within {d : Dev} {a n a' n' : Nat} (h : rangeErr d a n = none) (h1 : a ≤ a') (h2 : a' + n' ≤ a + n) :
    rangeErr d a' n' = none := by
  have hgo (k u : Nat) (hu : ∀ v, u ≤ v → v < u + k → ∃ key, place d (256 * v) = .ok key) : rangeErrGo d k u = none := by
    induction k generalizing u with
    | zero => rfl
    | succ k ih =>
      obtain ⟨key, hkey⟩ := hu u le_rfl (by omega)
      unfold rangeErrGo
      rw [hkey]
      exact ih (u + 1) fun v hv hv' => hu v (by omega) (by omega)
  unfold rangeErr
  split
  · rfl
  · exact hgo _ _ fun v hv hv' => place_of_range h _ (by omega) (by omega) (by omega)

/-- The record of a register among those from A on (R156). -/
def recordAt (d : Dev) (A k : Nat) : BitVec 512 := BitVec.ofNat 512 (ofBytes (bytesAt d (A + 64 * k) 64))

theorem OnlyTiles.recordAt {d d' : Dev} (h : OnlyTiles d d') (A k : Nat) : recordAt d' A k = Machine.recordAt d A k :=
  congrArg (fun bs => BitVec.ofNat 512 (ofBytes bs)) (h.bytesAt ..)

/-! ### SLOAD (R176) -/

section
variable {d : Dev} {t n : Nat} {r : RunOp} (hrange : rangeErr d (nRec r.q.desc) (64 * n) = none) (hclean : Clean d (nRec r.q.desc) (64 * n))
include hrange hclean

/-- One record: its register is loaded, or the operation stops there. -/
theorem sloadGo_record (k : Nat) {i : Nat} (hi : i < n) : sloadGo t r (k + 1) i d =
    if recordOk (recordAt d (nRec r.q.desc) i) then
      sloadGo t r k (i + 1) (onScale d t (nRbase r.q.desc + i) fun _ => recordAt d (nRec r.q.desc) i)
    else (d, some (0x0446, nRbase r.q.desc + i)) := by
  rw [sloadGo, memRead_clean _ (rangeErr_within hrange (by omega) (by omega)) (hclean.mono (by omega) (by omega))]
  rfl

theorem sloadGo_written {k i : Nat} (hk : i + k ≤ n) (hok : ∀ j, i ≤ j → j < i + k → recordOk (recordAt d (nRec r.q.desc) j) = true) :
    ∃ d', sloadGo t r k i d = (d', none) ∧
      RegsWritten t (nRbase r.q.desc + i) k (fun m => recordAt d (nRec r.q.desc) (m - nRbase r.q.desc)) d d' := by
  induction k generalizing d i with
  | zero => exact ⟨d, rfl, .nil ..⟩
  | succ k ih =>
    have htiles : OnlyTiles d (onScale d t (nRbase r.q.desc + i) fun _ => recordAt d (nRec r.q.desc) i) := onTile_onlyTiles ..
    rw [sloadGo_record hrange hclean k (by omega), if_pos (hok i le_rfl (by omega))]
    obtain ⟨d', hgo, hregs⟩ := ih ((htiles.rangeErr ..).trans hrange) ((htiles.clean ..).2 hclean) (i := i + 1) (by omega)
      fun j hj hj' => by rw [htiles.recordAt]; exact hok j (by omega) (by omega)
    simp only [htiles.recordAt] at hregs
    exact ⟨d', hgo, RegsWritten.cons (by rw [Nat.add_sub_cancel_left]) hregs⟩

/-- The first record that is not well formed stops the operation at its register. -/
theorem sloadGo_stops {k i m : Nat} (hk : i + k ≤ n) (hi : i ≤ m) (hm : m < i + k) (hbad : recordOk (recordAt d (nRec r.q.desc) m) = false)
    (hok : ∀ j, i ≤ j → j < m → recordOk (recordAt d (nRec r.q.desc) j) = true) :
    ∃ d', sloadGo t r k i d = (d', some (0x0446, nRbase r.q.desc + m)) ∧ OpFrame t .napper d d' := by
  induction k generalizing d i with
  | zero => omega
  | succ k ih =>
    rw [sloadGo_record hrange hclean k (by omega)]
    rcases Nat.eq_or_lt_of_le hi with rfl | hlt
    · exact ⟨d, if_neg (by rw [hbad]; exact Bool.false_ne_true), .refl ..⟩
    · have htiles : OnlyTiles d (onScale d t (nRbase r.q.desc + i) fun _ => recordAt d (nRec r.q.desc) i) := onTile_onlyTiles ..
      rw [if_pos (hok i le_rfl hlt)]
      obtain ⟨d', hgo, hframe⟩ := ih ((htiles.rangeErr ..).trans hrange) ((htiles.clean ..).2 hclean) (i := i + 1) (by omega) hlt (by omega)
        (by rwa [htiles.recordAt]) fun j hj hj' => by rw [htiles.recordAt]; exact hok j (by omega) hj'
      exact ⟨d', hgo, (onScale_frame ..).trans hframe⟩

end

/-! ### SSTORE (R176) -/

theorem Restored.scaleReg {d d' : Dev} {a : Nat} {bs : List Byte} (h : Restored d a bs d') (t k : Nat) :
    scaleReg d' t k = Machine.scaleReg d t k := by
  unfold Machine.scaleReg tileOf
  rw [h.dev]

/-- The records of n registers from the i-th on stand in memory, and no byte beside them has changed. -/
structure RegsStored (t lo A i n : Nat) (d d' : Dev) : Prop where
  frame : OpFrame t .napper d d'
  inside : ∀ k, i ≤ k → k < i + n → bytesAt d' (A + 64 * k) 64 = toBytes 64 (scaleReg d t (lo + k)).toNat
  outside : ∀ b, b < A + 64 * i ∨ A + 64 * (i + n) ≤ b → byteAt d' b = byteAt d b

theorem RegsStored.cons {t lo A i n : Nat} {d d1 d' : Dev} (hframe : OpFrame t .napper d d1)
    (hfirst : Restored d (A + 64 * i) (toBytes 64 (scaleReg d t (lo + i)).toNat) d1) (h : RegsStored t lo A (i + 1) n d1 d') :
    RegsStored t lo A i (n + 1) d d' := by
  have hlen : (toBytes 64 (scaleReg d t (lo + i)).toNat).length = 64 := toBytes_length ..
  refine ⟨hframe.trans h.frame, fun k hk hk' => ?_, fun b hb => ?_⟩
  · rcases Nat.eq_or_lt_of_le hk with rfl | hlt
    · rw [bytesAt_congr fun j hj => h.outside _ (.inl (by omega))]
      exact hlen ▸ hfirst.bytesAt
    · rw [h.inside k hlt (by omega), hfirst.scaleReg]
  · rw [h.outside b (by omega), hfirst.outside b (by omega)]

theorem sstoreGo_stored {d : Dev} {t n : Nat} {r : RunOp} (hrange : rangeErr d (nRec r.q.desc) (64 * n) = none)
    (halign : nRec r.q.desc % 64 = 0) {k i : Nat} (hk : i + k ≤ n) :
    ∃ d', sstoreGo t r k i d = (d', none) ∧ RegsStored t (nRbase r.q.desc) (nRec r.q.desc) i k d d' := by
  induction k generalizing d i with
  | zero => exact ⟨d, rfl, .refl .., fun _ _ _ => by omega, fun _ _ => rfl⟩
  | succ k ih =>
    have hlen : (toBytes 64 (scaleReg d t (nRbase r.q.desc + i)).toNat).length = 64 := toBytes_length ..
    have hone : rangeErr d (nRec r.q.desc + 64 * i) (toBytes 64 (scaleReg d t (nRbase r.q.desc + i)).toNat).length = none :=
      rangeErr_within hrange (by omega) (by omega)
    have hfirst := memWrite_restored (k := 8) (runAcc d t r) (by omega) (by omega) hone
    obtain ⟨d', hgo, hstored⟩ := ih ((rangeErr_congr hfirst.place ..).trans hrange) (i := i + 1) (by omega)
    refine ⟨d', ?_, hstored.cons (memWrite_frame ..) hfirst⟩
    rw [sstoreGo, memWrite_present _ hone]
    exact hgo

end Sys2Proof.Machine
end

section
/-! ENCODE and DECODE run out over the elements of X (R164, R167 to R174): each part of their work stays in the operation's frame. -/

namespace Sys2Proof.Machine

/-! ### Elements -/

theorem encXp_frame {t : Nat} {d d' : Dev} {acc : Acc} {r : RunOp} {ix : List Nat} {k : Nat} {x : Except (Code × Nat) F32}
    (h : encXp d acc r ix k = (d', x)) : OpFrame t .napper d d' := by
  unfold encXp at h
  dsimp only at h
  split at h
  next h1 => cases h; exact elemAt_frame' h1
  next h1 =>
    split at h
    · cases h; exact elemAt_frame' h1
    split at h
    next h2 => cases h; exact (elemAt_frame' h1).trans (elemAt_frame' h2)
    next h2 => cases h; exact (elemAt_frame' h1).trans (elemAt_frame' h2)

theorem maxPass_frame {t : Nat} {acc : Acc} {r : RunOp} {d d' : Dev} {m : NMap F32} {k : Nat} {l : List (List Nat)}
    {x : Except (Code × Nat) (NMap F32)} (h : maxPass acc r d m k l = (d', x)) : OpFrame t .napper d d' := by
  induction l generalizing d m k with
  | nil => cases h; exact .refl ..
  | cons ix l ih =>
    unfold maxPass at h
    split at h
    next h1 => cases h; exact encXp_frame h1
    next h1 => exact (encXp_frame h1).trans (ih h)

theorem putScales_frame {t : Nat} {r : RunOp} {d d' : Dev} {i : Nat} {l : List F32} {x : Option Code}
    (h : putScales t r d i l = (d', x)) : OpFrame t .napper d d' := by
  induction l generalizing d i with
  | nil => cases h; exact .refl ..
  | cons s l ih =>
    unfold putScales at h
    dsimp only at h
    split at h
    · exact (onScale_frame ..).trans (ih h)
    split at h
    next h1 => cases h; exact writeRng_frame' h1
    next h1 => exact (writeRng_frame' h1).trans (ih h)

/-- The value of an element of a listed channel written to the outlier tensor (R168). -/
def encOutlier (d : Dev) (t : Nat) (r : RunOp) (ix : List Nat) (v : Option B16) : Dev × Option Code :=
  match encListed r ix, v with
  | some j, some v => writeAt d t .napper r (r.tds.getD 3 0) (ix.set (nOdim r.q.desc) j) v.toNat
  | _, _ => (d, none)

/-- The new residual of an element written under error feedback (R168). -/
def encFeedback (d : Dev) (t : Nat) (r : RunOp) (conv : Nat) (ix : List Nat) (e : F32) : Dev × Option Code :=
  if nEf r.q.desc then
    writeAt d t .napper r (r.tds.getD 2 0) ix (if fmtOf (r.tds.getD 2 0) = .bf16 then (bf16.conv conv (val32 e)).1 else e.toNat)
  else (d, none)

theorem encodeGo_cons (t : Nat) (z : EncSet) (r : RunOp) (d : Dev) (a : EncAcc) (k : Nat) (ix : List Nat) (l : List (List Nat)) :
    encodeGo t z r d a k (ix :: l) = match encXp d (runAcc d t r) r ix k with
      | (d, .error e) => (d, a, some e)
      | (d, .ok xp) =>
        match encWrite d t .napper r z a (encListed r ix).isSome ix xp with
        | (d, a, .error c) => (d, a, some (nStop c z.td ix k))
        | (d, a, .ok o) =>
          let p := encOutlier d t r ix o.out
          let q := encFeedback p.1 t r z.conv ix o.enew
          match p.2.or q.2 with
          | some c => (q.1, a, some (c, k))
          | none => encodeGo t z r q.1 a (k + 1) l := rfl

theorem encOutlier_frame (d : Dev) (t : Nat) (r : RunOp) (ix : List Nat) (v : Option B16) :
    OpFrame t .napper d (encOutlier d t r ix v).1 := by
  unfold encOutlier
  split
  · exact writeAt_frame ..
  · exact .refl ..

theorem encFeedback_frame (d : Dev) (t : Nat) (r : RunOp) (conv : Nat) (ix : List Nat) (e : F32) :
    OpFrame t .napper d (encFeedback d t r conv ix e).1 := by
  unfold encFeedback
  split
  · exact writeAt_frame ..
  · exact .refl ..

theorem encodeGo_frame (t : Nat) (z : EncSet) (r : RunOp) (d : Dev) (a : EncAcc) (k : Nat) (l : List (List Nat)) :
    OpFrame t .napper d (encodeGo t z r d a k l).1 := by
  induction l generalizing d a k with
  | nil => exact .refl ..
  | cons ix l ih =>
    rw [encodeGo_cons]
    split
    next h1 => exact encXp_frame h1
    next h1 =>
    split
    next h2 => exact (encXp_frame h1).trans (encWrite_frame' h2)
    next d2 _ o h2 =>
    have hwrites : OpFrame t .napper d (encFeedback (encOutlier d2 t r ix o.out).1 t r z.conv ix o.enew).1 :=
      ((encXp_frame h1).trans (encWrite_frame' h2)).trans ((encOutlier_frame ..).trans (encFeedback_frame ..))
    dsimp only
    split
    · exact hwrites
    · exact hwrites.trans (ih ..)

theorem decodeGo_frame (t : Nat) (r : RunOp) (F : FFmt) (d : Dev) (cn : Counts) (lost : Option Nat) (k : Nat) (l : List (List Nat)) :
    OpFrame t .napper d (decodeGo t r F d cn lost k l).1 := by
  induction l generalizing d cn lost k with
  | nil => exact .refl ..
  | cons ix l ih =>
    have hread := elemRaw_frame (t := t) (e := .napper) d (runAcc d t r) r (r.tds.getD 0 0) (r.snaps.getD 0 []) ix
    unfold decodeGo
    dsimp only
    split
    next h1 => rwa [h1] at hread
    next h1 =>
    rw [h1] at hread
    split
    next h2 => exact hread.trans (writeAt_frame' h2)
    next h2 => exact (hread.trans (writeAt_frame' h2)).trans (ih ..)

/-! ### The work on elements, and its end -/

/-- The number of elements of X is the number of places of its index vectors. -/
theorem allIxs_length (td : TDesc) : (allIxs td).length = tCount td := by simp [allIxs]

/-- The scales that an ENCODE uses: those it forms under current scaling, with the number held, or those of its start (R164). -/
def encodeScales (d : Dev) (t : Nat) (r : RunOp) : Dev × List F32 × Nat × Option (Code × Nat) :=
  if nSmode r.q.desc then
    match maxPass (runAcc d t r) r d [] 0 (allIxs (r.tds.getD 0 0)) with
    | (d, .error e) => (d, [], 0, some e)
    | (d, .ok m) =>
      let p := putScales t r d 0 (currentScales r m).1
      (p.1, (currentScales r m).1, (currentScales r m).2, p.2.map fun c => (c, 0))
  else (d, r.snaps.getD 1 [], 0, none)

/-- The device once an encode over the elements of X has closed, with its counts. -/
def encodeClosed (t : Nat) (r : RunOp) (z : EncSet) (p : Dev × EncAcc × Option (Code × Nat)) : Dev :=
  onRun (encClose p.1 t .napper r z p.2.1).1 t .napper fun r => { r with counts := p.2.1.counts }

/-- An ENCODE over the elements of X, to its end. -/
def encodeElems (d : Dev) (t : Nat) (r : RunOp) (z : EncSet) (a : EncAcc) (ixs : List (List Nat)) : Dev :=
  let p := encodeGo t z r d a 0 ixs
  match p.2.2, (encClose p.1 t .napper r z p.2.1).2 with
  | some (c, k), _ => partRun (encodeClosed t r z p) t .napper c k
  | none, some c => partRun (encodeClosed t r z p) t .napper c ixs.length
  | none, none => doneRun (encodeClosed t r z p) t .napper ixs.length

/-- The scales of Z as the encode looks them up. -/
def usedScales (r : RunOp) (ss : List F32) : List F32 := if tSrefKind (r.tds.getD 1 0) = 1 then ss else []

/-- An ENCODE once its scales stand, to its end. -/
def encodeRest (d : Dev) (t : Nat) (r0 : RunOp) (ss : List F32) (held : Nat) : Option (Code × Nat) → Dev
  | some (c, k) => partRun (onRun d t .napper fun r => { r with counts := { sat := held } }) t .napper c k
  | none =>
    let r := (runOf d t .napper).getD r0
    encodeElems d t r (encodeSet d r (usedScales r0 ss)) { counts := { sat := held } } (allIxs (r0.tds.getD 0 0))

/-- The tensors that an ENCODE names lie on this device. -/
structure EncodeHere (d : Dev) (r : RunOp) : Prop where
  x : (tDev (r.tds.getD 0 0)).toNat = selfId d
  z : (tDev (r.tds.getD 1 0)).toNat = selfId d
  feedback : nEf r.q.desc = true → (tDev (r.tds.getD 2 0)).toNat = selfId d
  outlier : nNOut r.q.desc ≠ 0 → (tDev (r.tds.getD 3 0)).toNat = selfId d

theorem encodeRun_eq {d : Dev} (t : Nat) {r : RunOp} (hbad : r.bad = none) (h : EncodeHere d r) :
    encodeRun d t r = encodeRest (encodeScales d t r).1 t r (encodeScales d t r).2.1 (encodeScales d t r).2.2.1 (encodeScales d t r).2.2.2 := by
  have hfeedback : (if nEf r.q.desc then fetchRngs d r (r.tds.getD 2 0) (allIxs (r.tds.getD 0 0)) ++
      tEdges d (r.tds.getD 2 0) (fmtOf (r.tds.getD 2 0)).width else []) = [] := by
    split
    next hef => rw [fetchRngs_here (h.feedback hef), tEdges_here (h.feedback hef)]; rfl
    next => rfl
  have houtlier : (if nNOut r.q.desc ≠ 0 then tEdges d (r.tds.getD 3 0) (fmtOf (r.tds.getD 3 0)).width else []) = [] := by
    split
    next hn => exact tEdges_here (h.outlier hn) _
    next => rfl
  unfold encodeRun
  dsimp only
  rw [withRanges_of _ hbad (by rw [fetchRngs_here h.x, encRngs_here (z := encodeSet d r []) h.z, hfeedback, houtlier]; rfl)]
  rfl

/-- The format that a DECODE writes. -/
def decodeFmt (r : RunOp) : FFmt := ((fmtOf (r.tds.getD 1 0)).float?).getD fp32

/-- A DECODE over the elements of X, to its end. -/
def decodeElems (d : Dev) (t : Nat) (r : RunOp) : Dev :=
  let ixs := allIxs (r.tds.getD 0 0)
  let p := decodeGo t r (decodeFmt r) d {} none 0 ixs
  let d := onRun p.1 t .napper fun r => { r with counts := p.2.1 }
  match p.2.2.2, p.2.2.1 with
  | some (c, k), _ => partRun d t .napper c k
  | none, some k => partRun d t .napper 0x0445 k
  | none, none => doneRun d t .napper ixs.length

theorem decodeRun_eq {d : Dev} (t : Nat) {r : RunOp} (hbad : r.bad = none) (hx : (tDev (r.tds.getD 0 0)).toNat = selfId d)
    (hz : (tDev (r.tds.getD 1 0)).toNat = selfId d) : decodeRun d t r = decodeElems d t r := by
  unfold decodeRun
  dsimp only
  rw [withRanges_of _ hbad (by rw [fetchRngs_here hx, tEdges_here hz]; rfl)]
  rfl

theorem encodeScales_frame (d : Dev) (t : Nat) (r : RunOp) : OpFrame t .napper d (encodeScales d t r).1 := by
  unfold encodeScales
  split
  · split
    next h => exact maxPass_frame h
    next h => exact (maxPass_frame h).trans (putScales_frame rfl)
  · exact .refl ..

theorem encodeClosed_frame (t : Nat) (r : RunOp) (z : EncSet) (p : Dev × EncAcc × Option (Code × Nat)) :
    OpFrame t .napper p.1 (encodeClosed t r z p) := (encClose_frame ..).counts _

section
variable {s : State} {t : Nat} {r : RunOp} (hrun : runOf s.dev t .napper = some r) (hend : r.ended = none)
include hrun hend

theorem encodeElems_runsOut {d : Dev} (h : OpFrame t .napper s.dev d) (r1 : RunOp) (z : EncSet) (a : EncAcc) (ixs : List (List Nat)) :
    RunsOut s s.dev t .napper ixs.length (.next { s with dev := encodeElems d t r1 z a ixs }) := by
  have hends := ((h.trans (encodeGo_frame t z r1 d a 0 ixs)).trans (encodeClosed_frame t r1 z _)).opEnds hrun hend
  unfold encodeElems
  dsimp only
  split
  · exact .inr ⟨_, _, hends ..⟩
  · exact .inr ⟨_, _, hends ..⟩
  · exact .inl (hends ..)

theorem encodeRun_runsOut (hbad : r.bad = none) (hhere : EncodeHere s.dev r) :
    RunsOut s s.dev t .napper (tCount (r.tds.getD 0 0)) (.next { s with dev := encodeRun s.dev t r }) := by
  have hscales := encodeScales_frame s.dev t r
  rw [encodeRun_eq t hbad hhere, ← allIxs_length]
  unfold encodeRest
  split
  · exact .inr ⟨_, _, (hscales.counts _).opEnds hrun hend ..⟩
  · exact encodeElems_runsOut hrun hend hscales ..

theorem decodeRun_runsOut (hbad : r.bad = none) (hx : (tDev (r.tds.getD 0 0)).toNat = selfId s.dev)
    (hz : (tDev (r.tds.getD 1 0)).toNat = selfId s.dev) :
    RunsOut s s.dev t .napper (tCount (r.tds.getD 0 0)) (.next { s with dev := decodeRun s.dev t r }) := by
  have hgo := decodeGo_frame t r (decodeFmt r) s.dev {} none 0 (allIxs (r.tds.getD 0 0))
  have hends := (hgo.counts (decodeGo t r (decodeFmt r) s.dev {} none 0 (allIxs (r.tds.getD 0 0))).2.1).opEnds hrun hend
  rw [decodeRun_eq t hbad hx hz, ← allIxs_length]
  unfold decodeElems
  dsimp only
  split
  · exact .inr ⟨_, _, hends ..⟩
  · exact .inr ⟨_, _, hends ..⟩
  · exact .inl (hends ..)

end

end Sys2Proof.Machine
end

section
/-! Elements without a side list where memory is in no error: an element's value is a function of its bytes alone, so a read changes
nothing, and stores that do not meet the element leave its value. -/

namespace Sys2Proof.Machine

/-! ### Reads -/

/-- The code of an element in its bytes. -/
def codeIn (td : TDesc) (ix : List Nat) (bs : List Byte) : Nat :=
  (ofBytes bs >>> (tBitAddr td (fmtOf td).width ix % 8)) % 2 ^ (fmtOf td).width

/-- The exact value that an element's bytes stand for, whether it is an escape, and its code (R36, R52). -/
def plainRaw (td : TDesc) (sn : List F32) (ix : List Nat) (bs : List Byte) : FVal × Bool × Nat :=
  let s := sn.getD (scaleIdx td ix) 0
  match (fmtOf td).float? with
  | some F =>
    ((if (fmtOf td).isFp8 ∧ tSrefKind td ≠ 0 then (F.decode (codeIn td ix bs)).mul (val32 s) else F.decode (codeIn td ix bs)), false,
      codeIn td ix bs)
  | none =>
    if isEscape (fmtOf td) (codeIn td ix bs) then (.nan, true, codeIn td ix bs)
    else ((codeVal (fmtOf td) (codeIn td ix bs) s).getD .nan, false, codeIn td ix bs)

/-- The value of an element in FP32 or BF16, from its bytes. -/
def plainVal (td : TDesc) (sn : List F32) (F : FFmt) (ix : List Nat) (bs : List Byte) : FVal :=
  if (fmtOf td).isCode then F.decode (F.rne (plainRaw td sn ix bs).1) else (plainRaw td sn ix bs).1

/-- The bytes of an element. -/
def bytesOf (d : Dev) (td : TDesc) (ix : List Nat) : List Byte := bytesAt d (elemAddr td ix) (elemLen td)

section
variable {d : Dev} (acc : Acc) (r : RunOp) {td : TDesc} {sn : List F32} {ix : List Nat} (hecc : d.mem.ecc = []) (h : Plain d td sn ix)
include hecc h

theorem elemRaw_plain : elemRaw d acc r td sn ix = (d, .ok (plainRaw td sn ix (bytesOf d td ix))) := by
  have hread : readRng d acc r ⟨(tDev td).toNat, tBitAddr td (fmtOf td).width ix / 8, max 1 ((fmtOf td).width / 8)⟩ =
      (d, .ok (bytesOf d td ix)) := readRng_clean acc r hecc h.here h.bytes (elemLen_pos td)
  unfold elemRaw plainRaw
  simp only [hread, h.bare, Bool.false_and, Bool.false_eq_true, if_false]
  cases hf : (fmtOf td).float? with
  | some F =>
    dsimp only
    split
    next h8 =>
      rcases h.scale with ⟨_, h0⟩ | ⟨h1, hok⟩
      · exact absurd h0 h8.2
      · simp only [scaleAt_snap _ _ _ _ _ h1, hok, if_true]
        rfl
    next => rfl
  | none =>
    rcases h.scale with ⟨hcode, _⟩ | ⟨h1, hok⟩
    · rw [float?_none hf] at hcode
      cases hcode
    · simp only [scaleAt_snap _ _ _ _ _ h1, hok, Bool.not_true, Bool.false_eq_true, if_false]
      exact (apply_ite (fun v => (d, Except.ok v)) (isEscape (fmtOf td) (codeIn td ix (bytesOf d td ix)) = true) _ _).symm

theorem elemAt_plain (F : FFmt) :
    elemAt d acc r td sn F ix = (d, .ok (plainVal td sn F ix (bytesOf d td ix), (plainRaw td sn ix (bytesOf d td ix)).2.1)) := by
  unfold elemAt
  rw [elemRaw_plain acc r hecc h]
  rfl

theorem valAt_plain (F : FFmt) : valAt d acc r td sn F ix = plainVal td sn F ix (bytesOf d td ix) := by
  unfold valAt
  rw [elemAt_plain acc r hecc h]

end

/-- Such an element that is no escape code. -/
theorem Input.plainRaw {d : Dev} {td : TDesc} {sn : List F32} {ix : List Nat} (h : Input d td sn ix) :
    (plainRaw td sn ix (bytesOf d td ix)).2.1 = false := by
  have hcode : isEscape (fmtOf td) (codeIn td ix (bytesOf d td ix)) = false := h.noEscape
  unfold Machine.plainRaw
  split
  · rfl
  · rw [hcode]
    rfl

/-! ### Stores among some elements -/

/-- Stored bytes alone differ, and those of some elements alone. -/
structure StoredIn (outs : List (TDesc × List Nat)) (d d' : Dev) : Prop where
  only : OnlyBytes d d'
  beside : ∀ a, Beside outs a → byteAt d' a = byteAt d a

theorem StoredIn.refl (outs : List (TDesc × List Nat)) (d : Dev) : StoredIn outs d d := ⟨.refl d, fun _ _ => rfl⟩
theorem StoredIn.trans {outs : List (TDesc × List Nat)} {d e f : Dev} (h : StoredIn outs d e) (h' : StoredIn outs e f) : StoredIn outs d f :=
  ⟨h.only.trans h'.only, fun a ha => (h'.beside a ha).trans (h.beside a ha)⟩

/-- An element that is not met keeps its bytes. -/
theorem StoredIn.bytesOf {outs : List (TDesc × List Nat)} {d d' : Dev} (h : StoredIn outs d d') {td : TDesc} {ix : List Nat}
    (hapart : ∀ p ∈ outs, Apart p (td, ix)) : bytesOf d' td ix = Machine.bytesOf d td ix :=
  bytesAt_congr fun _ hi => h.beside _ (beside_of_all_apart (q := (td, ix)) hapart hi)

theorem writeAt_storedIn {d : Dev} (t : Nat) (e : EngineId) (r : RunOp) {outs : List (TDesc × List Nat)} {td : TDesc} {ix : List Nat} (c : Nat)
    (hecc : d.mem.ecc = []) (h : Reach d td ix) (hmem : (td, ix) ∈ outs) :
    ∃ d', writeAt d t e r td ix c = (d', none) ∧ StoredIn outs d d' := by
  obtain ⟨d', bs, hw, ⟨honly, -, hbeside, -⟩, hlen, -⟩ := writeAt_reach t e r c hecc h
  exact ⟨d', hw, honly, fun a ha => hbeside a (hlen ▸ ha _ hmem)⟩

end Sys2Proof.Machine
end

section
/-! DECODE without an escape, into a Z that does not meet X, where memory is in no error (R173). -/

namespace Sys2Proof.Machine

/-- The code that an element's bytes decode to (R52, R173). -/
def decodedCode (r : RunOp) (F : FFmt) (ix : List Nat) (bs : List Byte) : Nat :=
  let v := plainRaw (r.tds.getD 0 0) (r.snaps.getD 0 []) ix bs
  (decodeCode (fmtOf (r.tds.getD 0 0)) F v.2.2 v.1).1

/-- Every element of X can be read, every one of Z can be written, and none of Z meets one of X. -/
structure DecodeOk (d : Dev) (r : RunOp) : Prop where
  reads : ∀ ix ∈ allIxs (r.tds.getD 0 0), Input d (r.tds.getD 0 0) (r.snaps.getD 0 []) ix
  writes : ∀ ix ∈ allIxs (r.tds.getD 0 0), Reach d (r.tds.getD 1 0) ix
  apart : ∀ p ∈ (allIxs (r.tds.getD 0 0)).map fun ix => (r.tds.getD 1 0, ix), ∀ jx ∈ allIxs (r.tds.getD 0 0), Apart p (r.tds.getD 0 0, jx)

section
variable {d0 : Dev} {t : Nat} {r : RunOp} (hecc : d0.mem.ecc = []) (hok : DecodeOk d0 r) (F : FFmt)
include hecc hok

/-- The elements of Z are written in turn, and none is an escape without an entry. -/
theorem decodeGo_writeList {d : Dev} (hd : StoredIn ((allIxs (r.tds.getD 0 0)).map fun ix => (r.tds.getD 1 0, ix)) d0 d) (cn : Counts) (k : Nat)
    {l : List (List Nat)} (hl : ∀ ix ∈ l, ix ∈ allIxs (r.tds.getD 0 0)) :
    ∃ d' cn', decodeGo t r F d cn none k l = (d', cn', none, none) ∧
      writeList t .napper r (r.tds.getD 1 0) d k (l.map fun ix => (ix, decodedCode r F ix (bytesOf d0 (r.tds.getD 0 0) ix))) = (d', none) := by
  induction l generalizing d cn k with
  | nil => exact ⟨d, cn, rfl, rfl⟩
  | cons ix l ih =>
    obtain ⟨hix, hl⟩ := List.forall_mem_cons.1 hl
    have hin := hok.reads ix hix
    have hbytes := hd.bytesOf fun p hp => hok.apart p hp ix hix
    have hread := elemRaw_plain (runAcc d t r) r (hd.only.ecc.trans hecc) (hd.only.plain hin.toPlain)
    obtain ⟨d1, hw, hd1⟩ := writeAt_storedIn t .napper r (decodedCode r F ix (bytesOf d0 (r.tds.getD 0 0) ix))
      (hd.only.ecc.trans hecc) (hd.only.reach (hok.writes ix hix)) (List.mem_map.2 ⟨ix, hix, rfl⟩)
    rw [hbytes] at hread
    obtain ⟨d', cn', hgo, hlist⟩ := ih (hd.trans hd1)
      (cn.add (decodeCode (fmtOf (r.tds.getD 0 0)) F (plainRaw (r.tds.getD 0 0) (r.snaps.getD 0 []) ix (bytesOf d0 (r.tds.getD 0 0) ix)).2.2
        (plainRaw (r.tds.getD 0 0) (r.snaps.getD 0 []) ix (bytesOf d0 (r.tds.getD 0 0) ix)).1).2) (k + 1) hl
    refine ⟨d', cn', ?_, ?_⟩
    · unfold decodeGo
      dsimp only
      rw [hread]
      dsimp only
      rw [hin.plainRaw]
      unfold decodedCode at hw
      dsimp only at hw
      rw [hw]
      exact hgo
    · rw [List.map_cons, writeList, hw]
      exact hlist

variable (hne : allIxs (r.tds.getD 0 0) ≠ [])
include hne

/-- A DECODE in no error is DONE once the elements of Z are stored. -/
theorem decodeRun_done (hbad : r.bad = none) : ∃ d' cn,
    decodeRun d0 t r = doneRun (onRun d' t .napper fun r => { r with counts := cn }) t .napper (tCount (r.tds.getD 0 0)) ∧
    ListStored (r.tds.getD 1 0) ((allIxs (r.tds.getD 0 0)).map fun ix =>
      (ix, decodedCode r (decodeFmt r) ix (bytesOf d0 (r.tds.getD 0 0) ix))) d0 d' := by
  obtain ⟨ix, hix⟩ := List.exists_mem_of_ne_nil _ hne
  obtain ⟨d', cn, hgo, hlist⟩ := decodeGo_writeList (t := t) hecc hok (decodeFmt r) (.refl _ d0) {} 0 fun _ h => h
  obtain ⟨d'', hlist', hstored⟩ := writeList_reach t .napper r (td := r.tds.getD 1 0) 0 hecc (l := (allIxs (r.tds.getD 0 0)).map fun ix =>
    (ix, decodedCode r (decodeFmt r) ix (bytesOf d0 (r.tds.getD 0 0) ix)))
    (List.forall_mem_map.2 fun ix hix => hok.writes ix hix)
  rw [hlist] at hlist'
  obtain rfl : d' = d'' := congrArg Prod.fst hlist'
  refine ⟨d', cn, ?_, hstored⟩
  rw [decodeRun_eq t hbad (hok.reads ix hix).here (hok.writes ix hix).here, ← allIxs_length]
  unfold decodeElems
  dsimp only
  rw [hgo]

end

end Sys2Proof.Machine
end

section
/-! ENCODE where memory is in no error and every element can be read and written (R164, R167 to R172): each element is read, encoded
and stored in turn. -/

namespace Sys2Proof.Machine

/-! ### One element -/

/-- The elements that an ENCODE writes: of Z, of the residuals, and of the outlier tensor. -/
def encOuts (r : RunOp) : List (TDesc × List Nat) :=
  ((allIxs (r.tds.getD 0 0)).map fun ix => (r.tds.getD 1 0, ix))
    ++ (if nEf r.q.desc then (allIxs (r.tds.getD 0 0)).map fun ix => (r.tds.getD 2 0, ix) else [])
    ++ (allIxs (r.tds.getD 0 0)).filterMap fun ix => (encListed r ix).map fun j => (r.tds.getD 3 0, ix.set (nOdim r.q.desc) j)

section
variable {r : RunOp} {ix : List Nat} (hix : ix ∈ allIxs (r.tds.getD 0 0))
include hix

theorem encOuts_z : (r.tds.getD 1 0, ix) ∈ encOuts r :=
  List.mem_append_left _ (List.mem_append_left _ (List.mem_map.2 ⟨ix, hix, rfl⟩))

theorem encOuts_feedback (h : nEf r.q.desc = true) : (r.tds.getD 2 0, ix) ∈ encOuts r := by
  unfold encOuts
  rw [if_pos h]
  exact List.mem_append_left _ (List.mem_append_right _ (List.mem_map.2 ⟨ix, hix, rfl⟩))

theorem encOuts_outlier {j : Nat} (h : encListed r ix = some j) : (r.tds.getD 3 0, ix.set (nOdim r.q.desc) j) ∈ encOuts r :=
  List.mem_append_right _ (List.mem_filterMap.2 ⟨ix, hix, by rw [h]; rfl⟩)

end

/-- What an ENCODE reads of an element can be read. -/
structure EncReads (d : Dev) (r : RunOp) (ix : List Nat) : Prop where
  x : Plain d (r.tds.getD 0 0) (r.snaps.getD 0 []) ix
  feedback : nEf r.q.desc = true → Plain d (r.tds.getD 2 0) [] ix

/-- What an ENCODE does to an element can be done. -/
structure EncElemOk (d : Dev) (r : RunOp) (z : EncSet) (ix : List Nat) : Prop extends EncReads d r ix where
  z : Plain d z.td z.snap ix
  outlier : ∀ j, encListed r ix = some j → Reach d (r.tds.getD 3 0) (ix.set (nOdim r.q.desc) j)

theorem EncElemOk.of_onlyBytes {d d' : Dev} {r : RunOp} {z : EncSet} {ix : List Nat} (h : EncElemOk d r z ix) (hd : OnlyBytes d d') :
    EncElemOk d' r z ix :=
  ⟨⟨hd.plain h.x, fun he => hd.plain (h.feedback he)⟩, hd.plain h.z, fun j hj => hd.reach (h.outlier j hj)⟩

theorem EncElemOk.of_onlyTiles {d d' : Dev} {r : RunOp} {z : EncSet} {ix : List Nat} (h : EncElemOk d r z ix) (hd : OnlyTiles d d') :
    EncElemOk d' r z ix :=
  ⟨⟨hd.plain h.x, fun he => hd.plain (h.feedback he)⟩, hd.plain h.z, fun j hj => hd.reach (h.outlier j hj)⟩

/-- The value that an element's code stands for: that of X, with the residual under error feedback (R168). -/
def encVal (d : Dev) (r : RunOp) (ix : List Nat) : F32 :=
  let v := rne32 (plainVal (r.tds.getD 0 0) (r.snaps.getD 0 []) fp32 ix (bytesOf d (r.tds.getD 0 0) ix))
  if nEf r.q.desc then fadd v (rne32 (plainVal (r.tds.getD 2 0) [] fp32 ix (bytesOf d (r.tds.getD 2 0) ix))) else v

theorem encXp_reads {d : Dev} (acc : Acc) {r : RunOp} {ix : List Nat} (k : Nat) (hecc : d.mem.ecc = []) (h : EncReads d r ix) :
    encXp d acc r ix k = (d, .ok (encVal d r ix)) := by
  unfold encXp encVal
  dsimp only
  rw [elemAt_plain acc r hecc h.x]
  dsimp only
  cases hef : nEf r.q.desc with
  | false => rfl
  | true =>
    rw [Bool.not_true, if_neg Bool.false_ne_true, elemAt_plain acc r hecc (h.feedback hef)]
    rfl

/-- The scale of an element of Z, none where Z is unscaled. -/
def encScaleOf (z : EncSet) (ix : List Nat) : Option F32 := if tSrefKind z.td = 0 then none else some (z.snap.getD (scaleIdx z.td ix) 0)

/-- What an element's encode gives (R168). -/
def encOut (z : EncSet) (ix : List Nat) (room listed : Bool) (xp : F32) : EncOut :=
  encElem (fmtOf z.td) (encScaleOf z ix).isSome ((encScaleOf z ix).getD one32) z.conv z.esc room listed xp

/-- Without escapes it does not matter whether the side list has room. -/
theorem encOut_room {z : EncSet} (hesc : z.esc = 0) (ix : List Nat) (room listed : Bool) (xp : F32) :
    encOut z ix room listed xp = encOut z ix true listed xp := by
  simp [encOut, encElem, pastTop, hesc]

theorem encScale_plain {d : Dev} (acc : Acc) (r : RunOp) {z : EncSet} {ix : List Nat} (h : Plain d z.td z.snap ix) :
    encScale d acc r z ix = (d, .ok (encScaleOf z ix)) := by
  unfold encScale encScaleOf
  rcases h.scale with ⟨_, h0⟩ | ⟨h1, hs⟩
  · rw [if_pos h0, if_pos h0]
  · have h0 : tSrefKind z.td ≠ 0 := by rw [h1]; decide
    rw [if_neg h0, if_neg h0, scaleAt_snap _ _ _ _ _ h1]
    exact if_pos hs

section
variable {d : Dev} (t : Nat) {r : RunOp} {z : EncSet} {ix : List Nat} (hecc : d.mem.ecc = []) (hix : ix ∈ allIxs (r.tds.getD 0 0))
include hecc hix

/-- An element's code stored in Z. -/
theorem encWrite_elem (hz : z.td = r.tds.getD 1 0) (hp : Plain d z.td z.snap ix) (a : EncAcc) (listed : Bool) (xp : F32) : ∃ d' a',
    encWrite d t .napper r z a listed ix xp = (d', a', .ok (encOut z ix (decide (a.entries.length < z.cap)) listed xp)) ∧
    StoredIn (encOuts r) d d' ∧
    writeAt d t .napper r z.td ix (encOut z ix (decide (a.entries.length < z.cap)) listed xp).code = (d', none) := by
  obtain ⟨d', hw, hd⟩ := writeAt_storedIn t .napper r (encOut z ix (decide (a.entries.length < z.cap)) listed xp).code hecc hp.toReach
    (hz ▸ encOuts_z hix)
  unfold encWrite
  rw [encScale_plain _ r hp]
  dsimp only
  unfold encOut at hw ⊢
  rw [hw]
  exact ⟨d', _, rfl, hd, rfl⟩

variable (h : EncElemOk d r z ix)
include h

/-- A listed channel's value stored in the outlier tensor. -/
theorem encOutlier_stored (v : Option B16) : ∃ d', encOutlier d t r ix v = (d', none) ∧ StoredIn (encOuts r) d d' := by
  unfold encOutlier
  split
  next j v hj => exact writeAt_storedIn t .napper r _ hecc (h.outlier j hj) (encOuts_outlier hix hj)
  next => exact ⟨d, rfl, .refl ..⟩

/-- A residual stored. -/
theorem encFeedback_stored (conv : Nat) (e : F32) : ∃ d', encFeedback d t r conv ix e = (d', none) ∧ StoredIn (encOuts r) d d' := by
  unfold encFeedback
  split
  next hef => exact writeAt_storedIn t .napper r _ hecc (h.feedback hef).toReach (encOuts_feedback hix hef)
  next => exact ⟨d, rfl, .refl ..⟩

end

/-! ### The elements in turn -/

/-- An ENCODE without escapes, outlier channels and error feedback into a Z that does not meet X: a store of one code for each
element. -/
structure EncPlain (r : RunOp) (z : EncSet) : Prop where
  feedback : nEf r.q.desc = false
  outlier : nNOut r.q.desc = 0
  esc : z.esc = 0
  apart : ∀ p ∈ (allIxs (r.tds.getD 0 0)).map fun ix => (r.tds.getD 1 0, ix), ∀ jx ∈ allIxs (r.tds.getD 0 0), Apart p (r.tds.getD 0 0, jx)

theorem EncPlain.listed {r : RunOp} {z : EncSet} (h : EncPlain r z) (ix : List Nat) : encListed r ix = none := if_pos h.outlier

/-- It writes Z alone. -/
theorem EncPlain.outs {r : RunOp} {z : EncSet} (h : EncPlain r z) : encOuts r = (allIxs (r.tds.getD 0 0)).map fun ix => (r.tds.getD 1 0, ix) := by
  simp [encOuts, h.feedback, h.listed]

/-- The code that such an ENCODE stores for an element. -/
def encCode (d : Dev) (r : RunOp) (z : EncSet) (ix : List Nat) : Nat := (encOut z ix true false (encVal d r ix)).code

theorem encVal_congr {d d' : Dev} {r : RunOp} {z : EncSet} {ix : List Nat} (h : EncPlain r z) (hd : StoredIn (encOuts r) d d')
    (hix : ix ∈ allIxs (r.tds.getD 0 0)) : encVal d' r ix = encVal d r ix := by
  simp only [encVal, h.feedback, Bool.false_eq_true, if_false, hd.bytesOf fun p hp => h.apart p (h.outs ▸ hp) ix hix]

section
variable {d0 : Dev} (t : Nat) {r : RunOp} {z : EncSet} (hecc : d0.mem.ecc = []) (hz : z.td = r.tds.getD 1 0)
  (hok : ∀ ix ∈ allIxs (r.tds.getD 0 0), EncElemOk d0 r z ix)
include hecc hz hok

/-- One element: its code, its outlier value and its residual are stored; without the latter two, its code alone. -/
theorem encodeGo_step {d : Dev} (hd : StoredIn (encOuts r) d0 d) (a : EncAcc) (k : Nat) {ix : List Nat} (hix : ix ∈ allIxs (r.tds.getD 0 0))
    (l : List (List Nat)) : ∃ d1 a1, encodeGo t z r d a k (ix :: l) = encodeGo t z r d1 a1 (k + 1) l ∧ StoredIn (encOuts r) d0 d1 ∧
      (EncPlain r z → writeAt d t .napper r z.td ix (encCode d0 r z ix) = (d1, none)) := by
  have hel := (hok ix hix).of_onlyBytes hd.only
  have heccd := hd.only.ecc.trans hecc
  obtain ⟨d1, a1, hw, hd1, hcode⟩ := encWrite_elem t heccd hix hz hel.z a (encListed r ix).isSome (encVal d r ix)
  obtain ⟨d2, ho, hd2⟩ := encOutlier_stored t (hd1.only.ecc.trans heccd) hix (hel.of_onlyBytes hd1.only)
    (encOut z ix (decide (a.entries.length < z.cap)) (encListed r ix).isSome (encVal d r ix)).out
  obtain ⟨d3, he, hd3⟩ := encFeedback_stored t (hd2.only.ecc.trans (hd1.only.ecc.trans heccd)) hix ((hel.of_onlyBytes hd1.only).of_onlyBytes hd2.only)
    z.conv (encOut z ix (decide (a.entries.length < z.cap)) (encListed r ix).isSome (encVal d r ix)).enew
  refine ⟨d3, a1, ?_, ((hd.trans hd1).trans hd2).trans hd3, fun hplain => ?_⟩
  · rw [encodeGo_cons, encXp_reads _ k heccd hel.toEncReads]
    dsimp only
    rw [hw]
    dsimp only
    rw [ho]
    dsimp only
    rw [he]
    rfl
  · have h2 : d1 = d2 := by
      unfold encOutlier at ho
      rw [hplain.listed] at ho
      exact congrArg Prod.fst ho
    have h3 : d2 = d3 := by
      unfold encFeedback at he
      rw [hplain.feedback] at he
      exact congrArg Prod.fst he
    rw [encOut_room hplain.esc, hplain.listed, encVal_congr hplain hd hix] at hcode
    rw [← h3, ← h2]
    exact hcode

theorem encodeGo_stored {d : Dev} (hd : StoredIn (encOuts r) d0 d) (a : EncAcc) (k : Nat) {l : List (List Nat)}
    (hl : ∀ ix ∈ l, ix ∈ allIxs (r.tds.getD 0 0)) : ∃ d' a', encodeGo t z r d a k l = (d', a', none) ∧ StoredIn (encOuts r) d0 d' ∧
      (EncPlain r z → writeList t .napper r z.td d k (l.map fun ix => (ix, encCode d0 r z ix)) = (d', none)) := by
  induction l generalizing d a k with
  | nil => exact ⟨d, a, rfl, hd, fun _ => rfl⟩
  | cons ix l ih =>
    obtain ⟨hix, hl⟩ := List.forall_mem_cons.1 hl
    obtain ⟨d1, a1, hstep, hd1, hwrite⟩ := encodeGo_step t hecc hz hok hd a k hix l
    obtain ⟨d', a', hgo, hd', hlist⟩ := ih hd1 a1 (k + 1) hl
    refine ⟨d', a', hstep.trans hgo, hd', fun hplain => ?_⟩
    rw [List.map_cons, writeList, hwrite hplain]
    exact hlist hplain

/-- Every element of Z takes its code. -/
theorem encodeGo_codes (hplain : EncPlain r z) {d' : Dev} {a a' : EncAcc} (h : encodeGo t z r d0 a 0 (allIxs (r.tds.getD 0 0)) = (d', a', none)) :
    ListStored z.td ((allIxs (r.tds.getD 0 0)).map fun ix => (ix, encCode d0 r z ix)) d0 d' := by
  obtain ⟨d1, a1, hgo, -, hlist⟩ := encodeGo_stored t hecc hz hok (.refl _ d0) a 0 fun _ h => h
  obtain ⟨d2, hlist', hstored⟩ := writeList_reach t .napper r (td := z.td) 0 hecc (l := (allIxs (r.tds.getD 0 0)).map fun ix =>
    (ix, encCode d0 r z ix)) (List.forall_mem_map.2 fun ix hix => (hok ix hix).z.toReach)
  obtain rfl : d' = d1 := congrArg Prod.fst (h.symm.trans hgo)
  obtain rfl : d' = d2 := congrArg Prod.fst ((hlist hplain).symm.trans hlist')
  exact hstored

end

end Sys2Proof.Machine
end

section
/-! ENCODE as a whole where memory is in no error: its scales stand, its elements are stored, and it is DONE (R164, R167). -/

namespace Sys2Proof.Machine

/-! ### The scales that it uses (R163, R164) -/

theorem formScale_ok {f : Fmt} {a : F32} {mg : Nat} {s : F32} (h : formScale f a mg = some s) : scaleOk s = true := by
  unfold formScale at h
  extract_lets top s' at h
  split at h
  next hs => exact Option.some.inj h ▸ hs
  next => cases h

theorem scaleOk_one32 : scaleOk one32 = true := by decide

/-- Every scale of current scaling can be used. -/
theorem currentScales_ok (r : RunOp) (m : NMap F32) {i : Nat} (hi : i < scaleCount (r.tds.getD 1 0)) :
    scaleOk ((currentScales r m).1.getD i 0) = true := by
  have hget : (currentScales r m).1[i]? = some ((formScale (fmtOf (r.tds.getD 1 0)) (NMap.get m 0 i) (nMg r.q.desc)).getD one32) := by
    unfold currentScales
    rw [List.getElem?_map, List.getElem?_map, List.getElem?_range hi]
    rfl
  rw [List.getD_eq_getElem?_getD, hget, Option.getD_some]
  cases hs : formScale (fmtOf (r.tds.getD 1 0)) (NMap.get m 0 i) (nMg r.q.desc) with
  | none => exact scaleOk_one32
  | some s => exact formScale_ok hs

theorem maxPass_reads {d : Dev} (acc : Acc) {r : RunOp} (hecc : d.mem.ecc = []) (m : NMap F32) (k : Nat) {l : List (List Nat)}
    (h : ∀ ix ∈ l, EncReads d r ix) : ∃ m', maxPass acc r d m k l = (d, .ok m') := by
  induction l generalizing m k with
  | nil => exact ⟨m, rfl⟩
  | cons ix l ih =>
    obtain ⟨hix, h⟩ := List.forall_mem_cons.1 h
    unfold maxPass
    rw [encXp_reads acc 0 hecc hix]
    exact ih _ (k + 1) h

/-- Scales put into registers change the tile's registers alone. -/
theorem putScales_registers {d : Dev} {t : Nat} {r : RunOp} (h : tSrefKind (r.tds.getD 1 0) = 1) (i : Nat) (l : List F32) :
    ∃ d', putScales t r d i l = (d', none) ∧ OnlyTiles d d' ∧ runOf d' t .napper = runOf d t .napper := by
  induction l generalizing d i with
  | nil => exact ⟨d, rfl, .refl d, rfl⟩
  | cons s l ih =>
    obtain ⟨d', hput, htiles, hrun⟩ := ih (d := onScale d t (tSrefReg (r.tds.getD 1 0) + i) fun y => putFld y 31 0 s.toNat) (i + 1)
    refine ⟨d', ?_, OnlyTiles.trans (onTile_onlyTiles ..) htiles, hrun.trans (runOf_onTile (by rfl) _)⟩
    unfold putScales
    dsimp only
    rw [if_pos h]
    exact hput

/-- Every element can be read and encoded, Z names no side list, and the tensors are on this device. -/
structure EncodeOk (d : Dev) (r : RunOp) : Prop where
  elems : ∀ ix ∈ allIxs (r.tds.getD 0 0), Plain d (r.tds.getD 0 0) (r.snaps.getD 0 []) ix ∧
    (nEf r.q.desc = true → Plain d (r.tds.getD 2 0) [] ix) ∧
    (∀ j, encListed r ix = some j → Reach d (r.tds.getD 3 0) (ix.set (nOdim r.q.desc) j)) ∧
    (if nSmode r.q.desc then Reach d (r.tds.getD 1 0) ix ∧ tSrefKind (r.tds.getD 1 0) = 1 ∧
        scaleIdx (r.tds.getD 1 0) ix < scaleCount (r.tds.getD 1 0)
      else Plain d (r.tds.getD 1 0) (r.snaps.getD 1 []) ix)
  nonempty : allIxs (r.tds.getD 0 0) ≠ []
  whole : tCmp (r.tds.getD 1 0) = false
  bare : tSide (r.tds.getD 1 0) = false
  outlier : nNOut r.q.desc ≠ 0 → (tDev (r.tds.getD 3 0)).toNat = selfId d

/-- Under these scales every element of Z can be encoded. -/
def ScalesOk (d : Dev) (r : RunOp) (ss : List F32) : Prop := ∀ ix ∈ allIxs (r.tds.getD 0 0), Plain d (r.tds.getD 1 0) (usedScales r ss) ix

section
variable {d : Dev} {r : RunOp} (h : EncodeOk d r)
include h

theorem EncodeOk.here : EncodeHere d r := by
  obtain ⟨ix, hix⟩ := List.exists_mem_of_ne_nil _ h.nonempty
  obtain ⟨hx, he, -, hz⟩ := h.elems ix hix
  refine ⟨hx.here, ?_, fun hef => (he hef).here, h.outlier⟩
  split at hz
  · exact hz.1.here
  · exact hz.here

theorem EncodeOk.reads {ix : List Nat} (hix : ix ∈ allIxs (r.tds.getD 0 0)) : EncReads d r ix := by
  obtain ⟨hx, he, -, -⟩ := h.elems ix hix
  exact ⟨hx, he⟩

/-- The scales of the start, without current scaling. -/
theorem EncodeOk.scales_start (hmode : nSmode r.q.desc = false) : ScalesOk d r (r.snaps.getD 1 []) := by
  intro ix hix
  obtain ⟨-, -, -, hz⟩ := h.elems ix hix
  rw [hmode, if_neg Bool.false_ne_true] at hz
  refine ⟨hz.toReach, hz.whole, hz.bare, ?_⟩
  rcases hz.scale with hfree | ⟨hreg, hs⟩
  · exact .inl hfree
  · exact .inr ⟨hreg, by rw [usedScales, if_pos hreg]; exact hs⟩

/-- The scales that current scaling forms. -/
theorem EncodeOk.scales_current (hmode : nSmode r.q.desc = true) (m : NMap F32) : ScalesOk d r (currentScales r m).1 := by
  intro ix hix
  obtain ⟨-, -, -, hz⟩ := h.elems ix hix
  rw [hmode, if_pos rfl] at hz
  obtain ⟨hreach, hreg, hidx⟩ := hz
  exact ⟨hreach, h.whole, h.bare, .inr ⟨hreg, by rw [usedScales, if_pos hreg]; exact currentScales_ok r m hidx⟩⟩

theorem EncodeOk.encodeScales (t : Nat) (hecc : d.mem.ecc = []) : ∃ d1 ss held, encodeScales d t r = (d1, ss, held, none) ∧ OnlyTiles d d1 ∧
    runOf d1 t .napper = runOf d t .napper ∧ ScalesOk d r ss ∧ (nSmode r.q.desc = false → d1 = d ∧ ss = r.snaps.getD 1 []) := by
  unfold Machine.encodeScales
  cases hmode : nSmode r.q.desc with
  | false => exact ⟨d, _, _, rfl, .refl d, rfl, h.scales_start hmode, fun _ => ⟨rfl, rfl⟩⟩
  | true =>
    obtain ⟨m, hm⟩ := maxPass_reads (runAcc d t r) hecc [] 0 fun ix hix => h.reads hix
    obtain ⟨ix, hix⟩ := List.exists_mem_of_ne_nil _ h.nonempty
    obtain ⟨-, -, -, hz⟩ := h.elems ix hix
    rw [hmode, if_pos rfl] at hz
    obtain ⟨d1, hput, htiles, hrun⟩ := putScales_registers (d := d) (t := t) hz.2.1 0 (currentScales r m).1
    rw [if_pos rfl, hm]
    dsimp only
    rw [hput]
    exact ⟨d1, _, _, rfl, htiles, hrun, h.scales_current hmode m, fun h => by cases h⟩

end

/-! ### Its end -/

/-- An encode without a side list closes without a status. -/
theorem encClose_bare (d : Dev) (t : Nat) (e : EngineId) (r : RunOp) {z : EncSet} (a : EncAcc) (h : z.sided = false) :
    (encClose d t e r z a).2 = none := by
  unfold encClose
  rw [h, if_neg Bool.false_ne_true]

section
variable {d : Dev} (t : Nat) {r : RunOp} (hecc : d.mem.ecc = []) (hbad : r.bad = none) (h : EncodeOk d r) (hrun : runOf d t .napper = some r)
include hecc hbad h hrun

/-- An ENCODE in no error: scales may be formed, elements are stored, what its close leaves is no memory, and it is DONE. -/
theorem encodeRun_done : ∃ d1 d2 d3, OnlyTiles d d1 ∧ StoredIn (encOuts r) d1 d2 ∧ OnlyTiles d2 d3 ∧ OpFrame t .napper d d3 ∧
    encodeRun d t r = doneRun d3 t .napper (tCount (r.tds.getD 0 0)) ∧
    (nSmode r.q.desc = false → let z := encodeSet d r (usedScales r (r.snaps.getD 1 []))
      EncPlain r z → ListStored z.td ((allIxs (r.tds.getD 0 0)).map fun ix => (ix, encCode d r z ix)) d d2) := by
  obtain ⟨d1, ss, held, hscales, htiles, hrun1, hss, hstart⟩ := h.encodeScales t hecc
  have hok (z : EncSet) (htd : z.td = r.tds.getD 1 0) (hsnap : z.snap = usedScales r ss) :
      ∀ ix ∈ allIxs (r.tds.getD 0 0), EncElemOk d r z ix := fun ix hix => by
    obtain ⟨-, -, ho, -⟩ := h.elems ix hix
    exact ⟨h.reads hix, htd ▸ hsnap ▸ hss ix hix, ho⟩
  have hecc1 : d1.mem.ecc = [] := htiles.mem ▸ hecc
  obtain ⟨d2, a2, hgo, hstored, -⟩ := encodeGo_stored t (z := encodeSet d1 r (usedScales r ss)) hecc1 rfl
    (fun ix hix => (hok (encodeSet d1 r (usedScales r ss)) rfl rfl ix hix).of_onlyTiles htiles) (.refl _ d1) { counts := { sat := held } } 0 fun _ h => h
  have hsided : (encodeSet d1 r (usedScales r ss)).sided = false := by
    rw [EncSet.sided, show (encodeSet d1 r (usedScales r ss)).td = r.tds.getD 1 0 from rfl, h.bare, Bool.false_and]
  have hframe1 := encodeScales_frame d t r
  have hframe2 := encodeGo_frame t (encodeSet d1 r (usedScales r ss)) r d1 { counts := { sat := held } } 0 (allIxs (r.tds.getD 0 0))
  rw [hscales] at hframe1
  rw [hgo] at hframe2
  refine ⟨d1, d2, encodeClosed t r (encodeSet d1 r (usedScales r ss)) (d2, a2, none), htiles, hstored,
    (encClose_onlyTiles _ _ _ _ _ hsided).trans (RunAlone.of_onRun ..).onlyTiles,
    (hframe1.trans hframe2).trans (encodeClosed_frame ..), ?_, fun hmode hplain => ?_⟩
  · rw [encodeRun_eq t hbad h.here, hscales, ← allIxs_length]
    unfold encodeRest
    dsimp only
    rw [hrun1, hrun, Option.getD_some]
    unfold encodeElems
    dsimp only
    rw [hgo, encClose_bare _ _ _ _ _ hsided]
  · obtain ⟨rfl, rfl⟩ := hstart hmode
    exact encodeGo_codes t hecc rfl (hok _ rfl rfl) hplain hgo

end

end Sys2Proof.Machine
end

section
/-! O23: the register operations by the registers they write or store; ENCODE and DECODE by the elements they store. -/

namespace Sys2Proof.Machine

/-- The code of an element's value under the scales of the start, without escapes and outliers (R168). -/
def startCode (d : Dev) (acc : Acc) (r : RunOp) (ix : List Nat) : Nat :=
  let tz := r.tds.getD 1 0
  (encElem (fmtOf tz) (decide (tSrefKind tz ≠ 0)) (if tSrefKind tz = 0 then one32 else (r.snaps.getD 1 []).getD (scaleIdx tz ix) 0)
    (nConv r.q.desc) 0 true false (rne32 (valAt d acc r (r.tds.getD 0 0) (r.snaps.getD 0 []) fp32 ix))).code

section
variable {s : State} {t : Nat} {r : RunOp} (hrun : runOf s.dev t .napper = some r) (hend : r.ended = none)
include hrun hend

/-! ### The register operations (R163, R176) -/

theorem rollRun_ends : OpEnds s t .napper .done 0 (nRcount r.q.desc) (.next { s with dev := rollRun s.dev t r }) ∧
    (rollRun s.dev t r).mem = s.dev.mem ∧ ∀ k, scaleReg (rollRun s.dev t r) t k =
      if nRbase r.q.desc ≤ k ∧ k < nRbase r.q.desc + nRcount r.q.desc then (rollReg r.q.desc (scaleReg s.dev t k)).1 else scaleReg s.dev t k := by
  have hregs := rollGo_written t r.q.desc (nRcount r.q.desc) (nRbase r.q.desc) s.dev 0
  exact ⟨(hregs.frame.counts _).opEnds hrun hend .., hregs.ended ((RunAlone.of_onRun ..).trans (.of_endRun ..))⟩

section
variable (hrange : rangeErr s.dev (nRec r.q.desc) (64 * nRcount r.q.desc) = none)
include hrange

/-- SLOAD of records that are all well formed. -/
theorem sload_ends (hclean : Clean s.dev (nRec r.q.desc) (64 * nRcount r.q.desc))
    (hok : ∀ k, k < nRcount r.q.desc → recordOk (recordAt s.dev (nRec r.q.desc) k) = true) :
    ∃ d', regsEnd t (nRcount r.q.desc) (sloadGo t r (nRcount r.q.desc) 0 s.dev) = d' ∧
      OpEnds s t .napper .done 0 (nRcount r.q.desc) (.next { s with dev := d' }) ∧ d'.mem = s.dev.mem ∧ ∀ k, scaleReg d' t k =
        if nRbase r.q.desc ≤ k ∧ k < nRbase r.q.desc + nRcount r.q.desc then recordAt s.dev (nRec r.q.desc) (k - nRbase r.q.desc)
        else scaleReg s.dev t k := by
  obtain ⟨d1, hgo, hregs⟩ := sloadGo_written hrange hclean (k := nRcount r.q.desc) (i := 0) (t := t) (by omega) fun j _ hj => hok j (by omega)
  rw [hgo]
  exact ⟨_, rfl, hregs.frame.opEnds hrun hend .., hregs.ended (.of_endRun ..)⟩

/-- SLOAD of a record that is not well formed. -/
theorem sload_stops (hclean : Clean s.dev (nRec r.q.desc) (64 * nRcount r.q.desc)) {k : Nat} (hk : k < nRcount r.q.desc)
    (hbad : recordOk (recordAt s.dev (nRec r.q.desc) k) = false) (hok : ∀ j, j < k → recordOk (recordAt s.dev (nRec r.q.desc) j) = true) :
    OpEnds s t .napper .inPart 0x0446 (nRbase r.q.desc + k)
      (.next { s with dev := regsEnd t (nRcount r.q.desc) (sloadGo t r (nRcount r.q.desc) 0 s.dev) }) := by
  obtain ⟨d1, hgo, hframe⟩ := sloadGo_stops hrange hclean (k := nRcount r.q.desc) (i := 0) (t := t) (by omega) (Nat.zero_le k) (by omega) hbad
    fun j _ hj => hok j hj
  rw [hgo]
  exact hframe.opEnds hrun hend ..

theorem sstore_ends (halign : nRec r.q.desc % 64 = 0) :
    ∃ d', regsEnd t (nRcount r.q.desc) (sstoreGo t r (nRcount r.q.desc) 0 s.dev) = d' ∧
      OpEnds s t .napper .done 0 (nRcount r.q.desc) (.next { s with dev := d' }) ∧
      (∀ k, k < nRcount r.q.desc → bytesAt d' (nRec r.q.desc + 64 * k) 64 = toBytes 64 (scaleReg s.dev t (nRbase r.q.desc + k)).toNat) ∧
      ∀ b, b < nRec r.q.desc ∨ nRec r.q.desc + 64 * nRcount r.q.desc ≤ b → byteAt d' b = byteAt s.dev b := by
  obtain ⟨d1, hgo, hstored⟩ := sstoreGo_stored hrange halign (k := nRcount r.q.desc) (i := 0) (t := t) (by omega)
  have hend1 := (RunAlone.of_endRun d1 t .napper .done 0 (nRcount r.q.desc)).onlyTiles
  rw [hgo]
  exact ⟨_, rfl, hstored.frame.opEnds hrun hend .., fun k hk => (hend1.bytesAt ..).trans (hstored.inside k (Nat.zero_le k) (by omega)),
    fun b hb => (hend1.byteAt b).trans (hstored.outside b (by omega))⟩

end

/-! ### ENCODE and DECODE -/

omit hrun hend in
/-- Where no two elements meet, each takes its code. -/
theorem ListStored.spread {td : TDesc} {ixs : List (List Nat)} {f : List Nat → Nat} {d d' : Dev}
    (h : ListStored td (ixs.map fun ix => (ix, f ix)) d d') (h8 : 8 ≤ (fmtOf td).width) {reads : List (TDesc × List Nat)}
    (hspread : Spread reads (ixs.map fun ix => (td, ix))) {ix : List Nat} (hix : ix ∈ ixs) :
    bytesAt d' (elemAddr td ix) (elemLen td) = toBytes ((fmtOf td).width / 8) (f ix) := by
  refine h.codes h8 (fun p hp q hq hne => ?_) (fun p hp q hq heq => ?_) (ix, f ix) (List.mem_map.2 ⟨ix, hix, rfl⟩)
  · obtain ⟨ix, hix, rfl⟩ := List.mem_map.1 hp
    obtain ⟨jx, hjx, rfl⟩ := List.mem_map.1 hq
    exact hspread.1 _ (List.mem_map.2 ⟨ix, hix, rfl⟩) _ (List.mem_map.2 ⟨jx, hjx, rfl⟩) fun heq => hne (congrArg Prod.snd heq)
  · obtain ⟨ix, -, rfl⟩ := List.mem_map.1 hp
    obtain ⟨jx, -, rfl⟩ := List.mem_map.1 hq
    exact congrArg f heq

variable (hecc : s.dev.mem.ecc = []) (hbad : r.bad = none)
include hecc hbad

theorem encodeRun_ends (h : EncodeOk s.dev r) : OpEnds s t .napper .done 0 (tCount (r.tds.getD 0 0)) (.next { s with dev := encodeRun s.dev t r }) ∧
    StoresOnly s (encOuts r) (.next { s with dev := encodeRun s.dev t r }) := by
  obtain ⟨d1, d2, d3, hd1, hd2, hd3, hframe, heq, -⟩ := encodeRun_done t hecc hbad h hrun
  rw [heq]
  refine ⟨hframe.opEnds hrun hend .., _, rfl, fun a ha => ?_⟩
  calc byteAt (doneRun d3 t .napper (tCount (r.tds.getD 0 0))) a = byteAt d3 a := (RunAlone.of_endRun ..).onlyTiles.byteAt a
    _ = byteAt d2 a := hd3.byteAt a
    _ = byteAt d1 a := hd2.beside a ha
    _ = byteAt s.dev a := hd1.byteAt a

omit hrun hend hbad in
/-- The code of an element of X under the scales of the start. -/
theorem encCode_start (acc : Acc) {ix : List Nat} (hx : Plain s.dev (r.tds.getD 0 0) (r.snaps.getD 0 []) ix)
    (hz : Plain s.dev (r.tds.getD 1 0) (r.snaps.getD 1 []) ix) (hef : nEf r.q.desc = false) (hesc : nEsc r.q.desc = 0) :
    encCode s.dev r (encodeSet s.dev r (usedScales r (r.snaps.getD 1 []))) ix = startCode s.dev acc r ix := by
  have hval : encVal s.dev r ix = rne32 (valAt s.dev acc r (r.tds.getD 0 0) (r.snaps.getD 0 []) fp32 ix) := by
    simp only [encVal, hef, Bool.false_eq_true, if_false, valAt_plain acc r hecc hx]
  unfold encCode encOut encScaleOf startCode
  rw [hval, show (encodeSet s.dev r (usedScales r (r.snaps.getD 1 []))).esc = 0 from hesc,
    show (encodeSet s.dev r (usedScales r (r.snaps.getD 1 []))).conv = nConv r.q.desc from rfl,
    show (encodeSet s.dev r (usedScales r (r.snaps.getD 1 []))).td = r.tds.getD 1 0 from rfl,
    show (encodeSet s.dev r (usedScales r (r.snaps.getD 1 []))).snap = usedScales r (r.snaps.getD 1 []) from rfl]
  rcases hz.scale with ⟨-, h0⟩ | ⟨h1, -⟩
  · simp only [h0, ne_eq, not_true_eq_false, decide_false, if_true]
    rfl
  · simp only [usedScales, h1, ne_eq, Nat.one_ne_zero, not_false_eq_true, decide_true, if_true, if_false]
    rfl

omit hend in
/-- Without escapes, outliers and error feedback each element of Z takes its code. -/
theorem encodeRun_codes (acc : Acc) (h : EncodeOk s.dev r) (hmode : nSmode r.q.desc = false) (hef : nEf r.q.desc = false)
    (hout : nNOut r.q.desc = 0) (hesc : nEsc r.q.desc = 0) (h8 : 8 ≤ (fmtOf (r.tds.getD 1 0)).width)
    (hspread : Spread ((allIxs (r.tds.getD 0 0)).map fun ix => (r.tds.getD 0 0, ix)) ((allIxs (r.tds.getD 0 0)).map fun ix => (r.tds.getD 1 0, ix)))
    {ix : List Nat} (hix : ix ∈ allIxs (r.tds.getD 0 0)) :
    bytesAt (encodeRun s.dev t r) (elemAddr (r.tds.getD 1 0) ix) (elemLen (r.tds.getD 1 0)) =
      toBytes ((fmtOf (r.tds.getD 1 0)).width / 8) (startCode s.dev acc r ix) := by
  obtain ⟨d1, d2, d3, -, -, hd3, -, heq, hcodes⟩ := encodeRun_done t hecc hbad h hrun
  have hplain : EncPlain r (encodeSet s.dev r (usedScales r (r.snaps.getD 1 []))) :=
    ⟨hef, hout, hesc, fun p hp jx hjx => hspread.2 p hp _ (List.mem_map.2 ⟨jx, hjx, rfl⟩)⟩
  obtain ⟨hx, -, -, hz⟩ := h.elems ix hix
  rw [hmode, if_neg Bool.false_ne_true] at hz
  rw [heq, ← encCode_start hecc acc hx hz hef hesc]
  exact ((RunAlone.of_endRun ..).onlyTiles.bytesAt ..).trans ((hd3.bytesAt ..).trans ((hcodes hmode hplain).spread h8 hspread hix))

theorem decodeRun_ends (h : DecodeOk s.dev r) (hne : allIxs (r.tds.getD 0 0) ≠ []) :
    OpEnds s t .napper .done 0 (tCount (r.tds.getD 0 0)) (.next { s with dev := decodeRun s.dev t r }) ∧
    StoresOnly s ((allIxs (r.tds.getD 0 0)).map fun ix => (r.tds.getD 1 0, ix)) (.next { s with dev := decodeRun s.dev t r }) := by
  obtain ⟨d1, cn, heq, hstored⟩ := decodeRun_done (t := t) hecc h hne hbad
  have hends := (RunAlone.of_onRun d1 t .napper fun r => { r with counts := cn }).trans (.of_endRun _ t .napper .done 0 (tCount (r.tds.getD 0 0)))
  rw [heq]
  refine ⟨((hstored.only.quiet.frame t .napper).counts cn).opEnds hrun hend .., _, rfl, fun a ha => (hends.onlyTiles.byteAt a).trans ?_⟩
  exact hstored.beside a (by rw [List.map_map]; exact ha)

omit hrun hend in
/-- Each element of Z takes the value of its element of X. -/
theorem decodeRun_codes (acc : Acc) (h : DecodeOk s.dev r) {F : FFmt} (hF : (fmtOf (r.tds.getD 1 0)).float? = some F)
    (hspread : Spread [] ((allIxs (r.tds.getD 0 0)).map fun ix => (r.tds.getD 1 0, ix))) {ix : List Nat} (hix : ix ∈ allIxs (r.tds.getD 0 0))
    {v : FVal} {b : Bool} {c : Nat} (hraw : (elemRaw s.dev acc r (r.tds.getD 0 0) (r.snaps.getD 0 []) ix).2 = .ok (v, b, c)) :
    bytesAt (decodeRun s.dev t r) (elemAddr (r.tds.getD 1 0) ix) (elemLen (r.tds.getD 1 0)) =
      toBytes ((fmtOf (r.tds.getD 1 0)).width / 8) (decodeCode (fmtOf (r.tds.getD 0 0)) F c v).1 := by
  obtain ⟨d1, cn, heq, hstored⟩ := decodeRun_done (t := t) hecc h (List.ne_nil_of_mem hix) hbad
  have hends := (RunAlone.of_onRun d1 t .napper fun r => { r with counts := cn }).trans (.of_endRun _ t .napper .done 0 (tCount (r.tds.getD 0 0)))
  rw [elemRaw_plain acc r hecc (h.reads ix hix).toPlain] at hraw
  rw [show decodeFmt r = F by rw [decodeFmt, hF, Option.getD_some]] at hstored
  have hcode : decodedCode r F ix (bytesOf s.dev (r.tds.getD 0 0) ix) = (decodeCode (fmtOf (r.tds.getD 0 0)) F c v).1 := by
    unfold decodedCode
    rw [Except.ok.inj hraw]
  rw [heq, ← hcode]
  exact (hends.onlyTiles.bytesAt ..).trans (hstored.spread (float_width (by rw [hF]; rfl)) hspread hix)

end

/-- Settles O23. An operation that has begun does its row's work (`napper_begun`), which stays in its frame; ROLL, SLOAD and SSTORE
write or store each register in turn (`rollGo_written`, `sloadGo_written`, `sstoreGo_stored`). Where every element is good, ENCODE reads
without an error and stores its outputs alone (`encodeGo_stored`), without escapes, outliers and feedback one code for each element
(`encodeGo_codes`), and DECODE likewise (`decodeGo_writeList`). -/
theorem napperOperations : Obligations.NapperOperations := by
  unfold Obligations.NapperOperations
  refine ⟨fun t s op i r r1 hi hrun => ?_, fun t s r hbeg hbad hecc => ?_⟩
  · intro d x A n lo hrun1 hbeg1 hq hbad1 _
    obtain ⟨hr1, -, hend1⟩ := running_iff.1 hrun1
    have hexec : exec i s = .next { s with dev := napperWork d t.toNat op r1 } := exec_napper_begun hi hrun hrun1 hbeg1
    have hx : x = r1.q.desc := congrArg QOp.desc hq.symm
    clear_value x d
    subst hx
    have hr : runOf ({ s with dev := d } : State).dev t.toNat .napper = some r1 := hr1
    rw [hexec]
    refine ⟨fun hop2 hx hz he ho => ?_, fun hop3 => ?_, fun hop4 hrange hclean => ⟨fun hok => ?_, fun k hk hbad hok => ?_⟩,
      fun hop5 hrange halign => ?_⟩
    · have htwo : op = 1 ∨ op = 2 := by
        simp only [List.mem_cons, List.not_mem_nil, or_false, Prod.mk.injEq] at hi
        omega
      rcases htwo with rfl | rfl
      · exact encodeRun_runsOut hr hend1 hbad1 ⟨hx, hz, he, ho⟩
      · exact decodeRun_runsOut hr hend1 hbad1 hx hz
    · subst hop3
      obtain ⟨hends, hregs⟩ := rollRun_ends hr hend1
      exact ⟨hends, _, rfl, hregs⟩
    · subst hop4
      obtain ⟨_, rfl, hends, hregs⟩ := sload_ends hr hend1 hrange hclean hok
      exact ⟨hends, _, rfl, hregs⟩
    · subst hop4
      exact sload_stops hr hend1 hrange hclean hk hbad hok
    · subst hop5
      obtain ⟨_, rfl, hends, hbytes⟩ := sstore_ends hr hend1 hrange halign
      exact ⟨hends, _, rfl, hbytes⟩
  · intro x acc tx tz te tOut outIx zs outs
    refine ⟨fun hrun helems hne hwhole hbare hout => ?_, fun hrun helems hne hapart => ?_⟩
    · obtain ⟨hr, -, hend⟩ := running_iff.1 hrun
      have hok : EncodeOk s.dev r := ⟨helems, hne, hwhole, hbare, hout⟩
      rw [exec_napper_going (t := t) (i := .encode t) (by simp) hrun hbeg]
      obtain ⟨hends, hstores⟩ := encodeRun_ends hr hend hecc hbad hok
      exact ⟨hends, hstores, fun hmode hef hno hesc h8 hspread => ⟨_, rfl, fun ix hix =>
        encodeRun_codes hr hecc hbad acc hok hmode hef hno hesc h8 hspread hix⟩⟩
    · obtain ⟨hr, -, hend⟩ := running_iff.1 hrun
      have hok : DecodeOk s.dev r := ⟨fun ix hix => (helems ix hix).1, fun ix hix => (helems ix hix).2, hapart⟩
      rw [exec_napper_going (t := t) (i := .decode t) (by simp) hrun hbeg]
      obtain ⟨hends, hstores⟩ := decodeRun_ends hr hend hecc hbad hok hne
      exact ⟨hends, hstores, fun hspread F hF => ⟨_, rfl, fun ix hix v b c hraw =>
        decodeRun_codes hecc hbad acc hok hF hspread hix hraw⟩⟩

end Sys2Proof.Machine
end

section
/-! O25 fails where the index table of a compressed source lies in the block-register window (R186, R205, R488, R493). A table pair is
then read from counters, and a VERIFY counts its failed blocks (event 0x222): what `expandBlock` gives for a block at the operation's
start is not what it gives when the block's turn comes. R86 has the start of an operation refuse such a table (`cmpForm`), but the
statement speaks of every operation that has begun, and none of its premises says where the table lies. -/

namespace Sys2Proof.Machine

/-- How an operation has ended, and its marker, as its engine's run holds them. -/
def endOfRun (d : Dev) (t : Nat) (e : EngineId) : Option (Option OpEnd × Nat) := (runOf d t e).map fun r => (r.ended, r.marker)

theorem OpEnds.endOfRun {s : State} {d : Dev} {t : Nat} {e : EngineId} {st : TState} {c : Code} {m : Nat}
    (h : OpEnds s t e st c m (.next { s with dev := d })) : endOfRun d t e = some (some ⟨st, c⟩, m) := by
  obtain ⟨_, d1, r, hout, -, -, -, -, hdev⟩ := h
  cases hout
  unfold Machine.endOfRun runOf
  rw [show d = _ from hdev, engineOf_onEngine]
  rfl

theorem exec_verify (t : TileNo) (s : State) : exec (.verify t) s = .next { s with dev := carder s.dev t.toNat 3 } := rfl

/-- A table pair that leaves no room for a block fails the block, and nothing more is read (R192). -/
theorem expandBlock_short {d : Dev} {acc : Acc} {r : RunOp} {t : Nat} {x : Polder} {td : TDesc} {b : Nat} {pr : List Byte}
    (hread : (readRng d acc r (tablePair td b)).2 = .ok pr) (hshort : leAt pr 4 4 < leAt pr 0 4 + 2) :
    ∃ o, (expandBlock d acc r t x td b).2 = .ok o := by
  unfold expandBlock
  rw [show readRng d acc r (tablePair td b) = (_, .ok pr) from Prod.ext rfl hread]
  exact ⟨_, congrArg Prod.snd (if_pos (.inl hshort))⟩

/-! ### The counterexample -/

/-- A compressed row of 512 BF16 elements in eight blocks. Its table begins at the counter block of tile 0, so that the pair of block 7
ends with the low word of counter 0; its blocks would lie from the base of HBM on. -/
def regsTensor : TDesc :=
  BitVec.ofNat 512 (hbmBase + 1 <<< 68 + 2 <<< 72 + 1 <<< 80 + 1 <<< 86 + 512 <<< 128 + 1 <<< 152 + 512 <<< 272
    + (0x80000000 / 256) <<< 432)

/-- A VERIFY of it for polder 1, with its status bytes at 0x6000. -/
def regsVerify : RunOp :=
  { q := ⟨BitVec.ofNat 1024 (3 + 3 <<< 8 + 1 <<< 16 + 1 <<< 20 + 0x6000 <<< 192), 3, 1, .met⟩, tds := [regsTensor, 0], begun := true }

/-- Polder 1 holds the scratchpad and the codebook sets of tile 0, and no HBM. -/
def regsPolder : Polder := { desc := BitVec.ofNat 1024 (1 <<< 43 + 1 <<< 50 + 256 <<< 94 + 32 <<< 134), shares := [100] }

/-- Tile 0 runs the VERIFY. Its counter 0 counts the failed blocks of polder 1, none so far. -/
def regsState : State :=
  { dev :=
    { tiles := [(0, { slots := [(3, { gen := 1, use := .held 1 })], engines := [(engCode .carder, { run := some regsVerify })] })]
      polders := [(1, regsPolder)]
      blocks := { st := [(1280, .on)] }
      counters := { blocks := [(ctrKey 0 0, { ctr := [(0, { event := 0x222, polder := 1, filt := true })] })] } } }

theorem regsState_runs : running regsState.dev 0 .carder 3 = some regsVerify ∧
    polderOf regsState.dev (runPolder regsState.dev 0 regsVerify) = some regsPolder := by decide +kernel

theorem regsTensor_here : (tDev regsTensor).toNat = selfId regsState.dev ∧ cmpBlocks regsTensor = 8 := by decide +kernel

theorem regsVerify_status : kRec regsVerify.q.desc = 0x6000 ∧ rangeErr regsState.dev 0x6000 8 = none := by decide +kernel

/-- The status bytes end before the table and before the base of the blocks. -/
theorem regsTensor_clear : 0x6000 + 8 ≤ tAux regsTensor ∧ 0x6000 + 8 ≤ tBase regsTensor := by decide +kernel

/-- Before any block has failed, every pair of the table reads zero. -/
theorem regsTensor_pair : ∀ b, b < 8 →
    (readRng regsState.dev (runAcc regsState.dev 0 regsVerify) regsVerify (tablePair regsTensor b)).2 = .ok (zeros 8) := by
  decide +kernel

/-- So at the operation's start each block fails, and none meets an error. -/
theorem regsTensor_expanded {b : Nat} (hb : b < 8) :
    ∃ o, (expandBlock regsState.dev (runAcc regsState.dev 0 regsVerify) regsVerify 0 regsPolder regsTensor b).2 = .ok o :=
  expandBlock_short (regsTensor_pair b hb) (by decide)

/-- Seven failed blocks later the pair of block 7 names the first 224 B of HBM, which polder 1 does not hold: the VERIFY is PARTIAL
there. -/
theorem regsVerify_ends : endOfRun (carder regsState.dev 0 3) 0 .carder = some (some ⟨.inPart, 0x0409⟩, 7) := by decide +kernel

/-- Refutes O25, by the clause for VERIFY: the VERIFY of `regsState` meets its premises, since at the start each of the eight blocks
expands to a failed block, and ends PARTIAL with 0x0409 at block 7 instead of DONE with 8. -/
theorem not_carderOperations : ¬ Obligations.CarderOperations := by
  unfold Obligations.CarderOperations
  intro ⟨_, h⟩
  obtain ⟨hrun, hpol⟩ := regsState_runs
  obtain ⟨hdev, hblocks⟩ := regsTensor_here
  obtain ⟨hrec, hrange⟩ := regsVerify_status
  obtain ⟨haux, hbase⟩ := regsTensor_clear
  obtain ⟨-, hverify, -⟩ := h 0 regsState 3 regsVerify regsPolder hrun rfl rfl hpol rfl
  rw [hrec, show regsVerify.tds.getD 0 0 = regsTensor from rfl, hblocks] at hverify
  obtain ⟨hends, -⟩ := hverify rfl hdev (fun b hb => regsTensor_expanded hb) hrange
    ⟨.inl haux, fun b _ => .inl (Nat.le_add_right_of_le hbase)⟩
  rw [exec_verify, show (0 : TileNo).toNat = 0 from rfl] at hends
  exact absurd (regsVerify_ends.symm.trans hends.endOfRun) (by decide)

end Sys2Proof.Machine
end

section
/-! The error log and the decoder (R215 to R219): what a record says, that later records of the same access leave it in its ring,
and what a corrected or poisoned word leaves. -/

namespace Sys2Proof.Machine

/-! ### Records (R218) -/

/-- A record's kind, its mark of a scrub and its address. -/
theorem elogRec_fields (d : Dev) (acc : Acc) (a : Nat) {kind : Nat} (hk : kind < 8) (syn : BitVec 16) :
    let r := elogRec d acc a kind syn
    fld r 50 48 = kind ∧ r.getLsbD 51 = acc.scrub ∧ fld r 47 0 = a % 2 ^ 48 := by
  intro r
  obtain ⟨q, hq, hr⟩ : ∃ q, q < 16 ∧ r = BitVec.ofNat 128 (a % 2 ^ 48 + kind <<< 48 + (b2n acc.scrub) <<< 51 + (acc.cls % 8) <<< 52
      + q <<< 55 + (d.kclk.toNat % 2 ^ 32) <<< 64 + syn.toNat <<< 96) := by
    refine ⟨_, ?_, rfl⟩
    split
    · next p _ =>
      have := p.isLt
      split <;> omega
    · decide
  obtain ⟨rest, hrest⟩ : ∃ rest, rest = acc.cls % 8 + q * 2 ^ 3 + d.kclk.toNat % 2 ^ 32 * 2 ^ 12 + syn.toNat * 2 ^ 44 := ⟨_, rfl⟩
  have := syn.isLt
  have hs : b2n acc.scrub < 2 := by cases acc.scrub <;> decide
  have hn : r.toNat = a % 2 ^ 48 + (kind + (b2n acc.scrub + rest * 2) * 2 ^ 3) * 2 ^ 48 := by
    rw [hr]
    simp only [Nat.shiftLeft_eq]
    rw [BitVec.toNat_ofNat, Nat.mod_eq_of_lt (by omega)]
    omega
  refine ⟨?_, ?_, ?_⟩
  · unfold fld
    rw [hn]
    exact bits_digit (below := a % 2 ^ 48) (rest := b2n acc.scrub + rest * 2) (by omega) (by omega) (by omega)
  · rw [BitVec.getLsbD, hn, Nat.testBit_eq_decide_div_mod_eq,
      show (a % 2 ^ 48 + (kind + (b2n acc.scrub + rest * 2) * 2 ^ 3) * 2 ^ 48) / 2 ^ 51 % 2 = b2n acc.scrub by omega]
    cases acc.scrub <;> rfl
  · unfold fld
    rw [hn]
    exact bits_digit (below := 0) (rest := kind + (b2n acc.scrub + rest * 2) * 2 ^ 3) (by omega) (by omega) (by omega)

/-- The error records of a source, newest first. -/
def logRecs (d : Dev) (src : Nat) : List (BitVec 128) := (NMap.get d.mem.elog {} src).recs

theorem logRecs_elogPut (d : Dev) (src : Nat) (r : BitVec 128) : logRecs (elogPut d src r) src = (r :: logRecs d src).take 16 := by
  simp [logRecs, elogPut, elogAdd]

/-- The bytes of memory and its errors stay, and a source's ring takes one record more at the most. -/
structure Logs (src : Nat) (d d' : Dev) : Prop where
  bytes : d'.mem.bytes = d.mem.bytes
  ecc : d'.mem.ecc = d.mem.ecc
  ring : logRecs d' src = logRecs d src ∨ ∃ r, logRecs d' src = (r :: logRecs d src).take 16

theorem Logs.refl (src : Nat) (d : Dev) : Logs src d d := ⟨rfl, rfl, .inl rfl⟩

/-- A change that leaves bytes, errors and log as they are may come before. -/
theorem Logs.of_same {src : Nat} {d e f : Dev} (hb : e.mem.bytes = d.mem.bytes) (he : e.mem.ecc = d.mem.ecc)
    (hl : e.mem.elog = d.mem.elog) (h : Logs src e f) : Logs src d f := by
  have hr : logRecs e src = logRecs d src := by unfold logRecs; rw [hl]
  exact ⟨h.bytes.trans hb, h.ecc.trans he, by rw [← hr]; exact h.ring⟩

/-- The newest record of a ring is still in it after one more. -/
theorem Logs.mem {src : Nat} {d d' : Dev} (h : Logs src d d') {r : BitVec 128} {l : List (BitVec 128)}
    (hr : logRecs d src = r :: l) : r ∈ logRecs d' src := by
  rcases h.ring with e | ⟨x, e⟩ <;> rw [e, hr] <;> simp

theorem exhausted_logs (d : Dev) (acc : Acc) (key a : Nat) : Logs (elogSource key) d (exhausted d acc key a) := by
  unfold exhausted
  dsimp only
  have told := notice_onlyTold (elogPut d (elogSource key) (elogRec d acc (Config.rowFirst (rowKey key)) 6 0)) 5
    (ownerOfAddr (elogPut d (elogSource key) (elogRec d acc (Config.rowFirst (rowKey key)) 6 0)) a) 0 (memInfo a 6 (elogSource key))
  refine ⟨by rw [told]; rfl, by rw [told]; rfl, .inr ⟨elogRec d acc (Config.rowFirst (rowKey key)) 6 0, ?_⟩⟩
  rw [← logRecs_elogPut]
  unfold logRecs
  rw [told]

theorem markRow_logs (d : Dev) (acc : Acc) (key a : Nat) : Logs (elogSource key) d (markRow d acc key a) := by
  unfold markRow
  dsimp only
  split
  · exact exhausted_logs ..
  split
  · split
    · exact .refl ..
    split
    · exact ⟨rfl, rfl, .inl rfl⟩
    · exact exhausted_logs ..
  · exact .refl ..

theorem rowHit_logs (d : Dev) (acc : Acc) (key a : Nat) : Logs (elogSource key) d (rowHit d acc key a) := by
  unfold rowHit
  dsimp only
  split
  · split
    · exact Logs.of_same (e := onMem d _) rfl rfl rfl (markRow_logs ..)
    · exact ⟨rfl, rfl, .inl rfl⟩
  · exact .refl ..

/-! ### The decoder (R216) -/

theorem eccNote_mem (d : Dev) (acc : Acc) (key a kind : Nat) :
    (eccNote d acc key a kind).mem =
      (elogPut d (elogSource key) (elogRec d acc a kind (Config.syndrome key))).mem := by
  unfold eccNote eccCount
  dsimp only
  split
  · exact count_mem ..
  · split
    · exact count_mem ..
    · rfl

theorem eccNote_repairs (d : Dev) (acc : Acc) (key a kind : Nat) : (eccNote d acc key a kind).mem.repairs = d.mem.repairs := by
  rw [eccNote_mem]
  rfl

theorem logRecs_eccNote (d : Dev) (acc : Acc) (key a kind : Nat) :
    ∃ l, logRecs (eccNote d acc key a kind) (elogSource key) = elogRec d acc a kind (Config.syndrome key) :: l := by
  unfold logRecs
  rw [eccNote_mem]
  exact ⟨_, logRecs_elogPut ..⟩

/-- What the decoder's read of a word leaves when it reports a record of a kind: the word's error state is e, the bytes and the other
words stay, and the record is in the ring of the word's source. -/
structure WordNoted (acc : Acc) (key a kind : Nat) (e : Option EccWord) (d d' : Dev) : Prop where
  bytes : d'.mem.bytes = d.mem.bytes
  word : NMap.find? d'.mem.ecc (key / 8) = e
  others : ∀ j, j ≠ key / 8 → NMap.find? d'.mem.ecc j = NMap.find? d.mem.ecc j
  record : ∃ r ∈ logRecs d' (elogSource key), fld r 50 48 = kind ∧ r.getLsbD 51 = acc.scrub ∧ fld r 47 0 = a % 2 ^ 48

theorem find_setEcc (d : Dev) (key : Nat) (e : Option EccWord) : NMap.find? (setEcc d key e).mem.ecc (key / 8) = e := by
  cases e <;> simp [setEcc]

theorem find_setEcc_ne (d : Dev) (key : Nat) (e : Option EccWord) {j : Nat} (h : j ≠ key / 8) :
    NMap.find? (setEcc d key e).mem.ecc j = NMap.find? d.mem.ecc j := by
  cases e <;> simp [setEcc, h]

/-- The record that the decoder makes stays in its ring through what may follow in the same access. -/
theorem wordNoted_of_logs {d d' : Dev} {acc : Acc} {key a kind : Nat} {e : Option EccWord} (hk : kind < 8)
    (h : Logs (elogSource key) (eccNote (setEcc d key e) acc key a kind) d') : WordNoted acc key a kind e d d' := by
  have hecc : d'.mem.ecc = (setEcc d key e).mem.ecc := by rw [h.ecc, eccNote_mem]; rfl
  obtain ⟨l, hl⟩ := logRecs_eccNote (setEcc d key e) acc key a kind
  refine ⟨?_, ?_, fun j hj => ?_, _, h.mem hl, elogRec_fields _ acc a hk _⟩
  · rw [h.bytes, eccNote_mem]; rfl
  · rw [hecc]; exact find_setEcc ..
  · rw [hecc]; exact find_setEcc_ne _ _ _ hj

/-- The kind of record that a word's error makes: the number of its wrong bits, up to three, or 4 for poison (R216, R218). -/
def wordKind (w : EccWord) (kind : Nat) : Prop :=
  (∃ pat, w = .bad pat ∧ 1 ≤ popcount 80 pat.toNat ∧ popcount 80 pat.toNat ≤ 3 ∧ kind = popcount 80 pat.toNat) ∨
    (w = .poison ∧ kind = 4)

/-- A word of one to three wrong bits, or poisoned, read through the decoder. -/
theorem wordRead_noted (d : Dev) (acc : Acc) {key : Nat} (a : Nat) {w : EccWord} {kind : Nat}
    (hw : NMap.find? d.mem.ecc (key / 8) = some w) (hk : wordKind w kind) :
    WordNoted acc key a kind (if kind ≤ 2 then none else some .poison) d (wordRead d acc key a).1 := by
  unfold wordRead
  rw [hw]
  rcases hk with ⟨pat, rfl, h1, h3, rfl⟩ | ⟨rfl, rfl⟩
  · obtain h | h | h : popcount 80 pat.toNat = 1 ∨ popcount 80 pat.toNat = 2 ∨ popcount 80 pat.toNat = 3 := by omega
    · simp only [eccOut, h]
      exact wordNoted_of_logs (by decide) (rowHit_logs ..)
    · simp only [eccOut, h]
      exact wordNoted_of_logs (by decide) (rowHit_logs ..)
    · simp only [eccOut, h]
      exact wordNoted_of_logs (by decide) (markRow_logs ..)
  · exact wordNoted_of_logs (by decide) (markRow_logs ..)

/-! ### Scrub reads (R215, R219) -/

/-- The device before a scrub reads the word at a key: the scrub's place, the rows' counts of a period that ends, and the count of
the read. -/
def scrubStart (d : Dev) (key : Nat) : Dev :=
  let src := elogSource key
  let last := NMap.find? d.mem.scrubPos src
  let d := if last.any (fun l => key ≤ l) then
      onMem d fun m => { m with rowHits := NMap.clear m.rowHits (src * 2 ^ 40) ((src + 1) * 2 ^ 40) } else d
  let d := onMem d fun m => { m with scrubPos := NMap.insert m.scrubPos src key }
  if src < 0x10 then count d 2 src 0x51D 1 none else if src < 0x18 then count d 3 (src - 0x10) 0x61D 1 none else d

theorem scrubRead_of_place {d : Dev} {x : ScrubWord} {k w : Nat} (h : scrubPlace d x = some (k, w)) :
    scrubRead d x = (wordRead (scrubStart d k) { cls := 7, scrub := true } k w).1 := by
  unfold scrubRead
  rw [h]
  rfl

theorem scrubStart_onlyMem (d : Dev) (key : Nat) : OnlyMem d (scrubStart d key) := by
  unfold scrubStart
  dsimp only
  have hclear : OnlyMem d (if (NMap.find? d.mem.scrubPos (elogSource key)).any (fun l => key ≤ l) then
      onMem d fun m => { m with rowHits := NMap.clear m.rowHits (elogSource key * 2 ^ 40) ((elogSource key + 1) * 2 ^ 40) } else d) := by
    split
    · exact onMem_onlyMem ..
    · exact .refl d
  split
  · exact (hclear.trans (onMem_onlyMem ..)).trans (count_onlyMem ..)
  split
  · exact (hclear.trans (onMem_onlyMem ..)).trans (count_onlyMem ..)
  · exact hclear.trans (onMem_onlyMem ..)

/-- Before the read, bytes, errors and log are as they were. -/
theorem scrubStart_mem (d : Dev) (key : Nat) :
    (scrubStart d key).mem = { d.mem with rowHits := (scrubStart d key).mem.rowHits, scrubPos := (scrubStart d key).mem.scrubPos } := by
  unfold scrubStart
  dsimp only
  split_ifs <;> simp [onMem]

/-! ### Row copies (R215) -/

theorem copyWord_repairs (d : Dev) (w : Nat) : (copyWord d w).mem.repairs = d.mem.repairs := by
  unfold copyWord
  dsimp only
  split
  · rfl
  iterate 6 · exact eccNote_repairs ..
  · rfl

theorem foldl_copyWord_repairs (l : List Nat) (d : Dev) : (l.foldl copyWord d).mem.repairs = d.mem.repairs := by
  induction l generalizing d with
  | nil => rfl
  | cons w l ih => rw [List.foldl_cons, ih, copyWord_repairs]

/-- The oldest row copy of a stack ends: its row is repaired, and the newest record of the stack is of kind 5. -/
theorem repairCopyEnd_of {d : Dev} {stack : Nat} {r : Repair}
    (h : (d.mem.repairs.filter fun r => r.stack = stack && r.copying).getLast? = some r) :
    (repairCopyEnd d stack).mem.repairs = (d.mem.repairs.map fun x => if x = r then { x with copying := false } else x) ∧
      ∃ e rest, logRecs (repairCopyEnd d stack) stack = e :: rest ∧ fld e 50 48 = 5 := by
  unfold repairCopyEnd
  rw [h]
  dsimp only
  refine ⟨?_, _, _, logRecs_elogPut .., (elogRec_fields _ _ _ (by decide) _).1⟩
  change List.map _ (List.foldl copyWord d _).mem.repairs = _
  rw [foldl_copyWord_repairs]

theorem repairCopyEnd_none {d : Dev} {stack : Nat} (h : (d.mem.repairs.filter fun r => r.stack = stack && r.copying) = []) :
    repairCopyEnd d stack = d := by
  unfold repairCopyEnd
  rw [h]
  rfl

end Sys2Proof.Machine
end

section
/-! POLDER_DESTROY (R320): what each of its steps leaves, and which bytes a GiB zeroed takes with it. -/

namespace Sys2Proof.Machine

/-! ### A GiB zeroed -/

theorem NMap.find_dropKeys {α : Type} (m : NMap α) (p : Nat → Bool) (k : Nat) :
    NMap.find? (NMap.dropKeys m p) k = if p k then none else NMap.find? m k := by
  induction m with
  | nil => simp [NMap.dropKeys]
  | cons e t ih =>
    obtain ⟨j, v⟩ := e
    unfold NMap.dropKeys at ih ⊢
    by_cases hj : p j
    · rw [List.filter_cons_of_neg (by simpa using hj), ih, NMap.find_cons]
      grind
    · rw [List.filter_cons_of_pos (by simpa using hj), NMap.find_cons, NMap.find_cons, ih]
      grind

theorem read_zeroKeys (m : MemSys) (p : Nat → Bool) (k : Nat) :
    Mem.read (zeroKeys m p).bytes k = if p k then 0 else Mem.read m.bytes k := by
  unfold zeroKeys Mem.read NMap.get
  dsimp only
  rw [NMap.find_dropKeys]
  split <;> rfl

/-- R207 read backwards gives the offset whose place a key of HBM is. -/
theorem hbmAddr_of (imap : W64) {y : Nat} (hy : y < 2 ^ 40) :
    hbmAddr imap (hbmBase + y) = hbmBase + if bitAt imap.toNat (y / 2 ^ 30 % 64) then
      y / 2 ^ 8 % 16 * 2 ^ 36 + (y / 2 ^ 12 % 2 ^ 24 * 2 ^ 12 + y / 2 ^ 36 % 16 * 2 ^ 8 + y % 2 ^ 8) else y := by
  unfold hbmAddr
  simp only [Nat.add_sub_cancel_left, bits, Nat.shiftRight_eq_div_pow, Nat.shiftLeft_eq,
    show y % 2 ^ 36 / 2 ^ 30 % 2 ^ (35 + 1 - 30) = y / 2 ^ 30 % 64 by omega]
  rw [Nat.add_right_inj]
  split <;> omega

theorem ddrChans_cases (d : Dev) : ddrChans d = [] ∨ ddrChans d = [0, 1, 2, 3] ∨ ddrChans d = [4, 5, 6, 7] ∨
    ddrChans d = [0, 1, 2, 3, 4, 5, 6, 7] := by
  unfold ddrChans
  split <;> split <;> simp

/-- A channel stands once in the list of those in service. -/
theorem findIdx_ddrChans (d : Dev) {i : Nat} (hi : i < (ddrChans d).length) :
    (ddrChans d).findIdx? (· = (ddrChans d).getD i 0) = some i := by
  rcases ddrChans_cases d with e | e | e | e <;> rw [e] at hi ⊢ <;> revert i <;> decide

/-- The address that a GiB's clearing gives a key is the one whose place it is; a scratchpad has none. -/
theorem localOf_place {d : Dev} {b k : Nat} (h : place d b = .ok k) :
    zeroGib.localOf d k = if hbmBase ≤ b then some b else none := by
  have b1 : hbmBase = 1099511627776 := rfl
  have b2 : ddrBase = 2199023255552 := rfl
  have b3 : progBase = 1125899906842624 := rfl
  have hbm : ∀ y, y < 2 ^ 40 → zeroGib.localOf d (hbmBase + y) = some (hbmAddr d.mem.imap (hbmBase + y)) := fun y hy => by
    unfold zeroGib.localOf
    rw [if_pos (by omega)]
  rcases place_cases h with ⟨h1, -, rfl⟩ | ⟨x, rfl, hx, hg, -, e⟩ | ⟨x, rfl, hx, hg, -, rfl⟩ | ⟨y, rfl, hy, hc, e⟩
  · unfold zeroGib.localOf
    rw [if_neg (by omega), if_neg (by omega), if_neg (by omega)]
  · obtain ⟨y, hyx, hy, hyg, hxy⟩ := glob_key x hx
    obtain rfl : k = hbmBase + y := by omega
    rw [hbm y hy, hbmAddr_of _ hy, hyg, if_pos hg, ← hxy, if_pos (by omega)]
  · rw [hbm x hx, hbmAddr_of _ hx, hg, if_neg Bool.false_ne_true, if_pos (by omega)]
  · obtain ⟨n, c, o, hn, hl, hq, h8, ho, hlt, hm⟩ := ddr_key hy hc
    have hi : y / 4096 % n < (ddrChans d).length := by rw [hl]; rcases hn with rfl | rfl <;> omega
    have hidx := findIdx_ddrChans d hi
    rw [hl] at hq e
    rw [hq, ← ho] at e
    rw [hq] at hidx
    unfold zeroGib.localOf
    rw [if_neg (by omega), if_pos (by omega)]
    dsimp only
    rw [show (k - ddrBase) / 2 ^ 40 = c by omega, show (k - ddrBase) % 2 ^ 40 = o by omega, hidx, hl, if_pos (by omega)]
    simp only [Option.map_some, Option.some.injEq]
    rcases hn with rfl | rfl <;> omega

theorem zeroGib_mem (d : Dev) (a : Nat) :
    (zeroGib d a).mem = zeroKeys d.mem fun k => (zeroGib.localOf d k).any fun x => a ≤ x && x < a + gib := rfl

theorem place_zeroGib (d : Dev) (a b : Nat) : place (zeroGib d a) b = place d b := by
  unfold zeroGib
  exact place_congr (onMem_grid ..) (onMem_blocks ..) rfl rfl rfl b

theorem byteAt_zeroGib (d : Dev) (a b : Nat) :
    byteAt (zeroGib d a) b = if hbmBase ≤ b ∧ a ≤ b ∧ b < a + gib then 0 else byteAt d b := by
  unfold byteAt
  rw [place_zeroGib]
  cases hb : place d b with
  | error c => simp
  | ok k =>
    dsimp only
    rw [zeroGib_mem, read_zeroKeys, localOf_place hb]
    by_cases h : hbmBase ≤ b <;> simp [h]

/-! ### What the shares and allotments leave (R320) -/

theorem polderTileReset_onTile (d : Dev) (x : Polder) (t : Nat) :
    (polderTileReset d x t).polders = d.polders ∧ (polderTileReset d x t).reeve = d.reeve := ⟨rfl, rfl⟩

/-- Clearing a polder's shares leaves the polders and the mailboxes. -/
theorem clearShares_keeps (d : Dev) (x : Polder) : (clearShares d x).polders = d.polders ∧ (clearShares d x).reeve = d.reeve := by
  have fold : ∀ (l : List Nat) (e : Dev), (l.foldl (fun d t => polderTileReset d x t) e).polders = e.polders ∧
      (l.foldl (fun d t => polderTileReset d x t) e).reeve = e.reeve := by
    intro l
    induction l with
    | nil => exact fun e => ⟨rfl, rfl⟩
    | cons t l ih => exact fun e => ⟨(ih _).1, (ih _).2⟩
  exact ⟨(fold _ d).1, (fold _ d).2⟩

/-! ### The steps of the command -/

theorem cmdRow_serves {s : State} {m : Nat} {c : Cmd} (h : Serves s m c) {ok : Cmd → Bool} (hok : ok c = true)
    (f : Dev → Cmd → Dev × Cmd) : StepGives s m (f s.dev c).1 (f s.dev c).2 (onDev s fun d => cmdRow d m ok f) := by
  simp [StepGives, cmdRow, takeStep_serves h hok, h.known]

theorem polderDestroy_absent {d : Dev} {m : Nat} {c : Cmd} (h0 : c.step = 0) (h : NMap.find? d.polders (c.word 0) = none) :
    polderDestroy m d c = (d, c.refuse 0x0207) := by
  simp [polderDestroy, h0, h]

/-- The first step of a polder that exists, no reset being at work on it, starts the polder reset. -/
theorem polderDestroy_reset {d : Dev} {m : Nat} {c : Cmd} {x : Polder} (h0 : c.step = 0) (h : NMap.find? d.polders (c.word 0) = some x)
    (hr : ∀ j ∈ d.resets, domainsMeet d 2 (c.word 0) j.level j.target = false) :
    polderDestroy m d c = (startReset d 2 (c.word 0) 10 (some m) false, c.more) := by
  have hr' : (d.resets.any fun j => domainsMeet d 2 (c.word 0) j.level j.target) = false := by
    rw [List.any_eq_false]
    exact fun j hj => by simp [hr j hj]
  simp [polderDestroy, h0, h, hr']

/-- The device once the allotments of a polder are gone and the GiB of its windows listed. -/
def destroyed (d : Dev) (x : Polder) (p m : Nat) : Dev :=
  onReeve (freePolder (clearShares d x) p m) fun r => { r with clearing := ((windowGib x).map fun a => (a, a + gib)) ++ r.clearing }

theorem polderDestroy_free {d : Dev} {m : Nat} {c : Cmd} {x : Polder} {u v : Nat} (h0 : 0 < c.step) (hn : c.nums = [u, v])
    (h : NMap.find? d.polders (c.word 0) = some x) :
    polderDestroy m d c =
      (destroyed d x (c.word 0) m,
        if windowGib x = [] then ({ c with nums := 0 :: 0 :: windowGib x, total := (windowGib x).length } : Cmd).finish
        else ({ c with nums := 0 :: 0 :: windowGib x, total := (windowGib x).length } : Cmd).more) := by
  unfold polderDestroy
  dsimp only
  rw [if_neg (by omega), hn, h]
  dsimp only [destroyed]
  split <;> rfl

/-- The device once the GiB at an address is zeroed and off the list. -/
def gibZeroed (d : Dev) (a : Nat) : Dev := onReeve (zeroGib d a) fun r => { r with clearing := r.clearing.erase (a, a + gib) }

theorem byteAt_gibZeroed (d : Dev) (a b : Nat) :
    byteAt (gibZeroed d a) b = if hbmBase ≤ b ∧ a ≤ b ∧ b < a + gib then 0 else byteAt d b := by
  rw [← byteAt_zeroGib]
  unfold byteAt gibZeroed
  rw [place_congr (onReeve_grid ..) (onReeve_blocks ..) (by rw [onReeve_mem]) (by rw [onReeve_mem]) (by rw [onReeve_mem]) b, onReeve_mem]

theorem polderDestroy_zero {d : Dev} {m : Nat} {c : Cmd} {u v a : Nat} {gs : List Nat} (h0 : 0 < c.step) (hn : c.nums = u :: v :: a :: gs) :
    polderDestroy m d c =
      (gibZeroed d a,
        if gs = [] then ({ c with nums := 0 :: 0 :: gs, done := c.done + 1 } : Cmd).finish
        else ({ c with nums := 0 :: 0 :: gs, done := c.done + 1 } : Cmd).more) := by
  unfold polderDestroy
  dsimp only
  rw [if_neg (by omega), hn]
  dsimp only [gibZeroed]
  split <;> rfl

/-- Settles O60, by the decoder's cases, the ring of records and the steps of POLDER_DESTROY. -/
theorem memoryAndDestroy : Obligations.MemoryAndDestroy := by
  unfold Obligations.MemoryAndDestroy
  refine ⟨⟨fun x s => ⟨fun h => ?_, fun a => rfl, fun k w h => ?_⟩, fun stack s => ?_⟩, fun m s c hserves hcmd => ?_⟩
  · have hnone : scrubRead s.dev x = s.dev := by unfold scrubRead; rw [h]
    change (.next { s with dev := scrubRead s.dev x } : Out) = _
    rw [hnone]
  · have hstart := scrubStart_mem s.dev k
    intro was
    refine ⟨scrubRead s.dev x, rfl, ?_, fun hwas => ?_, fun kind hkind => ?_⟩
    · rw [scrubRead_of_place h]
      exact (scrubStart_onlyMem ..).trans (wordRead_onlyMem ..)
    · rw [scrubRead_of_place h, wordRead_clean _ _ _ _ (by rw [hstart]; exact hwas), hstart]
      exact ⟨rfl, rfl, rfl⟩
    · obtain ⟨e, he, hk⟩ : ∃ e, was = some e ∧ wordKind e kind := by
        rcases hkind with ⟨pat, hpat, hcount⟩ | ⟨hpoison, h4⟩
        · exact ⟨_, hpat, .inl ⟨pat, rfl, hcount⟩⟩
        · exact ⟨_, hpoison, .inr ⟨rfl, h4⟩⟩
      have hnoted := wordRead_noted (scrubStart s.dev k) { cls := 7, scrub := true } w (by rw [hstart]; exact he) hk
      rw [← scrubRead_of_place h] at hnoted
      refine ⟨?_, hnoted.word, fun j hj => ?_, hnoted.record⟩
      · rw [hnoted.bytes, hstart]
      · rw [hnoted.others j hj, hstart]
  · intro open_
    refine ⟨fun h => ?_, fun r hr => ⟨repairCopyEnd s.dev stack.toNat, rfl, repairCopyEnd_of hr⟩⟩
    change (.next { s with dev := repairCopyEnd s.dev stack.toNat } : Out) = _
    rw [repairCopyEnd_none h]
  · have hstep := cmdRow_serves hserves (ok := isCmd 0x0202) (by simp [isCmd, hcmd]) (polderDestroy m.val)
    change StepGives s m.val _ _ (exec (.polderDestroy m) s) at hstep
    intro p
    refine ⟨fun h0 hnone => ?_, fun x h0 hx hr => ?_, fun x u v h0 hn hx => ?_, fun u v a gs h0 hn => ?_⟩
    · rw [polderDestroy_absent h0 hnone] at hstep
      exact hstep
    · rw [polderDestroy_reset h0 hx hr] at hstep
      simpa [Cmd.more, h0] using hstep
    · rw [polderDestroy_free h0 hn hx] at hstep
      obtain ⟨hpolders, hreeve⟩ := clearShares_keeps s.dev x
      refine ⟨_, _, hstep, ?_, ?_, fun hne => by rw [if_neg hne]; rfl⟩
      · change NMap.erase (clearShares s.dev x).polders p = _
        rw [hpolders]
      · change _ ++ (clearShares s.dev x).reeve.clearing = _
        rw [hreeve]
    · rw [polderDestroy_zero h0 hn] at hstep
      refine ⟨_, _, hstep, rfl, fun b h1 h2 h3 => ?_, fun b hb => ?_, ?_⟩
      · exact (byteAt_gibZeroed ..).trans (if_pos ⟨h3, h1, h2⟩)
      · exact (byteAt_gibZeroed ..).trans (if_neg (by omega))
      · split <;> rfl

end Sys2Proof.Machine
end

section
/-! What the work of a Blocker transaction can touch (R306): its reads and writes leave the transaction as it is, but for the sums
that the norm record takes; a scale of the working copy that R44 rejects ends the operation. -/

namespace Sys2Proof.Machine

/-! ### The frame of a transaction's work -/

/-- A transaction but for the sums that its chunks gather for the norm record. -/
def Txn.core (tx : Txn) : Txn := { tx with g2 := [], w2 := [], u2 := [], nonfin := false }

/-- Work in the frame of the operation that leaves its transaction but for those sums. -/
structure TxnFrame (t : Nat) (d d' : Dev) : Prop extends OpFrame t .blocker d d' where
  txn : ∀ r r', runOf d t .blocker = some r → runOf d' t .blocker = some r' → r'.work.txn.core = r.work.txn.core

theorem TxnFrame.trans {t : Nat} {d1 d2 d3 : Dev} (h : TxnFrame t d1 d2) (h' : TxnFrame t d2 d3) : TxnFrame t d1 d3 := by
  refine ⟨h.toOpFrame.trans h'.toOpFrame, fun r r'' hr hr'' => ?_⟩
  obtain ⟨r', hr', -⟩ := h.run r hr
  exact (h'.txn r' r'' hr' hr'').trans (h.txn r r' hr hr')

/-- A step that keeps in the frame of any engine's operation changes no run. -/
theorem TxnFrame.of_any {t : Nat} {d d' : Dev} (h : ∀ e, OpFrame t e d d') : TxnFrame t d d' := by
  have hrun : runOf d' t .blocker = runOf d t .blocker := congrArg Engine.run ((h .router).engines .blocker (by decide))
  refine ⟨h .blocker, fun r r' hr hr' => ?_⟩
  rw [hrun, hr] at hr'
  rw [Option.some.inj hr']

theorem TxnFrame.refl (t : Nat) (d : Dev) : TxnFrame t d d := .of_any fun e => .refl t e d
theorem TxnFrame.of_quiet {t : Nat} {d d' : Dev} (h : Quiet d d') : TxnFrame t d d' := .of_any fun e => h.frame t e
theorem TxnFrame.of_onlyMem {t : Nat} {d d' : Dev} (h : OnlyMem d d') : TxnFrame t d d' := .of_quiet (.of_onlyMem h)

theorem TxnFrame.of_onRun {t : Nat} (d : Dev) (f : RunOp → RunOp)
    (h : ∀ r, ((f r).q = r.q ∧ (f r).tds = r.tds ∧ (f r).begun = r.begun ∧ (f r).ended = r.ended ∧ (f r).tallyOk = r.tallyOk) ∧
      (f r).work.txn.core = r.work.txn.core) : TxnFrame t d (onRun d t .blocker f) := by
  refine ⟨.of_onRun d f fun r => (h r).1, fun r r' hr hr' => ?_⟩
  rw [runOf_onRun, hr, Option.map_some, Option.some.injEq] at hr'
  rw [← hr']
  exact (h r).2

/-- The same for a change of the operation's tally counts. -/
theorem TxnFrame.of_counts {t : Nat} (d : Dev) (f : RunOp → Counts) :
    TxnFrame t d (onRun d t .blocker fun r => { r with counts := f r }) := .of_onRun d _ fun _ => ⟨⟨rfl, rfl, rfl, rfl, rfl⟩, rfl⟩

/-- The same for a change of those sums. -/
theorem TxnFrame.of_onTxn {t : Nat} (d : Dev) (f : Txn → Txn) (h : ∀ y, (f y).core = y.core) : TxnFrame t d (onTxn d t f) :=
  .of_onRun d _ fun r => ⟨⟨rfl, rfl, rfl, rfl, rfl⟩, h r.work.txn⟩

theorem TxnFrame.foldl {α : Type} {t : Nat} (f : Dev → α → Dev) (h : ∀ d x, TxnFrame t d (f d x)) (l : List α) (d : Dev) :
    TxnFrame t d (l.foldl f d) := by
  induction l generalizing d with
  | nil => exact .refl t d
  | cons x l ih => exact (h d x).trans (ih (f d x))

/-- Two steps in turn. -/
theorem TxnFrame.andThen {t : Nat} {d : Dev} {p : Dev × Option Code} {f : Dev → Dev × Option Code} (h : TxnFrame t d p.1)
    (hf : ∀ d1, TxnFrame t d1 (f d1).1) : TxnFrame t d (andThen p f).1 := by
  obtain ⟨d1, c⟩ := p
  cases c with
  | none => exact h.trans (hf d1)
  | some c => exact h

/-! ### Writes -/

theorem RunOp.noteBad_work (r : RunOp) (e : EngineId) (kind dev a n : Nat) (c : Code) : (r.noteBad e kind dev a n c).work = r.work := by
  unfold RunOp.noteBad
  split <;> rfl

theorem sendReq_txnFrame {t : Nat} (d : Dev) (r : RunOp) (kind dev a n : Nat) (bs : List Byte) (o : Bool) :
    TxnFrame t d (sendReq d t .blocker r kind dev a n bs o) := by
  unfold sendReq
  dsimp only
  have hcount := TxnFrame.of_onRun (t := t) d (fun r => { r with nreq := r.nreq + 1 }) fun r => ⟨⟨rfl, rfl, rfl, rfl, rfl⟩, rfl⟩
  have hnoted (d : Dev) (f : Fabric → Fabric) : TxnFrame t d (onFabric d f) := .of_any fun _ => .of_fabric ..
  split
  · next h => exact (hcount.trans (hnoted ..)).trans (.of_any fun _ => sendPacket_frame' h)
  · next h =>
    exact (((hcount.trans (hnoted ..)).trans (.of_any fun _ => sendPacket_frame' h)).trans (hnoted ..)).trans
      (.of_onRun _ _ fun r => ⟨RunOp.noteBad_kept .., by rw [RunOp.noteBad_work]⟩)

theorem sendWrites_txnFrame {t : Nat} (r : RunOp) (dev : Nat) (o : Bool) (f : Nat) (d : Dev) (a : Nat) (bs : List Byte) :
    TxnFrame t d (sendWrites t .blocker r dev o f d a bs) := by
  induction f generalizing d a bs with
  | zero => exact .refl t d
  | succ f ih =>
    unfold sendWrites
    split
    · exact .refl t d
    · exact (sendReq_txnFrame ..).trans (ih ..)

theorem writeRng_txnFrame {t : Nat} (d : Dev) (r : RunOp) (dev a : Nat) (bs : List Byte) (o : Bool) :
    TxnFrame t d (writeRng d t .blocker r dev a bs o).1 := by
  unfold writeRng
  split
  · exact .of_onlyMem (memWrite_onlyMem ..)
  · dsimp only
    refine TxnFrame.trans (TxnFrame.of_onRun d _ ?_) (sendWrites_txnFrame ..)
    exact fun r => ⟨⟨rfl, rfl, rfl, rfl, rfl⟩, rfl⟩

theorem writeRng_txnFrame' {t : Nat} {d d' : Dev} {r : RunOp} {dev a : Nat} {bs : List Byte} {o : Bool} {c : Option Code}
    (h : writeRng d t .blocker r dev a bs o = (d', c)) : TxnFrame t d d' := by
  have := writeRng_txnFrame (t := t) d r dev a bs o
  rwa [h] at this

theorem writeAt_txnFrame {t : Nat} (d : Dev) (r : RunOp) (td : TDesc) (ix : List Nat) (c : Nat) :
    TxnFrame t d (writeAt d t .blocker r td ix c).1 := by
  unfold writeAt
  dsimp only
  split
  · split
    · exact writeRng_txnFrame ..
    · split <;> (next h => exact (TxnFrame.of_quiet (readRng_quiet h)).trans (writeRng_txnFrame ..))
  · exact writeRng_txnFrame ..

theorem writeAt_txnFrame' {t : Nat} {d d' : Dev} {r : RunOp} {td : TDesc} {ix : List Nat} {c : Nat} {x : Option Code}
    (h : writeAt d t .blocker r td ix c = (d', x)) : TxnFrame t d d' := by
  have := writeAt_txnFrame (t := t) d r td ix c
  rwa [h] at this

theorem writeList_txnFrame {t : Nat} (r : RunOp) (td : TDesc) (d : Dev) (n : Nat) (l : List (List Nat × Nat)) :
    TxnFrame t d (writeList t .blocker r td d n l).1 := by
  induction l generalizing d n with
  | nil => exact .refl t d
  | cons p l ih =>
    unfold writeList
    split
    · next h => exact writeAt_txnFrame' h
    · next h => exact (writeAt_txnFrame' h).trans (ih ..)

theorem writeSide_txnFrame {t : Nat} (d : Dev) (r : RunOp) (z : EncSet) (a : EncAcc) : TxnFrame t d (writeSide d t .blocker r z a).1 := by
  unfold writeSide
  dsimp only
  split
  · next h => exact writeRng_txnFrame' h
  · next h =>
    split
    · next h2 => exact (writeRng_txnFrame' h).trans (writeRng_txnFrame' h2)
    · next h2 =>
      split
      · exact (writeRng_txnFrame' h).trans (writeRng_txnFrame' h2)
      · exact ((writeRng_txnFrame' h).trans (writeRng_txnFrame' h2)).trans (writeRng_txnFrame ..)

theorem bPut_txnFrame (d : Dev) (t : Nat) (r : RunOp) (td : TDesc) (e : Nat) (codes : List Nat) : TxnFrame t d (bPut d t r td e codes).1 := by
  have hlist := writeList_txnFrame (t := t) (stateRun r td) td d 0
    ((List.zip (List.range codes.length) codes).map fun p => (tIndex td (e + p.1), p.2))
  unfold bPut
  split <;> (next h => rwa [h] at hlist)

/-! ### Reads -/

theorem readCodesGo_quiet {acc : Acc} {r : RunOp} {td : TDesc} {w k n : Nat} {d d' : Dev} {x : Option Code × List Nat}
    (h : readCodesGo d acc r td w k n = (d', x)) : Quiet d d' := by
  induction k generalizing d d' n x with
  | zero => cases h; exact .refl d
  | succ k ih =>
    unfold readCodesGo at h
    dsimp only at h
    split at h
    · next hr => cases h; exact readRng_quiet hr
    · next d1 _ hr =>
      cases h
      exact (readRng_quiet hr).trans (ih (d := d1) (n := n + 1) rfl)

theorem readCodes_quiet {acc : Acc} {r : RunOp} {td : TDesc} {n k : Nat} {d d' : Dev} {x : Option Code × List Nat}
    (h : readCodes d acc r td n k = (d', x)) : Quiet d d' := readCodesGo_quiet h

theorem bVals_quiet {acc : Acc} {r : RunOp} {td : TDesc} {n e : Nat} {d d' : Dev} {x : Except Code (List F32)}
    (h : bVals acc r td d n e = (d', x)) : Quiet d d' := by
  induction n generalizing d d' e x with
  | zero => cases h; exact .refl d
  | succ n ih =>
    unfold bVals at h
    dsimp only at h
    (repeat' split at h) <;> grind only [Quiet.trans, → readRng_quiet, → readCodes_quiet]

theorem bValsAll_quiet {acc : Acc} {r : RunOp} {lo n : Nat} {l : List (Option TDesc)} {d d' : Dev} {x : Except Code (List (List F32))}
    (h : bValsAll acc r lo n d l = (d', x)) : Quiet d d' := by
  induction l generalizing d d' x with
  | nil => cases h; exact .refl d
  | cons o l ih =>
    unfold bValsAll at h
    dsimp only at h
    (repeat' split at h) <;> grind only [Quiet.trans, Quiet.refl, → bVals_quiet]

/-! ### New state -/

theorem momentBlock_txnFrame (d : Dev) (t : Nat) (r : RunOp) (td : TDesc) (res : Option (TDesc × List F32)) (conv e : Nat)
    (vals : List F32) : TxnFrame t d (momentBlock d t r td res conv e vals).1 := by
  unfold momentBlock
  dsimp only
  refine TxnFrame.andThen ((TxnFrame.of_counts ..).trans (bPut_txnFrame ..)) fun d1 => TxnFrame.andThen (writeRng_txnFrame ..) fun d2 => ?_
  split
  · exact .refl t d2
  · exact bPut_txnFrame ..

theorem momentBlocks_txnFrame (t : Nat) (r : RunOp) (td : TDesc) (conv f : Nat) (res : Option (TDesc × List F32)) (d : Dev) (e : Nat)
    (vals : List F32) : TxnFrame t d (momentBlocks t r td res conv f d e vals).1 := by
  induction f generalizing d e vals res with
  | zero => exact .refl t d
  | succ f ih =>
    unfold momentBlocks
    split
    · exact .refl t d
    · exact TxnFrame.andThen (momentBlock_txnFrame ..) fun d1 => ih ..

theorem putMoments_txnFrame (d : Dev) (t : Nat) (r : RunOp) (td : TDesc) (res : Option (TDesc × List F32)) (conv e : Nat)
    (vals : List F32) : TxnFrame t d (putMoments d t r td res conv e vals).1 := by
  unfold putMoments
  split
  · exact (TxnFrame.of_counts ..).trans (bPut_txnFrame ..)
  · exact momentBlocks_txnFrame ..

theorem replaceOne_txnFrame (d : Dev) (t : Nat) (r : RunOp) (dst src : TDesc) (lo n : Nat) :
    TxnFrame t d (replaceOne d t r dst src lo n).1 := by
  unfold replaceOne
  dsimp only
  split
  · next h => exact .of_quiet (readCodes_quiet h)
  · next h =>
    refine TxnFrame.andThen ((TxnFrame.of_quiet (readCodes_quiet h)).trans (bPut_txnFrame ..)) fun d1 => ?_
    split
    · exact .refl t d1
    · split
      · next h => exact .of_quiet (readRng_quiet h)
      · next h => exact (TxnFrame.of_quiet (readRng_quiet h)).trans (writeRng_txnFrame ..)

theorem copyCounts_txnFrame (d : Dev) (t : Nat) (td : TDesc) (a : EncAcc) : TxnFrame t d (copyCounts d t td a) := by
  unfold copyCounts
  dsimp only
  split
  · exact (TxnFrame.of_counts ..).trans (.foldl _ (fun d p => .of_any fun _ => mergePend_frame ..) _ _)
  · exact .of_counts ..

theorem mergeCopy_txnFrame (d : Dev) (t : Nat) (r : RunOp) : TxnFrame t d (mergeCopy d t r) := by
  unfold mergeCopy
  dsimp only
  split
  · exact .refl t d
  · split
    · exact copyCounts_txnFrame ..
    · exact (copyCounts_txnFrame ..).trans (.of_onlyMem (count_onlyMem ..))

theorem foldl_fst_quiet {α β : Type} {f : Dev × β → α → Dev × β} {l : List α} {s : Dev × β} {d' : Dev} {x : β}
    (h : l.foldl f s = (d', x)) (hf : ∀ s x, Quiet s.1 (f s x).1) : Quiet s.1 d' := by
  induction l generalizing s with
  | nil => rw [show s = (d', x) from h]; exact .refl d'
  | cons y l ih => exact (hf s y).trans (ih h)

theorem badMoment_quiet {acc : Acc} {r : RunOp} {tds : List TDesc} {f b : Nat} {d d' : Dev} {x : Except Code (Option Nat)}
    (h : badMoment acc r tds f d b = (d', x)) : Quiet d d' := by
  induction f generalizing d d' b x with
  | zero => cases h; exact .refl d
  | succ f ih =>
    unfold badMoment at h
    dsimp only at h
    split at h <;> rename_i hb
    all_goals
      have hblock := foldl_fst_quiet hb fun s td => by
        split
        · split <;> (next hr => exact readRng_quiet hr)
        · exact .refl _
    · cases h; exact hblock
    · cases h; exact hblock
    · exact hblock.trans (ih h)

/-! ### A scale that R44 rejects -/

/-- The operation, running before, has ended at a scale of the working copy that R44 rejects; other engines of the tile stay. -/
structure ScaleEnded (t : Nat) (d d' : Dev) : Prop where
  engines : ∀ f, f ≠ .blocker → engineOf d' t f = engineOf d t f
  run : ∀ r, runOf d t .blocker = some r → r.ended = none →
    ∃ r', runOf d' t .blocker = some r' ∧ r'.q = r.q ∧ r'.tds = r.tds ∧ r'.ended = some ⟨.inPart, 0x0405⟩

theorem TxnFrame.scaleEnded {t : Nat} {d e f : Dev} (h : TxnFrame t d e) (h' : ScaleEnded t e f) : ScaleEnded t d f := by
  refine ⟨fun g hg => (h'.engines g hg).trans (h.engines g hg), fun r hr hend => ?_⟩
  obtain ⟨r1, hr1, hq, htds, -, hend1, -⟩ := h.run r hr
  obtain ⟨r2, hr2, hq2, htds2, hend2⟩ := h'.run r1 hr1 (hend1.trans hend)
  exact ⟨r2, hr2, hq2.trans hq, htds2.trans htds, hend2⟩

theorem ScaleEnded.frame {t : Nat} {d e f : Dev} (h : ScaleEnded t d e) (h' : OpFrame t .blocker e f) : ScaleEnded t d f := by
  refine ⟨fun g hg => (h'.engines g hg).trans (h.engines g hg), fun r hr hend => ?_⟩
  obtain ⟨r1, hr1, hq, htds, hend1⟩ := h.run r hr hend
  obtain ⟨r2, hr2, hq2, htds2, -, hend2, -⟩ := h'.run r1 hr1
  exact ⟨r2, hr2, hq2.trans hq, htds2.trans htds, hend2.trans hend1⟩

/-- A bad scale ends the operation PARTIAL with status 0x0405. -/
theorem scaleEnded_partRun (d : Dev) (t m : Nat) : ScaleEnded t d (partRun d t .blocker 0x0405 m) :=
  ⟨fun _ hg => engineOf_onEngine_ne _ _ _ hg, fun _ hr hend => ⟨_, runOf_endRun hr hend .inPart 0x0405 m, rfl, rfl, rfl⟩⟩

/-- How work that writes the working copy comes out: in the transaction's frame, or with a status and the operation ended. -/
def ChunkOut (t : Nat) (d : Dev) (p : Dev × Option Code) : Prop := TxnFrame t d p.1 ∨ (p.2.isSome = true ∧ ScaleEnded t d p.1)

theorem ChunkOut.frame_left {t : Nat} {d e : Dev} {p : Dev × Option Code} (h : TxnFrame t d e) (h' : ChunkOut t e p) : ChunkOut t d p :=
  h'.imp h.trans fun ⟨hs, hend⟩ => ⟨hs, h.scaleEnded hend⟩

theorem ChunkOut.frame_right {t : Nat} {d e f : Dev} {c : Option Code} (h : ChunkOut t d (e, c)) (h' : TxnFrame t e f) :
    ChunkOut t d (f, c) := h.imp (·.trans h') fun ⟨hs, hend⟩ => ⟨hs, hend.frame h'.toOpFrame⟩

theorem ChunkOut.andThen {t : Nat} {d : Dev} {p : Dev × Option Code} {f : Dev → Dev × Option Code} (h : ChunkOut t d p)
    (hf : ∀ d1, ChunkOut t d1 (f d1)) : ChunkOut t d (Machine.andThen p f) := by
  obtain ⟨d1, c⟩ := p
  cases c with
  | some c => exact h
  | none =>
    obtain hframe | ⟨hs, -⟩ := h
    · exact .frame_left hframe (hf d1)
    · cases hs

theorem cPut_out (t : Nat) (r : RunOp) (z : EncSet) (put : Nat → Bool) (d : Dev) (a : EncAcc) (e : Nat) (vs : List F32) :
    ChunkOut t d ((cPut t r z put d a e vs).1, (cPut t r z put d a e vs).2.2) := by
  induction vs generalizing d a e with
  | nil => exact .inl (.refl t d)
  | cons v vs ih =>
    unfold cPut
    dsimp only
    split
    · next h =>
      have hread : TxnFrame t d _ := .of_any fun _ => encScale_frame' h
      split
      · next hc =>
        subst hc
        exact .inr ⟨rfl, hread.scaleEnded (scaleEnded_partRun ..)⟩
      · exact .inl hread
    · next h =>
      have hread : TxnFrame t d _ := .of_any fun _ => encScale_frame' h
      split
      · next hw =>
        refine .inl (hread.trans ?_)
        split at hw
        · exact writeAt_txnFrame' hw
        · cases hw
      · next hw =>
        refine .frame_left (hread.trans ?_) (ih ..)
        split at hw
        · exact writeAt_txnFrame' hw
        · cases hw; exact .refl ..

theorem putCopy_out (d : Dev) (t : Nat) (r : RunOp) (lo : Nat) (ws : List F32) : ChunkOut t d (putCopy d t r lo ws) := by
  unfold putCopy
  dsimp only
  split
  · exact .inl (.refl t d)
  · refine ChunkOut.andThen (.frame_right (cPut_out ..) (.of_onRun _ _ fun _ => ⟨⟨rfl, rfl, rfl, rfl, rfl⟩, rfl⟩)) fun d1 => .inl ?_
    split
    · exact writeSide_txnFrame ..
    · exact .refl t d1

theorem applyUpdate_out (d : Dev) (t : Nat) (r : RunOp) (lo n : Nat) : ChunkOut t d (applyUpdate d t r lo n) := by
  unfold applyUpdate
  dsimp only
  split
  · next h => exact .inl (.of_quiet (bValsAll_quiet h))
  · next h =>
    refine ChunkOut.andThen (.inl ((((TxnFrame.of_quiet (bValsAll_quiet h)).trans (.of_counts _ _)).trans (.of_onTxn _ _ ?_)).trans
      (putMoments_txnFrame ..))) fun d1 => ChunkOut.andThen (.inl ?_) fun d2 =>
      ChunkOut.andThen (.inl (bPut_txnFrame ..)) fun d3 => putCopy_out ..
    · exact fun _ => rfl
    · split
      · exact putMoments_txnFrame ..
      · exact .refl t d1

theorem applyOuter_out (d : Dev) (t : Nat) (r : RunOp) (lo n : Nat) : ChunkOut t d (applyOuter d t r lo n) := by
  unfold applyOuter
  dsimp only
  split
  · next h => exact .inl (.of_quiet (bValsAll_quiet h))
  · next h =>
    exact .frame_left ((TxnFrame.of_quiet (bValsAll_quiet h)).trans (.of_counts ..))
      (ChunkOut.andThen (.inl (bPut_txnFrame ..)) fun d1 => ChunkOut.andThen (.inl (bPut_txnFrame ..)) fun d2 =>
        ChunkOut.andThen (.inl (bPut_txnFrame ..)) fun d3 => putCopy_out ..)

theorem replacePair_txnFrame (t : Nat) (r : RunOp) (lo n : Nat) (p : Nat × Nat) (d : Dev) :
    TxnFrame t d (if bHas r.q.desc p.1 then replaceOne d t r (bTd r.tds p.1) (bTd r.tds p.2) lo n else (d, none)).1 := by
  split
  · exact replaceOne_txnFrame ..
  · exact .refl t d

theorem applyReplace_out (d : Dev) (t : Nat) (r : RunOp) (lo n : Nat) : ChunkOut t d (applyReplace d t r lo n) := by
  unfold applyReplace
  dsimp only [List.foldl]
  have pair := replacePair_txnFrame t r lo n
  refine ChunkOut.andThen (.inl (TxnFrame.andThen (TxnFrame.andThen (TxnFrame.andThen (.refl t d) (pair (1, 5))) (pair (2, 6)))
    (pair (0, 4)))) fun d1 => ?_
  split
  · split
    · next h => exact .inl (.of_quiet (bVals_quiet h))
    · next h => exact .frame_left (.of_quiet (bVals_quiet h)) (putCopy_out ..)
  · exact .inl (.refl t d1)

/-- The new state of some elements comes out in the transaction's frame, or the operation has ended at a bad scale. -/
theorem applyElems_out (d : Dev) (t : Nat) (r : RunOp) (lo n : Nat) : ChunkOut t d (applyElems d t r lo n) := by
  unfold applyElems
  split
  · exact .inl (.refl t d)
  · split
    · exact applyUpdate_out ..
    · exact applyOuter_out ..
    · exact applyReplace_out ..

end Sys2Proof.Machine
end

section
/-! The steps of a Blocker transaction (R226, R306, R308): its operation goes on, fails, or ends. -/

namespace Sys2Proof.Machine

/-! ### The operation after a step -/

/-- The operation r of the Blocker of tile t is r' after a step, with its descriptor and tensors; the tile's other engines stay. -/
structure RunGoes (t : Nat) (d d' : Dev) (r r' : RunOp) : Prop where
  run : runOf d' t .blocker = some r'
  q : r'.q = r.q
  tds : r'.tds = r.tds
  engines : ∀ f, f ≠ .blocker → engineOf d' t f = engineOf d t f

/-- Engines that stay keep the operation. -/
theorem RunGoes.of_engines {t : Nat} {d d' : Dev} {r : RunOp} (hrun : runOf d t .blocker = some r)
    (h : ∀ f, engineOf d' t f = engineOf d t f) : RunGoes t d d' r r :=
  ⟨(congrArg Engine.run (h .blocker)).trans hrun, rfl, rfl, fun f _ => h f⟩

section
variable {t : Nat} {d d' : Dev} {r r' : RunOp} (h : RunGoes t d d' r r')
include h

theorem RunGoes.onRun {f : RunOp → RunOp} (hf : (f r').q = r'.q ∧ (f r').tds = r'.tds) :
    RunGoes t d (onRun d' t .blocker f) r (f r') :=
  ⟨by rw [runOf_onRun, h.run]; rfl, hf.1.trans h.q, hf.2.trans h.tds, fun g hg => (engineOf_onEngine_ne _ _ _ hg).trans (h.engines g hg)⟩

theorem RunGoes.onTxn (f : Txn → Txn) :
    RunGoes t d (onTxn d' t f) r { r' with work := { r'.work with txn := f r'.work.txn } } := h.onRun ⟨rfl, rfl⟩

/-- A transaction that cannot complete has a status for its rollback. -/
theorem RunGoes.txnFail (c : Code) : ∃ r'', RunGoes t d (txnFail d' t c) r r'' ∧ r''.ended = r'.ended ∧ ∃ c, r''.work.txn.fail = some c := by
  refine ⟨_, h.onTxn _, rfl, ?_⟩
  dsimp only
  cases r'.work.txn.fail with
  | none => exact ⟨c, rfl⟩
  | some c' => exact ⟨c', rfl⟩

theorem RunGoes.onlyMem {d'' : Dev} (hm : OnlyMem d' d'') : RunGoes t d d'' r r' := by
  have hengine : ∀ f, engineOf d'' t f = engineOf d' t f := fun f => by unfold engineOf tileOf; rw [hm]
  exact ⟨(congrArg Engine.run (hengine .blocker)).trans h.run, h.q, h.tds, fun f hf => (hengine f).trans (h.engines f hf)⟩

end

/-- Work in the transaction's frame. -/
theorem TxnFrame.goes {t : Nat} {d d' : Dev} (h : TxnFrame t d d') {r : RunOp} (hrun : runOf d t .blocker = some r) :
    ∃ r', RunGoes t d d' r r' ∧ r'.ended = r.ended ∧ r'.work.txn.core = r.work.txn.core := by
  obtain ⟨r', hrun', hq, htds, -, hend, -⟩ := h.run r hrun
  exact ⟨r', ⟨hrun', hq, htds, h.engines⟩, hend, h.txn r r' hrun hrun'⟩

/-- What `core` keeps of a transaction. -/
theorem Txn.core_eq {x y : Txn} (h : x.core = y.core) :
    x.fail = y.fail ∧ x.applied = y.applied ∧ x.hand = y.hand ∧ x.started = y.started ∧ x.front = y.front :=
  ⟨congrArg (·.fail) h, congrArg (·.applied) h, congrArg (·.hand) h, congrArg (·.started) h, congrArg (·.front) h⟩

theorem liveTxn_of {d : Dev} {t phase : Nat} {r : RunOp} (hrun : runOf d t .blocker = some r) (hbegun : r.begun = true)
    (hend : r.ended = none) (hphase : r.work.txn.phase = phase) (hfail : r.work.txn.fail = none) : liveTxn d t phase = some r := by
  unfold liveTxn
  rw [hrun]
  exact if_pos ⟨hbegun, hend, hphase, hfail⟩

theorem cutsOf_some {d : Dev} {t : Nat} {r : RunOp} {cuts : List (Nat × Nat)} (h : r.work.txn.cuts = some cuts) :
    cutsOf d t r = some cuts := by
  unfold cutsOf
  rw [h]

/-! ### The wait basin (R226, R316) -/

/-- The basin's bytes of tile t in its polder's share, written with free values. -/
def basinFill (d : Dev) (t : Nat) (px : Polder) : Dev := churn d { cls := 3 } (t * 2 ^ 20 + px.basinOfs t) (px.wslots * px.wsize)

theorem engineOf_onBasin (d : Dev) (t : Nat) (g : List BasinSlot → List BasinSlot) (f : EngineId) :
    engineOf (onBasin d t g) t f = engineOf d t f := engineOf_onTile rfl f

theorem basinOf_onlyMem {d d' : Dev} (h : OnlyMem d d') (t : Nat) : basinOf d' t = basinOf d t := by
  unfold basinOf tileOf
  rw [h]

/-- A chunk gets the slot that it holds, or a free one; the slot is as f has it, and no other slot of another chunk changes. -/
theorem takeBasin_cases {d : Dev} {t : Nat} {px : Polder} {srec chunk : Nat} {f : BasinSlot → BasinSlot}
    (h : (∃ b ∈ basinOf d t, b.shard = srec ∧ b.chunk = chunk) ∨ (basinOf d t).length < px.wslots) :
    ∃ g, takeBasin d t px srec chunk f = some (basinFill (onBasin d t g) t px) ∧
      ∃ b, f b ∈ g (basinOf d t) ∧ b.shard = srec ∧ b.chunk = chunk := by
  unfold takeBasin
  dsimp only
  by_cases hmine : ((basinOf d t).any fun s => s.shard = srec && s.chunk = chunk) = true
  · rw [if_pos hmine]
    refine ⟨_, rfl, ?_⟩
    obtain ⟨b, hb, hbm⟩ := List.any_eq_true.1 hmine
    have hown : b.shard = srec ∧ b.chunk = chunk := by simpa using hbm
    exact ⟨b, List.mem_map.2 ⟨b, hb, if_pos hbm⟩, hown⟩
  · rw [if_neg hmine]
    have hfree : (basinOf d t).length < px.wslots := by
      rcases h with ⟨b, hb, hs, hc⟩ | h
      · exact absurd (List.any_eq_true.2 ⟨b, hb, by simp [hs, hc]⟩) hmine
      · exact h
    rw [if_pos hfree]
    exact ⟨_, rfl, ⟨srec, chunk, false, false⟩, by simp, rfl, rfl⟩

theorem basinFill_onlyMem (d : Dev) (t : Nat) (px : Polder) : OnlyMem d (basinFill d t px) := churn_onlyMem ..

/-! ### A chunk's start (R226, step 2 of R306) -/

theorem memRead_onlyMem' {d d' : Dev} {acc : Acc} {a n : Nat} {x : Except Code (List Byte)} (h : memRead d acc a n = (d', x)) :
    OnlyMem d d' := by
  have := memRead_onlyMem d acc a n
  rwa [h] at this

theorem memWrite_onlyMem' {d d' : Dev} {acc : Acc} {a : Nat} {bs : List Byte} {x : Option Code} (h : memWrite d acc a bs = (d', x)) :
    OnlyMem d d' := by
  have := memWrite_onlyMem d acc a bs
  rwa [h] at this

/-- Two steps on memory in turn. -/
theorem andThen_onlyMem {d : Dev} {p : Dev × Option Code} {f : Dev → Dev × Option Code} (h : OnlyMem d p.1)
    (hf : ∀ d1, OnlyMem d1 (f d1).1) : OnlyMem d (andThen p f).1 := by
  obtain ⟨d1, c⟩ := p
  cases c with
  | none => exact h.trans (hf d1)
  | some c => exact h

theorem readRuns_onlyMem {acc : Acc} {l : List (Nat × Nat)} {d d' : Dev} {x : Except Code (List Byte)}
    (h : readRuns acc d l = (d', x)) : OnlyMem d d' := by
  induction l generalizing d d' x with
  | nil => cases h; exact .refl d
  | cons p l ih =>
    unfold readRuns at h
    split at h
    · next hr => cases h; exact memRead_onlyMem' hr
    · next hr =>
      split at h
      · next hl => cases h; exact (memRead_onlyMem' hr).trans (ih hl)
      · exact (memRead_onlyMem' hr).trans (ih h)

theorem preimage_onlyMem (d : Dev) (acc : Acc) (px : Polder) (x : BitVec 1024) (tds : List TDesc) (tx : Txn) (j : Nat) :
    OnlyMem d (preimage d acc px x tds tx j).1 := by
  unfold preimage
  split
  · next h => exact readRuns_onlyMem h
  · next h => exact andThen_onlyMem ((readRuns_onlyMem h).trans (memWrite_onlyMem ..)) fun d1 => memWrite_onlyMem ..

theorem preimages_onlyMem (acc : Acc) (px : Polder) (r : RunOp) (f : Nat) (d : Dev) (j : Nat) :
    OnlyMem d (preimages acc px r f d j).1 := by
  induction f generalizing d j with
  | zero => exact .refl d
  | succ f ih => exact andThen_onlyMem (preimage_onlyMem ..) fun d1 => ih d1 (j + 1)

/-- The journal blocks that have pre-images once the chunk that ends at hi has started. -/
def preUpto (r : RunOp) (hi : Nat) : Nat :=
  if chunkEnd (bCount r.q.desc r.tds) hi ≤ r.work.txn.front then r.work.txn.pre
  else ceilDiv (chunkEnd (bCount r.q.desc r.tds) hi) jBlk

/-- The chunk's start once it has its slot: the pre-images, and the chunk in hand. -/
def chunkBegin (d : Dev) (t : Nat) (px : Polder) (r : RunOp) (cuts : List (Nat × Nat)) (hi : Nat) : Dev :=
  match preimages (runAcc d t r) px r (preUpto r hi - r.work.txn.pre) d r.work.txn.pre with
  | (d, some c) => txnFail d t c
  | (d, none) => onTxn d t fun y => { y with
      cuts := some cuts, pre := max r.work.txn.pre (preUpto r hi), started := r.work.txn.started + 1, hand := true }

/-- A chunk starts whose gradient and state are there. -/
structure ChunkReady (d : Dev) (t : Nat) (r : RunOp) (px : Polder) (cuts : List (Nat × Nat)) (no hi : Nat) : Prop where
  live : liveTxn d t 1 = some r
  polder : polderOf d (runPolder d t r) = some px
  hand : r.work.txn.hand = false
  known : r.work.txn.cuts = some cuts
  chunk : cuts[r.work.txn.started]? = some (no, hi)
  grad : gradReady d t r no = true
  state : stateInDdr r.q.desc r.tds = false ∨ px.wslots = 0 ∨
    ∃ b ∈ basinOf d t, b.shard = bSrec r.q.desc ∧ b.chunk = r.work.txn.started ∧ b.state = true

theorem chunkUpdate_of {d : Dev} {t : Nat} {r : RunOp} {px : Polder} {cuts : List (Nat × Nat)} {no hi : Nat}
    (h : ChunkReady d t r px cuts no hi) {d1 : Dev}
    (hslot : (if basinSlots px r = 0 then some d
      else takeBasin d t px (bSrec r.q.desc) r.work.txn.started fun s => { s with grad := true }) = some d1) :
    chunkUpdate d t = chunkBegin d1 t px r cuts hi := by
  obtain ⟨hlive, hpol, hhand, hcuts, hchunk, hgrad, hstate⟩ := h
  have hstateOk : (!stateInDdr r.q.desc r.tds || decide (px.wslots = 0) ||
      (basinOf d t).any fun s => decide (s.shard = bSrec r.q.desc) && decide (s.chunk = r.work.txn.started) && s.state) = true := by
    rcases hstate with h | h | ⟨b, hb, h1, h2, h3⟩
    · simp [h]
    · simp [h]
    · rw [Bool.or_eq_true]
      exact .inr (List.any_eq_true.2 ⟨b, hb, by simp [h1, h2, h3]⟩)
  unfold chunkUpdate
  rw [hlive]
  dsimp only
  rw [hpol, cutsOf_some hcuts]
  dsimp only
  rw [hchunk]
  dsimp only
  rw [hstateOk, hgrad, hhand, hslot]
  simp only [Bool.false_eq_true, Bool.not_true, or_self, if_false]
  rfl

/-- A chunk's start takes it in hand, or the transaction cannot complete. -/
theorem chunkBegin_goes {d d1 : Dev} {t : Nat} {px : Polder} {r : RunOp} {cuts : List (Nat × Nat)} {hi : Nat}
    (h : RunGoes t d d1 r r) (hend : r.ended = none) :
    ∃ r', RunGoes t d (chunkBegin d1 t px r cuts hi) r r' ∧ r'.ended = none ∧ ((∃ c, r'.work.txn.fail = some c) ∨
      r'.work.txn = { r.work.txn with
        cuts := some cuts, pre := max r.work.txn.pre (preUpto r hi), started := r.work.txn.started + 1, hand := true }) := by
  have hpre := preimages_onlyMem (runAcc d1 t r) px r (preUpto r hi - r.work.txn.pre) d1 r.work.txn.pre
  unfold chunkBegin
  split <;> rename_i hp <;> rw [hp] at hpre
  · obtain ⟨r', hgoes, hend', hfail⟩ := (h.onlyMem hpre).txnFail _
    exact ⟨r', hgoes, hend'.trans hend, .inl hfail⟩
  · exact ⟨_, (h.onlyMem hpre).onTxn _, hend, .inr rfl⟩

/-- The slot that a chunk's start takes, where one serves the operation (R226, R294). -/
theorem slot_taken {d : Dev} {t : Nat} {px : Polder} {r : RunOp} (hrun : runOf d t .blocker = some r)
    (h : basinSlots px r = 0 ∨ (∃ b ∈ basinOf d t, b.shard = bSrec r.q.desc ∧ b.chunk = r.work.txn.started) ∨
      (basinOf d t).length < px.wslots) :
    ∃ d1, (if basinSlots px r = 0 then some d
      else takeBasin d t px (bSrec r.q.desc) r.work.txn.started fun s => { s with grad := true }) = some d1 ∧ RunGoes t d d1 r r := by
  by_cases h0 : basinSlots px r = 0
  · exact ⟨d, if_pos h0, .of_engines hrun fun _ => rfl⟩
  · obtain ⟨g, htake, -⟩ := takeBasin_cases (f := fun s => { s with grad := true }) (h.resolve_left h0)
    exact ⟨_, (if_neg h0).trans htake, (RunGoes.of_engines hrun (engineOf_onBasin d t g)).onlyMem (basinFill_onlyMem ..)⟩

/-! ### The new state of a chunk (step 3 of R306) -/

/-- Work that met a status leaves the operation ended at a bad scale, or its transaction unable to complete. -/
theorem stopped_goes {t : Nat} {d d1 : Dev} {r : RunOp} {c : Code} (h : ChunkOut t d (d1, some c)) (hrun : runOf d t .blocker = some r)
    (hend : r.ended = none) : ∃ r', RunGoes t d (stopped d1 t c) r r' ∧
      (r'.ended = some ⟨.inPart, 0x0405⟩ ∨ (r'.ended = none ∧ ∃ c, r'.work.txn.fail = some c)) := by
  unfold stopped
  rcases h with h | ⟨-, h⟩
  · obtain ⟨r1, hgoes, hend1, -⟩ := h.goes hrun
    rw [hend] at hend1
    simp only [hgoes.run, hend1, Option.isSome_none, Bool.false_eq_true, if_false]
    obtain ⟨r2, hgoes2, hend2, hfail⟩ := hgoes.txnFail c
    exact ⟨r2, hgoes2, .inr ⟨hend2.trans hend1, hfail⟩⟩
  · obtain ⟨r1, hrun1, hq, htds, hend1⟩ := h.run r hrun hend
    simp only [hrun1, hend1, Option.isSome_some, if_true]
    obtain ⟨r2, hgoes2, hend2, -⟩ := (mergeCopy_txnFrame d1 t r1).goes hrun1
    exact ⟨r2, ⟨hgoes2.run, hgoes2.q.trans hq, hgoes2.tds.trans htds, fun f hf => (hgoes2.engines f hf).trans (h.engines f hf)⟩,
      .inl (hend2.trans hend1)⟩

/-- The end element of the chunk in hand. -/
def handEnd (r : RunOp) : Nat :=
  chunkEnd (bCount r.q.desc r.tds) (((r.work.txn.cuts.getD []).getD (r.work.txn.started - 1) (0, 0)).2)

/-- The chunk in hand applied. -/
def chunkDone (d : Dev) (t : Nat) (r : RunOp) : Dev :=
  count (onTxn d t fun y => { y with hand := false, applied := y.applied + 1, front := max y.front (handEnd r) }) 0 t 0x300
    (handEnd r - r.work.txn.front) (some (runPolder d t r))

theorem chunkDone_goes {t : Nat} {d d1 : Dev} {r r1 : RunOp} (h : RunGoes t d d1 r r1) :
    RunGoes t d (chunkDone d1 t r) r { r1 with work := { r1.work with txn := { r1.work.txn with
      hand := false, applied := r1.work.txn.applied + 1, front := max r1.work.txn.front (handEnd r) } } } :=
  (h.onTxn _).onlyMem (count_onlyMem ..)

/-- The chunk in hand is applied, fails, or ends the operation at a scale that R44 rejects. -/
theorem chunkApply_goes {t : Nat} {d : Dev} {r : RunOp} (hlive : liveTxn d t 1 = some r) (hrun : runOf d t .blocker = some r)
    (hend : r.ended = none) (hfail : r.work.txn.fail = none) (hhand : r.work.txn.hand = true) :
    ∃ r', RunGoes t d (chunkApply d t) r r' ∧ (r'.ended = some ⟨.inPart, 0x0405⟩ ∨ (r'.ended = none ∧ ∃ c, r'.work.txn.fail = some c) ∨
      (r'.ended = none ∧ r'.work.txn.fail = none ∧ r'.work.txn.applied = r.work.txn.applied + 1 ∧ r'.work.txn.hand = false ∧
        r'.work.txn.started = r.work.txn.started ∧ r.work.txn.front ≤ r'.work.txn.front)) := by
  have stop {d2 : Dev} {c : Code} (h : ChunkOut t d (d2, some c)) : ∃ r', RunGoes t d (stopped d2 t c) r r' ∧
      (r'.ended = some ⟨.inPart, 0x0405⟩ ∨ (r'.ended = none ∧ ∃ c, r'.work.txn.fail = some c) ∨
      (r'.ended = none ∧ r'.work.txn.fail = none ∧ r'.work.txn.applied = r.work.txn.applied + 1 ∧ r'.work.txn.hand = false ∧
        r'.work.txn.started = r.work.txn.started ∧ r.work.txn.front ≤ r'.work.txn.front)) := by
    obtain ⟨r', hgoes, hout⟩ := stopped_goes h hrun hend
    exact ⟨r', hgoes, hout.imp_right .inl⟩
  unfold chunkApply
  rw [hlive]
  dsimp only
  rw [if_neg (by simp [hhand])]
  split
  · next hb =>
    obtain ⟨r1, hgoes, hend1, -⟩ := (TxnFrame.of_quiet (badMoment_quiet hb)).goes hrun
    obtain ⟨r2, hgoes2, hend2, hfail2⟩ := hgoes.txnFail _
    exact ⟨r2, hgoes2, .inr (.inl ⟨(hend2.trans hend1).trans hend, hfail2⟩)⟩
  · next d1 b hb =>
    have hout := ChunkOut.frame_left (.of_quiet (badMoment_quiet hb)) (applyElems_out d1 t r r.work.txn.front (32 * b - r.work.txn.front))
    split <;> rename_i he <;> rw [he] at hout
    · exact stop hout
    · refine stop (.inr ⟨rfl, TxnFrame.scaleEnded ?_ (scaleEnded_partRun ..)⟩)
      exact hout.resolve_right fun h => by cases h.1
  · next d1 hb =>
    have hout := ChunkOut.frame_left (.of_quiet (badMoment_quiet hb)) (applyElems_out d1 t r r.work.txn.front (handEnd r - r.work.txn.front))
    rw [handEnd] at hout
    split <;> rename_i he <;> rw [he] at hout
    · exact stop hout
    · have hframe := hout.resolve_right fun h => by cases h.1
      obtain ⟨r1, hgoes, hend1, hcore⟩ := hframe.goes hrun
      obtain ⟨cfail, capplied, chand, cstarted, cfront⟩ := Txn.core_eq hcore
      refine ⟨_, chunkDone_goes hgoes, .inr (.inr ⟨hend1.trans hend, cfail.trans hfail, ?_, rfl, cstarted, ?_⟩)⟩
      · exact congrArg (· + 1) capplied
      · rw [← cfront]
        exact Nat.le_max_left ..

end Sys2Proof.Machine
end

section
/-! The ends of a Blocker transaction (steps 4 and 5 of R306, R308): the record COMMITTED, the operation COMMITTED with its records
closed, or rolled back. -/

namespace Sys2Proof.Machine

/-! ### Records (R304) -/

theorem txnRec_length (x : BitVec 1024) (tx : Txn) (state n : Nat) : (txnRec x tx state n).length = 64 := by
  simp [txnRec, recBytes, toBytes_length]

theorem wordWrite_addrMap (d : Dev) (acc : Acc) (k a o : Nat) (bs : List Byte) :
    addrMap (wordWrite d acc k a o bs).mem = addrMap d.mem := by
  unfold wordWrite
  split
  · rfl
  · split
    · exact (markRow_addrMap ..).trans (eccNote_addrMap ..)
    · rfl
    · rfl
    · exact wordRead_addrMap ..

theorem wordsWrite_addrMap (d : Dev) (acc : Acc) (n a : Nat) (bs : List Byte) : addrMap (wordsWrite d acc n a bs).mem = addrMap d.mem := by
  induction n generalizing d a bs with
  | zero => rfl
  | succ n ih =>
    unfold wordsWrite
    dsimp only
    split
    · rfl
    · split
      · rfl
      · exact (ih ..).trans (wordWrite_addrMap ..)

theorem memWrite_addrMap (d : Dev) (acc : Acc) (a : Nat) (bs : List Byte) : addrMap (memWrite d acc a bs).1.mem = addrMap d.mem := by
  unfold memWrite
  split
  · rfl
  · split
    · rfl
    · exact wordsWrite_addrMap ..

/-- No write of memory moves an address. -/
theorem place_memWrite (d : Dev) (acc : Acc) (a : Nat) (bs : List Byte) (b : Nat) : place (memWrite d acc a bs).1 b = place d b :=
  place_of_addrMap (memWrite_onlyMem ..) (memWrite_addrMap ..) b

/-- A record of 64 B written where memory is present. -/
theorem record_restored {d d' : Dev} {a : Nat} {bs : List Byte} (acc : Acc) (hp : ∀ b, place d' b = place d b)
    (hr : rangeErr d a 64 = none) (ha : a % 64 = 0) (hl : bs.length = 64) : Restored d' a bs (memWrite d' acc a bs).1 :=
  memWrite_restored (k := 8) acc (by omega) hl (by rw [hl, rangeErr_congr hp]; exact hr)

theorem onRun_onlyTiles (d : Dev) (t : Nat) (e : EngineId) (f : RunOp → RunOp) : OnlyTiles d (onRun d t e f) := onEngine_onlyTiles ..

/-! ### COMMITTED (step 4) -/

/-- The record becomes COMMITTED: its 64 B are written, no byte elsewhere changes, and the transaction's phase moves on. -/
theorem txnCommit_of {d : Dev} {t : Nat} {r : RunOp} {px : Polder} {cuts : List (Nat × Nat)} (hlive : liveTxn d t 1 = some r)
    (hrun : runOf d t .blocker = some r) (hpol : polderOf d (runPolder d t r) = some px) (hcuts : r.work.txn.cuts = some cuts)
    (hall : cuts.length ≤ r.work.txn.started) (hhand : r.work.txn.hand = false) (hopen : openReqs d t r.q.slot = [])
    (hr : rangeErr d (recAddr px r.work.txn.slot) 64 = none) (ha : recAddr px r.work.txn.slot % 64 = 0) :
    RunGoes t d (txnCommit d t) r { r with work := { r.work with txn := { r.work.txn with phase := 2 } } } ∧
      bytesAt (txnCommit d t) (recAddr px r.work.txn.slot) 64 =
        txnRec r.q.desc r.work.txn 2 (nBlocks (bCount r.q.desc r.tds)) ∧
      ∀ a, a < recAddr px r.work.txn.slot ∨ recAddr px r.work.txn.slot + 64 ≤ a → byteAt (txnCommit d t) a = byteAt d a := by
  have hl := txnRec_length r.q.desc r.work.txn 2 (nBlocks (bCount r.q.desc r.tds))
  have hstored := record_restored (runAcc d t r) (fun _ => rfl) hr ha hl
  have hpresent := memWrite_present (runAcc d t r) (bs := txnRec r.q.desc r.work.txn 2 (nBlocks (bCount r.q.desc r.tds)))
    (by rw [hl]; exact hr)
  have heq : txnCommit d t = onTxn (memWrite d (runAcc d t r) (recAddr px r.work.txn.slot)
      (txnRec r.q.desc r.work.txn 2 (nBlocks (bCount r.q.desc r.tds)))).1 t fun y => { y with phase := 2 } := by
    unfold txnCommit
    rw [hlive]
    dsimp only
    rw [hcuts, hpol]
    dsimp only
    rw [if_neg (by simp [hhand, hopen, hall]), hpresent]
  have htiles := onRun_onlyTiles (memWrite d (runAcc d t r) (recAddr px r.work.txn.slot)
      (txnRec r.q.desc r.work.txn 2 (nBlocks (bCount r.q.desc r.tds)))).1 t .blocker fun r => { r with work := { r.work with
        txn := { r.work.txn with phase := 2 } } }
  rw [heq]
  refine ⟨((RunGoes.of_engines hrun fun _ => rfl).onlyMem (memWrite_onlyMem ..)).onTxn _, ?_, fun a h => ?_⟩
  · exact (htiles.bytesAt ..).trans (hl ▸ hstored.bytesAt)
  · exact (htiles.byteAt a).trans (hstored.outside a (by rwa [hl]))

/-! ### CLOSED (step 5) -/

/-- The device before the two records of the end: the working copy's maxima and counts, and the norm record. -/
def closeNorm (d : Dev) (t : Nat) (r : RunOp) : Dev :=
  let d1 := mergeCopy d t r
  if dOpcode r.q.desc = 1 then
    putNorm d1 t (runAcc d t r) r.q.desc (rowsum r.work.txn.g2) (rowsum r.work.txn.w2) (rowsum r.work.txn.u2) r.work.txn.nonfin
  else d1

/-- The shard record closed with its new counts. -/
def closeShard (d : Dev) (t : Nat) (r : RunOp) : Dev :=
  (memWrite (closeNorm d t r) (runAcc d t r) (bSrec r.q.desc) (toBytes 64 (srecWord r.work.txn.n (bLayer r.q.desc) r.work.txn.cstep
    r.work.txn.txid r.work.txn.epoch false))).1

/-- The record CLOSED. -/
def closeRec (d : Dev) (t : Nat) (r : RunOp) (px : Polder) : Dev :=
  (memWrite (closeShard d t r) (runAcc d t r) (recAddr px r.work.txn.slot)
    (txnRec r.q.desc r.work.txn 3 (nBlocks (bCount r.q.desc r.tds)))).1

/-- The counts of a REPLACE's tally. -/
def closeCounts (d : Dev) (t : Nat) (r : RunOp) (px : Polder) : Dev :=
  onRun (closeRec d t r px) t .blocker fun y =>
    if dOpcode r.q.desc = 5 then { y with counts := { y.counts with nf := 0, tg := 0 } } else y

theorem txnClose_of {d : Dev} {t : Nat} {r : RunOp} {px : Polder} (hlive : liveTxn d t 2 = some r)
    (hpol : polderOf d (runPolder d t r) = some px) :
    txnClose d t = endRun (closeCounts d t r px) t .blocker .committed 0 (bCount r.q.desc r.tds) := by
  unfold txnClose
  rw [hlive]
  dsimp only
  rw [hpol]
  rfl

theorem closeCounts_frame (d : Dev) (t : Nat) (r : RunOp) (px : Polder) : TxnFrame t d (closeCounts d t r px) := by
  have hnorm : TxnFrame t d (closeNorm d t r) := by
    unfold closeNorm putNorm
    dsimp only
    split
    · exact (mergeCopy_txnFrame ..).trans (.of_onlyMem (memWrite_onlyMem ..))
    · exact mergeCopy_txnFrame ..
  refine ((hnorm.trans (.of_onlyMem (memWrite_onlyMem ..))).trans (.of_onlyMem (memWrite_onlyMem ..))).trans (.of_onRun _ _ fun y => ?_)
  split <;> exact ⟨⟨rfl, rfl, rfl, rfl, rfl⟩, rfl⟩

theorem mergeCopy_onlyTiles (d : Dev) (t : Nat) (r : RunOp) : OnlyTiles d (mergeCopy d t r) := by
  have hpend (l : List (Nat × F32)) (td : TDesc) (d : Dev) :
      OnlyTiles d (l.foldl (fun d p => mergePend d t (tSrefReg td + p.1) p.2) d) := by
    induction l generalizing d with
    | nil => exact .refl d
    | cons p l ih => exact OnlyTiles.trans (onTile_onlyTiles ..) (ih _)
  have hcopy : OnlyTiles d (copyCounts d t (bTd r.tds 3) r.work.enc) := by
    unfold copyCounts
    dsimp only
    split
    · exact (onRun_onlyTiles ..).trans (hpend ..)
    · exact onRun_onlyTiles ..
  unfold mergeCopy
  dsimp only
  split
  · exact .refl d
  · split
    · exact hcopy
    · exact hcopy.trans (count_onlyTiles ..)

theorem place_closeNorm (d : Dev) (t : Nat) (r : RunOp) (a : Nat) : place (closeNorm d t r) a = place d a := by
  unfold closeNorm putNorm
  dsimp only
  split
  · exact (place_memWrite ..).trans ((mergeCopy_onlyTiles ..).place a)
  · exact (mergeCopy_onlyTiles ..).place a

/-- At the end both records stand as R306 has them. -/
theorem txnClose_records {d : Dev} {t : Nat} {r : RunOp} {px : Polder} (hlive : liveTxn d t 2 = some r)
    (hpol : polderOf d (runPolder d t r) = some px) (hrec : rangeErr d (recAddr px r.work.txn.slot) 64 = none)
    (harec : recAddr px r.work.txn.slot % 64 = 0) (hsrec : rangeErr d (bSrec r.q.desc) 64 = none) (hasrec : bSrec r.q.desc % 64 = 0)
    (hne : bSrec r.q.desc + 64 ≤ recAddr px r.work.txn.slot ∨ recAddr px r.work.txn.slot + 64 ≤ bSrec r.q.desc) :
    bytesAt (txnClose d t) (recAddr px r.work.txn.slot) 64 = txnRec r.q.desc r.work.txn 3 (nBlocks (bCount r.q.desc r.tds)) ∧
      bytesAt (txnClose d t) (bSrec r.q.desc) 64 = toBytes 64 (srecWord r.work.txn.n (bLayer r.q.desc) r.work.txn.cstep
        r.work.txn.txid r.work.txn.epoch false) := by
  have hshard : Restored (closeNorm d t r) (bSrec r.q.desc) _ (closeShard d t r) :=
    record_restored (runAcc d t r) (place_closeNorm d t r) hsrec hasrec (toBytes_length ..)
  have hclosed : Restored (closeShard d t r) (recAddr px r.work.txn.slot) _ (closeRec d t r px) :=
    record_restored (runAcc d t r) (fun b => (hshard.place b).trans (place_closeNorm d t r b)) hrec harec (txnRec_length ..)
  have htiles : OnlyTiles (closeRec d t r px) (txnClose d t) := by
    rw [txnClose_of hlive hpol]
    exact (onRun_onlyTiles ..).trans (onRun_onlyTiles ..)
  refine ⟨?_, ?_⟩
  · have := hclosed.bytesAt
    rw [txnRec_length] at this
    exact (htiles.bytesAt ..).trans this
  · have := hshard.bytesAt
    rw [toBytes_length] at this
    refine (htiles.bytesAt ..).trans (Eq.trans (List.map_congr_left fun i hi => ?_) this)
    rw [List.mem_range] at hi
    exact hclosed.outside _ (by rw [txnRec_length]; omega)

/-! ### Rolled back (R308) -/

theorem restoreRuns_onlyMem (acc : Acc) (f : Nat) (d : Dev) (bs : List Byte) : OnlyMem d (restoreRuns acc f d bs).1 := by
  induction f generalizing d bs with
  | zero => exact .refl d
  | succ f ih =>
    unfold restoreRuns
    dsimp only
    split
    · exact .refl d
    · exact andThen_onlyMem (memWrite_onlyMem ..) fun d1 => ih d1 _

theorem restoreBlock_onlyMem {d d' : Dev} {acc : Acc} {px : Polder} {x : BitVec 1024} {tds : List TDesc} {txid epoch j : Nat}
    {y : Option Bool} (h : restoreBlock d acc px x tds txid epoch j = (d', y)) : OnlyMem d d' := by
  unfold restoreBlock at h
  dsimp only at h
  split at h
  · next hr => cases h; exact memRead_onlyMem' hr
  next hr =>
  have hhead := memRead_onlyMem' hr
  split at h
  · cases h; exact hhead
  split at h
  · next hb => cases h; exact hhead.trans (memRead_onlyMem' hb)
  next d2 bs hb =>
  have hdata := hhead.trans (memRead_onlyMem' hb)
  split at h
  · cases h; exact hdata
  have hruns := restoreRuns_onlyMem acc (blockLen x tds j / 16 + 1) d2 bs
  split at h <;> (next hw => rw [hw] at hruns; cases h; exact hdata.trans hruns)

theorem restoreAll_onlyMem {acc : Acc} {px : Polder} {x : BitVec 1024} {tds : List TDesc} {txid epoch j : Nat} {d d' : Dev}
    {y : Option (List Nat)} (h : restoreAll acc px x tds txid epoch j d = (d', y)) : OnlyMem d d' := by
  induction j generalizing d d' y with
  | zero => cases h; exact .refl d
  | succ j ih =>
    unfold restoreAll at h
    split at h
    · next hb => cases h; exact restoreBlock_onlyMem hb
    · next hb =>
      split at h
      · next hl => cases h; exact (restoreBlock_onlyMem hb).trans (ih hl)
      · exact (restoreBlock_onlyMem hb).trans (ih h)

theorem remakeGo_out (t : Nat) (r : RunOp) (z : EncSet) (master : TDesc) (e : Nat) (blocks : List Nat) (f : Nat) (d : Dev) (a : EncAcc)
    (j : Nat) : ChunkOut t d ((remakeGo t r z master e blocks f d a j).1, (remakeGo t r z master e blocks f d a j).2.2) := by
  induction f generalizing d a j with
  | zero => exact .inl (.refl t d)
  | succ f ih =>
    unfold remakeGo
    split
    · exact ih ..
    · split
      · next h => exact .inl (.of_quiet (bVals_quiet h))
      · next d1 ws h =>
        have hput := ChunkOut.frame_left (.of_quiet (bVals_quiet h)) (cPut_out t r z (fun _ => true) d1 a (j * jBlk) ws)
        split <;> rename_i hc <;> rw [hc] at hput
        · exact hput
        · exact .frame_left (hput.resolve_right fun h => by cases h.1) (ih ..)

theorem remakeCopy_out (d : Dev) (t : Nat) (r : RunOp) (x : BitVec 1024) (tds : List TDesc) (snap : List F32) (blocks : List Nat) :
    ChunkOut t d (remakeCopy d t r x tds snap blocks) := by
  unfold remakeCopy
  dsimp only
  split
  · exact .inl (.refl t d)
  · refine ChunkOut.andThen (.frame_right (remakeGo_out ..) (copyCounts_txnFrame ..)) fun d1 => .inl ?_
    split
    · exact writeSide_txnFrame ..
    · exact .refl t d1

/-- How a rollback comes out: ROLLED_BACK, stuck for recovery, or stopped at a scale that R44 rejects. -/
def RollbackOut (s : State) (t : Nat) (d : Dev) (c : Code) (out : Out) : Prop :=
  OpEnds { s with dev := d } t .blocker .rolledBack c 0 out ∨ OpEnds { s with dev := d } t .blocker .inPart 0x060A 0 out ∨
    ∃ s' e, out = .next s' ∧ (runOf s'.dev t .blocker).bind RunOp.ended = some e ∧ e.st = .inPart

/-- An operation that has ended stays as it ended. -/
theorem runOf_endRun_ended {d : Dev} {t : Nat} {e : EngineId} {r : RunOp} (hrun : runOf d t e = some r) (hend : r.ended ≠ none)
    (st : TState) (c : Code) (m : Nat) : runOf (endRun d t e st c m) t e = some r := by
  rw [endRun, runOf_onRun, hrun, Option.map_some, if_neg hend]

section
variable {s : State} {t : Nat} {d : Dev} {r : RunOp} {c : Code} (hrun : runOf d t .blocker = some r) (hend : r.ended = none)
include hrun hend

theorem rollbackOut_stuck {d' : Dev} (h : TxnFrame t d d') :
    RollbackOut s t d c (.next { s with dev := partRun d' t .blocker 0x060A 0 }) :=
  .inr (.inl (h.toOpFrame.opEnds (s := { s with dev := d }) hrun hend ..))

/-- A rollback that a bad status of the working copy stops. -/
theorem rollbackOut_stopped {d' : Dev} {x : Option Code} (h : ChunkOut t d (d', x)) :
    RollbackOut s t d c (.next { s with dev := partRun d' t .blocker 0x060A 0 }) := by
  rcases h with h | ⟨-, h⟩
  · exact rollbackOut_stuck hrun hend h
  · obtain ⟨r', hrun', -, -, hend'⟩ := h.run r hrun hend
    refine .inr (.inr ⟨_, ⟨.inPart, 0x0405⟩, rfl, ?_, rfl⟩)
    dsimp only [partRun]
    rw [runOf_endRun_ended hrun' (by simp [hend'])]
    exact hend'

end

theorem startRead_onlyMem {d d' : Dev} {acc : Acc} {a n : Nat} {x : Except Code Nat} (h : startRead d acc a n = (d', x)) :
    OnlyMem d d' := by
  unfold startRead at h
  split at h <;> (next hr => cases h; exact memRead_onlyMem' hr)

theorem txnRollback_out {s : State} {t : Nat} {r : RunOp} {px : Polder} {c : Code} (hrun : runOf s.dev t .blocker = some r)
    (hbegun : r.begun = true) (hend : r.ended = none) (hpol : polderOf s.dev (runPolder s.dev t r) = some px)
    (hfail : r.work.txn.fail = some c) (hopen : openReqs s.dev t r.q.slot = []) :
    RollbackOut s t (onBasin s.dev t fun l => l.filter fun b => b.shard ≠ bSrec r.q.desc) c
      (.next { s with dev := txnRollback s.dev t }) := by
  obtain ⟨d, hd⟩ : ∃ d, d = onBasin s.dev t fun l => l.filter fun b => b.shard ≠ bSrec r.q.desc := ⟨_, rfl⟩
  have hrun' : runOf d t .blocker = some r := by rw [hd]; exact (congrArg Engine.run (engineOf_onBasin ..)).trans hrun
  unfold txnRollback
  rw [hrun]
  dsimp only
  rw [hfail, hpol]
  dsimp only
  rw [if_neg (by simp [hbegun, hend, hopen]), ← hd]
  have hmerge := (TxnFrame.of_onlyMem (count_onlyMem d 0 t 0x303 1 (some (runPolder d t r)))).trans (mergeCopy_txnFrame _ t r)
  split
  · next h => exact rollbackOut_stuck hrun' hend (hmerge.trans (.of_onlyMem (restoreAll_onlyMem h)))
  next d2 blocks h =>
  have hrestored := hmerge.trans (.of_onlyMem (restoreAll_onlyMem h))
  have hcopy := ChunkOut.frame_left hrestored (remakeCopy_out d2 t r r.q.desc r.tds (r.snaps.headD []) blocks)
  split <;> rename_i hc <;> rw [hc] at hcopy
  · exact rollbackOut_stopped hrun' hend hcopy
  have hremade := hcopy.resolve_right fun h => by cases h.1
  split
  · next h => exact rollbackOut_stuck hrun' hend (hremade.trans (.of_onlyMem (startRead_onlyMem h)))
  · next h =>
    exact .inl ((((hremade.trans (.of_onlyMem (startRead_onlyMem h))).trans (.of_onlyMem (memWrite_onlyMem ..))).trans
      (.of_onlyMem (memWrite_onlyMem ..))).toOpFrame.opEnds (s := { s with dev := d }) hrun' hend ..)

end Sys2Proof.Machine
end

section
/-! The wait basin (R226, R228, R316): fetched state arrives in a slot, or the transaction fails, and a slot is freed. -/

namespace Sys2Proof.Machine

/-! ### Memory in no error -/

/-- What a read of runs gives: each behind its run word, padded to 16 B (R305). -/
def runImages (d : Dev) (l : List (Nat × Nat)) : List Byte :=
  l.flatMap fun p => toBytes 16 (p.1 + p.2 <<< 64) ++ padTo 16 (bytesAt d p.1 p.2)

theorem memRead_absent {d : Dev} (acc : Acc) {a n : Nat} {c : Code} (h : rangeErr d a n = some c) : memRead d acc a n = (d, .error c) := by
  have hn : n ≠ 0 := fun h0 => by rw [h0] at h; cases h
  unfold memRead
  rw [if_neg hn, h]

/-- Runs are read without a change of the device. -/
theorem readRuns_same {d : Dev} (acc : Acc) (hecc : d.mem.ecc = []) (l : List (Nat × Nat)) : (readRuns acc d l).1 = d := by
  induction l with
  | nil => rfl
  | cons p l ih =>
    unfold readRuns
    cases hp : rangeErr d p.1 p.2 with
    | some c => rw [memRead_absent acc hp]
    | none =>
      rw [memRead_clean acc hp (clean_of_ecc hecc)]
      dsimp only
      split
      · next h => rwa [h] at ih
      · exact ih

/-- Runs that are present give their old values. -/
theorem readRuns_present {d : Dev} (acc : Acc) (hecc : d.mem.ecc = []) {l : List (Nat × Nat)}
    (h : ∀ p ∈ l, rangeErr d p.1 p.2 = none) : readRuns acc d l = (d, .ok (runImages d l)) := by
  induction l with
  | nil => rfl
  | cons p l ih =>
    unfold readRuns
    rw [memRead_clean acc (h p (List.mem_cons_self ..)) (clean_of_ecc hecc)]
    dsimp only
    rw [ih fun q hq => h q (List.mem_cons_of_mem _ hq)]
    rfl

theorem free_onlyMem (d : Dev) (n : Nat) : OnlyMem d { d with free := n } := rfl

theorem place_free (d : Dev) (n a : Nat) : place { d with free := n } a = place d a :=
  place_of_addrMap (free_onlyMem d n) (by rfl) a

theorem byteAt_free (d : Dev) (n a : Nat) : byteAt { d with free := n } a = byteAt d a := by unfold byteAt; rw [place_free]

theorem churn_eq (d : Dev) (acc : Acc) (a n : Nat) :
    churn d acc a n = (memWrite { d with free := d.free + n } acc a (freeBytes d n).2).1 := rfl

/-- Free bytes written where memory is in no error: nothing outside their range changes. -/
theorem churn_clean {d : Dev} (acc : Acc) (a n : Nat) (hecc : d.mem.ecc = []) :
    (churn d acc a n).mem.ecc = [] ∧ (∀ b, place (churn d acc a n) b = place d b) ∧
      ∀ b, b < a ∨ a + n ≤ b → byteAt (churn d acc a n) b = byteAt d b := by
  have hlen : (freeBytes d n).2.length = n := by simp [freeBytes]
  rw [churn_eq]
  generalize (freeBytes d n).2 = bs at hlen
  generalize d.free + n = m
  cases hr : rangeErr { d with free := m } a bs.length with
  | none =>
    obtain ⟨d', hd', hbytes, -, hout, -⟩ := memWrite_clean acc hr (clean_of_ecc hecc)
    rw [hd']
    obtain ⟨bytes, rfl⟩ := hbytes
    exact ⟨hecc, fun b => (place_withBytes ..).trans (place_free ..), fun b hb => (hout b (by rwa [hlen])).trans (byteAt_free ..)⟩
  | some c =>
    have hsame : (memWrite { d with free := m } acc a bs).1 = { d with free := m } := by
      unfold memWrite
      rw [hr]
      split <;> rfl
    rw [hsame]
    exact ⟨hecc, fun b => place_free .., fun b _ => byteAt_free ..⟩

/-- The basin filled where memory is in no error: nothing outside the basin changes. -/
theorem basinFill_clean {d : Dev} (t : Nat) (px : Polder) (hecc : d.mem.ecc = []) :
    (basinFill d t px).mem.ecc = [] ∧ (∀ a, place (basinFill d t px) a = place d a) ∧
      ∀ a, a < t * 2 ^ 20 + px.basinOfs t ∨ t * 2 ^ 20 + px.basinOfs t + px.wslots * px.wsize ≤ a →
        byteAt (basinFill d t px) a = byteAt d a := churn_clean _ _ _ hecc

/-! ### State fetched (R226) -/

/-- The arrival of chunk k's state once it has its slot. -/
def fetchInto (d : Dev) (t : Nat) (acc : Acc) (r : RunOp) (cuts : List (Nat × Nat)) (k : Nat) : Dev :=
  match readRuns acc d (chunkRuns r.q.desc r.tds cuts k) with
  | (d, .error _) => onBasin (txnFail d t 0x0312) t fun l => l.filter fun s => s.shard ≠ bSrec r.q.desc
  | (d, .ok _) => d

/-- The basin holds chunk k of a shard. -/
def BasinHolds (d : Dev) (t srec k : Nat) : Prop := ∃ b ∈ basinOf d t, b.shard = srec ∧ b.chunk = k ∧ b.state = true

theorem any_basin_iff {d : Dev} {t srec k : Nat} :
    ((basinOf d t).any fun s => decide (s.shard = srec) && decide (s.chunk = k) && s.state) = true ↔ BasinHolds d t srec k := by
  simp [BasinHolds, and_assoc]

/-- Chunk k is the next of its shard in order whose state is not there, within wslots of the oldest not applied. -/
structure FetchNext (d : Dev) (t : Nat) (r : RunOp) (px : Polder) (cuts : List (Nat × Nat)) (k : Nat) : Prop where
  known : r.work.txn.cuts = some cuts
  tier : stateInDdr r.q.desc r.tds = true
  low : r.work.txn.started ≤ k
  high : k < cuts.length
  before : ∀ j, r.work.txn.started ≤ j → j < k → BasinHolds d t (bSrec r.q.desc) j
  missing : ¬ BasinHolds d t (bSrec r.q.desc) k
  near : k < r.work.txn.applied + px.wslots

theorem stateFetch_of {d d1 : Dev} {t : Nat} {r : RunOp} {px : Polder} {cuts : List (Nat × Nat)} {k : Nat}
    (hlive : liveTxn d t 1 = some r) (hpol : polderOf d (runPolder d t r) = some px) (h : FetchNext d t r px cuts k)
    (htake : takeBasin d t px (bSrec r.q.desc) k (fun s => { s with state := true }) = some d1) :
    stateFetch d t = fetchInto d1 t { runAcc d t r with cls := 3 } r cuts k := by
  have hfind : (List.range cuts.length).find? (fun i => decide (r.work.txn.started ≤ i) &&
      !(basinOf d t).any fun s => decide (s.shard = bSrec r.q.desc) && decide (s.chunk = i) && s.state) = some k := by
    rw [List.find?_range_eq_some]
    refine ⟨?_, List.mem_range.2 h.high, fun j hj => ?_⟩
    · rw [Bool.and_eq_true, Bool.not_eq_true', ← Bool.not_eq_true, any_basin_iff]
      exact ⟨decide_eq_true h.low, h.missing⟩
    · by_cases hs : r.work.txn.started ≤ j
      · rw [any_basin_iff.2 (h.before j hs hj)]
        simp
      · simp [hs]
  unfold stateFetch
  rw [hlive]
  dsimp only
  rw [hpol, cutsOf_some h.known]
  dsimp only
  rw [hfind]
  dsimp only
  rw [if_neg (by have := h.near; simp [h.tier]; omega), htake]
  rfl

/-- The arrival leaves the transaction as it is, or makes it one that rolls back. -/
theorem fetchInto_goes {d d1 : Dev} {t : Nat} {acc : Acc} {r : RunOp} {cuts : List (Nat × Nat)} {k : Nat} (h : RunGoes t d d1 r r)
    (hfail : r.work.txn.fail = none) :
    (RunGoes t d (fetchInto d1 t acc r cuts k) r r ∧ basinOf (fetchInto d1 t acc r cuts k) t = basinOf d1 t) ∨
      ((∀ b ∈ basinOf (fetchInto d1 t acc r cuts k) t, b.shard ≠ bSrec r.q.desc) ∧
        RunGoes t d (fetchInto d1 t acc r cuts k) r { r with work := { r.work with txn := { r.work.txn with fail := some 0x0312 } } }) := by
  unfold fetchInto
  split
  · next d2 c hr =>
    have hgoes := (h.onlyMem (readRuns_onlyMem hr)).onTxn fun tx => { tx with fail := tx.fail.or (some 0x0312) }
    rw [hfail] at hgoes
    refine .inr ⟨fun b hb => ?_, (congrArg Engine.run (engineOf_onBasin ..)).trans hgoes.run, hgoes.q, hgoes.tds,
      fun f hf => (engineOf_onBasin ..).trans (hgoes.engines f hf)⟩
    rw [basinOf_onBasin] at hb
    exact of_decide_eq_true (List.mem_filter.1 hb).2
  · next d2 bs hr => exact .inl ⟨h.onlyMem (readRuns_onlyMem hr), basinOf_onlyMem (readRuns_onlyMem hr) t⟩

theorem byteAt_fetchInto {d : Dev} (t : Nat) (acc : Acc) (r : RunOp) (cuts : List (Nat × Nat)) (k : Nat) (hecc : d.mem.ecc = [])
    (a : Nat) : byteAt (fetchInto d t acc r cuts k) a = byteAt d a := by
  have hsame := readRuns_same acc hecc (chunkRuns r.q.desc r.tds cuts k)
  unfold fetchInto
  split <;> rename_i hr <;> rw [hr] at hsame <;> obtain rfl := hsame
  · exact ((onRun_onlyTiles ..).trans (onTile_onlyTiles ..)).byteAt a
  · rfl

theorem fetchInto_present {d : Dev} (t : Nat) (acc : Acc) (r : RunOp) (cuts : List (Nat × Nat)) (k : Nat) (hecc : d.mem.ecc = [])
    (h : ∀ p ∈ chunkRuns r.q.desc r.tds cuts k, rangeErr d p.1 p.2 = none) : fetchInto d t acc r cuts k = d := by
  unfold fetchInto
  rw [readRuns_present acc hecc h]

/-! ### A slot freed (R226) -/

theorem slotFree_of {d : Dev} {t : Nat} {r : RunOp} (hrun : runOf d t .blocker = some r)
    (h : ∃ b ∈ basinOf d t, b.shard = bSrec r.q.desc ∧ b.chunk < r.work.txn.applied) :
    ∃ b ∈ basinOf d t, b.shard = bSrec r.q.desc ∧ b.chunk < r.work.txn.applied ∧ slotFree d t = onBasin d t fun l => l.erase b := by
  have hsome : ((basinOf d t).find? fun s => s.shard = bSrec r.q.desc && s.chunk < r.work.txn.applied).isSome = true := by
    obtain ⟨b, hb, hs, hc⟩ := h
    exact List.find?_isSome.2 ⟨b, hb, by simp [hs, hc]⟩
  obtain ⟨b, hb⟩ := Option.isSome_iff_exists.1 hsome
  obtain ⟨hs, hc⟩ : b.shard = bSrec r.q.desc ∧ b.chunk < r.work.txn.applied := by simpa using List.find?_some hb
  refine ⟨b, List.mem_of_find?_eq_some hb, hs, hc, ?_⟩
  unfold slotFree
  rw [hrun]
  dsimp only
  rw [hb]

end Sys2Proof.Machine
end

section
/-! The commit journal's pre-images where memory is in no error (R305): each block holds the old values of its runs behind its
header, and nothing outside the blocks changes. -/

namespace Sys2Proof.Machine

/-! ### The length of a block -/

theorem total_eq_sum (l : List Nat) : total l = l.sum := by
  unfold total
  rw [List.sum_eq_foldl]

theorem padTo_length {k : Nat} (hk : 0 < k) (l : List Byte) : (padTo k l).length = ceilDiv l.length k * k := by
  have hle : l.length ≤ ceilDiv l.length k * k := by
    have := Nat.lt_div_mul_add hk (a := l.length + k - 1)
    unfold ceilDiv
    omega
  simp [padTo, zeros]
  omega

theorem runImages_length (d : Dev) (l : List (Nat × Nat)) :
    (runImages d l).length = total (l.map fun p => 16 + ceilDiv p.2 16 * 16) := by
  rw [total_eq_sum]
  induction l with
  | nil => rfl
  | cons p l ih =>
    have hpad := padTo_length (k := 16) (by decide) (bytesAt d p.1 p.2)
    rw [show (bytesAt d p.1 p.2).length = p.2 by simp [bytesAt]] at hpad
    rw [List.map_cons, List.sum_cons, ← ih]
    unfold runImages
    rw [List.flatMap_cons, List.length_append, List.length_append, toBytes_length, hpad]

theorem oldValues_length (d : Dev) (x : BitVec 1024) (tds : List TDesc) (j : Nat) :
    (oldValues d (blockRuns x tds j)).length = blockLen x tds j := by
  have hpad := padTo_length (k := 64) (by decide) (runImages d (blockRuns x tds j))
  rw [runImages_length] at hpad
  exact hpad

theorem blockPos_succ (px : Polder) (x : BitVec 1024) (tds : List TDesc) (j : Nat) :
    blockPos px x tds (j + 1) = blockPos px x tds j + blockLen x tds j + 64 := by
  unfold blockPos
  simp only [total_eq_sum, List.range_succ, List.map_append, List.sum_append, List.map_cons, List.map_nil, List.sum_cons, List.sum_nil]
  omega

theorem blockPos_mono (px : Polder) (x : BitVec 1024) (tds : List TDesc) {i j : Nat} (h : i ≤ j) :
    blockPos px x tds i ≤ blockPos px x tds j := by
  induction j with
  | zero => rw [Nat.le_zero.1 h]
  | succ j ih =>
    rcases Nat.lt_or_ge j i with hj | hj
    · rw [show i = j + 1 by omega]
    · have := ih hj
      rw [blockPos_succ]
      omega

/-! ### The pre-images -/

theorem runImages_congr {d d' : Dev} {l : List (Nat × Nat)} (h : ∀ p ∈ l, bytesAt d' p.1 p.2 = bytesAt d p.1 p.2) :
    runImages d' l = runImages d l := by
  unfold runImages
  exact List.flatMap_congr fun p hp => by rw [h p hp]

theorem oldValues_congr {d d' : Dev} {l : List (Nat × Nat)} (h : ∀ p ∈ l, bytesAt d' p.1 p.2 = bytesAt d p.1 p.2) :
    oldValues d' l = oldValues d l := congrArg (padTo 64) (runImages_congr h)

section
variable (acc : Acc) (px : Polder) (x : BitVec 1024) (tds : List TDesc) (tx : Txn)

/-- The journal block j of a device holds the old values that d has, behind their header. -/
structure BlockHolds (d : Dev) (j : Nat) (d' : Dev) : Prop where
  data : bytesAt d' (blockPos px x tds j) (blockLen x tds j) = oldValues d (blockRuns x tds j)
  header : bytesAt d' (blockPos px x tds j + blockLen x tds j) 64 = blockHdr tx.txid tx.epoch j (oldValues d (blockRuns x tds j))

/-- A block's pre-images and header are written, and nothing outside the block changes. -/
theorem preimage_clean {d : Dev} {j : Nat} (hecc : d.mem.ecc = [])
    (hpos : rangeErr d (blockPos px x tds j) (blockLen x tds j + 64) = none)
    (hruns : ∀ p ∈ blockRuns x tds j, rangeErr d p.1 p.2 = none) :
    ∃ d', preimage d acc px x tds tx j = (d', none) ∧ OnlyBytes d d' ∧ BlockHolds px x tds tx d j d' ∧
      ∀ a, a < blockPos px x tds j ∨ blockPos px x tds (j + 1) ≤ a → byteAt d' a = byteAt d a := by
  have hlen := oldValues_length d x tds j
  have hhdr : (blockHdr tx.txid tx.epoch j (oldValues d (blockRuns x tds j))).length = 64 := toBytes_length ..
  obtain ⟨d1, hw1, hs1⟩ := memWrite_clean (d := d) (a := blockPos px x tds j) (bs := oldValues d (blockRuns x tds j)) acc
    (by rw [hlen]; exact rangeErr_within hpos le_rfl (by omega)) (clean_of_ecc hecc)
  have honly : OnlyBytes d d1 := hs1.1
  obtain ⟨d2, hw2, hs2⟩ := memWrite_clean (d := d1) (a := blockPos px x tds j + (oldValues d (blockRuns x tds j)).length)
    (bs := blockHdr tx.txid tx.epoch j (oldValues d (blockRuns x tds j))) acc
    (by
      obtain ⟨m, rfl⟩ := honly
      rw [rangeErr_withBytes, hhdr]
      exact rangeErr_within hpos (by omega) (by omega)) (clean_of_ecc (honly.ecc.trans hecc))
  refine ⟨d2, ?_, honly.trans hs2.1, ⟨?_, ?_⟩, fun a ha => ?_⟩
  · unfold preimage
    rw [readRuns_present acc hecc hruns]
    change andThen (memWrite d acc (blockPos px x tds j) (oldValues d (blockRuns x tds j))) _ = _
    rw [hw1]
    exact hw2
  · refine (bytesAt_congr fun i hi => hs2.2.2.1 _ (.inl (by omega))).trans ?_
    have := hs1.bytesAt_self
    rwa [hlen] at this
  · have := hs2.bytesAt_self
    rwa [hlen, hhdr] at this
  · rw [blockPos_succ] at ha
    exact (hs2.2.2.1 a (by omega)).trans (hs1.2.2.1 a (by omega))

end

/-- The blocks from j on are written in turn where each is present and no run lies among them. -/
theorem preimages_clean (acc : Acc) (px : Polder) (r : RunOp) (f : Nat) {d : Dev} {j : Nat} (hecc : d.mem.ecc = [])
    (h : ∀ i, j ≤ i → i < j + f →
      rangeErr d (blockPos px r.q.desc r.tds i) (blockLen r.q.desc r.tds i + 64) = none ∧
        ∀ p ∈ blockRuns r.q.desc r.tds i, rangeErr d p.1 p.2 = none ∧
          (p.1 + p.2 ≤ blockPos px r.q.desc r.tds j ∨ blockPos px r.q.desc r.tds (j + f) ≤ p.1)) :
    ∃ d', preimages acc px r f d j = (d', none) ∧ OnlyBytes d d' ∧
      (∀ i, j ≤ i → i < j + f → BlockHolds px r.q.desc r.tds r.work.txn d i d') ∧
      ∀ a, a < blockPos px r.q.desc r.tds j ∨ blockPos px r.q.desc r.tds (j + f) ≤ a → byteAt d' a = byteAt d a := by
  induction f generalizing d j with
  | zero => exact ⟨d, rfl, .refl d, fun i h1 h2 => by omega, fun _ _ => rfl⟩
  | succ f ih =>
    obtain ⟨hpos, hruns⟩ := h j le_rfl (by omega)
    obtain ⟨d1, hd1, honly, hblock, hout⟩ := preimage_clean acc px r.q.desc r.tds r.work.txn hecc hpos fun p hp => (hruns p hp).1
    have hmono : blockPos px r.q.desc r.tds j ≤ blockPos px r.q.desc r.tds (j + 1) := blockPos_mono _ _ _ (by omega)
    have hmono' : blockPos px r.q.desc r.tds (j + 1) ≤ blockPos px r.q.desc r.tds (j + (f + 1)) := blockPos_mono _ _ _ (by omega)
    have hrange (a n : Nat) : rangeErr d1 a n = rangeErr d a n := by
      obtain ⟨m, rfl⟩ := honly
      exact rangeErr_withBytes ..
    have hkept : ∀ i, j ≤ i → i < j + (f + 1) → oldValues d1 (blockRuns r.q.desc r.tds i) = oldValues d (blockRuns r.q.desc r.tds i) :=
      fun i h1 h2 => oldValues_congr fun p hp => bytesAt_congr fun k hk => hout _ (by
        rcases ((h i h1 h2).2 p hp).2 with h | h
        · exact .inl (by omega)
        · exact .inr (by omega))
    obtain ⟨d2, hd2, honly2, hblocks, hout2⟩ := ih (d := d1) (j := j + 1) (honly.ecc.trans hecc) fun i h1 h2 => by
      obtain ⟨hpos', hruns'⟩ := h i (by omega) (by omega)
      rw [show j + 1 + f = j + (f + 1) by omega]
      exact ⟨(hrange ..).trans hpos', fun p hp => ⟨(hrange ..).trans (hruns' p hp).1, (hruns' p hp).2.imp_left fun h => by omega⟩⟩
    rw [show j + 1 + f = j + (f + 1) by omega] at hblocks hout2
    refine ⟨d2, ?_, honly.trans honly2, fun i h1 h2 => ?_, fun a ha => ?_⟩
    · unfold preimages
      rw [hd1]
      exact hd2
    · rcases Nat.eq_or_lt_of_le h1 with rfl | h1
      · have hmine := blockPos_succ px r.q.desc r.tds j
        exact ⟨(bytesAt_congr fun k hk => hout2 _ (.inl (by omega))).trans hblock.data,
          (bytesAt_congr fun k hk => hout2 _ (.inl (by omega))).trans hblock.header⟩
      · obtain ⟨hdata, hheader⟩ := hblocks i h1 h2
        rw [hkept i (by omega) h2] at hdata hheader
        exact ⟨hdata, hheader⟩
    · exact (hout2 a (by omega)).trans (hout a (by omega))

/-- A chunk's start without a basin, where memory is in no error: the chunk is in hand, and its blocks hold the old values. -/
theorem chunkBegin_clean {d : Dev} {t : Nat} {px : Polder} {r : RunOp} {cuts : List (Nat × Nat)} {hi : Nat}
    (hrun : runOf d t .blocker = some r) (hecc : d.mem.ecc = [])
    (h : ∀ j, r.work.txn.pre ≤ j → j < preUpto r hi →
      rangeErr d (blockPos px r.q.desc r.tds j) (blockLen r.q.desc r.tds j + 64) = none ∧
        ∀ p ∈ blockRuns r.q.desc r.tds j, rangeErr d p.1 p.2 = none ∧
          (p.1 + p.2 ≤ blockPos px r.q.desc r.tds r.work.txn.pre ∨ blockPos px r.q.desc r.tds (preUpto r hi) ≤ p.1)) :
    runOf (chunkBegin d t px r cuts hi) t .blocker = some { r with work := { r.work with txn := { r.work.txn with
        cuts := some cuts, pre := max r.work.txn.pre (preUpto r hi), started := r.work.txn.started + 1, hand := true } } } ∧
      (∀ j, r.work.txn.pre ≤ j → j < preUpto r hi → BlockHolds px r.q.desc r.tds r.work.txn d j (chunkBegin d t px r cuts hi)) ∧
      ∀ a, a < blockPos px r.q.desc r.tds r.work.txn.pre ∨
        blockPos px r.q.desc r.tds (max r.work.txn.pre (preUpto r hi)) ≤ a → byteAt (chunkBegin d t px r cuts hi) a = byteAt d a := by
  obtain ⟨d1, hd1, honly, hblocks, hout⟩ := preimages_clean (runAcc d t r) px r (preUpto r hi - r.work.txn.pre) (j := r.work.txn.pre) hecc
    fun i h1 h2 => by
      rw [show r.work.txn.pre + (preUpto r hi - r.work.txn.pre) = preUpto r hi by omega]
      exact h i h1 (by omega)
  rw [show r.work.txn.pre + (preUpto r hi - r.work.txn.pre) = max r.work.txn.pre (preUpto r hi) by omega] at hblocks hout
  have heq : chunkBegin d t px r cuts hi = onTxn d1 t fun y => { y with
      cuts := some cuts, pre := max r.work.txn.pre (preUpto r hi), started := r.work.txn.started + 1, hand := true } := by
    unfold chunkBegin
    rw [hd1]
  have htiles : OnlyTiles d1 (chunkBegin d t px r cuts hi) := by rw [heq]; exact onRun_onlyTiles ..
  refine ⟨?_, fun j h1 h2 => ?_, fun a ha => (htiles.byteAt a).trans (hout a ha)⟩
  · rw [heq, onTxn, runOf_onRun, honly.quiet.runOf, hrun]
    rfl
  · obtain ⟨hdata, hheader⟩ := hblocks j h1 (by omega)
    exact ⟨(htiles.bytesAt ..).trans hdata, (htiles.bytesAt ..).trans hheader⟩

end Sys2Proof.Machine
end

section
/-! The new state of a chunk in floating-point formats where memory is in no error (R296, R298, R310, R311): the elements read have
their values, and those written hold their codes, where no two meet. -/

namespace Sys2Proof.Machine

/-! ### Elements in order -/

/-- The n elements of a tensor from the lo-th on. -/
def elemsFrom (td : TDesc) (lo n : Nat) : List (TDesc × List Nat) := (List.range n).map fun j => (td, tIndex td (lo + j))

theorem mem_elemsFrom {td : TDesc} {lo n j : Nat} (h : j < n) : (td, tIndex td (lo + j)) ∈ elemsFrom td lo n :=
  List.mem_map.2 ⟨j, List.mem_range.2 h, rfl⟩

/-- Those elements are of a floating-point format, on this device, with memory present. -/
structure FloatsFrom (d : Dev) (td : TDesc) (lo n : Nat) : Prop where
  float : ∃ F, (fmtOf td).float? = some F
  reach : ∀ j, j < n → Reach d td (tIndex td (lo + j))

theorem floatsFrom_of {d : Dev} {td : TDesc} {lo hi : Nat} (h : Floats d td lo hi) : FloatsFrom d td lo (hi - lo) :=
  ⟨h.float, fun _ hj => h.bytes _ (mem_elemsFrom hj)⟩

theorem FloatsFrom.notMoment {d : Dev} {td : TDesc} {lo n : Nat} (h : FloatsFrom d td lo n) : isMoment td = false := by
  obtain ⟨F, hF⟩ := h.float
  exact isCode_false hF

theorem FloatsFrom.wide {d : Dev} {td : TDesc} {lo n : Nat} (h : FloatsFrom d td lo n) : 8 ≤ (fmtOf td).width := by
  obtain ⟨F, hF⟩ := h.float
  exact float_width (by rw [hF]; rfl)

/-! ### What a device with other bytes keeps -/

/-- No byte outside some elements has changed, and no address has moved. -/
structure WroteIn (outs : List (TDesc × List Nat)) (d d' : Dev) : Prop where
  ecc : d'.mem.ecc = d.mem.ecc
  here : selfId d' = selfId d
  place : ∀ a, place d' a = Machine.place d a
  beside : ∀ a, Beside outs a → byteAt d' a = byteAt d a

theorem WroteIn.trans {outs : List (TDesc × List Nat)} {d e f : Dev} (h : WroteIn outs d e) (h' : WroteIn outs e f) : WroteIn outs d f :=
  ⟨h'.ecc.trans h.ecc, h'.here.trans h.here, fun a => (h'.place a).trans (h.place a), fun a ha => (h'.beside a ha).trans (h.beside a ha)⟩

theorem WroteIn.mono {outs outs' : List (TDesc × List Nat)} {d d' : Dev} (h : WroteIn outs d d') (hsub : outs ⊆ outs') :
    WroteIn outs' d d' := ⟨h.ecc, h.here, h.place, fun a ha => h.beside a fun p hp => ha p (hsub hp)⟩

theorem WroteIn.of_onlyTiles {d d' : Dev} (outs : List (TDesc × List Nat)) (h : OnlyTiles d d') : WroteIn outs d d' :=
  ⟨by rw [h.mem], h.selfId, h.place, fun a _ => h.byteAt a⟩

theorem WroteIn.refl (outs : List (TDesc × List Nat)) (d : Dev) : WroteIn outs d d := .of_onlyTiles outs (.refl d)

theorem WroteIn.of_onlyBytes {d d' : Dev} {outs : List (TDesc × List Nat)} (h : OnlyBytes d d')
    (hb : ∀ a, Beside outs a → byteAt d' a = byteAt d a) : WroteIn outs d d' := by
  obtain ⟨m, rfl⟩ := h
  exact ⟨rfl, rfl, place_withBytes d m, hb⟩

section
variable {outs : List (TDesc × List Nat)} {d d' : Dev} (h : WroteIn outs d d')
include h

theorem WroteIn.reach {td : TDesc} {ix : List Nat} (hr : Reach d td ix) : Reach d' td ix :=
  ⟨hr.here.trans h.here.symm, (rangeErr_congr h.place ..).trans hr.bytes⟩

theorem WroteIn.plain {td : TDesc} {sn : List F32} {ix : List Nat} (hp : Plain d td sn ix) : Plain d' td sn ix :=
  ⟨h.reach hp.toReach, hp.whole, hp.bare, hp.scale⟩

theorem WroteIn.floats {td : TDesc} {lo n : Nat} (hf : FloatsFrom d td lo n) : FloatsFrom d' td lo n :=
  ⟨hf.float, fun j hj => h.reach (hf.reach j hj)⟩

/-- An element that is not met keeps its bytes. -/
theorem WroteIn.bytes {td : TDesc} {ix : List Nat} (hapart : ∀ p ∈ outs, Apart p (td, ix)) :
    bytesAt d' (elemAddr td ix) (elemLen td) = bytesAt d (elemAddr td ix) (elemLen td) :=
  bytesAt_congr fun _ hi => h.beside _ (beside_of_all_apart (q := (td, ix)) hapart hi)

theorem WroteIn.holds {td : TDesc} {e code : Nat} (hapart : ∀ p ∈ outs, Apart p (td, tIndex td e)) (hh : Holds d td e code) :
    Holds d' td e code := (h.bytes hapart).trans hh

theorem WroteIn.codeAt {td : TDesc} {ix : List Nat} (hapart : ∀ p ∈ outs, Apart p (td, ix)) : codeAt d' td ix = Machine.codeAt d td ix := by
  unfold Machine.codeAt
  rw [h.bytes hapart]

end

/-! ### Reads -/

section
variable {d : Dev} (acc : Acc) (r : RunOp) {td : TDesc} (hecc : d.mem.ecc = [])
include hecc

theorem readCodes_clean {lo n : Nat} (h : ∀ j, j < n → Reach d td (tIndex td (lo + j))) :
    readCodes d acc r td lo n = (d, none, (List.range n).map fun j => codeAt d td (tIndex td (lo + j))) := by
  unfold readCodes
  induction n generalizing lo with
  | zero => rfl
  | succ n ih =>
    have h0 := h 0 (by omega)
    rw [Nat.add_zero] at h0
    have hread : readRng d acc r ⟨(tDev td).toNat, tBitAddr td (fmtOf td).width (tIndex td lo) / 8, max 1 ((fmtOf td).width / 8)⟩ =
        (d, .ok (bytesAt d (elemAddr td (tIndex td lo)) (elemLen td))) := readRng_clean acc r hecc h0.here h0.bytes (elemLen_pos td)
    have hrest := ih (lo := lo + 1) fun j hj => by
      rw [show lo + 1 + j = lo + (j + 1) by omega]
      exact h (j + 1) (by omega)
    unfold readCodesGo
    dsimp only
    rw [hread]
    dsimp only
    rw [hrest, List.range_succ_eq_map, List.map_cons, List.map_map]
    refine congrArg (fun l => (d, none, _ :: l)) (List.map_congr_left fun j _ => ?_)
    rw [show lo + 1 + j = lo + (j + 1) by omega]
    rfl

theorem bVals_clean {lo n : Nat} (h : FloatsFrom d td lo n) :
    bVals acc r td d n lo = (d, .ok ((List.range n).map fun j => elemVal d td (lo + j))) := by
  obtain ⟨F, hF⟩ := h.float
  have hreach := h.reach
  clear h
  induction n generalizing lo with
  | zero => rfl
  | succ n ih =>
    have hone : readCodes d acc r td lo 1 = (d, none, [codeAt d td (tIndex td lo)]) :=
      readCodes_clean acc r hecc (td := td) (lo := lo) (n := 1) fun j hj => hreach j (by omega)
    have hrest := ih (lo := lo + 1) fun j hj => by
      rw [show lo + 1 + j = lo + (j + 1) by omega]
      exact hreach (j + 1) (by omega)
    have hval : elemVal d td lo = rne32 (F.decode (codeAt d td (tIndex td lo))) := by unfold elemVal; rw [hF]
    unfold bVals
    rw [hone]
    dsimp only
    rw [hF]
    dsimp only
    rw [hrest]
    dsimp only
    rw [List.range_succ_eq_map, List.map_cons, List.map_map, show elemVal d td (lo + 0) = _ from hval, List.headD_cons]
    refine congrArg (fun l => (d, Except.ok (_ :: l))) (List.map_congr_left fun j _ => ?_)
    rw [show lo + 1 + j = lo + (j + 1) by omega]
    rfl

/-- The values of a tensor that is there, and zeros for one that is not. -/
def valsOf (d : Dev) (lo n : Nat) (o : Option TDesc) : List F32 :=
  (List.range n).map fun j => match o with | some td => elemVal d td (lo + j) | none => 0

theorem bValsAll_clean {lo n : Nat} {l : List (Option TDesc)} (h : ∀ td, some td ∈ l → FloatsFrom d td lo n) :
    bValsAll acc r lo n d l = (d, .ok (l.map (valsOf d lo n))) := by
  induction l with
  | nil => rfl
  | cons o l ih =>
    have hrest := ih fun td htd => h td (List.mem_cons_of_mem _ htd)
    unfold bValsAll
    cases o with
    | none =>
      dsimp only
      rw [hrest]
      refine congrArg (fun v => (d, Except.ok (v :: l.map (valsOf d lo n)))) ?_
      unfold valsOf
      simp
    | some td =>
      dsimp only
      rw [bVals_clean _ r hecc (h td (List.mem_cons_self ..))]
      dsimp only
      rw [hrest]
      rfl

end

theorem valsOf_getD (d : Dev) {lo n j : Nat} (o : Option TDesc) (hj : j < n) :
    (valsOf d lo n o).getD j 0 = match o with | some td => elemVal d td (lo + j) | none => 0 := by
  unfold valsOf
  cases o <;> simp [hj]

/-! ### Writes -/

/-- Elements that do not meet, each listed once. -/
def Laid (l : List (TDesc × List Nat)) : Prop := (∀ p ∈ l, ∀ q ∈ l, p ≠ q → Apart p q) ∧ l.Nodup

theorem Laid.sublist {l l' : List (TDesc × List Nat)} (h : Laid l) (hs : l'.Sublist l) : Laid l' :=
  ⟨fun p hp q hq => h.1 p (hs.subset hp) q (hs.subset hq), h.2.sublist hs⟩

theorem Laid.apart {l l' : List (TDesc × List Nat)} (h : Laid (l ++ l')) {p q : TDesc × List Nat} (hp : p ∈ l) (hq : q ∈ l') : Apart q p :=
  h.1 q (List.mem_append_right _ hq) p (List.mem_append_left _ hp) fun e => List.disjoint_of_nodup_append h.2 hp (e ▸ hq)

theorem index_inj {td : TDesc} {lo n i j : Nat} (h : (elemsFrom td lo n).Nodup) (hi : i < n) (hj : j < n)
    (heq : tIndex td (lo + i) = tIndex td (lo + j)) : i = j :=
  List.inj_on_of_nodup_map h (List.mem_range.2 hi) (List.mem_range.2 hj) (by rw [heq])

/-- The elements of several tensors. -/
def putElems (lo n : Nat) (ps : List (TDesc × (Nat → Nat))) : List (TDesc × List Nat) := ps.flatMap fun p => elemsFrom p.1 lo n

/-- Codes were written to the elements of several tensors in turn: no byte outside them has changed, and where no two meet each holds
its code. -/
structure Puts (lo n : Nat) (ps : List (TDesc × (Nat → Nat))) (d d' : Dev) : Prop where
  wrote : WroteIn (putElems lo n ps) d d'
  holds : Laid (putElems lo n ps) → ∀ p ∈ ps, ∀ j, j < n → Holds d' p.1 (lo + j) (p.2 (lo + j))

theorem Puts.nil (lo n : Nat) (d : Dev) : Puts lo n [] d d := ⟨.refl _ d, fun _ _ h => by cases h⟩

/-- A change of the tiles alone may come in between. -/
theorem Puts.onlyTiles {lo n : Nat} {ps : List (TDesc × (Nat → Nat))} {d d1 d2 : Dev} (h : Puts lo n ps d d1) (h' : OnlyTiles d1 d2) :
    Puts lo n ps d d2 :=
  ⟨h.wrote.trans (.of_onlyTiles _ h'), fun hl p hp j hj => (h'.bytesAt ..).trans (h.holds hl p hp j hj)⟩

theorem Puts.append {lo n : Nat} {ps qs : List (TDesc × (Nat → Nat))} {d d1 d2 : Dev} (h : Puts lo n ps d d1) (h' : Puts lo n qs d1 d2) :
    Puts lo n (ps ++ qs) d d2 := by
  have happ : putElems lo n (ps ++ qs) = putElems lo n ps ++ putElems lo n qs := List.flatMap_append
  refine ⟨?_, fun hl p hp j hj => ?_⟩ <;> rw [happ] at *
  · exact (h.wrote.mono (List.subset_append_left ..)).trans (h'.wrote.mono (List.subset_append_right ..))
  · rcases List.mem_append.1 hp with hp | hp
    · have hmem : (p.1, tIndex p.1 (lo + j)) ∈ putElems lo n ps := List.mem_flatMap.2 ⟨p, hp, mem_elemsFrom hj⟩
      exact h'.wrote.holds (fun q hq => hl.apart hmem hq) (h.holds (hl.sublist (List.sublist_append_left ..)) p hp j hj)
    · exact h'.holds (hl.sublist (List.sublist_append_right ..)) p hp j hj

theorem zip_range_map {α : Type} (n : Nat) (g : Nat → α) :
    List.zip (List.range ((List.range n).map g).length) ((List.range n).map g) = (List.range n).map fun j => (j, g j) :=
  List.ext_getElem (by simp) fun i _ _ => by simp

/-- Codes written to consecutive elements. -/
theorem bPut_clean {d : Dev} (t : Nat) (r : RunOp) {td : TDesc} {lo n : Nat} (code : Nat → Nat) (hecc : d.mem.ecc = [])
    (h : FloatsFrom d td lo n) :
    ∃ d', bPut d t r td lo ((List.range n).map fun j => code (lo + j)) = (d', none) ∧ Puts lo n [(td, code)] d d' := by
  obtain ⟨d', hd', honly, hbeside, hcodes⟩ := writeList_reach t .blocker (stateRun r td) (td := td) (d := d) 0
    (l := (List.range n).map fun j => (tIndex td (lo + j), code (lo + j))) hecc fun p hp => by
      obtain ⟨j, hj, rfl⟩ := List.mem_map.1 hp
      exact h.reach j (List.mem_range.1 hj)
  have helems : putElems lo n [(td, code)] = elemsFrom td lo n := by simp [putElems]
  have hmap : ((List.range n).map fun j => (tIndex td (lo + j), code (lo + j))).map (fun p => (td, p.1)) = elemsFrom td lo n := by
    simp [elemsFrom]
  refine ⟨d', ?_, ?_, fun hl p hp j hj => ?_⟩
  · unfold bPut
    rw [zip_range_map, List.map_map]
    change (match writeList t .blocker (stateRun r td) td d 0 ((List.range n).map fun j => (tIndex td (lo + j), code (lo + j))) with
      | (d, some (c, _)) => (d, some c) | (d, none) => (d, none)) = _
    rw [hd']
  · rw [helems]
    exact .of_onlyBytes honly (by rw [← hmap]; exact hbeside)
  · obtain rfl := List.mem_singleton.1 hp
    rw [helems] at hl
    have hmem {p : List Nat × Nat} (hp : p ∈ (List.range n).map fun j => (tIndex td (lo + j), code (lo + j))) :
        ∃ i, i < n ∧ p = (tIndex td (lo + i), code (lo + i)) := by
      obtain ⟨i, hi, rfl⟩ := List.mem_map.1 hp
      exact ⟨i, List.mem_range.1 hi, rfl⟩
    refine hcodes h.wide (fun p hp q hq hne => ?_) (fun p hp q hq heq => ?_) (tIndex td (lo + j), code (lo + j))
      (List.mem_map.2 ⟨j, List.mem_range.2 hj, rfl⟩)
    · obtain ⟨a, ha, rfl⟩ := hmem hp
      obtain ⟨b, hb, rfl⟩ := hmem hq
      exact hl.1 _ (mem_elemsFrom ha) _ (mem_elemsFrom hb) fun e => hne (Prod.mk.inj e).2
    · obtain ⟨a, ha, rfl⟩ := hmem hp
      obtain ⟨b, hb, rfl⟩ := hmem hq
      rw [index_inj hl.2 ha hb heq]

/-- The code of a new moment (R298). -/
def momentCode (x : BitVec 1024) (td : TDesc) (v : F32) : Nat :=
  if fmtOf td = .fp32 then v.toNat else match (fmtOf td).float? with | some F => (F.conv (bConv x) (val32 v)).1 | none => 0

/-- New moments in a floating-point format. -/
theorem putMoments_clean {d : Dev} (t : Nat) (r : RunOp) {td : TDesc} {lo n : Nat} (x : BitVec 1024) (res : Option (TDesc × List F32))
    (v : Nat → F32) (hecc : d.mem.ecc = []) (h : FloatsFrom d td lo n) :
    ∃ d', putMoments d t r td res (bConv x) lo ((List.range n).map fun j => v (lo + j)) = (d', none) ∧
      Puts lo n [(td, fun e => momentCode x td (v e))] d d' := by
  obtain ⟨F, hF⟩ := h.float
  unfold putMoments
  rw [hF]
  dsimp only
  obtain ⟨l, hl⟩ : ∃ l, l = ((List.range n).map fun j => v (lo + j)).map fun v =>
    if fmtOf td = .fp32 then (v.toNat, Cls.none) else F.conv (bConv x) (val32 v) := ⟨_, rfl⟩
  have hfst : l.map Prod.fst = (List.range n).map fun j => momentCode x td (v (lo + j)) := by
    rw [hl, List.map_map, List.map_map]
    refine List.map_congr_left fun j _ => ?_
    unfold momentCode
    rw [hF]
    by_cases h32 : fmtOf td = .fp32 <;> simp [h32]
  rw [← hl, hfst]
  have htiles : OnlyTiles d (countMoments d t (l.map Prod.snd)) := onRun_onlyTiles ..
  obtain ⟨d', hd', hput⟩ := bPut_clean (d := countMoments d t (l.map Prod.snd)) t r (fun e => momentCode x td (v e))
    (by rw [htiles.mem]; exact hecc) ((WroteIn.of_onlyTiles [] htiles).floats h)
  exact ⟨d', hd', by simpa using ((Puts.nil lo n d).onlyTiles htiles).append hput⟩

/-! ### The working copy (R299) -/

theorem cPut_clean (t : Nat) (r : RunOp) {z : EncSet} {d : Dev} (a : EncAcc) {lo : Nat} (vs : List F32) (hecc : d.mem.ecc = [])
    (h : ∀ j, j < vs.length → Plain d z.td z.snap (tIndex z.td (lo + j))) :
    ∃ d' a', cPut t r z (fun _ => true) d a lo vs = (d', a', none) ∧ WroteIn (elemsFrom z.td lo vs.length) d d' := by
  induction vs generalizing d a lo with
  | nil => exact ⟨d, a, rfl, .refl _ d⟩
  | cons v vs ih =>
    have h0 := h 0 (by simp)
    rw [Nat.add_zero] at h0
    have hmem : (z.td, tIndex z.td lo) ∈ elemsFrom z.td lo (vs.length + 1) := mem_elemsFrom (j := 0) (by omega)
    have hsub : elemsFrom z.td (lo + 1) vs.length ⊆ elemsFrom z.td lo (vs.length + 1) := fun p hp => by
      obtain ⟨j, hj, rfl⟩ := List.mem_map.1 hp
      rw [show lo + 1 + j = lo + (j + 1) by omega]
      exact mem_elemsFrom (by rw [List.mem_range] at hj; omega)
    obtain ⟨d1, hw, hst⟩ := writeAt_storedIn t .blocker r (outs := elemsFrom z.td lo (vs.length + 1))
      (encOut z (tIndex z.td lo) (decide (a.entries.length < z.cap)) false v).code hecc h0.toReach hmem
    have hwrote : WroteIn (elemsFrom z.td lo (vs.length + 1)) d d1 := .of_onlyBytes hst.only hst.beside
    obtain ⟨d2, a2, hrest, hwrote2⟩ := ih (d := d1)
      (if ffinite v then (a.put (tRow z.td (tIndex z.td lo)) ((tIndex z.td lo).getD 0 0)
          (encOut z (tIndex z.td lo) (decide (a.entries.length < z.cap)) false v)).see (scaleIdx z.td (tIndex z.td lo)) v
        else a.put (tRow z.td (tIndex z.td lo)) ((tIndex z.td lo).getD 0 0)
          (encOut z (tIndex z.td lo) (decide (a.entries.length < z.cap)) false v))
      (lo := lo + 1) (hwrote.ecc.trans hecc) fun j hj => by
        rw [show lo + 1 + j = lo + (j + 1) by omega]
        exact hwrote.plain (h (j + 1) (by simpa using hj))
    refine ⟨d2, a2, ?_, hwrote.trans (hwrote2.mono hsub)⟩
    unfold cPut
    dsimp only
    rw [encScale_plain _ r h0]
    dsimp only [encOut] at hw hrest ⊢
    rw [if_pos rfl, hw]
    exact hrest

/-- The elements of the working copy that a chunk writes. -/
def copyElems (r : RunOp) (lo n : Nat) : List (TDesc × List Nat) := if bHas r.q.desc 3 then elemsFrom (bTd r.tds 3) lo n else []

theorem putCopy_clean (t : Nat) (r : RunOp) {d : Dev} {lo n : Nat} (v : Nat → F32) (hn : n ≠ 0) (hecc : d.mem.ecc = [])
    (h : ∀ p ∈ copyElems r lo n, Plain d p.1 (r.snaps.headD []) p.2) :
    ∃ d', putCopy d t r lo ((List.range n).map fun j => v (lo + j)) = (d', none) ∧ WroteIn (copyElems r lo n) d d' := by
  unfold putCopy
  dsimp only
  by_cases h3 : bHas r.q.desc 3 = true
  · have hplain : ∀ j, j < n → Plain d (bTd r.tds 3) (r.snaps.headD []) (tIndex (bTd r.tds 3) (lo + j)) := fun j hj =>
      h _ (by rw [copyElems, if_pos h3]; exact mem_elemsFrom hj)
    have hbare : (cEnc d t r r.q.desc (bTd r.tds 3) (r.snaps.headD [])).sided = false := by
      have := (hplain 0 (by omega)).bare
      simp [EncSet.sided, cEnc, autoEnc, this]
    obtain ⟨d1, a, hput, hwrote⟩ := cPut_clean t r (z := cEnc d t r r.q.desc (bTd r.tds 3) (r.snaps.headD [])) (lo := lo)
      (((runOf d t .blocker).map fun r => r.work.enc).getD {}) ((List.range n).map fun j => v (lo + j)) hecc fun j hj =>
        hplain j (by simpa using hj)
    rw [List.length_map, List.length_range] at hwrote
    rw [if_neg (by simp [h3]), hput, copyElems, if_pos h3]
    dsimp only [andThen]
    rw [hbare, if_neg (by simp)]
    exact ⟨_, rfl, hwrote.trans (.of_onlyTiles _ (onRun_onlyTiles ..))⟩
  · rw [if_pos (by simpa using h3)]
    exact ⟨d, rfl, .refl _ d⟩

end Sys2Proof.Machine
end

section
/-! A chunk of UPDATE, OUTER or REPLACE in floating-point formats where memory is in no error (R296, R310, R311): what each element
written holds. -/

namespace Sys2Proof.Machine

/-! ### Writes that depend on what is read -/

/-- Codes were written to the elements of several tensors in turn; where the elements meet neither each other nor those of rs, each
holds its code. -/
structure PutsFrom (lo n : Nat) (rs : List (TDesc × List Nat)) (ps : List (TDesc × (Nat → Nat))) (d d' : Dev) : Prop where
  wrote : WroteIn (putElems lo n ps) d d'
  holds : Laid (putElems lo n ps) → (∀ p ∈ putElems lo n ps, ∀ q ∈ rs, Apart p q) →
    ∀ p ∈ ps, ∀ j, j < n → Holds d' p.1 (lo + j) (p.2 (lo + j))

theorem Puts.from {lo n : Nat} {ps : List (TDesc × (Nat → Nat))} {d d' : Dev} (h : Puts lo n ps d d') (rs : List (TDesc × List Nat)) :
    PutsFrom lo n rs ps d d' := ⟨h.wrote, fun hl _ => h.holds hl⟩

/-- The code of an element of REPLACE's destination, from its source (R311). -/
def replaceCode (d : Dev) (dst src : TDesc) (e : Nat) : Nat := canonCode (fmtOf dst) (codeAt d src (tIndex src e))

/-- One more destination gets its source's codes; the source's elements are among those that no write meets. -/
theorem PutsFrom.replace {lo n : Nat} {rs : List (TDesc × List Nat)} {ps : List (TDesc × (Nat → Nat))} {d d1 d2 : Dev} {dst src : TDesc}
    (h : PutsFrom lo n rs ps d d1) (h' : Puts lo n [(dst, replaceCode d1 dst src)] d1 d2) (hrs : elemsFrom src lo n ⊆ rs) :
    PutsFrom lo n rs (ps ++ [(dst, replaceCode d dst src)]) d d2 := by
  have happ : putElems lo n (ps ++ [(dst, replaceCode d dst src)]) = putElems lo n ps ++ putElems lo n [(dst, replaceCode d1 dst src)] := by
    simp [putElems]
  refine ⟨?_, fun hl hr p hp j hj => ?_⟩ <;> rw [happ] at *
  · exact (h.wrote.mono (List.subset_append_left ..)).trans (h'.wrote.mono (List.subset_append_right ..))
  · rcases List.mem_append.1 hp with hp | hp
    · have hmem : (p.1, tIndex p.1 (lo + j)) ∈ putElems lo n ps := List.mem_flatMap.2 ⟨p, hp, mem_elemsFrom hj⟩
      exact h'.wrote.holds (fun q hq => hl.apart hmem hq)
        (h.holds (hl.sublist (List.sublist_append_left ..)) (fun p hp => hr p (List.mem_append_left _ hp)) p hp j hj)
    · obtain rfl := List.mem_singleton.1 hp
      have hcode : replaceCode d1 dst src (lo + j) = replaceCode d dst src (lo + j) := by
        unfold replaceCode
        rw [h.wrote.codeAt fun q hq => hr q (List.mem_append_left _ hq) _ (hrs (mem_elemsFrom hj))]
      dsimp only
      rw [← hcode]
      exact h'.holds (hl.sublist (List.sublist_append_right ..)) _ (List.mem_singleton_self _) j hj

/-- What a chunk leaves: codes in the elements of several tensors, and the working copy's elements cs. -/
structure ChunkWrote (lo n : Nat) (rs : List (TDesc × List Nat)) (ps : List (TDesc × (Nat → Nat))) (cs : List (TDesc × List Nat))
    (d d' : Dev) : Prop where
  wrote : WroteIn (putElems lo n ps ++ cs) d d'
  holds : Laid (putElems lo n ps) → (∀ p ∈ putElems lo n ps, ∀ q ∈ rs, Apart p q) → (∀ p ∈ putElems lo n ps, ∀ q ∈ cs, Apart p q) →
    ∀ p ∈ ps, ∀ j, j < n → Holds d' p.1 (lo + j) (p.2 (lo + j))

theorem PutsFrom.copy {lo n : Nat} {rs cs : List (TDesc × List Nat)} {ps : List (TDesc × (Nat → Nat))} {d d1 d2 : Dev}
    (h : PutsFrom lo n rs ps d d1) (h' : WroteIn cs d1 d2) : ChunkWrote lo n rs ps cs d d2 :=
  ⟨(h.wrote.mono (List.subset_append_left ..)).trans (h'.mono (List.subset_append_right ..)), fun hl hr hc p hp j hj =>
    h'.holds (fun q hq => (hc _ (List.mem_flatMap.2 ⟨p, hp, mem_elemsFrom hj⟩) q hq).symm) (h.holds hl hr p hp j hj)⟩

theorem ChunkWrote.none (lo : Nat) (rs : List (TDesc × List Nat)) (ps : List (TDesc × (Nat → Nat))) (cs : List (TDesc × List Nat)) (d : Dev) :
    ChunkWrote lo 0 rs ps cs d d := ⟨.refl _ d, fun _ _ _ _ _ _ hj => absurd hj (Nat.not_lt_zero _)⟩

/-! ### UPDATE (R296, R298) -/

/-- The new state of element e of an UPDATE, from the values that d has. -/
def updAt (d : Dev) (r : RunOp) (e : Nat) : Upd :=
  updElem r.q.desc (updK r.q.desc r.work.txn) (elemVal d (gradTd r.q.desc r.tds) e) (elemVal d (bTd r.tds 0) e) (elemVal d (bTd r.tds 1) e)
    (if bHas r.q.desc 2 then elemVal d (bTd r.tds 2) e else 0)

/-- What an UPDATE writes: first moments, second moments where there are any, master weights. -/
def updatePuts (d : Dev) (r : RunOp) : List (TDesc × (Nat → Nat)) :=
  [(bTd r.tds 1, fun e => momentCode r.q.desc (bTd r.tds 1) (updAt d r e).m)] ++
    (if bHas r.q.desc 2 then [(bTd r.tds 2, fun e => momentCode r.q.desc (bTd r.tds 2) (updAt d r e).v)] else []) ++
    [(bTd r.tds 0, fun e => (updAt d r e).w.toNat)]

theorem applyUpdate_clean {d : Dev} (t : Nat) (r : RunOp) {lo n : Nat} (hn : n ≠ 0) (hecc : d.mem.ecc = [])
    (hg : FloatsFrom d (gradTd r.q.desc r.tds) lo n) (h0 : FloatsFrom d (bTd r.tds 0) lo n) (h1 : FloatsFrom d (bTd r.tds 1) lo n)
    (h2 : bHas r.q.desc 2 = true → FloatsFrom d (bTd r.tds 2) lo n)
    (hc : ∀ p ∈ copyElems r lo n, Plain d p.1 (r.snaps.headD []) p.2) (rs : List (TDesc × List Nat)) :
    ∃ d', applyUpdate d t r lo n = (d', none) ∧ ChunkWrote lo n rs (updatePuts d r) (copyElems r lo n) d d' := by
  obtain ⟨l, hl⟩ : ∃ l : List (Option TDesc), l = [some (gradTd r.q.desc r.tds), some (bTd r.tds 0), some (bTd r.tds 1),
    if bHas r.q.desc 2 then some (bTd r.tds 2) else none, none, none] := ⟨_, rfl⟩
  have hread := bValsAll_clean (runAcc d t r) r hecc (lo := lo) (n := n) (l := l) fun td htd => by
    rw [hl] at htd
    by_cases h : bHas r.q.desc 2 = true <;> simp [h] at htd
    · rcases htd with rfl | rfl | rfl | rfl
      exacts [hg, h0, h1, h2 h]
    · rcases htd with rfl | rfl | rfl
      exacts [hg, h0, h1]
  obtain ⟨ls, hls⟩ : ∃ ls, ls = l.map (valsOf d lo n) := ⟨_, rfl⟩
  have hus : ((List.range n).map fun j => updElem r.q.desc (updK r.q.desc r.work.txn) ((ls.getD 0 []).getD j 0) ((ls.getD 1 []).getD j 0)
      ((ls.getD 2 []).getD j 0) ((ls.getD 3 []).getD j 0)) = (List.range n).map fun j => updAt d r (lo + j) := by
    refine List.map_congr_left fun j hj => ?_
    rw [List.mem_range] at hj
    rw [hls, hl]
    unfold updAt
    simp only [List.map_cons, List.getD_cons_zero, List.getD_cons_succ, valsOf_getD d _ hj]
    by_cases h : bHas r.q.desc 2 = true <;> simp [h]
  have hres1 : (if bHas r.q.desc 5 = true ∧ bHas r.q.desc 1 = true ∧ isMoment (bTd r.tds 1) = true then some (bTd r.tds 5) else none) = none :=
    if_neg fun h => by rw [h1.notMoment] at h; exact Bool.false_ne_true h.2.2
  have hres2 : (if bHas r.q.desc 6 = true ∧ bHas r.q.desc 2 = true ∧ isMoment (bTd r.tds 2) = true then some (bTd r.tds 6) else none) = none :=
    if_neg fun h => by rw [(h2 h.2.1).notMoment] at h; exact Bool.false_ne_true h.2.2
  unfold applyUpdate
  dsimp only
  rw [hres1, hres2, ← hl, hread, ← hls]
  dsimp only
  rw [hus]
  simp only [List.map_map, Function.comp_def]
  generalize hd1 : onTxn _ t _ = d1
  have hput0 : Puts lo n [] d d1 := (Puts.nil lo n d).onlyTiles (by
    rw [← hd1]
    exact (onRun_onlyTiles ..).trans (onRun_onlyTiles ..))
  obtain ⟨d2, hm1, hp1⟩ := putMoments_clean t r r.q.desc (Option.map (fun e => (e, ls.getD 4 [])) none) (fun e => (updAt d r e).m)
    (hput0.wrote.ecc.trans hecc) (hput0.wrote.floats h1)
  have hput1 := hput0.append hp1
  rw [hm1]
  dsimp only [andThen]
  obtain ⟨d3, hm2, hput2⟩ : ∃ d3, (if bHas r.q.desc 2 = true then
      putMoments d2 t r (bTd r.tds 2) (Option.map (fun e => (e, ls.getD 5 [])) none) (bConv r.q.desc) lo
        ((List.range n).map fun j => (updAt d r (lo + j)).v) else (d2, none)) = (d3, none) ∧
      Puts lo n ([(bTd r.tds 1, fun e => momentCode r.q.desc (bTd r.tds 1) (updAt d r e).m)] ++
        (if bHas r.q.desc 2 then [(bTd r.tds 2, fun e => momentCode r.q.desc (bTd r.tds 2) (updAt d r e).v)] else [])) d d3 := by
    by_cases h : bHas r.q.desc 2 = true
    · obtain ⟨d3, hm2, hp2⟩ := putMoments_clean t r r.q.desc (Option.map (fun e => (e, ls.getD 5 [])) none) (fun e => (updAt d r e).v)
        (hput1.wrote.ecc.trans hecc) (hput1.wrote.floats (h2 h))
      rw [if_pos h, if_pos h]
      exact ⟨d3, hm2, hput1.append hp2⟩
    · rw [if_neg h, if_neg h, List.append_nil]
      exact ⟨d2, rfl, hput1⟩
  rw [hm2]
  dsimp only
  obtain ⟨d4, hm3, hp3⟩ := bPut_clean t r (fun e => (updAt d r e).w.toNat) (hput2.wrote.ecc.trans hecc) (hput2.wrote.floats h0)
  have hput3 := hput2.append hp3
  rw [hm3]
  dsimp only
  obtain ⟨d5, hcopy, hwrote⟩ := putCopy_clean t r (fun e => (updAt d r e).w) hn (hput3.wrote.ecc.trans hecc) fun p hp =>
    hput3.wrote.plain (hc p hp)
  exact ⟨d5, hcopy, (hput3.from rs).copy hwrote⟩

/-! ### OUTER (R310) -/

/-- The new state of element e of an OUTER, from the values that d has. -/
def outerAt (d : Dev) (r : RunOp) (e : Nat) : F32 × F32 × Nat :=
  outerElem (bLr0 r.q.desc) (bBeta1 r.q.desc) (elemVal d (bTd r.tds 1) e) (elemVal d (bTd r.tds 2) e) (elemVal d (bTd r.tds 4) e)

/-- What an OUTER writes: outer momentum, anchor, master weights. -/
def outerPuts (d : Dev) (r : RunOp) : List (TDesc × (Nat → Nat)) :=
  [(bTd r.tds 1, fun e => (outerAt d r e).1.toNat)] ++ [(bTd r.tds 2, fun e => (outerAt d r e).2.1.toNat)] ++
    [(bTd r.tds 0, fun e => (outerAt d r e).2.1.toNat)]

theorem applyOuter_clean {d : Dev} (t : Nat) (r : RunOp) {lo n : Nat} (hn : n ≠ 0) (hecc : d.mem.ecc = [])
    (h : ∀ k ∈ [0, 1, 2, 4], FloatsFrom d (bTd r.tds k) lo n)
    (hc : ∀ p ∈ copyElems r lo n, Plain d p.1 (r.snaps.headD []) p.2) (rs : List (TDesc × List Nat)) :
    ∃ d', applyOuter d t r lo n = (d', none) ∧ ChunkWrote lo n rs (outerPuts d r) (copyElems r lo n) d d' := by
  have hread := bValsAll_clean (runAcc d t r) r hecc (lo := lo) (n := n) (l := [some (bTd r.tds 1), some (bTd r.tds 2), some (bTd r.tds 4)])
    fun td htd => by
      simp only [List.mem_cons, Option.some.injEq, List.not_mem_nil, or_false] at htd
      rcases htd with rfl | rfl | rfl
      exacts [h 1 (by simp), h 2 (by simp), h 4 (by simp)]
  obtain ⟨ls, hls⟩ : ∃ ls, ls = [some (bTd r.tds 1), some (bTd r.tds 2), some (bTd r.tds 4)].map (valsOf d lo n) := ⟨_, rfl⟩
  have hus : ((List.range n).map fun j => outerElem (bLr0 r.q.desc) (bBeta1 r.q.desc) ((ls.getD 0 []).getD j 0) ((ls.getD 1 []).getD j 0)
      ((ls.getD 2 []).getD j 0)) = (List.range n).map fun j => outerAt d r (lo + j) := by
    refine List.map_congr_left fun j hj => ?_
    rw [List.mem_range] at hj
    rw [hls]
    unfold outerAt
    simp only [List.map_cons, List.getD_cons_zero, List.getD_cons_succ, valsOf_getD d _ hj]
  unfold applyOuter
  dsimp only
  rw [hread, ← hls]
  dsimp only
  rw [hus]
  simp only [List.map_map, Function.comp_def]
  generalize hd1 : onRun d t .blocker _ = d1
  have hput0 : Puts lo n [] d d1 := (Puts.nil lo n d).onlyTiles (by
    rw [← hd1]
    exact onRun_onlyTiles ..)
  obtain ⟨d2, hm1, hp1⟩ := bPut_clean t r (fun e => (outerAt d r e).1.toNat) (hput0.wrote.ecc.trans hecc)
    (hput0.wrote.floats (h 1 (by simp)))
  have hput1 := hput0.append hp1
  rw [hm1]
  dsimp only [andThen]
  obtain ⟨d3, hm2, hp2⟩ := bPut_clean t r (fun e => (outerAt d r e).2.1.toNat) (hput1.wrote.ecc.trans hecc)
    (hput1.wrote.floats (h 2 (by simp)))
  have hput2 := hput1.append hp2
  rw [hm2]
  dsimp only
  obtain ⟨d4, hm3, hp3⟩ := bPut_clean t r (fun e => (outerAt d r e).2.1.toNat) (hput2.wrote.ecc.trans hecc)
    (hput2.wrote.floats (h 0 (by simp)))
  have hput3 := hput2.append hp3
  rw [hm3]
  dsimp only
  obtain ⟨d5, hcopy, hwrote⟩ := putCopy_clean t r (fun e => (outerAt d r e).2.1) hn (hput3.wrote.ecc.trans hecc) fun p hp =>
    hput3.wrote.plain (hc p hp)
  exact ⟨d5, hcopy, (hput3.from rs).copy hwrote⟩

/-! ### REPLACE (R311) -/

theorem replaceOne_clean {d : Dev} (t : Nat) (r : RunOp) {dst src : TDesc} {lo n : Nat} (hecc : d.mem.ecc = [])
    (hdst : FloatsFrom d dst lo n) (hsrc : FloatsFrom d src lo n) :
    ∃ d', replaceOne d t r dst src lo n = (d', none) ∧ Puts lo n [(dst, replaceCode d dst src)] d d' := by
  unfold replaceOne
  dsimp only
  rw [readCodes_clean _ r hecc hsrc.reach]
  dsimp only
  rw [List.map_map]
  obtain ⟨d', hput, hputs⟩ := bPut_clean t r (replaceCode d dst src) hecc hdst
  refine ⟨d', ?_, hputs⟩
  change andThen (bPut d t r dst lo ((List.range n).map fun j => replaceCode d dst src (lo + j))) _ = _
  rw [hput]
  dsimp only [andThen]
  rw [if_pos (by rw [hdst.notMoment]; rfl)]

/-- The destinations of a REPLACE with their sources, by number, in the order of the writes. -/
def replacePairs : List (Nat × Nat) := [(1, 5), (2, 6), (0, 4)]

/-- What a REPLACE writes to some of its destinations. -/
def replacePuts (d : Dev) (r : RunOp) (l : List (Nat × Nat)) : List (TDesc × (Nat → Nat)) :=
  (l.filter fun p => bHas r.q.desc p.1).map fun p => (bTd r.tds p.1, replaceCode d (bTd r.tds p.1) (bTd r.tds p.2))

theorem replaceFold_clean (t : Nat) (r : RunOp) {lo n : Nat} {rs : List (TDesc × List Nat)} {d : Dev} (hecc : d.mem.ecc = [])
    (l : List (Nat × Nat)) (ps : List (TDesc × (Nat → Nat))) (d1 : Dev)
    (h : ∀ p ∈ l, bHas r.q.desc p.1 = true → FloatsFrom d (bTd r.tds p.1) lo n ∧ FloatsFrom d (bTd r.tds p.2) lo n ∧
      elemsFrom (bTd r.tds p.2) lo n ⊆ rs) (h1 : PutsFrom lo n rs ps d d1) :
    ∃ d2, l.foldl (fun s p => andThen s fun d =>
        if bHas r.q.desc p.1 then replaceOne d t r (bTd r.tds p.1) (bTd r.tds p.2) lo n else (d, none)) (d1, none) = (d2, none) ∧
      PutsFrom lo n rs (ps ++ replacePuts d r l) d d2 := by
  induction l generalizing ps d1 with
  | nil => exact ⟨d1, rfl, by rwa [show replacePuts d r [] = [] from rfl, List.append_nil]⟩
  | cons p l ih =>
    have hl := fun q hq => h q (List.mem_cons_of_mem _ hq)
    by_cases hp : bHas r.q.desc p.1 = true
    · obtain ⟨hdst, hsrc, hsub⟩ := h p (List.mem_cons_self ..) hp
      obtain ⟨d2, hone, hput⟩ := replaceOne_clean t r (h1.wrote.ecc.trans hecc) (h1.wrote.floats hdst) (h1.wrote.floats hsrc)
      obtain ⟨d3, hrest, hputs⟩ := ih _ d2 hl (h1.replace hput hsub)
      refine ⟨d3, ?_, ?_⟩
      · rw [List.foldl_cons]
        dsimp only [andThen]
        rw [if_pos hp, hone]
        exact hrest
      · rw [List.append_assoc] at hputs
        rwa [show replacePuts d r (p :: l) = [(bTd r.tds p.1, replaceCode d (bTd r.tds p.1) (bTd r.tds p.2))] ++ replacePuts d r l by
          simp [replacePuts, hp]]
    · obtain ⟨d2, hrest, hputs⟩ := ih ps d1 hl h1
      refine ⟨d2, ?_, ?_⟩
      · rw [List.foldl_cons]
        dsimp only [andThen]
        rw [if_neg hp]
        exact hrest
      · rwa [show replacePuts d r (p :: l) = replacePuts d r l by simp [replacePuts, hp]]

theorem applyReplace_clean {d : Dev} (t : Nat) (r : RunOp) {lo n : Nat} (hn : n ≠ 0) (hecc : d.mem.ecc = []) {rs : List (TDesc × List Nat)}
    (h : ∀ p ∈ replacePairs, bHas r.q.desc p.1 = true → FloatsFrom d (bTd r.tds p.1) lo n ∧ FloatsFrom d (bTd r.tds p.2) lo n ∧
      elemsFrom (bTd r.tds p.2) lo n ⊆ rs) (h0 : bHas r.q.desc 3 = true → FloatsFrom d (bTd r.tds 0) lo n)
    (hc : ∀ p ∈ copyElems r lo n, Plain d p.1 (r.snaps.headD []) p.2) :
    ∃ d', applyReplace d t r lo n = (d', none) ∧ ChunkWrote lo n rs (replacePuts d r replacePairs) (copyElems r lo n) d d' := by
  obtain ⟨d1, hfold, hputs⟩ := replaceFold_clean t r hecc replacePairs [] d h ((Puts.nil lo n d).from rs)
  rw [List.nil_append] at hputs
  unfold applyReplace
  dsimp only
  rw [show [(1, 5), (2, 6), (0, 4)] = replacePairs from rfl, hfold]
  dsimp only [andThen]
  by_cases h3 : bHas r.q.desc 3 = true
  · rw [if_pos h3, bVals_clean _ r (hputs.wrote.ecc.trans hecc) (hputs.wrote.floats (h0 h3))]
    dsimp only
    obtain ⟨d2, hcopy, hwrote⟩ := putCopy_clean t r (fun e => elemVal d1 (bTd r.tds 0) e) hn (hputs.wrote.ecc.trans hecc) fun p hp =>
      hputs.wrote.plain (hc p hp)
    exact ⟨d2, hcopy, hputs.copy hwrote⟩
  · rw [if_neg h3]
    exact ⟨d1, rfl, hputs.copy (.refl _ d1)⟩

/-! ### The chunk applied -/

/-- Where no moment has scales, the chunk in hand is applied when its elements are. -/
theorem chunkApply_of {d d1 : Dev} {t : Nat} {r : RunOp} (hlive : liveTxn d t 1 = some r) (hhand : r.work.txn.hand = true)
    (hcode : codeMoments r.q.desc r.tds = [])
    (h : applyElems d t r r.work.txn.front (handEnd r - r.work.txn.front) = (d1, none)) : chunkApply d t = chunkDone d1 t r := by
  unfold chunkApply
  rw [hlive]
  dsimp only
  rw [if_neg (by simp [hhand]), hcode, if_pos rfl]
  dsimp only [badMoment]
  rw [← handEnd, h]
  rfl

theorem chunkDone_onlyTiles (d : Dev) (t : Nat) (r : RunOp) : OnlyTiles d (chunkDone d t r) :=
  (onRun_onlyTiles ..).trans (count_onlyTiles ..)

end Sys2Proof.Machine
end

section
/-! The events of a Blocker transaction put together (R226, R306, R308): the chunk in hand applied by its operation, the arrival of a
chunk's state, and the obligation. -/

namespace Sys2Proof.Machine

/-! ### The chunk in hand -/

/-- The number of elements that the chunk in hand lets be applied. -/
def handLen (r : RunOp) : Nat := handEnd r - r.work.txn.front

/-- The chunk in hand has been applied: the transaction has moved on, no byte outside the elements of ps and of the working copy has
changed, and where the elements written meet neither each other nor those of rs, each of ps holds its code. -/
structure ChunkApplied (t : Nat) (r : RunOp) (rs : List (TDesc × List Nat)) (ps : List (TDesc × (Nat → Nat))) (d d' : Dev) : Prop where
  run : ∃ r', runOf d' t .blocker = some r' ∧ r'.ended = none ∧ r'.work.txn.fail = none ∧
    r'.work.txn.applied = r.work.txn.applied + 1 ∧ r'.work.txn.hand = false ∧ r'.work.txn.front = max r.work.txn.front (handEnd r)
  beside : ∀ a, Beside (putElems r.work.txn.front (handLen r) ps ++ copyElems r r.work.txn.front (handLen r)) a → byteAt d' a = byteAt d a
  holds : Laid (putElems r.work.txn.front (handLen r) ps) → (∀ p ∈ putElems r.work.txn.front (handLen r) ps, ∀ q ∈ rs, Apart p q) →
    (∀ p ∈ putElems r.work.txn.front (handLen r) ps, ∀ q ∈ copyElems r r.work.txn.front (handLen r), Apart p q) →
    ∀ p ∈ ps, ∀ e, r.work.txn.front ≤ e → e < handEnd r → Holds d' p.1 e (p.2 e)

/-- The tensors whose values an UPDATE reads, and those that it writes. -/
def updateReads (r : RunOp) : List TDesc :=
  [gradTd r.q.desc r.tds, bTd r.tds 0, bTd r.tds 1] ++ (if bHas r.q.desc 2 then [bTd r.tds 2] else [])
def updateWrites (r : RunOp) : List TDesc := [bTd r.tds 1] ++ (if bHas r.q.desc 2 then [bTd r.tds 2] else []) ++ [bTd r.tds 0]

/-- Those of an OUTER. -/
def outerReads (r : RunOp) : List TDesc := [bTd r.tds 1, bTd r.tds 2, bTd r.tds 4]
def outerWrites (r : RunOp) : List TDesc := [bTd r.tds 1, bTd r.tds 2, bTd r.tds 0]

/-- Those of a REPLACE. -/
def replaceReads (r : RunOp) : List TDesc :=
  (if bHas r.q.desc 1 then [bTd r.tds 5] else []) ++ (if bHas r.q.desc 2 then [bTd r.tds 6] else []) ++
    (if bHas r.q.desc 0 then [bTd r.tds 4] else [])
def replaceWrites (r : RunOp) : List TDesc :=
  (if bHas r.q.desc 1 then [bTd r.tds 1] else []) ++ (if bHas r.q.desc 2 then [bTd r.tds 2] else []) ++
    (if bHas r.q.desc 0 then [bTd r.tds 0] else [])

section
variable {d : Dev} {t : Nat} {r : RunOp} (hlive : liveTxn d t 1 = some r) (hrun : runOf d t .blocker = some r) (hend : r.ended = none)
  (hfail : r.work.txn.fail = none) (hhand : r.work.txn.hand = true)
include hlive hrun hend hfail hhand

/-- Elements applied without a status, where no moment has scales. -/
theorem chunkApplied_of {rs : List (TDesc × List Nat)} {ps : List (TDesc × (Nat → Nat))} (hcode : codeMoments r.q.desc r.tds = [])
    (h : ∃ d1, applyElems d t r r.work.txn.front (handLen r) = (d1, none) ∧
      ChunkWrote r.work.txn.front (handLen r) rs ps (copyElems r r.work.txn.front (handLen r)) d d1) :
    ChunkApplied t r rs ps d (chunkApply d t) := by
  obtain ⟨d1, happly, hwrote, hholds⟩ := h
  have htiles := chunkDone_onlyTiles d1 t r
  rw [chunkApply_of hlive hhand hcode happly]
  refine ⟨?_, fun a ha => (htiles.byteAt a).trans (hwrote.beside a ha), fun hl hr hc p hp e h1 h2 => ?_⟩
  · have hout := applyElems_out d t r r.work.txn.front (handLen r)
    rw [happly] at hout
    obtain ⟨r1, hgoes, hend1, hcore⟩ := (hout.resolve_right fun h => by cases h.1).goes hrun
    obtain ⟨cfail, capplied, -, -, cfront⟩ := Txn.core_eq hcore
    exact ⟨_, (chunkDone_goes hgoes).run, hend1.trans hend, cfail.trans hfail, congrArg (· + 1) capplied, rfl,
      congrArg (fun n => max n (handEnd r)) cfront⟩
  · obtain ⟨j, rfl⟩ : ∃ j, e = r.work.txn.front + j := ⟨e - r.work.txn.front, by omega⟩
    exact (htiles.bytesAt ..).trans (hholds hl hr hc p hp j (by unfold handLen; omega))

variable (hecc : d.mem.ecc = []) (hc : ∀ p ∈ copyElems r r.work.txn.front (handLen r), Plain d p.1 (r.snaps.headD []) p.2)
include hecc hc

theorem chunkApplied_update (hop : dOpcode r.q.desc = 1)
    (hf : ∀ y ∈ updateReads r, Floats d y r.work.txn.front (handEnd r)) (rs : List (TDesc × List Nat)) :
    ChunkApplied t r rs (updatePuts d r) d (chunkApply d t) := by
  have hg := floatsFrom_of (hf (gradTd r.q.desc r.tds) (by simp [updateReads]))
  have h0 := floatsFrom_of (hf (bTd r.tds 0) (by simp [updateReads]))
  have h1 := floatsFrom_of (hf (bTd r.tds 1) (by simp [updateReads]))
  have h2 (h : bHas r.q.desc 2 = true) := floatsFrom_of (hf (bTd r.tds 2) (by simp [updateReads, h]))
  refine chunkApplied_of hlive hrun hend hfail hhand ?_ ?_
  · unfold codeMoments
    rw [if_pos hop, List.filter_eq_nil_iff]
    intro td htd
    obtain ⟨k, hk, rfl⟩ := List.mem_map.1 htd
    obtain ⟨hk, hhas⟩ := List.mem_filter.1 hk
    rcases List.mem_pair.1 hk with rfl | rfl
    · rw [h1.notMoment]; exact Bool.false_ne_true
    · rw [(h2 hhas).notMoment]; exact Bool.false_ne_true
  · unfold applyElems
    by_cases hn : handLen r = 0
    · rw [if_pos hn, hn]
      exact ⟨d, rfl, .none ..⟩
    · rw [if_neg hn, hop]
      exact applyUpdate_clean t r hn hecc hg h0 h1 h2 hc rs

theorem chunkApplied_outer (hop : dOpcode r.q.desc = 4)
    (hf : ∀ y ∈ outerReads r ++ outerWrites r, Floats d y r.work.txn.front (handEnd r)) (rs : List (TDesc × List Nat)) :
    ChunkApplied t r rs (outerPuts d r) d (chunkApply d t) := by
  have h : ∀ k ∈ [0, 1, 2, 4], FloatsFrom d (bTd r.tds k) r.work.txn.front (handLen r) := fun k hk =>
    floatsFrom_of (hf _ (by revert k; simp [outerReads, outerWrites]))
  refine chunkApplied_of hlive hrun hend hfail hhand (if_neg (by rw [hop]; decide)) ?_
  unfold applyElems
  by_cases hn : handLen r = 0
  · rw [if_pos hn, hn]
    exact ⟨d, rfl, .none ..⟩
  · rw [if_neg hn, hop]
    exact applyOuter_clean t r hn hecc h hc rs

theorem chunkApplied_replace (hop : dOpcode r.q.desc = 5)
    (hf : ∀ y ∈ replaceReads r ++ replaceWrites r, Floats d y r.work.txn.front (handEnd r))
    (h0 : bHas r.q.desc 3 = true → Floats d (bTd r.tds 0) r.work.txn.front (handEnd r)) :
    ChunkApplied t r ((replaceReads r).flatMap fun y => elems y r.work.txn.front (handEnd r)) (replacePuts d r replacePairs) d
      (chunkApply d t) := by
  have hpair : ∀ p ∈ replacePairs, bHas r.q.desc p.1 = true → bTd r.tds p.2 ∈ replaceReads r ∧ bTd r.tds p.1 ∈ replaceWrites r := by
    intro p hp hhas
    simp only [replacePairs, List.mem_cons, List.not_mem_nil, or_false] at hp
    rcases hp with rfl | rfl | rfl <;> simp [replaceReads, replaceWrites, hhas]
  have h : ∀ p ∈ replacePairs, bHas r.q.desc p.1 = true → FloatsFrom d (bTd r.tds p.1) r.work.txn.front (handLen r) ∧
      FloatsFrom d (bTd r.tds p.2) r.work.txn.front (handLen r) ∧ elemsFrom (bTd r.tds p.2) r.work.txn.front (handLen r) ⊆
        (replaceReads r).flatMap fun y => elems y r.work.txn.front (handEnd r) := fun p hp hhas => by
    obtain ⟨hsrc, hdst⟩ := hpair p hp hhas
    exact ⟨floatsFrom_of (hf _ (List.mem_append_right _ hdst)), floatsFrom_of (hf _ (List.mem_append_left _ hsrc)), fun q hq =>
      List.mem_flatMap.2 ⟨_, hsrc, hq⟩⟩
  refine chunkApplied_of hlive hrun hend hfail hhand (if_neg (by rw [hop]; decide)) ?_
  unfold applyElems
  by_cases hn : handLen r = 0
  · rw [if_pos hn, hn]
    exact ⟨d, rfl, .none ..⟩
  · rw [if_neg hn, hop]
    exact applyReplace_clean t r hn hecc h (fun h3 => floatsFrom_of (h0 h3)) hc

end

/-! ### The elements written -/

theorem putElems_eq {lo n : Nat} {ps : List (TDesc × (Nat → Nat))} {l : List TDesc} (h : ps.map Prod.fst = l) :
    putElems lo n ps = l.flatMap fun y => elemsFrom y lo n := by
  rw [putElems, ← h, List.flatMap_map]

theorem updatePuts_fst (d : Dev) (r : RunOp) : (updatePuts d r).map Prod.fst = updateWrites r := by
  unfold updatePuts updateWrites
  by_cases h : bHas r.q.desc 2 = true <;> simp [h]

theorem outerPuts_fst (d : Dev) (r : RunOp) : (outerPuts d r).map Prod.fst = outerWrites r := rfl

theorem replacePuts_fst (d : Dev) (r : RunOp) : (replacePuts d r replacePairs).map Prod.fst = replaceWrites r := by
  unfold replacePuts replacePairs replaceWrites
  by_cases h1 : bHas r.q.desc 1 = true <;> by_cases h2 : bHas r.q.desc 2 = true <;> by_cases h0 : bHas r.q.desc 0 = true <;>
    simp [h1, h2, h0]

theorem mem_updatePuts (d : Dev) (r : RunOp) :
    (bTd r.tds 1, fun e => momentCode r.q.desc (bTd r.tds 1) (updAt d r e).m) ∈ updatePuts d r ∧
      (bTd r.tds 0, fun e => (updAt d r e).w.toNat) ∈ updatePuts d r ∧
      (bHas r.q.desc 2 = true → (bTd r.tds 2, fun e => momentCode r.q.desc (bTd r.tds 2) (updAt d r e).v) ∈ updatePuts d r) := by
  unfold updatePuts
  exact ⟨by simp, by simp, fun h => by simp [h]⟩

theorem mem_outerPuts (d : Dev) (r : RunOp) :
    (bTd r.tds 1, fun e => (outerAt d r e).1.toNat) ∈ outerPuts d r ∧
      (bTd r.tds 2, fun e => (outerAt d r e).2.1.toNat) ∈ outerPuts d r ∧
      (bTd r.tds 0, fun e => (outerAt d r e).2.1.toNat) ∈ outerPuts d r :=
  ⟨List.mem_cons_self .., List.mem_cons_of_mem _ (List.mem_cons_self ..),
    List.mem_cons_of_mem _ (List.mem_cons_of_mem _ (List.mem_cons_self ..))⟩

theorem mem_replacePuts (d : Dev) {r : RunOp} {p : Nat × Nat} (hp : p ∈ replacePairs) (h : bHas r.q.desc p.1 = true) :
    (bTd r.tds p.1, replaceCode d (bTd r.tds p.1) (bTd r.tds p.2)) ∈ replacePuts d r replacePairs :=
  List.mem_map.2 ⟨p, List.mem_filter.2 ⟨hp, h⟩, rfl⟩

/-! ### The chunk in hand by its operation -/

/-- The tensors whose values the chunk in hand reads, and those that it writes. -/
def chunkReads (r : RunOp) : List TDesc :=
  if dOpcode r.q.desc = 1 then updateReads r else if dOpcode r.q.desc = 4 then outerReads r else replaceReads r
def chunkWrites (r : RunOp) : List TDesc :=
  if dOpcode r.q.desc = 1 then updateWrites r else if dOpcode r.q.desc = 4 then outerWrites r else replaceWrites r

/-- The elements that a REPLACE copies, which may not be among those written for each to hold its source's old code. -/
def sourceElems (r : RunOp) : List (TDesc × List Nat) :=
  if dOpcode r.q.desc = 5 then (chunkReads r).flatMap fun y => elems y r.work.txn.front (handEnd r) else []

/-- What element e holds on d' once it has been applied to d: an UPDATE's moments and master (R298), an OUTER's momentum, anchor and
master (R310), a REPLACE's codes (R311). -/
structure ElemWritten (d d' : Dev) (r : RunOp) (e : Nat) : Prop where
  update : dOpcode r.q.desc = 1 → Holds d' (bTd r.tds 1) e (momentCode r.q.desc (bTd r.tds 1) (updAt d r e).m) ∧
    Holds d' (bTd r.tds 0) e (updAt d r e).w.toNat ∧
    (bHas r.q.desc 2 = true → Holds d' (bTd r.tds 2) e (momentCode r.q.desc (bTd r.tds 2) (updAt d r e).v))
  outer : dOpcode r.q.desc = 4 → Holds d' (bTd r.tds 1) e (outerAt d r e).1.toNat ∧ Holds d' (bTd r.tds 2) e (outerAt d r e).2.1.toNat ∧
    Holds d' (bTd r.tds 0) e (outerAt d r e).2.1.toNat
  replace : dOpcode r.q.desc = 5 → ∀ p ∈ replacePairs, bHas r.q.desc p.1 = true →
    Holds d' (bTd r.tds p.1) e (replaceCode d (bTd r.tds p.1) (bTd r.tds p.2) e)

theorem elemWritten_of_update {d d' : Dev} {r : RunOp} {e : Nat} (hop : dOpcode r.q.desc = 1)
    (h : ∀ p ∈ updatePuts d r, Holds d' p.1 e (p.2 e)) : ElemWritten d d' r e := by
  obtain ⟨hm, hw, hv⟩ := mem_updatePuts d r
  refine ⟨fun _ => ⟨?_, ?_, fun h2 => ?_⟩, fun hop' => ?_, fun hop' => ?_⟩
  · have hholds := h _ hm
    exact hholds
  · have hholds := h _ hw
    exact hholds
  · have hholds := h _ (hv h2)
    exact hholds
  · rw [hop] at hop'; cases hop'
  · rw [hop] at hop'; cases hop'

theorem elemWritten_of_outer {d d' : Dev} {r : RunOp} {e : Nat} (hop : dOpcode r.q.desc = 4)
    (h : ∀ p ∈ outerPuts d r, Holds d' p.1 e (p.2 e)) : ElemWritten d d' r e := by
  obtain ⟨hm, ha, hw⟩ := mem_outerPuts d r
  refine ⟨fun hop' => ?_, fun _ => ⟨?_, ?_, ?_⟩, fun hop' => ?_⟩
  · rw [hop] at hop'; cases hop'
  · have hholds := h _ hm
    exact hholds
  · have hholds := h _ ha
    exact hholds
  · have hholds := h _ hw
    exact hholds
  · rw [hop] at hop'; cases hop'

theorem elemWritten_of_replace {d d' : Dev} {r : RunOp} {e : Nat} (hop : dOpcode r.q.desc = 5)
    (h : ∀ p ∈ replacePuts d r replacePairs, Holds d' p.1 e (p.2 e)) : ElemWritten d d' r e := by
  refine ⟨fun hop' => ?_, fun hop' => ?_, fun _ p hp hhas => ?_⟩
  · rw [hop] at hop'; cases hop'
  · rw [hop] at hop'; cases hop'
  · have hholds := h _ (mem_replacePuts d hp hhas)
    exact hholds

/-- The chunk in hand applied, whichever of the three operations it is of. -/
theorem chunkApply_elems {d : Dev} {t : Nat} {r : RunOp} (hlive : liveTxn d t 1 = some r) (hrun : runOf d t .blocker = some r)
    (hend : r.ended = none) (hfail : r.work.txn.fail = none) (hhand : r.work.txn.hand = true) (hecc : d.mem.ecc = [])
    (hc : ∀ p ∈ copyElems r r.work.txn.front (handLen r), Plain d p.1 (r.snaps.headD []) p.2)
    (hop : dOpcode r.q.desc = 1 ∨ dOpcode r.q.desc = 4 ∨ dOpcode r.q.desc = 5)
    (hf : ∀ y ∈ chunkReads r ++ chunkWrites r, Floats d y r.work.txn.front (handEnd r))
    (h0 : dOpcode r.q.desc = 5 → bHas r.q.desc 3 = true → Floats d (bTd r.tds 0) r.work.txn.front (handEnd r)) :
    ∃ ps, ps.map Prod.fst = chunkWrites r ∧ ChunkApplied t r (sourceElems r) ps d (chunkApply d t) ∧
      ∀ d' e, (∀ p ∈ ps, Holds d' p.1 e (p.2 e)) → ElemWritten d d' r e := by
  rcases hop with hop | hop | hop
  · have hreads : chunkReads r = updateReads r := if_pos hop
    have hwrites : chunkWrites r = updateWrites r := if_pos hop
    rw [hreads] at hf
    exact ⟨_, (updatePuts_fst d r).trans hwrites.symm, chunkApplied_update hlive hrun hend hfail hhand hecc hc hop
      (fun y hy => hf y (List.mem_append_left _ hy)) _, fun _ _ => elemWritten_of_update hop⟩
  · have h1 : ¬ dOpcode r.q.desc = 1 := by rw [hop]; decide
    have hreads : chunkReads r = outerReads r := (if_neg h1).trans (if_pos hop)
    have hwrites : chunkWrites r = outerWrites r := (if_neg h1).trans (if_pos hop)
    rw [hreads, hwrites] at hf
    exact ⟨_, (outerPuts_fst d r).trans hwrites.symm, chunkApplied_outer hlive hrun hend hfail hhand hecc hc hop hf _,
      fun _ _ => elemWritten_of_outer hop⟩
  · have h1 : ¬ dOpcode r.q.desc = 1 := by rw [hop]; decide
    have h4 : ¬ dOpcode r.q.desc = 4 := by rw [hop]; decide
    have hreads : chunkReads r = replaceReads r := (if_neg h1).trans (if_neg h4)
    have hwrites : chunkWrites r = replaceWrites r := (if_neg h1).trans (if_neg h4)
    rw [hreads, hwrites] at hf
    have hsource : sourceElems r = (replaceReads r).flatMap fun y => elems y r.work.txn.front (handEnd r) :=
      (if_pos hop).trans (by rw [hreads])
    rw [hsource]
    exact ⟨_, (replacePuts_fst d r).trans hwrites.symm, chunkApplied_replace hlive hrun hend hfail hhand hecc hc hop hf (h0 hop),
      fun _ _ => elemWritten_of_replace hop⟩

/-! ### The arrival of a chunk's state -/

/-- The state of the next chunk in order has been fetched: no byte outside the basin has changed where memory is in no error, and the
chunk's state is there, or the transaction has failed and the shard has no slot. -/
structure StateFetched (t : Nat) (r : RunOp) (px : Polder) (cuts : List (Nat × Nat)) (k : Nat) (d d' : Dev) : Prop where
  beside : d.mem.ecc = [] → ∀ a, a < t * 2 ^ 20 + px.basinOfs t ∨ t * 2 ^ 20 + px.basinOfs t + px.wslots * px.wsize ≤ a →
    byteAt d' a = byteAt d a
  out : RunGoes t d d' r r ∧ BasinHolds d' t (bSrec r.q.desc) k ∨
    ¬ (d.mem.ecc = [] ∧ ∀ p ∈ chunkRuns r.q.desc r.tds cuts k, rangeErr d p.1 p.2 = none) ∧
      (∀ b ∈ basinOf d' t, b.shard ≠ bSrec r.q.desc) ∧
      RunGoes t d d' r { r with work := { r.work with txn := { r.work.txn with fail := some 0x0312 } } }

theorem stateFetch_fetched {d : Dev} {t : Nat} {r : RunOp} {px : Polder} {cuts : List (Nat × Nat)} {k : Nat}
    (hrun : runOf d t .blocker = some r) (hlive : liveTxn d t 1 = some r) (hfail : r.work.txn.fail = none)
    (hpol : polderOf d (runPolder d t r) = some px) (hnext : FetchNext d t r px cuts k)
    (hslot : (∃ b ∈ basinOf d t, b.shard = bSrec r.q.desc ∧ b.chunk = k) ∨ (basinOf d t).length < px.wslots) :
    StateFetched t r px cuts k d (stateFetch d t) := by
  obtain ⟨g, htake, b, hb, hshard, hchunk⟩ := takeBasin_cases (f := fun s => { s with state := true }) hslot
  have heq := stateFetch_of hlive hpol hnext htake
  obtain ⟨d1, hd1⟩ : ∃ d1, d1 = basinFill (onBasin d t g) t px := ⟨_, rfl⟩
  have hgoes : RunGoes t d d1 r r := by
    rw [hd1]
    exact (RunGoes.of_engines hrun (engineOf_onBasin d t g)).onlyMem (basinFill_onlyMem ..)
  have hholds : BasinHolds d1 t (bSrec r.q.desc) k := by
    refine ⟨{ b with state := true }, ?_, hshard, hchunk, rfl⟩
    rw [hd1, basinOf_onlyMem (basinFill_onlyMem ..), basinOf_onBasin]
    exact hb
  have hclean (hecc : d.mem.ecc = []) := basinFill_clean (d := onBasin d t g) t px hecc
  rw [← hd1] at heq hclean
  rw [heq]
  refine ⟨fun hecc a ha => ?_, ?_⟩
  · rw [byteAt_fetchInto _ _ _ _ _ (hclean hecc).1, (hclean hecc).2.2 a ha]
    exact (onTile_onlyTiles ..).byteAt a
  · rcases fetchInto_goes (acc := { runAcc d t r with cls := 3 }) (cuts := cuts) (k := k) hgoes hfail with ⟨hout, hbasin⟩ | ⟨hgone, hout⟩
    · obtain ⟨b, hb, hrest⟩ := hholds
      exact .inl ⟨hout, b, by rw [hbasin]; exact hb, hrest⟩
    · refine .inr ⟨fun ⟨hecc, hruns⟩ => ?_, hgone, hout⟩
      rw [fetchInto_present _ _ _ _ _ (hclean hecc).1 fun p hp => by
        rw [rangeErr_congr (hclean hecc).2.1]
        exact ((onTile_onlyTiles ..).rangeErr ..).trans (hruns p hp)] at hgone
      obtain ⟨b, hb, hs, -⟩ := hholds
      exact hgone b hb hs

/-! ### The obligation -/

/-- Settles O27, event by event: the frames and ends of `chunkBegin_goes`, `chunkApply_goes`, `txnCommit_of`, `txnClose_of` and
`txnRollback_out`, the journal's and the elements' bytes where memory is in no error, and the wait basin's slots. -/
theorem blockerTransactions : Obligations.BlockerTransactions := by
  unfold Obligations.BlockerTransactions
  refine ⟨fun t s r px hrun hbegun hend hpol => ?_, fun t s r px hrun hbegun hend hpol hphase hfail hecc => ?_,
    fun t s r px hrun hbegun hend hpol => ?_⟩
  · intro x tx keeps
    have keeps_of {d' : Dev} {r' : RunOp} (h : RunGoes t.toNat s.dev d' r r') : keeps { s with dev := d' } r' :=
      ⟨⟨rfl, rfl, rfl⟩, h.run, h.q, h.tds, h.engines⟩
    refine ⟨fun cuts no hi hphase hfail hhand hcuts hchunk hgrad hstate hslot => ?_, fun hphase hfail hhand => ?_,
      fun cuts hphase hfail hhand hcuts hall hopen hrec harec => ?_, fun hphase hfail => ⟨?_, fun hrec harec hsrec hasrec hne => ?_⟩,
      fun c hfail hopen => ?_⟩
    · have hlive := liveTxn_of hrun hbegun hend hphase hfail
      obtain ⟨d1, htaken, hgoes⟩ := slot_taken hrun hslot
      obtain ⟨r', hgoes', hend', hout⟩ := chunkBegin_goes (px := px) (cuts := cuts) (hi := hi) hgoes hend
      rw [← chunkUpdate_of ⟨hlive, hpol, hhand, hcuts, hchunk, hgrad, hstate⟩ htaken] at hgoes'
      refine ⟨_, r', rfl, keeps_of hgoes', hend', hout.imp_right fun h => ?_⟩
      rw [h]
      exact ⟨hfail, rfl, rfl, rfl, rfl⟩
    · have hlive := liveTxn_of hrun hbegun hend hphase hfail
      obtain ⟨r', hgoes, hout⟩ := chunkApply_goes hlive hrun hend hfail hhand
      exact ⟨_, r', rfl, keeps_of hgoes, hout.imp_left fun h => ⟨_, h, rfl⟩⟩
    · have hlive := liveTxn_of hrun hbegun hend hphase hfail
      obtain ⟨hgoes, hbytes, hbeside⟩ := txnCommit_of hlive hrun hpol hcuts hall hhand hopen hrec harec
      exact ⟨_, _, rfl, keeps_of hgoes, hend, rfl, hbytes, hbeside⟩
    · change OpEnds s t.toNat .blocker .committed 0 _ (.next { s with dev := txnClose s.dev t.toNat })
      rw [txnClose_of (liveTxn_of hrun hbegun hend hphase hfail) hpol]
      exact (closeCounts_frame ..).toOpFrame.opEnds hrun hend ..
    · obtain ⟨hr, hs⟩ := txnClose_records (liveTxn_of hrun hbegun hend hphase hfail) hpol hrec harec hsrec hasrec hne
      exact ⟨_, rfl, hr, hs⟩
    · exact txnRollback_out hrun hbegun hend hpol hfail hopen
  · have hlive := liveTxn_of hrun hbegun hend hphase hfail
    intro x tx td pos
    refine ⟨?_, ?_⟩
    · intro cuts no hi hhand hcuts hchunk hgrad hstate hslot upto hblocks
      have hready : ChunkReady s.dev t.toNat r px cuts no hi := ⟨hlive, hpol, hhand, hcuts, hchunk, hgrad, hstate.imp_right .inl⟩
      have heq := chunkUpdate_of hready (d1 := s.dev) (if_pos hslot)
      obtain ⟨hrun', hdata, hbeside⟩ := chunkBegin_clean (px := px) (cuts := cuts) (hi := hi) hrun hecc hblocks
      rw [← heq] at hrun' hdata hbeside
      refine ⟨_, _, rfl, hrun', hend, ?_, fun j h1 h2 => ⟨(hdata j h1 h2).data, (hdata j h1 h2).header⟩, hbeside⟩
      dsimp only
      rw [← hcuts]
      rfl
    · intro hhand hop hi lo reads writes cs ws rs hfloats h0 hcs
      obtain ⟨ps, hfst, happlied, hwritten⟩ := chunkApply_elems hlive hrun hend hfail hhand hecc hcs hop hfloats h0
      obtain ⟨⟨r', hrun', hend', hfail', happ, hhand', hfront⟩, hbeside, hholds⟩ := happlied
      rw [putElems_eq hfst] at hbeside hholds
      refine ⟨_, r', rfl, hrun', hend', hfail', happ, hhand', hfront, hbeside, fun hspread hnodup hapart e h1 h2 => ?_⟩
      obtain ⟨hupdate, houter, hreplace⟩ := hwritten _ e fun p hp => hholds ⟨hspread.1, hnodup⟩ hspread.2 hapart p hp e h1 h2
      intro v moment u o
      have hmoment : moment = momentCode r.q.desc := rfl
      have hu : u = updAt s.dev r e := rfl
      have ho : o = outerAt s.dev r e := rfl
      clear_value moment u o
      subst hmoment hu ho
      exact ⟨hupdate, houter, hreplace⟩
  · intro x tx holds
    refine ⟨fun cuts k hphase hfail hcuts htier hlow hhigh hbefore hmissing hnear hslot => ?_, fun h => ?_⟩
    · have hlive := liveTxn_of hrun hbegun hend hphase hfail
      obtain ⟨hbytes, hout⟩ := stateFetch_fetched hrun hlive hfail hpol ⟨hcuts, htier, hlow, hhigh, hbefore, hmissing, hnear⟩ hslot
      rcases hout with ⟨hgoes, hheld⟩ | ⟨habsent, hgone, hgoes⟩
      · exact ⟨_, r, rfl, ⟨rfl, rfl, rfl⟩, hgoes.run, rfl, hend, hbytes, fun _ _ => ⟨rfl, hheld⟩, .inl ⟨rfl, hheld⟩⟩
      · exact ⟨_, _, rfl, ⟨rfl, rfl, rfl⟩, hgoes.run, rfl, hend, hbytes, fun hecc hruns => absurd ⟨hecc, hruns⟩ habsent,
          .inr ⟨rfl, hgone⟩⟩
    · obtain ⟨b, hb, hshard, hchunk, heq⟩ := slotFree_of hrun h
      refine ⟨b, hb, hshard, hchunk, ?_⟩
      rw [← heq]
      rfl

end Sys2Proof.Machine
end
